-- ==== Sys2Proof/Syntax.lean ====
section
/-! DEFINITION. The commands the part takes from outside: one constructor per row of spec/opcode_table.json.
The table gives its rows no operands and no bits. The operands here are what the spec says the surroundings supply: the
written value of a write, the content of a received folio, message or packet, a reading of an analog input, an instant of
wall time (`t`, in units of 2^-16 ns, R154). -/

namespace Sys2Proof

/-- Who makes a register or window access (ERR_CAP0.SRC, R39). -/
inductive Requester where
  | pcie | spi | remote | firmware
  deriving DecidableEq, Repr

/-- Width of a register access (R35, R36). `lo` and `hi` are the 32-bit halves at offsets +0 and +4. -/
inductive AccSize where
  | b8 | b16 | lo | hi | b64
  deriving DecidableEq, Repr

/-- What wakes the part from SLEEP (R299). -/
inductive WakeSource where
  | beacon | pin | alarm
  deriving DecidableEq, Repr

/-- A folio: the fields of its header and its words (R129, R130). -/
structure Folio where
  typ : BitVec 4
  stream : BitVec 2
  node : BitVec 6
  seq : BitVec 12
  bcast : Bool
  last : Bool
  ret : Bool
  hold : Bool
  words : List Word72
  deriving DecidableEq, Repr

/-- The envelope of a mailbox request: the queue the answer goes to and its MSG_ID (R144, R266). -/
structure Req where
  reply : BitVec 18
  id : BitVec 12
  deriving DecidableEq, Repr

/-- A remote access as it reaches its target (Table 07-6). -/
structure RemoteReq where
  src : BitVec 18
  id : BitVec 12
  op : BitVec 3
  addr : BitVec 32
  data : Word72
  deadline : Nat
  deriving DecidableEq, Repr

/-- An AUX transaction of a DisplayPort source (R53, Table 03-2). -/
inductive AuxReq where
  | invalid
  | dpcd (addr : BitVec 20)
  | edid (offset : BitVec 8)
  deriving DecidableEq, Repr

/-- A pixel as a stream carries it: three code values (R, G, B, or Y, Cb, Cr), or with 4:2:2 sampling its Y and the four Cb and Cr
samples around it, from which intake interpolates its chroma (R61). -/
inductive Sample where
  | full (c0 c1 c2 : BitVec 16)
  | sub (y : BitVec 16) (cb cr : List (BitVec 16))
  deriving DecidableEq, Repr

/-- An RTP packet as it reaches a port in mode 2 (R55, R57): its addresses, the line and the offset in pixels of its first pixel, its
pixels, and whether the intake FIFO took it (R71). -/
structure Packet where
  dstIp : BitVec 32
  srcIp : BitVec 32
  udp : BitVec 16
  pt : BitVec 7
  line : BitVec 15
  offset : BitVec 15
  pixels : List Sample
  stored : Bool
  deriving DecidableEq, Repr

/-- A source frame start (R58, R64): in mode 1 the active raster and the format index 4s + d as the link shows them, the wall time at
which the first active pixel enters memory, and in mode 2 the RTP time stamp. -/
structure FrameStart where
  width : Nat
  height : Nat
  fmt : BitVec 4
  t : Nat
  rtp : BitVec 32
  deriving DecidableEq, Repr

/-- How the composition of a frame ended (R66, R73, R91, R93, R94): the feeds that are late, the leaves of them that were not composed
(side, node, feed, leaf), the ports of which a band read missing lines, the feeds whose write-back slot missed its bandwidth or FIFO, the
layers whose pass 1 has not finished, and the time taken. -/
structure CompositionEnd where
  late : BitVec 4
  omitted : List (Fin 2 × BitVec 6 × BitVec 2 × BitVec 9)
  holes : BitVec 4
  wbMissed : BitVec 4
  pass1Late : BitVec 64
  busyNs : BitVec 32
  deriving DecidableEq, Repr

/-- What a lane measures in ADAPT (R118): the inner-eye height at each peak setting, the DC gains whose outer centers lie inside 85 % of the
slicer range, the sampling phases whose eye is open, and the eye height of the last histogram. -/
structure EyeScan where
  peak : List (BitVec 8)
  outer : BitVec 8
  phases : BitVec 64
  eye : BitVec 8
  deriving DecidableEq, Repr

/-- How a record reaches a sender: as a folio on a ring, or as a datagram on the management Ethernet link, with its source address and its UDP
port (R276). -/
inductive Via where
  | ring
  | datagram (src : BitVec 32) (udp : BitVec 16)
  deriving DecidableEq, Repr

/-- What an Announce says of its grandmaster, and through whom it comes: the data set that the best master clock algorithm of
IEEE 1588-2019 compares (R162). -/
structure PtpMaster where
  prio1 : BitVec 8
  cls : BitVec 8
  accuracy : BitVec 8
  variance : BitVec 16
  prio2 : BitVec 8
  gm : Word
  steps : BitVec 16
  source : BitVec 80
  deriving DecidableEq, Repr

/-- What firmware's tasks do that the scheduler acts on (R263, R264): a task becomes ready for the first time, to run on a core; the
task of a core waits on a queue for at most some ms, sleeps for some µs, ends, or gives way to another; a queue event wakes a task. -/
inductive TaskAct where
  | start (task : BitVec 16) (prio : BitVec 3) (core : Fin 7)
  | wait (core : Fin 7) (qn : BitVec 18) (tmoMs : BitVec 14)
  | event (task : BitVec 16)
  | delay (core : Fin 7) (us : Nat)
  | finish (core : Fin 7)
  | preempt (core : Fin 7)
  deriving DecidableEq, Repr

/-- A PTP message of a domain on an intake port (R162, Table 08-5). Stamps are in 2^-16 ns, those of messages with their corrections: of a
Sync its receive stamp, and with a one-step master its origin; of a Delay_Resp the transmit stamp of the Delay_Req it answers, and the
master's receive stamp. -/
inductive PtpMsg where
  | announce (domain : BitVec 8) (port : BitVec 2) (m : PtpMaster)
  | sync (domain : BitVec 8) (port : BitVec 2) (seq : BitVec 16) (rx : Nat) (origin : Option Nat)
  | followUp (domain : BitVec 8) (port : BitVec 2) (seq : BitVec 16) (origin : Nat)
  | delayResp (domain : BitVec 8) (port : BitVec 2) (seq : BitVec 16) (tx rx : Nat)
  deriving DecidableEq, Repr

/-- Which end of an activation a message names, and its content (R311, R312). -/
structure ActCommit where
  frame : BitVec 48
  actNo : BitVec 32
  epoch : BitVec 32
  fromNode : BitVec 6
  deriving DecidableEq, Repr

/-- A comparator's reading of one lamp in a line slot (R218, R219): the channel, whether it was an open or a short test, the
channel's headroom or the column's level in mV, and whether a probe gave it. -/
structure LampTest where
  ch : BitVec 9
  short : Bool
  mv : Nat
  probe : Bool
  deriving DecidableEq, Repr

/-- What a leaf die reports of one line slot (R206, R210, R225, R227, R234): the slot's index in its sub-period and the
sub-period, whether its row was present, comparator readings, a switch found stuck on, the least headroom of its conducting
channels per class in mV. -/
structure LineReport where
  slot : BitVec 7
  sub : BitVec 7
  rowPresent : Bool
  tests : List LampTest
  stuckRow : Option (BitVec 7)
  hdrm : List (Option Nat)
  deriving DecidableEq, Repr

/-- A Self-Trim cycle's result for one item (R253, Table 13-4). `pos`, `neg` are comparison counts for HI and LO; `pos` is the
mean bin in 1/256 of a bin for DLY. For PHY `gain` is the EYE gain of the better neighbor, `step` its direction, and `pos` tells
the setting, 0 PEAK and 1 the sampling phase. -/
structure TrimResult where
  target : BitVec 2
  die : BitVec 2
  index : BitVec 9
  pos : Nat
  neg : Nat
  edges : Nat
  gain : Nat
  step : Int
  tempMovedC : Nat
  startedAt : Nat
  deriving DecidableEq, Repr

/-- A policy table as POLICY_LOAD carries it (R270, Table 14-6). -/
structure PolicyTable where
  id : BitVec 16
  version : BitVec 16
  length : BitVec 16
  body : List Word
  crc : BitVec 32
  deriving DecidableEq, Repr

/-- What ends a start step (R288): whether it ended OK, the DETAIL of its record, the time since the reset in µs. -/
structure StepEnd where
  ok : Bool
  detail : BitVec 8
  tUs : BitVec 32
  deriving DecidableEq, Repr

/-- What firmware and the measurements of a start step hand over when it ends well (Table 16-1): step 2 the fuse policy (bit 0
locks the debug SPI, bit 1 forbids remote access), 4 the bytes of the recovery image in
the board's SPI NOR, or of a firmware slot as the factory filled it, 6 the dies that are up, 8 the
cores that failed BIST, 9 whether a failure was the conversion's and the pages the fuse policy locks, 10 the channels trained, 14
the bundle's policy tables and the queue descriptors. Fields a step does not use are ignored by it. -/
structure StepWork where
  coreFail : BitVec 8
  convertFail : Bool
  image : List Byte
  dieMask : BitVec 4
  trained : BitVec 8
  fuse : BitVec 2
  lockMask : Word
  policies : List PolicyTable
  queues : List (BitVec 12 × List Word72)
  deriving DecidableEq, Repr

/-- The commands. The order is the table's. -/
inductive Instr where
  -- resets, start, power
  | por (role bootsel : BitVec 2)
  | brownOut
  | resetN
  | watchdogExpire
  | stepTimeout (e : StepEnd)
  | stepRestart
  | startDone (e : StepEnd)
  | softReset (src : Requester) (key : BitVec 8)
  | softResetApply
  | pathClr (src : Requester)
  | qrefclkLoss
  | pcieRefclkLoss
  | perst
  | vlfLoss (d : Fin 4)
  | xin32Loss
  | wake (w : WakeSource)
  | sleepEntry
  -- registers and windows
  | registerWrite (src : Requester) (addr : BitVec 32) (size : AccSize) (data : Word)
  | lowHalfRead (src : Requester) (addr : BitVec 32)
  | tableWindowWrite (src : Requester) (addr : BitVec 32) (hi : BitVec 32)
  | bar4Write (addr : Word) (data : List Byte)
  | commit (src : Requester) (page : BitVec 8)
  | discard (src : Requester) (page : BitVec 8)
  | snapReq (src : Requester) (page : BitVec 8)
  | snapshotComplete (page : BitVec 8) (t : Nat)
  | counterClear (src : Requester) (addr : BitVec 32) (data : Word)
  | lockSet (src : Requester) (page : BitVec 8)
  | msixUnmask (v : BitVec 6)
  | blkReset (src : Requester) (page : BitVec 8)
  | blkResetDone (page : BitVec 8)
  | xovf (page : BitVec 8) (crossing : Word)
  -- remote access and debug SPI
  | raRead64 (src : Requester) (t : Nat)
  | raWrite64 (src : Requester) (t : Nat)
  | raRead72 (src : Requester) (t : Nat)
  | raWrite72 (src : Requester) (t : Nat)
  | raSnapread (src : Requester) (t : Nat)
  | raCommit (src : Requester) (t : Nat)
  | remoteAccessRequest (r : RemoteReq) (t : Nat)
  | remoteAccessResponse (node : BitVec 6) (id : BitVec 12) (code : BitVec 4) (data : Word72)
  | remoteAccessTimeout (t : Nat)
  | spiRead64 (addr : BitVec 32)
  | spiWrite64 (addr : BitVec 32) (data : Word)
  | spiRead72 (addr : BitVec 32)
  | spiWrite72 (addr : BitVec 32) (data : Word72)
  -- ticks and commits
  | tick
  | latchPoint
  | feedSlotStart (k : BitVec 2)
  | schedCommitDeadline
  | cancelReceive (r : Req) (frame : BitVec 48)
  | schedCommitArm (r : Req) (frame : BitVec 48) (pages : Word)
  -- source intake
  | ingModeChange (src : Requester) (p : Fin 4) (data : Word)
  | edidWrite (src : Requester) (p : Fin 4) (data : Word)
  | dpLinkTraining (p : Fin 4) (rate : BitVec 2) (lanes : BitVec 2)
  | auxTransaction (p : Fin 4) (a : AuxReq)
  | st2110Packet (p : Fin 4) (k : Packet)
  | streamWrite (src : Requester) (p : Fin 4) (data : Word)
  | igmpQuery (p : Fin 4)
  | arpRequest (p : Fin 4) (ip : BitVec 32)
  | sourceFrameStart (p : Fin 4) (f : FrameStart)
  | sourceFrameComplete (p : Fin 4) (t : Nat)
  | pathLate (p : Fin 4) (upper : Bool) (skewUs packets : Nat)
  | lossOfSignal (p : Fin 4)
  | pickLogReceive (via : Via) (words : List Word72)
  | pickSelf
  -- composition and imposition
  | fenceTimeout (l : BitVec 6)
  | flipLogReceive (via : Via) (words : List Word72)
  | flipSelf
  | bufRelease (src : Requester) (handle : BitVec 12)
  | compositionDeadline (e : CompositionEnd)
  | bankPrepare (src : Requester) (bank : BitVec 1)
  | bankPrepareDone (ue : Option (Fin 2 × BitVec 6))
  | refreshRecordReceive (s : Fin 2) (via : Via) (words : List Word72)
  | refreshSelf (s : Fin 2)
  | needFullReceive (s : Fin 2) (node : BitVec 6) (feeds : BitVec 4)
  | signatureSend (s : Fin 2) (node : BitVec 6) (feed : BitVec 2) (t : Nat)
  | bandReady (s : Fin 2) (node : BitVec 6) (feed : BitVec 2) (row : BitVec 4) (t : Nat)
  | sendDeadline (s : Fin 2) (node : BitVec 6)
  -- Quire physical layer
  | laneSignalDetect (s : Fin 2) (l : Fin 5)
  | adaptComplete (s : Fin 2) (l : Fin 5) (e : EyeScan)
  | alignLock (s : Fin 2) (l : Fin 5)
  | laneVerified (s : Fin 2) (l : Fin 5)
  | verifyFail (s : Fin 2) (l : Fin 5)
  | laneDown (s : Fin 2) (l : Fin 5) (lost : Nat)
  | laneCountReduce (s : Fin 2)
  | deskew (s : Fin 2) (l : Fin 5) (lost : Nat)
  | sideUp (s : Fin 2) (t : Nat)
  | sideDown (s : Fin 2)
  | rateStep (s : Fin 2)
  | retrain (src : Requester) (s : Fin 2)
  | idleFolioSend (s : Fin 2)
  | wearWindowEnd (s : Fin 2) (l : Fin 5) (count : Nat)
  | laneSwapGo (src : Requester) (s : Fin 2) (lane : BitVec 4)
  | swapRequestReceive (s : Fin 2) (lane : BitVec 3)
  | swapApply (s : Fin 2) (tx : Bool)
  -- Quire link layer
  | folioReceive (s : Fin 2) (l : Fin 5) (f : Folio) (decoded : Bool) (latencyNs : BitVec 16)
  | sigHdrReceive (st : Fin 2) (words : List Word72) (t : Nat)
  | sigDataReceive (st : Fin 2) (words : List Word72) (last : Bool) (t : Nat)
  | needFullRetry
  | signatureExpire (st : Fin 2)
  | enumGo (src : Requester) (side : Fin 2)
  | enumReceive (s : Fin 2) (words : List Word72) (hops : BitVec 6)
  | enumDone (s : Fin 2) (acks : Word) (moved : Bool)
  | linkUpReceive (s : Fin 2) (tile : BitVec 6)
  | mgFragmentReceive (via : Via) (words : List Word72)
  | fragTimeout (srcQn : BitVec 18)
  | streamLoss (st : Fin 2)
  | streamRestore (st : Fin 2)
  | breakReceive (s : Fin 2) (tile : BitVec 6) (side : Fin 2)
  -- wall time
  | timeFolioSend (s : Fin 2) (t : Nat)
  | timeFolioReceive (s : Fin 2) (words : List Word72) (rx : Nat) (seq : BitVec 12)
  | parentTimeout
  | sourceChange (code : BitVec 3) (valid : Bool)
  | servoLock
  | tbArm (src : Requester) (data : Word)
  | ptpMessage (d : Fin 2) (m : PtpMsg)
  | ptpAnnounceTimeout (d : Fin 2)
  | glkEdge (t : Nat) (valid : Bool)
  | glkLoss
  | ppsEdge (t : Nat) (valid : Bool)
  | ppsLoss
  | ppsOutPulse (sec : Nat)
  | tickOutPulse (frame : BitVec 48) (feed : BitVec 2)
  | fwinEdge (t : Nat)
  | fwinDecision
  | fwinLoss
  | fwinResume
  | captureEdge (input : BitVec 5) (rising : Bool) (t : Nat)
  | triggerPulse (k : Fin 4) (n : Nat)
  -- tile pixel path
  | geomWrite (src : Requester) (data : Word)
  | pressStart (ue : List Nat)
  | pressComplete (ns : BitVec 32)
  | ageSaveGo (src : Requester)
  | ageSaveDone
  -- scan and drive
  | lineSlotStart (d : Fin 4) (r : LineReport)
  | underrunShutdown (d : Fin 4)
  | pllUnlock (d : Fin 4)
  | irefFault (d : Fin 4) (rirefOhm : Option Nat)
  | dieLinkDown (d : Fin 4)
  | lampEn (src : Requester) (v : Bool)
  | blkCtrlEn (src : Requester) (page : BitVec 8) (v : Bool)
  | bankStart (d : Fin 4)
  | stringTransmit (d : Fin 4)
  -- lamp health
  | lampStale (d : Fin 4) (row : BitVec 7) (ch : BitVec 9)
  | lhmClear (src : Requester) (d : Fin 4) (row : BitVec 7) (ch : BitVec 9)
  | lhmMask (src : Requester) (d : Fin 4) (row : BitVec 7) (ch : BitVec 9)
  | lhmRetest (src : Requester) (d : Fin 4) (row : BitVec 7) (ch : BitVec 9)
  | lhmFaultClr (src : Requester) (d : Fin 4) (row : BitVec 7) (ch : BitVec 9)
  | lhmCmdDone
  -- rail control
  | loopEnable (src : Requester) (k : Fin 8) (data : Word)
  | rceSample (k : Fin 8) (dt : Nat) (costNs : Nat) (late : Bool)
  | profileUpdate (k : Fin 8) (jerk : Int)
  | profGo (src : Requester) (k : Fin 8)
  | profRelease (src : Requester) (k : Fin 8)
  | loopResume (src : Requester) (k : Fin 8)
  | holdLimit (k : Fin 8)
  | pmbusWrite
  | pmbusTimeout (k : Fin 8)
  -- housekeeping and trim
  | housekeepingRound (t : Nat)
  | hkRoundPublish (readings : List Int) (tach : List Nat) (late : BitVec 8)
  | threshWrite (src : Requester) (data : Word)
  | comparatorTrip (k : Fin 5) (absolute : Bool)
  | shutdownGraceEnd
  | thermalRecovery
  | throttleReqRepeat
  | graceExpire
  | trimCycle (r : TrimResult)
  | trimDataWrite (src : Requester) (v : BitVec 8) (t : Nat)
  -- control plane
  | doorbell (src : Requester) (q : BitVec 12) (tail : BitVec 17)
  | consume (src : Requester) (q : BitVec 12) (head : BitVec 17)
  | proxyMessageReceive (dst : BitVec 12) (srcQn : BitVec 18) (id : BitVec 12) (body : List Word)
  | evtOverflow (q : BitVec 12)
  | taskWakeTimeout (acts : List (Nat × TaskAct)) (task : BitVec 16) (us : Nat)
  | traceFreeze (src : Requester)
  | traceUnfreeze (src : Requester)
  | info (r : Req)
  | echo (r : Req) (words : List Word)
  | schedCommit (r : Req) (frame : BitVec 48) (pages : Word) (nodes : Word)
  | schedCancel (r : Req) (frame : BitVec 48) (nodes : Word)
  | policyLoad (r : Req) (nodes : Word) (p : PolicyTable)
  | policyRead (r : Req) (id : BitVec 16)
  | power (r : Req) (state : BitVec 2)
  | bulkRead (r : Req) (node : BitVec 6) (addr : BitVec 32) (count : BitVec 16)
  | bulkWrite (r : Req) (node : BitVec 6) (addr : BitVec 32) (words : List Word72)
  | eventMask (r : Req) (mask : Word)
  | ledgerRead (r : Req) (start : BitVec 12)
  -- redundancy
  | kettleSend (atTick : Bool) (t : Nat)
  | kettleReceive (s : Fin 2) (via : Via) (node : BitVec 6) (words : List Word72) (t : Nat)
  | epochReceive (s : Fin 2) (via : Via) (words : List Word72)
  | senderStartEnd (s : Fin 2) (t : Nat)
  | peerLost (s : Fin 2) (t : Nat)
  | epochReqRetry (s : Fin 2) (t : Nat)
  | epochReqResponse (s : Fin 2) (granted : Bool) (epoch : BitVec 32) (id : BitVec 12) (t : Nat)
  | epochReq (r : Req) (epoch : BitVec 32) (t : Nat)
  | arbiterHoldExpire (t : Nat)
  | takeover (s : Fin 2) (t : Nat)
  | arbStatus (r : Req) (side : Fin 2)
  | swap (r : Req) (side : Fin 2) (apply : BitVec 48) (t : Nat)
  | swapGo (src : Requester) (side : Fin 2) (t : Nat)
  | take (r : Req) (side : Fin 2)
  | swapTake (src : Requester) (side : Fin 2)
  | rehearse (r : Req) (side : Fin 2) (t : Nat)
  | rehGo (src : Requester) (side : Fin 2) (t : Nat)
  | rehearsalStart (s : Fin 2) (t : Nat)
  | rehearsalFail (s : Fin 2) (result : BitVec 3) (t : Nat)
  | rehearsalHoldEnd (s : Fin 2) (t : Nat)
  -- retention
  | saveGo (src : Requester)
  | generationSaveStart (area : Fin 3)
  | generationSaveDone
  | journalRecordDone
  -- update
  | stage (r : Req) (addr : Word) (length : BitVec 32) (sides : BitVec 2)
  | bundleFolioReceive (s : Fin 2) (via : Via) (words : List Word72)
  | passIdle
  | bundlePassStart
  | updStatus (r : Req)
  | activate (r : Req) (cid : BitVec 32) (frame : BitVec 48) (nodeKind : Bool) (mask : Word)
  | prepareReceive (r : Req) (cid : BitVec 32)
  | prepareTimeout
  | actCommitReceive (r : Req) (c : ActCommit)
  | armDeadline (armed : Bool)
  | abortReceive
  | activatedRepeat
  | activatedReceive (ring : BitVec 6) (node : BitVec 6) (cid : BitVec 32)
  | relightReceive
  | relightDeadline
  | confirm (r : Req) (actNo : BitVec 32)
  | autoConfirm
  | confirmRepeat
  | confirmReceive (r : Req)
  | fallback (r : Req) (actNo : BitVec 32)
  | fallbackReqReceive (ring : BitVec 6) (node : BitVec 6)
  | fallbackOrderReceive (frame : BitVec 48)
  | fallbackReqRepeat
  | fallbackAlone
  | enroll (r : Req) (slot : BitVec 3) (key : Nat) (unitId : Word) (rootKey sig : Nat)
  | revoke (r : Req) (slot : BitVec 3) (unitId : Word) (rootKey sig : Nat)
  | peers (r : Req) (table : List (BitVec 32 × BitVec 6))
  | abort (r : Req) (actNo : BitVec 32)
  | updClear (src : Requester)
  -- recording
  | recCtrlMode (src : Requester) (mode : BitVec 2)
  | recTrig (src : Requester)
  | recArm (src : Requester)
  | ringFreeze
  | captureComplete
  | replayGo (src : Requester)
  | replayDone
  | recMode (r : Req) (mode : BitVec 2) (nodes : Word)
  | recTrigger (r : Req) (frame : BitVec 48) (nodes : Word)
  | replay (r : Req)
  -- completions
  | startStepEnd (e : StepEnd) (w : StepWork)
  | gclkPllLock (d : Fin 4) (t : Nat)
  | dieLinkUp (d : Fin 4)
  | irefRestore (d : Fin 4) (rirefOhm : Nat)
  | qrefclkReturn
  | pcieRefclkReturn
  | ingBlockLockChange (p : Fin 4) (locked : Bool)
  | prepareVoteReceive (ring : BitVec 6) (node : BitVec 6) (ready : Bool) (reason : BitVec 4)
  | schedArmedReceive (node : BitVec 6)
  | ringCompleteReceive (ring : BitVec 6)
  | confirmAckReceive (ring : BitVec 6) (node : BitVec 6)
  deriving DecidableEq, Repr

end Sys2Proof
end

