-- ==== Sys2Proof/Decode.lean ====
section
/-! DEFINITION. The commands of this part have no encoding: no row of spec/opcode_table.json gives bits or fields. -/

namespace Sys2Proof

/-- The command that a word of the opcode table spells. No row of the table gives its command any bits, so no word spells
one. -/
def decodeTableWord (_nbits _w : Nat) : Option Instr := none

end Sys2Proof
end

