-- ==== Sys2Proof/Machine/Crypto.lean ====
section
/-! DEFINITION. The two algorithms that the spec names for bundles and keys without restating them (R304 to R306): SHA-384 as FIPS 180-4 defines it
and the verification of an ECDSA signature on curve P-384 as FIPS 186-4 defines it (notes/assumptions/78.md). A string of bytes is a list of
numbers below 256. -/

namespace Sys2Proof.Machine

/-! ### SHA-384 -/

/-- The 80 constants of SHA-512 and SHA-384. -/
def shaK : List Nat :=
  [0x428A2F98D728AE22, 0x7137449123EF65CD, 0xB5C0FBCFEC4D3B2F, 0xE9B5DBA58189DBBC, 0x3956C25BF348B538,
   0x59F111F1B605D019, 0x923F82A4AF194F9B, 0xAB1C5ED5DA6D8118, 0xD807AA98A3030242, 0x12835B0145706FBE,
   0x243185BE4EE4B28C, 0x550C7DC3D5FFB4E2, 0x72BE5D74F27B896F, 0x80DEB1FE3B1696B1, 0x9BDC06A725C71235,
   0xC19BF174CF692694, 0xE49B69C19EF14AD2, 0xEFBE4786384F25E3, 0x0FC19DC68B8CD5B5, 0x240CA1CC77AC9C65,
   0x2DE92C6F592B0275, 0x4A7484AA6EA6E483, 0x5CB0A9DCBD41FBD4, 0x76F988DA831153B5, 0x983E5152EE66DFAB,
   0xA831C66D2DB43210, 0xB00327C898FB213F, 0xBF597FC7BEEF0EE4, 0xC6E00BF33DA88FC2, 0xD5A79147930AA725,
   0x06CA6351E003826F, 0x142929670A0E6E70, 0x27B70A8546D22FFC, 0x2E1B21385C26C926, 0x4D2C6DFC5AC42AED,
   0x53380D139D95B3DF, 0x650A73548BAF63DE, 0x766A0ABB3C77B2A8, 0x81C2C92E47EDAEE6, 0x92722C851482353B,
   0xA2BFE8A14CF10364, 0xA81A664BBC423001, 0xC24B8B70D0F89791, 0xC76C51A30654BE30, 0xD192E819D6EF5218,
   0xD69906245565A910, 0xF40E35855771202A, 0x106AA07032BBD1B8, 0x19A4C116B8D2D0C8, 0x1E376C085141AB53,
   0x2748774CDF8EEB99, 0x34B0BCB5E19B48A8, 0x391C0CB3C5C95A63, 0x4ED8AA4AE3418ACB, 0x5B9CCA4F7763E373,
   0x682E6FF3D6B2B8A3, 0x748F82EE5DEFB2FC, 0x78A5636F43172F60, 0x84C87814A1F0AB72, 0x8CC702081A6439EC,
   0x90BEFFFA23631E28, 0xA4506CEBDE82BDE9, 0xBEF9A3F7B2C67915, 0xC67178F2E372532B, 0xCA273ECEEA26619C,
   0xD186B8C721C0C207, 0xEADA7DD6CDE0EB1E, 0xF57D4F7FEE6ED178, 0x06F067AA72176FBA, 0x0A637DC5A2C898A6,
   0x113F9804BEF90DAE, 0x1B710B35131C471B, 0x28DB77F523047D84, 0x32CAAB7B40C72493, 0x3C9EBE0A15C9BEBC,
   0x431D67C49C100D4C, 0x4CC5D4BECB3E42B6, 0x597F299CFC657E2A, 0x5FCB6FAB3AD6FAEC, 0x6C44198C4A475817]

/-- The initial hash value of SHA-384. -/
def shaInit : List Nat :=
  [0xCBBB9D5DC1059ED8, 0x629A292A367CD507, 0x9159015A3070DD17, 0x152FECD8F70E5939, 0x67332667FFC00B31,
   0x8EB44A8768581511, 0xDB0C2E0D64F98FA7, 0x47B5481DBEFA4FA4]

/-- A 64-bit word turned right by `n` bits. -/
def rotr64 (x n : Nat) : Nat := (x >>> n) ||| (x <<< (64 - n)) % 2 ^ 64

/-- The four functions Σ and σ, from their two turns and their third turn or shift. -/
def shaBig (x a b c : Nat) : Nat := rotr64 x a ^^^ rotr64 x b ^^^ rotr64 x c
def shaSmall (x a b c : Nat) : Nat := rotr64 x a ^^^ rotr64 x b ^^^ (x >>> c)

/-- One of the 80 rounds: the eight working variables, and the next 16 words of the message schedule. -/
def shaRound (v w : List Nat) (k : Nat) : List Nat × List Nat :=
  let x (i : Nat) : Nat := v.getD i 0
  let y (i : Nat) : Nat := w.getD i 0
  let ch := (x 4 &&& x 5) ^^^ ((2 ^ 64 - 1 - x 4) &&& x 6)
  let maj := (x 0 &&& x 1) ^^^ (x 0 &&& x 2) ^^^ (x 1 &&& x 2)
  let t1 := x 7 + shaBig (x 4) 14 18 41 + ch + k + y 0
  let t2 := shaBig (x 0) 28 34 39 + maj
  let next := (shaSmall (y 14) 19 61 6 + y 9 + shaSmall (y 1) 1 8 7 + y 0) % 2 ^ 64
  ([(t1 + t2) % 2 ^ 64, x 0, x 1, x 2, (x 3 + t1) % 2 ^ 64, x 4, x 5, x 6], w.drop 1 ++ [next])

/-- The compression of one block of 16 words. -/
def shaBlock (h w : List Nat) : List Nat :=
  let r := shaK.foldl (fun s k => shaRound s.1 s.2 k) (h, w)
  (h.zip r.1).map fun e => (e.1 + e.2) % 2 ^ 64

/-- A number from its bytes, highest first. -/
def beNat (b : List Nat) : Nat := b.foldl (fun a x => 256 * a + x) 0

/-- A number from its bytes, lowest first. -/
def leNat (b : List Nat) : Nat := beNat b.reverse

/-- The `n` bytes of a number, highest first. -/
def beBytes (n v : Nat) : List Nat := (List.range n).reverse.map fun i => (v >>> (8 * i)) % 256

/-- Pieces of `n` elements each, of which there are `k`. -/
def piecesOf (n : Nat) : Nat → List Nat → List (List Nat)
  | 0, _ => []
  | k + 1, l => l.take n :: piecesOf n k (l.drop n)

/-- SHA-384 of a string of bytes, as a number of 384 bits. -/
def sha384 (b : List Nat) : Nat :=
  let n := b.length
  let pad := (256 - (n + 17) % 128) % 128
  let m := b ++ [0x80] ++ List.replicate pad 0 ++ beBytes 16 (8 * n)
  let h := (piecesOf 128 ((n + 17 + pad) / 128) m).foldl (fun h c => shaBlock h ((piecesOf 8 16 c).map beNat)) shaInit
  (h.take 6).foldl (fun a x => 2 ^ 64 * a + x) 0

/-! ### ECDSA on P-384 -/

/-- The field, the order of the base point, and the base point. -/
def p384 : Nat := 2 ^ 384 - 2 ^ 128 - 2 ^ 96 + 2 ^ 32 - 1
def p384N : Nat := 0xFFFFFFFFFFFFFFFFFFFFFFFFFFFFFFFFFFFFFFFFFFFFFFFFC7634D81F4372DDF581A0DB248B0A77AECEC196ACCC52973
def p384B : Nat := 0xB3312FA7E23EE7E4988E056BE3F82D19181D9C6EFE8141120314088F5013875AC656398D8A2ED19D2A85C8EDD3EC2AEF
def p384G : Nat × Nat :=
  (0xAA87CA22BE8B05378EB1C71EF320AD746E1D3B628BA79B9859F741E082542A385502F25DBF55296C3A545E3872760AB7,
   0x3617DE4A96262C6F5D9E98BF9292DC29F8F41DBD289A147CE9DA3113B5F0B8C00A60B1CE1D7E819D7A431D7C90EA0E5F)

/-- A point in Jacobian coordinates: x = X / Z², y = Y / Z³; the point at infinity has Z = 0. -/
structure Point where
  x : Nat
  y : Nat
  z : Nat
  deriving DecidableEq, Repr

/-- A number modulo the field's prime. -/
def modP (v : Int) : Nat := (v % p384).toNat

/-- Twice a point. -/
def Point.dbl (a : Point) : Point :=
  let d := a.z * a.z % p384
  let g := a.y * a.y % p384
  let b := a.x * g % p384
  let m := modP (3 * ((a.x : Int) - d) * (a.x + d))
  let x := modP ((m : Int) * m - 8 * b)
  ⟨x, modP ((m : Int) * (4 * b - x) - 8 * g * g), 2 * a.y * a.z % p384⟩

/-- The sum of two points. -/
def Point.add (a b : Point) : Point :=
  if a.z = 0 then b
  else if b.z = 0 then a
  else
    let za := a.z * a.z % p384
    let zb := b.z * b.z % p384
    let u := a.x * zb % p384
    let s := a.y * b.z * zb % p384
    let h := modP ((b.x : Int) * za - u)
    let r := modP ((b.y : Int) * a.z * za - s)
    if h = 0 then (if r = 0 then a.dbl else ⟨1, 1, 0⟩)
    else
      let hh := h * h % p384
      let v := u * hh % p384
      let x := modP ((r : Int) * r - h * hh - 2 * v)
      ⟨x, modP ((r : Int) * (v - x) - s * h * hh), h * a.z * b.z % p384⟩

/-- The sum of the multiples u of one point and v of another, over their `n` low bits from the highest. -/
def pointMul2 (a b ab : Point) (u v : Nat) : Nat → Point → Point
  | 0, q => q
  | n + 1, q =>
    let d := q.dbl
    pointMul2 a b ab u v n (match u.testBit n, v.testBit n with
      | true, true => d.add ab
      | true, false => d.add a
      | false, true => d.add b
      | false, false => d)

/-- b to the power of the `n` low bits of e, modulo m. -/
def powMod (b e m : Nat) : Nat → Nat → Nat
  | 0, a => a
  | n + 1, a => powMod b e m n (a * a * (if e.testBit n then b else 1) % m)

/-- Whether a signature (r, s) of a 384-bit hash verifies against a public key (X, Y). -/
def ecdsaP384 (pub : Nat × Nat) (hash : Nat) (sig : Nat × Nat) : Bool :=
  let (x, y) := pub
  let (r, s) := sig
  if p384 ≤ x ∨ p384 ≤ y ∨ (y * y + 3 * x) % p384 ≠ (x * x * x + p384B) % p384 ∨ r = 0 ∨ p384N ≤ r ∨ s = 0 ∨ p384N ≤ s then false
  else
    let w := powMod s (p384N - 2) p384N 384 1
    let g : Point := ⟨p384G.1, p384G.2, 1⟩
    let q : Point := ⟨x, y, 1⟩
    let t := pointMul2 g q (g.add q) (hash * w % p384N) (r * w % p384N) 384 ⟨1, 1, 0⟩
    if t.z = 0 then false
    else
      let i := powMod t.z (p384 - 2) p384 384 1
      t.x * (i * i % p384) % p384 % p384N == r

end Sys2Proof.Machine
end

