-- ==== Sys2Proof/Config.lean ====
section
/-! DEFINITION. What an implementation fixes and the spec does not give, and the free values. Every constant here is opaque:
nothing in Lean can evaluate it, so a statement holds for every value of it (notes/assumptions/2.md). -/

namespace Sys2Proof.Config

/-- Fresh values: each value the spec leaves open is this function at the free-value counter of the state, which then
advances. -/
opaque freeValue : Nat → Word

/-- BLK_ID.VER_MAJ and VER_MIN of each page (R39 gives no values). -/
opaque blockVersion : Nat → BitVec 16

/-- HIF.STRAP_STAT.GRADE (R5): a factory value. -/
opaque grade : BitVec 4

/-- HIF.STRAP_STAT.STEPPING: a factory value. -/
opaque stepping : BitVec 4

/-- The unit base of the MAC addresses (R56). -/
opaque macBase : BitVec 48

/-- The VAON seconds counter (NVS.ALARM.NOW), at a free-value counter: no command of the table moves it. -/
opaque vaonSeconds : Nat → BitVec 32

/-- The unit's 64-bit identity in its factory records (Table 16-1, step 2). -/
opaque unitId : Word

/-- The SHA-384 hash of the root public key in the fuses (R306). -/
opaque rootKeyHash : Nat

/-- Whether the fuses hold one (UPD.KEYS.ROOT). -/
opaque rootKeyPresent : Bool

/-- Places where the spec asks for a value in a format and does not say how a value between two of the format is rounded. -/
inductive Place where
  | stamp | cubic | lerp | matrix | tone | divRef | quant | boxMean | refNits | eotf | scaler | phase | integ | duty | load
  deriving DecidableEq, Repr

/-- Whether a value num / den that the format at a place does not hold exactly takes the next higher one. -/
opaque roundsUp (p : Place) (num : Int) (den : Nat) : Bool

/-! Intake (R61): the matrices and the interpolation filter, whose numbers the spec does not give. -/

/-- Component `i` of R′G′B′ for a code triple Y, Cb, Cr: the matrix of CSC, full or narrow range, bits of the codes. -/
opaque csc (csc : Nat) (full : Bool) (bits y cb cr i : Nat) : Nat

/-- The chroma of a pixel from the four chroma samples around it (4:2:2). -/
opaque chroma (taps : List Nat) : Nat

/-! Composition and imposition: functions of standards that the spec names without their formulas, and constants it does not give. -/

/-- SMPTE ST 2084 EOTF of V = num / den, strictly between 0 and 1, in U14.18 cd/m² (R79 step 2). -/
opaque pqEotf (num den : Nat) : Nat

/-- ITU-R BT.2100 HLG light of V = num / den, strictly between 0 and 1, for a nominal peak, in U14.18 cd/m² (R79 step 2). -/
opaque hlg (sigNits num den : Nat) : Nat

/-- The PQ inverse EOTF of a luminance in U14.18 between 0 and 10,000 cd/m², times 1,023, in 1/65,536 (R80). -/
opaque pqInverse (m : Nat) : Nat

/-- Position of a scaled layer's output sample `x` in its source samples, in 1/64 of a sample: source samples, output samples and the
fraction of the destination (R90, R91). -/
opaque scalePos (src dst frac x : Nat) : Int

/-- The sample that stands for one beyond the edge of `n` samples (R90). -/
opaque edgeTap (n : Nat) (i : Int) : Nat

/-- Light and alpha of a pixel as the intermediate buffer of a two-pass layer stores them, and back (R91). -/
opaque intermCode (c : List Nat) : Nat
opaque intermLight (v : Nat) : List Nat

/-- The stored code of a write-back component: whether D32, the component in U2.16 (R93). -/
opaque wbCode (d32 : Bool) (c : Nat) : Nat

/-! Quire links (R133, R269). -/

/-- Which one reserved slot of eight carries BUNDLE (R133). -/
opaque bundleSlot : BitVec 3

/-- The source queue and the MSG_ID of a tile's event message with a sequence number. -/
opaque eventQueue : Nat → BitVec 12
opaque eventId : Nat → BitVec 12

/-! Wall time, control laws and trims (R163, R166, R235). -/

/-- The filtered link delay of the last exchanges, and the filtered offset, in 2^-16 ns (R166). -/
opaque delayFilter (d : List Int) : Int
opaque offsetFilter (o : List Int) : Int

/-- The servo's frequency correction in ns/s after an offset, from the one before (R159, R160 give no law). -/
opaque servoFreq (freq offset : Int) : Int

/-- The filtered offset of a PTP slot, from the filtered value so far and the offset of a Sync (R163). -/
opaque ptpFilter (old new : Int) : Int

/-- QUAL of a root whose source is FREE (Table 08-2 names none). -/
opaque freeQual : BitVec 2

/-- Whether a tie of num / den is rounded up, where the spec says only "round" (R232, R253). -/
opaque tieUp (num : Int) (den : Nat) : Bool

/-- The correction of a quarter's delay, in steps of 5 ps, that a mean bin gives against its reference, both in 1/256 of a
bin (Table 13-4 gives no formula). -/
opaque dlyStep (mean ref : Nat) : Int

/-- Temperature of an NTC in 1/128 °C by the beta equation, from its resistance at 25 °C in Ω, its beta in K and its resistance in
Ω (Table 13-1); 0 or less tells a shorted or open input. -/
opaque ntcBeta (r25 beta : Nat) (ohm : Int) : Int

end Sys2Proof.Config
end

