-- ==== Sys2Proof/Machine/Fields.lean ====
section
/-! DEFINITION. The register fields of the part, one definition per field of the register tables of spec/02 to spec/18: its
page (Table 02-2), byte offset, lowest bit and width, access code (Table 02-4), retention class (Table 02-5), reset value,
whether it is read through a snapshot (R44), and its legal range (R40) where that range depends on no other field. -/

namespace Sys2Proof.Machine

/-- The access codes of Table 02-4 (R38). -/
inductive Acc where
  | rw | ro | w1c | w1s | wo | rws | rwk
  deriving DecidableEq, Repr

/-- The retention classes of Table 02-5. -/
inductive Ret where
  | a | m | t | b | f
  deriving DecidableEq, Repr

/-- One field of a register. `mn` to `mx` is its legal range. -/
structure Fld where
  page : Nat
  off : Nat
  lo : Nat
  w : Nat
  acc : Acc
  ret : Ret
  rst : Nat
  snap : Bool
  mn : Nat
  mx : Nat
  deriving DecidableEq, Repr

/-- The key of a field in a register store. -/
def Fld.key (f : Fld) : Nat := (f.page * 4096 + f.off) * 64 + f.lo


/-! BLK.BLK_ID -/
def BLK_ID_TAG (pg : Nat) : Fld := ⟨pg, 0, 0, 32, .ro, .f, 0, false, 0, 2 ^ 32 - 1⟩
def BLK_ID_INST (pg : Nat) : Fld := ⟨pg, 0, 32, 8, .ro, .f, 0, false, 0, 2 ^ 8 - 1⟩
def BLK_ID_VER_MAJ (pg : Nat) : Fld := ⟨pg, 0, 40, 8, .ro, .f, 0, false, 0, 2 ^ 8 - 1⟩
def BLK_ID_VER_MIN (pg : Nat) : Fld := ⟨pg, 0, 48, 8, .ro, .f, 0, false, 0, 2 ^ 8 - 1⟩

/-! BLK.BLK_CTRL -/
def BLK_CTRL_EN (pg : Nat) : Fld := ⟨pg, 8, 0, 1, .rw, .a, 0, false, 0, 2 ^ 1 - 1⟩
def BLK_CTRL_BRST (pg : Nat) : Fld := ⟨pg, 8, 1, 1, .w1s, .b, 0, false, 0, 2 ^ 1 - 1⟩
def BLK_CTRL_CGATE (pg : Nat) : Fld := ⟨pg, 8, 2, 1, .rw, .a, 0, false, 0, 2 ^ 1 - 1⟩

/-! BLK.BLK_STAT -/
def BLK_STAT_RDY (pg : Nat) : Fld := ⟨pg, 16, 0, 1, .ro, .b, 0, false, 0, 2 ^ 1 - 1⟩
def BLK_STAT_XRDY (pg : Nat) : Fld := ⟨pg, 16, 1, 1, .ro, .b, 0, false, 0, 2 ^ 1 - 1⟩
def BLK_STAT_XOVF (pg : Nat) : Fld := ⟨pg, 16, 2, 1, .w1c, .b, 0, false, 0, 2 ^ 1 - 1⟩
def BLK_STAT_ROLE_OFF (pg : Nat) : Fld := ⟨pg, 16, 3, 1, .ro, .a, 0, false, 0, 2 ^ 1 - 1⟩
def BLK_STAT_LOCKED (pg : Nat) : Fld := ⟨pg, 16, 4, 1, .ro, .a, 0, false, 0, 2 ^ 1 - 1⟩
def BLK_STAT_SHD_PEND (pg : Nat) : Fld := ⟨pg, 16, 5, 1, .ro, .b, 0, false, 0, 2 ^ 1 - 1⟩
def BLK_STAT_BLK (pg : Nat) : Fld := ⟨pg, 16, 16, 16, .ro, .b, 0, false, 0, 2 ^ 16 - 1⟩

/-! BLK.INT_RAW -/
def INT_RAW_RAW (pg : Nat) : Fld := ⟨pg, 24, 0, 64, .w1c, .b, 0, false, 0, 2 ^ 64 - 1⟩

/-! BLK.INT_EN -/
def INT_EN_EN (pg : Nat) : Fld := ⟨pg, 32, 0, 64, .rw, .t, 0, false, 0, 2 ^ 64 - 1⟩

/-! BLK.ERR_CAP0 -/
def ERR_CAP0_CODE (pg : Nat) : Fld := ⟨pg, 48, 0, 8, .ro, .b, 0, false, 0, 2 ^ 8 - 1⟩
def ERR_CAP0_VALID (pg : Nat) : Fld := ⟨pg, 48, 8, 1, .w1c, .b, 0, false, 0, 2 ^ 1 - 1⟩
def ERR_CAP0_MORE (pg : Nat) : Fld := ⟨pg, 48, 9, 1, .ro, .b, 0, false, 0, 2 ^ 1 - 1⟩
def ERR_CAP0_SRC (pg : Nat) : Fld := ⟨pg, 48, 10, 2, .ro, .b, 0, false, 0, 2 ^ 2 - 1⟩
def ERR_CAP0_OFFSET (pg : Nat) : Fld := ⟨pg, 48, 12, 12, .ro, .b, 0, false, 0, 2 ^ 12 - 1⟩
def ERR_CAP0_FRAME (pg : Nat) : Fld := ⟨pg, 48, 24, 40, .ro, .b, 0, false, 0, 2 ^ 40 - 1⟩

/-! BLK.ERR_CAP1 -/
def ERR_CAP1_VALUE (pg : Nat) : Fld := ⟨pg, 56, 0, 64, .ro, .b, 0, false, 0, 2 ^ 64 - 1⟩

/-! BLK.SHD_CTRL -/
def SHD_CTRL_COMMIT (pg : Nat) : Fld := ⟨pg, 64, 0, 1, .w1s, .b, 0, false, 0, 2 ^ 1 - 1⟩
def SHD_CTRL_DISCARD (pg : Nat) : Fld := ⟨pg, 64, 1, 1, .w1s, .b, 0, false, 0, 2 ^ 1 - 1⟩
def SHD_CTRL_RDACT (pg : Nat) : Fld := ⟨pg, 64, 2, 1, .rw, .b, 0, false, 0, 2 ^ 1 - 1⟩

/-! BLK.SHD_STAT -/
def SHD_STAT_APPLY_FRAME (pg : Nat) : Fld := ⟨pg, 72, 0, 48, .ro, .b, 0, false, 0, 2 ^ 48 - 1⟩
def SHD_STAT_PEND (pg : Nat) : Fld := ⟨pg, 72, 48, 1, .ro, .b, 0, false, 0, 2 ^ 1 - 1⟩
def SHD_STAT_DIRTY (pg : Nat) : Fld := ⟨pg, 72, 49, 1, .ro, .b, 0, false, 0, 2 ^ 1 - 1⟩
def SHD_STAT_CANCELLED (pg : Nat) : Fld := ⟨pg, 72, 50, 1, .w1c, .b, 0, false, 0, 2 ^ 1 - 1⟩

/-! BLK.LOCK -/
def LOCK (pg : Nat) : Fld := ⟨pg, 80, 0, 1, .w1s, .a, 0, false, 0, 2 ^ 1 - 1⟩

/-! BLK.SNAP -/
def SNAP_REQ (pg : Nat) : Fld := ⟨pg, 88, 0, 1, .w1s, .b, 0, false, 0, 2 ^ 1 - 1⟩
def SNAP_DONE (pg : Nat) : Fld := ⟨pg, 88, 1, 1, .ro, .b, 0, false, 0, 2 ^ 1 - 1⟩
def SNAP_AUTO (pg : Nat) : Fld := ⟨pg, 88, 2, 1, .rw, .b, 0, false, 0, 2 ^ 1 - 1⟩
def SNAP_FRAME (pg : Nat) : Fld := ⟨pg, 88, 16, 48, .ro, .b, 0, false, 0, 2 ^ 48 - 1⟩

/-! HIF.STRAP_STAT -/
def HIF_STRAP_STAT_ROLE : Fld := ⟨0, 128, 0, 2, .ro, .a, 0, false, 0, 2 ^ 2 - 1⟩
def HIF_STRAP_STAT_BOOTSEL : Fld := ⟨0, 128, 2, 2, .ro, .a, 0, false, 0, 2 ^ 2 - 1⟩
def HIF_STRAP_STAT_GRADE : Fld := ⟨0, 128, 8, 4, .ro, .f, 0, false, 0, 2 ^ 4 - 1⟩
def HIF_STRAP_STAT_STEPPING : Fld := ⟨0, 128, 12, 4, .ro, .f, 0, false, 0, 2 ^ 4 - 1⟩

/-! HIF.INT_SUM -/
def HIF_INT_SUM_PAGE : Fld := ⟨0, 136, 0, 44, .ro, .b, 0, false, 0, 2 ^ 44 - 1⟩

/-! HIF.INT_N_EN -/
def HIF_INT_N_EN_PAGE : Fld := ⟨0, 144, 0, 44, .rw, .t, 0, false, 0, 2 ^ 44 - 1⟩

/-! HIF.RA_ADDR -/
def HIF_RA_ADDR_ADDR : Fld := ⟨0, 160, 0, 32, .rw, .b, 0, false, 0, 2 ^ 32 - 1⟩
def HIF_RA_ADDR_NODE : Fld := ⟨0, 160, 32, 6, .rw, .b, 0, false, 0, 2 ^ 6 - 1⟩

/-! HIF.RA_DATA -/
def HIF_RA_DATA_DATA : Fld := ⟨0, 168, 0, 64, .rw, .b, 0, false, 0, 2 ^ 64 - 1⟩

/-! HIF.RA_CTRL -/
def HIF_RA_CTRL_OP : Fld := ⟨0, 176, 0, 3, .rw, .b, 0, false, 0, 2 ^ 3 - 1⟩
def HIF_RA_CTRL_GO : Fld := ⟨0, 176, 3, 1, .w1s, .b, 0, false, 0, 2 ^ 1 - 1⟩
def HIF_RA_CTRL_TAG : Fld := ⟨0, 176, 8, 8, .rw, .b, 0, false, 0, 2 ^ 8 - 1⟩
def HIF_RA_CTRL_TMO_US : Fld := ⟨0, 176, 32, 17, .rw, .b, 1000, false, 250, 0x186A0⟩

/-! HIF.RA_STAT -/
def HIF_RA_STAT_BUSY : Fld := ⟨0, 184, 0, 1, .ro, .b, 0, false, 0, 2 ^ 1 - 1⟩
def HIF_RA_STAT_DONE : Fld := ⟨0, 184, 1, 1, .w1c, .b, 0, false, 0, 2 ^ 1 - 1⟩
def HIF_RA_STAT_CODE : Fld := ⟨0, 184, 2, 4, .ro, .b, 0, false, 0, 2 ^ 4 - 1⟩
def HIF_RA_STAT_TAG : Fld := ⟨0, 184, 8, 8, .ro, .b, 0, false, 0, 2 ^ 8 - 1⟩
def HIF_RA_STAT_LATE : Fld := ⟨0, 184, 48, 16, .w1c, .b, 0, false, 0, 2 ^ 16 - 1⟩

/-! ING.CFG -/
def ING_CFG_MODE (p : Nat) : Fld := ⟨(16 + p), 128, 0, 2, .rw, .m, 0, false, 0, 2 ^ 2 - 1⟩
def ING_CFG_PAIR (p : Nat) : Fld := ⟨(16 + p), 128, 2, 1, .rw, .m, 0, false, 0, 2 ^ 1 - 1⟩
def ING_CFG_BUFN (p : Nat) : Fld := ⟨(16 + p), 128, 3, 3, .rw, .m, 3, false, 2, 0x4⟩
def ING_CFG_BUFFMT (p : Nat) : Fld := ⟨(16 + p), 128, 6, 1, .rw, .m, 0, false, 0, 2 ^ 1 - 1⟩
def ING_CFG_HPD_EN (p : Nat) : Fld := ⟨(16 + p), 128, 7, 1, .rw, .m, 0, false, 0, 2 ^ 1 - 1⟩
def ING_CFG_CSC (p : Nat) : Fld := ⟨(16 + p), 128, 8, 2, .rws, .m, 0, false, 0, 0x2⟩
def ING_CFG_DP_MAXRATE (p : Nat) : Fld := ⟨(16 + p), 128, 12, 2, .rw, .m, 3, false, 0, 2 ^ 2 - 1⟩
def ING_CFG_DP_LANES (p : Nat) : Fld := ⟨(16 + p), 128, 14, 2, .rw, .m, 2, false, 0, 0x2⟩

/-! ING.ACC_RASTER -/
def ING_ACC_RASTER_HMIN (p : Nat) : Fld := ⟨(16 + p), 136, 0, 16, .rws, .m, 1, false, 1, 0x4000⟩
def ING_ACC_RASTER_HMAX (p : Nat) : Fld := ⟨(16 + p), 136, 16, 16, .rws, .m, 16384, false, 1, 0x4000⟩
def ING_ACC_RASTER_VMIN (p : Nat) : Fld := ⟨(16 + p), 136, 32, 16, .rws, .m, 1, false, 1, 0x4000⟩
def ING_ACC_RASTER_VMAX (p : Nat) : Fld := ⟨(16 + p), 136, 48, 16, .rws, .m, 16384, false, 1, 0x4000⟩

/-! ING.ACC_RATE -/
def ING_ACC_RATE_RMIN (p : Nat) : Fld := ⟨(16 + p), 144, 0, 18, .rws, .m, 1000, false, 1000, 0x3A980⟩
def ING_ACC_RATE_RMAX (p : Nat) : Fld := ⟨(16 + p), 144, 18, 18, .rws, .m, 240000, false, 1000, 0x3A980⟩
def ING_ACC_RATE_FMT (p : Nat) : Fld := ⟨(16 + p), 144, 36, 12, .rws, .m, 4095, false, 0, 2 ^ 12 - 1⟩

/-! ING.TIMING -/
def ING_TIMING_LOS_MS (p : Nat) : Fld := ⟨(16 + p), 152, 0, 10, .rws, .m, 100, false, 1, 0x3E8⟩
def ING_TIMING_MARGIN_US (p : Nat) : Fld := ⟨(16 + p), 152, 10, 14, .rws, .m, 200, false, 0, 0x2710⟩
def ING_TIMING_TOL_US (p : Nat) : Fld := ⟨(16 + p), 152, 24, 14, .rws, .m, 2000, false, 0, 0x2710⟩
def ING_TIMING_SKEW_US (p : Nat) : Fld := ⟨(16 + p), 152, 38, 14, .rws, .m, 1000, false, 0, 0x2710⟩

/-! ING.STREAM -/
def ING_STREAM_DST_IP (p : Nat) : Fld := ⟨(16 + p), 160, 0, 32, .rw, .m, 0, false, 0, 2 ^ 32 - 1⟩
def ING_STREAM_UDP (p : Nat) : Fld := ⟨(16 + p), 160, 32, 16, .rw, .m, 0, false, 0, 2 ^ 16 - 1⟩
def ING_STREAM_PT (p : Nat) : Fld := ⟨(16 + p), 160, 48, 7, .rw, .m, 96, false, 0, 2 ^ 7 - 1⟩
def ING_STREAM_SSM (p : Nat) : Fld := ⟨(16 + p), 160, 55, 1, .rw, .m, 0, false, 0, 2 ^ 1 - 1⟩

/-! ING.STREAM_SRC -/
def ING_STREAM_SRC_SRC_IP (p : Nat) : Fld := ⟨(16 + p), 168, 0, 32, .rw, .m, 0, false, 0, 2 ^ 32 - 1⟩
def ING_STREAM_SRC_LOCAL_IP (p : Nat) : Fld := ⟨(16 + p), 168, 32, 32, .rw, .m, 0, false, 0, 2 ^ 32 - 1⟩

/-! ING.ST2110 -/
def ING_ST2110_SAMPLING (p : Nat) : Fld := ⟨(16 + p), 176, 0, 2, .rws, .m, 0, false, 0, 0x2⟩
def ING_ST2110_DEPTH (p : Nat) : Fld := ⟨(16 + p), 176, 2, 2, .rws, .m, 1, false, 0, 2 ^ 2 - 1⟩
def ING_ST2110_FULLRANGE (p : Nat) : Fld := ⟨(16 + p), 176, 4, 1, .rws, .m, 0, false, 0, 2 ^ 1 - 1⟩
def ING_ST2110_WIDTH (p : Nat) : Fld := ⟨(16 + p), 176, 5, 15, .rws, .m, 3840, false, 1, 0x4000⟩
def ING_ST2110_HEIGHT (p : Nat) : Fld := ⟨(16 + p), 176, 20, 15, .rws, .m, 2160, false, 1, 0x4000⟩
def ING_ST2110_RATE_NUM (p : Nat) : Fld := ⟨(16 + p), 176, 35, 18, .rws, .m, 60000, false, 0, 2 ^ 18 - 1⟩
def ING_ST2110_RATE_DEN (p : Nat) : Fld := ⟨(16 + p), 176, 53, 11, .rws, .m, 1000, false, 0, 2 ^ 11 - 1⟩

/-! ING.BUF_BASE -/
def ING_BUF_BASE_ADDR (p : Nat) (k : Nat) : Fld := ⟨(16 + p), 192 + 8 * k, 0, 36, .rw, .m, 0, false, 0, 2 ^ 36 - 1⟩

/-! ING.BUF_STRIDE -/
def ING_BUF_STRIDE_STRIDE (p : Nat) : Fld := ⟨(16 + p), 224, 0, 24, .rw, .m, 0, false, 0, 2 ^ 24 - 1⟩

/-! ING.SRC_STAT -/
def ING_SRC_STAT_WIDTH (p : Nat) : Fld := ⟨(16 + p), 256, 0, 15, .ro, .b, 0, true, 0, 2 ^ 15 - 1⟩
def ING_SRC_STAT_HEIGHT (p : Nat) : Fld := ⟨(16 + p), 256, 15, 15, .ro, .b, 0, true, 0, 2 ^ 15 - 1⟩
def ING_SRC_STAT_RATE (p : Nat) : Fld := ⟨(16 + p), 256, 30, 18, .ro, .b, 0, true, 0, 2 ^ 18 - 1⟩
def ING_SRC_STAT_FMT (p : Nat) : Fld := ⟨(16 + p), 256, 48, 4, .ro, .b, 0, true, 0, 2 ^ 4 - 1⟩
def ING_SRC_STAT_LINK (p : Nat) : Fld := ⟨(16 + p), 256, 52, 1, .ro, .b, 0, true, 0, 2 ^ 1 - 1⟩
def ING_SRC_STAT_LOS (p : Nat) : Fld := ⟨(16 + p), 256, 53, 1, .ro, .b, 0, true, 0, 2 ^ 1 - 1⟩
def ING_SRC_STAT_ACC_WHY (p : Nat) : Fld := ⟨(16 + p), 256, 54, 3, .ro, .b, 0, true, 0, 2 ^ 3 - 1⟩

/-! ING.PICK_STAT -/
def ING_PICK_STAT_BUF (p : Nat) : Fld := ⟨(16 + p), 264, 0, 2, .ro, .b, 0, true, 0, 2 ^ 2 - 1⟩
def ING_PICK_STAT_STATE (p : Nat) : Fld := ⟨(16 + p), 264, 2, 2, .ro, .b, 2, true, 0, 2 ^ 2 - 1⟩
def ING_PICK_STAT_FOLLOW (p : Nat) : Fld := ⟨(16 + p), 264, 4, 1, .ro, .b, 0, true, 0, 2 ^ 1 - 1⟩
def ING_PICK_STAT_STAMP (p : Nat) : Fld := ⟨(16 + p), 264, 5, 48, .ro, .b, 0, true, 0, 2 ^ 48 - 1⟩

/-! ING.CNT_A -/
def ING_CNT_A_ACC_FAIL (p : Nat) : Fld := ⟨(16 + p), 272, 0, 16, .w1c, .b, 0, true, 0, 2 ^ 16 - 1⟩
def ING_CNT_A_INCOMPLETE (p : Nat) : Fld := ⟨(16 + p), 272, 16, 16, .w1c, .b, 0, true, 0, 2 ^ 16 - 1⟩
def ING_CNT_A_DROP (p : Nat) : Fld := ⟨(16 + p), 272, 32, 16, .w1c, .b, 0, true, 0, 2 ^ 16 - 1⟩
def ING_CNT_A_PICK_MISS (p : Nat) : Fld := ⟨(16 + p), 272, 48, 8, .w1c, .b, 0, true, 0, 2 ^ 8 - 1⟩
def ING_CNT_A_PICK_SELF (p : Nat) : Fld := ⟨(16 + p), 272, 56, 4, .w1c, .b, 0, true, 0, 2 ^ 4 - 1⟩
def ING_CNT_A_SLICE_HOLE (p : Nat) : Fld := ⟨(16 + p), 272, 60, 4, .w1c, .b, 0, true, 0, 2 ^ 4 - 1⟩

/-! ING.CNT_B -/
def ING_CNT_B_FOREIGN (p : Nat) : Fld := ⟨(16 + p), 280, 0, 16, .w1c, .b, 0, true, 0, 2 ^ 16 - 1⟩
def ING_CNT_B_LATE_P0 (p : Nat) : Fld := ⟨(16 + p), 280, 16, 16, .w1c, .b, 0, true, 0, 2 ^ 16 - 1⟩
def ING_CNT_B_LATE_P1 (p : Nat) : Fld := ⟨(16 + p), 280, 32, 16, .w1c, .b, 0, true, 0, 2 ^ 16 - 1⟩
def ING_CNT_B_AUX_ERR (p : Nat) : Fld := ⟨(16 + p), 280, 48, 16, .w1c, .b, 0, true, 0, 2 ^ 16 - 1⟩

/-! FMC.MEM_CFG -/
def FMC_MEM_CFG_CAP_GIB : Fld := ⟨20, 128, 0, 6, .rwk, .m, 2, false, 2, 0x20⟩
def FMC_MEM_CFG_RATE_MTS : Fld := ⟨20, 128, 6, 14, .rwk, .m, 8533, false, 3200, 0x2155⟩
def FMC_MEM_CFG_CHAN_EN : Fld := ⟨20, 128, 20, 8, .rwk, .m, 255, false, 0, 2 ^ 8 - 1⟩

/-! FMC.MEM_STAT -/
def FMC_MEM_STAT_TRAINED : Fld := ⟨20, 136, 0, 8, .ro, .b, 0, false, 0, 2 ^ 8 - 1⟩
def FMC_MEM_STAT_FAIL : Fld := ⟨20, 136, 8, 8, .ro, .b, 0, false, 0, 2 ^ 8 - 1⟩

/-! FMC.QOS -/
def FMC_QOS_ING_GBS : Fld := ⟨20, 144, 0, 9, .rw, .m, 64, false, 0, 0x111⟩
def FMC_QOS_WB_GBS : Fld := ⟨20, 144, 9, 9, .rw, .m, 16, false, 0, 2 ^ 9 - 1⟩
def FMC_QOS_HOST_GBS : Fld := ⟨20, 144, 18, 9, .rw, .m, 8, false, 0, 2 ^ 9 - 1⟩

/-! FMC.BW -/
def FMC_BW_RD_MB : Fld := ⟨20, 152, 0, 32, .ro, .b, 0, true, 0, 2 ^ 32 - 1⟩
def FMC_BW_WR_MB : Fld := ⟨20, 152, 32, 32, .ro, .b, 0, true, 0, 2 ^ 32 - 1⟩

/-! FMC.ECC -/
def FMC_ECC_CE : Fld := ⟨20, 160, 0, 32, .w1c, .b, 0, true, 0, 2 ^ 32 - 1⟩
def FMC_ECC_UE : Fld := ⟨20, 160, 32, 16, .w1c, .b, 0, true, 0, 2 ^ 16 - 1⟩
def FMC_ECC_CE_THR : Fld := ⟨20, 160, 48, 16, .rw, .m, 1000, false, 0, 2 ^ 16 - 1⟩

/-! CMP.CANVAS -/
def CMP_CANVAS_W : Fld := ⟨21, 128, 0, 20, .rws, .m, 3840, false, 1, 0xFFFFF⟩
def CMP_CANVAS_H : Fld := ⟨21, 128, 20, 20, .rws, .m, 2160, false, 1, 0xFFFFF⟩
def CMP_CANVAS_ORDER : Fld := ⟨21, 128, 40, 1, .rws, .m, 0, false, 0, 2 ^ 1 - 1⟩
def CMP_CANVAS_REGION_N : Fld := ⟨21, 128, 41, 9, .rws, .m, 0, false, 0, 0x100⟩

/-! CMP.WALL -/
def CMP_WALL_REF_NITS : Fld := ⟨21, 136, 0, 14, .rws, .m, 203, false, 1, 0x2710⟩
def CMP_WALL_PEAK_NITS : Fld := ⟨21, 136, 14, 16, .rws, .m, 812, false, 0, 2 ^ 16 - 1⟩

/-! CMP.BG -/
def CMP_BG_C0 : Fld := ⟨21, 144, 0, 18, .rws, .m, 0, false, 0, 2 ^ 18 - 1⟩
def CMP_BG_C1 : Fld := ⟨21, 144, 18, 18, .rws, .m, 0, false, 0, 2 ^ 18 - 1⟩
def CMP_BG_C2 : Fld := ⟨21, 144, 36, 18, .rws, .m, 0, false, 0, 2 ^ 18 - 1⟩

/-! CMP.FLIP -/
def CMP_FLIP_FENCE_TMO : Fld := ⟨21, 152, 0, 8, .rw, .m, 8, false, 1, 0xFF⟩
def CMP_FLIP_FLIPLOG_EN : Fld := ⟨21, 152, 8, 1, .rw, .m, 1, false, 0, 2 ^ 1 - 1⟩

/-! CMP.BUF_REL -/
def CMP_BUF_REL_HANDLE : Fld := ⟨21, 160, 0, 12, .wo, .b, 0, false, 0, 2 ^ 12 - 1⟩

/-! CMP.WB_CTRL -/
def CMP_WB_CTRL_EN : Fld := ⟨21, 168, 0, 1, .rws, .m, 0, false, 0, 2 ^ 1 - 1⟩
def CMP_WB_CTRL_FEED_MASK : Fld := ⟨21, 168, 1, 4, .rws, .m, 15, false, 0, 2 ^ 4 - 1⟩
def CMP_WB_CTRL_FMT : Fld := ⟨21, 168, 5, 1, .rws, .m, 0, false, 0, 2 ^ 1 - 1⟩
def CMP_WB_CTRL_DECIM : Fld := ⟨21, 168, 6, 2, .rws, .m, 0, false, 0, 0x2⟩
def CMP_WB_CTRL_BASE : Fld := ⟨21, 168, 8, 36, .rws, .m, 0, false, 0, 2 ^ 36 - 1⟩

/-! CMP.WB_ORG -/
def CMP_WB_ORG_X0 : Fld := ⟨21, 176, 0, 20, .rws, .m, 0, false, 0, 2 ^ 20 - 1⟩
def CMP_WB_ORG_Y0 : Fld := ⟨21, 176, 20, 20, .rws, .m, 0, false, 0, 2 ^ 20 - 1⟩

/-! CMP.WB_SIZE -/
def CMP_WB_SIZE_W : Fld := ⟨21, 184, 0, 15, .rws, .m, 0, false, 1, 0x4000⟩
def CMP_WB_SIZE_H : Fld := ⟨21, 184, 15, 15, .rws, .m, 0, false, 1, 0x4000⟩
def CMP_WB_SIZE_STRIDE : Fld := ⟨21, 184, 30, 24, .rws, .m, 0, false, 0, 2 ^ 24 - 1⟩

/-! CMP.WB_STAT -/
def CMP_WB_STAT_LAST_SLOT : Fld := ⟨21, 192, 0, 4, .ro, .b, 0, true, 0, 2 ^ 4 - 1⟩
def CMP_WB_STAT_FRAME : Fld := ⟨21, 192, 4, 48, .ro, .b, 0, true, 0, 2 ^ 48 - 1⟩

/-! CMP.LAYER_DEFER -/
def CMP_LAYER_DEFER_MASK : Fld := ⟨21, 200, 0, 64, .ro, .b, 0, true, 0, 2 ^ 64 - 1⟩

/-! CMP.LAYER_REFUSED -/
def CMP_LAYER_REFUSED_MASK : Fld := ⟨21, 208, 0, 64, .ro, .b, 0, true, 0, 2 ^ 64 - 1⟩

/-! CMP.LAYER_SEL -/
def CMP_LAYER_SEL_LAYER : Fld := ⟨21, 216, 0, 6, .rw, .b, 0, false, 0, 2 ^ 6 - 1⟩

/-! CMP.LAYER_STAT -/
def CMP_LAYER_STAT_STATE : Fld := ⟨21, 224, 0, 2, .ro, .b, 0, true, 0, 2 ^ 2 - 1⟩
def CMP_LAYER_STAT_REASON : Fld := ⟨21, 224, 2, 4, .ro, .b, 0, true, 0, 2 ^ 4 - 1⟩
def CMP_LAYER_STAT_WAIT : Fld := ⟨21, 224, 6, 8, .ro, .b, 0, true, 0, 2 ^ 8 - 1⟩
def CMP_LAYER_STAT_SINCE : Fld := ⟨21, 224, 14, 48, .ro, .b, 0, true, 0, 2 ^ 48 - 1⟩

/-! CMP.GUARD_LAST -/
def CMP_GUARD_LAST_ADDR : Fld := ⟨21, 232, 0, 36, .ro, .b, 0, true, 0, 2 ^ 36 - 1⟩
def CMP_GUARD_LAST_HANDLE : Fld := ⟨21, 232, 36, 12, .ro, .b, 0, true, 0, 2 ^ 12 - 1⟩
def CMP_GUARD_LAST_WB : Fld := ⟨21, 232, 48, 1, .ro, .b, 0, true, 0, 2 ^ 1 - 1⟩
def CMP_GUARD_LAST_INTERM : Fld := ⟨21, 232, 49, 1, .ro, .b, 0, true, 0, 2 ^ 1 - 1⟩

/-! CMP.CNT0 -/
def CMP_CNT0_REL_DEFER : Fld := ⟨21, 240, 0, 16, .w1c, .b, 0, true, 0, 2 ^ 16 - 1⟩
def CMP_CNT0_GUARD : Fld := ⟨21, 240, 16, 16, .w1c, .b, 0, true, 0, 2 ^ 16 - 1⟩
def CMP_CNT0_OVERLAP : Fld := ⟨21, 240, 32, 16, .w1c, .b, 0, true, 0, 2 ^ 16 - 1⟩
def CMP_CNT0_WB_INCOMPLETE : Fld := ⟨21, 240, 48, 16, .w1c, .b, 0, true, 0, 2 ^ 16 - 1⟩

/-! CMP.CNT1 -/
def CMP_CNT1_OVERRUN : Fld := ⟨21, 248, 0, 16, .w1c, .b, 0, true, 0, 2 ^ 16 - 1⟩
def CMP_CNT1_FENCE_TMO : Fld := ⟨21, 248, 16, 16, .w1c, .b, 0, true, 0, 2 ^ 16 - 1⟩
def CMP_CNT1_REFUSED : Fld := ⟨21, 248, 32, 16, .w1c, .b, 0, true, 0, 2 ^ 16 - 1⟩
def CMP_CNT1_FLIP_MISMATCH : Fld := ⟨21, 248, 48, 8, .w1c, .b, 0, true, 0, 2 ^ 8 - 1⟩
def CMP_CNT1_FLIP_SELF : Fld := ⟨21, 248, 56, 8, .w1c, .b, 0, true, 0, 2 ^ 8 - 1⟩

/-! CMP.COMP_NS -/
def CMP_COMP_NS_BUSY : Fld := ⟨21, 256, 0, 32, .ro, .b, 0, true, 0, 2 ^ 32 - 1⟩

/-! CMP.FENCE -/
def CMP_FENCE_VALUE (i : Nat) : Fld := ⟨21, 512 + 8 * i, 0, 32, .rw, .b, 0, false, 0, 2 ^ 32 - 1⟩

/-! SCL.LOAD -/
def SCL_LOAD_CYCLES (u : Nat) : Fld := ⟨22, 128 + 8 * u, 0, 32, .ro, .b, 0, true, 0, 2 ^ 32 - 1⟩
def SCL_LOAD_LAYERS (u : Nat) : Fld := ⟨22, 128 + 8 * u, 32, 8, .ro, .b, 0, true, 0, 2 ^ 8 - 1⟩

/-! SCL.COEF_STAT -/
def SCL_COEF_STAT_HNU : Fld := ⟨22, 192, 0, 16, .ro, .b, 0, false, 0, 2 ^ 16 - 1⟩
def SCL_COEF_STAT_VNU : Fld := ⟨22, 192, 16, 16, .ro, .b, 0, false, 0, 2 ^ 16 - 1⟩

/-! SCL.CNT -/
def SCL_CNT_PASS1_LATE : Fld := ⟨22, 200, 0, 16, .w1c, .b, 0, true, 0, 2 ^ 16 - 1⟩
def SCL_CNT_CAPACITY : Fld := ⟨22, 200, 16, 16, .w1c, .b, 0, true, 0, 2 ^ 16 - 1⟩

/-! IMP.CTRL -/
def IMP_CTRL_BANK : Fld := ⟨23, 128, 0, 1, .rws, .m, 0, false, 0, 2 ^ 1 - 1⟩
def IMP_CTRL_DMG_EN : Fld := ⟨23, 128, 1, 1, .rws, .m, 0, false, 0, 2 ^ 1 - 1⟩
def IMP_CTRL_REFRESH_N : Fld := ⟨23, 128, 2, 8, .rws, .m, 60, false, 0, 2 ^ 8 - 1⟩
def IMP_CTRL_ORDER : Fld := ⟨23, 128, 10, 1, .rws, .m, 0, false, 0, 2 ^ 1 - 1⟩
def IMP_CTRL_SIDE_EN : Fld := ⟨23, 128, 11, 2, .rws, .m, 2, false, 0, 2 ^ 2 - 1⟩
def IMP_CTRL_WIDE : Fld := ⟨23, 128, 13, 1, .rws, .m, 0, false, 0, 2 ^ 1 - 1⟩
def IMP_CTRL_REFLOG_EN : Fld := ⟨23, 128, 14, 1, .rws, .m, 1, false, 0, 2 ^ 1 - 1⟩

/-! IMP.TIMING -/
def IMP_TIMING_TPRESS_US : Fld := ⟨23, 136, 0, 12, .rws, .m, 600, false, 50, 0xFA0⟩
def IMP_TIMING_HOP_NS : Fld := ⟨23, 136, 12, 12, .rws, .m, 1500, false, 500, 0xFA0⟩

/-! IMP.PREP -/
def IMP_PREP_GO : Fld := ⟨23, 144, 0, 1, .w1s, .b, 0, false, 0, 2 ^ 1 - 1⟩
def IMP_PREP_BANK : Fld := ⟨23, 144, 1, 1, .rw, .b, 0, false, 0, 2 ^ 1 - 1⟩

/-! IMP.PREP_STAT -/
def IMP_PREP_STAT_BUSY : Fld := ⟨23, 152, 0, 1, .ro, .b, 0, false, 0, 2 ^ 1 - 1⟩
def IMP_PREP_STAT_OK : Fld := ⟨23, 152, 1, 2, .ro, .b, 0, false, 0, 2 ^ 2 - 1⟩
def IMP_PREP_STAT_REASON : Fld := ⟨23, 152, 3, 3, .ro, .b, 0, false, 0, 2 ^ 3 - 1⟩
def IMP_PREP_STAT_SIDE : Fld := ⟨23, 152, 6, 1, .ro, .b, 0, false, 0, 2 ^ 1 - 1⟩
def IMP_PREP_STAT_NODE : Fld := ⟨23, 152, 7, 6, .ro, .b, 0, false, 0, 2 ^ 6 - 1⟩

/-! IMP.PREP_LOAD -/
def IMP_PREP_LOAD_FULL_A : Fld := ⟨23, 160, 0, 24, .ro, .b, 0, false, 0, 2 ^ 24 - 1⟩
def IMP_PREP_LOAD_FULL_B : Fld := ⟨23, 160, 24, 24, .ro, .b, 0, false, 0, 2 ^ 24 - 1⟩

/-! IMP.FOOT -/
def IMP_FOOT_PX : Fld := ⟨23, 168, 0, 32, .ro, .b, 0, true, 0, 2 ^ 32 - 1⟩

/-! IMP.LOAD -/
def IMP_LOAD_FOLIOS (s : Nat) : Fld := ⟨23, 176 + 8 * s, 0, 24, .ro, .b, 0, true, 0, 2 ^ 24 - 1⟩
def IMP_LOAD_SLACK_NS (s : Nat) : Fld := ⟨23, 176 + 8 * s, 24, 24, .ro, .b, 0, true, 0, 2 ^ 24 - 1⟩
def IMP_LOAD_FULL_TILES (s : Nat) : Fld := ⟨23, 176 + 8 * s, 48, 8, .ro, .b, 0, true, 0, 2 ^ 8 - 1⟩

/-! IMP.DMG_STAT -/
def IMP_DMG_STAT_RECTS : Fld := ⟨23, 192, 0, 8, .ro, .b, 0, true, 0, 2 ^ 8 - 1⟩
def IMP_DMG_STAT_MERGED : Fld := ⟨23, 192, 8, 1, .ro, .b, 0, true, 0, 2 ^ 1 - 1⟩

/-! IMP.CNT -/
def IMP_CNT_OVERRUN : Fld := ⟨23, 200, 0, 16, .w1c, .b, 0, true, 0, 2 ^ 16 - 1⟩
def IMP_CNT_BANK_REFUSED : Fld := ⟨23, 200, 16, 16, .w1c, .b, 0, true, 0, 2 ^ 16 - 1⟩
def IMP_CNT_NEED_FULL : Fld := ⟨23, 200, 32, 16, .w1c, .b, 0, true, 0, 2 ^ 16 - 1⟩
def IMP_CNT_REFRESH_SELF : Fld := ⟨23, 200, 48, 8, .w1c, .b, 0, true, 0, 2 ^ 8 - 1⟩

/-! IMP.UNSENT -/
def IMP_UNSENT_LEAVES : Fld := ⟨23, 208, 0, 32, .w1c, .b, 0, true, 0, 2 ^ 32 - 1⟩

/-! QP.CFG -/
def QP_CFG_RATE_START (s : Nat) : Fld := ⟨(24 + s), 128, 0, 2, .rw, .m, 0, false, 0, 0x2⟩
def QP_CFG_RATE_MASK (s : Nat) : Fld := ⟨(24 + s), 128, 2, 3, .rw, .m, 7, false, 0, 2 ^ 3 - 1⟩
def QP_CFG_MIN_LANES (s : Nat) : Fld := ⟨(24 + s), 128, 5, 3, .rw, .m, 4, false, 1, 0x4⟩
def QP_CFG_SPARE_EN (s : Nat) : Fld := ⟨(24 + s), 128, 8, 1, .rw, .m, 1, false, 0, 2 ^ 1 - 1⟩
def QP_CFG_EQ_FIX (s : Nat) : Fld := ⟨(24 + s), 128, 9, 1, .rw, .m, 0, false, 0, 2 ^ 1 - 1⟩
def QP_CFG_RX_INV (s : Nat) : Fld := ⟨(24 + s), 128, 10, 5, .rw, .m, 0, false, 0, 2 ^ 5 - 1⟩
def QP_CFG_TX_INV (s : Nat) : Fld := ⟨(24 + s), 128, 15, 5, .rw, .m, 0, false, 0, 2 ^ 5 - 1⟩

/-! QP.CTRL -/
def QP_CTRL_RETRAIN (s : Nat) : Fld := ⟨(24 + s), 136, 0, 1, .w1s, .b, 0, false, 0, 2 ^ 1 - 1⟩
def QP_CTRL_SWAP_LANE (s : Nat) : Fld := ⟨(24 + s), 136, 1, 4, .rw, .b, 7, false, 0, 2 ^ 4 - 1⟩
def QP_CTRL_SWAP_GO (s : Nat) : Fld := ⟨(24 + s), 136, 5, 1, .w1s, .b, 0, false, 0, 2 ^ 1 - 1⟩

/-! QP.WEAR -/
def QP_WEAR_WEAR_THR (s : Nat) : Fld := ⟨(24 + s), 144, 0, 24, .rw, .m, 4096, false, 0, 2 ^ 24 - 1⟩
def QP_WEAR_FAIL_THR (s : Nat) : Fld := ⟨(24 + s), 144, 24, 24, .rw, .m, 65536, false, 0, 2 ^ 24 - 1⟩

/-! QP.RETIRE -/
def QP_RETIRE_LANE (s : Nat) : Fld := ⟨(24 + s), 152, 0, 5, .w1c, .m, 0, false, 0, 2 ^ 5 - 1⟩

/-! QP.TX -/
def QP_TX_SWING (s : Nat) (l : Nat) : Fld := ⟨(24 + s), 192 + 8 * l, 0, 5, .rw, .m, 16, false, 0, 0x10⟩
def QP_TX_PRE (s : Nat) (l : Nat) : Fld := ⟨(24 + s), 192 + 8 * l, 5, 4, .rw, .m, 2, false, 0, 2 ^ 4 - 1⟩
def QP_TX_POST (s : Nat) (l : Nat) : Fld := ⟨(24 + s), 192 + 8 * l, 9, 5, .rw, .m, 6, false, 0, 0x1F⟩

/-! QP.LANE_FIX -/
def QP_LANE_FIX_PEAK (s : Nat) (l : Nat) : Fld := ⟨(24 + s), 272 + 8 * l, 0, 5, .rw, .m, 16, false, 0, 2 ^ 5 - 1⟩
def QP_LANE_FIX_DCG (s : Nat) (l : Nat) : Fld := ⟨(24 + s), 272 + 8 * l, 5, 3, .rw, .m, 0, false, 0, 2 ^ 3 - 1⟩

/-! QP.SIDE_STAT -/
def QP_SIDE_STAT_STATE (s : Nat) : Fld := ⟨(24 + s), 256, 0, 2, .ro, .b, 0, true, 0, 2 ^ 2 - 1⟩
def QP_SIDE_STAT_RATE (s : Nat) : Fld := ⟨(24 + s), 256, 2, 2, .ro, .b, 0, true, 0, 2 ^ 2 - 1⟩
def QP_SIDE_STAT_N_ACT (s : Nat) : Fld := ⟨(24 + s), 256, 4, 3, .ro, .b, 0, true, 0, 2 ^ 3 - 1⟩
def QP_SIDE_STAT_SPARE (s : Nat) : Fld := ⟨(24 + s), 256, 7, 3, .ro, .b, 7, true, 0, 2 ^ 3 - 1⟩
def QP_SIDE_STAT_SWAP_PEND (s : Nat) : Fld := ⟨(24 + s), 256, 10, 1, .ro, .b, 0, true, 0, 2 ^ 1 - 1⟩
def QP_SIDE_STAT_FAR_RX_UP (s : Nat) : Fld := ⟨(24 + s), 256, 11, 5, .ro, .b, 0, true, 0, 2 ^ 5 - 1⟩
def QP_SIDE_STAT_LANE_WORN (s : Nat) : Fld := ⟨(24 + s), 256, 16, 5, .ro, .b, 0, true, 0, 2 ^ 5 - 1⟩
def QP_SIDE_STAT_ATTEMPTS (s : Nat) : Fld := ⟨(24 + s), 256, 21, 16, .ro, .b, 0, true, 0, 2 ^ 16 - 1⟩

/-! QP.LANE_STAT -/
def QP_LANE_STAT_STATE (s : Nat) (l : Nat) : Fld := ⟨(24 + s), 320 + 8 * l, 0, 3, .ro, .b, 0, true, 0, 2 ^ 3 - 1⟩
def QP_LANE_STAT_PEAK (s : Nat) (l : Nat) : Fld := ⟨(24 + s), 320 + 8 * l, 3, 5, .ro, .b, 0, true, 0, 2 ^ 5 - 1⟩
def QP_LANE_STAT_DCG (s : Nat) (l : Nat) : Fld := ⟨(24 + s), 320 + 8 * l, 8, 3, .ro, .b, 0, true, 0, 2 ^ 3 - 1⟩
def QP_LANE_STAT_PHASE (s : Nat) (l : Nat) : Fld := ⟨(24 + s), 320 + 8 * l, 11, 6, .ro, .b, 0, true, 0, 2 ^ 6 - 1⟩
def QP_LANE_STAT_EYE (s : Nat) (l : Nat) : Fld := ⟨(24 + s), 320 + 8 * l, 17, 8, .ro, .b, 0, true, 0, 2 ^ 8 - 1⟩
def QP_LANE_STAT_SKEW (s : Nat) (l : Nat) : Fld := ⟨(24 + s), 320 + 8 * l, 25, 8, .ro, .b, 0, true, 0, 2 ^ 8 - 1⟩
def QP_LANE_STAT_LOG (s : Nat) (l : Nat) : Fld := ⟨(24 + s), 320 + 8 * l, 33, 3, .ro, .b, 7, true, 0, 2 ^ 3 - 1⟩

/-! QP.LANE_CNT -/
def QP_LANE_CNT_CORR (s : Nat) (l : Nat) : Fld := ⟨(24 + s), 384 + 8 * l, 0, 32, .w1c, .b, 0, true, 0, 2 ^ 32 - 1⟩
def QP_LANE_CNT_UNCORR (s : Nat) (l : Nat) : Fld := ⟨(24 + s), 384 + 8 * l, 32, 16, .w1c, .b, 0, true, 0, 2 ^ 16 - 1⟩
def QP_LANE_CNT_LAST_WIN (s : Nat) (l : Nat) : Fld := ⟨(24 + s), 384 + 8 * l, 48, 16, .ro, .b, 0, true, 0, 2 ^ 16 - 1⟩

/-! QP.CNT -/
def QP_CNT_SWAPS (s : Nat) : Fld := ⟨(24 + s), 448, 0, 16, .w1c, .b, 0, true, 0, 2 ^ 16 - 1⟩
def QP_CNT_LOST_FOLIOS (s : Nat) : Fld := ⟨(24 + s), 448, 16, 16, .w1c, .b, 0, true, 0, 2 ^ 16 - 1⟩
def QP_CNT_DESKEW (s : Nat) : Fld := ⟨(24 + s), 448, 32, 16, .w1c, .b, 0, true, 0, 2 ^ 16 - 1⟩
def QP_CNT_SIDE_DOWNS (s : Nat) : Fld := ⟨(24 + s), 448, 48, 16, .w1c, .b, 0, true, 0, 2 ^ 16 - 1⟩

/-! QLK.CFG -/
def QLK_CFG_RING_A : Fld := ⟨26, 128, 0, 6, .rw, .m, 0, false, 0, 2 ^ 6 - 1⟩
def QLK_CFG_RING_B : Fld := ⟨26, 128, 6, 6, .rw, .m, 0, false, 0, 2 ^ 6 - 1⟩
def QLK_CFG_LINEAR : Fld := ⟨26, 128, 12, 2, .rw, .m, 0, false, 0, 2 ^ 2 - 1⟩
def QLK_CFG_RELAY : Fld := ⟨26, 128, 14, 1, .rw, .m, 1, false, 0, 2 ^ 1 - 1⟩
def QLK_CFG_COLL_EN : Fld := ⟨26, 128, 15, 1, .rw, .m, 1, false, 0, 2 ^ 1 - 1⟩
def QLK_CFG_AUTO_ENUM : Fld := ⟨26, 128, 16, 1, .rw, .m, 1, false, 0, 2 ^ 1 - 1⟩

/-! QLK.CTRL -/
def QLK_CTRL_ENUM_GO : Fld := ⟨26, 136, 0, 1, .w1s, .b, 0, false, 0, 2 ^ 1 - 1⟩
def QLK_CTRL_SIDE : Fld := ⟨26, 136, 1, 1, .rw, .b, 0, false, 0, 2 ^ 1 - 1⟩

/-! QLK.TOPO -/
def QLK_TOPO_NODE (s : Nat) : Fld := ⟨26, 144 + 8 * s, 0, 6, .ro, .m, 0, false, 0, 2 ^ 6 - 1⟩
def QLK_TOPO_NODE_VALID (s : Nat) : Fld := ⟨26, 144 + 8 * s, 6, 1, .ro, .m, 0, false, 0, 2 ^ 1 - 1⟩
def QLK_TOPO_RING (s : Nat) : Fld := ⟨26, 144 + 8 * s, 7, 6, .ro, .m, 0, false, 0, 2 ^ 6 - 1⟩
def QLK_TOPO_N_TILES (s : Nat) : Fld := ⟨26, 144 + 8 * s, 13, 6, .ro, .b, 0, false, 0, 2 ^ 6 - 1⟩
def QLK_TOPO_REACH_END (s : Nat) : Fld := ⟨26, 144 + 8 * s, 19, 6, .ro, .b, 0, false, 0, 2 ^ 6 - 1⟩
def QLK_TOPO_SPLIT (s : Nat) : Fld := ⟨26, 144 + 8 * s, 25, 1, .ro, .b, 0, false, 0, 2 ^ 1 - 1⟩
def QLK_TOPO_FAR_SENDER (s : Nat) : Fld := ⟨26, 144 + 8 * s, 26, 1, .ro, .b, 0, false, 0, 2 ^ 1 - 1⟩

/-! QLK.REACH -/
def QLK_REACH_NODES (s : Nat) : Fld := ⟨26, 160 + 8 * s, 0, 64, .ro, .b, 0, true, 0, 2 ^ 64 - 1⟩

/-! QLK.DRR -/
def QLK_DRR_D_A : Fld := ⟨26, 176, 0, 6, .ro, .b, 0, true, 0, 2 ^ 6 - 1⟩
def QLK_DRR_D_B : Fld := ⟨26, 176, 6, 6, .ro, .b, 0, true, 0, 2 ^ 6 - 1⟩
def QLK_DRR_WFIX : Fld := ⟨26, 176, 12, 1, .rw, .t, 0, false, 0, 2 ^ 1 - 1⟩
def QLK_DRR_WA_FIX : Fld := ⟨26, 176, 13, 6, .rw, .t, 1, false, 1, 0x3F⟩
def QLK_DRR_WB_FIX : Fld := ⟨26, 176, 19, 6, .rw, .t, 1, false, 1, 0x3F⟩

/-! QLK.TMO -/
def QLK_TMO_KETTLE_US : Fld := ⟨26, 184, 0, 12, .rw, .m, 1500, false, 1100, 0xFA0⟩
def QLK_TMO_FRAG_US : Fld := ⟨26, 184, 12, 10, .rw, .m, 1000, false, 100, 0x3E8⟩

/-! QLK.STREAM_STAT -/
def QLK_STREAM_STAT_A_OK : Fld := ⟨26, 192, 0, 1, .ro, .b, 0, true, 0, 2 ^ 1 - 1⟩
def QLK_STREAM_STAT_B_OK : Fld := ⟨26, 192, 1, 1, .ro, .b, 0, true, 0, 2 ^ 1 - 1⟩
def QLK_STREAM_STAT_A_WHY : Fld := ⟨26, 192, 2, 1, .ro, .b, 0, true, 0, 2 ^ 1 - 1⟩
def QLK_STREAM_STAT_B_WHY : Fld := ⟨26, 192, 3, 1, .ro, .b, 0, true, 0, 2 ^ 1 - 1⟩

/-! QLK.ENUM_FRAME -/
def QLK_ENUM_FRAME_FRAME : Fld := ⟨26, 216, 0, 48, .ro, .b, 0, false, 0, 2 ^ 48 - 1⟩
def QLK_ENUM_FRAME_SIDE : Fld := ⟨26, 216, 48, 1, .ro, .b, 0, false, 0, 2 ^ 1 - 1⟩

/-! QLK.COLL_CAP0 -/
def QLK_COLL_CAP0_FRAME : Fld := ⟨26, 200, 0, 48, .ro, .b, 0, false, 0, 2 ^ 48 - 1⟩
def QLK_COLL_CAP0_FEED : Fld := ⟨26, 200, 48, 2, .ro, .b, 0, false, 0, 2 ^ 2 - 1⟩
def QLK_COLL_CAP0_VALID : Fld := ⟨26, 200, 50, 1, .w1c, .b, 0, false, 0, 2 ^ 1 - 1⟩
def QLK_COLL_CAP0_MORE : Fld := ⟨26, 200, 51, 1, .ro, .b, 0, false, 0, 2 ^ 1 - 1⟩

/-! QLK.COLL_CAP1 -/
def QLK_COLL_CAP1_CRC_A : Fld := ⟨26, 208, 0, 32, .ro, .b, 0, false, 0, 2 ^ 32 - 1⟩
def QLK_COLL_CAP1_CRC_B : Fld := ⟨26, 208, 32, 32, .ro, .b, 0, false, 0, 2 ^ 32 - 1⟩

/-! QLK.COLL_CNT -/
def QLK_COLL_CNT_MISMATCH (k : Nat) : Fld := ⟨26, 256 + 8 * k, 0, 16, .w1c, .b, 0, true, 0, 2 ^ 16 - 1⟩
def QLK_COLL_CNT_SHAPE (k : Nat) : Fld := ⟨26, 256 + 8 * k, 16, 16, .w1c, .b, 0, true, 0, 2 ^ 16 - 1⟩
def QLK_COLL_CNT_SINGLE (k : Nat) : Fld := ⟨26, 256 + 8 * k, 32, 16, .w1c, .b, 0, true, 0, 2 ^ 16 - 1⟩
def QLK_COLL_CNT_SKIP (k : Nat) : Fld := ⟨26, 256 + 8 * k, 48, 16, .w1c, .b, 0, true, 0, 2 ^ 16 - 1⟩

/-! QLK.COLL_MATCH -/
def QLK_COLL_MATCH_MATCH : Fld := ⟨26, 288, 0, 32, .w1c, .b, 0, true, 0, 2 ^ 32 - 1⟩

/-! QLK.SIG_CNT -/
def QLK_SIG_CNT_OK (x : Nat) : Fld := ⟨26, 320 + 8 * x, 0, 32, .w1c, .b, 0, true, 0, 2 ^ 32 - 1⟩
def QLK_SIG_CNT_CRC_FAIL (x : Nat) : Fld := ⟨26, 320 + 8 * x, 32, 16, .w1c, .b, 0, true, 0, 2 ^ 16 - 1⟩
def QLK_SIG_CNT_TRUNC (x : Nat) : Fld := ⟨26, 320 + 8 * x, 48, 8, .w1c, .b, 0, true, 0, 2 ^ 8 - 1⟩
def QLK_SIG_CNT_ORPHAN (x : Nat) : Fld := ⟨26, 320 + 8 * x, 56, 8, .w1c, .b, 0, true, 0, 2 ^ 8 - 1⟩

/-! QLK.FOLIO_CNT -/
def QLK_FOLIO_CNT_RX (s : Nat) : Fld := ⟨26, 336 + 8 * s, 0, 32, .w1c, .b, 0, true, 0, 2 ^ 32 - 1⟩
def QLK_FOLIO_CNT_UNCORR (s : Nat) : Fld := ⟨26, 336 + 8 * s, 32, 16, .w1c, .b, 0, true, 0, 2 ^ 16 - 1⟩
def QLK_FOLIO_CNT_BADTYPE (s : Nat) : Fld := ⟨26, 336 + 8 * s, 48, 16, .w1c, .b, 0, true, 0, 2 ^ 16 - 1⟩

/-! QLK.MG_CNT -/
def QLK_MG_CNT_FRAG_TMO : Fld := ⟨26, 352, 0, 16, .w1c, .b, 0, true, 0, 2 ^ 16 - 1⟩
def QLK_MG_CNT_RELAYED : Fld := ⟨26, 352, 16, 16, .w1c, .b, 0, true, 0, 2 ^ 16 - 1⟩
def QLK_MG_CNT_HOLDS : Fld := ⟨26, 352, 32, 16, .w1c, .b, 0, true, 0, 2 ^ 16 - 1⟩
def QLK_MG_CNT_BREAKS : Fld := ⟨26, 352, 48, 16, .w1c, .b, 0, true, 0, 2 ^ 16 - 1⟩

/-! QLK.HOP -/
def QLK_HOP_FWD_MAX_NS : Fld := ⟨26, 360, 0, 16, .w1c, .b, 0, true, 0, 2 ^ 16 - 1⟩
def QLK_HOP_QMAX_A : Fld := ⟨26, 360, 16, 12, .w1c, .b, 0, true, 0, 2 ^ 12 - 1⟩
def QLK_HOP_QMAX_B : Fld := ⟨26, 360, 28, 12, .w1c, .b, 0, true, 0, 2 ^ 12 - 1⟩

/-! WTU.NOW_SEC -/
def WTU_NOW_SEC_SEC : Fld := ⟨8, 128, 0, 64, .ro, .b, 0, true, 0, 2 ^ 64 - 1⟩

/-! WTU.NOW_NS -/
def WTU_NOW_NS_NS : Fld := ⟨8, 136, 0, 32, .ro, .b, 0, true, 0, 2 ^ 32 - 1⟩
def WTU_NOW_NS_FRAC : Fld := ⟨8, 136, 32, 16, .ro, .b, 0, true, 0, 2 ^ 16 - 1⟩

/-! WTU.FRAME -/
def WTU_FRAME_FRAME_NO : Fld := ⟨8, 144, 0, 48, .ro, .b, 0, true, 0, 2 ^ 48 - 1⟩
def WTU_FRAME_FEED : Fld := ⟨8, 144, 48, 2, .ro, .b, 0, true, 0, 2 ^ 2 - 1⟩
def WTU_FRAME_HELD : Fld := ⟨8, 144, 50, 1, .ro, .b, 0, true, 0, 2 ^ 1 - 1⟩

/-! WTU.TB_T0S -/
def WTU_TB_T0S_SEC : Fld := ⟨8, 152, 0, 64, .ro, .b, 0, false, 0, 2 ^ 64 - 1⟩

/-! WTU.NX_T0S -/
def WTU_NX_T0S_SEC : Fld := ⟨8, 176, 0, 64, .rw, .m, 0, false, 0, 2 ^ 64 - 1⟩

/-! WTU.TB_T0NS -/
def WTU_TB_T0NS_NS : Fld := ⟨8, 160, 0, 32, .ro, .b, 0, false, 0, 2 ^ 32 - 1⟩

/-! WTU.NX_T0NS -/
def WTU_NX_T0NS_NS : Fld := ⟨8, 184, 0, 32, .rw, .m, 0, false, 0, 2 ^ 32 - 1⟩

/-! WTU.TB_T0NS -/
def WTU_TB_T0NS_FRAC : Fld := ⟨8, 160, 32, 16, .ro, .b, 0, false, 0, 2 ^ 16 - 1⟩

/-! WTU.NX_T0NS -/
def WTU_NX_T0NS_FRAC : Fld := ⟨8, 184, 32, 16, .rw, .m, 0, false, 0, 2 ^ 16 - 1⟩

/-! WTU.TB_T0NS -/
def WTU_TB_T0NS_L_US : Fld := ⟨8, 160, 48, 11, .ro, .b, 500, false, 0, 2 ^ 11 - 1⟩

/-! WTU.NX_T0NS -/
def WTU_NX_T0NS_L_US : Fld := ⟨8, 184, 48, 11, .rw, .m, 500, false, 50, 0x7D0⟩

/-! WTU.TB_T0NS -/
def WTU_TB_T0NS_F_M1 : Fld := ⟨8, 160, 59, 2, .ro, .b, 0, false, 0, 2 ^ 2 - 1⟩

/-! WTU.NX_T0NS -/
def WTU_NX_T0NS_F_M1 : Fld := ⟨8, 184, 59, 2, .rw, .m, 0, false, 0, 2 ^ 2 - 1⟩

/-! WTU.TB_RATE -/
def WTU_TB_RATE_NUM : Fld := ⟨8, 168, 0, 18, .ro, .b, 60000, false, 0, 2 ^ 18 - 1⟩

/-! WTU.NX_RATE -/
def WTU_NX_RATE_NUM : Fld := ⟨8, 192, 0, 18, .rw, .m, 60000, false, 1000, 0x3A980⟩

/-! WTU.TB_RATE -/
def WTU_TB_RATE_DEN : Fld := ⟨8, 168, 18, 11, .ro, .b, 1000, false, 0, 2 ^ 11 - 1⟩

/-! WTU.NX_RATE -/
def WTU_NX_RATE_DEN : Fld := ⟨8, 192, 18, 11, .rw, .m, 1000, false, 0, 2 ^ 11 - 1⟩

/-! WTU.TB_CTRL -/
def WTU_TB_CTRL_SW_FRAME : Fld := ⟨8, 200, 0, 48, .rw, .b, 0, false, 0, 2 ^ 48 - 1⟩
def WTU_TB_CTRL_ARM : Fld := ⟨8, 200, 48, 1, .w1s, .b, 0, false, 0, 2 ^ 1 - 1⟩
def WTU_TB_CTRL_CONT : Fld := ⟨8, 200, 49, 1, .rw, .b, 1, false, 0, 2 ^ 1 - 1⟩
def WTU_TB_CTRL_PEND : Fld := ⟨8, 200, 50, 1, .ro, .b, 0, false, 0, 2 ^ 1 - 1⟩
def WTU_TB_CTRL_LATE_CNT : Fld := ⟨8, 200, 51, 8, .w1c, .b, 0, true, 0, 2 ^ 8 - 1⟩

/-! WTU.SRC_CFG -/
def WTU_SRC_CFG_PRI0 : Fld := ⟨8, 208, 0, 3, .rw, .m, 1, false, 0, 2 ^ 3 - 1⟩
def WTU_SRC_CFG_PRI1 : Fld := ⟨8, 208, 3, 3, .rw, .m, 2, false, 0, 2 ^ 3 - 1⟩
def WTU_SRC_CFG_PRI2 : Fld := ⟨8, 208, 6, 3, .rw, .m, 5, false, 0, 2 ^ 3 - 1⟩
def WTU_SRC_CFG_PRI3 : Fld := ⟨8, 208, 9, 3, .rw, .m, 7, false, 0, 2 ^ 3 - 1⟩
def WTU_SRC_CFG_SLEW_NS : Fld := ⟨8, 208, 12, 14, .rw, .m, 10000, false, 100, 0x2710⟩
def WTU_SRC_CFG_STEP_LIM_NS : Fld := ⟨8, 208, 26, 20, .rw, .m, 100000, false, 1000, 0xF4240⟩
def WTU_SRC_CFG_STEP_EN : Fld := ⟨8, 208, 46, 1, .rw, .m, 0, false, 0, 2 ^ 1 - 1⟩

/-! WTU.SRC_STAT -/
def WTU_SRC_STAT_STATE : Fld := ⟨8, 216, 0, 2, .ro, .b, 0, true, 0, 2 ^ 2 - 1⟩
def WTU_SRC_STAT_SRC : Fld := ⟨8, 216, 2, 3, .ro, .b, 0, true, 0, 2 ^ 3 - 1⟩
def WTU_SRC_STAT_VALID : Fld := ⟨8, 216, 5, 8, .ro, .b, 0, true, 0, 2 ^ 8 - 1⟩
def WTU_SRC_STAT_OFFSET_NS : Fld := ⟨8, 216, 13, 32, .ro, .b, 0, true, 0, 2 ^ 32 - 1⟩
def WTU_SRC_STAT_HOLD_S : Fld := ⟨8, 216, 45, 19, .ro, .b, 0, true, 0, 2 ^ 19 - 1⟩

/-! WTU.PTP -/
def WTU_PTP_DOMAIN (d : Nat) : Fld := ⟨8, 224 + 8 * d, 0, 8, .rw, .m, (127 - d), false, 0, 2 ^ 8 - 1⟩
def WTU_PTP_PORT_MASK (d : Nat) : Fld := ⟨8, 224 + 8 * d, 8, 4, .rw, .m, 0, false, 0, 2 ^ 4 - 1⟩
def WTU_PTP_EN (d : Nat) : Fld := ⟨8, 224 + 8 * d, 12, 1, .rw, .m, 0, false, 0, 2 ^ 1 - 1⟩
def WTU_PTP_ANN_TMO (d : Nat) : Fld := ⟨8, 224 + 8 * d, 13, 4, .rw, .m, 3, false, 2, 0xA⟩

/-! WTU.PTP_STAT -/
def WTU_PTP_STAT_STATE (d : Nat) : Fld := ⟨8, 240 + 8 * d, 0, 2, .ro, .b, 0, true, 0, 2 ^ 2 - 1⟩
def WTU_PTP_STAT_PORT (d : Nat) : Fld := ⟨8, 240 + 8 * d, 2, 2, .ro, .b, 0, true, 0, 2 ^ 2 - 1⟩
def WTU_PTP_STAT_STEPS (d : Nat) : Fld := ⟨8, 240 + 8 * d, 4, 8, .ro, .b, 0, true, 0, 2 ^ 8 - 1⟩
def WTU_PTP_STAT_OFFSET_NS (d : Nat) : Fld := ⟨8, 240 + 8 * d, 12, 32, .ro, .b, 0, true, 0, 2 ^ 32 - 1⟩
def WTU_PTP_STAT_MPD_NS (d : Nat) : Fld := ⟨8, 240 + 8 * d, 44, 20, .ro, .b, 0, true, 0, 2 ^ 20 - 1⟩

/-! WTU.PTP_GM -/
def WTU_PTP_GM_GM_ID (d : Nat) : Fld := ⟨8, 256 + 8 * d, 0, 64, .ro, .b, 0, true, 0, 2 ^ 64 - 1⟩

/-! WTU.LINK -/
def WTU_LINK_ASYM_PS (s : Nat) : Fld := ⟨8, 272 + 8 * s, 0, 16, .rw, .m, 0, false, 0, 2 ^ 16 - 1⟩
def WTU_LINK_DELAY_PS (s : Nat) : Fld := ⟨8, 272 + 8 * s, 16, 24, .ro, .b, 0, true, 0, 2 ^ 24 - 1⟩
def WTU_LINK_PARENT (s : Nat) : Fld := ⟨8, 272 + 8 * s, 40, 1, .ro, .b, 0, true, 0, 2 ^ 1 - 1⟩
def WTU_LINK_SETTLING (s : Nat) : Fld := ⟨8, 272 + 8 * s, 41, 1, .ro, .b, 0, true, 0, 2 ^ 1 - 1⟩

/-! WTU.ROOT -/
def WTU_ROOT_NODE : Fld := ⟨8, 288, 0, 6, .ro, .b, 0, true, 0, 2 ^ 6 - 1⟩
def WTU_ROOT_RING : Fld := ⟨8, 288, 6, 6, .ro, .b, 0, true, 0, 2 ^ 6 - 1⟩
def WTU_ROOT_QUAL : Fld := ⟨8, 288, 12, 2, .ro, .b, 0, true, 0, 2 ^ 2 - 1⟩
def WTU_ROOT_HOPS : Fld := ⟨8, 288, 14, 6, .ro, .b, 0, true, 0, 2 ^ 6 - 1⟩
def WTU_ROOT_ROOT_SRC : Fld := ⟨8, 288, 20, 3, .ro, .b, 0, true, 0, 2 ^ 3 - 1⟩
def WTU_ROOT_SELF : Fld := ⟨8, 288, 23, 1, .ro, .b, 0, true, 0, 2 ^ 1 - 1⟩

/-! WTU.RING_OFS -/
def WTU_RING_OFS_OFS_PS : Fld := ⟨8, 296, 0, 32, .ro, .b, 0, true, 0, 2 ^ 32 - 1⟩
def WTU_RING_OFS_VALID : Fld := ⟨8, 296, 32, 1, .ro, .b, 0, true, 0, 2 ^ 1 - 1⟩

/-! WTU.GLK -/
def WTU_GLK_EN : Fld := ⟨8, 304, 0, 1, .rw, .m, 0, false, 0, 2 ^ 1 - 1⟩
def WTU_GLK_POL : Fld := ⟨8, 304, 1, 1, .rw, .m, 0, false, 0, 2 ^ 1 - 1⟩
def WTU_GLK_DIV : Fld := ⟨8, 304, 2, 4, .rw, .m, 1, false, 1, 0xF⟩
def WTU_GLK_OFS_NS : Fld := ⟨8, 304, 6, 32, .rw, .m, 0, false, 0, 2 ^ 32 - 1⟩
def WTU_GLK_BAD : Fld := ⟨8, 304, 38, 16, .w1c, .b, 0, true, 0, 2 ^ 16 - 1⟩

/-! WTU.PPS -/
def WTU_PPS_IN_EN : Fld := ⟨8, 312, 0, 1, .rw, .m, 0, false, 0, 2 ^ 1 - 1⟩
def WTU_PPS_IN_POL : Fld := ⟨8, 312, 1, 1, .rw, .m, 0, false, 0, 2 ^ 1 - 1⟩
def WTU_PPS_OUT_EN : Fld := ⟨8, 312, 2, 1, .rw, .m, 0, false, 0, 2 ^ 1 - 1⟩
def WTU_PPS_OUT_POL : Fld := ⟨8, 312, 3, 1, .rw, .m, 0, false, 0, 2 ^ 1 - 1⟩
def WTU_PPS_OUT_WIDTH_US : Fld := ⟨8, 312, 4, 20, .rw, .m, 100, false, 1, 0x7A120⟩
def WTU_PPS_OUT_OFS_NS : Fld := ⟨8, 312, 24, 32, .rw, .m, 0, false, 0, 2 ^ 32 - 1⟩

/-! WTU.TOD -/
def WTU_TOD_SEC_NEXT : Fld := ⟨8, 320, 0, 64, .rw, .b, 0, false, 0, 2 ^ 64 - 1⟩

/-! WTU.TICKOUT -/
def WTU_TICKOUT_EN : Fld := ⟨8, 328, 0, 1, .rws, .m, 0, false, 0, 2 ^ 1 - 1⟩
def WTU_TICKOUT_POL : Fld := ⟨8, 328, 1, 1, .rws, .m, 0, false, 0, 2 ^ 1 - 1⟩
def WTU_TICKOUT_MODE : Fld := ⟨8, 328, 2, 2, .rws, .m, 0, false, 0, 0x2⟩
def WTU_TICKOUT_FEED : Fld := ⟨8, 328, 4, 2, .rws, .m, 0, false, 0, 2 ^ 2 - 1⟩
def WTU_TICKOUT_HOLD_SKIP : Fld := ⟨8, 328, 6, 1, .rws, .m, 1, false, 0, 2 ^ 1 - 1⟩
def WTU_TICKOUT_WIDTH_US : Fld := ⟨8, 328, 7, 19, .rws, .m, 10, false, 0, 2 ^ 19 - 1⟩
def WTU_TICKOUT_OFS_NS : Fld := ⟨8, 328, 26, 32, .rws, .m, 0, false, 0, 2 ^ 32 - 1⟩

/-! WTU.FWIN -/
def WTU_FWIN_EN : Fld := ⟨8, 336, 0, 1, .rws, .m, 0, false, 0, 2 ^ 1 - 1⟩
def WTU_FWIN_POL : Fld := ⟨8, 336, 1, 1, .rws, .m, 0, false, 0, 2 ^ 1 - 1⟩
def WTU_FWIN_LEAD_US : Fld := ⟨8, 336, 2, 10, .rws, .m, 200, false, 110, 0x3E8⟩
def WTU_FWIN_WIN_US : Fld := ⟨8, 336, 12, 10, .rws, .m, 100, false, 10, 0x3E8⟩
def WTU_FWIN_TMO_FR : Fld := ⟨8, 336, 22, 8, .rws, .m, 8, false, 1, 0xFF⟩
def WTU_FWIN_FILT_NS : Fld := ⟨8, 336, 30, 14, .rws, .m, 100, false, 20, 0x2710⟩
def WTU_FWIN_TOL : Fld := ⟨8, 336, 44, 10, .rws, .m, 50, false, 1, 0x3E8⟩

/-! WTU.FWIN_STAT -/
def WTU_FWIN_STAT_STATE : Fld := ⟨8, 344, 0, 2, .ro, .b, 0, true, 0, 2 ^ 2 - 1⟩
def WTU_FWIN_STAT_HELD : Fld := ⟨8, 344, 2, 16, .w1c, .b, 0, true, 0, 2 ^ 16 - 1⟩
def WTU_FWIN_STAT_STRAY : Fld := ⟨8, 344, 18, 16, .w1c, .b, 0, true, 0, 2 ^ 16 - 1⟩
def WTU_FWIN_STAT_GATE_MISS : Fld := ⟨8, 344, 34, 16, .w1c, .b, 0, true, 0, 2 ^ 16 - 1⟩

/-! WTU.CAP_CFG -/
def WTU_CAP_CFG_SRC (k : Nat) : Fld := ⟨8, 384 + 8 * k, 0, 5, .rw, .t, 0, false, 0, 0x13⟩
def WTU_CAP_CFG_EDGE (k : Nat) : Fld := ⟨8, 384 + 8 * k, 5, 2, .rw, .t, 0, false, 0, 2 ^ 2 - 1⟩

/-! WTU.CAP_TS -/
def WTU_CAP_TS_NS (k : Nat) : Fld := ⟨8, 448 + 8 * k, 0, 32, .ro, .b, 0, true, 0, 2 ^ 32 - 1⟩
def WTU_CAP_TS_SEC (k : Nat) : Fld := ⟨8, 448 + 8 * k, 32, 32, .ro, .b, 0, true, 0, 2 ^ 32 - 1⟩

/-! WTU.CAP_CNT -/
def WTU_CAP_CNT_CNT (k : Nat) : Fld := ⟨8, 512, 0 + 8 * k, 8, .w1c, .b, 0, true, 0, 2 ^ 8 - 1⟩

/-! WTU.TRIG -/
def WTU_TRIG_GPIO (k : Nat) : Fld := ⟨8, 528 + 8 * k, 0, 4, .rw, .t, 0, false, 0, 2 ^ 4 - 1⟩
def WTU_TRIG_MODE (k : Nat) : Fld := ⟨8, 528 + 8 * k, 4, 2, .rw, .t, 0, false, 0, 0x2⟩
def WTU_TRIG_POL (k : Nat) : Fld := ⟨8, 528 + 8 * k, 6, 1, .rw, .t, 0, false, 0, 2 ^ 1 - 1⟩
def WTU_TRIG_WIDTH_US (k : Nat) : Fld := ⟨8, 528 + 8 * k, 7, 16, .rw, .t, 10, false, 1, 0xFFFF⟩
def WTU_TRIG_OFS_NS (k : Nat) : Fld := ⟨8, 528 + 8 * k, 23, 32, .rw, .t, 0, false, 0, 2 ^ 32 - 1⟩

/-! TFS.GEOM -/
def TFS_GEOM_LW : Fld := ⟨32, 128, 0, 5, .rwk, .m, 16, false, 1, 0x10⟩
def TFS_GEOM_LH : Fld := ⟨32, 128, 5, 5, .rwk, .m, 16, false, 1, 0x10⟩

/-! TFS.RX -/
def TFS_RX_SEL : Fld := ⟨32, 136, 0, 1, .ro, .b, 0, false, 0, 2 ^ 1 - 1⟩
def TFS_RX_NEED_EN : Fld := ⟨32, 136, 1, 1, .rw, .m, 1, false, 0, 2 ^ 1 - 1⟩
def TFS_RX_NEED_RETRY : Fld := ⟨32, 136, 2, 8, .rw, .m, 4, false, 1, 0xFF⟩

/-! TFS.RX_STAT -/
def TFS_RX_STAT_FRAME : Fld := ⟨32, 144, 0, 48, .ro, .b, 0, true, 0, 2 ^ 48 - 1⟩
def TFS_RX_STAT_FEEDS_OK : Fld := ⟨32, 144, 48, 4, .ro, .b, 0, true, 0, 2 ^ 4 - 1⟩
def TFS_RX_STAT_NEED_PEND : Fld := ⟨32, 144, 52, 4, .ro, .b, 0, true, 0, 2 ^ 4 - 1⟩

/-! TFS.CNT0 -/
def TFS_CNT0_LATE : Fld := ⟨32, 160, 0, 16, .w1c, .b, 0, true, 0, 2 ^ 16 - 1⟩
def TFS_CNT0_UNSENT : Fld := ⟨32, 160, 16, 16, .w1c, .b, 0, true, 0, 2 ^ 16 - 1⟩
def TFS_CNT0_STALE : Fld := ⟨32, 160, 32, 16, .w1c, .b, 0, true, 0, 2 ^ 16 - 1⟩
def TFS_CNT0_GEOM : Fld := ⟨32, 160, 48, 16, .w1c, .b, 0, true, 0, 2 ^ 16 - 1⟩

/-! TFS.CNT1 -/
def TFS_CNT1_NEED : Fld := ⟨32, 168, 0, 16, .w1c, .b, 0, true, 0, 2 ^ 16 - 1⟩
def TFS_CNT1_ECC_SHEET : Fld := ⟨32, 168, 16, 16, .w1c, .b, 0, true, 0, 2 ^ 16 - 1⟩

/-! TFS.LEAF_UPD -/
def TFS_LEAF_UPD_BITS (f : Nat) (m : Nat) : Fld := ⟨32, 256 + 32 * f + 8 * m, 0, 64, .ro, .b, 0, true, 0, 2 ^ 64 - 1⟩

/-! LCP.CFG -/
def LCP_CFG_PRIM4 : Fld := ⟨33, 128, 0, 1, .rws, .m, 0, false, 0, 2 ^ 1 - 1⟩
def LCP_CFG_DITHER_EN : Fld := ⟨33, 128, 1, 1, .rws, .m, 1, false, 0, 2 ^ 1 - 1⟩
def LCP_CFG_LUT_BANK : Fld := ⟨33, 128, 2, 1, .rws, .m, 0, false, 0, 2 ^ 1 - 1⟩
def LCP_CFG_AGE_BANK : Fld := ⟨33, 128, 3, 1, .rws, .m, 0, false, 0, 2 ^ 1 - 1⟩
def LCP_CFG_USER_EN : Fld := ⟨33, 128, 4, 1, .rws, .m, 1, false, 0, 2 ^ 1 - 1⟩
def LCP_CFG_GUT_EN : Fld := ⟨33, 128, 5, 1, .rws, .m, 1, false, 0, 2 ^ 1 - 1⟩
def LCP_CFG_THERM_EN : Fld := ⟨33, 128, 6, 1, .rws, .m, 1, false, 0, 2 ^ 1 - 1⟩
def LCP_CFG_DEPTH : Fld := ⟨33, 128, 7, 5, .rws, .m, 18, false, 8, 0x12⟩
def LCP_CFG_LO_BITS : Fld := ⟨33, 128, 12, 3, .rws, .m, 0, false, 0, 0x5⟩
def LCP_CFG_AGE_EN : Fld := ⟨33, 128, 15, 1, .rw, .m, 1, false, 0, 2 ^ 1 - 1⟩

/-! LCP.PRESS -/
def LCP_PRESS_LEAD_US : Fld := ⟨33, 136, 0, 12, .rws, .m, 600, false, 0, 2 ^ 12 - 1⟩
def LCP_PRESS_NEED_US : Fld := ⟨33, 136, 12, 12, .ro, .b, 146, false, 0, 2 ^ 12 - 1⟩

/-! LCP.BRIGHT -/
def LCP_BRIGHT_BRIGHT : Fld := ⟨33, 144, 0, 17, .rws, .m, 65536, false, 0, 0x10000⟩
def LCP_BRIGHT_CEIL : Fld := ⟨33, 144, 17, 17, .rws, .m, 65536, false, 0, 0x10000⟩

/-! LCP.WHITE -/
def LCP_WHITE_WHITE (c : Nat) : Fld := ⟨33, 152, 0 + 16 * c, 16, .rws, .m, 32768, false, 0, 0x8000⟩

/-! LCP.LO_K -/
def LCP_LO_K_K (c : Nat) : Fld := ⟨33, 160, 0 + 16 * c, 16, .rws, .m, 32768, false, 16384, 0xFFFF⟩

/-! LCP.THERM -/
def LCP_THERM_COEF (c : Nat) : Fld := ⟨33, 168 + 8 * c, 0, 16, .rws, .m, 0, false, 0, 2 ^ 16 - 1⟩
def LCP_THERM_TREF (c : Nat) : Fld := ⟨33, 168 + 8 * c, 16, 8, .rws, .m, 25, false, 0, 2 ^ 8 - 1⟩

/-! LCP.AGE -/
def LCP_AGE_AGE_K : Fld := ⟨33, 200, 0, 32, .rw, .m, 28543, false, 0, 2 ^ 32 - 1⟩
def LCP_AGE_WR_EN : Fld := ⟨33, 200, 32, 1, .rw, .t, 0, false, 0, 2 ^ 1 - 1⟩
def LCP_AGE_SAVE_GO : Fld := ⟨33, 200, 33, 1, .w1s, .b, 0, false, 0, 2 ^ 1 - 1⟩

/-! LCP.AGE_STAT -/
def LCP_AGE_STAT_SAVE_FRAME : Fld := ⟨33, 208, 0, 48, .ro, .m, 0, false, 0, 2 ^ 48 - 1⟩
def LCP_AGE_STAT_SLOT : Fld := ⟨33, 208, 48, 1, .ro, .m, 0, false, 0, 2 ^ 1 - 1⟩
def LCP_AGE_STAT_RESTORE : Fld := ⟨33, 208, 49, 2, .ro, .b, 0, false, 0, 2 ^ 2 - 1⟩
def LCP_AGE_STAT_SAVING : Fld := ⟨33, 208, 51, 1, .ro, .b, 0, false, 0, 2 ^ 1 - 1⟩

/-! LCP.TLATCH -/
def LCP_TLATCH_T (d : Nat) : Fld := ⟨33, 216, 0 + 16 * d, 16, .ro, .b, 0, true, 0, 2 ^ 16 - 1⟩

/-! LCP.STAT -/
def LCP_STAT_PRESS_NS : Fld := ⟨33, 224, 0, 32, .ro, .b, 0, true, 0, 2 ^ 32 - 1⟩
def LCP_STAT_THR : Fld := ⟨33, 224, 32, 17, .ro, .b, 65536, true, 0, 2 ^ 17 - 1⟩

/-! LCP.CNT -/
def LCP_CNT_RESERVE_CLIP : Fld := ⟨33, 232, 0, 32, .w1c, .b, 0, true, 0, 2 ^ 32 - 1⟩
def LCP_CNT_PRESS_OVR : Fld := ⟨33, 232, 32, 16, .w1c, .b, 0, true, 0, 2 ^ 16 - 1⟩
def LCP_CNT_SKIPPED : Fld := ⟨33, 232, 48, 8, .w1c, .b, 0, true, 0, 2 ^ 8 - 1⟩

/-! SCN.CTRL -/
def SCN_CTRL_LAMP_EN : Fld := ⟨34, 128, 0, 1, .rw, .t, 0, false, 0, 2 ^ 1 - 1⟩

/-! SCN.PLAN -/
def SCN_PLAN_M_M1 : Fld := ⟨34, 136, 0, 7, .rws, .m, 127, false, 0, 2 ^ 7 - 1⟩
def SCN_PLAN_S_M1 : Fld := ⟨34, 136, 7, 7, .rws, .m, 63, false, 0, 2 ^ 7 - 1⟩
def SCN_PLAN_BLANK_GCLK : Fld := ⟨34, 136, 14, 8, .rws, .m, 19, false, 8, 0xFF⟩
def SCN_PLAN_ROW_ORDER : Fld := ⟨34, 136, 22, 1, .rws, .m, 0, false, 0, 2 ^ 1 - 1⟩
def SCN_PLAN_OFS_NS : Fld := ⟨34, 136, 23, 16, .rws, .m, 2000, false, 0, 2 ^ 16 - 1⟩
def SCN_PLAN_GCLK_MHZ : Fld := ⟨34, 136, 39, 9, .rws, .m, 320, false, 160, 0x140⟩

/-! SCN.PD -/
def SCN_PD_PD (c : Nat) : Fld := ⟨34, 144, 0 + 6 * c, 6, .rws, .m, 20, false, 0, 0x3E⟩
def SCN_PD_PD_EN : Fld := ⟨34, 144, 24, 1, .rws, .m, 1, false, 0, 2 ^ 1 - 1⟩

/-! SCN.LIMIT -/
def SCN_LIMIT_DUTY_MAX : Fld := ⟨34, 152, 0, 11, .rwk, .m, 1024, false, 64, 0x400⟩

/-! SCN.STAT -/
def SCN_STAT_LIT : Fld := ⟨34, 160, 0, 1, .ro, .b, 0, true, 0, 2 ^ 1 - 1⟩
def SCN_STAT_DARK_WHY : Fld := ⟨34, 160, 1, 4, .ro, .b, 0, true, 0, 2 ^ 4 - 1⟩

/-! SCN.PLAN_STAT -/
def SCN_PLAN_STAT_N : Fld := ⟨34, 168, 0, 31, .ro, .b, 0, true, 0, 2 ^ 31 - 1⟩
def SCN_PLAN_STAT_HB : Fld := ⟨34, 168, 31, 5, .ro, .b, 0, true, 0, 2 ^ 5 - 1⟩
def SCN_PLAN_STAT_LO : Fld := ⟨34, 168, 36, 3, .ro, .b, 0, true, 0, 2 ^ 3 - 1⟩
def SCN_PLAN_STAT_FIT : Fld := ⟨34, 168, 39, 1, .ro, .b, 0, true, 0, 2 ^ 1 - 1⟩
def SCN_PLAN_STAT_OK : Fld := ⟨34, 168, 40, 1, .ro, .b, 0, true, 0, 2 ^ 1 - 1⟩
def SCN_PLAN_STAT_NEFF : Fld := ⟨34, 168, 41, 21, .ro, .b, 0, true, 0, 2 ^ 21 - 1⟩

/-! SCN.PLAN_FRAME -/
def SCN_PLAN_FRAME_FRAME : Fld := ⟨34, 176, 0, 48, .ro, .b, 0, true, 0, 2 ^ 48 - 1⟩

/-! SCN.TLS -/
def SCN_TLS_TLS : Fld := ⟨34, 184, 0, 36, .ro, .b, 0, true, 0, 2 ^ 36 - 1⟩

/-! SCN.CNT -/
def SCN_CNT_CLIP : Fld := ⟨34, 192, 0, 32, .w1c, .b, 0, true, 0, 2 ^ 32 - 1⟩
def SCN_CNT_PLAN_FAIL : Fld := ⟨34, 192, 32, 16, .w1c, .b, 0, true, 0, 2 ^ 16 - 1⟩
def SCN_CNT_DARK : Fld := ⟨34, 192, 48, 16, .w1c, .b, 0, true, 0, 2 ^ 16 - 1⟩

/-! DRV.CFG -/
def DRV_CFG_MODE (d : Nat) : Fld := ⟨(40 + d), 128, 0, 2, .rws, .m, 1, false, 0, 0x2⟩
def DRV_CFG_GROUP (d : Nat) : Fld := ⟨(40 + d), 128, 2, 1, .rws, .m, 0, false, 0, 2 ^ 1 - 1⟩
def DRV_CFG_CORD (d : Nat) : Fld := ⟨(40 + d), 128, 3, 8, .rws, .m, 228, false, 0, 2 ^ 8 - 1⟩
def DRV_CFG_GRP_USED (d : Nat) : Fld := ⟨(40 + d), 128, 11, 8, .rws, .m, 128, false, 0, 2 ^ 8 - 1⟩
def DRV_CFG_X0 (d : Nat) : Fld := ⟨(40 + d), 128, 19, 8, .rws, .m, 0, false, 0, 2 ^ 8 - 1⟩
def DRV_CFG_Y0 (d : Nat) : Fld := ⟨(40 + d), 128, 27, 8, .rws, .m, 0, false, 0, 2 ^ 8 - 1⟩
def DRV_CFG_XFLIP (d : Nat) : Fld := ⟨(40 + d), 128, 35, 1, .rws, .m, 0, false, 0, 2 ^ 1 - 1⟩
def DRV_CFG_YFLIP (d : Nat) : Fld := ⟨(40 + d), 128, 36, 1, .rws, .m, 0, false, 0, 2 ^ 1 - 1⟩

/-! DRV.CG -/
def DRV_CG_CG (d : Nat) (c : Nat) : Fld := ⟨(40 + d), 136, 0 + 8 * c, 8, .rws, .m, 255, false, 0, 2 ^ 8 - 1⟩

/-! DRV.CG_CEIL -/
def DRV_CG_CEIL_CEIL (d : Nat) (c : Nat) : Fld := ⟨(40 + d), 144, 0 + 8 * c, 8, .rwk, .m, 255, false, 0, 2 ^ 8 - 1⟩

/-! DRV.STAT -/
def DRV_STAT_PRESENT (d : Nat) : Fld := ⟨(40 + d), 152, 0, 1, .ro, .a, 0, false, 0, 2 ^ 1 - 1⟩
def DRV_STAT_PLL_LOCK (d : Nat) : Fld := ⟨(40 + d), 152, 1, 1, .ro, .b, 0, true, 0, 2 ^ 1 - 1⟩
def DRV_STAT_LINK (d : Nat) : Fld := ⟨(40 + d), 152, 2, 1, .ro, .b, 0, true, 0, 2 ^ 1 - 1⟩
def DRV_STAT_OUT_ON (d : Nat) : Fld := ⟨(40 + d), 152, 3, 1, .ro, .b, 0, true, 0, 2 ^ 1 - 1⟩
def DRV_STAT_IFS_UA (d : Nat) : Fld := ⟨(40 + d), 152, 4, 12, .ro, .b, 0, true, 0, 2 ^ 12 - 1⟩
def DRV_STAT_IFS_BAD (d : Nat) : Fld := ⟨(40 + d), 152, 16, 1, .ro, .b, 0, true, 0, 2 ^ 1 - 1⟩
def DRV_STAT_OFF_WHY (d : Nat) : Fld := ⟨(40 + d), 152, 17, 4, .ro, .b, 0, true, 0, 2 ^ 4 - 1⟩
def DRV_STAT_MAP_OUT (d : Nat) : Fld := ⟨(40 + d), 152, 21, 9, .ro, .b, 0, true, 0, 2 ^ 9 - 1⟩
def DRV_STAT_STR_NFIT (d : Nat) : Fld := ⟨(40 + d), 152, 30, 11, .ro, .b, 0, true, 0, 2 ^ 11 - 1⟩

/-! DRV.HDRM -/
def DRV_HDRM_MIN (d : Nat) (c : Nat) : Fld := ⟨(40 + d), 160, 0 + 12 * c, 12, .ro, .b, 0, true, 0, 2 ^ 12 - 1⟩
def DRV_HDRM_VALID (d : Nat) : Fld := ⟨(40 + d), 160, 48, 1, .ro, .b, 0, true, 0, 2 ^ 1 - 1⟩

/-! DRV.CNT -/
def DRV_CNT_UNDERRUN (d : Nat) : Fld := ⟨(40 + d), 168, 0, 16, .w1c, .b, 0, true, 0, 2 ^ 16 - 1⟩
def DRV_CNT_PLL_UNLOCK (d : Nat) : Fld := ⟨(40 + d), 168, 16, 16, .w1c, .b, 0, true, 0, 2 ^ 16 - 1⟩
def DRV_CNT_STR_TRUNC (d : Nat) : Fld := ⟨(40 + d), 168, 32, 16, .w1c, .b, 0, true, 0, 2 ^ 16 - 1⟩

/-! DRV.STR_CFG -/
def DRV_STR_CFG_BIT_GCLK (d : Nat) : Fld := ⟨(40 + d), 176, 0, 12, .rws, .m, 128, false, 0, 2 ^ 12 - 1⟩
def DRV_STR_CFG_T0H_GCLK (d : Nat) : Fld := ⟨(40 + d), 176, 12, 12, .rws, .m, 32, false, 0, 2 ^ 12 - 1⟩
def DRV_STR_CFG_T1H_GCLK (d : Nat) : Fld := ⟨(40 + d), 176, 24, 12, .rws, .m, 80, false, 0, 2 ^ 12 - 1⟩
def DRV_STR_CFG_LATCH_US (d : Nat) : Fld := ⟨(40 + d), 176, 36, 14, .rws, .m, 280, false, 1, 0x2710⟩
def DRV_STR_CFG_SHARE (d : Nat) : Fld := ⟨(40 + d), 176, 50, 7, .rws, .m, 48, false, 8, 0x40⟩
def DRV_STR_CFG_K_M1 (d : Nat) : Fld := ⟨(40 + d), 176, 57, 2, .rws, .m, 2, false, 0, 2 ^ 2 - 1⟩
def DRV_STR_CFG_BPC_M1 (d : Nat) : Fld := ⟨(40 + d), 176, 59, 4, .rws, .m, 15, false, 0, 2 ^ 4 - 1⟩

/-! DRV.STR_CFG2 -/
def DRV_STR_CFG2_EN (d : Nat) : Fld := ⟨(40 + d), 184, 0, 16, .rws, .m, 0, false, 0, 2 ^ 16 - 1⟩
def DRV_STR_CFG2_DIV_M1 (d : Nat) : Fld := ⟨(40 + d), 184, 16, 1, .rws, .m, 0, false, 0, 2 ^ 1 - 1⟩
def DRV_STR_CFG2_FEED (d : Nat) : Fld := ⟨(40 + d), 184, 17, 2, .rws, .m, 0, false, 0, 2 ^ 2 - 1⟩

/-! DRV.STR_MAP -/
def DRV_STR_MAP_X (d : Nat) (j : Nat) : Fld := ⟨(40 + d), 256 + 8 * j, 0, 8, .rws, .m, 0, false, 0, 2 ^ 8 - 1⟩
def DRV_STR_MAP_Y (d : Nat) (j : Nat) : Fld := ⟨(40 + d), 256 + 8 * j, 8, 8, .rws, .m, 0, false, 0, 2 ^ 8 - 1⟩
def DRV_STR_MAP_COUNT (d : Nat) (j : Nat) : Fld := ⟨(40 + d), 256 + 8 * j, 16, 11, .rws, .m, 0, false, 0, 0x400⟩
def DRV_STR_MAP_RUN (d : Nat) (j : Nat) : Fld := ⟨(40 + d), 256 + 8 * j, 27, 9, .rws, .m, 256, false, 1, 0x100⟩
def DRV_STR_MAP_DIR (d : Nat) (j : Nat) : Fld := ⟨(40 + d), 256 + 8 * j, 36, 2, .rws, .m, 0, false, 0, 2 ^ 2 - 1⟩
def DRV_STR_MAP_SERP (d : Nat) (j : Nat) : Fld := ⟨(40 + d), 256 + 8 * j, 38, 1, .rws, .m, 0, false, 0, 2 ^ 1 - 1⟩

/-! LHM.CFG -/
def LHM_CFG_OPEN_EN : Fld := ⟨35, 128, 0, 1, .rw, .m, 1, false, 0, 2 ^ 1 - 1⟩
def LHM_CFG_SHORT_EN : Fld := ⟨35, 128, 1, 1, .rw, .m, 1, false, 0, 2 ^ 1 - 1⟩
def LHM_CFG_AUTO_MASK : Fld := ⟨35, 128, 2, 1, .rw, .m, 1, false, 0, 2 ^ 1 - 1⟩
def LHM_CFG_OPEN_N : Fld := ⟨35, 128, 3, 4, .rw, .m, 3, false, 1, 0xF⟩
def LHM_CFG_SHORT_N : Fld := ⟨35, 128, 7, 4, .rw, .m, 3, false, 1, 0xF⟩
def LHM_CFG_AGE_UNIT : Fld := ⟨35, 128, 11, 16, .rw, .m, 1024, false, 1, 0xFFFF⟩
def LHM_CFG_STALE : Fld := ⟨35, 128, 27, 16, .rw, .m, 0, false, 0, 2 ^ 16 - 1⟩
def LHM_CFG_ROW_THR : Fld := ⟨35, 128, 43, 8, .rw, .m, 32, false, 2, 0xFF⟩
def LHM_CFG_COL_THR : Fld := ⟨35, 128, 51, 8, .rw, .m, 64, false, 1, 0x80⟩
def LHM_CFG_EVT_MAX : Fld := ⟨35, 128, 59, 5, .rw, .m, 16, false, 0, 0x1F⟩

/-! LHM.THRESH -/
def LHM_THRESH_OPEN_MV : Fld := ⟨35, 136, 0, 10, .rw, .m, 150, false, 50, 0x1F4⟩
def LHM_THRESH_SHORT_MV : Fld := ⟨35, 136, 10, 10, .rw, .m, 400, false, 100, 0x3E8⟩

/-! LHM.PROBE -/
def LHM_PROBE_EN : Fld := ⟨35, 144, 0, 1, .rw, .m, 0, false, 0, 2 ^ 1 - 1⟩
def LHM_PROBE_RETEST : Fld := ⟨35, 144, 1, 1, .rw, .m, 0, false, 0, 2 ^ 1 - 1⟩
def LHM_PROBE_INTERVAL_FR : Fld := ⟨35, 144, 2, 16, .rw, .m, 64, false, 0, 2 ^ 16 - 1⟩
def LHM_PROBE_MAX_LAMPS : Fld := ⟨35, 144, 18, 16, .rw, .m, 384, false, 1, 0xC000⟩
def LHM_PROBE_MIN_AGE : Fld := ⟨35, 144, 34, 16, .rw, .m, 1, false, 0, 2 ^ 16 - 1⟩
def LHM_PROBE_FEED : Fld := ⟨35, 144, 50, 2, .rw, .m, 0, false, 0, 2 ^ 2 - 1⟩

/-! LHM.PROBE_STAT -/
def LHM_PROBE_STAT_NMIN_FR : Fld := ⟨35, 152, 0, 16, .ro, .b, 0, true, 0, 2 ^ 16 - 1⟩
def LHM_PROBE_STAT_BLANK_SHORT : Fld := ⟨35, 152, 16, 1, .ro, .b, 0, true, 0, 2 ^ 1 - 1⟩
def LHM_PROBE_STAT_T_DET : Fld := ⟨35, 152, 17, 8, .ro, .b, 0, true, 0, 2 ^ 8 - 1⟩

/-! LHM.CMD -/
def LHM_CMD_BANK : Fld := ⟨35, 160, 0, 2, .rw, .b, 0, false, 0, 2 ^ 2 - 1⟩
def LHM_CMD_ROW : Fld := ⟨35, 160, 2, 7, .rw, .b, 0, false, 0, 2 ^ 7 - 1⟩
def LHM_CMD_CH : Fld := ⟨35, 160, 9, 9, .rw, .b, 0, false, 0, 0x17F⟩
def LHM_CMD_OP : Fld := ⟨35, 160, 18, 2, .rw, .b, 0, false, 0, 2 ^ 2 - 1⟩
def LHM_CMD_GO : Fld := ⟨35, 160, 20, 1, .w1s, .b, 0, false, 0, 2 ^ 1 - 1⟩
def LHM_CMD_BUSY : Fld := ⟨35, 160, 21, 1, .ro, .b, 0, false, 0, 2 ^ 1 - 1⟩

/-! LHM.STAT0 -/
def LHM_STAT0_OPEN : Fld := ⟨35, 168, 0, 18, .ro, .b, 0, true, 0, 2 ^ 18 - 1⟩
def LHM_STAT0_SHORT : Fld := ⟨35, 168, 18, 18, .ro, .b, 0, true, 0, 2 ^ 18 - 1⟩
def LHM_STAT0_MASKED : Fld := ⟨35, 168, 36, 18, .ro, .b, 0, true, 0, 2 ^ 18 - 1⟩

/-! LHM.STAT1 -/
def LHM_STAT1_UNVERIFIED : Fld := ⟨35, 176, 0, 18, .ro, .b, 0, true, 0, 2 ^ 18 - 1⟩
def LHM_STAT1_OLDEST : Fld := ⟨35, 176, 18, 16, .ro, .b, 0, true, 0, 2 ^ 16 - 1⟩
def LHM_STAT1_ROWS : Fld := ⟨35, 176, 34, 10, .ro, .b, 0, true, 0, 2 ^ 10 - 1⟩
def LHM_STAT1_COLS : Fld := ⟨35, 176, 44, 11, .ro, .b, 0, true, 0, 2 ^ 11 - 1⟩
def LHM_STAT1_SHORT_OFF : Fld := ⟨35, 176, 55, 4, .ro, .b, 0, true, 0, 2 ^ 4 - 1⟩

/-! LHM.CNT -/
def LHM_CNT_PROBES : Fld := ⟨35, 184, 0, 32, .w1c, .b, 0, true, 0, 2 ^ 32 - 1⟩
def LHM_CNT_NEW_OPEN : Fld := ⟨35, 184, 32, 16, .w1c, .b, 0, true, 0, 2 ^ 16 - 1⟩
def LHM_CNT_NEW_SHORT : Fld := ⟨35, 184, 48, 16, .w1c, .b, 0, true, 0, 2 ^ 16 - 1⟩

/-! LHM.CNT1 -/
def LHM_CNT1_EVT_DROP : Fld := ⟨35, 192, 0, 16, .w1c, .b, 0, true, 0, 2 ^ 16 - 1⟩
def LHM_CNT1_FASTQ_FULL : Fld := ⟨35, 192, 16, 16, .w1c, .b, 0, true, 0, 2 ^ 16 - 1⟩

/-! RCE.CTRL -/
def RCE_CTRL_MODE : Fld := ⟨7, 128, 0, 1, .rw, .m, 0, false, 0, 2 ^ 1 - 1⟩
def RCE_CTRL_SUB_DIV : Fld := ⟨7, 128, 1, 5, .rw, .m, 1, false, 1, 0x10⟩
def RCE_CTRL_HOLD_LIMIT_MS : Fld := ⟨7, 128, 6, 16, .rw, .m, 2000, false, 100, 0xEA60⟩
def RCE_CTRL_REG_T1 : Fld := ⟨7, 128, 22, 8, .rw, .m, 32, false, 0, 2 ^ 8 - 1⟩
def RCE_CTRL_REG_T2 : Fld := ⟨7, 128, 30, 8, .rw, .m, 96, false, 0, 2 ^ 8 - 1⟩
def RCE_CTRL_REG_T3 : Fld := ⟨7, 128, 38, 8, .rw, .m, 160, false, 0, 2 ^ 8 - 1⟩

/-! RCE.PMB -/
def RCE_PMB_SPEED : Fld := ⟨7, 136, 0, 2, .rw, .m, 1, false, 0, 0x2⟩
def RCE_PMB_PEC : Fld := ⟨7, 136, 2, 1, .rw, .m, 1, false, 0, 2 ^ 1 - 1⟩

/-! RCE.LAW_STAT -/
def RCE_LAW_STAT_MAX_NS : Fld := ⟨7, 152, 0, 16, .w1c, .b, 0, true, 0, 2 ^ 16 - 1⟩
def RCE_LAW_STAT_D_EFF : Fld := ⟨7, 152, 16, 5, .ro, .b, 0, true, 0, 2 ^ 5 - 1⟩

/-! RCE.DUTY -/
def RCE_DUTY_DUTY (c : Nat) : Fld := ⟨7, 160, 0 + 8 * c, 8, .ro, .b, 0, true, 0, 2 ^ 8 - 1⟩

/-! RCE.LOOP_CFG -/
def RCE_LOOP_CFG_KIND (k : Nat) : Fld := ⟨7, 256 + 128 * k, 0, 2, .rw, .m, (if k < 4 then 1 else if k < 6 then 2 else 0), false, 0, 0x2⟩
def RCE_LOOP_CFG_EN (k : Nat) : Fld := ⟨7, 256 + 128 * k, 2, 1, .rw, .m, 0, false, 0, 2 ^ 1 - 1⟩
def RCE_LOOP_CFG_CLASS (k : Nat) : Fld := ⟨7, 256 + 128 * k, 3, 2, .rw, .m, (if k < 4 then k else 0), false, 0, 2 ^ 2 - 1⟩
def RCE_LOOP_CFG_SENS (k : Nat) : Fld := ⟨7, 256 + 128 * k, 5, 7, .rw, .m, (if k = 4 then 0x1F else if k = 5 then 0x60 else 0), false, 0, 2 ^ 7 - 1⟩
def RCE_LOOP_CFG_OUT (k : Nat) : Fld := ⟨7, 256 + 128 * k, 12, 3, .rw, .m, (if k < 4 then k else if k < 6 then k + 1 else 0), false, 0, 0x6⟩
def RCE_LOOP_CFG_PMB_ADDR (k : Nat) : Fld := ⟨7, 256 + 128 * k, 15, 7, .rw, .m, 0, false, 0, 2 ^ 7 - 1⟩
def RCE_LOOP_CFG_PMB_PAGE (k : Nat) : Fld := ⟨7, 256 + 128 * k, 22, 8, .rw, .m, 255, false, 0, 2 ^ 8 - 1⟩
def RCE_LOOP_CFG_SCHED_EN (k : Nat) : Fld := ⟨7, 256 + 128 * k, 30, 1, .rw, .m, 1, false, 0, 2 ^ 1 - 1⟩
def RCE_LOOP_CFG_RESUME (k : Nat) : Fld := ⟨7, 256 + 128 * k, 31, 1, .w1s, .b, 0, false, 0, 2 ^ 1 - 1⟩
def RCE_LOOP_CFG_MON_TOL (k : Nat) : Fld := ⟨7, 256 + 128 * k, 32, 11, .rw, .m, 150, false, 0, 2 ^ 11 - 1⟩

/-! RCE.LOOP_TARGET -/
def RCE_LOOP_TARGET_SET (k : Nat) : Fld := ⟨7, 264 + 128 * k, 0, 12, .rw, .m, 400, false, 0, 2 ^ 12 - 1⟩
def RCE_LOOP_TARGET_SS_RATE (k : Nat) : Fld := ⟨7, 264 + 128 * k, 12, 16, .rw, .m, 500, false, 1, 0xFFFF⟩

/-! RCE.LOOP_GAIN -/
def RCE_LOOP_GAIN_KP (k : Nat) (r : Nat) : Fld := ⟨7, 272 + 128 * k + 8 * r, 0, 16, .rw, .m, 1286, false, 0, 2 ^ 16 - 1⟩
def RCE_LOOP_GAIN_KI (k : Nat) (r : Nat) : Fld := ⟨7, 272 + 128 * k + 8 * r, 16, 16, .rw, .m, 314, false, 0, 2 ^ 16 - 1⟩

/-! RCE.LOOP_MAP -/
def RCE_LOOP_MAP_V0_MV (k : Nat) : Fld := ⟨7, 304 + 128 * k, 0, 16, .rw, .m, 0, false, 0, 2 ^ 16 - 1⟩
def RCE_LOOP_MAP_SLOPE_UV (k : Nat) : Fld := ⟨7, 304 + 128 * k, 16, 24, .rw, .m, 0, false, 0, 2 ^ 24 - 1⟩

/-! RCE.LOOP_LIM -/
def RCE_LOOP_LIM_CEIL_U (k : Nat) : Fld := ⟨7, 312 + 128 * k, 0, 16, .rwk, .m, 0, false, 0, 2 ^ 16 - 1⟩
def RCE_LOOP_LIM_FLOOR_U (k : Nat) : Fld := ⟨7, 312 + 128 * k, 16, 16, .rwk, .m, 0, false, 0, 2 ^ 16 - 1⟩
def RCE_LOOP_LIM_SAFE_U (k : Nat) : Fld := ⟨7, 312 + 128 * k, 32, 16, .rwk, .m, 0, false, 0, 2 ^ 16 - 1⟩

/-! RCE.LOOP_PROF -/
def RCE_LOOP_PROF_VMAX (k : Nat) : Fld := ⟨7, 320 + 128 * k, 0, 12, .rw, .m, 32, false, 0, 2 ^ 12 - 1⟩
def RCE_LOOP_PROF_AMAX (k : Nat) : Fld := ⟨7, 320 + 128 * k, 12, 12, .rw, .m, 16, false, 0, 2 ^ 12 - 1⟩
def RCE_LOOP_PROF_JMAX (k : Nat) : Fld := ⟨7, 320 + 128 * k, 24, 12, .rw, .m, 16, false, 0, 2 ^ 12 - 1⟩
def RCE_LOOP_PROF_TEST_U (k : Nat) : Fld := ⟨7, 320 + 128 * k, 36, 16, .rw, .b, 0, false, 0, 2 ^ 16 - 1⟩
def RCE_LOOP_PROF_GO (k : Nat) : Fld := ⟨7, 320 + 128 * k, 52, 1, .w1s, .b, 0, false, 0, 2 ^ 1 - 1⟩
def RCE_LOOP_PROF_RELEASE (k : Nat) : Fld := ⟨7, 320 + 128 * k, 53, 1, .w1s, .b, 0, false, 0, 2 ^ 1 - 1⟩

/-! RCE.LOOP_STAT -/
def RCE_LOOP_STAT_STATE (k : Nat) : Fld := ⟨7, 328 + 128 * k, 0, 3, .ro, .b, 0, true, 0, 2 ^ 3 - 1⟩
def RCE_LOOP_STAT_REGION (k : Nat) : Fld := ⟨7, 328 + 128 * k, 3, 2, .ro, .b, 0, true, 0, 2 ^ 2 - 1⟩
def RCE_LOOP_STAT_SAFE_WHY (k : Nat) : Fld := ⟨7, 328 + 128 * k, 5, 2, .ro, .b, 0, true, 0, 2 ^ 2 - 1⟩
def RCE_LOOP_STAT_SAT (k : Nat) : Fld := ⟨7, 328 + 128 * k, 7, 1, .ro, .b, 0, true, 0, 2 ^ 1 - 1⟩
def RCE_LOOP_STAT_FB (k : Nat) : Fld := ⟨7, 328 + 128 * k, 8, 12, .ro, .b, 0, true, 0, 2 ^ 12 - 1⟩
def RCE_LOOP_STAT_OUT_U (k : Nat) : Fld := ⟨7, 328 + 128 * k, 20, 16, .ro, .b, 0, true, 0, 2 ^ 16 - 1⟩
def RCE_LOOP_STAT_SET_NOW (k : Nat) : Fld := ⟨7, 328 + 128 * k, 36, 12, .ro, .b, 0, true, 0, 2 ^ 12 - 1⟩

/-! RCE.LOOP_CNT -/
def RCE_LOOP_CNT_OVERRUN (k : Nat) : Fld := ⟨7, 336 + 128 * k, 0, 16, .w1c, .b, 0, true, 0, 2 ^ 16 - 1⟩
def RCE_LOOP_CNT_EMPTY (k : Nat) : Fld := ⟨7, 336 + 128 * k, 16, 16, .w1c, .b, 0, true, 0, 2 ^ 16 - 1⟩
def RCE_LOOP_CNT_HOLDS (k : Nat) : Fld := ⟨7, 336 + 128 * k, 32, 8, .w1c, .b, 0, true, 0, 2 ^ 8 - 1⟩
def RCE_LOOP_CNT_SAFES (k : Nat) : Fld := ⟨7, 336 + 128 * k, 40, 8, .w1c, .b, 0, true, 0, 2 ^ 8 - 1⟩
def RCE_LOOP_CNT_MON (k : Nat) : Fld := ⟨7, 336 + 128 * k, 48, 8, .w1c, .b, 0, true, 0, 2 ^ 8 - 1⟩

/-! HKT.THRESH -/
def HKT_THRESH_WARN_C : Fld := ⟨5, 128, 0, 8, .rw, .a, 100, false, 0, 2 ^ 8 - 1⟩
def HKT_THRESH_THROTTLE_C : Fld := ⟨5, 128, 8, 8, .rw, .a, 110, false, 0, 2 ^ 8 - 1⟩
def HKT_THRESH_SHUTDOWN_C : Fld := ⟨5, 128, 16, 8, .rw, .a, 125, false, 0, 2 ^ 8 - 1⟩
def HKT_THRESH_ABS_C : Fld := ⟨5, 128, 24, 8, .ro, .f, 135, false, 0, 2 ^ 8 - 1⟩
def HKT_THRESH_HYST_C : Fld := ⟨5, 128, 32, 8, .ro, .f, 10, false, 0, 2 ^ 8 - 1⟩

/-! HKT.THR -/
def HKT_THR_GRACE_MS : Fld := ⟨5, 136, 0, 15, .rw, .m, 5000, false, 500, 0x7530⟩
def HKT_THR_THR_SLOPE : Fld := ⟨5, 136, 15, 16, .rw, .m, 3277, false, 0, 2 ^ 16 - 1⟩
def HKT_THR_THR_MIN : Fld := ⟨5, 136, 31, 17, .rw, .m, 16384, false, 4096, 0x10000⟩
def HKT_THR_THR_RISE : Fld := ⟨5, 136, 48, 12, .rw, .m, 256, false, 1, 0xFFF⟩

/-! HKT.PAUSE -/
def HKT_PAUSE_PAUSE_US : Fld := ⟨5, 144, 0, 14, .rw, .m, 100, false, 0, 0x2710⟩
def HKT_PAUSE_PAUSE_MAX_US : Fld := ⟨5, 144, 14, 14, .rw, .m, 10000, false, 0, 0x2710⟩

/-! HKT.STAT -/
def HKT_STAT_LEVEL : Fld := ⟨5, 152, 0, 2, .ro, .b, 0, true, 0, 2 ^ 2 - 1⟩
def HKT_STAT_HOT : Fld := ⟨5, 152, 2, 3, .ro, .b, 0, true, 0, 2 ^ 3 - 1⟩
def HKT_STAT_T_MAX : Fld := ⟨5, 152, 5, 16, .ro, .b, 0, true, 0, 2 ^ 16 - 1⟩
def HKT_STAT_GRACE_LEFT_MS : Fld := ⟨5, 152, 21, 15, .ro, .b, 0, true, 0, 2 ^ 15 - 1⟩
def HKT_STAT_THR_OUT : Fld := ⟨5, 152, 36, 17, .ro, .b, 65536, true, 0, 2 ^ 17 - 1⟩
def HKT_STAT_CAP : Fld := ⟨5, 152, 53, 1, .ro, .b, 0, true, 0, 2 ^ 1 - 1⟩
def HKT_STAT_DFAULT : Fld := ⟨5, 152, 54, 5, .ro, .b, 0, true, 0, 2 ^ 5 - 1⟩

/-! HKT.ROUND -/
def HKT_ROUND_SEC : Fld := ⟨5, 160, 0, 32, .ro, .b, 0, true, 0, 2 ^ 32 - 1⟩
def HKT_ROUND_INDEX : Fld := ⟨5, 160, 32, 7, .ro, .b, 0, true, 0, 2 ^ 7 - 1⟩

/-! HKT.NTC -/
def HKT_NTC_R25_0 : Fld := ⟨5, 168, 0, 16, .rw, .m, 1000, false, 0, 2 ^ 16 - 1⟩
def HKT_NTC_R25_1 : Fld := ⟨5, 168, 32, 16, .rw, .m, 1000, false, 0, 2 ^ 16 - 1⟩
def HKT_NTC_BETA_0 : Fld := ⟨5, 168, 16, 16, .rw, .m, 3435, false, 0, 2 ^ 16 - 1⟩
def HKT_NTC_BETA_1 : Fld := ⟨5, 168, 48, 16, .rw, .m, 3435, false, 0, 2 ^ 16 - 1⟩

/-! HKT.SHUT_STAT -/
def HKT_SHUT_STAT_CAUSE : Fld := ⟨5, 176, 0, 2, .ro, .a, 0, false, 0, 2 ^ 2 - 1⟩
def HKT_SHUT_STAT_SENSOR : Fld := ⟨5, 176, 2, 3, .ro, .a, 0, false, 0, 2 ^ 3 - 1⟩
def HKT_SHUT_STAT_MRAM : Fld := ⟨5, 176, 5, 2, .ro, .a, 0, false, 0, 2 ^ 2 - 1⟩
def HKT_SHUT_STAT_FRAME : Fld := ⟨5, 176, 7, 48, .ro, .a, 0, false, 0, 2 ^ 48 - 1⟩
def HKT_SHUT_STAT_VALID : Fld := ⟨5, 176, 55, 1, .w1c, .a, 0, false, 0, 2 ^ 1 - 1⟩

/-! HKT.CNT -/
def HKT_CNT_WARN : Fld := ⟨5, 184, 0, 16, .w1c, .b, 0, true, 0, 2 ^ 16 - 1⟩
def HKT_CNT_THROTTLE : Fld := ⟨5, 184, 16, 16, .w1c, .b, 0, true, 0, 2 ^ 16 - 1⟩
def HKT_CNT_SHUTDOWN : Fld := ⟨5, 184, 32, 8, .w1c, .a, 0, true, 0, 2 ^ 8 - 1⟩
def HKT_CNT_CMP_MISS : Fld := ⟨5, 184, 40, 8, .w1c, .a, 0, true, 0, 2 ^ 8 - 1⟩
def HKT_CNT_CAPS : Fld := ⟨5, 184, 48, 16, .w1c, .b, 0, true, 0, 2 ^ 16 - 1⟩

/-! HKT.CH -/
def HKT_CH_VALUE (k : Nat) : Fld := ⟨5, 256 + 8 * k, 0, 16, .ro, .b, 0, true, 0, 2 ^ 16 - 1⟩
def HKT_CH_VALID (k : Nat) : Fld := ⟨5, 256 + 8 * k, 16, 1, .ro, .b, 0, true, 0, 2 ^ 1 - 1⟩

/-! STR.CTRL -/
def STR_CTRL_EN : Fld := ⟨6, 128, 0, 4, .rw, .m, 15, false, 0, 2 ^ 4 - 1⟩
def STR_CTRL_PERIOD_S : Fld := ⟨6, 128, 4, 16, .rw, .m, 600, false, 1, 0xFFFF⟩

/-! STR.LIM -/
def STR_LIM_MAX_STEP_HI : Fld := ⟨6, 136, 0, 6, .rw, .m, 4, false, 0, 2 ^ 6 - 1⟩
def STR_LIM_MAX_STEP_LO : Fld := ⟨6, 136, 6, 6, .rw, .m, 8, false, 0, 2 ^ 6 - 1⟩
def STR_LIM_MAX_STEP_DLY : Fld := ⟨6, 136, 12, 6, .rw, .m, 4, false, 0, 2 ^ 6 - 1⟩
def STR_LIM_MIN_SAMP : Fld := ⟨6, 136, 18, 16, .rw, .m, 1024, false, 0, 2 ^ 16 - 1⟩
def STR_LIM_MIN_EDGES : Fld := ⟨6, 136, 34, 16, .rw, .m, 4096, false, 0, 2 ^ 16 - 1⟩
def STR_LIM_EYE_GAIN : Fld := ⟨6, 136, 50, 8, .rw, .m, 4, false, 0, 2 ^ 8 - 1⟩

/-! STR.IDX -/
def STR_IDX_TARGET : Fld := ⟨6, 144, 0, 2, .rw, .b, 0, false, 0, 2 ^ 2 - 1⟩
def STR_IDX_DIE : Fld := ⟨6, 144, 2, 2, .rw, .b, 0, false, 0, 2 ^ 2 - 1⟩
def STR_IDX_INDEX : Fld := ⟨6, 144, 4, 9, .rw, .b, 0, false, 0, 2 ^ 9 - 1⟩

/-! STR.DATA -/
def STR_DATA_VALUE : Fld := ⟨6, 152, 0, 8, .rw, .t, 0, false, 0, 2 ^ 8 - 1⟩
def STR_DATA_PHASE : Fld := ⟨6, 152, 8, 6, .ro, .t, 0, false, 0, 2 ^ 6 - 1⟩
def STR_DATA_PEND : Fld := ⟨6, 152, 14, 1, .ro, .t, 0, false, 0, 2 ^ 1 - 1⟩

/-! STR.STAT -/
def STR_STAT_TRIM_COUNT : Fld := ⟨6, 160, 0, 32, .ro, .t, 0, true, 0, 2 ^ 32 - 1⟩

/-! STR.TRIM_LAST -/
def STR_TRIM_LAST_NS : Fld := ⟨6, 168, 0, 32, .ro, .t, 0, true, 0, 2 ^ 32 - 1⟩
def STR_TRIM_LAST_SEC : Fld := ⟨6, 168, 32, 32, .ro, .t, 0, true, 0, 2 ^ 32 - 1⟩

/-! STR.CNT -/
def STR_CNT_REFUSED : Fld := ⟨6, 176, 0, 16, .w1c, .b, 0, true, 0, 2 ^ 16 - 1⟩
def STR_CNT_STALE : Fld := ⟨6, 176, 16, 16, .w1c, .b, 0, true, 0, 2 ^ 16 - 1⟩
def STR_CNT_SKIPPED : Fld := ⟨6, 176, 32, 16, .w1c, .b, 0, true, 0, 2 ^ 16 - 1⟩

/-! STR.TCNT -/
def STR_TCNT_APPLIED (t : Nat) : Fld := ⟨6, 184, 0 + 16 * t, 16, .w1c, .t, 0, true, 0, 2 ^ 16 - 1⟩

/-! CCC.CORE_STAT -/
def CCC_CORE_STAT_ACTIVE : Fld := ⟨1, 128, 0, 8, .ro, .b, 0, false, 0, 2 ^ 8 - 1⟩
def CCC_CORE_STAT_BIST_FAIL : Fld := ⟨1, 128, 8, 8, .ro, .b, 0, false, 0, 2 ^ 8 - 1⟩
def CCC_CORE_STAT_RETIRED : Fld := ⟨1, 128, 16, 8, .ro, .m, 0, false, 0, 2 ^ 8 - 1⟩
def CCC_CORE_STAT_SPARE : Fld := ⟨1, 128, 24, 3, .ro, .b, 7, false, 0, 2 ^ 3 - 1⟩
def CCC_CORE_STAT_SPARE_VALID : Fld := ⟨1, 128, 27, 1, .ro, .b, 0, false, 0, 2 ^ 1 - 1⟩

/-! CCC.WDT -/
def CCC_WDT_EN : Fld := ⟨1, 136, 0, 1, .rwk, .m, 1, false, 0, 2 ^ 1 - 1⟩
def CCC_WDT_TMO_MS : Fld := ⟨1, 136, 1, 14, .rwk, .m, 1000, false, 10, 0x2710⟩
def CCC_WDT_WDT_CNT : Fld := ⟨1, 136, 15, 16, .w1c, .a, 0, false, 0, 2 ^ 16 - 1⟩

/-! CCC.SCHED -/
def CCC_SCHED_AFF_US : Fld := ⟨1, 144, 0, 10, .rw, .m, 20, false, 0, 0x3E8⟩
def CCC_SCHED_WAIT_MAX_MS : Fld := ⟨1, 144, 10, 14, .rw, .m, 100, false, 1, 0x2710⟩

/-! CCC.TRACE -/
def CCC_TRACE_EN : Fld := ⟨1, 152, 0, 1, .rw, .t, 0, false, 0, 2 ^ 1 - 1⟩
def CCC_TRACE_FREEZE_ON_ERR : Fld := ⟨1, 152, 1, 1, .rw, .t, 1, false, 0, 2 ^ 1 - 1⟩
def CCC_TRACE_FREEZE : Fld := ⟨1, 152, 2, 1, .w1s, .b, 0, false, 0, 2 ^ 1 - 1⟩
def CCC_TRACE_UNFREEZE : Fld := ⟨1, 152, 3, 1, .w1s, .b, 0, false, 0, 2 ^ 1 - 1⟩
def CCC_TRACE_MASK : Fld := ⟨1, 152, 4, 8, .rw, .t, 255, false, 0, 2 ^ 8 - 1⟩

/-! CCC.TRACE_STAT -/
def CCC_TRACE_STAT_WPTR : Fld := ⟨1, 160, 0, 12, .ro, .b, 0, true, 0, 2 ^ 12 - 1⟩
def CCC_TRACE_STAT_WRAPPED : Fld := ⟨1, 160, 12, 1, .ro, .b, 0, true, 0, 2 ^ 1 - 1⟩
def CCC_TRACE_STAT_FROZEN : Fld := ⟨1, 160, 13, 1, .ro, .b, 0, true, 0, 2 ^ 1 - 1⟩
def CCC_TRACE_STAT_FRAME : Fld := ⟨1, 160, 14, 48, .ro, .b, 0, true, 0, 2 ^ 48 - 1⟩

/-! CCC.CNT -/
def CCC_CNT_DISPATCH : Fld := ⟨1, 168, 0, 32, .w1c, .b, 0, true, 0, 2 ^ 32 - 1⟩
def CCC_CNT_MIGRATE : Fld := ⟨1, 168, 32, 16, .w1c, .b, 0, true, 0, 2 ^ 16 - 1⟩
def CCC_CNT_WAKE_TMO : Fld := ⟨1, 168, 48, 16, .w1c, .b, 0, true, 0, 2 ^ 16 - 1⟩

/-! CCC.LOAD -/
def CCC_LOAD_LOAD (c : Nat) : Fld := ⟨1, 176, 0 + 8 * c, 8, .ro, .b, 0, true, 0, 2 ^ 8 - 1⟩

/-! QEN.CFG -/
def QEN_CFG_PSIDE : Fld := ⟨2, 128, 0, 1, .rw, .m, 1, false, 0, 2 ^ 1 - 1⟩

/-! QEN.DOORBELL -/
def QEN_DOORBELL_QUEUE : Fld := ⟨2, 136, 0, 12, .wo, .b, 0, false, 0, 2 ^ 12 - 1⟩
def QEN_DOORBELL_TAIL : Fld := ⟨2, 136, 12, 17, .wo, .b, 0, false, 0, 2 ^ 17 - 1⟩

/-! QEN.CONSUME -/
def QEN_CONSUME_QUEUE : Fld := ⟨2, 144, 0, 12, .wo, .b, 0, false, 0, 2 ^ 12 - 1⟩
def QEN_CONSUME_HEAD : Fld := ⟨2, 144, 12, 17, .wo, .b, 0, false, 0, 2 ^ 17 - 1⟩

/-! QEN.MEM -/
def QEN_MEM_FREE : Fld := ⟨2, 152, 0, 18, .ro, .b, 131072, true, 0, 2 ^ 18 - 1⟩

/-! QEN.CNT -/
def QEN_CNT_PROXY_TX : Fld := ⟨2, 160, 0, 16, .w1c, .b, 0, true, 0, 2 ^ 16 - 1⟩
def QEN_CNT_PROXY_NAK : Fld := ⟨2, 160, 16, 16, .w1c, .b, 0, true, 0, 2 ^ 16 - 1⟩
def QEN_CNT_FULL : Fld := ⟨2, 160, 32, 16, .w1c, .b, 0, true, 0, 2 ^ 16 - 1⟩
def QEN_CNT_DROP : Fld := ⟨2, 160, 48, 16, .w1c, .b, 0, true, 0, 2 ^ 16 - 1⟩

/-! ARB.CFG -/
def ARB_CFG_EN (s : Nat) : Fld := ⟨9, 128 + 8 * s, 0, 1, .rw, .m, 1, false, 0, 2 ^ 1 - 1⟩
def ARB_CFG_ARBITER (s : Nat) : Fld := ⟨9, 128 + 8 * s, 1, 6, .rw, .m, 31, false, 1, 0x3E⟩
def ARB_CFG_PREF (s : Nat) : Fld := ⟨9, 128 + 8 * s, 7, 1, .rw, .m, 0, false, 0, 2 ^ 1 - 1⟩

/-! ARB.TIMING -/
def ARB_TIMING_MISS_US : Fld := ⟨9, 144, 0, 16, .rw, .m, 3000, false, 2000, 0x4E20⟩
def ARB_TIMING_TAKE_MS : Fld := ⟨9, 144, 16, 12, .rw, .m, 10, false, 5, 0x3E8⟩
def ARB_TIMING_REQ_TMO_US : Fld := ⟨9, 144, 28, 16, .rw, .m, 1000, false, 250, 0x2710⟩
def ARB_TIMING_START_MS : Fld := ⟨9, 144, 44, 10, .rw, .m, 20, false, 5, 0x3E8⟩

/-! ARB.ETH -/
def ARB_ETH_PEER_IP : Fld := ⟨9, 152, 0, 32, .rw, .m, 0, false, 0, 2 ^ 32 - 1⟩
def ARB_ETH_UDP : Fld := ⟨9, 152, 32, 16, .rw, .m, 7430, false, 0, 2 ^ 16 - 1⟩
def ARB_ETH_PORT : Fld := ⟨9, 152, 48, 1, .rw, .m, 0, false, 0, 2 ^ 1 - 1⟩
def ARB_ETH_ETH_EN : Fld := ⟨9, 152, 49, 1, .rw, .m, 1, false, 0, 2 ^ 1 - 1⟩

/-! ARB.REH -/
def ARB_REH_INTERVAL_H : Fld := ⟨9, 160, 0, 16, .rw, .m, 0, false, 0, 2 ^ 16 - 1⟩
def ARB_REH_HOLD_S : Fld := ⟨9, 160, 16, 16, .rw, .m, 60, false, 10, 0xE10⟩
def ARB_REH_GO : Fld := ⟨9, 160, 32, 1, .w1s, .b, 0, false, 0, 2 ^ 1 - 1⟩
def ARB_REH_SIDE : Fld := ⟨9, 160, 33, 1, .rw, .b, 0, false, 0, 2 ^ 1 - 1⟩

/-! ARB.SWAP -/
def ARB_SWAP_APPLY_FRAME : Fld := ⟨9, 168, 0, 48, .rw, .b, 0, false, 0, 2 ^ 48 - 1⟩
def ARB_SWAP_SIDE : Fld := ⟨9, 168, 48, 1, .rw, .b, 0, false, 0, 2 ^ 1 - 1⟩
def ARB_SWAP_GO : Fld := ⟨9, 168, 49, 1, .w1s, .b, 0, false, 0, 2 ^ 1 - 1⟩
def ARB_SWAP_TAKE : Fld := ⟨9, 168, 50, 1, .w1s, .b, 0, false, 0, 2 ^ 1 - 1⟩

/-! ARB.EPOCH -/
def ARB_EPOCH_EPOCH (s : Nat) : Fld := ⟨9, 176 + 8 * s, 0, 32, .ro, .m, 0, false, 0, 2 ^ 32 - 1⟩
def ARB_EPOCH_ISSUER (s : Nat) : Fld := ⟨9, 176 + 8 * s, 32, 6, .ro, .m, 0, false, 0, 2 ^ 6 - 1⟩
def ARB_EPOCH_REASON (s : Nat) : Fld := ⟨9, 176 + 8 * s, 38, 3, .ro, .m, 0, false, 0, 2 ^ 3 - 1⟩
def ARB_EPOCH_ACTIVE (s : Nat) : Fld := ⟨9, 176 + 8 * s, 41, 6, .ro, .m, 0, false, 0, 2 ^ 6 - 1⟩

/-! ARB.APPLY -/
def ARB_APPLY_FRAME (s : Nat) : Fld := ⟨9, 192 + 8 * s, 0, 48, .ro, .b, 0, false, 0, 2 ^ 48 - 1⟩
def ARB_APPLY_PEND (s : Nat) : Fld := ⟨9, 192 + 8 * s, 48, 1, .ro, .b, 0, false, 0, 2 ^ 1 - 1⟩

/-! ARB.STAT -/
def ARB_STAT_STATE (s : Nat) : Fld := ⟨9, 208 + 8 * s, 0, 3, .ro, .b, 0, true, 0, 2 ^ 3 - 1⟩
def ARB_STAT_PEER_RING (s : Nat) : Fld := ⟨9, 208 + 8 * s, 3, 1, .ro, .b, 0, true, 0, 2 ^ 1 - 1⟩
def ARB_STAT_PEER_ETH (s : Nat) : Fld := ⟨9, 208 + 8 * s, 4, 1, .ro, .b, 0, true, 0, 2 ^ 1 - 1⟩
def ARB_STAT_PEER_READY (s : Nat) : Fld := ⟨9, 208 + 8 * s, 5, 1, .ro, .b, 0, true, 0, 2 ^ 1 - 1⟩
def ARB_STAT_ARB_SEEN (s : Nat) : Fld := ⟨9, 208 + 8 * s, 6, 1, .ro, .b, 0, true, 0, 2 ^ 1 - 1⟩
def ARB_STAT_ARBITER (s : Nat) : Fld := ⟨9, 208 + 8 * s, 7, 6, .ro, .b, 0, true, 0, 2 ^ 6 - 1⟩
def ARB_STAT_SEL (s : Nat) : Fld := ⟨9, 208 + 8 * s, 13, 1, .ro, .b, 0, true, 0, 2 ^ 1 - 1⟩
def ARB_STAT_FALLBACK (s : Nat) : Fld := ⟨9, 208 + 8 * s, 14, 1, .ro, .b, 0, true, 0, 2 ^ 1 - 1⟩
def ARB_STAT_PEER_AGE_US (s : Nat) : Fld := ⟨9, 208 + 8 * s, 15, 16, .ro, .b, 0, true, 0, 2 ^ 16 - 1⟩

/-! ARB.CNT -/
def ARB_CNT_REQ (s : Nat) : Fld := ⟨9, 224 + 8 * s, 0, 16, .w1c, .b, 0, true, 0, 2 ^ 16 - 1⟩
def ARB_CNT_REFUSED (s : Nat) : Fld := ⟨9, 224 + 8 * s, 16, 16, .w1c, .b, 0, true, 0, 2 ^ 16 - 1⟩
def ARB_CNT_GRANTS (s : Nat) : Fld := ⟨9, 224 + 8 * s, 32, 8, .w1c, .m, 0, true, 0, 2 ^ 8 - 1⟩
def ARB_CNT_TAKEOVERS (s : Nat) : Fld := ⟨9, 224 + 8 * s, 40, 8, .w1c, .m, 0, true, 0, 2 ^ 8 - 1⟩
def ARB_CNT_SWAPS (s : Nat) : Fld := ⟨9, 224 + 8 * s, 48, 8, .w1c, .m, 0, true, 0, 2 ^ 8 - 1⟩
def ARB_CNT_STALE (s : Nat) : Fld := ⟨9, 224 + 8 * s, 56, 8, .w1c, .b, 0, true, 0, 2 ^ 8 - 1⟩

/-! ARB.TCNT -/
def ARB_TCNT_FALLBACK : Fld := ⟨9, 240, 0, 32, .w1c, .b, 0, true, 0, 2 ^ 32 - 1⟩
def ARB_TCNT_NONE : Fld := ⟨9, 240, 32, 16, .w1c, .b, 0, true, 0, 2 ^ 16 - 1⟩
def ARB_TCNT_EPOCH_CHG : Fld := ⟨9, 240, 48, 16, .w1c, .b, 0, true, 0, 2 ^ 16 - 1⟩

/-! ARB.REH_STAT -/
def ARB_REH_STAT_SEC : Fld := ⟨9, 248, 0, 32, .ro, .m, 0, false, 0, 2 ^ 32 - 1⟩
def ARB_REH_STAT_RESULT : Fld := ⟨9, 248, 32, 3, .ro, .m, 0, false, 0, 2 ^ 3 - 1⟩
def ARB_REH_STAT_FAILS : Fld := ⟨9, 248, 35, 8, .w1c, .m, 0, false, 0, 2 ^ 8 - 1⟩

/-! NVS.BOOT_STAT -/
def NVS_BOOT_STAT_START_NO : Fld := ⟨3, 128, 0, 16, .ro, .m, 0, false, 0, 2 ^ 16 - 1⟩
def NVS_BOOT_STAT_STEP : Fld := ⟨3, 128, 16, 5, .ro, .a, 0, false, 0, 2 ^ 5 - 1⟩
def NVS_BOOT_STAT_LAST_RESET : Fld := ⟨3, 128, 21, 4, .ro, .a, 0, false, 0, 2 ^ 4 - 1⟩
def NVS_BOOT_STAT_ALT : Fld := ⟨3, 128, 25, 16, .ro, .a, 0, false, 0, 2 ^ 16 - 1⟩
def NVS_BOOT_STAT_DEGRADED : Fld := ⟨3, 128, 41, 4, .ro, .a, 0, false, 0, 2 ^ 4 - 1⟩
def NVS_BOOT_STAT_FORCED_DARK : Fld := ⟨3, 128, 45, 1, .ro, .a, 0, false, 0, 2 ^ 1 - 1⟩
def NVS_BOOT_STAT_BOOT_CODE : Fld := ⟨3, 128, 46, 8, .ro, .a, 0, false, 0, 2 ^ 8 - 1⟩
def NVS_BOOT_STAT_WOKE : Fld := ⟨3, 128, 54, 1, .ro, .a, 0, false, 0, 2 ^ 1 - 1⟩

/-! NVS.BOOT_CFG -/
def NVS_BOOT_CFG_TARGET : Fld := ⟨3, 136, 0, 2, .rw, .m, 0, false, 0, 0x2⟩
def NVS_BOOT_CFG_PATH_CLR : Fld := ⟨3, 136, 2, 1, .w1s, .b, 0, false, 0, 2 ^ 1 - 1⟩

/-! NVS.RST_CTRL -/
def NVS_RST_CTRL_SOFT : Fld := ⟨3, 144, 0, 1, .w1s, .b, 0, false, 0, 2 ^ 1 - 1⟩
def NVS_RST_CTRL_KEY : Fld := ⟨3, 144, 8, 8, .wo, .b, 0, false, 0, 2 ^ 8 - 1⟩

/-! NVS.RST_CNT -/
def NVS_RST_CNT_CNT (k : Nat) : Fld := ⟨3, 152, 0 + 8 * k, 8, .w1c, .a, 0, false, 0, 2 ^ 8 - 1⟩

/-! NVS.RST_CNT2 -/
def NVS_RST_CNT2_CNT_9 : Fld := ⟨3, 216, 0, 8, .w1c, .a, 0, false, 0, 2 ^ 8 - 1⟩

/-! NVS.POWER -/
def NVS_POWER_STATE : Fld := ⟨3, 160, 0, 2, .ro, .a, 1, false, 0, 2 ^ 2 - 1⟩
def NVS_POWER_FRAME : Fld := ⟨3, 160, 2, 48, .ro, .b, 0, false, 0, 2 ^ 48 - 1⟩

/-! NVS.SLEEP_CFG -/
def NVS_SLEEP_CFG_WAKE_GPIO : Fld := ⟨3, 168, 0, 4, .rw, .a, 0, false, 0, 2 ^ 4 - 1⟩
def NVS_SLEEP_CFG_WAKE_POL : Fld := ⟨3, 168, 4, 1, .rw, .a, 0, false, 0, 2 ^ 1 - 1⟩
def NVS_SLEEP_CFG_PIN_EN : Fld := ⟨3, 168, 5, 1, .rw, .a, 0, false, 0, 2 ^ 1 - 1⟩
def NVS_SLEEP_CFG_BEACON_EN : Fld := ⟨3, 168, 6, 1, .rw, .a, 1, false, 0, 2 ^ 1 - 1⟩
def NVS_SLEEP_CFG_ALARM_EN : Fld := ⟨3, 168, 7, 1, .rw, .a, 0, false, 0, 2 ^ 1 - 1⟩
def NVS_SLEEP_CFG_RAIL_GPIO : Fld := ⟨3, 168, 8, 4, .rw, .a, 15, false, 0, 2 ^ 4 - 1⟩
def NVS_SLEEP_CFG_RAIL_POL : Fld := ⟨3, 168, 12, 1, .rw, .a, 0, false, 0, 2 ^ 1 - 1⟩
def NVS_SLEEP_CFG_RAIL_MS : Fld := ⟨3, 168, 13, 8, .rw, .a, 20, false, 1, 0xFF⟩

/-! NVS.ALARM -/
def NVS_ALARM_SEC : Fld := ⟨3, 176, 0, 32, .rw, .a, 0, false, 0, 2 ^ 32 - 1⟩
def NVS_ALARM_NOW : Fld := ⟨3, 176, 32, 32, .ro, .a, 0, false, 0, 2 ^ 32 - 1⟩

/-! NVS.SAVE -/
def NVS_SAVE_GO : Fld := ⟨3, 184, 0, 1, .w1s, .b, 0, false, 0, 2 ^ 1 - 1⟩
def NVS_SAVE_MIRROR_MS : Fld := ⟨3, 184, 1, 16, .rw, .m, 1000, false, 10, 0xEA60⟩
def NVS_SAVE_SAVING : Fld := ⟨3, 184, 17, 1, .ro, .b, 0, true, 0, 2 ^ 1 - 1⟩
def NVS_SAVE_DIRTY : Fld := ⟨3, 184, 18, 3, .ro, .b, 0, true, 0, 2 ^ 3 - 1⟩

/-! NVS.GEN -/
def NVS_GEN_SET_GEN : Fld := ⟨3, 192, 0, 24, .ro, .m, 0, false, 0, 2 ^ 24 - 1⟩
def NVS_GEN_TBL_GEN : Fld := ⟨3, 192, 24, 24, .ro, .m, 0, false, 0, 2 ^ 24 - 1⟩
def NVS_GEN_SET_PREV : Fld := ⟨3, 192, 48, 1, .ro, .a, 0, false, 0, 2 ^ 1 - 1⟩
def NVS_GEN_TBL_PREV : Fld := ⟨3, 192, 49, 1, .ro, .a, 0, false, 0, 2 ^ 1 - 1⟩

/-! NVS.LEDGER -/
def NVS_LEDGER_WPTR : Fld := ⟨3, 200, 0, 12, .ro, .m, 0, false, 0, 2 ^ 12 - 1⟩
def NVS_LEDGER_WRAPPED : Fld := ⟨3, 200, 12, 1, .ro, .m, 0, false, 0, 2 ^ 1 - 1⟩

/-! NVS.MRAM -/
def NVS_MRAM_RECORDS : Fld := ⟨3, 208, 0, 32, .w1c, .a, 0, true, 0, 2 ^ 32 - 1⟩
def NVS_MRAM_CE : Fld := ⟨3, 208, 32, 16, .w1c, .a, 0, true, 0, 2 ^ 16 - 1⟩
def NVS_MRAM_UE : Fld := ⟨3, 208, 48, 8, .w1c, .a, 0, true, 0, 2 ^ 8 - 1⟩
def NVS_MRAM_CUT : Fld := ⟨3, 208, 56, 8, .w1c, .a, 0, true, 0, 2 ^ 8 - 1⟩

/-! UPD.SLOT -/
def UPD_SLOT_ACTIVE : Fld := ⟨4, 128, 0, 1, .ro, .a, 0, false, 0, 2 ^ 1 - 1⟩
def UPD_SLOT_PREV_VALID : Fld := ⟨4, 128, 1, 1, .ro, .a, 0, false, 0, 2 ^ 1 - 1⟩
def UPD_SLOT_PROBATION : Fld := ⟨4, 128, 2, 1, .ro, .a, 0, false, 0, 2 ^ 1 - 1⟩
def UPD_SLOT_RECOVERY : Fld := ⟨4, 128, 3, 1, .ro, .a, 0, false, 0, 2 ^ 1 - 1⟩
def UPD_SLOT_SET_FMT : Fld := ⟨4, 128, 4, 16, .ro, .a, 0, false, 0, 2 ^ 16 - 1⟩

/-! UPD.FLOOR -/
def UPD_FLOOR_SEQ_FLOOR : Fld := ⟨4, 136, 0, 64, .ro, .m, 0, false, 0, 2 ^ 64 - 1⟩

/-! UPD.STAGE -/
def UPD_STAGE_STATE : Fld := ⟨4, 144, 0, 3, .ro, .b, 0, true, 0, 2 ^ 3 - 1⟩
def UPD_STAGE_REASON : Fld := ⟨4, 144, 3, 4, .ro, .b, 0, true, 0, 2 ^ 4 - 1⟩
def UPD_STAGE_MISSING : Fld := ⟨4, 144, 7, 15, .ro, .b, 0, true, 0, 2 ^ 15 - 1⟩
def UPD_STAGE_TOTAL : Fld := ⟨4, 144, 22, 15, .ro, .b, 0, true, 0, 2 ^ 15 - 1⟩
def UPD_STAGE_PASS : Fld := ⟨4, 144, 37, 4, .ro, .b, 0, true, 0, 2 ^ 4 - 1⟩

/-! UPD.STAGE_CID -/
def UPD_STAGE_CID_CID : Fld := ⟨4, 152, 0, 32, .ro, .b, 0, true, 0, 2 ^ 32 - 1⟩
def UPD_STAGE_CID_CID_OTHER : Fld := ⟨4, 152, 32, 32, .ro, .b, 0, true, 0, 2 ^ 32 - 1⟩

/-! UPD.ACT -/
def UPD_ACT_STATE : Fld := ⟨4, 160, 0, 3, .ro, .b, 0, true, 0, 2 ^ 3 - 1⟩
def UPD_ACT_ACT_FRAME : Fld := ⟨4, 160, 3, 48, .ro, .b, 0, true, 0, 2 ^ 48 - 1⟩
def UPD_ACT_PEND : Fld := ⟨4, 160, 51, 1, .ro, .b, 0, true, 0, 2 ^ 1 - 1⟩

/-! UPD.ACT_NO -/
def UPD_ACT_NO_NUMBER : Fld := ⟨4, 168, 0, 32, .ro, .m, 0, false, 0, 2 ^ 32 - 1⟩
def UPD_ACT_NO_EPOCH : Fld := ⟨4, 168, 32, 32, .ro, .b, 0, false, 0, 2 ^ 32 - 1⟩

/-! UPD.CFG -/
def UPD_CFG_XFER_RATE : Fld := ⟨4, 176, 0, 12, .rw, .m, 1600, false, 100, 0x7D0⟩
def UPD_CFG_PASSES : Fld := ⟨4, 176, 12, 4, .rw, .m, 3, false, 1, 0xF⟩
def UPD_CFG_PREP_MS : Fld := ⟨4, 176, 16, 16, .rw, .m, 5000, false, 500, 0xEA60⟩
def UPD_CFG_PROB_S : Fld := ⟨4, 176, 40, 20, .rw, .m, 86400, false, 0, 2 ^ 20 - 1⟩
def UPD_CFG_KEEP_POLICY : Fld := ⟨4, 176, 60, 1, .rw, .m, 0, false, 0, 2 ^ 1 - 1⟩

/-! UPD.CFG2 -/
def UPD_CFG2_FB_WAIT_MS : Fld := ⟨4, 184, 0, 16, .rw, .m, 2000, false, 500, 0xEA60⟩
def UPD_CFG2_RELIGHT_FR : Fld := ⟨4, 184, 16, 12, .rw, .m, 960, false, 8, 0xFFF⟩

/-! UPD.CTRL -/
def UPD_CTRL_CLEAR : Fld := ⟨4, 192, 0, 1, .w1s, .b, 0, false, 0, 2 ^ 1 - 1⟩

/-! UPD.KEYS -/
def UPD_KEYS_ROOT : Fld := ⟨4, 200, 0, 1, .ro, .f, 0, false, 0, 2 ^ 1 - 1⟩
def UPD_KEYS_VALID : Fld := ⟨4, 200, 1, 4, .ro, .m, 0, false, 0, 2 ^ 4 - 1⟩

/-! UPD.CNT -/
def UPD_CNT_STALE_SEQ : Fld := ⟨4, 208, 0, 16, .w1c, .b, 0, true, 0, 2 ^ 16 - 1⟩
def UPD_CNT_REFUSED : Fld := ⟨4, 208, 16, 16, .w1c, .b, 0, true, 0, 2 ^ 16 - 1⟩
def UPD_CNT_CONFLICTS : Fld := ⟨4, 208, 32, 8, .w1c, .m, 0, true, 0, 2 ^ 8 - 1⟩
def UPD_CNT_FALLBACKS : Fld := ⟨4, 208, 40, 8, .w1c, .m, 0, true, 0, 2 ^ 8 - 1⟩
def UPD_CNT_FB_ALONE : Fld := ⟨4, 208, 48, 8, .w1c, .m, 0, true, 0, 2 ^ 8 - 1⟩
def UPD_CNT_ABORTS : Fld := ⟨4, 208, 56, 8, .w1c, .m, 0, true, 0, 2 ^ 8 - 1⟩

/-! REC.CTRL -/
def REC_CTRL_MODE : Fld := ⟨10, 128, 0, 2, .rw, .t, 0, false, 0, 0x2⟩
def REC_CTRL_TRIG : Fld := ⟨10, 128, 2, 1, .w1s, .b, 0, false, 0, 2 ^ 1 - 1⟩
def REC_CTRL_ARM : Fld := ⟨10, 128, 3, 1, .w1s, .b, 0, false, 0, 2 ^ 1 - 1⟩
def REC_CTRL_CAP_EN : Fld := ⟨10, 128, 4, 1, .rw, .t, 0, false, 0, 2 ^ 1 - 1⟩
def REC_CTRL_CAP_SLOTS : Fld := ⟨10, 128, 5, 4, .rw, .t, 1, false, 1, 0x8⟩
def REC_CTRL_REPLAY_GO : Fld := ⟨10, 128, 9, 1, .w1s, .b, 0, false, 0, 2 ^ 1 - 1⟩

/-! REC.TRIG_CFG -/
def REC_TRIG_CFG_CODE0 : Fld := ⟨10, 136, 0, 16, .rw, .t, 0, false, 0, 2 ^ 16 - 1⟩
def REC_TRIG_CFG_CODE1 : Fld := ⟨10, 136, 16, 16, .rw, .t, 0, false, 0, 2 ^ 16 - 1⟩
def REC_TRIG_CFG_CODE2 : Fld := ⟨10, 136, 32, 16, .rw, .t, 0, false, 0, 2 ^ 16 - 1⟩
def REC_TRIG_CFG_ON_ERR : Fld := ⟨10, 136, 48, 1, .rw, .t, 0, false, 0, 2 ^ 1 - 1⟩
def REC_TRIG_CFG_POST_K : Fld := ⟨10, 136, 49, 14, .rw, .t, 1024, false, 0, 0x2000⟩

/-! REC.STAT -/
def REC_STAT_STATE : Fld := ⟨10, 144, 0, 2, .ro, .b, 0, true, 0, 2 ^ 2 - 1⟩
def REC_STAT_WPTR : Fld := ⟨10, 144, 2, 17, .ro, .b, 0, true, 0, 2 ^ 17 - 1⟩
def REC_STAT_WRAPPED : Fld := ⟨10, 144, 19, 1, .ro, .b, 0, true, 0, 2 ^ 1 - 1⟩
def REC_STAT_CAP_DONE : Fld := ⟨10, 144, 20, 8, .ro, .b, 0, true, 0, 2 ^ 8 - 1⟩
def REC_STAT_DIGEST_DIRTY : Fld := ⟨10, 144, 28, 1, .ro, .b, 0, true, 0, 2 ^ 1 - 1⟩

/-! REC.TRIG_STAT -/
def REC_TRIG_STAT_FRAME : Fld := ⟨10, 152, 0, 48, .ro, .b, 0, false, 0, 2 ^ 48 - 1⟩
def REC_TRIG_STAT_CODE : Fld := ⟨10, 152, 48, 16, .ro, .b, 0, false, 0, 2 ^ 16 - 1⟩

/-! REC.SREC -/
def REC_SREC_BASE : Fld := ⟨10, 160, 0, 36, .rw, .m, 0, false, 0, 2 ^ 36 - 1⟩
def REC_SREC_SIZE_MIB : Fld := ⟨10, 160, 36, 11, .rw, .m, 1024, false, 1, 0x400⟩

/-! REC.CNT -/
def REC_CNT_MATCH : Fld := ⟨10, 168, 0, 16, .w1c, .b, 0, true, 0, 2 ^ 16 - 1⟩
def REC_CNT_DIVERGE : Fld := ⟨10, 168, 16, 16, .w1c, .b, 0, true, 0, 2 ^ 16 - 1⟩
def REC_CNT_PRECOND : Fld := ⟨10, 168, 32, 16, .w1c, .b, 0, true, 0, 2 ^ 16 - 1⟩
def REC_CNT_TRIGS : Fld := ⟨10, 168, 48, 8, .w1c, .b, 0, true, 0, 2 ^ 8 - 1⟩
def REC_CNT_SDROP : Fld := ⟨10, 168, 56, 8, .w1c, .b, 0, true, 0, 2 ^ 8 - 1⟩

/-! ING.EDID -/
def ING_EDID_DATA (p : Nat) (j : Nat) : Fld := ⟨(16 + p), 1024 + 8 * j, 0, 64, .rw, .m, 0, false, 0, 2 ^ 64 - 1⟩

/-- The fields of a BLK page (the common header, R39). -/
def fieldsBLK (pg : Nat) : List Fld :=
  [BLK_ID_TAG pg, BLK_ID_INST pg, BLK_ID_VER_MAJ pg, BLK_ID_VER_MIN pg, BLK_CTRL_EN pg, BLK_CTRL_BRST pg, BLK_CTRL_CGATE pg, BLK_STAT_RDY pg] ++
  [BLK_STAT_XRDY pg, BLK_STAT_XOVF pg, BLK_STAT_ROLE_OFF pg, BLK_STAT_LOCKED pg, BLK_STAT_SHD_PEND pg, BLK_STAT_BLK pg, INT_RAW_RAW pg, INT_EN_EN pg] ++
  [ERR_CAP0_CODE pg, ERR_CAP0_VALID pg, ERR_CAP0_MORE pg, ERR_CAP0_SRC pg, ERR_CAP0_OFFSET pg, ERR_CAP0_FRAME pg, ERR_CAP1_VALUE pg, SHD_CTRL_COMMIT pg] ++
  [SHD_CTRL_DISCARD pg, SHD_CTRL_RDACT pg, SHD_STAT_APPLY_FRAME pg, SHD_STAT_PEND pg, SHD_STAT_DIRTY pg, SHD_STAT_CANCELLED pg, LOCK pg, SNAP_REQ pg] ++
  [SNAP_DONE pg, SNAP_AUTO pg, SNAP_FRAME pg]

/-- The fields of a HIF page. -/
def fieldsHIF : List Fld :=
  [HIF_STRAP_STAT_ROLE, HIF_STRAP_STAT_BOOTSEL, HIF_STRAP_STAT_GRADE, HIF_STRAP_STAT_STEPPING, HIF_INT_SUM_PAGE, HIF_INT_N_EN_PAGE, HIF_RA_ADDR_ADDR, HIF_RA_ADDR_NODE] ++
  [HIF_RA_DATA_DATA, HIF_RA_CTRL_OP, HIF_RA_CTRL_GO, HIF_RA_CTRL_TAG, HIF_RA_CTRL_TMO_US, HIF_RA_STAT_BUSY, HIF_RA_STAT_DONE, HIF_RA_STAT_CODE] ++
  [HIF_RA_STAT_TAG, HIF_RA_STAT_LATE]

/-- The fields of a ING page. -/
def fieldsING (p : Nat) : List Fld :=
  [ING_CFG_MODE p, ING_CFG_PAIR p, ING_CFG_BUFN p, ING_CFG_BUFFMT p, ING_CFG_HPD_EN p, ING_CFG_CSC p, ING_CFG_DP_MAXRATE p, ING_CFG_DP_LANES p] ++
  [ING_ACC_RASTER_HMIN p, ING_ACC_RASTER_HMAX p, ING_ACC_RASTER_VMIN p, ING_ACC_RASTER_VMAX p, ING_ACC_RATE_RMIN p, ING_ACC_RATE_RMAX p, ING_ACC_RATE_FMT p, ING_TIMING_LOS_MS p] ++
  [ING_TIMING_MARGIN_US p, ING_TIMING_TOL_US p, ING_TIMING_SKEW_US p, ING_STREAM_DST_IP p, ING_STREAM_UDP p, ING_STREAM_PT p, ING_STREAM_SSM p, ING_STREAM_SRC_SRC_IP p] ++
  [ING_STREAM_SRC_LOCAL_IP p, ING_ST2110_SAMPLING p, ING_ST2110_DEPTH p, ING_ST2110_FULLRANGE p, ING_ST2110_WIDTH p, ING_ST2110_HEIGHT p, ING_ST2110_RATE_NUM p, ING_ST2110_RATE_DEN p] ++
  ((List.range 4).map fun k => ING_BUF_BASE_ADDR p k) ++
  [ING_BUF_STRIDE_STRIDE p, ING_SRC_STAT_WIDTH p, ING_SRC_STAT_HEIGHT p, ING_SRC_STAT_RATE p, ING_SRC_STAT_FMT p, ING_SRC_STAT_LINK p, ING_SRC_STAT_LOS p, ING_SRC_STAT_ACC_WHY p] ++
  [ING_PICK_STAT_BUF p, ING_PICK_STAT_STATE p, ING_PICK_STAT_FOLLOW p, ING_PICK_STAT_STAMP p, ING_CNT_A_ACC_FAIL p, ING_CNT_A_INCOMPLETE p, ING_CNT_A_DROP p, ING_CNT_A_PICK_MISS p] ++
  [ING_CNT_A_PICK_SELF p, ING_CNT_A_SLICE_HOLE p, ING_CNT_B_FOREIGN p, ING_CNT_B_LATE_P0 p, ING_CNT_B_LATE_P1 p, ING_CNT_B_AUX_ERR p] ++
  ((List.range 32).map fun j => ING_EDID_DATA p j)

/-- The fields of a FMC page. -/
def fieldsFMC : List Fld :=
  [FMC_MEM_CFG_CAP_GIB, FMC_MEM_CFG_RATE_MTS, FMC_MEM_CFG_CHAN_EN, FMC_MEM_STAT_TRAINED, FMC_MEM_STAT_FAIL, FMC_QOS_ING_GBS, FMC_QOS_WB_GBS, FMC_QOS_HOST_GBS] ++
  [FMC_BW_RD_MB, FMC_BW_WR_MB, FMC_ECC_CE, FMC_ECC_UE, FMC_ECC_CE_THR]

/-- The fields of a CMP page. -/
def fieldsCMP : List Fld :=
  [CMP_CANVAS_W, CMP_CANVAS_H, CMP_CANVAS_ORDER, CMP_CANVAS_REGION_N, CMP_WALL_REF_NITS, CMP_WALL_PEAK_NITS, CMP_BG_C0, CMP_BG_C1] ++
  [CMP_BG_C2, CMP_FLIP_FENCE_TMO, CMP_FLIP_FLIPLOG_EN, CMP_BUF_REL_HANDLE, CMP_WB_CTRL_EN, CMP_WB_CTRL_FEED_MASK, CMP_WB_CTRL_FMT, CMP_WB_CTRL_DECIM] ++
  [CMP_WB_CTRL_BASE, CMP_WB_ORG_X0, CMP_WB_ORG_Y0, CMP_WB_SIZE_W, CMP_WB_SIZE_H, CMP_WB_SIZE_STRIDE, CMP_WB_STAT_LAST_SLOT, CMP_WB_STAT_FRAME] ++
  [CMP_LAYER_DEFER_MASK, CMP_LAYER_REFUSED_MASK, CMP_LAYER_SEL_LAYER, CMP_LAYER_STAT_STATE, CMP_LAYER_STAT_REASON, CMP_LAYER_STAT_WAIT, CMP_LAYER_STAT_SINCE, CMP_GUARD_LAST_ADDR] ++
  [CMP_GUARD_LAST_HANDLE, CMP_GUARD_LAST_WB, CMP_GUARD_LAST_INTERM, CMP_CNT0_REL_DEFER, CMP_CNT0_GUARD, CMP_CNT0_OVERLAP, CMP_CNT0_WB_INCOMPLETE, CMP_CNT1_OVERRUN] ++
  [CMP_CNT1_FENCE_TMO, CMP_CNT1_REFUSED, CMP_CNT1_FLIP_MISMATCH, CMP_CNT1_FLIP_SELF, CMP_COMP_NS_BUSY] ++
  ((List.range 64).map fun i => CMP_FENCE_VALUE i)

/-- The fields of a SCL page. -/
def fieldsSCL : List Fld :=
  ((List.range 8).map fun u => SCL_LOAD_CYCLES u) ++
  ((List.range 8).map fun u => SCL_LOAD_LAYERS u) ++
  [SCL_COEF_STAT_HNU, SCL_COEF_STAT_VNU, SCL_CNT_PASS1_LATE, SCL_CNT_CAPACITY]

/-- The fields of a IMP page. -/
def fieldsIMP : List Fld :=
  [IMP_CTRL_BANK, IMP_CTRL_DMG_EN, IMP_CTRL_REFRESH_N, IMP_CTRL_ORDER, IMP_CTRL_SIDE_EN, IMP_CTRL_WIDE, IMP_CTRL_REFLOG_EN, IMP_TIMING_TPRESS_US] ++
  [IMP_TIMING_HOP_NS, IMP_PREP_GO, IMP_PREP_BANK, IMP_PREP_STAT_BUSY, IMP_PREP_STAT_OK, IMP_PREP_STAT_REASON, IMP_PREP_STAT_SIDE, IMP_PREP_STAT_NODE] ++
  [IMP_PREP_LOAD_FULL_A, IMP_PREP_LOAD_FULL_B, IMP_FOOT_PX] ++
  ((List.range 2).map fun s => IMP_LOAD_FOLIOS s) ++
  ((List.range 2).map fun s => IMP_LOAD_SLACK_NS s) ++
  ((List.range 2).map fun s => IMP_LOAD_FULL_TILES s) ++
  [IMP_DMG_STAT_RECTS, IMP_DMG_STAT_MERGED, IMP_CNT_OVERRUN, IMP_CNT_BANK_REFUSED, IMP_CNT_NEED_FULL, IMP_CNT_REFRESH_SELF, IMP_UNSENT_LEAVES]

/-- The fields of a QP page. -/
def fieldsQP (s : Nat) : List Fld :=
  [QP_CFG_RATE_START s, QP_CFG_RATE_MASK s, QP_CFG_MIN_LANES s, QP_CFG_SPARE_EN s, QP_CFG_EQ_FIX s, QP_CFG_RX_INV s, QP_CFG_TX_INV s, QP_CTRL_RETRAIN s] ++
  [QP_CTRL_SWAP_LANE s, QP_CTRL_SWAP_GO s, QP_WEAR_WEAR_THR s, QP_WEAR_FAIL_THR s, QP_RETIRE_LANE s] ++
  ((List.range 5).map fun l => QP_TX_SWING s l) ++
  ((List.range 5).map fun l => QP_TX_PRE s l) ++
  ((List.range 5).map fun l => QP_TX_POST s l) ++
  ((List.range 5).map fun l => QP_LANE_FIX_PEAK s l) ++
  ((List.range 5).map fun l => QP_LANE_FIX_DCG s l) ++
  [QP_SIDE_STAT_STATE s, QP_SIDE_STAT_RATE s, QP_SIDE_STAT_N_ACT s, QP_SIDE_STAT_SPARE s, QP_SIDE_STAT_SWAP_PEND s, QP_SIDE_STAT_FAR_RX_UP s, QP_SIDE_STAT_LANE_WORN s, QP_SIDE_STAT_ATTEMPTS s] ++
  ((List.range 5).map fun l => QP_LANE_STAT_STATE s l) ++
  ((List.range 5).map fun l => QP_LANE_STAT_PEAK s l) ++
  ((List.range 5).map fun l => QP_LANE_STAT_DCG s l) ++
  ((List.range 5).map fun l => QP_LANE_STAT_PHASE s l) ++
  ((List.range 5).map fun l => QP_LANE_STAT_EYE s l) ++
  ((List.range 5).map fun l => QP_LANE_STAT_SKEW s l) ++
  ((List.range 5).map fun l => QP_LANE_STAT_LOG s l) ++
  ((List.range 5).map fun l => QP_LANE_CNT_CORR s l) ++
  ((List.range 5).map fun l => QP_LANE_CNT_UNCORR s l) ++
  ((List.range 5).map fun l => QP_LANE_CNT_LAST_WIN s l) ++
  [QP_CNT_SWAPS s, QP_CNT_LOST_FOLIOS s, QP_CNT_DESKEW s, QP_CNT_SIDE_DOWNS s]

/-- The fields of a QLK page. -/
def fieldsQLK : List Fld :=
  [QLK_CFG_RING_A, QLK_CFG_RING_B, QLK_CFG_LINEAR, QLK_CFG_RELAY, QLK_CFG_COLL_EN, QLK_CFG_AUTO_ENUM, QLK_CTRL_ENUM_GO, QLK_CTRL_SIDE] ++
  ((List.range 2).map fun s => QLK_TOPO_NODE s) ++
  ((List.range 2).map fun s => QLK_TOPO_NODE_VALID s) ++
  ((List.range 2).map fun s => QLK_TOPO_RING s) ++
  ((List.range 2).map fun s => QLK_TOPO_N_TILES s) ++
  ((List.range 2).map fun s => QLK_TOPO_REACH_END s) ++
  ((List.range 2).map fun s => QLK_TOPO_SPLIT s) ++
  ((List.range 2).map fun s => QLK_TOPO_FAR_SENDER s) ++
  ((List.range 2).map fun s => QLK_REACH_NODES s) ++
  [QLK_DRR_D_A, QLK_DRR_D_B, QLK_DRR_WFIX, QLK_DRR_WA_FIX, QLK_DRR_WB_FIX, QLK_TMO_KETTLE_US, QLK_TMO_FRAG_US, QLK_STREAM_STAT_A_OK] ++
  [QLK_STREAM_STAT_B_OK, QLK_STREAM_STAT_A_WHY, QLK_STREAM_STAT_B_WHY, QLK_ENUM_FRAME_FRAME, QLK_ENUM_FRAME_SIDE, QLK_COLL_CAP0_FRAME, QLK_COLL_CAP0_FEED, QLK_COLL_CAP0_VALID] ++
  [QLK_COLL_CAP0_MORE, QLK_COLL_CAP1_CRC_A, QLK_COLL_CAP1_CRC_B] ++
  ((List.range 4).map fun k => QLK_COLL_CNT_MISMATCH k) ++
  ((List.range 4).map fun k => QLK_COLL_CNT_SHAPE k) ++
  ((List.range 4).map fun k => QLK_COLL_CNT_SINGLE k) ++
  ((List.range 4).map fun k => QLK_COLL_CNT_SKIP k) ++
  [QLK_COLL_MATCH_MATCH] ++
  ((List.range 2).map fun x => QLK_SIG_CNT_OK x) ++
  ((List.range 2).map fun x => QLK_SIG_CNT_CRC_FAIL x) ++
  ((List.range 2).map fun x => QLK_SIG_CNT_TRUNC x) ++
  ((List.range 2).map fun x => QLK_SIG_CNT_ORPHAN x) ++
  ((List.range 2).map fun s => QLK_FOLIO_CNT_RX s) ++
  ((List.range 2).map fun s => QLK_FOLIO_CNT_UNCORR s) ++
  ((List.range 2).map fun s => QLK_FOLIO_CNT_BADTYPE s) ++
  [QLK_MG_CNT_FRAG_TMO, QLK_MG_CNT_RELAYED, QLK_MG_CNT_HOLDS, QLK_MG_CNT_BREAKS, QLK_HOP_FWD_MAX_NS, QLK_HOP_QMAX_A, QLK_HOP_QMAX_B]

/-- The fields of a WTU page. -/
def fieldsWTU : List Fld :=
  [WTU_NOW_SEC_SEC, WTU_NOW_NS_NS, WTU_NOW_NS_FRAC, WTU_FRAME_FRAME_NO, WTU_FRAME_FEED, WTU_FRAME_HELD, WTU_TB_T0S_SEC, WTU_NX_T0S_SEC] ++
  [WTU_TB_T0NS_NS, WTU_NX_T0NS_NS, WTU_TB_T0NS_FRAC, WTU_NX_T0NS_FRAC, WTU_TB_T0NS_L_US, WTU_NX_T0NS_L_US, WTU_TB_T0NS_F_M1, WTU_NX_T0NS_F_M1] ++
  [WTU_TB_RATE_NUM, WTU_NX_RATE_NUM, WTU_TB_RATE_DEN, WTU_NX_RATE_DEN, WTU_TB_CTRL_SW_FRAME, WTU_TB_CTRL_ARM, WTU_TB_CTRL_CONT, WTU_TB_CTRL_PEND] ++
  [WTU_TB_CTRL_LATE_CNT, WTU_SRC_CFG_PRI0, WTU_SRC_CFG_PRI1, WTU_SRC_CFG_PRI2, WTU_SRC_CFG_PRI3, WTU_SRC_CFG_SLEW_NS, WTU_SRC_CFG_STEP_LIM_NS, WTU_SRC_CFG_STEP_EN] ++
  [WTU_SRC_STAT_STATE, WTU_SRC_STAT_SRC, WTU_SRC_STAT_VALID, WTU_SRC_STAT_OFFSET_NS, WTU_SRC_STAT_HOLD_S] ++
  ((List.range 2).map fun d => WTU_PTP_DOMAIN d) ++
  ((List.range 2).map fun d => WTU_PTP_PORT_MASK d) ++
  ((List.range 2).map fun d => WTU_PTP_EN d) ++
  ((List.range 2).map fun d => WTU_PTP_ANN_TMO d) ++
  ((List.range 2).map fun d => WTU_PTP_STAT_STATE d) ++
  ((List.range 2).map fun d => WTU_PTP_STAT_PORT d) ++
  ((List.range 2).map fun d => WTU_PTP_STAT_STEPS d) ++
  ((List.range 2).map fun d => WTU_PTP_STAT_OFFSET_NS d) ++
  ((List.range 2).map fun d => WTU_PTP_STAT_MPD_NS d) ++
  ((List.range 2).map fun d => WTU_PTP_GM_GM_ID d) ++
  ((List.range 2).map fun s => WTU_LINK_ASYM_PS s) ++
  ((List.range 2).map fun s => WTU_LINK_DELAY_PS s) ++
  ((List.range 2).map fun s => WTU_LINK_PARENT s) ++
  ((List.range 2).map fun s => WTU_LINK_SETTLING s) ++
  [WTU_ROOT_NODE, WTU_ROOT_RING, WTU_ROOT_QUAL, WTU_ROOT_HOPS, WTU_ROOT_ROOT_SRC, WTU_ROOT_SELF, WTU_RING_OFS_OFS_PS, WTU_RING_OFS_VALID] ++
  [WTU_GLK_EN, WTU_GLK_POL, WTU_GLK_DIV, WTU_GLK_OFS_NS, WTU_GLK_BAD, WTU_PPS_IN_EN, WTU_PPS_IN_POL, WTU_PPS_OUT_EN] ++
  [WTU_PPS_OUT_POL, WTU_PPS_OUT_WIDTH_US, WTU_PPS_OUT_OFS_NS, WTU_TOD_SEC_NEXT, WTU_TICKOUT_EN, WTU_TICKOUT_POL, WTU_TICKOUT_MODE, WTU_TICKOUT_FEED] ++
  [WTU_TICKOUT_HOLD_SKIP, WTU_TICKOUT_WIDTH_US, WTU_TICKOUT_OFS_NS, WTU_FWIN_EN, WTU_FWIN_POL, WTU_FWIN_LEAD_US, WTU_FWIN_WIN_US, WTU_FWIN_TMO_FR] ++
  [WTU_FWIN_FILT_NS, WTU_FWIN_TOL, WTU_FWIN_STAT_STATE, WTU_FWIN_STAT_HELD, WTU_FWIN_STAT_STRAY, WTU_FWIN_STAT_GATE_MISS] ++
  ((List.range 8).map fun k => WTU_CAP_CFG_SRC k) ++
  ((List.range 8).map fun k => WTU_CAP_CFG_EDGE k) ++
  ((List.range 8).map fun k => WTU_CAP_TS_NS k) ++
  ((List.range 8).map fun k => WTU_CAP_TS_SEC k) ++
  ((List.range 8).map fun k => WTU_CAP_CNT_CNT k) ++
  ((List.range 4).map fun k => WTU_TRIG_GPIO k) ++
  ((List.range 4).map fun k => WTU_TRIG_MODE k) ++
  ((List.range 4).map fun k => WTU_TRIG_POL k) ++
  ((List.range 4).map fun k => WTU_TRIG_WIDTH_US k) ++
  ((List.range 4).map fun k => WTU_TRIG_OFS_NS k)

/-- The fields of a TFS page. -/
def fieldsTFS : List Fld :=
  [TFS_GEOM_LW, TFS_GEOM_LH, TFS_RX_SEL, TFS_RX_NEED_EN, TFS_RX_NEED_RETRY, TFS_RX_STAT_FRAME, TFS_RX_STAT_FEEDS_OK, TFS_RX_STAT_NEED_PEND] ++
  [TFS_CNT0_LATE, TFS_CNT0_UNSENT, TFS_CNT0_STALE, TFS_CNT0_GEOM, TFS_CNT1_NEED, TFS_CNT1_ECC_SHEET] ++
  ((List.range 4).flatMap fun f => (List.range 4).map fun m => TFS_LEAF_UPD_BITS f m)

/-- The fields of a LCP page. -/
def fieldsLCP : List Fld :=
  [LCP_CFG_PRIM4, LCP_CFG_DITHER_EN, LCP_CFG_LUT_BANK, LCP_CFG_AGE_BANK, LCP_CFG_USER_EN, LCP_CFG_GUT_EN, LCP_CFG_THERM_EN, LCP_CFG_DEPTH] ++
  [LCP_CFG_LO_BITS, LCP_CFG_AGE_EN, LCP_PRESS_LEAD_US, LCP_PRESS_NEED_US, LCP_BRIGHT_BRIGHT, LCP_BRIGHT_CEIL] ++
  ((List.range 4).map fun c => LCP_WHITE_WHITE c) ++
  ((List.range 4).map fun c => LCP_LO_K_K c) ++
  ((List.range 4).map fun c => LCP_THERM_COEF c) ++
  ((List.range 4).map fun c => LCP_THERM_TREF c) ++
  [LCP_AGE_AGE_K, LCP_AGE_WR_EN, LCP_AGE_SAVE_GO, LCP_AGE_STAT_SAVE_FRAME, LCP_AGE_STAT_SLOT, LCP_AGE_STAT_RESTORE, LCP_AGE_STAT_SAVING] ++
  ((List.range 4).map fun d => LCP_TLATCH_T d) ++
  [LCP_STAT_PRESS_NS, LCP_STAT_THR, LCP_CNT_RESERVE_CLIP, LCP_CNT_PRESS_OVR, LCP_CNT_SKIPPED]

/-- The fields of a SCN page. -/
def fieldsSCN : List Fld :=
  [SCN_CTRL_LAMP_EN, SCN_PLAN_M_M1, SCN_PLAN_S_M1, SCN_PLAN_BLANK_GCLK, SCN_PLAN_ROW_ORDER, SCN_PLAN_OFS_NS, SCN_PLAN_GCLK_MHZ] ++
  ((List.range 4).map fun c => SCN_PD_PD c) ++
  [SCN_PD_PD_EN, SCN_LIMIT_DUTY_MAX, SCN_STAT_LIT, SCN_STAT_DARK_WHY, SCN_PLAN_STAT_N, SCN_PLAN_STAT_HB, SCN_PLAN_STAT_LO, SCN_PLAN_STAT_FIT] ++
  [SCN_PLAN_STAT_OK, SCN_PLAN_STAT_NEFF, SCN_PLAN_FRAME_FRAME, SCN_TLS_TLS, SCN_CNT_CLIP, SCN_CNT_PLAN_FAIL, SCN_CNT_DARK]

/-- The fields of a DRV page. -/
def fieldsDRV (d : Nat) : List Fld :=
  [DRV_CFG_MODE d, DRV_CFG_GROUP d, DRV_CFG_CORD d, DRV_CFG_GRP_USED d, DRV_CFG_X0 d, DRV_CFG_Y0 d, DRV_CFG_XFLIP d, DRV_CFG_YFLIP d] ++
  ((List.range 4).map fun c => DRV_CG_CG d c) ++
  ((List.range 4).map fun c => DRV_CG_CEIL_CEIL d c) ++
  [DRV_STAT_PRESENT d, DRV_STAT_PLL_LOCK d, DRV_STAT_LINK d, DRV_STAT_OUT_ON d, DRV_STAT_IFS_UA d, DRV_STAT_IFS_BAD d, DRV_STAT_OFF_WHY d, DRV_STAT_MAP_OUT d] ++
  [DRV_STAT_STR_NFIT d] ++
  ((List.range 4).map fun c => DRV_HDRM_MIN d c) ++
  [DRV_HDRM_VALID d, DRV_CNT_UNDERRUN d, DRV_CNT_PLL_UNLOCK d, DRV_CNT_STR_TRUNC d, DRV_STR_CFG_BIT_GCLK d, DRV_STR_CFG_T0H_GCLK d, DRV_STR_CFG_T1H_GCLK d, DRV_STR_CFG_LATCH_US d] ++
  [DRV_STR_CFG_SHARE d, DRV_STR_CFG_K_M1 d, DRV_STR_CFG_BPC_M1 d, DRV_STR_CFG2_EN d, DRV_STR_CFG2_DIV_M1 d, DRV_STR_CFG2_FEED d] ++
  ((List.range 16).map fun j => DRV_STR_MAP_X d j) ++
  ((List.range 16).map fun j => DRV_STR_MAP_Y d j) ++
  ((List.range 16).map fun j => DRV_STR_MAP_COUNT d j) ++
  ((List.range 16).map fun j => DRV_STR_MAP_RUN d j) ++
  ((List.range 16).map fun j => DRV_STR_MAP_DIR d j) ++
  ((List.range 16).map fun j => DRV_STR_MAP_SERP d j)

/-- The fields of a LHM page. -/
def fieldsLHM : List Fld :=
  [LHM_CFG_OPEN_EN, LHM_CFG_SHORT_EN, LHM_CFG_AUTO_MASK, LHM_CFG_OPEN_N, LHM_CFG_SHORT_N, LHM_CFG_AGE_UNIT, LHM_CFG_STALE, LHM_CFG_ROW_THR] ++
  [LHM_CFG_COL_THR, LHM_CFG_EVT_MAX, LHM_THRESH_OPEN_MV, LHM_THRESH_SHORT_MV, LHM_PROBE_EN, LHM_PROBE_RETEST, LHM_PROBE_INTERVAL_FR, LHM_PROBE_MAX_LAMPS] ++
  [LHM_PROBE_MIN_AGE, LHM_PROBE_FEED, LHM_PROBE_STAT_NMIN_FR, LHM_PROBE_STAT_BLANK_SHORT, LHM_PROBE_STAT_T_DET, LHM_CMD_BANK, LHM_CMD_ROW, LHM_CMD_CH] ++
  [LHM_CMD_OP, LHM_CMD_GO, LHM_CMD_BUSY, LHM_STAT0_OPEN, LHM_STAT0_SHORT, LHM_STAT0_MASKED, LHM_STAT1_UNVERIFIED, LHM_STAT1_OLDEST] ++
  [LHM_STAT1_ROWS, LHM_STAT1_COLS, LHM_STAT1_SHORT_OFF, LHM_CNT_PROBES, LHM_CNT_NEW_OPEN, LHM_CNT_NEW_SHORT, LHM_CNT1_EVT_DROP, LHM_CNT1_FASTQ_FULL]

/-- The fields of a RCE page. -/
def fieldsRCE : List Fld :=
  [RCE_CTRL_MODE, RCE_CTRL_SUB_DIV, RCE_CTRL_HOLD_LIMIT_MS, RCE_CTRL_REG_T1, RCE_CTRL_REG_T2, RCE_CTRL_REG_T3, RCE_PMB_SPEED, RCE_PMB_PEC] ++
  [RCE_LAW_STAT_MAX_NS, RCE_LAW_STAT_D_EFF] ++
  ((List.range 8).map fun c => RCE_DUTY_DUTY c) ++
  ((List.range 8).map fun k => RCE_LOOP_CFG_KIND k) ++
  ((List.range 8).map fun k => RCE_LOOP_CFG_EN k) ++
  ((List.range 8).map fun k => RCE_LOOP_CFG_CLASS k) ++
  ((List.range 8).map fun k => RCE_LOOP_CFG_SENS k) ++
  ((List.range 8).map fun k => RCE_LOOP_CFG_OUT k) ++
  ((List.range 8).map fun k => RCE_LOOP_CFG_PMB_ADDR k) ++
  ((List.range 8).map fun k => RCE_LOOP_CFG_PMB_PAGE k) ++
  ((List.range 8).map fun k => RCE_LOOP_CFG_SCHED_EN k) ++
  ((List.range 8).map fun k => RCE_LOOP_CFG_RESUME k) ++
  ((List.range 8).map fun k => RCE_LOOP_CFG_MON_TOL k) ++
  ((List.range 8).map fun k => RCE_LOOP_TARGET_SET k) ++
  ((List.range 8).map fun k => RCE_LOOP_TARGET_SS_RATE k) ++
  ((List.range 8).flatMap fun k => (List.range 4).map fun r => RCE_LOOP_GAIN_KP k r) ++
  ((List.range 8).flatMap fun k => (List.range 4).map fun r => RCE_LOOP_GAIN_KI k r) ++
  ((List.range 8).map fun k => RCE_LOOP_MAP_V0_MV k) ++
  ((List.range 8).map fun k => RCE_LOOP_MAP_SLOPE_UV k) ++
  ((List.range 8).map fun k => RCE_LOOP_LIM_CEIL_U k) ++
  ((List.range 8).map fun k => RCE_LOOP_LIM_FLOOR_U k) ++
  ((List.range 8).map fun k => RCE_LOOP_LIM_SAFE_U k) ++
  ((List.range 8).map fun k => RCE_LOOP_PROF_VMAX k) ++
  ((List.range 8).map fun k => RCE_LOOP_PROF_AMAX k) ++
  ((List.range 8).map fun k => RCE_LOOP_PROF_JMAX k) ++
  ((List.range 8).map fun k => RCE_LOOP_PROF_TEST_U k) ++
  ((List.range 8).map fun k => RCE_LOOP_PROF_GO k) ++
  ((List.range 8).map fun k => RCE_LOOP_PROF_RELEASE k) ++
  ((List.range 8).map fun k => RCE_LOOP_STAT_STATE k) ++
  ((List.range 8).map fun k => RCE_LOOP_STAT_REGION k) ++
  ((List.range 8).map fun k => RCE_LOOP_STAT_SAFE_WHY k) ++
  ((List.range 8).map fun k => RCE_LOOP_STAT_SAT k) ++
  ((List.range 8).map fun k => RCE_LOOP_STAT_FB k) ++
  ((List.range 8).map fun k => RCE_LOOP_STAT_OUT_U k) ++
  ((List.range 8).map fun k => RCE_LOOP_STAT_SET_NOW k) ++
  ((List.range 8).map fun k => RCE_LOOP_CNT_OVERRUN k) ++
  ((List.range 8).map fun k => RCE_LOOP_CNT_EMPTY k) ++
  ((List.range 8).map fun k => RCE_LOOP_CNT_HOLDS k) ++
  ((List.range 8).map fun k => RCE_LOOP_CNT_SAFES k) ++
  ((List.range 8).map fun k => RCE_LOOP_CNT_MON k)

/-- The fields of a HKT page. -/
def fieldsHKT : List Fld :=
  [HKT_THRESH_WARN_C, HKT_THRESH_THROTTLE_C, HKT_THRESH_SHUTDOWN_C, HKT_THRESH_ABS_C, HKT_THRESH_HYST_C, HKT_THR_GRACE_MS, HKT_THR_THR_SLOPE, HKT_THR_THR_MIN] ++
  [HKT_THR_THR_RISE, HKT_PAUSE_PAUSE_US, HKT_PAUSE_PAUSE_MAX_US, HKT_STAT_LEVEL, HKT_STAT_HOT, HKT_STAT_T_MAX, HKT_STAT_GRACE_LEFT_MS, HKT_STAT_THR_OUT] ++
  [HKT_STAT_CAP, HKT_STAT_DFAULT, HKT_ROUND_SEC, HKT_ROUND_INDEX, HKT_NTC_R25_0, HKT_NTC_R25_1, HKT_NTC_BETA_0, HKT_NTC_BETA_1] ++
  [HKT_SHUT_STAT_CAUSE, HKT_SHUT_STAT_SENSOR, HKT_SHUT_STAT_MRAM, HKT_SHUT_STAT_FRAME, HKT_SHUT_STAT_VALID, HKT_CNT_WARN, HKT_CNT_THROTTLE, HKT_CNT_SHUTDOWN] ++
  [HKT_CNT_CMP_MISS, HKT_CNT_CAPS] ++
  ((List.range 20).map fun k => HKT_CH_VALUE k) ++
  ((List.range 20).map fun k => HKT_CH_VALID k)

/-- The fields of a STR page. -/
def fieldsSTR : List Fld :=
  [STR_CTRL_EN, STR_CTRL_PERIOD_S, STR_LIM_MAX_STEP_HI, STR_LIM_MAX_STEP_LO, STR_LIM_MAX_STEP_DLY, STR_LIM_MIN_SAMP, STR_LIM_MIN_EDGES, STR_LIM_EYE_GAIN] ++
  [STR_IDX_TARGET, STR_IDX_DIE, STR_IDX_INDEX, STR_DATA_VALUE, STR_DATA_PHASE, STR_DATA_PEND, STR_STAT_TRIM_COUNT, STR_TRIM_LAST_NS] ++
  [STR_TRIM_LAST_SEC, STR_CNT_REFUSED, STR_CNT_STALE, STR_CNT_SKIPPED] ++
  ((List.range 4).map fun t => STR_TCNT_APPLIED t)

/-- The fields of a CCC page. -/
def fieldsCCC : List Fld :=
  [CCC_CORE_STAT_ACTIVE, CCC_CORE_STAT_BIST_FAIL, CCC_CORE_STAT_RETIRED, CCC_CORE_STAT_SPARE, CCC_CORE_STAT_SPARE_VALID, CCC_WDT_EN, CCC_WDT_TMO_MS, CCC_WDT_WDT_CNT] ++
  [CCC_SCHED_AFF_US, CCC_SCHED_WAIT_MAX_MS, CCC_TRACE_EN, CCC_TRACE_FREEZE_ON_ERR, CCC_TRACE_FREEZE, CCC_TRACE_UNFREEZE, CCC_TRACE_MASK, CCC_TRACE_STAT_WPTR] ++
  [CCC_TRACE_STAT_WRAPPED, CCC_TRACE_STAT_FROZEN, CCC_TRACE_STAT_FRAME, CCC_CNT_DISPATCH, CCC_CNT_MIGRATE, CCC_CNT_WAKE_TMO] ++
  ((List.range 8).map fun c => CCC_LOAD_LOAD c)

/-- The fields of a QEN page. -/
def fieldsQEN : List Fld :=
  [QEN_CFG_PSIDE, QEN_DOORBELL_QUEUE, QEN_DOORBELL_TAIL, QEN_CONSUME_QUEUE, QEN_CONSUME_HEAD, QEN_MEM_FREE, QEN_CNT_PROXY_TX, QEN_CNT_PROXY_NAK] ++
  [QEN_CNT_FULL, QEN_CNT_DROP]

/-- The fields of a ARB page. -/
def fieldsARB : List Fld :=
  ((List.range 2).map fun s => ARB_CFG_EN s) ++
  ((List.range 2).map fun s => ARB_CFG_ARBITER s) ++
  ((List.range 2).map fun s => ARB_CFG_PREF s) ++
  [ARB_TIMING_MISS_US, ARB_TIMING_TAKE_MS, ARB_TIMING_REQ_TMO_US, ARB_TIMING_START_MS, ARB_ETH_PEER_IP, ARB_ETH_UDP, ARB_ETH_PORT, ARB_ETH_ETH_EN] ++
  [ARB_REH_INTERVAL_H, ARB_REH_HOLD_S, ARB_REH_GO, ARB_REH_SIDE, ARB_SWAP_APPLY_FRAME, ARB_SWAP_SIDE, ARB_SWAP_GO, ARB_SWAP_TAKE] ++
  ((List.range 2).map fun s => ARB_EPOCH_EPOCH s) ++
  ((List.range 2).map fun s => ARB_EPOCH_ISSUER s) ++
  ((List.range 2).map fun s => ARB_EPOCH_REASON s) ++
  ((List.range 2).map fun s => ARB_EPOCH_ACTIVE s) ++
  ((List.range 2).map fun s => ARB_APPLY_FRAME s) ++
  ((List.range 2).map fun s => ARB_APPLY_PEND s) ++
  ((List.range 2).map fun s => ARB_STAT_STATE s) ++
  ((List.range 2).map fun s => ARB_STAT_PEER_RING s) ++
  ((List.range 2).map fun s => ARB_STAT_PEER_ETH s) ++
  ((List.range 2).map fun s => ARB_STAT_PEER_READY s) ++
  ((List.range 2).map fun s => ARB_STAT_ARB_SEEN s) ++
  ((List.range 2).map fun s => ARB_STAT_ARBITER s) ++
  ((List.range 2).map fun s => ARB_STAT_SEL s) ++
  ((List.range 2).map fun s => ARB_STAT_FALLBACK s) ++
  ((List.range 2).map fun s => ARB_STAT_PEER_AGE_US s) ++
  ((List.range 2).map fun s => ARB_CNT_REQ s) ++
  ((List.range 2).map fun s => ARB_CNT_REFUSED s) ++
  ((List.range 2).map fun s => ARB_CNT_GRANTS s) ++
  ((List.range 2).map fun s => ARB_CNT_TAKEOVERS s) ++
  ((List.range 2).map fun s => ARB_CNT_SWAPS s) ++
  ((List.range 2).map fun s => ARB_CNT_STALE s) ++
  [ARB_TCNT_FALLBACK, ARB_TCNT_NONE, ARB_TCNT_EPOCH_CHG, ARB_REH_STAT_SEC, ARB_REH_STAT_RESULT, ARB_REH_STAT_FAILS]

/-- The fields of a NVS page. -/
def fieldsNVS : List Fld :=
  [NVS_BOOT_STAT_START_NO, NVS_BOOT_STAT_STEP, NVS_BOOT_STAT_LAST_RESET, NVS_BOOT_STAT_ALT, NVS_BOOT_STAT_DEGRADED, NVS_BOOT_STAT_FORCED_DARK, NVS_BOOT_STAT_BOOT_CODE, NVS_BOOT_STAT_WOKE] ++
  [NVS_BOOT_CFG_TARGET, NVS_BOOT_CFG_PATH_CLR, NVS_RST_CTRL_SOFT, NVS_RST_CTRL_KEY] ++
  ((List.range 8).map fun k => NVS_RST_CNT_CNT k) ++
  [NVS_RST_CNT2_CNT_9, NVS_POWER_STATE, NVS_POWER_FRAME, NVS_SLEEP_CFG_WAKE_GPIO, NVS_SLEEP_CFG_WAKE_POL, NVS_SLEEP_CFG_PIN_EN, NVS_SLEEP_CFG_BEACON_EN, NVS_SLEEP_CFG_ALARM_EN] ++
  [NVS_SLEEP_CFG_RAIL_GPIO, NVS_SLEEP_CFG_RAIL_POL, NVS_SLEEP_CFG_RAIL_MS, NVS_ALARM_SEC, NVS_ALARM_NOW, NVS_SAVE_GO, NVS_SAVE_MIRROR_MS, NVS_SAVE_SAVING] ++
  [NVS_SAVE_DIRTY, NVS_GEN_SET_GEN, NVS_GEN_TBL_GEN, NVS_GEN_SET_PREV, NVS_GEN_TBL_PREV, NVS_LEDGER_WPTR, NVS_LEDGER_WRAPPED, NVS_MRAM_RECORDS] ++
  [NVS_MRAM_CE, NVS_MRAM_UE, NVS_MRAM_CUT]

/-- The fields of a UPD page. -/
def fieldsUPD : List Fld :=
  [UPD_SLOT_ACTIVE, UPD_SLOT_PREV_VALID, UPD_SLOT_PROBATION, UPD_SLOT_RECOVERY, UPD_SLOT_SET_FMT, UPD_FLOOR_SEQ_FLOOR, UPD_STAGE_STATE, UPD_STAGE_REASON] ++
  [UPD_STAGE_MISSING, UPD_STAGE_TOTAL, UPD_STAGE_PASS, UPD_STAGE_CID_CID, UPD_STAGE_CID_CID_OTHER, UPD_ACT_STATE, UPD_ACT_ACT_FRAME, UPD_ACT_PEND] ++
  [UPD_ACT_NO_NUMBER, UPD_ACT_NO_EPOCH, UPD_CFG_XFER_RATE, UPD_CFG_PASSES, UPD_CFG_PREP_MS, UPD_CFG_PROB_S, UPD_CFG_KEEP_POLICY, UPD_CFG2_FB_WAIT_MS] ++
  [UPD_CFG2_RELIGHT_FR, UPD_CTRL_CLEAR, UPD_KEYS_ROOT, UPD_KEYS_VALID, UPD_CNT_STALE_SEQ, UPD_CNT_REFUSED, UPD_CNT_CONFLICTS, UPD_CNT_FALLBACKS] ++
  [UPD_CNT_FB_ALONE, UPD_CNT_ABORTS]

/-- The fields of a REC page. -/
def fieldsREC : List Fld :=
  [REC_CTRL_MODE, REC_CTRL_TRIG, REC_CTRL_ARM, REC_CTRL_CAP_EN, REC_CTRL_CAP_SLOTS, REC_CTRL_REPLAY_GO, REC_TRIG_CFG_CODE0, REC_TRIG_CFG_CODE1] ++
  [REC_TRIG_CFG_CODE2, REC_TRIG_CFG_ON_ERR, REC_TRIG_CFG_POST_K, REC_STAT_STATE, REC_STAT_WPTR, REC_STAT_WRAPPED, REC_STAT_CAP_DONE, REC_STAT_DIGEST_DIRTY] ++
  [REC_TRIG_STAT_FRAME, REC_TRIG_STAT_CODE, REC_SREC_BASE, REC_SREC_SIZE_MIB, REC_CNT_MATCH, REC_CNT_DIVERGE, REC_CNT_PRECOND, REC_CNT_TRIGS] ++
  [REC_CNT_SDROP]

/-- The block fields of a page: those at offsets 0x080 upward (Table 02-2). -/
def blockFields : Nat → List Fld
  | 0 => fieldsHIF
  | 1 => fieldsCCC
  | 2 => fieldsQEN
  | 3 => fieldsNVS
  | 4 => fieldsUPD
  | 5 => fieldsHKT
  | 6 => fieldsSTR
  | 7 => fieldsRCE
  | 8 => fieldsWTU
  | 9 => fieldsARB
  | 10 => fieldsREC
  | 16 => fieldsING 0
  | 17 => fieldsING 1
  | 18 => fieldsING 2
  | 19 => fieldsING 3
  | 20 => fieldsFMC
  | 21 => fieldsCMP
  | 22 => fieldsSCL
  | 23 => fieldsIMP
  | 24 => fieldsQP 0
  | 25 => fieldsQP 1
  | 26 => fieldsQLK
  | 32 => fieldsTFS
  | 33 => fieldsLCP
  | 34 => fieldsSCN
  | 35 => fieldsLHM
  | 40 => fieldsDRV 0
  | 41 => fieldsDRV 1
  | 42 => fieldsDRV 2
  | 43 => fieldsDRV 3
  | _ => []

/-- The highest INT_RAW bit each page uses; the bits above it are reserved (R39 and the chapters). -/
def intTop : Nat → Nat
  | 0 => 4
  | 1 => 6
  | 2 => 7
  | 3 => 10
  | 4 => 12
  | 5 => 10
  | 6 => 6
  | 7 => 11
  | 8 => 16
  | 9 => 14
  | 10 => 9
  | 16 => 13
  | 17 => 13
  | 18 => 13
  | 19 => 13
  | 20 => 7
  | 21 => 14
  | 22 => 5
  | 23 => 9
  | 24 => 11
  | 25 => 11
  | 26 => 11
  | 32 => 8
  | 33 => 8
  | 34 => 8
  | 35 => 10
  | 40 => 7
  | 41 => 7
  | 42 => 7
  | 43 => 7
  | _ => 3

/-- Every field of a page. -/
def pageFields (pg : Nat) : List Fld := fieldsBLK pg ++ blockFields pg

/-- The fields of the register at a byte offset of a page. -/
def regFields (pg off : Nat) : List Fld := (pageFields pg).filter fun f => f.off == off

/-- The pages of Table 02-2 that hold a block. -/
def blockPages : List Nat := List.range 11 ++ (List.range 11).map (16 + ·) ++ (List.range 4).map (32 + ·) ++ (List.range 4).map (40 + ·)

end Sys2Proof.Machine
end

