-- ==== Sys2Proof/Machine/Tbl.lean ====
section
/-! DEFINITION. Sparse tables: lists of (key, value) pairs in one canonical form (keys strictly rising, no zero value), in
which an unlisted key reads as zero. They hold the register sets, the 72-bit words of the table windows and the bytes of
frame memory. -/

namespace Sys2Proof.Machine

/-- A sparse table of `w`-bit values. -/
abbrev Tbl (w : Nat) := List (Nat × BitVec w)

/-- The value at a key: zero where the table lists none. -/
def Tbl.get {w : Nat} : Tbl w → Nat → BitVec w
  | [], _ => 0
  | (a, x) :: r, k => if k = a then x else Tbl.get r k

/-- List a value at a key, before the first larger key, in place of an entry of that key. -/
def Tbl.put {w : Nat} : Tbl w → Nat → BitVec w → Tbl w
  | [], k, v => [(k, v)]
  | (a, x) :: r, k, v =>
    if k < a then (k, v) :: (a, x) :: r else if k = a then (k, v) :: r else (a, x) :: Tbl.put r k v

/-- Store a value at a key. Storing zero removes the entry. -/
def Tbl.set {w : Nat} (m : Tbl w) (k : Nat) (v : BitVec w) : Tbl w :=
  if v = 0 then m.filter (fun e => e.1 != k) else m.put k v

/-- Every listed key is above `lo`, the keys rise strictly, and no listed value is zero. -/
def Tbl.wfFrom {w : Nat} : Nat → Tbl w → Bool
  | _, [] => true
  | lo, (a, x) :: r => decide (lo ≤ a) && decide (x ≠ 0) && Tbl.wfFrom (a + 1) r

/-- The canonical form. -/
def Tbl.wf {w : Nat} (m : Tbl w) : Bool := Tbl.wfFrom 0 m

/-- Store consecutive values from a key upward. -/
def Tbl.setMany {w : Nat} (m : Tbl w) (k : Nat) : List (BitVec w) → Tbl w
  | [] => m
  | v :: r => Tbl.setMany (m.set k v) (k + 1) r

/-- Keep the entries whose key satisfies a test. -/
def Tbl.keep {w : Nat} (p : Nat → Bool) (m : Tbl w) : Tbl w := m.filter fun e => p e.1

/-- Read `n` consecutive values from a key upward. -/
def Tbl.slice {w : Nat} (m : Tbl w) (k n : Nat) : List (BitVec w) := (List.range n).map fun i => m.get (k + i)

end Sys2Proof.Machine
end

