-- ==== Sys2Proof/Machine/State.lean ====
section
/-! DEFINITION. The state of the part: every register field (Machine/Fields.lean) in one store, the shadowed sets, the
snapshot copies, the table windows, frame memory, the engines' own state, the queue of waiting commands and the outputs. -/

namespace Sys2Proof.Machine

/-- Output pins and pulses whose driving the spec describes as a step. -/
inductive PinOut where
  | railGpio | hpdIrq | pps | tickOut | trigger | lampsOff | intN
  deriving DecidableEq, Repr

/-- Messages on a network or source port. -/
inductive Net where
  | igmpJoin | igmpLeave | igmpReport | arpReply | auxAck | auxNack | edid | datagram (ip udp : Nat) | ptpDelayReq
  deriving DecidableEq, Repr

/-- Firmware messages of an activation, whose encoding the spec does not give (R311 to R318). -/
inductive FwKind where
  | prepare | vote | commit | armed | abort | relight | ringComplete | confirm | confirmAck | fallbackOrder
  deriving DecidableEq, Repr

/-- How a folio leaves on its lane (R115, R124): the physical lane, 5 for none, the precoder state before it, and whether the lane's levels
are inverted. -/
structure Wire where
  lane : Nat
  pre : Nat
  inv : Bool
  deriving DecidableEq, Repr

/-- What drives a line slot (R202, R204 to R207, R221): the edge step at which it starts, counted from T0; edge steps from
there to the window; the pre-discharge level of each class in mV, while it is on; I_hi of each class in µA / 256; channel, hi and lo
edge steps of each pulse; the channels that a probe drives at I_lo for the 160 ns before the window. -/
structure RowDrive where
  start : Nat
  window : Nat
  discharge : Option (List Nat)
  hi : List Nat
  pulses : List (Nat × Nat × Nat)
  probes : List Nat
  deriving DecidableEq, Repr

/-- The line code of a bank's strings (R211, R212): GCLK cycles of a bit and of the high times of a 0 and a 1, the latch gap in
µs, bits per device. -/
structure StringCode where
  bit : Nat
  t0h : Nat
  t1h : Nat
  latchUs : Nat
  share : Nat
  deriving DecidableEq, Repr

/-- What leaves the part, as the commands send it. -/
inductive Emit where
  /-- A firmware message: to every node of a ring and to its coordinator where `dest` is a ring number, or to a reply queue. -/
  | firmware (kind : FwKind) (dest : Nat) (data : List Nat)
  /-- An event message (R269): its words, and whether it goes to the senders (a tile's) or to queue 0x002. -/
  | event (toSenders : Bool) (words : List Word)
  /-- An MSI-X message (R47). -/
  | msix (vector : Nat)
  /-- A mailbox response (R266): reply queue, MSG_ID, CMD, STATUS and body. -/
  | response (reply id cmd status : Nat) (body : List Word72)
  /-- A message to a queue of another node (R144, R262); the folios of its fragments follow. -/
  | message (dst src id : Nat) (words : List Word72)
  /-- A folio sent on a side (R130), on a lane. -/
  | folio (side : Nat) (f : Folio) (w : Wire)
  /-- A message on a source or Ethernet port. -/
  | net (port : Nat) (kind : Net) (data : List Nat)
  /-- What the part repeats on ALERT_N (R293): levels, high or low, each with its time in µs. -/
  | alert (wave : List (Bool × Nat))
  /-- A pulse or level on a pin. -/
  | pin (p : PinOut) (v : Nat)
  /-- A timed pulse on a pin or GPIO: its start in 2^-16 ns of wall time, its width in ns, and whether its active level is high. -/
  | pulse (p : PinOut) (gpio : Nat) (t : Int) (widthNs : Nat) (high : Bool)
  /-- A line slot of a bank (R206): die, scan line, and what drives it. -/
  | row (die line : Nat) (drive : RowDrive)
  /-- A transmission of a string (R212): die, string, line code, each device's bits, first bit highest. -/
  | string (die j : Nat) (code : StringCode) (devices : List Nat)
  /-- An output word of a rail loop (R232): output 0 to 3 REFOUT, 5 and 6 FAN_PWM. -/
  | rail (output word : Nat)
  /-- A PMBus write (R233): loop, SPEED, whether with PEC, address, PAGE where one precedes it, the word of VOUT_COMMAND. -/
  | pmbus (loop speed : Nat) (pec : Bool) (addr : Nat) (page : Option Nat) (word : Nat)
  /-- A debug SPI answer: status byte and data (R50). -/
  | spi (status : Nat) (data : Word72)
  deriving DecidableEq, Repr

/-- A remote access in flight (R48). -/
structure RaFlight where
  node : Nat
  op : Nat
  id : Nat
  deadline : Nat
  timedOut : Bool
  deriving DecidableEq, Repr

/-- Host interface state beside its registers (R35, R37, R48). -/
structure HostIf where
  /-- Held low halves of register writes: requester, local address, value. -/
  wHold : List (Requester × Nat × Nat)
  /-- Held high halves of register reads. -/
  rHold : List (Requester × Nat × Nat)
  /-- Held low 64 bits of window words: requester, word index, low 64 bits. -/
  winHold : List (Requester × Nat × Nat)
  /-- MSI-X vectors not masked, one bit each. -/
  msixOpen : Word
  /-- Address and data words of the MSI-X table (page 0x3E), by offset / 8; the mask bits are in `msixOpen`. -/
  msixTbl : Tbl 64
  /-- The MSI-X pending-bit array (page 0x3F). -/
  msixPba : Word
  ra : Option RaFlight
  /-- Accesses that ended with TIMEOUT and whose response has not arrived: target node and identifier. -/
  raLate : List (Nat × Nat)
  /-- Identifier of the next remote access. -/
  raSeq : Nat
  /-- The fuse policy locks the debug SPI (R50). -/
  spiLocked : Bool
  /-- The fuse policy forbids remote access (RA_STAT.CODE 8). -/
  remoteForbidden : Bool
  pcieLinkUp : Bool
  pcieRefclk : Bool
  /-- Pages with a snapshot copy in flight (R44). -/
  snapBusy : List Nat
  deriving DecidableEq, Repr

/-- A scheduled commit held by this node (R24). -/
structure Sched where
  frame : Nat
  pages : Nat
  req : Req
  deriving DecidableEq, Repr

/-- Commit state of the pages (R19, R41, R42). -/
structure Commits where
  /-- Page and target of each accepted commit not yet latched. -/
  pend : List (Nat × Nat)
  /-- Pages whose shadow set is latched for the coming tick. -/
  latched : List Nat
  /-- Pages that accepted a commit since their last reset. -/
  done : List Nat
  sched : List Sched
  deriving DecidableEq, Repr

/-- The recorder beside its registers (R321 to R327). -/
structure Rec where
  /-- Word index of the next record in the sender's ring (R327). -/
  sptr : Nat
  /-- The record digest last computed (R324). -/
  digest : Nat
  /-- Words still to write before the ring freezes; none while no trigger runs. -/
  post : Option Nat
  /-- A capture waits for or runs over the next press passes: slots filled so far. -/
  capturing : Option Nat
  /-- The digest walk is running. -/
  walking : Bool
  /-- REC_TRIGGER commands held: target FRAME_NO. -/
  armed : List Nat
  /-- Replay pending: reply envelope. -/
  replayReq : Option Req
  /-- The frame and the feed of each slot captured (R324). -/
  capOf : List (Nat × Nat)
  /-- STATE before the replay that runs, and whether its preconditions hold (R326). -/
  before : Nat
  preOk : Bool
  /-- The fences as a sender's recorder last wrote them (R327). -/
  fences : List Nat
  deriving DecidableEq, Repr

/-! ### Intake (03) -/

/-- State of an intake buffer (R62). A READY buffer with a nonempty `heldFor` is PICKED. -/
inductive BufState where
  | free | filling | ready
  deriving DecidableEq, Repr

/-- An intake buffer (R62, R64). Times are in 2^-16 ns; the stamp is in ns modulo 2^48. -/
structure IngBuf where
  st : BufState
  stamp : Nat
  start : Nat
  done : Nat
  seq : Nat
  crc : Nat
  /-- Frames whose composition holds this buffer by a pick. -/
  heldFor : List Nat
  /-- Active raster of the frame, and in mode 1 how many of its lines are in memory. -/
  width : Nat
  height : Nat
  lines : Nat
  deriving DecidableEq, Repr

def IngBuf.empty : IngBuf := ⟨.free, 0, 0, 0, 0, 0, [], 0, 0, 0⟩

/-- A pick (R65): the buffer, STATE (0 NEW, 1 HELD, 2 NONE), the capture stamp and the source frame sequence. -/
structure IngPick where
  buf : Option Nat
  state : Nat
  stamp : Nat
  seq : Nat
  deriving DecidableEq, Repr

/-- An intake port beside its registers. -/
structure Port where
  bufs : List IngBuf
  /-- BUFN, BUFFMT, BUF_BASE and BUF_STRIDE in force since MODE left 0 (R61). -/
  bufn : Nat
  fmt : Nat
  base : List Nat
  stride : Nat
  /-- The buffer that the frame in progress fills, if one does. -/
  cur : Option Nat
  /-- The frame in progress has lost content (R59, R71). -/
  lost : Bool
  /-- The last frame was refused; the last frame was accepted (R58). -/
  refused : Bool
  accepted : Bool
  /-- The last frame starts, newest first, at most 8 (R58). -/
  starts : List Nat
  /-- Picks hold until the port completes a frame in its new mode (R51). -/
  holdMode : Bool
  pickD : IngPick
  pickS : IngPick
  /-- Source frame sequence (Table 03-5). -/
  seq : Nat
  /-- The trained DisplayPort link: rate and lane codes (R53). -/
  dpRate : Nat
  dpLanes : Nat
  joined : Bool
  deriving DecidableEq, Repr

def Port.reset : Port :=
  { bufs := List.replicate 4 IngBuf.empty, bufn := 3, fmt := 0, base := [0, 0, 0, 0], stride := 0, cur := none, lost := false,
    refused := false, accepted := false, starts := [], holdMode := false, pickD := ⟨none, 2, 0, 0⟩, pickS := ⟨none, 2, 0, 0⟩, seq := 0,
    dpRate := 0, dpLanes := 0, joined := false }

/-! ### Composition (04) -/

/-- A layer's pending descriptor and the latch points it has waited (R83, R84). -/
structure LayerPend where
  layer : Nat
  desc : List Word72
  wait : Nat
  deriving DecidableEq, Repr

/-- The outcome of a flip evaluation, one bit per layer (R83, Table 04-8). -/
structure Flips where
  flipped : Nat
  held : Nat
  dropped : Nat
  deriving DecidableEq, Repr

/-- Where a layer reads: base address, line stride, whether the format is D32, width and height (R78). Handles 0 to 3 name
the current pick of an intake port. -/
structure BufView where
  base : Nat
  stride : Nat
  d32 : Bool
  w : Nat
  h : Nat
  deriving DecidableEq, Repr

/-- An enabled layer of the frame that runs: its descriptor and the buffer it reads, as its latch point left them (R22, R83). -/
structure LayerRun where
  layer : Nat
  desc : List Word72
  buf : Option BufView
  /-- The intermediate buffer of a two-pass layer, and its half completed in the frame before (R91). -/
  interm : Option BufView
  half : Nat
  deriving DecidableEq, Repr

/-- The compositor beside its registers and window. -/
structure Comp where
  pend : List LayerPend
  /-- The enabled layers of the frame that runs. -/
  run : List LayerRun
  /-- Layer and reason of each descriptor refused at the last latch point (Table 04-6). -/
  refused : List (Nat × Nat)
  /-- Layer and FRAME_NO at which its active descriptor took effect. -/
  since : List (Nat × Nat)
  /-- A standby's own outcome at the last latch point, while it waits for the flip log. -/
  own : Option Flips
  /-- Layers whose active descriptor changed at the last latch point, with the old descriptor (Table 05-3). -/
  changed : List (Nat × List Word72)
  /-- CMP registers or region words changed for the coming tick (Table 05-3). -/
  wholeCanvas : Bool
  /-- Layer and half of each intermediate buffer that pass 1 completed last (R91). -/
  halves : List (Nat × Nat)
  /-- The write-back slot each feed writes next (R93). -/
  wbNext : List Nat
  deriving DecidableEq, Repr

/-! ### Imposition (05) -/

/-- A rectangle of canvas pixels, inclusive. -/
structure Rect where
  x0 : Nat
  x1 : Nat
  y0 : Nat
  y1 : Nat
  deriving DecidableEq, Repr

/-- A signature that slice mode has begun and not closed (R111): side, node, feed, the leaf words sent and the leaves they
make, and the last band sent. -/
structure SliceSig where
  side : Nat
  node : Nat
  feed : Nat
  words : List Nat
  leaves : Nat
  row : Nat
  deriving DecidableEq, Repr

/-- What a side has sent in the frame that runs (IMP.LOAD). -/
structure SideLoad where
  folios : Nat
  slack : Option Int
  full : List Nat
  deriving DecidableEq, Repr

/-- The imposition engine beside its registers and window. -/
structure Impo where
  /-- Damage rectangles per feed, of the frame that runs and of the coming one (R105). -/
  rects : List (List Rect)
  rectsNext : List (List Rect)
  /-- FULL is forced for these tiles (side, node) in the frame that runs (R106). -/
  forced : List (Nat × Nat)
  /-- The damage of the coming frame is formed. -/
  formed : Bool
  /-- Tiles that lost leaves in the frame that runs (R113). -/
  lost : List (Nat × Nat)
  /-- NEED_FULL requests received per side, by node bit, and the refresh record in force per side. -/
  need : List Nat
  refMask : List (Option Nat)
  /-- The coming tick starts a new bank; DMG_EN turns on at it. -/
  newBank : Bool
  dmgOn : Bool
  /-- The bank under preparation (R98). -/
  prep : Option Nat
  /-- Leaves not composed in the frame that runs: side, node, feed, leaf (R112). -/
  omitted : List (Nat × Nat × Nat × Nat)
  /-- Signatures sent or closed in the frame that runs: side, node, feed. -/
  sent : List (Nat × Nat × Nat)
  slices : List SliceSig
  /-- Bands that are ready and wait for the rows before them: side, node, feed, row; the last band and when it became ready (R111). -/
  ready : List (Nat × Nat × Nat × Nat)
  lastBand : Option (Nat × Nat × Nat × Nat × Nat)
  /-- When the last folio that each side has been given leaves, in 2^-16 ns (R111); the side served last in the frame (R110). -/
  busy : List Nat
  turn : Option Nat
  /-- The snapshot of the tile status words, by window key (Table 05-3, R44). -/
  statSnap : Tbl 72
  load : List SideLoad
  /-- OVERRUN has been raised in the frame that runs. -/
  overran : Bool
  /-- CRCs of the signatures of the frame that runs, for the sender recorder (R327). -/
  crcs : List Nat
  deriving DecidableEq, Repr

/-! ### Quire sides (06, 07) -/

/-- An announced lane swap (R127): logical lane, the physical lanes it leaves and takes, the sequence at which it applies. -/
structure SwapAnn where
  log : Nat
  leave : Nat
  take : Nat
  seq : Nat
  deriving DecidableEq, Repr

/-- A Quire side beside its registers. -/
structure Side where
  /-- Receive lanes whose last window counted above WEAR_THR (R126). -/
  wearOver : Nat
  /-- SWAP_REQ, as this side's lane-control word names it. -/
  swapReq : Option Nat
  /-- Announcement received, announcement sent, and a request that waits for it (R127). -/
  rxAnn : Option SwapAnn
  txAnn : Option SwapAnn
  txWait : Option Nat
  /-- Logical lane each physical transmit lane carries; 7 none; and how many are in use. -/
  txLog : List Nat
  txAct : Nat
  /-- Link sequence of the next folio sent (R132). -/
  txSeq : Nat
  /-- Precoder state of each transmit and receive lane (R115), and of each lane's training fill. -/
  txPre : List Nat
  rxPre : List Nat
  prbs : List Nat
  /-- LANE_FIX as ADAPT took it, of each lane that started ADAPT with EQ_FIX = 1 (R118): PEAK, DCG. -/
  eqFix : List (Option (Nat × Nat))
  /-- HOLD as the neighbor last showed it, and as this side sends it (R148). -/
  nbHold : Bool
  holdOut : Bool
  /-- Folios that wait for a slot of this side, oldest first (R133): pixel, class 1, this node's own MG and forwarded MG (R147), BUNDLE. -/
  txPix : List Folio
  txC1 : List Folio
  txMg : List Folio
  fwd : List Folio
  txBundle : List Folio
  /-- Deficit round robin of the MG class (R147): whether the forwarded queue has the turn, and the folios left of its quantum. -/
  drrFwd : Bool
  drrLeft : Nat
  /-- Sequence of the folio that comes next in order, once one has come, and the folios that wait for one before them, with their lane and
  forwarding latency (R124). -/
  rxNext : Option Nat
  rxHeld : List (Nat × Folio × Nat)
  /-- Wall time at which the side came up, in 2^-16 ns (R281). -/
  upAt : Nat
  deriving DecidableEq, Repr

def Side.reset : Side :=
  { wearOver := 0, swapReq := none, rxAnn := none, txAnn := none, txWait := none, txLog := [7, 7, 7, 7, 7], txAct := 0, txSeq := 0,
    txPre := [0, 0, 0, 0, 0], rxPre := [0, 0, 0, 0, 0], prbs := List.replicate 5 (2 ^ 31 - 1), eqFix := List.replicate 5 none,
    nbHold := false, holdOut := false, txPix := [], txC1 := [], txMg := [], fwd := [], txBundle := [], drrFwd := false, drrLeft := 0,
    rxNext := none, rxHeld := [], upAt := 0 }

/-- A message under reassembly (R145): source queue, MSG_ID, destination queue, next fragment, body so far. -/
structure FragMsg where
  srcQn : Nat
  id : Nat
  dst : Nat
  next : Nat
  body : List Word72
  deriving DecidableEq, Repr

/-- A message relayed for the partner sender (R146): the MSG_ID it has on this side, its target, the SRC_QN and MSG_ID it came with. -/
structure Relay where
  id : Nat
  node : Nat
  srcQn : Nat
  srcId : Nat
  deriving DecidableEq, Repr

/-- The link layer beside its registers. -/
structure Link where
  frags : List FragMsg
  /-- Messages relayed for the partner, newest first. -/
  relays : List Relay
  /-- A walk of node 0 has come since this tile's start or since its side toward it last went down (R143). -/
  walked : Bool
  /-- Sides on which a walk waits for its result (R141). -/
  walks : List Nat
  /-- MISMATCH counts per feed since the last collation event, whether one is due, and the frame of the last (R153). -/
  collSince : List Nat
  collDue : Bool
  collSent : Option Nat
  deriving DecidableEq, Repr

/-! ### Wall time (08) -/

/-- A timebase (R155): T0 as seconds, ns and fraction; latch lead in µs; F − 1; rate. -/
structure Timebase where
  sec : Nat
  ns : Nat
  frac : Nat
  lUs : Nat
  fM1 : Nat
  num : Nat
  den : Nat
  deriving DecidableEq, Repr

/-- What a side's TIME folios carry of a root (Table 08-2, word 4). -/
structure RootInfo where
  node : Nat
  ring : Nat
  qual : Nat
  hops : Nat
  poison : Bool
  src : Nat
  deriving DecidableEq, Repr

/-- Time exchange on a Quire side (R165, R166). Times are in 2^-16 ns. -/
structure TimeLink where
  /-- TX stamp, RX stamp and SEQ of the last TIME folio received on this side. -/
  last : Option (Nat × Nat × Nat)
  /-- Link delays and offsets of the last exchanges, newest first, at most 16. -/
  delays : List Int
  offsets : List Int
  outliers : Nat
  /-- Exchanges left in which only frequency is corrected (R167). -/
  settle : Nat
  /-- The root this side's neighbor follows, while it is heard. -/
  root : Option RootInfo
  /-- The timebase, pending switch and gate record it last carried. -/
  tb : Option Timebase
  deriving DecidableEq, Repr

def TimeLink.reset : TimeLink := ⟨none, [], [], 0, 0, none, none⟩

/-- A PTP slot beside its registers (R162): the master it follows, a Sync whose Follow_Up is awaited (sequence, receive stamp), the last
receive stamp less its origin, the mean path delay, the Delay_Req whose answer is awaited, and the sequence of the next one. -/
structure PtpSlot where
  best : Option PtpMaster
  sync : Option (Nat × Nat)
  down : Option Int
  path : Option Int
  req : Option Nat
  seq : Nat
  deriving DecidableEq, Repr

def PtpSlot.reset : PtpSlot := ⟨none, none, none, none, none, 0⟩

/-- A pending timebase switch (R157). -/
structure TbSwitch where
  frame : Nat
  tb : Timebase
  deriving DecidableEq, Repr

/-- A gate record (Table 08-2, word 12). -/
structure Gate where
  frame : Nat
  hold : Bool
  active : Bool
  deriving DecidableEq, Repr

/-- The Wall Time Unit beside its registers. -/
structure Wtu where
  /-- Wall time at the last command that read it, in 2^-16 ns: WT_SEC, WT_NS, WT_FRAC (R154). -/
  wt : Nat
  /-- The servo (R159, R160, R163): its frequency correction in ns/s, the phase it still has to slew away in 2^-16 ns, when HOLDOVER began,
  since when the offset to an external source has stayed under 1 µs, and the TIME folios in a row with one under 2 ns. -/
  freq : Int
  slew : Int
  holdAt : Nat
  lockSince : Option Nat
  lockRun : Nat
  ptp : List PtpSlot
  links : List TimeLink
  /-- The node has taken a timebase. -/
  hasTb : Bool
  switch : Option TbSwitch
  gate : Option Gate
  /-- Whether the coming tick is held, once decided. -/
  held : Option Bool
  /-- Consecutive held ticks; consecutive in-window edges while reverted; the last FWIN edge; the tick whose window the last
  in-window edge fell in. -/
  heldRun : Nat
  goodEdges : Nat
  fwinLast : Option Nat
  fwinIn : Option Nat
  /-- LOCKED has been reached since start (R160). -/
  wasLocked : Bool
  /-- TOD has been written (R173). -/
  todSet : Bool
  glkLast : Option Nat
  ppsLast : Option Nat
  /-- Last edge of each capture unit. -/
  capLast : List (Option Nat)
  deriving DecidableEq, Repr

def Wtu.reset : Wtu :=
  { wt := 0, freq := 0, slew := 0, holdAt := 0, lockSince := none, lockRun := 0, ptp := [PtpSlot.reset, PtpSlot.reset],
    links := [TimeLink.reset, TimeLink.reset], hasTb := false, switch := none, gate := none, held := none,
    heldRun := 0, goodEdges := 0, fwinLast := none, fwinIn := none, wasLocked := false, todSet := false, glkLast := none,
    ppsLast := none, capLast := List.replicate 8 none }

def Link.reset : Link := { frags := [], relays := [], walked := false, walks := [], collSince := [0, 0, 0, 0], collDue := false, collSent := none }

/-! ### Tile pixel path (09) -/

/-- A signature that a tile has open on a stream (R137 to R140). `use` tells whether its header passed R186; `store` whether
its leaves are written into the sheets. -/
structure OpenSig where
  use : Bool
  store : Bool
  frame : Nat
  feed : Nat
  isPartial : Bool
  p48 : Bool
  slice : Bool
  forced : Bool
  leaves : List Nat
  /-- Words of the SIG_DATA folios received, oldest first; 71 per folio. -/
  words : List Nat
  deriving DecidableEq, Repr

/-- Verdicts of R140. -/
inductive Verdict where
  | verified | truncated | failed
  deriving DecidableEq, Repr

/-- What a stream gave for a feed of the frame that runs: verdict, bitmap, CRC. -/
structure SigResult where
  verdict : Verdict
  map : Nat
  crc : Nat
  deriving DecidableEq, Repr

/-- The Tile Frame Store and Lamp Correction beside their registers and pixel SRAM. -/
structure Tile where
  /-- Leaf maps per feed, bit per leaf: CUR and VALID, and their snapshots at press start (R187, R190). -/
  cur : List Nat
  valid : List Nat
  snapCur : List Nat
  snapValid : List Nat
  /-- Leaves with newer content than their last press used. -/
  fresh : List Nat
  /-- GUT of each feed's last accepted header. -/
  gut : List Nat
  /-- Open signatures per stream, and results per stream and feed in the frame that runs. -/
  sigs : List (Option OpenSig)
  results : List (List (Option SigResult))
  /-- Each stream was lost at some time in the frame that runs (R152). -/
  lost : List Bool
  /-- Frame of each feed's last NEED_FULL request while one is outstanding, and feeds requested in this frame (R188). -/
  needAt : List (Option Nat)
  needNow : Nat
  /-- Leaf maps were cleared since the last tick. -/
  cleared : Bool
  /-- A press pass runs; press start of the coming tick has passed; feeds it presses, the frame it serves, and whether the
  tick of its flip found it unfinished (R190); late leaves of the coming tick. -/
  pressing : Bool
  started : Bool
  pressFeeds : Nat
  serves : Nat
  overrun : Bool
  late : Nat
  /-- Feeds whose next plane is finished and has not flipped, and the plane (0 or 1) that each feed shows, one bit per feed. -/
  finished : Nat
  showing : Nat
  /-- Window writes queued during a press (R185), oldest first. -/
  writeQ : List (Nat × Word72)
  /-- Record words found uncorrectable, which firmware reloads before the next press (Table 09-6). -/
  reload : List Nat
  /-- RESERVE_CLIP has been raised in the frame that runs. -/
  clipRaised : Bool
  deriving DecidableEq, Repr

def Tile.reset : Tile :=
  { cur := [0, 0, 0, 0], valid := [0, 0, 0, 0], snapCur := [0, 0, 0, 0], snapValid := [0, 0, 0, 0], fresh := [0, 0, 0, 0],
    gut := [0, 0, 0, 0], sigs := [none, none], results := [[none, none, none, none], [none, none, none, none]],
    lost := [true, true], needAt := [none, none, none, none], needNow := 0, cleared := true, pressing := false,
    started := false, pressFeeds := 0, serves := 0, overrun := false, late := 0, finished := 0, showing := 0, writeQ := [], reload := [],
    clipRaised := false }

/-! ### Scan (10) -/

/-- A leaf die's bank beside its registers. -/
structure Bank where
  /-- Consecutive underruns (R210). -/
  under : Nat
  /-- A cause that holds the bank off until a tick has passed, or until LIT entry with cause HOST (Table 10-6); 0 none. -/
  wait : Nat
  /-- IREF is open or RIREF too high, and the columns stay off (R203). -/
  irefOff : Bool
  /-- A scan switch is stuck on (R227). -/
  stuck : Bool
  /-- Wall time at which the GCLK PLL last gained lock (R204). -/
  lockAt : Nat
  deriving DecidableEq, Repr

/-- The scan engine beside its registers. -/
structure Scan where
  /-- SCN and DRV values of the plan in force, and of the plan formed for the next interval (R209). -/
  plan : Tbl 64
  next : Tbl 64
  /-- The plan in force, and the next one, are legal; whether the next one was taken from the active set. -/
  ok : Bool
  nextOk : Bool
  fresh : Bool
  /-- The plan in force met FIT. -/
  fit : Bool
  /-- DEPTH and LO_BITS of each feed's showing and next plane (R207). -/
  depth : List (Nat × Nat)
  depthNext : List (Nat × Nat)
  banks : List Bank
  /-- Mapping in force of each bank, as the numbers it was formed from (R201). -/
  maps : List (List Nat)
  /-- CLIP has been raised in the frame that runs (R208). -/
  clipRaised : Bool
  deriving DecidableEq, Repr

/-! ### Lamp health (11) -/

/-- A lamp (R219 to R222): state of Table 11-1, the frame its age counts from, evidence and the kind it counts, passing probes
in a row, its mask, and the frame of its last probe. -/
structure Lamp where
  st : Nat
  since : Nat
  ev : Nat
  evShort : Bool
  passes : Nat
  mask : Bool
  probed : Option Nat
  deriving DecidableEq, Repr

/-- Lamps by key (bank × 49,152 + row × 384 + channel); an unlisted lamp is UNVERIFIED since its bank came up. With them the
frame each bank came up, the row and column faults per bank, and the lamps in each die's suppression table. -/
structure LampMap where
  lamps : List (Nat × Lamp)
  up : List Nat
  rows : List Nat
  cols : List Nat
  /-- Suppressed lamps per die; the mark tells that the press of the coming tick had started at the user-record write. -/
  supp : List (List (Nat × Bool))
  deriving DecidableEq, Repr

/-- Lamp Health beside its registers. -/
structure Health where
  cur : LampMap
  /-- The window's copy of the last tick, the frame and the age unit it was made at (R229). -/
  shown : LampMap
  shownFrame : Nat
  shownUnit : Nat
  /-- Events posted in the frame that runs, per bank (R230). -/
  events : List Nat
  /-- Lamps still to probe in the frame that runs, per bank, and lamps that wait for RETEST. -/
  probes : List (List Nat)
  retest : List Nat
  /-- A command that waits for its die's next line slot: operation and lamp (R228). -/
  cmd : Option (Nat × Nat)
  /-- OPEN_EN, SHORT_EN, OPEN_MV and SHORT_MV in force: they apply at the next tick. -/
  openEn : Bool
  shortEn : Bool
  openMv : Nat
  shortMv : Nat
  /-- Edge steps on, and in all, of each class in the frame that runs (R236). -/
  dutyOn : List Nat
  dutyAll : List Nat
  /-- Least headroom per class in the sub-period that runs, per die (R234). -/
  hdrm : List (List (Option Nat))
  deriving DecidableEq, Repr

/-! ### Rail control (12) -/

/-- A rail loop beside its registers (R232 to R240). -/
structure Loop where
  /-- Output at RUN entry, in millionths of the output unit; integrator in 1/64 of it. -/
  base : Int
  integ : Int
  /-- The set-point in use, in 10^-9 of its unit. -/
  setNano : Nat
  /-- Consecutive valid samples; time since the first of the empty samples without a valid one, and time in HOLD while lit, in
  2^-16 ns (R239). -/
  valid : Nat
  emptyT : Nat
  holdT : Nat
  /-- Consecutive overruns, PMBus failures and rounds that disagree; a PMBus write is sent and has not failed. -/
  overs : Nat
  pmb : Nat
  pmbSent : Bool
  mon : Nat
  /-- RESUME has been written in SAFE. -/
  resume : Bool
  /-- The loop has written a word since power-on reset. -/
  written : Bool
  /-- A profile runs to its target (R238): its position, its change and the change of that per 0.1 ms, in 1/16,000 of the unit. -/
  moving : Bool
  pos : Int
  vel : Int
  acc : Int
  /-- Least headroom of the sub-periods completed since the last sample, and whether one completed. -/
  fb : Option Nat
  fbDone : Bool
  deriving DecidableEq, Repr

def Loop.reset : Loop :=
  { base := 0, integ := 0, setNano := 0, valid := 0, emptyT := 0, holdT := 0, overs := 0, pmb := 0, pmbSent := false, mon := 0, resume := false,
    written := false, moving := false, pos := 0, vel := 0, acc := 0, fb := none, fbDone := false }

/-- The Rail Control Engine beside its registers. -/
structure Rail where
  loops : List Loop
  /-- Words not yet sent over PMBus: loop, word; and the loop served last. -/
  pmbus : List (Nat × Nat)
  served : Nat
  /-- Region of each lamp class (R236). -/
  regions : List Nat
  deriving DecidableEq, Repr

/-! ### Housekeeping and Self-Trim (13) -/

/-- A staged trim value (R254, R255): item, value, and whether it waits behind the latch point of the coming tick. -/
structure Staged where
  key : Nat
  val : BitVec 8
  late : Bool
  deriving DecidableEq, Repr

/-- Housekeeping and Self-Trim beside their registers. -/
structure House where
  /-- Consecutive invalid and valid rounds of each diode, and its last valid reading. -/
  bad : List Nat
  good : List Nat
  lastT : List Nat
  /-- Wall time of the last round's start. -/
  roundAt : Nat
  /-- The level in force of 0 normal, 1 WARN, 2 THROTTLE, and whether the grace has expired or was skipped since THROTTLE was
  entered (R244, R247). -/
  level : Nat
  graceOver : Bool
  /-- Thermal shutdown holds; thermal STANDBY has been entered; the 135 °C comparator has tripped in it (R250 to R252). -/
  shut : Bool
  standby : Bool
  absHeld : Bool
  /-- The trip was recorded in SHUT_STAT; the power state before it; cool rounds since. -/
  recorded : Bool
  prior : Nat
  cool : Nat
  /-- Trim deltas by item, staged values, and the wall time of each item's last host write. -/
  trim : Tbl 8
  staged : List Staged
  hostAt : List (Nat × Nat)
  deriving DecidableEq, Repr

def House.reset : House :=
  { bad := [0, 0, 0, 0, 0], good := [0, 0, 0, 0, 0], lastT := [0, 0, 0, 0, 0], roundAt := 0, level := 0, graceOver := false, shut := false,
    standby := false, absHeld := false, recorded := false, prior := 1, cool := 0, trim := [], staged := [], hostAt := [] }

def LampMap.reset : LampMap :=
  { lamps := [], up := [0, 0, 0, 0], rows := [0, 0, 0, 0], cols := [0, 0, 0, 0], supp := [[], [], [], []] }

def Health.reset : Health :=
  { cur := LampMap.reset, shown := LampMap.reset, shownFrame := 0, shownUnit := 1024, events := [0, 0, 0, 0],
    probes := [[], [], [], []], retest := [], cmd := none, openEn := true, shortEn := true, openMv := 150, shortMv := 400,
    dutyOn := [0, 0, 0, 0], dutyAll := [0, 0, 0, 0],
    hdrm := List.replicate 4 [none, none, none, none] }

/-! ### Start, power and MRAM (16) -/

/-- A POWER request accepted and not yet in effect (R298): target state, the tick it takes effect at, its mailbox envelope, and
whether it is held until R161 permits LIT. -/
structure PowerReq where
  target : Nat
  frame : Nat
  req : Option Req
  held : Bool
  deriving DecidableEq, Repr

/-- The start sequence, the MRAM and its writer, beside the NVS registers. -/
structure Nvs where
  /-- Settings and tables generations 0 and 1, those with their marker (R302): field values, pixel SRAM words. -/
  setGens : List (Option (Tbl 64))
  tblGens : List (Option (Tbl 72))
  /-- Policy generation last saved, and the settings written in probation (R315). -/
  policySaved : List PolicyTable
  probation : Option (Tbl 64)
  /-- Policy tables in force, and those accepted with the tick they apply at (R270). -/
  policy : List PolicyTable
  policyNext : List (PolicyTable × Nat)
  /-- Factory records, by pixel SRAM word (Table 16-9). -/
  factory : Tbl 72
  /-- Aging journal slots 0 and 1 with their marker: header FRAME_NO and words (R196). -/
  ageSlots : List (Option (Nat × Tbl 72))
  /-- Header FRAME_NO of an aging save begun in the inactive slot and not completed. -/
  ageHead : Option Nat
  /-- Multi-record operations of the writer, the running one first (R301): 0 settings, 1 tables, 2 policy, 3 aging. -/
  ops : List Nat
  /-- A journal record is being written. -/
  recBusy : Bool
  /-- The boot ledger (Table 16-4), by record index. -/
  ledger : Tbl 72
  /-- Failure counts (R291), by 4 × step + path. -/
  fails : Tbl 2
  /-- The path of the step in progress; the step and path whose begin record has no end record (R295). -/
  path : Nat
  begun : Option (Nat × Nat)
  /-- The part is in safe reset (R293); a step restart is due (R292); the start uses the latched BOOTSEL (R294). -/
  safe : Bool
  restartDue : Bool
  bootsel : Bool
  /-- QREFCLK is missing, and the part waits in reset (R334). -/
  clockLost : Bool
  /-- A POWER request waits for its tick, and a soft-scope reset of a kind for its saves (R297). -/
  power : Option PowerReq
  softKind : Option Nat
  /-- TARGET or POWER asks for LIT and the part waits in DARK for R161 and R214 (R298). -/
  litWait : Bool
  /-- Cores that failed BIST at the previous start (R256). -/
  bistBefore : Nat
  /-- The cores mapped at the previous start (0 before the first). -/
  coreMap : Nat
  /-- Records cut without their commit marker since step 3 last counted them (R301). -/
  cuts : Nat
  deriving DecidableEq, Repr

def Nvs.reset : Nvs :=
  { setGens := [none, none], tblGens := [none, none], policySaved := [], probation := none, policy := [], policyNext := [],
    factory := [], ageSlots := [none, none], ageHead := none, ops := [], recBusy := false, ledger := [], fails := [], path := 0, begun := none,
    safe := false, restartDue := false, bootsel := false, clockLost := false, power := none, softKind := none, litWait := false, bistBefore := 0, coreMap := 0, cuts := 0 }

/-! ### Redundancy (15) -/

/-- A rehearsal that runs (R285): its envelope, the tick its swap applies at, and what this sender has seen of the new active one since then:
a kettle with STATE ACTIVE on the ring path, a PICK_SELF, FLIP_SELF or REFRESH_SELF count, a COLLATION event with a nonzero count. -/
structure Reh where
  req : Option Req
  apply : Nat
  acted : Bool
  selfs : Bool
  coll : Bool
  deriving DecidableEq, Repr

/-- The redundancy state of a side beside its registers. Times are in 2^-16 ns. -/
structure ArbSide where
  /-- Last partner kettle on the ring path and on the Ethernet path, and its STATE. -/
  ringAt : Option Nat
  ethAt : Option Nat
  partner : Nat
  /-- Since when both paths have had no gap and every record was followed (Table 15-1, READY). -/
  goodSince : Option Nat
  /-- Last response from the arbiter, and last REFUSED (R282). -/
  arbAt : Option Nat
  refusedAt : Option Nat
  /-- The last EPOCH_REQ sent: its MSG_ID and its instant (R280). -/
  asked : Option (Nat × Nat)
  /-- Sequence of the next kettle. -/
  seq : Nat
  /-- The epoch in effect (R274). -/
  eff : Nat
  /-- Last kettle of the sender at node 0 and at node 63, with its MISS_US (R281). -/
  heard : List (Option (Nat × Nat))
  /-- Requests the arbiter holds, with their epoch. -/
  held : List (Req × Nat)
  reh : Option Reh
  /-- When the last COLLATION event with a nonzero count arrived. -/
  collAt : Option Nat
  deriving DecidableEq, Repr

def ArbSide.reset : ArbSide :=
  { ringAt := none, ethAt := none, partner := 0, goodSince := none, arbAt := none, refusedAt := none, asked := none, seq := 0, eff := 0,
    heard := [none, none], held := [], reh := none, collAt := none }

/-! ### Update (17) -/

/-- A component of a bundle (Table 17-2): TYPE, OFFSET and LENGTH in bytes, VERSION, the SHA-384 that its bytes must have. -/
structure Component where
  typ : Nat
  off : Nat
  len : Nat
  ver : Nat
  digest : Nat
  deriving DecidableEq, Repr

/-- A bundle's colophon (Table 17-1), with its CID and the SHA-384 that its signature is over. -/
structure Colophon where
  cid : BitVec 32
  seq : Word
  hwType : BitVec 32
  stepMin : BitVec 8
  stepMax : BitVec 8
  unitBound : Bool
  recovery : Bool
  floor : Bool
  unitId : Word
  keySlot : BitVec 8
  fwVer : BitVec 32
  setFmt : BitVec 16
  setMin : BitVec 16
  comps : List Component
  pubkey : Nat
  sig : Nat
  hash : Nat
  deriving DecidableEq, Repr

/-- A bundle that a sender sends (R307, R308): where it lies in frame memory, the sides, the pass, its colophon's CID and SEQ,
its folio count, and whether a node has reported missing folios. -/
structure BundleSend where
  addr : Nat
  len : Nat
  sides : Nat
  pass : Nat
  more : Bool
  cid : Nat
  seq : Nat
  total : Nat
  deriving DecidableEq, Repr

/-- An activation that this part coordinates (R311 to R316), as the wall coordinator or, with `wall` false, as a ring coordinator
alone. `rings` and `ringsReady`, `ringsDone` are masks of ring numbers; `nodes`, `ready`, `activated` hold one node mask per side that
this part coordinates (0 for a side it does not). `phase`: 0 PREPARE, 1 COMMIT sent, 2 the commit stands, 3 RELIGHT sent. -/
structure Coord where
  wall : Bool
  req : Option Req
  cid : Nat
  num : Nat
  c : Nat
  named : Bool
  rings : Nat
  nodes : List Nat
  phase : Nat
  ready : List Nat
  ringsReady : Nat
  activated : List Nat
  ringsDone : Nat
  deriving DecidableEq, Repr

/-- A confirmation under way (R316): its envelope, node masks per side that have acknowledged, rings that have. -/
structure Confirming where
  req : Option Req
  nodes : List Nat
  rings : Nat
  deriving DecidableEq, Repr

/-- Firmware update beside its registers. -/
structure Upd where
  /-- The words of each firmware slot of the MRAM that the part has written (Table 16-9). -/
  slots : List (Tbl 72)
  /-- The colophon of the firmware that runs. -/
  running : Option Colophon
  /-- Enrolled keys 1 to 4 (0 none), and the key each slot last revoked. -/
  keys : List Nat
  revoked : List Nat
  /-- The accepted colophon of the bundle being staged; the CID, mask and words of the colophon folios held; folios stored; folios in
  the store FIFO, with their words; CIDs refused by a conflict, with their SEQ. -/
  col : Option Colophon
  colCid : Nat
  colGot : Nat
  colWords : Tbl 72
  got : Nat
  fifo : List (Nat × List Word72)
  /-- Whether one of the two records of the folio at the FIFO's head is written, and whether the writer's next record is a
  folio's (R301). -/
  half : Bool
  turn : Bool
  barred : List (Nat × Nat)
  sending : Option BundleSend
  coord : Option Coord
  /-- The last ACTIVATE, COMMIT and confirmation: the CID activated; the node waits for RELIGHT or a fallback order. -/
  actCid : Nat
  relight : Bool
  /-- Tick of a collective fallback ordered, and the reason of an outstanding fallback request (0 none). -/
  fbAt : Option Nat
  fbWhy : Nat
  /-- A confirmation under way: its envelope and the nodes that have acknowledged. -/
  confirming : Option Confirming
  peers : List (BitVec 32 × BitVec 6)
  /-- A DISARMED event has reached this coordinator (R314). -/
  heardDisarm : Bool
  /-- The MRAM header: active slot, previous slot kept, probation; formats of settings generations 0 and 1 (R300, R315). -/
  active : Nat
  prevValid : Bool
  probation : Bool
  fmts : List Nat
  /-- The firmware that runs started in probation; tick C or F of the last activation or fallback; the failover timers are
  suspended and the epoch is kept from one tick until before another (R313). -/
  trial : Bool
  actFrame : Nat
  susFrom : Nat
  susUntil : Nat
  deriving DecidableEq, Repr

def Upd.reset : Upd :=
  { slots := [[], []], running := none, keys := [0, 0, 0, 0], revoked := [0, 0, 0, 0], col := none, colCid := 0, colGot := 0, colWords := [], got := 0,
    fifo := [], half := false, turn := false, barred := [], sending := none, coord := none, actCid := 0, relight := false, fbAt := none, fbWhy := 0,
    confirming := none, peers := [], heardDisarm := false, active := 0, prevValid := false, probation := false, fmts := [0, 0],
    trial := false, actFrame := 0, susFrom := 0, susUntil := 0 }

/-! ### Reset values of the other engines -/

def HostIf.reset : HostIf :=
  { wHold := [], rHold := [], winHold := [], msixOpen := 0, msixTbl := [], msixPba := 0, ra := none, raLate := [], raSeq := 0,
    spiLocked := false, remoteForbidden := false, pcieLinkUp := false, pcieRefclk := true, snapBusy := [] }

def Commits.reset : Commits := ⟨[], [], [], []⟩

def Rec.reset : Rec :=
  { sptr := 0, digest := 0, post := none, capturing := none, walking := false, armed := [], replayReq := none, capOf := [],
    before := 0, preOk := false, fences := List.replicate 64 0 }

def Comp.reset : Comp :=
  { pend := [], run := [], refused := [], since := [], own := none, changed := [], wholeCanvas := false, halves := [], wbNext := [0, 0, 0, 0] }

def Impo.reset : Impo :=
  { rects := [[], [], [], []], rectsNext := [[], [], [], []], forced := [], formed := false, lost := [],
    need := [0, 0], refMask := [none, none], newBank := false, dmgOn := false, prep := none, omitted := [], sent := [],
    slices := [], ready := [], lastBand := none, busy := [0, 0], turn := none, statSnap := [], load := [⟨0, none, []⟩, ⟨0, none, []⟩], overran := false, crcs := [] }

def Rail.reset : Rail := { loops := List.replicate 8 Loop.reset, pmbus := [], served := 7, regions := [0, 0, 0, 0] }

/-! ### Control plane (14) -/

/-- A scheduled commit that this sender coordinates (R24, R267): target, pages, named nodes, nodes armed. -/
structure SchedCoord where
  req : Req
  frame : Nat
  pages : Nat
  nodes : Nat
  armed : Nat
  deriving DecidableEq, Repr

/-- A firmware task (R263): its identifier, its priority, and the logical core that last ran it. -/
structure Task where
  id : Nat
  prio : Nat
  core : Nat
  deriving DecidableEq, Repr

/-- A ready task that waits for the core that last ran it, and the scheduler tick until which it does (AFF_US). -/
structure Ready where
  task : Task
  until_ : Nat
  deriving DecidableEq, Repr

/-- A task that waits on a queue, and the tick of its time-out (R264). -/
structure QWait where
  task : Task
  qn : Nat
  until_ : Nat
  deriving DecidableEq, Repr

/-- The hardware scheduler (R263): its tick in µs, the task each logical core runs, ready tasks in the order in which they became
ready, delayed tasks by wake time, waits, and the µs each core was busy since the last housekeeping round. -/
structure TaskSched where
  now : Nat
  run : List (Option Task)
  ready : List Ready
  delayed : List (Nat × Task)
  waits : List QWait
  busy : List Nat
  deriving DecidableEq, Repr

def TaskSched.reset : TaskSched :=
  { now := 0, run := [none, none, none, none, none, none, none], ready := [], delayed := [], waits := [], busy := [0, 0, 0, 0, 0, 0, 0] }

/-- The control plane beside its registers and queues. -/
structure Ctl where
  tasks : TaskSched
  coords : List SchedCoord
  /-- Scheduled commits that have applied, for a CANCEL that comes too late (R24). -/
  past : List Sched
  /-- Events lost at queue 0x002 since the last EVT_OVERFLOW event (R261). -/
  lost : Nat
  deriving DecidableEq, Repr

def Ctl.reset : Ctl := ⟨TaskSched.reset, [], [], 0⟩

/-! ### Outcomes of a command -/

/-- Why the machine stops with a fault. No command of this part stops so: the spec gives each one an effect. -/
inductive Fault where
  /-- Raised by nothing. Safe. -/
  | none
  deriving DecidableEq, Repr

/-- Why a command has no meaning. -/
inductive Refusal where
  /-- Raised by an arm of exec that has no meaning yet. Safe. -/
  | notModelled (mnemonic : String)
  deriving DecidableEq, Repr

/-- The state of the part. -/
structure State where
  /-- Every register field's current (active) value, keyed by Fld.key. -/
  live : Tbl 64
  /-- The shadow, latched and latest committed values of RWS fields (R41, R42). -/
  shadow : Tbl 64
  latched : Tbl 64
  committed : Tbl 64
  /-- The snapshot copies (R44). -/
  snapd : Tbl 64
  /-- The table windows: 72-bit words keyed by BAR2 offset / 16 (R37). Pixel SRAM word a has key 0x60_0000 + a. -/
  win : Tbl 72
  /-- Shadow, latched and latest committed words of the double-buffered windows. -/
  winShadow : Tbl 72
  winLatched : Tbl 72
  winCommitted : Tbl 72
  /-- Words whose stored bits have an uncorrectable error (R37). -/
  ue : List Nat
  /-- Frame memory, by byte address. -/
  mem : Tbl 8
  host : HostIf
  /-- The intake ports ING0 to ING3. -/
  ports : List Port
  /-- A pick log record for the coming tick has been followed (R68, R69). -/
  pickFollowed : Bool
  /-- Sequence number of the next pick, flip and refresh record sent. -/
  pickSeq : Nat
  flipSeq : Nat
  refSeq : Nat
  comp : Comp
  imp : Impo
  /-- Quire sides A and B. -/
  sides : List Side
  link : Link
  wtu : Wtu
  tile : Tile
  scan : Scan
  health : Health
  rail : Rail
  house : House
  ctl : Ctl
  arb : List ArbSide
  upd : Upd
  nvs : Nvs
  commits : Commits
  /-- The event counters of crossings whose destination is held in reset (R25): by crossing × 256 + destination page. -/
  xing : Tbl 16
  /-- The latch point of the coming tick has passed. -/
  latchDone : Bool
  /-- Sequence number of the next event of this source (R269). -/
  evtSeq : Nat
  /-- EVENT_MASK in force (Table 14-4). -/
  evtMask : Word
  /-- CID of the running bundle (R305). -/
  runCid : BitVec 32
  recd : Rec
  /-- The commands that wait, first in, first out. -/
  pending : List Instr
  /-- What the part has sent, newest first. -/
  out : List Emit
  /-- The model's own: how many free values have been drawn. -/
  freeCtr : Nat
  deriving DecidableEq, Repr

/-! ### Reset -/

/-- Every field of every page. -/
def allFields : List Fld := blockPages.flatMap pageFields

/-- The reset values that are not zero (R38), by field key. -/
def resetTbl : Tbl 64 :=
  (allFields.filter fun f => f.rst != 0).foldl (fun t f => t.set f.key (BitVec.ofNat 64 f.rst)) []

/-- The reset values of the shadowed registers. -/
def resetShadow : Tbl 64 :=
  (allFields.filter fun f => f.rst != 0 && f.acc == .rws).foldl (fun t f => t.set f.key (BitVec.ofNat 64 f.rst)) []

/-- The scan engine at reset: a plan of the reset values, not yet formed, so not legal (notes/assumptions/40.md). -/
def Scan.reset : Scan :=
  { plan := resetTbl.filter (fun e => decide (0x21 * 262144 ≤ e.1)), next := resetTbl.filter (fun e => decide (0x21 * 262144 ≤ e.1)),
    ok := false, nextOk := false, fresh := false, fit := false, depth := List.replicate 4 (18, 0),
    depthNext := List.replicate 4 (18, 0), banks := List.replicate 4 ⟨0, 0, false, false, 0⟩, maps := [[], [], [], []],
    clipRaised := false }

/-- The part right after reset: each register at the reset value its table gives, role TILE, no start step begun, memory and
windows with nothing listed. Values the spec does not give are named in notes/assumptions. -/
def State.reset : State :=
  { live := resetTbl, shadow := resetShadow, latched := resetShadow, committed := resetShadow, snapd := [], win := [],
    winShadow := [], winLatched := [], winCommitted := [], ue := [], mem := [], host := HostIf.reset,
    ports := List.replicate 4 Port.reset, pickFollowed := false, pickSeq := 0, flipSeq := 0, refSeq := 0, comp := Comp.reset,
    imp := Impo.reset, sides := [Side.reset, Side.reset], link := Link.reset, wtu := Wtu.reset, tile := Tile.reset,
    scan := Scan.reset, health := Health.reset, rail := Rail.reset, house := House.reset,
    ctl := Ctl.reset, arb := [ArbSide.reset, ArbSide.reset], upd := Upd.reset, nvs := Nvs.reset, commits := Commits.reset, xing := [], latchDone := false,
    evtSeq := 0, evtMask := 0xFFFFFFFFFFFFFFFF, runCid := 0, recd := Rec.reset, pending := [], out := [], freeCtr := 0 }

end Sys2Proof.Machine
end

