-- ==== Sys2Proof/Machine/Ops.lean ====
section
/-! DEFINITION. The named operations over the registers, the windows, frame memory and the outputs. Every meaning reads and
writes the state through them. -/

namespace Sys2Proof.Machine

/-! ### Registers -/

/-- The current (active) value of a field. -/
def State.rd (s : State) (f : Fld) : Nat := (s.live.get f.key).toNat

/-- Give a field a value, cut to its width. -/
def State.wr (s : State) (f : Fld) (v : Nat) : State :=
  { s with live := s.live.set f.key (BitVec.ofNat 64 (v % 2 ^ f.w)) }

/-- Whether a one-bit field is 1. -/
def State.on (s : State) (f : Fld) : Bool := s.rd f == 1

/-- Count `n` more in a saturating counter (R45). -/
def State.bumpBy (s : State) (f : Fld) (n : Nat) : State := s.wr f (satAdd f.w (s.rd f) n)

/-- Count one more in a saturating counter. -/
def State.bump (s : State) (f : Fld) : State := s.bumpBy f 1

/-- Apply a change when a condition holds. -/
def State.when (s : State) (c : Bool) (g : State → State) : State := if c then g s else s

/-- Fold a change over a list. -/
def State.each {α : Type} (s : State) (l : List α) (g : State → α → State) : State := l.foldl g s

/-- The shadow value of an RWS field. -/
def State.rdShadow (s : State) (f : Fld) : Nat := (s.shadow.get f.key).toNat

/-- Give an RWS field a shadow value (R20, R39 DIRTY). -/
def State.wrShadow (s : State) (f : Fld) (v : Nat) : State :=
  { s with shadow := s.shadow.set f.key (BitVec.ofNat 64 (v % 2 ^ f.w)) }.wr (SHD_STAT_DIRTY f.page) 1

/-- Give a field a value in every set, as a restore at start does (R302). -/
def State.wrAll (s : State) (f : Fld) (v : Nat) : State :=
  let x := BitVec.ofNat 64 (v % 2 ^ f.w)
  let s1 := s.wr f v
  if f.acc = .rws then
    { s1 with shadow := s1.shadow.set f.key x, latched := s1.latched.set f.key x, committed := s1.committed.set f.key x }
  else s1

/-- num / den as the format of a place holds it: exact where it can be, else one of the two values beside it (notes/assumptions/2.md). -/
def roundAt (p : Config.Place) (num : Int) (den : Nat) : Int :=
  num / (den : Int) + (if num % (den : Int) = 0 then 0 else if Config.roundsUp p num den then 1 else 0)

/-! ### Roles, time, outputs -/

/-- The latched role (R1): 0 TILE, 1 SENDER, 2 BENCH, 3 invalid. -/
def State.role (s : State) : Nat := s.rd HIF_STRAP_STAT_ROLE
def State.isTile (s : State) : Bool := s.role == 0
def State.isSender (s : State) : Bool := s.role == 1
def State.isBench (s : State) : Bool := s.role == 2

/-- Table 01-2: whether a page holds a block that is active in a role. -/
def pageActive (role pg : Nat) : Bool :=
  let sb := role == 1 || role == 2
  let tb := role == 0 || role == 2
  if pg ≤ 10 then true
  else if 0x10 ≤ pg ∧ pg ≤ 0x17 then sb
  else if 0x18 ≤ pg ∧ pg ≤ 0x1A then true
  else if 0x20 ≤ pg ∧ pg ≤ 0x23 then tb
  else if 0x28 ≤ pg ∧ pg ≤ 0x2B then tb
  else false

/-- Whether a page holds a block (Table 02-2). -/
def pageMapped (pg : Nat) : Bool := pageActive 2 pg

/-- Whether a block runs by its own control register: enabled, and its clock not gated (R39). -/
def State.blkOn (s : State) (pg : Nat) : Bool := s.on (BLK_CTRL_EN pg) && !s.on (BLK_CTRL_CGATE pg)

/-- Whether an access finds anything at a page index: a block, or the MSI-X tables in the roles that expose them (R34). -/
def State.pageThere (s : State) (pg : Nat) : Bool :=
  pageMapped pg || ((pg == 0x3E || pg == 0x3F) && pageActive s.role 0x15)

/-- Whether the data path runs: not in STANDBY or SLEEP (Table 16-7), nor in safe reset (R293), nor in a sender that thermal
shutdown has stopped (R250) or whose memory failed at start (Table 16-2). -/
def State.dataOn (s : State) : Bool :=
  decide (s.rd NVS_POWER_STATE ≤ 1) && !s.nvs.safe && !(s.isSender && (s.house.shut || s.rd FMC_MEM_STAT_FAIL != 0))

/-- FRAME_NO of the last tick. -/
def State.frame (s : State) : Nat := s.rd WTU_FRAME_FRAME_NO

/-- The FRAME_NO a commit accepted now takes effect at (R19). -/
def State.commitTarget (s : State) : Nat := s.frame + (if s.latchDone then 2 else 1)

/-- Record an output. -/
def State.send (s : State) (e : Emit) : State := { s with out := e :: s.out }

/-- Between an activation tick and RELIGHT the failover timers are suspended and a node keeps its epoch (R313). -/
def State.suspended (s : State) : Bool := decide (s.upd.susFrom ≤ s.frame ∧ s.frame < s.upd.susUntil)

/-- A Quire side. -/
def State.side (s : State) (sd : Nat) : Side := s.sides.getD sd Side.reset

/-- Change a Quire side. -/
def State.setSide (s : State) (sd : Nat) (x : Side) : State := { s with sides := s.sides.set sd x }

/-! ### Lanes and the lane-control word (Tables 06-2, 06-3) -/

/-- A receive lane's state (Table 06-2): 0 DOWN, 1 ADAPT, 2 ALIGN, 3 VERIFY, 4 UP, 5 RETIRED. -/
def State.lane (s : State) (sd l : Nat) : Nat := s.rd (QP_LANE_STAT_STATE sd l)
def State.setLane (s : State) (sd l v : Nat) : State := s.wr (QP_LANE_STAT_STATE sd l) v
def State.laneUp (s : State) (sd l : Nat) : Bool := s.lane sd l == 4
/-- Logical lane a physical receive lane carries; 7 none. -/
def State.logOf (s : State) (sd l : Nat) : Nat := s.rd (QP_LANE_STAT_LOG sd l)

/-- RX_UP of Table 06-3. -/
def State.rxUp (s : State) (sd : Nat) : Nat := ((List.range 5).filter (s.laneUp sd)).foldl (fun a l => a + 2 ^ l) 0

/-- Number of ones in a five-bit mask. -/
def count5 (m : Nat) : Nat := ((List.range 5).filter fun l => m.testBit l).length

/-- Whether a spare is UP at both ends. -/
def State.spareUp (s : State) (sd : Nat) : Bool :=
  let sp := s.rd (QP_SIDE_STAT_SPARE sd)
  decide (sp < 5) && s.laneUp sd sp && (s.rd (QP_SIDE_STAT_FAR_RX_UP sd)).testBit sp

/-- The receive lane whose replacement a side requests (R126, R127), while it is in use, a spare is UP at both ends and the spare is not
worn: a lane named by hand, else the lowest worn one. -/
def State.swapWish (s : State) (sd : Nat) : Option Nat :=
  let worn := s.rd (QP_SIDE_STAT_LANE_WORN sd)
  let inUse (p : Nat) : Bool := decide (s.logOf sd p < 7)
  if s.spareUp sd = true ∧ worn.testBit (s.rd (QP_SIDE_STAT_SPARE sd)) = false then
    ((s.side sd).swapReq.filter inUse) <|> ((List.range 5).find? fun p => worn.testBit p && inUse p)
  else none

/-- The lane-control word this side sends. -/
def State.laneControl (s : State) (sd : Nat) : Nat :=
  let x := s.side sd
  let ann := x.txAnn.getD ⟨7, 7, 7, 0⟩
  s.rxUp sd + s.rd (QP_SIDE_STAT_LANE_WORN sd) * 2 ^ 5 + (s.swapWish sd).getD 7 * 2 ^ 10 + ann.log * 2 ^ 13 + ann.leave * 2 ^ 16
    + ann.take * 2 ^ 19 + ann.seq % 4096 * 2 ^ 22 + s.rd (QP_SIDE_STAT_RATE sd) * 2 ^ 34
    + x.txAct * 2 ^ 36 + 0xD0 * 2 ^ 64

/-! ### Folios on a side: slots and classes (R132, R133, R147, R148) -/

/-- A folio of a type, stream and node. -/
def mkFolio (typ stream node : Nat) (bcast last ret : Bool) (words : List Nat) : Folio :=
  { typ := BitVec.ofNat 4 typ, stream := BitVec.ofNat 2 stream, node := BitVec.ofNat 6 node, seq := 0, bcast := bcast,
    last := last, ret := ret, hold := false, words := words.map (BitVec.ofNat 72) }

/-- An idle folio of a side, with its lane-control word (R125). -/
def State.idleFolio (s : State) (sd : Nat) : Folio := mkFolio 0 0 0 false false false (s.laneControl sd :: List.replicate 70 0)

/-- Class of a folio (R133): 0 pixel, 1 class 1, 2 MG, 3 BUNDLE. -/
def folioClass (f : Folio) : Nat :=
  let t := f.typ.toNat
  if t = 2 ∨ t = 3 then 0 else if t = 4 ∨ t = 5 then 2 else if t = 9 then 3 else 1

/-- A folio of this node waits for a slot. -/
def Side.enqueue (x : Side) (f : Folio) : Side :=
  match folioClass f with
  | 0 => { x with txPix := x.txPix ++ [f] }
  | 1 => { x with txC1 := x.txC1 ++ [f] }
  | 2 => { x with txMg := x.txMg ++ [f] }
  | _ => { x with txBundle := x.txBundle ++ [f] }

def Side.takePix (x : Side) : Option (Folio × Side) := match x.txPix with | [] => none | f :: r => some (f, { x with txPix := r })
/-- The first folio of class 1 that may leave; a TIME folio leaves on logical lane 0 only (R165). -/
def Side.takeC1 (x : Side) : Option (Folio × Side) :=
  match x.txC1.findIdx? fun f => f.typ != 7 || x.txSeq % max 1 x.txAct == 0 with
  | some i => (x.txC1[i]?).map fun f => (f, { x with txC1 := x.txC1.eraseIdx i })
  | none => none
def Side.takeBundle (x : Side) : Option (Folio × Side) :=
  match x.txBundle with | [] => none | f :: r => some (f, { x with txBundle := r })

/-- The next MG folio (R147, R148): deficit round robin between the local queue, quantum 1, and the forwarded queue, quantum `d`; what one
does not use passes to the other. None leaves while the neighbor shows HOLD. -/
def Side.takeMg (d : Nat) (x : Side) : Option (Folio × Side) :=
  let turn := if x.drrLeft = 0 then !x.drrFwd && d != 0 else x.drrFwd
  let left := (if x.drrLeft = 0 then (if turn then d else 1) else x.drrLeft) - 1
  if x.nbHold then none
  else match x.txMg, x.fwd with
    | [], [] => none
    | f :: r, [] => some (f, { x with txMg := r, drrFwd := turn, drrLeft := left })
    | [], f :: r => some (f, { x with fwd := r, drrFwd := turn, drrLeft := left })
    | f :: r, g :: q =>
      if turn then some (g, { x with fwd := q, drrFwd := turn, drrLeft := left })
      else some (f, { x with txMg := r, drrFwd := turn, drrLeft := left })

/-- The folio that the next slot carries (R133), if one may leave. In one reserved slot of eight BUNDLE goes before MG; which one is the
implementation's. The slots before logical lane 0 carry `idle` while only a TIME folio waits. -/
def Side.slot (d : Nat) (idle : Folio) (x : Side) : Option (Folio × Side) :=
  let rest := if x.txC1.isEmpty then none else some (idle, x)
  if x.txSeq % 16 = 15 then
    let share := if x.txSeq / 16 % 8 = Config.bundleSlot.toNat then x.takeBundle <|> x.takeMg d else x.takeMg d
    x.takeC1 <|> share <|> x.takeBundle <|> x.takePix <|> rest
  else x.takePix <|> x.takeC1 <|> x.takeMg d <|> x.takeBundle <|> rest

/-! ### Line coding (R114, R115, R129, R130) -/

end Sys2Proof.Machine

namespace Sys2Proof

/-- The 28-bit header of a folio (Table 07-1). -/
def Folio.header (f : Folio) : Nat :=
  f.typ.toNat + f.stream.toNat * 2 ^ 4 + f.node.toNat * 2 ^ 6 + f.seq.toNat * 2 ^ 12 + b2n f.bcast * 2 ^ 24 + b2n f.last * 2 ^ 25
    + b2n f.ret * 2 ^ 26 + b2n f.hold * 2 ^ 27

/-- The 5,140 payload bits of a folio, p(0) lowest (R129). -/
def Folio.payload (f : Folio) : Nat :=
  f.header + (f.words.take 71).foldr (fun w a => w.toNat + a * 2 ^ 72) 0 * 2 ^ 28

/-- The 514 message symbols, symbol 0 first (R129). -/
def Folio.message (f : Folio) : List Nat := let p := f.payload; (List.range 514).map fun i => p / 2 ^ (10 * i) % 1024

/-- α times an element of GF(2^10), α^10 = α^3 + 1 (the field of KP4). -/
def gfTimesAlpha (a : Nat) : Nat := if a < 512 then 2 * a else (2 * a) ^^^ 0x409

/-- α^`b` times `a`. -/
def gfShift (a : Nat) : Nat → Nat
  | 0 => a
  | b + 1 => gfTimesAlpha (gfShift a b)

/-- A product in GF(2^10). -/
def gfMul (a b : Nat) : Nat := (List.range 10).foldl (fun r i => if b.testBit i then r ^^^ gfShift a i else r) 0

/-- The generator polynomial of KP4, the product of x − α^j for j = 0 to 29, without its leading term: coefficient of x^29 first. -/
def kp4Gen : List Nat :=
  ((List.range 30).foldl (fun (g : List Nat) j =>
    (g ++ [0]).zipWith (fun a b => a ^^^ gfMul b (gfShift 1 j)) (0 :: g)) [1]).drop 1

/-- The generator's coefficients times α^`b`, packed with ten bits each, that of x^0 lowest. -/
def kp4Row (b : Nat) : Nat := kp4Gen.foldl (fun a g => a * 1024 + gfShift g b) 0

/-- The ten packed multiples of the generator. -/
def kp4Rows : List Nat := (List.range 10).map kp4Row

/-- The 30 parity symbols of a message: the remainder of the division of its polynomial, symbol 0 at the highest power, by the generator;
highest power first (R129). -/
def kp4Parity (m : List Nat) : List Nat :=
  let r := m.foldl (fun r s =>
    let q := (r / 2 ^ 290) ^^^ s
    kp4Rows.zipIdx.foldl (fun a e => if q.testBit e.2 then a ^^^ e.1 else a) (r % 2 ^ 290 * 1024)) 0
  (List.range 30).map fun i => r / 2 ^ (10 * (29 - i)) % 1024

/-- The 544 symbols of a folio's codeword. -/
def Folio.codeword (f : Folio) : List Nat := f.message ++ kp4Parity f.message

/-- The value G of a bit pair (R115). -/
def gray (pair : Nat) : Nat := if pair < 2 then pair else 5 - pair

/-- The 2,720 Gray values of a folio: each symbol's bits from the highest down, in pairs (R114, R115). -/
def Folio.grays (f : Folio) : List Nat :=
  f.codeword.flatMap fun c => [c / 256 % 4, c / 64 % 4, c / 16 % 4, c / 4 % 4, c % 4].map gray

/-- Precoding by 1/(1+D) modulo 4 from state `p`: the values P (R115). -/
def precode (p : Nat) : List Nat → List Nat
  | [] => []
  | g :: r => let q := (g + 4 - p % 4) % 4; q :: precode q r

/-- The state after precoding. -/
def precodeEnd (p : Nat) (g : List Nat) : Nat := g.foldl (fun p g => (g + 4 - p % 4) % 4) p

/-- What the receiver decodes from values P, with the value before them (R115). -/
def unprecode (p : Nat) : List Nat → List Nat
  | [] => []
  | q :: r => (q + p) % 4 :: unprecode q r

/-- The levels of a folio on its lane: 2 P − 3, or the negative on a lane whose levels are inverted. -/
def Folio.levels (f : Folio) (w : Machine.Wire) : List Int :=
  (precode w.pre f.grays).map fun p => if w.inv then 3 - 2 * (p : Int) else 2 * (p : Int) - 3

end Sys2Proof

namespace Sys2Proof.Machine

/-- A folio leaves in the next slot: it takes the side's SEQ and HOLD, and the lane of its sequence, whose precoder runs on (R115, R124,
R132, R148). `inv` is the side's TX_INV. -/
def Side.emit (inv : Nat) (x : Side) (f : Folio) : (Folio × Wire) × Side :=
  let g := { f with seq := BitVec.ofNat 12 x.txSeq, hold := x.holdOut }
  let l := x.txLog.idxOf (x.txSeq % max 1 x.txAct)
  let p := x.txPre.getD l 0
  ((g, ⟨l, p, inv.testBit l⟩), { x with txSeq := (x.txSeq + 1) % 4096, txPre := x.txPre.set l (precodeEnd p g.grays) })

/-- Fill slots, at most `n`, while a folio may leave. -/
def Side.drain (d inv : Nat) (idle : Folio) : Nat → Side → List (Folio × Wire) × Side
  | 0, x => ([], x)
  | n + 1, x => match x.slot d idle with
    | none => ([], x)
    | some (f, y) =>
      let e := y.emit inv f
      let r := e.2.drain d inv idle n
      (e.1 :: r.1, r.2)

/-- Folios that wait on a side. -/
def Side.waiting (x : Side) : Nat := x.txPix.length + x.txC1.length + x.txMg.length + x.fwd.length + x.txBundle.length

/-- Quantum of the forwarded queue of a side (R143, R147). -/
def State.quantum (s : State) (sd : Nat) : Nat :=
  if s.on QLK_DRR_WFIX then s.rd (if sd = 0 then QLK_DRR_WA_FIX else QLK_DRR_WB_FIX)
  else s.rd (if sd = 0 then QLK_DRR_D_A else QLK_DRR_D_B)

/-- Outputs of folios on a side, newest first. -/
def folioOuts (sd : Nat) (l : List (Folio × Wire)) : List Emit := (l.map fun e => Emit.folio sd e.1 e.2).reverse

/-- Slots pass on a side until no waiting folio may leave (R133): the model lets every folio that may leave do so within the command that
queues it (notes/assumptions/37.md). As its forwarded queue falls to 128, HOLD clears toward the other neighbor (R148). -/
def State.pump (s : State) (sd : Nat) : State :=
  let x := s.side sd
  let r := x.drain (s.quantum sd) (s.rd (QP_CFG_TX_INV sd)) (s.idleFolio sd) (4 * x.waiting)
  let y := s.side (1 - sd)
  { s with
    out := folioOuts sd r.1 ++ s.out
    sides := (s.sides.set (1 - sd) { y with holdOut := y.holdOut && decide (128 < r.2.fwd.length) }).set sd r.2 }

/-- Send folios on a side: each waits for a slot, and leaves when it may. -/
def State.sendFolios (s : State) (sd : Nat) (fs : List Folio) : State :=
  (s.setSide sd (fs.foldl Side.enqueue (s.side sd))).pump sd

/-- Send one folio on a side. -/
def State.sendFolio (s : State) (sd : Nat) (f : Folio) : State := s.sendFolios sd [f]

/-- Whether a side is up (R120). -/
def State.sideIsUp (s : State) (sd : Nat) : Bool := s.rd (QP_SIDE_STAT_STATE sd) == 2

/-- Node index of a sender on a side of a ring (R13): node 0 through its side B, node 63 through its side A. -/
def senderNode (sd : Nat) : Nat := if sd = 1 then 0 else 63

/-- Node index of this sender on a side: the single sender of a linear chain is node 0 through the side connected (R13). -/
def State.nodeOn (s : State) (sd : Nat) : Nat := if (s.rd QLK_CFG_LINEAR).testBit sd then 0 else senderNode sd

/-- Stream a sender sends on a side: A from node 0, B from node 63. -/
def State.streamOf (s : State) (sd : Nat) : Nat := if s.nodeOn sd = 0 then 0 else 1

/-- Draw a free value: nothing constrains it. -/
def State.free (s : State) : Nat := (Config.freeValue s.freeCtr).toNat

/-- Advance the free-value counter. -/
def State.drawn (s : State) : State := { s with freeCtr := s.freeCtr + 1 }

/-- Give a field a free value (one the spec leaves open). -/
def State.wrFree (s : State) (f : Fld) : State := (s.wr f s.free).drawn

/-- The node index of this part: TOPO[PSIDE].NODE in SENDER role, TOPO[0].NODE otherwise (R258). -/
def State.node (s : State) : Nat :=
  s.rd (QLK_TOPO_NODE (if s.isSender then s.rd QEN_CFG_PSIDE else 0))

/-- The ring number of this part. -/
def State.ring (s : State) : Nat :=
  s.rd (QLK_TOPO_RING (if s.isSender then s.rd QEN_CFG_PSIDE else 0))

/-- The timebase in use (R155). -/
def State.tb (s : State) : Timebase :=
  { sec := s.rd WTU_TB_T0S_SEC, ns := s.rd WTU_TB_T0NS_NS, frac := s.rd WTU_TB_T0NS_FRAC, lUs := s.rd WTU_TB_T0NS_L_US,
    fM1 := s.rd WTU_TB_T0NS_F_M1, num := s.rd WTU_TB_RATE_NUM, den := s.rd WTU_TB_RATE_DEN }

/-- The timebase that governs tick `n` and its latch point: a pending switch from SW_FRAME on (R157). -/
def State.tbAt (s : State) (n : Nat) : Timebase :=
  match s.wtu.switch with
  | some w => if w.frame ≤ n then w.tb else s.tb
  | none => s.tb

/-- The range of wall time, whose seconds are 64 bits (R154), in 2^-16 ns. -/
def wallRange : Nat := 2 ^ 64 * 1000000000 * 65536

/-- T0 of a timebase, in 2^-16 ns. -/
def Timebase.t0 (b : Timebase) : Nat := (b.sec * 1000000000 + b.ns) * 65536 + b.frac

/-- Time from T0 to tick `n`: floor(n × DEN × 10^9 × 65,536 / NUM) (R155). -/
def Timebase.span (b : Timebase) (n : Nat) : Nat := n * b.den * 1000000000 * 65536 / max 1 b.num

/-- Wall time of tick `n` of a timebase, in 2^-16 ns (R155). A T0 before the epoch, which continuity can ask for (R157), wraps in the 64
bits of its seconds. -/
def Timebase.tick (b : Timebase) (n : Nat) : Nat := (b.t0 + b.span n) % wallRange

/-- The last tick at or before a wall time; 0 before T0. -/
def Timebase.frameAt (b : Timebase) (t : Nat) : Nat :=
  let x := (t + wallRange - b.t0 % wallRange) % wallRange
  if wallRange / 2 ≤ x then 0 else ((x + 1) * max 1 b.num - 1) / (max 1 b.den * 1000000000 * 65536)

/-- Wall time of tick `n` (R16, R154). -/
def State.tickTime (s : State) (n : Nat) : Nat := (s.tbAt n).tick n

/-- Wall time of the start of feed slot `k` of frame `n` (R17): T0 + (n + k / F) × P. -/
def State.feedTime (s : State) (n k : Nat) : Nat :=
  let b := s.tbAt n
  (b.t0 + (n * (b.fM1 + 1) + k) * b.den * 1000000000 * 65536 / (max 1 b.num * (b.fM1 + 1))) % wallRange

/-- Wall time of the latch point of tick `n` (R18). -/
def State.latchTime (s : State) (n : Nat) : Nat := s.tickTime n - (s.tbAt n).lUs * 1000 * 65536

/-- Whether the sender is active on some ring: SOLE or ACTIVE in ARB.STAT on a side (R67, R85, R107). -/
def State.sideActive (s : State) (side : Nat) : Bool :=
  s.rd (ARB_STAT_STATE side) == 0 || s.rd (ARB_STAT_STATE side) == 2
def State.anyActive (s : State) : Bool := s.sideActive 0 || s.sideActive 1

/-! ### Table windows and frame memory -/

/-- A window word. -/
def State.word (s : State) (i : Nat) : Word72 := s.win.get i

/-- Store a window word; a stored word is correctable again. -/
def State.setWord (s : State) (i : Nat) (v : Word72) : State :=
  { s with win := s.win.set i v, ue := s.ue.filter (· != i) }

/-- Key of the window word that maps pixel SRAM word `a` (Table 02-3, R37). -/
def pixKey (a : Nat) : Nat := 0x600000 + a

/-- A pixel SRAM word. -/
def State.pix (s : State) (a : Nat) : Word72 := s.word (pixKey a)

/-- Store a pixel SRAM word. -/
def State.setPix (s : State) (a : Nat) (v : Word72) : State := s.setWord (pixKey a) v

/-- A byte of frame memory. -/
def State.byte (s : State) (a : Nat) : Byte := s.mem.get a

/-- Store consecutive bytes of frame memory. -/
def State.storeBytes (s : State) (a : Nat) (b : List Byte) : State := { s with mem := s.mem.setMany a b }

/-- The bytes of a 72-bit word as R37 lays it out in 16 bytes: bits [63:0] little-endian, then [71:64], then zeros. -/
def wordBytes (v : Word72) : List Byte :=
  (List.range 9).map (fun i => BitVec.ofNat 8 (v.toNat >>> (8 * i))) ++ List.replicate 7 0

/-- The 72-bit word that 9 bytes spell. -/
def bytesWord (b : List Byte) : Word72 :=
  BitVec.ofNat 72 ((b.take 9).foldr (fun x acc => x.toNat + 256 * acc) 0)

/-! ### CRC-32 (R139, R67): polynomial 0x04C11DB7, reflected, initial and final value all ones -/

/-- Eight steps of the reflected CRC-32 register. -/
def crcStep : Nat → Nat → Nat
  | 0, c => c
  | n + 1, c => crcStep n (if c % 2 = 1 then (c >>> 1) ^^^ 0xEDB88320 else c >>> 1)

/-- CRC-32 of a list of bytes. -/
def crc32 (b : List Nat) : Nat :=
  (b.foldl (fun c x => crcStep 8 (c ^^^ (x % 256))) 0xFFFFFFFF) ^^^ 0xFFFFFFFF

/-- The `n` little-endian bytes of a number. -/
def leBytes (n v : Nat) : List Nat := (List.range n).map fun i => (v >>> (8 * i)) % 256

/-! ### Records to the ring and the partner sender (R276) -/

/-- The payload of a datagram to the partner sender: TYPE, ring number, word count, each word as nine bytes. -/
def etherBytes (typ ring : Nat) (ws : List Nat) : List Nat :=
  [typ, ring, ws.length % 256, ws.length / 256] ++ ws.flatMap fun w => leBytes 9 w

/-- A datagram to the partner sender on the management port, from and to UDP port ARB.ETH.UDP, where the Ethernet path is enabled (R276). -/
def State.sendEther (s : State) (typ ring : Nat) (ws : List Nat) : State :=
  if s.on ARB_ETH_ETH_EN then
    s.send (.net (s.rd ARB_ETH_PORT) (.datagram (s.rd ARB_ETH_PEER_IP) (s.rd ARB_ETH_UDP)) (etherBytes typ ring ws))
  else s

/-- Whether what comes by a path is taken: a datagram from the partner's address and port only, where the Ethernet path is enabled (R276). -/
def State.accepts (s : State) (v : Via) : Bool :=
  match v with
  | .ring => true
  | .datagram src udp => s.on ARB_ETH_ETH_EN && src.toNat == s.rd ARB_ETH_PEER_IP && udp.toNat == s.rd ARB_ETH_UDP

/-- A broadcast folio on the MG stream on a side that is up (R129). -/
def State.sendSide (s : State) (sd typ : Nat) (ws : List Nat) : State :=
  if s.sideIsUp sd then s.sendFolio sd (mkFolio typ 2 (if s.isSender then s.nodeOn sd else s.node) true true false ws) else s

/-- The same on every side that is up. -/
def State.sendSides (s : State) (typ : Nat) (ws : List Nat) : State := (s.sendSide 0 typ ws).sendSide 1 typ ws

/-- A standby has missed a record, so its READY interval starts anew (Table 15-1). -/
def State.missRecord (s : State) : State :=
  { s with arb := s.arb.map fun x => { x with goodSince := none } }

/-- A standby has evaluated itself for want of a record, which also fails a rehearsal whose swap has applied (R285). -/
def State.selfRecord (s : State) : State :=
  { s.missRecord with arb := s.missRecord.arb.map fun x =>
      { x with reh := x.reh.map fun r => { r with selfs := r.selfs || decide (r.apply ≤ s.frame) } } }

/-- A COLLATION event with a nonzero count has arrived (R285). -/
def State.noteCollation (s : State) : State :=
  { s with arb := s.arb.map fun x =>
      { x with collAt := some s.wtu.wt, reh := x.reh.map fun r => { r with coll := r.coll || decide (r.apply ≤ s.frame) } } }

/-! ### Management messages (R144, R146, R258) -/

/-- The MG folios of a message, one per fragment of 70 words (R144): the envelope, then the words. -/
def mgFolios (typ node : Nat) (ret : Bool) (dst src id : Nat) (ws : List Nat) : List Folio :=
  let n := max 1 (ceilDiv ws.length 70)
  (List.range n).map fun i =>
    let body := (ws.drop (70 * i)).take 70
    mkFolio typ 2 node false true ret ((dst + src * 2 ^ 18 + id % 4096 * 2 ^ 36 + i * 2 ^ 48 + (n - 1) * 2 ^ 56 + 0xF0 * 2 ^ 64)
      :: body ++ List.replicate (70 - body.length) 0)

/-- The side through which a node is reached: a tile reaches its two senders only; a sender the nodes of the ring on side PSIDE, whose ring
node fields name (R15, R258). -/
def State.route (s : State) (node : Nat) : Option Nat :=
  if s.isTile then
    if node = 0 ∧ (s.rd (QLK_REACH_NODES 0)).testBit 0 then some 0
    else if node = 63 ∧ (s.rd (QLK_REACH_NODES 1)).testBit 63 then some 1 else none
  else if (s.rd (QLK_REACH_NODES (s.rd QEN_CFG_PSIDE))).testBit node then some (s.rd QEN_CFG_PSIDE) else none

/-- Whether a node can be reached over the ring. -/
def State.reaches (s : State) (node : Nat) : Bool := (s.route node).isSome

/-- The folios of a message leave on a side that is up: as MG_RSP folios with RET from a tile, and toward the far sender; as unicast MG_REQ
folios from a sender to a tile (R144). -/
def State.sendMg (s : State) (sd dst src id : Nat) (ws : List Nat) : State :=
  let node := dst / 4096
  if s.sideIsUp sd = false then s
  else if s.isTile then s.sendFolios sd (mgFolios 5 s.node true dst src id ws)
  else if node = 0 ∨ node = 63 then s.sendFolios sd (mgFolios 5 (s.nodeOn sd) true dst src id ws)
  else s.sendFolios sd (mgFolios 4 node false dst src id ws)

/-- Whether the partner sender is heard over Ethernet, so that it can relay (R146). -/
def State.canRelay (s : State) : Bool :=
  s.isSender && s.on QLK_CFG_RELAY && s.on ARB_ETH_ETH_EN && (s.on (ARB_STAT_PEER_ETH 0) || s.on (ARB_STAT_PEER_ETH 1))

/-- A message goes to a node through a side. -/
def State.sendMessageOn (s : State) (sd dst src id : Nat) (words : List Word72) : State :=
  (s.send (.message dst src id words)).sendMg sd dst src id (words.map BitVec.toNat)

/-- A message goes to a node: over the ring, or through the partner (R146). Answers whether a path exists. -/
def State.sendMessage (s : State) (dst src id : Nat) (words : List Word72) : State × Bool :=
  match s.route (dst / 4096) with
  | some sd => (s.sendMessageOn sd dst src id words, true)
  | none =>
    if s.canRelay then
      ((s.bump QLK_MG_CNT_RELAYED).sendEther 4 s.ring
        ((0xF0 * 2 ^ 64 + dst + src * 2 ^ 18 + id * 2 ^ 36) :: words.map BitVec.toNat), true)
    else (s, false)

/-! ### Queues (R259 to R261) -/

/-- Key of word `i` of the descriptor of local queue `q`: BAR2 0x0800_0000 + 64 × q. -/
def qDesc (q i : Nat) : Nat := 0x800000 + 4 * q + i

/-- Key of word `a` of on-die queue memory: window offset 0x0010_0000. -/
def qMem (a : Nat) : Nat := 0x810000 + a

structure QView where
  base : Nat
  inFrame : Bool
  size : Nat
  valid : Bool
  head : Nat
  tail : Nat
  deriving DecidableEq, Repr

/-- A queue's descriptor (Table 14-2). -/
def State.queue (s : State) (q : Nat) : QView :=
  let w0 := (s.word (qDesc q 0)).toNat
  let w1 := (s.word (qDesc q 1)).toNat
  { base := bitsOf w0 35 0, inFrame := bitOf w0 36, size := 2 ^ bitsOf w0 40 37, valid := bitOf w0 41,
    head := bitsOf w1 16 0, tail := bitsOf w1 33 17 }

/-- Entries in a queue: TAIL − HEAD modulo twice its size. -/
def QView.used (v : QView) : Nat := (v.tail + 2 * v.size - v.head % (2 * v.size)) % (2 * v.size)

/-- Replace bits [hi:lo] of a window word. -/
def setBits (v : Word72) (hi lo x : Nat) : Word72 :=
  BitVec.ofNat 72 (v.toNat - (bitsOf v.toNat hi lo <<< lo) + ((x % 2 ^ (hi + 1 - lo)) <<< lo))

/-- Store an entry at index `i` of a queue's ring. -/
def State.qStore (s : State) (v : QView) (i : Nat) (e : Word72) : State :=
  if v.inFrame then s.storeBytes (v.base + 16 * (i % v.size)) (wordBytes e)
  else s.setWord (qMem (v.base + i % v.size)) e

/-- Read the entry at index `i` of a queue's ring. -/
def State.qEntry (s : State) (v : QView) (i : Nat) : Word72 :=
  if v.inFrame then bytesWord (s.mem.slice (v.base + 16 * (i % v.size)) 9)
  else s.word (qMem (v.base + i % v.size))

def State.qSetHead (s : State) (q h : Nat) : State :=
  s.setWord (qDesc q 1) (setBits (s.word (qDesc q 1)) 16 0 h)

/-- Move TAIL and keep the high-water mark. -/
def State.qSetTail (s : State) (q t : Nat) : State :=
  let s1 := s.setWord (qDesc q 1) (setBits (s.word (qDesc q 1)) 33 17 t)
  let w2 := s1.word (qDesc q 2)
  let used := (s1.queue q).used
  if bitsOf w2.toNat 15 0 < used then s1.setWord (qDesc q 2) (setBits w2 15 0 (min used 65535)) else s1

/-- Count dropped messages in a queue's descriptor, saturating. -/
def State.qSetDrop (s : State) (q n : Nat) : State :=
  s.setWord (qDesc q 2) (setBits (s.word (qDesc q 2)) 31 16 (min n 65535))

def State.qDrop (s : State) (q : Nat) : Nat := bitsOf (s.word (qDesc q 2)).toNat 31 16

/-- Whether a queue has room for a whole message (R261). -/
def State.qRoom (s : State) (q n : Nat) : Bool :=
  let v := s.queue q
  v.valid && decide (v.used + n ≤ v.size)

/-- Post a whole message to a queue that has room for it. -/
def State.qPush (s : State) (q : Nat) (es : List Word72) : State :=
  let v := s.queue q
  let s1 := (es.zipIdx).foldl (fun s e => s.qStore v (v.tail + e.2) e.1) s
  s1.qSetTail q ((v.tail + es.length) % (2 * v.size))

/-- Frame a message: FIRST in bit 71 of its first entry, LAST in bit 70 of its last (R259). -/
def frameMsg (ws : List Nat) : List Word72 :=
  ws.zipIdx.map fun e => BitVec.ofNat 72
    (e.1 % 2 ^ 64 + (if e.2 = 0 then 2 ^ 71 else 0) + (if e.2 + 1 = ws.length then 2 ^ 70 else 0))

end Sys2Proof.Machine
end

