-- ==== Sys2Proof/Machine/Bundle.lean ====
section
/-! DEFINITION. Bundles: the colophon read from a bundle's bytes, its checks, the firmware slots that hold it, and the signed requests of the key
partition (R304 to R306). -/

namespace Sys2Proof.Machine

open Host

/-- Bytes `o` to `o + n − 1` of a string. -/
def bytesAt (byte : Nat → Nat) (o n : Nat) : List Nat := (List.range n).map fun i => byte (o + i)

/-- A little-endian field of a string. -/
def fieldAt (byte : Nat → Nat) (o n : Nat) : Nat := leNat (bytesAt byte o n)

/-- Byte `i` of a string held as words of nine bytes, lowest byte first (R304). -/
def wordByte (t : Tbl 72) (i : Nat) : Nat := ((t.get (i / 9)).toNat >>> (8 * (i % 9))) % 256

/-- The largest bundle, which is a firmware slot (R304). -/
def slotBytes : Nat := 9437184

/-- The component count of a colophon. -/
def compCount (byte : Nat → Nat) : Nat := fieldAt byte 6 2

/-- The CID of a bundle (Table 17-1). -/
def bundleCid (byte : Nat → Nat) : Nat := leNat ((beBytes 48 (sha384 (bytesAt byte 0 (240 + 64 * compCount byte)))).take 4)

/-- Component `j` of a colophon (Table 17-2). -/
def componentAt (byte : Nat → Nat) (j : Nat) : Component :=
  let o := 48 + 64 * j
  ⟨byte o, fieldAt byte (o + 4) 4, fieldAt byte (o + 8) 4, fieldAt byte (o + 12) 4, beNat (bytesAt byte (o + 16) 48)⟩

/-- Whether no two components overlap. -/
def apart : List Component → Bool
  | [] => true
  | a :: t => (t.all fun b => decide (a.off + a.len ≤ b.off ∨ b.off + b.len ≤ a.off)) && apart t

/-- The colophon of a bundle of at most `len` bytes, unless its format is refused (R304, reason FORMAT). -/
def readColophon (byte : Nat → Nat) (len : Nat) : Option Colophon :=
  let n := compCount byte
  let comps := (List.range n).map (componentAt byte)
  let flags := fieldAt byte 22 2
  if bytesAt byte 0 4 = [0x48, 0x58, 0x43, 0x4C] ∧ fieldAt byte 4 2 = 1 ∧ 1 ≤ n ∧ n ≤ 32 ∧ len ≤ slotBytes ∧
      (comps.all fun c => decide (1 ≤ c.typ ∧ c.typ ≤ 6 ∧ 4096 ≤ c.off ∧ c.off + c.len ≤ len)) = true ∧ apart comps = true ∧
      (comps.filter fun c => c.typ == 1).length = 1 then
    some { cid := BitVec.ofNat 32 (bundleCid byte), seq := BitVec.ofNat 64 (fieldAt byte 8 8), hwType := BitVec.ofNat 32 (fieldAt byte 16 4),
           stepMin := BitVec.ofNat 8 (byte 20), stepMax := BitVec.ofNat 8 (byte 21), unitBound := flags.testBit 0,
           recovery := flags.testBit 1, floor := flags.testBit 2, unitId := BitVec.ofNat 64 (fieldAt byte 24 8),
           keySlot := BitVec.ofNat 8 (byte 32), fwVer := BitVec.ofNat 32 (fieldAt byte 36 4), setFmt := BitVec.ofNat 16 (fieldAt byte 40 2),
           setMin := BitVec.ofNat 16 (fieldAt byte 42 2), comps := comps, pubkey := beNat (bytesAt byte (48 + 64 * n) 96),
           sig := beNat (bytesAt byte (144 + 64 * n) 96), hash := sha384 (bytesAt byte 0 (144 + 64 * n)) }
  else none

/-- Whether every component has its digest. -/
def digestsOk (byte : Nat → Nat) (c : Colophon) : Bool := c.comps.all fun k => sha384 (bytesAt byte k.off k.len) == k.digest

/-- The two halves of a key or a signature of 96 bytes. -/
def halves (n : Nat) : Nat × Nat := (n / 2 ^ 384, n % 2 ^ 384)

/-- Whether a public key of 96 bytes is the root key, by its hash in the fuses (R305, R306). -/
def isRootKey (key : Nat) : Bool := Config.rootKeyPresent && sha384 (beBytes 96 key) == Config.rootKeyHash

/-- The first check of R305 that a colophon fails, as a code of Table 17-3; 0 where it passes. `image` tells the recovery
image. -/
def State.colReason (s : State) (c : Colophon) (image : Bool) : Nat :=
  let k := c.keySlot.toNat
  let key : Bool := if k = 0 then isRootKey c.pubkey
    else decide (k ≤ 4) && (s.rd UPD_KEYS_VALID).testBit (k - 1) && s.upd.keys.getD (k - 1) 0 == c.pubkey
  if ecdsaP384 (halves c.pubkey) c.hash (halves c.sig) = false then 2
  else if key = false then 3
  else if c.hwType.toNat ≠ 0x9160 ∨ Config.stepping.toNat < c.stepMin.toNat ∨ c.stepMax.toNat < Config.stepping.toNat then 4
  else if c.unitBound = true ∧ c.unitId ≠ Config.unitId then 5
  else if c.seq.toNat < s.rd UPD_FLOOR_SEQ_FLOOR then 6
  else if c.recovery ≠ image then 7
  else 0

/-- The slot the header names inactive. -/
def State.spareSlot (s : State) : Nat := (s.upd.active + 1) % 2

/-- The words of a slot, its bytes, and the colophon it begins with. -/
def State.slotTbl (s : State) (k : Nat) : Tbl 72 := s.upd.slots.getD k []
def State.slotByte (s : State) (k i : Nat) : Nat := wordByte (s.slotTbl k) i
def State.slotCol (s : State) (k : Nat) : Option Colophon := readColophon (s.slotByte k) slotBytes

/-- Write `ws` to a slot from word `i` on. -/
def State.writeSlot (s : State) (k i : Nat) (ws : List Word72) : State :=
  let t := ws.zipIdx.foldl (fun (t : Tbl 72) e => t.set (i + e.2) e.1) (s.slotTbl k)
  { s with upd := { s.upd with slots := s.upd.slots.set k t } }

/-- Byte `i` of a bundle that the host has placed in frame memory (R307). -/
def State.hostByte (s : State) (addr len i : Nat) : Nat := if i < len then (s.byte (addr + i)).toNat else 0

/-- The signed message of a key request (R306): its four letters, the slot, the key where it carries one, the unit ID. -/
def keyMessage (letters : List Nat) (slot : Nat) (key : List Nat) (unitId : Word) : List Nat :=
  letters ++ [slot] ++ key ++ leBytes 8 unitId.toNat

/-- Whether a key request is for this unit and signed by the root key (R306). -/
def keyAllowed (unitId : Word) (rootKey sig : Nat) (msg : List Nat) : Bool :=
  (unitId == 0 || unitId == Config.unitId) && isRootKey rootKey && ecdsaP384 (halves rootKey) (sha384 msg) (halves sig)

end Sys2Proof.Machine
end

