-- ==== Sys2Proof/Machine/Flags.lean ====
section
/-! DEFINITION. Interrupt flags, events, error captures, the recorder's rings and triggers (R40, R47, R261, R265, R269, R321,
R323): what any block does when it raises, posts, captures or records. -/

namespace Sys2Proof.Machine

/-- INT_STAT of a page: INT_RAW AND INT_EN (R39). -/
def State.intStat (s : State) (pg : Nat) : Nat := s.rd (INT_RAW_RAW pg) &&& s.rd (INT_EN_EN pg)

/-- HIF.INT_SUM (R47). -/
def State.intSum (s : State) : Nat :=
  ((List.range 44).filter fun p => s.intStat p != 0).foldl (fun a p => a + 2 ^ p) 0

/-- INT_N is driven low while INT_SUM AND INT_N_EN is nonzero (R47). -/
def State.intN (s : State) : Bool := s.intSum &&& s.rd HIF_INT_N_EN_PAGE != 0

/-- Send MSI-X vector `pg` if it is unmasked, else leave it pending (R47). -/
def State.msixSend (s : State) (pg : Nat) : State :=
  if (s.isSender || s.isBench) && decide (pg < 44) then
    if s.host.msixOpen.toNat.testBit pg then s.send (.msix pg)
    else { s with host := { s.host with msixPba := s.host.msixPba ||| BitVec.ofNat 64 (2 ^ pg) } }
  else s

/-! ### Recorder rings -/

/-- Words of the recorder's ring: 131,072 in a tile (R321), SREC.SIZE_MIB of 16-byte words in a sender (R327). -/
def State.recSize (s : State) : Nat :=
  if s.isSender then s.rd REC_SREC_SIZE_MIB * 65536 else 131072

/-- Write one word at the ring's write pointer, unless the ring is not recording or has written its last word. -/
def State.recPut (s : State) (v : Nat) : State :=
  if s.rd REC_STAT_STATE = 1 ∧ s.recd.post ≠ some 0 then
    let p := if s.isSender then s.recd.sptr else s.rd REC_STAT_WPTR % 131072
    let s1 := if s.isSender then s.storeBytes (s.rd REC_SREC_BASE + 16 * p) (wordBytes (BitVec.ofNat 72 v))
      else s.setPix (0x160000 + p) (BitVec.ofNat 72 v)
    let q := if p + 1 < s.recSize then p + 1 else 0
    let s2 := (s1.wr REC_STAT_WPTR q).when (q == 0) fun s => s.wr REC_STAT_WRAPPED 1
    { s2 with recd := { s2.recd with sptr := q, post := s2.recd.post.map (· - 1) } }
  else s

/-- Write one record of frame `n`: type, body bits of word 0, later words (R321). -/
def State.recWriteAt (s : State) (n typ w0 : Nat) (ws : List Nat) : State :=
  (s.recPut (typ * 2 ^ 64 + (w0 % 256) * 2 ^ 56 + (ws.length + 1) * 2 ^ 48 + n % 2 ^ 48)).each ws
    fun s w => s.recPut ((0x80 + typ) * 2 ^ 64 + w % 2 ^ 64)

/-- Write one record of the frame that runs. -/
def State.recWrite (s : State) (typ w0 : Nat) (ws : List Nat) : State := s.recWriteAt s.frame typ w0 ws

/-- Words 1 and 2 of a HEADER record (Table 18-1). -/
def State.recHeader (s : State) : List Nat :=
  [s.runCid.toNat + s.rd TFS_GEOM_LW * 2 ^ 32 + s.rd TFS_GEOM_LH * 2 ^ 37 + s.rd WTU_TB_T0NS_F_M1 * 2 ^ 42
    + s.rd LCP_CFG_DEPTH * 2 ^ 44 + s.rd LCP_CFG_LO_BITS * 2 ^ 49 + s.rd LCP_CFG_PRIM4 * 2 ^ 52,
   s.recd.digest + s.rd NVS_BOOT_STAT_START_NO * 2 ^ 32]

/-! ### Raising, posting, triggering -/

/-- What a block brings about: an INT_RAW bit, an event, a recorder trigger. -/
inductive Note where
  | intr (pg b : Nat)
  | event (code : Nat) (extra : List Nat)
  | trigger (code : Nat) (host : Bool)
  deriving DecidableEq, Repr

/-- The words of an event message (R269). -/
def State.eventWords (s : State) (code : Nat) (extra : List Nat) : List Nat :=
  [code % 65536 + s.node % 64 * 2 ^ 16 + s.ring % 64 * 2 ^ 22 + s.evtSeq % 2 ^ 36 * 2 ^ 28, s.frame % 2 ^ 48]
    ++ extra.take 2

/-- Whether EVENT_MASK lets a code through (Table 14-4). -/
def State.evtPass (s : State) (code : Nat) : Bool :=
  s.evtMask.toNat.testBit (if code < 0x8000 then code / 64 else 48 + (code - 0x8001))

/-- Whether an event code fires a recorder trigger (R323). -/
def State.trigCode (s : State) (code : Nat) : Bool :=
  code != 0 && (code == s.rd REC_TRIG_CFG_CODE0 || code == s.rd REC_TRIG_CFG_CODE1 || code == s.rd REC_TRIG_CFG_CODE2)

/-- The words of a framed message. -/
def frameNats (ws : List Nat) : List Nat := (frameMsg ws).map BitVec.toNat

/-- Place an event: toward both senders in TILE role, one copy on each side that is up (R144), in queue 0x002 elsewhere (R261, R269). Answers the INT_RAW bit of QEN
that follows, if any: EVENT (5) or DROP (6). -/
def State.evtDeliver (s : State) (code : Nat) (extra : List Nat) : State × Option Nat :=
  let ws := s.eventWords code extra
  let s1 := { s with evtSeq := s.evtSeq + 1 }
  let wv := ws.map (BitVec.ofNat 64)
  if s.isTile then
    let id := (Config.eventId s.evtSeq).toNat
    let src := s.node * 4096 + (Config.eventQueue s.evtSeq).toNat
    (((s1.send (.event true wv)).sendMg 0 2 src id (frameNats ws)).sendMg 1 (63 * 4096 + 2) src id (frameNats ws), none)
  else if s.evtPass code then
    if s1.qRoom 2 ws.length then ((s1.send (.event false wv)).qPush 2 (frameMsg ws), some 5)
    else if (s1.queue 2).valid then ({ s1 with ctl := { s1.ctl with lost := s1.ctl.lost + 1 } }.qSetDrop 2 (s1.qDrop 2 + 1) |>.bump QEN_CNT_DROP, some 6)
    else (s1.send (.event false wv), none)
  else (s1, none)

/-- Fire a recorder trigger (R323, R324). Answers whether it took effect. -/
def State.recTrigger (s : State) (code : Nat) (host : Bool) : State × Bool :=
  if s.rd REC_STAT_STATE = 2 ∨ s.recd.capturing ≠ none then (s.bump REC_CNT_TRIGS, false)
  else if s.rd REC_STAT_STATE = 1 then
    let s1 := s.recWrite 8 0 [code % 65536 + (if host then 65536 else 0)]
    let s2 := s1.recWrite 0 0 s1.recHeader
    let s3 := (s2.wr REC_TRIG_STAT_FRAME s.frame).wr REC_TRIG_STAT_CODE code
    let cap := s.on REC_CTRL_CAP_EN && !s.isSender
    let s4 := s3.when cap fun s => (s.wr REC_STAT_CAP_DONE 0).wr REC_STAT_DIGEST_DIRTY 0
    ({ s4 with recd := { s4.recd with post := some (16 * s.rd REC_TRIG_CFG_POST_K),
                                       capturing := if cap then some 0 else none, walking := cap } }, true)
  else (s, false)

/-- Bring a note about. Each note can bring about others (an INT_RAW bit its event, an event its trigger, a trigger its
INT_RAW bit); the first argument bounds that depth. -/
def note : Nat → State → Note → State
  | 0, s, .intr pg b => s.wr (INT_RAW_RAW pg) (s.rd (INT_RAW_RAW pg) ||| 2 ^ b)
  | 0, s, _ => s
  | n + 1, s, .intr pg b =>
    if (s.rd (INT_RAW_RAW pg)).testBit b then s
    else
      let s1 := s.wr (INT_RAW_RAW pg) (s.rd (INT_RAW_RAW pg) ||| 2 ^ b)
      if (s.rd (INT_EN_EN pg)).testBit b then note n (s1.msixSend pg) (.event (pg * 64 + b) []) else s1
  | n + 1, s, .event code extra =>
    let s1 := if s.isSender then s else s.recWrite 7 0 [code]
    let s2 := if s1.trigCode code then note n s1 (.trigger code false) else s1
    let r := s2.evtDeliver code extra
    match r.2 with
    | some b => note n r.1 (.intr 2 b)
    | none => r.1
  | n + 1, s, .trigger code host =>
    let r := s.recTrigger code host
    if r.2 then note n r.1 (.intr 0xA 4) else r.1

/-- Raise bit `b` of INT_RAW of page `pg`. -/
def State.raise (s : State) (pg b : Nat) : State := note 8 s (.intr pg b)

/-- Post a message event (Table 14-8). -/
def State.post (s : State) (code : Nat) (extra : List Nat) : State := note 8 s (.event code extra)

/-- Fire a trigger. -/
def State.trigger (s : State) (code : Nat) (host : Bool) : State := note 8 s (.trigger code host)

/-- Stop the scheduler trace ring (R265). -/
def State.traceStop (s : State) : State :=
  if s.on CCC_TRACE_STAT_FROZEN then s
  else ((s.wr CCC_TRACE_STAT_FROZEN 1).wr CCC_TRACE_STAT_FRAME s.frame).raise 1 5

/-! ### Error capture (R40) -/

/-- Source code of a requester in ERR_CAP0.SRC. -/
def srcCode : Requester → Nat
  | .pcie => 0
  | .spi => 1
  | .remote => 2
  | .firmware => 3

/-- Capture an error in a page: only the first is captured; a later one sets MORE (R40). -/
def State.capture (s : State) (pg code : Nat) (src : Requester) (off val : Nat) : State :=
  if s.on (ERR_CAP0_VALID pg) then s.wr (ERR_CAP0_MORE pg) 1
  else
    let s1 := ((((((s.wr (ERR_CAP0_CODE pg) code).wr (ERR_CAP0_VALID pg) 1).wr (ERR_CAP0_MORE pg) 0).wr
      (ERR_CAP0_SRC pg) (srcCode src)).wr (ERR_CAP0_OFFSET pg) off).wr (ERR_CAP0_FRAME pg) s.frame).wr (ERR_CAP1_VALUE pg) val
    let s2 := s1.raise pg 0
    let s3 := s2.when (s.on CCC_TRACE_FREEZE_ON_ERR) State.traceStop
    s3.when (s.on REC_TRIG_CFG_ON_ERR) fun s => s.trigger 0 false

/-- Record an internal error of a page: source 3, offset 0. -/
def State.captureInt (s : State) (pg code val : Nat) : State := s.capture pg code .firmware 0 val

/-! Codes of Table 02-6, and BUSY (Table 04-7). -/
def errCLAMP : Nat := 1
def errLIMIT : Nat := 2
def errROLE_OFF : Nat := 3
def errLOCKED : Nat := 4
def errRSV : Nat := 5
def errHALF : Nat := 6
def errSIZE : Nat := 7
def errXOVF : Nat := 8
def errUNMAPPED : Nat := 9
def errECC_UE : Nat := 10
def errRA_BUSY : Nat := 11
def errRA_LATE : Nat := 12
def errBUSY : Nat := 0x21

/-! ### Mailbox responses (R266) -/

/-- Answer a mailbox request: the message goes to the reply queue, over the ring to that of another node (R144); queue 0x001 raises
MBX_RSP (QEN bit 4). -/
def State.respond (s : State) (r : Req) (cmd status : Nat) (body : List Nat) : State :=
  let ws := (cmd % 65536 + r.id.toNat * 2 ^ 16 + status % 256 * 2 ^ 28) :: body
  let s1 := s.send (.response r.reply.toNat r.id.toNat cmd status (body.map (BitVec.ofNat 72)))
  let q := r.reply.toNat % 4096
  if r.reply.toNat / 4096 = s.node ∧ s1.qRoom q ws.length = true then
    let s2 := s1.qPush q (frameMsg ws)
    if q = 1 then s2.raise 2 4 else s2
  else match s1.route (r.reply.toNat / 4096) with
    | some sd => if r.reply.toNat / 4096 = s.node then s1 else s1.sendMg sd r.reply.toNat (s.node * 4096) r.id.toNat (frameNats ws)
    | none => s1

/-! Status codes of Table 14-5. -/
def stOK : Nat := 0
def stARMED : Nat := 1
def stLATE : Nat := 2
def stCANCELLED : Nat := 3
def stBAD_CMD : Nat := 4
def stBAD_ARG : Nat := 5
def stBUSY : Nat := 6
def stREFUSED : Nat := 7
def stCLAMPED : Nat := 8
def stTIMEOUT : Nat := 9
def stNO_NODE : Nat := 10
def stNO_PATH : Nat := 11
def stFULL : Nat := 12

end Sys2Proof.Machine
end

