-- ==== Sys2Proof/Machine/Operands.lean ====
section
/-! DEFINITION. The operand forms of an access: local addresses (R32 to R34), access widths and half registers (R35, R36), access
codes, clamping and the order of errors (R38, R40), reads (R8, R43, R44), commits and snapshots as a page takes them (R19, R41,
R42, R44). -/

namespace Sys2Proof.Machine

/-! ### Local addresses (R33) -/

/-- What a local address names. -/
inductive Target where
  | page (pg off : Nat)
  | window (idx byte : Nat)
  | unmapped
  deriving DecidableEq, Repr

/-- Whether Table 02-3 marks a window range reserved. -/
def winReserved (a : Nat) : Bool := decide (0x0C000000 ≤ a)

/-- The target of a local address (R33, R34). -/
def target (a : Nat) : Target :=
  if a < 0x100000 then
    if pageMapped (a / 4096) || a / 4096 == 0x3E || a / 4096 == 0x3F then .page (a / 4096) (a % 4096) else .unmapped
  else if 0x10000000 ≤ a ∧ a < 0x20000000 then
    if winReserved (a - 0x10000000) then .unmapped else .window ((a - 0x10000000) / 16) (a % 16)
  else .unmapped

/-! ### Reads -/

/-- Whether the page holds shadowed registers (R39). -/
def pageHasRws (pg : Nat) : Bool := (blockFields pg).any fun f => f.acc == .rws

/-- Whether a commit of the page is accepted and not yet active. -/
def State.commitPending (s : State) (pg : Nat) : Bool :=
  (s.commits.pend.any fun e => e.1 == pg) || s.commits.latched.contains pg

/-- Fields that are reserved in the latched role or instance: ING.CFG.PAIR in ING1 and ING3, and the WTU fields a tile
learns instead of being given. -/
def State.fieldRsv (s : State) (f : Fld) : Bool :=
  f == ING_CFG_PAIR 1 || f == ING_CFG_PAIR 3 ||
  (s.isTile && f.page == 8 && (f.off == 0xB0 || f.off == 0xB8 || f.off == 0xC0 ||
    f == WTU_TB_CTRL_SW_FRAME || f == WTU_TB_CTRL_ARM || f == WTU_TB_CTRL_CONT))

/-- The four characters of a block's name, first in bits [7:0] (R39). -/
def pageTag (pg : Nat) : Nat :=
  let s4 (a b c d : Char) : Nat := a.toNat + 256 * (b.toNat + 256 * (c.toNat + 256 * d.toNat))
  let dig (n : Nat) : Char := Char.ofNat (48 + n)
  if pg = 0 then s4 'H' 'I' 'F' ' ' else if pg = 1 then s4 'C' 'C' 'C' ' ' else if pg = 2 then s4 'Q' 'E' 'N' ' '
  else if pg = 3 then s4 'N' 'V' 'S' ' ' else if pg = 4 then s4 'U' 'P' 'D' ' ' else if pg = 5 then s4 'H' 'K' 'T' ' '
  else if pg = 6 then s4 'S' 'T' 'R' ' ' else if pg = 7 then s4 'R' 'C' 'E' ' ' else if pg = 8 then s4 'W' 'T' 'U' ' '
  else if pg = 9 then s4 'A' 'R' 'B' ' ' else if pg = 10 then s4 'R' 'E' 'C' ' '
  else if 16 ≤ pg ∧ pg < 20 then s4 'I' 'N' 'G' (dig (pg - 16)) else if pg = 20 then s4 'F' 'M' 'C' ' '
  else if pg = 21 then s4 'C' 'M' 'P' ' ' else if pg = 22 then s4 'S' 'C' 'L' ' ' else if pg = 23 then s4 'I' 'M' 'P' ' '
  else if pg = 24 then s4 'Q' 'P' 'A' ' ' else if pg = 25 then s4 'Q' 'P' 'B' ' ' else if pg = 26 then s4 'Q' 'L' 'K' ' '
  else if pg = 32 then s4 'T' 'F' 'S' ' ' else if pg = 33 then s4 'L' 'C' 'P' ' ' else if pg = 34 then s4 'S' 'C' 'N' ' '
  else if pg = 35 then s4 'L' 'H' 'M' ' ' else if 40 ≤ pg ∧ pg < 44 then s4 'D' 'R' 'V' (dig (pg - 40)) else 0

/-- BLK_ID.INST (R39). -/
def pageInst (pg : Nat) : Nat :=
  if 16 ≤ pg ∧ pg < 20 then pg - 16 else if pg = 25 then 1 else if 40 ≤ pg ∧ pg < 44 then pg - 40 else 0

/-- Key of a trim item. For PHY, `die` holds the side. -/
def trimKey (target die index : Nat) : Nat := (target * 4 + die) * 512 + index

/-- The item that STR.IDX names. -/
def State.trimIdx (s : State) : Nat :=
  trimKey (s.rd STR_IDX_TARGET) (if s.rd STR_IDX_TARGET = 3 then s.rd STR_IDX_DIE % 2 else s.rd STR_IDX_DIE) (s.rd STR_IDX_INDEX)

/-- Fields whose value follows from others or from the factory. -/
def State.computed (s : State) (f : Fld) : Option Nat :=
  let pg := f.page
  if f.off = 0 then
    some (if f.lo = 0 then pageTag pg else if f.lo = 32 then pageInst pg
      else bitsOf (Config.blockVersion pg).toNat (f.lo - 40 + 7) (f.lo - 40))
  else if f = BLK_STAT_ROLE_OFF pg then some (b2n (!pageActive s.role pg))
  else if f = BLK_STAT_LOCKED pg then some (s.rd (LOCK pg))
  else if f = BLK_STAT_SHD_PEND pg ∨ f = SHD_STAT_PEND pg then some (b2n (s.commitPending pg))
  else if f = HIF_INT_SUM_PAGE then some s.intSum
  else if f = HIF_STRAP_STAT_GRADE then some Config.grade.toNat
  else if f = HIF_STRAP_STAT_STEPPING then some Config.stepping.toNat
  else if f = NVS_ALARM_NOW then some (Config.vaonSeconds s.freeCtr).toNat
  else if f = UPD_KEYS_ROOT then some (b2n Config.rootKeyPresent)
  else if f = STR_DATA_VALUE then
    some (if s.rd STR_IDX_TARGET = 3 then
        (if s.rd STR_IDX_INDEX < 5 then s.rd (QP_LANE_STAT_PEAK (s.rd STR_IDX_DIE % 2) (s.rd STR_IDX_INDEX)) else 0)
      else (s.house.trim.get s.trimIdx).toNat)
  else if f = STR_DATA_PHASE then
    some (if s.rd STR_IDX_TARGET = 3 ∧ s.rd STR_IDX_INDEX < 5 then
      s.rd (QP_LANE_STAT_PHASE (s.rd STR_IDX_DIE % 2) (s.rd STR_IDX_INDEX)) else 0)
  else if f = STR_DATA_PEND then some (b2n (s.house.staged.any fun e => e.key == s.trimIdx))
  else if pg = 9 ∧ s.isTile = true ∧ (f = ARB_CFG_EN 0 ∨ f.off ∈ [0x88, 0xB8, 0xC8, 0xD8, 0xE8]) then some 0
  else none

/-- What a read of a field returns (R8, R38, R39, R44). -/
def State.readFld (s : State) (f : Fld) : Nat :=
  if s.fieldRsv f then 0
  else if 0x80 ≤ f.off ∧ pageActive s.role f.page = false then 0
  else if f.acc = .wo then 0
  else if (f.off = 0x40 ∨ f.off = 0x48) ∧ pageHasRws f.page = false then 0
  else match s.computed f with
    | some v => v
    | none =>
      if f.snap then (s.snapd.get f.key).toNat
      else if f.acc = .rws ∧ s.on (SHD_CTRL_RDACT f.page) = false then s.rdShadow f
      else s.rd f

/-- What a 64-bit read of a page offset returns. -/
def State.readReg (s : State) (pg off : Nat) : Nat :=
  if pg = 0x3E then
    if pageActive s.role 0x15 = false ∨ 704 ≤ off then 0
    else (s.host.msixTbl.get (off / 8)).toNat + 2 ^ 32 * b2n (off % 16 == 8 && !(s.host.msixOpen.toNat.testBit (off / 16)))
  else if pg = 0x3F then (if pageActive s.role 0x15 && off == 0 then s.host.msixPba.toNat else 0)
  else if pageMapped pg = false then 0
  else if off = 0x28 then s.intStat pg
  else (regFields pg off).foldl (fun a f => a + s.readFld f * 2 ^ f.lo) 0

/-- Key of the lamp of bank `d`, scan line `r`, channel `ch`. -/
def lampKey (d r ch : Nat) : Nat := d * 49152 + r * 384 + ch

/-- A lamp of a map: an unlisted lamp is UNVERIFIED since its bank came up (R220). -/
def LampMap.lamp (m : LampMap) (k : Nat) : Lamp :=
  match m.lamps.find? fun e => e.1 == k with
  | some e => e.2
  | none => ⟨0, m.up.getD (k / 49152) 0, 0, false, 0, false, none⟩

/-- A lamp's age (R220): AGE_UNIT frames since its last state change or passing test, saturating. -/
def Lamp.age (l : Lamp) (frame unit : Nat) : Nat := min 65535 ((frame - l.since) / max 1 unit)

/-- Whether a lamp is in a die's suppression table. -/
def LampMap.suppressed (m : LampMap) (k : Nat) : Bool := (m.supp.getD (k / 49152) []).any fun e => e.1 == k

/-- A word of the LHM window (Table 11-5), at word offset `o`: the copy of the last tick. -/
def State.lhmWord (s : State) (o : Nat) : Word72 :=
  let d := o / 0x40000
  let i := o % 0x40000
  let m := s.health.shown
  let isLamp (b : Nat) : Bool := decide (b < 384 * ((s.scan.plan.get SCN_PLAN_M_M1.key).toNat + 1)) && s.on (DRV_STAT_PRESENT d)
  if 4 ≤ d then 0
  else if i < 0x1000 then
    if i % 0x400 < 768 then
      let p := i / 0x400
      let bit (b : Nat) : Bool :=
        let k := d * 49152 + b
        let l := m.lamp k
        isLamp b && (if p = 0 then l.st == 2 else if p = 1 then l.st == 3 else if p = 2 then l.st == 0 else l.mask || m.suppressed k)
      BitVec.ofNat 72 ((List.range 64).foldl (fun a j => if bit (i % 0x400 * 64 + j) then a + 2 ^ j else a) 0)
    else 0
  else if i < 0x4000 then
    BitVec.ofNat 72 ((List.range 4).foldl (fun a j =>
      let b := (i - 0x1000) * 4 + j
      if isLamp b then a + (m.lamp (d * 49152 + b)).age s.health.shownFrame s.health.shownUnit * 2 ^ (16 * j) else a) 0)
  else if 0x8000 ≤ i ∧ i < 0x8002 then BitVec.ofNat 72 (bitsOf (m.rows.getD d 0) (64 * (i - 0x8000) + 63) (64 * (i - 0x8000)))
  else if 0x8002 ≤ i ∧ i < 0x8008 then BitVec.ofNat 72 (bitsOf (m.cols.getD d 0) (64 * (i - 0x8002) + 63) (64 * (i - 0x8002)))
  else 0

/-- The block that owns a window word: the first named in Table 02-3. -/
def winOwner (idx : Nat) : Nat :=
  if idx < 0x400000 then 0x17 else if idx < 0x500000 then 0x15 else if idx < 0x600000 then 0x16
  else if idx < 0x800000 then 0x20 else if idx < 0xA00000 then 2 else if idx < 0xB00000 then 0x23 else 1

/-- The page whose shadow set a window word belongs to (R76, Table 05-4). -/
def winShadowPage (idx : Nat) : Option Nat :=
  if 0x400000 ≤ idx ∧ idx < 0x400800 then some 0x15
  else if 0x40000 ≤ idx ∧ idx < 0x40080 then some 0x17 else none

/-- Word `i` of the entry of handle `h` below 4, as a read shows it: the buffer of the port's default pick (R78), none where it has none.
STATE reads PINNED while a pick holds the buffer, else READY (notes/assumptions/25.md). -/
def State.pickEntry (s : State) (h i : Nat) : Word72 :=
  let x := s.ports.getD h Port.reset
  match x.pickD.buf with
  | none => if i = 3 then s.word (0x400800 + 4 * h + 3) else 0
  | some k =>
    let b := x.bufs.getD k IngBuf.empty
    if i = 0 then BitVec.ofNat 72 (x.base.getD k 0 % 2 ^ 36 + x.stride % 2 ^ 24 * 2 ^ 36 + x.fmt % 2 * 2 ^ 60 + 2 ^ 61)
    else if i = 1 then BitVec.ofNat 72 (b.width % 2 ^ 15 + b.height % 2 ^ 15 * 2 ^ 15)
    else if i = 2 then BitVec.ofNat 72 ((if b.heldFor.isEmpty then 1 else 2) * 2 ^ 48)
    else s.word (0x400800 + 4 * h + 3)

/-- A window word as a read shows it (R37): the LHM window shows the copy of the last tick, a shadowed word its shadow or its
active value (R76), a tile status word its snapshot, and the recorder's mirror the tile ring (R321). A window of a block that is off reads zero. -/
def State.readWin (s : State) (idx : Nat) : Word72 :=
  if pageActive s.role (winOwner idx) = false then 0
  else if 0xA00000 ≤ idx ∧ idx < 0xB00000 then s.lhmWord (idx - 0xA00000)
  else if 0xB01000 ≤ idx ∧ idx < 0xB21000 then (if s.isSender then 0 else s.pix (0x160000 + (idx - 0xB01000)))
  else if 0x48000 ≤ idx ∧ idx < 0x48080 then s.imp.statSnap.get idx
  else if 0x400800 ≤ idx ∧ idx < 0x400810 then s.pickEntry ((idx - 0x400800) / 4) ((idx - 0x400800) % 4)
  else match winShadowPage idx with
    | some pg => if s.on (SHD_CTRL_RDACT pg) then s.word idx else s.winShadow.get idx
    | none => s.word idx

/-- What a read of a local address returns: 64 bits of a register, or a whole window word (R34, R37). -/
def State.readAddr (s : State) (a : Nat) : Word72 :=
  match target a with
  | .page pg off => BitVec.ofNat 72 (s.readReg pg (off / 8 * 8))
  | .window idx _ => s.readWin idx
  | .unmapped => 0

/-! ### Clamping (R40) -/

/-- The tick period in ns: DEN × 10^9 / NUM (R154). -/
def State.periodNs (s : State) : Nat :=
  s.rd WTU_TB_RATE_DEN * 1000000000 / (if s.rd WTU_TB_RATE_NUM = 0 then 1 else s.rd WTU_TB_RATE_NUM)

/-- Feeds in force: F. -/
def State.feeds (s : State) : Nat := s.rd WTU_TB_T0NS_F_M1 + 1

/-- Clamp a number into an interval; the upper end wins where the ends cross. -/
def clampN (lo hi v : Nat) : Nat := min (max v lo) hi

/-- Clamp a two's-complement number of `w` bits into −m to +m. -/
def clampS (w m v : Nat) : Nat :=
  let x := toSigned w v
  ofSigned w (if (m : Int) < x then (m : Int) else if x < -(m : Int) then -(m : Int) else x)

/-- The value a field of a 64-bit write asks for. -/
def Fld.of (f : Fld) (v : Nat) : Nat := bitsOf v (f.lo + f.w - 1) f.lo

/-- A field's request, clamped into its own interval. -/
def Fld.ofc (f : Fld) (v : Nat) : Nat := clampN f.mn f.mx (f.of v)

/-- Whether an 8-bit code names each of 0 to 3 once. -/
def isPerm (v : Nat) : Bool := (List.range 4).all fun c => (List.range 4).any fun i => bitsOf v (2 * i + 1) (2 * i) == c

/-- The gray clock period's bounds for a string bit: cycles of 25 ns and of 10 µs at f_GCLK (R211). -/
def State.gclkMhz (s : State) : Nat := s.rdShadow SCN_PLAN_GCLK_MHZ

/-- The nearest legal value of a field whose legal range depends on the write's other fields or on other registers. `v` is
the whole write. -/
def State.clampDep (s : State) (f : Fld) (v : Nat) : Option Nat :=
  let x := f.of v
  if f.page = 0x15 ∧ f = CMP_WALL_PEAK_NITS then
    let r := CMP_WALL_REF_NITS.ofc v
    some (clampN r (min (4 * r) 40000) x)
  else if f.page = 0x15 ∧ f = CMP_WB_CTRL_BASE then some (x / 256 * 256)
  else if f.page = 0x21 ∧ f = LCP_CFG_LO_BITS then some (min x (min 5 (LCP_CFG_DEPTH.ofc v - 8)))
  else if f.page = 0x21 ∧ f = LCP_PRESS_LEAD_US then some (clampN (s.rd LCP_PRESS_NEED_US) 4000 x)
  else if f.page = 0x22 ∧ f = SCN_PLAN_OFS_NS then some (clampN 2000 (min 65535 (s.periodNs / (2 * s.feeds))) x)
  else if f.page = 9 ∧ f = ARB_TIMING_TAKE_MS then
    some (clampN (ceilDiv (ARB_TIMING_MISS_US.ofc v) 1000 + 5) 1000 (ARB_TIMING_TAKE_MS.ofc v))
  else if f.page = 8 ∧ f = WTU_FWIN_LEAD_US then
    some (clampN 110 (s.periodNs / 2000 - s.rd WTU_TB_T0NS_L_US - WTU_FWIN_WIN_US.ofc v) (WTU_FWIN_LEAD_US.ofc v))
  else if f.page = 8 ∧ (f = WTU_GLK_OFS_NS ∨ f = WTU_TICKOUT_OFS_NS) then some (clampS 32 (s.periodNs / 2) x)
  else if f.page = 8 ∧ f = WTU_PPS_OUT_OFS_NS then some (clampS 32 500000000 x)
  else if f.page = 8 ∧ f = WTU_TICKOUT_WIDTH_US then some (clampN 1 (min 500000 (s.periodNs / 2000)) x)
  else if f.page = 8 ∧ (f.off = 0x210 ∨ f.off = 0x218 ∨ f.off = 0x220 ∨ f.off = 0x228) ∧ f.lo = 23 then
    some (if bitsOf v 5 4 = 1 then clampS 32 (s.periodNs / 2) x else clampN 0 999999999 x)
  else if f.page = 8 ∧ f = WTU_NX_RATE_DEN then some (if x = 1001 then 1001 else 1000)
  else if f.page = 10 ∧ f = REC_CTRL_CAP_SLOTS then
    some (clampN 1 (if s.on LCP_CFG_PRIM4 then 6 else if s.on LCP_CFG_AGE_EN then 7 else 8) x)
  else if f.page = 10 ∧ f = REC_SREC_BASE then some (x / 256 * 256)
  else if f.page = 0x17 ∧ f = IMP_CTRL_REFRESH_N then some (if x = 1 then 2 else x)
  else if (f = QP_CFG_RATE_MASK 0 ∨ f = QP_CFG_RATE_MASK 1) then some (if x = 0 then 7 else x)
  else if 0x10 ≤ f.page ∧ f.page < 0x14 ∧ f = ING_ST2110_RATE_DEN (f.page - 16) then some (if 1001 ≤ x then 1001 else 1000)
  else if 0x10 ≤ f.page ∧ f.page < 0x14 ∧ f.off = 0x80 ∧ f.lo = 0 then some (if x = 3 then 0 else x)
  else if 0x10 ≤ f.page ∧ f.page < 0x14 ∧ 0xC0 ≤ f.off ∧ f.off < 0xE0 then some (x / 256 * 256)
  else if 0x10 ≤ f.page ∧ f.page < 0x14 ∧ f.off = 0xE0 then some (min 0xFFFF00 ((x + 127) / 256 * 256))
  else if f.page = 6 ∧ f = STR_IDX_INDEX then
    some (let t := STR_IDX_TARGET.of v
      if t < 2 then min x 383 else if t = 2 then clampN 1 3 x else min x 4)
  else if f.page = 7 ∧ f = RCE_CTRL_REG_T2 then some (max x (RCE_CTRL_REG_T1.of v))
  else if f.page = 7 ∧ f = RCE_CTRL_REG_T3 then some (max x (max (RCE_CTRL_REG_T1.of v) (RCE_CTRL_REG_T2.of v)))
  else if f.page = 7 ∧ 0x100 ≤ f.off ∧ f.off % 128 = 0x38 ∧ f.lo = 32 then
    some (clampN (bitsOf v 31 16) (bitsOf v 15 0) x)
  else if f.page = 7 ∧ 0x100 ≤ f.off ∧ f.off % 128 = 0x08 ∧ f.lo = 0 then
    some (if s.rd (RCE_LOOP_CFG_KIND ((f.off - 0x100) / 128)) = 1 then clampN 250 2000 x else x)
  else if f.page = 7 ∧ 0x100 ≤ f.off ∧ f.off % 128 = 0 ∧ f.lo = 0 then
    some (if x = 1 ∧ s.isSender = true then 0 else min x 2)
  else if 0x28 ≤ f.page ∧ f.off = 0x80 ∧ f.lo = 3 then some (if isPerm x then x else 0xE4)
  else if 0x28 ≤ f.page ∧ f.off = 0x80 ∧ f.lo = 11 then some (clampN 1 (if bitOf v 2 then 96 else 128) x)
  else if 0x28 ≤ f.page ∧ f.off = 0xB0 ∧ f.lo = 0 then
    some (clampN (ceilDiv (25 * s.gclkMhz) 1000) (10 * s.gclkMhz) x)
  else if 0x28 ≤ f.page ∧ f.off = 0xB0 ∧ (f.lo = 12 ∨ f.lo = 24) then
    some (min x (clampN (ceilDiv (25 * s.gclkMhz) 1000) (10 * s.gclkMhz) (bitsOf v 11 0) - 1))
  else if 0x28 ≤ f.page ∧ f.off = 0xB0 ∧ f.lo = 59 then
    some (min x (clampN 8 64 (bitsOf v 56 50) / (bitsOf v 58 57 + 1) - 1))
  else none

/-- The value a field takes on a write: the nearest legal value (R40). -/
def State.legal (s : State) (f : Fld) (v : Nat) : Nat :=
  match s.clampDep f v with
  | some x => x
  | none => f.ofc v

/-! ### Writes -/

/-- An area of MRAM has changed and waits to be saved (R302): 0 settings, 1 tables, 2 policy. -/
def State.markDirty (s : State) (area : Nat) : State := s.wr NVS_SAVE_DIRTY (s.rd NVS_SAVE_DIRTY ||| 2 ^ area)

/-- Write a class-M field: a change makes the settings dirty (R302). -/
def State.wrM (s : State) (f : Fld) (v : Nat) : State := (s.wr f v).when (s.rd f != v) fun s => s.markDirty 0

/-- Count in a class-M field. -/
def State.bumpM (s : State) (f : Fld) : State := (s.bump f).markDirty 0

/-! ### The MRAM writer (R301, R302) -/

/-- An operation becomes the running one: a save's area is no longer dirty, and an aging save writes its header. -/
def State.startOp (s : State) (op : Nat) : State :=
  let s1 := { s with nvs := { s.nvs with recBusy := true } }.wr NVS_SAVE_SAVING 1
  if op < 3 then s1.wr NVS_SAVE_DIRTY (s1.rd NVS_SAVE_DIRTY - (s1.rd NVS_SAVE_DIRTY &&& 2 ^ op))
  else
    let k := 1 - s1.rd LCP_AGE_STAT_SLOT
    { s1 with nvs := { s1.nvs with ageHead := some s1.frame, ageSlots := s1.nvs.ageSlots.set k none } }.wr LCP_AGE_STAT_SAVING 1

/-- A multi-record operation is requested: it merges with one already queued, and a request for the running one is a further
save only where the area has changed since. No new record starts in thermal shutdown (R250). -/
def State.queueOp (s : State) (op : Nat) : State :=
  if s.house.shut then s
  else match s.nvs.ops with
    | [] => { s with nvs := { s.nvs with ops := [op] } }.startOp op
    | h :: t =>
      if t.contains op || (h == op && (op == 3 || !(s.rd NVS_SAVE_DIRTY).testBit op)) then s
      else { s with nvs := { s.nvs with ops := h :: t ++ [op] } }

/-- The running operation ends, and the next one starts. -/
def State.popOp (s : State) : State :=
  match s.nvs.ops with
  | _ :: b :: t => { s with nvs := { s.nvs with ops := b :: t } }.startOp b
  | _ => { s with nvs := { s.nvs with ops := [], recBusy := !s.upd.fifo.isEmpty } }.wr NVS_SAVE_SAVING 0

/-- The areas that wait to be saved. -/
def State.dirtyAreas (s : State) : List Nat := [0, 1, 2].filter fun a => (s.rd NVS_SAVE_DIRTY).testBit a

/-- An error a write raises: its code and the value ERR_CAP1 takes. -/
structure WErr where
  code : Nat
  val : Nat
  deriving DecidableEq, Repr

/-- W1C fields of several bits whose bits clear one by one; every other field of several bits is a counter that clears only
on all ones (R45). -/
def w1cBits (f : Fld) : Bool := f.off == 0x18 || (f.off == 0x98 && (f.page == 0x18 || f.page == 0x19))

/-- Apply a write to one field by its access code (Table 02-4). W1S and WO fields act in the command they belong to. -/
def State.writeFld (s : State) (f : Fld) (v : Nat) : State × Option WErr :=
  let x := f.of v
  if s.fieldRsv f then (s, none)
  else match f.acc with
  | .ro | .wo | .w1s => (s, none)
  | .w1c =>
    if w1cBits f then (s.wr f (s.rd f - (s.rd f &&& x)), none)
    else if x = 2 ^ f.w - 1 then (s.wr f 0, none) else (s, none)
  | .rws =>
    let y := s.legal f v
    (s.wrShadow f y, if y = x then none else some ⟨errCLAMP, x⟩)
  | .rw | .rwk =>
    if f.acc = .rwk ∧ s.on (LOCK f.page) = true then (s, some ⟨errLOCKED, x⟩)
    else
      let y := s.legal f v
      let s1 := s.wr f y
      (if f.ret = .m ∧ y ≠ s.rd f then s1.markDirty 0 else s1, if y = x then none else some ⟨errCLAMP, x⟩)

/-- Bits of a register that some field covers. INT_RAW's reserved bits lie above the page's highest, and INT_STAT, which no field of
the store stands for, has none (R39). -/
def State.coverMask (s : State) (pg off : Nat) : Nat :=
  if off = 0x18 then 2 ^ (intTop pg + 1) - 1
  else if off = 0x28 then 2 ^ 64 - 1
  else (regFields pg off).foldl (fun a f => if s.fieldRsv f then a else a + (2 ^ f.w - 1) * 2 ^ f.lo) 0

/-- The errors of one write, captured in the order LOCKED, RSV, HALF, CLAMP, LIMIT (R40). -/
def State.captureAll (s : State) (pg : Nat) (src : Requester) (off : Nat) (es : List WErr) : State :=
  s.each [errLOCKED, errRSV, errHALF, errCLAMP, errLIMIT] fun s c =>
    s.each (es.filter fun e => e.code == c) fun s e => s.capture pg c src off e.val

/-- The low half that a write of the high half alone leaves to a register's fields (R35): what they hold, and nothing for the bits that
act when 1 is written to them. -/
def State.lowKept (s : State) (fs : List Fld) : Nat :=
  fs.foldl (fun a f =>
    if 32 ≤ f.lo ∨ f.acc = .w1c ∨ f.acc = .w1s ∨ f.acc = .wo then a
    else a + (if f.acc = .rws then s.rdShadow f else s.rd f) * 2 ^ f.lo % 2 ^ 32) 0

/-- Apply a write to the fields of one register. With `half`, only the high half was written and no low half was held
(R35): fields inside the low half keep their value, and a field across the halves keeps its low bits. -/
def State.writeFields (s : State) (src : Requester) (pg off v : Nat) (half : Bool) (more : List WErr) : State :=
  let fs := (regFields pg off).filter fun f => !half || decide (32 < f.lo + f.w)
  let u := if half then v / 2 ^ 32 * 2 ^ 32 + s.lowKept fs else v
  let r := fs.foldl (fun (a : State × List WErr) f =>
    let b := a.1.writeFld f u
    (b.1, match b.2 with | some e => a.2 ++ [e] | none => a.2)) (s, more)
  let rsv := u - (u &&& s.coverMask pg off)
  let es := r.2 ++ (if rsv != 0 then [⟨errRSV, u⟩] else []) ++ (if half then [⟨errHALF, v / 2 ^ 32⟩] else [])
  r.1.captureAll pg src off es

/-! ### Commits (R19, R20, R41, R42) -/

/-- The RWS fields of a page. -/
def rwsFields (pg : Nat) : List Fld := (blockFields pg).filter fun f => f.acc == .rws

/-- Copy the values of some fields from one set into another. -/
def copySet (fs : List Fld) (src dst : Tbl 64) : Tbl 64 := fs.foldl (fun d f => d.set f.key (src.get f.key)) dst

/-- The BAR2 words, as key intervals, that belong to a page's shadow set: CMP's layer and region tables (R76) and IMP's hint
table (Table 05-4). -/
def shadowedWords (pg : Nat) : List (Nat × Nat) :=
  if pg = 0x15 then [(0x400000, 0x400800)] else if pg = 0x17 then [(0x40000, 0x40080)] else []

/-- Those of them that become active at the tick. A layer descriptor becomes active at a latch point, by R83. -/
def appliedWords (pg : Nat) : List (Nat × Nat) := if pg = 0x15 then [(0x400400, 0x400800)] else shadowedWords pg

/-- Copy window words of some intervals from one table into another. -/
def copyWords (iv : List (Nat × Nat)) (src dst : Tbl 72) : Tbl 72 :=
  let inside (k : Nat) : Bool := iv.any fun i => decide (i.1 ≤ k ∧ k < i.2)
  (src.filter fun e => inside e.1).foldl (fun d e => d.set e.1 e.2) (dst.filter fun e => !inside e.1)

/-- The pending entry of a page with a new target: several commits before one latch point merge (R20). -/
def Commits.accept (c : Commits) (pg n : Nat) : Commits :=
  { c with pend := (pg, n) :: c.pend.filter (fun e => !(e.1 == pg)), done := pg :: c.done.filter (· != pg) }

/-- A page accepts a commit for target `n` (R19, R42): SHD_STAT.APPLY_FRAME names it, and the shadow set as it stands is the
latest committed contents. -/
def State.acceptCommit (s : State) (pg n : Nat) : State :=
  let s1 := s.wr (SHD_STAT_APPLY_FRAME pg) n
  { s1 with commits := s1.commits.accept pg n,
            committed := copySet (rwsFields pg) s1.shadow s1.committed,
            winCommitted := copyWords (shadowedWords pg) s1.winShadow s1.winCommitted }

/-- COMMIT written in a page: accepted where the page has shadowed registers (R39). -/
def State.doCommit (s : State) (pg : Nat) : State :=
  if pageHasRws pg then s.acceptCommit pg s.commitTarget else s

/-- DISCARD written in a page (R42). -/
def State.doDiscard (s : State) (pg : Nat) : State :=
  if pageHasRws pg then
    let s1 := if s.commits.done.contains pg then
        { s with shadow := copySet (rwsFields pg) s.committed s.shadow,
                 winShadow := copyWords (shadowedWords pg) s.winCommitted s.winShadow }
      else { s with shadow := copySet (rwsFields pg) s.live s.shadow,
                    winShadow := copyWords (shadowedWords pg) s.win s.winShadow }
    s1.wr (SHD_STAT_DIRTY pg) 0
  else s

/-- A page's part in the latch point of tick `n`: a commit that targets `n` copies the shadow set (R41). -/
def State.latchPage (s : State) (pg n : Nat) : State :=
  if s.commits.pend.contains (pg, n) then
    let s1 := { s with latched := copySet (rwsFields pg) s.shadow s.latched,
                       winLatched := copyWords (shadowedWords pg) s.winShadow s.winLatched,
                       commits := { s.commits with pend := s.commits.pend.filter (· != (pg, n)),
                                                    latched := pg :: s.commits.latched.filter (· != pg) } }
    s1.wr (SHD_STAT_DIRTY pg) 0
  else s

/-- A page's part in a tick: a latched set becomes active and SHD_APPLIED is raised (R41). A change of an M-class field is a
change of the settings area (R302). -/
def State.applyPage (s : State) (pg : Nat) : State :=
  if s.commits.latched.contains pg then
    let changed := (rwsFields pg).any fun f => f.ret == .m && s.latched.get f.key != s.live.get f.key
    let s1 := { s with live := copySet (rwsFields pg) s.latched s.live,
                       win := copyWords (appliedWords pg) s.winLatched s.win,
                       commits := { s.commits with latched := s.commits.latched.filter (· != pg) } }
    ((s1.when changed fun s => s.markDirty 0)).raise pg 2
  else s

/-! ### Snapshots (R44) -/

/-- SNAP.REQ: DONE clears, and a copy is in flight; a request during a copy merges with it. -/
def State.snapStart (s : State) (pg : Nat) : State :=
  let s1 := s.wr (SNAP_DONE pg) 0
  { s1 with host := { s1.host with snapBusy := pg :: s1.host.snapBusy.filter (· != pg) } }

/-- The snapshot fields of a page. -/
def snapFields (pg : Nat) : List Fld := (blockFields pg).filter (·.snap)

/-- The copy in flight completes: the fields of the page, IMP's tile status words with them (Table 05-3), are copied as one, DONE sets
and SNAP_DONE is raised. -/
def State.snapFinish (s : State) (pg : Nat) : State :=
  if s.host.snapBusy.contains pg then
    let s1 := { s with snapd := copySet (snapFields pg) s.live s.snapd,
                       imp := if pg = 0x17 then { s.imp with statSnap := copyWords [(0x48000, 0x48080)] s.win s.imp.statSnap } else s.imp,
                       host := { s.host with snapBusy := s.host.snapBusy.filter (· != pg) } }
    ((s1.wr (SNAP_DONE pg) 1).wr (SNAP_FRAME pg) s1.frame).raise pg 3
  else s

end Sys2Proof.Machine
end

