-- ==== Sys2Proof/Machine/Intake.lean ====
section
/-! DEFINITION. Source intake (spec/03_intake.md): port modes, buffers, acceptance, loss of signal, picks and the pick log. -/

namespace Sys2Proof.Machine

open Host

/-! ### Shared operations -/

def State.port (s : State) (p : Nat) : Port := s.ports.getD p Port.reset

def State.setPort (s : State) (p : Nat) (x : Port) : State := { s with ports := s.ports.set p x }

def State.ingMode (s : State) (p : Nat) : Nat := s.rd (ING_CFG_MODE p)

/-- The mode of a port while it runs: in SENDER role with its block enabled and the data path on; in BENCH role only while a recording
is replayed; never in TILE role (R2, R8). -/
def State.ingRun (s : State) (p : Nat) : Nat :=
  if s.dataOn && s.blkOn (0x10 + p) && (s.isSender || (s.isBench && s.rd REC_STAT_STATE == 3)) then s.ingMode p else 0

/-- The port whose buffers a packet on port `p` fills: the lower port of a pair (R57). -/
def State.ingLower (s : State) (p : Nat) : Nat :=
  if (p = 1 ∨ p = 3) ∧ s.on (ING_CFG_PAIR (p - 1)) = true then p - 1 else p

/-- Whether port `p` is the upper port of a pair. -/
def State.ingUpper (s : State) (p : Nat) : Bool := s.ingLower p != p

/-- HPD (R54). -/
def State.hpd (s : State) (p : Nat) : Bool :=
  s.ingMode p == 1 && s.blkOn (0x10 + p) && s.on (ING_CFG_HPD_EN p)

/-- A multicast IPv4 address: 224.0.0.0/4. -/
def isMulticast (ip : Nat) : Bool := ip / 2 ^ 28 == 14

/-- Indices of the buffers the port owns. -/
def Port.owned (x : Port) : List Nat := List.range x.bufn

def Port.buf (x : Port) (k : Nat) : IngBuf := x.bufs.getD k IngBuf.empty

def Port.setBuf (x : Port) (k : Nat) (b : IngBuf) : Port := { x with bufs := x.bufs.set k b }

/-- Buffer `k` of a port as a layer reads it. -/
def Port.view (x : Port) (k : Nat) : BufView :=
  ⟨x.base.getD k 0, x.stride, x.fmt == 1, (x.buf k).width, (x.buf k).height⟩

/-- CRC-32 of a buffer's active bytes in address order (R327). -/
def State.bufferCrc (s : State) (b : BufView) : Nat :=
  crc32 ((List.range b.h).flatMap fun y => (s.mem.slice (b.base + y * b.stride) (b.w * if b.d32 then 4 else 8)).map BitVec.toNat)

/-- READY buffers of a port, newest capture stamp first; a PICKED buffer is not READY (R62). -/
def Port.ready (x : Port) : List Nat :=
  sortBy (fun a b => decide ((x.buf b).stamp ≤ (x.buf a).stamp))
    (x.owned.filter fun k => (x.buf k).st == .ready && (x.buf k).heldFor.isEmpty)

/-- The buffer a starting frame fills: a FREE one, else the oldest READY one that is not protected (R62). `prot` buffers are
protected: the newest READY one, or the two newest while following a pick log. -/
def Port.select (x : Port) (prot : Nat) : Option Nat :=
  match x.owned.find? (fun k => (x.buf k).st == .free && (x.buf k).heldFor.isEmpty) with
  | some k => some k
  | none => (x.ready.drop prot).getLast?

/-- The pick of a port holds: STATE = HELD; HELD (bit 13) is raised on the change (R58, R60). -/
def State.ingHold (s : State) (p : Nat) : State :=
  if s.rd (ING_PICK_STAT_STATE p) = 0 then
    let x := s.port p
    ((s.setPort p { x with pickD := { x.pickD with state := 1 }, pickS := { x.pickS with state := if x.pickS.state = 2 then 2 else 1 } }).wr
      (ING_PICK_STAT_STATE p) 1).raise (0x10 + p) 13
  else s

/-- SRC_STAT.LINK takes a value; LINK (bit 4) is raised on every change. -/
def State.ingLink (s : State) (p : Nat) (up : Bool) : State :=
  if s.rd (ING_SRC_STAT_LINK p) = b2n up then s else (s.wr (ING_SRC_STAT_LINK p) (b2n up)).raise (0x10 + p) 4

/-- Whether address `a` lies in the lines of the frame in buffer `k`. -/
def Port.spans (x : Port) (k a : Nat) : Bool :=
  decide (x.base.getD k 0 ≤ a ∧ a < x.base.getD k 0 + x.stride * (x.buf k).height)

/-- In mode 1 the main link fills the lines of buffer `k` in order, up to line `upto`: no command carries its pixels, so their bytes are
free values (R61); lines not yet in memory keep the buffer's older content (R66). -/
def State.linkPixels (s : State) (p k upto : Nat) : State :=
  let x := s.port p
  let b := x.buf k
  if s.ingRun p = 1 ∧ b.lines < upto then
    let n := x.stride * (upto - b.lines)
    { (s.setPort p (x.setBuf k { b with lines := upto })).storeBytes (x.base.getD k 0 + x.stride * b.lines) ((List.range n).map fun i =>
        BitVec.ofNat 8 (Config.freeValue (s.freeCtr + i)).toNat) with freeCtr := s.freeCtr + n }
  else s

/-- While a composition reads the frame in progress of a mode 1 port, some further lines of it, of those that are left, have come into
memory. -/
def State.linkMore (s : State) (p : Nat) : State :=
  match (s.port p).cur with
  | some k =>
    let b := (s.port p).buf k
    s.drawn.linkPixels p k (min b.height (b.lines + s.free % (b.height + 1)))
  | none => s

/-- The frame in progress of a port is discarded as INCOMPLETE, and its buffer becomes FREE (R51, R59). -/
def State.ingIncomplete (s : State) (p : Nat) : State :=
  let x := s.port p
  match x.cur with
  | none => s
  | some k =>
    let y := x.setBuf k { x.buf k with st := .free }
    ((s.setPort p { y with cur := none, lost := false }).bump (ING_CNT_A_INCOMPLETE p)).raise (0x10 + p) 7

/-- What a join or a leave names: the group, and the source of a source-specific join (R56). -/
def State.igmpData (s : State) (p : Nat) : List Nat :=
  s.rd (ING_STREAM_DST_IP p) :: (if s.on (ING_STREAM_SSM p) then [s.rd (ING_STREAM_SRC_SRC_IP p)] else [])

/-- Join the group of ING.STREAM when the port runs in mode 2 and the destination is a multicast address (R56). -/
def State.ingJoin (s : State) (p : Nat) : State :=
  if s.ingMode p = 2 ∧ isMulticast (s.rd (ING_STREAM_DST_IP p)) = true then
    (s.setPort p { s.port p with joined := true }).send (.net p .igmpJoin (s.igmpData p))
  else s

/-- What a write that has changed MODE brings about (R51, R56, R61): `old` is the mode before it. -/
def State.ingModeChanged (s : State) (p old : Nat) : State :=
  let new := s.ingMode p
  if new = old then s
  else
    let s1 := s.ingIncomplete p
    let x := s1.port p
    let newest := x.ready.head?
    let freed := x.bufs.zipIdx.map fun e =>
      if some e.2 = newest ∨ e.1.heldFor ≠ [] then e.1 else { e.1 with st := .free }
    let y := { x with bufs := freed, holdMode := true, starts := [] }
    let z := if old = 0 then
        { y with bufn := s.rd (ING_CFG_BUFN p), fmt := s.rd (ING_CFG_BUFFMT p), stride := s.rd (ING_BUF_STRIDE_STRIDE p),
                 base := (List.range 4).map fun k => s.rd (ING_BUF_BASE_ADDR p k) }
      else y
    let s2 := (s1.setPort p z).ingLink p false
    let s3 := if old = 2 ∧ z.joined = true then
        (s2.setPort p { z with joined := false }).send (.net p .igmpLeave (s2.igmpData p)) else s2
    if new = 2 then s3.ingJoin p else s3

/-! ### Picks (R65, R68, R69) -/

/-- A pick over a port's buffers: the candidate with the newest capture stamp; none found, or the same frame again, holds the
previous pick. -/
def Port.pickFrom (x : Port) (prev : IngPick) (cand : List Nat) : IngPick :=
  let best := (sortBy (fun a b => decide ((x.buf b).stamp ≤ (x.buf a).stamp)) cand).head?
  match best with
  | some k =>
    if prev.state ≠ 2 ∧ prev.seq = (x.buf k).seq ∧ prev.stamp = (x.buf k).stamp then { prev with buf := some k, state := 1 }
    else ⟨some k, 0, (x.buf k).stamp, (x.buf k).seq⟩
  | none => { prev with state := if prev.state = 2 then 2 else 1 }

/-- The default pick's candidates at a cutoff: READY buffers complete by then. -/
def Port.candD (x : Port) (cut : Nat) : List Nat :=
  x.owned.filter fun k => (x.buf k).st == .ready && decide ((x.buf k).done ≤ cut)

/-- The slice pick's candidates: FILLING or READY buffers started by then. -/
def Port.candS (x : Port) (cut : Nat) : List Nat :=
  x.owned.filter fun k => (x.buf k).st != .free && decide ((x.buf k).start ≤ cut)

/-- The picks are made for frame `n`: their buffers are held for its composition, PICK_STAT shows the default pick, HELD is
raised on a change to HELD, and a sender's recorder notes each frame picked (R62, R327). -/
def State.ingTake (s : State) (p n : Nat) (d sl : IngPick) (follow : Bool) : State :=
  let x := s.port p
  let hold (x : Port) (k : Option Nat) : Port :=
    match k with
    | some i => x.setBuf i { x.buf i with heldFor := n :: (x.buf i).heldFor.filter (· != n) }
    | none => x
  let y := hold (hold { x with pickD := d, pickS := sl } d.buf) sl.buf
  let wasHeld := s.rd (ING_PICK_STAT_STATE p) == 1
  let s1 := ((((s.setPort p y).wr (ING_PICK_STAT_BUF p) (d.buf.getD (s.rd (ING_PICK_STAT_BUF p)))).wr
    (ING_PICK_STAT_STATE p) d.state).wr (ING_PICK_STAT_FOLLOW p) (b2n follow)).wr (ING_PICK_STAT_STAMP p) d.stamp
  let s2 := s1.when (d.state == 1 && !wasHeld) fun s => s.raise (0x10 + p) 13
  match d.buf with
  | some k => s2.recWrite 0x13 0 [p, d.stamp, (y.buf k).done, d.state, (y.buf k).crc]
  | none => s2

/-- Whether a port's picks hold: after a mode change until a frame is complete (R51), and on loss of signal (R60). -/
def State.ingHolds (s : State) (p : Nat) : Bool := (s.port p).holdMode || s.on (ING_SRC_STAT_LOS p)

/-- A port picks by R65 for tick `n`, unless its picks hold. -/
def State.ingPick (s : State) (p n : Nat) : State :=
  let x := s.port p
  let cut := s.latchTime n - s.rd (ING_TIMING_MARGIN_US p) * 1000 * 65536
  let d := if s.ingHolds p then x.pickFrom x.pickD [] else x.pickFrom x.pickD (x.candD cut)
  let sl := if s.ingHolds p then x.pickFrom x.pickS [] else x.pickFrom x.pickS (x.candS cut)
  s.ingTake p n d sl false

/-- Ports that pick: each one but the upper port of a pair (R57, R65). -/
def State.pickPorts (s : State) : List Nat := (List.range 4).filter fun p => !s.ingUpper p

/-- Ports that the pick log marks valid: those that pick and whose MODE is not 0 (notes/assumptions/21.md). -/
def State.validPorts (s : State) : List Nat := s.pickPorts.filter fun p => s.ingMode p != 0

/-- The pick log record of tick `n` (Table 03-5): ten words with their tags. -/
def State.pickLog (s : State) (n : Nat) : List Nat :=
  let mask := s.validPorts.foldl (fun a p => a + 2 ^ p) 0
  let ent (k : IngPick) : Nat := k.stamp % 2 ^ 48 + k.state * 2 ^ 48 + k.seq % 16384 * 2 ^ 50
  let body := (n % 2 ^ 48 + mask * 2 ^ 48 + s.pickSeq % 4096 * 2 ^ 52) ::
    (List.range 4).flatMap fun p => [ent (s.port p).pickD, ent (s.port p).pickS]
  let tags := 0xA1 :: (List.range 4).flatMap fun _ => [0xA2, 0xA3]
  (body.zip tags).map (fun e => e.1 + e.2 * 2 ^ 64) ++ [crc32 (body.flatMap (leBytes 8)) + 0xA4 * 2 ^ 64]

/-- Whether ten words are a pick log record with a valid CRC for tick `n`. -/
def pickLogValid (ws : List Nat) (n : Nat) : Bool :=
  let tags := [0xA1, 0xA2, 0xA3, 0xA2, 0xA3, 0xA2, 0xA3, 0xA2, 0xA3, 0xA4]
  ws.length == 10 && (ws.map (· / 2 ^ 64) == tags) && decide (ws.getD 0 0 % 2 ^ 48 = n % 2 ^ 48) &&
    ws.getD 9 0 % 2 ^ 64 == crc32 ((ws.take 9).flatMap fun w => leBytes 8 (w % 2 ^ 64))

/-- An active sender sends the pick log in both ring directions and to its partner (R67). -/
def State.sendPickLog (s : State) (n : Nat) : State :=
  let ws := s.pickLog n
  (({ s with pickSeq := s.pickSeq + 1 }.sendSides 0xA ws).sendEther 0xA s.ring ws).recWrite 0x10 0 ws

/-- Intake's part in the latch point of tick `n` (R65, R67): a sender that is active on a ring picks and sends the log; one that is
active on none waits for the record; a bench part picks and sends nothing. -/
def State.ingLatch (s : State) (n : Nat) : State :=
  if s.isSender && !s.anyActive then { s with pickFollowed := false }
  else (s.each s.pickPorts fun s p => s.ingPick p n).when s.isSender fun s => s.sendPickLog n

/-- The buffer of a port whose stamp matches a record's entry (R68): of several within TOL_US the one with the lowest index, which is
the model's choice (notes/assumptions/21.md). -/
def State.pickMatch (s : State) (p : Nat) (x : Port) (cand : List Nat) (stamp : Nat) : Option Nat :=
  let tol := if s.ingMode p ≠ 1 then 0 else s.rd (ING_TIMING_TOL_US p) * 1000
  cand.find? fun k => decide ((x.buf k).stamp ≤ stamp + tol ∧ stamp ≤ (x.buf k).stamp + tol)

/-- One entry of a record as the follower takes it: the pick, and whether a match was missing. -/
def State.followOne (s : State) (p : Nat) (x : Port) (prev : IngPick) (cand : List Nat) (e : Nat) : IngPick × Bool :=
  let held := { prev with state := if prev.state = 2 then 2 else 1 }
  if bitsOf e 49 48 ≠ 0 then (held, false)
  else match s.pickMatch p x cand (bitsOf e 47 0) with
    | some k => (⟨some k, 0, (x.buf k).stamp, (x.buf k).seq⟩, false)
    | none => (held, true)

/-- A follower takes the picks of a record for one port (R68). While the port's picks hold, only the buffer it holds can match. A miss
of both entries counts once (notes/assumptions/21.md). -/
def State.followPort (s : State) (n : Nat) (ws : List Nat) (p : Nat) : State :=
  let x := s.port p
  let cand (held : IngPick) (l : List Nat) : List Nat := if s.ingHolds p then held.buf.toList else l
  let d := s.followOne p x x.pickD (cand x.pickD (x.owned.filter fun k => (x.buf k).st == .ready)) (ws.getD (1 + 2 * p) 0)
  let sl := s.followOne p x x.pickS (cand x.pickS (x.owned.filter fun k => (x.buf k).st != .free)) (ws.getD (2 + 2 * p) 0)
  let s1 := s.ingTake p n d.1 sl.1 true
  s1.when (d.2 || sl.2) fun s => ((s.bump (ING_CNT_A_PICK_MISS p)).raise (0x10 + p) 9).missRecord

/-- The composition of frame `n` has ended: buffers it held by a pick become READY again, or FREE if a newer READY buffer
exists (R62). -/
def State.ingRelease (s : State) (n : Nat) : State :=
  s.each (List.range 4) fun s p =>
    let x := s.port p
    let y : Port := { x with bufs := x.bufs.map fun b => { b with heldFor := b.heldFor.filter (· != n) } }
    let newer (b : IngBuf) : Bool := y.ready.any fun k => decide (b.stamp < (y.buf k).stamp)
    s.setPort p { y with bufs := (x.bufs.zip y.bufs).map fun e =>
      if e.1.heldFor.contains n && e.2.heldFor.isEmpty && e.2.st == .ready && newer e.2 then { e.2 with st := .free } else e.2 }

/-! ### Commands -/

/-- DP_LINK_TRAINING (R53): the link comes up at a rate and lane count within DP_MAXRATE and DP_LANES. -/
def execDpLinkTraining (p : Fin 4) (rate lanes : BitVec 2) (s : State) : Outcome State Fault Refusal :=
  if s.ingRun p = 1 then
    .next ((s.setPort p { s.port p with dpRate := min rate.toNat (s.rd (ING_CFG_DP_MAXRATE p)),
                                         dpLanes := min lanes.toNat (s.rd (ING_CFG_DP_LANES p)) }).ingLink p true)
  else .next s

/-- AUX_TRANSACTION (R53, Table 03-2): answered from the DPCD image or the EDID; an invalid one is NACKed and counted. -/
def execAuxTransaction (p : Fin 4) (a : AuxReq) (s : State) : Outcome State Fault Refusal :=
  if s.ingRun p = 1 then
    match a with
    | .invalid => .next ((s.bump (ING_CNT_B_AUX_ERR p)).send (.net p .auxNack []))
    | .dpcd addr => .next ((s.send (.net p .auxAck [addr.toNat, s.free % 256])).drawn)
    | .edid o => .next (s.send (.net p .edid
        [o.toNat, bitsOf (s.rd (ING_EDID_DATA p (o.toNat / 8))) (8 * (o.toNat % 8) + 7) (8 * (o.toNat % 8))]))
  else .next s

/-- Whether a packet matches the port's stream (R55). -/
def State.streamMatch (s : State) (p : Nat) (k : Packet) : Bool :=
  k.dstIp.toNat == s.rd (ING_STREAM_DST_IP p) && k.udp.toNat == s.rd (ING_STREAM_UDP p) &&
    k.pt.toNat == s.rd (ING_STREAM_PT p) &&
    (!s.on (ING_STREAM_SSM p) || k.srcIp.toNat == s.rd (ING_STREAM_SRC_SRC_IP p))

/-- Bits of a depth code of ING.ST2110. -/
def codeBits (d : Nat) : Nat := if d = 0 then 8 else if d = 1 then 10 else if d = 2 then 12 else 16

/-- R′, G′, B′ of a pixel in code values of the stream's depth: 4:2:2 chroma is interpolated, YCbCr goes through the matrix of CSC
(R61). -/
def State.sampleRgb (s : State) (p : Nat) (x : Sample) : List Nat :=
  let bits := codeBits (s.rd (ING_ST2110_DEPTH p))
  let cut (v : Nat) : Nat := v % 2 ^ bits
  let c : Nat × Nat × Nat := match x with
    | .full a b c => (cut a.toNat, cut b.toNat, cut c.toNat)
    | .sub y cb cr => (cut y.toNat, Config.chroma (cb.map fun v => cut v.toNat), Config.chroma (cr.map fun v => cut v.toNat))
  if s.rd (ING_ST2110_SAMPLING p) = 0 then [c.1, c.2.1, c.2.2]
  else (List.range 3).map fun i => cut (Config.csc (s.rd (ING_CFG_CSC p)) (s.on (ING_ST2110_FULLRANGE p)) bits c.1 c.2.1 c.2.2 i)

/-- A component's code of `bits` bits in a storage format (Table 03-3): left-aligned in 16 bits for D64; for D32 shifted to 10 bits, or
rounded half up to 10 bits. -/
def storeCode (d32 : Bool) (bits v : Nat) : Nat :=
  if d32 then (if bits ≤ 10 then v * 2 ^ (10 - bits) else min 1023 ((v + 2 ^ (bits - 11)) / 2 ^ (bits - 10)))
  else v * 2 ^ (16 - bits)

/-- The bytes of a stored pixel (Table 03-3). -/
def pixelBytes (d32 : Bool) (c : List Nat) : List Byte :=
  let w := if d32 then c.getD 0 0 + c.getD 1 0 * 2 ^ 10 + c.getD 2 0 * 2 ^ 20 + 3 * 2 ^ 30
    else c.getD 0 0 + c.getD 1 0 * 2 ^ 16 + c.getD 2 0 * 2 ^ 32 + 0xFFFF * 2 ^ 48
  (leBytes (if d32 then 4 else 8) w).map (BitVec.ofNat 8)

/-- The bytes that a packet's pixels take in a buffer of a port's format. -/
def State.packetBytes (s : State) (p : Nat) (x : Port) (k : Packet) : List Byte :=
  let d32 := x.fmt == 1
  k.pixels.flatMap fun v => pixelBytes d32 ((s.sampleRgb p v).map (storeCode d32 (codeBits (s.rd (ING_ST2110_DEPTH p)))))

/-- The address of a packet's line and offset in buffer `i` of a port (R57). -/
def Port.packetAddr (x : Port) (i : Nat) (k : Packet) : Nat :=
  x.base.getD i 0 + k.line.toNat * x.stride + k.offset.toNat * (if x.fmt = 1 then 4 else 8)

/-- Whether a packet's pixels lie inside the raster of the frame in buffer `i`. -/
def Port.packetFits (x : Port) (i : Nat) (k : Packet) : Bool :=
  decide (k.line.toNat < (x.buf i).height ∧ k.offset.toNat + k.pixels.length ≤ (x.buf i).width)

/-- ST2110_PACKET (R55, R57, R61, R71): a packet of the stream is converted and written into the buffer in progress, where its line and
offset place it; one the intake FIFO could not take loses the frame; any other packet counts FOREIGN. -/
def execSt2110Packet (p : Fin 4) (k : Packet) (s : State) : Outcome State Fault Refusal :=
  if s.ingRun p = 2 then
    if s.streamMatch p k then
      let q := s.ingLower p
      let x := s.port q
      match x.cur with
      | some i =>
        if k.stored = false then .next (s.setPort q { x with lost := true })
        else if x.packetFits i k then .next (s.storeBytes (x.packetAddr i k) (s.packetBytes q x k))
        else .next s
      | none => .next s
    else .next (s.bump (ING_CNT_B_FOREIGN p))
  else .next s

/-- IGMP_QUERY (R56): the port answers for its group. -/
def execIgmpQuery (p : Fin 4) (s : State) : Outcome State Fault Refusal :=
  if s.ingRun p = 2 ∧ (s.port p).joined = true then .next (s.send (.net p .igmpReport (s.igmpData p))) else .next s

/-- ARP_REQUEST (R56): answered for LOCAL_IP with the unit's base MAC address plus the port number. -/
def execArpRequest (p : Fin 4) (ip : BitVec 32) (s : State) : Outcome State Fault Refusal :=
  if s.ingRun p = 2 ∧ ip.toNat = s.rd (ING_STREAM_SRC_LOCAL_IP p) then
    .next (s.send (.net p .arpReply [ip.toNat, Config.macBase.toNat + p.val]))
  else .next s

/-- Mean frame rate over the recorded frame starts, in mHz; none with fewer than two (R58). -/
def meanRate (starts : List Nat) : Option Nat :=
  match starts.head?, starts.getLast? with
  | some a, some b => if b < a then some ((starts.length - 1) * 1000000000000 * 65536 / (a - b)) else none
  | _, _ => none

/-- A frame start as the port sees it: in mode 2 ING.ST2110 describes the raster and the format (R55). -/
def State.frameSeen (s : State) (p : Nat) (f : FrameStart) : FrameStart :=
  if s.ingRun p = 2 then
    { f with width := s.rd (ING_ST2110_WIDTH p), height := s.rd (ING_ST2110_HEIGHT p),
             fmt := BitVec.ofNat 4 (4 * s.rd (ING_ST2110_SAMPLING p) + s.rd (ING_ST2110_DEPTH p)) }
  else f

/-- How far `n` counts of the 90 kHz media clock lie from wall time `t`, in 2^-16 ns × 90,000. -/
def stampDist (n t : Nat) : Nat := ((n * 65536000000000 : Int) - (t * 90000 : Int)).natAbs

/-- An RTP time stamp expanded to counts of the media clock: the wrap of 2^32 that lies nearest wall time `t` (R64). -/
def rtpCount (rtp : BitVec 32) (t : Nat) : Nat :=
  let m := t * 90000 / 65536000000000 / 2 ^ 32
  let c (i : Nat) : Nat := i * 2 ^ 32 + rtp.toNat
  let best := if stampDist (c (m + 1)) t < stampDist (c m) t then c (m + 1) else c m
  if 0 < m ∧ stampDist (c (m - 1)) t < stampDist best t then c (m - 1) else best

/-- The capture stamp of a frame in ns modulo 2^48 (R64): the start time in mode 1, the expanded RTP time stamp in mode 2. -/
def State.captureStamp (s : State) (p : Nat) (f : FrameStart) : Nat :=
  (if s.ingRun p = 2 then roundAt .stamp (rtpCount f.rtp f.t * 100000) 9 else roundAt .stamp f.t 65536).toNat % 2 ^ 48

/-- Whether an RTP time stamp lies within one frame period of ING.ST2110 of its arrival (Table 03-2). -/
def State.stampNear (s : State) (p : Nat) (f : FrameStart) : Bool :=
  decide (stampDist (rtpCount f.rtp f.t) f.t * s.rd (ING_ST2110_RATE_NUM p) ≤ 90000 * s.rd (ING_ST2110_RATE_DEN p) * 65536000000000)

/-- Why a frame is refused, if it is (R52, R58, Table 03-2): 1 raster, 2 rate, 3 format, 4 pixel rate, 5 STAMP. -/
def State.refusal (s : State) (p : Nat) (f : FrameStart) (rate : Option Nat) : Nat :=
  if f.width < s.rd (ING_ACC_RASTER_HMIN p) ∨ s.rd (ING_ACC_RASTER_HMAX p) < f.width ∨
      f.height < s.rd (ING_ACC_RASTER_VMIN p) ∨ s.rd (ING_ACC_RASTER_VMAX p) < f.height then 1
  else if rate.any (fun r => decide (r < s.rd (ING_ACC_RATE_RMIN p) ∨ s.rd (ING_ACC_RATE_RMAX p) < r)) then 2
  else if (s.rd (ING_ACC_RATE_FMT p)).testBit f.fmt.toNat = false then 3
  else if rate.any (fun r => decide (2600000000 * 1000 < f.width * f.height * r)) then 4
  else if s.ingRun p = 2 ∧ s.stampNear p f = false then 5
  else 0

/-- SOURCE_FRAME_START (R58, R59, R60, R62, R64). -/
def execSourceFrameStart (p : Fin 4) (seen : FrameStart) (s : State) : Outcome State Fault Refusal :=
  if s.ingRun p = 0 ∨ s.ingUpper p = true then .next s
  else
    let f := s.frameSeen p seen
    let s1 := s.ingIncomplete p
    let x := s1.port p
    let starts := (f.t :: x.starts).take 8
    let rate := meanRate starts
    let s2 := ((((s1.setPort p { x with starts := starts, seq := x.seq + 1 }).wr (ING_SRC_STAT_WIDTH p) f.width).wr
      (ING_SRC_STAT_HEIGHT p) f.height).wr (ING_SRC_STAT_RATE p) (min (rate.getD 0) (2 ^ 18 - 1))).wr (ING_SRC_STAT_FMT p) f.fmt.toNat
    let x2 := s2.port p
    let why := s2.refusal p f rate
    if why ≠ 0 then
      let s3 := (((s2.setPort p { x2 with refused := true, accepted := false, cur := none }).bump (ING_CNT_A_ACC_FAIL p)).wr
        (ING_SRC_STAT_ACC_WHY p) why).when x2.accepted fun s => s.raise (0x10 + p.val) 6
      .next (s3.ingHold p)
    else
      let s3 := s2.wr (ING_SRC_STAT_LOS p) 0
      match x2.select (if s.anyActive then 1 else 2) with
      | some k =>
        .next (s3.setPort p ({ x2 with refused := false, accepted := true, cur := some k, lost := false }.setBuf k
          { IngBuf.empty with st := .filling, stamp := s.captureStamp p f, start := f.t, seq := x2.seq % 16384, width := f.width,
                              height := f.height }))
      | none =>
        .next (((s3.setPort p { x2 with refused := false, accepted := true, cur := none, lost := false }).bump (ING_CNT_A_DROP p)).raise
          (0x10 + p.val) 8)

/-- SOURCE_FRAME_COMPLETE (R64, R327): the buffer becomes READY with its completion time and the CRC of its bytes; a frame that lost
content stays to become INCOMPLETE at the next start. -/
def execSourceFrameComplete (p : Fin 4) (t : Nat) (s : State) : Outcome State Fault Refusal :=
  let x := s.port p
  match (if s.dataOn then x.cur else none) with
  | some k =>
    if x.lost then .next s
    else
      let s1 := s.linkPixels p k (x.buf k).height
      .next (s1.setPort p ({ s1.port p with cur := none, holdMode := false }.setBuf k
        { (s1.port p).buf k with st := .ready, done := t, crc := s1.bufferCrc ((s1.port p).view k) }))
  | _ => .next s

/-- PATH_LATE (R57): the packets of a path that trails the other by more than SKEW_US are counted, and PATH (bit 11) is raised. -/
def execPathLate (p : Fin 4) (upper : Bool) (skewUs packets : Nat) (s : State) : Outcome State Fault Refusal :=
  if s.on (ING_CFG_PAIR p) = true ∧ (p.val = 0 ∨ p.val = 2) ∧ s.ingRun p = 2 ∧ s.rd (ING_TIMING_SKEW_US p) < skewUs then
    .next ((s.bumpBy (if upper then ING_CNT_B_LATE_P1 p else ING_CNT_B_LATE_P0 p) packets).raise (0x10 + p.val) 11)
  else .next s

/-- LOSS_OF_SIGNAL (R60): LOS sets and is raised (bit 5), and the pick is held. -/
def execLossOfSignal (p : Fin 4) (s : State) : Outcome State Fault Refusal :=
  if s.ingRun p = 0 then .next s
  else
    let s1 := s.when (!s.on (ING_SRC_STAT_LOS p)) fun s => (s.wr (ING_SRC_STAT_LOS p) 1).raise (0x10 + p.val) 5
    .next (s1.ingHold p)

/-- ING_BLOCK_LOCK_CHANGE (Table 03-2, mode 2): the link state follows block lock and alignment. -/
def execIngBlockLockChange (p : Fin 4) (locked : Bool) (s : State) : Outcome State Fault Refusal :=
  if s.ingRun p = 2 then .next (s.ingLink p locked) else .next s

/-- PICK_LOG_RECEIVE (R68): a standby sender takes the record's picks for the coming tick, of each port that the record marks valid. A
port that it does not mark keeps its picks (notes/assumptions/21.md). -/
def execPickLogReceive (via : Via) (words : List Word72) (s : State) : Outcome State Fault Refusal :=
  let ws := words.map BitVec.toNat
  let n := s.frame + 1
  if s.isSender = true ∧ s.accepts via = true ∧ s.anyActive = false ∧ s.pickFollowed = false ∧ pickLogValid ws n = true then
    let s1 := s.each (List.range 4) fun s p =>
      if (bitsOf (ws.getD 0 0) 51 48).testBit p then s.followPort n ws p
      else s.ingTake p n ((s.port p).pickFrom (s.port p).pickD []) ((s.port p).pickFrom (s.port p).pickS []) false
    .next ({ s1 with pickFollowed := true }.recWrite 0x10 0 ws)
  else .next s

/-- PICK_SELF (R69): no valid record by the tick; the follower picks by R65, counts and raises PICK_SELF (bit 10). -/
def execPickSelf (s : State) : Outcome State Fault Refusal :=
  if s.isSender = true ∧ s.anyActive = false ∧ s.pickFollowed = false ∧ s.latchDone = true then
    .next { (s.selfRecord.each s.pickPorts fun s p =>
      (((s.ingPick p (s.frame + 1)).bump (ING_CNT_A_PICK_SELF p)).raise (0x10 + p) 10)) with pickFollowed := true }
  else .next s

end Sys2Proof.Machine
end

