-- ==== Sys2Proof/Machine/Compose.lean ====
section
/-! DEFINITION. Layer composition and scaling (spec/04_composition.md): layer descriptors, the path from code value to light,
blending, flips, fences, the flip log, buffer pinning and release. -/

namespace Sys2Proof.Machine

open Host

/-! ### Layer descriptors (Table 04-1) -/

/-- Key of word `i` of layer `l`'s descriptor. -/
def layerKey (l i : Nat) : Nat := 0x400000 + 16 * l + i

/-- The active descriptor of a layer. -/
def State.layerActive (s : State) (l : Nat) : List Word72 := s.win.slice (layerKey l 0) 16

/-- The latched descriptor of a layer. -/
def State.layerLatched (s : State) (l : Nat) : List Word72 := s.winLatched.slice (layerKey l 0) 16

/-- Bits [hi:lo] of word `i` of a descriptor. -/
def dsc (d : List Word72) (i hi lo : Nat) : Nat := bitsOf (d.getD i 0).toNat hi lo

def dHandle (d : List Word72) : Nat := dsc d 0 11 0
def dSlice (d : List Word72) : Bool := dsc d 0 12 12 == 1
def dEnable (d : List Word72) : Bool := dsc d 0 13 13 == 1
def dFeeds (d : List Word72) : Nat := dsc d 0 17 14
def dGroup (d : List Word72) : Nat := dsc d 0 21 18
def dFenceId (d : List Word72) : Nat := dsc d 0 27 22
def dFenceEn (d : List Word72) : Bool := dsc d 0 28 28 == 1
def dAwait (d : List Word72) : Nat := dsc d 0 63 32
def dCropX (d : List Word72) : Nat := dsc d 1 15 0
def dCropY (d : List Word72) : Nat := dsc d 1 31 16
def dCropW (d : List Word72) : Nat := dsc d 1 47 32
def dCropH (d : List Word72) : Nat := dsc d 1 63 48
def dDstX (d : List Word72) : Nat := dsc d 2 25 0
def dDstY (d : List Word72) : Nat := dsc d 2 51 26
def dUnit (d : List Word72) : Nat := dsc d 3 43 40
def dScaled (d : List Word72) : Bool := dUnit d != 15
/-- Units used: SCL_SPAN 0 one, 1 two, 2 four (R89). -/
def dSpan (d : List Word72) : Nat := if dsc d 3 45 44 = 0 then 1 else if dsc d 3 45 44 = 1 then 2 else 4
/-- Canvas size; an unscaled layer has its crop's size (Table 04-1). -/
def dDstW (d : List Word72) : Nat := if dScaled d then dsc d 3 19 0 else dCropW d
def dDstH (d : List Word72) : Nat := if dScaled d then dsc d 3 39 20 else dCropH d
def dTaps (d : List Word72) : Nat := if dsc d 3 55 54 = 0 then 2 else if dsc d 3 55 54 = 1 then 4 else 6
def dTwoPass (d : List Word72) : Bool := dsc d 3 56 56 == 1
def dPass1H (d : List Word72) : Nat := dsc d 4 15 0
def dInterm (d : List Word72) : Nat := dsc d 4 27 16
def dTf (d : List Word72) : Nat := dsc d 5 2 0

/-- Columns and rows a layer covers, inclusive: floor(DST_X) to ceil(DST_X + DST_W) − 1 (R105). An unscaled layer's
fractional position bits are ignored. -/
def dRect (d : List Word72) : Nat × Nat × Nat × Nat :=
  let fx := if dScaled d then dDstX d else dDstX d / 64 * 64
  let fy := if dScaled d then dDstY d else dDstY d / 64 * 64
  (fx / 64, ceilDiv (fx + 64 * dDstW d) 64 - 1, fy / 64, ceilDiv (fy + 64 * dDstH d) 64 - 1)

/-! ### Buffer table (Table 04-3) -/

/-- Key of word `i` of the entry of handle `h`. -/
def bufKey (h i : Nat) : Nat := 0x400800 + 4 * h + i

def State.bufWord (s : State) (h i hi lo : Nat) : Nat := bitsOf (s.word (bufKey h i)).toNat hi lo
def State.bufState (s : State) (h : Nat) : Nat := s.bufWord h 2 49 48
def State.bufRetire (s : State) (h : Nat) : Nat := s.bufWord h 2 47 0
def State.bufValid (s : State) (h : Nat) : Bool := s.bufWord h 0 61 61 == 1

/-- Give an entry a STATE and RETIRE_FRAME. -/
def State.setBufState (s : State) (h st retire : Nat) : State :=
  s.setWord (bufKey h 2) (setBits (setBits (s.word (bufKey h 2)) 49 48 st) 47 0 retire)

/-- The buffer a handle names, if it is VALID. -/
def State.bufOf (s : State) (h : Nat) (slice : Bool) : Option BufView :=
  if h < 4 then
    let x := s.port h
    match (if slice then x.pickS else x.pickD).buf with
    | some k => some (x.view k)
    | none => none
  else if 0x10 ≤ h ∧ s.bufValid h = true then
    some ⟨s.bufWord h 0 35 0, s.bufWord h 0 59 36, s.bufWord h 0 60 60 == 1, s.bufWord h 1 14 0, s.bufWord h 1 29 15⟩
  else none

/-! ### From code value to linear light (R79, R80) -/

/-- The four code fields of a stored pixel, left-justified to 16 bits, C3 last (Table 03-3). -/
def State.codes (s : State) (b : BufView) (x y : Nat) : List Nat :=
  let le (a n : Nat) : Nat := ((s.mem.slice a n).map BitVec.toNat).foldr (fun v acc => v + 256 * acc) 0
  if b.d32 then
    let v := le (b.base + y * b.stride + 4 * x) 4
    [bitsOf v 9 0 * 64, bitsOf v 19 10 * 64, bitsOf v 29 20 * 64, bitsOf v 31 30]
  else
    let v := le (b.base + y * b.stride + 8 * x) 8
    [bitsOf v 15 0, bitsOf v 31 16, bitsOf v 47 32, bitsOf v 63 48]

/-- Source alpha with 24 fractional bits (R79): C3 / 65,536 with 0xFFFF read as 1.0 in D64; 0, 1/3, 2/3 or 1 in D32. -/
def alphaOf (b : BufView) (c3 : Nat) : Nat :=
  if b.d32 then (roundAt .quant (c3 * 2 ^ 24) 3).toNat else if c3 = 0xFFFF then 2 ^ 24 else c3 * 256

/-- Stored depth in bits. -/
def depthBits (d : List Word72) : Nat :=
  let c := dsc d 5 9 8
  if c = 0 then 8 else if c = 1 then 10 else if c = 2 then 12 else 16

/-- The `k` highest bits below 2^`k` that keep `ok`, which holds of all numbers up to a bound. -/
def bitSearch (ok : Nat → Bool) : Nat → Nat → Nat
  | 0, acc => acc
  | k + 1, acc => bitSearch ok k (if ok (acc + 2 ^ k) then acc + 2 ^ k else acc)

/-- ITU-R BT.1886 (Table 04-4): SIG_NITS × V^2.4 in U14.18. The fifth power of the result is compared with the twelfth of V. -/
def bt1886 (sigNits num den : Nat) : Nat :=
  let e := bitSearch (fun e => decide (e ^ 5 * den ^ 12 ≤ (sigNits * 2 ^ 18) ^ 5 * num ^ 12)) 32 0
  if e ^ 5 * den ^ 12 = (sigNits * 2 ^ 18) ^ 5 * num ^ 12 then e
  else if Config.roundsUp .eotf (sigNits * num) den then e + 1 else e

/-- Linear interpolation from `a` to `b` at num / den (R79 step 2, R80). -/
def lerp (a b num den : Nat) : Nat := (roundAt .lerp ((a : Int) * den + ((b : Int) - a) * num) den).toNat

/-- Steps 1 and 2 of R79: a code in linear light, U14.18 cd/m². -/
def State.toLinear (s : State) (d : List Word72) (c : Nat) : Nat :=
  let den := if dsc d 5 7 7 = 1 then 56064 else (2 ^ depthBits d - 1) * 2 ^ (16 - depthBits d)
  let num := min den (if dsc d 5 7 7 = 1 then c - 4096 else c)
  let nits := dsc d 5 23 10
  if dTf d = 4 then
    let p (i : Nat) : Nat := bitsOf (s.word (0x430000 + 8192 * dsc d 5 6 3 + i)).toNat 31 0
    let i := num * 4096 / den
    lerp (p i) (p (i + 1)) (num * 4096 % den) den
  else if dTf d = 0 then (roundAt .eotf (num * nits * 2 ^ 18) den).toNat
  else if dTf d = 1 then bt1886 nits num den
  else if num = 0 then 0
  else if dTf d = 2 then (if num = den then 10000 * 2 ^ 18 else min (10000 * 2 ^ 18) (Config.pqEotf num den))
  else if num = den then nits * 2 ^ 18 else Config.hlg nits num den

/-- Step 3 of R79: row `r` of the layer matrix (words 6 to 9), S3.14. -/
def matrixRow (d : List Word72) (r : Nat) (e : List Nat) : Nat :=
  let m (j : Nat) : Int := toSigned 18 (dsc d (6 + r) (18 * j + 17) (18 * j))
  let v := roundAt .matrix (m 0 * e.getD 0 0 + m 1 * e.getD 1 0 + m 2 * e.getD 2 0) (2 ^ 14)
  min v.toNat (16384 * 2 ^ 18 - 1)

/-- The light of one source pixel before scaling, U2.16 (steps 1 to 5 of R79), and its alpha. Steps 4 and 5 name no rounding of PEAK_NITS /
REF_NITS or of the other quotients: each is left open by `roundAt` (notes/assumptions/26.md). -/
def State.sourceLight (s : State) (d : List Word72) (b : BufView) (x y : Nat) : List Nat :=
  let c := s.codes b (dCropX d + x) (dCropY d + y)
  let e := (c.take 3).map (s.toLinear d)
  let l := (List.range 4).map fun r => matrixRow d r e
  let m := max (max (l.getD 0 0) (l.getD 1 0)) (l.getD 2 0)
  let ref := s.rd CMP_WALL_REF_NITS
  let t := if dsc d 5 24 24 = 1 then
      let x := if 10000 * 2 ^ 18 ≤ m then 1023 * 65536 else min (Config.pqInverse m) (1023 * 65536)
      let p (i : Nat) : Nat := bitsOf (s.word (0x410000 + 1024 * dsc d 5 31 25 + min i 1023)).toNat 17 0
      let y := lerp (p (x / 65536)) (p (x / 65536 + 1)) (x % 65536) 65536
      l.map fun c => if m = 0 then 0 else (roundAt .tone (c * y) m).toNat
    else l.map fun c => (roundAt .divRef c (4 * ref)).toNat
  (t.map fun c => min c (min (roundAt .refNits (s.rd CMP_WALL_PEAK_NITS * 65536) ref).toNat 0x3FFFF)) ++ [alphaOf b (c.getD 3 0)]

/-! ### Scaling (R90 to R92) -/

/-- Tap `t` of phase `p` of a coefficient set (R92), S1.10. -/
def State.coef (s : State) (vertical : Bool) (k p t : Nat) : Int :=
  let w := if vertical then s.word (0x501000 + 64 * k + p) else s.word (0x500000 + 128 * k + 2 * p + t / 6)
  toSigned 12 (bitsOf w.toNat (12 * (t % 6) + 11) (12 * (t % 6)))

/-- The sample of `n` that stands at index `i`. -/
def edgeAt (n : Nat) (i : Int) : Nat := if 0 ≤ i ∧ i < n then i.toNat else Config.edgeTap n i % max 1 n

/-- A filter over pixels of five components, light and alpha: each component's sum over 1,024, in its range. -/
def filtered (cs : List Int) (xs : List (List Nat)) : List Nat :=
  (List.range 5).map fun c =>
    let v := roundAt .scaler ((cs.zip xs).foldl (fun a e => a + e.1 * ((e.2.getD c 0 : Nat) : Int)) 0) 1024
    min v.toNat (if c = 4 then 2 ^ 24 else 0x3FFFF)

/-- The vertical filter (R91): of the six taps of a set the `taps` center ones, from `n` source rows to `dst` rows at output row `y`. -/
def State.vScale (s : State) (k taps n dst frac y : Nat) (row : Nat → List Nat) : List Nat :=
  let pos := Config.scalePos n dst frac y
  filtered ((List.range taps).map fun t => s.coef true k (pos % 64).toNat (3 - taps / 2 + t))
    ((List.range taps).map fun t => row (edgeAt n (pos / 64 + 1 - (taps / 2 : Nat) + t)))

/-- Width of the box pre-filter: 2^ceil(log2(r_h / 8)) above 8:1, at most 8 (R90). -/
def boxWidth (w dst : Nat) : Nat := if w ≤ 8 * dst then 1 else if w ≤ 16 * dst then 2 else if w ≤ 32 * dst then 4 else 8

/-- The horizontal filter (R90): the box pre-filter, then eight taps, from `w` source columns to `dst` columns at output column `x`. -/
def State.hScale (s : State) (k w dst frac x : Nat) (col : Nat → List Nat) : List Nat :=
  let b := boxWidth w dst
  let n := ceilDiv w b
  let box (j : Nat) : List Nat := (List.range 5).map fun c =>
    (roundAt .boxMean ((((List.range b).map fun i => (col (edgeAt w ((j * b + i : Nat) : Int))).getD c 0).foldl (· + ·) 0 : Nat) : Int) b).toNat
  let pos := Config.scalePos n dst frac x
  filtered ((List.range 8).map fun t => s.coef false k (pos % 64).toNat t)
    ((List.range 8).map fun t => box (edgeAt n (pos / 64 - 3 + t)))

/-- One pixel of pass 1 of a two-pass layer: CROP_H to PASS1_H with 2 taps, width unchanged (R91). -/
def State.pass1Pixel (s : State) (d : List Word72) (b : BufView) (x y : Nat) : List Nat :=
  s.vScale (dsc d 3 53 50) 2 (dCropH d) (dPass1H d) 0 y fun i => s.sourceLight d b x i

/-- Address of a pixel of half `h` of a two-pass layer's intermediate buffer: two halves of PASS1_H lines of CROP_W × 8 bytes. -/
def intermAddr (d : List Word72) (i : BufView) (h x y : Nat) : Nat := i.base + ((h * dPass1H d + y) * dCropW d + x) * 8

/-- Pass 1 of a layer of the frame that runs writes its lines to the half that pass 2 does not read (R91). -/
def State.pass1Write (s : State) (r : LayerRun) : State :=
  match r.buf, r.interm with
  | some b, some i =>
    let h := 1 - r.half
    let s1 := s.each (List.range (dPass1H r.desc)) fun a y =>
      a.storeBytes (intermAddr r.desc i h 0 y) ((List.range (dCropW r.desc)).flatMap fun x =>
        (leBytes 8 (Config.intermCode (s.pass1Pixel r.desc b x y))).map (BitVec.ofNat 8))
    { s1 with comp := { s1.comp with halves := (r.layer, h) :: s1.comp.halves.filter fun e => !(e.1 == r.layer) } }
  | _, _ => s

/-- The light and alpha of a layer at a canvas pixel it covers (R79 step 6, R90, R91). -/
def State.layerLight (s : State) (r : LayerRun) (b : BufView) (X Y : Nat) : List Nat :=
  let d := r.desc
  let q := dRect d
  let x := X - q.1
  let y := Y - q.2.2.1
  if dScaled d then
    let column (i : Nat) : List Nat :=
      if dTwoPass d then
        s.vScale (dsc d 3 53 50) (dTaps d) (dPass1H d) (dDstH d) (dDstY d % 64) y fun j =>
          match r.interm with
          | some m =>
            Config.intermLight (((s.mem.slice (intermAddr d m r.half i j) 8).map BitVec.toNat).foldr (fun v acc => v + 256 * acc) 0)
          | none => []
      else s.vScale (dsc d 3 53 50) (dTaps d) (dCropH d) (dDstH d) (dDstY d % 64) y fun j => s.sourceLight d b i j
    s.hScale (dsc d 3 49 46) (dCropW d) (dDstW d) (dDstX d % 64) x column
  else s.sourceLight d b x y

/-! ### Order and blending (R75, R81, R82) -/

/-- The frame that starts is composed from the layers active at its tick and the buffers that their handles name then (R22,
R83): a flip or a pick of the next latch point does not reach it. -/
def State.startFrame (s : State) : State :=
  let run := (List.range 64).filterMap fun l =>
    let d := s.layerActive l
    if dEnable d then
      some (⟨l, d, s.bufOf (dHandle d) (dSlice d), if dTwoPass d then s.bufOf (dInterm d) false else none,
        ((s.comp.halves.find? fun e => e.1 == l).elim 0 (·.2))⟩ : LayerRun)
    else none
  { s with comp := { s.comp with run := run } }

/-- Layer `l` of the frame that runs, if it is enabled there. -/
def State.runLayer (s : State) (l : Nat) : Option LayerRun := s.comp.run.find? fun r => r.layer == l

/-- Whether an enabled layer is drawn at a canvas pixel of a feed. -/
def covers (d : List Word72) (feed X Y : Nat) : Bool :=
  let r := dRect d
  dEnable d && (dFeeds d).testBit feed && decide (r.1 ≤ X ∧ X ≤ r.2.1 ∧ r.2.2.1 ≤ Y ∧ Y ≤ r.2.2.2)

def State.region (s : State) (r i : Nat) : Nat := (s.word (0x400400 + 4 * r + i)).toNat

/-- The region whose list applies at a canvas pixel of a feed, the lowest of those that hold it (R82). -/
def State.regionAt (s : State) (feed X Y : Nat) : Option Nat :=
  if s.on CMP_CANVAS_ORDER then
    (List.range (s.rd CMP_CANVAS_REGION_N)).find? fun r =>
      decide (bitsOf (s.region r 0) 19 0 ≤ X ∧ X ≤ bitsOf (s.region r 0) 39 20 ∧
        bitsOf (s.region r 1) 19 0 ≤ Y ∧ Y ≤ bitsOf (s.region r 1) 39 20) && (bitsOf (s.region r 1) 43 40).testBit feed
  else none

/-- The layers listed by a region, bottom first (Table 04-5). A COUNT above 16 reads on in word 3 (notes/assumptions/27.md). -/
def State.regionLayers (s : State) (r : Nat) : List Nat :=
  (List.range (bitsOf (s.region r 1) 48 44)).map fun i =>
    if i < 10 then bitsOf (s.region r 2) (6 * i + 5) (6 * i) else bitsOf (s.region r 3) (6 * (i - 10) + 5) (6 * (i - 10))

/-- The layers blended at a canvas pixel, bottom first; of more than 16, the 16 highest (R75, R82). -/
def State.layersAt (s : State) (feed X Y : Nat) : List Nat :=
  let order := match s.regionAt feed X Y with
    | some r => s.regionLayers r
    | none => List.range 64
  let ls := order.filter fun l => (s.runLayer l).any fun r => covers r.desc feed X Y
  ls.drop (ls.length - 16)

/-- Round half up from `k` more fractional bits. -/
def roundHalfUp (k v : Nat) : Nat := (v + 2 ^ (k - 1)) / 2 ^ k

/-- A product reduced to 24 fractional bits from `k` more (R81). -/
def quant24 (k v : Nat) : Nat := (roundAt .quant v (2 ^ k)).toNat

/-- One layer blended over a pixel in 24 fractional bits (R81): `src` in U2.16 with alpha last, `dst` in 24 fractional bits. An ALPHA
above 0x1_0000 counts as opaque (notes/assumptions/26.md). -/
def blend (d : List Word72) (src dst : List Nat) : List Nat :=
  let al := min (dsc d 5 50 34) 65536
  let a := if dsc d 5 33 33 = 1 then quant24 16 (al * src.getD 4 0) else al * 256
  let f := if dsc d 5 32 32 = 1 then al * 256 else a
  (List.range 4).map fun i => quant24 16 (src.getD i 0 * f) + quant24 24 (dst.getD i 0 * (2 ^ 24 - a))

/-- A pixel of a feed's canvas: C0 to C3 in U2.16 (R72, R81). There are no layers beyond the canvas. -/
def State.canvas (s : State) (feed X Y : Nat) : List Nat :=
  let bg := [s.rd CMP_BG_C0 * 256, s.rd CMP_BG_C1 * 256, s.rd CMP_BG_C2 * 256, 0]
  let ls := if X < s.rd CMP_CANVAS_W ∧ Y < s.rd CMP_CANVAS_H then s.layersAt feed X Y else []
  let px := ls.foldl (fun dst l =>
    match s.runLayer l with
    | some r => r.buf.elim dst fun b => blend r.desc (s.layerLight r b X Y) dst
    | none => dst) bg
  px.map fun v => min (roundHalfUp 8 v) 0x3FFFF

/-! ### Flip evaluation (R83, R84, Table 04-6) -/

/-- The descriptor a layer would show: its pending one, else its active one. A lower layer is judged by it in the CONFLICT check, which
is the model's choice (notes/assumptions/27.md). -/
def State.layerNext (s : State) (ps : List LayerPend) (l : Nat) : List Word72 :=
  match ps.find? (fun p => p.layer == l) with
  | some p => p.desc
  | none => s.layerActive l

/-- The first check of Table 04-6 that a descriptor fails: its reason code, 0 if it passes. A descriptor that is not enabled
draws nothing and is checked for nothing. -/
def State.layerCheck (s : State) (ps : List LayerPend) (l : Nat) (d : List Word72) : Nat :=
  let h := dHandle d
  let span := dSpan d
  let conflict := dScaled d && (List.range l).any fun k =>
    let e := s.layerNext ps k
    let a := dRect d
    let b := dRect e
    dEnable e && dScaled e && (dFeeds e &&& dFeeds d) != 0 &&
      decide (dUnit e < dUnit d + span ∧ dUnit d < dUnit e + dSpan e) &&
      decide (a.2.2.1 ≤ b.2.2.2 ∧ b.2.2.1 ≤ a.2.2.2)
  let interm := s.bufOf (dInterm d) false
  if dEnable d = false then 0
  else if (4 ≤ h ∧ h < 0x10) ∨ (0x10 ≤ h ∧ s.bufValid h = false) then 1
  else if (s.bufOf h (dSlice d)).any (fun b => decide (b.w < dCropX d + dCropW d ∨ b.h < dCropY d + dCropH d)) then 2
  else if dScaled d = true ∧ (64 * dDstW d < dCropW d ∨ 256 * dCropW d < dDstW d ∨
      (if dTwoPass d then decide (8 * dPass1H d < dCropH d ∨ 16 * dDstH d < dPass1H d * dTaps d)
        else decide (16 * dDstH d < dCropH d * dTaps d)) = true) then 3
  else if dScaled d = true ∧ 8192 * span < dDstW d then 4
  else if conflict then 5
  else if 5 ≤ dTf d then 6
  else if dScaled d = true ∧ dTwoPass d = true ∧
      (interm.isNone ∨ interm.any (fun b => decide (b.stride * b.h < 2 * dPass1H d * dCropW d * 8)) = true) then 8
  else 0

/-- The fence a descriptor waits on has reached its value, modulo 2^32 (R83). -/
def State.fenceReached (s : State) (d : List Word72) : Bool :=
  !dFenceEn d || decide (0 ≤ toSigned 32 ((s.rd (CMP_FENCE_VALUE (dFenceId d)) + 2 ^ 32 - dAwait d) % 2 ^ 32))

/-- The pending descriptors at a latch point: when a CMP commit has just been latched, every layer whose latched descriptor
differs from its active one, a descriptor equal to the carried one continuing its wait; else those carried (R84). -/
def State.layerPending (s : State) (newCommit : Bool) : List LayerPend :=
  if newCommit then
    (List.range 64).filterMap fun l =>
      let d := s.layerLatched l
      if d = s.layerActive l then none
      else match s.comp.pend.find? (fun p => p.layer == l) with
        | some p => some (if p.desc = d then p else ⟨l, d, 0⟩)
        | none => some ⟨l, d, 0⟩
  else s.comp.pend

/-- Refusals of the pending descriptors, with those a flip group brings down (R83). -/
def State.layerRefusals (s : State) (ps : List LayerPend) : List (Nat × Nat) :=
  let own := ps.map fun p => (p, s.layerCheck ps p.layer p.desc)
  let bad := (own.filter fun e => e.2 != 0 && dGroup e.1.desc != 0).map fun e => dGroup e.1.desc
  own.filterMap fun e =>
    if e.2 ≠ 0 then some (e.1.layer, e.2)
    else if bad.contains (dGroup e.1.desc) then some (e.1.layer, 7) else none

/-- Layers of a list as a bit mask. -/
def maskOf (ls : List Nat) : Nat := ls.foldl (fun a l => a ||| 2 ^ l) 0

/-- The outcome of R83 for pending descriptors, refusals taken out: who flips, who waits on, who is dropped. -/
def State.flipOutcome (s : State) (ps : List LayerPend) (refs : List (Nat × Nat)) : Flips :=
  let live := ps.filter fun p => !(refs.any fun e => e.1 == p.layer)
  let late := (live.filter fun p => !s.fenceReached p.desc && dGroup p.desc != 0).map fun p => dGroup p.desc
  let ready (p : LayerPend) : Bool := s.fenceReached p.desc && !late.contains (dGroup p.desc)
  let tmo := s.rd CMP_FLIP_FENCE_TMO
  { flipped := maskOf ((live.filter ready).map (·.layer)),
    held := maskOf (refs.map (·.1)) ||| maskOf ((live.filter fun p => !ready p && p.wait + 1 != tmo).map (·.layer)),
    dropped := maskOf ((live.filter fun p => !ready p && p.wait + 1 == tmo).map (·.layer)) }

/-- The active descriptor of a layer becomes `d` at the latch point of tick `n`. -/
def State.flipLayer (s : State) (n l : Nat) (d : List Word72) : State :=
  let old := s.layerActive l
  { s with win := s.win.setMany (layerKey l 0) d,
           comp := { s.comp with since := (l, n) :: s.comp.since.filter (fun e => !(e.1 == l)),
                                  changed := (l, old) :: s.comp.changed } }

/-- Host buffers that enabled active layers reference, intermediate ones with them. -/
def State.buffersInUse (s : State) : List Nat :=
  (List.range 64).flatMap fun l =>
    let d := s.layerActive l
    if dEnable d then
      (if 0x10 ≤ dHandle d then [dHandle d] else []) ++
        (if dScaled d && dTwoPass d && decide (0x10 ≤ dInterm d) then [dInterm d] else [])
    else []

/-- Pin the buffers of every enabled active layer for tick `n`: RETIRE_FRAME = n + 2 (R86). A RELEASING buffer stays so. -/
def State.pinBuffers (s : State) (n : Nat) : State :=
  s.each s.buffersInUse fun s h => s.setBufState h (if s.bufState h = 3 then 3 else 2) (n + 2)

/-- Apply an outcome to the pending descriptors at the latch point of tick `n` (R83). -/
def State.applyFlips (s : State) (n : Nat) (ps : List LayerPend) (refs : List (Nat × Nat)) (f : Flips) : State :=
  let s0 := { s with comp := { s.comp with changed := [] } }
  let s1 := s0.each ps fun s p => if f.flipped.testBit p.layer then s.flipLayer n p.layer p.desc else s
  let rest := ps.filterMap fun p =>
    if f.flipped.testBit p.layer ∨ f.dropped.testBit p.layer ∨ (refs.any fun e => e.1 == p.layer) = true then none
    else some { p with wait := p.wait + 1 }
  let s2 := { s1 with comp := { s1.comp with pend := rest, refused := refs, own := none } }
  let s3 := (s2.wr CMP_LAYER_DEFER_MASK (maskOf (rest.map (·.layer)))).wr CMP_LAYER_REFUSED_MASK (maskOf (refs.map (·.1)))
  let s4 := s3.when (!rest.isEmpty) fun s => s.raise 0x15 5
  let s5 := s4.when (f.dropped != 0) fun s =>
    (s.bumpBy CMP_CNT1_FENCE_TMO ((List.range 64).filter fun l => f.dropped.testBit l).length).raise 0x15 6
  let s6 := s5.when (!refs.isEmpty) fun s => (s.bumpBy CMP_CNT1_REFUSED refs.length).raise 0x15 7
  s6.pinBuffers n

/-- The five words of the flip log record of tick `n` (Table 04-8). -/
def State.flipLog (s : State) (n : Nat) (f : Flips) : List Nat :=
  let body := [n % 2 ^ 48 + s.flipSeq % 4096 * 2 ^ 48, f.flipped, f.held, f.dropped]
  (body.zipIdx.map fun e => e.1 + (0xB1 + e.2) * 2 ^ 64) ++ [crc32 (body.flatMap (leBytes 8)) + 0xB5 * 2 ^ 64]

/-- Whether words are a flip log record with a valid CRC for tick `n`. -/
def flipLogValid (ws : List Nat) (n : Nat) : Bool :=
  (ws.map (· / 2 ^ 64) == [0xB1, 0xB2, 0xB3, 0xB4, 0xB5]) && decide (ws.getD 0 0 % 2 ^ 48 = n % 2 ^ 48) &&
    ws.getD 4 0 % 2 ^ 64 == crc32 ((ws.take 4).flatMap fun w => leBytes 8 (w % 2 ^ 64))

/-- CMP's part in the latch point of tick `n` (R83, R85). An active sender, and any part with the flip log off, evaluates; an
active sender then sends the flip log. A standby keeps its own outcome and waits for the record. -/
def State.cmpLatch (s : State) (n : Nat) (newCommit : Bool) : State :=
  let ps := s.layerPending newCommit
  let refs := s.layerRefusals ps
  let f := s.flipOutcome ps refs
  let log := s.on CMP_FLIP_FLIPLOG_EN
  if s.isSender ∧ s.anyActive = false ∧ log = true then
    { s with comp := { s.comp with pend := ps, own := some f, changed := [] } }
  else
    let s1 := s.applyFlips n ps refs f
    if s.isSender ∧ log = true then
      let ws := s1.flipLog n f
      (({ s1 with flipSeq := s1.flipSeq + 1 }.sendSides 0xA ws).sendEther 0xA s1.ring ws).recWrite 0x11 0 ws
    else s1

/-! ### Ticks: retirement (R86, R87) and overlap (R75) -/

/-- Handles whose entry is PINNED or RELEASING. -/
def State.pinnedHandles (s : State) : List Nat :=
  (s.win.filter fun e => decide (0x400800 ≤ e.1 ∧ e.1 < 0x404800) && e.1 % 4 == 2 && decide (2 ≤ bitsOf e.2.toNat 49 48)).map
    fun e => (e.1 - 0x400800) / 4

/-- Buffers whose RETIRE_FRAME is tick `n`: PINNED ones return to READY; RELEASING ones become FREE, with RELEASED. -/
def State.retireBuffers (s : State) (n : Nat) : State :=
  s.each (s.pinnedHandles.filter fun h => decide (s.bufRetire h ≤ n)) fun s h =>
    if s.bufState h = 3 then
      let s1 := s.setBufState h 0 (s.bufRetire h)
      (((s1.setWord (bufKey h 0) (setBits (s1.word (bufKey h 0)) 61 61 0)).raise 0x15 10).post 0x8001 [h])
    else s.setBufState h 1 (s.bufRetire h)

/-- Whether more than 16 layers cover some pixel of a feed's canvas outside its regions (R75). From such a pixel one that has the
property too is reached leftward and upward, until a layer or the canvas begins or a region ends. -/
def State.overlapped (s : State) (feed : Nat) : Bool :=
  let ds := (s.comp.run.map fun r => r.desc).filter fun d => (dFeeds d).testBit feed
  let rs := if s.on CMP_CANVAS_ORDER then List.range (s.rd CMP_CANVAS_REGION_N) else []
  let xs := 0 :: ds.map (fun d => (dRect d).1) ++ rs.map fun r => bitsOf (s.region r 0) 39 20 + 1
  let ys := 0 :: ds.map (fun d => (dRect d).2.2.1) ++ rs.map fun r => bitsOf (s.region r 1) 39 20 + 1
  decide (16 < ds.length) && xs.any fun X => ys.any fun Y =>
    decide (X < s.rd CMP_CANVAS_W ∧ Y < s.rd CMP_CANVAS_H) && (s.regionAt feed X Y).isNone &&
      decide (16 < (ds.filter fun d => covers d feed X Y).length)

/-- OVERLAP of the frame that starts (R75). -/
def State.countOverlap (s : State) : State :=
  if (List.range s.feeds).any s.overlapped then (s.bump CMP_CNT0_OVERLAP).raise 0x15 8 else s

/-! ### Scaler load (R89) -/

/-- Cycles of unit `u` for one layer in one feed, and whether it serves it. -/
def unitCycles (u : Nat) (d : List Word72) : Option Nat :=
  let n := dSpan d
  if dEnable d && dScaled d && decide (dUnit d ≤ u ∧ u < dUnit d + n) then
    let hin := if dTwoPass d then dPass1H d else dCropH d
    some (ceilDiv (max (dCropW d) (dDstW d)) (4 * n) * max hin (dDstH d)
      + (if dTwoPass d then ceilDiv (dCropW d) (4 * n) * dCropH d else 0))
  else none

/-- Cycles and layers of unit `u` in the frame that runs, over all feeds. -/
def State.unitLoad (s : State) (u : Nat) : Nat × Nat :=
  s.comp.run.foldl (fun a r =>
    match unitCycles u r.desc with
    | some c =>
      let f := ((List.range s.feeds).filter fun k => (dFeeds r.desc).testBit k).length
      (a.1 + c * f, a.2 + f)
    | none => a) (0, 0)

/-- SCL.LOAD of the frame that starts (R89). -/
def State.scalerLoad (s : State) : State :=
  s.each (List.range 8) fun s u =>
    (s.wr (SCL_LOAD_CYCLES u) (min (s.unitLoad u).1 (2 ^ 32 - 1))).wr (SCL_LOAD_LAYERS u) (min (s.unitLoad u).2 255)

/-- A frame in which a unit went beyond its capacity counts CAPACITY (R89). -/
def State.scalerCapacity (s : State) : State :=
  let cap := 5 * (s.periodNs - s.rd IMP_TIMING_TPRESS_US * 1000) / 4
  if (List.range 8).any fun u => decide (cap < (s.unitLoad u).1) then (s.bump SCL_CNT_CAPACITY).raise 0x16 5 else s

/-- Pass 1 of the frame's two-pass layers ends (R91): its half is complete, but for the layers of a mask whose pass 1 has not finished by
the deadline; a frame with such a layer counts PASS1_LATE. -/
def State.pass1Done (s : State) (late : Nat) : State :=
  let two := s.comp.run.filter fun r => dScaled r.desc && dTwoPass r.desc
  let s1 := s.each two fun s r => if late.testBit r.layer then s else s.pass1Write r
  if two.any fun r => late.testBit r.layer then (s1.bump SCL_CNT_PASS1_LATE).raise 0x16 4 else s1

/-! ### Snapshot fields of LAYER_STAT -/

/-- LAYER_STAT follows LAYER_SEL. -/
def State.layerStat (s : State) : State :=
  let l := s.rd CMP_LAYER_SEL_LAYER
  let pend := s.comp.pend.find? fun p => p.layer == l
  let ref := s.comp.refused.find? fun e => e.1 == l
  let since := (s.comp.since.find? fun e => e.1 == l).elim 0 (·.2)
  let st := if pend.isSome then 2 else if ref.isSome then 3 else if dEnable (s.layerActive l) then 1 else 0
  (((s.wr CMP_LAYER_STAT_STATE st).wr CMP_LAYER_STAT_REASON (ref.elim 0 (·.2))).wr CMP_LAYER_STAT_WAIT
    (min (pend.elim 0 (·.wait)) 255)).wr CMP_LAYER_STAT_SINCE since

/-! ### The pin guard (R88) -/

/-- Ranges protected against host writes: first address, the address after the last, handle, write-back, intermediate. -/
def State.guardRanges (s : State) : List (Nat × Nat × Nat × Bool × Bool) :=
  let pinned := s.pinnedHandles.map fun h =>
    (s.bufWord h 0 35 0, s.bufWord h 0 35 0 + s.bufWord h 0 59 36 * s.bufWord h 1 29 15, h, false,
      (List.range 64).any fun l => let d := s.layerActive l; dEnable d && dTwoPass d && dInterm d == h)
  let intake := (List.range 4).flatMap fun p =>
    if s.ingMode p = 0 ∨ s.ingUpper p = true then []
    else (List.range (s.port p).bufn).map fun k =>
      let b := (s.port p).base.getD k 0
      let lines := max ((s.port p).buf k).height (if s.ingMode p = 2 then s.rd (ING_ST2110_HEIGHT p) else s.rd (ING_ACC_RASTER_VMAX p))
      (b, b + (s.port p).stride * lines, p, false, false)
  let size := s.rd CMP_WB_SIZE_STRIDE * s.rd CMP_WB_SIZE_H
  let wb := if s.on CMP_WB_CTRL_EN then [(s.rd CMP_WB_CTRL_BASE, s.rd CMP_WB_CTRL_BASE + 8 * size, 0, true, false)] else []
  pinned ++ intake ++ wb

/-- The protected range that a write of `n` bytes at `a` overlaps first. -/
def State.guardHit (s : State) (a n : Nat) : Option (Nat × Nat × Nat × Bool × Bool) :=
  s.guardRanges.find? fun r => decide (a < r.2.1 ∧ r.1 < a + n ∧ r.1 < r.2.1)

/-- BAR4_WRITE (R32, R63, R88): a host write to frame memory is discarded beyond the installed capacity or in a protected
range, and reported; else its bytes are stored. -/
def execBar4Write (addr : Word) (data : List Byte) (s : State) : Outcome State Fault Refusal :=
  let a := addr.toNat
  if s.isTile = true ∨ s.role = 3 then .next s
  else if s.rd FMC_MEM_CFG_CAP_GIB * 2 ^ 30 < a + data.length then
    .next (((s.capture 0x14 (s.free % 256) .pcie 0 a).drawn).raise 0x14 7)
  else match s.guardHit a data.length with
    | some r =>
      let h := r.2.2.1
      let s1 := s.bump CMP_CNT0_GUARD
      let s2 := if r.2.2.2.1 = false then
          s1.setWord (bufKey h 3) (setBits (s1.word (bufKey h 3)) 15 0 (min (s1.bufWord h 3 15 0 + 1) 65535)) else s1
      let s3 := (((s2.wr CMP_GUARD_LAST_ADDR a).wr CMP_GUARD_LAST_HANDLE h).wr CMP_GUARD_LAST_WB (b2n r.2.2.2.1)).wr
        CMP_GUARD_LAST_INTERM (b2n r.2.2.2.2)
      .next ((s3.capture 0x15 0x20 .pcie 0 a).raise 0x15 9)
    | none => .next (s.storeBytes a data)

/-! ### Release (R87) -/

/-- Writing a handle to CMP.BUF_REL. -/
def State.releaseBuffer (s : State) (src : Requester) (h : Nat) : State :=
  if h < 0x10 ∨ s.bufState h = 0 then s.capture 0x15 errBUSY src 0xA0 h
  else if s.bufState h = 1 then
    let s1 := s.setBufState h 0 (s.bufRetire h)
    s1.setWord (bufKey h 0) (setBits (s1.word (bufKey h 0)) 61 61 0)
  else (s.setBufState h 3 (s.bufRetire h)).bump CMP_CNT0_REL_DEFER

/-! ### Commands -/

/-- FENCE_TIMEOUT (R83): a descriptor that has waited FENCE_TMO latch points is dropped and counted. -/
def execFenceTimeout (l : BitVec 6) (s : State) : Outcome State Fault Refusal :=
  if s.comp.pend.any (fun p => p.layer == l.toNat && decide (s.rd CMP_FLIP_FENCE_TMO ≤ p.wait)) = true then
    let rest := s.comp.pend.filter fun p : LayerPend => !(p.layer == l.toNat)
    let s1 := { s with comp := { s.comp with pend := rest } }.wr CMP_LAYER_DEFER_MASK (maskOf (rest.map fun p : LayerPend => p.layer))
    .next ((s1.bump CMP_CNT1_FENCE_TMO).raise 0x15 6)
  else .next s

/-- FLIP_LOG_RECEIVE (R85): a standby sender takes each pending layer's outcome from the record, and counts a latch point at
which its own would have differed. -/
def execFlipLogReceive (via : Via) (words : List Word72) (s : State) : Outcome State Fault Refusal :=
  let ws := words.map BitVec.toNat
  let n := s.frame + 1
  match s.comp.own with
  | some own =>
    if s.isSender = true ∧ s.accepts via = true ∧ s.on CMP_FLIP_FLIPLOG_EN = true ∧ flipLogValid ws n = true then
      let f : Flips := ⟨ws.getD 1 0 % 2 ^ 64, ws.getD 2 0 % 2 ^ 64, ws.getD 3 0 % 2 ^ 64⟩
      let ps := s.comp.pend
      let refs := (s.layerRefusals ps).filter fun e => f.held.testBit e.1
      let s1 := s.applyFlips n ps refs f
      let s2 := s1.when (f != own) fun s => (s.bump CMP_CNT1_FLIP_MISMATCH).raise 0x15 13
      .next (s2.recWrite 0x11 0 ws)
    else .next s
  | none => .next s

/-- FLIP_SELF (R85): no valid record by the tick; the standby evaluates by R83 itself. -/
def execFlipSelf (s : State) : Outcome State Fault Refusal :=
  match s.comp.own with
  | some f =>
    .next (((s.applyFlips (s.frame + 1) s.comp.pend (s.layerRefusals s.comp.pend) f).bump CMP_CNT1_FLIP_SELF).raise 0x15 12).selfRecord
  | none => .next s

end Sys2Proof.Machine
end

