-- ==== Sys2Proof/Machine/Impose.lean ====
section
/-! DEFINITION. Imposition (spec/05_imposition.md): tile tables and their preparation, sampling, damage, signatures, the refresh
record, egress and overrun; and the end of a composition (R93, R94). -/

namespace Sys2Proof.Machine

open Host

/-! ### Tile slots (Table 05-2) -/

/-- Key of word `i` of the slot of tile `t` on side `sd` in bank `b`. -/
def slotKey (b sd t i : Nat) : Nat := b * 0x20000 + sd * 0x10000 + t * 0x400 + i

def State.slot (s : State) (b sd t i hi lo : Nat) : Nat := bitsOf (s.word (slotKey b sd t i)).toNat hi lo
def State.slotValid (s : State) (b sd t : Nat) : Bool := decide (1 ≤ t ∧ t ≤ 62) && s.slot b sd t 0 10 10 == 1
def State.slotLW (s : State) (b sd t : Nat) : Nat := s.slot b sd t 0 4 0
def State.slotLH (s : State) (b sd t : Nat) : Nat := s.slot b sd t 0 9 5
def State.slotCubic (s : State) (b sd t : Nat) : Bool := s.slot b sd t 0 11 11 == 1
def State.slotP48 (s : State) (b sd t : Nat) : Bool := s.slot b sd t 0 12 12 == 1
/-- GUT: bit 0 left, 1 right, 2 top, 3 bottom is a seam. -/
def State.slotGut (s : State) (b sd t : Nat) : Nat := s.slot b sd t 0 16 13

/-- The active bank. -/
def State.bank (s : State) : Nat := s.rd IMP_CTRL_BANK

/-- VALID tiles of a bank, side A first, in ascending node. -/
def State.validTiles (s : State) (b : Nat) : List (Nat × Nat) :=
  [0, 1].flatMap fun sd => ((List.range 63).filter fun t => s.slotValid b sd t).map fun t => (sd, t)

/-- Warp point (i, j), one axis: 0 for PX, 1 for PY. -/
def State.warp (s : State) (b sd t i j axis : Nat) : Nat :=
  s.slot b sd t (16 + 17 * j + i) (26 * axis + 25) (26 * axis)

/-- The sample position of tile pixel (x, y) in units of 1/64 px, rounded half up (R100). -/
def State.samplePos (s : State) (b sd t x y axis : Nat) : Nat :=
  let i := x / 16
  let a := x % 16
  let j := y / 16
  let c := y % 16
  ((16 - a) * (16 - c) * s.warp b sd t i j axis + a * (16 - c) * s.warp b sd t (i + 1) j axis
    + (16 - a) * c * s.warp b sd t i (j + 1) axis + a * c * s.warp b sd t (i + 1) (j + 1) axis + 128) / 256

/-- Smallest and largest sample position of a block of tile pixels. -/
def State.posBounds (s : State) (b sd t x0 y0 w h axis : Nat) : Nat × Nat :=
  (List.range h).foldl (fun m dy => (List.range w).foldl (fun m dx =>
    let p := s.samplePos b sd t (x0 + dx) (y0 + dy) axis
    (min m.1 p, max m.2 p)) m) (s.samplePos b sd t x0 y0 axis, s.samplePos b sd t x0 y0 axis)

/-- Whether every sample position of a tile has zero fraction on an axis (INT_X, INT_Y). -/
def State.posIntegral (s : State) (b sd t axis : Nat) : Bool :=
  (List.range (16 * s.slotLH b sd t)).all fun y => (List.range (16 * s.slotLW b sd t)).all fun x =>
    s.samplePos b sd t x y axis % 64 == 0

/-- A leaf's footprint on one axis, inclusive (R103): its positions' bounding box widened by the kernel's support, never
beyond a clamped wall edge. `lo` and `hi` tell whether the near and far edges are wall edges; `tb` bounds the tile. -/
def footAxis (integral cubic : Bool) (lo hi : Bool) (tb lb : Nat × Nat) : Nat × Nat :=
  let before := if integral then 0 else if cubic then 1 else 0
  let after := if integral then 0 else if cubic then 2 else 1
  let a := lb.1 / 64 - before
  let z := lb.2 / 64 + after
  (if lo then max a (tb.1 / 64) else a, if hi then min z (ceilDiv tb.2 64) else z)

/-- The footprint of leaf `l` of a tile. -/
def State.leafFoot (s : State) (b sd t l : Nat) : Rect :=
  let lw := s.slotLW b sd t
  let lh := s.slotLH b sd t
  let lx := 16 * (l % lw)
  let ly := 16 * (l / lw)
  let g := s.slotGut b sd t
  let cub := s.slotCubic b sd t
  let fx := footAxis (s.posIntegral b sd t 0) cub (!g.testBit 0) (!g.testBit 1)
    (s.posBounds b sd t 0 0 (16 * lw) (16 * lh) 0) (s.posBounds b sd t lx ly 16 16 0)
  let fy := footAxis (s.posIntegral b sd t 1) cub (!g.testBit 2) (!g.testBit 3)
    (s.posBounds b sd t 0 0 (16 * lw) (16 * lh) 1) (s.posBounds b sd t lx ly 16 16 1)
  ⟨fx.1, fx.2, fy.1, fy.2⟩

/-- The bounding box of rectangles. -/
def Rect.join (a b : Rect) : Rect := ⟨min a.x0 b.x0, max a.x1 b.x1, min a.y0 b.y0, max a.y1 b.y1⟩

def Rect.area (a : Rect) : Nat := (a.x1 + 1 - a.x0) * (a.y1 + 1 - a.y0)

def Rect.meets (a b : Rect) : Bool := decide (a.x0 ≤ b.x1 ∧ b.x0 ≤ a.x1 ∧ a.y0 ≤ b.y1 ∧ b.y0 ≤ a.y1)

/-- The part of a rectangle within another, if there is one. -/
def Rect.within (a b : Rect) : List Rect :=
  let r : Rect := ⟨max a.x0 b.x0, min a.x1 b.x1, max a.y0 b.y0, min a.y1 b.y1⟩
  if r.x0 ≤ r.x1 ∧ r.y0 ≤ r.y1 then [r] else []

def boxOf (rs : List Rect) : Rect := match rs with | [] => ⟨0, 0, 0, 0⟩ | r :: t => t.foldl Rect.join r

/-- What preparation finds of one slot: a failure reason (1 GRID, 2 SPAN, 3 STAGE; 0 none), the tile footprint, FOOT_PX and
the leaf footprints. -/
def State.prepSlot (s : State) (b sd t : Nat) : Nat × Rect × Nat × List Rect :=
  let lw := s.slotLW b sd t
  let lh := s.slotLH b sd t
  if lw = 0 ∨ 16 < lw ∨ lh = 0 ∨ 16 < lh then (1, ⟨0, 0, 0, 0⟩, 0, [])
  else
    let leaves := (List.range (lw * lh)).map (s.leafFoot b sd t)
    let foot := boxOf leaves
    let rows := (List.range lh).map fun j => (boxOf ((leaves.drop (j * lw)).take lw)).area
    let why := if 16384 < foot.x1 + 1 - foot.x0 ∨ 16384 < foot.y1 + 1 - foot.y0 then 2
      else if rows.any fun a => decide (32768 < a) then 3 else 0
    (why, foot, rows.foldl (· + ·) 0, leaves)

/-- Words per leaf (Table 05-6). -/
def wordsPerLeaf (p48 : Bool) : Nat := if p48 then 171 else 256

/-- Folios of a signature of `k` leaves in default mode: one header and the data, the trailer included (R109, R138). -/
def sigFolios (p48 : Bool) (k : Nat) : Nat := 1 + ceilDiv (k * wordsPerLeaf p48 + 1) 71

/-- Store the RO fields of a prepared slot. -/
def State.storePrep (s : State) (b sd t : Nat) (r : Nat × Rect × Nat × List Rect) : State :=
  let f := r.2.1
  let w0 := setBits (setBits (s.word (slotKey b sd t 0)) 17 17 (b2n (s.posIntegral b sd t 0))) 18 18 (b2n (s.posIntegral b sd t 1))
  let s1 := ((s.setWord (slotKey b sd t 0) w0).setWord (slotKey b sd t 1) (BitVec.ofNat 72 (f.x0 + f.x1 * 2 ^ 20))).setWord
    (slotKey b sd t 2) (BitVec.ofNat 72 (f.y0 + f.y1 * 2 ^ 20))
  let s2 := s1.setWord (slotKey b sd t 3) (BitVec.ofNat 72 r.2.2.1)
  s2.each r.2.2.2.zipIdx fun s e =>
    s.setWord (slotKey b sd t (512 + e.2)) (BitVec.ofNat 72
      ((e.1.x0 - f.x0) + (e.1.x1 - f.x0) * 2 ^ 14 + (e.1.y0 - f.y0) * 2 ^ 28 + (e.1.y1 - f.y0) * 2 ^ 42))

/-- The stored tile footprint and leaf footprint of a prepared slot. -/
def State.tileFoot (s : State) (b sd t : Nat) : Rect :=
  ⟨s.slot b sd t 1 19 0, s.slot b sd t 1 39 20, s.slot b sd t 2 19 0, s.slot b sd t 2 39 20⟩

def State.leafRect (s : State) (b sd t l : Nat) : Rect :=
  let f := s.tileFoot b sd t
  let g (hi lo : Nat) : Nat := s.slot b sd t (512 + l) hi lo
  ⟨f.x0 + g 13 0, f.x0 + g 27 14, f.y0 + g 41 28, f.y0 + g 55 42⟩

/-! ### Sampling (R101, R102) -/

/-- A sum of products with `k` fractional bits more than the result, rounded half up (R101). -/
def halfUp (k : Nat) (v : Int) : Int := (v + 2 ^ (k - 1)) / 2 ^ k

/-- Tap `i` of phase `p` of cubic convolution with a = −0.5, in 1/512 of S1.10 (R101). -/
def cubicExact (p i : Nat) : Int :=
  let f : Int := p
  if i = 0 then -f ^ 3 + 128 * f ^ 2 - 4096 * f
  else if i = 1 then 3 * f ^ 3 - 320 * f ^ 2 + 524288
  else if i = 2 then -3 * f ^ 3 + 256 * f ^ 2 + 4096 * f
  else f ^ 3 - 64 * f ^ 2

/-- The S1.10 weights of the 4 × 4 kernel. The spec fixes phase 0 and the sum of each phase, 1,024, and not how a weight is rounded: the
outer weights and the third are rounded up or down, the second completes the sum (notes/assumptions/31.md). -/
def cubicWeight (p i : Nat) : Int :=
  let w (i : Nat) : Int := roundAt .cubic (cubicExact p i) 512
  if p = 0 then (if i = 1 then 1024 else 0) else if i = 1 then 1024 - w 0 - w 2 - w 3 else w i

/-- A tap: clamped at wall edges, the background outside the canvas. -/
def State.tap (s : State) (b sd t feed : Nat) (X Y : Int) : List Nat :=
  let g := s.slotGut b sd t
  let w := 16 * s.slotLW b sd t
  let h := 16 * s.slotLH b sd t
  let bx := s.posBounds b sd t 0 0 w h 0
  let bY := s.posBounds b sd t 0 0 w h 1
  let lim (v : Int) (lo hi : Bool) (m : Nat × Nat) : Int :=
    let v1 := if lo then max v ((m.1 / 64 : Nat) : Int) else v
    if hi then min v1 ((ceilDiv m.2 64 : Nat) : Int) else v1
  let x := lim X (!g.testBit 0) (!g.testBit 1) bx
  let y := lim Y (!g.testBit 2) (!g.testBit 3) bY
  if 0 ≤ x ∧ x < s.rd CMP_CANVAS_W ∧ 0 ≤ y ∧ y < s.rd CMP_CANVAS_H then s.canvas feed x.toNat y.toNat
  else [s.rd CMP_BG_C0, s.rd CMP_BG_C1, s.rd CMP_BG_C2, 0]

/-- The sampled pixel of a tile in a feed: C0 to C3 in U2.16 (R101). -/
def State.tilePixel (s : State) (b sd t feed x y : Nat) : List Nat :=
  let px := s.samplePos b sd t x y 0
  let py := s.samplePos b sd t x y 1
  let X : Int := (px / 64 : Nat)
  let Y : Int := (py / 64 : Nat)
  let fx := px % 64
  let fy := py % 64
  let clampC (v : Int) : Nat := min v.toNat 0x3FFFF
  if fx = 0 ∧ fy = 0 then s.tap b sd t feed X Y
  else if s.slotCubic b sd t then
    (List.range 4).map fun c =>
      let sum := (List.range 4).foldl (fun (a : Int) j => (List.range 4).foldl (fun (a : Int) i =>
        let w := cubicWeight fx i * cubicWeight fy j
        if w = 0 then a else a + w * ((s.tap b sd t feed (X - 1 + i) (Y - 1 + j)).getD c 0 : Nat)) a) 0
      clampC (halfUp 20 sum)
  else
    (List.range 4).map fun c =>
      let wt (f i : Nat) : Nat := if i = 0 then 64 - f else f
      let sum := (List.range 2).foldl (fun (a : Int) j => (List.range 2).foldl (fun (a : Int) i =>
        let w := wt fx i * wt fy j
        if w = 0 then a else a + (w : Int) * ((s.tap b sd t feed (X + i) (Y + j)).getD c 0 : Nat)) a) 0
      clampC (halfUp 12 sum)

/-- The words of one leaf on the chain (R108, Table 05-6). -/
def State.leafWords (s : State) (b sd t feed l : Nat) : List Nat :=
  let lw := s.slotLW b sd t
  let px := (List.range 256).map fun k => s.tilePixel b sd t feed (16 * (l % lw) + k % 16) (16 * (l / lw) + k / 16)
  if s.slotP48 b sd t then
    let bits := px.zipIdx.foldl (fun a e =>
      let q (i : Nat) : Nat := min ((e.1.getD i 0 + 2) / 4) 0xFFFF
      a + (q 0 + q 1 * 2 ^ 16 + q 2 * 2 ^ 32) * 2 ^ (48 * e.2)) 0
    (List.range 171).map fun w => bitsOf bits (72 * w + 71) (72 * w)
  else px.map fun c => c.getD 0 0 + c.getD 1 0 * 2 ^ 18 + c.getD 2 0 * 2 ^ 36 + c.getD 3 0 * 2 ^ 54

/-! ### Damage (R105) -/

def State.canvasRect (s : State) : Rect := ⟨0, s.rd CMP_CANVAS_W - 1, 0, s.rd CMP_CANVAS_H - 1⟩

def rectOf (d : List Word72) : Rect := let r := dRect d; ⟨r.1, r.2.1, r.2.2.1, r.2.2.2⟩

/-- Whether two descriptors differ in HANDLE only. -/
def onlyHandle (a b : List Word72) : Bool :=
  a.drop 1 == b.drop 1 && (a.getD 0 0).toNat / 4096 == (b.getD 0 0).toNat / 4096

/-- The hint of a layer that the coming tick makes active, if valid (Table 05-4). -/
def State.hint (s : State) (l : Nat) : Option Rect :=
  let src := if s.commits.latched.contains 0x17 then s.winLatched else s.win
  let w0 := (src.get (0x40000 + 2 * l)).toNat
  let w1 := (src.get (0x40000 + 2 * l + 1)).toNat
  if bitOf w0 40 then some ⟨bitsOf w0 19 0, bitsOf w1 19 0, bitsOf w0 39 20, bitsOf w1 39 20⟩ else none

/-- Damage rectangles of feed `k` from Table 05-3. -/
def State.damage (s : State) (k : Nat) : List Rect :=
  let inFeed (d : List Word72) : Bool := dEnable d && (dFeeds d).testBit k
  let flips := s.comp.changed.flatMap fun e =>
    let new := s.layerActive e.1
    let news := if inFeed new then
        match s.hint e.1 with
        | some h => if onlyHandle e.2 new then h.within (rectOf new) else [rectOf new]
        | none => [rectOf new]
      else []
    let olds := if inFeed e.2 && !(inFeed new && onlyHandle e.2 new && (s.hint e.1).isSome) then [rectOf e.2] else []
    olds ++ news
  let picks := (List.range 64).flatMap fun l =>
    let d := s.layerActive l
    if inFeed d && (dSlice d || (decide (dHandle d < 4) && (s.port (dHandle d)).pickD.state == 0)) then [rectOf d] else []
  let all := flips ++ picks ++ (if s.comp.wholeCanvas then [s.canvasRect] else [])
  all

/-- Form the damage of the coming frame at its latch point (R105): beyond 128 rectangles a feed uses their bounding box. -/
def State.formDamage (s : State) : State :=
  let raw := (List.range 4).map fun k => if k < s.feeds then s.damage k else []
  let merged := raw.any fun r => decide (128 < r.length)
  let rects := raw.map fun r => if 128 < r.length then [boxOf r] else r
  let s1 := { s with imp := { s.imp with rectsNext := rects, formed := true } }
  let s2 := (s1.wr IMP_DMG_STAT_RECTS (min 255 ((raw.map List.length).foldl max 0))).wr IMP_DMG_STAT_MERGED (b2n merged)
  s2.when merged fun s => s.raise 0x17 9

/-- The value that an IMP register takes at the coming tick. -/
def State.impNext (s : State) (f : Fld) : Nat :=
  if s.commits.latched.contains 0x17 then (s.latched.get f.key).toNat else s.rd f

/-- The tiles that receive FULL in frame `n`, which starts (R106): with WIDE = 1 a tile that either ring forces is forced on both
(R110). -/
def State.forcedTiles (s : State) (n : Nat) : List (Nat × Nat) :=
  let r := s.impNext IMP_CTRL_REFRESH_N
  let tiles := s.validTiles (s.impNext IMP_CTRL_BANK)
  let base := tiles.filter fun e =>
    s.imp.newBank || s.imp.dmgOn || (r != 0 && (n + e.2) % r == 0) || s.imp.lost.contains e ||
      ((s.imp.refMask.getD e.1 none).getD 0).testBit e.2
  if s.impNext IMP_CTRL_WIDE = 1 then tiles.filter fun e => base.contains (0, e.2) || base.contains (1, e.2) else base

/-! ### Refresh record (R107) -/

def State.refLog (s : State) (n sd mask : Nat) : List Nat :=
  let ring := if sd = 0 then s.rd QLK_CFG_RING_A else s.rd QLK_CFG_RING_B
  let body := [n % 2 ^ 48 + s.refSeq % 4096 * 2 ^ 48, ring, mask]
  (body.zipIdx.map fun e => e.1 + (0xC1 + e.2) * 2 ^ 64) ++ [crc32 (body.flatMap (leBytes 8)) + 0xC4 * 2 ^ 64]

def refLogValid (ws : List Nat) (n : Nat) : Bool :=
  (ws.map (· / 2 ^ 64) == [0xC1, 0xC2, 0xC3, 0xC4]) && decide (ws.getD 0 0 % 2 ^ 48 = n % 2 ^ 48) &&
    ws.getD 3 0 % 2 ^ 64 == crc32 ((ws.take 3).flatMap fun w => leBytes 8 (w % 2 ^ 64))

/-- Take the requests of a side for the coming frame. -/
def State.takeNeed (s : State) (sd mask : Nat) : State :=
  { s with imp := { s.imp with refMask := s.imp.refMask.set sd (some mask), need := s.imp.need.set sd 0 } }

/-- A commit of IMP that has just been latched (R99, R106): a bank switch needs a prepared bank, else the active bank stays in the
latched set too; a new bank, and DMG_EN turned on, force FULL in the next frame that is imposed. -/
def State.impCommit (s : State) : State :=
  if s.commits.latched.contains 0x17 = false then s
  else
    let nb := (s.latched.get IMP_CTRL_BANK.key).toNat
    let ok := (s.rd IMP_PREP_STAT_OK).testBit nb
    let s1 := if nb != s.bank && !ok then
        ({ s with latched := s.latched.set IMP_CTRL_BANK.key (s.live.get IMP_CTRL_BANK.key) }.bump IMP_CNT_BANK_REFUSED).raise 0x17 6
      else s
    { s1 with imp := { s1.imp with
        newBank := s1.imp.newBank || (nb != s.bank && ok),
        dmgOn := s1.imp.dmgOn || ((s.latched.get IMP_CTRL_DMG_EN.key).toNat == 1 && !s.on IMP_CTRL_DMG_EN) } }

/-- IMP's part in the latch point of tick `n` (R105 to R107): an active side sends the refresh record, and the damage is formed where no
flip log record is awaited. -/
def State.impLatch (s : State) (n : Nat) : State :=
  let s2 := { s with imp := { s.imp with formed := false, refMask := [none, none] } }
  let s3 := s2.each [0, 1] fun s sd =>
    if s.sideActive sd || !s.on IMP_CTRL_REFLOG_EN then
      let mask := s.imp.need.getD sd 0
      let s1 := s.takeNeed sd mask
      if s.isSender && s.sideActive sd && s.on IMP_CTRL_REFLOG_EN then
        let ws := s1.refLog n sd mask
        (({ s1 with refSeq := s1.refSeq + 1 }.sendSide sd 0xA ws).sendEther 0xA (s1.rd (QLK_TOPO_RING sd)) ws).recWrite 0x12 0 ws
      else s1
    else s
  if s3.comp.own.isNone then s3.formDamage else s3

/-- The value IMP.LOAD shows for a slack in ns. -/
def slackNs (x : Int) : Nat := ofSigned 24 (max (-(2 ^ 23)) (min x (2 ^ 23 - 1)))

/-- IMP's part in tick `n`: the coming frame's damage governs; the loads of the last frame show in IMP.LOAD (before CTRL and
the bank of the new frame apply). -/
def State.impTick (s : State) (n : Nat) : State :=
  let s0 := if s.imp.formed then s else s.formDamage
  let s1 := s0.each [0, 1] fun s sd =>
    let l := s.imp.load.getD sd ⟨0, none, []⟩
    ((s.wr (IMP_LOAD_FOLIOS sd) (min l.folios (2 ^ 24 - 1))).wr (IMP_LOAD_SLACK_NS sd) (slackNs (l.slack.getD 0))).wr
      (IMP_LOAD_FULL_TILES sd) (min l.full.length 255)
  let pairs := (List.range (ceilDiv s1.imp.crcs.length 2)).map fun i =>
    s1.imp.crcs.reverse.getD (2 * i) 0 + s1.imp.crcs.reverse.getD (2 * i + 1) 0 * 2 ^ 32
  let s2 := if s1.imp.crcs.isEmpty then s1 else s1.recWrite 0x15 0 pairs
  { s2 with imp := { s2.imp with
      rects := s2.imp.rectsNext, forced := s2.forcedTiles n, lost := [], omitted := [], sent := [], slices := [], ready := [],
      turn := none, load := [⟨0, none, []⟩, ⟨0, none, []⟩], overran := false, crcs := [], newBank := false, dmgOn := false } }

/-- IMP.FOOT follows the active bank. -/
def State.footPx (s : State) : State :=
  s.wr IMP_FOOT_PX (((s.validTiles s.bank).map fun e => s.slot s.bank e.1 e.2 3 31 0).foldl (· + ·) 0)

/-! ### Signatures (R104, R109 to R113, R137 to R139) -/

/-- Leaves of a tile's signature in a feed and whether it is FULL (R104, R105). -/
def State.sigLeaves (s : State) (sd t feed : Nat) : List Nat × Bool :=
  let b := s.bank
  let all := List.range (s.slotLW b sd t * s.slotLH b sd t)
  if s.on IMP_CTRL_DMG_EN = false ∨ s.imp.forced.contains (sd, t) = true then (all, true)
  else
    let rs := s.imp.rects.getD feed []
    let ls := all.filter fun l => rs.any fun r => r.meets (s.leafRect b sd t l)
    (ls, ls.length == all.length)

/-- The words of a SIG_HDR folio (Table 07-4). -/
def State.sigHeader (s : State) (sd t feed : Nat) (leaves : List Nat) (full slice : Bool) : List Nat :=
  let b := s.bank
  let w0 := s.frame % 2 ^ 48 + feed * 2 ^ 48 + b2n (!full) * 2 ^ 50 + b2n (s.slotP48 b sd t) * 2 ^ 51 + b2n slice * 2 ^ 52
    + s.slotGut b sd t * 2 ^ 53 + b2n (s.imp.forced.contains (sd, t)) * 2 ^ 57 + 0xE0 * 2 ^ 64
  let ring := if sd = 0 then s.rd QLK_CFG_RING_A else s.rd QLK_CFG_RING_B
  let w1 := s.slotLW b sd t + s.slotLH b sd t * 2 ^ 5 + leaves.length * 2 ^ 10 + ring * 2 ^ 19 + 0xE1 * 2 ^ 64
  let map := maskOf leaves
  [w0, w1] ++ (List.range 4).map (fun m => bitsOf map (64 * m + 63) (64 * m) + 0xE2 * 2 ^ 64) ++ List.replicate 65 0

/-- CRC-32 over leaf words, nine bytes each (R139). -/
def leafCrc (ws : List Nat) : Nat := crc32 (ws.flatMap (leBytes 9))

/-- The trailer word (Table 07-5). -/
def trailer (crc sent : Nat) (trunc : Bool) : Nat := crc + sent * 2 ^ 32 + b2n trunc * 2 ^ 41 + 0xEF * 2 ^ 64

/-- Cut words into folios of 71; the last, padded with zeros, ends with the trailer when one is given (R138). -/
def dataFolios (ws : List Nat) (tr : Option Nat) : List (List Nat) :=
  let n := match tr with
    | some _ => ceilDiv (ws.length + 1) 71
    | none => ceilDiv ws.length 71
  (List.range n).map fun i =>
    let f := (ws.drop (71 * i)).take 71
    let pad := f ++ List.replicate (71 - f.length) 0
    match tr with
    | some w => if i + 1 = n then pad.take 70 ++ [w] else pad
    | none => pad

/-- Hop count of a tile from this sender (R109): t from node 0, 63 − t from node 63. -/
def State.hopsTo (s : State) (sd t : Nat) : Nat := if s.nodeOn sd = 0 then t else 63 - t

/-- The send deadline D_t of tile `t` in the frame that runs, in 2^-16 ns (R110). -/
def State.sendBy (s : State) (sd t : Nat) : Nat :=
  s.tickTime (s.frame + 1) - (s.rd IMP_TIMING_TPRESS_US * 1000 + s.hopsTo sd t * s.rd IMP_TIMING_HOP_NS) * 65536

/-- Whether a SLICE layer is drawn over a tile's footprint (R111). -/
def State.sliceTile (s : State) (sd t feed : Nat) : Bool :=
  s.comp.run.any fun r =>
    dSlice r.desc && (dFeeds r.desc).testBit feed && (rectOf r.desc).meets (s.tileFoot s.bank sd t)

/-- Leaves a signature omits: UNSENT counts, OVERRUN once per frame, and the tile's next frame is FULL (R113). -/
def State.omitLeaves (s : State) (sd t k : Nat) : State :=
  if k = 0 then s
  else
    let key := 0x48000 + 64 * sd + t
    let w := s.word key
    let s1 := (s.setWord key (setBits w 15 0 (min (bitsOf w.toNat 15 0 + k) 65535))).bumpBy IMP_UNSENT_LEAVES k
    let s2 := { s1 with imp := { s1.imp with lost := (sd, t) :: s1.imp.lost, overran := true } }
    if s.imp.overran then s2 else (s2.bump IMP_CNT_OVERRUN).raise 0x17 4

/-- Note folios sent and slack on a side. -/
def State.noteLoad (s : State) (sd n t : Nat) (slack : Int) (full : Bool) : State :=
  let l := s.imp.load.getD sd ⟨0, none, []⟩
  let l2 : SideLoad := ⟨l.folios + n, some (match l.slack with | some x => min x slack | none => slack),
    if full && !l.full.contains t then t :: l.full else l.full⟩
  { s with imp := { s.imp with load := s.imp.load.set sd l2 } }

/-- Count a forced FULL sent to a tile (FULL_SENT). -/
def State.noteFull (s : State) (sd t : Nat) : State :=
  let key := 0x48000 + 64 * sd + t
  let w := s.word key
  s.setWord key (setBits w 31 16 (min (bitsOf w.toNat 31 16 + 1) 65535))

/-- Whether egress of side `sd` serves tile `t` (R109). BENCH sends nothing (R328). -/
def State.egress (s : State) (sd t : Nat) : Bool :=
  s.isSender && s.dataOn && s.blkOn 0x17 && (s.rd IMP_CTRL_SIDE_EN).testBit sd && s.slotValid s.bank sd t

/-- Time of `n` pixel folios on a side, in 2^-16 ns: 15 of every 16 slots of its lanes at 85 ns a folio at 32 GBd (R110, Table 06-1). -/
def State.folioSpan (s : State) (sd n : Nat) : Nat :=
  ceilDiv (n * 85 * 65536 * 2 ^ s.rd (QP_SIDE_STAT_RATE sd) * 16) (15 * (s.side sd).txAct)

/-- Pixel folios a side sends from `t` until `d`. -/
def State.folioRoom (s : State) (sd t d : Nat) : Nat :=
  if s.sideIsUp sd then (d - t) * 15 * (s.side sd).txAct / (85 * 65536 * 2 ^ s.rd (QP_SIDE_STAT_RATE sd) * 16) else 0

/-- When a side is free to send what is due at `t`: not before what it sends has left (R111). -/
def State.startAt (s : State) (sd t : Nat) : Nat := max t (s.imp.busy.getD sd 0)

/-- Whether a signature is sent or closed in the frame that runs, and the one of slice mode that is open. -/
def State.sigSent (s : State) (sd t k : Nat) : Bool := s.imp.sent.contains (sd, t, k)
def State.openSlice (s : State) (sd t k : Nat) : Option SliceSig :=
  s.imp.slices.find? fun x => x.side == sd && x.node == t && x.feed == k

/-- Tiles of a side in the order of service (R109): farthest first, or ascending. -/
def State.serviceOrder (s : State) (sd : Nat) : List Nat :=
  let up := (List.range 63).filter fun t => s.egress sd t
  if s.on IMP_CTRL_ORDER then up else if s.nodeOn sd = 0 then up.reverse else up

/-- The signatures of a side that default mode still has to send at `t`, in order (R109 to R112): feeds ascending, then tiles. -/
def State.dueSigs (s : State) (sd t : Nat) : List (Nat × Nat) :=
  (List.range s.feeds).flatMap fun k =>
    ((s.serviceOrder sd).filter fun tl =>
      !s.sigSent sd tl k && !s.sliceTile sd tl k && !(s.sigLeaves sd tl k).1.isEmpty &&
        decide (0 < s.folioRoom sd (s.startAt sd t) (s.sendBy sd tl))).map fun tl => (tl, k)

/-- Folios that a side has still to send in the frame: headers and data of every signature not yet sent (R110). -/
def State.foliosLeft (s : State) (sd : Nat) : Nat :=
  ((List.range s.feeds).flatMap fun k => (s.serviceOrder sd).map fun tl =>
    let ls := (s.sigLeaves sd tl k).1
    if s.sigSent sd tl k ∨ ls = [] then 0
    else sigFolios (s.slotP48 s.bank sd tl) (ls.length - (s.openSlice sd tl k).elim 0 (·.leaves))).foldl (· + ·) 0

/-- Whether it is a side's turn (R110): with both sides enabled and due they take turns, one signature at a time; with WIDE = 1 the
side with more folios left is served. -/
def State.sideTurn (s : State) (sd t : Nat) : Bool :=
  (s.dueSigs (1 - sd) t).isEmpty ||
    (if s.on IMP_CTRL_WIDE then decide (s.foliosLeft (1 - sd) ≤ s.foliosLeft sd) else s.imp.turn != some sd)

/-- Send a header, if one is due, and data folios to a tile; with `close`, the last one carries LAST (R137, R138). -/
def State.sendSig (s : State) (sd t : Nat) (hdr : Option (List Nat)) (fs : List (List Nat)) (close : Bool) : State :=
  let st := s.streamOf sd
  s.sendFolios sd (((hdr.toList.map fun w => mkFolio 2 st t false false false w)) ++
    fs.zipIdx.map fun f => mkFolio 3 st t false (close && f.2 + 1 == fs.length) false f.1)

/-- Slack to D_t of what ends on a side at `e`; where leaves are omitted it is negative, and the spec does not say by how much: a free
value (R113). -/
def State.slackAt (s : State) (sd t e omitted : Nat) : Int :=
  if omitted = 0 then (((s.sendBy sd t : Nat) : Int) - (e : Int)) / 65536 else -1 - ((s.free % 2 ^ 22 : Nat) : Int)

/-- A signature is sent or closed: its last CRC, a forced FULL and its omitted leaves are noted (R112, R113). -/
def State.sideSent (s : State) (sd t k crc omitted : Nat) : State :=
  let s1 := { s with imp := { s.imp with
    sent := (sd, t, k) :: s.imp.sent, crcs := crc :: s.imp.crcs,
    slices := s.imp.slices.filter fun x => !(x.side == sd && x.node == t && x.feed == k),
    ready := s.imp.ready.filter fun x => !(x.1 == sd && x.2.1 == t && x.2.2.1 == k) } }
  (s1.when (s1.imp.forced.contains (sd, t)) fun s => s.noteFull sd t).omitLeaves sd t omitted

/-- The folios of a piece of a signature leave from `b` on: the side is busy until `e`, and the load shows them. -/
def State.pieceSent (s : State) (sd t n e omitted : Nat) (full : Bool) : State :=
  let s1 := (s.noteLoad sd n t (s.slackAt sd t e omitted) full).when (omitted != 0) State.drawn
  { s1 with imp := { s1.imp with busy := s1.imp.busy.set sd e } }

/-- Leaves of a list that are sent: those before the first that was not composed (R112), and as many as leave whole in `room` words. -/
def State.sendable (s : State) (sd t k : Nat) (ls : List Nat) (room : Nat) : List Nat :=
  (ls.takeWhile fun l => !s.imp.omitted.contains (sd, t, k, l)).take (room / wordsPerLeaf (s.slotP48 s.bank sd t))

/-- SIGNATURE_SEND (R104, R108 to R112): at `t` the side sends the signature that is next in its order, as a header folio and data folios.
At D_t it is closed with the leaves sent by then, as it is at a leaf that was not composed. -/
def execSignatureSend (sd : Fin 2) (node : BitVec 6) (feed : BitVec 2) (t : Nat) (s : State) : Outcome State Fault Refusal :=
  let tl := node.toNat
  let k := feed.toNat
  if (s.dueSigs sd t).head? = some (tl, k) ∧ s.sideTurn sd t = true then
    let r := s.sigLeaves sd tl k
    let b := s.startAt sd t
    let sent := s.sendable sd tl k r.1 (71 * (s.folioRoom sd b (s.sendBy sd tl) - 1))
    let words := sent.flatMap fun l => s.leafWords s.bank sd tl k l
    let crc := leafCrc words
    let left := r.1.length - sent.length
    let fs := dataFolios words (some (trailer crc sent.length (left != 0)))
    let s1 := s.sendSig sd tl (some (s.sigHeader sd tl k r.1 r.2 false)) fs true
    let s2 := s1.pieceSent sd tl (1 + fs.length) (b + s.folioSpan sd (1 + fs.length)) left r.2
    let s3 := { s2 with imp := { s2.imp with turn := some sd.val } }
    .next (s3.sideSent sd tl k crc left)
  else .next s

/-! ### Slice mode (R111) -/

/-- The leaf rows that a list of leaves names, ascending. -/
def leafRows (lw : Nat) (ls : List Nat) : List Nat := (ls.map fun l => l / lw).dedup

/-- Send one ready band of a tile from `t` on: its leaves begin a new data folio; the first band of a signature sends the header, the last
closes it, and so does D_t. -/
def State.sendBand (s : State) (sd tl k row t : Nat) : State :=
  let r := s.sigLeaves sd tl k
  let lw := s.slotLW s.bank sd tl
  let band := r.1.filter fun l => l / lw == row
  let x := s.openSlice sd tl k
  let b := s.startAt sd t
  let hdr := b2n x.isNone
  let room := s.folioRoom sd b (s.sendBy sd tl) - hdr
  let sent := s.sendable sd tl k band (71 * room)
  let words := sent.flatMap fun l => s.leafWords s.bank sd tl k l
  let all := x.elim [] (·.words) ++ words
  let nb := x.elim 0 (·.leaves) + sent.length
  let close := nb == r.1.length || sent.length != band.length
  let crc := leafCrc all
  let left := if close then r.1.length - nb else 0
  let fs := dataFolios words (if close then some (trailer crc nb (left != 0)) else none)
  let s1 := s.sendSig sd tl (if x.isNone then some (s.sigHeader sd tl k r.1 r.2 true) else none) fs close
  let s2 := s1.pieceSent sd tl (fs.length + hdr) (b + s.folioSpan sd (fs.length + hdr)) left r.2
  if close then s2.sideSent sd tl k crc left
  else
    let others := s2.imp.slices.filter fun x => !(x.side == sd && x.node == tl && x.feed == k)
    { s2 with imp := { s2.imp with
        slices := ⟨sd, tl, k, all, nb, row⟩ :: others, ready := s2.imp.ready.filter (· != (sd, tl, k, row)) } }

/-- The next leaf row of a signature in slice mode that has not been sent. -/
def State.nextRow (s : State) (sd tl k : Nat) : Option Nat :=
  (leafRows (s.slotLW s.bank sd tl) (s.sigLeaves sd tl k).1).find? fun r => (s.openSlice sd tl k).all fun x => decide (x.row < r)

/-- Send the bands of a signature that are ready and next, one after another: its leaves go in ascending index (R138). -/
def State.sendReady (s : State) (sd tl k t : Nat) : Nat → State
  | 0 => s
  | n + 1 => match s.nextRow sd tl k with
    | some r =>
      if s.imp.ready.contains (sd, tl, k, r) = true ∧ s.sigSent sd tl k = false ∧
          b2n (s.openSlice sd tl k).isNone < s.folioRoom sd (s.startAt sd t) (s.sendBy sd tl) then
        (s.sendBand sd tl k r t).sendReady sd tl k t n
      else s
    | none => s

/-- Whether a band comes after another that became ready at the same instant (R111): farthest tile first, then feeds and rows ascending. -/
def State.bandAfter (s : State) (a b : Nat × Nat × Nat × Nat) : Bool :=
  let da := s.hopsTo a.1 a.2.1
  let db := s.hopsTo b.1 b.2.1
  decide (a.1 ≠ b.1 ∨ db < da ∨ (da = db ∧ (a.2.2.1 < b.2.2.1 ∨ (a.2.2.1 = b.2.2.1 ∧ a.2.2.2 < b.2.2.2))))

/-- BAND_READY (R111): a leaf row of a tile in slice mode becomes ready at `t` and is sent once the rows before it are. -/
def execBandReady (sd : Fin 2) (node : BitVec 6) (feed : BitVec 2) (row : BitVec 4) (t : Nat) (s : State) :
    Outcome State Fault Refusal :=
  let tl := node.toNat
  let k := feed.toNat
  let me := (sd.val, tl, k, row.toNat)
  let s0 := s.each s.pickPorts State.linkMore
  if s.egress sd tl = true ∧ s.sigSent sd tl k = false ∧ k < s.feeds ∧ s.sliceTile sd tl k = true ∧ s.imp.ready.contains me = false ∧
      (s.nextRow sd tl k).any (fun r => decide (r ≤ row.toNat)) = true ∧
      (leafRows (s.slotLW s.bank sd tl) (s.sigLeaves sd tl k).1).contains row.toNat = true ∧
      (s.imp.lastBand.all fun e => decide (e.1 ≠ t) || s.bandAfter e.2 me) = true then
    let s1 := { s0 with imp := { s0.imp with ready := me :: s0.imp.ready, lastBand := some (t, me) } }
    .next (s1.sendReady sd tl k t 16)
  else .next s0

/-- SEND_DEADLINE (R112, R113): D_t passes. An open signature closes with the leaves already sent; one not started is not
sent; each omitted leaf is counted. -/
def execSendDeadline (sd : Fin 2) (node : BitVec 6) (s : State) : Outcome State Fault Refusal :=
  let tl := node.toNat
  if s.egress sd tl then
    .next (s.each (List.range s.feeds) fun s k =>
      let r := s.sigLeaves sd tl k
      if s.sigSent sd tl k ∨ r.1 = [] then s
      else match s.openSlice sd tl k with
        | some x =>
          let left := r.1.length - x.leaves
          let crc := leafCrc x.words
          let s1 := if s.sideIsUp sd then s.sendSig sd tl none [List.replicate 70 0 ++ [trailer crc x.leaves (left != 0)]] true else s
          ((s1.noteLoad sd (b2n (s.sideIsUp sd)) tl (s1.slackAt sd tl 0 1) false).drawn).sideSent sd tl k crc left
        | none =>
          let s1 := (s.noteLoad sd 0 tl (s.slackAt sd tl 0 1) false).drawn
          { s1 with imp := { s1.imp with
            sent := (sd.val, tl, k) :: s1.imp.sent,
            ready := s1.imp.ready.filter fun x => !(x.1 == sd && x.2.1 == tl && x.2.2.1 == k) } }.omitLeaves sd tl r.1.length)
  else .next s

/-! ### Bank preparation (R98) -/

/-- PREP.GO for a bank: until the preparation succeeds the bank counts as not prepared (R98). -/
def State.prepGo (s : State) (src : Requester) (b : Nat) : State :=
  if s.on IMP_PREP_STAT_BUSY then s.capture 0x17 errBUSY src 0x90 (1 + 2 * b)
  else { (s.wr IMP_PREP_STAT_BUSY 1).wr IMP_PREP_STAT_OK (s.rd IMP_PREP_STAT_OK - (s.rd IMP_PREP_STAT_OK &&& 2 ^ b)) with
    imp := { s.imp with prep := some b } }

/-- BANK_PREPARE_DONE: every VALID slot is validated and its RO fields computed. The first failing slot, or one whose word has
an uncorrectable error, is reported; else OKb sets. PREP_DONE is raised. -/
def execBankPrepareDone (ue : Option (Fin 2 × BitVec 6)) (s : State) : Outcome State Fault Refusal :=
  match s.imp.prep with
  | none => .next s
  | some b =>
    let tiles := s.validTiles b
    let res := tiles.map fun e => (e, s.prepSlot b e.1 e.2)
    let why (e : (Nat × Nat) × (Nat × Rect × Nat × List Rect)) : Nat :=
      if ue.any (fun u => u.1.val == e.1.1 && u.2.toNat == e.1.2) then 4 else e.2.1
    let s1 := (s.each res fun s e => s.storePrep b e.1.1 e.1.2 e.2).wr IMP_PREP_STAT_BUSY 0
    let s2 := { s1 with imp := { s1.imp with prep := none } }
    let sum (sd : Nat) : Nat := ((tiles.filter fun e => e.1 == sd).map fun e =>
      sigFolios (s.slotP48 b e.1 e.2) (s.slotLW b e.1 e.2 * s.slotLH b e.1 e.2)).foldl (· + ·) 0
    let s3 := (s2.wr IMP_PREP_LOAD_FULL_A (sum 0)).wr IMP_PREP_LOAD_FULL_B (sum 1)
    let s4 := match res.find? fun e => why e != 0 with
      | some e => ((s3.wr IMP_PREP_STAT_REASON (why e)).wr IMP_PREP_STAT_SIDE e.1.1).wr IMP_PREP_STAT_NODE e.1.2
      | none => s3.wr IMP_PREP_STAT_OK (s3.rd IMP_PREP_STAT_OK ||| 2 ^ b)
    let s5 := match ue with
      | some u => s4.captureInt 0x17 errECC_UE (16 * slotKey b u.1.val u.2.toNat 0)
      | none => s4
    .next ((s5.when (b == s.bank) State.footPx).raise 0x17 5)

/-! ### Records and requests -/

/-- REFRESH_RECORD_RECEIVE (R107): a standby side forces FULL for the tiles in the record. -/
def execRefreshRecordReceive (sd : Fin 2) (via : Via) (words : List Word72) (s : State) : Outcome State Fault Refusal :=
  let ws := words.map BitVec.toNat
  let ring := if sd.val = 0 then s.rd QLK_CFG_RING_A else s.rd QLK_CFG_RING_B
  if s.isSender = true ∧ s.accepts via = true ∧ s.sideActive sd = false ∧ s.on IMP_CTRL_REFLOG_EN = true ∧ s.imp.refMask.getD sd none = none ∧
      refLogValid ws (s.frame + 1) = true ∧ ws.getD 1 0 % 64 = ring then
    .next ((s.takeNeed sd (ws.getD 2 0 % 2 ^ 64)).recWrite 0x12 0 ws)
  else .next s

/-- REFRESH_SELF (R107): no valid record by the tick; the standby uses its own requests, counts and raises REFRESH_SELF. -/
def execRefreshSelf (sd : Fin 2) (s : State) : Outcome State Fault Refusal :=
  if s.isSender = true ∧ s.sideActive sd = false ∧ s.on IMP_CTRL_REFLOG_EN = true ∧ s.latchDone = true ∧
      s.imp.refMask.getD sd none = none then
    .next (((s.takeNeed sd (s.imp.need.getD sd 0)).bump IMP_CNT_REFRESH_SELF).raise 0x17 8).selfRecord
  else .next s

/-- NEED_FULL_RECEIVE (R106): a tile's request is counted and waits for the next refresh record. -/
def execNeedFullReceive (sd : Fin 2) (node : BitVec 6) (_feeds : BitVec 4) (s : State) : Outcome State Fault Refusal :=
  if s.isSender then
    let key := 0x48000 + 64 * sd.val + node.toNat
    let w := s.word key
    let s1 := s.setWord key (setBits w 47 32 (min (bitsOf w.toNat 47 32 + 1) 65535))
    let s2 := { s1 with imp := { s1.imp with need := s1.imp.need.set sd (s1.imp.need.getD sd 0 ||| 2 ^ node.toNat) } }
    .next ((s2.bump IMP_CNT_NEED_FULL).raise 0x17 7)
  else .next s

/-! ### The end of a composition (R66, R93, R94) -/

/-- The footprint of leaf row `j` of a prepared tile: the bounding box of its leaves' (R103). -/
def State.rowFoot (s : State) (b sd t j : Nat) : Rect :=
  let lw := s.slotLW b sd t
  boxOf ((List.range lw).map fun i => s.leafRect b sd t (j * lw + i))

/-- Whether a canvas pixel is in the footprint of the active bank, the leaf rows that are composed (R73, R103). -/
def State.inFootprint (s : State) (X Y : Nat) : Bool :=
  (s.validTiles s.bank).any fun e => (List.range (s.slotLH s.bank e.1 e.2)).any fun j =>
    (s.rowFoot s.bank e.1 e.2 j).meets ⟨X, X, Y, Y⟩

/-- One write-back pixel: the mean over its box of canvas pixels, background outside the footprint (R93). -/
def State.wbPixel (s : State) (k X Y : Nat) : List Nat :=
  let d := 2 ^ s.rd CMP_WB_CTRL_DECIM
  (List.range 3).map fun c =>
    (roundAt .boxMean (((List.range d).foldl (fun a j => (List.range d).foldl (fun a i =>
      let x := s.rd CMP_WB_ORG_X0 + X * d + i
      let y := s.rd CMP_WB_ORG_Y0 + Y * d + j
      a + (if s.inFootprint x y then (s.canvas k x y).getD c 0
        else [s.rd CMP_BG_C0, s.rd CMP_BG_C1, s.rd CMP_BG_C2].getD c 0)) a) 0 : Nat) : Int) (d * d)).toNat

/-- Write a complete write-back slot of feed `k` and show it in WB_STAT. -/
def State.writeBack (s : State) (k : Nat) : State :=
  let sl := s.comp.wbNext.getD k 0
  let h := s.rd CMP_WB_SIZE_H
  let st := s.rd CMP_WB_SIZE_STRIDE
  let d32 := s.on CMP_WB_CTRL_FMT
  let base := s.rd CMP_WB_CTRL_BASE + (2 * k + sl) * st * h
  let s1 := s.each (List.range h) fun a y =>
    let bytes := (List.range (s.rd CMP_WB_SIZE_W)).flatMap fun x =>
      let p := (s.wbPixel k x y).map (Config.wbCode d32)
      let v := if d32 then p.getD 0 0 % 1024 + p.getD 1 0 % 1024 * 2 ^ 10 + p.getD 2 0 % 1024 * 2 ^ 20 + 3 * 2 ^ 30
        else p.getD 0 0 % 65536 + p.getD 1 0 % 65536 * 2 ^ 16 + p.getD 2 0 % 65536 * 2 ^ 32 + 0xFFFF * 2 ^ 48
      (leBytes (if d32 then 4 else 8) v).map (BitVec.ofNat 8)
    a.storeBytes (base + y * st) bytes
  let last := s1.rd CMP_WB_STAT_LAST_SLOT
  let s2 := (s1.wr CMP_WB_STAT_LAST_SLOT (if sl = 1 then last ||| 2 ^ k else last - (last &&& 2 ^ k))).wr CMP_WB_STAT_FRAME s.frame
  { s2 with comp := { s2.comp with wbNext := s2.comp.wbNext.set k (1 - sl) } }

/-- COMPOSITION_DEADLINE (R62, R66, R89, R91, R93, R94, R112): the composition of the frame that runs ends. -/
def execCompositionDeadline (e : CompositionEnd) (s : State) : Outcome State Fault Refusal :=
  if s.isTile = true ∨ s.role = 3 ∨ s.dataOn = false then .next s
  else
    let late := e.late.toNat % 2 ^ s.feeds
    let nLate := ((List.range 4).filter fun k => late.testBit k).length
    let s0 := s.each s.pickPorts State.linkMore
    let s1 := s0.when (nLate != 0) fun s => (s.bumpBy CMP_CNT1_OVERRUN nLate).raise 0x15 4
    let s2 := if s1.on CMP_WB_CTRL_EN then
        s1.each ((List.range s.feeds).filter fun k => (s1.rd CMP_WB_CTRL_FEED_MASK).testBit k) fun s k =>
          if late.testBit k || e.wbMissed.toNat.testBit k then
            { ((s.bump CMP_CNT0_WB_INCOMPLETE).raise 0x15 11) with
              comp := { s.comp with wbNext := s.comp.wbNext.set k (1 - s.comp.wbNext.getD k 0) } }
          else s.writeBack k
      else s1
    let s3 := (s2.wr CMP_COMP_NS_BUSY e.busyNs.toNat).scalerCapacity.pass1Done e.pass1Late.toNat
    let s4 := s3.each ((List.range 4).filter fun p => e.holes.toNat.testBit p) fun s p =>
      (s.bump (ING_CNT_A_SLICE_HOLE p)).raise (0x10 + p) 12
    let cut := (e.omitted.filter fun x => late.testBit x.2.2.1.toNat).map fun x => (x.1.val, x.2.1.toNat, x.2.2.1.toNat, x.2.2.2.toNat)
    let s5 := { s4 with imp := { s4.imp with omitted := cut ++ s4.imp.omitted } }
    .next (s5.ingRelease s.frame)

end Sys2Proof.Machine
end

