-- ==== Sys2Proof/Machine/Phy.lean ====
section
/-! DEFINITION. Quire link physical layer (spec/06_quire_phy.md): lane states, bring-up and rates, the lane-control word, deskew,
wear and the spare lane. What follows a side's coming up or going down stands in Machine/Link.lean. -/

namespace Sys2Proof.Machine

open Host

/-! ### Lanes -/

/-- The lane whose symbols give the side clock: the lowest-numbered lane that is UP (R117). -/
def State.clockLane (s : State) (sd : Nat) : Option Nat := (List.range 5).find? (s.laneUp sd)

/-- The time exchange of a side. -/
def State.timeLink (s : State) (sd : Nat) : TimeLink := s.wtu.links.getD sd TimeLink.reset
def State.setTimeLink (s : State) (sd : Nat) (x : TimeLink) : State :=
  { s with wtu := { s.wtu with links := s.wtu.links.set sd x } }

/-- Restart the delay filter of a side because logical lane 0 moved (R167). -/
def State.restartFilter (s : State) (sd : Nat) : State :=
  let x := s.timeLink sd
  (s.setTimeLink sd { x with delays := [], offsets := [], outliers := 0, settle := 16 }).wr (WTU_LINK_SETTLING sd) 1

/-- Give logical lane `k` to a physical receive lane. Logical lane 0 on another lane restarts the delay filter. -/
def State.setLog (s : State) (sd l k : Nat) : State :=
  let moved := k == 0 && s.logOf sd l != 0
  (s.wr (QP_LANE_STAT_LOG sd l) k).when (moved && s.sideIsUp sd) fun s => s.restartFilter sd

/-- Give the transmit lanes their logical lanes, `n` in use. Logical lane 0 on another lane restarts the delay filter (R167). -/
def State.setTx (s : State) (sd : Nat) (log : List Nat) (n : Nat) : State :=
  let x := s.side sd
  (s.setSide sd { x with txLog := log, txAct := n }).when (log.idxOf 0 != x.txLog.idxOf 0 && s.sideIsUp sd) fun s => s.restartFilter sd

/-- Logical lanes for the physical lanes of a list: its first `n` carry 0 to n − 1, the others 7. -/
def logMap (ups : List Nat) (n : Nat) : List Nat :=
  (List.range 5).map fun l => if (ups.take n).contains l then (ups.take n).idxOf l else 7

/-- A lane enters DOWN: its precoders start anew (R115). -/
def State.lanePre (s : State) (sd l : Nat) : State :=
  let x := s.side sd
  s.setSide sd { x with txPre := x.txPre.set l 0, rxPre := x.rxPre.set l 0 }

/-- Assign logical lanes as a side comes up (R124): the four lowest lanes that are UP, the fifth kept as the spare while
SPARE_EN = 1. -/
def State.assignLanes (s : State) (sd : Nat) : State :=
  let ups := (List.range 5).filter (s.laneUp sd)
  let n := min 4 ups.length
  let far := (List.range 5).filter fun l => (s.rd (QP_SIDE_STAT_FAR_RX_UP sd)).testBit l
  let s1 := s.each (logMap ups n).zipIdx fun s e => s.wr (QP_LANE_STAT_LOG sd e.2) e.1
  let s2 := (s1.wr (QP_SIDE_STAT_N_ACT sd) n).wr (QP_SIDE_STAT_SPARE sd)
    (if s.on (QP_CFG_SPARE_EN sd) then ups.getD 4 7 else 7)
  let x := s2.side sd
  s2.setSide sd { x with txLog := logMap far (min 4 far.length), txAct := min 4 far.length, rxNext := none, rxHeld := [] }

/-- Every lane of a side enters DOWN (R120); a retired lane stays RETIRED. What waits to leave there is lost, so that HOLD toward the other
neighbor clears (R148). -/
def State.lanesDown (s : State) (sd : Nat) : State :=
  let s1 := s.each (List.range 5) fun s l =>
    (s.wr (QP_LANE_STAT_LOG sd l) 7).when (s.lane sd l != 5) fun s => s.setLane sd l 0
  let x := s1.side sd
  let y := s1.side (1 - sd)
  (s1.setSide (1 - sd) { y with holdOut := false }).setSide sd
    { Side.reset with txSeq := x.txSeq, prbs := x.prbs, upAt := x.upAt }

/-- A side's bring-up restarts at RATE_START (R120, R123). What it measured of the neighbor's time is no longer current (R169). -/
def State.restartSide (s : State) (sd : Nat) : State :=
  ((((((((((s.lanesDown sd).setTimeLink sd TimeLink.reset).wr WTU_RING_OFS_VALID 0).wr (WTU_LINK_SETTLING sd) 0).wr (QP_SIDE_STAT_STATE sd) 0).wr (QP_SIDE_STAT_RATE sd) (s.rd (QP_CFG_RATE_START sd))).wr
    (QP_SIDE_STAT_N_ACT sd) 0).wr (QP_SIDE_STAT_SPARE sd) 7).wr (QP_SIDE_STAT_SWAP_PEND sd) 0).wr
    (QP_SIDE_STAT_FAR_RX_UP sd) 0).wr (QP_SIDE_STAT_ATTEMPTS sd) 0

/-- Whether the logic of a side runs. -/
def State.sideOn (s : State) (sd : Nat) : Bool := s.blkOn (0x18 + sd) && s.role != 3 && !s.nvs.safe && s.rd NVS_POWER_STATE != 3

/-- Whether signal energy has arrived on some lane of a side (R122). -/
def State.energy (s : State) (sd : Nat) : Bool := (List.range 5).any fun l => s.lane sd l != 0 && s.lane sd l != 5

/-- LANE_SIGNAL_DETECT (R119, R122): signal energy for 100 µs takes a DOWN lane to ADAPT. The first lane with energy starts the dwell and
step sequence from RATE_START. ADAPT takes EQ_FIX and LANE_FIX as they stand now (R118). -/
def execLaneSignalDetect (sd : Fin 2) (l : Fin 5) (s : State) : Outcome State Fault Refusal :=
  if s.sideOn sd = true ∧ s.lane sd l = 0 then
    let s1 := s.when (!s.energy sd && !s.sideIsUp sd) fun s =>
      ((s.wr (QP_SIDE_STAT_RATE sd) (s.rd (QP_CFG_RATE_START sd))).wr (QP_SIDE_STAT_ATTEMPTS sd) 0).wr (QP_SIDE_STAT_STATE sd) 1
    let x := s1.side sd
    let fix := if s.on (QP_CFG_EQ_FIX sd) then some (s.rd (QP_LANE_FIX_PEAK sd l), s.rd (QP_LANE_FIX_DCG sd l)) else none
    .next ((s1.setLane sd l 1).setSide sd { x with eqFix := x.eqFix.set l fix })
  else .next s

/-! ### The search of ADAPT (R118) -/

/-- The best of some peak settings and one found before; of equals the first. -/
def bestPeak (eye : Nat → Nat) (b : Nat) (l : List Nat) : Nat := l.foldl (fun b p => if eye b < eye p then p else b) b

/-- The peak the search finds: every fourth setting, then the three on either side of the best. -/
def searchPeak (eye : Nat → Nat) : Nat :=
  let c := bestPeak eye 0 ((List.range 8).map (4 * ·))
  bestPeak eye c ((List.range 32).filter fun p => decide (c ≤ p + 3 ∧ p ≤ c + 3))

/-- Open phases in a row from phase `a` on, around the 64 phases. -/
def phaseRun (m a : Nat) : Nat := (((List.range 64).map fun i => m.testBit ((a + i) % 64)).takeWhile id).length

/-- The center of the widest eye, of equals the one at the lowest phase; between two phases the implementation takes one of them. -/
def eyeCenter (m : Nat) : Nat :=
  let a := (List.range 64).foldl (fun b a => if phaseRun m b < phaseRun m a then a else b) 0
  (roundAt .phase (2 * a + phaseRun m a - 1) 2).toNat % 64

/-- ADAPT_COMPLETE (R118): the search's result applies at once; where ADAPT took LANE_FIX, PEAK and DCG are those. With no DC gain inside the
range, or no open eye, the spec names no setting: a free value. -/
def execAdaptComplete (sd : Fin 2) (l : Fin 5) (e : EyeScan) (s : State) : Outcome State Fault Refusal :=
  if s.lane sd l = 1 then
    let eye (p : Nat) : Nat := (e.peak.getD p 0).toNat
    let dcg := ((List.range 8).find? fun d => e.outer.toNat.testBit d).getD (s.free % 8)
    let f := ((s.side sd).eqFix.getD l none).getD (searchPeak eye, dcg)
    let ph := if e.phases = 0 then s.free / 8 % 64 else eyeCenter e.phases.toNat
    .next ((((((s.setLane sd l 2).wr (QP_LANE_STAT_PEAK sd l) f.1).wr (QP_LANE_STAT_DCG sd l) f.2).wr
      (QP_LANE_STAT_PHASE sd l) ph).wr (QP_LANE_STAT_EYE sd l) e.eye.toNat).when (e.outer == 0 || e.phases == 0) State.drawn)
  else .next s

/-- ALIGN_LOCK (R119): a candidate offset decodes; ALIGN to VERIFY. -/
def execAlignLock (sd : Fin 2) (l : Fin 5) (s : State) : Outcome State Fault Refusal :=
  if s.lane sd l = 2 then .next (s.setLane sd l 3) else .next s

/-- A logical lane in use that no receive lane carries: its lane was lost and N_ACT has not dropped yet (R128). -/
def State.missingLog (s : State) (sd : Nat) : Option Nat :=
  (List.range (s.rd (QP_SIDE_STAT_N_ACT sd))).find? fun k => !(List.range 5).any fun l => s.logOf sd l == k

/-- LANE_VERIFIED (R119): 1,024 good folios; VERIFY to UP. On a side that is up, the lane takes a logical lane that is missing,
or the next one while fewer than four are in use, else it becomes the spare (R124, R128). SKEW is measured: a free value. -/
def execLaneVerified (sd : Fin 2) (l : Fin 5) (s : State) : Outcome State Fault Refusal :=
  if s.lane sd l = 3 then
    let s1 := (s.setLane sd l 4).wrFree (QP_LANE_STAT_SKEW sd l)
    let n := s.rd (QP_SIDE_STAT_N_ACT sd)
    if s.sideIsUp sd = false then .next s1
    else if (s.missingLog sd).isSome then .next (s1.setLog sd l ((s.missingLog sd).getD 7))
    else if n < 4 then .next ((s1.setLog sd l n).wr (QP_SIDE_STAT_N_ACT sd) (n + 1))
    else if s.on (QP_CFG_SPARE_EN sd) = true ∧ s.rd (QP_SIDE_STAT_SPARE sd) = 7 then .next (s1.wr (QP_SIDE_STAT_SPARE sd) l)
    else .next s1
  else .next s

/-- VERIFY_FAIL (R119): 64 bad folios; VERIFY to ALIGN. -/
def execVerifyFail (sd : Fin 2) (l : Fin 5) (s : State) : Outcome State Fault Refusal :=
  if s.lane sd l = 3 then .next (s.setLane sd l 2) else .next s

/-- Withdraw the announcement that the spare receive lane takes a logical lane (R127). -/
def State.withdrawRx (s : State) (sd : Nat) : State :=
  let x := s.side sd
  (s.setSide sd { x with rxAnn := none }).wr (QP_SIDE_STAT_SWAP_PEND sd) (b2n x.txAnn.isSome)

/-- A lane enters DOWN (R119, R127, R128): the spare takes its logical lane, or the lane is missing until N_ACT drops. -/
def State.dropLane (s : State) (sd l lost : Nat) : State :=
  let k := s.logOf sd l
  let sp := s.rd (QP_SIDE_STAT_SPARE sd)
  let s1 := (((s.setLane sd l 0).lanePre sd l).wr (QP_LANE_STAT_LOG sd l) 7).raise (0x18 + sd) 6
  if s.sideIsUp sd = false then s1
  else if l = sp then (s1.wr (QP_SIDE_STAT_SPARE sd) 7).withdrawRx sd
  else if k < 7 ∧ sp < 5 ∧ s.laneUp sd sp = true then
    (((s1.setLog sd sp k).wr (QP_SIDE_STAT_SPARE sd) 7).bumpBy (QP_CNT_LOST_FOLIOS sd) lost).withdrawRx sd
  else s1

/-- A start at a side (R122, R127): RETIRE holds its lanes in DOWN from here on, and returns the others to service; a side that is not up
starts at RATE_START. -/
def State.startSide (s : State) (sd : Nat) : State :=
  let s1 := s.each (List.range 5) fun s l =>
    if (s.rd (QP_RETIRE_LANE sd)).testBit l then (if s.laneUp sd l then s.dropLane sd l 0 else s).setLane sd l 5
    else if s.lane sd l = 5 then s.setLane sd l 0 else s
  if s1.sideIsUp sd then s1 else s1.wr (QP_SIDE_STAT_RATE sd) (s1.rd (QP_CFG_RATE_START sd))

/-- LANE_DOWN (R119, R128): an UP lane is lost; a lane in bring-up that loses its signal starts again from DOWN. -/
def execLaneDown (sd : Fin 2) (l : Fin 5) (lost : Nat) (s : State) : Outcome State Fault Refusal :=
  if s.laneUp sd l then .next (s.dropLane sd l lost)
  else if s.lane sd l = 1 ∨ s.lane sd l = 2 ∨ s.lane sd l = 3 then .next ((s.setLane sd l 0).lanePre sd l)
  else .next s

/-- Lanes in use with their logical lanes, in the order of those. -/
def usedLanes (logs : List Nat) : List (Nat × Nat) :=
  sortBy (fun (a b : Nat × Nat) => decide (a.1 ≤ b.1)) (logs.zipIdx.filter fun e => decide (e.1 < 7))

/-- LANE_COUNT_REDUCE (R128): with no spare the side uses one lane less, in the direction that lost one, but never fewer than MIN_LANES;
DEGRADED is raised and the remaining lanes carry logical lanes 0 to N_ACT − 1. -/
def execLaneCountReduce (sd : Fin 2) (s : State) : Outcome State Fault Refusal :=
  let rx := usedLanes ((List.range 5).map (s.logOf sd))
  let x := s.side sd
  let tx := usedLanes x.txLog
  let n := s.rd (QP_SIDE_STAT_N_ACT sd)
  let least := s.rd (QP_CFG_MIN_LANES sd)
  let rxLess := decide (rx.length < n ∧ least < n)
  let txLess := decide (tx.length < x.txAct ∧ least < x.txAct)
  if s.sideIsUp sd = true ∧ (rxLess || txLess) = true then
    let s1 := if rxLess then (s.each rx.zipIdx fun s e => s.setLog sd e.1.2 e.2).wr (QP_SIDE_STAT_N_ACT sd) (n - 1) else s
    let s2 := if txLess then s1.setTx sd (tx.zipIdx.foldl (fun t e => t.set e.1.2 e.2) x.txLog) (x.txAct - 1) else s1
    .next (s2.raise (0x18 + sd) 9)
  else .next s

/-- DESKEW (R124): a lane beyond the tolerated skew is counted, DESKEW is raised, and it is treated as DOWN. -/
def execDeskew (sd : Fin 2) (l : Fin 5) (lost : Nat) (s : State) : Outcome State Fault Refusal :=
  if s.laneUp sd l then .next (((s.bump (QP_CNT_DESKEW sd)).raise (0x18 + sd) 11).dropLane sd l lost) else .next s

/-- The next rate that RATE_MASK allows, in the cyclic order of R121. -/
def nextRate (mask r : Nat) : Nat :=
  (([r + 1, r + 2, r + 3].map (· % 3)).find? fun c => mask.testBit c).getD r

/-- RATE_STEP (R121, R122): a dwell ends without the side up. A side with no lane energized runs no dwell, and one with a lane
in VERIFY waits. -/
def execRateStep (sd : Fin 2) (s : State) : Outcome State Fault Refusal :=
  let verify := (List.range 5).any fun l => s.lane sd l == 3
  if s.sideOn sd = true ∧ s.sideIsUp sd = false ∧ s.energy sd = true ∧ verify = false then
    let s1 := (s.lanesDown sd).wr (QP_SIDE_STAT_RATE sd) (nextRate (s.rd (QP_CFG_RATE_MASK sd)) (s.rd (QP_SIDE_STAT_RATE sd)))
    .next ((s1.bump (QP_SIDE_STAT_ATTEMPTS sd)).raise (0x18 + sd) 10)
  else .next s

/-! ### Training and idle folios (R119, R125, Table 06-3) -/

/-- The next `n` bits of a PRBS31 fill (x^31 + x^28 + 1), the first lowest, and the state after them. -/
def prbsBits : Nat → Nat → Nat × Nat
  | 0, st => (0, st)
  | n + 1, st =>
    let b := (st / 2 ^ 30 + st / 2 ^ 27) % 2
    let r := prbsBits n (st % 2 ^ 30 * 2 + b)
    (r.1 * 2 + b, r.2)

/-- A training folio on lane `l` (R119, Table 06-3): the lane-control word, then fill; it carries the side's running sequence. -/
def State.trainFolio (s : State) (sd l : Nat) : State :=
  let x := s.side sd
  let r := prbsBits 5040 (x.prbs.getD l 0)
  let f := { mkFolio 1 0 0 false false false (s.laneControl sd :: (List.range 70).map fun i => r.1 / 2 ^ (72 * i) % 2 ^ 72) with
    seq := BitVec.ofNat 12 x.txSeq, hold := x.holdOut }
  let p := x.txPre.getD l 0
  (s.send (.folio sd f ⟨l, p, (s.rd (QP_CFG_TX_INV sd)).testBit l⟩)).setSide sd
    { x with prbs := x.prbs.set l r.2, txPre := x.txPre.set l (precodeEnd p f.grays) }

/-- Training folios on every transmit lane that carries no data; a retired lane is silent. -/
def State.trainLanes (s : State) (sd : Nat) : State :=
  s.each ((List.range 5).filter fun l => ((s.side sd).txLog.getD l 7 == 7 || !s.sideIsUp sd) && s.lane sd l != 5) fun s l => s.trainFolio sd l

/-- The slots up to the next one of logical lane 0 carry idle folios (R125, R133), each with the lane-control word in word 0. -/
def State.idleSlots (s : State) (sd : Nat) : State :=
  let x := s.side sd
  let n := max 1 x.txAct
  let r := (List.range ((n - x.txSeq % n) % n + 1)).foldl (fun (a : List (Folio × Wire) × Side) _ =>
    let e := a.2.emit (s.rd (QP_CFG_TX_INV sd)) (s.idleFolio sd)
    (a.1 ++ [e.1], e.2)) ([], x)
  { s with out := folioOuts sd r.1 ++ s.out }.setSide sd r.2

/-- IDLE_FOLIO_SEND (R119, R122, R125, R132): the transmitter sends its lane-control word: in the training folio of every lane in training,
and on a side that is up in an idle folio on logical lane 0. A side that is not up moves its running sequence on. -/
def execIdleFolioSend (sd : Fin 2) (s : State) : Outcome State Fault Refusal :=
  if s.sideOn sd = false then .next s
  else
    let s1 := s.trainLanes sd
    if s.sideIsUp sd then .next (s1.idleSlots sd)
    else
      let x := s1.side sd
      .next (s1.setSide sd { x with txSeq := (x.txSeq + 1) % 4096 })

/-- The transmitter follows the far end's RX_UP (R124, R128): a data lane that the far end lost moves to a lane that is UP there and idle
here; a lane that has come UP there takes a logical lane that none carries, or one more while fewer than four are in use. -/
def State.txFollow (s : State) (sd far : Nat) : State :=
  let x := s.side sd
  let t := (List.range 5).foldl (fun (t : List Nat) l =>
    if t.getD l 7 < 7 ∧ far.testBit l = false then
      match (List.range 5).find? fun m => far.testBit m && t.getD m 7 == 7 with
      | some m => (t.set m (t.getD l 7)).set l 7
      | none => t.set l 7
    else t) x.txLog
  let r := (List.range 5).foldl (fun (a : List Nat × Nat) l =>
    if far.testBit l = true ∧ a.1.getD l 7 = 7 then
      match (List.range a.2).find? fun k => !a.1.contains k with
      | some k => (a.1.set l k, a.2)
      | none => if a.2 < 4 then (a.1.set l a.2, a.2 + 1) else a
    else a) (t, x.txAct)
  if s.sideIsUp sd then s.setTx sd r.1 r.2 else s

/-- Take the far end's lane-control word from an IDLE or TRAIN folio (R120, R125, R127). An announcement whose spare has left UP
there is withdrawn. -/
def State.takeLaneControl (s : State) (sd w : Nat) : State :=
  if w / 2 ^ 64 % 256 = 0xD0 then
    let far := bitsOf w 4 0
    let s1 := (s.txFollow sd far).wr (QP_SIDE_STAT_FAR_RX_UP sd) far
    let x := s1.side sd
    let ann : Option SwapAnn :=
      if bitsOf w 15 13 = 7 then none else some ⟨bitsOf w 15 13, bitsOf w 18 16, bitsOf w 21 19, bitsOf w 33 22⟩
    let own := x.txAnn.filter fun a => far.testBit a.take
    (s1.setSide sd { x with rxAnn := ann, txAnn := own }).wr (QP_SIDE_STAT_SWAP_PEND sd) (b2n (ann.isSome || own.isSome))
  else s

/-! ### Wear and swaps (R126, R127) -/

/-- SWAP_GO (R127): request a swap of a receive lane in use as if it were worn. -/
def State.requestSwap (s : State) (sd l : Nat) : State :=
  if s.sideIsUp sd = true ∧ l < 5 ∧ s.logOf sd l < 7 then
    let x := s.side sd
    s.setSide sd { x with swapReq := some l }
  else s

/-- WEAR_WINDOW_END (R126, R127): a window of 2^20 folios with `count` corrected symbols ends on a receive lane. -/
def execWearWindowEnd (sd : Fin 2) (l : Fin 5) (count : Nat) (s : State) : Outcome State Fault Refusal :=
  if s.laneUp sd l then
    let s1 := (s.wr (QP_LANE_CNT_LAST_WIN sd l) (min count 65535)).bumpBy (QP_LANE_CNT_CORR sd l) count
    let high := decide (s.rd (QP_WEAR_WEAR_THR sd) < count)
    let x := s1.side sd
    let worn := s1.rd (QP_SIDE_STAT_LANE_WORN sd)
    let now := high && x.wearOver.testBit l.val
    let run := if high then x.wearOver ||| 2 ^ l.val else x.wearOver - (x.wearOver &&& 2 ^ l.val)
    let s2 := s1.setSide sd { x with wearOver := run }
    let s3 := if now && !worn.testBit l.val then
        (s2.wr (QP_SIDE_STAT_LANE_WORN sd) (worn ||| 2 ^ l.val)).raise (0x18 + sd) 7
      else s2
    if s3.rd (QP_SIDE_STAT_SPARE sd) = l.val ∧ worn.testBit l.val = true ∧ s.rd (QP_WEAR_FAIL_THR sd) < count ∧
        (s3.rd (QP_RETIRE_LANE sd)).testBit l.val = false then
      .next ((s3.wr (QP_RETIRE_LANE sd) (s3.rd (QP_RETIRE_LANE sd) ||| 2 ^ l.val)).markDirty 0)
    else .next s3
  else .next s

/-- Announce the swap a neighbor requested of this transmitter: ANN_SEQ is the transmitter's choice, at least 8 × N_ACT folios
after the folio it is sending and within half the range of sequences (a free value beyond that). -/
def State.announceSwap (s : State) (sd p : Nat) : State :=
  let x := s.side sd
  let k := x.txLog.getD p 7
  let ahead := 8 * x.txAct
  let annSeq := (x.txSeq + 4095 + ahead + s.free % (2048 - ahead)) % 4096
  let sp := (List.range 5).find? fun m => x.txLog.getD m 7 == 7 && (s.rd (QP_SIDE_STAT_FAR_RX_UP sd)).testBit m
  match sp with
  | some m =>
    if k < 7 then
      ((s.setSide sd { x with txAnn := some ⟨k, p, m, annSeq⟩, txWait := none }).drawn).wr (QP_SIDE_STAT_SWAP_PEND sd) 1
    else s
  | none => s

/-- SWAP_REQUEST_RECEIVE (R127): a request that arrives while an announced swap is pending waits. -/
def execSwapRequestReceive (sd : Fin 2) (lane : BitVec 3) (s : State) : Outcome State Fault Refusal :=
  let p := lane.toNat
  let x := s.side sd
  if s.sideIsUp sd = true ∧ p < 5 then
    if x.txAnn.isSome then .next (s.setSide sd { x with txWait := some p }) else .next (s.announceSwap sd p)
  else .next s

/-- A receive lane's logical lane moves to the spare, and the old lane becomes the spare. -/
def State.swapRx (s : State) (sd k leave take : Nat) : State :=
  let s1 := ((s.setLog sd take k).wr (QP_LANE_STAT_LOG sd leave) 7).wr (QP_SIDE_STAT_SPARE sd) leave
  let x := s1.side sd
  ((s1.setSide sd { x with rxAnn := none, swapReq := if x.swapReq = some leave then none else x.swapReq }).bump
    (QP_CNT_SWAPS sd)).raise (0x18 + sd) 8

/-- SWAP_APPLY (R127): an announced move applies, at this side's transmitter (`tx`) or at its receiver, each at its own ANN_SEQ. A receiver
that missed every announcement of a swap it requested adopts the move from the sequences. A swap request that waited is announced. -/
def execSwapApply (sd : Fin 2) (tx : Bool) (s : State) : Outcome State Fault Refusal :=
  let x := s.side sd
  if s.sideIsUp sd = false then .next s
  else if tx then
    match x.txAnn with
    | some a =>
      let s1 := (((s.setSide sd { x with txAnn := none }).setTx sd ((x.txLog.set a.take a.log).set a.leave 7) x.txAct).bump
        (QP_CNT_SWAPS sd)).raise (0x18 + sd) 8
      let s2 := s1.wr (QP_SIDE_STAT_SWAP_PEND sd) (b2n x.rxAnn.isSome)
      .next (match x.txWait with | some p => s2.announceSwap sd p | none => s2)
    | none => .next s
  else
    let s1 := match x.rxAnn with
      | some a => if s.laneUp sd a.take && decide (a.take < 5 ∧ a.leave < 5) then s.swapRx sd a.log a.leave a.take else s.withdrawRx sd
      | none => match s.swapWish sd with
        | some p => s.swapRx sd (s.logOf sd p) p (s.rd (QP_SIDE_STAT_SPARE sd))
        | none => s
    .next (s1.wr (QP_SIDE_STAT_SWAP_PEND sd) (b2n x.txAnn.isSome))

end Sys2Proof.Machine
end

