-- ==== Sys2Proof/Machine/Link.lean ====
section
/-! DEFINITION. Quire link layer (spec/07_quire_link.md): a side's coming up and going down, folios and forwarding, enumeration,
management fragments, stream loss, ring breaks and collation. -/

namespace Sys2Proof.Machine

open Host

/-! ### Streams (R150) -/

/-- The OK and WHY fields of a stream. -/
def okFld (st : Nat) : Fld := if st = 0 then QLK_STREAM_STAT_A_OK else QLK_STREAM_STAT_B_OK
def whyFld (st : Nat) : Fld := if st = 0 then QLK_STREAM_STAT_A_WHY else QLK_STREAM_STAT_B_WHY

/-- A tile declares a stream lost: cause 0 side down, 1 kettle time-out. -/
def State.loseStream (s : State) (st why : Nat) : State :=
  if s.isTile = true ∧ s.on (okFld st) = true then
    let s1 := ((s.wr (okFld st) 0).wr (whyFld st) why).raise 0x1A 7
    { s1 with tile := { s1.tile with lost := s1.tile.lost.set st true } }
  else s

/-- STREAM_LOSS (R150): no kettle of the stream for KETTLE_US. -/
def execStreamLoss (st : Fin 2) (s : State) : Outcome State Fault Refusal := .next (s.loseStream st 1)

/-- STREAM_RESTORE (R150): the side is up and kettles have come without a gap for 4 ms. A stream arrives on the side of its
letter. -/
def execStreamRestore (st : Fin 2) (s : State) : Outcome State Fault Refusal :=
  if s.isTile = true ∧ s.sideIsUp st = true then .next (s.wr (okFld st) 1) else .next s

/-! ### Sides down and up -/

/-- Whether an up condition of R120 fails. -/
def State.upFails (s : State) (sd : Nat) : Bool :=
  decide (count5 (s.rxUp sd) < s.rd (QP_CFG_MIN_LANES sd)) ||
    decide (count5 (s.rd (QP_SIDE_STAT_FAR_RX_UP sd)) < s.rd (QP_CFG_MIN_LANES sd))

/-- A side that is up goes down (R120, R150, R151): bring-up restarts, a tile loses the stream of that side and sends BREAK toward
the sender it still reaches. -/
def State.takeDown (s : State) (sd : Nat) : State :=
  let s1 := ((s.restartSide sd).bump (QP_CNT_SIDE_DOWNS sd)).raise (0x18 + sd) 5
  if s.isTile then
    let s2 := (s1.loseStream sd 0).bump QLK_MG_CNT_BREAKS
    let s3 := { s2 with link := { s2.link with walked := s2.link.walked && sd != 0 } }
    ((s3.wr (if sd = 1 then QLK_DRR_D_A else QLK_DRR_D_B) 0).wr (QLK_REACH_NODES sd) 0).post 0x8006 [s.node + 64 * sd]
  else s1

/-- SIDE_DOWN (R120). -/
def execSideDown (sd : Fin 2) (s : State) : Outcome State Fault Refusal :=
  if s.sideIsUp sd = true ∧ s.upFails sd = true then .next (s.takeDown sd) else .next s

/-- RETRAIN written (R123): the side goes down at once and restarts. -/
def State.retrainSide (s : State) (sd : Nat) : State :=
  if s.sideIsUp sd then s.takeDown sd else s.restartSide sd

/-! ### Enumeration (R141 to R143) -/

/-- An ENUM folio (R141). -/
def enumFolio (node next ring dir n chain : Nat) : Folio :=
  mkFolio 0xB 2 node true false false
    ([0, next + ring * 2 ^ 6 + dir * 2 ^ 12 + n * 2 ^ 13 + chain * 2 ^ 19 + 0xE8 * 2 ^ 64] ++ List.replicate 69 0)

/-- The ring number a sender publishes on a side. -/
def State.ringOf (s : State) (sd : Nat) : Nat := if sd = 0 then s.rd QLK_CFG_RING_A else s.rd QLK_CFG_RING_B

/-- A sender starts a walk on a side: node 0 a walk with DIR = 0, node 63 one with DIR = 1. -/
def State.startWalk (s : State) (sd : Nat) : State :=
  if s.isSender = true ∧ s.sideIsUp sd = true then
    let f := if s.nodeOn sd = 0 then enumFolio 0 1 (s.ringOf sd) 0 0 0
      else enumFolio 63 0 (s.ringOf sd) 1 (s.rd (QLK_TOPO_N_TILES sd)) 0
    let s1 := s.sendFolio sd f
    { s1 with link := { s1.link with walks := sd :: s1.link.walks.filter (· != sd) } }
  else s

/-- SIDE_UP (R120, R141, R142, R277): enough lanes are UP at both ends. A tile sends LINK_UP; a sender takes its node index on
the ring, enters STARTING or SOLE, and node 0 enumerates with AUTO_ENUM = 1. -/
def execSideUp (sd : Fin 2) (t : Nat) (s : State) : Outcome State Fault Refusal :=
  if s.sideOn sd = true ∧ s.sideIsUp sd = false ∧ s.upFails sd = false then
    let s1 := ((s.assignLanes sd).wr (QP_SIDE_STAT_STATE sd) 2).raise (0x18 + sd) 4
    let x := s1.side sd
    let s2 := s1.setSide sd { x with upAt := t }
    if s.isTile then .next (s2.post 0x8007 [s.node + 64 * sd.val])
    else if s.isSender then
      let s3 := ((s2.wrM (QLK_TOPO_NODE sd) (s2.nodeOn sd)).wrM (QLK_TOPO_NODE_VALID sd) 1).wrM (QLK_TOPO_RING sd) (s.ringOf sd)
      let s4 := s3.wr (ARB_STAT_STATE sd) (if s.on (ARB_CFG_EN sd) = true ∨ s.rd FMC_MEM_STAT_FAIL ≠ 0 then 1 else 0)
      .next (s4.when (s.on QLK_CFG_AUTO_ENUM && s.nodeOn sd == 0) fun s => s.startWalk sd)
    else .next s2
  else .next s

/-- ENUM_GO written (R141); ignored in TILE role. -/
def State.enumGo (s : State) : State := s.startWalk (s.rd QLK_CTRL_SIDE)

/-- Give a TOPO field of a tile its value; TOPO[0] and TOPO[1] hold the same. -/
def State.wrTopo (s : State) (f : Nat → Fld) (v : Nat) : State := (s.wr (f 0) v).wr (f 1) v

/-- Bits lo to hi of a node mask. -/
def nodeMask (lo hi : Nat) : Nat := ((List.range 64).filter fun t => decide (lo ≤ t ∧ t ≤ hi)).foldl (fun a t => a + 2 ^ t) 0

/-- REACH of a tile: nodes below it through side A, nodes above it through side B, with the senders that are present. -/
def State.tileReach (s : State) (n : Nat) (far near : Bool) : State :=
  let t := s.rd (QLK_TOPO_NODE 0)
  (s.wr (QLK_REACH_NODES 0) (nodeMask 1 (t - 1) + b2n near)).wr (QLK_REACH_NODES 1)
    (nodeMask (t + 1) n + if far then 2 ^ 63 else 0)

/-- ENUM_DONE (R141, R142): 1 ms after a walk starts the sender holds the result. `acks` has the bit of every index that
acknowledged; a tile without an index acknowledges index 0. `moved` tells that a tile acknowledged another index than the one it held
before. On a linear side node 0 sends the closing walk. -/
def execEnumDone (sd : Fin 2) (acks : Word) (moved : Bool) (s : State) : Outcome State Fault Refusal :=
  if s.isSender = true ∧ s.link.walks.contains sd.val = true then
    let tiles := acks.toNat &&& nodeMask 1 62
    let linear := (s.rd QLK_CFG_LINEAR).testBit sd
    let node := s.nodeOn sd
    let n := if linear then ((List.range 64).filter fun t => tiles.testBit t).length else s.rd (QLK_TOPO_N_TILES sd)
    let far := s.on (QLK_TOPO_FAR_SENDER sd) && !linear
    let ends := if node = 0 then (if far then 63 else n) else (if far then 0 else 63 - n)
    let s1 := (((((((s.wr (QLK_TOPO_N_TILES sd) n).wr (QLK_TOPO_REACH_END sd) ends).wr (QLK_TOPO_SPLIT sd) 0).wr
      (QLK_TOPO_FAR_SENDER sd) (b2n far)).wr (QLK_REACH_NODES sd) (tiles + 2 ^ node + if far then 2 ^ (63 - node) else 0)).wr
      QLK_ENUM_FRAME_FRAME s.frame).wr QLK_ENUM_FRAME_SIDE sd)
    let s2 := { s1 with link := { s1.link with walks := s1.link.walks.filter (· != sd.val) } }
    let s3 := s2.when moved fun s => s.raise 0x1A 5
    let s4 := s3.when (acks.toNat.testBit 0) fun s => s.raise 0x1A 6
    let s5 := s4.raise 0x1A 4
    .next (s5.when (linear && node == 0) fun s => s.sendFolio sd (enumFolio 0 0 (s.ringOf sd) 0 n 1))
  else .next s

/-- LINK_UP_RECEIVE (R142): a sender enumerates at once. -/
def execLinkUpReceive (sd : Fin 2) (_tile : BitVec 6) (s : State) : Outcome State Fault Refusal := .next (s.startWalk sd)

/-! ### Ring breaks (R151) -/

/-- BREAK_RECEIVE (R151): a BREAK event of a tile reaches this node, which counts it; a tile that forwards it updates its D and
its reach through the side it came on, a sender its reach. -/
def execBreakReceive (sd : Fin 2) (tile : BitVec 6) (side : Fin 2) (s : State) : Outcome State Fault Refusal :=
  let k := tile.toNat
  let s1 := s.bump QLK_MG_CNT_BREAKS
  let reach := s.rd (QLK_REACH_NODES sd)
  let keep := if side.val = 1 then nodeMask 0 k else nodeMask k 63
  if s.isTile then
    let t := s.rd (QLK_TOPO_NODE 0)
    let s2 := s1.wr (QLK_REACH_NODES sd) (reach &&& keep)
    if side.val = 1 then .next (if t ≤ k then s2.wr QLK_DRR_D_A (k - t) else s1)
    else .next (if k ≤ t then s2.wr QLK_DRR_D_B (t - k) else s1)
  else if s.isSender then
    .next ((((s1.wr (QLK_REACH_NODES sd) (reach &&& keep)).wr (QLK_TOPO_SPLIT sd) 1).wr (QLK_TOPO_REACH_END sd) k).raise 0x1A 8)
  else .next s1

/-! ### Folios (R131, R134 to R136, R148) -/

/-- Streams a type allows (Table 07-2). -/
def streamOk (typ st : Nat) : Bool :=
  if typ ≤ 1 then true
  else if typ = 2 ∨ typ = 3 ∨ typ = 6 then decide (st < 2)
  else if typ = 7 then st == 3
  else decide (typ ≤ 0xB) && st == 2

/-- Note a forwarding latency (R136). -/
def State.noteLatency (s : State) (ns : Nat) : State := s.wr QLK_HOP_FWD_MAX_NS (max (s.rd QLK_HOP_FWD_MAX_NS) ns)

/-- Forward a folio on a side (R135, R136, R147, R148): it waits for a slot in the queue of its class; the open end drops it, and so does a
full queue of forwarded MG folios. The peak of that queue is what a folio leaves waiting. -/
def State.forward (s : State) (out : Nat) (f : Folio) (latency : Nat) : State :=
  let x := s.side out
  if s.sideIsUp out = false then s
  else if folioClass f = 2 then
    if 512 ≤ x.fwd.length then s
    else
      let s1 := ((s.noteLatency latency).setSide out { x with fwd := x.fwd ++ [f] }).pump out
      let n := (s1.side out).fwd.length
      let peak := if out = 0 then QLK_HOP_QMAX_A else QLK_HOP_QMAX_B
      let s2 := s1.wr peak (max (s1.rd peak) n)
      let y := s2.side (1 - out)
      if 256 < n ∧ y.holdOut = false then (s2.setSide (1 - out) { y with holdOut := true }).bump QLK_MG_CNT_HOLDS else s2
  else (s.noteLatency latency).sendFolio out f

/-- A decoded folio of a side acts, in the order of the sequences (R131, R134 to R136, R148). Consumed content acts through the command of
its kind. An ENUM folio is sent on by ENUM_RECEIVE. -/
def State.actFolio (s : State) (sd : Nat) (f : Folio) (latency : Nat) : State :=
  let typ := f.typ.toNat
  if streamOk typ f.stream.toNat = false then s.bump (QLK_FOLIO_CNT_BADTYPE sd)
  else
    let x := s.side sd
    let s1 := s.setSide sd { x with nbHold := f.hold }
    let s2 := s1.when (x.nbHold && !f.hold) fun s => s.pump sd
    if typ ≤ 1 then s2.takeLaneControl sd (f.words.getD 0 0).toNat
    else if typ = 7 ∨ s.isTile = false then s2
    else if typ = 0xB then s2.when (s2.sideIsUp (1 - sd)) fun s => s.noteLatency latency
    else if f.bcast = true ∨ f.ret = true ∨ ¬ (s.on (QLK_TOPO_NODE_VALID 0) = true ∧ f.node.toNat = s.node) then
      s2.forward (1 - sd) f latency
    else s2

/-- The held folio that comes next in order, with the others. -/
def nextHeld (next : Nat) (l : List (Nat × Folio × Nat)) : Option ((Nat × Folio × Nat) × List (Nat × Folio × Nat)) :=
  match l.find? fun e => e.2.1.seq.toNat == next with
  | some e => some (e, l.filter fun e => !(e.2.1.seq.toNat == next))
  | none => none

/-- The folios that wait act while the next in order is among them (R124). -/
def State.takeHeld (s : State) (sd : Nat) : Nat → State
  | 0 => s
  | n + 1 =>
    let x := s.side sd
    match x.rxNext.bind fun k => nextHeld k x.rxHeld with
    | some (e, r) =>
      ((s.setSide sd { x with rxNext := x.rxNext.map fun k => (k + 1) % 4096, rxHeld := r }).actFolio sd e.2.1 e.2.2).takeHeld sd n
    | none => s

/-- A data folio arrives on lane `l` (R124): it acts at once if it comes next in order, or far from any that is awaited; one a little ahead
waits in its lane's FIFO of four, and when that is full what is missing is taken for lost. -/
def State.arrive (s : State) (sd l : Nat) (f : Folio) (latency : Nat) : State :=
  let x := s.side sd
  let seq := f.seq.toNat
  let ahead := match x.rxNext with | some k => (seq + 4096 - k) % 4096 | none => 0
  if ahead = 0 ∨ 4 * s.rd (QP_SIDE_STAT_N_ACT sd) ≤ ahead then
    ((s.setSide sd { x with rxNext := some ((seq + 1) % 4096) }).actFolio sd f latency).takeHeld sd x.rxHeld.length
  else
    let held := x.rxHeld ++ [(l, f, latency)]
    let full := decide (4 < (held.filter fun e => e.1 == l).length)
    let first := (held.map fun e => (e.2.1.seq.toNat + 4096 - x.rxNext.getD 0) % 4096).foldl min 4095
    (s.setSide sd { x with rxHeld := held, rxNext := if full then x.rxNext.map fun k => (k + first) % 4096 else x.rxNext }).takeHeld sd
      (if full then held.length else 0)

/-- The logical lane of a receive lane is the one whose sequences it carries (R124). -/
def State.learnLog (s : State) (sd l seq : Nat) : State :=
  let n := s.rd (QP_SIDE_STAT_N_ACT sd)
  if s.sideIsUp sd = true ∧ 0 < n ∧ s.logOf sd l ≠ seq % n then s.setLog sd l (seq % n) else s

/-- FOLIO_RECEIVE (R115, R124, R131, R134 to R136, R148): a folio arrives on a lane of a side. One that does not decode is counted and
dropped, and leaves the state of the lane's precoder unknown. -/
def execFolioReceive (sd : Fin 2) (l : Fin 5) (f : Folio) (decoded : Bool) (latencyNs : BitVec 16) (s : State) :
    Outcome State Fault Refusal :=
  let x := s.side sd
  if s.sideOn sd = false then .next s
  else if decoded = false then
    .next (((s.setSide sd { x with rxPre := x.rxPre.set l (s.free % 4) }).drawn.bump (QLK_FOLIO_CNT_UNCORR sd)).bump (QP_LANE_CNT_UNCORR sd l))
  else
    let s1 := (s.setSide sd { x with rxPre := x.rxPre.set l (precodeEnd (x.rxPre.getD l 0) f.grays) }).bump (QLK_FOLIO_CNT_RX sd)
    if f.typ = 1 then .next (s1.actFolio sd f latencyNs.toNat)
    else .next ((s1.learnLog sd l f.seq.toNat).arrive sd l f latencyNs.toNat)

/-! ### Management fragments (R144, R145) -/

/-- Entries of a message: up to the first that carries LAST (R259). -/
def cutMessage (ws : List Word72) : List Word72 :=
  match ws.findIdx? fun w => w.toNat.testBit 70 with
  | some i => ws.take (i + 1)
  | none => ws

/-- A sender's firmware gives every tile it reaches a value of LCP.BRIGHT by a scheduled commit (R246, Table 14-6): BULK_WRITE of
the register, then SCHED_COMMIT of page 0x21 for a target frame. The request's reply queue and its identifier are its own choice (free
values). -/
def State.dimRing (s : State) (v target : Nat) : State :=
  let f (i : Nat) : Nat := (Config.freeValue (s.freeCtr + i)).toNat
  let src := s.node * 4096 + f 0 % 4096
  let id := f 1 % 4096
  let tiles := (List.range 63).filter fun t =>
    t != 0 && ((s.rd (QLK_REACH_NODES 0)).testBit t || (s.rd (QLK_REACH_NODES 1)).testBit t)
  let sideOf (s : State) (t : Nat) : Nat := b2n ((s.rd (QLK_REACH_NODES 1)).testBit t)
  { s with freeCtr := s.freeCtr + 2 }.each tiles fun s t =>
    (s.sendMessageOn (sideOf s t) (t * 4096) src id (frameMsg [0x0041 + id * 2 ^ 16, t, 0x21090, 1, v])).sendMessageOn (sideOf s t)
      (t * 4096) src id (frameMsg [0x0010 + id * 2 ^ 16, target, 2 ^ 0x21, 0])

/-- A policy table in force. -/
def State.policyOf (s : State) (id : Nat) : Option PolicyTable := s.nvs.policy.find? fun p => p.id.toNat == id

/-- A sender's answer to a THROTTLE_REQ, with a THROTTLE table in force (R246): the wall's brightness falls uniformly. What a step
of the request's factor is worth, and for which frame, the spec does not say: the brightness and the target, at least two frames ahead, are free values. -/
def State.dimForHeat (s : State) : State :=
  if s.isSender = true ∧ (s.policyOf 2).isSome = true then
    let ceil := match s.policyOf 1 with | some p => bitsOf (p.body.getD 0 0).toNat 33 17 | none => 65536
    s.drawn.drawn.dimRing (s.free % 65537 + ceil * 2 ^ 17) ((s.frame + 2 + s.drawn.free) % 2 ^ 48)
  else s

/-- Deliver an event that a tile sent: queue 0x002, filtered by EVENT_MASK (R261, R269). Firmware notes what it waits for: collation
counts (R285), missing folios (R308), a disarmed node (R314). -/
def State.takeEvent (s : State) (ws : List Word72) : State :=
  let code := (ws.getD 0 0).toNat % 65536
  let coll := code == 0x8009 && (ws.getD 2 0).toNat % 2 ^ 64 != 0
  let s := s.when coll State.noteCollation
  let w2 := (ws.getD 2 0).toNat
  let s := if code = 0x800C ∧ w2 % 16 = 3 then { s with upd := { s.upd with heardDisarm := true } }
    else if code = 0x800C ∧ w2 % 16 = 0 ∧ bitsOf w2 18 4 ≠ 0 then
      { s with upd := { s.upd with sending := s.upd.sending.map fun b => { b with more := true } } }
    else s
  let s := if code = 0x8004 then s.dimForHeat else s
  let s1 := s.when (s.trigCode code) fun s => s.trigger code false
  if s1.evtPass code then
    if s1.qRoom 2 ws.length then (s1.qPush 2 ws).raise 2 5
    else if (s1.queue 2).valid then (({ s1 with ctl := { s1.ctl with lost := s1.ctl.lost + 1 } }.qSetDrop 2 (s1.qDrop 2 + 1)).bump QEN_CNT_DROP).raise 2 6
    else s1
  else s1

/-- A fragment from the partner sender for a node of this sender's ring (R146) is issued on that ring under a MSG_ID of this sender; the
fragments of one message share it. -/
def State.relayOut (s : State) (node dst src id : Nat) (words : List Word72) : State :=
  match s.route node with
  | none => s
  | some sd =>
    let known := s.link.relays.find? fun r => r.srcQn == src && r.srcId == id && r.node == node
    let new : Relay := ⟨s.host.raSeq, node, src, id⟩
    let r := known.getD new
    let s1 := if known.isSome then s
      else { s with link := { s.link with relays := new :: s.link.relays }, host := { s.host with raSeq := (s.host.raSeq + 1) % 4096 } }
    let env := (words.getD 0 0).toNat / 2 ^ 48 % 2 ^ 16
    let w0 := dst + (s.node * 4096 + src % 4096) * 2 ^ 18 + r.id * 2 ^ 36 + env * 2 ^ 48 + 0xF0 * 2 ^ 64
    if s1.sideIsUp sd then
      s1.sendFolio sd (mkFolio 4 2 node false true false (w0 :: (words.drop 1).map BitVec.toNat))
    else s1

/-- A response to a message relayed for the partner goes back to it over Ethernet (R146). -/
def State.relayBack (s : State) (r : Relay) (src : Nat) (words : List Nat) (last : Bool) : State :=
  let w0 := r.srcQn + src * 2 ^ 18 + r.srcId * 2 ^ 36 + words.getD 0 0 / 2 ^ 48 % 2 ^ 16 * 2 ^ 48 + 0xF0 * 2 ^ 64
  let s1 := s.sendEther 4 s.ring (w0 :: words.drop 1)
  if last then { s1 with link := { s1.link with relays := s1.link.relays.filter (· != r) } } else s1

/-- MG_FRAGMENT_RECEIVE (R144 to R146, R269): fragments of one message join in FRAG order. A fragment out of order, or of a new MSG_ID,
discards the message under way, and so is a message that lacks its first fragment. A complete message of the event queue is posted; any
other acts through its own command. A sender relays what its partner sends for a node of this ring, and what answers it. -/
def execMgFragmentReceive (via : Via) (words : List Word72) (s : State) : Outcome State Fault Refusal :=
  let w := (words.getD 0 0).toNat
  let dst := bitsOf w 17 0
  let src := bitsOf w 35 18
  let id := bitsOf w 47 36
  let frag := bitsOf w 55 48
  let lastF := bitsOf w 63 56
  if w / 2 ^ 64 ≠ 0xF0 ∨ s.accepts via = false then .next s
  else if s.isSender = true ∧ via ≠ .ring ∧ dst / 4096 ≠ s.node ∧ (s.route (dst / 4096)).isSome = true then
    .next (s.relayOut (dst / 4096) dst src id words)
  else match s.link.relays.find? fun r => s.isSender && r.id == id && r.node == src / 4096 with
    | some r => .next (s.relayBack r src (words.map BitVec.toNat) (frag == lastF))
    | none =>
      let cur := s.link.frags.find? fun m => m.srcQn == src
      let rest := s.link.frags.filter fun m => !(m.srcQn == src)
      let runs := cur.any fun m => m.id == id && (decide (m.next = frag ∨ 256 < m.next))
      let s1 := s.when (cur.any (fun m => decide (m.next ≤ 256)) && !runs) fun s => s.bump QLK_MG_CNT_FRAG_TMO
      let headless := !runs && frag != 0
      let s2 := s1.when (headless && !(cur.any fun m => m.id == id)) fun s => s.bump QLK_MG_CNT_FRAG_TMO
      if headless then .next { s2 with link := { s2.link with frags := ⟨src, id, dst, 1000, []⟩ :: rest } }
      else
        let m : FragMsg := if runs then cur.getD ⟨src, id, dst, 0, []⟩ else ⟨src, id, dst, 0, []⟩
        if 256 < m.next then .next s2
        else
          let body := m.body ++ (words.drop 1).take 70
          if frag = lastF then
            let s3 := { s2 with link := { s2.link with frags := rest } }
            .next (if s.isSender = true ∧ dst % 4096 = 2 then s3.takeEvent (cutMessage body) else s3)
          else .next { s2 with link := { s2.link with frags := { m with next := frag + 1, body := body } :: rest } }

/-- FRAG_TIMEOUT (R145): a message incomplete FRAG_US after its first fragment is discarded and counted. -/
def execFragTimeout (srcQn : BitVec 18) (s : State) : Outcome State Fault Refusal :=
  match s.link.frags.find? fun m => m.srcQn == srcQn.toNat with
  | some m =>
    let s1 := { s with link := { s.link with frags := s.link.frags.filter fun m => !(m.srcQn == srcQn.toNat) } }
    .next (s1.when (decide (m.next ≤ 256)) fun s => s.bump QLK_MG_CNT_FRAG_TMO)
  | none => .next s

/-! ### Collation (R152, R153) -/

/-- Outcomes of Table 07-8. -/
inductive Coll where
  | single | skip | isMatch | mismatch (crcA crcB : Nat) | shape | nothing
  deriving DecidableEq, Repr

/-- The outcome for what the two streams gave; `lost` tells whether each was lost at any time in the frame. -/
def collate (lostA lostB : Bool) (a b : Option SigResult) : Coll :=
  let bad (x : Option SigResult) : Bool := match x with | some r => r.verdict != .verified | none => false
  if (a.isNone && lostA) || (b.isNone && lostB) then .single
  else if bad a || bad b then .skip
  else match a, b with
    | some x, some y => if x.map = y.map then (if x.crc = y.crc then .isMatch else .mismatch x.crc y.crc) else .shape
    | none, none => .nothing
    | _, _ => .shape

/-- Count and report an outcome of feed `k` of the frame that ends. -/
def State.noteColl (s : State) (k : Nat) : Coll → State
  | .single => s.bump (QLK_COLL_CNT_SINGLE k)
  | .skip => s.bump (QLK_COLL_CNT_SKIP k)
  | .isMatch => s.bump QLK_COLL_MATCH_MATCH
  | .nothing => s
  | .shape =>
    let s1 := (s.bump (QLK_COLL_CNT_SHAPE k)).raise 0x1A 11
    { s1 with link := { s1.link with collDue := true } }
  | .mismatch ca cb =>
    let s1 := s.bump (QLK_COLL_CNT_MISMATCH k)
    let s2 := if s1.on QLK_COLL_CAP0_VALID then s1.wr QLK_COLL_CAP0_MORE 1
      else (((((s1.wr QLK_COLL_CAP0_FRAME s1.frame).wr QLK_COLL_CAP0_FEED k).wr QLK_COLL_CAP0_VALID 1).wr QLK_COLL_CAP0_MORE 0).wr
        QLK_COLL_CAP1_CRC_A ca).wr QLK_COLL_CAP1_CRC_B cb
    let s3 := { s2 with link := { s2.link with collDue := true, collSince := s2.link.collSince.set k (s2.link.collSince.getD k 0 + 1) } }
    s3.raise 0x1A 10

/-- The collation event, at most one per 16 frames, with the MISMATCH counts since the last one (R153). -/
def State.collEvent (s : State) : State :=
  if s.link.collDue && (match s.link.collSent with | some n => decide (n + 16 ≤ s.frame) | none => true) then
    let c (i : Nat) : Nat := min (s.link.collSince.getD i 0) 65535
    let s1 := { s with link := { s.link with collSince := [0, 0, 0, 0], collDue := false, collSent := some s.frame } }
    s1.post 0x8009 [c 0 + c 1 * 2 ^ 16 + c 2 * 2 ^ 32 + c 3 * 2 ^ 48]
  else s

/-- Collation at a tick, of the frame that ends (called while FRAME_NO still names it). -/
def State.collTick (s : State) : State :=
  let s1 := if s.isTile = true ∧ s.on QLK_CFG_COLL_EN = true ∧ s.on (QLK_TOPO_FAR_SENDER 0) = true then
      (s.each (List.range s.feeds) fun s k =>
        s.noteColl k (collate (s.tile.lost.getD 0 false) (s.tile.lost.getD 1 false)
          ((s.tile.results.getD 0 []).getD k none) ((s.tile.results.getD 1 []).getD k none))).collEvent
    else s
  { s1 with tile := { s1.tile with results := List.replicate 2 (List.replicate 4 none),
                                    lost := [!s1.on QLK_STREAM_STAT_A_OK, !s1.on QLK_STREAM_STAT_B_OK] } }

end Sys2Proof.Machine
end

