-- ==== Sys2Proof/Machine/Tile.lean ====
section
/-! DEFINITION. Tile pixel path (spec/09_tile_pixel_path.md): signatures and the sheets, NEED_FULL, the press pass, aging
integration and saves. -/

namespace Sys2Proof.Machine

open Host

/-! ### Pixel SRAM (Table 09-1) and geometry -/

def sheetAddr (f j i : Nat) : Nat := (2 * f + j) * 0x10000 + i
def planeAddr (f j i : Nat) : Nat := 0x80000 + (2 * f + j) * 0x10000 + i
def factAddr (i : Nat) : Nat := 0x100000 + 2 * i
def userAddr (i : Nat) : Nat := 0x120000 + i
def ageAddr (i : Nat) : Nat := 0x130000 + i
def regionAddr (r : Nat) : Nat := 0x140000 + 2 * r
def gutterAddr (g : Nat) : Nat := 0x140200 + g
def ageLutAddr (b c k : Nat) : Nat := 0x141000 + b * 0x1400 + c * 0x400 + k
def ageWeightAddr (b c j : Nat) : Nat := 0x141000 + b * 0x1400 + 0x1000 + 32 * c + j
def lampLutAddr (b c k : Nat) : Nat := 0x144000 + b * 0x4000 + c * 0x1000 + k
def age3Addr (i : Nat) : Nat := 0x150000 + i

/-- Whether the pixel blocks run in this part (TILE, BENCH). -/
def State.hasPixels (s : State) : Bool := pageActive s.role 0x20

/-- The tile's grid. -/
def State.gridW (s : State) : Nat := s.rd TFS_GEOM_LW
def State.gridH (s : State) : Nat := s.rd TFS_GEOM_LH
def State.pixels (s : State) : Nat := 256 * s.gridW * s.gridH

/-- Column and row of the pixel with index `i` (R96, R183). -/
def State.pixX (s : State) (i : Nat) : Nat := 16 * (i / 256 % s.gridW) + i % 16
def State.pixY (s : State) (i : Nat) : Nat := 16 * (i / 256 / s.gridW) + i / 16 % 16

/-- The index of the pixel at a column and row, inside the grid. -/
def State.pixIndex (s : State) (x y : Int) : Option Nat :=
  if 0 ≤ x ∧ x < 16 * s.gridW ∧ 0 ≤ y ∧ y < 16 * s.gridH then
    let a := x.toNat
    let b := y.toNat
    some (256 * (b / 16 * s.gridW + a / 16) + 16 * (b % 16) + a % 16)
  else none

/-- A field of the scan plan in force (R209). -/
def State.pl (s : State) (f : Fld) : Nat := (s.scan.plan.get f.key).toNat

/-- Channels per group (Table 10-1). -/
def groupSize (g : Nat) : Nat := if g = 0 then 3 else 4

/-- The pixel of group `p` and scan line `r` of bank `d` (R201). -/
def State.bankPixel (s : State) (d p r : Nat) : Int × Int :=
  let u := s.pl (DRV_CFG_GRP_USED d)
  let m := s.pl SCN_PLAN_M_M1 + 1
  (((s.pl (DRV_CFG_X0 d) + if s.pl (DRV_CFG_XFLIP d) = 1 then u - 1 - p else p : Nat) : Int),
   ((s.pl (DRV_CFG_Y0 d) + if s.pl (DRV_CFG_YFLIP d) = 1 then m - 1 - r else r : Nat) : Int))

/-- The pixel of device `q` of string `j` of bank `d` (R212). -/
def State.strPixel (s : State) (d j q : Nat) : Int × Int :=
  let run := max 1 (s.pl (DRV_STR_MAP_RUN d j))
  let u : Int := (q / run : Nat)
  let v : Int := if s.pl (DRV_STR_MAP_SERP d j) = 1 ∧ q / run % 2 = 1 then (run - 1 - q % run : Nat) else (q % run : Nat)
  let x : Int := s.pl (DRV_STR_MAP_X d j)
  let y : Int := s.pl (DRV_STR_MAP_Y d j)
  match s.pl (DRV_STR_MAP_DIR d j) with
  | 0 => (x + v, y + u)
  | 1 => (x - v, y + u)
  | 2 => (x + u, y + v)
  | _ => (x + u, y - v)

/-- Whether bank `d` maps the pixel at a column and row. -/
def State.bankMaps (s : State) (d x y : Nat) : Bool :=
  if s.pl (DRV_CFG_MODE d) = 1 then
    decide (s.pl (DRV_CFG_X0 d) ≤ x ∧ x < s.pl (DRV_CFG_X0 d) + s.pl (DRV_CFG_GRP_USED d) ∧
      s.pl (DRV_CFG_Y0 d) ≤ y ∧ y < s.pl (DRV_CFG_Y0 d) + s.pl SCN_PLAN_M_M1 + 1)
  else if s.pl (DRV_CFG_MODE d) = 2 then
    (List.range 16).any fun j => (s.pl (DRV_STR_CFG2_EN d)).testBit j &&
      (List.range (s.pl (DRV_STR_MAP_COUNT d j))).any fun q => s.strPixel d j q == ((x : Int), (y : Int))
  else false

/-- The die whose temperature a pixel's press uses: the lowest-numbered bank that maps it, else 0 (R201). -/
def State.dieOf (s : State) (i : Nat) : Nat :=
  ((List.range 4).find? fun d => s.bankMaps d (s.pixX i) (s.pixY i)).getD 0

/-! ### NEED_FULL (R188) -/

/-- Request full signatures of the feeds of a mask, each at most once per frame. -/
def State.needFull (s : State) (mask : Nat) : State :=
  let new := (List.range s.feeds).filter fun f => mask.testBit f && !s.tile.needNow.testBit f
  let m := new.foldl (fun a f => a + 2 ^ f) 0
  if s.isTile = true ∧ s.on TFS_RX_NEED_EN = true ∧ new ≠ [] then
    let at_ := new.foldl (fun (l : List (Option Nat)) f => l.set f (some s.frame)) s.tile.needAt
    let s1 := { s with tile := { s.tile with needNow := s.tile.needNow ||| m, needAt := at_ } }
    (((s1.wr TFS_RX_STAT_NEED_PEND (s1.rd TFS_RX_STAT_NEED_PEND ||| m)).bump TFS_CNT1_NEED).raise 0x20 7).post 0x8003 [m]
  else s

/-- NEED_FULL_RETRY (R188): requests outstanding for NEED_RETRY frames are repeated. -/
def execNeedFullRetry (s : State) : Outcome State Fault Refusal :=
  .next (s.needFull (((List.range 4).filter fun f => match s.tile.needAt.getD f none with
    | some n => decide (n + s.rd TFS_RX_NEED_RETRY ≤ s.frame)
    | none => false).foldl (fun a f => a + 2 ^ f) 0))

/-- A full signature of a feed is written: its request ends. -/
def State.needEnd (s : State) (f : Nat) : State :=
  let s1 := s.wr TFS_RX_STAT_NEED_PEND (s.rd TFS_RX_STAT_NEED_PEND - (s.rd TFS_RX_STAT_NEED_PEND &&& 2 ^ f))
  { s1 with tile := { s1.tile with needAt := s1.tile.needAt.set f none } }

/-- Leaf maps are cleared (R188): start, a TFS block reset, a write of TFS.GEOM, leaving REPLAY. -/
def State.clearLeafMaps (s : State) : State :=
  { s with tile := { s.tile with cur := [0, 0, 0, 0], valid := [0, 0, 0, 0], fresh := [0, 0, 0, 0], cleared := true } }

/-! ### Press lead (R189) -/

/-- The feed count that governs NEED_US: the larger of the two while a switch is pending (R190). -/
def State.pressF (s : State) : Nat :=
  match s.wtu.switch with
  | some w => max s.feeds (w.tb.fM1 + 1)
  | none => s.feeds

/-- t_need in µs, rounded up. -/
def State.needUs (s : State) : Nat := ceilDiv (s.pressF * (512 * s.gridW * s.gridH + 4000) + 10000) 1000

/-- Form NEED_US anew; a LEAD_US below it is raised to it and recorded (R40, R189). -/
def State.updNeed (s : State) : State :=
  let n := s.needUs
  let s1 := s.wr LCP_PRESS_NEED_US n
  if s.rd LCP_PRESS_LEAD_US < n then (s1.wrAll LCP_PRESS_LEAD_US n).captureInt 0x21 errCLAMP (s.rd LCP_PRESS_LEAD_US) else s1

/-! ### Signatures (R137 to R140, R186, R187) -/

/-- Where each listed leaf's words begin among the words of the data folios (R138): in slice mode each leaf row starts a new
folio. Leaves, words per leaf, grid width, words so far of the row's folios. -/
def leafStarts (slice : Bool) (wpl lw : Nat) : List Nat → Nat → Option Nat → List Nat
  | [], _, _ => []
  | l :: r, pos, row =>
    let p := if slice && row.any (fun x => x != l / lw) then ceilDiv pos 71 * 71 else pos
    p :: leafStarts slice wpl lw r (p + wpl) (some (l / lw))

/-- The listed leaves of a bitmap. -/
def mapLeaves (m : Nat) : List Nat := (List.range 256).filter fun l => m.testBit l

/-- The bitmap of a list of leaves. -/
def leavesMap (ls : List Nat) : Nat := ls.foldl (fun a l => a ||| 2 ^ l) 0

/-- Count a verdict and hold it for collation; the SIG record (Table 18-1). -/
def State.noteVerdict (s : State) (st : Nat) (g : OpenSig) (v : Verdict) (crc sent t : Nat) : State :=
  let s1 := match v with
    | .verified => s.bump (QLK_SIG_CNT_OK st)
    | .truncated => s.bump (QLK_SIG_CNT_TRUNC st)
    | .failed => (s.bump (QLK_SIG_CNT_CRC_FAIL st)).raise 0x1A 9
  let code : Nat := match v with | .verified => 0 | .truncated => 1 | .failed => 2
  let us := min ((t - s.tickTime g.frame) / 65536000) 16383
  let s2 := s1.recWrite 2 (g.feed + st * 4 + code * 8 + b2n g.isPartial * 32 + b2n g.forced * 64)
    [crc + sent * 2 ^ 32 + g.leaves.length * 2 ^ 41 + us * 2 ^ 50]
  let row := (s2.tile.results.getD st []).set g.feed (some ⟨v, leavesMap g.leaves, crc⟩)
  { s2 with tile := { s2.tile with results := s2.tile.results.set st row } }

/-- The leaf map takes a verdict's leaves (R187, R191): CUR flips and VALID sets; after press start they are late. -/
def State.takeLeaves (s : State) (f : Nat) (ls : List Nat) : State :=
  let m := leavesMap ls
  let tl := s.tile
  let s1 := { s with tile := { tl with cur := tl.cur.set f (tl.cur.getD f 0 ^^^ m), valid := tl.valid.set f (tl.valid.getD f 0 ||| m),
                                       fresh := tl.fresh.set f (tl.fresh.getD f 0 ||| m) } }
  let s2 := s1.wr TFS_RX_STAT_FEEDS_OK (s1.rd TFS_RX_STAT_FEEDS_OK ||| 2 ^ f)
  if tl.started ∧ ls ≠ [] then
    ({ s2 with tile := { s2.tile with late := s2.tile.late + ls.length } }.bumpBy TFS_CNT0_LATE ls.length).raise 0x20 4
  else s2

/-- A signature ends with a verdict (R140, R187, R188). -/
def State.endSig (s : State) (st : Nat) (g : OpenSig) (v : Verdict) (crc sent t : Nat) : State :=
  let s0 := { s with tile := { s.tile with sigs := s.tile.sigs.set st none } }
  let s1 := s0.noteVerdict st g v crc sent t
  if g.store = false then s1
  else match v with
    | .verified => (s1.takeLeaves g.feed g.leaves).when (!g.isPartial) fun s => s.needEnd g.feed
    | .truncated => (s1.takeLeaves g.feed (g.leaves.take sent)).bumpBy TFS_CNT0_UNSENT (g.leaves.length - sent)
    | .failed => s1.needFull (2 ^ g.feed)

/-- An open signature ends FAILED; one whose header did not pass is dropped. -/
def State.failSig (s : State) (st t : Nat) : State :=
  match s.tile.sigs.getD st none with
  | some g => if g.use then s.endSig st g .failed 0 0 t else { s with tile := { s.tile with sigs := s.tile.sigs.set st none } }
  | none => s

/-- SIGNATURE_EXPIRE (R140): a signature still open at tick n + 1 ends FAILED. -/
def execSignatureExpire (st : Fin 2) (s : State) : Outcome State Fault Refusal :=
  .next (s.failSig st (s.tickTime (s.frame + 1)))

/-- SIG_HDR_RECEIVE (R137, R140, R186): an open signature of the stream ends FAILED; the header is checked against FRAME_NO,
feed and grid, on both streams. -/
def execSigHdrReceive (st : Fin 2) (words : List Word72) (t : Nat) (s : State) : Outcome State Fault Refusal :=
  if s.isTile = false ∨ s.dataOn = false then .next s
  else
    let w (i : Nat) : Nat := (words.getD i 0).toNat
    let s1 := s.failSig st t
    let map := (List.range 4).foldl (fun a m => a + bitsOf (w (2 + m)) 63 0 * 2 ^ (64 * m)) 0
    let feed := bitsOf (w 0) 49 48
    let frameOk := bitsOf (w 0) 47 0 == s.frame % 2 ^ 48
    let gridOk := decide (feed < s.feeds) && bitsOf (w 1) 4 0 == s.gridW && bitsOf (w 1) 9 5 == s.gridH
    let sel := st.val == s.rd TFS_RX_SEL
    let g : OpenSig := {
      use := frameOk && gridOk, store := frameOk && gridOk && sel && s.rd REC_CTRL_MODE != 2, frame := s.frame,
      feed := feed, isPartial := bitOf (w 0) 50, p48 := bitOf (w 0) 51, slice := bitOf (w 0) 52, forced := bitOf (w 0) 57,
      leaves := mapLeaves map, words := [] }
    let s2 := { s1 with tile := { s1.tile with sigs := s1.tile.sigs.set st (some g) } }
    if frameOk = false then .next ((s2.bump TFS_CNT0_STALE).raise 0x20 5)
    else if gridOk = false then .next ((s2.bump TFS_CNT0_GEOM).raise 0x20 6)
    else if sel then
      let s3 := s2.when (s2.rd TFS_RX_STAT_FRAME != s.frame) fun s => s.wr TFS_RX_STAT_FEEDS_OK 0
      .next ({ s3 with tile := { s3.tile with gut := s3.tile.gut.set feed (bitsOf (w 0) 56 53) } }.wr TFS_RX_STAT_FRAME s.frame)
    else .next s2

/-- The pixel words of a received leaf: W72 words as they are, P48 components promoted with C3 = 0 (R108, R187). -/
def leafPixels (p48 : Bool) (ws : List Nat) : List Word72 :=
  if p48 then
    let bits := ws.zipIdx.foldl (fun a e => a + e.1 % 2 ^ 72 * 2 ^ (72 * e.2)) 0
    (List.range 256).map fun k =>
      let c (i : Nat) : Nat := bitsOf bits (48 * k + 16 * i + 15) (48 * k + 16 * i) * 4
      BitVec.ofNat 72 (c 0 + c 1 * 2 ^ 18 + c 2 * 2 ^ 36)
  else ws.map (BitVec.ofNat 72)

/-- Write the leaves whose words completed with the last folio into bank 1 − CUR of their feed. -/
def State.storeLeaves (s : State) (g : OpenSig) (before : Nat) (ws : List Nat) : State :=
  let wpl := wordsPerLeaf g.p48
  let starts := leafStarts g.slice wpl s.gridW g.leaves 0 none
  s.each ((g.leaves.zip starts).filter fun e => decide (before < e.2 + wpl ∧ e.2 + wpl ≤ ws.length)) fun s e =>
    let bank := if (s.tile.cur.getD g.feed 0).testBit e.1 then 0 else 1
    s.each (leafPixels g.p48 ((ws.drop e.2).take wpl)).zipIdx fun s p => s.setPix (sheetAddr g.feed bank (256 * e.1 + p.2)) p.1

/-- SIG_DATA_RECEIVE (R138 to R140, R187): a data folio of the stream is taken into the open signature; the LAST one gives the
verdict, for which the folios must be those that the leaves sent take (in slice mode a closing folio may follow a whole row); with none
open it is an ORPHAN. -/
def execSigDataReceive (st : Fin 2) (words : List Word72) (last : Bool) (t : Nat) (s : State) : Outcome State Fault Refusal :=
  if s.isTile = false ∨ s.dataOn = false then .next s
  else match s.tile.sigs.getD st none with
    | none =>
      .next ((s.bump (QLK_SIG_CNT_ORPHAN st)).when (st.val == s.rd TFS_RX_SEL) fun s => s.needFull 15)
    | some g =>
      if g.use = false then
        .next (if last then { s with tile := { s.tile with sigs := s.tile.sigs.set st none } } else s)
      else
        let fw := (List.range 71).map fun i => (words.getD i 0).toNat
        let ws := g.words ++ (if last then fw.take 70 else fw)
        let s1 := if g.store then s.storeLeaves g g.words.length ws else s
        if last = false then
          .next { s1 with tile := { s1.tile with sigs := s1.tile.sigs.set st (some { g with words := ws }) } }
        else
          let tr := fw.getD 70 0
          let sent := bitsOf tr 40 32
          let trunc := bitOf tr 41
          let wpl := wordsPerLeaf g.p48
          let starts := leafStarts g.slice wpl s.gridW g.leaves 0 none
          let ends := if sent = 0 then 0 else starts.getD (sent - 1) 0 + wpl
          let got := (starts.take sent).flatMap fun p => (ws.drop p).take wpl
          let exact := decide (ws.length + 1 = 71 * ceilDiv (ends + 1) 71)
          let closed := g.slice && decide (ws.length + 1 = 71 * (ceilDiv ends 71 + 1))
          let good := tr / 2 ^ 64 == 0xEF && decide (sent ≤ g.leaves.length) && leafCrc got == bitsOf tr 31 0
          let v : Verdict := if good && trunc && (exact || closed) then .truncated
            else if good && !trunc && exact && sent == g.leaves.length then .verified else .failed
          .next (s1.endSig st g v (bitsOf tr 31 0) sent t)

/-! ### The press pass (R190 to R195, R197) -/

/-- Round half up of x / 2^k. -/
def roundHalf (x : Int) (k : Nat) : Int := (x + 2 ^ (k - 1)) / 2 ^ k

/-- Clamp to 0 and 4 − 2^−20 in U2.20 (R193). -/
def clamp20 (x : Int) : Nat := if x < 0 then 0 else min x.toNat (2 ^ 22 - 1)

/-- A product of a value in U2.20 and a factor with `k` fractional bits, rounded and clamped. -/
def mul20 (v : Nat) (f : Int) (k : Nat) : Nat := clamp20 (roundHalf (v * f) k)

/-- Coefficient `i` of a matrix word pair (Table 09-2): M00 to M22, then G3. -/
def matCoef (w0 w1 : Word72) (i : Nat) : Int :=
  if i < 5 then toSigned 14 (bitsOf w0.toNat (14 * i + 13) (14 * i))
  else toSigned 14 (bitsOf w1.toNat (14 * (i - 5) + 13) (14 * (i - 5)))

/-- Steps 2 and 3: three rows, each the exact sum of its rounded products; C3 by G3. -/
def applyMatrix (w0 w1 : Word72) (v : List Nat) : List Nat :=
  let row (j : Nat) : Nat := clamp20 ((List.range 3).foldl (fun (a : Int) i =>
    a + roundHalf ((v.getD i 0 : Nat) * matCoef w0 w1 (3 * j + i)) 12) 0)
  [row 0, row 1, row 2, mul20 (v.getD 3 0) (matCoef w0 w1 9) 12]

/-- Whether a pixel SRAM word is uncorrectable for this press. -/
def State.badWord (s : State) (ue : List Nat) (a : Nat) : Bool := ue.contains a || s.ue.contains (pixKey a)

/-- A point of a table: with an uncorrectable error, the point below it, or 0 for point 0 (Table 09-6). -/
def State.point (s : State) (ue : List Nat) (base w : Nat) : Nat → Nat
  | 0 => if s.badWord ue base then 0 else (s.pix base).toNat % 2 ^ w
  | k + 1 => if s.badWord ue (base + (k + 1)) then s.point ue base w k else (s.pix (base + (k + 1))).toNat % 2 ^ w

/-- Step 1: the sheet word through the snapshot. -/
def State.sheetWord (s : State) (ue : List Nat) (f i : Nat) : Nat :=
  let l := i / 256
  if (s.tile.snapValid.getD f 0).testBit l then
    let a := sheetAddr f (b2n ((s.tile.snapCur.getD f 0).testBit l)) i
    if s.badWord ue a then 0 else (s.pix a).toNat
  else 0

/-- Aging counter of component `c` of a pixel. -/
def ageCount (rec c3 : Word72) (c : Nat) : Nat :=
  if c < 3 then bitsOf rec.toNat (24 * c + 23) (24 * c) else bitsOf c3.toNat 23 0

/-- Aging gain with 30 fractional bits (R195). -/
def State.ageGain (s : State) (ue : List Nat) (c cnt : Nat) : Nat :=
  let b := s.rd LCP_CFG_AGE_BANK
  let p := cnt / 2 ^ 14
  let p0 := s.point ue (ageLutAddr b c 0) 18 p
  let p1 := if p < 1023 then s.point ue (ageLutAddr b c 0) 18 (p + 1) else p0
  (p0 * 2 ^ 14 + ((p1 : Int) - p0) * (cnt % 2 ^ 14)).toNat

/-- Temperature weight W_c(T) in units of 1 / (4,096 × 640), T in 1/128 °C (R195). -/
def State.ageWeight (s : State) (ue : List Nat) (c : Nat) (t : Int) : Nat :=
  let w (j : Nat) : Nat := s.point ue (ageWeightAddr (s.rd LCP_CFG_AGE_BANK) c 0) 16 j
  let x := t + 5120
  if x < 0 then w 0 * 640
  else if 31 * 640 ≤ x then w 31 * 640
  else
    let j := x.toNat / 640
    (w j * 640 + ((w (j + 1) : Int) - w j) * (x - 640 * j)).toNat

/-- Reverse the low 16 bits. -/
def bitRev16 (x : Nat) : Nat := (List.range 16).foldl (fun a i => a + (if x.testBit i then 2 ^ (15 - i) else 0)) 0

/-- The dither threshold's seed value, times 65,536 (R194). -/
def ditherOf (i n feed c : Nat) : Nat := bitRev16 ((i * 40503 + n % 65536 * 25033 + feed * 16411 + c * 9949) % 65536)

/-- What the press makes of one pixel: the gray word, the components clipped at CEIL with aging gain above 1.0, and the new
aging counters. -/
structure Pressed where
  gray : Nat
  clips : Nat
  age : List Nat
  deriving DecidableEq, Repr

/-- The press of pixel `i` of feed `f` for frame `n` from a sheet word (Tables 09-8, R193 to R195). `t` holds the die
temperatures, `thr` the throttle factor. -/
def State.pressPixel (s : State) (ue : List Nat) (integrate : Bool) (n f F gut i sheet : Nat) (t : List Int) (thr : Nat)
    (ageRec c3Rec : Word72) : Pressed :=
  let prim4 := s.on LCP_CFG_PRIM4
  let nc := if prim4 then 4 else 3
  let f0 := s.pix (factAddr i)
  let f1 := s.pix (factAddr i + 1)
  let user := s.pix (userAddr i)
  let region := bitsOf user.toNat 55 48
  let gidx := bitsOf f0.toNat 71 70 + 4 * bitsOf f1.toNat 71 70
  let gutW := (s.pix (gutterAddr gidx)).toNat
  let userEn := s.on LCP_CFG_USER_EN
  let gutOn := s.on LCP_CFG_GUT_EN && gidx != 0 && (gutW % 16 &&& gut) != 0
  let dark := s.badWord ue (factAddr i) || s.badWord ue (factAddr i + 1) || s.badWord ue (userAddr i) ||
    (userEn && (s.badWord ue (regionAddr region) || s.badWord ue (regionAddr region + 1))) ||
    (s.on LCP_CFG_GUT_EN && gidx != 0 && s.badWord ue (gutterAddr gidx))
  let die := t.getD (s.dieOf i) 0
  let v1 := (List.range 4).map fun c => if c < nc then bitsOf sheet (18 * c + 17) (18 * c) * 16 else 0
  let v2 := applyMatrix f0 f1 v1
  let v3 := if userEn then
      (applyMatrix (s.pix (regionAddr region)) (s.pix (regionAddr region + 1)) v2).zipIdx.map fun e =>
        if e.2 < 3 then mul20 e.1 (bitsOf user.toNat (16 * e.2 + 15) (16 * e.2) : Nat) 15 else e.1
    else v2
  let v4 := if gutOn then v3.zipIdx.map fun e => mul20 e.1 (bitsOf gutW (17 * e.2 + 20) (17 * e.2 + 4) : Nat) 16 else v3
  let ageEn := s.on LCP_CFG_AGE_EN
  let tb := s.tbAt n
  let comp (c : Nat) : Nat × Bool × Nat :=
    let cnt := ageCount ageRec c3Rec c
    let gain := if ageEn then s.ageGain ue c cnt else 2 ^ 30
    let v5 := if ageEn then mul20 (v4.getD c 0) (gain : Nat) 30 else v4.getD c 0
    let gt := (2 : Int) ^ 27 + toSigned 16 (s.rd (LCP_THERM_COEF c)) * (die - 128 * toSigned 8 (s.rd (LCP_THERM_TREF c)))
    let v6 := if s.on LCP_CFG_THERM_EN then mul20 v5 (max (2 ^ 26) (min gt (2 ^ 28))) 27 else v5
    let v7 := mul20 (mul20 (mul20 v6 (s.rd LCP_BRIGHT_BRIGHT : Nat) 16) (s.rd (LCP_WHITE_WHITE c) : Nat) 15) (thr : Nat) 16
    let ceil := s.rd LCP_BRIGHT_CEIL * 16
    let v8 := min v7 ceil
    let p := v8 * 4095
    let lut (k : Nat) : Nat := s.point ue (lampLutAddr (s.rd LCP_CFG_LUT_BANK) c 0) 24 k
    let k := p / 2 ^ 20
    let y := if k < 4095 then
        (roundHalf ((lut k : Int) * 2 ^ 20 + ((lut (k + 1) : Int) - lut k) * (p % 2 ^ 20 : Nat)) 20).toNat
      else lut 4095
    let y := min y (2 ^ 24 - 1)
    let depth := s.rd LCP_CFG_DEPTH
    let e := min (s.rd LCP_CFG_LO_BITS) (depth - 8)
    let hb := depth - e
    let d := if s.on LCP_CFG_DITHER_EN then ditherOf i n f c else 32768
    let yh := y * 2 ^ hb
    let h := if e = 0 then min ((yh + d * 2 ^ 8) / 2 ^ 24) (2 ^ hb - 1) else yh / 2 ^ 24
    let l := if e = 0 then 0 else min ((yh % 2 ^ 24 * 2 ^ e * s.rd (LCP_LO_K_K c) + d * 2 ^ 23) / 2 ^ 39) (2 ^ e - 1)
    let masked := dark || (if c < 3 then bitOf user.toNat (56 + c) else bitOf user.toNat 71)
    let g := if masked || decide (nc ≤ c) then 0 else (h * 2 ^ e + l) * 2 ^ (18 - depth)
    let num := g * s.ageWeight ue c die * s.rd LCP_AGE_AGE_K * tb.den * 1000
    let den := 2 ^ 50 * 4096 * 640 * tb.num * F
    let up := integrate && decide (c < nc) && decide (65536 * den ≤ min num den * 65536 + ditherOf i n f (c + 4) * den)
    (g, decide (v8 < v7) && decide (2 ^ 30 < gain) && decide (c < nc), if up then min (cnt + 1) (2 ^ 24 - 1) else cnt)
  let r := (List.range 4).map comp
  { gray := (r.zipIdx.map fun e => e.1.1 * 2 ^ (18 * e.2)).foldl (· + ·) 0
    clips := (r.filter fun e => e.2.1).length
    age := r.map fun e => e.2.2 }

/-- The aging record that counters make. -/
def ageWord (a : List Nat) : Word72 := BitVec.ofNat 72 (a.getD 0 0 + a.getD 1 0 * 2 ^ 24 + a.getD 2 0 * 2 ^ 48)

/-- Note components clipped at CEIL: RESERVE_CLIP is raised once per frame in which the count grows. -/
def State.noteClips (s : State) (k : Nat) : State :=
  if k = 0 then s
  else
    let s1 := s.bumpBy LCP_CNT_RESERVE_CLIP k
    if s1.tile.clipRaised then s1 else { s1 with tile := { s1.tile with clipRaised := true } }.raise 0x21 5

/-- Press one feed for frame `n` into its next plane; the aging counters integrate (R195). -/
def State.pressFeed (s : State) (ue : List Nat) (lit : Bool) (n f F : Nat) : State :=
  let t := (List.range 4).map fun d => toSigned 16 (s.rd (LCP_TLATCH_T d))
  let thr := s.rd LCP_STAT_THR
  let gut := s.tile.gut.getD f 0
  let integrate := lit && s.on LCP_CFG_AGE_EN
  let j := 1 - b2n (s.tile.showing.testBit f)
  let res := (List.range s.pixels).map fun i =>
    s.pressPixel ue integrate n f F gut i (s.sheetWord ue f i) t thr (s.pix (ageAddr i)) (s.pix (age3Addr i))
  let s1 := { s with win := s.win.setMany (pixKey (planeAddr f j 0)) (res.map fun r => BitVec.ofNat 72 r.gray) }
  let s2 := if integrate then
      let a := { s1 with win := s1.win.setMany (pixKey (ageAddr 0)) (res.map fun r => ageWord r.age) }
      if s.on LCP_CFG_PRIM4 then { a with win := a.win.setMany (pixKey (age3Addr 0)) (res.map fun r => BitVec.ofNat 72 (r.age.getD 3 0)) }
      else a
    else s1
  let fresh := s.tile.fresh.getD f 0
  let s3 := (List.range 4).foldl (fun (s : State) m => s.wr (TFS_LEAF_UPD_BITS f m) (bitsOf fresh (64 * m + 63) (64 * m))) s2
  let s4 := { s3 with
    tile := { s3.tile with fresh := s3.tile.fresh.set f 0 }
    scan := { s3.scan with depthNext := s3.scan.depthNext.set f (s.rd LCP_CFG_DEPTH, s.rd LCP_CFG_LO_BITS) } }
  s4.noteClips ((res.map Pressed.clips).foldl (· + ·) 0)

/-- The capture of one feed press (R324): a slot of sheet words, and with the first one the aging records. -/
def State.captureFeed (s : State) (ue : List Nat) (f : Nat) : State :=
  match s.recd.capturing with
  | some k =>
    if k < s.rd REC_CTRL_CAP_SLOTS then
      let at_ (slot : Nat) : Nat := pixKey (0x180000 + slot * 0x10000)
      let idx := List.range s.pixels
      let s1 := { s with win := s.win.setMany (at_ k) (idx.map fun i => BitVec.ofNat 72 (s.sheetWord ue f i)),
                         recd := { s.recd with capturing := some (k + 1),
                                               capOf := if k = 0 then [(s.frame + 1, f)] else s.recd.capOf ++ [(s.frame + 1, f)] } }
      let s2 := if k = 0 ∧ s.on LCP_CFG_AGE_EN = true then
          let a := { s1 with win := s1.win.setMany (at_ 7) (idx.map fun i => s.pix (ageAddr i)) }
          if s.on LCP_CFG_PRIM4 then { a with win := a.win.setMany (at_ 6) (idx.map fun i => s.pix (age3Addr i)) } else a
        else s1
      s2.wr REC_STAT_CAP_DONE (s2.rd REC_STAT_CAP_DONE ||| 2 ^ k)
    else s
  | none => s

/-- Uncorrectable words this press found (R197, Table 09-6). -/
def State.noteBad (s : State) (ue : List Nat) : State :=
  s.each ue fun s a =>
    let s1 := { s with ue := if s.ue.contains (pixKey a) then s.ue else pixKey a :: s.ue }
    if a < 0x80000 then
      (((s1.bump TFS_CNT1_ECC_SHEET).captureInt 0x20 errECC_UE (0x6000000 + 16 * a)).raise 0x20 8).needFull (2 ^ (a / 0x20000))
    else if 0x100000 ≤ a ∧ a < 0x160000 then
      ({ s1 with tile := { s1.tile with reload := a :: s1.tile.reload.filter (· != a) } }.captureInt 0x21 errECC_UE
        (0x6000000 + 16 * a)).raise 0x21 8
    else s1

/-- Whether the node is LIT. -/
def State.isLit (s : State) : Bool := s.rd NVS_POWER_STATE == 0

/-- The feed count of the timebase that governs the coming frame (R190). -/
def State.nextF (s : State) : Nat :=
  match s.wtu.switch with
  | some w => if w.frame = s.frame + 1 then w.tb.fM1 + 1 else s.feeds
  | none => s.feeds

/-- PRESS_START (R190, R191 to R195, R197, R324): press start of the coming tick. After a held tick the press is skipped
(R192). `ue` lists the pixel SRAM words that this press finds uncorrectable. -/
def execPressStart (ue : List Nat) (s : State) : Outcome State Fault Refusal :=
  if s.hasPixels = false ∨ s.blkOn 0x20 = false ∨ s.blkOn 0x21 = false ∨ s.dataOn = false ∨
      s.tile.pressing = true then .next s
  else if s.on WTU_FRAME_HELD then .next (s.bump LCP_CNT_SKIPPED)
  else
    let F := s.nextF
    let s1 := { s with tile := { s.tile with snapCur := s.tile.cur, snapValid := s.tile.valid, pressing := true, started := true,
                                              pressFeeds := F, serves := s.frame + 1, overrun := false,
                                              finished := 0, late := 0 } }
    let s2 := s1.noteBad ue
    .next (s2.each (List.range F) fun s f => (s.captureFeed ue f).pressFeed ue s2.isLit (s2.frame + 1) f F)

/-- CRC-32 over the gray words of a feed's plane (R322). -/
def State.grayCrc (s : State) (f j : Nat) : Nat :=
  crc32 ((List.range s.pixels).flatMap fun i => leBytes 9 (s.pix (planeAddr f j i)).toNat)

/-- CRC-32 over the LCP active set (R322). -/
def State.lcpCrc (s : State) : Nat :=
  let word (off : Nat) : Nat := (regFields 0x21 off).foldl (fun a f => a + (if f.acc = .rws then s.rd f else s.readFld f) * 2 ^ f.lo) 0
  crc32 (((List.range 9).flatMap fun k => leBytes 8 (word (0x80 + 8 * k))) ++ leBytes 4 (s.rd LCP_AGE_AGE_K))

/-- The PRESS record (Table 18-1) of the press that serves frame `n`; `flip` are the feeds that flip. -/
def State.pressRecord (s : State) (n flip : Nat) : State :=
  let t (d : Nat) : Nat := s.rd (LCP_TLATCH_T d) * 2 ^ (16 * d)
  let c (f : Nat) : Nat := if flip.testBit f then s.grayCrc f (1 - b2n (s.tile.showing.testBit f)) else 0
  s.recWriteAt n 3 flip [t 0 + t 1 + t 2 + t 3,
    s.rd LCP_STAT_THR + min s.tile.late 32767 * 2 ^ 17 + s.lcpCrc * 2 ^ 32, c 0 + c 1 * 2 ^ 32, c 2 + c 3 * 2 ^ 32]

/-- A word as MRAM holds it: a factory word in its partition, an aging word in the last saved slot, a table word in the
current tables generation. -/
def State.savedPix (s : State) (a : Nat) : Word72 :=
  if a < 0x120000 then s.nvs.factory.get a
  else if (0x130000 ≤ a ∧ a < 0x140000) ∨ 0x150000 ≤ a then
    match s.nvs.ageSlots.getD (s.rd LCP_AGE_STAT_SLOT) none with
    | some e => e.2.get a
    | none => 0
  else match s.nvs.tblGens.getD (s.rd NVS_GEN_TBL_GEN % 2) none with
    | some g => g.get a
    | none => s.pix a

/-- The words that firmware reloads for one found bad (Table 09-6): of a LUT or weight, its whole bank. First word, count. -/
def reloadSpan (a : Nat) : Nat × Nat :=
  if 0x141000 ≤ a ∧ a < 0x143800 then (0x141000 + (a - 0x141000) / 0x1400 * 0x1400, 0x1400)
  else if 0x144000 ≤ a ∧ a < 0x14C000 then (0x144000 + (a - 0x144000) / 0x4000 * 0x4000, 0x4000)
  else (a, 1)

/-- Firmware reloads from MRAM what a bad word calls for (Table 09-6). -/
def State.reloadWord (s : State) (a : Nat) : State :=
  s.each (List.range (reloadSpan a).2) fun s k => s.setPix ((reloadSpan a).1 + k) (s.savedPix ((reloadSpan a).1 + k))

/-- A write to a TFS/LCP window word takes effect: an M-class region makes the tables area dirty (R302), and a write to the
digest range during the walk is noted (R324). -/
def State.setTable (s : State) (a : Nat) (v : Word72) : State :=
  let s1 := s.setPix a v
  let digest := (decide (0x100000 ≤ a ∧ a < 0x130000) || decide (0x140000 ≤ a ∧ a < 0x150000)) && s.recd.walking
  let s2 := s1.when digest fun s => s.wr REC_STAT_DIGEST_DIRTY 1
  s2.when ((decide (0x120000 ≤ a ∧ a < 0x130000) || decide (0x140000 ≤ a ∧ a < 0x150000))) fun s => s.markDirty 1

/-- SAVE_GO, or the press before a tick n with n mod 65,536 = 0: a save begins, or merges with the one that runs. -/
def State.ageSave (s : State) : State := if s.hasPixels then s.queueOp 3 else s

/-- PRESS_COMPLETE (R185, R190, R197): the pass has finished all feeds; queued window writes apply in order and firmware
reloads the words found bad; after the press of a tick n with n mod 65,536 = 0 an aging save begins (R196). -/
def execPressComplete (ns : BitVec 32) (s : State) : Outcome State Fault Refusal :=
  if s.tile.pressing = false then .next s
  else
    let s1 := { s with tile := { s.tile with pressing := false, finished := if s.tile.overrun then 0 else 2 ^ s.tile.pressFeeds - 1 } }
    let s2 := s1.wr LCP_STAT_PRESS_NS ns.toNat
    let s3 := if s2.tile.overrun then s2 else s2.pressRecord s2.tile.serves s2.tile.finished
    let s4 := s3.each s3.tile.reload State.reloadWord
    let s5 := s4.each s4.tile.writeQ fun s e => s.setTable e.1 e.2
    let s6 := { s5 with tile := { s5.tile with writeQ := [], reload := [] } }
    .next (if s.tile.serves % 65536 = 0 then s6.ageSave else s6)

/-! ### The tile's part in a tick (R188, R190, R193) -/

/-- Before FRAME_NO moves on: signatures still open end FAILED and the frame is collated (R140, R152). -/
def State.tileTickEnd (s : State) : State :=
  if s.isTile then
    let t := s.tickTime (s.frame + 1)
    ((s.failSig 0 t).failSig 1 t).collTick
  else s

/-- The feeds of a mask flip: their next planes become the showing ones, with the DEPTH and LO_BITS of their press. -/
def State.flipFeeds (s : State) (m : Nat) : State :=
  let depth := (List.range 4).map fun f =>
    if m.testBit f then s.scan.depthNext.getD f (18, 0) else s.scan.depth.getD f (18, 0)
  { s with tile := { s.tile with showing := s.tile.showing ^^^ m, finished := 0, started := false },
           scan := { s.scan with depth := depth } }

/-- Tick, not held: finished feeds flip; the others count PRESS_OVR (R190). Of a pass that runs on, how many feeds are
finished is a free value below its count: no command tells. -/
def State.flipPlanes (s : State) : State :=
  if s.tile.pressing = true ∧ s.tile.overrun = false then
    let k := s.free % max 1 s.tile.pressFeeds
    let s1 := ((s.drawn.pressRecord s.tile.serves (2 ^ k - 1)).bumpBy LCP_CNT_PRESS_OVR (s.tile.pressFeeds - k)).raise 0x21 4
    let s2 := s1.flipFeeds (2 ^ k - 1)
    { s2 with tile := { s2.tile with overrun := true } }
  else s.flipFeeds s.tile.finished

/-- After FRAME_NO moves on: one request per feed and frame again; cleared leaf maps ask for every feed. -/
def State.tileTickNew (s : State) : State :=
  let s1 := { s with tile := { s.tile with needNow := 0, clipRaised := false } }
  if s1.tile.cleared ∧ s1.isTile then { s1 with tile := { s1.tile with cleared := false } }.needFull 15 else s1

/-! ### Aging saves (R196) -/

/-- The aging words: records, and the C3 counters with PRIM4 = 1. -/
def State.ageWords (s : State) : Tbl 72 :=
  let inRec (k : Nat) : Bool := decide (pixKey 0x130000 ≤ k ∧ k < pixKey 0x140000)
  let inC3 (k : Nat) : Bool := s.on LCP_CFG_PRIM4 && decide (pixKey 0x150000 ≤ k ∧ k < pixKey 0x160000)
  (s.win.filter fun e => inRec e.1 || inC3 e.1).map fun e => (e.1 - pixKey 0, e.2)

/-- AGE_SAVE_DONE (R196): the inactive slot holds the counters; SLOT and SAVE_FRAME update and AGE_SAVED is raised. -/
def execAgeSaveDone (s : State) : Outcome State Fault Refusal :=
  if s.nvs.ops.head? = some 3 then
    let k := 1 - s.rd LCP_AGE_STAT_SLOT
    let n := s.nvs.ageHead.getD s.frame
    let s1 := { s with nvs := { s.nvs with ageSlots := s.nvs.ageSlots.set k (some (n, s.ageWords)), ageHead := none } }
    let s2 := ((s1.bump NVS_MRAM_RECORDS).wr LCP_AGE_STAT_SAVING 0).wr LCP_AGE_STAT_SLOT k
    .next ((s2.wr LCP_AGE_STAT_SAVE_FRAME n).popOp.raise 0x21 6)
  else .next s

end Sys2Proof.Machine
end

