-- ==== Sys2Proof/Machine/Scan.lean ====
section
/-! DEFINITION. Scan engine and lamp drive (spec/10_scan_and_drive.md): the scan plan, what a line slot drives, safe disable
and its causes, lamps on, stitch strings. -/

namespace Sys2Proof.Machine

open Host

/-! ### Causes (Table 10-6) -/
def whyHOST : Nat := 1
def whySTATE : Nat := 2
def whyTIME : Nat := 3
def whyPLAN : Nat := 4
def whyTHERMAL : Nat := 5
def whyPLL : Nat := 6
def whyUNDERRUN : Nat := 7
def whyRELOCK : Nat := 8
def whyMODE : Nat := 9
def whyIREF : Nat := 10
def whyLINK : Nat := 11
def whyROLE : Nat := 12
def whySWITCH : Nat := 13
def whyABSENT : Nat := 14

/-- A bank. -/
def State.drvBank (s : State) (d : Nat) : Bank := s.scan.banks.getD d ⟨0, 0, false, false, 0⟩

/-- Change a bank. -/
def State.setDrvBank (s : State) (d : Nat) (b : Bank) : State := { s with scan := { s.scan with banks := s.scan.banks.set d b } }

/-! ### The scan plan (R205 to R209, R213) -/

/-- A plan's value of a field. -/
def planGet (p : Tbl 64) (f : Fld) : Nat := (p.get f.key).toNat

/-- The fields a plan is formed from (R209). -/
def planFields : List Fld :=
  rwsFields 0x22 ++ (List.range 4).flatMap (fun d => rwsFields (0x28 + d)) ++ [LCP_CFG_DEPTH, LCP_CFG_LO_BITS]

/-- NUM, DEN and F of an interval's timebase. -/
structure Rate where
  num : Nat
  den : Nat
  feeds : Nat
  deriving DecidableEq, Repr

/-- The rate in force. -/
def State.rate (s : State) : Rate := ⟨s.rd WTU_TB_RATE_NUM, s.rd WTU_TB_RATE_DEN, s.feeds⟩

/-- The rate that governs the interval from tick `n` (R155, R157). -/
def State.rateAt (s : State) (n : Nat) : Rate :=
  match s.wtu.switch with
  | some w => if w.frame ≤ n then ⟨w.tb.num, w.tb.den, w.tb.fM1 + 1⟩ else s.rate
  | none => s.rate

/-- f_frame × F × S × M as a fraction's parts: 1 / t_ls = lineNum / DEN. -/
def lineNum (p : Tbl 64) (r : Rate) : Nat := r.num * r.feeds * (planGet p SCN_PLAN_S_M1 + 1) * (planGet p SCN_PLAN_M_M1 + 1)

/-- floor(t_ls × 4 f_GCLK): edge steps of a line slot. -/
def slotEdges (p : Tbl 64) (r : Rate) : Nat := r.den * 4000000 * planGet p SCN_PLAN_GCLK_MHZ / lineNum p r

/-- N: edge steps of the window (R206). -/
def planN (p : Tbl 64) (r : Rate) : Nat := slotEdges p r - 4 * planGet p SCN_PLAN_BLANK_GCLK

/-- N_eff (R208). -/
def planNeff (p : Tbl 64) (r : Rate) (dutyMax : Nat) : Nat := min (planN p r) (dutyMax * slotEdges p r / 1024)

/-- Hb and E of a plan's planes. -/
def planLo (p : Tbl 64) : Nat := min (planGet p LCP_CFG_LO_BITS) (planGet p LCP_CFG_DEPTH - 8)
def planHb (p : Tbl 64) : Nat := planGet p LCP_CFG_DEPTH - planLo p

/-- The hard limits of Table 10-3. -/
def planLegal (p : Tbl 64) (r : Rate) : Bool :=
  decide (0 < lineNum p r ∧ 250 * lineNum p r ≤ r.den * 1000000000 ∧ 64 ≤ planN p r)

/-- The soft limit FIT of Table 10-3. -/
def planFit (p : Tbl 64) (r : Rate) (dutyMax : Nat) : Bool :=
  let sc := planGet p SCN_PLAN_S_M1 + 1
  decide (ceilDiv (2 ^ planHb p - 1) sc + ceilDiv (2 ^ planLo p - 1) sc * 2 ^ (5 - planLo p) ≤ planNeff p r dutyMax)

/-- The line code of a bank's strings: the bit period lies within 25 ns to 10 µs, a high time is shorter than it (R211). -/
def State.stringCode (s : State) (d : Nat) : StringCode :=
  let mhz := s.pl SCN_PLAN_GCLK_MHZ
  let bit := clampN (ceilDiv (25 * mhz) 1000) (10 * mhz) (s.pl (DRV_STR_CFG_BIT_GCLK d))
  { bit := bit, t0h := min (s.pl (DRV_STR_CFG_T0H_GCLK d)) (bit - 1), t1h := min (s.pl (DRV_STR_CFG_T1H_GCLK d)) (bit - 1)
    latchUs := s.pl (DRV_STR_CFG_LATCH_US d), share := s.pl (DRV_STR_CFG_SHARE d) }

/-- The numbers a bank's mapping is formed from (R201, R212). -/
def State.mapKey (s : State) (d : Nat) : List Nat :=
  [s.gridW, s.gridH, s.pl SCN_PLAN_M_M1, s.pl (DRV_CFG_MODE d), s.pl (DRV_CFG_X0 d), s.pl (DRV_CFG_Y0 d),
   s.pl (DRV_CFG_GRP_USED d), s.pl (DRV_CFG_XFLIP d), s.pl (DRV_CFG_YFLIP d), s.pl (DRV_STR_CFG2_EN d)] ++
  (List.range 16).flatMap fun j =>
    [s.pl (DRV_STR_MAP_X d j), s.pl (DRV_STR_MAP_Y d j), s.pl (DRV_STR_MAP_COUNT d j), s.pl (DRV_STR_MAP_RUN d j),
     s.pl (DRV_STR_MAP_DIR d j), s.pl (DRV_STR_MAP_SERP d j)]

/-- Pairs or devices of a bank outside the grid (R201, R212). -/
def State.mapOut (s : State) (d : Nat) : Nat :=
  if s.pl (DRV_CFG_MODE d) = 1 then
    let u := s.pl (DRV_CFG_GRP_USED d)
    let m := s.pl SCN_PLAN_M_M1 + 1
    u * m - min u (16 * s.gridW - s.pl (DRV_CFG_X0 d)) * min m (16 * s.gridH - s.pl (DRV_CFG_Y0 d))
  else if s.pl (DRV_CFG_MODE d) = 2 then
    ((List.range 16).filter fun j => (s.pl (DRV_STR_CFG2_EN d)).testBit j).foldl (fun a j =>
      a + ((List.range (s.pl (DRV_STR_MAP_COUNT d j))).filter fun q =>
        let p := s.strPixel d j q
        (s.pixIndex p.1 p.2).isNone).length) 0
  else 0

/-- N_fit of a bank (R213). -/
def State.strNfit (s : State) (d : Nat) : Nat :=
  let r := s.rate
  let div := s.pl (DRV_STR_CFG2_DIV_M1 d) + 1
  let lead := if div = 2 then s.rd LCP_PRESS_LEAD_US else 0
  let w := div * r.den * 1000000000 - r.num * (lead + s.pl (DRV_STR_CFG_LATCH_US d)) * 1000
  min 1024 (w * s.pl SCN_PLAN_GCLK_MHZ / max 1 (r.num * s.pl (DRV_STR_CFG_SHARE d) * (s.stringCode d).bit * 1000))

/-- A bank's mapping and N_fit as a tick finds them; MAP_OUT is raised where a new mapping leaves something outside. -/
def State.showMap (s : State) (d : Nat) : State :=
  let k := s.mapKey d
  let out := s.mapOut d
  let s1 := ({ s with scan := { s.scan with maps := s.scan.maps.set d k } }.wr (DRV_STAT_MAP_OUT d) (min out 511)).wr
    (DRV_STAT_STR_NFIT d) (s.strNfit d)
  if s.scan.maps.getD d [] != k && out != 0 then s1.raise (0x28 + d) 7 else s1

/-- SCN.PLAN_STAT, PLAN_FRAME and TLS of the plan in force at tick `n`. -/
def State.showPlan (s : State) (n : Nat) : State :=
  let p := s.scan.plan
  let r := s.rate
  let duty := s.rd SCN_LIMIT_DUTY_MAX
  let s1 := ((((s.wr SCN_PLAN_STAT_N (planN p r)).wr SCN_PLAN_STAT_HB (planHb p)).wr SCN_PLAN_STAT_LO (planLo p)).wr
    SCN_PLAN_STAT_FIT (b2n (planFit p r duty))).wr SCN_PLAN_STAT_NEFF (min (planNeff p r duty) (2 ^ 21 - 1))
  let s2 := s1.wr SCN_TLS_TLS (min (r.den * 64000000000 / max 1 (lineNum p r)) (2 ^ 36 - 1))
  if s.scan.fresh then s2.wr SCN_PLAN_FRAME_FRAME n else s2

/-! ### Safe disable (R215, R216) -/

/-- Whether any bank drives. -/
def State.anyLit (s : State) : Bool := (List.range 4).any fun d => s.on (DRV_STAT_OUT_ON d)

/-- Bits of one device's payload (R212): BPC bits per component in slot order, most significant first, then zeros. -/
def State.devicePayload (s : State) (d : Nat) (word : Nat) : Nat :=
  let k := s.pl (DRV_STR_CFG_K_M1 d) + 1
  let share := s.pl (DRV_STR_CFG_SHARE d)
  let bpc := min (s.pl (DRV_STR_CFG_BPC_M1 d) + 1) (share / k)
  let code (slot : Nat) : Nat :=
    let c := bitsOf (s.pl (DRV_CFG_CORD d)) (2 * slot + 1) (2 * slot)
    bitsOf (bitsOf word (18 * c + 17) (18 * c)) 17 (18 - bpc)
  (List.range k).foldl (fun a slot => a * 2 ^ bpc + code slot) 0 * 2 ^ (share - k * bpc)

/-- Enabled strings of a bank. -/
def State.strings (s : State) (d : Nat) : List Nat :=
  (List.range 16).filter fun j => (s.pl (DRV_STR_CFG2_EN d)).testBit j

/-- Send every enabled string of a bank the payloads of its first `k` devices. -/
def State.sendStrings (s : State) (d k : Nat) (payload : Nat → Nat → Nat) : State :=
  s.each (s.strings d) fun s j =>
    s.send (.string d j (s.stringCode d) ((List.range (min (s.pl (DRV_STR_MAP_COUNT d j)) k)).map (payload j)))

/-- One bank turns its lamps off: a string bank sends zeros first (R215). -/
def State.offBank (s : State) (cause d : Nat) : State :=
  let s1 := if s.pl (DRV_CFG_MODE d) = 2 then s.sendStrings d 1024 (fun _ _ => 0) else s
  let s2 := ((s1.wr (DRV_STAT_OUT_ON d) 0).wr (DRV_STAT_OFF_WHY d) cause).send (.pin .lampsOff d)
  s2.setDrvBank d { s2.drvBank d with wait := cause, under := 0 }

/-- Safe disable of some banks for a cause: those that drive turn off; when the last one goes dark, LIT clears and DARK is
raised. A tile-wide cause is kept in DARK_WHY in any case. -/
def State.safeDisable (s : State) (ds : List Nat) (cause : Nat) : State :=
  let on := ds.filter fun d => s.on (DRV_STAT_OUT_ON d)
  let s1 := s.each on fun s d => s.offBank cause d
  let s2 := if on = [] then s1 else s1.bump SCN_CNT_DARK
  if s2.on SCN_STAT_LIT && !s2.anyLit then ((s2.wr SCN_STAT_LIT 0).wr SCN_STAT_DARK_WHY cause).raise 0x22 5
  else if ds.length = 4 then s2.wr SCN_STAT_DARK_WHY cause
  else s2

/-- Safe disable of all banks. -/
def State.lampsOff (s : State) (cause : Nat) : State := s.safeDisable [0, 1, 2, 3] cause

/-- A bank that has no output waits for a tick, once a cause of its own has ended (Table 10-6). -/
def State.bankWaits (s : State) (d cause : Nat) : State :=
  let b := s.drvBank d
  if b.wait = whyHOST then s else s.setDrvBank d { b with wait := cause }

/-- A bank's own condition fails: it turns off, or stays dark with OFF_WHY (R214). -/
def State.bankFails (s : State) (d cause : Nat) : State :=
  if s.on (DRV_STAT_OUT_ON d) then s.safeDisable [d] cause else s.wr (DRV_STAT_OFF_WHY d) cause

/-! ### Conditions (R214) -/

/-- The tile-wide conditions, in the order of R214: the cause of the first that fails, or 0. -/
def State.tileWhy (s : State) : Nat :=
  if s.isTile = false then whyROLE
  else if s.on SCN_CTRL_LAMP_EN = false ∨ s.on (BLK_CTRL_EN 0x22) = false ∨ s.on (BLK_CTRL_EN 0x21) = false then whyHOST
  else if s.isLit = false then whySTATE
  else if s.rd WTU_SRC_STAT_STATE < 2 then whyTIME
  else if s.scan.ok = false then whyPLAN
  else if s.house.shut then whyTHERMAL
  else 0

/-- A bank's own conditions. -/
def State.bankWhy (s : State) (d : Nat) : Nat :=
  if s.on (DRV_STAT_PRESENT d) = false then whyABSENT
  else if s.on (BLK_CTRL_EN (0x28 + d)) = false then whyHOST
  else if s.on (DRV_STAT_LINK d) = false then whyLINK
  else if s.on (DRV_STAT_PLL_LOCK d) = false then whyPLL
  else if (s.drvBank d).irefOff then whyIREF
  else if (s.drvBank d).stuck then whySWITCH
  else if s.pl (DRV_CFG_MODE d) = 0 then whyMODE
  else (s.drvBank d).wait

/-- BANK_START (R214, R201): a bank whose conditions hold drives from feed slot 0 on; one that fails a condition of its own
names it. -/
def State.bankStart (s : State) (d : Nat) : State :=
  if s.tileWhy ≠ 0 ∨ s.on (DRV_STAT_OUT_ON d) = true then s
  else if s.bankWhy d ≠ 0 then s.wr (DRV_STAT_OFF_WHY d) (s.bankWhy d)
  else
    let s0 := if s.scan.fit = false && !s.anyLit then s.raise 0x22 7 else s
    let s1 := s0.wr (DRV_STAT_OUT_ON d) 1
    if s1.on SCN_STAT_LIT then s1 else (s1.wr SCN_STAT_LIT 1).raise 0x22 4

/-! ### Die events (R203, R204, R210, R216) -/

/-- PLL_UNLOCK (R204). -/
def execPllUnlock (d : Fin 4) (s : State) : Outcome State Fault Refusal :=
  if s.on (DRV_STAT_PLL_LOCK d) then
    .next (((((s.wr (DRV_STAT_PLL_LOCK d) 0).bump (DRV_CNT_PLL_UNLOCK d)).raise (0x28 + d) 4).bankFails d whyPLL).bankWaits d whyPLL)
  else .next s

/-- GCLK_PLL_LOCK (R204): the PLL gains lock at wall time `t`. -/
def execGclkPllLock (d : Fin 4) (t : Nat) (s : State) : Outcome State Fault Refusal :=
  .next (if s.on (DRV_STAT_PRESENT d) = true ∧ s.on (DRV_STAT_PLL_LOCK d) = false then
    (s.setDrvBank d { s.drvBank d with lockAt := t }).wr (DRV_STAT_PLL_LOCK d) 1 else s)

/-- I_FS in µA of a resistor in ohms: 24 V / RIREF, at most 4.0 mA (R202, R203). -/
def ifsUa (ohm : Nat) : Nat := min 4000 (24000000 / max 1 ohm)

/-- IREF_FAULT (R203): RIREF below 6.0 kΩ limits the current; IREF open or RIREF above 60 kΩ turns the columns off. -/
def execIrefFault (d : Fin 4) (riref : Option Nat) (s : State) : Outcome State Fault Refusal :=
  if s.on (DRV_STAT_PRESENT d) = false then .next s
  else match riref with
  | some r =>
    if r < 6000 then
      let s1 := (s.wr (DRV_STAT_IFS_BAD d) 1).wr (DRV_STAT_IFS_UA d) 4000
      .next (if (s.drvBank d).irefOff then (s1.setDrvBank d { s1.drvBank d with irefOff := false }).bankWaits d whyIREF else s1)
    else if 60000 < r then
      let s1 := (s.wr (DRV_STAT_IFS_BAD d) 1).wr (DRV_STAT_IFS_UA d) (ifsUa r)
      .next ((s1.setDrvBank d { s1.drvBank d with irefOff := true }).bankFails d whyIREF)
    else .next s
  | none =>
    let s1 := (s.wr (DRV_STAT_IFS_BAD d) 1).wr (DRV_STAT_IFS_UA d) 0
    .next ((s1.setDrvBank d { s1.drvBank d with irefOff := true }).bankFails d whyIREF)

/-- IREF_RESTORE (R203). -/
def execIrefRestore (d : Fin 4) (ohm : Nat) (s : State) : Outcome State Fault Refusal :=
  if s.on (DRV_STAT_PRESENT d) = true ∧ 6000 ≤ ohm ∧ ohm ≤ 60000 then
    let s1 := (s.wr (DRV_STAT_IFS_BAD d) 0).wr (DRV_STAT_IFS_UA d) (ifsUa ohm)
    .next (if (s.drvBank d).irefOff then (s1.setDrvBank d { s1.drvBank d with irefOff := false }).bankWaits d whyIREF else s1)
  else .next s

/-- DIE_LINK_DOWN (R216). -/
def execDieLinkDown (d : Fin 4) (s : State) : Outcome State Fault Refusal :=
  .next (if s.on (DRV_STAT_PRESENT d) then (s.wr (DRV_STAT_LINK d) 0).bankFails d whyLINK else s)

/-- DIE_LINK_UP (R216). -/
def execDieLinkUp (d : Fin 4) (s : State) : Outcome State Fault Refusal :=
  .next (if s.on (DRV_STAT_PRESENT d) = true ∧ s.on (DRV_STAT_LINK d) = false then
    (s.wr (DRV_STAT_LINK d) 1).bankWaits d whyLINK else s)

/-- UNDERRUN_SHUTDOWN (R210): after 64 consecutive underruns. -/
def execUnderrunShutdown (d : Fin 4) (s : State) : Outcome State Fault Refusal :=
  .next (if 64 ≤ (s.drvBank d).under then (s.raise (0x28 + d) 5).bankFails d whyUNDERRUN else s)

/-! ### Register hooks (R214 to R216) -/

/-- Firmware reports the power state DARK after the host turned the lamps off (Table 10-6, HOST). -/
def State.hostDark (s : State) : State := if s.isLit then (s.wr NVS_POWER_STATE 1).wr NVS_POWER_FRAME s.frame else s

/-- LAMP_EN takes a value: clearing it starts safe disable at once. -/
def State.setLampEn (s : State) (v : Bool) : State :=
  let was := s.on SCN_CTRL_LAMP_EN
  let s1 := s.wr SCN_CTRL_LAMP_EN (b2n v)
  if was && !v then (s1.lampsOff whyHOST).hostDark else s1

/-- BLK_CTRL.EN of SCN, LCP or a DRV page has been cleared. -/
def State.scanBlockOff (s : State) (pg : Nat) : State :=
  if pg = 0x22 ∨ pg = 0x21 then (s.lampsOff whyHOST).hostDark
  else if 0x28 ≤ pg ∧ pg < 0x2C then
    let d := pg - 0x28
    let s1 := s.safeDisable [d] whyHOST
    if s.isLit then s1.setDrvBank d { s1.drvBank d with wait := whyHOST } else s1
  else s

/-! ### What a line slot drives (R200, R201, R205 to R208) -/

/-- The rank of the 7-bit reversal of `x` among those of 0 to K − 1 (R205). -/
def bitRev7 (x : Nat) : Nat := (List.range 7).foldl (fun a i => a + (if x.testBit i then 2 ^ (6 - i) else 0)) 0
def rho (K x : Nat) : Nat := ((List.range K).filter fun y => bitRev7 y < bitRev7 x).length

/-- Edge step, counted from T0, at which line slot `j` of sub-period `sub` of feed slot `k` starts in frame `n` (R171, R204, R205):
t(n) + k × P / F + OFS_NS + q × t_ls, rounded down to the grid. -/
def State.lineEdge (s : State) (n k sub j : Nat) : Nat :=
  let r := s.rate
  let m := s.pl SCN_PLAN_M_M1 + 1
  let q := (k * (s.pl SCN_PLAN_S_M1 + 1) + sub) * m + j
  let D := max 1 (lineNum s.scan.plan r)
  4 * s.pl SCN_PLAN_GCLK_MHZ * ((s.tb.span n + s.pl SCN_PLAN_OFS_NS * 65536) * D + q * r.den * 1000000000 * 65536) / (1000 * 65536 * D)

/-- I_hi of class `c` of a bank in µA / 256 (R202): the color gain in force counts up to the ceiling, which acts at once (R30). -/
def State.iHi (s : State) (d c : Nat) : Nat :=
  s.rd (DRV_STAT_IFS_UA d) * (min (s.pl (DRV_CG_CG d c)) (s.rd (DRV_CG_CEIL_CEIL d c)) + 1)

/-- The pre-discharge level of a class in mV: 0.20 V + 0.05 V × code. -/
def State.preMv (s : State) (c : Nat) : Nat := 200 + 50 * s.pl (SCN_PD_PD c)

/-- What drives a line slot besides its pulses. -/
def State.rowDrive (s : State) (d feed sub j : Nat) (pulses : List (Nat × Nat × Nat)) (probes : List Nat) : RowDrive :=
  { start := s.lineEdge s.frame feed sub j, window := 4 * s.pl SCN_PLAN_BLANK_GCLK
    discharge := if s.pl SCN_PD_PD_EN = 1 then some ((List.range 4).map s.preMv) else none
    hi := (List.range 4).map (s.iHi d), pulses := pulses, probes := probes }

/-- Channel, component and gray code of every channel of a bank in use on a scan line, for a feed's showing plane. -/
def State.rowCodes (s : State) (d feed row : Nat) : List (Nat × Nat × Nat) :=
  let G := groupSize (s.pl (DRV_CFG_GROUP d))
  let j := b2n (s.tile.showing.testBit feed)
  (List.range (s.pl (DRV_CFG_GRP_USED d))).flatMap fun p =>
    let xy := s.bankPixel d p row
    let w := match s.pixIndex xy.1 xy.2 with
      | some i => (s.pix (planeAddr feed j i)).toNat
      | none => 0
    (List.range G).map fun slot =>
      let c := bitsOf (s.pl (DRV_CFG_CORD d)) (2 * slot + 1) (2 * slot)
      (G * p + slot, c, if c = 3 ∧ s.on LCP_CFG_PRIM4 = false then 0 else bitsOf w (18 * c + 17) (18 * c))

/-- Pulse of a gray code in sub-period `sub` (R207). -/
def pulse (depth lo S sub g : Nat) : Nat × Nat :=
  let hb := depth - lo
  let h := g >>> (18 - hb)
  let l := (g >>> (18 - depth)) % 2 ^ lo
  let r := rho S sub
  ((h + r) / S, (l + r) / S * 2 ^ (5 - lo))

/-- A pulse shortened to N_eff, first in its lo part (R208). -/
def shorten (neff : Nat) (w : Nat × Nat) : Nat × Nat :=
  let hi := min w.1 neff
  (hi, min w.2 (neff - hi))

/-- Count shortened pulses; CLIP is raised once per frame in which the count grows (R208). -/
def State.noteClip (s : State) (k : Nat) : State :=
  if k = 0 then s
  else
    let s1 := s.bumpBy SCN_CNT_CLIP k
    if s1.scan.clipRaised then s1 else { s1 with scan := { s1.scan with clipRaised := true } }.raise 0x22 8

/-- Whether bank `d` drives matrix lamps now. -/
def State.drives (s : State) (d : Nat) : Bool := s.on (DRV_STAT_OUT_ON d) && s.pl (DRV_CFG_MODE d) == 1

/-! ### Strings (R211 to R213) -/

/-- STRING_TRANSMIT: the bank's strings send their devices in frames with n mod DIV = 0; a string longer than N_fit sends its
first N_fit devices. -/
def execStringTransmit (d : Fin 4) (s : State) : Outcome State Fault Refusal :=
  if s.on (DRV_STAT_OUT_ON d) = false ∨ s.pl (DRV_CFG_MODE d) ≠ 2 ∨ s.frame % (s.pl (DRV_STR_CFG2_DIV_M1 d) + 1) ≠ 0 then .next s
  else
    let k := s.strNfit d
    let feed := s.pl (DRV_STR_CFG2_FEED d)
    let plane := b2n (s.tile.showing.testBit feed)
    let s1 := s.sendStrings d k fun j q =>
      let p := s.strPixel d j q
      match s.pixIndex p.1 p.2 with
      | some i => s.devicePayload d (s.pix (planeAddr feed plane i)).toNat
      | none => 0
    .next (if (s.strings d).any fun j => decide (k < s.pl (DRV_STR_MAP_COUNT d j)) then
      (s1.bump (DRV_CNT_STR_TRUNC d)).raise (0x28 + d) 6 else s1)

/-! ### SCN's part in a tick (R209, R214, R216, R217) -/

/-- Whether a cause that holds a bank off ends at tick `n` (Table 10-6): PLL once lock has held for 1 ms (R204), TIME once
LOCKED, HOST not at a tick. -/
def State.waitEnds (s : State) (n d : Nat) (b : Bank) : Bool :=
  if b.wait = whyHOST then false
  else if b.wait = whyPLL then s.on (DRV_STAT_PLL_LOCK d) && decide (b.lockAt + 1000000 * 65536 ≤ s.tickTime n)
  else if b.wait = whyTIME then s.rd WTU_SRC_STAT_STATE == 2
  else true

/-- The causes that end at tick `n` let their banks restart. -/
def State.scanRelease (s : State) (n : Nat) : State :=
  let banks := s.scan.banks.zipIdx.map fun e : Bank × Nat => if s.waitEnds n e.2 e.1 then { e.1 with wait := 0 } else e.1
  { s with scan := { s.scan with banks := banks } }

/-- The plan formed at the last tick comes into force; a change of GCLK_MHZ or of a bank's MODE passes through a dark frame. -/
def State.planApply (s : State) (n : Nat) : State :=
  let old := s.scan.plan
  let new := s.scan.next
  let gclk := planGet old SCN_PLAN_GCLK_MHZ != planGet new SCN_PLAN_GCLK_MHZ
  let ds := (List.range 4).filter fun d => planGet old (DRV_CFG_MODE d) != planGet new (DRV_CFG_MODE d)
  let s1 := if gclk then (s.lampsOff whyRELOCK).each [0, 1, 2, 3] fun s d => s.wr (DRV_STAT_PLL_LOCK d) 0
    else s.each ds fun s d => s.safeDisable [d] whyMODE
  let fit := planFit new s.rate (s.rd SCN_LIMIT_DUTY_MAX)
  let s2 := { s1 with scan := { s1.scan with plan := new, ok := s.scan.nextOk, fit := fit } }
  let s3 := if s.scan.nextOk = false ∧ s.isTile then s2.lampsOff whyPLAN else s2
  let s4 := if s.scan.fit && !fit && s3.anyLit then s3.raise 0x22 7 else s3
  (s4.showPlan n).each [0, 1, 2, 3] State.showMap

/-- The plan for the light from tick n + 1 is formed and checked (R209). -/
def State.planForm (s : State) (n : Nat) : State :=
  let p := copySet planFields s.live s.scan.next
  let r := s.rateAt (n + 1)
  if planLegal p r then { s with scan := { s.scan with next := p, nextOk := true, fresh := true } }.wr SCN_PLAN_STAT_OK 1
  else
    let kept := copySet [LCP_CFG_DEPTH, LCP_CFG_LO_BITS] s.live s.scan.plan
    let s1 := { s with scan := { s.scan with next := kept, nextOk := planLegal kept r, fresh := false } }
    ((s1.wr SCN_PLAN_STAT_OK 0).bump SCN_CNT_PLAN_FAIL).raise 0x22 6

/-- SCN at tick `n`. A held tick changes no plan. -/
def State.scanTick (s : State) (n : Nat) (held : Bool) : State :=
  if s.hasPixels = false then s
  else
    let s0 := s.scanRelease n
    let s1 := { s0 with scan := { s0.scan with clipRaised := false } }
    let s2 := if held then s1 else (s1.planApply n).planForm n
    if s2.isTile then s2 else s2.wr SCN_STAT_DARK_WHY whyROLE

end Sys2Proof.Machine
end

