-- ==== Sys2Proof/Machine/Time.lean ====
section
/-! DEFINITION. Wall time, frame ticks and synchronization (spec/08_wall_time.md): sources and the servo, PTP, TIME folios, timebase
switches, board timing pins, FWIN gating, captures and triggers. -/

namespace Sys2Proof.Machine

open Host

/-- 1 ns in wall-time units. -/
def nsU : Nat := 65536
/-- 1 µs in wall-time units. -/
def usU : Nat := 65536000

/-! ### Wall time (R154, R160) -/

/-- Wall time is read as `t`. Of the phase that the servo slews away, as much is gone as SLEW_NS ns/s allow since it was last read; the
offset shown follows, and HOLD_S counts in HOLDOVER. -/
def State.passTo (s : State) (t : Nat) : State :=
  let x := s.wtu
  let most : Int := ((t - x.wt) * s.rd WTU_SRC_CFG_SLEW_NS / 1000000000 : Nat)
  let left : Int := if x.slew < 0 then min 0 (x.slew + most) else max 0 (x.slew - most)
  let s1 := { s with wtu := { x with wt := t, slew := left } }
  let s2 := if x.slew = 0 then s1 else s1.wr WTU_SRC_STAT_OFFSET_NS (ofSigned 32 (left / 65536))
  if s.rd WTU_SRC_STAT_STATE = 3 then s2.wr WTU_SRC_STAT_HOLD_S (min (2 ^ 19 - 1) ((t - x.holdAt) / 65536000000000)) else s2

/-- FRAME_NO is the last tick at or before wall time (R16, R155), as wall time or the schedule has changed. -/
def State.takeFrame (s : State) : State :=
  let n := s.tb.frameAt s.wtu.wt
  { s.wr WTU_FRAME_FRAME_NO n with latchDone := decide (s.latchTime (n + 1) ≤ s.wtu.wt) }

/-- Wall time steps back by `o`, in 2^-16 ns (R160). What has been measured against it moves with it. -/
def State.stepTime (s : State) (o : Int) : State :=
  let x := s.wtu
  let back (v : Nat) : Nat := ((v : Int) - o).toNat
  let moved (l : TimeLink) : TimeLink :=
    { l with last := l.last.map fun e => (e.1, back e.2.1, e.2.2), offsets := l.offsets.map (· - o) }
  let s1 := { s with wtu := { x with wt := back x.wt, slew := 0, lockSince := x.lockSince.map back, links := x.links.map moved } }
  let s2 := s1.each [0, 1] fun s d =>
    if s.rd (WTU_PTP_STAT_STATE d) = 2 then
      s.wr (WTU_PTP_STAT_OFFSET_NS d) (ofSigned 32 (toSigned 32 (s.rd (WTU_PTP_STAT_OFFSET_NS d)) - o / 65536))
    else s
  s2.takeFrame

/-! ### Timebase (R155 to R158) -/

/-- F clamped so that F × NUM / DEN is at most 960 Hz (R16, R155). -/
def Timebase.legalF (b : Timebase) : Nat :=
  if 960 * b.den < (b.fM1 + 1) * b.num then max 1 (960 * b.den / max 1 b.num) - 1 else b.fM1

/-- LEAD_US is brought to its limit under the timebase in use, and the change recorded (R175). -/
def State.leadClamp (s : State) : State :=
  let lead := s.rd WTU_FWIN_LEAD_US
  let most := s.rd WTU_TB_RATE_DEN * 500000 / max 1 (s.rd WTU_TB_RATE_NUM) - s.rd WTU_TB_T0NS_L_US - s.rd WTU_FWIN_WIN_US
  if most < lead then (s.wr WTU_FWIN_LEAD_US most).captureInt 8 errCLAMP lead else s

/-- A timebase comes into use. -/
def State.setTb (s : State) (b : Timebase) : State :=
  let f := b.legalF
  let s1 := ((((((s.wr WTU_TB_T0S_SEC b.sec).wr WTU_TB_T0NS_NS b.ns).wr WTU_TB_T0NS_FRAC b.frac).wr WTU_TB_T0NS_L_US b.lUs).wr
    WTU_TB_T0NS_F_M1 f).wr WTU_TB_RATE_NUM b.num).wr WTU_TB_RATE_DEN b.den
  let s2 := if f = b.fM1 then s1 else s1.captureInt 8 errCLAMP b.fM1
  { s2.leadClamp with wtu := { s2.leadClamp.wtu with hasTb := true } }.when s2.hasPixels State.updNeed

/-- The timebase of the NX registers. -/
def State.nx (s : State) : Timebase :=
  { sec := s.rd WTU_NX_T0S_SEC, ns := s.rd WTU_NX_T0NS_NS, frac := s.rd WTU_NX_T0NS_FRAC, lUs := s.rd WTU_NX_T0NS_L_US,
    fM1 := s.rd WTU_NX_T0NS_F_M1, num := s.rd WTU_NX_RATE_NUM, den := s.rd WTU_NX_RATE_DEN }

/-- A timebase with another T0, in 2^-16 ns. -/
def Timebase.withT0 (b : Timebase) (t : Nat) : Timebase :=
  { b with sec := t / nsU / 1000000000, ns := t / nsU % 1000000000, frac := t % nsU }

def errTB_LATE : Nat := 0x40
def errTB_BAD : Nat := 0x41

/-- Words 4 to 12 of a TIME folio (Table 08-2), and what a node advertises. -/
def rootWord (r : RootInfo) : Nat :=
  r.node % 64 + r.ring % 64 * 2 ^ 6 + r.qual % 4 * 2 ^ 12 + r.hops % 64 * 2 ^ 14 + b2n r.poison * 2 ^ 20 + r.src % 8 * 2 ^ 21
def tbWords (b : Timebase) : List Nat :=
  [b.sec % 2 ^ 64, b.ns % 2 ^ 32 + b.frac % 2 ^ 16 * 2 ^ 32 + b.lUs % 2 ^ 11 * 2 ^ 48 + b.fM1 % 4 * 2 ^ 59,
   b.num % 2 ^ 18 + b.den % 2 ^ 11 * 2 ^ 18]

/-- Whether a side is the node's parent side. -/
def State.parentSide (s : State) (sd : Nat) : Bool := s.on (WTU_LINK_PARENT sd)

/-- QUAL a sender advertises (Table 08-2). -/
def State.senderQual (s : State) : Nat :=
  let src := s.rd WTU_SRC_STAT_SRC
  if s.rd WTU_SRC_STAT_STATE = 3 ∨ src = 5 then 2
  else if src = 0 then 0
  else if src = 7 then Config.freeQual.toNat
  else 3

/-- What a side's TIME folios say of the root. A sender is itself a root; one that follows RING has QUAL 2 (Table 08-2). -/
def State.advert (s : State) (sd : Nat) : RootInfo :=
  if s.isTile then
    { node := s.rd WTU_ROOT_NODE, ring := s.rd WTU_ROOT_RING, qual := s.rd WTU_ROOT_QUAL, hops := s.rd WTU_ROOT_HOPS,
      poison := s.parentSide sd, src := s.rd WTU_ROOT_ROOT_SRC }
  else
    { node := s.rd (QLK_TOPO_NODE sd), ring := s.rd (QLK_TOPO_RING sd), qual := s.senderQual, hops := 0,
      poison := s.parentSide sd, src := s.rd WTU_SRC_STAT_SRC }

/-- The 71 words of a TIME folio with TX stamp `t` (Table 08-2). -/
def State.timeWords (s : State) (sd t : Nat) : List Nat :=
  let tag (g v : Nat) : Nat := g * 2 ^ 64 + v % 2 ^ 64
  let stamp (t : Nat) : Nat := t / nsU % 1000000000 + t % nsU * 2 ^ 32
  let e := (s.timeLink sd).last.getD (0, 0, 0)
  let sw := s.wtu.switch
  let pend := match sw with
    | some w => tbWords w.tb
    | none => [0, 0, 0]
  let g := s.wtu.gate.getD ⟨0, false, false⟩
  let body := [tag 0xD8 (t / nsU / 1000000000), tag 0xD9 (stamp t), tag 0xDA (stamp e.1), tag 0xDB (stamp e.2.1 + e.2.2 * 2 ^ 48),
    tag 0xDC (rootWord (s.advert sd))] ++ (tbWords s.tb).zipIdx.map (fun w => tag (0xDD + w.2) w.1) ++
    [tag 0xD1 (match sw with | some w => w.frame % 2 ^ 48 + 2 ^ 48 | none => 0)] ++
    pend.zipIdx.map (fun w => tag (0xD2 + w.2) w.1) ++
    [tag 0xD5 (g.frame % 2 ^ 48 + b2n g.hold * 2 ^ 48 + b2n g.active * 2 ^ 49)]
  body ++ List.replicate 58 0

/-- Send a TIME folio on a side that is up (R164): TYPE 0x7, stream TM. -/
def State.sendTime (s : State) (sd t : Nat) : State :=
  if s.sideIsUp sd then s.sendFolio sd (mkFolio 7 3 0 false true false (s.timeWords sd t)) else s

/-- Send a TIME folio at once: its stamp is the instant it leaves, which the model does not have. -/
def State.sendTimeNow (s : State) (sd : Nat) : State := s.drawn.sendTime sd s.free

/-- TIME_FOLIO_SEND (R164). -/
def execTimeFolioSend (sd : Fin 2) (t : Nat) (s : State) : Outcome State Fault Refusal := .next ((s.passTo t).sendTime sd t)

/-- A TIME folio leaves at once on the sides toward other nodes where what it says of the root, timebase, switch or gate is new since `old`
(R157, R164). -/
def State.told (old s : State) : State :=
  let news (sd : Nat) : Bool := !s.parentSide sd && (s.advert sd != old.advert sd || s.tb != old.tb || s.wtu.switch != old.wtu.switch ||
    s.wtu.gate != old.wtu.gate)
  (s.when (news 0) fun s => s.sendTimeNow 0).when (news 1) fun s => s.sendTimeNow 1

/-- A switch comes to hold: PEND sets and TB_PEND is raised (R157). -/
def State.pendTb (s : State) (w : TbSwitch) : State :=
  (({ s with wtu := { s.wtu with switch := some w } }.wr WTU_TB_CTRL_PEND 1).raise 8 8).when s.hasPixels State.updNeed

/-- TB_CTRL.ARM (R157). -/
def State.armTb (s : State) (src : Requester) : State :=
  let sw := s.rd WTU_TB_CTRL_SW_FRAME
  let old := s.tb
  let nx := s.nx
  let new := if s.on WTU_TB_CTRL_CONT then nx.withT0 ((old.tick sw + wallRange - nx.span sw % wallRange) % wallRange) else nx
  if sw < s.frame + 8 then s.capture 8 errTB_LATE src 0xC8 sw
  else if new.tick sw < old.tick sw ∨ old.tick sw + (new.tick (sw + 1) - new.tick sw) < new.tick sw ∨
      new.tick sw ≤ old.tick (sw - 1) + new.lUs * usU then s.capture 8 errTB_BAD src 0xC8 sw
  else
    let s1 := if s.on WTU_TB_CTRL_CONT then
        (((s.wr WTU_NX_T0S_SEC new.sec).wr WTU_NX_T0NS_NS new.ns).wr WTU_NX_T0NS_FRAC new.frac).markDirty 0
      else s
    s.told ((s1.pendTb ⟨sw, { new with fM1 := new.legalF }⟩).when (new.legalF != new.fM1) fun s =>
      s.capture 8 errCLAMP src 0xC8 new.fM1)

/-- The pending switch takes effect (R157): at tick SW_FRAME, or at once where it was learned late. -/
def State.takeSwitch (s : State) (w : TbSwitch) : State :=
  ({ s with wtu := { s.wtu with switch := none } }.wr WTU_TB_CTRL_PEND 0).setTb w.tb

/-- The timebase switch's part in tick `n`; every node tells its neighbors of the timebase that it brings. -/
def State.switchTick (s : State) (n : Nat) : State :=
  match s.wtu.switch with
  | some w => if w.frame ≤ n then s.told ((s.takeSwitch w).raise 8 9) else s
  | none => s

/-! ### Sources and the servo (R159 to R161) -/

/-- The servo takes a state; leaving {LOCKED, HOLDOVER} turns the lamps off. -/
def State.setServo (s : State) (st : Nat) : State :=
  let old := s.rd WTU_SRC_STAT_STATE
  if st = old then s
  else
    let s1 := { s with wtu := { s.wtu with lockSince := none, lockRun := 0 } }.wr WTU_SRC_STAT_STATE st
    let s2 := if st = 2 then { s1 with wtu := { s1.wtu with wasLocked := true } }.raise 8 5
      else if st = 3 then
        ({ s1 with wtu := { s1.wtu with holdAt := s1.wtu.wt, slew := 0 } }.wr WTU_SRC_STAT_HOLD_S 0).raise 8 6 else s1
    if 2 ≤ old ∧ st < 2 ∧ s2.isTile = true then s2.lampsOff whyTIME else s2

/-- Whether a source is valid: FREE is REFCLK itself and always valid. -/
def State.srcValid (s : State) (c : Nat) : Bool := c == 7 || (c != 0 && (s.rd WTU_SRC_STAT_VALID).testBit c)

/-- The source that the priorities choose: RING alone in a tile; 0 none. -/
def State.chooseSrc (s : State) : Nat :=
  if s.isTile then (if s.srcValid 5 then 5 else 0)
  else ([s.rd WTU_SRC_CFG_PRI0, s.rd WTU_SRC_CFG_PRI1, s.rd WTU_SRC_CFG_PRI2, s.rd WTU_SRC_CFG_PRI3].find? s.srcValid).getD 0

/-- The offset of a slot or 0, as SRC_STAT shows it at a change of source. -/
def State.srcOffset (s : State) (c : Nat) : Nat :=
  if c = 1 ∨ c = 2 then s.rd (WTU_PTP_STAT_OFFSET_NS (c - 1)) else s.rd WTU_SRC_STAT_OFFSET_NS

/-- Re-evaluate the sources (R159, R163): no valid source gives HOLDOVER with the last frequency correction; a change from one PTP slot to
the other keeps LOCKED and slews toward the new one; any other change acquires anew. Source FREE is followed without correction, in state
FREE. With RING selected there is no difference to show in RING_OFS (R169). -/
def State.evalSrc (s : State) : State :=
  let old := s.rd WTU_SRC_STAT_SRC
  let st := s.rd WTU_SRC_STAT_STATE
  let c := s.chooseSrc
  if c = 0 then (if st = 3 then s else (s.setServo 3).raise 8 4)
  else if c = old ∧ st ≠ 3 then s
  else
    let s1 := (((s.wr WTU_SRC_STAT_SRC c).wr WTU_SRC_STAT_OFFSET_NS (s.srcOffset c)).when (c == 5) fun s => s.wr WTU_RING_OFS_VALID 0).raise 8 4
    if c = 7 then { s1 with wtu := { s1.wtu with freq := 0, slew := 0 } }.setServo 0
    else if (old = 1 ∨ old = 2) ∧ (c = 1 ∨ c = 2) ∧ st = 2 then
      { s1 with wtu := { s1.wtu with slew := toSigned 32 (s.srcOffset c) * 65536 } }
    else s1.setServo 1

/-- A source becomes valid or invalid. -/
def State.setSource (s : State) (c : Nat) (v : Bool) : State :=
  let old := s.rd WTU_SRC_STAT_VALID
  let new := old - (old &&& 2 ^ c) + b2n v * 2 ^ c
  if new = old then s else (s.wr WTU_SRC_STAT_VALID new).evalSrc

/-- SOURCE_CHANGE (R159). -/
def execSourceChange (code : BitVec 3) (valid : Bool) (s : State) : Outcome State Fault Refusal :=
  .next (if code.toNat = 0 then s else s.told (s.setSource code.toNat valid))

/-- Whether the offset has stayed small for long enough (R160): under 1 µs for 1 s on an external source, under 2 ns for 16 TIME folios in a
row on RING. -/
def State.mayLock (s : State) : Bool :=
  if s.rd WTU_SRC_STAT_SRC = 5 then decide (16 ≤ s.wtu.lockRun)
  else match s.wtu.lockSince with | some t => decide (t + 1000000000 * nsU ≤ s.wtu.wt) | none => false

/-- SERVO_LOCK (R160): from ACQUIRE to LOCKED. -/
def execServoLock (s : State) : Outcome State Fault Refusal :=
  .next (if s.rd WTU_SRC_STAT_STATE = 1 ∧ s.mayLock = true then s.told (s.setServo 2) else s)

/-- The offset `o` to the source in use is measured, in 2^-16 ns (R160, R167): the servo corrects its frequency, and with `phase` also its
phase. It steps before the first LOCKED since start, and later beyond STEP_LIM_NS where it may; else it slews, and TIME_FAR is raised while
the offset exceeds STEP_LIM_NS. -/
def State.noteOffset (s : State) (o : Int) (phase : Bool) : State :=
  let ns := o / 65536
  let since := if o.natAbs < 1000 * nsU then s.wtu.lockSince <|> some s.wtu.wt else none
  let run := if o.natAbs < 2 * nsU then s.wtu.lockRun + 1 else 0
  let s1 := { s with wtu := { s.wtu with lockSince := since, lockRun := run, freq := Config.servoFreq s.wtu.freq o } }.wr WTU_SRC_STAT_OFFSET_NS
    (ofSigned 32 ns)
  let far := decide ((s.rd WTU_SRC_CFG_STEP_LIM_NS : Int) < ns.natAbs)
  let first := !s.wtu.wasLocked && s.rd WTU_SRC_STAT_STATE == 1
  let mayStep := !s.isLit && s.on WTU_SRC_CFG_STEP_EN
  if phase = false then s1
  else if first || (far && mayStep) then (s1.stepTime o).wr WTU_SRC_STAT_OFFSET_NS 0
  else { s1 with wtu := { s1.wtu with slew := o } }.when far fun s => s.raise 8 7

/-! ### PTP (R162, R163) -/

/-- The best master clock algorithm of IEEE 1588-2019: whether one master's data set is better than another's. -/
def masterBetter (a b : PtpMaster) : Bool :=
  let rank (m : PtpMaster) : Nat :=
    ((((m.prio1.toNat * 2 ^ 8 + m.cls.toNat) * 2 ^ 8 + m.accuracy.toNat) * 2 ^ 16 + m.variance.toNat) * 2 ^ 8 + m.prio2.toNat) * 2 ^ 64 +
      m.gm.toNat
  if a.gm ≠ b.gm then decide (rank a < rank b)
  else if a.steps ≠ b.steps then decide (a.steps.toNat < b.steps.toNat)
  else decide (a.source.toNat < b.source.toNat)

def State.ptpSlot (s : State) (d : Nat) : PtpSlot := s.wtu.ptp.getD d PtpSlot.reset
def State.setPtpSlot (s : State) (d : Nat) (x : PtpSlot) : State := { s with wtu := { s.wtu with ptp := s.wtu.ptp.set d x } }

/-- A slot listens again, and its source is invalid (R179). -/
def State.ptpListen (s : State) (d : Nat) : State := ((s.setPtpSlot d PtpSlot.reset).wr (WTU_PTP_STAT_STATE d) 0).setSource (d + 1) false

/-- Whether a slot takes a message: enabled, in its domain, on a port of its mask in mode 2. -/
def State.ptpTakes (s : State) (d : Nat) (domain : BitVec 8) (port : BitVec 2) : Bool :=
  !s.isTile && s.on (WTU_PTP_EN d) && domain.toNat == s.rd (WTU_PTP_DOMAIN d) &&
    (s.rd (WTU_PTP_PORT_MASK d)).testBit port.toNat && s.rd (ING_CFG_MODE port.toNat) == 2

/-- A slot measures its offset `o` from wall time, in 2^-16 ns: one more than 1 ms from the filtered one is discarded (Table 08-5). The servo
follows where the slot is the source in use. -/
def State.ptpOffset (s : State) (d : Nat) (o : Int) : State :=
  let st := s.rd (WTU_PTP_STAT_STATE d)
  let f := toSigned 32 (s.rd (WTU_PTP_STAT_OFFSET_NS d)) * 65536
  if st = 2 ∧ 1000000 * nsU < (o - f).natAbs then s
  else
    let v := if st = 2 then Config.ptpFilter f o else o
    let s1 := ((s.wr (WTU_PTP_STAT_OFFSET_NS d) (ofSigned 32 (v / 65536))).wr (WTU_PTP_STAT_STATE d) 2).setSource (d + 1) true
    if s1.rd WTU_SRC_STAT_SRC = d + 1 ∧ s1.rd WTU_SRC_STAT_STATE ≠ 3 then s1.noteOffset v true else s1

/-- A Sync and its origin are known: with a path delay the slot measures its offset, and it asks the master for the delay (end-to-end). -/
def State.ptpSync (s : State) (d rx origin : Nat) : State :=
  let x := s.ptpSlot d
  let down : Int := (rx : Int) - origin
  let s1 := (s.setPtpSlot d { x with sync := none, down := some down, req := some x.seq, seq := (x.seq + 1) % 65536 }).send
    (.net (s.rd (WTU_PTP_STAT_PORT d)) .ptpDelayReq [s.rd (WTU_PTP_DOMAIN d), x.seq])
  match x.path with
  | some p => if s.rd (WTU_PTP_STAT_STATE d) = 2 then s1.ptpOffset d (down - p) else s1
  | none => s1

/-- PTP_MESSAGE (R162, R163): one of another domain or port is ignored. The slot takes the best master it hears, a Sync of a one-step master
or the Follow_Up of a two-step one, and the answer to its own Delay_Req. -/
def execPtpMessage (d : Fin 2) (m : PtpMsg) (s : State) : Outcome State Fault Refusal :=
  let x := s.ptpSlot d
  let on (port : BitVec 2) : Bool := decide (s.rd (WTU_PTP_STAT_STATE d) = 1 ∨ s.rd (WTU_PTP_STAT_STATE d) = 2) &&
    port.toNat == s.rd (WTU_PTP_STAT_PORT d)
  match m with
  | .announce domain port m =>
    let same := x.best.any fun b => b.source == m.source && port.toNat == s.rd (WTU_PTP_STAT_PORT d)
    if s.ptpTakes d domain port && (same || x.best.all (masterBetter m)) then
      let s1 := ((s.wr (WTU_PTP_GM_GM_ID d) m.gm.toNat).wr (WTU_PTP_STAT_STEPS d) (min 255 m.steps.toNat)).wr (WTU_PTP_STAT_PORT d) port.toNat
      .next (if same then s1.setPtpSlot d { x with best := some m }
        else s.told (((s1.setPtpSlot d { PtpSlot.reset with best := some m, seq := x.seq }).wr (WTU_PTP_STAT_STATE d) 1).setSource (d + 1) false))
    else .next s
  | .sync domain port seq rx origin =>
    if s.ptpTakes d domain port && on port then
      match origin with
      | some t1 => .next (s.told ((s.passTo rx).ptpSync d rx t1))
      | none => .next ((s.passTo rx).setPtpSlot d { x with sync := some (seq.toNat, rx) })
    else .next s
  | .followUp domain port seq origin =>
    match x.sync with
    | some (n, rx) => .next (if s.ptpTakes d domain port && on port && n == seq.toNat then s.told (s.ptpSync d rx origin) else s)
    | none => .next s
  | .delayResp domain port seq tx rx =>
    match x.down with
    | some down =>
      if s.ptpTakes d domain port && on port && x.req == some seq.toNat then
        let path := (down + ((rx : Int) - tx)) / 2
        let s1 := (s.setPtpSlot d { x with req := none, path := some path }).wr (WTU_PTP_STAT_MPD_NS d) (min (path / 65536).toNat (2 ^ 20 - 1))
        .next (if s.rd (WTU_PTP_STAT_STATE d) = 1 then s.told (s1.ptpOffset d (down - path)) else s1)
      else .next s
    | none => .next s

/-- PTP_ANNOUNCE_TIMEOUT (R179): the slot listens again and its source is invalid. -/
def execPtpAnnounceTimeout (d : Fin 2) (s : State) : Outcome State Fault Refusal := .next (s.told (s.ptpListen d))

/-- A write of SRC_CFG or of a timing input's register (R159): a source whose input is no longer enabled is invalid, and the sources are
evaluated again. -/
def State.inputsChanged (s : State) : State :=
  let s1 := s.each [0, 1] fun s d =>
    if s.on (WTU_PTP_EN d) = false ∨ ((s.ptpSlot d).best.isSome ∧ (s.rd (WTU_PTP_PORT_MASK d)).testBit (s.rd (WTU_PTP_STAT_PORT d)) = false) then
      s.ptpListen d else s
  let s2 := if s1.on WTU_GLK_EN then s1 else { s1 with wtu := { s1.wtu with glkLast := none } }.setSource 4 false
  let s3 := if s2.on WTU_PPS_IN_EN then s2 else { s2 with wtu := { s2.wtu with ppsLast := none } }.setSource 3 false
  let s4 := if s3.on WTU_FWIN_EN then s3 else { s3 with wtu := { s3.wtu with fwinLast := none, fwinIn := none, goodEdges := 0 } }.setSource 6 false
  s.told s4.evalSrc

/-! ### Roots and parents (R168) -/

/-- Whether a root is better than another, on sides `a` and `b`. -/
def rootBetter (a b : RootInfo × Nat) : Bool :=
  if a.1.qual != b.1.qual then decide (b.1.qual < a.1.qual)
  else if a.1.node != b.1.node then decide (a.1.node < b.1.node)
  else if a.1.hops != b.1.hops then decide (a.1.hops < b.1.hops)
  else decide (a.2 < b.2)

/-- The sides that may be the parent: heard, not poisoned, with a root. -/
def State.parents (s : State) : List (RootInfo × Nat) :=
  [0, 1].filterMap fun sd => match (s.timeLink sd).root with
    | some r => if r.poison || r.qual == 0 || !s.sideIsUp sd then none else some (r, sd)
    | none => none

/-- ROOT and LINK.PARENT show the parent side and the root followed, or that this node is its own root. -/
def State.showRoot (s : State) (p : Option (RootInfo × Nat)) : State :=
  let s1 := (s.wr (WTU_LINK_PARENT 0) (b2n (p.any fun c => c.2 == 0))).wr (WTU_LINK_PARENT 1) (b2n (p.any fun c => c.2 == 1))
  match p with
  | some (r, _) =>
    (((((s1.wr WTU_ROOT_NODE r.node).wr WTU_ROOT_RING r.ring).wr WTU_ROOT_QUAL r.qual).wr WTU_ROOT_HOPS (min 63 (r.hops + 1))).wr
      WTU_ROOT_ROOT_SRC r.src).wr WTU_ROOT_SELF 0
  | none =>
    (((((s1.wr WTU_ROOT_NODE s.node).wr WTU_ROOT_RING s.ring).wr WTU_ROOT_QUAL (if s.isTile then 1 else s.senderQual)).wr WTU_ROOT_HOPS 0).wr
      WTU_ROOT_ROOT_SRC (if s.isTile then 0 else s.rd WTU_SRC_STAT_SRC)).wr WTU_ROOT_SELF 1

/-- A node selects its parent (R168). A tile with no candidate is in HOLDOVER and its own root with QUAL 1; one that is itself a root follows
another tile root only of a lower index. A sender has a parent while RING is its source; another sender's root is one it may follow. -/
def State.selectParent (s : State) : State :=
  let cs := s.parents.filter fun c => if s.isTile then c.1.qual != 1 || decide (c.1.node < s.node) else c.1.node != s.rd (QLK_TOPO_NODE c.2)
  let best := match cs with
    | [] => none
    | [c] => some c
    | c :: e :: _ => if rootBetter e c then some e else some c
  let s1 := s.setSource 5 best.isSome
  if s.isTile then
    (if best.isNone && s1.rd WTU_SRC_STAT_STATE != 3 then (s1.setServo 3).raise 8 4 else s1).showRoot best
  else s1.showRoot (if s1.rd WTU_SRC_STAT_SRC = 5 ∧ s1.rd WTU_SRC_STAT_STATE ≠ 3 then best else none)

/-- PARENT_TIMEOUT (R168): the parent side has sent no TIME folio for 1 ms. A sender that only measures the ring's time no longer does. -/
def execParentTimeout (s : State) : Outcome State Fault Refusal :=
  let drop (s : State) (sd : Nat) : State :=
    if s.parentSide sd || !s.isTile then s.setTimeLink sd { s.timeLink sd with root := none } else s
  let s1 := (drop (drop s 0) 1).when (!s.isTile) fun s => s.wr WTU_RING_OFS_VALID 0
  .next (s.told s1.selectParent)

/-! ### TIME folios received (R156 to R158, R165, R166, R169, R177) -/

/-- A difference of two stamps' ns and fraction, modulo one second, as the nearest signed value. -/
def stampDiff (a b : Nat) : Int :=
  let m : Int := 1000000000 * 65536
  let x := ((a : Int) - (b : Int)) % m
  if m ≤ 2 * x then x - m else x

/-- ps to 2^-16 ns. -/
def psU (x : Int) : Int := x * 65536 / 1000

/-- The timebase of three words of a TIME folio. -/
def wordsTb (w : Nat → Nat) : Timebase :=
  { sec := w 0 % 2 ^ 64, ns := bitsOf (w 1) 31 0, frac := bitsOf (w 1) 47 32, lUs := bitsOf (w 1) 58 48,
    fM1 := bitsOf (w 1) 60 59, num := bitsOf (w 2) 17 0, den := bitsOf (w 2) 28 18 }

/-- What a TIME folio measures on a side (R166): its stamps and echo give the link delay, where an echo came with it, and the offset. -/
structure Exchange where
  fresh : Bool
  delays : List Int
  delay : Int
  offset : Int
  deriving DecidableEq, Repr

/-- The exchange of a folio with TX stamp `tx`, received at `rx`, with its echo. -/
def State.exchange (s : State) (sd tx rx echo1 echo2 : Nat) : Exchange :=
  let x := s.timeLink sd
  let m := 1000000000 * 65536
  let fresh := !(echo1 == 0 && echo2 == 0)
  let ds := if fresh then ((stampDiff echo2 echo1 + stampDiff (rx % m) (tx % m)) / 2 :: x.delays).take 16 else x.delays
  let fd := Config.delayFilter ds
  ⟨fresh, ds, fd, (rx : Int) - (tx : Int) - (fd + psU (toSigned 16 (s.rd (WTU_LINK_ASYM_PS sd))) / 2)⟩

/-- Whether a folio is an outlier, to be discarded (R166): its offset lies more than 100 ns from the filtered one, and fewer than 15 such
came before it in a row. -/
def State.outlier (s : State) (sd : Nat) (e : Exchange) : Bool :=
  let x := s.timeLink sd
  x.offsets != [] && decide (100 * 65536 < (e.offset - Config.offsetFilter x.offsets).natAbs ∧ x.outliers < 15)

/-- An exchange is taken (R166, R167, R169): the filters move on, the servo follows the parent, frequency alone in the 16 exchanges after a
restart; a sender with another source shows the ring's time less its own, once a delay is measured. -/
def State.timeExchange (s : State) (sd : Nat) (e : Exchange) : State :=
  let x := s.timeLink sd
  let jump := x.outliers == 15 && decide (100 * 65536 < (e.offset - Config.offsetFilter x.offsets).natAbs)
  let settle := if e.fresh then x.settle - 1 else x.settle
  let offsets := if jump then [e.offset] else (e.offset :: x.offsets).take 16
  let s1 := ((s.setTimeLink sd { x with delays := e.delays, outliers := 0, settle := settle, offsets := offsets }).wr (WTU_LINK_DELAY_PS sd)
    ((e.delay * 1000 / 65536).toNat)).wr (WTU_LINK_SETTLING sd) (b2n (settle != 0))
  if s1.rd WTU_SRC_STAT_SRC = 5 then (if s1.parentSide sd ∧ e.delays ≠ [] then s1.noteOffset e.offset (x.settle == 0) else s1)
  else if s1.isTile = false ∧ e.delays ≠ [] then
    (s1.wr WTU_RING_OFS_OFS_PS (ofSigned 32 (-e.offset * 1000 / 65536))).wr WTU_RING_OFS_VALID 1
  else s1

/-- A pending switch is learned from the parent (R157, R158). -/
def State.learnSwitch (s : State) (w : TbSwitch) (rx : Nat) : State :=
  if s.wtu.switch = some w ∨ s.tb = w.tb then s
  else if w.tb.tick w.frame - w.tb.lUs * usU < rx then
    (((s.takeSwitch w).bump WTU_TB_CTRL_LATE_CNT).raise 8 10).takeFrame
  else s.pendTb w

/-- A held tick is counted and FWIN_HOLD raised (R176). -/
def State.noteHeld (s : State) (h : Bool) : State :=
  let s1 := { s with wtu := { s.wtu with held := some h } }
  if h then (s1.bump WTU_FWIN_STAT_HELD).raise 8 13 else s1

/-- A gate record is taken (R177): for the coming tick, before its latch point, it decides whether that tick is held. -/
def State.takeGate (s : State) (g : Gate) : State :=
  if s.wtu.gate = some g then s
  else
    let s1 := { s with wtu := { s.wtu with gate := some g } }.wr WTU_FWIN_STAT_STATE (if g.active then 2 else 0)
    if g.frame = s.frame + 1 ∧ s.latchDone = false ∧ s.wtu.held = none then s1.noteHeld (g.hold && g.active) else s1

/-- What a tile takes from its parent's folio. With the first timebase it takes FRAME_NO. A parent that has yet to carry out a switch, which
the tile has made late, does not undo it. -/
def State.fromParent (s : State) (tb : Timebase) (sw : Option TbSwitch) (g : Gate) : State :=
  let known := s.tb == tb || (s.wtu.switch.any fun w => w.tb == tb) || (s.wtu.hasTb && sw.any fun w => w.tb == s.tb)
  let s1 := if known then { s with wtu := { s.wtu with hasTb := true } } else s.setTb tb
  let s2 := if s.wtu.hasTb then s1 else s1.takeFrame
  let s3 := match sw with
    | some w => s2.learnSwitch w s.wtu.wt
    | none => s2
  s3.takeGate g

/-- Whether this node's root is better than that of every neighbor it hears, or none but it is heard: it is its ring's root (R168, R175). -/
def State.isRoot (s : State) : Bool :=
  if s.isTile then s.on WTU_ROOT_SELF
  else s.rd WTU_SRC_STAT_SRC != 5 && [0, 1].all fun sd => match (s.timeLink sd).root with
    | some r => !s.sideIsUp sd || r.node == s.rd (QLK_TOPO_NODE sd) || rootBetter (s.advert sd, sd) (r, sd)
    | none => true

/-- Word `i` of a TIME folio, without its tag. -/
def timeWord (ws : List Word72) (i : Nat) : Nat := (ws.getD i 0).toNat % 2 ^ 64
/-- A stamp of Table 08-2 within its second, in 2^-16 ns. -/
def timeStamp (v : Nat) : Nat := bitsOf v 31 0 * 65536 + bitsOf v 47 32
/-- The TX stamp of a TIME folio. -/
def timeTx (ws : List Word72) : Nat := timeWord ws 0 * (1000000000 * 65536) + timeStamp (timeWord ws 1)
/-- The root that a TIME folio tells of. -/
def timeRoot (ws : List Word72) : RootInfo :=
  let w := timeWord ws 4
  { node := bitsOf w 5 0, ring := bitsOf w 11 6, qual := bitsOf w 13 12, hops := bitsOf w 19 14, poison := bitOf w 20, src := bitsOf w 23 21 }
/-- What a TIME folio received at `rx` on a side measures. -/
def State.folioExchange (s : State) (sd rx : Nat) (ws : List Word72) : Exchange :=
  s.exchange sd (timeTx ws) rx (timeStamp (timeWord ws 2)) (timeStamp (timeWord ws 3))

/-- TIME_FOLIO_RECEIVE (R156 to R158, R164 to R169, R177). An outlier is discarded. A change of root, timebase, switch or gate goes out at
once on the other side. -/
def execTimeFolioReceive (sd : Fin 2) (words : List Word72) (rx : Nat) (seq : BitVec 12) (s : State) :
    Outcome State Fault Refusal :=
  let w := timeWord words
  let tb := wordsTb fun i => w (5 + i)
  let sw : Option TbSwitch := if bitOf (w 8) 48 then some ⟨bitsOf (w 8) 47 0, wordsTb fun i => w (9 + i)⟩ else none
  let g : Gate := ⟨bitsOf (w 12) 47 0, bitOf (w 12) 48, bitOf (w 12) 49⟩
  let s0 := s.passTo rx
  let e := s0.folioExchange sd rx words
  if s0.outlier sd e then .next (s0.setTimeLink sd { s0.timeLink sd with outliers := (s0.timeLink sd).outliers + 1 })
  else
    let s1 := (s0.setTimeLink sd { s0.timeLink sd with last := some (timeTx words, rx, seq.toNat), root := some (timeRoot words), tb := some tb }).selectParent
    let s2 := s1.timeExchange sd e
    .next (s.told (if s2.isTile then (if s2.parentSide sd then s2.fromParent tb sw g else s2)
      else if s2.isRoot then s2 else s2.takeGate g))

/-! ### Feed slots and pins (R171 to R174, R179) -/

/-- FEED_SLOT_START (R17, R171): wall time has reached the feed slot's start. -/
def execFeedSlotStart (k : BitVec 2) (s : State) : Outcome State Fault Refusal :=
  .next (if k.toNat < s.feeds then (s.passTo (s.feedTime s.frame k.toNat)).wr WTU_FRAME_FEED k.toNat else s)

/-- The period of tick `n` in 2^-16 ns. -/
def State.periodU (s : State) : Nat := s.rd WTU_TB_RATE_DEN * 1000000000 * 65536 / max 1 (s.rd WTU_TB_RATE_NUM)

/-- Whether an interval is within a fraction ppm / 10^6 of a period. -/
def withinPpm (x p ppm : Nat) : Bool := decide (p * (1000000 - ppm) ≤ x * 1000000 ∧ x * 1000000 ≤ p * (1000000 + ppm))

/-- The signed distance of an instant from the nearest multiple of a step beyond an origin. -/
def phaseOf (t o : Int) (step : Nat) : Int :=
  let x := (t - o) % (max 1 step : Nat)
  if ((max 1 step : Nat) : Int) ≤ 2 * x then x - (max 1 step : Nat) else x

/-- GLK_EDGE (R172, R179): an edge outside the legal period or width is ignored and counted. An edge marks the nearest tick whose number is
a multiple of DIV. -/
def execGlkEdge (t : Nat) (valid : Bool) (s : State) : Outcome State Fault Refusal :=
  if s.on WTU_GLK_EN = false ∨ s.isTile then .next s
  else
    let div := max 1 (s.rd WTU_GLK_DIV)
    let ok := valid && (match s.wtu.glkLast with | some l => withinPpm (t - l) (div * s.periodU) 500 | none => true)
    if ok = false then .next (s.bump WTU_GLK_BAD)
    else
      let s1 := ({ s with wtu := { s.wtu with glkLast := some t } }.passTo t).setSource 4 true
      let mark : Int := (t : Int) - toSigned 32 (s.rd WTU_GLK_OFS_NS) * 65536
      let n := s.tb.frameAt mark.toNat / div * div
      let o (n : Nat) : Int := mark - (s.tb.tick n : Int)
      let near := if (o (n + div)).natAbs < (o n).natAbs then o (n + div) else o n
      .next (s.told (if s1.rd WTU_SRC_STAT_SRC = 4 then s1.noteOffset near true else s1))

/-- GLK_LOSS (R179). -/
def execGlkLoss (s : State) : Outcome State Fault Refusal :=
  if s.on WTU_GLK_EN then .next (s.told (({ s with wtu := { s.wtu with glkLast := none } }.raise 8 11).setSource 4 false)) else .next s

/-- PPS_EDGE (R173, R179): a valid edge marks WT_NS = 0 of the second in TOD.SEC_NEXT, and TOD advances. -/
def execPpsEdge (t : Nat) (valid : Bool) (s : State) : Outcome State Fault Refusal :=
  if s.on WTU_PPS_IN_EN = false then .next s
  else
    let sec := 1000000000 * 65536
    let ok := valid && (match s.wtu.ppsLast with | some l => withinPpm (t - l) sec 100 | none => true)
    if ok = false then .next s
    else
      let mark := if s.wtu.todSet then s.rd WTU_TOD_SEC_NEXT else (t + sec / 2) / sec
      let s1 := ({ s with wtu := { s.wtu with ppsLast := some t, todSet := true } }.passTo t).wr WTU_TOD_SEC_NEXT (mark + 1)
      let s2 := if s1.isTile then s1 else s1.setSource 3 true
      .next (s.told (if s2.rd WTU_SRC_STAT_SRC = 3 then s2.noteOffset ((t : Int) - mark * sec) true else s2))

/-- PPS_LOSS (R179). -/
def execPpsLoss (s : State) : Outcome State Fault Refusal :=
  if s.on WTU_PPS_IN_EN then .next (s.told (({ s with wtu := { s.wtu with ppsLast := none } }.raise 8 12).setSource 3 false)) else .next s

/-- PPS_OUT_PULSE (R173): the pulse of a wall-time second. -/
def execPpsOutPulse (sec : Nat) (s : State) : Outcome State Fault Refusal :=
  .next (if s.on WTU_PPS_OUT_EN then
    s.send (.pulse .pps 0 (((sec * 1000000000 : Nat) + toSigned 32 (s.rd WTU_PPS_OUT_OFS_NS)) * 65536) (s.rd WTU_PPS_OUT_WIDTH_US * 1000)
      (!s.on WTU_PPS_OUT_POL)) else s)

/-- Whether tick `n`, the last or the coming one, is held. -/
def State.heldAt (s : State) (n : Nat) : Bool := if n ≤ s.frame then s.on WTU_FRAME_HELD else s.wtu.held == some true

/-- TICK_OUT_PULSE (R174): the pulse of feed slot `feed` of frame `frame`, which OFS_NS may put before its tick. -/
def execTickOutPulse (frame : BitVec 48) (feed : BitVec 2) (s : State) : Outcome State Fault Refusal :=
  let mode := s.rd WTU_TICKOUT_MODE
  let here := mode == 1 || (mode == 0 && feed == 0) || (2 ≤ mode && feed.toNat == s.rd WTU_TICKOUT_FEED)
  let skip := s.on WTU_TICKOUT_HOLD_SKIP && s.heldAt frame.toNat
  .next (if s.on WTU_TICKOUT_EN && here && !skip then
    s.send (.pulse .tickOut 0 ((s.feedTime frame.toNat feed.toNat : Int) + toSigned 32 (s.rd WTU_TICKOUT_OFS_NS) * 65536)
      (s.rd WTU_TICKOUT_WIDTH_US * 1000) (!s.on WTU_TICKOUT_POL)) else s)

/-! ### FWIN (R175 to R178) -/

/-- WIN_US and LEAD_US in effect: L, WIN_US and LEAD_US together take at most P / 2 (R175). -/
def State.fwinWin (s : State) (n : Nat) : Nat :=
  let b := s.tbAt n
  min (s.rd WTU_FWIN_WIN_US) (b.den * 500000 / max 1 b.num - b.lUs)
def State.fwinLead (s : State) (n : Nat) : Nat :=
  let b := s.tbAt n
  min (s.rd WTU_FWIN_LEAD_US) (b.den * 500000 / max 1 b.num - b.lUs - s.fwinWin n)

/-- FWIN's settings apply at a tick: with EN = 0 it is no source. -/
def State.fwinApplied (s : State) : State :=
  if s.on WTU_FWIN_EN ∨ (s.rd WTU_SRC_STAT_VALID).testBit 6 = false then s else s.inputsChanged

/-- The decision point of tick `n`. -/
def State.fwinD (s : State) (n : Nat) : Nat := s.latchTime n - s.fwinLead n * usU

/-- FWIN_EDGE: a valid active edge falls in the window of a tick to come, or is STRAY. While gating is reverted, FWIN gives no time (R178). -/
def execFwinEdge (t : Nat) (s : State) : Outcome State Fault Refusal :=
  if s.on WTU_FWIN_EN = false ∨ s.isRoot = false then .next s
  else
    let n? := [s.frame + 1, s.frame + 2].find? fun n => decide (s.fwinD n - s.fwinWin n * usU ≤ t ∧ t ≤ s.fwinD n)
    match n? with
    | some n =>
      let spaced := match s.wtu.fwinLast with
        | some l => withinPpm (t - l) s.periodU (100 * s.rd WTU_FWIN_TOL)
        | none => false
      let s1 := { s with wtu := { s.wtu with fwinLast := some t, fwinIn := some n,
                                              goodEdges := if spaced then s.wtu.goodEdges + 1 else 1 } }.passTo t
      let s2 := if s1.rd WTU_FWIN_STAT_STATE < 2 then s1.wr WTU_FWIN_STAT_STATE 2 else s1
      let s3 := if s2.rd WTU_FWIN_STAT_STATE = 3 then s2 else s2.setSource 6 true
      let o : Int := (t : Int) - ((s.fwinD n : Int) - s.fwinWin n * usU / 2)
      .next (s.told (if s3.rd WTU_SRC_STAT_SRC = 6 ∧ s3.rd WTU_SRC_STAT_STATE ≠ 3 then s3.noteOffset o true else s3))
    | none => .next ({ s with wtu := { s.wtu with fwinLast := some t, goodEdges := 0 } }.bump WTU_FWIN_STAT_STRAY)

/-- FWIN_DECISION (R175, R177): the root decides whether the coming tick is held and sends the gate record on both sides. -/
def execFwinDecision (s : State) : Outcome State Fault Refusal :=
  if s.isRoot = false then .next s
  else
    let n := s.frame + 1
    let en := s.on WTU_FWIN_EN
    let st := if en = false then 0 else if s.rd WTU_FWIN_STAT_STATE = 0 then 1 else s.rd WTU_FWIN_STAT_STATE
    let active := en && st != 3
    let came := s.wtu.fwinIn == some n
    let hold := active && !came
    let s1 := { s.wr WTU_FWIN_STAT_STATE st with
      wtu := { s.wtu with gate := some ⟨n, hold, active⟩, heldRun := if hold then s.wtu.heldRun + 1 else 0,
                          goodEdges := if came then s.wtu.goodEdges else 0 } }
    let s2 := if s.latchDone then s1 else s1.noteHeld hold
    .next ((s2.sendTimeNow 0).sendTimeNow 1)

/-- FWIN_LOSS (R178): TMO_FR consecutive ticks have been held. -/
def execFwinLoss (s : State) : Outcome State Fault Refusal :=
  if s.isRoot = true ∧ s.rd WTU_FWIN_TMO_FR ≤ s.wtu.heldRun ∧ s.rd WTU_FWIN_STAT_STATE ≠ 3 ∧ s.on WTU_FWIN_EN = true then
    .next (s.told (({ s with wtu := { s.wtu with goodEdges := 0, heldRun := 0 } }.wr WTU_FWIN_STAT_STATE 3).raise 8 14 |>.setSource 6 false))
  else .next s

/-- FWIN_RESUME (R178): 8 consecutive in-window edges at the right spacing. -/
def execFwinResume (s : State) : Outcome State Fault Refusal :=
  .next (if s.rd WTU_FWIN_STAT_STATE = 3 ∧ 8 ≤ s.wtu.goodEdges then s.told ((s.wr WTU_FWIN_STAT_STATE 2).setSource 6 true) else s)

/-- The latch point decides: with no gate record for the coming tick it is not held; at a tile that is not the root, that is a GATE_MISS
(R177). -/
def State.decideHeld (s : State) : State :=
  match s.wtu.held with
  | some _ => s
  | none =>
    let s1 := { s with wtu := { s.wtu with held := some false } }
    if s.isTile && !s.isRoot then (s1.bump WTU_FWIN_STAT_GATE_MISS).raise 8 15 else s1

/-! ### Captures and triggers (R181, R182) -/

/-- CAPTURE_EDGE (R181): each unit that selects the input and edge counts it; it records at most one edge per µs. -/
def execCaptureEdge (input : BitVec 5) (rising : Bool) (t : Nat) (s : State) : Outcome State Fault Refusal :=
  .next ((s.passTo t).each (List.range 8) fun s k =>
    let e := s.rd (WTU_CAP_CFG_EDGE k)
    if s.rd (WTU_CAP_CFG_SRC k) = input.toNat ∧ (e = 3 ∨ (e = 1 ∧ rising = true) ∨ (e = 2 ∧ rising = false)) then
      let s1 := s.bump (WTU_CAP_CNT_CNT k)
      let soon := match s.wtu.capLast.getD k none with | some l => decide (t < l + usU) | none => false
      if soon then s1
      else
        (({ s1 with wtu := { s1.wtu with capLast := s1.wtu.capLast.set k (some t) } }.wr (WTU_CAP_TS_NS k)
          (t / nsU % 1000000000)).wr (WTU_CAP_TS_SEC k) (t / nsU / 1000000000)).raise 8 16
    else s)

/-- TRIGGER_PULSE (R182): the pulse of tick `n` (MODE 1), or of second `n` (MODE 2 and above). -/
def execTriggerPulse (k : Fin 4) (n : Nat) (s : State) : Outcome State Fault Refusal :=
  let mode := s.rd (WTU_TRIG_MODE k)
  let at0 : Int := if mode = 1 then (s.tickTime n : Int) else (n * 1000000000 * 65536 : Nat)
  .next (if mode ≠ 0 then
    s.send (.pulse .trigger (s.rd (WTU_TRIG_GPIO k)) (at0 + toSigned 32 (s.rd (WTU_TRIG_OFS_NS k)) * 65536) (s.rd (WTU_TRIG_WIDTH_US k) * 1000)
      (!s.on (WTU_TRIG_POL k))) else s)

end Sys2Proof.Machine
end

