-- ==== Sys2Proof/Machine/Health.lean ====
section
/-! DEFINITION. Lamp health (spec/11_lamp_health.md) and the line slot, in which banks drive and test their lamps. -/

namespace Sys2Proof.Machine

open Host

/-! ### Lamps -/

/-- Put an entry into a list sorted by key. -/
def assocSet {α : Type} : List (Nat × α) → Nat → α → List (Nat × α)
  | [], k, v => [(k, v)]
  | (a, x) :: r, k, v => if k < a then (k, v) :: (a, x) :: r else if k = a then (k, v) :: r else (a, x) :: assocSet r k v

def State.lamp (s : State) (k : Nat) : Lamp := s.health.cur.lamp k

def State.setLamp (s : State) (k : Nat) (l : Lamp) : State :=
  { s with health := { s.health with cur := { s.health.cur with lamps := assocSet s.health.cur.lamps k l } } }

/-- Bank, scan line and channel of a lamp. -/
def keyBank (k : Nat) : Nat := k / 49152
def keyRow (k : Nat) : Nat := k % 49152 / 384
def keyCh (k : Nat) : Nat := k % 384

/-- The component a channel shows. -/
def State.chComp (s : State) (d ch : Nat) : Nat :=
  let slot := ch % groupSize (s.pl (DRV_CFG_GROUP d))
  bitsOf (s.pl (DRV_CFG_CORD d)) (2 * slot + 1) (2 * slot)

/-- The pixel a lamp shows, inside the grid. -/
def State.lampPixel (s : State) (k : Nat) : Option Nat :=
  let d := keyBank k
  let xy := s.bankPixel d (keyCh k / groupSize (s.pl (DRV_CFG_GROUP d))) (keyRow k)
  s.pixIndex xy.1 xy.2

/-- Channels in use in a bank. -/
def State.chUsed (s : State) (d : Nat) : Nat := groupSize (s.pl (DRV_CFG_GROUP d)) * s.pl (DRV_CFG_GRP_USED d)

/-- A pixel's user record, with the writes that wait behind the press. -/
def State.userNow (s : State) (i : Nat) : Word72 :=
  match s.tile.writeQ.reverse.find? fun e => e.1 == userAddr i with
  | some e => e.2
  | none => s.pix (userAddr i)

/-- LHM writes a user record through the queue of R185. -/
def State.putUser (s : State) (i : Nat) (v : Word72) : State :=
  if s.tile.pressing then { s with tile := { s.tile with writeQ := s.tile.writeQ ++ [(userAddr i, v)] } }
  else s.setTable (userAddr i) v

/-- MASKc and STc of a user record (Tables 09-3, 11-3). -/
def userHealth (v : Word72) (c st : Nat) (mask : Bool) : Word72 :=
  let b := if c < 3 then 56 + c else 71
  setBits (setBits v (60 + 2 * c) (59 + 2 * c) st) b b (b2n mask)

/-- Write a lamp's mask and state into the user record of the pixel it shows. -/
def State.recordLamp (s : State) (k st : Nat) (mask : Bool) : State :=
  match s.lampPixel k with
  | some i => s.putUser i (userHealth (s.userNow i) (s.chComp (keyBank k) (keyCh k)) st mask)
  | none => s

/-! ### Events (R230) -/

/-- Post a HEALTH event of a bank: at most EVT_MAX per frame. -/
def State.postHealth (s : State) (d row ch code : Nat) : State :=
  let n := s.health.events.getD d 0
  if n < s.rd LHM_CFG_EVT_MAX then
    { s with health := { s.health with events := s.health.events.set d (n + 1) } }.post 0x8002
      [d % 4 + row % 128 * 4 + ch % 512 * 2 ^ 9 + code % 8 * 2 ^ 18]
  else (s.bump LHM_CNT1_EVT_DROP).raise 0x23 10

/-! ### Verdicts (R219, R223, R224, R226) -/

/-- Lamps of a channel in OPEN or SHORT. -/
def State.colBad (s : State) (d ch : Nat) : Nat :=
  (s.health.cur.lamps.filter fun e => keyBank e.1 == d && keyCh e.1 == ch && (e.2.st == 2 || e.2.st == 3)).length

/-- A channel with more than COL_THR such lamps is a column fault. -/
def State.checkCol (s : State) (d ch : Nat) : State :=
  let cols := s.health.cur.cols.getD d 0
  if s.rd LHM_CFG_COL_THR < s.colBad d ch ∧ cols.testBit ch = false then
    let s1 := { s with health := { s.health with cur := { s.health.cur with cols := s.health.cur.cols.set d (cols + 2 ^ ch) } } }
    (s1.raise 0x23 7).postHealth d 0 ch 5
  else s

/-- A lamp enters OPEN (2) or SHORT (3): its age returns to 0 and the part raises OPEN or SHORT. -/
def State.lampFails (s : State) (k st : Nat) (mask : Bool) : State :=
  let l := s.lamp k
  let s1 := s.setLamp k { l with st := st, since := s.frame, ev := 0, passes := 0, mask := l.mask || mask }
  let s2 := if mask then s1.recordLamp k st true else s1
  (s2.raise 0x23 (if st = 2 then 4 else 5)).checkCol (keyBank k) (keyCh k)

/-- A press whose planes have not yet flipped runs or is done: it does not see a user record written now. -/
def State.pressed (s : State) : Bool := s.tile.finished != 0 || (s.tile.pressing && !s.tile.overrun)

/-- Enter a lamp in its die's suppression table of 64 entries (R224). -/
def State.suppress (s : State) (k : Nat) : State :=
  let d := keyBank k
  let t := s.health.cur.supp.getD d []
  if t.any fun e => e.1 == k then s
  else if t.length < 64 then
    { s with health := { s.health with cur := { s.health.cur with supp := s.health.cur.supp.set d ((k, s.pressed) :: t) } } }
  else s.bump LHM_CNT1_FASTQ_FULL

/-- A verdict of the tests. -/
def State.verdict (s : State) (k st : Nat) : State :=
  let auto := s.on LHM_CFG_AUTO_MASK
  let s1 := (s.bump (if st = 2 then LHM_CNT_NEW_OPEN else LHM_CNT_NEW_SHORT)).lampFails k st auto
  let s2 := if auto then s1.suppress k else s1
  s2.postHealth (keyBank k) (keyRow k) (keyCh k) st

/-- One result of a lamp (Table 11-1). `retest` tells that the result comes from a probe under RETEST. -/
def State.lampResult (s : State) (k : Nat) (short fail retest : Bool) : State :=
  let l := s.lamp k
  if l.st < 2 then
    if fail then
      let ev := min 15 (if l.evShort = short then l.ev + 1 else 1)
      if (if short then s.rd LHM_CFG_SHORT_N else s.rd LHM_CFG_OPEN_N) ≤ ev then s.verdict k (if short then 3 else 2)
      else s.setLamp k { l with ev := ev, evShort := short }
    else s.setLamp k { l with st := 1, since := s.frame, ev := if l.evShort = short then 0 else l.ev }
  else if l.st = 2 ∧ retest = true ∧ short = false then
    if fail then s.setLamp k { l with passes := 0 }
    else if l.passes = 0 then s.setLamp k { l with passes := 1 }
    else
      let s1 := s.setLamp k { l with st := 1, since := s.frame, ev := 0, passes := 0, mask := false }
      s1.recordLamp k 1 false
  else s

/-! ### The line slot (R205 to R208, R210, R218 to R227) -/

/-- T_DET in edge steps: ceil(120 ns × 4 × f_GCLK) (R218). -/
def State.tDet (s : State) : Nat := ceilDiv (480 * s.pl SCN_PLAN_GCLK_MHZ) 1000

/-- Classes whose short tests are suspended: PD_EN = 0, or PD_c below SHORT_MV + 200 mV (R218). -/
def State.shortOff (s : State) (c : Nat) : Bool :=
  s.pl SCN_PD_PD_EN == 0 || decide (s.preMv c < s.health.shortMv + 200)

/-- Whether blanking is too short to probe: BLANK_GCLK < ceil(190 ns × f_GCLK) (R221). -/
def State.blankShort (s : State) : Bool := decide (s.pl SCN_PLAN_BLANK_GCLK < ceilDiv (190 * s.pl SCN_PLAN_GCLK_MHZ) 1000)

/-- N_min (R222). -/
def State.nMin (s : State) : Nat :=
  ceilDiv (640 * s.pl SCN_PLAN_GCLK_MHZ * 65536) (32000 * s.feeds * 2 ^ planHb s.scan.plan)

/-- Whether the die holds a channel off in a row: a faulted row or column, or a suppressed lamp (R224 to R226). -/
def State.heldDark (s : State) (d row ch : Nat) : Bool :=
  (s.health.cur.rows.getD d 0).testBit row || (s.health.cur.cols.getD d 0).testBit ch || s.health.cur.suppressed (lampKey d row ch)

/-- The pulses of a line slot: channel, component, and the pulse as driven; with them the number of pulses shortened (R208).
A suppressed lamp, a faulted row and a faulted column stay dark. -/
def State.slotPulses (s : State) (d feed row sub : Nat) : List (Nat × Nat × Nat × Nat) × Nat :=
  let dl := s.scan.depth.getD feed (18, 0)
  let S := s.pl SCN_PLAN_S_M1 + 1
  let neff := planNeff s.scan.plan s.rate (s.rd SCN_LIMIT_DUTY_MAX)
  let lo := min dl.2 (dl.1 - 8)
  (s.rowCodes d feed row).foldr (fun e (a : List (Nat × Nat × Nat × Nat) × Nat) =>
    let w := pulse dl.1 lo S sub e.2.2
    let dark := s.heldDark d row e.1
    let v := if dark then (0, 0) else shorten neff w
    ((e.1, e.2.1, v.1, v.2) :: a.1, a.2 + b2n (!dark && v != w))) ([], 0)

/-- The class's on-time and time in all, for the average duty (R236). -/
def State.addDuty (s : State) (ps : List (Nat × Nat × Nat × Nat)) : State :=
  let edges := slotEdges s.scan.plan s.rate
  let on (c : Nat) : Nat := (ps.filter fun p => p.2.1 == c).foldl (fun a p => a + p.2.2.1 + p.2.2.2) 0
  let all (c : Nat) : Nat := (ps.filter fun p => p.2.1 == c).length * edges
  { s with health := { s.health with
      dutyOn := (List.range 4).map fun c => s.health.dutyOn.getD c 0 + on c
      dutyAll := (List.range 4).map fun c => s.health.dutyAll.getD c 0 + all c } }

/-- The lesser of two readings, where there are two. -/
def optMin (a b : Option Nat) : Option Nat :=
  match a, b with
  | some x, some y => some (min x y)
  | some x, none => some x
  | none, y => y

/-- A sub-period of a die ends (R234): DRV.HDRM shows its minima, and the lamp loops of each class take them. -/
def State.subDone (s : State) (d : Nat) : State :=
  let h := s.health.hdrm.getD d []
  let classes := (List.range (groupSize (s.pl (DRV_CFG_GROUP d)))).map fun i =>
    bitsOf (s.pl (DRV_CFG_CORD d)) (2 * i + 1) (2 * i)
  let s1 := s.each (List.range 4) fun s c => match h.getD c none with
    | some v => s.wr (DRV_HDRM_MIN d c) (min v 4095)
    | none => s
  let s2 := s1.wr (DRV_HDRM_VALID d) (b2n (classes.all fun c => (h.getD c none).isSome))
  let loops := s2.rail.loops.zipIdx.map fun e =>
    if s.rd (RCE_LOOP_CFG_KIND e.2) = 1 then
      { e.1 with fb := optMin e.1.fb (h.getD (s.rd (RCE_LOOP_CFG_CLASS e.2)) none), fbDone := true }
    else e.1
  { s2 with rail := { s2.rail with loops := loops },
            health := { s2.health with hdrm := s2.health.hdrm.set d [none, none, none, none] } }

/-- Headroom of a line slot joins its sub-period's minima. -/
def State.addHdrm (s : State) (d : Nat) (r : List (Option Nat)) : State :=
  let h := s.health.hdrm.getD d [none, none, none, none]
  { s with health := { s.health with hdrm := s.health.hdrm.set d ((List.range 4).map fun c =>
      optMin (h.getD c none) (r.getD c none)) } }

/-- The probes of a line slot: lamps chosen for the frame in this row, in sub-period 0 of the probe feed slot (R221, R222). A
channel that is held off sources no probe current. -/
def State.slotProbes (s : State) (d row sub : Nat) : List Nat :=
  if s.blkOn 0x23 = true ∧ sub = 0 ∧ s.rd WTU_FRAME_FEED = s.rd LHM_PROBE_FEED then
    (s.health.probes.getD d []).filter fun k => keyRow k == row && !s.heldDark d row (keyCh k)
  else []

/-- Whether a comparator asserts: the lamp fails its test (R218). -/
def State.testFails (s : State) (t : LampTest) : Bool := decide (t.mv < if t.short then s.health.shortMv else s.health.openMv)

/-- The tests of a line slot that give a result (R218, R221): at most one per lamp. -/
def State.slotTests (s : State) (d row : Nat) (ps : List (Nat × Nat × Nat × Nat)) (probes : List Nat) (ts : List LampTest) :
    List LampTest :=
  let det := s.tDet
  let N := planN s.scan.plan s.rate
  let counts (t : LampTest) : Bool :=
    match ps.find? fun p => p.1 == t.ch.toNat with
    | none => false
    | some p =>
      let on := p.2.2.1 + p.2.2.2
      if t.probe then !t.short && s.health.openEn && probes.contains (lampKey d row t.ch.toNat)
      else if t.short then s.health.shortEn && !s.shortOff p.2.1 && decide (det + on ≤ N)
      else s.health.openEn && decide (det ≤ on)
  ts.foldl (fun a t => if counts t && !(a.any fun x => x.ch == t.ch) then a ++ [t] else a) []

/-- A LHM command takes effect (R228): CLEAR, MASK, RETEST or FAULT_CLR. -/
def State.lhmApply (s : State) (op k : Nat) : State :=
  let d := keyBank k
  match op with
  | 0 => (s.setLamp k { s.lamp k with st := 0, since := s.frame, ev := 0, passes := 0, mask := false }).recordLamp k 0 false
  | 1 => s.lampFails k 2 true
  | 2 => { s with health := { s.health with retest := k :: s.health.retest.filter (· != k) } }
  | _ =>
    let m := s.health.cur
    let clr (l : List Nat) (b : Nat) : List Nat := l.set d (l.getD d 0 - (l.getD d 0 &&& 2 ^ b))
    let s1 := { s with health := { s.health with cur := { m with rows := clr m.rows (keyRow k), cols := clr m.cols (keyCh k) } } }
    if (s.drvBank d).stuck then (s1.setDrvBank d { s1.drvBank d with stuck := false }).bankWaits d whySWITCH else s1

/-- The command that waits for die `d` takes effect in its first line slot. -/
def State.slotCmd (s : State) (d : Nat) : State :=
  match s.health.cmd with
  | some (op, k) =>
    if keyBank k = d ∧ s.blkOn 0x23 = true then { s with health := { s.health with cmd := none } }.lhmApply op k else s
  | none => s

/-- A scan switch is found stuck on while columns of another row source current (R227). -/
def State.stuckFound (s : State) (d : Nat) (row : Option (BitVec 7)) : State :=
  match row with
  | some q =>
    if s.drives d && !(s.drvBank d).stuck then
      (((s.setDrvBank d { s.drvBank d with stuck := true }).raise 0x23 8).postHealth d q.toNat 0 6).bankFails d whySWITCH
    else s
  | none => s

/-- The results of a line slot reach LHM (R219, R221, R225): more than ROW_THR failed open tests are the row's fault. `busy` is
the lamp whose command this slot takes. -/
def State.slotResults (s : State) (d row : Nat) (busy : Option Nat) (probes : List Nat) (ts : List LampTest) : State :=
  let s1 := s.each probes fun s k => s.setLamp k { s.lamp k with probed := some s.frame }
  let s2 := { s1.bumpBy LHM_CNT_PROBES probes.length with
    health := { s1.health with
      probes := s1.health.probes.set d ((s1.health.probes.getD d []).filter fun k => !probes.contains k)
      retest := s1.health.retest.filter fun k => !probes.contains k } }
  if s.rd LHM_CFG_ROW_THR < (ts.filter fun t => !t.short && s.testFails t).length then
    let rows := s2.health.cur.rows.getD d 0
    if rows.testBit row then s2
    else
      let s3 := { s2 with health := { s2.health with cur := { s2.health.cur with rows := s2.health.cur.rows.set d (rows + 2 ^ row) } } }
      (s3.raise 0x23 6).postHealth d row 0 4
  else
    s2.each (ts.filter fun t => some (lampKey d row t.ch.toNat) != busy) fun s' t =>
      let k := lampKey d row t.ch.toNat
      s'.lampResult k t.short (s.testFails t) (t.probe && (s.on LHM_PROBE_RETEST || s.health.retest.contains k))

/-- LINE_SLOT_START (R206): the bank drives its row, tests its lamps and samples headroom; a row that is not present stays dark
and counts UNDERRUN (R210). A pending LHM command of the die takes effect (R228). -/
def execLineSlotStart (d : Fin 4) (r : LineReport) (s : State) : Outcome State Fault Refusal :=
  let M := s.pl SCN_PLAN_M_M1 + 1
  if M ≤ r.slot.toNat ∨ s.pl SCN_PLAN_S_M1 < r.sub.toNat then .next s
  else
    let s0 := (s.slotCmd d).stuckFound d r.stuckRow
    if s0.drives d = false then .next s0
    else
      let feed := s0.rd WTU_FRAME_FEED
      let row := if s0.pl SCN_PLAN_ROW_ORDER = 1 then rho M r.slot.toNat else r.slot.toNat
      let sub := r.sub.toNat
      let s1 := if r.slot = 0 then s0.subDone d else s0
      if r.rowPresent = false then
        .next ((s1.setDrvBank d { s1.drvBank d with under := (s1.drvBank d).under + 1 }).bump (DRV_CNT_UNDERRUN d))
      else
        let s2 := s1.setDrvBank d { s1.drvBank d with under := 0 }
        let pc := s2.slotPulses d feed row sub
        let lit := (pc.1.filter fun p => p.2.2.1 + p.2.2.2 != 0).map fun p => (p.1, p.2.2.1, p.2.2.2)
        let probes := s2.slotProbes d row sub
        let s3 := (((s2.send (.row d row (s2.rowDrive d feed sub r.slot.toNat lit (probes.map keyCh)))).noteClip pc.2).addDuty
          pc.1).addHdrm d r.hdrm
        .next (if s3.blkOn 0x23 = false then s3
          else s3.slotResults d row (s.health.cmd.map (·.2)) probes (s3.slotTests d row pc.1 probes r.tests))

/-! ### STALE, commands (R220, R228) -/

/-- LAMP_STALE (R220). -/
def execLampStale (d : Fin 4) (row : BitVec 7) (ch : BitVec 9) (s : State) : Outcome State Fault Refusal :=
  let k := lampKey d row.toNat ch.toNat
  let l := s.lamp k
  let stale := s.rd LHM_CFG_STALE
  .next (if l.st = 1 ∧ stale ≠ 0 ∧ stale ≤ l.age s.frame (s.rd LHM_CFG_AGE_UNIT) then
    s.setLamp k { l with st := 0, since := s.frame, ev := 0 } else s)

/-- CMD.GO (R228): the operation waits for the first line slot of the lamp's die; a GO under BUSY is ignored. -/
def State.lhmGo (s : State) (src : Requester) : State :=
  if s.on LHM_CMD_BUSY then s.capture 0x23 errRA_BUSY src 0xA0 1
  else
    let k := lampKey (s.rd LHM_CMD_BANK) (s.rd LHM_CMD_ROW) (s.rd LHM_CMD_CH)
    { s with health := { s.health with cmd := some (s.rd LHM_CMD_OP, k) } }.wr LHM_CMD_BUSY 1

/-- LHM_CMD_DONE (R228): the user record of a command that has taken effect has been written. -/
def execLhmCmdDone (s : State) : Outcome State Fault Refusal :=
  .next (if s.on LHM_CMD_BUSY = true ∧ s.health.cmd = none then (s.wr LHM_CMD_BUSY 0).raise 0x23 9 else s)

/-! ### LHM's part in a tick (R218, R222, R224, R229, R236) -/

/-- Lamps of banks that exist. -/
def State.lampCount (s : State) : Nat :=
  (List.range 4).foldl (fun a d => if s.on (DRV_STAT_PRESENT d) then a + 384 * (s.pl SCN_PLAN_M_M1 + 1) else a) 0

/-- STAT0, STAT1 and PROBE_STAT. -/
def State.lhmStat (s : State) : State :=
  let m := s.health.cur
  let cnt (p : Lamp → Bool) : Nat := (m.lamps.filter fun e => p e.2).length
  let bits (l : List Nat) (w : Nat) : Nat := l.foldl (fun a v => a + ((List.range w).filter v.testBit).length) 0
  let unit := s.rd LHM_CFG_AGE_UNIT
  let listed := (m.lamps.filter fun e => e.2.st == 0).foldl (fun a e => max a (e.2.age s.frame unit)) 0
  let fresh := (List.range 4).foldl (fun a d =>
    if s.on (DRV_STAT_PRESENT d) then max a (min 65535 ((s.frame - m.up.getD d 0) / max 1 unit)) else a) 0
  let unver := s.lampCount - cnt (fun l => l.st != 0)
  let suppOnly := m.supp.foldl (fun a t => a + (t.filter fun e => !(m.lamp e.1).mask).length) 0
  let off := (List.range 4).foldl (fun a c => a + (if s.shortOff c then 2 ^ c else 0)) 0
  s.each [(LHM_STAT0_OPEN, cnt fun l => l.st == 2), (LHM_STAT0_SHORT, cnt fun l => l.st == 3),
    (LHM_STAT0_MASKED, cnt (fun l => l.mask) + suppOnly), (LHM_STAT1_UNVERIFIED, unver),
    (LHM_STAT1_OLDEST, if cnt (fun _ => true) < s.lampCount then max listed fresh else listed),
    (LHM_STAT1_ROWS, bits m.rows 128), (LHM_STAT1_COLS, bits m.cols 384), (LHM_STAT1_SHORT_OFF, off),
    (LHM_PROBE_STAT_NMIN_FR, min 65535 s.nMin), (LHM_PROBE_STAT_BLANK_SHORT, b2n s.blankShort),
    (LHM_PROBE_STAT_T_DET, s.tDet)] fun s e => s.wr e.1 e.2

/-- The lamps a bank probes in the frame that begins (R222): RETEST first, then candidates in order of age, oldest first. -/
def State.probeList (s : State) (d : Nat) : List Nat :=
  if s.on LHM_PROBE_EN = false ∨ s.blankShort ∨ 2 ≤ s.rd HKT_STAT_LEVEL ∨ s.drives d = false then []
  else
    let unit := s.rd LHM_CFG_AGE_UNIT
    let every := max (s.rd LHM_PROBE_INTERVAL_FR) s.nMin
    let due (k n : Nat) : Bool := match (s.lamp k).probed with | some p => decide (p + n ≤ s.frame) | none => true
    let all := (List.range (s.pl SCN_PLAN_M_M1 + 1)).flatMap fun r => (List.range (s.chUsed d)).map fun ch => lampKey d r ch
    let retests := s.health.retest.filter fun k => keyBank k == d && due k s.nMin
    let cands := all.filter fun k =>
      let l := s.lamp k
      !retests.contains k && due k every &&
        ((l.st == 0 && decide (s.rd LHM_PROBE_MIN_AGE ≤ l.age s.frame unit)) || (l.st == 2 && s.on LHM_PROBE_RETEST))
    (retests ++ sortBy (fun a b => decide ((s.lamp b).age s.frame unit ≤ (s.lamp a).age s.frame unit)) cands).take
      (s.rd LHM_PROBE_MAX_LAMPS)

/-- The region that a duty gives a class in region `r` (R236). -/
def State.nextRegion (s : State) (r d : Nat) : Nat :=
  let t (i : Nat) : Nat := if i = 1 then s.rd RCE_CTRL_REG_T1 else if i = 2 then s.rd RCE_CTRL_REG_T2 else s.rd RCE_CTRL_REG_T3
  let up := if t 3 ≤ d then 3 else if t 2 ≤ d then 2 else if t 1 ≤ d then 1 else 0
  if r ≤ up then up
  else ((List.range (r + 1)).reverse.find? fun i => decide (i ≤ up) || (i != 0 && decide (t i < d + 8))).getD up

/-- The classes' regions follow their duties of the last frame. -/
def State.setRegions (s : State) : State :=
  { s with rail := { s.rail with regions := (List.range 4).map fun c => s.nextRegion (s.rail.regions.getD c 0) (s.rd (RCE_DUTY_DUTY c)) } }

/-- LHM at a tick: suppression entries whose masked plane is shown are freed, the window is copied, probes are chosen, the
average duties are formed. `flip` tells that planes flip at this tick, and whether those of all feeds do. -/
def State.lhmTick (s : State) (held : Bool) (flip : Option Bool) : State :=
  if s.hasPixels = false then s
  else
    let m := s.health.cur
    let supp := match flip with
      | some whole => m.supp.map fun t => (t.filter fun e => e.2 || !whole).map fun e => (e.1, false)
      | none => m.supp
    let duty (c : Nat) : Nat := min 255 (roundAt .duty (256 * s.health.dutyOn.getD c 0 : Nat) (max 1 (s.health.dutyAll.getD c 0))).toNat
    let s1 := { s with health := { s.health with
      cur := { m with supp := supp }
      shown := { m with supp := supp }
      shownFrame := s.frame
      shownUnit := s.rd LHM_CFG_AGE_UNIT
      events := [0, 0, 0, 0]
      openEn := s.on LHM_CFG_OPEN_EN
      shortEn := s.on LHM_CFG_SHORT_EN
      openMv := s.rd LHM_THRESH_OPEN_MV
      shortMv := s.rd LHM_THRESH_SHORT_MV
      dutyOn := [0, 0, 0, 0]
      dutyAll := [0, 0, 0, 0] } }
    let s2 := (s1.each (List.range 4) fun s c => s.wr (RCE_DUTY_DUTY c) (duty c)).setRegions
    let s3 := { s2 with health := { s2.health with
      probes := if held then [[], [], [], []] else (List.range 4).map s2.probeList } }
    s3.lhmStat

/-! ### Bring-up (R220) -/

/-- A leaf die is brought up: each lamp's state comes from its user record, OK as UNVERIFIED, with age and evidence 0. -/
def State.lampLoad (s : State) (d : Nat) : State :=
  let rest := s.health.cur.lamps.filter fun e => keyBank e.1 != d
  let s1 := { s with health := { s.health with cur := { s.health.cur with lamps := rest, up := s.health.cur.up.set d s.frame } } }
  let rows := List.range (s.pl SCN_PLAN_M_M1 + 1)
  let chs := List.range (s.chUsed d)
  let bad := rows.flatMap fun r => chs.filterMap fun ch =>
    let k := lampKey d r ch
    match s1.lampPixel k with
    | some i =>
      let v := (s1.pix (userAddr i)).toNat
      let c := s1.chComp d ch
      let st := bitsOf v (60 + 2 * c) (59 + 2 * c)
      let mask := if c < 3 then bitOf v (56 + c) else bitOf v 71
      if 2 ≤ st ∨ mask = true then some (k, if st = 1 then 0 else st, mask) else none
    | none => none
  s1.each bad fun s e => s.setLamp e.1 ⟨e.2.1, s.frame, 0, false, 0, e.2.2, none⟩

end Sys2Proof.Machine
end

