-- ==== Sys2Proof/Machine/Rail.lean ====
section
/-! DEFINITION. Rail control engine (spec/12_rail_control.md): loops, law, profile, HOLD and SAFE, PMBus. -/

namespace Sys2Proof.Machine

open Host

/-- A rail loop. -/
def State.loop (s : State) (k : Nat) : Loop := s.rail.loops.getD k Loop.reset

/-- Change a rail loop. -/
def State.setLoop (s : State) (k : Nat) (x : Loop) : State := { s with rail := { s.rail with loops := s.rail.loops.set k x } }

/-- num / den rounded to the nearest integer; the spec leaves ties open. -/
def nearest (num : Int) (den : Nat) : Int :=
  let q := num / den
  let r := num % den
  if 2 * r < den then q else if (den : Int) < 2 * r then q + 1 else if Config.tieUp num den then q + 1 else q

/-- The same for a divisor of either sign. -/
def nearestI (num den : Int) : Int := if den < 0 then nearest (-num) den.natAbs else nearest num den.natAbs

/-! ### Outputs (R232, R233) -/

/-- A word goes to a loop's output. Over PMBus it waits for its turn, and a newer word replaces one not yet sent. -/
def State.driveOut (s : State) (k u : Nat) : State :=
  let out := s.rd (RCE_LOOP_CFG_OUT k)
  if out = 4 then
    if u = s.rd (RCE_LOOP_STAT_OUT_U k) ∧ (s.loop k).written = true then s
    else { s with rail := { s.rail with pmbus := s.rail.pmbus.filter (fun e => !(e.1 == k)) ++ [(k, u)] } }
  else s.send (.rail out u)

/-- Every output word is clamped between FLOOR_U and CEIL_U before it leaves (R232); a clamped word is recorded with LIMIT. -/
def State.putWord (s : State) (k : Nat) (u : Int) : State :=
  let a := s.rd (RCE_LOOP_LIM_CEIL_U k)
  let b := s.rd (RCE_LOOP_LIM_FLOOR_U k)
  let lo := min a b
  let hi := max a b
  let v : Nat := if u < lo then lo else if (hi : Int) < u then hi else u.toNat
  let sat := decide ((v : Int) ≠ u)
  let s1 := (s.driveOut k v).wr (RCE_LOOP_STAT_SAT k) (b2n sat)
  let s2 := (s1.setLoop k { s1.loop k with written := true }).wr (RCE_LOOP_STAT_OUT_U k) v
  if sat then s2.captureInt 7 errLIMIT (ofSigned 64 u) else s2

/-! ### States (R237 to R239) -/

/-- A loop changes state; a tile records it (Table 18-1). -/
def State.loopState (s : State) (k v : Nat) : State :=
  let s1 := s.wr (RCE_LOOP_STAT_STATE k) v
  if s.rd (RCE_LOOP_STAT_STATE k) = v ∨ s.isSender = true then s1
  else s1.recWrite 6 0 [k + v * 8 + s1.rd (RCE_LOOP_STAT_OUT_U k) % 65536 * 64 + s1.rd (RCE_LOOP_STAT_SAFE_WHY k) * 2 ^ 22]

/-- The position of an output word, in 1/16,000 of the unit: rail mV, or duty (R232, R238). -/
def State.wordPos (s : State) (k u : Nat) : Int :=
  if s.rd (RCE_LOOP_CFG_KIND k) = 1 then
    (s.rd (RCE_LOOP_MAP_V0_MV k) : Int) * 16000 + u * toSigned 24 (s.rd (RCE_LOOP_MAP_SLOPE_UV k)) * 16
  else (u : Int) * 16000

/-- A profile to SAFE_U or TEST_U begins: from the output at rest, or from where the profile that runs is. -/
def State.startMove (s : State) (k : Nat) : State :=
  let x := s.loop k
  s.setLoop k (if x.moving then { x with valid := 0, emptyT := 0 }
    else { x with moving := true, valid := 0, emptyT := 0, pos := s.wordPos k (s.rd (RCE_LOOP_STAT_OUT_U k)), vel := 0, acc := 0 })

/-- A loop enters PROFILE. -/
def State.enterProfile (s : State) (k : Nat) : State :=
  (s.loopState k 1).startMove k

/-- A loop enters SAFE for a reason: 1 hold limit, 2 monitor, 3 overrun. -/
def State.enterSafe (s : State) (k why : Nat) : State :=
  let s1 := ((((s.wr (RCE_LOOP_STAT_SAFE_WHY k) why).loopState k 4).bump (RCE_LOOP_CNT_SAFES k)).raise 7 5).startMove k
  s1.setLoop k { s1.loop k with resume := false }

/-- A loop enters HOLD. -/
def State.enterHold (s : State) (k : Nat) : State :=
  (((s.loopState k 3).bump (RCE_LOOP_CNT_HOLDS k)).raise 7 4).setLoop k { s.loop k with holdT := 0 }

/-- The output in use in millionths of the output unit: rail µV, or duty (R232). -/
def State.outMicro (s : State) (k : Nat) : Int :=
  let u := s.rd (RCE_LOOP_STAT_OUT_U k)
  if s.rd (RCE_LOOP_CFG_KIND k) = 1 then
    (s.rd (RCE_LOOP_MAP_V0_MV k) : Int) * 1000 + u * toSigned 24 (s.rd (RCE_LOOP_MAP_SLOPE_UV k))
  else (u : Int) * 1000000

/-- A loop enters RUN. From HOLD it goes on as it was, with no ramp; otherwise BASE is the output, I is 0 and the set-point starts
at the measured feedback. -/
def State.enterRun (s : State) (k : Nat) : State :=
  let st := s.rd (RCE_LOOP_STAT_STATE k)
  let fb := s.rd (RCE_LOOP_STAT_FB k)
  let x := s.loop k
  let s1 := if st = 3 then s.setLoop k { x with valid := 0, emptyT := 0, moving := false }
    else (s.setLoop k { x with base := s.outMicro k, integ := 0, setNano := fb * 1000000000, valid := 0, emptyT := 0,
                               moving := false, resume := false }).wr (RCE_LOOP_STAT_SET_NOW k) fb
  let s2 := s1.loopState k 2
  if st = 3 ∨ st = 4 then s2.raise 7 6 else s2

/-! ### The law (R235 to R237) -/

/-- The set-point moves toward TARGET.SET at no more than SS_RATE per second. -/
def State.rampSet (s : State) (k dt : Nat) : State :=
  let goal := s.rd (RCE_LOOP_TARGET_SET k) * 1000000000
  let step := s.rd (RCE_LOOP_TARGET_SS_RATE k) * dt / 65536
  let x := s.loop k
  let v := if x.setNano < goal then min goal (x.setNano + step) else max goal (x.setNano - step)
  (s.setLoop k { x with setNano := v }).wr (RCE_LOOP_STAT_SET_NOW k) (v / 1000000000)

/-- ε of a loop. -/
def State.lawErr (s : State) (k : Nat) : Int :=
  let set : Int := s.rd (RCE_LOOP_STAT_SET_NOW k)
  let fb : Int := s.rd (RCE_LOOP_STAT_FB k)
  if s.rd (RCE_LOOP_CFG_KIND k) = 1 then set - fb else fb - set

/-- A loop's region: that of its class, or the highest of all for a fan; on a change I takes up the step (R236). -/
def State.setRegion (s : State) (k : Nat) : State :=
  let r := s.rd (RCE_LOOP_STAT_REGION k)
  let n := if s.on (RCE_LOOP_CFG_SCHED_EN k) = false then 0
    else if s.rd (RCE_LOOP_CFG_KIND k) = 1 then s.rail.regions.getD (s.rd (RCE_LOOP_CFG_CLASS k)) 0
    else s.rail.regions.foldl max 0
  if n = r then s
  else
    let x := s.loop k
    let step := ((s.rd (RCE_LOOP_GAIN_KP k r) : Int) - s.rd (RCE_LOOP_GAIN_KP k n)) * s.lawErr k
    ((s.setLoop k { x with integ := x.integ + roundAt .integ step 64 }).wr (RCE_LOOP_STAT_REGION k) n).raise 7 9

/-- One computation of the law: out = BASE + KP × ε + I, its word, and I held while the output is clamped. -/
def State.law (s : State) (k dt : Nat) : State :=
  let s1 := (s.rampSet k dt).setRegion k
  let r := s1.rd (RCE_LOOP_STAT_REGION k)
  let e := s1.lawErr k
  let x := s1.loop k
  let out : Int := x.base * 4096 + (s1.rd (RCE_LOOP_GAIN_KP k r) : Int) * e * 1000000 + x.integ * 64000000
  let slope := toSigned 24 (s1.rd (RCE_LOOP_MAP_SLOPE_UV k))
  let u : Int := if s1.rd (RCE_LOOP_CFG_KIND k) = 1 then
      (if slope = 0 then s1.rd (RCE_LOOP_STAT_OUT_U k)
       else nearestI (out - (s1.rd (RCE_LOOP_MAP_V0_MV k) : Int) * 1000 * 4096) (4096 * slope))
    else nearest out 4096000000
  let s2 := s1.putWord k u
  if s2.on (RCE_LOOP_STAT_SAT k) then s2
  else
    let y := s2.loop k
    s2.setLoop k { y with integ := y.integ + roundAt .integ ((s1.rd (RCE_LOOP_GAIN_KI k r) : Int) * e * dt * 64) (1000000000 * 65536) }

/-! ### Samples (R234, R239, R240) -/

/-- Feedback of a fan loop: the hottest valid sensor of SENS, in 1/8 °C. -/
def State.fanFb (s : State) (k : Nat) : Option Nat :=
  let sens := s.rd (RCE_LOOP_CFG_SENS k)
  let ch (b : Nat) : Nat := if b < 5 then b else b + 13
  ((List.range 7).filter fun b => sens.testBit b && s.on (HKT_CH_VALID (ch b))).foldl (fun a b =>
    let v := (toSigned 16 (s.rd (HKT_CH_VALUE (ch b))) / 16).toNat
    some (match a with | some x => max x v | none => v)) none

/-- D: the effective divider (R234). -/
def State.dEff (s : State) : Nat :=
  max (s.rd RCE_CTRL_SUB_DIV) (ceilDiv (s.rd WTU_TB_RATE_NUM * s.feeds * (s.pl SCN_PLAN_S_M1 + 1)) (max 1 (s.rd WTU_TB_RATE_DEN * 16000)))

/-- A valid sample with its feedback. -/
def State.validSample (s : State) (k fb dt : Nat) : State :=
  let s1 := s.wr (RCE_LOOP_STAT_FB k) (min fb 4095)
  let x := s1.loop k
  let st := s1.rd (RCE_LOOP_STAT_STATE k)
  let s2 := s1.setLoop k { x with valid := x.valid + 1, emptyT := 0 }
  let why := s1.rd (RCE_LOOP_STAT_SAFE_WHY k)
  let go := st == 2 || st == 3 || (st == 1 && decide (16 ≤ x.valid + 1)) ||
    (st == 4 && decide (16 ≤ x.valid + 1) && (why == 1 || x.resume))
  if go then (if st = 2 then s2 else s2.enterRun k).law k dt else s2

/-- An empty sample: the output and I are held; 50 ms of them in RUN give HOLD. -/
def State.emptySample (s : State) (k dt : Nat) : State :=
  let x := s.loop k
  let s1 := (s.bump (RCE_LOOP_CNT_EMPTY k)).setLoop k { x with valid := 0, emptyT := x.emptyT + dt }
  if s.rd (RCE_LOOP_STAT_STATE k) = 2 ∧ 50000000 * 65536 ≤ x.emptyT + dt then s1.enterHold k else s1

/-- A sample of a loop (R234 to R240): overrun first, then the feedback and the law. -/
def State.sampleLoop (s : State) (k dt costNs : Nat) (late : Bool) : State :=
  let kind := s.rd (RCE_LOOP_CFG_KIND k)
  if s.on (RCE_LOOP_CFG_EN k) = false ∨ kind = 0 ∨ s.blkOn 7 = false ∨ s.rd (RCE_LOOP_STAT_STATE k) = 0 then s
  else
    let s1 := (s.wr RCE_LAW_STAT_MAX_NS (max (s.rd RCE_LAW_STAT_MAX_NS) (min costNs 65535))).wr RCE_LAW_STAT_D_EFF (min 31 s.dEff)
    let x := s1.loop k
    if late then
      let s2 := ((s1.setLoop k { x with overs := x.overs + 1 }).bump (RCE_LOOP_CNT_OVERRUN k)).raise 7 7
      (if 3 ≤ x.overs + 1 ∧ s.rd (RCE_LOOP_STAT_STATE k) ≠ 4 then s2.enterSafe k 3 else s2)
    else
      let lit := s.on SCN_STAT_LIT
      let dark := kind == 1 && !lit
      let s2 := s1.setLoop k { x with overs := 0, fb := none, fbDone := false,
                                      holdT := if s.rd (RCE_LOOP_STAT_STATE k) = 3 ∧ lit = true then x.holdT + dt else x.holdT }
      let s3 := if dark ∧ s.rd (RCE_LOOP_STAT_STATE k) = 2 then s2.enterHold k else s2
      if kind = 1 ∧ s.on RCE_CTRL_MODE = true ∧ x.fbDone = false then
        (if 0 < x.emptyT then s3.setLoop k { s3.loop k with emptyT := x.emptyT + dt } else s3)
      else match (if kind = 1 then (if lit then x.fb else none) else s.fanFb k) with
        | some fb => s3.validSample k fb dt
        | none => s3.emptySample k dt

/-- RCE_SAMPLE: a lamp loop's sample. A fan loop samples once per housekeeping round (R234, HK_ROUND_PUBLISH). -/
def execRceSample (k : Fin 8) (dt costNs : Nat) (late : Bool) (s : State) : Outcome State Fault Refusal :=
  .next (if s.rd (RCE_LOOP_CFG_KIND k) = 1 then s.sampleLoop k dt costNs late else s)

/-- A number held within ± a limit. -/
def heldWithin (m : Nat) (x : Int) : Int := max (-(m : Int)) (min m x)

/-- One 0.1 ms of the profile generator with a jerk of its choice: jerk, acceleration and velocity are held within JMAX, AMAX and
VMAX (R238), whose units make them 1, 10 and 100 steps of 1/16,000. -/
def State.profMove (s : State) (k : Nat) (jerk : Int) : Loop :=
  let x := s.loop k
  let acc := heldWithin (10 * s.rd (RCE_LOOP_PROF_AMAX k)) (x.acc + heldWithin (s.rd (RCE_LOOP_PROF_JMAX k)) jerk)
  let vel := heldWithin (100 * s.rd (RCE_LOOP_PROF_VMAX k)) (x.vel + acc)
  { x with acc := vel - x.vel, vel := vel, pos := x.pos + vel }

/-- The output word of a profile's position; a SLOPE_UV of 0 holds the output. -/
def State.profWord (s : State) (k : Nat) (pos : Int) : Int :=
  let slope := toSigned 24 (s.rd (RCE_LOOP_MAP_SLOPE_UV k))
  if s.rd (RCE_LOOP_CFG_KIND k) = 1 then
    (if slope = 0 then s.rd (RCE_LOOP_STAT_OUT_U k) else nearestI (pos - (s.rd (RCE_LOOP_MAP_V0_MV k) : Int) * 16000) (16 * slope))
  else nearest pos 16000

/-- The word a loop's profile drives to: TEST_U in TEST, else SAFE_U. -/
def State.profGoal (s : State) (k : Nat) : Nat :=
  if s.rd (RCE_LOOP_STAT_STATE k) = 5 then s.rd (RCE_LOOP_PROF_TEST_U k) else s.rd (RCE_LOOP_LIM_SAFE_U k)

/-- Whether the profile can stop at its target with the next word and within its limits. -/
def State.profArrives (s : State) (k : Nat) : Bool :=
  let x := s.loop k
  let near := min (5 * s.rd (RCE_LOOP_PROF_AMAX k)) (100 * s.rd (RCE_LOOP_PROF_VMAX k))
  decide ((s.wordPos k (s.profGoal k) - x.pos).natAbs ≤ near ∧ x.vel.natAbs ≤ 5 * s.rd (RCE_LOOP_PROF_AMAX k))

/-- PROFILE_UPDATE (R238): the generator's next word on the 10 kHz grid; on arrival the word is the target and PROF_DONE is
raised. The spec gives the limits of the move and not its course: the jerk is the generator's choice. -/
def execProfileUpdate (k : Fin 8) (jerk : Int) (s : State) : Outcome State Fault Refusal :=
  let st := s.rd (RCE_LOOP_STAT_STATE k)
  if (s.loop k).moving = false ∨ s.blkOn 7 = false ∨ ¬ (st = 1 ∨ st = 4 ∨ st = 5) then .next s
  else if s.profArrives k then
    let goal := s.profGoal k
    let s1 := s.putWord k (s.profWord k (s.wordPos k goal))
    .next ((s1.setLoop k { s1.loop k with moving := false, pos := s.wordPos k goal, vel := 0, acc := 0 }).raise 7 10)
  else
    let x := s.profMove k jerk
    let s1 := s.putWord k (s.profWord k x.pos)
    .next (s1.setLoop k { s1.loop k with pos := x.pos, vel := x.vel, acc := x.acc })

/-- HOLD_LIMIT (R239): HOLD has lasted HOLD_LIMIT_MS while lit. -/
def execHoldLimit (k : Fin 8) (s : State) : Outcome State Fault Refusal :=
  .next (if s.rd (RCE_LOOP_STAT_STATE k) = 3 ∧ s.on SCN_STAT_LIT = true ∧
      s.rd RCE_CTRL_HOLD_LIMIT_MS * 1000000 * 65536 ≤ (s.loop k).holdT then s.enterSafe k 1 else s)

/-! ### Register hooks (R231, R238, R239) -/

/-- PROF.GO: a test move to TEST_U; ignored with BUSY in SAFE. -/
def State.profStart (s : State) (k : Nat) (src : Requester) : State :=
  let st := s.rd (RCE_LOOP_STAT_STATE k)
  if st = 4 then s.capture 7 errBUSY src (0x140 + 0x80 * k) 1
  else if st = 0 then s
  else (s.loopState k 5).startMove k

/-- PROF.RELEASE: TEST ends and the loop enters RUN. -/
def State.profEnd (s : State) (k : Nat) : State := if s.rd (RCE_LOOP_STAT_STATE k) = 5 then s.enterRun k else s

/-- CFG.RESUME. -/
def State.resumeLoop (s : State) (k : Nat) : State :=
  if s.rd (RCE_LOOP_STAT_STATE k) = 4 ∧ s.rd (RCE_LOOP_STAT_SAFE_WHY k) ≠ 1 then
    s.setLoop k { s.loop k with resume := true, valid := 0 }
  else s

/-- EN has been set or cleared. -/
def State.loopEnChanged (s : State) (k : Nat) : State :=
  if s.on (RCE_LOOP_CFG_EN k) then
    (if s.rd (RCE_LOOP_STAT_STATE k) = 0 ∧ s.rd (RCE_LOOP_CFG_KIND k) ≠ 0 then s.enterProfile k else s)
  else (s.loopState k 0).setLoop k { s.loop k with moving := false, fb := none, fbDone := false }

/-- LIM has been written: the limits act on the word in use at once (R30, R232). -/
def State.limChanged (s : State) (k : Nat) : State :=
  let u := s.rd (RCE_LOOP_STAT_OUT_U k)
  let a := s.rd (RCE_LOOP_LIM_CEIL_U k)
  let b := s.rd (RCE_LOOP_LIM_FLOOR_U k)
  if (s.loop k).written = true ∧ (u < min a b ∨ max a b < u) then s.putWord k u else s

/-- Whether a loop's output is used by another enabled loop. -/
def State.outUsed (s : State) (k out : Nat) : Bool :=
  (List.range 8).any fun j => j != k && s.on (RCE_LOOP_CFG_EN j) && s.rd (RCE_LOOP_CFG_OUT j) == out

/-- BANK_START (R214, R238): the bank drives; enabled lamp loops that are OFF start their profile when lamps become lit. -/
def execBankStart (d : Fin 4) (s : State) : Outcome State Fault Refusal :=
  let s1 := s.bankStart d
  .next (if s1.on SCN_STAT_LIT ∧ s.on SCN_STAT_LIT = false then
    ({ s1 with rail := { s1.rail with loops := s1.rail.loops.map fun x : Loop => { x with holdT := 0 } } }).each (List.range 8) fun s k =>
      if s.on (RCE_LOOP_CFG_EN k) = true ∧ s.rd (RCE_LOOP_CFG_KIND k) = 1 ∧ s.rd (RCE_LOOP_STAT_STATE k) = 0 then s.enterProfile k else s
    else s1)

/-! ### PMBus and monitors (R233, R239) -/

/-- PMBUS_WRITE (R233): loops are served in round robin; a PAGE write precedes where PMB_PAGE names one. -/
def execPmbusWrite (s : State) : Outcome State Fault Refusal :=
  let key (e : Nat × Nat) : Nat := (e.1 + 7 - s.rail.served) % 8
  match sortBy (fun a b => decide (key a ≤ key b)) s.rail.pmbus with
  | [] => .next s
  | (k, u) :: _ =>
    let page := s.rd (RCE_LOOP_CFG_PMB_PAGE k)
    let s1 := s.send (.pmbus k (s.rd RCE_PMB_SPEED) (s.on RCE_PMB_PEC) (s.rd (RCE_LOOP_CFG_PMB_ADDR k)) (if page = 0xFF then none else some page) u)
    let s2 := { s1 with rail := { s1.rail with pmbus := s1.rail.pmbus.filter (fun e => !(e.1 == k)), served := k } }
    let x := s2.loop k
    .next (s2.setLoop k { x with pmbSent := true, pmb := if x.pmbSent then 0 else x.pmb })

/-- A monitor fault. -/
def State.monFault (s : State) (k : Nat) : State :=
  let s1 := s.raise 7 8
  if s.rd (RCE_LOOP_STAT_STATE k) = 4 ∨ s.rd (RCE_LOOP_STAT_STATE k) = 0 then s1 else s1.enterSafe k 2

/-- PMBUS_TIMEOUT (R233): a NACK or no acknowledgment within 10 ms; three in a row make a monitor fault. -/
def execPmbusTimeout (k : Fin 8) (s : State) : Outcome State Fault Refusal :=
  let x := s.loop k
  let s1 := ((s.setLoop k { x with pmb := x.pmb + 1, pmbSent := false }).bump (RCE_LOOP_CNT_MON k)).raise 7 11
  .next (if x.pmb + 1 = 3 then (s1.setLoop k { s1.loop k with pmb := 0 }).monFault k else s1)

/-- One housekeeping round's check of a loop: its rail against its command, or its tachometer (R239). -/
def State.monitor (s : State) (tach : List Nat) (k : Nat) : State :=
  let kind := s.rd (RCE_LOOP_CFG_KIND k)
  let tol := s.rd (RCE_LOOP_CFG_MON_TOL k)
  let x := s.loop k
  if s.rd (RCE_LOOP_STAT_STATE k) = 0 ∨ kind = 0 ∨ x.written = false then s
  else
    let bad := if kind = 1 then
        decide (((tol : Int) * 1000) < (s.outMicro k - 1000 * (s.rd (HKT_CH_VALUE (5 + s.rd (RCE_LOOP_CFG_CLASS k))) : Int)).natAbs)
      else decide (256 ≤ s.rd (RCE_LOOP_STAT_OUT_U k) ∧ tach.getD (s.rd (RCE_LOOP_CFG_OUT k) - 5) 0 < tol * 16)
    if bad = false then s.setLoop k { x with mon := 0 }
    else
      let s1 := (s.setLoop k { x with mon := x.mon + 1 }).bump (RCE_LOOP_CNT_MON k)
      if x.mon + 1 = 3 then (s1.setLoop k { s1.loop k with mon := 0 }).monFault k else s1

end Sys2Proof.Machine
end

