-- ==== Sys2Proof/Machine/Reset.lean ====
section
/-! DEFINITION. What each store holds through the resets of the part (R296, R303, Tables 16-5 and 16-10) and what a block reset
clears (R28). -/

namespace Sys2Proof.Machine

open Host

/-- Whether a page keeps running through a soft-scope reset (R296). -/
def softPage (pg : Nat) : Bool := pg == 5 || pg == 8 || pg == 0x18 || pg == 0x19 || pg == 0x1A

/-- The field that a key of the register store names. -/
def fldOf (k : Nat) : Option Fld := (pageFields (k / 262144)).find? fun f => f.key == k

/-- Whether the held epoch is class M, as in a sender, or B (R272). -/
def epochFld (f : Fld) : Bool := f.page == 9 && decide (0xB0 ≤ f.off) && decide (f.off < 0xC0)

/-- Class M fields that the MRAM holds outside the settings: the header, the ledger, the unit data and the aging slots (R300). -/
def headerFld (f : Fld) : Bool :=
  (f.acc == .ro || f.acc == .w1c) && (f.page == 1 || f.page == 3 || f.page == 0x21 || (f.page == 4 && decide (f.off < 0xD0)))

/-- Whether a field keeps its value through a reset of kind `kind` (Table 16-5). What the MRAM holds outside the settings holds through
every reset. -/
def State.keeps (s : State) (kind : Nat) (f : Fld) : Bool :=
  match f.ret with
  | .f => true
  | .a => kind != 1
  | .m =>
    if headerFld f then true
    else (f.acc == .rwk && s.on (LOCK f.page) && kind != 1) || (decide (6 ≤ kind) && softPage f.page)
  | .t | .b => decide (6 ≤ kind) && softPage f.page

/-- Entries of a register store whose field keeps its value. -/
def State.keptOf (s : State) (kind : Nat) (t : Tbl 64) : Tbl 64 :=
  t.filter fun e => match fldOf e.1 with | some f => s.keeps kind f | none => false

/-- Reset values of the fields that lose theirs. -/
def State.resetRest (s : State) (kind : Nat) (r kept : Tbl 64) : Tbl 64 :=
  (r.filter fun e => match fldOf e.1 with | some f => !s.keeps kind f | none => false).foldl (fun t e => t.set e.1 e.2) kept

/-- The registers after a reset of kind `kind`. BOOT_CFG.TARGET resets to 0 in TILE role and to 1 otherwise. -/
def State.resetRegs (s : State) (kind : Nat) : State :=
  let s1 := { s with live := s.resetRest kind resetTbl (s.keptOf kind s.live),
                     shadow := s.resetRest kind resetShadow (s.keptOf kind s.shadow),
                     latched := s.resetRest kind resetShadow (s.keptOf kind s.latched),
                     committed := s.resetRest kind resetShadow (s.keptOf kind s.committed),
                     snapd := s.keptOf kind s.snapd }
  s1.wr NVS_BOOT_CFG_TARGET (if s1.isTile then 0 else 1)

/-- Loops after a reset: only whether each has written a word since power-on holds (R232). -/
def State.resetLoops (s : State) (por : Bool) : List Loop :=
  s.rail.loops.map fun l => { Loop.reset with written := l.written && !por }

/-- The MRAM and the start's own record through a reset: what is volatile in them ends, and a record in progress is cut. -/
def Nvs.restart (n : Nvs) : Nvs :=
  { n with policy := [], policyNext := [], ops := [], cuts := n.cuts + b2n n.recBusy, recBusy := false, safe := false,
           restartDue := false, clockLost := false, power := none, softKind := none, litWait := false }

/-- The update block through a reset: MRAM holds the slots, keys and numbers; staging and armed state is volatile. What an
activation in progress needs after the restart that belongs to it stays (R314, R316). -/
def Upd.restart (u : Upd) : Upd :=
  { Upd.reset with slots := u.slots, running := u.running, keys := u.keys, revoked := u.revoked, actCid := u.actCid,
                   relight := u.relight, active := u.active, prevValid := u.prevValid, probation := u.probation, fmts := u.fmts,
                   trial := u.trial, peers := u.peers, coord := (u.coord.filter fun c => decide (2 ≤ c.phase)).map fun c => { c with req := none },
                   actFrame := u.actFrame, susFrom := u.susFrom, susUntil := u.susUntil }

/-- The engines' state through a soft-scope reset: every block but QPA, QPB, QLK, WTU and HKT. -/
def State.resetEngines (s : State) (por : Bool) : State :=
  { s with win := [], winShadow := [], winLatched := [], winCommitted := [], ue := [], mem := [],
           host := { HostIf.reset with spiLocked := s.host.spiLocked, remoteForbidden := s.host.remoteForbidden,
                                       pcieRefclk := s.host.pcieRefclk },
           ports := List.replicate 4 Port.reset, pickFollowed := false, pickSeq := 0, flipSeq := 0, refSeq := 0,
           comp := Comp.reset, imp := Impo.reset, tile := Tile.reset, scan := Scan.reset, health := Health.reset,
           rail := { Rail.reset with loops := s.resetLoops por },
           house := { s.house with trim := [], staged := [], hostAt := [] },
           ctl := Ctl.reset, arb := [ArbSide.reset, ArbSide.reset], upd := s.upd.restart, nvs := s.nvs.restart,
           commits := Commits.reset, xing := [], latchDone := false, evtSeq := 0, evtMask := 0xFFFFFFFFFFFFFFFF, recd := Rec.reset }

/-- The blocks that a soft-scope reset leaves running go too in brown-out scope and at POR. -/
def State.resetRing (s : State) : State :=
  { s with sides := [Side.reset, Side.reset], link := Link.reset, wtu := Wtu.reset, house := House.reset }

/-- What is held through a reset of kind `kind` (Table 16-10). -/
def State.resetPart (s : State) (kind : Nat) : State :=
  let s1 := (s.resetRegs kind).resetEngines (kind == 1)
  if 6 ≤ kind then s1 else s1.resetRing

/-- The absolute comparator holds everything except HKT, the ADC and the VAON domain in reset (R252). -/
def State.holdReset (s : State) : State :=
  let t := s.resetPart 2
  { t with live := (s.live.filter fun e => decide (e.1 / 262144 = 5)).foldl (fun m e => m.set e.1 e.2)
             (t.live.filter fun e => !decide (e.1 / 262144 = 5)),
           snapd := s.snapd.filter fun e => decide (e.1 / 262144 = 5),
           house := { s.house with trim := [], staged := [], hostAt := [] } }

end Sys2Proof.Machine
end

