-- ==== Sys2Proof/Machine/Sched.lean ====
section
/-! DEFINITION. The hardware scheduler and its trace (R263 to R265 of spec/14_control_plane.md): ready lists, affinity, delayed
tasks, waits with a time-out, trace records, LOAD. What the tasks themselves do is firmware's: it comes as `TaskAct`. -/

namespace Sys2Proof.Machine

open Host

/-- Change the scheduler. -/
def State.setTasks (s : State) (x : TaskSched) : State := { s with ctl := { s.ctl with tasks := x } }

/-- A trace record, where TRACE.EN and TRACE.MASK let its code through and the ring is not stopped (R265, Table 14-3). -/
def State.traceWrite (s : State) (code core task qn prio time : Nat) : State :=
  if s.on CCC_TRACE_EN = true ∧ (s.rd CCC_TRACE_MASK).testBit (code - 1) = true ∧ s.on CCC_TRACE_STAT_FROZEN = false then
    let p := s.rd CCC_TRACE_STAT_WPTR
    let w := time % 2 ^ 24 + core % 8 * 2 ^ 24 + task % 65536 * 2 ^ 27 + qn % 2 ^ 18 * 2 ^ 43 + prio % 8 * 2 ^ 61 + code * 2 ^ 64
    let s1 := (s.setWord (0xB00000 + p) (BitVec.ofNat 72 w)).wr CCC_TRACE_STAT_WPTR ((p + 1) % 4096)
    if p = 4095 then s1.wr CCC_TRACE_STAT_WRAPPED 1 else s1
  else s

/-- A decision about a task is recorded at the scheduler's present tick. -/
def State.traceTask (s : State) (code core : Nat) (t : Task) (qn : Nat) : State :=
  s.traceWrite code core t.id qn t.prio s.ctl.tasks.now

/-- The task that runs on a core. -/
def TaskSched.on (x : TaskSched) (c : Nat) : Option Task := x.run.getD c none

/-- The lowest-numbered idle core. -/
def TaskSched.idle (x : TaskSched) : Option Nat := (List.range 7).find? fun c => (x.on c).isNone

/-- Of a list of waiting tasks, the first of the highest priority. -/
def firstReady : List Ready → Option Ready
  | [] => none
  | e :: r => match firstReady r with
    | some x => some (if x.task.prio < e.task.prio then x else e)
    | none => some e

/-- A core takes a task: DISPATCH. -/
def State.dispatch (s : State) (c : Nat) (t : Task) : State :=
  let x := s.ctl.tasks
  ((s.setTasks { x with run := x.run.set c (some { t with core := c }) }).bump CCC_CNT_DISPATCH).traceTask 1 c t 0

/-- A ready task goes to another core than the one that last ran it: MIGRATE. -/
def State.migrate (s : State) (c : Nat) (t : Task) : State := ((s.bump CCC_CNT_MIGRATE).traceTask 2 c t 0).dispatch c t

/-- Ready tasks whose core has not come free within AFF_US go to the lowest-numbered idle cores, in order of priority, first in first
out within one (R263). -/
def State.migrateDue : Nat → State → State
  | 0, s => s
  | n + 1, s =>
    let x := s.ctl.tasks
    match x.idle, firstReady (x.ready.filter fun e => decide (e.until_ ≤ x.now)) with
    | some c, some e => State.migrateDue n ((s.setTasks { x with ready := x.ready.filter (· != e) }).migrate c e.task)
    | _, _ => s

/-- A task is made ready: the core that last ran it takes it if it is idle; otherwise it waits for that core for AFF_US. -/
def State.makeReady (s : State) (t : Task) : State :=
  let x := s.ctl.tasks
  if (x.on t.core).isNone then s.dispatch t.core t
  else s.setTasks { x with ready := x.ready ++ [⟨t, x.now + s.rd CCC_SCHED_AFF_US⟩] }

/-- A core has no task: it takes the first of its own ready tasks of the highest priority, or goes idle. -/
def State.coreFree (s : State) (c : Nat) (t : Task) : State :=
  let x := s.ctl.tasks
  let s1 := s.setTasks { x with run := x.run.set c none }
  match firstReady (x.ready.filter fun e => e.task.core == c) with
  | some e => (s1.setTasks { s1.ctl.tasks with ready := x.ready.filter (· != e) }).dispatch c e.task
  | none => s1.traceTask 7 c t 0

/-- The scheduler tick moves on; a core that has a task is busy. -/
def State.taskClock (s : State) (us : Nat) : State :=
  let x := s.ctl.tasks
  s.setTasks { x with
    now := max x.now us
    busy := (List.range 7).map fun c => x.busy.getD c 0 + (if (x.on c).isSome then us - x.now else 0) }

/-- Delayed tasks wake at their times, in order of time and then of insertion (R263). -/
def State.wakeDelayed : Nat → State → Nat → State
  | 0, s, _ => s
  | n + 1, s, us =>
    let x := s.ctl.tasks
    match x.delayed with
    | (w, t) :: r =>
      if w ≤ us then State.wakeDelayed n (((s.setTasks { x with delayed := r }).taskClock w).makeReady t) us else s
    | [] => s

/-- The scheduler reaches a tick. -/
def State.taskTime (s : State) (us : Nat) : State :=
  let s1 := (s.wakeDelayed s.ctl.tasks.delayed.length us).taskClock us
  s1.migrateDue s1.ctl.tasks.ready.length

/-- Put a task on the delayed list: sorted by time, behind those of the same time. -/
def delayTask : List (Nat × Task) → Nat → Task → List (Nat × Task)
  | [], w, t => [(w, t)]
  | e :: r, w, t => if w < e.1 then (w, t) :: e :: r else e :: delayTask r w t

/-- One act of firmware's tasks (R263, R264). -/
def State.taskAct (s : State) : TaskAct → State
  | .start id prio core => s.makeReady ⟨id.toNat, prio.toNat, core.val⟩
  | .wait core qn ms =>
    match s.ctl.tasks.on core with
    | some t =>
      let x := s.ctl.tasks
      let most := min ms.toNat (s.rd CCC_SCHED_WAIT_MAX_MS)
      ((s.setTasks { x with waits := x.waits ++ [⟨t, qn.toNat, x.now + 1000 * most⟩] }).traceTask 3 core t qn.toNat).coreFree core t
    | none => s
  | .event id =>
    match s.ctl.tasks.waits.find? fun w => w.task.id == id.toNat with
    | some w =>
      let x := s.ctl.tasks
      ((s.setTasks { x with waits := x.waits.filter (· != w) }).traceTask 4 w.task.core w.task w.qn).makeReady w.task
    | none => s
  | .delay core us =>
    match s.ctl.tasks.on core with
    | some t =>
      let x := s.ctl.tasks
      ((s.setTasks { x with delayed := delayTask x.delayed (x.now + us) t }).traceTask 6 core t 0).coreFree core t
    | none => s
  | .finish core =>
    match s.ctl.tasks.on core with
    | some t => s.coreFree core t
    | none => s
  | .preempt core =>
    match s.ctl.tasks.on core with
    | some t =>
      let x := s.ctl.tasks
      ((s.setTasks { x with ready := x.ready ++ [⟨t, x.now + s.rd CCC_SCHED_AFF_US⟩] }).traceTask 8 core t 0).coreFree core t
    | none => s

/-- A wait on a queue times out and wakes its task; an event of the same tick has come before it and wins (R264). -/
def State.waitTimeout (s : State) (id : Nat) : State :=
  let x := s.ctl.tasks
  match x.waits.find? fun w => w.task.id == id && decide (w.until_ ≤ x.now) with
  | some w =>
    ((((s.setTasks { x with waits := x.waits.filter (· != w) }).bump CCC_CNT_WAKE_TMO).traceTask 5 w.task.core w.task w.qn).makeReady
      w.task).raise 1 6
  | none => s

/-- TASK_WAKE_TIMEOUT (R263, R264): the scheduler reaches tick `us`, having carried out what firmware's tasks did at their ticks, and
the wait of a task times out. -/
def execTaskWakeTimeout (acts : List (Nat × TaskAct)) (task : BitVec 16) (us : Nat) (s : State) : Outcome State Fault Refusal :=
  let s1 := s.each acts fun s e => (s.taskTime e.1).taskAct e.2
  let s2 := (s1.taskTime us).waitTimeout task.toNat
  .next (s2.migrateDue s2.ctl.tasks.ready.length)

/-- CCC.LOAD at a housekeeping round that starts at tick `us` (R263): the part of the last round in which each core was busy. -/
def State.taskLoad (s : State) (us : Nat) : State :=
  let s1 := s.taskTime us
  let x := s1.ctl.tasks
  (s1.each (List.range 7) fun s c => s.wr (CCC_LOAD_LOAD c) (min 255 (roundAt .load (x.busy.getD c 0 * 256 : Nat) 10000).toNat)).setTasks
    { x with busy := [0, 0, 0, 0, 0, 0, 0] }

end Sys2Proof.Machine
end

