-- ==== Sys2Proof/Machine/House.lean ====
section
/-! DEFINITION. Housekeeping, thermal management and Self-Trim (spec/13_thermal_and_trim.md). -/

namespace Sys2Proof.Machine

open Host

/-! ### Measurements (R241, R242) -/

/-- The legal range of channel `k` (Table 13-1). -/
def chRange (k : Nat) : Int × Int :=
  if k < 5 then (-60 * 128, 160 * 128) else if k < 10 then (0, 6000) else if k < 18 then (0, 2000) else (-40 * 128, 150 * 128)

/-- A leaf die whose supply is absent has no diode to read: in SENDER role, a die held absent (R7), and ordinary STANDBY
(R252, Table 16-7). -/
def State.diodeAbsent (s : State) (k : Nat) : Bool :=
  decide (k < 4) && (s.isSender || !s.on (DRV_STAT_PRESENT k) || (s.rd NVS_POWER_STATE == 2 && !s.house.shut))

/-- Whether a reading is valid. -/
def State.chValid (s : State) (k : Nat) (x : Int) : Bool :=
  !s.diodeAbsent k && decide ((chRange k).1 ≤ x) && decide (x ≤ (chRange k).2)

/-- A die's temperature as the press latches it: the last valid reading, or THROTTLE while the diode is faulted (R242). -/
def State.dieTemp (s : State) (d : Nat) : Nat :=
  if (s.rd HKT_STAT_DFAULT).testBit d then s.rd HKT_THRESH_THROTTLE_C * 128 else s.house.lastT.getD d 0

/-- A diode's counts of rounds, its fault, and its last valid reading, in one round. -/
def State.diodeRound (s : State) (k : Nat) (x : Int) : State :=
  if s.diodeAbsent k then s
  else
    let ok := s.chValid k x
    let h := s.house
    let b := if ok then 0 else min 3 (h.bad.getD k 0 + 1)
    let g := if ok then min 3 (h.good.getD k 0 + 1) else 0
    let s1 := { s with house := { h with bad := h.bad.set k b, good := h.good.set k g,
                                         lastT := if ok then h.lastT.set k (ofSigned 16 x) else h.lastT } }
    let f := s.rd HKT_STAT_DFAULT
    if f.testBit k then (if g = 3 then s1.wr HKT_STAT_DFAULT (f - 2 ^ k) else s1)
    else if b = 3 then (s1.wr HKT_STAT_DFAULT (f + 2 ^ k)).raise 5 9
    else s1

/-- The readings that take part in T_max: the valid ones, and THROTTLE for a faulted diode. -/
def State.hotList (s : State) (r : List Int) : List (Int × Nat) :=
  (List.range 5).filterMap fun k =>
    if s.diodeAbsent k then none
    else if (s.rd HKT_STAT_DFAULT).testBit k then some ((s.rd HKT_THRESH_THROTTLE_C : Int) * 128, k)
    else if s.chValid k (r.getD k 0) then some (r.getD k 0, k)
    else none

/-- The hottest of a list, the lowest index on a tie. -/
def hottest (l : List (Int × Nat)) : Option (Int × Nat) :=
  l.foldl (fun a e => match a with
    | some m => if m.1 < e.1 then some e else a
    | none => some e) none

/-! ### Levels and throttling (R244 to R248) -/

/-- T_max, in 1/128 °C. -/
def State.tMax (s : State) : Int := toSigned 16 (s.rd HKT_STAT_T_MAX)

/-- The requested factor R (R246). -/
def State.throttleR (s : State) : Nat :=
  let k : Int := (s.tMax - (s.rd HKT_THRESH_THROTTLE_C : Int) * 128) / 128 + 1
  let v : Int := 65536 - (s.rd HKT_THR_THR_SLOPE : Int) * k
  min 65536 (max (s.rd HKT_THR_THR_MIN) v.toNat)

/-- STAT.LEVEL: the highest level in force. -/
def State.showLevel (s : State) : State := s.wr HKT_STAT_LEVEL (if s.house.shut then 3 else s.house.level)

/-- The pause after a background operation, in µs (R249). -/
def State.pauseUs (s : State) : Nat :=
  if s.house.level = 0 then 0
  else
    let n : Int := max 1 ((s.tMax - (s.rd HKT_THRESH_WARN_C : Int) * 128) / 128 + 1)
    min (s.rd HKT_PAUSE_PAUSE_MAX_US) (s.rd HKT_PAUSE_PAUSE_US * n.toNat)

/-- Levels are entered at a threshold and left 10 °C below it (R244). -/
def State.setLevels (s : State) : State :=
  let t := s.tMax
  let w : Int := (s.rd HKT_THRESH_WARN_C : Int) * 128
  let h : Int := (s.rd HKT_THRESH_THROTTLE_C : Int) * 128
  let hyst : Int := (s.rd HKT_THRESH_HYST_C : Int) * 128
  let old := s.house.level
  let thr : Bool := if old = 2 then !decide (t < h - hyst) else decide (h ≤ t)
  let warn : Bool := if 1 ≤ old then !decide (t < w - hyst) else decide (w ≤ t)
  let new := if thr then 2 else if warn then 1 else 0
  let s1 := if warn && old == 0 then (s.bump HKT_CNT_WARN).raise 5 4 else s
  let s2 := if thr && old != 2 then (s1.bump HKT_CNT_THROTTLE).raise 5 5 else s1
  { s2 with house := { s2.house with level := new } }.showLevel

/-- A THROTTLE_REQ event (Table 14-8). -/
def State.throttleReq (s : State) : State :=
  s.post 0x8004 [s.rd HKT_STAT_HOT + s.rd HKT_STAT_T_MAX * 8 + s.throttleR * 2 ^ 19]

/-- The local cap applies: THR = min(THR, R), CAP sets and is raised (R247). -/
def State.applyCap (s : State) : State :=
  let s1 := (((s.wr HKT_STAT_THR_OUT (min (s.rd HKT_STAT_THR_OUT) s.throttleR)).wr HKT_STAT_CAP 1).wr HKT_STAT_GRACE_LEFT_MS 0).bump
    HKT_CNT_CAPS
  { s1 with house := { s1.house with graceOver := true } }.raise 5 6

/-- A tile's throttle in a round, after the levels; `was` is the level before it. -/
def State.throttle (s : State) (was : Nat) : State :=
  if s.house.level = 2 then
    if was ≠ 2 then
      let s1 := { s with house := { s.house with graceOver := false } }.throttleReq
      if s1.rd HKT_STAT_THR_OUT < 65536 ∨ s1.rd HKT_STAT_DFAULT ≠ 0 then s1.applyCap
      else s1.wr HKT_STAT_GRACE_LEFT_MS (s1.rd HKT_THR_GRACE_MS)
    else if s.house.graceOver then s.wr HKT_STAT_THR_OUT (min (s.rd HKT_STAT_THR_OUT) s.throttleR)
    else if s.rd HKT_STAT_DFAULT ≠ 0 then s.applyCap
    else s.wr HKT_STAT_GRACE_LEFT_MS (s.rd HKT_STAT_GRACE_LEFT_MS - 10)
  else if was = 2 then { s with house := { s.house with graceOver := false } }.wr HKT_STAT_GRACE_LEFT_MS 0
  else
    let v := min 65536 (s.rd HKT_STAT_THR_OUT + s.rd HKT_THR_THR_RISE)
    let s1 := s.wr HKT_STAT_THR_OUT v
    if v = 65536 then s1.wr HKT_STAT_CAP 0 else s1

/-- THROTTLE_REQ_REPEAT (R246): every 100 ms while the level is THROTTLE or higher. -/
def execThrottleReqRepeat (s : State) : Outcome State Fault Refusal :=
  .next (if s.isTile = true ∧ 2 ≤ s.rd HKT_STAT_LEVEL then s.throttleReq else s)

/-- GRACE_EXPIRE (R247): the grace that the rounds have counted down ends, at the latest one round after the last of them. -/
def execGraceExpire (s : State) : Outcome State Fault Refusal :=
  .next (if s.isTile = true ∧ s.house.level = 2 ∧ s.house.graceOver = false ∧ s.rd HKT_STAT_GRACE_LEFT_MS ≤ 10 then s.applyCap else s)

/-! ### Thermal shutdown (R245, R250 to R252) -/

/-- HKT.SHUT_STAT as one number. -/
def State.shutStat (s : State) : Nat :=
  s.rd HKT_SHUT_STAT_CAUSE + s.rd HKT_SHUT_STAT_SENSOR * 4 + s.rd HKT_SHUT_STAT_MRAM * 32 + s.rd HKT_SHUT_STAT_FRAME * 128
    + s.rd HKT_SHUT_STAT_VALID * 2 ^ 55

/-- SHUT_STAT.MRAM takes an outcome, where this trip was recorded. -/
def State.shutMram (s : State) (v : Nat) : State := if s.house.recorded then s.wr HKT_SHUT_STAT_MRAM v else s

/-- The record in progress is cut without its marker (R251). -/
def State.cutRecord (s : State) (v : Nat) : State :=
  if s.nvs.recBusy then { s with nvs := { s.nvs with recBusy := false, cuts := s.nvs.cuts + 1 } }.shutMram v else s

/-- The absolute comparator trips after shutdown has begun: MRAM writing stops at once; in thermal STANDBY the sides stop too and
everything but HKT, the ADC and the VAON domain is held in reset. -/
def State.absTrip (s : State) : State :=
  let s1 := s.cutRecord 2
  if s1.house.standby = true ∧ s1.house.absHeld = false then
    let s2 := ((s1.takeDown 0).takeDown 1).holdReset
    { s2 with house := { s2.house with absHeld := true } }
  else s1

/-- A shutdown trip (R250): cause 1 SHUTDOWN comparator, 2 ADC, 3 absolute comparator. -/
def State.thermalTrip (s : State) (cause k : Nat) : State :=
  if s.house.shut then (if cause = 3 then s.absTrip else s)
  else
    let fresh := !s.on HKT_SHUT_STAT_VALID
    let s1 := { s with house := { s.house with shut := true, standby := false, absHeld := false, cool := 0, recorded := fresh,
                                               prior := s.rd NVS_POWER_STATE },
                       nvs := { s.nvs with ops := [] }, upd := { s.upd with fifo := [], half := false } }
    let s2 := (s1.wr NVS_SAVE_SAVING 0).wr LCP_AGE_STAT_SAVING 0
    let s3 := if fresh then
        ((((s2.wr HKT_SHUT_STAT_CAUSE cause).wr HKT_SHUT_STAT_SENSOR k).wr HKT_SHUT_STAT_MRAM 0).wr HKT_SHUT_STAT_FRAME s.frame).wr
          HKT_SHUT_STAT_VALID 1
      else s2
    let s4 := if s3.isTile then s3.lampsOff whyTHERMAL else s3
    let s5 := ((s4.showLevel.bump HKT_CNT_SHUTDOWN).raise 5 7)
    let s6 := if cause = 2 then (s5.bump HKT_CNT_CMP_MISS).raise 5 10 else s5
    let s7 := s6.post 0x8005 [s6.shutStat]
    if cause = 3 then s7.absTrip else s7

/-- COMPARATOR_TRIP (R245): diode `k`, its absolute comparator or the one at SHUTDOWN. -/
def execComparatorTrip (k : Fin 5) (absolute : Bool) (s : State) : Outcome State Fault Refusal :=
  .next (if s.diodeAbsent k then s else s.thermalTrip (if absolute then 3 else 1) k)

/-- SHUTDOWN_GRACE_END (R251, R252): a record not complete is cut, and the part enters thermal STANDBY. -/
def execShutdownGraceEnd (s : State) : Outcome State Fault Refusal :=
  if s.house.shut = true ∧ s.house.standby = false then
    let s1 := s.cutRecord 3
    let s2 := { s1 with house := { s1.house with standby := true } }
    .next ((s2.wr NVS_POWER_STATE 2).wr NVS_POWER_FRAME s.frame)
  else .next s

/-- A measured valid diode at or above SHUTDOWN with no comparator tripped starts shutdown (R245). -/
def State.adcShutdown (s : State) (r : List Int) : State :=
  if s.house.shut then s
  else match hottest ((List.range 5).filterMap fun k => if s.chValid k (r.getD k 0) then some (r.getD k 0, k) else none) with
    | some (x, k) => if (s.rd HKT_THRESH_SHUTDOWN_C : Int) * 128 ≤ x then s.thermalTrip 2 k else s
    | none => s

/-- Rounds below THROTTLE − 10 °C are counted in thermal STANDBY (R252). -/
def State.coolRound (s : State) (measured : Bool) : State :=
  if s.house.standby then
    let below := measured && decide (s.tMax < ((s.rd HKT_THRESH_THROTTLE_C : Int) - s.rd HKT_THRESH_HYST_C) * 128)
    { s with house := { s.house with cool := if below then min 16 (s.house.cool + 1) else 0 } }
  else s

/-! ### Rounds -/

/-- HOUSEKEEPING_ROUND (R180, R241): the round of a 10 ms wall instant starts; LOAD shows the last one (R263). -/
def execHousekeepingRound (t : Nat) (s : State) : Outcome State Fault Refusal :=
  let s1 := (s.passTo t).taskLoad (t / 65536000)
  .next { s1 with house := { s1.house with roundAt := t } }

/-- What HKT.CH shows of channel `k`: an NTC's resistance in Ω is converted with its R25 and BETA (R241, Table 13-1). -/
def State.chReading (s : State) (k : Nat) (x : Int) : Int :=
  if k = 18 then Config.ntcBeta (10 * s.rd HKT_NTC_R25_0) (s.rd HKT_NTC_BETA_0) x
  else if k = 19 then Config.ntcBeta (10 * s.rd HKT_NTC_R25_1) (s.rd HKT_NTC_BETA_1) x
  else x

/-- HK_ROUND_PUBLISH (R241 to R249, R234, R239): readings of the 20 channels, an NTC's as its resistance in Ω, and the tachometers
of FAN0 and FAN1; `late` names the fan loops whose last computation has not ended. -/
def execHkRoundPublish (measured : List Int) (tach : List Nat) (late : BitVec 8) (s : State) : Outcome State Fault Refusal :=
  let readings := (List.range 20).map fun k => s.chReading k (measured.getD k 0)
  let s1 := s.each (List.range 20) fun s k =>
    (s.wr (HKT_CH_VALUE k) (ofSigned 16 (readings.getD k 0))).wr (HKT_CH_VALID k)
      (b2n (s.chValid k (readings.getD k 0) && (decide (k < 18) || decide (0 < measured.getD k 0))))
  let ns := s.house.roundAt / 65536
  let s2 := (s1.wr HKT_ROUND_SEC (ns / 1000000000)).wr HKT_ROUND_INDEX (ns % 1000000000 / 10000000)
  let s3 := s2.each (List.range 5) fun s k => s.diodeRound k (readings.getD k 0)
  let was := s3.house.level
  let hot := hottest (s3.hotList readings)
  let s4 := match hot with
    | some (x, k) => ((s3.wr HKT_STAT_T_MAX (ofSigned 16 x)).wr HKT_STAT_HOT k).setLevels
    | none => s3
  let s5 := if s4.isTile then s4.throttle was else s4
  let s6 := (s5.adcShutdown readings).coolRound hot.isSome
  .next (s6.each (List.range 8) fun s k =>
    let fan := s.rd (RCE_LOOP_CFG_KIND k) == 2
    if fan && late.toNat.testBit k then (s.sampleLoop k (10000000 * 65536) 0 true).monitor tach k
    else
      let s1 := s.monitor tach k
      if fan then s1.sampleLoop k (10000000 * 65536) 0 false else s1)

/-! ### Thresholds (R243) -/

/-- A write to HKT.THRESH: each field may only fall; a field above its value stays and records LIMIT; a lowered field takes the
preceding thresholds down with it, and WARN stays at 40 °C or above. -/
def State.threshWrite (s : State) (src : Requester) (v : Nat) (more : List WErr) : State :=
  let w := s.rd HKT_THRESH_WARN_C
  let t := s.rd HKT_THRESH_THROTTLE_C
  let h := s.rd HKT_THRESH_SHUTDOWN_C
  let rw := HKT_THRESH_WARN_C.of v
  let rt := HKT_THRESH_THROTTLE_C.of v
  let rh := HKT_THRESH_SHUTDOWN_C.of v
  let low (cur r : Nat) : Nat := min cur (if cur < r then cur else max 40 r)
  let h1 := low h rh
  let t1 := min (low t rt) h1
  let w1 := min (low w rw) t1
  let above : List WErr := (if w < rw then [⟨errLIMIT, rw⟩] else []) ++ (if t < rt then [⟨errLIMIT, rt⟩] else [])
    ++ (if h < rh then [⟨errLIMIT, rh⟩] else [])
  let clamp : List WErr := (if rw ≤ w ∧ rw < 40 then [⟨errCLAMP, rw⟩] else []) ++ (if rt ≤ t ∧ rt < 40 then [⟨errCLAMP, rt⟩] else [])
    ++ (if rh ≤ h ∧ rh < 40 then [⟨errCLAMP, rh⟩] else [])
    ++ (if t1 < low t rt then [⟨errCLAMP, rh⟩] else []) ++ (if w1 < low w rw then [⟨errCLAMP, t1⟩] else [])
  let s1 := ((s.wr HKT_THRESH_WARN_C w1).wr HKT_THRESH_THROTTLE_C t1).wr HKT_THRESH_SHUTDOWN_C h1
  let rsv := v - (v &&& s.coverMask 5 0x80)
  s1.captureAll 5 src 0x80 (more ++ above ++ clamp ++ (if rsv != 0 then [⟨errRSV, v⟩] else []))

/-! ### Self-Trim (R253 to R255) -/

/-- Range of a target's delta (Table 13-4). -/
def trimRange (target : Nat) : Int × Int := if target < 2 then (-64, 63) else (-32, 31)

/-- A value is staged for the next tick whose latch point is still ahead; the later one of an item takes the place of an earlier
one for the same tick (R254, R255). -/
def State.stageTrim (s : State) (key : Nat) (v : BitVec 8) : State :=
  { s with house := { s.house with staged := s.house.staged.filter (fun e => !(e.key == key && e.late == s.latchDone)) ++ [⟨key, v, s.latchDone⟩] } }

/-- A refused result: the old value stays (R253). -/
def State.trimRefused (s : State) : State := (s.bump STR_CNT_REFUSED).raise 6 5

/-- What a PHY result asks for: bit 7 tells the phase, the low bits the new setting; none where the setting does not move. -/
def State.phyTrim (s : State) (sd l : Nat) (r : TrimResult) : Option (Option Nat) :=
  if 5 ≤ l ∨ s.laneUp sd l = false ∨ r.gain < s.rd STR_LIM_EYE_GAIN ∨ r.step = 0 then none
  else
    let d : Int := if r.step < 0 then -1 else 1
    if r.pos = 0 then
      let v : Int := (s.rd (QP_LANE_STAT_PEAK sd l) : Int) + d
      some (if v < 0 ∨ 31 < v then none else some v.toNat)
    else some (some (128 + ofSigned 6 ((s.rd (QP_LANE_STAT_PHASE sd l) : Int) + d)))

/-- TRIM_CYCLE (R249, R253 to R255): the cycle of one item ends; its result is skipped, refused, discarded as stale or staged. -/
def execTrimCycle (r : TrimResult) (s : State) : Outcome State Fault Refusal :=
  let tg := r.target.toNat
  let key := trimKey tg (if tg = 3 then r.die.toNat % 2 else r.die.toNat) r.index.toNat
  if s.blkOn 6 = false ∨ (s.rd STR_CTRL_EN).testBit tg = false ∨ (tg < 3 ∧ s.on (DRV_STAT_PRESENT r.die.toNat) = false) then .next s
  else if 2 ≤ s.rd HKT_STAT_LEVEL then .next (s.bump STR_CNT_SKIPPED)
  else
    let accept (v : BitVec 8) : State :=
      if s.house.hostAt.any fun e => e.1 == key && decide (r.startedAt < e.2) then (s.bump STR_CNT_STALE).raise 6 6
      else s.stageTrim key v
    if 5 < r.tempMovedC then .next s.trimRefused
    else if tg = 3 then
      match s.phyTrim (r.die.toNat % 2) r.index.toNat r with
      | none => .next s
      | some none => .next s.trimRefused
      | some (some v) => .next (accept (BitVec.ofNat 8 v))
    else
      let few := if tg < 2 then decide (r.pos + r.neg < s.rd STR_LIM_MIN_SAMP) else decide (r.edges < s.rd STR_LIM_MIN_EDGES)
      let e := if tg < 2 then nearest (16 * ((r.neg : Int) - r.pos)) (r.pos + r.neg) else Config.dlyStep r.pos (16 * 256 * r.index.toNat)
      let big := decide ((if tg = 0 then s.rd STR_LIM_MAX_STEP_HI else if tg = 1 then s.rd STR_LIM_MAX_STEP_LO
        else s.rd STR_LIM_MAX_STEP_DLY) < e.natAbs)
      let v := (s.house.trim.get key).toInt + e
      if few || big || decide (v < (trimRange tg).1) || decide ((trimRange tg).2 < v) then .next s.trimRefused
      else .next (accept (BitVec.ofInt 8 v))

/-- A write to STR.DATA stages a delta, clamped to its range; PHY values are read-only (R255). -/
def State.trimDataWrite (s : State) (src : Requester) (v : Nat) (t : Nat) : State :=
  let tg := s.rd STR_IDX_TARGET
  if tg = 3 then s
  else
    let x := toSigned 8 v
    let y := max (trimRange tg).1 (min (trimRange tg).2 x)
    let key := s.trimIdx
    let s1 := s.stageTrim key (BitVec.ofInt 8 y)
    let s2 := { s1 with house := { s1.house with hostAt := (key, t) :: s1.house.hostAt.filter (fun e => !(e.1 == key)) } }
    if x = y then s2 else s2.capture 6 errCLAMP src 0x98 (v % 256)

/-- One staged value applies at tick `n` (R254). -/
def State.applyTrim (s : State) (n : Nat) (e : Staged) : State :=
  let tg := e.key / 2048
  let die := e.key / 512 % 4
  let idx := e.key % 512
  let s1 := if tg = 3 then
      (if e.val.toNat < 128 then s.wr (QP_LANE_STAT_PEAK die idx) e.val.toNat else s.wr (QP_LANE_STAT_PHASE die idx) (e.val.toNat - 128))
    else { s with house := { s.house with trim := s.house.trim.set e.key e.val } }
  let shown := if tg = 3 then s1.rd (QP_LANE_STAT_PEAK die idx) else e.val.toNat
  let ns := s.tickTime n / 65536
  let s2 := (((s1.bump STR_STAT_TRIM_COUNT).bump (STR_TCNT_APPLIED tg)).wr STR_TRIM_LAST_NS (ns % 1000000000)).wr STR_TRIM_LAST_SEC
    (ns / 1000000000)
  let s3 := if s2.isSender then s2 else s2.recWriteAt n 5 0 [tg + die * 4 + idx * 16 + shown * 2 ^ 13]
  s3.raise 6 4

/-- The tick's part: values staged before its latch point apply together; a held tick applies nothing (R176, R254). -/
def State.trimTick (s : State) (n : Nat) (held : Bool) : State :=
  let l := s.house.staged
  if held then { s with house := { s.house with staged := l.map fun e : Staged => { e with late := false } } }
  else
    let s1 := { s with house := { s.house with staged := (l.filter fun e : Staged => e.late).map fun e : Staged => { e with late := false } } }
    s1.each (l.filter fun e : Staged => !e.late) fun s e => s.applyTrim n e

/-- The die temperatures and the throttle factor are latched at the tick (R193). -/
def State.latchTemps (s : State) : State :=
  (s.each (List.range 4) fun s d => s.wr (LCP_TLATCH_T d) (s.dieTemp d)).wr LCP_STAT_THR (s.rd HKT_STAT_THR_OUT)

end Sys2Proof.Machine
end

