-- ==== Sys2Proof/Machine/Control.lean ====
section
/-! DEFINITION. Queues, the mailbox, scheduled commits, events, policy tables and the scheduler trace (spec/14_control_plane.md,
and R24 of spec/01_architecture.md). -/

namespace Sys2Proof.Machine

open Host

/-! ### Queues as the host drives them (R259 to R262) -/

/-- The entries of a queue from HEAD on. -/
def State.qEntries (s : State) (q : Nat) : List Word72 :=
  let v := s.queue q
  (List.range v.used).map fun i => s.qEntry v (v.head + i)

/-- The first complete message of a list of entries, its length with what precedes it, and its entries (R259). -/
def firstMessage (l : List Word72) : Option (Nat × List Word72) :=
  let a := l.takeWhile fun w => !w.toNat.testBit 71
  match (l.drop a.length).findIdx? fun w => w.toNat.testBit 70 with
  | some i => some (a.length + i + 1, (l.drop a.length).take (i + 1))
  | none => none

/-- Firmware takes the request at the head of queue 0x000, if one stands there (R266). -/
def State.takeRequest (s : State) : State :=
  match firstMessage (s.qEntries 0) with
  | some (n, _) => let v := s.queue 0; s.qSetHead 0 ((v.head + n) % (2 * v.size))
  | none => s

/-- The codes of Tables 14-4, 15-8, 17-5 and 18-3; any other receives BAD_CMD (R266). -/
def listedCmd (c : Nat) : Bool :=
  [0x01, 0x02, 0x10, 0x11, 0x20, 0x21, 0x30, 0x40, 0x41, 0x50, 0x60, 0x80, 0x81, 0x82, 0x90, 0x91, 0x92, 0x93, 0x98].contains c ||
    decide (0x70 ≤ c ∧ c < 0x79)

/-- Requests with a code not listed at the head of queue 0x000 are taken and answered BAD_CMD on the host's reply queue. -/
def State.badRequests : Nat → State → State
  | 0, s => s
  | n + 1, s =>
    match firstMessage (s.qEntries 0) with
    | some (_, m) =>
      let h := (m.getD 0 0).toNat
      if listedCmd (bitsOf h 15 0) then s
      else State.badRequests n (s.takeRequest.respond ⟨BitVec.ofNat 18 (s.node * 4096 + 1), BitVec.ofNat 12 (bitsOf h 27 16)⟩ (bitsOf h 15 0)
        stBAD_CMD [])
    | none => s

/-- Requests that firmware holds (R266). -/
def State.heldReqs (s : State) : Nat :=
  s.ctl.coords.length + b2n (s.nvs.power.bind PowerReq.req).isSome + b2n s.recd.replayReq.isSome
    + b2n (s.upd.coord.bind Coord.req).isSome
    + b2n (s.upd.confirming.bind Confirming.req).isSome
    + (s.arb.foldl (fun a x => a + x.held.length + b2n (x.reh.bind Reh.req).isSome) 0)

/-- A control core has taken a request of the mailbox and answered the malformed ones behind it. -/
def State.taken (s : State) : State := State.badRequests (s.takeRequest.queue 0).used s.takeRequest

/-- A mailbox request: beyond 16 held it receives BUSY at once (R266). -/
def State.mailbox (s : State) (r : Req) (cmd : Nat) (f : State → State) : Outcome State Fault Refusal :=
  .next (if 16 ≤ s.taken.heldReqs then s.taken.respond r cmd stBUSY [] else f s.taken)

/-- A mailbox request that sender firmware sends to a node's queue 0x000. -/
def State.askNode (s : State) (node cmd : Nat) (r : Req) (body : List Nat) : State :=
  (s.sendMessage (node * 4096) r.reply.toNat r.id.toNat (frameMsg ((cmd + r.id.toNat * 2 ^ 16) :: body))).1

/-- The nodes of a mask. -/
def nodesOf (m : Nat) : List Nat := (List.range 64).filter fun t => m.testBit t

/-- A message posted to queue 0x001 or 0x002 raises MBX_RSP or EVENT. -/
def State.noteHostQueue (s : State) (q : Nat) : State :=
  if q = 1 then s.raise 2 4 else if q = 2 then s.raise 2 5 else s

/-- A message is taken whole by a local queue, or discarded and counted in FULL (R262). Answers whether it was taken. -/
def State.deliver (s : State) (q : Nat) (ws : List Word72) : State × Bool :=
  if s.qRoom q ws.length then ((s.qPush q ws).noteHostQueue q, true) else (s.bump QEN_CNT_FULL, false)

/-- A message comes back to its reply queue as a mailbox response with NO_PATH or FULL (R262). -/
def State.proxyNak (s : State) (reply : Nat) (ws : List Word72) (status : Nat) : State :=
  let h := (ws.getD 0 0).toNat
  ((s.bump QEN_CNT_PROXY_NAK).raise 2 7).respond ⟨BitVec.ofNat 18 reply, BitVec.ofNat 12 (bitsOf h 27 16)⟩ (bitsOf h 15 0) status []

/-- PROXY_SEND (R262): the routing entry is stripped and the rest goes to DST_QN. -/
def State.proxySend (s : State) (msg : List Word72) : State :=
  let h := (msg.getD 0 0).toNat
  let dst := bitsOf h 17 0
  let reply := bitsOf h 35 18
  let ws := frameMsg ((msg.drop 1).map BitVec.toNat)
  let s1 := s.bump QEN_CNT_PROXY_TX
  if dst / 4096 = s1.node then
    let r := s1.deliver (dst % 4096) ws
    if r.2 then r.1 else r.1.proxyNak reply ws stFULL
  else
    let r := s1.sendMessage dst reply (bitsOf (ws.getD 0 0).toNat 27 16) ws
    if r.2 then r.1 else r.1.proxyNak reply ws stNO_PATH

/-- The proxy-out queue forwards its complete messages, in order. -/
def State.proxyDrain : Nat → State → State
  | 0, s => s
  | n + 1, s =>
    match firstMessage (s.qEntries 3) with
    | some (k, m) =>
      let v := s.queue 3
      State.proxyDrain n ((s.qSetHead 3 ((v.head + k) % (2 * v.size))).proxySend m)
    | none => s

/-- A doorbell (R260): TAIL moves, at most to a full ring past HEAD. -/
def State.doorbellAt (s : State) (src : Requester) (q tail : Nat) : State :=
  let v := s.queue q
  if (q ≠ 0 ∧ q ≠ 3) ∨ v.valid = false then s.capture 2 errBUSY src 0x88 (q + tail * 4096)
  else
    let n := (tail + 2 * v.size - v.head % (2 * v.size)) % (2 * v.size)
    let s1 := if v.size < n then
        (s.qSetTail q ((v.head + v.size) % (2 * v.size))).capture 2 errCLAMP src 0x88 tail
      else s.qSetTail q (tail % (2 * v.size))
    if q = 3 then State.proxyDrain (s1.queue 3).used s1 else State.badRequests (s1.queue 0).used s1

/-- A consume (R260): HEAD moves, at most to TAIL. -/
def State.consumeAt (s : State) (src : Requester) (q head : Nat) : State :=
  let v := s.queue q
  if (q ≠ 1 ∧ q ≠ 2) ∨ v.valid = false then s.capture 2 errBUSY src 0x90 (q + head * 4096)
  else
    let n := (head + 2 * v.size - v.head % (2 * v.size)) % (2 * v.size)
    if v.used < n then (s.qSetHead q v.tail).capture 2 errCLAMP src 0x90 head else s.qSetHead q (head % (2 * v.size))

/-- PROXY_MESSAGE_RECEIVE (R262). -/
def execProxyMessageReceive (dst : BitVec 12) (srcQn : BitVec 18) (id : BitVec 12) (body : List Word) (s : State) :
    Outcome State Fault Refusal :=
  let ws := frameMsg (body.map BitVec.toNat)
  let cmd := (ws.getD 0 0).toNat % 65536
  let r := s.deliver dst.toNat ws
  .next (if r.2 then
      (if dst = 0 ∧ (s.queue 0).used = 0 ∧ listedCmd cmd = false then r.1.takeRequest.respond ⟨srcQn, id⟩ cmd stBAD_CMD [] else r.1)
    else r.1.respond ⟨srcQn, id⟩ ((ws.getD 0 0).toNat % 65536) stFULL [])

/-- EVT_OVERFLOW (R261): space has returned in queue 0x002, and one event carries the count lost. -/
def execEvtOverflow (q : BitVec 12) (s : State) : Outcome State Fault Refusal :=
  if q.toNat = 2 ∧ 0 < s.ctl.lost ∧ s.qRoom 2 3 = true then
    .next ({ s with ctl := { s.ctl with lost := 0 } }.post 0x800B [min s.ctl.lost 65535])
  else .next s

/-! ### Scheduler trace (R265) -/

/-- TRACE.UNFREEZE (R265). -/
def State.traceGo (s : State) : State := s.wr CCC_TRACE_STAT_FROZEN 0

/-! ### Plain mailbox commands (Table 14-4) -/

/-- INFO: firmware version, colophon sequence, role, node, ring. -/
def execInfo (r : Req) (s : State) : Outcome State Fault Refusal :=
  s.mailbox r 0x0001 fun s => match s.upd.running with
    | some c => s.respond r 0x0001 stOK [c.fwVer.toNat, c.seq.toNat, s.role, s.node, s.ring]
    | none => (s.respond r 0x0001 stOK [s.free % 2 ^ 32, s.drawn.free, s.role, s.node, s.ring]).drawn.drawn

/-- ECHO. -/
def execEcho (r : Req) (words : List Word) (s : State) : Outcome State Fault Refusal :=
  s.mailbox r 0x0002 fun s => s.respond r 0x0002 stOK (words.map BitVec.toNat)

/-- EVENT_MASK. -/
def execEventMask (r : Req) (mask : Word) (s : State) : Outcome State Fault Refusal :=
  s.mailbox r 0x0050 fun s => { s with evtMask := mask }.respond r 0x0050 stOK []

/-- The words of a list of 72-bit words in entries of 64 bits: bits [63:0], then [71:64] (notes/assumptions/60.md). -/
def splitWords (l : List Word72) : List Nat := l.flatMap fun w => [w.toNat % 2 ^ 64, w.toNat / 2 ^ 64]

/-- LEDGER_READ (R295): the records from a start index to the newest. -/
def execLedgerRead (r : Req) (start : BitVec 12) (s : State) : Outcome State Fault Refusal :=
  s.mailbox r 0x0060 fun s =>
    let p := s.rd NVS_LEDGER_WPTR
    let n := (p + 4096 - start.toNat) % 4096
    let n := if n = 0 ∧ s.on NVS_LEDGER_WRAPPED = true then 4096 else n
    s.respond r 0x0060 stOK (splitWords ((List.range n).map fun i => s.nvs.ledger.get ((start.toNat + i) % 4096)))

/-! ### Scheduled commits (R24, R267) -/

/-- Whether the latch point of tick `n` has passed. -/
def State.latchPast (s : State) (n : Nat) : Bool := decide (n ≤ s.frame) || (s.latchDone && n == s.frame + 1)

/-- This node holds a scheduled commit. -/
def State.holdSched (s : State) (r : Req) (n pages : Nat) : State :=
  { s with commits := { s.commits with sched := s.commits.sched ++ [⟨n, pages, r⟩] } }

/-- This node drops the commits it holds for a target. -/
def State.dropSched (s : State) (n : Nat) : State :=
  { s with commits := { s.commits with sched := s.commits.sched.filter fun e => !(e.frame == n) } }

/-- SCHED_COMMIT_ARM (R24): a node holds the commit and answers ARMED, or refuses it with LATE. -/
def execSchedCommitArm (r : Req) (frame : BitVec 48) (pages : Word) (s : State) : Outcome State Fault Refusal :=
  let n := frame.toNat
  s.mailbox r 0x0010 fun s =>
    if s.latchPast n then s.respond r 0x0010 stLATE [0]
    else (s.holdSched r n pages.toNat).respond r 0x0010 stARMED [2 ^ s.node]

/-- A CANCEL that comes at or after the latch point marks the pages the commit named and posts LATE_APPLY (R24). Of two commits held for
one target it reports the first one's pages, which is the model's choice (notes/assumptions/62.md). -/
def State.lateCancel (s : State) (n : Nat) : State :=
  match s.ctl.past.find? fun e => e.frame == n with
  | some e =>
    let s1 := s.each (nodesOf e.pages) fun s p => if pageHasRws p then s.wr (SHD_STAT_CANCELLED p) 1 else s
    s1.post 0x800D [n, e.pages % 2 ^ 44]
  | none => s

/-- CANCEL_RECEIVE (R24). -/
def execCancelReceive (r : Req) (frame : BitVec 48) (s : State) : Outcome State Fault Refusal :=
  let n := frame.toNat
  s.mailbox r 0x0011 fun s =>
    if s.latchPast n then (s.lateCancel n).respond r 0x0011 stLATE [0]
    else
      let held := s.commits.sched.any fun e => e.frame == n
      (s.dropSched n).respond r 0x0011 stCANCELLED [if held then 2 ^ s.node else 0]

/-- A coordinated commit whose named nodes have all armed is answered ARMED. -/
def State.settleSched (s : State) : State :=
  let whole (c : SchedCoord) : Bool := c.nodes &&& c.armed == c.nodes
  { s with ctl := { s.ctl with coords := s.ctl.coords.filter fun c => !whole c } }.each (s.ctl.coords.filter whole) fun s c =>
    s.respond c.req 0x0010 stARMED [c.armed]

/-- SCHED_COMMIT (R267): a sender with a node mask coordinates; otherwise the node schedules its own commit. -/
def execSchedCommit (r : Req) (frame : BitVec 48) (pages nodes : Word) (s : State) : Outcome State Fault Refusal :=
  let n := frame.toNat
  let m := nodes.toNat
  s.mailbox r 0x0010 fun s =>
    if s.isSender = true ∧ n < s.frame + 2 then s.respond r 0x0010 stLATE [0]
    else if s.isSender = false ∨ m = 0 then
      if s.latchPast n then s.respond r 0x0010 stLATE [0]
      else (s.holdSched r n pages.toNat).respond r 0x0010 stARMED [2 ^ s.node]
    else
      let own := m.testBit s.node
      let s1 := if own then s.holdSched r n pages.toNat else s
      let s2 := s1.each (nodesOf m) fun s t =>
        if t = s.node then s else s.askNode t 0x0010 r [n, pages.toNat, 0]
      { s2 with ctl := { s2.ctl with coords := s2.ctl.coords ++ [(⟨r, n, pages.toNat, m, if own then 2 ^ s2.node else 0⟩ : SchedCoord)] } }.settleSched

/-- SCHED_ARMED_RECEIVE (R267): a named node's ARMED reaches the coordinator; it counts for the oldest commit that waits for it. -/
def execSchedArmedReceive (node : BitVec 6) (s : State) : Outcome State Fault Refusal :=
  let t := node.toNat
  match s.ctl.coords.findIdx? fun c => c.nodes.testBit t && !c.armed.testBit t with
  | some i =>
    .next { s with ctl := { s.ctl with coords := s.ctl.coords.modify i fun c => { c with armed := c.armed + 2 ^ t } } }.settleSched
  | none => .next s

/-- CANCEL goes to every node of a mask; this node drops its own. -/
def State.cancelNodes (s : State) (r : Req) (n m : Nat) : State :=
  s.each (nodesOf m) fun s t => if t = s.node then s.dropSched n else s.askNode t 0x0011 r [n, 0]

/-- SCHED_COMMIT_DEADLINE (R24, R267): at the latch point of tick n − 1 a commit not wholly armed is cancelled everywhere. -/
def execSchedCommitDeadline (s : State) : Outcome State Fault Refusal :=
  let due (c : SchedCoord) : Bool := s.latchPast (c.frame - 1)
  .next ({ s with ctl := { s.ctl with coords := s.ctl.coords.filter fun c => !due c } }.each (s.ctl.coords.filter due) fun s c =>
    (s.cancelNodes c.req c.frame c.nodes).respond c.req 0x0010 stCANCELLED [c.armed])

/-- SCHED_CANCEL (R267): LATE at or after the latch point of the target; otherwise CANCEL goes out. Which other nodes discarded
the commit is a free value: no row of the table brings their answers. -/
def execSchedCancel (r : Req) (frame : BitVec 48) (nodes : Word) (s : State) : Outcome State Fault Refusal :=
  let n := frame.toNat
  let m := nodes.toNat
  s.mailbox r 0x0011 fun s =>
    let held := s.commits.sched.any fun e => e.frame == n
    let own := if held then 2 ^ s.node else 0
    if s.latchPast n then
      (if s.isSender = false ∨ m = 0 ∨ m.testBit s.node = true then s.lateCancel n else s).respond r 0x0011 stLATE [0]
    else if s.isSender = false ∨ m = 0 then (s.dropSched n).respond r 0x0011 stOK [own]
    else
      let s1 := s.cancelNodes r n m
      let s2 := { s1 with ctl := { s1.ctl with coords := s1.ctl.coords.filter fun c => !(c.frame == n) } }
      let others := s2.free &&& (m - (m &&& 2 ^ s.node))
      s2.drawn.respond r 0x0011 stOK [others + (if m.testBit s.node then own else 0)]

/-- Latch point of tick `n`: a scheduled commit applies as if accepted just before it (R24). -/
def State.schedLatch (s : State) (n : Nat) : State :=
  let due := s.commits.sched.filter fun e => decide (e.frame ≤ n)
  let s1 := due.foldl (fun s e => s.each ((nodesOf e.pages).filter pageHasRws) fun s p => s.acceptCommit p n) s
  { s1 with commits := { s1.commits with sched := s1.commits.sched.filter fun e => !decide (e.frame ≤ n) },
            ctl := { s1.ctl with past := s1.ctl.past ++ due } }

/-! ### Policy tables (R31, R270, Table 14-6) -/

/-- The body length of a policy table, in words; none for an ID that Table 14-6 does not list. -/
def policyLen (id : Nat) : Option Nat :=
  if id = 1 then some 1 else if id = 2 then some 2 else if id = 3 then some 5121 else if id = 4 then some 1
  else if id = 5 then some 3 else if id = 6 then some 48 else none

/-- The register values a policy table gives: page, offset, and the whole value, for the registers it fills whole. -/
def policyRegs (p : PolicyTable) : List (Nat × Nat × Nat) :=
  let w (i : Nat) : Nat := (p.body.getD i 0).toNat
  if p.id = 1 then [(0x21, 0x90, w 0)]
  else if p.id = 2 then [(5, 0x88, w 0)]
  else if p.id = 5 then [(0x23, 0x90, w 0), (0x23, 0x80, w 1), (6, 0x80, w 2)]
  else if p.id = 6 then (List.range 8).flatMap fun k => [(7, 0x108 + 0x80 * k, w (6 * k)), (7, 0x110 + 0x80 * k, w (6 * k + 1)),
    (7, 0x118 + 0x80 * k, w (6 * k + 2)), (7, 0x120 + 0x80 * k, w (6 * k + 3)), (7, 0x128 + 0x80 * k, w (6 * k + 4)),
    (7, 0x140 + 0x80 * k, w (6 * k + 5))]
  else []

/-- The single fields a policy table gives: the field and its value. -/
def policyFlds (p : PolicyTable) : List (Fld × Nat) :=
  let w := (p.body.getD 0 0).toNat
  if p.id = 3 then [(LCP_AGE_AGE_K, w % 2 ^ 32)]
  else if p.id = 4 then [(ARB_CFG_ARBITER 0, bitsOf w 5 0), (ARB_CFG_ARBITER 1, bitsOf w 5 0), (ARB_CFG_PREF 0, bitsOf w 6 6),
    (ARB_CFG_PREF 1, bitsOf w 6 6), (ARB_REH_INTERVAL_H, bitsOf w 31 16)]
  else []

/-- The fields and 64-bit values of a table that are written in this role. -/
def State.policyWrites (s : State) (p : PolicyTable) : List (Fld × Nat) :=
  let whole : List (Fld × Nat) :=
    (policyRegs p).flatMap fun e : Nat × Nat × Nat => (regFields e.1 e.2.1).map fun f => (f, e.2.2)
  let single : List (Fld × Nat) := (policyFlds p).map fun e : Fld × Nat => (e.1, e.2 * 2 ^ e.1.lo)
  (whole ++ single).filter fun e : Fld × Nat => pageActive s.role e.1.page && (e.1.acc == .rws || e.1.acc == .rw)

/-- A value of a table beyond a limit is clamped and recorded in its page, which raises its event (R12, R31). -/
def State.noteClamps (s : State) (ws : List (Fld × Nat)) : State :=
  s.each (ws.filter fun e => s.legal e.1 e.2 != e.1.of e.2) fun s e => s.captureInt e.1.page errCLAMP (e.1.of e.2)

/-- Whether a value of the table lies beyond a limit (R31). -/
def State.policyClamps (s : State) (p : PolicyTable) : Bool := (s.policyWrites p).any fun e => s.legal e.1 e.2 != e.1.of e.2

/-- At the latch point of its tick, a table's shadowed fields are written and their pages committed; an AGING table is loaded into
the inactive bank and AGE_BANK is committed. -/
def State.policyCommit (s : State) (n : Nat) (p : PolicyTable) : State :=
  let ws := (s.policyWrites p).filter fun e => e.1.acc == .rws
  let s1 := (s.noteClamps ws).each ws fun s e => s.wrShadow e.1 (s.legal e.1 e.2)
  let s2 := if p.id = 3 ∧ s.hasPixels = true then
      let b := 1 - s1.rd LCP_CFG_AGE_BANK
      let bank := 0x141000 + b * 0x1400
      (s1.each ((p.body.drop 1).zipIdx) fun s e => s.setTable (bank + e.2) (BitVec.ofNat 72 e.1.toNat)).wrShadow LCP_CFG_AGE_BANK b
    else s1
  let pages := (ws.map fun e => e.1.page) ++ (if p.id = 3 ∧ s.hasPixels = true then [0x21] else [])
  s2.each pages.dedup fun s pg => s.acceptCommit pg n

/-- The latch point's part (R270). -/
def State.policyLatch (s : State) (n : Nat) : State :=
  s.each ((s.nvs.policyNext.filter fun e => decide (e.2 ≤ n)).map Prod.fst) fun s p => s.policyCommit n p

/-- A table takes its place among those in force. -/
def putPolicy (l : List PolicyTable) (p : PolicyTable) : List PolicyTable := l.filter (fun q => !(q.id == p.id)) ++ [p]

/-- At its tick a table is in force, and its other fields are written (R270). -/
def State.policyApply (s : State) (p : PolicyTable) : State :=
  let ws := (s.policyWrites p).filter fun e => e.1.acc == .rw
  let s1 := (s.noteClamps ws).each ws fun s e =>
    let y := s.legal e.1 e.2
    (s.wr e.1 y).when (e.1.ret == .m && y != s.rd e.1) fun s => s.markDirty 0
  { s1 with nvs := { s1.nvs with policy := putPolicy s1.nvs.policy p } }

/-- The tick's part. -/
def State.policyTick (s : State) (n : Nat) : State :=
  let due := s.nvs.policyNext.filter fun e => decide (e.2 ≤ n)
  { s with nvs := { s.nvs with policyNext := s.nvs.policyNext.filter fun e => !decide (e.2 ≤ n) } }.each (due.map Prod.fst)
    fun s p => s.policyApply p

/-- Whether a table's ID, length and CRC are good (R270). -/
def policyGood (p : PolicyTable) : Bool :=
  policyLen p.id.toNat == some p.length.toNat && p.body.length == p.length.toNat &&
  p.crc.toNat == crc32 (p.body.flatMap fun w => leBytes 8 w.toNat)

/-- A table is accepted here: it goes to MRAM, and applies at the first tick whose latch point follows; a sender gives BRIGHT to its
ring by a scheduled commit for that tick. -/
def State.takePolicy (s : State) (p : PolicyTable) : State :=
  let s1 := { s with nvs := { s.nvs with policyNext := s.nvs.policyNext ++ [(p, s.commitTarget)] } }.markDirty 2
  s1.when (s.isSender && p.id == 1) fun t => t.dimRing ((p.body.getD 0 0).toNat % 2 ^ 34) s.commitTarget

/-- POLICY_LOAD (R270). -/
def execPolicyLoad (r : Req) (nodes : Word) (p : PolicyTable) (s : State) : Outcome State Fault Refusal :=
  let m := nodes.toNat
  s.mailbox r 0x0020 fun s =>
    if policyGood p = false then s.respond r 0x0020 stBAD_ARG []
    else
      let own : Bool := !s.isSender || m == 0 || m.testBit s.node
      let s1 := if own then s.takePolicy p else s
      let s2 := if s.isSender then s1.each ((nodesOf m).filter (· != s.node)) fun s t =>
          s.askNode t 0x0020 r ([0, p.id.toNat + p.version.toNat * 65536 + p.length.toNat * 2 ^ 32]
            ++ p.body.map BitVec.toNat ++ [p.crc.toNat])
        else s1
      s2.respond r 0x0020 (if own && s.policyClamps p then stCLAMPED else stOK) [s.commitTarget]

/-- POLICY_READ: the table in force, with its header and trailer; BAD_ARG for an ID that is not listed or has none in force. -/
def execPolicyRead (r : Req) (id : BitVec 16) (s : State) : Outcome State Fault Refusal :=
  s.mailbox r 0x0021 fun s => match s.nvs.policy.find? fun p => p.id == id with
    | some p => s.respond r 0x0021 stOK ([p.id.toNat + p.version.toNat * 65536 + p.length.toNat * 2 ^ 32]
        ++ p.body.map BitVec.toNat ++ [p.crc.toNat])
    | none => s.respond r 0x0021 stBAD_ARG []

end Sys2Proof.Machine
end

