-- ==== Sys2Proof/Machine/Redundancy.lean ====
section
/-! DEFINITION. Redundant senders: epochs, kettles, the arbiter tile, failover, swaps and rehearsal
(spec/15_redundancy.md). -/

namespace Sys2Proof.Machine

open Host

/-- A side's redundancy state. A tile uses index 0 (R286). -/
def State.arbSide (s : State) (sd : Nat) : ArbSide := s.arb.getD sd ArbSide.reset
def State.setArb (s : State) (sd : Nat) (x : ArbSide) : State := { s with arb := s.arb.set sd x }

/-- The index of a side: 0 in TILE role. -/
def State.arbIdx (s : State) (sd : Nat) : Nat := if s.isSender then sd else 0

/-- µs and ms in units of 2^-16 ns. -/
def usT (n : Nat) : Nat := n * 1000 * 65536
def msT (n : Nat) : Nat := n * 1000000 * 65536

/-- The node an epoch names (R271). -/
def epochNode (e : Nat) : Nat := if e % 2 = 0 then 0 else 63

/-- Whether the epoch held on a side names this sender. -/
def State.named (s : State) (sd : Nat) : Bool := epochNode (s.rd (ARB_EPOCH_EPOCH sd)) == s.nodeOn sd

/-! ### Epochs (R271 to R274) -/

/-- An armed node whose held epoch changes before its tick disarms and posts DISARMED (R312, Table 17-7). -/
def State.disarm (s : State) : State :=
  if s.rd UPD_ACT_STATE = 2 then
    ((s.wr UPD_ACT_STATE 1).wr UPD_ACT_PEND 0).post 0x800C
      [3 + s.rd UPD_STAGE_STATE * 2 ^ 23 + 1 * 2 ^ 26 + s.rd UPD_ACT_NO_NUMBER * 2 ^ 32, s.upd.actCid]
  else s

/-- A node takes a higher epoch at once: EPOCH, APPLY and EPOCH_NEW (R272, R274). Between an activation tick and RELIGHT a node
keeps its epoch (R313). -/
def State.adoptEpoch (s : State) (i e issuer reason apply : Nat) : State :=
  let held := s.rd (ARB_EPOCH_EPOCH i)
  if s.suspended then s
  else if held < e then
    let s1 := ((((s.wr (ARB_EPOCH_EPOCH i) e).wr (ARB_EPOCH_ISSUER i) issuer).wr (ARB_EPOCH_REASON i) reason).wr (ARB_EPOCH_ACTIVE i)
      (epochNode e)).when s.isSender fun s => s.markDirty 0
    let f := if apply ≤ s.frame then s.frame + 1 else apply
    (((s1.wr (ARB_APPLY_FRAME i) f).wr (ARB_APPLY_PEND i) 1).raise 9 4).disarm
  else if e < held then (s.bump (ARB_CNT_STALE i)).raise 9 14
  else if s.rd (ARB_EPOCH_REASON i) = 0 ∧ reason ≠ 0 then
    ((s.wr (ARB_EPOCH_ISSUER i) issuer).wr (ARB_EPOCH_REASON i) reason).when s.isSender fun s => s.markDirty 0
  else s

/-- A new epoch is issued: it is the held epoch plus 1; an EPOCH folio goes out on every side that is up, and over Ethernet from
a sender (R273). -/
def State.issueEpoch (s : State) (i e reason apply : Nat) : State :=
  let node := if s.isSender then s.nodeOn i else s.node
  let ring := s.rd (QLK_TOPO_RING i)
  let ws := [0x98 * 2 ^ 64 + e + node * 2 ^ 32 + ring * 2 ^ 38 + reason * 2 ^ 44, 0x99 * 2 ^ 64 + apply]
  let s1 := ((s.adoptEpoch i e node reason apply).bumpM (ARB_CNT_GRANTS i)).sendSides 8 ws
  if s.isSender then s1.sendEther 8 ring ws else s1

/-- EPOCH_RECEIVE (R272, R274): an EPOCH folio or datagram of this node's ring. -/
def execEpochReceive (sd : Fin 2) (via : Via) (words : List Word72) (s : State) : Outcome State Fault Refusal :=
  let w := (words.getD 0 0).toNat
  let i := s.arbIdx sd
  if w / 2 ^ 64 ≠ 0x98 ∨ s.accepts via = false ∨ (s.on (QLK_TOPO_NODE_VALID i) = true ∧ bitsOf w 43 38 ≠ s.rd (QLK_TOPO_RING i)) then .next s
  else .next (s.adoptEpoch i (bitsOf w 31 0) (bitsOf w 37 32) (bitsOf w 46 44) (bitsOf (words.getD 1 0).toNat 47 0))

/-- A sender becomes active or standby on a side as its held epoch says. -/
def State.takeRole (s : State) (sd : Nat) : State :=
  let st := s.rd (ARB_STAT_STATE sd)
  if st < 2 ∨ 4 < st then s
  else if s.named sd then (if st = 2 then s else (s.wr (ARB_STAT_STATE sd) 2).raise 9 5)
  else if st = 2 then (s.setArb sd { s.arbSide sd with goodSince := none }).wr (ARB_STAT_STATE sd) 3 |>.raise 9 6
  else s

/-- Latch point of tick `n`: a sender changes role (R274). -/
def State.arbLatch (s : State) (n : Nat) : State :=
  if s.isSender then
    s.each [0, 1] fun s sd =>
      if s.on (ARB_APPLY_PEND sd) = true ∧ s.rd (ARB_APPLY_FRAME sd) ≤ n then s.takeRole sd else s
  else s

/-- At its tick an epoch takes effect (R274). -/
def State.applyEpoch (s : State) (n i : Nat) : State :=
  if s.on (ARB_APPLY_PEND i) = true ∧ s.rd (ARB_APPLY_FRAME i) ≤ n then
    let s1 := ((s.wr (ARB_APPLY_PEND i) 0).wr (ARB_APPLY_FRAME i) n).bump ARB_TCNT_EPOCH_CHG
    let s2 := s1.setArb i { s1.arbSide i with eff := s.rd (ARB_EPOCH_EPOCH i) }
    if s2.isSender then s2.takeRole i else s2
  else s

/-- STREAM_SELECT (R278, Table 15-3): a tile selects at every tick, held ticks included. -/
def State.selectStream (s : State) : State :=
  let e := (s.arbSide 0).eff % 2
  let ok (st : Nat) : Bool := s.on (okFld st)
  let sel := if ok e || !ok (1 - e) then e else 1 - e
  let fb := b2n (sel != e)
  let s1 := ((s.wr TFS_RX_SEL sel).wr (ARB_STAT_SEL 0) sel).wr (ARB_STAT_FALLBACK 0) fb
  let s2 := if fb = 1 then s1.bump ARB_TCNT_FALLBACK else if ok e then s1 else s1.bump ARB_TCNT_NONE
  if fb = s.rd (ARB_STAT_FALLBACK 0) then s2 else s2.raise 9 11

/-- The tick's part. -/
def State.arbTick (s : State) (n : Nat) (held : Bool) : State :=
  let s1 := if held then s else if s.isSender then (s.applyEpoch n 0).applyEpoch n 1 else s.applyEpoch n 0
  if s1.isTile then s1.selectStream else s1

/-! ### Kettles (R275, R276) -/

/-- Whether an instant lies within `d` before `t`. -/
def within (x : Option Nat) (t d : Nat) : Bool := match x with | some a => decide (t < a + d) | none => false

/-- READY: a standby has had the active sender's kettles on both paths for 1 s without a gap and followed every record (Table 15-1). -/
def State.standbyReady (s : State) (sd : Nat) : Bool :=
  let x := s.arbSide sd
  let now := s.wtu.wt
  let miss := usT (s.rd ARB_TIMING_MISS_US) + 1
  s.rd (ARB_STAT_STATE sd) == 3 && within x.ringAt now miss && within x.ethAt now miss && match x.goodSince with
    | some g => decide (g + msT 1000 ≤ now)
    | none => false

/-- The words of a kettle (Table 15-1). -/
def State.kettle (s : State) (sd : Nat) (atTick : Bool) : List Nat :=
  [0x90 * 2 ^ 64 + s.frame % 2 ^ 48 + (s.arbSide sd).seq % 4096 * 2 ^ 48 + b2n atTick * 2 ^ 60,
   0x91 * 2 ^ 64 + s.rd (ARB_EPOCH_EPOCH sd) + s.rd (ARB_CFG_ARBITER sd) * 2 ^ 32 + s.rd (QLK_TOPO_RING sd) * 2 ^ 38
    + s.rd (ARB_STAT_STATE sd) * 2 ^ 44 + b2n (s.standbyReady sd) * 2 ^ 47 + s.rd ARB_TIMING_MISS_US * 2 ^ 48]

/-- KETTLE_SEND (R275): at every tick, and when WT_NS mod 1,000,000 = 0, on every side that serves a ring: as a folio where the side is up,
and over Ethernet. A side serves a ring from the time its sender has an index there (notes/assumptions/65.md). A sender that thermal shutdown
has stopped, or whose memory failed at start, sends none (R250, Table 16-2). -/
def execKettleSend (atTick : Bool) (t : Nat) (s : State) : Outcome State Fault Refusal :=
  if s.isSender = false ∨ s.house.shut = true ∨ s.rd NVS_POWER_STATE = 3 ∨ s.rd FMC_MEM_STAT_FAIL ≠ 0 ∨
      (atTick = false ∧ t / nsU % 1000000 ≠ 0) then .next s
  else
    .next ((s.passTo t).each [0, 1] fun s sd =>
      if s.on (QLK_TOPO_NODE_VALID sd) then
        let ws := s.kettle sd atTick
        let s1 := s.when (s.sideIsUp sd) fun s => s.sendFolio sd (mkFolio 6 (s.streamOf sd) (s.nodeOn sd) true true false ws)
        let s2 := s1.setArb sd { s1.arbSide sd with seq := ((s1.arbSide sd).seq + 1) % 4096 }
        s2.sendEther 6 (s.rd (QLK_TOPO_RING sd)) ws
      else s)

/-- The time-dependent bits of a sender's ARB.STAT as they stand at `t`, with its arbiter. -/
def State.arbShow (s : State) (sd t : Nat) : State :=
  let x := s.arbSide sd
  let miss := usT (s.rd ARB_TIMING_MISS_US) + 1
  let last := match x.ringAt, x.ethAt with | some a, some b => some (max a b) | some a, none => some a | none, o => o
  let s1 := ((s.wr (ARB_STAT_PEER_RING sd) (b2n (within x.ringAt t miss))).wr (ARB_STAT_PEER_ETH sd) (b2n (within x.ethAt t miss))).wr
    (ARB_STAT_ARB_SEEN sd) (b2n (within x.arbAt t (msT (s.rd ARB_TIMING_TAKE_MS) + 1)))
  let s2 := s1.wr (ARB_STAT_ARBITER sd) (s.rd (ARB_CFG_ARBITER sd))
  match last with
  | some a => s2.wr (ARB_STAT_PEER_AGE_US sd) (min 65535 ((t - a) / 65536000))
  | none => s2

/-- Answer EPOCH_REQ messages that the arbiter holds. -/
def State.answerHeld (s : State) (f : Req × Nat → Bool) (ans : State → Req → Nat → State) : State :=
  let x := s.arbSide 0
  (s.setArb 0 { x with held := x.held.filter fun e => !f e }).each (x.held.filter f) fun s e => ans s e.1 e.2

/-- The arbiter refuses a request (R281). -/
def State.refuseEpoch (s : State) (r : Req) : State := (s.bump (ARB_CNT_REFUSED 0)).respond r 0x0098 stREFUSED []

/-- A tile hears a kettle (R272, R281). -/
def State.tileKettle (s : State) (node e arbiter missUs t : Nat) : State :=
  let p := if node = 0 then 0 else 1
  let x := s.arbSide 0
  let s1 := (s.setArb 0 { x with heard := x.heard.set p (some (t, missUs)) }).wr (ARB_STAT_ARBITER 0) arbiter
  let s2 := s1.answerHeld (fun h => h.2 % 2 == p) fun s r _ => s.refuseEpoch r
  s2.adoptEpoch 0 e node 0 0

/-- A sender hears its partner's kettle on a path (R272, R275, R280). -/
def State.peerKettle (s : State) (sd : Nat) (ether : Bool) (node e st : Nat) (ready : Bool) (t : Nat) : State :=
  let x := s.arbSide sd
  let miss := usT (s.rd ARB_TIMING_MISS_US) + 1
  let prev := if ether then x.ethAt else x.ringAt
  let other := if ether then x.ringAt else x.ethAt
  let active := node == epochNode (max e (s.rd (ARB_EPOCH_EPOCH sd)))
  let good := if active = false ∨ within other t miss = false then none
    else if within prev t miss then (match x.goodSince with | some g => some g | none => some t)
    else some t
  let reh := x.reh.map fun r => { r with acted := r.acted || (!ether && st == 2 && decide (r.apply ≤ s.frame)) }
  let y := if ether then { x with ethAt := some t, partner := st, goodSince := good, reh := reh }
    else { x with ringAt := some t, partner := st, goodSince := good, reh := reh }
  let s1 := ((s.setArb sd y).wr (ARB_STAT_PEER_READY sd) (b2n ready)).arbShow sd t
  let s2 := s1.adoptEpoch sd e node 0 0
  if s2.rd (ARB_STAT_STATE sd) = 4 ∧ node = epochNode (s2.rd (ARB_EPOCH_EPOCH sd)) then (s2.wr (ARB_STAT_STATE sd) 3).raise 9 8 else s2

/-- KETTLE_RECEIVE (R272, R276, R280, R281). -/
def execKettleReceive (sd : Fin 2) (via : Via) (node : BitVec 6) (words : List Word72) (t : Nat) (s : State) :
    Outcome State Fault Refusal :=
  let w := (words.getD 1 0).toNat
  let n := node.toNat
  if (words.getD 0 0).toNat / 2 ^ 64 ≠ 0x90 ∨ (n ≠ 0 ∧ n ≠ 63) ∨ s.accepts via = false then .next s
  else if s.isSender then
    if n = s.nodeOn sd ∨ (s.on (QLK_TOPO_NODE_VALID sd) = true ∧ bitsOf w 43 38 ≠ s.rd (QLK_TOPO_RING sd)) then .next s
    else .next (s.peerKettle sd (via != .ring) n (bitsOf w 31 0) (bitsOf w 46 44) (bitOf w 47) t)
  else if s.isTile = true ∧ via = .ring then .next (s.tileKettle n (bitsOf w 31 0) (bitsOf w 37 32) (bitsOf w 63 48) t)
  else .next s

/-! ### Start of a sender (R277) -/

/-- SENDER_START_END: START_MS after the side came up STARTING ends, and the held epoch decides. -/
def execSenderStartEnd (sd : Fin 2) (t : Nat) (s : State) : Outcome State Fault Refusal :=
  if s.isSender = true ∧ s.rd (ARB_STAT_STATE sd) = 1 ∧ s.rd FMC_MEM_STAT_FAIL = 0 ∧ s.sideIsUp sd = true ∧
      (s.side sd).upAt + msT (s.rd ARB_TIMING_START_MS) ≤ t then
    .next (if s.named sd then (s.wr (ARB_STAT_STATE sd) 2).raise 9 5 else (s.wr (ARB_STAT_STATE sd) 3).raise 9 6)
  else .next s

/-! ### Failover (R280 to R282) -/

/-- Whether both kettle paths of a side have been silent for `d`; a path on which no kettle has come since the side came up has been silent
from then (notes/assumptions/65.md). -/
def State.silent (s : State) (sd t d : Nat) : Bool :=
  let from_ (x : Option Nat) : Nat := max (x.getD 0) (s.side sd).upAt
  decide (from_ (s.arbSide sd).ringAt + d ≤ t ∧ from_ (s.arbSide sd).ethAt + d ≤ t)

/-- EPOCH_REQ goes to the mailbox queue of the arbiter of a side's ring. -/
def State.askEpoch (s : State) (sd t : Nat) : State :=
  let arb := s.rd (ARB_CFG_ARBITER sd)
  let id := match (s.arbSide sd).asked with | some a => (a.1 + 1) % 4096 | none => 0
  let s1 := (s.setArb sd { s.arbSide sd with asked := some (id, t) }).bump (ARB_CNT_REQ sd)
  if (s.rd (QLK_REACH_NODES sd)).testBit arb then
    s1.sendMessageOn sd (arb * 4096) (s.nodeOn sd * 4096) id (frameMsg [0x0098 + id * 2 ^ 16, s.rd (ARB_EPOCH_EPOCH sd)])
  else s1

/-- PEER_LOST (R280). The timers are suspended between an activation tick and RELIGHT (R313). -/
def execPeerLost (sd : Fin 2) (t : Nat) (s : State) : Outcome State Fault Refusal :=
  if s.isSender = true ∧ s.rd (ARB_STAT_STATE sd) = 3 ∧ s.suspended = false ∧
      s.silent sd t (usT (s.rd ARB_TIMING_MISS_US)) = true then
    .next ((((s.arbShow sd t).raise 9 7).wr (ARB_STAT_STATE sd) 4).askEpoch sd t)
  else .next s

/-- Whether the time of an EPOCH_REQ has passed: REQ_TMO_US after the last one. -/
def State.askAgain (s : State) (sd t : Nat) : Bool :=
  match (s.arbSide sd).asked with | some a => decide (a.2 + usT (s.rd ARB_TIMING_REQ_TMO_US) ≤ t) | none => true

/-- EPOCH_REQ_RETRY (R280). -/
def execEpochReqRetry (sd : Fin 2) (t : Nat) (s : State) : Outcome State Fault Refusal :=
  .next (if s.isSender = true ∧ s.rd (ARB_STAT_STATE sd) = 4 ∧ s.suspended = false ∧
      s.silent sd t (usT (s.rd ARB_TIMING_MISS_US)) = true ∧ s.askAgain sd t = true then (s.arbShow sd t).askEpoch sd t else s)

/-- Whether a response comes within the deadline of the request it answers (R48, R281): an earlier request's has passed. -/
def State.inTime (s : State) (sd id t : Nat) : Bool :=
  match (s.arbSide sd).asked with
  | some a => a.1 == id && decide (t ≤ a.2 + usT (s.rd ARB_TIMING_REQ_TMO_US))
  | none => false

/-- EPOCH_REQ_RESPONSE (R272, R280, R281): a late answer is only counted. -/
def execEpochReqResponse (sd : Fin 2) (granted : Bool) (epoch : BitVec 32) (id : BitVec 12) (t : Nat) (s : State) :
    Outcome State Fault Refusal :=
  if s.isSender = false then .next s
  else
    let x := s.arbSide sd
    let s1 := (s.setArb sd { x with arbAt := some t, refusedAt := if granted then x.refusedAt else some t }).arbShow sd t
    if s.inTime sd id.toNat t = false then .next (s1.bump HIF_RA_STAT_LATE)
    else if granted then .next (s1.adoptEpoch sd epoch.toNat (s.rd (ARB_CFG_ARBITER sd)) 1 0)
    else .next ((s1.bump (ARB_CNT_REFUSED sd)).raise 9 9)

/-- MISS_US as the arbiter takes it (R281). -/
def State.arbiterMiss (s : State) : Nat :=
  match (s.arbSide 0).heard.filterMap id with
  | [] => s.rd ARB_TIMING_MISS_US
  | l => l.foldl (fun a e => max a e.2) 0

/-- The arbiter grants: its own epoch where it is higher already, otherwise a new one (R281). While a node keeps its epoch after an activation
(R313) it issues none and refuses. -/
def State.grantEpoch (s : State) (r : Req) (e : Nat) : State :=
  if e < s.rd (ARB_EPOCH_EPOCH 0) then s.respond r 0x0098 stOK [s.rd (ARB_EPOCH_EPOCH 0)]
  else if s.suspended then s.refuseEpoch r
  else (s.issueEpoch 0 (e + 1) 1 0).respond r 0x0098 stOK [e + 1]

/-- Since when the arbiter has heard no kettle of the sender that epoch `e` names: at the earliest since its side came up (R281). -/
def State.kettleSince (s : State) (e : Nat) : Nat :=
  match (s.arbSide 0).heard.getD (e % 2) none with
  | some h => max h.1 (s.side (e % 2)).upAt
  | none => (s.side (e % 2)).upAt

/-- Whether that has lasted MISS_US. -/
def State.missed (s : State) (e t : Nat) : Bool := decide (s.kettleSince e + usT s.arbiterMiss ≤ t)

/-- EPOCH_REQ (R281). -/
def execEpochReq (r : Req) (epoch : BitVec 32) (t : Nat) (s : State) : Outcome State Fault Refusal :=
  let e := epoch.toNat
  let from_ := r.reply.toNat / 4096
  s.mailbox r 0x0098 fun s =>
    if s.isTile = false ∨ s.rd (ARB_STAT_ARBITER 0) ≠ s.node then s.respond r 0x0098 stREFUSED []
    else
      let s := s.bump (ARB_CNT_REQ 0)
      if from_ ≠ 0 ∧ from_ ≠ 63 then s.refuseEpoch r
      else if e < s.rd (ARB_EPOCH_EPOCH 0) then s.grantEpoch r e
      else if s.missed e t then s.grantEpoch r e
      else
        let x := s.arbSide 0
        s.setArb 0 { x with held := x.held ++ [(r, e)] }

/-- ARBITER_HOLD_EXPIRE (R281): the held requests whose hold has reached MISS_US are granted. -/
def execArbiterHoldExpire (t : Nat) (s : State) : Outcome State Fault Refusal :=
  .next (s.answerHeld (fun h => s.missed h.2 t) State.grantEpoch)

/-- TAKEOVER (R282). -/
def execTakeover (sd : Fin 2) (t : Nat) (s : State) : Outcome State Fault Refusal :=
  let x := s.arbSide sd
  let d := msT (s.rd ARB_TIMING_TAKE_MS)
  let st := s.rd (ARB_STAT_STATE sd)
  let noArb := !(s.rd (QLK_REACH_NODES sd)).testBit (s.rd (ARB_CFG_ARBITER sd))
  if s.isSender = true ∧ (st = 3 ∨ st = 4) ∧ s.suspended = false ∧ s.silent sd t d = true ∧
      (noArb || !within x.arbAt t d) = true ∧ within x.refusedAt t d = false then
    let s1 := (s.arbShow sd t).issueEpoch sd (s.rd (ARB_EPOCH_EPOCH sd) + 1) 2 0
    .next ((s1.bumpM (ARB_CNT_TAKEOVERS sd)).raise 9 10)
  else .next s

/-! ### Swaps (R283) and TAKE -/

/-- Whether a planned swap's conditions hold (R283), and the node does not keep its epoch after an activation (R313). -/
def State.swapOk (s : State) (sd t : Nat) : Bool :=
  s.isSender && s.rd (ARB_STAT_STATE sd) == 2 && !s.suspended && s.on (ARB_STAT_PEER_READY sd) &&
    within (s.arbSide sd).ringAt t (usT (s.rd ARB_TIMING_MISS_US) + 1)

/-- An accepted swap. -/
def State.doSwap (s : State) (sd reason apply : Nat) : State :=
  (s.issueEpoch sd (s.rd (ARB_EPOCH_EPOCH sd) + 1) reason apply).bumpM (ARB_CNT_SWAPS sd)

/-- The tick a swap names: 0 means FRAME_NO + 8. -/
def State.swapFrame (s : State) (apply : Nat) : Nat := if apply = 0 then s.frame + 8 else apply

/-- SWAP. -/
def execSwap (r : Req) (side : Fin 2) (apply : BitVec 48) (t : Nat) (s : State) : Outcome State Fault Refusal :=
  s.mailbox r 0x0091 fun s =>
    let f := s.swapFrame apply.toNat
    if s.swapOk side t = false then (s.arbShow side t).respond r 0x0091 stREFUSED []
    else if f < s.frame + 4 then s.respond r 0x0091 stLATE []
    else (s.doSwap side 3 f).respond r 0x0091 stOK [f]

/-- ARB.SWAP.GO: a refusal is recorded with code BUSY. -/
def State.swapGo (s : State) (src : Requester) (side t : Nat) : State :=
  let f := s.swapFrame (s.rd ARB_SWAP_APPLY_FRAME)
  if s.swapOk side t = false ∨ f < s.frame + 4 then s.capture 9 errBUSY src 0xA8 f else s.doSwap side 3 f

/-- A standby may take the wall by host command (R273), unless it keeps its epoch after an activation (R313). -/
def State.mayTake (s : State) (side : Nat) : Bool :=
  s.isSender && !s.suspended && (s.rd (ARB_STAT_STATE side) == 3 || s.rd (ARB_STAT_STATE side) == 4)

/-- TAKE (Table 15-5). -/
def execTake (r : Req) (side : Fin 2) (s : State) : Outcome State Fault Refusal :=
  s.mailbox r 0x0093 fun s =>
    let e := s.rd (ARB_EPOCH_EPOCH side) + 1
    if s.mayTake side then (s.issueEpoch side e 5 0).respond r 0x0093 stOK [e] else s.respond r 0x0093 stREFUSED []

/-- ARB.SWAP.TAKE. -/
def State.swapTake (s : State) (src : Requester) (side : Nat) : State :=
  if s.mayTake side then s.issueEpoch side (s.rd (ARB_EPOCH_EPOCH side) + 1) 5 0 else s.capture 9 errBUSY src 0xA8 side

/-- ARB_STATUS (R287): EPOCH, APPLY and STAT of the side. -/
def execArbStatus (r : Req) (side : Fin 2) (s : State) : Outcome State Fault Refusal :=
  s.mailbox r 0x0090 fun s =>
    let i := s.arbIdx side
    let val (off : Nat) : Nat := (regFields 9 off).foldl (fun a f => a + s.rd f * 2 ^ f.lo) 0
    s.respond r 0x0090 stOK [val (0xB0 + 8 * i), val (0xC0 + 8 * i), val (0xD0 + 8 * i)]

/-! ### Rehearsal (R285) -/

/-- A rehearsal ends with a result. -/
def State.rehEnd (s : State) (sd result t : Nat) : State :=
  let x := s.arbSide sd
  let s1 := ((s.setArb sd { x with reh := none }).wrM ARB_REH_STAT_RESULT result).wrM ARB_REH_STAT_SEC (t / 65536000000000)
  match x.reh.bind Reh.req with
  | some r => s1.respond r 0x0092 stOK [result]
  | none => s1

/-- A rehearsal's preconditions: the partner READY, its kettles on both paths, no COLLATION event for 10 s. -/
def State.rehOk (s : State) (sd t : Nat) : Bool :=
  let miss := usT (s.rd ARB_TIMING_MISS_US) + 1
  s.on (ARB_STAT_PEER_READY sd) && within (s.arbSide sd).ringAt t miss && within (s.arbSide sd).ethAt t miss &&
    match (s.arbSide sd).collAt with
    | some a => decide (a + msT 10000 ≤ t)
    | none => true

/-- The active sender starts a rehearsal: skipped where a precondition fails, otherwise a swap with REASON 4. -/
def State.rehStart (s : State) (sd : Nat) (req : Option Req) (t : Nat) : State :=
  let x := s.arbSide sd
  let s1 := s.setArb sd { x with reh := some ⟨req, s.frame + 8, false, false, false⟩ }
  if s.rehOk sd t then s1.doSwap sd 4 (s.frame + 8) else s1.rehEnd sd 2 t

/-- Whether this sender may start a rehearsal on a side. -/
def State.mayRehearse (s : State) (sd : Nat) : Bool := s.isSender && s.rd (ARB_STAT_STATE sd) == 2

/-- REHEARSE. -/
def execRehearse (r : Req) (side : Fin 2) (t : Nat) (s : State) : Outcome State Fault Refusal :=
  s.mailbox r 0x0092 fun s =>
    if (s.arbSide side).reh.isSome then s.respond r 0x0092 stBUSY []
    else if s.mayRehearse side then s.rehStart side (some r) t
    else s.respond r 0x0092 stREFUSED []

/-- ARB.REH.GO. -/
def State.rehGo (s : State) (src : Requester) (side t : Nat) : State :=
  if (s.arbSide side).reh.isSome = true ∨ s.mayRehearse side = false then s.capture 9 errBUSY src 0xA0 side
  else s.rehStart side none t

/-- REHEARSAL_START: the interval has elapsed at the active sender. -/
def execRehearsalStart (sd : Fin 2) (t : Nat) (s : State) : Outcome State Fault Refusal :=
  .next (if s.mayRehearse sd = true ∧ 0 < s.rd ARB_REH_INTERVAL_H ∧ (s.arbSide sd).reh = none then s.rehStart sd none t else s)

/-- Whether a rehearsal's failure condition holds (R285): 3 no kettle with STATE ACTIVE by 2 frames after APPLY_FRAME, 4 an own evaluation, 5 a
COLLATION event, 6 the partner's refusal of the swap back. -/
def State.rehFails (s : State) (r : Reh) (result : Nat) : Bool :=
  match result with
  | 3 => !r.acted && decide (r.apply + 2 ≤ s.frame)
  | 4 => r.selfs
  | 5 => r.coll
  | 6 => true
  | _ => false

/-- REHEARSAL_FAIL: the sender takes the wall back at once with REASON 6. -/
def execRehearsalFail (sd : Fin 2) (result : BitVec 3) (t : Nat) (s : State) : Outcome State Fault Refusal :=
  if (s.arbSide sd).reh.any fun r => s.rehFails r result.toNat then
    let s1 := (s.issueEpoch sd (s.rd (ARB_EPOCH_EPOCH sd) + 1) 6 0).rehEnd sd result.toNat t
    .next ((s1.raise 9 13).bumpM ARB_REH_STAT_FAILS)
  else .next s

/-- Whether HOLD_S has passed since tick `n`. -/
def State.holdOver (s : State) (n t : Nat) : Bool := decide (s.tickTime n + msT (1000 * s.rd ARB_REH_HOLD_S) ≤ t)

/-- REHEARSAL_HOLD_END, HOLD_S after the swap applied: at the sender that rehearses, result 1 and REH_DONE; at the new active sender, the swap
back, unless it is the preferred one itself. -/
def execRehearsalHoldEnd (sd : Fin 2) (t : Nat) (s : State) : Outcome State Fault Refusal :=
  match (s.arbSide sd).reh with
  | some r => .next (if s.holdOver r.apply t then (s.rehEnd sd 1 t).raise 9 12 else s)
  | none =>
    let preferred := epochNode (s.rd (ARB_CFG_PREF sd)) == s.nodeOn sd
    .next (if s.swapOk sd t = true ∧ s.rd (ARB_EPOCH_REASON sd) = 4 ∧ preferred = false ∧ s.holdOver (s.rd (ARB_APPLY_FRAME sd)) t = true
      then s.doSwap sd 4 (s.frame + 8) else s)

end Sys2Proof.Machine
end

