-- ==== Sys2Proof/Machine/Start.lean ====
section
/-! DEFINITION. Start-up, resets, power states, the boot ledger and generation saves (spec/16_start_reset_retention.md), and the
part of spec/17_update.md that a start carries out. -/

namespace Sys2Proof.Machine

open Host

/-! ### Reset kinds (Table 16-5), results (Table 16-4), step limits -/

/-- Whether a start is in progress or has failed: step 16 has not ended (R288). -/
def State.starting (s : State) : Bool := s.rd NVS_BOOT_STAT_STEP != 17

/-- Whether the part is in SLEEP. -/
def State.asleep (s : State) : Bool := s.rd NVS_POWER_STATE == 3

/-- The steps a role takes part in (Table 16-1). -/
def State.stepRuns (s : State) (k : Nat) : Bool :=
  if k = 6 then !s.isSender else if k = 10 then !s.isTile else true

/-- Paths of a step (Table 16-1). -/
def stepPaths (k : Nat) : Nat :=
  if k = 4 ∨ k = 10 then 3 else if k = 2 ∨ k = 3 ∨ (6 ≤ k ∧ k ≤ 9) ∨ k = 11 ∨ k = 14 ∨ k = 15 then 2 else 1

/-- Steps that do not fail: the waiting steps and ENTRY (R289). -/
def stepWaits (k : Nat) : Bool := k == 12 || k == 13 || k == 16

/-- The failure count of a step and path (R291). -/
def State.failCount (s : State) (k p : Nat) : Nat := (s.nvs.fails.get (4 * k + p)).toNat

/-- The path a start takes through a step (R291, R294). -/
def State.stepPath (s : State) (k : Nat) : Option Nat :=
  if stepWaits k then some 0
  else if k = 4 ∧ s.nvs.bootsel = true ∧ s.rd HIF_STRAP_STAT_BOOTSEL = 2 then some 2
  else (List.range (stepPaths k)).find? fun p => s.failCount k p < 2

/-! ### The boot ledger (R295) -/

/-- Write one ledger record. -/
def State.ledgerPut (s : State) (startNo step path fin result tUs detail : Nat) : State :=
  let p := s.rd NVS_LEDGER_WPTR
  let w := startNo % 65536 + step * 2 ^ 16 + path * 2 ^ 21 + fin * 2 ^ 23 + result * 2 ^ 24 + tUs % 2 ^ 32 * 2 ^ 32
    + detail % 256 * 2 ^ 64
  let s1 := { s with nvs := { s.nvs with ledger := s.nvs.ledger.set p (BitVec.ofNat 72 w) } }
  let s2 := ((s1.wr NVS_LEDGER_WPTR ((p + 1) % 4096)).bump NVS_MRAM_RECORDS)
  if p = 4095 then s2.wr NVS_LEDGER_WRAPPED 1 else s2

/-- The record of a step of this start; thermal shutdown starts no new record (R250). -/
def State.stepRecord (s : State) (k path fin result tUs detail : Nat) : State :=
  if s.house.shut then s else s.ledgerPut (s.rd NVS_BOOT_STAT_START_NO) k path fin result tUs detail

/-- Count a failure of a step and path (R291). -/
def State.countFail (s : State) (k p : Nat) : State :=
  { s with nvs := { s.nvs with fails := s.nvs.fails.set (4 * k + p) (BitVec.ofNat 2 (min 2 (s.failCount k p + 1))) } }

/-! ### Update events and fallback requests (R310, R317) -/

/-- Post an UPDATE event (Table 17-7). -/
def State.updPost (s : State) (kind missing pass reason act cid other : Nat) : State :=
  s.post 0x800C [kind + missing % 2 ^ 15 * 2 ^ 4 + pass % 16 * 2 ^ 19 + s.rd UPD_STAGE_STATE * 2 ^ 23 + reason % 16 * 2 ^ 26
    + act % 2 ^ 32 * 2 ^ 32, cid % 2 ^ 32 + other % 2 ^ 32 * 2 ^ 32]

/-- FALLBACK_REQ is posted for the reason that stands. -/
def State.fallbackReq (s : State) : State := s.updPost 4 0 0 s.upd.fbWhy (s.rd UPD_ACT_NO_NUMBER) s.upd.actCid 0

/-- A node in probation requests fallback: 1 CONVERT_FAIL, 2 watchdog or step restart, 3 step 4 left the activated slot. -/
def State.askFallback (s : State) (why : Nat) : State :=
  if s.upd.probation && s.upd.fbWhy == 0 then { s with upd := { s.upd with fbWhy := why } }.fallbackReq else s

/-! ### Lamps and saves at a reset or state change -/

/-- The part leaves LIT: lamps go off by safe disable and firmware clears LAMP_EN (R214, R215). -/
def State.leaveLit (s : State) : State :=
  if s.isLit then (((s.lampsOff whySTATE).wr SCN_CTRL_LAMP_EN 0).wr NVS_POWER_STATE 1).wr NVS_POWER_FRAME s.frame else s

/-- Every pending generation save and an aging save are requested (R297, R298); bundle storage stops at a record boundary
(R301). -/
def State.saveAll (s : State) : State :=
  let s1 := { s with upd := { s.upd with fifo := [], half := false } }
  let s2 := s1.each s1.dirtyAreas State.queueOp
  if s2.hasPixels then s2.queueOp 3 else s2

/-- A soft-scope reset is requested: it applies once the saves are complete; kind 8 performs none (R297). Coinciding causes give
the lowest code (R296). -/
def State.requestSoft (s : State) (kind : Nat) : State :=
  let k := match s.nvs.softKind with
    | some j => min j kind
    | none => kind
  { s with nvs := { s.nvs with softKind := some k, power := none, litWait := false } }.saveAll

/-! ### The walk at a node (R14, R141 to R143) -/

/-- ENUM_RECEIVE (R14, R141 to R143). A tile beyond position 62 takes no index, loses one it had, and stays DARK. -/
def execEnumReceive (sd : Fin 2) (words : List Word72) (hops : BitVec 6) (s : State) : Outcome State Fault Refusal :=
  let w := (words.getD 1 0).toNat
  let next := bitsOf w 5 0
  let ring := bitsOf w 11 6
  let dir := bitsOf w 12 12
  let n := bitsOf w 18 13
  let chain := bitsOf w 19 19
  let other := 1 - sd.val
  if w / 2 ^ 64 ≠ 0xE8 then .next s
  else if s.isTile then
    let onward (s : State) (nx : Nat) : State :=
      s.when (s.sideIsUp other) fun s => s.sendFolio other (enumFolio (if dir = 0 then 0 else 63) nx ring dir n chain)
    let t := s.rd (QLK_TOPO_NODE 0)
    let has := s.on (QLK_TOPO_NODE_VALID 0)
    if chain = 1 then
      let s1 := (s.wrTopo QLK_TOPO_N_TILES n).wrTopo QLK_TOPO_FAR_SENDER 0
      let s2 := s1.when has fun s => ((s.wr QLK_DRR_D_A (n - t)).wr QLK_DRR_D_B 0).tileReach n false true
      .next (onward s2 next)
    else if dir = 0 then
      if next = 63 then
        let s1 := (s.wrTopo QLK_TOPO_NODE 0).wrTopo QLK_TOPO_NODE_VALID 0
        let s2 := (s1.when has fun s => s.markDirty 0).leaveLit
        .next ((onward s2 next).post 0x8008 [0])
      else
        let s1 := ((s.wrTopo QLK_TOPO_NODE next).wrTopo QLK_TOPO_NODE_VALID 1).wrTopo QLK_TOPO_RING ring
        let s2 := s1.when (t != next || !has || s.rd (QLK_TOPO_RING 0) != ring) fun s => s.markDirty 0
        let s3 := { ((s2.wrTopo QLK_TOPO_SPLIT 0).wr QLK_DRR_D_A (63 - next)).wr QLK_DRR_D_B next with
          link := { s2.link with walked := true } }
        .next ((onward s3 (next + 1)).post 0x8008 [next])
    else
      let s1 := (s.wrTopo QLK_TOPO_N_TILES n).wrTopo QLK_TOPO_FAR_SENDER 1
      let s2 := s1.when has fun s =>
        let near := s.link.walked
        let s := ((s.wr QLK_DRR_D_A (n - t + 1)).wr QLK_DRR_D_B (if near then t else t - 1)).tileReach n true near
        s.when (hops.toNat != n + 1 - t) fun s => s.raise 0x1A 5
      .next ((onward s2 next).when has fun s => s.post 0x8008 [t])
  else if s.isSender then
    if s.nodeOn sd = 63 ∧ dir = 0 ∧ chain = 0 then
      let m := next - 1
      let s1 := ((s.wr (QLK_TOPO_N_TILES sd) m).wr (QLK_TOPO_FAR_SENDER sd) 1).when (decide (m + 1 < hops.toNat)) fun s => s.raise 0x1A 6
      let s2 := s1.sendFolio sd (enumFolio 63 0 ring 1 m 0)
      .next { s2 with link := { s2.link with walks := sd.val :: s2.link.walks.filter (· != sd.val) } }
    else if s.nodeOn sd = 0 ∧ dir = 1 ∧ chain = 0 then
      .next ((s.wr (QLK_TOPO_N_TILES sd) n).wr (QLK_TOPO_FAR_SENDER sd) 1)
    else .next s
  else .next s

/-! ### Start steps (R288 to R292) -/

/-- The M-class registers that a settings generation holds (R302): all but those that the MRAM holds elsewhere. -/
def settingsFields : List Fld := allFields.filter fun f => f.ret == .m && !headerFld f

/-- The settings as a save writes them: the active values. -/
def State.settingsNow (s : State) : Tbl 64 := copySet settingsFields s.live []

/-- Step 9 loads a generation into the pages that are active in the role (R8): a locked RWK field keeps its value, and so do the blocks that
kept running (R46, R296). A sender's epoch is the highest it has seen, and a tile's is class B (R272). -/
def State.loadSettings (s : State) (g : Tbl 64) : State :=
  let kind := s.rd NVS_BOOT_STAT_LAST_RESET
  let higher (i : Nat) : Bool := s.isSender && decide (s.rd (ARB_EPOCH_EPOCH i) < (g.get (ARB_EPOCH_EPOCH i).key).toNat)
  s.each (settingsFields.filter fun f => pageActive s.role f.page && (!epochFld f || higher ((f.off - 0xB0) / 8)) &&
    !(f.acc == .rwk && s.on (LOCK f.page)) && !(decide (6 ≤ kind) && softPage f.page)) fun s f => s.wrAll f (g.get f.key).toNat

/-- The settings generation that a path of step 9 reads: in probation the probation area, once it is written (R315). -/
def State.settingsOf (s : State) (path : Nat) : Option (Tbl 64) :=
  if s.upd.trial && s.nvs.probation.isSome then s.nvs.probation
  else s.nvs.setGens.getD ((s.rd NVS_GEN_SET_GEN + path) % 2) none

/-- What the settings bring about once loaded: the Quire sides start at their rate (R122), ports take their mode, enabled rail loops start, a sender follows its own
timebase and sources (R155, R159, R231). -/
def State.settingsTake (s : State) : State :=
  let s0 := (s.startSide 0).startSide 1
  let s1 := if s.isTile then s0 else s0.each (List.range 4) fun s p => s.ingModeChanged p 0
  let s2 := s1.each (List.range 8) fun s k => if s.on (RCE_LOOP_CFG_EN k) then s.loopEnChanged k else s
  let s3 := if s2.hasPixels then s2.updNeed else s2
  if s3.isTile ∨ 6 ≤ s3.rd NVS_BOOT_STAT_LAST_RESET then s3 else (s3.setTb s3.nx).takeFrame.evalSrc

/-- Step 9 ends OK. -/
def State.work9 (s : State) (w : StepWork) : State :=
  let p := s.nvs.path
  let s1 := match s.settingsOf p with
    | some g => s.loadSettings g
    | none => s
  let s2 := if s1.upd.trial && s1.nvs.probation.isNone then
      { s1 with nvs := { s1.nvs with probation := some s1.settingsNow } } else s1
  let s3 := (nodesOf w.lockMask.toNat).foldl (fun s pg => if pageMapped pg then s.wr (LOCK pg) 1 else s) s2
  (s3.wr NVS_GEN_SET_PREV p).settingsTake

/-- Step 2: the fuse policy (R48, R50). -/
def State.work2 (s : State) (w : StepWork) : State :=
  { s with host := { s.host with spiLocked := w.fuse.getLsbD 0, remoteForbidden := w.fuse.getLsbD 1 } }

/-- The UPD.SLOT register shows the MRAM header. -/
def State.showHeader (s : State) : State :=
  ((s.wr UPD_SLOT_PREV_VALID (b2n s.upd.prevValid)).wr UPD_SLOT_PROBATION (b2n s.upd.probation)).wr UPD_SLOT_SET_FMT
    (s.upd.fmts.getD (s.rd NVS_GEN_SET_GEN % 2) 0)

/-- Step 3: the header is read, and records found without their marker are counted (R301). -/
def State.work3 (s : State) : State :=
  let s1 := s.bumpBy NVS_MRAM_CUT s.nvs.cuts
  { s1 with nvs := { s1.nvs with cuts := 0 } }.showHeader

/-- The firmware slot that a path of step 4 starts from (R294). -/
def State.imageSlot (s : State) (path : Nat) : Nat :=
  if s.nvs.bootsel = true ∧ s.rd HIF_STRAP_STAT_BOOTSEL = 1 then (s.upd.active + 1 + path) % 2 else (s.upd.active + path) % 2

/-- A byte of the bundle that a path of step 4 reads: the recovery image, or a slot. Of a slot that the part has never written, as the factory
filled it, the step's work gives the bytes. -/
def State.imageByte (s : State) (p : Nat) (w : StepWork) (i : Nat) : Nat :=
  if p = 2 ∨ s.slotTbl (s.imageSlot p) = [] then (w.image.getD i 0).toNat else s.slotByte (s.imageSlot p) i

/-- Its colophon; the recovery image has at most 1 MiB (R319). -/
def State.imageCol (s : State) (p : Nat) (w : StepWork) : Option Colophon :=
  if p = 2 then (if w.image.length ≤ 2 ^ 20 then readColophon (s.imageByte p w) w.image.length else none)
  else readColophon (s.imageByte p w) slotBytes

/-- Step 4: the firmware runs. In probation, leaving the activated slot requests fallback (R317). -/
def State.work4 (s : State) (w : StepWork) : State :=
  let p := s.nvs.path
  let slot := s.imageSlot p
  let img := s.imageCol p w
  let s1 := { s with upd := { s.upd with running := img, trial := s.upd.probation && p != 2 && slot == s.upd.active },
                     runCid := match img with | some c => c.cid | none => s.runCid }
  let s2 := (if p = 2 then s1 else s1.wr UPD_SLOT_ACTIVE slot).wr UPD_SLOT_RECOVERY (b2n (p == 2))
  if p = 2 ∨ slot ≠ s2.upd.active then s2.askFallback 3 else s2

/-- Step 6: the dies that are up; on path 1 the others are held absent (R7). -/
def State.work6 (s : State) (w : StepWork) : State :=
  let s1 := s.each (List.range 4) fun s d =>
    let up := b2n (w.dieMask.getLsbD d)
    let t := ((s.wr (DRV_STAT_PRESENT d) up).wr (DRV_STAT_LINK d) up).wr (DRV_STAT_PLL_LOCK d) up
    if up = 1 then t else t.wr (DRV_STAT_OFF_WHY d) whyABSENT
  if s.nvs.path = 1 then s1.wr NVS_BOOT_STAT_DEGRADED (15 - w.dieMask.toNat) else s1

/-- The seven lowest-numbered cores that are not retired and passed BIST (R256). -/
def State.coresFor (s : State) (fail : Nat) : List Nat :=
  ((List.range 8).filter fun c => !fail.testBit c && !(s.rd CCC_CORE_STAT_RETIRED).testBit c)

/-- BIST results: a core that failed at two consecutive starts is retired (R256). -/
def State.noteBist (s : State) (fail : Nat) : State :=
  let s1 := (s.wr CCC_CORE_STAT_BIST_FAIL fail).wr CCC_CORE_STAT_RETIRED (s.rd CCC_CORE_STAT_RETIRED ||| (fail &&& s.nvs.bistBefore))
  { s1 with nvs := { s1.nvs with bistBefore := fail } }

/-- Step 8: the logical core map. SPARE_IN is raised at the start that first uses a spare. -/
def State.work8 (s : State) (fail : Nat) : State :=
  let l := s.coresFor fail
  let m := (l.take 7).foldl (fun a c => a + 2 ^ c) 0
  let s1 := s.wr CCC_CORE_STAT_ACTIVE m
  let s2 := match (l.drop 7).head? with
    | some c => (s1.wr CCC_CORE_STAT_SPARE c).wr CCC_CORE_STAT_SPARE_VALID 1
    | none => s1.wr CCC_CORE_STAT_SPARE_VALID 0
  let newIn := s.nvs.coreMap != 0 && (m &&& s.nvs.coreMap) != m
  let s3 := { s2 with nvs := { s2.nvs with coreMap := m } }
  if newIn then s3.raise 1 4 else s3

/-- The aging records are loaded at step 14 (R196): the newest slot with a commit marker; the older one where the newest has
none; else zero counters and AGE_LOST. -/
def State.loadAging (s : State) : State :=
  match s.nvs.ageSlots.getD (s.rd LCP_AGE_STAT_SLOT) none with
  | some g => (s.each g.2 fun s e => s.setPix e.1 e.2).wr LCP_AGE_STAT_RESTORE (b2n s.nvs.ageHead.isSome)
  | none => (s.wr LCP_AGE_STAT_RESTORE 2).raise 0x21 5

/-- The lamps of the dies that are present take the states of their user records, by the settings just loaded (R220). -/
def State.loadLamps (s : State) : State :=
  let t := { s with scan := { s.scan with plan := copySet planFields s.live s.scan.plan } }
  let u := t.each (List.range 4) fun s d => if s.on (DRV_STAT_PRESENT d) then s.lampLoad d else s
  { u with scan := { u.scan with plan := s.scan.plan } }

/-- Step 14: tables, policy tables, queue descriptors and the aging slot. The policy tables of a bundle apply at its first start
(R315). -/
def State.work14 (s : State) (w : StepWork) : State :=
  let p := s.nvs.path
  let s1 := s.each w.queues fun s e => s.each e.2.zipIdx fun s x => s.setWord (qDesc e.1.toNat x.2) x.1
  let s2 := { s1 with nvs := { s1.nvs with policy := s1.nvs.policySaved } }.wr NVS_GEN_TBL_PREV p
  let s3 := if s2.hasPixels then
      let t := s2.each s2.nvs.factory fun s e => s.setPix e.1 e.2
      let u := match t.nvs.tblGens.getD ((t.rd NVS_GEN_TBL_GEN + p) % 2) none with
        | some g => t.each g fun s e => s.setPix e.1 e.2
        | none => t
      u.loadAging.loadLamps
    else s2
  if s3.upd.trial = true ∧ s3.rd NVS_BOOT_STAT_LAST_RESET = 9 ∧ s3.on UPD_CFG_KEEP_POLICY = false then
    (w.policies.filter policyGood).foldl State.takePolicy s3
  else s3

/-- What a step does when it ends OK (Table 16-1). -/
def State.stepWork (s : State) (k : Nat) (w : StepWork) : State :=
  if k = 2 then s.work2 w else if k = 3 then s.work3 else if k = 4 then s.work4 w else if k = 6 then s.work6 w
  else if k = 8 then s.work8 w.coreFail.toNat
  else if k = 9 then s.work9 w
  else if k = 10 then (s.wr FMC_MEM_STAT_TRAINED w.trained.toNat).wr FMC_MEM_STAT_FAIL 0
  else if k = 11 then
    (if s.isTile = false ∧ s.host.pcieRefclk = true then { s with host := { s.host with pcieLinkUp := true } } else s)
  else if k = 14 then s.work14 w else s

/-- One repetition of a BOOT code on ALERT_N (R293): the start pulse, eight bit cells, highest bit first, and the pause. -/
def bootWave (code : Nat) : List (Bool × Nat) :=
  [(false, 4000), (true, 2000)] ++
    ((List.range 8).reverse.flatMap fun i => if code.testBit i then [(false, 1500), (true, 500)] else [(false, 500), (true, 1500)]) ++
    [(true, 20000)]

/-- Safe reset (R293): no chain, ingest or lamp output, and the BOOT code on ALERT_N. -/
def State.safeReset (s : State) (code : Nat) : State :=
  let s1 := s.leaveLit
  let s2 := s1.each [0, 1] fun s sd => if s.sideIsUp sd then s.takeDown sd else s
  { s2 with nvs := { s2.nvs with safe := true, restartDue := false, begun := none } }.wr NVS_BOOT_STAT_BOOT_CODE code
    |>.send (.alert (bootWave code))

/-- A step with no path left (Table 16-2), where the start continues. `detail` is the DETAIL of its failure. -/
def State.stepLost (s : State) (k detail : Nat) : State :=
  if k = 6 then (s.work6 ⟨0, false, [], 0, 0, 0, 0, [], []⟩).wr NVS_BOOT_STAT_DEGRADED 15
  else if k = 9 then (s.wr NVS_BOOT_STAT_FORCED_DARK 1).raise 3 6 |>.settingsTake
  else if k = 14 then (s.wr NVS_BOOT_STAT_FORCED_DARK 1).raise 3 7
  else if k = 10 then
    let s1 := s.wr FMC_MEM_STAT_FAIL (if detail = 0 then max 1 (s.rd FMC_MEM_CFG_CHAN_EN) else detail)
    (if s.isSender then (s1.wr (ARB_STAT_STATE 0) 1).wr (ARB_STAT_STATE 1) 1 else s1).raise 0x14 6
  else if k = 11 then s.wr NVS_BOOT_STAT_ALT (s.rd NVS_BOOT_STAT_ALT ||| 2 ^ 10)
  else if k = 15 then s.wr NVS_BOOT_STAT_ALT (s.rd NVS_BOOT_STAT_ALT ||| 2 ^ 14)
  else s

/-- Whether a step with no path left ends the start in safe reset. -/
def stepFatal (k : Nat) : Bool := decide (k ≤ 5) || k == 7 || k == 8

/-- A step whose work is already done in a soft-scope reset ends at once (R296): the PLLs, the sides, wall time. -/
def State.stepKept (s : State) (k : Nat) : Bool :=
  decide (6 ≤ s.rd NVS_BOOT_STAT_LAST_RESET) &&
    (k == 5 || (k == 12 && (s.sideIsUp 0 || s.sideIsUp 1)) || (k == 13 && decide (2 ≤ s.rd WTU_SRC_STAT_STATE)))

/-- Step `k` begins: its path is chosen and its begin record written (R291, R295). -/
def State.stepBegin (s : State) (k p tUs : Nat) : State :=
  let s1 := (s.wr NVS_BOOT_STAT_STEP k).stepRecord k p 0 0 tUs 0
  let s2 := { s1 with nvs := { s1.nvs with path := p, begun := some (k, p) } }
  if p = 0 then s2
  else
    let first := s2.rd NVS_BOOT_STAT_ALT == 0
    let s3 := s2.wr NVS_BOOT_STAT_ALT (s2.rd NVS_BOOT_STAT_ALT ||| 2 ^ (k - 1))
    if first then s3.raise 3 5 else s3

/-- Steps begin from step `k` on: one that ends at once gives way to the next. -/
def State.stepsFrom (tUs : Nat) : Nat → Nat → State → State
  | 0, _, s => s
  | n + 1, k, s =>
    if s.stepRuns k = false then
      State.stepsFrom tUs n (k + 1)
        { (((s.wr NVS_BOOT_STAT_STEP k).stepRecord k 0 0 0 tUs 0).stepRecord k 0 1 4 tUs 0) with nvs := { s.nvs with begun := none } }
    else match s.stepPath k with
      | none =>
        if stepFatal k then (s.wr NVS_BOOT_STAT_STEP k).safeReset (0x20 + k)
        else State.stepsFrom tUs n (k + 1) ((s.wr NVS_BOOT_STAT_STEP k).stepLost k 0)
      | some p =>
        let s1 := s.stepBegin k p tUs
        let s2 := if k = 4 ∧ s1.nvs.bootsel = true ∧ s1.rd HIF_STRAP_STAT_BOOTSEL = 3 then s1.stepRecord 4 p 1 6 tUs 0 else s1
        if s2.stepKept k then
          let s3 := s2.stepRecord k p 1 0 tUs 0
          State.stepsFrom tUs n (k + 1) { s3 with nvs := { s3.nvs with begun := none } }
        else s2

/-- The next step begins. -/
def State.nextStep (s : State) (k tUs : Nat) : State := State.stepsFrom tUs 16 (k + 1) s

/-- A step ends OK: its path's count is cleared, and the next one begins. -/
def State.stepDone (s : State) (k p : Nat) (e : StepEnd) (w : StepWork) : State :=
  let s1 := s.stepRecord k p 1 0 e.tUs.toNat e.detail.toNat
  let s2 := { s1 with nvs := { s1.nvs with begun := none, fails := s1.nvs.fails.set (4 * k + p) 0 } }
  (s2.stepWork k w).nextStep k e.tUs.toNat

/-- A step fails with a result (R292). -/
def State.stepFail (s : State) (k p result : Nat) (e : StepEnd) : State :=
  let s1 := s.stepRecord k p 1 result e.tUs.toNat e.detail.toNat
  let s2 := { s1 with nvs := { s1.nvs with begun := none } }.countFail k p
  if result = 5 then s2.askFallback 1
  else if (List.range (stepPaths k)).any fun q => s2.failCount k q < 2 then
    { s2 with nvs := { s2.nvs with restartDue := true } }
  else if stepFatal k then s2.safeReset (0x20 + k)
  else (s2.stepLost k e.detail.toNat).nextStep k e.tUs.toNat

/-- Whether what a step reports as OK stands: the colophon passes R305 and every component has its digest, where the bytes are known, and seven cores are left (R256). -/
def State.stepStands (s : State) (k p : Nat) (w : StepWork) : Bool :=
  if k = 4 then
    (p != 2 && s.slotTbl (s.imageSlot p) == [] && w.image == []) ||
      (match s.imageCol p w with
        | some c => s.colReason c (p == 2) == 0 && digestsOk (s.imageByte p w) c
        | none => false)
  else if k = 8 then decide (7 ≤ (s.coresFor w.coreFail.toNat).length)
  else true

/-! ### The end of a start, and its beginning -/

/-- STANDBY is entered: the leaf dies lose their supply (Table 16-7). -/
def State.enterStandby (s : State) (n : Nat) : State :=
  ((s.wr NVS_POWER_STATE 2).wr NVS_POWER_FRAME n).each (List.range 4) fun s d => (s.wr (DRV_STAT_LINK d) 0).wr (DRV_STAT_PLL_LOCK d) 0

/-- START_DONE (R288, R298): STEP reads 17 and the part enters its target state; a TARGET of LIT enters DARK first. After a thermal
recovery the state before the trip returns (R252). -/
def State.startDone (s : State) (e : StepEnd) : State :=
  let kind := s.rd NVS_BOOT_STAT_LAST_RESET
  let s1 := (s.stepRecord 16 0 1 0 e.tUs.toNat e.detail.toNat).wr NVS_BOOT_STAT_STEP 17
  let s2 := { s1 with nvs := { s1.nvs with begun := none } }
  let dark := s2.on NVS_BOOT_STAT_FORCED_DARK || s2.on UPD_SLOT_RECOVERY
  let target := if dark then 1 else if kind = 8 then s2.house.prior else s2.rd NVS_BOOT_CFG_TARGET
  let st := if s2.house.shut ∨ target = 2 then 2 else 1
  let sw : State := { s2 with nvs := { s2.nvs with litWait := target == 0 && s2.isTile } }
  let s3 := if st = 2 then sw.enterStandby s2.frame else (sw.wr NVS_POWER_STATE 1).wr NVS_POWER_FRAME s2.frame
  let s4 := s3.raise 3 4
  let s5 := if kind = 8 then s4.raise 5 8 else s4
  if s5.upd.probation then
    let s6 := (s5.wr UPD_ACT_STATE 3).wr UPD_ACT_ACT_FRAME s5.upd.actFrame
    if kind = 9 then (s6.raise 4 9).updPost 2 0 0 0 (s6.rd UPD_ACT_NO_NUMBER) s6.runCid.toNat 0 else s6
  else if kind = 9 then ((s5.wr UPD_ACT_STATE 5).wr UPD_ACT_ACT_FRAME s5.upd.actFrame).raise 4 11
  else s5

/-- The step a kind's start begins at (Table 16-5). -/
def firstStep (kind : Nat) : Nat := if kind = 1 then 1 else if kind < 6 then 2 else 4

/-- Count a reset of a kind (R296). -/
def State.countReset (s : State) (kind : Nat) : State :=
  let s1 := s.wr NVS_BOOT_STAT_LAST_RESET kind
  if kind = 9 then s1.bump NVS_RST_CNT2_CNT_9 else s1.bump (NVS_RST_CNT_CNT (kind - 1))

/-- A start begins after a reset of a kind (R288, R295, R296): a step left without its end record counts as failed. -/
def State.startFrom (s : State) (kind : Nat) : State :=
  let n := s.rd NVS_BOOT_STAT_START_NO
  let open1 := s.nvs.begun
  let s1 := { s with nvs := { s.nvs with begun := none } }.countReset kind
  let s2 := ((((s1.wr NVS_BOOT_STAT_ALT 0).wr NVS_BOOT_STAT_DEGRADED 0).wr NVS_BOOT_STAT_FORCED_DARK 0).wr NVS_BOOT_STAT_WOKE 0).wr
    NVS_BOOT_STAT_BOOT_CODE 0
  let s3 := (s2.wr NVS_POWER_STATE 1).each (blockPages.filter (pageActive s2.role)) fun s pg =>
    ((s.wr (BLK_STAT_RDY pg) 1).wr (BLK_STAT_XRDY pg) 1).wr (BLK_CTRL_EN pg) 1
  if s3.role = 3 then s3.safeReset 0x0E
  else
    let s4 := s3.wr NVS_BOOT_STAT_START_NO ((n + 1) % 65536)
    let s5 := if s4.isTile then s4.wr (ARB_STAT_STATE 0) 5 else s4
    let t0 := s5.free % 2 ^ 32
    let s6 := s5.drawn.stepRecord 0 0 0 kind t0 0
    let s7 := match open1 with
      | some (k, p) =>
        let t := if s6.house.shut then s6 else s6.ledgerPut n k p 1 7 t0 0
        if stepWaits k then t else t.countFail k p
      | none => s6
    let s8 := if kind = 4 ∨ kind = 5 then s7.askFallback 2 else s7
    State.stepsFrom t0 16 (firstStep kind) s8

/-- A reset of a kind applies, and its start begins. Lamps go off by safe disable first (R215). -/
def State.restart (s : State) (kind : Nat) : State :=
  let s1 := s.leaveLit.resetPart kind
  { s1 with nvs := { s1.nvs with bootsel := false } }.startFrom kind

/-! ### Resets (R1, R296 to R299) -/

/-- POR (R1, R4, R296). -/
def execPor (role bootsel : BitVec 2) (s : State) : Outcome State Fault Refusal :=
  let s1 := ((s.resetPart 1).wr HIF_STRAP_STAT_ROLE role.toNat).wr HIF_STRAP_STAT_BOOTSEL bootsel.toNat
  let s2 := s1.wr NVS_BOOT_CFG_TARGET (if role = 0 then 0 else 1)
  .next ({ s2 with nvs := { s2.nvs with bootsel := true } }.startFrom 1)

/-- BROWN_OUT: outside SLEEP; in safe reset no further start comes of it (Table 16-2). -/
def execBrownOut (s : State) : Outcome State Fault Refusal :=
  .next (if s.asleep || s.nvs.safe || s.nvs.clockLost then s else s.restart 2)

/-- The regulator enable pin at its active level, or inactive (R299). -/
def State.railPin (s : State) (active : Bool) : State := s.send (.pin .railGpio (b2n (active != s.on NVS_SLEEP_CFG_RAIL_POL)))

/-- RESET_N: in SLEEP it also wakes the part (R299); with ROLE = 0b11 the part stays in reset (R4). -/
def execResetN (s : State) : Outcome State Fault Refusal :=
  .next (if s.role = 3 then s else if s.asleep then (s.railPin true).restart 3 else s.restart 3)

/-- WATCHDOG_EXPIRE (R257, R288): armed from the end of step 9. -/
def execWatchdogExpire (s : State) : Outcome State Fault Refusal :=
  .next (if s.on CCC_WDT_EN = false ∨ s.rd NVS_BOOT_STAT_STEP ≤ 9 ∨ s.asleep = true ∨ s.nvs.safe = true ∨ s.house.absHeld = true then s
    else (s.bump CCC_WDT_WDT_CNT).restart 4)

/-- STEP_TIMEOUT (R288, R289): a step reaches its limit; a waiting step ends PARTIAL and the start continues. -/
def execStepTimeout (e : StepEnd) (s : State) : Outcome State Fault Refusal :=
  match s.nvs.begun with
  | some (k, p) =>
    if k = 16 then .next s
    else if stepWaits k then
      let s1 := s.stepRecord k p 1 3 e.tUs.toNat e.detail.toNat
      .next ({ s1 with nvs := { s1.nvs with begun := none } }.nextStep k e.tUs.toNat)
    else .next (s.stepFail k p 2 e)
  | none => .next s

/-- START_STEP_END (R288): the step in progress ends OK, or reports failure. A failure to read settings of older firmware is
CONVERT_FAIL (R317). -/
def execStartStepEnd (e : StepEnd) (w : StepWork) (s : State) : Outcome State Fault Refusal :=
  match s.nvs.begun with
  | some (k, p) =>
    let s1 := if k = 8 then s.noteBist w.coreFail.toNat else s
    if k = 16 then .next (if e.ok then s1.startDone e else s1)
    else if e.ok && s1.stepStands k p w then .next (s1.stepDone k p e w)
    else .next (s1.stepFail k p (if k = 9 ∧ w.convertFail = true ∧ s1.upd.trial = true then 5 else 1) e)
  | none => .next s

/-- STEP_RESTART (R292). -/
def execStepRestart (s : State) : Outcome State Fault Refusal := .next (if s.nvs.restartDue then s.restart 5 else s)

/-- START_DONE: step 16 ends. -/
def execStartDone (e : StepEnd) (s : State) : Outcome State Fault Refusal :=
  .next (if s.nvs.begun = some (16, 0) then s.startDone e else s)

/-- SOFT_RESET (R297): effective with KEY = 0xA5; discarded with BUSY before step 16 has ended. -/
def execSoftReset (src : Requester) (key : BitVec 8) (s : State) : Outcome State Fault Refusal :=
  .next (if key.toNat ≠ 0xA5 ∨ s.asleep = true then s
    else if s.starting then s.capture 3 errBUSY src 0x90 (1 + key.toNat * 256)
    else s.requestSoft (if src = .remote then 6 else 7))

/-- SOFT_RESET_APPLY (R297): once the saves are complete. -/
def execSoftResetApply (s : State) : Outcome State Fault Refusal :=
  match s.nvs.softKind with
  | some k => .next (if s.nvs.ops = [] then s.restart k else s)
  | none => .next s

/-- PATH_CLR (R291): a register write, so not in SLEEP nor without a clock. -/
def execPathClr (_src : Requester) (s : State) : Outcome State Fault Refusal :=
  .next (if s.asleep || s.nvs.clockLost then s else { s with nvs := { s.nvs with fails := [] } })

/-- THERMAL_RECOVERY (R252): after 16 cool rounds in thermal STANDBY; kind 8 saves nothing (R297). -/
def execThermalRecovery (s : State) : Outcome State Fault Refusal :=
  if s.house.standby = true ∧ s.house.cool = 16 then
    let s1 := s.resetPart 8
    let s2 := { s1 with house := { s1.house with shut := false, standby := false, absHeld := false, cool := 0 }
                        nvs := { s1.nvs with bootsel := false } }
    .next (s2.showLevel.startFrom 8)
  else .next s

/-! ### Clocks, rails and the PCI Express pins (R334) -/

/-- QREFCLK_LOSS (R334): a brown-out-scope reset; the part starts when the clock has been back for 1 ms. -/
def execQrefclkLoss (s : State) : Outcome State Fault Refusal :=
  if s.asleep || s.nvs.safe then .next s
  else
    let s1 := s.leaveLit.resetPart 2
    .next ({ s1 with nvs := { s1.nvs with bootsel := false, clockLost := true } }.wr NVS_BOOT_STAT_STEP 2)

/-- QREFCLK_RETURN (R334): start from step 2, recorded as kind 2. -/
def execQrefclkReturn (s : State) : Outcome State Fault Refusal :=
  .next (if s.nvs.clockLost then { s with nvs := { s.nvs with clockLost := false } }.startFrom 2 else s)

/-- The PCI Express endpoint and its crossing are reset: its held halves and MSI-X state go. -/
def State.endpointReset (s : State) : State :=
  let mine (r : Requester) : Bool := r == .pcie
  let w := s.host.wHold.filter fun e : Requester × Nat × Nat => !mine e.1
  let r := s.host.rHold.filter fun e : Requester × Nat × Nat => !mine e.1
  let x := s.host.winHold.filter fun e : Requester × Nat × Nat => !mine e.1
  { s with host := { s.host with pcieLinkUp := false, msixOpen := 0, msixPba := 0, wHold := w, rHold := r, winHold := x } }

/-- PCIE_REFCLK_LOSS (R334): the link goes down, and the endpoint is held in reset. -/
def execPcieRefclkLoss (s : State) : Outcome State Fault Refusal :=
  .next { s.endpointReset with host := { s.endpointReset.host with pcieRefclk := false } }

/-- PCIE_REFCLK_RETURN (R334): the endpoint is released; the link comes up where step 11 has passed. -/
def execPcieRefclkReturn (s : State) : Outcome State Fault Refusal :=
  .next { s with host := { s.host with pcieRefclk := true,
                                       pcieLinkUp := s.host.pcieLinkUp || (!s.isTile && decide (11 < s.rd NVS_BOOT_STAT_STEP)) } }

/-- PERST (R334): only the endpoint and its crossing; the link comes up again after it. -/
def execPerst (s : State) : Outcome State Fault Refusal :=
  .next { s.endpointReset with host := { s.endpointReset.host with pcieLinkUp := s.host.pcieLinkUp } }

/-- VLF_LOSS (R334): the die's outputs go off and its link down, OFF_WHY = LINK. -/
def execVlfLoss (d : Fin 4) (s : State) : Outcome State Fault Refusal :=
  .next (if s.on (DRV_STAT_PRESENT d) then (s.wr (DRV_STAT_LINK d) 0).bankFails d whyLINK else s)

/-- XIN32_LOSS (R334): the always-on counter runs from the RC oscillator; nothing the part holds changes. -/
def execXin32Loss (s : State) : Outcome State Fault Refusal := .next s

/-! ### SLEEP and wake (R298, R299) -/

/-- SLEEP_ENTRY (R299): once the pending saves are complete, only the VAON domain stays up. -/
def execSleepEntry (s : State) : Outcome State Fault Refusal :=
  match s.nvs.power with
  | some p =>
    if p.target = 3 ∧ p.held = true ∧ s.nvs.ops = [] then
      let n := s.frame
      .next ((((s.railPin false).resetPart 2).wr NVS_POWER_STATE 3).wr NVS_POWER_FRAME n)
    else .next s
  | none => .next s

/-- The field that enables a wake source. -/
def wakeEnable : WakeSource → Fld
  | .beacon => NVS_SLEEP_CFG_BEACON_EN
  | .pin => NVS_SLEEP_CFG_PIN_EN
  | .alarm => NVS_SLEEP_CFG_ALARM_EN

/-- WAKE (R299): by an enabled source; recorded as kind 2, WOKE tells it apart. -/
def execWake (w : WakeSource) (s : State) : Outcome State Fault Refusal :=
  .next (if s.asleep && s.on (wakeEnable w) then (((s.railPin true).restart 2).wr NVS_BOOT_STAT_WOKE 1).raise 3 9 else s)

/-! ### Power states (R298) -/

/-- A request's answer. -/
def State.powerAnswer (s : State) (p : PowerReq) (n : Nat) : State :=
  match p.req with
  | some r => s.respond r 0x0030 stOK [n]
  | none => s

/-- LIT is refused, with an event that names the failed condition (R3, R161). -/
def State.litRefused (s : State) (why : Nat) : State := s.post 0x800A [why]

/-- Why a POWER request is not accepted: its status, and the condition of a LIT_REFUSED event. -/
def State.powerRefuse (s : State) (st : Nat) : Option (Nat × Option Nat) :=
  if s.starting || s.asleep then some (stBUSY, none)
  else if st = 0 ∧ s.isSender = true then some (stBAD_ARG, none)
  else if st = 0 ∧ s.isTile = false then some (stREFUSED, some whyROLE)
  else if s.house.shut then some (stREFUSED, none)
  else if s.nvs.softKind.isSome then some (stBUSY, none)
  else if st = 0 ∧ (s.rd REC_CTRL_MODE = 2 ∨ s.on UPD_SLOT_RECOVERY = true) then some (stREFUSED, none)
  else if st = 0 ∧ s.rd WTU_SRC_STAT_STATE < 2 then some (stREFUSED, some whyTIME)
  else if 2 ≤ st ∧ s.isSender = true ∧ (s.rd (ARB_STAT_STATE 0) = 2 ∨ s.rd (ARB_STAT_STATE 1) = 2) then some (stREFUSED, none)
  else if st = 3 ∧ ((s.on NVS_SLEEP_CFG_PIN_EN = true ∧ s.rd NVS_SLEEP_CFG_WAKE_GPIO < 12) ∨ s.rd NVS_SLEEP_CFG_RAIL_GPIO < 12) then
    some (stREFUSED, none)
  else none

/-- POWER (R298). A LIT request is answered at the tick LIT is entered, any other with its tick at once. A later request takes the
place of one not yet in effect. -/
def execPower (r : Req) (state : BitVec 2) (s : State) : Outcome State Fault Refusal :=
  let st := state.toNat
  s.mailbox r 0x0030 fun s => match s.powerRefuse st with
    | some (status, ev) =>
      let s1 := match ev with
        | some why => s.litRefused why
        | none => s
      s1.respond r 0x0030 status []
    | none =>
      let n := s.frame + (if st = 3 then 16 else 1)
      let s1 := match s.nvs.power.bind PowerReq.req with
        | some q => s.respond q 0x0030 stREFUSED []
        | none => s
      let s2 := { s1 with nvs := { s1.nvs with power := some ⟨st, n, if st = 0 then some r else none, false⟩, litWait := false } }
      if st = 0 then s2 else s2.respond r 0x0030 stOK [n]

/-- LIT is entered at tick `n`: firmware sets LAMP_EN, and light that a host write had ended may return (R214, Table 10-6). -/
def State.enterLit (s : State) (n : Nat) : State :=
  let s1 := { s with scan := { s.scan with banks := s.scan.banks.map fun b : Bank => if b.wait = whyHOST then { b with wait := 0 } else b } }
  ((s1.wr NVS_POWER_STATE 0).wr NVS_POWER_FRAME n).wr SCN_CTRL_LAMP_EN 1

/-- Whether R161 permits LIT; between an activation and RELIGHT it does not come (R313), and a tile without a node index stays DARK
(R14, R142). -/
def State.timePermits (s : State) : Bool :=
  s.isTile && decide (2 ≤ s.rd WTU_SRC_STAT_STATE) && !s.upd.relight && s.on (QLK_TOPO_NODE_VALID 0)

/-- Whether R214's tile-wide conditions hold but for those that LIT entry brings. -/
def State.lightPermits (s : State) : Bool := (s.enterLit 0).tileWhy == 0

/-- A request takes effect at tick `n`. -/
def State.powerEnter (s : State) (n : Nat) (p : PowerReq) : State :=
  let st := s.rd NVS_POWER_STATE
  let drop (s : State) : State := { s with nvs := { s.nvs with power := none } }
  if p.target = 3 then
    (if p.held then s
      else { s with nvs := { s.nvs with power := some { p with held := true } } }.leaveLit.saveAll)
  else if p.target = 0 then
    if st = 2 then ({ s with nvs := { s.nvs with power := some { p with held := true } } }.wr NVS_POWER_STATE 1).wr NVS_POWER_FRAME n
    else if s.timePermits then ((drop s).enterLit n).powerAnswer p n
    else { s with nvs := { s.nvs with power := some { p with held := true } } }
  else if p.target = st then drop s
  else if p.target = 2 then (drop s).leaveLit.enterStandby n
  else if st = 0 then (drop s).leaveLit.wr NVS_POWER_FRAME n
  else ((drop s).wr NVS_POWER_STATE 1).wr NVS_POWER_FRAME n

/-- POWER_STATE_ENTRY, in tick `n`. A held tick changes no power state (R176). -/
def State.powerTick (s : State) (n : Nat) (held : Bool) : State :=
  if held || s.starting || s.asleep || s.house.shut then s
  else match s.nvs.power with
    | some p => if p.frame ≤ n then s.powerEnter n p else s
    | none =>
      if s.nvs.litWait && s.rd NVS_POWER_STATE == 1 && s.timePermits && s.lightPermits then
        { s with nvs := { s.nvs with litWait := false } }.enterLit n
      else s

/-! ### Generation saves (R301, R302) -/

/-- SAVE.GO: every dirty area is saved now. -/
def State.saveGo (s : State) : State := s.each s.dirtyAreas State.queueOp

/-- GENERATION_SAVE_START: MIRROR_MS after the area's first change. -/
def execGenerationSaveStart (area : Fin 3) (s : State) : Outcome State Fault Refusal :=
  .next (if (s.rd NVS_SAVE_DIRTY).testBit area && !s.asleep then s.queueOp area else s)

/-- The words a tables save holds: the M-class regions of Table 09-1 but the aging counters. -/
def State.tableWords (s : State) : Tbl 72 :=
  let inTbl (k : Nat) : Bool := decide (pixKey 0x120000 ≤ k ∧ k < pixKey 0x130000) || decide (pixKey 0x140000 ≤ k ∧ k < pixKey 0x150000)
  (s.win.filter fun e => inTbl e.1).map fun e => (e.1 - pixKey 0, e.2)

/-- The settings are written to the generation that is not current, or to the probation area while the firmware that runs is in
probation, or has been fallen back from (R302, R315, R318). -/
def State.saveSettings (s : State) : State :=
  if s.upd.trial then { s with nvs := { s.nvs with probation := some s.settingsNow } }
  else
    let g := (s.rd NVS_GEN_SET_GEN + 1) % 2 ^ 24
    let fmt := match s.upd.running with | some c => c.setFmt.toNat | none => s.rd UPD_SLOT_SET_FMT
    let s1 := { s with nvs := { s.nvs with setGens := s.nvs.setGens.set (g % 2) (some s.settingsNow) },
                       upd := { s.upd with fmts := s.upd.fmts.set (g % 2) fmt } }
    (s1.wr NVS_GEN_SET_GEN g).wr UPD_SLOT_SET_FMT fmt

/-- GENERATION_SAVE_DONE (R302): the marker makes the generation current. -/
def execGenerationSaveDone (s : State) : Outcome State Fault Refusal :=
  let fin (t : State) : State := (t.bump NVS_MRAM_RECORDS).popOp.raise 3 8
  match s.nvs.ops.head? with
  | some 0 => .next (fin s.saveSettings)
  | some 1 =>
    let g := (s.rd NVS_GEN_TBL_GEN + 1) % 2 ^ 24
    .next (fin ({ s with nvs := { s.nvs with tblGens := s.nvs.tblGens.set (g % 2) (some s.tableWords) } }.wr NVS_GEN_TBL_GEN g))
  | some 2 =>
    .next (fin { s with nvs := { s.nvs with policySaved := (s.nvs.policyNext.map Prod.fst).foldl putPolicy s.nvs.policy } })
  | _ => .next s

/-- A record of 32 words of the folio at the FIFO's head is written to the inactive slot; with the second one the folio is stored (R307, R308). -/
def State.folioRecord (s : State) : State :=
  match s.upd.fifo with
  | (i, ws) :: t =>
    if s.upd.half then
      let s1 := s.writeSlot s.spareSlot (64 * i + 32) (ws.drop 32)
      { s1 with upd := { s1.upd with fifo := t, half := false, turn := false, got := s.upd.got ||| 2 ^ i } }.wr UPD_STAGE_MISSING
        (s.rd UPD_STAGE_MISSING - 1)
    else
      let s1 := s.writeSlot s.spareSlot (64 * i) (ws.take 32)
      { s1 with upd := { s1.upd with half := true } }
  | [] => s

/-- JOURNAL_RECORD_DONE (R301, R251): the record has its marker and the writer takes the next; while another operation runs, bundle
storage alternates with it. A record that completes after a trip is the last. -/
def execJournalRecordDone (s : State) : Outcome State Fault Refusal :=
  if s.nvs.recBusy = false then .next s
  else
    let s1 := s.bump NVS_MRAM_RECORDS
    if s1.house.shut then .next ({ s1 with nvs := { s1.nvs with recBusy := false } }.shutMram 1)
    else
      let s2 := if s1.upd.fifo ≠ [] ∧ (s1.nvs.ops = [] ∨ s1.upd.turn = true) then s1.folioRecord
        else { s1 with upd := { s1.upd with turn := !s1.upd.fifo.isEmpty } }
      .next { s2 with nvs := { s2.nvs with recBusy := !(s2.nvs.ops.isEmpty && s2.upd.fifo.isEmpty) } }

end Sys2Proof.Machine
end

