-- ==== Sys2Proof/Machine/Update.lean ====
section
/-! DEFINITION. Firmware update and activation (spec/17_update.md). -/

namespace Sys2Proof.Machine

open Host

/-! ### Staging (R305, R308, R309) -/

/-- A bundle is refused with a reason of Table 17-3: an UPDATE event follows where STATE becomes REFUSED (R308, R310). -/
def State.stageRefuse (s : State) (cid reason : Nat) : State :=
  let new := s.rd UPD_STAGE_STATE != 3 || s.rd UPD_STAGE_CID_CID != cid || s.rd UPD_STAGE_REASON != reason
  let s1 := ((((s.wr UPD_STAGE_STATE 3).wr UPD_STAGE_REASON reason).wr UPD_STAGE_CID_CID cid).wr UPD_STAGE_CID_CID_OTHER 0).bump
    UPD_CNT_REFUSED
  let s2 := { s1 with upd := { s1.upd with col := none, got := 0, fifo := [], half := false } }
  if new then (s2.raise 4 5).updPost 5 0 0 reason 0 cid 0 else s2

/-- Reception of an accepted bundle of `total` folios begins with a clear received map. -/
def State.stageBegin (s : State) (c : Colophon) (total : Nat) : State :=
  let s1 := ((((((s.wr UPD_STAGE_STATE 1).wr UPD_STAGE_REASON 0).wr UPD_STAGE_CID_CID c.cid.toNat).wr UPD_STAGE_CID_CID_OTHER 0).wr
    UPD_STAGE_TOTAL total).wr UPD_STAGE_MISSING total)
  { s1 with upd := { s1.upd with col := some c, got := 0, fifo := [], half := false } }

/-- Two bundles of one SEQ are both refused (R309). -/
def State.stageConflict (s : State) (x c : Colophon) : State :=
  let s1 := ((((s.wr UPD_STAGE_STATE 4).wr UPD_STAGE_REASON 10).wr UPD_STAGE_CID_CID x.cid.toNat).wr UPD_STAGE_CID_CID_OTHER
    c.cid.toNat).bumpM UPD_CNT_CONFLICTS
  let s2 := { s1 with upd := { s1.upd with col := none, got := 0, fifo := [], half := false,
                                           barred := s1.upd.barred ++ [(x.cid.toNat, x.seq.toNat), (c.cid.toNat, c.seq.toNat)] } }
  (s2.raise 4 6).updPost 1 0 0 10 0 x.cid.toNat c.cid.toNat

/-- A complete colophon is accepted, ignored or refused (R305, R308, R309). After a conflict neither CID is accepted again until a
colophon with another SEQ arrives. -/
def State.takeColophon (s : State) (c : Colophon) (total : Nat) : State :=
  let cid := c.cid.toNat
  if s.upd.probation then s.stageRefuse cid 9
  else if s.colReason c false ≠ 0 then s.stageRefuse cid (s.colReason c false)
  else
    let barred := s.upd.barred.filter fun e => e.2 == c.seq.toNat
    let t := { s with upd := { s.upd with barred := barred } }
    if barred.any fun e => e.1 == cid then t
    else match t.upd.col with
      | some x =>
        if x.cid = c.cid then t
        else if x.seq.toNat < c.seq.toNat then t.stageBegin c total
        else if c.seq.toNat < x.seq.toNat then t.bump UPD_CNT_STALE_SEQ
        else t.stageConflict x c
      | none => t.stageBegin c total

/-- A folio of the bundle being received enters the store FIFO, unless it is stored, queued, or finds the FIFO full (R308). -/
def State.takeFolio (s : State) (cid i : Nat) (ws : List Word72) : State :=
  if s.rd UPD_STAGE_STATE ≠ 1 ∨ s.rd UPD_STAGE_CID_CID ≠ cid ∨ s.rd UPD_STAGE_TOTAL ≤ i ∨ s.house.shut = true ∨
      s.nvs.softKind.isSome = true then s
  else if s.upd.got.testBit i || (s.upd.fifo.any fun e => e.1 == i) || decide (32 ≤ s.upd.fifo.length) then s
  else { s with upd := { s.upd with fifo := s.upd.fifo ++ [(i, ws)] }, nvs := { s.nvs with recBusy := true } }

/-- A colophon folio is held, with those of the same CID held before. -/
def State.holdColophon (s : State) (cid i : Nat) (ws : List Word72) : State :=
  let u := s.upd
  let old := u.colCid == cid
  { s with upd := { u with colCid := cid, colGot := (if old then u.colGot else 0) ||| 2 ^ i,
                           colWords := ws.zipIdx.foldl (fun (t : Tbl 72) e => t.set (64 * i + e.2) e.1) (if old then u.colWords else []) } }

/-- The eight colophon folios of a CID are held: the colophon they spell, or FORMAT where they are inconsistent (R308, Table 17-3). Their
bundle has at most 576 bytes a folio. -/
def State.colophonHeld (s : State) (cid seq total : Nat) : State :=
  let s1 := { s with upd := { s.upd with colGot := 0 } }
  match readColophon (wordByte s.upd.colWords) (min slotBytes (576 * total)) with
  | some c => if c.cid.toNat = cid ∧ c.seq.toNat % 2 ^ 32 = seq then s1.takeColophon c total else s1.stageRefuse cid 1
  | none => s1.stageRefuse cid 1

/-- BUNDLE_FOLIO_RECEIVE (R307, R308). A partner sender sends on what it receives over Ethernet. -/
def execBundleFolioReceive (sd : Fin 2) (via : Via) (words : List Word72) (s : State) : Outcome State Fault Refusal :=
  let w0 := (words.getD 0 0).toNat
  let w1 := (words.getD 1 0).toNat
  let cid := bitsOf w0 63 32
  let i := bitsOf w1 14 0
  let ws := (words.drop 2).take 64
  if w0 / 2 ^ 64 ≠ 0x9A ∨ w1 / 2 ^ 64 ≠ 0x9B ∨ s.accepts via = false then .next s
  else
    let s0 := if via != .ring && s.isSender then s.sendSide sd 9 (words.map BitVec.toNat) else s
    let s1 := s0.wr UPD_STAGE_PASS (bitsOf w1 39 36)
    let s2 := if i < 8 then s1.holdColophon cid i ws else s1
    let s3 := if i < 8 ∧ s2.upd.colGot = 255 then s2.colophonHeld cid (bitsOf w0 31 0) (bitsOf w1 29 15) else s2
    .next (s3.takeFolio cid i ws)

/-- A bundle is staged: the header's inactive slot holds it whole. -/
def State.stageDone (s : State) : State := (s.wr UPD_STAGE_STATE 2).raise 4 4

/-- PASS_IDLE (R308): no folio of the pass has arrived for 50 ms. -/
def execPassIdle (s : State) : Outcome State Fault Refusal :=
  if s.rd UPD_STAGE_PASS = 0 then .next s
  else
    let s1 := s.updPost 0 (s.rd UPD_STAGE_MISSING) (s.rd UPD_STAGE_PASS) 0 0 (s.rd UPD_STAGE_CID_CID) 0
    match s1.upd.col with
    | some c =>
      if s1.rd UPD_STAGE_STATE ≠ 1 then .next s1
      else if s1.rd UPD_STAGE_MISSING = 0 then
        .next (if digestsOk (s1.slotByte s1.spareSlot) c then s1.stageDone else s1.stageRefuse c.cid.toNat 8)
      else if s1.rd UPD_CFG_PASSES ≤ s1.rd UPD_STAGE_PASS then .next (s1.stageRefuse c.cid.toNat 11)
      else .next s1
    | none => .next s1

/-- UPD.CTRL.CLEAR (R309). -/
def State.updClear (s : State) : State :=
  let s1 := { s with upd := { s.upd with col := none, colCid := 0, colGot := 0, colWords := [], got := 0, fifo := [], half := false, barred := [] } }
  [UPD_STAGE_STATE, UPD_STAGE_REASON, UPD_STAGE_MISSING, UPD_STAGE_TOTAL, UPD_STAGE_PASS, UPD_STAGE_CID_CID,
    UPD_STAGE_CID_CID_OTHER].foldl (fun s f => s.wr f 0) s1

/-! ### Transport (R307, Table 17-4) -/

/-- Nine bytes of the bundle, zeros past its end. -/
def State.bundleWord (s : State) (b : BundleSend) (o : Nat) : Nat :=
  (List.range 9).foldl (fun a j => a + (if o + j < b.len then (s.byte (b.addr + o + j)).toNat else 0) * 2 ^ (8 * j)) 0

/-- The 64 words that folio `i` fills. -/
def State.bundleWords (s : State) (b : BundleSend) (i : Nat) : List Nat := (List.range 64).map fun w => s.bundleWord b (576 * i + 9 * w)

/-- BUNDLE folio `i` of a pass on a ring. -/
def State.bundleFolio (s : State) (b : BundleSend) (ring i : Nat) : List Nat :=
  [b.seq % 2 ^ 32 + b.cid * 2 ^ 32 + 0x9A * 2 ^ 64, i + b.total * 2 ^ 15 + ring * 2 ^ 30 + b.pass * 2 ^ 36 + 0x9B * 2 ^ 64]
  ++ s.bundleWords b i ++ [0, 0, 0, 0, 0]

/-- The order of a pass: the colophon folios first, and again after every 1,024 further folios. -/
def passOrder (total : Nat) : List Nat :=
  let col := List.range (min 8 total)
  col ++ (List.range (total - 8)).flatMap fun j => (j + 8) :: (if (j + 1) % 1024 = 0 then col else [])

/-- One pass goes out on the sides named, and over Ethernet. -/
def State.sendPass (s : State) (b : BundleSend) : State :=
  s.each (passOrder b.total) fun s i =>
    let s1 := s.when (b.sides.testBit 0) fun s => s.sendSide 0 9 (s.bundleFolio b (s.rd (QLK_TOPO_RING 0)) i)
    let s2 := s1.when (b.sides.testBit 1) fun s => s.sendSide 1 9 (s.bundleFolio b (s.rd (QLK_TOPO_RING 1)) i)
    s2.sendEther 9 s2.ring (s2.bundleFolio b s2.ring i)

/-- Why a bundle in frame memory is not staged (R304, R305, R308), as a code of Table 17-3; 0 where it is. -/
def State.stageReason (s : State) (byte : Nat → Nat) (col : Option Colophon) : Nat :=
  if s.upd.probation then 9
  else match col with
    | some c => if s.colReason c false ≠ 0 then s.colReason c false else if digestsOk byte c then 0 else 8
    | none => 1

/-- A bundle in frame memory is stored in the inactive slot, two records a folio (R307). -/
def State.storeBundle (s : State) (b : BundleSend) : State :=
  let s1 := (s.each (List.range b.total) fun s i => s.writeSlot s.spareSlot (64 * i) ((s.bundleWords b i).map (BitVec.ofNat 72))).bumpBy
    NVS_MRAM_RECORDS (2 * b.total)
  let s2 := (s1.wr UPD_STAGE_MISSING 0).wr UPD_STAGE_TOTAL b.total
  { s2 with upd := { s2.upd with fifo := [], half := false, got := 2 ^ b.total - 1 } }.stageDone

/-- STAGE (R304, R305, R307). -/
def execStage (r : Req) (addr : Word) (length : BitVec 32) (sides : BitVec 2) (s : State) : Outcome State Fault Refusal :=
  s.mailbox r 0x0070 fun s =>
    let byte := s.hostByte addr.toNat length.toNat
    let col := readColophon byte length.toNat
    let cid := bundleCid byte
    let why := s.stageReason byte col
    let n := ceilDiv length.toNat 576
    if s.isTile then s.respond r 0x0070 stBAD_ARG []
    else match (if why = 0 then col else none) with
      | none => (s.stageRefuse cid why).respond r 0x0070 stREFUSED [why]
      | some c =>
        let s1 := s.takeColophon c n
        if s1.rd UPD_STAGE_STATE = 4 ∨ s1.rd UPD_STAGE_CID_CID ≠ cid then s1.respond r 0x0070 stREFUSED [10]
        else
          let b : BundleSend := ⟨addr.toNat, length.toNat, sides.toNat, 1, false, cid, c.seq.toNat, n⟩
          let s2 := s1.storeBundle b
          ({ s2 with upd := { s2.upd with sending := some b } }.sendPass b).respond r 0x0070 stOK [cid, n]

/-- BUNDLE_PASS_START (R308): another pass while nodes report missing folios, up to PASSES; else sending ends. -/
def execBundlePassStart (s : State) : Outcome State Fault Refusal :=
  match s.upd.sending with
  | some b =>
    if b.more && decide (b.pass < s.rd UPD_CFG_PASSES) then
      let b1 := { b with pass := b.pass + 1, more := false }
      .next ({ s with upd := { s.upd with sending := some b1 } }.sendPass b1)
    else .next { s with upd := { s.upd with sending := none } }
  | none => .next s

/-- The whole value of a register. -/
def State.regNow (s : State) (pg off : Nat) : Nat := (regFields pg off).foldl (fun a f => a + s.rd f * 2 ^ f.lo) 0

/-- UPD_STATUS (R320). -/
def execUpdStatus (r : Req) (s : State) : Outcome State Fault Refusal :=
  s.mailbox r 0x0071 fun s => s.respond r 0x0071 stOK [s.regNow 4 0x90, s.regNow 4 0xA0, s.regNow 4 0xA8, s.regNow 4 0x80]

/-! ### Keys (R306) -/

/-- ENROLL (R306): a revoked slot accepts only a different key. -/
def execEnroll (r : Req) (slot : BitVec 3) (key : Nat) (unitId : Word) (rootKey sig : Nat) (s : State) :
    Outcome State Fault Refusal :=
  let k := slot.toNat
  s.mailbox r 0x0075 fun s =>
    if k = 0 ∨ 4 < k then s.respond r 0x0075 stBAD_ARG []
    else if keyAllowed unitId rootKey sig (keyMessage [0x45, 0x4E, 0x52, 0x4C] k (beBytes 96 key) unitId) = false ∨ (s.upd.revoked.getD (k - 1) 0 = key ∧
        (s.rd UPD_KEYS_VALID).testBit (k - 1) = false) then s.respond r 0x0075 stREFUSED []
    else
      let s1 := { s with upd := { s.upd with keys := s.upd.keys.set (k - 1) key } }.wr UPD_KEYS_VALID
        (s.rd UPD_KEYS_VALID ||| 2 ^ (k - 1))
      ((s1.bump NVS_MRAM_RECORDS).raise 4 12).respond r 0x0075 stOK []

/-- REVOKE (R306). -/
def execRevoke (r : Req) (slot : BitVec 3) (unitId : Word) (rootKey sig : Nat) (s : State) : Outcome State Fault Refusal :=
  let k := slot.toNat
  s.mailbox r 0x0076 fun s =>
    if k = 0 ∨ 4 < k then s.respond r 0x0076 stBAD_ARG []
    else if keyAllowed unitId rootKey sig (keyMessage [0x52, 0x56, 0x4F, 0x4B] k [] unitId) = false then s.respond r 0x0076 stREFUSED []
    else
      let v := s.rd UPD_KEYS_VALID
      let s1 := { s with upd := { s.upd with revoked := s.upd.revoked.set (k - 1) (s.upd.keys.getD (k - 1) 0) } }.wr UPD_KEYS_VALID
        (v - (v &&& 2 ^ (k - 1)))
      ((s1.bump NVS_MRAM_RECORDS).raise 4 12).respond r 0x0076 stOK []

/-- PEERS (R320): at most 63 pairs. -/
def execPeers (r : Req) (table : List (BitVec 32 × BitVec 6)) (s : State) : Outcome State Fault Refusal :=
  s.mailbox r 0x0077 fun s =>
    if 63 < table.length then s.respond r 0x0077 stBAD_ARG []
    else { s with upd := { s.upd with peers := table } }.respond r 0x0077 stOK []

/-! ### Coordination (R311 to R314) -/

/-- The ring number of a side that this part coordinates. -/
def State.sideRing (s : State) (i : Nat) : Nat := s.rd (QLK_TOPO_RING i)

/-- Own sides of an activation, with their ring numbers. -/
def State.ownSides (s : State) (c : Coord) : List (Nat × Nat) :=
  ((List.range 2).filter fun i => c.nodes.getD i 0 != 0).map fun i => (i, s.sideRing i)

/-- Rings of a mask that other senders coordinate. -/
def State.foreignRings (s : State) (c : Coord) : List Nat :=
  (nodesOf c.rings).filter fun r => !(s.ownSides c).any fun e => e.2 == r

/-- Every ring of an activation that this part sends to. -/
def State.coordRings (s : State) (c : Coord) : List Nat :=
  (s.ownSides c).map Prod.snd ++ (if c.wall then s.foreignRings c else [])

/-- A firmware message to each of some rings. -/
def State.tell (s : State) (kind : FwKind) (rings : List Nat) (data : List Nat) : State :=
  s.each rings fun s r => s.send (.firmware kind r data)

/-- Whether every mask of a list lies inside another's. -/
def covered (need have' : List Nat) : Bool := (List.range 2).all fun i => (need.getD i 0 &&& have'.getD i 0) == need.getD i 0

/-- The tick of a COMMIT is ahead, and this node arms (R312). -/
def State.armAt (s : State) (c actNo epoch : Nat) : State :=
  let s1 := ((((s.wr UPD_ACT_STATE 2).wr UPD_ACT_ACT_FRAME c).wr UPD_ACT_PEND 1).wr UPD_ACT_NO_NUMBER actNo).wr UPD_ACT_NO_EPOCH epoch
  { s1 with upd := { s1.upd with actCid := s1.rd UPD_STAGE_CID_CID, susFrom := c, susUntil := c + s1.rd UPD_CFG2_RELIGHT_FR } }.raise 4 7

/-- This node takes an ABORT before the latch point of C (R312). -/
def State.abortSelf (s : State) : State :=
  let st := s.rd UPD_ACT_STATE
  if st = 3 ∨ st = 5 ∨ (st = 2 ∧ s.latchPast (s.rd UPD_ACT_ACT_FRAME) = true) then s
  else (((({ s with upd := { s.upd with susUntil := 0 } } : State).wr UPD_ACT_STATE 4).wr UPD_ACT_PEND 0).bumpM UPD_CNT_ABORTS).raise 4 8

/-- The wall coordinator aborts: ABORT three times, and the host's answer. -/
def State.abortAll (s : State) (c : Coord) (status : Nat) (body : List Nat) : State :=
  let s1 := { s with upd := { s.upd with coord := none } }
  let rs := s.coordRings c
  let s2 := (((s1.tell .abort rs [c.num]).tell .abort rs [c.num]).tell .abort rs [c.num]).abortSelf
  match c.req with
  | some r => s2.respond r 0x0072 status body
  | none => s2

/-- Nodes of a side's ring: its REACH and this sender. -/
def State.ringNodes (s : State) (i : Nat) : Nat := s.rd (QLK_REACH_NODES i) ||| 2 ^ s.nodeOn i

/-- Sides whose ring this sender coordinates: the held epoch names it (R271). -/
def State.mySides (s : State) : List Nat := if s.isSender then (List.range 2).filter s.named else []

/-- ACTIVATE (R311, R319). -/
def execActivate (r : Req) (cid : BitVec 32) (frame : BitVec 48) (nodeKind : Bool) (mask : Word) (s : State) :
    Outcome State Fault Refusal :=
  let n := frame.toNat
  let m := mask.toNat
  s.mailbox r 0x0072 fun s =>
    let alone := s.on UPD_SLOT_RECOVERY && nodeKind && m == 2 ^ s.node
    if s.isSender = false ∧ alone = false then s.respond r 0x0072 stREFUSED []
    else if m = 0 then s.respond r 0x0072 stBAD_ARG []
    else if (s.upd.coord.any fun c => decide (c.phase < 3)) then s.respond r 0x0072 stBUSY []
    else if n ≠ 0 ∧ n < s.frame + 16 then s.respond r 0x0072 stLATE []
    else
      let ps := if s.isSender then s.rd QEN_CFG_PSIDE else 0
      let nodes := if nodeKind then (List.range 2).map fun i => if i = ps then m else 0
        else (List.range 2).map fun i => if s.mySides.contains i && m.testBit (s.sideRing i) then s.ringNodes i else 0
      let c : Coord := ⟨true, some r, cid.toNat, 0, n, n != 0, if nodeKind then 2 ^ s.sideRing ps else m, nodes, 0, [0, 0], 0, [0, 0], 0⟩
      { s with upd := { s.upd with coord := some c, heardDisarm := false } }.tell .prepare (s.coordRings c) [cid.toNat, m]

/-- What a node answers to PREPARE (R311): nothing where it is READY, else its reason of Table 17-3. The table has none for a bundle that is not
staged and neither refused nor in conflict, nor for the settings format: a free value. -/
def State.voteReason (s : State) (cid : Nat) : Option Nat :=
  let st := s.rd UPD_STAGE_STATE
  let open_ := some (s.free % 16)
  if st = 3 then some (s.rd UPD_STAGE_REASON)
  else if st = 4 then some 10
  else if st ≠ 2 ∨ s.rd UPD_STAGE_CID_CID ≠ cid then open_
  else match s.slotCol s.spareSlot with
    | some c =>
      let f := s.rd UPD_SLOT_SET_FMT
      if digestsOk (s.slotByte s.spareSlot) c = false then some 8
      else if c.setMin.toNat ≤ f ∧ f ≤ c.setFmt.toNat then none else open_
    | none => some 1

/-- PREPARE_RECEIVE (R311): a node votes; a ring coordinator that another sender's wall coordinator asks passes PREPARE on. -/
def execPrepareReceive (r : Req) (cid : BitVec 32) (s : State) : Outcome State Fault Refusal :=
  let s1 := if s.mySides ≠ [] ∧ s.upd.coord.isNone = true then
      let nodes := (List.range 2).map fun i => if s.mySides.contains i then s.ringNodes i else 0
      let rings := s.mySides.foldl (fun a i => a ||| 2 ^ s.sideRing i) 0
      let c : Coord := ⟨false, none, cid.toNat, 0, 0, false, rings, nodes, 0, [0, 0], 0, [0, 0], 0⟩
      { s with upd := { s.upd with coord := some c, heardDisarm := false } }.tell .prepare (s.coordRings c) [cid.toNat]
    else s
  .next (match s1.voteReason cid.toNat with
    | none => (s1.wr UPD_ACT_STATE 1).send (.firmware .vote r.reply.toNat [1, 0])
    | some why => s1.drawn.send (.firmware .vote r.reply.toNat [0, why]))

/-- All have voted READY: the wall coordinator sends COMMIT naming C, or finds the tick named too late (R311, R312). -/
def State.commitAll (s : State) (c : Coord) : State :=
  let n := if c.named then c.c else s.frame + 8
  let num := s.rd UPD_ACT_NO_NUMBER + 1
  if c.named ∧ s.latchPast (n - 8) = true then s.abortAll c stLATE []
  else
    let s1 := s.each (s.ownSides c) fun s e =>
      s.send (.firmware .commit e.2 [n, num, s.rd (ARB_EPOCH_EPOCH e.1), s.node])
    let s2 := s1.tell .commit (s.foreignRings c) [n, num]
    let s3 := { s2 with upd := { s2.upd with coord := some { c with phase := 1, num := num, c := n } } }
    if s3.rd UPD_ACT_STATE = 1 then s3.armAt n num (s3.rd (ARB_EPOCH_EPOCH (((s3.ownSides c).head?.map Prod.fst).getD 0))) else s3

/-- PREPARE_VOTE_RECEIVE (R311). A ring coordinator passes on NOT_READY, and READY once its ring is. -/
def execPrepareVoteReceive (ring node : BitVec 6) (ready : Bool) (reason : BitVec 4) (s : State) : Outcome State Fault Refusal :=
  match s.upd.coord with
  | some c =>
    if c.phase ≠ 0 then .next s
    else if ready = false then
      .next (if c.wall then s.abortAll c stCANCELLED [reason.toNat]
        else s.tell .vote [((s.ownSides c).head?.map Prod.snd).getD 0] [0, reason.toNat])
    else
      let own := (s.ownSides c).find? fun e => e.2 == ring.toNat
      let c1 := match own with
        | some e => { c with ready := c.ready.modify e.1 (· ||| 2 ^ node.toNat) }
        | none => { c with ringsReady := c.ringsReady ||| 2 ^ ring.toNat }
      let s1 := { s with upd := { s.upd with coord := some c1 } }
      if covered c1.nodes c1.ready && (s1.foreignRings c1).all fun r => !c1.wall || c1.ringsReady.testBit r then
        .next (if c1.wall then s1.commitAll c1 else s1.tell .vote ((s1.ownSides c1).map Prod.snd) [1, 0])
      else .next s1
  | none => .next s

/-- PREPARE_TIMEOUT (R311): a node that has not voted counts as NOT_READY, for which Table 17-3 gives no reason: a free value. -/
def execPrepareTimeout (s : State) : Outcome State Fault Refusal :=
  match s.upd.coord with
  | some c =>
    if c.phase ≠ 0 then .next s
    else .next (if c.wall then s.drawn.abortAll c stCANCELLED [s.free % 16]
      else s.drawn.tell .vote ((s.ownSides c).map Prod.snd) [0, s.free % 16])
  | none => .next s

/-- ACT_COMMIT_RECEIVE (R312): a node arms only under its own held epoch, from the sender that epoch names. A ring coordinator
sends COMMIT on with the epoch it holds. -/
def execActCommitReceive (r : Req) (m : ActCommit) (s : State) : Outcome State Fault Refusal :=
  let n := m.frame.toNat
  match s.upd.coord with
  | some c =>
    if c.wall = false ∧ c.phase = 0 then
      let s1 := s.each (s.ownSides c) fun s e => s.send (.firmware .commit e.2 [n, m.actNo.toNat, s.rd (ARB_EPOCH_EPOCH e.1), s.node])
      let s2 := { s1 with upd := { s1.upd with coord := some { c with phase := 2, num := m.actNo.toNat, c := n } } }
      .next (if s2.rd UPD_ACT_STATE = 1 ∧ s2.latchPast n = false then
        (s2.armAt n m.actNo.toNat (s2.rd (ARB_EPOCH_EPOCH (((s2.ownSides c).head?.map Prod.fst).getD 0)))).send
          (.firmware .armed r.reply.toNat [m.actNo.toNat]) else s2)
    else .next s
  | none =>
    let ok := (if s.isSender then [0, 1] else [0]).any fun i =>
      s.rd (ARB_EPOCH_EPOCH i) == m.epoch.toNat && epochNode m.epoch.toNat == m.fromNode.toNat
    .next (if ok = true ∧ s.rd UPD_ACT_STATE = 1 ∧ s.latchPast n = false then
      (s.armAt n m.actNo.toNat m.epoch.toNat).send (.firmware .armed r.reply.toNat [m.actNo.toNat])
    else s)

/-- ARM_DEADLINE (R312): at the latch point of C − 2 the commit stands where every node has armed; otherwise ABORT goes out, with a
reason that Table 17-3 does not give: a free value. -/
def execArmDeadline (armed : Bool) (s : State) : Outcome State Fault Refusal :=
  match s.upd.coord with
  | some c =>
    if c.wall = false ∨ c.phase ≠ 1 then .next s
    else if armed = true ∧ s.rd UPD_ACT_STATE = 2 then
      let s1 := { s with upd := { s.upd with coord := some { c with phase := 2, req := none } } }
      .next (match c.req with
        | some r => s1.respond r 0x0072 stOK [c.num, c.c]
        | none => s1)
    else .next (s.drawn.abortAll c stCANCELLED [s.free % 16])
  | none => .next s

/-- ABORT_RECEIVE (R312): a ring coordinator sends it on. -/
def execAbortReceive (s : State) : Outcome State Fault Refusal :=
  match s.upd.coord with
  | some c =>
    let t := (if c.wall then s else s.tell .abort (s.coordRings c) [c.num]).abortSelf
    .next (if c.wall then t else { t with upd := { t.upd with coord := none } })
  | none => .next s.abortSelf

/-- ABORT (R320). -/
def execAbort (r : Req) (actNo : BitVec 32) (s : State) : Outcome State Fault Refusal :=
  s.mailbox r 0x0078 fun s => match s.upd.coord with
    | some c =>
      let num := if c.phase = 0 then s.rd UPD_ACT_NO_NUMBER + 1 else c.num
      if actNo.toNat ≠ num ∨ c.wall = false then s.respond r 0x0078 stBAD_ARG []
      else if c.phase = 0 ∨ (c.phase = 1 ∧ s.latchPast (c.c - 2) = false) then
        ((s.drawn.abortAll c stCANCELLED [s.free % 16])).respond r 0x0078 stOK []
      else s.respond r 0x0078 stLATE []
    | none => s.respond r 0x0078 (if actNo.toNat = s.rd UPD_ACT_NO_NUMBER then stLATE else stBAD_ARG) []

/-- Latch point of tick `n`: votes not complete by the latch point of C − 8 refuse a named tick with LATE (R311). -/
def State.updLatch (s : State) (n : Nat) : State :=
  match s.upd.coord with
  | some c => if c.wall && c.named && c.phase == 0 && decide (c.c - 8 ≤ n) then s.abortAll c stLATE [] else s
  | none => s

/-! ### The activation tick, ACTIVATED and RELIGHT (R313, R314) -/

/-- An activation or a fallback writes the MRAM header and takes an activation reset. -/
def State.switchSlot (s : State) (n : Nat) (prob : Bool) : State :=
  let s1 := s.leaveLit
  let s2 := { s1 with
    upd := { s1.upd with active := (s1.upd.active + 1) % 2, prevValid := prob, probation := prob, actFrame := n, relight := prob,
                         susFrom := if prob then n else s1.upd.susFrom,
                         susUntil := if prob then n + s1.rd UPD_CFG2_RELIGHT_FR else s1.upd.susUntil, fbWhy := 0, fbAt := none,
                         heardDisarm := false }
    nvs := if prob then { s1.nvs with probation := none } else s1.nvs }
  (((s2.bump NVS_MRAM_RECORDS).showHeader.wr UPD_ACT_ACT_FRAME n).wr UPD_ACT_PEND 0).requestSoft 9

/-- ACTIVATION_TICK at tick `n` (R313): what an armed node does at C. -/
def State.activationTick (s : State) (n : Nat) : State :=
  if s.rd UPD_ACT_STATE = 2 ∧ s.on UPD_ACT_PEND = true ∧ s.rd UPD_ACT_ACT_FRAME ≤ n then s.switchSlot n true else s

/-- ACTIVATED_REPEAT (R310): every 100 ms until RELIGHT or a fallback order. -/
def execActivatedRepeat (s : State) : Outcome State Fault Refusal :=
  .next (if s.upd.relight && s.upd.probation && !s.starting then
    s.updPost 2 0 0 0 (s.rd UPD_ACT_NO_NUMBER) s.runCid.toNat 0 else s)

/-- This node receives RELIGHT: the suspension ends with the next tick, and LIT may come (R313). -/
def State.relightSelf (s : State) : State :=
  { s with upd := { s.upd with relight := false, susUntil := min s.upd.susUntil (s.frame + 1) } }

/-- A fallback order reaches this node (R318): it ends the suspension, and a node that is not in probation ignores it otherwise (R313, R316). -/
def State.takeOrder (s : State) (f : Nat) : State :=
  (if s.upd.probation then { s with upd := { s.upd with fbAt := some f } } else s).relightSelf

/-- A ring coordinator orders collective fallback at F = FRAME_NO + 2, of its rings and at its peers (R314, R318). -/
def State.orderFallback (s : State) : State :=
  let f := s.frame + 2
  let own := match s.upd.coord with
    | some c => (s.ownSides c).map Prod.snd
    | none => s.mySides.map s.sideRing
  let rs := (own ++ s.upd.peers.map fun p => p.2.toNat).dedup
  ({ s with upd := { s.upd with coord := none, confirming := none, heardDisarm := false } }.tell .fallbackOrder rs [f]).takeOrder f

/-- Every named ring is complete: RELIGHT (R314). -/
def State.checkRings (s : State) (c : Coord) : State :=
  let s1 := { s with upd := { s.upd with coord := some c } }
  if c.wall && (c.rings &&& c.ringsDone) == c.rings then
    ({ s1 with upd := { s1.upd with coord := some { c with phase := 3 } } }.tell .relight (s1.coordRings c) [c.num]).relightSelf
  else s1

/-- ACTIVATED_RECEIVE (R314). -/
def execActivatedReceive (ring node : BitVec 6) (cid : BitVec 32) (s : State) : Outcome State Fault Refusal :=
  match s.upd.coord with
  | some c =>
    if c.phase ≠ 2 then .next s
    else match (s.ownSides c).find? fun e => e.2 == ring.toNat with
      | some e =>
        if cid.toNat ≠ c.cid then .next s.orderFallback
        else
          let c1 := { c with activated := c.activated.modify e.1 (· ||| 2 ^ node.toNat) }
          if (c1.nodes.getD e.1 0 &&& c1.activated.getD e.1 0) = c1.nodes.getD e.1 0 then
            if c1.wall then .next (s.checkRings { c1 with ringsDone := c1.ringsDone ||| 2 ^ ring.toNat })
            else .next ({ s with upd := { s.upd with coord := some c1 } }.tell .ringComplete [ring.toNat] [c1.num])
          else .next { s with upd := { s.upd with coord := some c1 } }
      | none => .next s
  | none => .next s

/-- RING_COMPLETE_RECEIVE (R314). -/
def execRingCompleteReceive (ring : BitVec 6) (s : State) : Outcome State Fault Refusal :=
  match s.upd.coord with
  | some c => .next (if c.wall = true ∧ c.phase = 2 then s.checkRings { c with ringsDone := c.ringsDone ||| 2 ^ ring.toNat } else s)
  | none => .next s

/-- RELIGHT_RECEIVE (R313, R314): a ring coordinator broadcasts it on its ring at once. -/
def execRelightReceive (s : State) : Outcome State Fault Refusal :=
  match s.upd.coord with
  | some c =>
    if c.wall = false ∧ c.phase = 2 then
      .next ({ s with upd := { s.upd with coord := some { c with phase := 3 } } }.tell .relight (s.coordRings c) [c.num]).relightSelf
    else .next s.relightSelf
  | none => .next s.relightSelf

/-- RELIGHT_DEADLINE (R314): a ring is not complete by tick C + RELIGHT_FR. -/
def execRelightDeadline (s : State) : Outcome State Fault Refusal :=
  match s.upd.coord with
  | some c => .next (if c.phase = 2 ∧ c.c + s.rd UPD_CFG2_RELIGHT_FR ≤ s.frame then s.orderFallback else s)
  | none => .next s

/-! ### Confirmation (R316) -/

/-- This node confirms. -/
def State.confirmSelf (s : State) : State :=
  if s.upd.probation = false then s
  else
    let fmt := match s.upd.running with | some c => c.setFmt.toNat | none => s.rd UPD_SLOT_SET_FMT
    let g := (s.rd NVS_GEN_SET_GEN + 1) % 2 ^ 24
    let s1 := match s.nvs.probation with
      | some t => { s with nvs := { s.nvs with setGens := s.nvs.setGens.set (g % 2) (some t), probation := none },
                           upd := { s.upd with fmts := s.upd.fmts.set (g % 2) fmt } }.wr NVS_GEN_SET_GEN g
      | none => s
    let s2 := { s1 with upd := { s1.upd with probation := false, prevValid := false, trial := false, fbWhy := 0, fbAt := none },
                        nvs := { s1.nvs with fails := ((s1.nvs.fails.set 16 0).set 17 0).set 18 0 } }
    let s3 := match s2.upd.running with
      | some c => if c.floor then s2.wr UPD_FLOOR_SEQ_FLOOR (max (s2.rd UPD_FLOOR_SEQ_FLOOR) c.seq.toNat) else s2
      | none => s2
    ((s3.bump NVS_MRAM_RECORDS).showHeader.wr UPD_ACT_STATE 0).raise 4 10

/-- A confirmation ends once every node and ring has acknowledged. -/
def State.checkConfirm (s : State) (c : Coord) (k : Confirming) : State :=
  if covered c.nodes k.nodes && (s.foreignRings c).all fun r => !c.wall || k.rings.testBit r then
    let s1 := { s with upd := { s.upd with confirming := none, coord := none } }
    match k.req with
    | some r => s1.respond r 0x0073 stOK []
    | none => if c.wall then s1 else s1.tell .confirmAck ((s1.ownSides c).map Prod.snd) [c.num]
  else { s with upd := { s.upd with confirming := some k } }

/-- A coordinator sends CONFIRM to every node and confirms itself. -/
def State.startConfirm (s : State) (c : Coord) (req : Option Req) : State :=
  let own := (List.range 2).map fun i => if c.nodes.getD i 0 = 0 then 0 else if s.isSender then 2 ^ s.nodeOn i else 2 ^ s.node
  ((s.tell .confirm (s.coordRings c) [c.num]).confirmSelf).checkConfirm c ⟨req, own, 0⟩

/-- CONFIRM (R316, R320). -/
def execConfirm (r : Req) (actNo : BitVec 32) (s : State) : Outcome State Fault Refusal :=
  s.mailbox r 0x0073 fun s => match s.upd.coord with
    | some c =>
      if actNo.toNat ≠ c.num then s.respond r 0x0073 stBAD_ARG []
      else if c.wall = false ∨ c.phase < 2 then s.respond r 0x0073 stREFUSED []
      else s.startConfirm c (some r)
    | none => s.respond r 0x0073 (if actNo.toNat = s.rd UPD_ACT_NO_NUMBER then stREFUSED else stBAD_ARG) []

/-- AUTO_CONFIRM (R316): PROB_S seconds after tick C; 0 means host only. -/
def execAutoConfirm (s : State) : Outcome State Fault Refusal :=
  match s.upd.coord with
  | some c =>
    .next (if c.wall = true ∧ 2 ≤ c.phase ∧ s.rd UPD_CFG_PROB_S ≠ 0 ∧ s.upd.probation = true ∧ s.upd.confirming.isNone = true ∧
        s.tickTime c.c + msT (1000 * s.rd UPD_CFG_PROB_S) ≤ s.wtu.wt then
      s.startConfirm c none else s)
  | none => .next s

/-- CONFIRM_REPEAT (R316): every second, to the nodes that have not acknowledged. -/
def execConfirmRepeat (s : State) : Outcome State Fault Refusal :=
  match s.upd.coord, s.upd.confirming with
  | some c, some k =>
    .next (s.each (s.ownSides c) (fun s e =>
      let rest := c.nodes.getD e.1 0 - (c.nodes.getD e.1 0 &&& k.nodes.getD e.1 0)
      if rest = 0 then s else s.send (.firmware .confirm e.2 [c.num, rest]))
      |>.tell .confirm ((if c.wall then s.foreignRings c else []).filter fun r => !k.rings.testBit r) [c.num])
  | _, _ => .next s

/-- CONFIRM_RECEIVE (R316): a node confirms and acknowledges; a ring coordinator confirms its ring first. -/
def execConfirmReceive (r : Req) (s : State) : Outcome State Fault Refusal :=
  match s.upd.coord with
  | some c =>
    .next (if c.wall then s.confirmSelf.send (.firmware .confirmAck r.reply.toNat [s.rd UPD_ACT_NO_NUMBER])
      else if s.upd.confirming.isSome then s else s.startConfirm c none)
  | none => .next (s.confirmSelf.send (.firmware .confirmAck r.reply.toNat [s.rd UPD_ACT_NO_NUMBER]))

/-- CONFIRM_ACK_RECEIVE (R316). -/
def execConfirmAckReceive (ring node : BitVec 6) (s : State) : Outcome State Fault Refusal :=
  match s.upd.coord, s.upd.confirming with
  | some c, some k =>
    .next (match (s.ownSides c).find? fun e => e.2 == ring.toNat with
      | some e => s.checkConfirm c { k with nodes := k.nodes.modify e.1 (· ||| 2 ^ node.toNat) }
      | none => s.checkConfirm c { k with rings := k.rings ||| 2 ^ ring.toNat })
  | _, _ => .next s

/-! ### Fallback (R317, R318) -/

/-- FALLBACK (R318, R320). -/
def execFallback (r : Req) (actNo : BitVec 32) (s : State) : Outcome State Fault Refusal :=
  s.mailbox r 0x0074 fun s =>
    if actNo.toNat ≠ s.rd UPD_ACT_NO_NUMBER then s.respond r 0x0074 stBAD_ARG []
    else if s.mySides = [] ∧ s.upd.coord.isNone = true then s.respond r 0x0074 stREFUSED []
    else s.orderFallback.respond r 0x0074 stOK [s.frame + 2]

/-- FALLBACK_REQ_RECEIVE (R318): at a ring coordinator. -/
def execFallbackReqReceive (_ring _node : BitVec 6) (s : State) : Outcome State Fault Refusal :=
  .next (if s.mySides = [] ∧ s.upd.coord.isNone = true then s else if s.upd.fbAt.isSome then s else s.orderFallback)

/-- FALLBACK_ORDER_RECEIVE (R318): a ring coordinator orders fallback of its own ring in turn. -/
def execFallbackOrderReceive (frame : BitVec 48) (s : State) : Outcome State Fault Refusal :=
  if s.upd.probation && s.upd.fbAt.isNone && s.mySides != [] then .next (s.orderFallback.takeOrder frame.toNat)
  else .next (s.takeOrder frame.toNat)

/-- FALLBACK_REQ_REPEAT (R317): every 100 ms. -/
def execFallbackReqRepeat (s : State) : Outcome State Fault Refusal :=
  .next (if s.upd.fbWhy ≠ 0 ∧ s.upd.probation = true ∧ s.upd.fbAt.isNone = true then s.fallbackReq else s)

/-- FALLBACK_ALONE (R317): no order within FB_WAIT_MS. -/
def execFallbackAlone (s : State) : Outcome State Fault Refusal :=
  .next (if s.upd.fbWhy ≠ 0 ∧ s.upd.probation = true ∧ s.upd.fbAt.isNone = true then
    (s.bumpM UPD_CNT_FB_ALONE).takeOrder (s.frame + 2) else s)

/-- FALLBACK_TICK at tick `n` (R318). -/
def State.fallbackTick (s : State) (n : Nat) : State :=
  match s.upd.fbAt with
  | some f =>
    if n < f then s
    else if s.upd.probation then (((s.bumpM UPD_CNT_FALLBACKS).switchSlot n false).wr UPD_ACT_STATE 5).raise 4 11
    else { s with upd := { s.upd with fbAt := none } }
  | none => s

/-- The tick's part: a disarmed node after C brings collective fallback about (R314). -/
def State.updTick (s : State) (n : Nat) (held : Bool) : State :=
  if held then s
  else
    let s1 := (s.activationTick n).fallbackTick n
    match s1.upd.coord with
    | some c => if s1.upd.heardDisarm && decide (2 ≤ c.phase ∧ c.c ≤ n) then s1.orderFallback else s1
    | none => s1

end Sys2Proof.Machine
end

