-- ==== Sys2Proof/Machine/Record.lean ====
section
/-! DEFINITION. Recording and replay beside the rings themselves (spec/18_record_replay.md): the modes, triggers, the capture and
its digest, the replay of a tile's capture and of a sender's recording, MGMT records and the mailbox commands. -/

namespace Sys2Proof.Machine

open Host

/-! ### Modes (R321, R325) -/

/-- Whether a request for REPLAY is refused with BUSY: the tile is LIT (R325). -/
def State.recModeBusy (s : State) (mode : Nat) : Bool := decide (2 ≤ mode) && s.isTile && s.isLit

/-- CTRL.MODE has changed from `old`: RECORD begins with a HEADER record; leaving REPLAY clears the leaf maps. -/
def State.recModeChanged (s : State) (old : Nat) : State :=
  let m := s.rd REC_CTRL_MODE
  if m = old then s
  else
    let s1 := { s with recd := { s.recd with post := none } }.wr REC_STAT_STATE (if m = 1 then 1 else 0)
    let s2 := if m = 1 ∧ s.isSender = false then s1.recWrite 0 0 s1.recHeader else s1
    s2.when (old == 2 && s.hasPixels) State.clearLeafMaps

/-- CTRL.TRIG (R323). -/
def State.recTrigGo (s : State) : State := s.trigger 0 true

/-- CTRL.ARM (R323): a frozen ring records on at WPTR. -/
def State.recArmGo (s : State) : State :=
  if s.rd REC_STAT_STATE = 2 then { s with recd := { s.recd with post := none } }.wr REC_STAT_STATE 1 else s

/-- RING_FREEZE (R323): the words after the trigger are written. -/
def execRingFreeze (s : State) : Outcome State Fault Refusal :=
  if s.rd REC_STAT_STATE = 1 ∧ s.recd.post = some 0 then
    .next ({ s with recd := { s.recd with post := none } }.wr REC_STAT_STATE 2 |>.raise 0xA 5)
  else .next s

/-! ### The record digest and the capture (R324) -/

/-- The record digest: the CRC of the digest range. -/
def State.recDigest (s : State) : Nat :=
  let part (a n : Nat) : List Nat := (List.range n).flatMap fun i => leBytes 9 (s.pix (a + i)).toNat
  crc32 (part 0x100000 0x30000 ++ part 0x140000 0x10000)

/-- CAPTURE_COMPLETE (R324): the last slot is full, and the digest walk has ended. -/
def execCaptureComplete (s : State) : Outcome State Fault Refusal :=
  match s.recd.capturing with
  | some k =>
    if s.rd REC_CTRL_CAP_SLOTS ≤ k then
      .next ({ s with recd := { s.recd with capturing := none, walking := false, digest := s.recDigest } }.raise 0xA 6)
    else .next s
  | none => .next s

/-! ### MGMT records (R321, R327) -/

/-- Whether an accepted write to a page, or to a window word, makes a MGMT record: in a tile and in BENCH the blocks of
Table 18-1, in a sender those of R327. -/
def State.mgmtPage (s : State) (pg : Nat) : Bool :=
  if s.isSender then (0x10 ≤ pg && pg ≤ 0x13) || (0x15 ≤ pg && pg ≤ 0x17)
  else (5 ≤ pg && pg ≤ 7) || (0x20 ≤ pg && pg ≤ 0x23) || (0x28 ≤ pg && pg ≤ 0x2B)

def State.mgmtWin (s : State) (idx : Nat) : Bool :=
  if s.isSender then decide (idx < 0x600000) else decide (0x600000 ≤ idx ∧ idx < 0x800000)

/-- The MGMT record of a register write. -/
def State.mgmtReg (s : State) (src : Requester) (pg off v : Nat) : State :=
  if s.mgmtPage pg then s.recWrite 4 (srcCode src) [pg * 4096 + off, v] else s

/-- The MGMT record of a window write. -/
def State.mgmtWord (s : State) (src : Requester) (idx v : Nat) : State :=
  if s.mgmtWin idx then s.recWrite 4 (srcCode src) [0x10000000 + 16 * idx, v % 2 ^ 64, v / 2 ^ 64 % 256] else s

/-! ### Reading a ring back -/

/-- Cut words into records: a word whose tag is below 0x80 begins one (R321). Words before the first are dropped. -/
def cutRecords (ws : List Nat) : List (List Nat) :=
  (ws.foldr (fun w (a : List Nat × List (List Nat)) =>
    if w / 2 ^ 64 < 0x80 then ([], (w :: a.1) :: a.2) else (w :: a.1, a.2)) ([], [])).2

/-- The records of the tile ring, oldest first. -/
def State.tileRecords (s : State) : List (List Nat) :=
  let p := s.rd REC_STAT_WPTR
  let at_ (i : Nat) : Nat := (s.pix (0x160000 + i)).toNat
  let old := if s.on REC_STAT_WRAPPED then (List.range (131072 - p)).map fun i => at_ (p + i) else []
  cutRecords (old ++ (List.range p).map at_)

/-- Type of a record. -/
def recType (r : List Nat) : Nat := r.headD 0 / 2 ^ 64

/-! ### Tile replay (R325, R326) -/

/-- Whether replay can run: in BENCH, or on a tile in DARK with MODE = 2. -/
def State.replayable (s : State) : Bool :=
  s.isBench || (s.isTile && s.rd NVS_POWER_STATE == 1 && s.rd REC_CTRL_MODE == 2)

/-- The preconditions that hold for every slot (R326): CID, digest, grid, F, DEPTH, LO_BITS and PRIM4 against the last HEADER. -/
def State.replayPre (s : State) : Bool :=
  match (s.tileRecords.filter fun r => recType r == 0).getLast? with
  | some h =>
    decide ((h.getD 1 0) % 2 ^ 53 = s.recHeader.getD 0 0 % 2 ^ 53) && s.recDigest == s.recd.digest && !s.on REC_STAT_DIGEST_DIRTY
  | none => false

/-- REPLAY_GO (R326): the preconditions are checked before the first slot. -/
def State.replayStart (s : State) : State :=
  if s.replayable = true ∧ s.rd REC_STAT_STATE ≠ 3 then
    { s with recd := { s.recd with before := s.rd REC_STAT_STATE, preOk := s.replayPre } }.wr REC_STAT_STATE 3
  else s

/-- A replay under way: the scratch aging counters per pixel and the results so far (RESULT and both CRCs). -/
structure Replay where
  work : List (Word72 × Word72)
  results : List (Nat × Nat × Nat)
  deriving DecidableEq, Repr

/-- Re-press slot `k` (R326). -/
def State.replaySlot (s : State) (recs : List (List Nat)) (a : Replay) (k : Nat) : Replay :=
  let c := s.recd.capOf.getD k (0, 0)
  let f := c.2
  let hit := (recs.filter fun r => recType r == 3 && r.headD 0 % 2 ^ 48 == c.1 % 2 ^ 48).getLast?
  match hit with
  | none => { a with results := a.results ++ [(2, 0, 0)] }
  | some r =>
    let w (i : Nat) : Nat := r.getD i 0 % 2 ^ 64
    let saved := bitsOf (w (3 + f / 2)) (32 * (f % 2) + 31) (32 * (f % 2))
    if s.recd.preOk = false ∨ k ≥ s.recd.capOf.length ∨ bitsOf (w 2) 63 32 ≠ s.lcpCrc then
      { a with results := a.results ++ [(2, saved, 0)] }
    else
      let t := (List.range 4).map fun d => toSigned 16 (bitsOf (w 1) (16 * d + 15) (16 * d))
      let thr := bitsOf (w 2) 16 0
      let press (i : Nat) : Pressed :=
        let ag := a.work.getD i (0, 0)
        s.pressPixel [] (s.on LCP_CFG_AGE_EN) c.1 f s.feeds (s.tile.gut.getD f 0) i (s.pix (0x180000 + k * 0x10000 + i)).toNat t thr ag.1 ag.2
      let res := (List.range s.pixels).map press
      let crc := crc32 (res.flatMap fun g : Pressed => leBytes 9 g.gray)
      let flipped := (w 0).testBit (56 + f)
      let work := res.map fun g : Pressed => (ageWord g.age, BitVec.ofNat 72 (g.age.getD 3 0))
      { work := work, results := a.results ++ [if flipped then (if crc = saved then 0 else 1, saved, crc) else (3, saved, crc)] }

/-- The results of all slots. -/
def State.replayAll (s : State) : List (Nat × Nat × Nat) :=
  let prim4 := s.on LCP_CFG_PRIM4
  let work := (List.range s.pixels).map fun i =>
    (s.pix (0x1F0000 + i), if prim4 then s.pix (0x1E0000 + i) else (0 : Word72))
  ((List.range (s.rd REC_CTRL_CAP_SLOTS)).foldl (s.replaySlot s.tileRecords) ⟨work, []⟩).results

/-- Store a slot's entry of the result table (Table 18-2) and count it. -/
def State.replayEntry (s : State) (k : Nat) (e : Nat × Nat × Nat) : State :=
  let c := s.recd.capOf.getD k (0, 0)
  let s1 := s.setWord (0xB30000 + 2 * k) (BitVec.ofNat 72 (c.1 % 2 ^ 48 + c.2 % 4 * 2 ^ 48 + e.1 * 2 ^ 50))
  let s2 := s1.setWord (0xB30001 + 2 * k) (BitVec.ofNat 72 (e.2.1 + e.2.2 * 2 ^ 32))
  if e.1 = 0 then s2.bump REC_CNT_MATCH else if e.1 = 1 then s2.bump REC_CNT_DIVERGE
  else if e.1 = 2 then s2.bump REC_CNT_PRECOND else s2

/-! ### Sender replay (R328) -/

/-- The records of a sender's ring as they lie in frame memory from SREC.BASE on, up to the first word that begins none: fuel,
byte address. -/
def State.senderRecords (s : State) : Nat → Nat → List (List Nat)
  | 0, _ => []
  | n + 1, a =>
    let at_ (i : Nat) : Nat := (bytesWord (s.mem.slice (a + 16 * i) 9)).toNat
    let len := bitsOf (at_ 0) 55 48
    if len = 0 ∨ 0x80 ≤ at_ 0 / 2 ^ 64 then []
    else (List.range len).map at_ :: s.senderRecords n (a + 16 * len)

/-- A sender replay under way: the scratch part, whether the coming frame misses a precondition, the same of the frame that runs
(none before the first of the recording), and MATCH, DIVERGE, PRECOND so far. -/
structure SendReplay where
  part : State
  bad : Bool
  running : Option Bool
  counts : Nat × Nat × Nat
  deriving DecidableEq, Repr

/-- The handle whose entry of the stamp table holds a capture stamp. -/
def State.stampHandle (s : State) (stamp : Nat) : Option Nat :=
  ((List.range 4096).find? fun e => (s.word (0xB31000 + e)).toNat % 2 ^ 48 == stamp % 2 ^ 48 && (s.word (0xB31000 + e)).toNat % 2 ^ 60 != 0).map
    fun e => bitsOf (s.word (0xB31000 + e)).toNat 59 48

/-- An intake port that shows a host buffer as its pick. -/
def shownPort (x : Port) (b : BufView) (state stamp : Nat) : Port :=
  { x with bufs := x.bufs.set 0 { IngBuf.empty with st := .ready, stamp := stamp, width := b.w, height := b.h },
           base := x.base.set 0 b.base, stride := b.stride, fmt := b2n b.d32,
           pickD := ⟨some 0, state, stamp, 0⟩, pickS := ⟨some 0, state, stamp, 0⟩ }

/-- The CRCs of the signatures that the scratch part would send in its frame. -/
def State.replayCrcs (s : State) : List Nat :=
  (s.validTiles s.bank).flatMap fun e => (List.range s.feeds).filterMap fun f =>
    let ls := (s.sigLeaves e.1 e.2 f).1
    if ls.isEmpty then none else some (leafCrc (ls.flatMap fun l => s.leafWords s.bank e.1 e.2 f l))

/-- The counts after a frame whose recorded signature CRCs are `theirs`. -/
def SendReplay.counted (a : SendReplay) (theirs : List Nat) : Nat × Nat × Nat :=
  let c := a.counts
  match a.running with
  | none => c
  | some true => (c.1, c.2.1, c.2.2 + 1)
  | some false =>
    let mine := a.part.replayCrcs
    let diff := (theirs.filter fun c => !mine.contains c).length + (mine.filter fun c => !theirs.contains c).length
    if diff = 0 then (c.1 + 1, c.2.1, c.2.2) else (c.1, c.2.1 + diff, c.2.2)

/-- One record of a sender recording (R328): picks, flips and forced tiles of the coming frame are taken as recorded; a SIGCRC
record ends the frame that runs, and the coming frame starts. -/
def replayRecord (a : SendReplay) (r : List Nat) : SendReplay :=
  let s := a.part
  let w (i : Nat) : Nat := r.getD i 0 % 2 ^ 64
  let n := r.headD 0 % 2 ^ 48
  if recType r = 0x13 then
    match (s.stampHandle (w 2)).bind fun h => s.bufOf h false with
    | some b =>
      { a with part := s.setPort (w 1 % 4) (shownPort (s.port (w 1 % 4)) b (w 4) (w 2)), bad := a.bad || s.bufferCrc b != w 5 }
    | none => { a with bad := true }
  else if recType r = 0x11 then
    { a with part := s.applyFlips n (s.layerPending true) [] ⟨w 2, w 3, w 4⟩ }
  else if recType r = 0x12 then
    { a with part := s.takeNeed (if w 2 % 64 = s.rd QLK_CFG_RING_A then 0 else 1) (w 3) }
  else if recType r = 0x15 then
    let theirs := ((r.drop 1).flatMap fun x => [x % 2 ^ 32, bitsOf x 63 32]).filter (· != 0)
    { part := (s.formDamage.impTick (n + 1)).startFrame, bad := false, running := some a.bad, counts := a.counted theirs }
  else a

/-- The counts of the sender recording that lies in frame memory. -/
def State.senderReplay (s : State) : Nat × Nat × Nat :=
  ((s.senderRecords (s.rd REC_SREC_SIZE_MIB * 65536) (s.rd REC_SREC_BASE)).foldl replayRecord
    ⟨{ s with recd := { s.recd with post := some 0 } }, false, none, (0, 0, 0)⟩).counts

/-- REPLAY_DONE (R326, R328): the slots' results are stored and counted; in BENCH a sender recording's are counted with them. -/
def execReplayDone (s : State) : Outcome State Fault Refusal :=
  if s.rd REC_STAT_STATE = 3 then
    let snd := if s.isBench then s.senderReplay else (0, 0, 0)
    let res := if s.isBench = true ∧ s.recd.capOf = [] ∧ snd ≠ (0, 0, 0) then [] else s.replayAll
    let s1 := s.each res.zipIdx fun s e => s.replayEntry e.2 e.1
    let s2 := ((s1.bumpBy REC_CNT_MATCH snd.1).bumpBy REC_CNT_DIVERGE snd.2.1).bumpBy REC_CNT_PRECOND snd.2.2
    let cnt (k : Nat) : Nat := (res.filter fun e => e.1 == k).length
    let s3 := (s2.wr REC_STAT_STATE s.recd.before).raise 0xA 7
    let s4 := s3.when (decide (0 < cnt 1 + snd.2.1)) fun s => s.raise 0xA 8
    let s5 := s4.when (decide (0 < cnt 2 + snd.2.2)) fun s => s.raise 0xA 9
    match s.recd.replayReq with
    | some r =>
      .next ({ s5 with recd := { s5.recd with replayReq := none } }.respond r 0x0082 stOK
        [cnt 0 + snd.1, cnt 1 + snd.2.1, cnt 2 + snd.2.2, cnt 3])
    | none => .next s5
  else .next s

/-! ### Mailbox commands (Table 18-3) -/

/-- Whether this node is meant, and the other nodes of a sender's mask. -/
def State.meant (s : State) (m : Nat) : Bool := !s.isSender || m == 0 || m.testBit s.node
def State.others (s : State) (m : Nat) : List Nat := if s.isSender then (nodesOf m).filter (· != s.node) else []

/-- REC_MODE: the nodes of the mask take the mode. Which other nodes accept is a free value: no row of the table brings their
answers. -/
def execRecMode (r : Req) (mode : BitVec 2) (nodes : Word) (s : State) : Outcome State Fault Refusal :=
  s.mailbox r 0x0080 fun s =>
    let m := nodes.toNat
    let own := s.meant m
    let busy := s.recModeBusy mode.toNat
    let old := s.rd REC_CTRL_MODE
    let s1 := if own && !busy then (s.wr REC_CTRL_MODE (min mode.toNat 2)).recModeChanged old else s
    let s2 := s1.each (s.others m) fun s t => s.askNode t 0x0080 r [0, mode.toNat]
    let mine := if own && !busy then 2 ^ s.node else 0
    if s.others m = [] then s2.respond r 0x0080 (if busy then stREFUSED else stOK) [mine]
    else s2.drawn.respond r 0x0080 stOK [(s2.free &&& (m - (m &&& 2 ^ s.node))) + mine]

/-- REC_TRIGGER: a trigger is armed at its FRAME_NO. -/
def execRecTrigger (r : Req) (frame : BitVec 48) (nodes : Word) (s : State) : Outcome State Fault Refusal :=
  s.mailbox r 0x0081 fun s =>
    let n := frame.toNat
    let m := nodes.toNat
    if n < s.frame + 2 then s.respond r 0x0081 stLATE [0]
    else
      let own := s.meant m
      let s1 := if own then { s with recd := { s.recd with armed := s.recd.armed ++ [n] } } else s
      let s2 := s1.each (s.others m) fun s t => s.askNode t 0x0081 r [n, 0]
      let mine := if own then 2 ^ s.node else 0
      if s.others m = [] then s2.respond r 0x0081 stARMED [mine]
      else s2.drawn.respond r 0x0081 stARMED [(s2.free &&& (m - (m &&& 2 ^ s.node))) + mine]

/-- REPLAY: runs replay, answered when it is done. -/
def execReplay (r : Req) (s : State) : Outcome State Fault Refusal :=
  s.mailbox r 0x0082 fun s =>
    if s.replayable = false then s.respond r 0x0082 stREFUSED []
    else if s.rd REC_STAT_STATE = 3 then s.respond r 0x0082 stBUSY []
    else let t := s.replayStart; { t with recd := { t.recd with replayReq := some r } }

/-! ### Ticks and latch points -/

/-- The recorder's part in tick `n`: the TICK record of a tile, and triggers armed for it (R321, R323). -/
def State.recTick (s : State) (n : Nat) (held : Bool) : State :=
  let t := s.tickTime n / 65536
  let s1 := if s.isSender then s
    else s.recWrite 1 (b2n held + s.rd TFS_RX_STAT_FEEDS_OK % 16 * 2 + s.rd TFS_RX_SEL * 32)
      [t % 1000000000 + t / 1000000000 % 2 ^ 32 * 2 ^ 32]
  let due := s1.recd.armed.filter fun k => decide (k ≤ n)
  { s1 with recd := { s1.recd with armed := s1.recd.armed.filter fun k => !decide (k ≤ n) } }.each due fun s _ => s.trigger 0 true

/-- A sender's recorder notes at a latch point the fences that have changed since its last fence record (R327). -/
def State.recLatch (s : State) : State :=
  if s.isSender = true ∧ s.rd REC_STAT_STATE = 1 then
    let now := (List.range 64).map fun i => s.rd (CMP_FENCE_VALUE i)
    let diff := (List.range 64).filter fun i => now.getD i 0 != s.recd.fences.getD i 0
    if diff.isEmpty then s
    else { s with recd := { s.recd with fences := now } }.recWrite 0x14 0 (diff.map fun i => now.getD i 0 + i * 2 ^ 32)
  else s

end Sys2Proof.Machine
end

