-- ==== Sys2Proof/Machine/Access.lean ====
section
/-! DEFINITION. Accesses to registers and table windows as a whole (spec/02_register_model.md, with R8, R28, R77, R97, R185,
R231): what an access is refused for, what a write brings about beside its fields, and the half registers of R35 and R37. -/

namespace Sys2Proof.Machine

open Host

/-! ### Block resets (R28) -/

/-- The pixel blocks and the blocks that a leaf die's clock serves (Table 01-6). -/
def pixelPages : List Nat := [0x15, 0x16, 0x17, 0x20, 0x21]
def gclkPages : List Nat := [0x22, 0x28, 0x29, 0x2A, 0x2B]

/-- Whether a crossing joins two blocks (Tables 01-7, 01-8), written with the crossing's source first: the core, for which CCC stands,
and every block; wall time to the pixel blocks and the leaf dies; intake to frame memory, frame memory to the pixel blocks; imposition
to a side, a side to the other, a side to TFS and, with management folios, to QEN; LCP to the leaf dies; a leaf die to the core blocks
that take its verdicts, headroom minima and temperature. -/
def crosses (a b : Nat) : Bool :=
  let sides : List Nat := [0x18, 0x19, 0x1A]
  a == 1 || (a == 8 && (pixelPages ++ gclkPages).contains b) || ([0x10, 0x11, 0x12, 0x13].contains a && b == 0x14) ||
  (a == 0x14 && [0x15, 0x16, 0x17].contains b) || (a == 0x17 && [0x18, 0x19].contains b) || (a == 0x18 && b == 0x19) ||
  (sides.contains a && (b == 0x20 || b == 2)) || (a == 0x21 && gclkPages.contains b) ||
  (gclkPages.contains a && [5, 7, 0x23].contains b)

/-- Crossing partners of a page's block. -/
def crossings (pg : Nat) : List Nat := blockPages.filter fun q => q != pg && (crosses pg q || crosses q pg)

/-- BRST, RDY and XRDY of every block settle: a block whose partners are all out of reset and, while it waits itself, have a clock, is
ready, its reset has ended, and its crossings deliver what they have counted (R25, R28). -/
def State.settleReady (s : State) : State :=
  s.each (blockPages.filter fun p => pageActive s.role p && s.on (BLK_STAT_RDY p)) fun s p =>
    let ready (q : Nat) : Bool := s.on (BLK_STAT_RDY q) && (s.on (BLK_STAT_XRDY p) || !s.on (BLK_CTRL_CGATE q))
    if ((crossings p).filter (pageActive s.role)).all ready then
      { (s.wr (BLK_STAT_XRDY p) 1).wr (BLK_CTRL_BRST p) 0 with xing := s.xing.filter fun e => e.1 % 256 != p }
    else s.wr (BLK_STAT_XRDY p) 0

/-- The key of a crossing's event counter: its number and the destination's page. -/
def xingKey (pg x : Nat) : Nat := x * 256 + pg

/-- A crossing's event counter is full (R25): the destination's XOVF, and the crossing in its error capture. -/
def State.crossFull (s : State) (pg x : Nat) : State :=
  let s1 := { s with xing := s.xing.set (xingKey pg x) 0xFFFF }
  (if s.on (BLK_STAT_XOVF pg) then s1 else (s1.wr (BLK_STAT_XOVF pg) 1).raise pg 1).captureInt pg errXOVF x

/-- An event on its way to a block that is held in reset, or whose crossing is, waits in the crossing's counter (R25, R28). -/
def State.crossEvent (s : State) (pg x : Nat) : State :=
  let n := (s.xing.get (xingKey pg x)).toNat
  if pageActive s.role pg = false ∨ (s.on (BLK_STAT_RDY pg) = true ∧ s.on (BLK_STAT_XRDY pg) = true) ∨ n = 0xFFFF then s
  else if n = 0xFFFE then s.crossFull pg x
  else { s with xing := s.xing.set (xingKey pg x) (BitVec.ofNat 16 (n + 1)) }

/-- What a block brings about as it goes into reset: lamps turn off, a side goes down. -/
def State.blockStops (s : State) (pg : Nat) : State :=
  if pg = 0x21 ∨ pg = 0x22 then s.scanBlockOff pg
  else if 0x28 ≤ pg ∧ pg < 0x2C then s.scanBlockOff pg
  else if pg = 0x18 ∨ pg = 0x19 then s.retrainSide (pg - 0x18)
  else if pg = 8 then s.setServo 0
  else s

/-- The engine state that a block reset clears (Table 16-10). -/
def State.blockClears (s : State) (pg : Nat) : State :=
  if pg = 0 then { s with host := { HostIf.reset with spiLocked := s.host.spiLocked, remoteForbidden := s.host.remoteForbidden,
                                                      pcieLinkUp := s.host.pcieLinkUp, pcieRefclk := s.host.pcieRefclk } }
  else if pg = 1 then { s with ctl := { s.ctl with tasks := { TaskSched.reset with now := s.ctl.tasks.now } } }
  else if pg = 2 then { s with win := s.win.filter fun e => !decide (0x800000 ≤ e.1 ∧ e.1 < 0xA00000) }
  else if pg = 4 then { s with upd := s.upd.restart }
  else if pg = 5 then
    let h := s.house
    { s with house := { House.reset with trim := h.trim, staged := h.staged, hostAt := h.hostAt, shut := h.shut, standby := h.standby,
                                         absHeld := h.absHeld, recorded := h.recorded, prior := h.prior, cool := h.cool } }
  else if pg = 6 then { s with house := { s.house with trim := [], staged := [], hostAt := [] } }
  else if pg = 7 then { s with rail := { Rail.reset with loops := s.resetLoops false } }
  else if pg = 8 then { s with wtu := { Wtu.reset with wt := s.wtu.wt, freq := s.wtu.freq } }
  else if pg = 9 then { s with arb := [ArbSide.reset, ArbSide.reset] }
  else if pg = 10 then { s with recd := Rec.reset }
  else if 0x10 ≤ pg ∧ pg < 0x14 then 
    let x := s.port (pg - 0x10)
    s.setPort (pg - 0x10) { Port.reset with bufn := x.bufn, fmt := x.fmt, base := x.base, stride := x.stride }
  else if pg = 0x14 then { s with mem := [] }
  else if pg = 0x15 then { s with comp := Comp.reset }
  else if pg = 0x17 then { s with imp := Impo.reset }
  else if pg = 0x18 ∨ pg = 0x19 then s.setSide (pg - 0x18) Side.reset
  else if pg = 0x1A then { s with link := Link.reset }
  else if pg = 0x20 then
    { s with tile := { s.tile with sigs := [none, none], results := Tile.reset.results, lost := Tile.reset.lost, needNow := 0,
                                   needAt := Tile.reset.needAt, gut := [0, 0, 0, 0] } }.clearLeafMaps
  else if pg = 0x21 then
    { s with tile := { s.tile with pressing := false, started := false, overrun := false, finished := 0, late := 0, writeQ := [], reload := [] } }
  else if pg = 0x22 then { s with scan := { Scan.reset with depth := s.scan.depth, depthNext := s.scan.depthNext, banks := s.scan.banks } }
  else if pg = 0x23 then { s with health := Health.reset }
  else s

/-- BLK_CTRL.BRST is set: the block's B- and T-class state returns to reset, its commits and snapshot copies end, and its
crossings wait for both ends. -/
def State.blockReset (s : State) (pg : Nat) : State :=
  let s1 := (s.blockStops pg).blockClears pg
  let s2 := s1.each ((pageFields pg).filter fun f => (f.ret == .b || f.ret == .t) && !epochFld f) fun s f => s.wrAll f f.rst
  let inPage (e : Nat × Word) : Bool := e.1 / 262144 == pg
  let s3 := { s2 with
    xing := s2.xing.filter fun e => e.1 % 256 != pg
    snapd := s2.snapd.filter fun e => !inPage e
    host := { s2.host with snapBusy := s2.host.snapBusy.filter (· != pg) }
    commits := { s2.commits with pend := s2.commits.pend.filter (fun e => !(e.1 == pg)), latched := s2.commits.latched.filter (· != pg),
                                 done := s2.commits.done.filter (· != pg) } }
  let retired := if pg = 0x18 ∨ pg = 0x19 then (List.range 5).filter fun l => s.lane (pg - 0x18) l == 5 else []
  let s4 := (((s3.wr (BLK_CTRL_BRST pg) 1).wr (BLK_STAT_RDY pg) 0).wr (BLK_STAT_XRDY pg) 0).each retired fun s l => s.setLane (pg - 0x18) l 5
  s4.settleReady

/-- BLK_RESET_DONE (R28): the block is out of reset. An intake port in mode 2 joins its group again (R56), a Quire side brings up from
RATE_START (R123), and the rail loops that are enabled start their profile (R238). -/
def execBlkResetDone (page : BitVec 8) (s : State) : Outcome State Fault Refusal :=
  let pg := page.toNat
  if pageActive s.role pg = true ∧ s.on (BLK_CTRL_BRST pg) = true then
    let s0 := s.wr (BLK_STAT_RDY pg) 1 |>.settleReady
    let s1 := if 0x10 ≤ pg ∧ pg < 0x14 ∧ s.on (BLK_STAT_RDY pg) = false then s0.ingJoin (pg - 0x10)
      else if (pg = 0x18 ∨ pg = 0x19) ∧ s.on (BLK_STAT_RDY pg) = false then
        s0.wr (QP_SIDE_STAT_RATE (pg - 0x18)) (s0.rd (QP_CFG_RATE_START (pg - 0x18)))
      else s0
    .next (if pg = 7 ∧ s.on (BLK_STAT_RDY pg) = false then
      s1.each (List.range 8) fun s k =>
        if s.on (RCE_LOOP_CFG_EN k) = true ∧ (s.rd (RCE_LOOP_CFG_KIND k) = 2 ∨ s.on SCN_STAT_LIT = true) then s.loopEnChanged k else s
      else s1)
  else .next s

/-- XOVF (R25): a crossing's event counter saturates at a destination block. -/
def execXovf (page : BitVec 8) (crossing : Word) (s : State) : Outcome State Fault Refusal :=
  if pageActive s.role page.toNat then .next (s.crossFull page.toNat crossing.toNat) else .next s

/-- A snapshot copy in flight completes at wall time `t` (R44), which NOW holds. CMP.LAYER_STAT shows the layer that LAYER_SEL names. -/
def State.snapDone (s : State) (pg t : Nat) : State :=
  if s.host.snapBusy.contains pg = false then s
  else if pg = 8 then
    ((((s.passTo t).wr WTU_NOW_SEC_SEC (t / nsU / 1000000000)).wr WTU_NOW_NS_NS (t / nsU % 1000000000)).wr WTU_NOW_NS_FRAC (t % nsU)).snapFinish 8
  else if pg = 0x15 then s.layerStat.snapFinish 0x15
  else if pg = 9 ∧ s.isSender = true then ((s.arbShow 0 t).arbShow 1 t).snapFinish 9
  else s.snapFinish pg

/-! ### Remote access: issue (R48) -/

/-- The words of a remote request or response (Table 07-6), in a management message. -/
def raWords (w1 w2 w3 : Nat) : List Word72 := [BitVec.ofNat 72 w1, BitVec.ofNat 72 w2, BitVec.ofNat 72 w3]

/-- An access ends: DONE sets with its CODE, and RA_DONE is raised. -/
def State.raEnd (s : State) (code : Nat) : State :=
  (({ s with host := { s.host with ra := none } }.wr HIF_RA_STAT_BUSY 0).wr HIF_RA_STAT_CODE code).wr HIF_RA_STAT_DONE 1 |>.raise 0 4

/-- Whether a node index has been given to a node of this ring (R141). -/
def State.enumerated (s : State) (node : Nat) : Bool :=
  node == 0 || node == 63 || node == s.node || decide (node ≤ max (s.rd (QLK_TOPO_N_TILES 0)) (s.rd (QLK_TOPO_N_TILES 1)))

/-- A request goes out to a node's queue 0xFFF, with a deadline in 2^-16 ns. -/
def State.raSend (s : State) (node op addr data deadline : Nat) : State × Bool :=
  let ns := deadline / 65536
  s.sendMessage (node * 4096 + 0xFFF) (s.node * 4096 + 0xFFE) s.host.raSeq
    (raWords (op + addr * 2 ^ 32) data (ns % 1000000000 + ns / 1000000000 % 65536 * 2 ^ 32))

/-- RA_CTRL.GO (R48): the operation in RA_CTRL, RA_ADDR and RA_DATA is issued at wall time `t`. -/
def State.raGo (s : State) (src : Requester) (t : Nat) : State :=
  if s.on HIF_RA_STAT_BUSY then
    s.capture 0 errRA_BUSY src 0xB0 (s.rd HIF_RA_CTRL_OP + 8 + s.rd HIF_RA_CTRL_TAG * 256 + s.rd HIF_RA_CTRL_TMO_US * 2 ^ 32)
  else
    let op := s.rd HIF_RA_CTRL_OP
    let node := s.rd HIF_RA_ADDR_NODE
    if 6 ≤ op then s.raEnd 4
    else if s.enumerated node = false then s.raEnd 2
    else
      let d := t + s.rd HIF_RA_CTRL_TMO_US * 65536000
      let r := s.raSend node op (s.rd HIF_RA_ADDR_ADDR) (s.rd HIF_RA_DATA_DATA + s.rd HIF_RA_CTRL_TAG * 2 ^ 64) d
      if r.2 then
        { r.1 with host := { r.1.host with ra := some ⟨node, op, s.host.raSeq, d, false⟩, raSeq := (s.host.raSeq + 1) % 4096 } }.wr
          HIF_RA_STAT_BUSY 1
      else s.raEnd 3

/-! ### What a register write brings about beside its fields -/

/-- Whether accesses reach the registers at all: not in SLEEP (R299) nor while the part waits in reset for QREFCLK (R334); over
PCI Express in SENDER and BENCH roles only (R32). -/
def State.reachable (s : State) (src : Requester) : Bool :=
  !s.asleep && !s.nvs.clockLost && (decide (src ≠ .pcie) || pageActive s.role 0x15)

/-- W1S and WO bits of the page header, and what its W1C and RW bits imply (R38, R39, R42, R44 to R47). `old` is the state
before the write. -/
def State.headerActs (s old : State) (pg off v : Nat) : State :=
  if off = 0x08 then
    let s1 := if old.on (BLK_CTRL_EN pg) = true ∧ s.on (BLK_CTRL_EN pg) = false then s.scanBlockOff pg else s
    let s2 := s1.when (old.on (BLK_CTRL_CGATE pg) && !s1.on (BLK_CTRL_CGATE pg)) State.settleReady
    s2.when (v.testBit 1) fun s => s.blockReset pg
  else if off = 0x18 ∨ off = 0x20 then s.when (s.intStat pg != 0) fun s => s.msixSend pg
  else if off = 0x30 then s.when (!s.on (ERR_CAP0_VALID pg)) fun s => s.wr (ERR_CAP0_MORE pg) 0
  else if off = 0x40 then
    if v.testBit 0 then s.doCommit pg else if v.testBit 1 then s.doDiscard pg else s
  else if off = 0x50 then s.when (v.testBit 0) fun s => s.wr (LOCK pg) 1
  else if off = 0x58 then s.when (v.testBit 0) fun s => s.snapStart pg
  else s

/-- W1S and WO bits of the blocks common to the roles, and what their RW fields imply. -/
def State.commonActs (s old : State) (src : Requester) (pg off v t : Nat) : State :=
  if pg = 0 ∧ off = 0xB0 then s.when (v.testBit 3) fun s => s.raGo src t
  else if pg = 1 ∧ off = 0x98 then
    (s.when (v.testBit 2) State.traceStop).when (v.testBit 3) State.traceGo
  else if pg = 2 ∧ off = 0x88 then s.doorbellAt src (QEN_DOORBELL_QUEUE.of v) (QEN_DOORBELL_TAIL.of v)
  else if pg = 2 ∧ off = 0x90 then s.consumeAt src (QEN_CONSUME_QUEUE.of v) (QEN_CONSUME_HEAD.of v)
  else if pg = 3 ∧ off = 0x88 then s.when (v.testBit 2) fun s => { s with nvs := { s.nvs with fails := [] } }
  else if pg = 3 ∧ off = 0x90 then
    if v.testBit 0 = false ∨ NVS_RST_CTRL_KEY.of v ≠ 0xA5 then s
    else if s.starting then s.capture 3 errBUSY src 0x90 v
    else s.requestSoft (if src = .remote then 6 else 7)
  else if pg = 3 ∧ off = 0xB8 then s.when (v.testBit 0) State.saveGo
  else if pg = 4 ∧ off = 0xC0 then s.when (v.testBit 0) State.updClear
  else if pg = 7 ∧ 0x100 ≤ off ∧ off % 0x80 = 0 then
    let k := (off - 0x100) / 0x80
    let s1 := if old.rd (RCE_LOOP_CFG_EN k) ≠ s.rd (RCE_LOOP_CFG_EN k) then s.loopEnChanged k else s
    s1.when (v.testBit 31) fun s => s.resumeLoop k
  else if pg = 7 ∧ 0x100 ≤ off ∧ off % 0x80 = 0x38 then s.limChanged ((off - 0x100) / 0x80)
  else if pg = 7 ∧ 0x100 ≤ off ∧ off % 0x80 = 0x40 then
    let k := (off - 0x100) / 0x80
    (s.when (v.testBit 52) fun s => s.profStart k src).when (v.testBit 53) fun s => s.profEnd k
  else if pg = 8 ∧ off = 0xC8 then s.when (v.testBit 48 && !s.isTile) fun s => s.armTb src
  else if pg = 8 ∧ (off = 0xD0 ∨ off = 0xE0 ∨ off = 0xE8 ∨ off = 0x130 ∨ off = 0x138) then s.inputsChanged
  else if pg = 8 ∧ off = 0x140 then { s with wtu := { s.wtu with todSet := true } }
  else if pg = 9 ∧ off = 0xA0 then s.when (v.testBit 32) fun s => s.rehGo src (s.rd ARB_REH_SIDE) t
  else if pg = 9 ∧ off = 0xA8 then
    (s.when (v.testBit 49) fun s => s.swapGo src (s.rd ARB_SWAP_SIDE) t).when (v.testBit 50) fun s => s.swapTake src (s.rd ARB_SWAP_SIDE)
  else if pg = 10 ∧ off = 0x80 then
    let s1 := s.recModeChanged (old.rd REC_CTRL_MODE)
    ((s1.when (v.testBit 2) State.recTrigGo).when (v.testBit 3) State.recArmGo).when (v.testBit 9) State.replayStart
  else s

/-- The same of the blocks of one role or another. A write of the last EDID register while HPD is low sends no IRQ_HPD pulse, for there is no
high level to interrupt: the model's choice (notes/assumptions/24.md). -/
def State.roleActs (s old : State) (src : Requester) (pg off v : Nat) : State :=
  if 0x10 ≤ pg ∧ pg < 0x14 then
    let p := pg - 0x10
    if off = 0x80 then s.ingModeChanged p (old.ingMode p)
    else if off = 0xA0 then s.ingJoin p
    else if off = 0x4F8 then s.when (s.hpd p) fun s => s.send (.pin .hpdIrq p)
    else s
  else if pg = 0x15 ∧ off = 0xA0 then s.releaseBuffer src (CMP_BUF_REL_HANDLE.of v)
  else if pg = 0x17 ∧ off = 0x90 then s.when (v.testBit 0) fun s => s.prepGo src (s.rd IMP_PREP_BANK)
  else if (pg = 0x18 ∨ pg = 0x19) ∧ off = 0x88 then
    let sd := pg - 0x18
    (s.when (v.testBit 0) fun s => s.retrainSide sd).when (v.testBit 5) fun s => s.requestSwap sd (s.rd (QP_CTRL_SWAP_LANE sd))
  else if pg = 0x1A ∧ off = 0x88 then s.when (v.testBit 0) State.enumGo
  else if pg = 0x20 ∧ off = 0x80 then s.when (!s.on (LOCK 0x20)) fun s => s.clearLeafMaps.updNeed
  else if pg = 0x21 ∧ off = 0xC8 then s.when (v.testBit 33) State.ageSave
  else if pg = 0x22 ∧ off = 0x80 then
    s.when (old.on SCN_CTRL_LAMP_EN && !s.on SCN_CTRL_LAMP_EN) fun s => (s.lampsOff whyHOST).hostDark
  else if pg = 0x23 ∧ off = 0xA0 then s.when (v.testBit 20) fun s => s.lhmGo src
  else s

/-- Whether a write to LOOP[k].CFG is discarded: it changes a fixed field while EN = 1 (R231). -/
def State.loopFixed (s : State) (pg off v : Nat) : Bool :=
  let k := (off - 0x100) / 0x80
  decide (pg = 7 ∧ 0x100 ≤ off ∧ off % 0x80 = 0) && s.on (RCE_LOOP_CFG_EN k) &&
    [RCE_LOOP_CFG_KIND k, RCE_LOOP_CFG_CLASS k, RCE_LOOP_CFG_SENS k, RCE_LOOP_CFG_OUT k, RCE_LOOP_CFG_PMB_ADDR k,
      RCE_LOOP_CFG_PMB_PAGE k].any fun f => f.of v != s.rd f % 2 ^ f.w

/-- Fields that a write asks to change and that stay as they are, with code BUSY: EN of a loop whose output another enabled loop
uses (R231), and REC.CTRL.MODE for REPLAY in a LIT tile (R325). -/
def State.busyField (s : State) (pg off v : Nat) : Option Fld :=
  let k := (off - 0x100) / 0x80
  if pg = 7 ∧ 0x100 ≤ off ∧ off % 0x80 = 0 then
    if v.testBit 2 = true ∧ s.on (RCE_LOOP_CFG_EN k) = false ∧ s.outUsed k ((RCE_LOOP_CFG_OUT k).of v) = true then some (RCE_LOOP_CFG_EN k)
    else none
  else if pg = 10 ∧ off = 0x80 ∧ s.recModeBusy (REC_CTRL_MODE.of v) = true then some REC_CTRL_MODE
  else none

/-- A write's value with one field's bits replaced by what the field holds. -/
def State.keepField (s : State) (v : Nat) (f : Fld) : Nat := v - f.of v * 2 ^ f.lo + s.rd f * 2 ^ f.lo

/-- Requests for a channel current above its ceiling (R202): the current applied is the ceiling, and LIMIT is recorded. -/
def State.limitErrs (s : State) (pg off v : Nat) : List WErr :=
  if 0x28 ≤ pg ∧ pg < 0x2C ∧ off = 0x88 then
    (List.range 4).filterMap fun c =>
      let x := (DRV_CG_CG (pg - 0x28) c).of v
      if s.rd (DRV_CG_CEIL_CEIL (pg - 0x28) c) < x then some ⟨errLIMIT, x⟩ else none
  else []

/-- A write to MSI-X table words: the mask bits are bit 0 of each entry's last doubleword; unmasking with a source pending sends
the vector (R47). -/
def State.msixWrite (s : State) (off v : Nat) : State :=
  if 704 ≤ off then s
  else
    let i := off / 16
    if off % 16 = 8 then
      let open_ := !v.testBit 32
      let was := s.host.msixOpen.toNat.testBit i
      let bit := BitVec.ofNat 64 (2 ^ i)
      let s1 := { s with host := { s.host with msixTbl := s.host.msixTbl.set (off / 8) (BitVec.ofNat 64 (v % 2 ^ 32)),
                                                msixOpen := if open_ then s.host.msixOpen ||| bit else s.host.msixOpen &&& ~~~bit } }
      if open_ && !was then
        { s1 with host := { s1.host with msixPba := s1.host.msixPba &&& ~~~bit } }.when (s1.intStat i != 0) fun s => s.msixSend i
      else s1
    else { s with host := { s.host with msixTbl := s.host.msixTbl.set (off / 8) (BitVec.ofNat 64 v) } }

/-- What a page disabled in the role takes of a write (R8): INT_EN, and W1C writes to INT_RAW and ERR_CAP0.VALID. -/
def offWritable (off : Nat) : Bool := off == 0x18 || off == 0x20 || off == 0x30

/-- A write of a whole register, at wall time `t` where that bears on it. With `half`, no low half was held (R35). -/
def State.regWrite (s : State) (src : Requester) (pg off v : Nat) (half : Bool) (t : Nat) : State :=
  if s.pageThere pg = false then s.capture 0 errUNMAPPED src off v
  else if pg = 0x3E then
    if half then (s.msixWrite off (v / 2 ^ 32 * 2 ^ 32 + s.readReg pg off % 2 ^ 32)).capture 0 errHALF src off (v / 2 ^ 32)
    else s.msixWrite off v
  else if pg = 0x3F then s
  else if pageActive s.role pg = false ∧ offWritable off = false then s.capture pg errROLE_OFF src off v
  else if off = 0x40 ∧ pageHasRws pg = false then s
  else if s.loopFixed pg off v then s.capture pg errBUSY src off v
  else
    let u := if half then v / 2 ^ 32 * 2 ^ 32 + s.lowKept (regFields pg off) else v
    let s1 :=
      if pg = 5 ∧ off = 0x80 then s.threshWrite src u (if half then [⟨errHALF, v / 2 ^ 32⟩] else [])
      else if pg = 6 ∧ off = 0x98 then
        let a := if u - (u &&& s.coverMask pg off) = 0 then s else s.capture pg errRSV src off u
        (if half then a.capture pg errHALF src off (v / 2 ^ 32) else a).trimDataWrite src (STR_DATA_VALUE.of u) t
      else
        let more := s.limitErrs pg off u
        match s.busyField pg off u with
        | some f => (s.writeFields src pg off (s.keepField v f) half more).capture pg errBUSY src off (f.of u)
        | none => s.writeFields src pg off v half more
    let s2 := ((s1.headerActs s pg off u).commonActs s src pg off u t).roleActs s src pg off u
    s2.mgmtReg src pg off u

/-! ### Window writes (R37, R77, R97, R185) -/

/-- The error of a window write, in the owning page: ERR_CAP1 holds the BAR2 address (R34). -/
def State.winErr (s : State) (src : Requester) (idx code : Nat) : State := s.capture (winOwner idx) code src 0 (16 * idx)

/-- Active and latched layer descriptors that are enabled: one with ENABLE = 0 references nothing, which is the model's choice
(notes/assumptions/25.md). -/
def State.layerSets (s : State) : List (List Word72) :=
  ((List.range 64).flatMap fun l => [s.layerActive l, s.layerLatched l]).filter dEnable

/-- Whether a layer set references an object (R77): a buffer entry, tone curve, custom transfer slot or coefficient set. -/
def State.bufferUsed (s : State) (h : Nat) : Bool :=
  s.layerSets.any fun d => dHandle d == h || (dScaled d && dTwoPass d && dInterm d == h)
def State.toneUsed (s : State) (k : Nat) : Bool := s.layerSets.any fun d => dsc d 5 24 24 == 1 && dsc d 5 31 25 == k
def State.customUsed (s : State) (k : Nat) : Bool := s.layerSets.any fun d => dTf d == 4 && dsc d 5 6 3 == k
def State.coefUsed (s : State) (vertical : Bool) (k : Nat) : Bool :=
  s.layerSets.any fun d => dScaled d && (if vertical then dsc d 3 53 50 else dsc d 3 49 46) == k

/-- A write to an object in use (R77). -/
def State.slotBusy (s : State) (src : Requester) (idx : Nat) : State := (s.winErr src idx errBUSY).raise 0x15 14

/-- Coefficients of a set's phase, in S1.10 (R92). -/
def State.phaseSum (s : State) (vertical : Bool) (k p : Nat) : Int :=
  ((List.range (if vertical then 6 else 8)).map (s.coef vertical k p)).foldl (· + ·) 0

/-- SCL.COEF_STAT follows a set that was written (R92). -/
def State.coefStat (s : State) (vertical : Bool) (k : Nat) : State :=
  let bad := (List.range 64).any fun p => s.phaseSum vertical k p != 1024
  let f := if vertical then SCL_COEF_STAT_VNU else SCL_COEF_STAT_HNU
  let old := s.rd f
  s.wr f (if bad then old ||| 2 ^ k else old - (old &&& 2 ^ k))

/-- A write that was accepted, and one that was discarded or ignored. -/
def State.yes (s : State) : State × Bool := (s, true)
def State.no (s : State) : State × Bool := (s, false)

/-- IMP window (Tables 05-1 to 05-4). -/
def State.writeImp (s : State) (src : Requester) (idx : Nat) (v : Word72) : State × Bool :=
  if idx < 0x40000 then
    let b := idx / 0x20000
    let t := idx / 0x400 % 64
    let w := idx % 0x400
    if t = 0 ∨ t = 63 then (s.winErr src idx errRSV).no
    else if (4 ≤ w ∧ w < 16) ∨ (305 ≤ w ∧ w < 512) ∨ 768 ≤ w then (s.winErr src idx 0x30).no
    else if b = s.bank ∨ b = (s.latched.get IMP_CTRL_BANK.key).toNat then (s.winErr src idx errBUSY).no
    else
      let ok := s.rd IMP_PREP_STAT_OK
      let s1 := s.wr IMP_PREP_STAT_OK (ok - (ok &&& 2 ^ b))
      if w = 0 then (s1.setWord idx (BitVec.ofNat 72 (v.toNat % 2 ^ 17 + bitsOf (s.word idx).toNat 18 17 * 2 ^ 17))).yes
      else if 16 ≤ w ∧ w < 305 then (s1.setWord idx (BitVec.ofNat 72 (v.toNat % 2 ^ 52))).yes
      else s1.yes
  else if idx < 0x40080 then ({ s with winShadow := s.winShadow.set idx v }.wr (SHD_STAT_DIRTY 0x17) 1).yes
  else if 0x48000 ≤ idx ∧ idx < 0x48080 then (if v.toNat % 2 ^ 64 = 2 ^ 64 - 1 then (s.setWord idx 0).yes else s.no)
  else (s.winErr src idx errRSV).no

/-- Words 0 and 1 of a buffer entry with BASE and STRIDE multiples of 256 and W and H from 1 to 16,384 (Table 04-3). -/
def bufLegal (i : Nat) (v : Word72) : Word72 :=
  let f (hi lo : Nat) : Nat := bitsOf v.toNat hi lo
  if i = 0 then setBits (setBits v 35 0 (f 35 0 / 256 * 256)) 59 36 (min 0xFFFF00 ((f 59 36 + 127) / 256 * 256))
  else setBits (setBits v 14 0 (clampN 1 16384 (f 14 0))) 29 15 (clampN 1 16384 (f 29 15))

/-- CMP window (Tables 04-1 to 04-3). -/
def State.writeCmp (s : State) (src : Requester) (idx : Nat) (v : Word72) : State × Bool :=
  if idx < 0x400800 then
    if idx < 0x400400 ∧ 10 ≤ idx % 16 then (s.winErr src idx errRSV).no
    else ({ s with winShadow := s.winShadow.set idx v }.wr (SHD_STAT_DIRTY 0x15) 1).yes
  else if idx < 0x404800 then
    let h := (idx - 0x400800) / 4
    if h < 4 then s.no
    else if h < 16 then (s.winErr src idx errRSV).no
    else if s.bufferUsed h then (s.slotBusy src idx).no
    else if idx % 4 < 2 then
      let u := bufLegal (idx % 4) v
      let s1 := (s.setWord idx u).when (u != v) fun s => s.winErr src idx errCLAMP
      (s1.when (idx % 4 == 0 && u.toNat.testBit 61 && s.bufState h == 0) fun s => s.setBufState h 1 (s.bufRetire h)).yes
    else s.no
  else if 0x410000 ≤ idx ∧ idx < 0x430000 then
    if s.toneUsed ((idx - 0x410000) / 1024) then (s.slotBusy src idx).no else (s.setWord idx v).yes
  else if 0x430000 ≤ idx ∧ idx < 0x450000 then
    if s.customUsed ((idx - 0x430000) / 8192) then (s.slotBusy src idx).no else (s.setWord idx v).yes
  else (s.winErr src idx errRSV).no

/-- SCL window (R92). -/
def State.writeScl (s : State) (src : Requester) (idx : Nat) (v : Word72) : State × Bool :=
  if idx < 0x500800 then
    let k := (idx - 0x500000) / 128
    if s.coefUsed false k then (s.slotBusy src idx).no else ((s.setWord idx v).coefStat false k).yes
  else if 0x501000 ≤ idx ∧ idx < 0x501400 then
    let k := (idx - 0x501000) / 64
    if s.coefUsed true k then (s.slotBusy src idx).no else ((s.setWord idx v).coefStat true k).yes
  else (s.winErr src idx errRSV).no

/-- A word goes into the queue of R185, or is stored at once outside a press pass. -/
def State.tableLater (s : State) (a : Nat) (v : Word72) : State :=
  if s.tile.pressing then { s with tile := { s.tile with writeQ := s.tile.writeQ ++ [(a, v)] } } else s.setTable a v

/-- Whether a bank number is named by an active or latched register field. -/
def State.bankNamed (s : State) (f : Fld) (b : Nat) : Bool := s.rd f == b || (s.latched.get f.key).toNat == b

/-- TFS/LCP window (Table 09-1, R184, R185). -/
def State.writePix (s : State) (src : Requester) (idx : Nat) (v : Word72) : State × Bool :=
  let a := idx - 0x600000
  if a < 0x100000 then (s.setPix a v).yes
  else if a < 0x120000 then (s.winErr src idx errLOCKED).no
  else if a < 0x130000 then
    let own := bitsOf (s.userNow (a - 0x120000)).toNat 71 56
    (s.tableLater a (setBits v 71 56 own)).yes
  else if a < 0x140000 ∨ (0x150000 ≤ a ∧ a < 0x160000) then
    if s.on LCP_AGE_WR_EN then (s.tableLater a v).yes else (s.winErr src idx errLOCKED).no
  else if a < 0x140210 then (s.tableLater a v).yes
  else if 0x141000 ≤ a ∧ a < 0x143800 then
    if s.bankNamed LCP_CFG_AGE_BANK ((a - 0x141000) / 0x1400) then (s.winErr src idx errBUSY).no else (s.setTable a v).yes
  else if 0x144000 ≤ a ∧ a < 0x14C000 then
    if s.bankNamed LCP_CFG_LUT_BANK ((a - 0x144000) / 0x4000) then (s.winErr src idx errBUSY).no else (s.setTable a v).yes
  else if 0x160000 ≤ a ∧ a < 0x200000 then (s.setPix a v).yes
  else (s.winErr src idx errRSV).no

/-- QEN window (R259): descriptors are the firmware's; queue memory is written by the queue's producer. -/
def State.writeQueue (s : State) (src : Requester) (idx : Nat) (v : Word72) : State × Bool :=
  if idx < 0x804000 then (if src = .firmware then (s.setWord idx v).yes else (s.winErr src idx errRSV).no)
  else if 0x810000 ≤ idx ∧ idx < 0x830000 then (s.setWord idx v).yes
  else (s.winErr src idx errRSV).no

/-- CCC/REC window: the rings are read-only; the result and stamp tables follow (R265, R321, R326, R328). -/
def State.writeRec (s : State) (src : Requester) (idx : Nat) (v : Word72) : State × Bool :=
  if idx < 0xB21000 then s.no
  else if 0xB30000 ≤ idx ∧ idx < 0xB30010 then s.no
  else if 0xB31000 ≤ idx ∧ idx < 0xB32000 then (s.setWord idx v).yes
  else (s.winErr src idx errRSV).no

/-- A whole 72-bit word is written through the window. -/
def State.winWrite (s : State) (src : Requester) (idx : Nat) (v : Word72) : State :=
  if 0xC00000 ≤ idx then s.capture 0 errUNMAPPED src 0 (16 * idx)
  else if pageActive s.role (winOwner idx) = false then s.winErr src idx errROLE_OFF
  else
    let r := if idx < 0x400000 then s.writeImp src idx v
      else if idx < 0x500000 then s.writeCmp src idx v
      else if idx < 0x600000 then s.writeScl src idx v
      else if idx < 0x800000 then s.writePix src idx v
      else if idx < 0xA00000 then s.writeQueue src idx v
      else if idx < 0xB00000 then (s.winErr src idx errRSV).no
      else s.writeRec src idx v
    if r.2 then r.1.mgmtWord src idx v.toNat else r.1

/-! ### Halves (R35, R36, R37) -/

/-- The low half a requester holds for an address. -/
def lowHeld (l : List (Requester × Nat × Nat)) (src : Requester) (a : Nat) : Option Nat :=
  (l.find? fun e => e.1 == src && e.2.1 == a).map fun e => e.2.2

/-- A requester's holding register takes a value; there is one per requester. -/
def holdLow (l : List (Requester × Nat × Nat)) (src : Requester) (a v : Nat) : List (Requester × Nat × Nat) :=
  (src, a, v) :: l.filter fun e => !(e.1 == src)

/-- A requester's holding register for an address is used up. -/
def dropLow (l : List (Requester × Nat × Nat)) (src : Requester) (a : Nat) : List (Requester × Nat × Nat) :=
  l.filter fun e => !(e.1 == src && e.2.1 == a)

/-- The low 64 bits that a window word holds now, of the shadow set where it has one. -/
def State.rawWin (s : State) (idx : Nat) : Word72 :=
  if (winShadowPage idx).isSome then s.winShadow.get idx else s.readWin idx

/-- The write that covers bytes 8 to 11 of a window word: it completes with the low 64 bits its requester holds; with none held
the word keeps its own, and HALF is recorded (R37). -/
def State.winFinish (s : State) (src : Requester) (idx hi : Nat) : State :=
  match lowHeld s.host.winHold src idx with
  | some v =>
    { s with host := { s.host with winHold := dropLow s.host.winHold src idx } }.winWrite src idx (BitVec.ofNat 72 (v + hi % 256 * 2 ^ 64))
  | none =>
    if 0xC00000 ≤ idx then s.capture 0 errUNMAPPED src 0 (16 * idx)
    else
      let v := setBits (s.rawWin idx) 71 64 hi
      (s.winErr src idx errHALF).winWrite src idx v

/-- The low 64 bits of a window word are held. -/
def State.winLow (s : State) (src : Requester) (idx v : Nat) : State :=
  { s with host := { s.host with winHold := holdLow s.host.winHold src idx v } }

/-- A bus write to a window, of 32 or 64 bits at byte `b` of the word. Bytes 12 to 15 are ignored. -/
def State.winBus (s : State) (src : Requester) (idx b : Nat) (size : AccSize) (v : Nat) : State :=
  let a := 0x10000000 + 16 * idx
  match size with
  | .b64 => if b < 8 then s.winLow src idx v else s.winFinish src idx (v % 2 ^ 32)
  | .lo => if b < 8 then { s with host := { s.host with wHold := holdLow s.host.wHold src a (v % 2 ^ 32) } } else s.winFinish src idx (v % 2 ^ 32)
  | .hi =>
    if 8 ≤ b then s
    else match lowHeld s.host.wHold src a with
      | some l =>
        { s with host := { s.host with wHold := dropLow s.host.wHold src a } }.winLow src idx (l + v % 2 ^ 32 * 2 ^ 32)
      | none => (s.winErr src idx errHALF).winLow src idx ((s.rawWin idx).toNat % 2 ^ 32 + v % 2 ^ 32 * 2 ^ 32)
  | .b8 | .b16 => s.winErr src idx errSIZE

/-- A bus write to a register of 32 or 64 bits (R35, R36). A narrower one is recorded with SIZE, in a page of an inactive role too, and
for the MSI-X tables, which have no error registers of their own, in HIF (notes/assumptions/12.md). -/
def State.regBus (s : State) (src : Requester) (pg off : Nat) (size : AccSize) (v t : Nat) : State :=
  let o := off / 8 * 8
  let a := pg * 4096 + o
  if s.pageThere pg = false then s.capture 0 errUNMAPPED src off v
  else match size with
  | .b64 => s.regWrite src pg o v false t
  | .lo => { s with host := { s.host with wHold := holdLow s.host.wHold src a (v % 2 ^ 32) } }
  | .hi =>
    match lowHeld s.host.wHold src a with
    | some l => { s with host := { s.host with wHold := dropLow s.host.wHold src a } }.regWrite src pg o (l + v % 2 ^ 32 * 2 ^ 32) false t
    | none => s.regWrite src pg o (v % 2 ^ 32 * 2 ^ 32) true t
  | .b8 | .b16 => s.capture (if pageMapped pg then pg else 0) errSIZE src off v

/-- A write to an unmapped address (R33, R34): ERR_CAP1 holds the BAR2 address of one in a window range, else the value. -/
def State.unmappedWrite (s : State) (src : Requester) (addr v : Nat) : State :=
  if 0x10000000 ≤ addr ∧ addr < 0x20000000 then s.capture 0 errUNMAPPED src 0 (addr - 0x10000000)
  else s.capture 0 errUNMAPPED src (if addr < 0x100000 then addr % 4096 else 0) v

/-- A write to a local address at wall time `t` (R33, R34). -/
def State.busWrite (s : State) (src : Requester) (addr : Nat) (size : AccSize) (v t : Nat) : State :=
  if s.reachable src = false then s
  else match target addr with
    | .page pg off => s.regBus src pg off size v t
    | .window idx b => s.winBus src idx b size v
    | .unmapped => s.unmappedWrite src addr v

/-- The same where no wall time is given: only ARB.REH, ARB.SWAP, STR.DATA and RA_CTRL use it, and it is then a free value. -/
def State.busWriteFree (s : State) (src : Requester) (addr : Nat) (size : AccSize) (v : Nat) : State :=
  let o := addr / 8 * 8
  if o = 0x90A0 ∨ o = 0x90A8 ∨ o = 0x6098 ∨ o = 0xB0 then s.drawn.busWrite src addr size v s.free else s.busWrite src addr size v 0

/-- REGISTER_WRITE (R38). -/
def execRegisterWrite (src : Requester) (addr : BitVec 32) (size : AccSize) (data : Word) (s : State) : Outcome State Fault Refusal :=
  .next (s.busWriteFree src addr.toNat size data.toNat)

/-- A read of a window word notes an uncorrectable error in the owning page (R37). -/
def State.noteUe (s : State) (src : Requester) (addr : Nat) : State :=
  match target addr with
  | .window idx _ => if s.ue.contains idx then s.winErr src idx errECC_UE else s
  | _ => s

/-- The 64 bits that a read at an address returns: of a window word, bytes 0 to 7 or 8 to 15, with UE in the last doubleword. -/
def State.read64 (s : State) (addr : Nat) : Nat :=
  match target addr with
  | .window idx b =>
    if b < 8 then (s.readWin idx).toNat % 2 ^ 64
    else bitsOf (s.readWin idx).toNat 71 64 + b2n (s.ue.contains idx) * 2 ^ 32
  | _ => (s.readAddr addr).toNat

/-- LOW_HALF_READ (R35): the high half is held for the requester. -/
def execLowHalfRead (src : Requester) (addr : BitVec 32) (s : State) : Outcome State Fault Refusal :=
  let a := addr.toNat / 8 * 8
  if s.reachable src = false then .next s
  else
    let t := s.noteUe src a
    .next { t with host := { t.host with rHold := holdLow t.host.rHold src a (bitsOf (s.read64 a) 63 32) } }

/-- A read of the high half at an address (R35): the copy that the requester holds for the same register, else the live high half. The
copy is used up or discarded. No row of the command table performs it (notes/assumptions/11.md). -/
def State.highHalfRead (s : State) (src : Requester) (addr : Nat) : State × Nat :=
  let a := addr / 8 * 8
  ({ s with host := { s.host with rHold := s.host.rHold.filter fun e => !(e.1 == src) } },
   (lowHeld s.host.rHold src a).getD (bitsOf (s.read64 a) 63 32))

/-- A read of a byte of BAR4: zero beyond the installed capacity (R32). -/
def State.bar4Read (s : State) (a : Nat) : Byte :=
  if pageActive s.role 0x14 && decide (a < s.rd FMC_MEM_CFG_CAP_GIB * 2 ^ 30) then s.byte a else 0

/-- TABLE_WINDOW_WRITE (R37). -/
def execTableWindowWrite (src : Requester) (addr : BitVec 32) (hi : BitVec 32) (s : State) : Outcome State Fault Refusal :=
  .next (match target addr.toNat with
    | .window idx _ => if s.reachable src then s.winFinish src idx hi.toNat else s
    | .page pg off => if s.reachable src then s.regBus src pg (off / 8 * 8) .b64 hi.toNat 0 else s
    | .unmapped => if s.reachable src then s.unmappedWrite src addr.toNat hi.toNat else s)

end Sys2Proof.Machine
end

