-- ==== Sys2Proof/Machine/Remote.lean ====
section
/-! DEFINITION. Remote register access, the debug SPI and the bulk commands (R48 to R50, R268). -/

namespace Sys2Proof.Machine

open Host

/-! ### One access at its target (R49) -/

/-- CODE of an access to an address that is refused whole: UNMAPPED or ROLE_OFF. -/
def State.addrCode (s : State) (addr : Nat) : Nat :=
  match target addr with
  | .page pg off =>
    if 0x3E ≤ pg then (if pageActive s.role 0x15 then 0 else 4)
    else if pageActive s.role pg = false ∧ 0x80 ≤ off then 5 else 0
  | .window idx _ => if pageActive s.role (winOwner idx) then 0 else 5
  | .unmapped => 4

/-- CODE of a register write: also LOCKED or CLAMPED, as a field of it meets. -/
def State.regCode (s : State) (pg off v : Nat) : Nat :=
  let fs := (regFields pg off).filter fun f => f.acc == .rw || f.acc == .rws || f.acc == .rwk
  if 0x3E ≤ pg then (if s.pageThere pg then 0 else 4)
  else if pageActive s.role pg = false then (if offWritable off then 0 else 5)
  else if s.on (LOCK pg) = true ∧ (fs.any fun f => f.acc == .rwk) = true then 6
  else if fs.any fun f => s.legal f v != f.of v then 7 else 0

/-- CODE of a window write: LOCKED where the region is locked (R185). -/
def State.winCode (s : State) (idx : Nat) : Nat :=
  let a := idx - 0x600000
  if 0x600000 ≤ idx ∧ ((0x100000 ≤ a ∧ a < 0x120000) ∨
      (s.on LCP_AGE_WR_EN = false ∧ ((0x130000 ≤ a ∧ a < 0x140000) ∨ (0x150000 ≤ a ∧ a < 0x160000)))) then 6 else 0

/-- SHD_STAT of a page. -/
def State.shdStat (s : State) (pg : Nat) : Nat := s.readReg pg 0x48

/-- One access by its OP (HIF.RA_CTRL) at wall time `t`: the state after it, its CODE and the data it returns. -/
def State.access (s : State) (src : Requester) (op addr : Nat) (data : Word72) (t : Nat) : State × Nat × Word72 :=
  let bad := s.addrCode addr
  if 6 ≤ op then (s, 4, 0)
  else if op = 0 ∨ op = 2 then
    if bad ≠ 0 then (s, bad, 0)
    else (s.noteUe src addr, 0, if op = 0 then BitVec.ofNat 72 (s.read64 addr) else s.readAddr addr)
  else match target addr with
    | .page pg off =>
      let o := off / 8 * 8
      if op = 4 then
        if bad ≠ 0 then (s, bad, 0) else let s1 := (s.snapStart pg).snapDone pg t; (s1, 0, BitVec.ofNat 72 (s1.readReg pg o))
      else if op = 5 then
        let s1 := s.regWrite src pg 0x40 1 false t
        (s1, s.regCode pg 0x40 1, BitVec.ofNat 72 (s1.shdStat pg))
      else (s.regWrite src pg o (data.toNat % 2 ^ 64) false t, s.regCode pg o (data.toNat % 2 ^ 64), 0)
    | .window idx b =>
      if 4 ≤ op then (s, 4, 0)
      else if op = 3 then (s.winWrite src idx data, if bad ≠ 0 then bad else s.winCode idx, 0)
      else (s.winBus src idx b .b64 (data.toNat % 2 ^ 64), if bad ≠ 0 then bad else if b < 8 then 0 else s.winCode idx, 0)
    | .unmapped => (s.unmappedWrite src addr (data.toNat % 2 ^ 64), 4, 0)

/-! ### Requests, responses and time-outs (R48) -/

/-- Whether a deadline, in ns modulo 65,536 s as Table 07-6 carries it, lies ahead of wall time `t`. -/
def ahead (deadline t : Nat) : Bool :=
  let m := 65536000000000
  let d := (deadline % m + m - t / 65536 % m) % m
  decide (0 < d ∧ d < m / 2)

/-- REMOTE_ACCESS_REQUEST (R48, R49): executed if it arrives before its deadline, else discarded. -/
def execRemoteAccessRequest (r : RemoteReq) (t : Nat) (s : State) : Outcome State Fault Refusal :=
  if s.reachable .remote = false ∨ ahead r.deadline t = false then .next s
  else
    let answer (s : State) (code : Nat) (d : Word72) : State :=
      (s.sendMessage r.src.toNat (s.node * 4096 + 0xFFF) r.id.toNat (raWords code d.toNat 0)).1
    if s.host.remoteForbidden then .next (answer s 8 0)
    else
      let a := s.access .remote r.op.toNat r.addr.toNat r.data t
      .next (answer a.1 a.2.1 a.2.2)

/-- REMOTE_ACCESS_RESPONSE (R48, R146): the access in flight ends; one that comes after TIMEOUT is counted in LATE; one to an access
relayed for the partner goes back to it. -/
def execRemoteAccessResponse (node : BitVec 6) (id : BitVec 12) (code : BitVec 4) (data : Word72) (s : State) :
    Outcome State Fault Refusal :=
  let key := (node.toNat, id.toNat)
  let relayed := s.link.relays.find? fun r => s.isSender && r.id == id.toNat && r.node == node.toNat
  if relayed.isSome then
    .next (s.relayBack (relayed.getD ⟨0, 0, 0, 0⟩) (node.toNat * 4096 + 0xFFF) (0 :: (raWords code.toNat data.toNat 0).map BitVec.toNat) true)
  else if s.host.raLate.contains key then
    .next (({ s with host := { s.host with raLate := s.host.raLate.filter (· != key) } }.bump HIF_RA_STAT_LATE).capture 0 errRA_LATE
      .remote 0 (id.toNat + node.toNat * 4096))
  else match s.host.ra with
    | some f =>
      if f.node = node.toNat ∧ f.id = id.toNat then
        let s1 := if f.op = 1 ∨ f.op = 3 then s else s.wr HIF_RA_DATA_DATA (data.toNat % 2 ^ 64)
        let s2 := if f.op = 2 then s1.wr HIF_RA_STAT_TAG (data.toNat / 2 ^ 64) else s1
        .next (s2.raEnd code.toNat)
      else .next s
    | none => .next s

/-- REMOTE_ACCESS_TIMEOUT (R48): no response by D + 200 µs. -/
def execRemoteAccessTimeout (t : Nat) (s : State) : Outcome State Fault Refusal :=
  match s.host.ra with
  | some f =>
    if f.deadline + 200 * 65536000 ≤ t then
      .next ({ s with host := { s.host with raLate := (f.node, f.id) :: s.host.raLate } }.raEnd 1)
    else .next s
  | none => .next s

/-! ### Debug SPI (R50) -/

/-- A debug SPI frame: nothing answers in SLEEP or in reset; a locked port answers zero data and status LOCKED. -/
def State.spiFrame (s : State) (op addr : Nat) (data : Word72) : State :=
  if s.reachable .spi = false then s
  else if s.host.spiLocked then s.send (.spi 6 0)
  else
    let a := s.drawn.access .spi op addr data s.free
    a.1.send (.spi a.2.1 a.2.2)

/-- The command that a frame's command byte names, with its address and data bits (R50); no other byte names one. -/
def spiCommand (byte : BitVec 8) (addr : BitVec 32) (data : Word72) : Option Instr :=
  if byte = 0x0B then some (.spiRead64 addr) else if byte = 0x02 then some (.spiWrite64 addr (data.setWidth 64))
  else if byte = 0x0C then some (.spiRead72 addr) else if byte = 0x03 then some (.spiWrite72 addr data) else none

def execSpiRead64 (addr : BitVec 32) (s : State) : Outcome State Fault Refusal := .next (s.spiFrame 0 addr.toNat 0)
def execSpiWrite64 (addr : BitVec 32) (data : Word) (s : State) : Outcome State Fault Refusal :=
  .next (s.spiFrame 1 addr.toNat (BitVec.ofNat 72 data.toNat))
def execSpiRead72 (addr : BitVec 32) (s : State) : Outcome State Fault Refusal := .next (s.spiFrame 2 addr.toNat 0)
def execSpiWrite72 (addr : BitVec 32) (data : Word72) (s : State) : Outcome State Fault Refusal :=
  .next (s.spiFrame 3 addr.toNat data)

/-! ### Bulk commands (R268) -/

/-- Address step of a bulk command: a register, or a window word. -/
def bulkStep (addr : Nat) : Nat := if addr < 0x10000000 then 8 else 16

/-- Status of a bulk command that an access of a CODE ends (Table 14-5). -/
def bulkStatus (code : Nat) : Nat := if code = 4 then stBAD_ARG else stREFUSED

/-- Whether a CODE is a failure; a clamped write is done. -/
def codeFails (code : Nat) : Bool := code != 0 && code != 7

/-- Reads from this node, one word at a time: the words read and the CODE that ended it, if one did. -/
def State.bulkReadHere (s : State) : Nat → Nat → State × List Word72 × Option Nat
  | 0, _ => (s, [], none)
  | n + 1, addr =>
    let a := s.access .remote 2 addr 0 0
    if codeFails a.2.1 then (a.1, [], some a.2.1)
    else
      let r := a.1.bulkReadHere n (addr + bulkStep addr)
      (r.1, a.2.2 :: r.2.1, r.2.2)

/-- Writes to this node, one word at a time: the count done, whether one was clamped, and the CODE that ended it. -/
def State.bulkWriteHere (s : State) : List Word72 → Nat → State × Nat × Bool × Option Nat
  | [], _ => (s, 0, false, none)
  | w :: ws, addr =>
    let a := s.access .remote 3 addr w s.free
    if codeFails a.2.1 then (a.1, 0, false, some a.2.1)
    else
      let r := a.1.bulkWriteHere ws (addr + bulkStep addr)
      (r.1, r.2.1 + 1, a.2.1 == 7 || r.2.2.1, r.2.2.2)

/-- The words that another node would return, and how far the command came: free values. -/
def freeWords (k : Nat) : Nat → List Word72
  | 0 => []
  | n + 1 => BitVec.ofNat 72 ((Config.freeValue k).toNat + (Config.freeValue (k + 1)).toNat % 256 * 2 ^ 64) :: freeWords (k + 2) n

/-- The answer for another node: sent over the ring word by word; its outcome is a free value. -/
def State.bulkAway (s : State) (r : Req) (cmd node op addr : Nat) (data : List Word72) (count : Nat) (reads : Bool) : State :=
  if s.enumerated node = false then s.respond r cmd stNO_NODE [0]
  else if s.reaches node = false ∧ s.canRelay = false then s.respond r cmd stNO_PATH [0]
  else
    let done := (Config.freeValue s.freeCtr).toNat % (count + 1)
    let st := if done = count then (if (Config.freeValue (s.freeCtr + 1)).toNat % 2 = 1 ∧ reads = false then stCLAMPED else stOK)
      else (Config.freeValue (s.freeCtr + 1)).toNat % 13
    let s1 := s.each (List.range (min count (done + 1))) fun s i =>
      let q := s.raSend node op (addr + i * bulkStep addr) (data.getD i 0).toNat (Config.freeValue (s.freeCtr + 2)).toNat
      { q.1 with host := { q.1.host with raSeq := (q.1.host.raSeq + 1) % 4096 } }
    let body := if reads then freeWords (s.freeCtr + 3) done else []
    { s1 with freeCtr := s1.freeCtr + 3 + 2 * done }.respond r cmd st (done :: body.map BitVec.toNat)

/-- BULK_READ: the count of words completed, then the words. -/
def execBulkRead (r : Req) (node : BitVec 6) (addr : BitVec 32) (count : BitVec 16) (s : State) : Outcome State Fault Refusal :=
  s.mailbox r 0x0040 fun s =>
    if 17900 < count.toNat then s.respond r 0x0040 stBAD_ARG [0]
    else if node.toNat = s.node then
      let a := s.bulkReadHere count.toNat addr.toNat
      a.1.respond r 0x0040 (match a.2.2 with | some c => bulkStatus c | none => stOK) (a.2.1.length :: a.2.1.map BitVec.toNat)
    else s.bulkAway r 0x0040 node.toNat 2 addr.toNat [] count.toNat true

/-- BULK_WRITE: the count of words completed. -/
def execBulkWrite (r : Req) (node : BitVec 6) (addr : BitVec 32) (words : List Word72) (s : State) : Outcome State Fault Refusal :=
  s.mailbox r 0x0041 fun s =>
    if 17900 < words.length then s.respond r 0x0041 stBAD_ARG [0]
    else if node.toNat = s.node then
      let a := s.drawn.bulkWriteHere words addr.toNat
      a.1.respond r 0x0041 (match a.2.2.2 with | some c => bulkStatus c | none => if a.2.2.1 then stCLAMPED else stOK) [a.2.1]
    else s.bulkAway r 0x0041 node.toNat 3 addr.toNat words words.length false

end Sys2Proof.Machine
end

