-- ==== Sys2Proof/Machine/RegCommands.lean ====
section
/-! DEFINITION. The register writes that have a row of their own in the command table: each writes the fields its row names, the
register's other fields as they stand, by the one access of Machine/Access.lean. -/

namespace Sys2Proof.Machine

open Host

/-- What a register's RW, RWS and RWK fields hold, as a write would leave them. -/
def State.fieldsNow (s : State) (pg off : Nat) : Nat :=
  ((regFields pg off).filter fun f => f.acc == .rw || f.acc == .rws || f.acc == .rwk).foldl
    (fun a f => a + (if f.acc = .rws then s.rdShadow f else s.rd f) % 2 ^ f.w * 2 ^ f.lo) 0

/-- A value with some fields replaced. -/
def overlay (v : Nat) (l : List (Fld × Nat)) : Nat :=
  l.foldl (fun a e => a - e.1.of a * 2 ^ e.1.lo + e.2 % 2 ^ e.1.w * 2 ^ e.1.lo) v

/-- Write some fields of a register at wall time `t`. -/
def State.writeWith (s : State) (src : Requester) (pg off : Nat) (l : List (Fld × Nat)) (t : Nat) : State :=
  if s.reachable src then s.regWrite src pg off (overlay (s.fieldsNow pg off) l) false t else s

/-- Write a whole register. -/
def State.writeWhole (s : State) (src : Requester) (pg off v : Nat) : State :=
  if s.reachable src then s.regWrite src pg off v false 0 else s

/-! ### The page header (R19, R28, R42, R44 to R47) -/

def execCommit (src : Requester) (page : BitVec 8) (s : State) : Outcome State Fault Refusal :=
  .next (s.writeWith src page.toNat 0x40 [(SHD_CTRL_COMMIT page.toNat, 1)] 0)

def execDiscard (src : Requester) (page : BitVec 8) (s : State) : Outcome State Fault Refusal :=
  .next (s.writeWith src page.toNat 0x40 [(SHD_CTRL_DISCARD page.toNat, 1)] 0)

def execSnapReq (src : Requester) (page : BitVec 8) (s : State) : Outcome State Fault Refusal :=
  .next (s.writeWith src page.toNat 0x58 [(SNAP_REQ page.toNat, 1)] 0)

/-- SNAPSHOT_COMPLETE (R44). -/
def execSnapshotComplete (page : BitVec 8) (t : Nat) (s : State) : Outcome State Fault Refusal :=
  .next (s.snapDone page.toNat t)

/-- COUNTER_CLEAR (R45). -/
def execCounterClear (src : Requester) (addr : BitVec 32) (data : Word) (s : State) : Outcome State Fault Refusal :=
  .next (s.busWriteFree src addr.toNat .b64 data.toNat)

def execLockSet (src : Requester) (page : BitVec 8) (s : State) : Outcome State Fault Refusal :=
  .next (s.writeWith src page.toNat 0x50 [(LOCK page.toNat, 1)] 0)

/-- MSIX_UNMASK (R47): the mask bit of vector `v` is cleared. -/
def execMsixUnmask (v : BitVec 6) (s : State) : Outcome State Fault Refusal :=
  let off := 16 * v.toNat + 8
  .next (if s.reachable .pcie then s.regWrite .pcie 0x3E off (s.readReg 0x3E off % 2 ^ 32) false 0 else s)

def execBlkReset (src : Requester) (page : BitVec 8) (s : State) : Outcome State Fault Refusal :=
  .next (s.writeWith src page.toNat 0x08 [(BLK_CTRL_BRST page.toNat, 1)] 0)

/-- BLK_CTRL.EN of a page (R8, R215). -/
def execBlkCtrlEn (src : Requester) (page : BitVec 8) (v : Bool) (s : State) : Outcome State Fault Refusal :=
  .next (s.writeWith src page.toNat 0x08 [(BLK_CTRL_EN page.toNat, b2n v)] 0)

/-! ### Remote access (R48, R49) -/

/-- RA_CTRL.GO with an OP. -/
def State.raWith (s : State) (src : Requester) (op t : Nat) : State :=
  s.writeWith src 0 0xB0 [(HIF_RA_CTRL_OP, op), (HIF_RA_CTRL_GO, 1)] t

def execRaRead64 (src : Requester) (t : Nat) (s : State) : Outcome State Fault Refusal := .next (s.raWith src 0 t)
def execRaWrite64 (src : Requester) (t : Nat) (s : State) : Outcome State Fault Refusal := .next (s.raWith src 1 t)
def execRaRead72 (src : Requester) (t : Nat) (s : State) : Outcome State Fault Refusal := .next (s.raWith src 2 t)
def execRaWrite72 (src : Requester) (t : Nat) (s : State) : Outcome State Fault Refusal := .next (s.raWith src 3 t)
def execRaSnapread (src : Requester) (t : Nat) (s : State) : Outcome State Fault Refusal := .next (s.raWith src 4 t)
def execRaCommit (src : Requester) (t : Nat) (s : State) : Outcome State Fault Refusal := .next (s.raWith src 5 t)

/-! ### Intake, composition, imposition -/

/-- ING_MODE_CHANGE (R51): ING.CFG. -/
def execIngModeChange (src : Requester) (p : Fin 4) (data : Word) (s : State) : Outcome State Fault Refusal :=
  .next (s.writeWhole src (0x10 + p.val) 0x80 data.toNat)

/-- EDID_WRITE (R54): the last EDID register. -/
def execEdidWrite (src : Requester) (p : Fin 4) (data : Word) (s : State) : Outcome State Fault Refusal :=
  .next (s.writeWhole src (0x10 + p.val) 0x4F8 data.toNat)

/-- STREAM_WRITE (R56): ING.STREAM. -/
def execStreamWrite (src : Requester) (p : Fin 4) (data : Word) (s : State) : Outcome State Fault Refusal :=
  .next (s.writeWhole src (0x10 + p.val) 0xA0 data.toNat)

/-- BUF_RELEASE (R87). -/
def execBufRelease (src : Requester) (handle : BitVec 12) (s : State) : Outcome State Fault Refusal :=
  .next (s.writeWith src 0x15 0xA0 [(CMP_BUF_REL_HANDLE, handle.toNat)] 0)

/-- BANK_PREPARE (R98). -/
def execBankPrepare (src : Requester) (bank : BitVec 1) (s : State) : Outcome State Fault Refusal :=
  .next (s.writeWith src 0x17 0x90 [(IMP_PREP_BANK, bank.toNat), (IMP_PREP_GO, 1)] 0)

/-! ### Quire, wall time -/

/-- RETRAIN (R123). -/
def execRetrain (src : Requester) (sd : Fin 2) (s : State) : Outcome State Fault Refusal :=
  .next (s.writeWith src (0x18 + sd.val) 0x88 [(QP_CTRL_RETRAIN sd.val, 1)] 0)

/-- LANE_SWAP_GO (R127). -/
def execLaneSwapGo (src : Requester) (sd : Fin 2) (lane : BitVec 4) (s : State) : Outcome State Fault Refusal :=
  .next (s.writeWith src (0x18 + sd.val) 0x88 [(QP_CTRL_SWAP_LANE sd.val, lane.toNat), (QP_CTRL_SWAP_GO sd.val, 1)] 0)

/-- ENUM_GO (R141). -/
def execEnumGo (src : Requester) (side : Fin 2) (s : State) : Outcome State Fault Refusal :=
  .next (s.writeWith src 0x1A 0x88 [(QLK_CTRL_SIDE, side.val), (QLK_CTRL_ENUM_GO, 1)] 0)

/-- TB_ARM (R157): WTU.TB_CTRL with ARM set. -/
def execTbArm (src : Requester) (data : Word) (s : State) : Outcome State Fault Refusal :=
  .next (s.writeWhole src 8 0xC8 (overlay data.toNat [(WTU_TB_CTRL_ARM, 1)]))

/-! ### Tile -/

/-- GEOM_WRITE (R188). -/
def execGeomWrite (src : Requester) (data : Word) (s : State) : Outcome State Fault Refusal :=
  .next (s.writeWhole src 0x20 0x80 data.toNat)

/-- AGE_SAVE_GO (R196). -/
def execAgeSaveGo (src : Requester) (s : State) : Outcome State Fault Refusal :=
  .next (s.writeWith src 0x21 0xC8 [(LCP_AGE_SAVE_GO, 1)] 0)

/-- LAMP_EN (R214). -/
def execLampEn (src : Requester) (v : Bool) (s : State) : Outcome State Fault Refusal :=
  .next (s.writeWith src 0x22 0x80 [(SCN_CTRL_LAMP_EN, b2n v)] 0)

/-- An LHM command (R228): OP 0 CLEAR, 1 MASK, 2 RETEST, 3 FAULT_CLR. -/
def State.lhmWith (s : State) (src : Requester) (op d row ch : Nat) : State :=
  s.writeWith src 0x23 0xA0 [(LHM_CMD_OP, op), (LHM_CMD_BANK, d), (LHM_CMD_ROW, row), (LHM_CMD_CH, ch), (LHM_CMD_GO, 1)] 0

def execLhmClear (src : Requester) (d : Fin 4) (row : BitVec 7) (ch : BitVec 9) (s : State) : Outcome State Fault Refusal :=
  .next (s.lhmWith src 0 d.val row.toNat ch.toNat)
def execLhmMask (src : Requester) (d : Fin 4) (row : BitVec 7) (ch : BitVec 9) (s : State) : Outcome State Fault Refusal :=
  .next (s.lhmWith src 1 d.val row.toNat ch.toNat)
def execLhmRetest (src : Requester) (d : Fin 4) (row : BitVec 7) (ch : BitVec 9) (s : State) : Outcome State Fault Refusal :=
  .next (s.lhmWith src 2 d.val row.toNat ch.toNat)
def execLhmFaultClr (src : Requester) (d : Fin 4) (row : BitVec 7) (ch : BitVec 9) (s : State) : Outcome State Fault Refusal :=
  .next (s.lhmWith src 3 d.val row.toNat ch.toNat)

/-! ### Rails, thresholds, trims -/

/-- LOOP_ENABLE (R231): LOOP[k].CFG. -/
def execLoopEnable (src : Requester) (k : Fin 8) (data : Word) (s : State) : Outcome State Fault Refusal :=
  .next (s.writeWhole src 7 (0x100 + 0x80 * k.val) data.toNat)

def execProfGo (src : Requester) (k : Fin 8) (s : State) : Outcome State Fault Refusal :=
  .next (s.writeWith src 7 (0x140 + 0x80 * k.val) [(RCE_LOOP_PROF_GO k.val, 1)] 0)
def execProfRelease (src : Requester) (k : Fin 8) (s : State) : Outcome State Fault Refusal :=
  .next (s.writeWith src 7 (0x140 + 0x80 * k.val) [(RCE_LOOP_PROF_RELEASE k.val, 1)] 0)
def execLoopResume (src : Requester) (k : Fin 8) (s : State) : Outcome State Fault Refusal :=
  .next (s.writeWith src 7 (0x100 + 0x80 * k.val) [(RCE_LOOP_CFG_RESUME k.val, 1)] 0)

/-- THRESH_WRITE (R243). -/
def execThreshWrite (src : Requester) (data : Word) (s : State) : Outcome State Fault Refusal :=
  .next (s.writeWhole src 5 0x80 data.toNat)

/-- TRIM_DATA_WRITE (R255). -/
def execTrimDataWrite (src : Requester) (v : BitVec 8) (t : Nat) (s : State) : Outcome State Fault Refusal :=
  .next (s.writeWith src 6 0x98 [(STR_DATA_VALUE, v.toNat)] t)

/-! ### Queues and trace -/

/-- DOORBELL (R260). -/
def execDoorbell (src : Requester) (q : BitVec 12) (tail : BitVec 17) (s : State) : Outcome State Fault Refusal :=
  .next (s.writeWith src 2 0x88 [(QEN_DOORBELL_QUEUE, q.toNat), (QEN_DOORBELL_TAIL, tail.toNat)] 0)
/-- CONSUME (R260). -/
def execConsume (src : Requester) (q : BitVec 12) (head : BitVec 17) (s : State) : Outcome State Fault Refusal :=
  .next (s.writeWith src 2 0x90 [(QEN_CONSUME_QUEUE, q.toNat), (QEN_CONSUME_HEAD, head.toNat)] 0)
def execTraceFreeze (src : Requester) (s : State) : Outcome State Fault Refusal :=
  .next (s.writeWith src 1 0x98 [(CCC_TRACE_FREEZE, 1)] 0)
def execTraceUnfreeze (src : Requester) (s : State) : Outcome State Fault Refusal :=
  .next (s.writeWith src 1 0x98 [(CCC_TRACE_UNFREEZE, 1)] 0)

/-! ### Redundancy, saves, updates, recording -/

/-- ARB.SWAP.GO (R283): APPLY_FRAME as the register holds it. -/
def execSwapGo (src : Requester) (side : Fin 2) (t : Nat) (s : State) : Outcome State Fault Refusal :=
  .next (s.writeWith src 9 0xA8 [(ARB_SWAP_SIDE, side.val), (ARB_SWAP_GO, 1)] t)
def execSwapTake (src : Requester) (side : Fin 2) (s : State) : Outcome State Fault Refusal :=
  .next (s.writeWith src 9 0xA8 [(ARB_SWAP_SIDE, side.val), (ARB_SWAP_TAKE, 1)] 0)
/-- ARB.REH.GO (R285). -/
def execRehGo (src : Requester) (side : Fin 2) (t : Nat) (s : State) : Outcome State Fault Refusal :=
  .next (s.writeWith src 9 0xA0 [(ARB_REH_SIDE, side.val), (ARB_REH_GO, 1)] t)

/-- SAVE_GO (R302). -/
def execSaveGo (src : Requester) (s : State) : Outcome State Fault Refusal := .next (s.writeWith src 3 0xB8 [(NVS_SAVE_GO, 1)] 0)
/-- UPD_CLEAR (R309). -/
def execUpdClear (src : Requester) (s : State) : Outcome State Fault Refusal := .next (s.writeWith src 4 0xC0 [(UPD_CTRL_CLEAR, 1)] 0)

/-- REC_CTRL_MODE (R325). -/
def execRecCtrlMode (src : Requester) (mode : BitVec 2) (s : State) : Outcome State Fault Refusal :=
  .next (s.writeWith src 10 0x80 [(REC_CTRL_MODE, mode.toNat)] 0)
/-- REC_TRIG (R323). -/
def execRecTrig (src : Requester) (s : State) : Outcome State Fault Refusal := .next (s.writeWith src 10 0x80 [(REC_CTRL_TRIG, 1)] 0)
/-- REC_ARM (R323). -/
def execRecArm (src : Requester) (s : State) : Outcome State Fault Refusal := .next (s.writeWith src 10 0x80 [(REC_CTRL_ARM, 1)] 0)
/-- REPLAY_GO (R326). -/
def execReplayGo (src : Requester) (s : State) : Outcome State Fault Refusal := .next (s.writeWith src 10 0x80 [(REC_CTRL_REPLAY_GO, 1)] 0)

end Sys2Proof.Machine
end

