-- ==== Sys2Proof/Machine/Tick.lean ====
section
/-! DEFINITION. The latch point and the frame tick (R16 to R21, R41, R176): the parts that the blocks take in them, in order. -/

namespace Sys2Proof.Machine

open Host

/-- Whether the tick schedule runs: not in SLEEP, in safe reset or in reset for want of QREFCLK. -/
def State.ticking (s : State) : Bool := !s.asleep && !s.nvs.clockLost && !s.nvs.safe

/-- Whether a sender's block runs. -/
def State.senderRuns (s : State) (pg : Nat) : Bool := pageActive s.role pg && s.dataOn && s.blkOn pg

/-- Whether the CMP set latched for the coming tick changes CANVAS, WALL, BG or, with ORDER = 1, the region table (Table 05-3). -/
def State.cmpChanges (s : State) : Bool :=
  ((rwsFields 0x15).any fun f =>
    (f.off == CMP_CANVAS_W.off || f.off == CMP_WALL_REF_NITS.off || f.off == CMP_BG_C0.off) && s.latched.get f.key != s.live.get f.key) ||
    ((s.latched.get CMP_CANVAS_ORDER.key).toNat == 1 &&
      (List.range 1024).any fun i => s.winLatched.get (0x400400 + i) != s.win.get (0x400400 + i))

/-- Commits pending for a held tick move to the next one at the void latch point (R176). -/
def State.moveCommits (s : State) (n : Nat) : State :=
  let due := s.commits.pend.filter fun e => decide (e.2 ≤ n)
  { s with commits := { s.commits with pend := s.commits.pend.map fun e : Nat × Nat => if e.2 ≤ n then (e.1, n + 1) else e } }.each due fun s e =>
    s.wr (SHD_STAT_APPLY_FRAME e.1) (n + 1)

/-- The latch point of the coming tick, not held: scheduled commits and policy tables, the pages' copies, the senders' roles,
picks, flips and damage. -/
def State.latchActs (s : State) (n : Nat) : State :=
  let s1 := (s.schedLatch n).policyLatch n
  let s2 := s1.each (blockPages.filter pageHasRws) fun s pg => s.latchPage pg n
  let s2 := s2.impCommit
  let newCmp := s2.commits.latched.contains 0x15
  let s3 := { s2 with comp := { s2.comp with wholeCanvas := newCmp && s2.cmpChanges } }
  let s4 := (s3.arbLatch n).updLatch n
  let s5 := if s4.senderRuns 0x15 then (s4.ingLatch n).cmpLatch n newCmp else s4
  let s6 := if s5.senderRuns 0x17 then s5.impLatch n else s5
  s6.recLatch

/-- The latch point of the coming tick (R18, R41, R176, R177). -/
def State.latch (s : State) : State :=
  let n := s.frame + 1
  let s1 : State := { (s.passTo (s.latchTime n)).decideHeld with latchDone := true }
  if s1.wtu.held = some true then s1.moveCommits n else s1.latchActs n

/-- LATCH_POINT. -/
def execLatchPoint (s : State) : Outcome State Fault Refusal :=
  .next (if s.ticking = false ∨ s.latchDone = true then s else s.latch)

/-- Frames whose picks hold a buffer. -/
def State.pickedFrames (s : State) : List Nat := s.ports.flatMap fun x : Port => x.bufs.flatMap fun b : IngBuf => b.heldFor

/-- A sender's blocks at tick `n`: the ended frame's picks are let go, the new frame's damage governs. -/
def State.senderTick (s : State) (n : Nat) : State :=
  let s1 := s.each s.pickedFrames.dedup fun s k => if k < n then s.ingRelease k else s
  if s1.senderRuns 0x17 then s1.impTick n else s1

/-- The frame that starts, once its registers apply: what it is composed from, its overlap and its scaler load. -/
def State.senderStart (s : State) : State :=
  if s.senderRuns 0x15 then s.startFrame.countOverlap.scalerLoad else s

/-- A tile's blocks at tick `n`: planes flip unless the tick is held (R176, R190), new requests, scan, temperatures. -/
def State.pixelTick (s : State) (n : Nat) (held : Bool) : State :=
  let s1 := if s.dataOn && !held then s.flipPlanes else { s with tile := { s.tile with started := false } }
  let flips := if s1.tile.showing = s.tile.showing then none else some (s1.tile.showing ^^^ s.tile.showing == 2 ^ s.tile.pressFeeds - 1)
  (((s1.tileTickNew.scanTick n held).lhmTick held flips).trimTick n held).latchTemps

/-- Snapshots of pages with SNAP.AUTO = 1 begin (R44). -/
def State.autoSnaps (s : State) : State :=
  s.each (blockPages.filter fun p => s.on (SNAP_AUTO p)) State.snapStart

/-- The tick on its way to blocks that are held in reset waits in their crossings from wall time, the first of Table 01-7 (R25). -/
def State.tickCrossings (s : State) : State := s.each (blockPages.filter (crosses 8)) fun s p => s.crossEvent p 0

/-- Tick `n` = FRAME_NO + 1. -/
def State.tickActs (s : State) : State :=
  let n := s.frame + 1
  let held := s.wtu.held == some true
  let s0 := s.tickCrossings
  let s1 := if s0.hasPixels then s0.tileTickEnd else s0
  let s2 := if pageActive s1.role 0x15 && !held then s1.senderTick n else s1
  let s3 := ((((s2.passTo (s.tickTime n)).wr WTU_FRAME_FRAME_NO n).wr WTU_FRAME_FEED 0).wr WTU_FRAME_HELD (b2n held)).switchTick n
  let s4 := { s3 with latchDone := false, wtu := { s3.wtu with held := none } }
  let retires := pageActive s1.role 0x15 && !held
  let s5 := ((s4.when retires fun s => s.retireBuffers n).each (blockPages.filter pageHasRws) State.applyPage).fwinApplied
  let s6 := ((s5.when (!held) State.senderStart).when (s4.commits.latched.contains 0x17) State.footPx).arbTick n held
  let s7 := if s6.hasPixels then s6.pixelTick n held else s6.trimTick n held
  let s8 := if held then s7 else s7.policyTick n
  let s9 := (s8.recTick n held).autoSnaps
  (s9.powerTick n held).updTick n held

/-- TICK (R16): the latch point of a tick comes before it. -/
def execTick (s : State) : Outcome State Fault Refusal :=
  .next (if s.ticking = false then s else (if s.latchDone then s else s.latch).tickActs)

end Sys2Proof.Machine
end

