-- ==== Sys2Proof/Machine/Dispatch.lean ====
section
/-! DEFINITION. One arm per command: each calls its meaning. -/

namespace Sys2Proof.Machine

open Host

/-- A command's effect on everything but the queue. -/
def exec (i : Instr) (s : State) : Host.Outcome State Fault Refusal :=
  match i with
  | .por a b => Sys2Proof.Machine.execPor a b s
  | .brownOut => Sys2Proof.Machine.execBrownOut s
  | .resetN => Sys2Proof.Machine.execResetN s
  | .watchdogExpire => Sys2Proof.Machine.execWatchdogExpire s
  | .stepTimeout a => Sys2Proof.Machine.execStepTimeout a s
  | .stepRestart => Sys2Proof.Machine.execStepRestart s
  | .startDone a => Sys2Proof.Machine.execStartDone a s
  | .softReset a b => Sys2Proof.Machine.execSoftReset a b s
  | .softResetApply => Sys2Proof.Machine.execSoftResetApply s
  | .pathClr a => Sys2Proof.Machine.execPathClr a s
  | .qrefclkLoss => Sys2Proof.Machine.execQrefclkLoss s
  | .pcieRefclkLoss => Sys2Proof.Machine.execPcieRefclkLoss s
  | .perst => Sys2Proof.Machine.execPerst s
  | .vlfLoss a => Sys2Proof.Machine.execVlfLoss a s
  | .xin32Loss => Sys2Proof.Machine.execXin32Loss s
  | .wake a => Sys2Proof.Machine.execWake a s
  | .sleepEntry => Sys2Proof.Machine.execSleepEntry s
  | .registerWrite a b c d => Sys2Proof.Machine.execRegisterWrite a b c d s
  | .lowHalfRead a b => Sys2Proof.Machine.execLowHalfRead a b s
  | .tableWindowWrite a b c => Sys2Proof.Machine.execTableWindowWrite a b c s
  | .bar4Write a b => Sys2Proof.Machine.execBar4Write a b s
  | .commit a b => Sys2Proof.Machine.execCommit a b s
  | .discard a b => Sys2Proof.Machine.execDiscard a b s
  | .snapReq a b => Sys2Proof.Machine.execSnapReq a b s
  | .snapshotComplete a b => Sys2Proof.Machine.execSnapshotComplete a b s
  | .counterClear a b c => Sys2Proof.Machine.execCounterClear a b c s
  | .lockSet a b => Sys2Proof.Machine.execLockSet a b s
  | .msixUnmask a => Sys2Proof.Machine.execMsixUnmask a s
  | .blkReset a b => Sys2Proof.Machine.execBlkReset a b s
  | .blkResetDone a => Sys2Proof.Machine.execBlkResetDone a s
  | .xovf a b => Sys2Proof.Machine.execXovf a b s
  | .raRead64 a b => Sys2Proof.Machine.execRaRead64 a b s
  | .raWrite64 a b => Sys2Proof.Machine.execRaWrite64 a b s
  | .raRead72 a b => Sys2Proof.Machine.execRaRead72 a b s
  | .raWrite72 a b => Sys2Proof.Machine.execRaWrite72 a b s
  | .raSnapread a b => Sys2Proof.Machine.execRaSnapread a b s
  | .raCommit a b => Sys2Proof.Machine.execRaCommit a b s
  | .remoteAccessRequest a b => Sys2Proof.Machine.execRemoteAccessRequest a b s
  | .remoteAccessResponse a b c d => Sys2Proof.Machine.execRemoteAccessResponse a b c d s
  | .remoteAccessTimeout a => Sys2Proof.Machine.execRemoteAccessTimeout a s
  | .spiRead64 a => Sys2Proof.Machine.execSpiRead64 a s
  | .spiWrite64 a b => Sys2Proof.Machine.execSpiWrite64 a b s
  | .spiRead72 a => Sys2Proof.Machine.execSpiRead72 a s
  | .spiWrite72 a b => Sys2Proof.Machine.execSpiWrite72 a b s
  | .tick => Sys2Proof.Machine.execTick s
  | .latchPoint => Sys2Proof.Machine.execLatchPoint s
  | .feedSlotStart a => Sys2Proof.Machine.execFeedSlotStart a s
  | .schedCommitDeadline => Sys2Proof.Machine.execSchedCommitDeadline s
  | .cancelReceive a b => Sys2Proof.Machine.execCancelReceive a b s
  | .schedCommitArm a b c => Sys2Proof.Machine.execSchedCommitArm a b c s
  | .ingModeChange a b c => Sys2Proof.Machine.execIngModeChange a b c s
  | .edidWrite a b c => Sys2Proof.Machine.execEdidWrite a b c s
  | .dpLinkTraining a b c => Sys2Proof.Machine.execDpLinkTraining a b c s
  | .auxTransaction a b => Sys2Proof.Machine.execAuxTransaction a b s
  | .st2110Packet a b => Sys2Proof.Machine.execSt2110Packet a b s
  | .streamWrite a b c => Sys2Proof.Machine.execStreamWrite a b c s
  | .igmpQuery a => Sys2Proof.Machine.execIgmpQuery a s
  | .arpRequest a b => Sys2Proof.Machine.execArpRequest a b s
  | .sourceFrameStart a b => Sys2Proof.Machine.execSourceFrameStart a b s
  | .sourceFrameComplete a b => Sys2Proof.Machine.execSourceFrameComplete a b s
  | .pathLate a b c d => Sys2Proof.Machine.execPathLate a b c d s
  | .lossOfSignal a => Sys2Proof.Machine.execLossOfSignal a s
  | .pickLogReceive a b => Sys2Proof.Machine.execPickLogReceive a b s
  | .pickSelf => Sys2Proof.Machine.execPickSelf s
  | .fenceTimeout a => Sys2Proof.Machine.execFenceTimeout a s
  | .flipLogReceive a b => Sys2Proof.Machine.execFlipLogReceive a b s
  | .flipSelf => Sys2Proof.Machine.execFlipSelf s
  | .bufRelease a b => Sys2Proof.Machine.execBufRelease a b s
  | .compositionDeadline a => Sys2Proof.Machine.execCompositionDeadline a s
  | .bankPrepare a b => Sys2Proof.Machine.execBankPrepare a b s
  | .bankPrepareDone a => Sys2Proof.Machine.execBankPrepareDone a s
  | .refreshRecordReceive a b c => Sys2Proof.Machine.execRefreshRecordReceive a b c s
  | .refreshSelf a => Sys2Proof.Machine.execRefreshSelf a s
  | .needFullReceive a b c => Sys2Proof.Machine.execNeedFullReceive a b c s
  | .signatureSend a b c d => Sys2Proof.Machine.execSignatureSend a b c d s
  | .bandReady a b c d e => Sys2Proof.Machine.execBandReady a b c d e s
  | .sendDeadline a b => Sys2Proof.Machine.execSendDeadline a b s
  | .laneSignalDetect a b => Sys2Proof.Machine.execLaneSignalDetect a b s
  | .adaptComplete a b c => Sys2Proof.Machine.execAdaptComplete a b c s
  | .alignLock a b => Sys2Proof.Machine.execAlignLock a b s
  | .laneVerified a b => Sys2Proof.Machine.execLaneVerified a b s
  | .verifyFail a b => Sys2Proof.Machine.execVerifyFail a b s
  | .laneDown a b c => Sys2Proof.Machine.execLaneDown a b c s
  | .laneCountReduce a => Sys2Proof.Machine.execLaneCountReduce a s
  | .deskew a b c => Sys2Proof.Machine.execDeskew a b c s
  | .sideUp a b => Sys2Proof.Machine.execSideUp a b s
  | .sideDown a => Sys2Proof.Machine.execSideDown a s
  | .rateStep a => Sys2Proof.Machine.execRateStep a s
  | .retrain a b => Sys2Proof.Machine.execRetrain a b s
  | .idleFolioSend a => Sys2Proof.Machine.execIdleFolioSend a s
  | .wearWindowEnd a b c => Sys2Proof.Machine.execWearWindowEnd a b c s
  | .laneSwapGo a b c => Sys2Proof.Machine.execLaneSwapGo a b c s
  | .swapRequestReceive a b => Sys2Proof.Machine.execSwapRequestReceive a b s
  | .swapApply a b => Sys2Proof.Machine.execSwapApply a b s
  | .folioReceive a b c d e => Sys2Proof.Machine.execFolioReceive a b c d e s
  | .sigHdrReceive a b c => Sys2Proof.Machine.execSigHdrReceive a b c s
  | .sigDataReceive a b c d => Sys2Proof.Machine.execSigDataReceive a b c d s
  | .needFullRetry => Sys2Proof.Machine.execNeedFullRetry s
  | .signatureExpire a => Sys2Proof.Machine.execSignatureExpire a s
  | .enumGo a b => Sys2Proof.Machine.execEnumGo a b s
  | .enumReceive a b c => Sys2Proof.Machine.execEnumReceive a b c s
  | .enumDone a b c => Sys2Proof.Machine.execEnumDone a b c s
  | .linkUpReceive a b => Sys2Proof.Machine.execLinkUpReceive a b s
  | .mgFragmentReceive a b => Sys2Proof.Machine.execMgFragmentReceive a b s
  | .fragTimeout a => Sys2Proof.Machine.execFragTimeout a s
  | .streamLoss a => Sys2Proof.Machine.execStreamLoss a s
  | .streamRestore a => Sys2Proof.Machine.execStreamRestore a s
  | .breakReceive a b c => Sys2Proof.Machine.execBreakReceive a b c s
  | .timeFolioSend a b => Sys2Proof.Machine.execTimeFolioSend a b s
  | .timeFolioReceive a b c d => Sys2Proof.Machine.execTimeFolioReceive a b c d s
  | .parentTimeout => Sys2Proof.Machine.execParentTimeout s
  | .sourceChange a b => Sys2Proof.Machine.execSourceChange a b s
  | .servoLock => Sys2Proof.Machine.execServoLock s
  | .tbArm a b => Sys2Proof.Machine.execTbArm a b s
  | .ptpMessage a b => Sys2Proof.Machine.execPtpMessage a b s
  | .ptpAnnounceTimeout a => Sys2Proof.Machine.execPtpAnnounceTimeout a s
  | .glkEdge a b => Sys2Proof.Machine.execGlkEdge a b s
  | .glkLoss => Sys2Proof.Machine.execGlkLoss s
  | .ppsEdge a b => Sys2Proof.Machine.execPpsEdge a b s
  | .ppsLoss => Sys2Proof.Machine.execPpsLoss s
  | .ppsOutPulse a => Sys2Proof.Machine.execPpsOutPulse a s
  | .tickOutPulse a b => Sys2Proof.Machine.execTickOutPulse a b s
  | .fwinEdge a => Sys2Proof.Machine.execFwinEdge a s
  | .fwinDecision => Sys2Proof.Machine.execFwinDecision s
  | .fwinLoss => Sys2Proof.Machine.execFwinLoss s
  | .fwinResume => Sys2Proof.Machine.execFwinResume s
  | .captureEdge a b c => Sys2Proof.Machine.execCaptureEdge a b c s
  | .triggerPulse a b => Sys2Proof.Machine.execTriggerPulse a b s
  | .geomWrite a b => Sys2Proof.Machine.execGeomWrite a b s
  | .pressStart a => Sys2Proof.Machine.execPressStart a s
  | .pressComplete a => Sys2Proof.Machine.execPressComplete a s
  | .ageSaveGo a => Sys2Proof.Machine.execAgeSaveGo a s
  | .ageSaveDone => Sys2Proof.Machine.execAgeSaveDone s
  | .lineSlotStart a b => Sys2Proof.Machine.execLineSlotStart a b s
  | .underrunShutdown a => Sys2Proof.Machine.execUnderrunShutdown a s
  | .pllUnlock a => Sys2Proof.Machine.execPllUnlock a s
  | .irefFault a b => Sys2Proof.Machine.execIrefFault a b s
  | .dieLinkDown a => Sys2Proof.Machine.execDieLinkDown a s
  | .lampEn a b => Sys2Proof.Machine.execLampEn a b s
  | .blkCtrlEn a b c => Sys2Proof.Machine.execBlkCtrlEn a b c s
  | .bankStart a => Sys2Proof.Machine.execBankStart a s
  | .stringTransmit a => Sys2Proof.Machine.execStringTransmit a s
  | .lampStale a b c => Sys2Proof.Machine.execLampStale a b c s
  | .lhmClear a b c d => Sys2Proof.Machine.execLhmClear a b c d s
  | .lhmMask a b c d => Sys2Proof.Machine.execLhmMask a b c d s
  | .lhmRetest a b c d => Sys2Proof.Machine.execLhmRetest a b c d s
  | .lhmFaultClr a b c d => Sys2Proof.Machine.execLhmFaultClr a b c d s
  | .lhmCmdDone => Sys2Proof.Machine.execLhmCmdDone s
  | .loopEnable a b c => Sys2Proof.Machine.execLoopEnable a b c s
  | .rceSample a b c d => Sys2Proof.Machine.execRceSample a b c d s
  | .profileUpdate a b => Sys2Proof.Machine.execProfileUpdate a b s
  | .profGo a b => Sys2Proof.Machine.execProfGo a b s
  | .profRelease a b => Sys2Proof.Machine.execProfRelease a b s
  | .loopResume a b => Sys2Proof.Machine.execLoopResume a b s
  | .holdLimit a => Sys2Proof.Machine.execHoldLimit a s
  | .pmbusWrite => Sys2Proof.Machine.execPmbusWrite s
  | .pmbusTimeout a => Sys2Proof.Machine.execPmbusTimeout a s
  | .housekeepingRound a => Sys2Proof.Machine.execHousekeepingRound a s
  | .hkRoundPublish a b c => Sys2Proof.Machine.execHkRoundPublish a b c s
  | .threshWrite a b => Sys2Proof.Machine.execThreshWrite a b s
  | .comparatorTrip a b => Sys2Proof.Machine.execComparatorTrip a b s
  | .shutdownGraceEnd => Sys2Proof.Machine.execShutdownGraceEnd s
  | .thermalRecovery => Sys2Proof.Machine.execThermalRecovery s
  | .throttleReqRepeat => Sys2Proof.Machine.execThrottleReqRepeat s
  | .graceExpire => Sys2Proof.Machine.execGraceExpire s
  | .trimCycle a => Sys2Proof.Machine.execTrimCycle a s
  | .trimDataWrite a b c => Sys2Proof.Machine.execTrimDataWrite a b c s
  | .doorbell a b c => Sys2Proof.Machine.execDoorbell a b c s
  | .consume a b c => Sys2Proof.Machine.execConsume a b c s
  | .proxyMessageReceive a b c d => Sys2Proof.Machine.execProxyMessageReceive a b c d s
  | .evtOverflow a => Sys2Proof.Machine.execEvtOverflow a s
  | .taskWakeTimeout a b c => Sys2Proof.Machine.execTaskWakeTimeout a b c s
  | .traceFreeze a => Sys2Proof.Machine.execTraceFreeze a s
  | .traceUnfreeze a => Sys2Proof.Machine.execTraceUnfreeze a s
  | .info a => Sys2Proof.Machine.execInfo a s
  | .echo a b => Sys2Proof.Machine.execEcho a b s
  | .schedCommit a b c d => Sys2Proof.Machine.execSchedCommit a b c d s
  | .schedCancel a b c => Sys2Proof.Machine.execSchedCancel a b c s
  | .policyLoad a b c => Sys2Proof.Machine.execPolicyLoad a b c s
  | .policyRead a b => Sys2Proof.Machine.execPolicyRead a b s
  | .power a b => Sys2Proof.Machine.execPower a b s
  | .bulkRead a b c d => Sys2Proof.Machine.execBulkRead a b c d s
  | .bulkWrite a b c d => Sys2Proof.Machine.execBulkWrite a b c d s
  | .eventMask a b => Sys2Proof.Machine.execEventMask a b s
  | .ledgerRead a b => Sys2Proof.Machine.execLedgerRead a b s
  | .kettleSend a b => Sys2Proof.Machine.execKettleSend a b s
  | .kettleReceive a b c d e => Sys2Proof.Machine.execKettleReceive a b c d e s
  | .epochReceive a b c => Sys2Proof.Machine.execEpochReceive a b c s
  | .senderStartEnd a b => Sys2Proof.Machine.execSenderStartEnd a b s
  | .peerLost a b => Sys2Proof.Machine.execPeerLost a b s
  | .epochReqRetry a b => Sys2Proof.Machine.execEpochReqRetry a b s
  | .epochReqResponse a b c d e => Sys2Proof.Machine.execEpochReqResponse a b c d e s
  | .epochReq a b c => Sys2Proof.Machine.execEpochReq a b c s
  | .arbiterHoldExpire a => Sys2Proof.Machine.execArbiterHoldExpire a s
  | .takeover a b => Sys2Proof.Machine.execTakeover a b s
  | .arbStatus a b => Sys2Proof.Machine.execArbStatus a b s
  | .swap a b c d => Sys2Proof.Machine.execSwap a b c d s
  | .swapGo a b c => Sys2Proof.Machine.execSwapGo a b c s
  | .take a b => Sys2Proof.Machine.execTake a b s
  | .swapTake a b => Sys2Proof.Machine.execSwapTake a b s
  | .rehearse a b c => Sys2Proof.Machine.execRehearse a b c s
  | .rehGo a b c => Sys2Proof.Machine.execRehGo a b c s
  | .rehearsalStart a b => Sys2Proof.Machine.execRehearsalStart a b s
  | .rehearsalFail a b c => Sys2Proof.Machine.execRehearsalFail a b c s
  | .rehearsalHoldEnd a b => Sys2Proof.Machine.execRehearsalHoldEnd a b s
  | .saveGo a => Sys2Proof.Machine.execSaveGo a s
  | .generationSaveStart a => Sys2Proof.Machine.execGenerationSaveStart a s
  | .generationSaveDone => Sys2Proof.Machine.execGenerationSaveDone s
  | .journalRecordDone => Sys2Proof.Machine.execJournalRecordDone s
  | .stage a b c d => Sys2Proof.Machine.execStage a b c d s
  | .bundleFolioReceive a b c => Sys2Proof.Machine.execBundleFolioReceive a b c s
  | .passIdle => Sys2Proof.Machine.execPassIdle s
  | .bundlePassStart => Sys2Proof.Machine.execBundlePassStart s
  | .updStatus a => Sys2Proof.Machine.execUpdStatus a s
  | .activate a b c d e => Sys2Proof.Machine.execActivate a b c d e s
  | .prepareReceive a b => Sys2Proof.Machine.execPrepareReceive a b s
  | .prepareTimeout => Sys2Proof.Machine.execPrepareTimeout s
  | .actCommitReceive a b => Sys2Proof.Machine.execActCommitReceive a b s
  | .armDeadline a => Sys2Proof.Machine.execArmDeadline a s
  | .abortReceive => Sys2Proof.Machine.execAbortReceive s
  | .activatedRepeat => Sys2Proof.Machine.execActivatedRepeat s
  | .activatedReceive a b c => Sys2Proof.Machine.execActivatedReceive a b c s
  | .relightReceive => Sys2Proof.Machine.execRelightReceive s
  | .relightDeadline => Sys2Proof.Machine.execRelightDeadline s
  | .confirm a b => Sys2Proof.Machine.execConfirm a b s
  | .autoConfirm => Sys2Proof.Machine.execAutoConfirm s
  | .confirmRepeat => Sys2Proof.Machine.execConfirmRepeat s
  | .confirmReceive a => Sys2Proof.Machine.execConfirmReceive a s
  | .fallback a b => Sys2Proof.Machine.execFallback a b s
  | .fallbackReqReceive a b => Sys2Proof.Machine.execFallbackReqReceive a b s
  | .fallbackOrderReceive a => Sys2Proof.Machine.execFallbackOrderReceive a s
  | .fallbackReqRepeat => Sys2Proof.Machine.execFallbackReqRepeat s
  | .fallbackAlone => Sys2Proof.Machine.execFallbackAlone s
  | .enroll a b c d e f => Sys2Proof.Machine.execEnroll a b c d e f s
  | .revoke a b c d e => Sys2Proof.Machine.execRevoke a b c d e s
  | .peers a b => Sys2Proof.Machine.execPeers a b s
  | .abort a b => Sys2Proof.Machine.execAbort a b s
  | .updClear a => Sys2Proof.Machine.execUpdClear a s
  | .recCtrlMode a b => Sys2Proof.Machine.execRecCtrlMode a b s
  | .recTrig a => Sys2Proof.Machine.execRecTrig a s
  | .recArm a => Sys2Proof.Machine.execRecArm a s
  | .ringFreeze => Sys2Proof.Machine.execRingFreeze s
  | .captureComplete => Sys2Proof.Machine.execCaptureComplete s
  | .replayGo a => Sys2Proof.Machine.execReplayGo a s
  | .replayDone => Sys2Proof.Machine.execReplayDone s
  | .recMode a b c => Sys2Proof.Machine.execRecMode a b c s
  | .recTrigger a b c => Sys2Proof.Machine.execRecTrigger a b c s
  | .replay a => Sys2Proof.Machine.execReplay a s
  | .startStepEnd a b => Sys2Proof.Machine.execStartStepEnd a b s
  | .gclkPllLock a b => Sys2Proof.Machine.execGclkPllLock a b s
  | .dieLinkUp a => Sys2Proof.Machine.execDieLinkUp a s
  | .irefRestore a b => Sys2Proof.Machine.execIrefRestore a b s
  | .qrefclkReturn => Sys2Proof.Machine.execQrefclkReturn s
  | .pcieRefclkReturn => Sys2Proof.Machine.execPcieRefclkReturn s
  | .ingBlockLockChange a b => Sys2Proof.Machine.execIngBlockLockChange a b s
  | .prepareVoteReceive a b c d => Sys2Proof.Machine.execPrepareVoteReceive a b c d s
  | .schedArmedReceive a => Sys2Proof.Machine.execSchedArmedReceive a s
  | .ringCompleteReceive a => Sys2Proof.Machine.execRingCompleteReceive a s
  | .confirmAckReceive a b => Sys2Proof.Machine.execConfirmAckReceive a b s

end Sys2Proof.Machine
end

