-- ==== Sys2Proof/Safety.lean ====
section
/-! DEFINITION. What a safe run is, in the terms the statements use: steps, the invariant of the state, and what a command
may touch besides its own effect because it raises an interrupt, posts an event or fires a trigger (R47, R269, R321, R323). -/

namespace Sys2Proof.Machine

/-- `t` is reached from `s` by steps that all answer a next state. -/
inductive Run : State → State → Prop where
  | refl (s : State) : Run s s
  | step {s t u : State} : Run s t → step t = .next u → Run s u

/-- The invariant of the state: every table is in its canonical form, and the fixed numbers of ports, buffers,
sides and loops stand. -/
structure State.Inv (s : State) : Prop where
  live : s.live.wf = true
  shadow : s.shadow.wf = true
  latched : s.latched.wf = true
  committed : s.committed.wf = true
  snapd : s.snapd.wf = true
  win : s.win.wf = true
  winShadow : s.winShadow.wf = true
  winLatched : s.winLatched.wf = true
  winCommitted : s.winCommitted.wf = true
  mem : s.mem.wf = true
  ports : s.ports.length = 4
  sides : s.sides.length = 2
  arb : s.arb.length = 2
  bufs : ∀ x ∈ s.ports, x.bufs.length = 4
  pend : ∀ p ∈ s.comp.pend, p.layer < 64 ∧ p.desc.length = 16
  need : s.imp.need.length = 2
  refMask : s.imp.refMask.length = 2
  links : s.wtu.links.length = 2
  ptp : s.wtu.ptp.length = 2
  xing : s.xing.wf = true
  statSnap : s.imp.statSnap.wf = true
  slots : s.upd.slots.length = 2 ∧ ∀ t ∈ s.upd.slots, Tbl.wf t = true
  keys : s.upd.keys.length = 4 ∧ s.upd.revoked.length = 4
  gens : s.nvs.setGens.length = 2 ∧ s.nvs.tblGens.length = 2
  heard : ∀ x ∈ s.arb, x.heard.length = 2
  banks : s.scan.banks.length = 4
  lamps : s.health.cur.rows.length = 4 ∧ s.health.cur.cols.length = 4 ∧ s.health.cur.supp.length = 4
  cores : s.ctl.tasks.run.length = 7
  sigs : s.tile.sigs.length = 2 ∧ ∀ g, some g ∈ s.tile.sigs → g.feed < 4 ∧ ∀ l ∈ g.leaves, l < 256
  results : s.tile.results.length = 2 ∧ ∀ r ∈ s.tile.results, r.length = 4
  ageSlots : s.nvs.ageSlots.length = 2
  loops : s.rail.loops.length = 8

/-- Bit `b` of INT_RAW of page `pg`. -/
def State.flag (s : State) (pg b : Nat) : Bool := (s.rd (INT_RAW_RAW pg)).testBit b

/-- The block page of a register key. -/
def keyPage (k : Nat) : Nat := k / 262144

/-- The register fields that a note can change: INT_RAW of a page, the recorder's pointers and trigger status, QEN.CNT.DROP. -/
def noteKey (k : Nat) : Bool :=
  k / 64 % 4096 == 24 || [REC_STAT_WPTR.key, REC_STAT_WRAPPED.key, REC_STAT_CAP_DONE.key, REC_STAT_DIGEST_DIRTY.key,
    REC_TRIG_STAT_FRAME.key, REC_TRIG_STAT_CODE.key, REC_CNT_TRIGS.key, QEN_CNT_DROP.key].contains k

/-- The window words that a note can change: the recorder's ring and the QEN window. -/
def noteWord (i : Nat) : Bool := decide (0x760000 ≤ i ∧ i < 0x780000) || decide (0x800000 ≤ i)

/-- Notes leave frame memory alone: no queue's ring lies in it, and no sender's recorder writes to it. -/
def State.quietMem (s : State) : Prop :=
  (s.isSender = false ∨ s.rd REC_STAT_STATE ≠ 1) ∧ ∀ q < 4096, (s.queue q).inFrame = false

/-- Every register field outside `own` and outside what notes change has the same value. -/
def RegsKept (own : Nat → Bool) (s t : State) : Prop :=
  ∀ k, own k = false → noteKey k = false → t.live.get k = s.live.get k

/-- Every window word outside `own` and outside what notes change has the same value. -/
def WordsKept (own : Nat → Bool) (s t : State) : Prop :=
  ∀ i, own i = false → noteWord i = false → t.win.get i = s.win.get i

/-- Between `s` and `t` the part gave the output `e`. -/
def Sent (s t : State) (e : Emit) : Prop := ∃ a b, t.out = a ++ e :: (b ++ s.out)

/-- A Quire side without what its slots change: sequence, queues, precoders, turns, and the HOLD it sends. -/
def Side.core (x : Side) : Side :=
  { x with txSeq := 0, txPre := [], holdOut := false, txPix := [], txC1 := [], txMg := [], fwd := [], txBundle := [], drrFwd := false,
           drrLeft := 0 }

/-- Both sides are as they were, but for what their slots change. -/
def SidesKept (s t : State) : Prop := t.sides.map Side.core = s.sides.map Side.core

/-- The answer to a mailbox request: command, status and body. -/
def Answered (s t : State) (r : Req) (cmd status : Nat) (body : List Nat) : Prop :=
  Sent s t (.response r.reply.toNat r.id.toNat cmd status (body.map (BitVec.ofNat 72)))

/-- Register fields outside `own`, every window word, frame memory and the Quire sides are the same, but for what notes and messages
that leave change. -/
def Kept (own : Nat → Bool) (s t : State) : Prop :=
  RegsKept own s t ∧ WordsKept (fun _ => false) s t ∧ SidesKept s t ∧ (s.quietMem → t.mem = s.mem)

/-- What a reset of kind `kind` with a start leaves, by Table 16-5 (R296): the kind, the next start number and the first step of the kind's
start; class T and B fields at their reset values, and class A fields (but at POR), class F fields and what the MRAM holds outside the
settings at their old ones, but for NVS, block status and enables, and in kinds 6 to 9 for the blocks that keep running; frame memory with
nothing listed, and no command of the mailbox or register access in hand. With an invalid role the part is in safe reset instead (R4). -/
def ResetTo (kind : Nat) (s t : State) : Prop :=
  t.rd NVS_BOOT_STAT_LAST_RESET = kind ∧ t.mem = [] ∧ t.ctl = Ctl.reset ∧ t.nvs.softKind = none ∧ t.nvs.power = none ∧
  (t.role = 3 → t.nvs.safe = true ∧ t.rd NVS_BOOT_STAT_BOOT_CODE = 0x0E) ∧
  (t.role ≠ 3 → t.rd NVS_BOOT_STAT_START_NO = (s.rd NVS_BOOT_STAT_START_NO + 1) % 65536 ∧
    t.rd NVS_BOOT_STAT_STEP = firstStep kind) ∧
  (∀ pg ∈ blockPages, pageActive t.role pg = true → t.rd (BLK_STAT_RDY pg) = 1 ∧ t.rd (BLK_STAT_XRDY pg) = 1 ∧ t.rd (BLK_CTRL_EN pg) = 1) ∧
  ∀ f ∈ allFields, f.page ≠ 3 → f.off ≠ 16 → f.off ≠ 8 → f ≠ ARB_STAT_STATE 0 → noteKey f.key = false →
    ((f.ret = .t ∨ f.ret = .b) → (kind < 6 ∨ [5, 8, 0x18, 0x19, 0x1A].contains f.page = false) → t.rd f = f.rst) ∧
    (f.ret = .f → t.rd f = s.rd f) ∧ (headerFld f = true → f.ret = .m → t.rd f = s.rd f) ∧
    (f.ret = .a → kind ≠ 1 → f ≠ CCC_WDT_WDT_CNT → t.rd f = s.rd f)

/-- The PCI Express endpoint and its crossing are reset (R334): MSI-X is masked and nothing of it is pending, and what PCI Express requesters
hold goes; registers, memory and outputs stay. -/
def EndpointReset (s t : State) : Prop :=
  t.host.msixOpen = 0 ∧ t.host.msixPba = 0 ∧
  (∀ e, e ∈ t.host.wHold ↔ e ∈ s.host.wHold ∧ e.1 ≠ .pcie) ∧ (∀ e, e ∈ t.host.rHold ↔ e ∈ s.host.rHold ∧ e.1 ≠ .pcie) ∧
  (∀ e, e ∈ t.host.winHold ↔ e ∈ s.host.winHold ∧ e.1 ≠ .pcie) ∧
  t.live = s.live ∧ t.win = s.win ∧ t.mem = s.mem ∧ t.out = s.out

/-- The pages that lamps going off can touch. -/
def lampPages : List Nat := [0x22, 0x28, 0x29, 0x2A, 0x2B]

/-- The fields that capturing an error in a page can change (R40, R265). -/
def errFields (pg : Nat) : List Fld :=
  [ERR_CAP0_CODE pg, ERR_CAP0_VALID pg, ERR_CAP0_MORE pg, ERR_CAP0_SRC pg, ERR_CAP0_OFFSET pg, ERR_CAP0_FRAME pg, ERR_CAP1_VALUE pg,
   CCC_TRACE_STAT_FROZEN, CCC_TRACE_STAT_FRAME]

/-- The fields that taking an epoch can change (R272, R274), with the state of an armed node (R312). -/
def epochFields (i : Nat) : List Fld :=
  [ARB_EPOCH_EPOCH i, ARB_EPOCH_ISSUER i, ARB_EPOCH_REASON i, ARB_EPOCH_ACTIVE i, ARB_APPLY_FRAME i, ARB_APPLY_PEND i, ARB_CNT_STALE i,
   UPD_ACT_STATE, UPD_ACT_PEND, NVS_SAVE_DIRTY]

/-- The keys of some fields. -/
def keysOf (fs : List Fld) (k : Nat) : Bool := fs.any fun f => f.key == k

/-- The keys of some pages. -/
def pagesOf (ps : List Nat) (k : Nat) : Bool := ps.contains (keyPage k)

/-- The fields that a write to the register at an offset of a page can change beside what it brings about: its own, and those that
tell of an error, of a shadow set that differs and of settings to be saved (R40, R41, R302). -/
def regKeys (pg off : Nat) : Nat → Bool := keysOf (regFields pg off ++ errFields pg ++ [NVS_SAVE_DIRTY, SHD_STAT_DIRTY pg])

/-- One or the other set of keys. -/
def orKeys (a b : Nat → Bool) (k : Nat) : Bool := a k || b k

/-- What RA_CTRL.GO with operation `op`, as command `c` at wall time `t`, does (R48): a second access is discarded with RA_BUSY; one to a node
without an index or a path ends at once; any other is in flight until its deadline, and its request leaves. -/
def RaIssues (c : Instr) (op t : Nat) (src : Requester) (s : State) : Prop :=
  (s.reachable src = false → exec c s = .next s) ∧
  (s.reachable src = true →
    (s.on HIF_RA_STAT_BUSY = true → ∃ u, exec c s = .next u ∧ u.host.ra = s.host.ra ∧ u.on (ERR_CAP0_VALID 0) = true ∧
      (s.on (ERR_CAP0_VALID 0) = false → 250 ≤ s.rd HIF_RA_CTRL_TMO_US → s.rd HIF_RA_CTRL_TMO_US ≤ 100000 →
        u.rd (ERR_CAP0_CODE 0) = 11) ∧ Kept (regKeys 0 0xB0) s u) ∧
    (s.on HIF_RA_STAT_BUSY = false →
      (s.enumerated (s.rd HIF_RA_ADDR_NODE) = false ∨ (s.reaches (s.rd HIF_RA_ADDR_NODE) = false ∧ s.canRelay = false) →
        ∃ u, exec c s = .next u ∧ u.host.ra = none ∧
        u.rd HIF_RA_STAT_BUSY = 0 ∧ u.rd HIF_RA_STAT_DONE = 1 ∧
        u.rd HIF_RA_STAT_CODE = (if s.enumerated (s.rd HIF_RA_ADDR_NODE) then 3 else 2) ∧ u.flag 0 4 = true ∧
        Kept (orKeys (regKeys 0 0xB0) (keysOf [HIF_RA_STAT_BUSY, HIF_RA_STAT_DONE, HIF_RA_STAT_CODE])) s u) ∧
      (s.enumerated (s.rd HIF_RA_ADDR_NODE) = true → s.reaches (s.rd HIF_RA_ADDR_NODE) = true →
        ∃ u, exec c s = .next u ∧ u.rd HIF_RA_STAT_BUSY = 1 ∧ u.rd HIF_RA_CTRL_OP = op ∧
          u.host.ra = some ⟨s.rd HIF_RA_ADDR_NODE, op, s.host.raSeq, t + u.rd HIF_RA_CTRL_TMO_US * 65536000, false⟩ ∧
          (let d := (t + u.rd HIF_RA_CTRL_TMO_US * 65536000) / 65536
           Sent s u (.message (s.rd HIF_RA_ADDR_NODE * 4096 + 0xFFF) (s.node * 4096 + 0xFFE) s.host.raSeq
             (raWords (op + s.rd HIF_RA_ADDR_ADDR * 2 ^ 32) (s.rd HIF_RA_DATA_DATA + u.rd HIF_RA_CTRL_TAG * 2 ^ 64)
               (d % 1000000000 + d / 1000000000 % 65536 * 2 ^ 32)))) ∧
          Kept (orKeys (regKeys 0 0xB0) (keysOf [HIF_RA_STAT_BUSY])) s u)))

/-- An LHM command with operation `op` on lamp `k` (R228): it waits for the die's line slot, with BUSY; while one is under way it is discarded
with RA_BUSY. -/
def LhmGoes (c : Instr) (op k : Nat) (s : State) : Prop :=
  (s.on LHM_CMD_BUSY = true → ∃ t, exec c s = .next t ∧ t.health = s.health ∧ t.on (ERR_CAP0_VALID 0x23) = true ∧ Kept (regKeys 0x23 0xA0) s t) ∧
  (s.on LHM_CMD_BUSY = false → ∃ t, exec c s = .next t ∧ t.rd LHM_CMD_BUSY = 1 ∧ t.health = { s.health with cmd := some (op, k) } ∧
    Kept (orKeys (regKeys 0x23 0xA0) (keysOf [LHM_CMD_BUSY])) s t)

/-- A remote access is answered to the queue it names (R48): CODE and data. -/
def RaAnswered (s u : State) (r : RemoteReq) (code data : Nat) : Prop :=
  Sent s u (.message r.src.toNat (s.node * 4096 + 0xFFF) r.id.toNat (raWords code data 0))

/-- The pages that a change of the time source can touch: the lamps of a tile that loses the time go off (R161). -/
def timePages : List Nat := [8, 0x22, 0x28, 0x29, 0x2A, 0x2B]

end Sys2Proof.Machine
end

