-- ==== Sys2Proof/Certificates/Slice0/Obligations.lean ====
section
/-! DEFINITION. The statements about the part, for the provers. A statement about a command says that `exec` answers a next
state, what that state holds, and what it leaves alone; `RegsKept` and `WordsKept` leave room for what an interrupt, event or
trigger changes (Sys2Proof/Safety.lean). -/

open Sys2Proof Sys2Proof.Machine

/-- A step takes the command at the front of the queue and runs it on the state with the queue's rest. On an empty queue the
part idles: the model's choice, notes/assumptions/1.md. -/
def Obligations.StepRunsTheFrontCommand : Prop :=
  (∀ (s : State) (c : Instr) (r : List Instr), s.pending = c :: r → step s = exec c { s with pending := r }) ∧
  ∀ s : State, s.pending = [] → step s = .next s

/-- No command stops the part: every step from every state, and every command in every state, answers a next state. What each command does
there is in the statements that follow. -/
def Obligations.EveryStepCompletes : Prop :=
  (∀ s : State, ∃ t, step s = .next t) ∧ ∀ (c : Instr) (s : State), ∃ t, exec c s = .next t

/-- Every step keeps the invariant: the canonical form of every table, and the numbers of ports and sides. -/
def Obligations.InvariantKept : Prop := ∀ s t : State, s.Inv → step s = .next t → t.Inv

/-- The state after reset has the invariant. -/
def Obligations.InvariantAtReset : Prop := State.reset.Inv

/-- After reset every field of every page holds the reset value of its register table, in its shadow set too where it has
one. -/
def Obligations.ResetValues : Prop :=
  ∀ f ∈ allFields, State.reset.rd f = f.rst ∧ (f.acc = .rws → State.reset.rdShadow f = f.rst)

/-! ### Source intake (03) -/

/-- Messages and packets of a source port: AUX transactions, IGMP queries, ARP requests and RTP packets. The state that each
answers is written out whole, so that everything else stays. Link training, block lock, loss of signal and a late path: the link state, LOS, the held pick and the counters; every other
register, every window word and the other ports stay. -/
def Obligations.IntakeEvents : Prop :=
  (∀ (s : State) (p : Fin 4),
     (s.ingRun p = 1 →
       exec (.auxTransaction p .invalid) s = .next ((s.bump (ING_CNT_B_AUX_ERR p)).send (.net p .auxNack [])) ∧
       (∀ o : BitVec 8, exec (.auxTransaction p (.edid o)) s = .next (s.send (.net p .edid
         [o.toNat, s.rd (ING_EDID_DATA p (o.toNat / 8)) / 2 ^ (8 * (o.toNat % 8)) % 256]))) ∧
       ∀ a : BitVec 20, ∃ v < 256, exec (.auxTransaction p (.dpcd a)) s = .next (s.send (.net p .auxAck [a.toNat, v])).drawn) ∧
     (s.ingRun p = 2 →
       ((s.port p).joined = true → exec (.igmpQuery p) s = .next (s.send (.net p .igmpReport (s.igmpData p)))) ∧
       (∀ ip : BitVec 32, ip.toNat = s.rd (ING_STREAM_SRC_LOCAL_IP p) →
         exec (.arpRequest p ip) s = .next (s.send (.net p .arpReply [ip.toNat, Config.macBase.toNat + p.val]))) ∧
       ∀ k : Packet,
         (s.streamMatch p k = false → exec (.st2110Packet p k) s = .next (s.bump (ING_CNT_B_FOREIGN p))) ∧
         (s.streamMatch p k = true → (s.port (s.ingLower p)).cur = none → exec (.st2110Packet p k) s = .next s) ∧
         ∀ i, s.streamMatch p k = true → (s.port (s.ingLower p)).cur = some i →
           (k.stored = true → exec (.st2110Packet p k) s = .next
             (if (s.port (s.ingLower p)).packetFits i k then
                { s with mem := s.mem.setMany ((s.port (s.ingLower p)).packetAddr i k) (s.packetBytes (s.ingLower p) (s.port (s.ingLower p)) k) }
              else s)) ∧
           (k.stored = false → exec (.st2110Packet p k) s =
             .next { s with ports := s.ports.set (s.ingLower p) { s.port (s.ingLower p) with lost := true } }))) ∧
  (∀ (s : State) (p : Fin 4), s.Inv →
     (∀ rate lanes : BitVec 2, s.ingRun p = 1 → ∃ t, exec (.dpLinkTraining p rate lanes) s = .next t ∧
       t.rd (ING_SRC_STAT_LINK p) = 1 ∧ (t.port p).dpRate = min rate.toNat (s.rd (ING_CFG_DP_MAXRATE p)) ∧
       (t.port p).dpLanes = min lanes.toNat (s.rd (ING_CFG_DP_LANES p)) ∧ (∀ q, q ≠ p.val → t.port q = s.port q) ∧
       RegsKept (keysOf [ING_SRC_STAT_LINK p]) s t ∧ WordsKept (fun _ => false) s t ∧ (s.quietMem → t.mem = s.mem)) ∧
     (∀ locked : Bool, s.ingRun p = 2 → ∃ t, exec (.ingBlockLockChange p locked) s = .next t ∧
       t.rd (ING_SRC_STAT_LINK p) = b2n locked ∧ t.ports = s.ports ∧
       (s.rd (ING_SRC_STAT_LINK p) ≠ b2n locked → t.flag (0x10 + p) 4 = true) ∧
       RegsKept (keysOf [ING_SRC_STAT_LINK p]) s t ∧ WordsKept (fun _ => false) s t ∧ (s.quietMem → t.mem = s.mem)) ∧
     (s.ingRun p ≠ 0 → ∃ t, exec (.lossOfSignal p) s = .next t ∧ t.rd (ING_SRC_STAT_LOS p) = 1 ∧
       (s.rd (ING_PICK_STAT_STATE p) = 0 → t.rd (ING_PICK_STAT_STATE p) = 1 ∧ (t.port p).pickD.state = 1) ∧
       (s.rd (ING_SRC_STAT_LOS p) ≠ 1 → t.flag (0x10 + p) 5 = true) ∧ (∀ q, q ≠ p.val → t.port q = s.port q) ∧
       RegsKept (keysOf [ING_SRC_STAT_LOS p, ING_PICK_STAT_STATE p]) s t ∧ WordsKept (fun _ => false) s t ∧
       (s.quietMem → t.mem = s.mem)) ∧
     (∀ (upper : Bool) (skew n : Nat), s.on (ING_CFG_PAIR p) = true → (p.val = 0 ∨ p.val = 2) → s.ingRun p = 2 →
       s.rd (ING_TIMING_SKEW_US p) < skew → ∃ t, exec (.pathLate p upper skew n) s = .next t ∧ t.flag (0x10 + p) 11 = true ∧ t.ports = s.ports ∧
         (let f := if upper then ING_CNT_B_LATE_P1 p else ING_CNT_B_LATE_P0 p
          t.rd f = min (s.rd f + n) (2 ^ f.w - 1) ∧ RegsKept (keysOf [f]) s t) ∧
         WordsKept (fun _ => false) s t ∧ (s.quietMem → t.mem = s.mem)))

/-- A source frame: at its start it is refused, or fills a buffer with its capture stamp, or is dropped for want of one; complete, its buffer
is READY with the completion time and the CRC of its bytes, and one that lost content stays to become INCOMPLETE. -/
def Obligations.SourceFrames : Prop :=
  ∀ (s : State) (p : Fin 4), s.Inv →
    (∀ f : FrameStart, s.ingRun p ≠ 0 → s.ingUpper p = false → ∃ t, exec (.sourceFrameStart p f) s = .next t ∧
      t.rd (ING_SRC_STAT_FMT p) = (s.frameSeen p f).fmt.toNat ∧
      t.rd (ING_SRC_STAT_WIDTH p) = (s.frameSeen p f).width % 2 ^ (ING_SRC_STAT_WIDTH p).w ∧
      t.rd (ING_SRC_STAT_HEIGHT p) = (s.frameSeen p f).height % 2 ^ (ING_SRC_STAT_HEIGHT p).w ∧
      (((t.port p).refused = true ∧ (t.port p).cur = none ∧ 1 ≤ t.rd (ING_SRC_STAT_ACC_WHY p) ∧ t.rd (ING_SRC_STAT_ACC_WHY p) ≤ 5) ∨
        ((t.port p).refused = false ∧ t.rd (ING_SRC_STAT_LOS p) = 0 ∧
          (∀ k, (t.port p).cur = some k → k < 4 → ((t.port p).buf k).st = .filling ∧
            ((t.port p).buf k).stamp = s.captureStamp p (s.frameSeen p f) ∧ ((t.port p).buf k).start = f.t) ∧
          ((t.port p).cur = none → t.flag (0x10 + p) 8 = true))) ∧
      (∀ q, q ≠ p.val → t.port q = s.port q) ∧ RegsKept (pagesOf [0x10 + p.val]) s t ∧ WordsKept (fun _ => false) s t ∧
      (s.quietMem → t.mem = s.mem)) ∧
    ∀ (t0 k : Nat), s.dataOn = true → (s.port p).cur = some k → k < 4 →
      ((s.port p).lost = true → exec (.sourceFrameComplete p t0) s = .next s) ∧
      ((s.port p).lost = false → ∃ t, exec (.sourceFrameComplete p t0) s = .next t ∧ ((t.port p).buf k).st = .ready ∧ ((t.port p).buf k).done = t0 ∧
        ((t.port p).buf k).crc = t.bufferCrc ((t.port p).view k) ∧ (t.port p).cur = none ∧ (∀ q, q ≠ p.val → t.port q = s.port q) ∧
        t.live = s.live ∧ t.win = s.win ∧ t.out = s.out ∧
        (∀ a, (s.ingRun p = 1 → (s.port p).spans k a = false) → t.byte a = s.byte a))

/-- A standby sender follows a pick log that reaches it by a path it takes, or picks for itself and counts it: FOLLOW of every port, and
PICK_SELF of every port it picks for. -/
def Obligations.PicksOfAStandby : Prop :=
  ∀ s : State, s.Inv → s.isSender = true → s.anyActive = false → s.pickFollowed = false →
    (∀ (via : Via) (ws : List Word72), s.accepts via = true → pickLogValid (ws.map BitVec.toNat) (s.frame + 1) = true →
      ∃ t, exec (.pickLogReceive via ws) s = .next t ∧ t.pickFollowed = true ∧
        (∀ p < 4, t.rd (ING_PICK_STAT_FOLLOW p) = b2n (((ws.getD 0 0).toNat / 2 ^ 48).testBit p)) ∧
        RegsKept (pagesOf [0x10, 0x11, 0x12, 0x13]) s t ∧ WordsKept (fun _ => false) s t ∧ (s.quietMem → t.mem = s.mem)) ∧
    (s.latchDone = true → ∃ t, exec .pickSelf s = .next t ∧ t.pickFollowed = true ∧
      (∀ p ∈ s.pickPorts, t.flag (0x10 + p) 10 = true ∧
        t.rd (ING_CNT_A_PICK_SELF p) = min (s.rd (ING_CNT_A_PICK_SELF p) + 1) (2 ^ (ING_CNT_A_PICK_SELF p).w - 1)) ∧
      RegsKept (pagesOf [0x10, 0x11, 0x12, 0x13]) s t ∧ WordsKept (fun _ => false) s t ∧ (s.quietMem → t.mem = s.mem))

/-! ### Composition (04) -/

/-- A host write to frame memory: its bytes are stored where nothing protects them and they lie inside the memory; a write into
a protected range stores nothing, is counted and captured; one beyond the installed capacity stores nothing and is captured. The outcomes of layer flips that reach a part from outside: a fence that times out, the flip log record, and a standby's own
outcome at a tick without one. -/
def Obligations.FrameMemoryAndFlips : Prop :=
  (∀ (s : State) (a : Word) (d : List Byte), s.isTile = false → s.role ≠ 3 →
     (a.toNat + d.length ≤ s.rd FMC_MEM_CFG_CAP_GIB * 2 ^ 30 → s.guardHit a.toNat d.length = none →
       exec (.bar4Write a d) s = .next { s with mem := s.mem.setMany a.toNat d }) ∧
     (a.toNat + d.length ≤ s.rd FMC_MEM_CFG_CAP_GIB * 2 ^ 30 → ∀ r, s.guardHit a.toNat d.length = some r →
       ∃ t, exec (.bar4Write a d) s = .next t ∧ (s.quietMem → t.mem = s.mem) ∧ t.flag 0x15 9 = true ∧
         t.rd CMP_CNT0_GUARD = min (s.rd CMP_CNT0_GUARD + 1) 65535 ∧ t.rd CMP_GUARD_LAST_ADDR = a.toNat % 2 ^ 36 ∧
         t.rd (ERR_CAP0_VALID 0x15) = 1 ∧
         RegsKept (keysOf ([CMP_CNT0_GUARD, CMP_GUARD_LAST_ADDR, CMP_GUARD_LAST_HANDLE, CMP_GUARD_LAST_WB, CMP_GUARD_LAST_INTERM]
           ++ errFields 0x15)) s t ∧
         WordsKept (fun i => i == bufKey r.2.2.1 3) s t) ∧
     (s.rd FMC_MEM_CFG_CAP_GIB * 2 ^ 30 < a.toNat + d.length →
       ∃ t, exec (.bar4Write a d) s = .next t ∧ (s.quietMem → t.mem = s.mem) ∧ t.flag 0x14 7 = true ∧
         t.rd (ERR_CAP0_VALID 0x14) = 1 ∧ RegsKept (keysOf (errFields 0x14)) s t ∧ WordsKept (fun _ => false) s t)) ∧
  (∀ s : State, s.Inv →
     (∀ l : BitVec 6, (∃ p ∈ s.comp.pend, p.layer = l.toNat ∧ s.rd CMP_FLIP_FENCE_TMO ≤ p.wait) →
       ∃ t, exec (.fenceTimeout l) s = .next t ∧ (∀ p, p ∈ t.comp.pend ↔ p ∈ s.comp.pend ∧ p.layer ≠ l.toNat) ∧
         t.rd CMP_CNT1_FENCE_TMO = min (s.rd CMP_CNT1_FENCE_TMO + 1) 65535 ∧ t.flag 0x15 6 = true ∧
         RegsKept (keysOf [CMP_LAYER_DEFER_MASK, CMP_CNT1_FENCE_TMO]) s t ∧ WordsKept (fun _ => false) s t ∧
         (s.quietMem → t.mem = s.mem)) ∧
     ∀ own, s.comp.own = some own →
       (∀ (via : Via) (ws : List Word72), s.isSender = true → s.accepts via = true → s.on CMP_FLIP_FLIPLOG_EN = true →
         flipLogValid (ws.map BitVec.toNat) (s.frame + 1) = true → ∃ t, exec (.flipLogReceive via ws) s = .next t ∧ t.comp.own = none ∧
           (∀ p ∈ t.comp.pend, ((ws.getD 1 0).toNat % 2 ^ 64).testBit p.layer = false ∧ ((ws.getD 3 0).toNat % 2 ^ 64).testBit p.layer = false) ∧
           RegsKept (pagesOf [0x15]) s t ∧ WordsKept (fun i => decide (0x400000 ≤ i ∧ i < 0x404800)) s t ∧
           (s.quietMem → t.mem = s.mem)) ∧
       ∃ t, exec .flipSelf s = .next t ∧ t.comp.own = none ∧ t.flag 0x15 12 = true ∧
         t.rd CMP_CNT1_FLIP_SELF = min (s.rd CMP_CNT1_FLIP_SELF + 1) 255 ∧
         RegsKept (pagesOf [0x15]) s t ∧ WordsKept (fun i => decide (0x400000 ≤ i ∧ i < 0x404800)) s t ∧ (s.quietMem → t.mem = s.mem))

/-! ### Imposition (05) -/

/-- The signature whose turn it is leaves as a header folio and data folios, the last with LAST set; a signature whose deadline passes is
closed; a band that becomes ready is noted, and one that is next and has room is sent. Only the side's slots, the egress counts and the
tile's status word change, and in mode 1 the lines that come into memory meanwhile. -/
def Obligations.SignaturesLeave : Prop :=
  ∀ (s : State) (sd : Fin 2) (node : BitVec 6), s.Inv →
    (∀ (feed : BitVec 2) (w : Nat), (s.dueSigs sd w).head? = some (node.toNat, feed.toNat) → s.sideTurn sd w = true →
      ∃ t, exec (.signatureSend sd node feed w) s = .next t ∧ t.sigSent sd node.toNat feed.toNat = true ∧ t.imp.turn = some sd.val ∧
        (∃ f w, Emit.folio sd f w ∈ t.out ∧ f.typ = 2 ∧ f.node = node ∧ f.stream.toNat = s.streamOf sd ∧
          f.words = (s.sigHeader sd node.toNat feed.toNat (s.sigLeaves sd node.toNat feed.toNat).1
            (s.sigLeaves sd node.toNat feed.toNat).2 false).map (BitVec.ofNat 72)) ∧
        (∃ f w, Emit.folio sd f w ∈ t.out ∧ f.typ = 3 ∧ f.node = node ∧ f.last = true ∧ f.words.length = 71) ∧
        SidesKept s t ∧ RegsKept (keysOf [IMP_UNSENT_LEAVES, IMP_CNT_OVERRUN]) s t ∧
        WordsKept (fun i => i == 0x48000 + 64 * sd.val + node.toNat) s t ∧ (s.quietMem → t.mem = s.mem)) ∧
    (s.egress sd node.toNat = true → ∃ t, exec (.sendDeadline sd node) s = .next t ∧
      (∀ k < s.feeds, (s.sigLeaves sd node.toNat k).1 ≠ [] → t.sigSent sd node.toNat k = true) ∧
      (∀ k < s.feeds, (s.sigLeaves sd node.toNat k).1 ≠ [] → s.sigSent sd node.toNat k = false → s.openSlice sd node.toNat k = none →
        t.imp.lost.contains (sd.val, node.toNat) = true) ∧
      SidesKept s t ∧ RegsKept (keysOf [IMP_UNSENT_LEAVES, IMP_CNT_OVERRUN]) s t ∧
      WordsKept (fun i => i == 0x48000 + 64 * sd.val + node.toNat) s t ∧ (s.quietMem → t.mem = s.mem)) ∧
    ∀ (feed : BitVec 2) (row : BitVec 4) (w : Nat), s.egress sd node.toNat = true → s.sigSent sd node.toNat feed.toNat = false →
      feed.toNat < s.feeds → s.sliceTile sd node.toNat feed.toNat = true →
      s.imp.ready.contains (sd.val, node.toNat, feed.toNat, row.toNat) = false → s.imp.lastBand = none →
      (leafRows (s.slotLW s.bank sd node.toNat) (s.sigLeaves sd node.toNat feed.toNat).1).contains row.toNat = true →
      ∀ next, s.nextRow sd node.toNat feed.toNat = some next → next ≤ row.toNat →
      ∃ t, exec (.bandReady sd node feed row w) s = .next t ∧
        t.imp.lastBand = some (w, sd.val, node.toNat, feed.toNat, row.toNat) ∧
        (t.sigSent sd node.toNat feed.toNat = true ∨ t.imp.ready.contains (sd.val, node.toNat, feed.toNat, row.toNat) = true ∨
          ∃ x ∈ t.imp.slices, x.side = sd.val ∧ x.node = node.toNat ∧ x.feed = feed.toNat ∧ row.toNat ≤ x.row) ∧
        (next = row.toNat → 1 < s.folioRoom sd (s.startAt sd w) (s.sendBy sd node.toNat) →
          (t.sigSent sd node.toNat feed.toNat = true ∨
            ∃ x ∈ t.imp.slices, x.side = sd.val ∧ x.node = node.toNat ∧ x.feed = feed.toNat ∧ row.toNat ≤ x.row) ∧
          ∃ f w, Emit.folio sd f w ∈ t.out ∧ f.typ = 3 ∧ f.node = node ∧ f.words.length = 71) ∧
        SidesKept s t ∧ RegsKept (keysOf [IMP_UNSENT_LEAVES, IMP_CNT_OVERRUN]) s t ∧
        WordsKept (fun i => i == 0x48000 + 64 * sd.val + node.toNat) s t ∧
        (s.quietMem → ∀ a, (∀ p < 4, s.ingRun p = 1 → ∀ k, (s.port p).cur = some k → (s.port p).spans k a = false) → t.byte a = s.byte a)

/-- Requests and refresh records: a NEED_FULL request is counted and noted for its node; a standby takes a record's mask, or its
own requests when none came, and then holds no request. -/
def Obligations.RefreshRequests : Prop :=
  ∀ (s : State) (sd : Fin 2), s.Inv → s.isSender = true →
    (∀ (node : BitVec 6) (feeds : BitVec 4), ∃ t, exec (.needFullReceive sd node feeds) s = .next t ∧
      (t.imp.need.getD sd 0).testBit node.toNat = true ∧ (∀ e : Fin 2, e ≠ sd → t.imp.need.getD e 0 = s.imp.need.getD e 0) ∧
      t.rd IMP_CNT_NEED_FULL = min (s.rd IMP_CNT_NEED_FULL + 1) 65535 ∧ t.flag 0x17 7 = true ∧
      RegsKept (keysOf [IMP_CNT_NEED_FULL]) s t ∧ WordsKept (fun i => i == 0x48000 + 64 * sd.val + node.toNat) s t ∧
      (s.quietMem → t.mem = s.mem)) ∧
    (s.sideActive sd = false → s.on IMP_CTRL_REFLOG_EN = true → s.imp.refMask.getD sd none = none →
      (∀ (via : Via) (ws : List Word72), s.accepts via = true → refLogValid (ws.map BitVec.toNat) (s.frame + 1) = true →
        (ws.getD 1 0).toNat % 64 = s.rd (if sd.val = 0 then QLK_CFG_RING_A else QLK_CFG_RING_B) →
        ∃ t, exec (.refreshRecordReceive sd via ws) s = .next t ∧ t.imp.refMask.getD sd none = some ((ws.getD 2 0).toNat % 2 ^ 64) ∧
          t.imp.need.getD sd 0 = 0 ∧ RegsKept (fun _ => false) s t ∧ WordsKept (fun _ => false) s t ∧ (s.quietMem → t.mem = s.mem)) ∧
      (s.latchDone = true → ∃ t, exec (.refreshSelf sd) s = .next t ∧ t.imp.refMask.getD sd none = some (s.imp.need.getD sd 0) ∧
        t.imp.need.getD sd 0 = 0 ∧ t.rd IMP_CNT_REFRESH_SELF = min (s.rd IMP_CNT_REFRESH_SELF + 1) 255 ∧ t.flag 0x17 8 = true ∧
        RegsKept (keysOf [IMP_CNT_REFRESH_SELF]) s t ∧ WordsKept (fun _ => false) s t ∧ (s.quietMem → t.mem = s.mem)))

/-- A bank preparation ends: BUSY clears, PREP_DONE is raised, and the bank is marked prepared when no slot failed and no word had
an uncorrectable error. A composition ends: its late feeds are counted and its busy time shows. -/
def Obligations.PreparationAndCompositionEnd : Prop :=
  ∀ s : State,
    (∀ (b : Nat) (ue : Option (Fin 2 × BitVec 6)), s.imp.prep = some b → b < 2 → ∃ t, exec (.bankPrepareDone ue) s = .next t ∧
      t.rd IMP_PREP_STAT_BUSY = 0 ∧ t.imp.prep = none ∧ t.flag 0x17 5 = true ∧
      (ue = none → (∀ e ∈ s.validTiles b, (s.prepSlot b e.1 e.2).1 = 0) → (t.rd IMP_PREP_STAT_OK).testBit b = true) ∧
      RegsKept (keysOf ([IMP_PREP_STAT_BUSY, IMP_PREP_STAT_OK, IMP_PREP_STAT_REASON, IMP_PREP_STAT_SIDE, IMP_PREP_STAT_NODE,
        IMP_PREP_LOAD_FULL_A, IMP_PREP_LOAD_FULL_B, IMP_FOOT_PX] ++ errFields 0x17)) s t ∧
      WordsKept (fun i => decide (i < 0x40000)) s t ∧ (s.quietMem → t.mem = s.mem)) ∧
    ∀ e : CompositionEnd, s.isTile = false → s.role ≠ 3 → s.dataOn = true →
      ∃ t, exec (.compositionDeadline e) s = .next t ∧ t.rd CMP_COMP_NS_BUSY = e.busyNs.toNat ∧
        (e.late.toNat % 2 ^ s.feeds ≠ 0 → t.flag 0x15 4 = true) ∧
        t.rd CMP_CNT1_OVERRUN = satAdd CMP_CNT1_OVERRUN.w (s.rd CMP_CNT1_OVERRUN)
          ((List.range 4).filter fun k => (e.late.toNat % 2 ^ s.feeds).testBit k).length ∧
        (∀ p < 4, e.holes.toNat.testBit p = true → t.flag (0x10 + p) 12 = true) ∧
        (∀ x ∈ e.omitted, (e.late.toNat % 2 ^ s.feeds).testBit x.2.2.1.toNat = true →
          t.imp.omitted.contains (x.1.val, x.2.1.toNat, x.2.2.1.toNat, x.2.2.2.toNat) = true) ∧
        (∀ k < s.feeds, s.on CMP_WB_CTRL_EN = true → (s.rd CMP_WB_CTRL_FEED_MASK).testBit k = true →
          (e.late.toNat.testBit k = true ∨ e.wbMissed.toNat.testBit k = true) → t.flag 0x15 11 = true) ∧
        ((∃ r ∈ s.comp.run, dScaled r.desc = true ∧ dTwoPass r.desc = true ∧ e.pass1Late.toNat.testBit r.layer = true) → t.flag 0x16 4 = true) ∧
        t.sides = s.sides ∧ RegsKept (pagesOf [0x10, 0x11, 0x12, 0x13, 0x15, 0x16]) s t ∧ WordsKept (fun _ => false) s t ∧
        (s.quietMem → s.on CMP_WB_CTRL_EN = false → (∀ r ∈ s.comp.run, dTwoPass r.desc = false) → ∀ a,
          (∀ p < 4, s.ingRun p = 1 → ∀ k, (s.port p).cur = some k → (s.port p).spans k a = false) → t.byte a = s.byte a)

/-! ### Quire physical layer (06) -/

/-- A lane's bring-up: signal, adaptation, alignment, verification and its failure. The lane's state and results change; the first lane with
energy starts the side's dwells at RATE_START, ADAPT takes LANE_FIX as it stands at its start and applies what its search finds, and a
verified lane of a side that is up takes a missing logical lane, the next one, or becomes the spare. -/
def Obligations.LaneBringUp : Prop :=
  ∀ (s : State) (sd : Fin 2) (l : Fin 5),
    (s.sideOn sd = true → s.lane sd l = 0 → s.Inv → ∃ t, exec (.laneSignalDetect sd l) s = .next t ∧ t.lane sd l = 1 ∧
      (s.energy sd = false → s.sideIsUp sd = false → t.rd (QP_SIDE_STAT_STATE sd) = 1 ∧ t.rd (QP_SIDE_STAT_ATTEMPTS sd) = 0 ∧
        t.rd (QP_SIDE_STAT_RATE sd) = s.rd (QP_CFG_RATE_START sd) % 4) ∧
      (l.val < (s.side sd).eqFix.length → (t.side sd).eqFix.getD l none =
        if s.on (QP_CFG_EQ_FIX sd) then some (s.rd (QP_LANE_FIX_PEAK sd l), s.rd (QP_LANE_FIX_DCG sd l)) else none) ∧
      RegsKept (keysOf [QP_LANE_STAT_STATE sd l, QP_SIDE_STAT_STATE sd, QP_SIDE_STAT_RATE sd, QP_SIDE_STAT_ATTEMPTS sd]) s t ∧
      t.win = s.win ∧ t.mem = s.mem ∧ t.out = s.out) ∧
    (∀ e : EyeScan, s.lane sd l = 1 → ∃ t, exec (.adaptComplete sd l e) s = .next t ∧ t.lane sd l = 2 ∧
        ((s.side sd).eqFix.getD l none = none →
          t.rd (QP_LANE_STAT_PEAK sd l) = searchPeak (fun p => (e.peak.getD p 0).toNat) % 2 ^ (QP_LANE_STAT_PEAK sd l).w ∧
          ∀ d < 8, e.outer.toNat.testBit d = true → (∀ c < d, e.outer.toNat.testBit c = false) → t.rd (QP_LANE_STAT_DCG sd l) = d) ∧
        (∀ f, (s.side sd).eqFix.getD l none = some f → t.rd (QP_LANE_STAT_PEAK sd l) = f.1 % 32 ∧ t.rd (QP_LANE_STAT_DCG sd l) = f.2 % 8) ∧
        (e.phases ≠ 0 → t.rd (QP_LANE_STAT_PHASE sd l) = eyeCenter e.phases.toNat) ∧ t.rd (QP_LANE_STAT_EYE sd l) = e.eye.toNat ∧
        RegsKept (keysOf [QP_LANE_STAT_STATE sd l, QP_LANE_STAT_PEAK sd l, QP_LANE_STAT_DCG sd l, QP_LANE_STAT_PHASE sd l,
          QP_LANE_STAT_EYE sd l]) s t ∧ t.sides = s.sides ∧ t.win = s.win ∧ t.mem = s.mem ∧ t.out = s.out) ∧
    (s.lane sd l = 2 → exec (.alignLock sd l) s = .next (s.wr (QP_LANE_STAT_STATE sd l) 3)) ∧
    (s.lane sd l = 3 → exec (.verifyFail sd l) s = .next (s.wr (QP_LANE_STAT_STATE sd l) 2)) ∧
    (s.lane sd l = 3 → s.Inv → ∃ t, exec (.laneVerified sd l) s = .next t ∧ t.lane sd l = 4 ∧
      (s.sideIsUp sd = true → ∀ k, s.missingLog sd = some k → k < 8 → t.logOf sd l = k) ∧
      (s.sideIsUp sd = true → s.missingLog sd = none → s.rd (QP_SIDE_STAT_N_ACT sd) < 4 →
        t.rd (QP_SIDE_STAT_N_ACT sd) = s.rd (QP_SIDE_STAT_N_ACT sd) + 1 ∧ t.logOf sd l = s.rd (QP_SIDE_STAT_N_ACT sd)) ∧
      (s.sideIsUp sd = true → s.missingLog sd = none → 4 ≤ s.rd (QP_SIDE_STAT_N_ACT sd) → s.on (QP_CFG_SPARE_EN sd) = true →
        s.rd (QP_SIDE_STAT_SPARE sd) = 7 → t.rd (QP_SIDE_STAT_SPARE sd) = l.val) ∧
      RegsKept (keysOf [QP_LANE_STAT_STATE sd l, QP_LANE_STAT_SKEW sd l, QP_LANE_STAT_LOG sd l, QP_SIDE_STAT_N_ACT sd,
        QP_SIDE_STAT_SPARE sd, WTU_LINK_SETTLING sd]) s t ∧ t.win = s.win ∧ t.mem = s.mem ∧ t.out = s.out)

/-- The loss of lanes: a lane that goes down or beyond the tolerated skew is DOWN and raises its flag, and the spare takes its logical lane; a
lane in bring-up that loses its signal starts again; with no spare the lane count drops by one, not below MIN_LANES; a dwell that ends
steps the rate and raises ATTEMPT. Lane control and the spare: training and idle folios carry the lane-control word; a wear window is
counted and marks a lane worn at the second high window; a swap request is announced, or waits behind an announced one; an announced
swap applies at the receiver and at the transmitter. -/
def Obligations.LaneLossAndSwaps : Prop :=
  (∀ (s : State) (sd : Fin 2), s.Inv →
     (∀ (l : Fin 5) (n : Nat),
       (s.laneUp sd l = true →
         (∃ t, exec (.laneDown sd l n) s = .next t ∧ t.lane sd l = 0 ∧ t.logOf sd l = 7 ∧ t.flag (0x18 + sd) 6 = true ∧
           (s.sideIsUp sd = true → ∀ sp : Fin 5, s.rd (QP_SIDE_STAT_SPARE sd) = sp.val → sp ≠ l → s.laneUp sd sp = true → s.logOf sd l < 7 →
             t.logOf sd sp = s.logOf sd l ∧ t.rd (QP_SIDE_STAT_SPARE sd) = 7 ∧
             t.rd (QP_CNT_LOST_FOLIOS sd) = satAdd (QP_CNT_LOST_FOLIOS sd).w (s.rd (QP_CNT_LOST_FOLIOS sd)) n) ∧
           RegsKept (pagesOf [8, 0x18 + sd.val]) s t ∧ WordsKept (fun _ => false) s t ∧ (s.quietMem → t.mem = s.mem)) ∧
         ∃ t, exec (.deskew sd l n) s = .next t ∧ t.lane sd l = 0 ∧ t.flag (0x18 + sd) 11 = true ∧ t.flag (0x18 + sd) 6 = true ∧
           t.rd (QP_CNT_DESKEW sd) = min (s.rd (QP_CNT_DESKEW sd) + 1) 65535 ∧
           RegsKept (pagesOf [8, 0x18 + sd.val]) s t ∧ WordsKept (fun _ => false) s t ∧ (s.quietMem → t.mem = s.mem)) ∧
       (1 ≤ s.lane sd l → s.lane sd l ≤ 3 → ∃ t, exec (.laneDown sd l n) s = .next t ∧ t.lane sd l = 0 ∧
         RegsKept (keysOf [QP_LANE_STAT_STATE sd l]) s t ∧ t.win = s.win ∧ t.mem = s.mem ∧ t.out = s.out)) ∧
     (s.sideIsUp sd = true → ((List.range 5).filter fun l => decide (s.logOf sd l < 7)).length < s.rd (QP_SIDE_STAT_N_ACT sd) →
       s.rd (QP_CFG_MIN_LANES sd) < s.rd (QP_SIDE_STAT_N_ACT sd) →
       ∃ t, exec (.laneCountReduce sd) s = .next t ∧ t.rd (QP_SIDE_STAT_N_ACT sd) = (s.rd (QP_SIDE_STAT_N_ACT sd) - 1) % 8 ∧
         t.flag (0x18 + sd) 9 = true ∧ RegsKept (pagesOf [8, 0x18 + sd.val]) s t ∧ WordsKept (fun _ => false) s t ∧
         (s.quietMem → t.mem = s.mem)) ∧
     (s.sideIsUp sd = true → ((s.side sd).txLog.filter fun k => decide (k < 7)).length < (s.side sd).txAct →
       s.rd (QP_CFG_MIN_LANES sd) < (s.side sd).txAct →
       ∃ t, exec (.laneCountReduce sd) s = .next t ∧ (t.side sd).txAct = (s.side sd).txAct - 1 ∧ t.flag (0x18 + sd) 9 = true ∧
         RegsKept (pagesOf [8, 0x18 + sd.val]) s t ∧ WordsKept (fun _ => false) s t ∧ (s.quietMem → t.mem = s.mem)) ∧
     (s.sideOn sd = true → s.sideIsUp sd = false → s.energy sd = true → (∀ l < 5, s.lane sd l ≠ 3) →
       ∃ t, exec (.rateStep sd) s = .next t ∧ (∀ l < 5, t.lane sd l = if s.lane sd l = 5 then 5 else 0) ∧
         t.rd (QP_SIDE_STAT_RATE sd) = nextRate (s.rd (QP_CFG_RATE_MASK sd)) (s.rd (QP_SIDE_STAT_RATE sd)) % 4 ∧
         t.rd (QP_SIDE_STAT_ATTEMPTS sd) = satAdd (QP_SIDE_STAT_ATTEMPTS sd).w (s.rd (QP_SIDE_STAT_ATTEMPTS sd)) 1 ∧
         t.flag (0x18 + sd) 10 = true ∧ RegsKept (pagesOf [0x18 + sd.val]) s t ∧ WordsKept (fun _ => false) s t ∧
         (s.quietMem → t.mem = s.mem))) ∧
  (∀ (s : State) (sd : Fin 2), s.Inv →
     (s.sideOn sd = true → ∃ t, exec (.idleFolioSend sd) s = .next t ∧
       (s.sideIsUp sd = true → ∃ f w, Emit.folio sd f w ∈ t.out ∧ f.typ = 0 ∧ f.words.head? = some (BitVec.ofNat 72 (s.laneControl sd)) ∧
         w.lane = (s.side sd).txLog.idxOf 0) ∧
       (∀ l < 5, s.sideIsUp sd = false → s.lane sd l ≠ 5 → ∃ f w, Emit.folio sd f w ∈ t.out ∧ f.typ = 1 ∧ w.lane = l ∧
         f.words.head? = some (BitVec.ofNat 72 (s.laneControl sd)) ∧ f.seq = BitVec.ofNat 12 (s.side sd).txSeq) ∧
       (s.sideIsUp sd = false → (t.side sd).txSeq = ((s.side sd).txSeq + 1) % 4096) ∧
       t.live = s.live ∧ t.win = s.win ∧ t.mem = s.mem) ∧
     (∀ (l : Fin 5) (n : Nat), s.laneUp sd l = true → ∃ t, exec (.wearWindowEnd sd l n) s = .next t ∧
       t.rd (QP_LANE_CNT_LAST_WIN sd l) = min n 65535 ∧
       t.rd (QP_LANE_CNT_CORR sd l) = min (s.rd (QP_LANE_CNT_CORR sd l) + n) (2 ^ 32 - 1) ∧
       (s.rd (QP_WEAR_WEAR_THR sd) < n → (s.side sd).wearOver.testBit l = true → (t.rd (QP_SIDE_STAT_LANE_WORN sd)).testBit l = true) ∧
       (t.side sd).wearOver.testBit l = decide (s.rd (QP_WEAR_WEAR_THR sd) < n) ∧
       RegsKept (keysOf [QP_LANE_CNT_LAST_WIN sd l, QP_LANE_CNT_CORR sd l, QP_SIDE_STAT_LANE_WORN sd, QP_RETIRE_LANE sd,
         NVS_SAVE_DIRTY]) s t ∧ WordsKept (fun _ => false) s t ∧ (s.quietMem → t.mem = s.mem)) ∧
     (∀ lane : BitVec 3, s.sideIsUp sd = true → lane.toNat < 5 →
       ((s.side sd).txAnn.isSome = true → ∃ t, exec (.swapRequestReceive sd lane) s = .next t ∧
         (t.side sd).txWait = some lane.toNat ∧ (t.side sd).txAnn = (s.side sd).txAnn ∧ t.live = s.live ∧ t.win = s.win ∧ t.mem = s.mem) ∧
       (∀ m < 5, (s.side sd).txAnn = none → (s.side sd).txLog.getD lane.toNat 7 < 7 → (s.side sd).txLog.getD m 7 = 7 →
         (s.rd (QP_SIDE_STAT_FAR_RX_UP sd)).testBit m = true → ∃ t a, exec (.swapRequestReceive sd lane) s = .next t ∧
           (t.side sd).txAnn = some a ∧ a.log = (s.side sd).txLog.getD lane.toNat 7 ∧ a.leave = lane.toNat ∧ a.take < 5 ∧
           t.rd (QP_SIDE_STAT_SWAP_PEND sd) = 1 ∧ RegsKept (keysOf [QP_SIDE_STAT_SWAP_PEND sd]) s t ∧ t.win = s.win ∧ t.mem = s.mem)) ∧
     (∀ a : SwapAnn, s.sideIsUp sd = true → (s.side sd).rxAnn = some a → a.take < 5 → a.leave < 5 → a.take ≠ a.leave → a.log < 7 →
       s.laneUp sd a.take = true → ∃ t, exec (.swapApply sd false) s = .next t ∧ t.logOf sd a.take = a.log ∧ t.logOf sd a.leave = 7 ∧
         t.rd (QP_SIDE_STAT_SPARE sd) = a.leave ∧ (t.side sd).rxAnn = none ∧ t.flag (0x18 + sd) 8 = true ∧
         RegsKept (pagesOf [8, 0x18 + sd.val]) s t ∧ WordsKept (fun _ => false) s t ∧ (s.quietMem → t.mem = s.mem)) ∧
     ∀ a : SwapAnn, s.sideIsUp sd = true → (s.side sd).txAnn = some a → (s.side sd).txWait = none → ∃ t, exec (.swapApply sd true) s = .next t ∧
       (t.side sd).txLog = ((s.side sd).txLog.set a.take a.log).set a.leave 7 ∧ (t.side sd).txAct = (s.side sd).txAct ∧ (t.side sd).txAnn = none ∧
       t.rd (QP_SIDE_STAT_SWAP_PEND sd) = b2n (s.side sd).rxAnn.isSome ∧ t.flag (0x18 + sd) 8 = true ∧
       RegsKept (pagesOf [8, 0x18 + sd.val]) s t ∧ WordsKept (fun _ => false) s t ∧ (s.quietMem → t.mem = s.mem))

/-! ### Quire link layer (07) -/

/-- A side comes up and goes down: SIDE_UP and SIDE_DOWN are raised, the state and the lanes follow; a sender takes its node index on
the ring and enters STARTING or SOLE. Stream loss, its return and ring breaks: a lost stream's OK clears with its cause and STREAM is raised; a break is counted, and
a sender's reach ends at the tile that reports it. -/
def Obligations.SidesAndStreams : Prop :=
  (∀ (s : State) (sd : Fin 2), s.Inv →
     (∀ w : Nat, s.sideOn sd = true → s.sideIsUp sd = false → s.upFails sd = false → ∃ t, exec (.sideUp sd w) s = .next t ∧
       t.sideIsUp sd = true ∧ t.flag (0x18 + sd) 4 = true ∧ (t.side sd).upAt = w ∧
       (s.isSender = true → t.rd (QLK_TOPO_NODE sd) = s.nodeOn sd ∧ t.rd (QLK_TOPO_NODE_VALID sd) = 1 ∧
         t.rd (QLK_TOPO_RING sd) = s.ringOf sd % 64 ∧
         t.rd (ARB_STAT_STATE sd) = if s.on (ARB_CFG_EN sd) = true ∨ s.rd FMC_MEM_STAT_FAIL ≠ 0 then 1 else 0) ∧
       RegsKept (pagesOf [3, 9, 0x18 + sd.val, 0x1A]) s t ∧ WordsKept (fun _ => false) s t ∧ (s.quietMem → t.mem = s.mem)) ∧
     (s.sideIsUp sd = true → s.upFails sd = true → ∃ t, exec (.sideDown sd) s = .next t ∧
       t.rd (QP_SIDE_STAT_STATE sd) = 0 ∧ (∀ l < 5, t.lane sd l = if s.lane sd l = 5 then 5 else 0) ∧
       t.rd (QP_SIDE_STAT_RATE sd) = s.rd (QP_CFG_RATE_START sd) % 4 ∧ t.rd WTU_RING_OFS_VALID = 0 ∧
       t.flag (0x18 + sd) 5 = true ∧ t.rd (QP_CNT_SIDE_DOWNS sd) = min (s.rd (QP_CNT_SIDE_DOWNS sd) + 1) 65535 ∧
       (s.isTile = true → s.on (okFld sd) = true → t.on (okFld sd) = false) ∧ (s.isTile = true → t.rd (QLK_REACH_NODES sd) = 0) ∧
       RegsKept (pagesOf [8, 0x18 + sd.val, 0x1A]) s t ∧ WordsKept (fun _ => false) s t ∧ (s.quietMem → t.mem = s.mem))) ∧
  (∀ (s : State) (st : Fin 2),
     (s.isTile = true → s.on (okFld st) = true → ∃ t, exec (.streamLoss st) s = .next t ∧ t.on (okFld st) = false ∧
       t.rd (whyFld st) = 1 ∧ t.flag 0x1A 7 = true ∧ RegsKept (keysOf [okFld st, whyFld st]) s t ∧ WordsKept (fun _ => false) s t ∧
       SidesKept s t ∧ (s.quietMem → t.mem = s.mem)) ∧
     (s.isTile = true → s.sideIsUp st = true → exec (.streamRestore st) s = .next (s.wr (okFld st) 1)) ∧
     ∀ (k : BitVec 6) (side : Fin 2), ∃ t, exec (.breakReceive st k side) s = .next t ∧
       t.rd QLK_MG_CNT_BREAKS = min (s.rd QLK_MG_CNT_BREAKS + 1) (2 ^ QLK_MG_CNT_BREAKS.w - 1) ∧
       (s.isTile = true → side.val = 1 → s.rd (QLK_TOPO_NODE 0) ≤ k.toNat → t.rd QLK_DRR_D_A = (k.toNat - s.rd (QLK_TOPO_NODE 0)) % 64) ∧
       (s.isTile = true → side.val = 0 → k.toNat ≤ s.rd (QLK_TOPO_NODE 0) → t.rd QLK_DRR_D_B = (s.rd (QLK_TOPO_NODE 0) - k.toNat) % 64) ∧
       (s.isSender = true → t.rd (QLK_TOPO_SPLIT st) = 1 ∧ t.rd (QLK_TOPO_REACH_END st) = k.toNat ∧ t.flag 0x1A 8 = true ∧
         t.rd (QLK_REACH_NODES st) =
           s.rd (QLK_REACH_NODES st) &&& (if side.val = 1 then nodeMask 0 k.toNat else nodeMask k.toNat 63)) ∧
       RegsKept (keysOf [QLK_MG_CNT_BREAKS, QLK_DRR_D_A, QLK_DRR_D_B, QLK_REACH_NODES st, QLK_TOPO_SPLIT st, QLK_TOPO_REACH_END st]) s t ∧
       SidesKept s t ∧ WordsKept (fun _ => false) s t ∧ (s.quietMem → t.mem = s.mem))

/-- Enumeration: a sender sends the first ENUM folio of a walk when a tile's link comes up; a tile takes the node index a walk gives
it, with its ring, one beyond position 62 holds none, and the walk back and the closing walk give the number of tiles; the far sender answers
a walk; a walk that ends gives the sender its tile count and reach. -/
def Obligations.Enumeration : Prop :=
  ∀ (s : State) (sd : Fin 2), s.Inv →
    (∀ k : BitVec 6, s.isSender = true → s.sideIsUp sd = true → ∃ t, exec (.linkUpReceive sd k) s = .next t ∧
      (∃ f w, Emit.folio sd f w ∈ t.out ∧ f.typ = 0xB ∧ f.words.length = 71) ∧ t.link.walks.contains sd.val = true ∧ t.live = s.live ∧
      t.win = s.win ∧ t.mem = s.mem ∧ SidesKept s t) ∧
    (∀ (ws : List Word72) (hops : BitVec 6), (ws.getD 1 0).toNat / 2 ^ 64 = 0xE8 →
      let w := (ws.getD 1 0).toNat
      (s.isTile = true → w.testBit 19 = false → w.testBit 12 = false →
        (w % 64 ≠ 63 → ∃ t, exec (.enumReceive sd ws hops) s = .next t ∧ t.rd (QLK_TOPO_NODE 0) = w % 64 ∧
          t.rd (QLK_TOPO_NODE 1) = w % 64 ∧ t.rd (QLK_TOPO_NODE_VALID 0) = 1 ∧ t.rd (QLK_TOPO_RING 0) = w / 64 % 64 ∧
          t.rd QLK_DRR_D_B = w % 64 ∧ t.rd QLK_DRR_D_A = 63 - w % 64 ∧
          (s.sideIsUp (1 - sd.val) = true → ∃ f w, Emit.folio (1 - sd.val) f w ∈ t.out ∧ f.typ = 0xB) ∧
          RegsKept (pagesOf [3, 0x1A]) s t ∧ SidesKept s t ∧ WordsKept (fun _ => false) s t ∧ (s.quietMem → t.mem = s.mem)) ∧
        (w % 64 = 63 → ∃ t, exec (.enumReceive sd ws hops) s = .next t ∧ t.rd (QLK_TOPO_NODE_VALID 0) = 0 ∧
          t.rd (QLK_TOPO_NODE_VALID 1) = 0 ∧ t.rd NVS_POWER_STATE ≠ 0 ∧
          RegsKept (pagesOf ([3, 0x1A] ++ lampPages)) s t ∧ WordsKept (fun _ => false) s t ∧ (s.quietMem → t.mem = s.mem))) ∧
      (s.isTile = true → (w.testBit 19 = true ∨ w.testBit 12 = true) → ∃ t, exec (.enumReceive sd ws hops) s = .next t ∧
        t.rd (QLK_TOPO_N_TILES 0) = w / 2 ^ 13 % 64 ∧ t.rd (QLK_TOPO_N_TILES 1) = w / 2 ^ 13 % 64 ∧
        t.rd (QLK_TOPO_FAR_SENDER 0) = b2n (!w.testBit 19) ∧
        RegsKept (pagesOf [0x1A]) s t ∧ SidesKept s t ∧ WordsKept (fun _ => false) s t ∧ (s.quietMem → t.mem = s.mem)) ∧
      (s.isSender = true → w.testBit 19 = false →
        (s.nodeOn sd = 63 → w.testBit 12 = false → ∃ t, exec (.enumReceive sd ws hops) s = .next t ∧
          t.rd (QLK_TOPO_N_TILES sd) = w % 64 - 1 ∧ t.rd (QLK_TOPO_FAR_SENDER sd) = 1 ∧
          (∃ f w, Emit.folio sd f w ∈ t.out ∧ f.typ = 0xB) ∧ t.link.walks.contains sd.val = true ∧
          RegsKept (keysOf [QLK_TOPO_N_TILES sd, QLK_TOPO_FAR_SENDER sd]) s t ∧ WordsKept (fun _ => false) s t ∧
          (s.quietMem → t.mem = s.mem)) ∧
        (s.nodeOn sd = 0 → w.testBit 12 = true →
          exec (.enumReceive sd ws hops) s = .next ((s.wr (QLK_TOPO_N_TILES sd) (w / 2 ^ 13 % 64)).wr (QLK_TOPO_FAR_SENDER sd) 1)))) ∧
    ∀ (acks : Word) (moved : Bool), s.isSender = true → s.link.walks.contains sd.val = true →
      ∃ t, exec (.enumDone sd acks moved) s = .next t ∧
        t.link.walks.contains sd.val = false ∧ t.flag 0x1A 4 = true ∧ (moved = true → t.flag 0x1A 5 = true) ∧
        (acks.toNat.testBit 0 = true → t.flag 0x1A 6 = true) ∧ t.rd QLK_ENUM_FRAME_FRAME = s.frame % 2 ^ 48 ∧
        (∀ k, 1 ≤ k → k ≤ 62 → (t.rd (QLK_REACH_NODES sd)).testBit k = acks.toNat.testBit k) ∧
        RegsKept (pagesOf [0x1A]) s t ∧ SidesKept s t ∧ WordsKept (fun _ => false) s t ∧ (s.quietMem → t.mem = s.mem)

/-- Folios and management fragments: a folio that does not decode is counted, one of a stream its type does not allow is counted as
BADTYPE, every other one counts as received, and a tile sends on what is not for it alone; a message's first fragment begins its reassembly,
one that a sender's partner wants relayed leaves on the ring, and a message that stays incomplete is discarded and counted. -/
def Obligations.FoliosAndFragments : Prop :=
  ∀ s : State, s.Inv →
    (∀ (sd : Fin 2) (l : Fin 5) (f : Folio) (lat : BitVec 16), s.sideOn sd = true →
      (∃ t, exec (.folioReceive sd l f false lat) s = .next t ∧
        t.rd (QLK_FOLIO_CNT_UNCORR sd) = min (s.rd (QLK_FOLIO_CNT_UNCORR sd) + 1) (2 ^ (QLK_FOLIO_CNT_UNCORR sd).w - 1) ∧
        t.rd (QP_LANE_CNT_UNCORR sd l) = min (s.rd (QP_LANE_CNT_UNCORR sd l) + 1) (2 ^ (QP_LANE_CNT_UNCORR sd l).w - 1) ∧
        RegsKept (keysOf [QLK_FOLIO_CNT_UNCORR sd, QP_LANE_CNT_UNCORR sd l]) s t ∧ t.win = s.win ∧ t.mem = s.mem ∧ t.out = s.out) ∧
      ((s.side sd).rxHeld = [] → ((s.side sd).rxNext = none ∨ (s.side sd).rxNext = some f.seq.toNat) →
        ∃ t, exec (.folioReceive sd l f true lat) s = .next t ∧
          t.rd (QLK_FOLIO_CNT_RX sd) = min (s.rd (QLK_FOLIO_CNT_RX sd) + 1) (2 ^ (QLK_FOLIO_CNT_RX sd).w - 1) ∧
          t.rd (QLK_FOLIO_CNT_BADTYPE sd) = satAdd (QLK_FOLIO_CNT_BADTYPE sd).w (s.rd (QLK_FOLIO_CNT_BADTYPE sd))
            (b2n (!streamOk f.typ.toNat f.stream.toNat)) ∧
          (f.typ ≠ 1 → (t.side sd).rxNext = some ((f.seq.toNat + 1) % 4096)) ∧
          (streamOk f.typ.toNat f.stream.toNat = true → (t.side sd).nbHold = f.hold) ∧
          (streamOk f.typ.toNat f.stream.toNat = true → s.isTile = true → s.sideIsUp (1 - sd.val) = true →
            ([2, 3, 6, 8, 9, 10].contains f.typ.toNat) = true →
            (f.bcast = true ∨ f.ret = true ∨ s.on (QLK_TOPO_NODE_VALID 0) = false ∨ f.node.toNat ≠ s.node) →
            ∃ g w, Emit.folio (1 - sd.val) g w ∈ t.out ∧ g.typ = f.typ ∧ g.node = f.node ∧ g.words = f.words) ∧
          RegsKept (pagesOf [8, 0x18 + sd.val, 0x1A]) s t ∧ t.win = s.win ∧ t.mem = s.mem)) ∧
    (∀ (via : Via) (ws : List Word72), s.accepts via = true → (ws.getD 0 0).toNat / 2 ^ 64 = 0xF0 →
      ((s.isSender = false ∨ via = .ring) → s.link.relays = [] → (ws.getD 0 0).toNat / 2 ^ 48 % 256 = 0 →
        (ws.getD 0 0).toNat / 2 ^ 56 % 256 ≠ 0 → (∀ m ∈ s.link.frags, m.srcQn ≠ (ws.getD 0 0).toNat / 2 ^ 18 % 2 ^ 18) →
        ∃ t m, exec (.mgFragmentReceive via ws) s = .next t ∧
          m ∈ t.link.frags ∧ m.srcQn = (ws.getD 0 0).toNat / 2 ^ 18 % 2 ^ 18 ∧ m.next = 1 ∧ m.body = (ws.drop 1).take 70 ∧ t.live = s.live ∧
          t.win = s.win ∧ t.mem = s.mem ∧ t.out = s.out) ∧
      (∀ sd : Fin 2, s.isSender = true → via ≠ .ring → (ws.getD 0 0).toNat / 2 ^ 12 % 64 ≠ s.node →
        s.route ((ws.getD 0 0).toNat / 2 ^ 12 % 64) = some sd.val → s.sideIsUp sd = true → (s.side sd).nbHold = false →
        ∃ t, exec (.mgFragmentReceive via ws) s = .next t ∧
          (∃ f w, Emit.folio sd f w ∈ t.out ∧ f.typ = 4 ∧ f.node.toNat = (ws.getD 0 0).toNat / 2 ^ 12 % 64 ∧
            f.words.drop 1 = ws.drop 1) ∧ t.live = s.live ∧ t.win = s.win ∧ t.mem = s.mem)) ∧
    ∀ (q : BitVec 18) (m : FragMsg), s.link.frags.find? (fun m => m.srcQn == q.toNat) = some m → m.next ≤ 256 →
      ∃ t, exec (.fragTimeout q) s = .next t ∧ (∀ x ∈ t.link.frags, x.srcQn ≠ q.toNat) ∧
        t.rd QLK_MG_CNT_FRAG_TMO = min (s.rd QLK_MG_CNT_FRAG_TMO + 1) (2 ^ QLK_MG_CNT_FRAG_TMO.w - 1) ∧
        RegsKept (keysOf [QLK_MG_CNT_FRAG_TMO]) s t ∧ t.win = s.win ∧ t.mem = s.mem ∧ t.out = s.out

/-! ### Wall time (08) -/

/-- What the Wall Time Unit sends: TIME folios on a side that is up, and the pulses of PPS, tick out and the trigger pins where they
are enabled. The board's timing pins: genlock and PPS edges and their loss, and captures. -/
def Obligations.TimeOutputsAndPins : Prop :=
  (∀ s : State,
     (∀ (sd : Fin 2) (w : Nat), s.sideIsUp sd = true →
       exec (.timeFolioSend sd w) s = .next ((s.passTo w).sendFolio sd (mkFolio 7 3 0 false true false ((s.passTo w).timeWords sd w)))) ∧
     (∀ k : BitVec 2, k.toNat < s.feeds →
       exec (.feedSlotStart k) s = .next ((s.passTo (s.feedTime s.frame k.toNat)).wr WTU_FRAME_FEED k.toNat)) ∧
     (∀ n : Nat, s.on WTU_PPS_OUT_EN = true → exec (.ppsOutPulse n) s = .next (s.send (.pulse .pps 0
       (((n * 1000000000 : Nat) + toSigned 32 (s.rd WTU_PPS_OUT_OFS_NS)) * 65536) (s.rd WTU_PPS_OUT_WIDTH_US * 1000) (!s.on WTU_PPS_OUT_POL)))) ∧
     (∀ (n : BitVec 48) (k : BitVec 2), s.on WTU_TICKOUT_EN = true → (s.on WTU_TICKOUT_HOLD_SKIP && s.heldAt n.toNat) = false →
       (s.rd WTU_TICKOUT_MODE = 1 ∨ (s.rd WTU_TICKOUT_MODE = 0 ∧ k.toNat = 0) ∨
         (2 ≤ s.rd WTU_TICKOUT_MODE ∧ k.toNat = s.rd WTU_TICKOUT_FEED)) →
       exec (.tickOutPulse n k) s = .next (s.send (.pulse .tickOut 0
         ((s.feedTime n.toNat k.toNat : Int) + toSigned 32 (s.rd WTU_TICKOUT_OFS_NS) * 65536) (s.rd WTU_TICKOUT_WIDTH_US * 1000)
         (!s.on WTU_TICKOUT_POL)))) ∧
     ∀ (k : Fin 4) (n : Nat), s.rd (WTU_TRIG_MODE k) ≠ 0 → exec (.triggerPulse k n) s = .next (s.send (.pulse .trigger (s.rd (WTU_TRIG_GPIO k))
       ((if s.rd (WTU_TRIG_MODE k) = 1 then (s.tickTime n : Int) else (n * 1000000000 * 65536 : Nat)) +
         toSigned 32 (s.rd (WTU_TRIG_OFS_NS k)) * 65536) (s.rd (WTU_TRIG_WIDTH_US k) * 1000) (!s.on (WTU_TRIG_POL k))))) ∧
  (∀ s : State,
     (∀ w : Nat, s.on WTU_GLK_EN = true → s.isTile = false →
       exec (.glkEdge w false) s = .next (s.bump WTU_GLK_BAD) ∧
       (s.wtu.glkLast = none → ∃ t, exec (.glkEdge w true) s = .next t ∧ t.wtu.glkLast = some w ∧
         (t.rd WTU_SRC_STAT_VALID).testBit 4 = true ∧ SidesKept s t ∧
         RegsKept (pagesOf timePages) s t ∧ WordsKept (fun _ => false) s t ∧ (s.quietMem → t.mem = s.mem))) ∧
     (s.on WTU_GLK_EN = true → ∃ t, exec .glkLoss s = .next t ∧ t.wtu.glkLast = none ∧
       (t.rd WTU_SRC_STAT_VALID).testBit 4 = false ∧ t.flag 8 11 = true ∧ SidesKept s t ∧
       RegsKept (pagesOf timePages) s t ∧ WordsKept (fun _ => false) s t ∧ (s.quietMem → t.mem = s.mem)) ∧
     (∀ w : Nat, s.on WTU_PPS_IN_EN = true → s.wtu.ppsLast = none → ∃ t, exec (.ppsEdge w true) s = .next t ∧
       t.wtu.ppsLast = some w ∧ (s.wtu.todSet = true → t.rd WTU_TOD_SEC_NEXT = (s.rd WTU_TOD_SEC_NEXT + 1) % 2 ^ 64) ∧
       (s.isTile = false → (t.rd WTU_SRC_STAT_VALID).testBit 3 = true) ∧ SidesKept s t ∧
       RegsKept (pagesOf timePages) s t ∧ WordsKept (fun _ => false) s t ∧ (s.quietMem → t.mem = s.mem)) ∧
     (s.on WTU_PPS_IN_EN = true → ∃ t, exec .ppsLoss s = .next t ∧ t.wtu.ppsLast = none ∧
       (t.rd WTU_SRC_STAT_VALID).testBit 3 = false ∧ t.flag 8 12 = true ∧ SidesKept s t ∧
       RegsKept (pagesOf timePages) s t ∧ WordsKept (fun _ => false) s t ∧ (s.quietMem → t.mem = s.mem)) ∧
     ∀ (input : BitVec 5) (rising : Bool) (w k : Nat), k < 8 → s.rd (WTU_CAP_CFG_SRC k) = input.toNat → s.rd (WTU_CAP_CFG_EDGE k) = 3 →
       s.wtu.capLast.getD k none = none → ∃ t, exec (.captureEdge input rising w) s = .next t ∧
         t.rd (WTU_CAP_CNT_CNT k) = min (s.rd (WTU_CAP_CNT_CNT k) + 1) (2 ^ (WTU_CAP_CNT_CNT k).w - 1) ∧
         t.rd (WTU_CAP_TS_NS k) = w / 65536 % 1000000000 % 2 ^ (WTU_CAP_TS_NS k).w ∧ t.flag 8 16 = true ∧ SidesKept s t ∧
         RegsKept (pagesOf [8]) s t ∧ WordsKept (fun _ => false) s t ∧ (s.quietMem → t.mem = s.mem))

/-- Sources of time: a source's validity follows its command, a servo in ACQUIRE whose offset has stayed small locks, a PTP slot takes a
master, asks for the path delay after each Sync or Follow_Up, measures it by the answer, and listens again after a time-out. -/
def Obligations.TimeSources : Prop :=
  ∀ s : State, s.Inv →
    (∀ (c : BitVec 3) (v : Bool), c.toNat ≠ 0 → ∃ t, exec (.sourceChange c v) s = .next t ∧
      (t.rd WTU_SRC_STAT_VALID).testBit c.toNat = v ∧ SidesKept s t ∧
      RegsKept (pagesOf timePages) s t ∧ WordsKept (fun _ => false) s t ∧ (s.quietMem → t.mem = s.mem)) ∧
    (s.rd WTU_SRC_STAT_STATE = 1 → s.mayLock = true → ∃ t, exec .servoLock s = .next t ∧ t.rd WTU_SRC_STAT_STATE = 2 ∧ t.flag 8 5 = true ∧
      t.wtu.wasLocked = true ∧ SidesKept s t ∧ RegsKept (keysOf [WTU_SRC_STAT_STATE]) s t ∧ WordsKept (fun _ => false) s t ∧
      (s.quietMem → t.mem = s.mem)) ∧
    ∀ d : Fin 2,
      (∃ t, exec (.ptpAnnounceTimeout d) s = .next t ∧ t.rd (WTU_PTP_STAT_STATE d) = 0 ∧ (t.ptpSlot d).best = none ∧
        (t.rd WTU_SRC_STAT_VALID).testBit (d.val + 1) = false ∧ SidesKept s t ∧
        RegsKept (pagesOf timePages) s t ∧ WordsKept (fun _ => false) s t ∧ (s.quietMem → t.mem = s.mem)) ∧
      ∀ (dom : BitVec 8) (port : BitVec 2), s.ptpTakes d dom port = true →
        (∀ m : PtpMaster, (s.ptpSlot d).best = none → ∃ t, exec (.ptpMessage d (.announce dom port m)) s = .next t ∧
          (t.ptpSlot d).best = some m ∧ t.rd (WTU_PTP_GM_GM_ID d) = m.gm.toNat ∧ t.rd (WTU_PTP_STAT_STEPS d) = min 255 m.steps.toNat ∧
          t.rd (WTU_PTP_STAT_PORT d) = port.toNat ∧ t.rd (WTU_PTP_STAT_STATE d) = 1 ∧
          (t.rd WTU_SRC_STAT_VALID).testBit (d.val + 1) = false ∧ SidesKept s t ∧
          RegsKept (pagesOf timePages) s t ∧ WordsKept (fun _ => false) s t ∧ (s.quietMem → t.mem = s.mem)) ∧
        ((s.rd (WTU_PTP_STAT_STATE d) = 1 ∨ s.rd (WTU_PTP_STAT_STATE d) = 2) → port.toNat = s.rd (WTU_PTP_STAT_PORT d) →
          (∀ (seq : BitVec 16) (rx : Nat), ∃ t, exec (.ptpMessage d (.sync dom port seq rx none)) s = .next t ∧
            (t.ptpSlot d).sync = some (seq.toNat, rx) ∧ RegsKept (pagesOf [8]) s t ∧ t.win = s.win ∧ t.mem = s.mem ∧ t.out = s.out) ∧
          (∀ (seq : BitVec 16) (rx t1 : Nat), (s.ptpSlot d).path = none → ∃ t, exec (.ptpMessage d (.sync dom port seq rx (some t1))) s = .next t ∧
            (t.ptpSlot d).down = some ((rx : Int) - t1) ∧ (t.ptpSlot d).req = some (s.ptpSlot d).seq ∧
            Sent s t (.net port.toNat .ptpDelayReq [dom.toNat, (s.ptpSlot d).seq]) ∧ SidesKept s t ∧
            RegsKept (pagesOf [8]) s t ∧ WordsKept (fun _ => false) s t ∧ (s.quietMem → t.mem = s.mem)) ∧
          (∀ (seq : BitVec 16) (rx t1 : Nat), (s.ptpSlot d).path = none → (s.ptpSlot d).sync = some (seq.toNat, rx) →
            ∃ t, exec (.ptpMessage d (.followUp dom port seq t1)) s = .next t ∧
            (t.ptpSlot d).down = some ((rx : Int) - t1) ∧ (t.ptpSlot d).req = some (s.ptpSlot d).seq ∧
            Sent s t (.net port.toNat .ptpDelayReq [dom.toNat, (s.ptpSlot d).seq]) ∧ SidesKept s t ∧
            RegsKept (pagesOf [8]) s t ∧ WordsKept (fun _ => false) s t ∧ (s.quietMem → t.mem = s.mem)) ∧
          ∀ (seq : BitVec 16) (tx rx : Nat) (down : Int), s.rd (WTU_PTP_STAT_STATE d) = 1 → (s.ptpSlot d).down = some down →
            (s.ptpSlot d).req = some seq.toNat → ∃ t, exec (.ptpMessage d (.delayResp dom port seq tx rx)) s = .next t ∧
            (let path := (down + ((rx : Int) - tx)) / 2
             (t.ptpSlot d).path = some path ∧ t.rd (WTU_PTP_STAT_MPD_NS d) = min (path / 65536).toNat (2 ^ 20 - 1) ∧
             (t.rd WTU_SRC_STAT_SRC ≠ d.val + 1 → t.rd (WTU_PTP_STAT_OFFSET_NS d) = ofSigned 32 ((down - path) / 65536))) ∧
            t.rd (WTU_PTP_STAT_STATE d) = 2 ∧ (t.rd WTU_SRC_STAT_VALID).testBit (d.val + 1) = true ∧ SidesKept s t ∧
            RegsKept (pagesOf timePages) s t ∧ WordsKept (fun _ => false) s t ∧ (s.quietMem → t.mem = s.mem))

/-- TIME folios at a node: the link holds the stamps, the sequence and the root that the folio names; an outlier is only counted; a node whose
parent falls silent forgets its root. -/
def Obligations.TimeFolios : Prop :=
  ∀ s : State, s.Inv →
    (∀ (sd : Fin 2) (ws : List Word72) (rx : Nat) (seq : BitVec 12),
      ((s.passTo rx).outlier sd ((s.passTo rx).folioExchange sd rx ws) = true → ∃ t, exec (.timeFolioReceive sd ws rx seq) s = .next t ∧
        t.timeLink sd = { s.timeLink sd with outliers := (s.timeLink sd).outliers + 1 } ∧ t.timeLink (1 - sd.val) = s.timeLink (1 - sd.val) ∧
        RegsKept (keysOf [WTU_SRC_STAT_OFFSET_NS, WTU_SRC_STAT_HOLD_S]) s t ∧ t.win = s.win ∧ t.mem = s.mem ∧ t.out = s.out) ∧
      ((s.passTo rx).outlier sd ((s.passTo rx).folioExchange sd rx ws) = false → ∃ t, exec (.timeFolioReceive sd ws rx seq) s = .next t ∧
        (t.timeLink sd).root = some (timeRoot ws) ∧ (t.timeLink (1 - sd.val)).root = (s.timeLink (1 - sd.val)).root ∧
        (s.wtu.wasLocked = true → s.on WTU_SRC_CFG_STEP_EN = false → (t.timeLink sd).last = some (timeTx ws, rx, seq.toNat) ∧
          t.timeLink (1 - sd.val) = s.timeLink (1 - sd.val)) ∧ SidesKept s t ∧
        RegsKept (pagesOf ([1, 0x21] ++ timePages)) s t ∧ WordsKept (fun _ => false) s t ∧ (s.quietMem → t.mem = s.mem))) ∧
    ∃ t, exec .parentTimeout s = .next t ∧
      (∀ sd < 2, (s.parentSide sd = true ∨ s.isTile = false) → (t.timeLink sd).root = none) ∧
      (s.isTile = false → t.rd WTU_RING_OFS_VALID = 0) ∧ SidesKept s t ∧
      RegsKept (pagesOf timePages) s t ∧ WordsKept (fun _ => false) s t ∧ (s.quietMem → t.mem = s.mem)

/-- Frame gating by FWIN: an edge in the window of the coming tick is noted, one outside is STRAY; the root decides at the decision
point, reverts after TMO_FR held ticks and resumes after eight good edges. -/
def Obligations.FrameWindow : Prop :=
  ∀ s : State,
    (s.isRoot = true →
      (∀ w : Nat, s.on WTU_FWIN_EN = true →
        (s.fwinD (s.frame + 1) - s.fwinWin (s.frame + 1) * usU ≤ w → w ≤ s.fwinD (s.frame + 1) →
          ∃ t, exec (.fwinEdge w) s = .next t ∧ t.wtu.fwinIn = some (s.frame + 1) ∧ t.wtu.fwinLast = some w ∧
            (s.rd WTU_FWIN_STAT_STATE < 2 → t.rd WTU_FWIN_STAT_STATE = 2) ∧
            (s.rd WTU_FWIN_STAT_STATE ≠ 3 → (t.rd WTU_SRC_STAT_VALID).testBit 6 = true) ∧ SidesKept s t ∧
            RegsKept (pagesOf timePages) s t ∧ WordsKept (fun _ => false) s t ∧ (s.quietMem → t.mem = s.mem)) ∧
        (¬(s.fwinD (s.frame + 1) - s.fwinWin (s.frame + 1) * usU ≤ w ∧ w ≤ s.fwinD (s.frame + 1)) →
          ¬(s.fwinD (s.frame + 2) - s.fwinWin (s.frame + 2) * usU ≤ w ∧ w ≤ s.fwinD (s.frame + 2)) →
          ∃ t, exec (.fwinEdge w) s = .next t ∧ t.rd WTU_FWIN_STAT_STRAY = min (s.rd WTU_FWIN_STAT_STRAY + 1) 65535 ∧
            t.wtu.goodEdges = 0 ∧ RegsKept (keysOf [WTU_FWIN_STAT_STRAY]) s t ∧ t.win = s.win ∧ t.mem = s.mem ∧ t.out = s.out)) ∧
      (∃ t g, exec .fwinDecision s = .next t ∧ t.wtu.gate = some g ∧ g.frame = s.frame + 1 ∧
        g.active = (s.on WTU_FWIN_EN && s.rd WTU_FWIN_STAT_STATE != 3) ∧ g.hold = (g.active && s.wtu.fwinIn != some (s.frame + 1)) ∧
        (s.latchDone = false → t.wtu.held = some g.hold ∧
          (g.hold = true → t.rd WTU_FWIN_STAT_HELD = min (s.rd WTU_FWIN_STAT_HELD + 1) 65535 ∧ t.flag 8 13 = true)) ∧ SidesKept s t ∧
        RegsKept (keysOf [WTU_FWIN_STAT_STATE, WTU_FWIN_STAT_HELD]) s t ∧ WordsKept (fun _ => false) s t ∧ (s.quietMem → t.mem = s.mem)) ∧
      (s.rd WTU_FWIN_TMO_FR ≤ s.wtu.heldRun → s.rd WTU_FWIN_STAT_STATE ≠ 3 → s.on WTU_FWIN_EN = true →
        ∃ t, exec .fwinLoss s = .next t ∧ t.rd WTU_FWIN_STAT_STATE = 3 ∧ t.flag 8 14 = true ∧
          (t.rd WTU_SRC_STAT_VALID).testBit 6 = false ∧ SidesKept s t ∧
          RegsKept (pagesOf timePages) s t ∧ WordsKept (fun _ => false) s t ∧ (s.quietMem → t.mem = s.mem))) ∧
    (s.rd WTU_FWIN_STAT_STATE = 3 → 8 ≤ s.wtu.goodEdges → ∃ t, exec .fwinResume s = .next t ∧ t.rd WTU_FWIN_STAT_STATE = 2 ∧
      (t.rd WTU_SRC_STAT_VALID).testBit 6 = true ∧ SidesKept s t ∧
      RegsKept (pagesOf timePages) s t ∧ WordsKept (fun _ => false) s t ∧ (s.quietMem → t.mem = s.mem))

/-! ### Tile pixel path (09) -/

/-- A signature at a tile: its header opens it and is checked against the frame and the grid, a data folio adds its words, one with no
signature open is an orphan, and a signature still open at its tick ends FAILED. -/
def Obligations.SignaturesArrive : Prop :=
  ∀ (s : State) (st : Fin 2), s.Inv →
    (∀ (ws : List Word72) (w : Nat), s.isTile = true → s.dataOn = true → ∃ t g, exec (.sigHdrReceive st ws w) s = .next t ∧
      t.tile.sigs.getD st none = some g ∧ g.feed = (ws.getD 0 0).toNat / 2 ^ 48 % 4 ∧ g.isPartial = (ws.getD 0 0).toNat.testBit 50 ∧
      g.p48 = (ws.getD 0 0).toNat.testBit 51 ∧ g.words = [] ∧
      (g.use = true ↔ (ws.getD 0 0).toNat % 2 ^ 48 = s.frame % 2 ^ 48 ∧ (ws.getD 0 0).toNat / 2 ^ 48 % 4 < s.feeds ∧
        (ws.getD 1 0).toNat % 32 = s.gridW ∧ (ws.getD 1 0).toNat / 32 % 32 = s.gridH) ∧
      (g.store = true → g.use = true ∧ st.val = s.rd TFS_RX_SEL) ∧
      ((ws.getD 0 0).toNat % 2 ^ 48 ≠ s.frame % 2 ^ 48 →
        t.rd TFS_CNT0_STALE = min (s.rd TFS_CNT0_STALE + 1) (2 ^ TFS_CNT0_STALE.w - 1) ∧ t.flag 0x20 5 = true) ∧
      (g.use = true → st.val = s.rd TFS_RX_SEL → t.rd TFS_RX_STAT_FRAME = s.frame) ∧ SidesKept s t ∧
      RegsKept (pagesOf [0x1A, 0x20]) s t ∧ WordsKept (fun _ => false) s t ∧ (s.quietMem → t.mem = s.mem)) ∧
    (∀ (ws : List Word72) (last : Bool) (w : Nat), s.isTile = true → s.dataOn = true →
      (s.tile.sigs.getD st none = none → ∃ t, exec (.sigDataReceive st ws last w) s = .next t ∧
        t.rd (QLK_SIG_CNT_ORPHAN st) = min (s.rd (QLK_SIG_CNT_ORPHAN st) + 1) 255 ∧ t.tile.sigs = s.tile.sigs ∧ SidesKept s t ∧
        RegsKept (keysOf [QLK_SIG_CNT_ORPHAN st, TFS_RX_STAT_NEED_PEND, TFS_CNT1_NEED]) s t ∧ WordsKept (fun _ => false) s t ∧
        (s.quietMem → t.mem = s.mem)) ∧
      ∀ g, s.tile.sigs.getD st none = some g → g.use = true →
        (last = false → ∃ t, exec (.sigDataReceive st ws last w) s = .next t ∧
          t.tile.sigs.getD st none = some { g with words := g.words ++ (List.range 71).map fun i => (ws.getD i 0).toNat } ∧
          t.live = s.live ∧ t.sides = s.sides ∧ t.mem = s.mem ∧ t.out = s.out ∧ (g.store = false → t.win = s.win)) ∧
        (last = true → ∃ t r, exec (.sigDataReceive st ws last w) s = .next t ∧ t.tile.sigs.getD st none = none ∧
          (t.tile.results.getD st []).getD g.feed none = some r ∧ r.map = leavesMap g.leaves ∧
          r.crc = (ws.getD 70 0).toNat % 2 ^ 32 ∧
          (let all := g.words ++ (List.range 70).map fun i => (ws.getD i 0).toNat
           let sent := (ws.getD 70 0).toNat / 2 ^ 32 % 512
           let starts := leafStarts g.slice (wordsPerLeaf g.p48) s.gridW g.leaves 0 none
           let len := if sent = 0 then 0 else starts.getD (sent - 1) 0 + wordsPerLeaf g.p48
           let good := (ws.getD 70 0).toNat / 2 ^ 64 = 0xEF ∧ sent ≤ g.leaves.length ∧
             leafCrc ((starts.take sent).flatMap fun p => (all.drop p).take (wordsPerLeaf g.p48)) = (ws.getD 70 0).toNat % 2 ^ 32
           (¬good → r.verdict = .failed) ∧
           (good → (ws.getD 70 0).toNat.testBit 41 = false → sent ≠ g.leaves.length → r.verdict = .failed) ∧
           (good → all.length + 1 = 71 * ((len + 71) / 71) →
             ((ws.getD 70 0).toNat.testBit 41 = true → r.verdict = .truncated) ∧
             ((ws.getD 70 0).toNat.testBit 41 = false → sent = g.leaves.length → r.verdict = .verified))) ∧
          (r.verdict = .verified → t.rd (QLK_SIG_CNT_OK st) = min (s.rd (QLK_SIG_CNT_OK st) + 1) (2 ^ (QLK_SIG_CNT_OK st).w - 1)) ∧
          (r.verdict = .truncated →
            t.rd (QLK_SIG_CNT_TRUNC st) = min (s.rd (QLK_SIG_CNT_TRUNC st) + 1) (2 ^ (QLK_SIG_CNT_TRUNC st).w - 1)) ∧
          (r.verdict = .failed → t.flag 0x1A 9 = true ∧
            t.rd (QLK_SIG_CNT_CRC_FAIL st) = min (s.rd (QLK_SIG_CNT_CRC_FAIL st) + 1) (2 ^ (QLK_SIG_CNT_CRC_FAIL st).w - 1)) ∧
          (g.store = true → r.verdict = .verified → t.tile.cur = s.tile.cur.set g.feed (s.tile.cur.getD g.feed 0 ^^^ leavesMap g.leaves) ∧
            t.tile.valid = s.tile.valid.set g.feed (s.tile.valid.getD g.feed 0 ||| leavesMap g.leaves)) ∧
          (g.store = false ∨ r.verdict = .failed → t.tile.cur = s.tile.cur ∧ t.tile.valid = s.tile.valid) ∧ SidesKept s t ∧
          RegsKept (pagesOf [0x1A, 0x20]) s t ∧ (s.quietMem → t.mem = s.mem))) ∧
    ∀ g, s.tile.sigs.getD st none = some g → g.use = true → ∃ t, exec (.signatureExpire st) s = .next t ∧
      t.tile.sigs.getD st none = none ∧ t.flag 0x1A 9 = true ∧
      t.rd (QLK_SIG_CNT_CRC_FAIL st) = min (s.rd (QLK_SIG_CNT_CRC_FAIL st) + 1) 65535 ∧ SidesKept s t ∧
      RegsKept (keysOf [QLK_SIG_CNT_CRC_FAIL st, TFS_RX_STAT_NEED_PEND, TFS_CNT1_NEED]) s t ∧ WordsKept (fun _ => false) s t ∧
      (s.quietMem → t.mem = s.mem)

/-- The press pass: at press start the leaf maps are snapshot and the press runs for the feeds of the coming frame, after a held tick
it is skipped; complete, it shows its length and every queued write is gone. A tile asks again for a feed whose request stays
unanswered, and an aging save that ends leaves the counters in the other slot. -/
def Obligations.PressAndAging : Prop :=
  ∀ s : State, s.Inv →
    (∀ ue : List Nat, s.hasPixels = true → s.blkOn 0x20 = true → s.blkOn 0x21 = true → s.dataOn = true →
      s.tile.pressing = false →
      (s.on WTU_FRAME_HELD = true → exec (.pressStart ue) s = .next (s.bump LCP_CNT_SKIPPED)) ∧
      (s.on WTU_FRAME_HELD = false → ∃ t, exec (.pressStart ue) s = .next t ∧ t.tile.pressing = true ∧
        t.tile.started = true ∧ t.tile.pressFeeds = s.nextF ∧ t.tile.serves = s.frame + 1 ∧ t.tile.overrun = false ∧
        (∀ f < s.nextF, t.tile.fresh.getD f 0 = 0) ∧ t.tile.snapCur = s.tile.cur ∧ t.tile.snapValid = s.tile.valid ∧
        SidesKept s t ∧ RegsKept (pagesOf [1, 0x20, 0x21]) s t ∧
        (s.quietMem → s.gridW * s.gridH ≤ 256 → s.nextF ≤ 4 → s.rd REC_CTRL_CAP_SLOTS ≤ 8 → t.mem = s.mem))) ∧
    (∀ ns : BitVec 32, s.tile.pressing = true → ∃ t, exec (.pressComplete ns) s = .next t ∧ t.tile.pressing = false ∧
      t.tile.finished = (if s.tile.overrun then 0 else 2 ^ s.tile.pressFeeds - 1) ∧ t.rd LCP_STAT_PRESS_NS = ns.toNat ∧
      t.tile.writeQ = [] ∧ t.tile.reload = [] ∧
      (s.tile.serves % 65536 = 0 → s.hasPixels = true → s.house.shut = false → t.nvs.ops.contains 3 = true) ∧ t.sides = s.sides ∧
      RegsKept (keysOf [LCP_STAT_PRESS_NS, NVS_SAVE_DIRTY, NVS_SAVE_SAVING, LCP_AGE_STAT_SAVING]) s t) ∧
    (∀ f < s.feeds, s.isTile = true → s.on TFS_RX_NEED_EN = true → s.tile.needNow.testBit f = false → f < 4 →
      (∃ n, s.tile.needAt.getD f none = some n ∧ n + s.rd TFS_RX_NEED_RETRY ≤ s.frame) →
      ∃ t, exec .needFullRetry s = .next t ∧ t.tile.needNow.testBit f = true ∧ t.flag 0x20 7 = true ∧
        t.rd TFS_CNT1_NEED = min (s.rd TFS_CNT1_NEED + 1) (2 ^ TFS_CNT1_NEED.w - 1) ∧ SidesKept s t ∧
        RegsKept (keysOf [TFS_RX_STAT_NEED_PEND, TFS_CNT1_NEED]) s t ∧ WordsKept (fun _ => false) s t ∧ (s.quietMem → t.mem = s.mem)) ∧
    (s.nvs.ops.head? = some 3 → s.rd LCP_AGE_STAT_SLOT < 2 → ∃ t, exec .ageSaveDone s = .next t ∧
      t.rd LCP_AGE_STAT_SLOT = 1 - s.rd LCP_AGE_STAT_SLOT ∧ t.flag 0x21 6 = true ∧
      t.nvs.ageSlots.getD (1 - s.rd LCP_AGE_STAT_SLOT) none = some (s.nvs.ageHead.getD s.frame, s.ageWords) ∧
      t.rd LCP_AGE_STAT_SAVE_FRAME = s.nvs.ageHead.getD s.frame ∧ SidesKept s t ∧
      RegsKept (keysOf [NVS_MRAM_RECORDS, LCP_AGE_STAT_SAVING, LCP_AGE_STAT_SLOT, LCP_AGE_STAT_SAVE_FRAME, NVS_SAVE_DIRTY,
        NVS_SAVE_SAVING]) s t ∧ WordsKept (fun _ => false) s t ∧ (s.quietMem → t.mem = s.mem))

/-! ### Scan engine and lamp drive (10) -/

/-- PLL, die link and IREF of a bank, and 64 underruns: the status follows, and a bank whose condition fails is off with the cause in
OFF_WHY; the other banks keep theirs. What is told of a die that is not there changes nothing. -/
def Obligations.BankConditions : Prop :=
  ∀ (s : State) (d : Fin 4), s.Inv → s.scan.banks.length = 4 →
    (s.on (DRV_STAT_PLL_LOCK d) = true → ∃ t, exec (.pllUnlock d) s = .next t ∧ t.rd (DRV_STAT_PLL_LOCK d) = 0 ∧
      t.on (DRV_STAT_OUT_ON d) = false ∧ t.rd (DRV_STAT_OFF_WHY d) = 6 ∧ t.flag (0x28 + d) 4 = true ∧
      t.rd (DRV_CNT_PLL_UNLOCK d) = min (s.rd (DRV_CNT_PLL_UNLOCK d) + 1) 65535 ∧
      ((s.drvBank d).wait ≠ 1 → s.on (DRV_STAT_OUT_ON d) = false → (t.drvBank d).wait = 6) ∧ SidesKept s t ∧
      RegsKept (pagesOf [0x22, 0x28 + d.val]) s t ∧ WordsKept (fun _ => false) s t ∧ (s.quietMem → t.mem = s.mem)) ∧
    (∀ w : Nat, exec (.gclkPllLock d w) s = .next (if s.on (DRV_STAT_PRESENT d) = true ∧ s.on (DRV_STAT_PLL_LOCK d) = false then
      (s.setDrvBank d { s.drvBank d with lockAt := w }).wr (DRV_STAT_PLL_LOCK d) 1 else s)) ∧
    (s.on (DRV_STAT_PRESENT d) = false → (∀ o : Option Nat, exec (.irefFault d o) s = .next s) ∧
      (∀ r : Nat, exec (.irefRestore d r) s = .next s) ∧ exec (.dieLinkDown d) s = .next s ∧ exec (.dieLinkUp d) s = .next s) ∧
    (s.on (DRV_STAT_PRESENT d) = true →
      (∀ r < 6000, ∃ t, exec (.irefFault d (some r)) s = .next t ∧ t.rd (DRV_STAT_IFS_BAD d) = 1 ∧ t.rd (DRV_STAT_IFS_UA d) = 4000 ∧
        (t.drvBank d).irefOff = false ∧ RegsKept (keysOf [DRV_STAT_IFS_BAD d, DRV_STAT_IFS_UA d]) s t ∧ t.win = s.win ∧ t.mem = s.mem ∧
        t.out = s.out ∧ t.sides = s.sides) ∧
      (∀ r, 6000 ≤ r → r ≤ 60000 → exec (.irefFault d (some r)) s = .next s) ∧
      (∀ o : Option Nat, (∀ r, o = some r → 60000 < r) → ∃ t, exec (.irefFault d o) s = .next t ∧ t.rd (DRV_STAT_IFS_BAD d) = 1 ∧
        t.rd (DRV_STAT_IFS_UA d) = (o.map fun r => 24000000 / r).getD 0 ∧
        (t.drvBank d).irefOff = true ∧ t.on (DRV_STAT_OUT_ON d) = false ∧ t.rd (DRV_STAT_OFF_WHY d) = 10 ∧ SidesKept s t ∧
        RegsKept (pagesOf [0x22, 0x28 + d.val]) s t ∧ WordsKept (fun _ => false) s t ∧ (s.quietMem → t.mem = s.mem)) ∧
      (∀ r, 6000 ≤ r → r ≤ 60000 → ∃ t, exec (.irefRestore d r) s = .next t ∧ t.rd (DRV_STAT_IFS_BAD d) = 0 ∧
        t.rd (DRV_STAT_IFS_UA d) = 24000000 / r ∧ (t.drvBank d).irefOff = false ∧
        ((s.drvBank d).irefOff = true → (s.drvBank d).wait ≠ 1 → (t.drvBank d).wait = 10) ∧
        RegsKept (keysOf [DRV_STAT_IFS_BAD d, DRV_STAT_IFS_UA d]) s t ∧ t.win = s.win ∧ t.mem = s.mem ∧ t.out = s.out ∧ t.sides = s.sides) ∧
      (∃ t, exec (.dieLinkDown d) s = .next t ∧ t.rd (DRV_STAT_LINK d) = 0 ∧ t.on (DRV_STAT_OUT_ON d) = false ∧
        t.rd (DRV_STAT_OFF_WHY d) = 11 ∧ SidesKept s t ∧ RegsKept (pagesOf [0x22, 0x28 + d.val]) s t ∧ WordsKept (fun _ => false) s t ∧
        (s.quietMem → t.mem = s.mem)) ∧
      ∃ t, exec (.dieLinkUp d) s = .next t ∧ t.rd (DRV_STAT_LINK d) = 1 % 2 ^ (DRV_STAT_LINK d).w ∧
        (s.on (DRV_STAT_LINK d) = false → (s.drvBank d).wait ≠ 1 → (t.drvBank d).wait = 11) ∧
        RegsKept (keysOf [DRV_STAT_LINK d]) s t ∧ t.win = s.win ∧ t.mem = s.mem ∧ t.out = s.out ∧ t.sides = s.sides) ∧
    (64 ≤ (s.drvBank d).under → ∃ t, exec (.underrunShutdown d) s = .next t ∧ t.flag (0x28 + d) 5 = true ∧
      t.on (DRV_STAT_OUT_ON d) = false ∧ t.rd (DRV_STAT_OFF_WHY d) = 7 ∧ SidesKept s t ∧
      RegsKept (pagesOf [0x22, 0x28 + d.val]) s t ∧ WordsKept (fun _ => false) s t ∧ (s.quietMem → t.mem = s.mem))

/-- A bank starts only while every condition of R214 holds: then it drives, SCN is LIT, and every enabled lamp loop that was OFF
starts its profile when the lamps become lit; otherwise the failing condition stands in OFF_WHY. Strings: every enabled string of a lit string bank sends its first N_fit devices in frames with n mod DIV = 0, and a transmission
that leaves a device out is counted. -/
def Obligations.BanksAndStrings : Prop :=
  (∀ (s : State) (d : Fin 4), s.Inv → s.tileWhy = 0 → s.on (DRV_STAT_OUT_ON d) = false →
     (s.bankWhy d ≠ 0 → exec (.bankStart d) s = .next (s.wr (DRV_STAT_OFF_WHY d) (s.bankWhy d))) ∧
     (s.bankWhy d = 0 → ∃ t, exec (.bankStart d) s = .next t ∧ t.rd (DRV_STAT_OUT_ON d) = 1 ∧ t.on SCN_STAT_LIT = true ∧
       (s.on SCN_STAT_LIT = false → t.flag 0x22 4 = true ∧ ∀ k < 8, s.on (RCE_LOOP_CFG_EN k) = true → s.rd (RCE_LOOP_CFG_KIND k) = 1 →
         s.rd (RCE_LOOP_STAT_STATE k) = 0 → t.rd (RCE_LOOP_STAT_STATE k) = 1 ∧ (t.loop k).moving = true) ∧ SidesKept s t ∧
       RegsKept (pagesOf [7, 0x22, 0x28 + d.val]) s t ∧ WordsKept (fun _ => false) s t ∧ (s.quietMem → t.mem = s.mem))) ∧
  (∀ (s : State) (d : Fin 4), s.tileWhy ≠ 0 ∨ s.on (DRV_STAT_OUT_ON d) = true → exec (.bankStart d) s = .next s) ∧
  (∀ (s : State) (d : Fin 4), s.on (DRV_STAT_OUT_ON d) = true → s.pl (DRV_CFG_MODE d) = 2 →
     (s.frame % (s.pl (DRV_STR_CFG2_DIV_M1 d) + 1) ≠ 0 → exec (.stringTransmit d) s = .next s) ∧
     (s.frame % (s.pl (DRV_STR_CFG2_DIV_M1 d) + 1) = 0 → ∃ t, exec (.stringTransmit d) s = .next t ∧
       (∀ j < 16, (s.pl (DRV_STR_CFG2_EN d)).testBit j = true →
         Sent s t (.string d j (s.stringCode d) ((List.range (min (s.pl (DRV_STR_MAP_COUNT d j)) (s.strNfit d))).map fun q =>
           ((s.pixIndex (s.strPixel d j q).1 (s.strPixel d j q).2).map fun i => s.devicePayload d (s.pix (planeAddr
             (s.pl (DRV_STR_CFG2_FEED d)) (b2n (s.tile.showing.testBit (s.pl (DRV_STR_CFG2_FEED d)))) i)).toNat).getD 0))) ∧
       ((∃ j < 16, (s.pl (DRV_STR_CFG2_EN d)).testBit j = true ∧ s.strNfit d < s.pl (DRV_STR_MAP_COUNT d j)) →
         t.rd (DRV_CNT_STR_TRUNC d) = min (s.rd (DRV_CNT_STR_TRUNC d) + 1) 65535 ∧ t.flag (0x28 + d) 6 = true) ∧ SidesKept s t ∧
       RegsKept (keysOf [DRV_CNT_STR_TRUNC d]) s t ∧ WordsKept (fun _ => false) s t ∧ (s.quietMem → t.mem = s.mem)))

/-- A line slot of a bank that drives: a row that is present is driven and ends the run of underruns, one that is not stays dark and is
counted; with LHM off no lamp's state changes. A switch found stuck on turns the bank off, and a command that waits for the die's line
slot takes effect in it. -/
def Obligations.LineSlots : Prop :=
  ∀ (s : State) (d : Fin 4) (r : LineReport), s.Inv → s.scan.banks.length = 4 →
    let row := if s.pl SCN_PLAN_ROW_ORDER = 1 then rho (s.pl SCN_PLAN_M_M1 + 1) r.slot.toNat else r.slot.toNat
    let feed := s.rd WTU_FRAME_FEED
    (s.pl SCN_PLAN_M_M1 < r.slot.toNat ∨ s.pl SCN_PLAN_S_M1 < r.sub.toNat → exec (.lineSlotStart d r) s = .next s) ∧
    (r.slot.toNat ≤ s.pl SCN_PLAN_M_M1 → r.sub.toNat ≤ s.pl SCN_PLAN_S_M1 →
      (s.drives d = false →
        (s.health.cmd = none → exec (.lineSlotStart d r) s = .next s) ∧
        ∀ c, s.health.cmd = some c → keyBank c.2 = d.val → s.blkOn 0x23 = true →
          ∃ t, exec (.lineSlotStart d r) s = .next t ∧ t.health.cmd = none ∧ (c.1 = 0 → (t.lamp c.2).st = 0 ∧ (t.lamp c.2).mask = false) ∧
            (c.1 = 1 → (t.lamp c.2).st = 2 ∧ (t.lamp c.2).mask = true ∧ t.flag 0x23 4 = true) ∧
            (c.1 = 2 → t.health.retest.contains c.2 = true) ∧
            (c.1 = 3 → (t.drvBank d).stuck = false ∧ (t.health.cur.rows.getD d 0).testBit (keyRow c.2) = false ∧
              (t.health.cur.cols.getD d 0).testBit (keyCh c.2) = false) ∧ SidesKept s t ∧
            RegsKept (fun k => pagesOf [0x23] k || k == NVS_SAVE_DIRTY.key) s t ∧ WordsKept (fun i => decide (0x600000 ≤ i)) s t ∧
            (s.quietMem → t.mem = s.mem)) ∧
      (s.drives d = true → s.health.cmd = none →
        (∀ q, r.stuckRow = some q → (s.drvBank d).stuck = false → ∃ t, exec (.lineSlotStart d r) s = .next t ∧
          (t.drvBank d).stuck = true ∧ t.on (DRV_STAT_OUT_ON d) = false ∧ t.rd (DRV_STAT_OFF_WHY d) = 13 ∧ t.flag 0x23 8 = true ∧
          SidesKept s t ∧ RegsKept (pagesOf [0x22, 0x23, 0x28 + d.val]) s t ∧ WordsKept (fun _ => false) s t ∧ (s.quietMem → t.mem = s.mem)) ∧
        (r.stuckRow = none →
          (r.rowPresent = false → r.slot ≠ 0 → ∃ t, exec (.lineSlotStart d r) s = .next t ∧
            (t.drvBank d).under = (s.drvBank d).under + 1 ∧ t.rd (DRV_CNT_UNDERRUN d) = min (s.rd (DRV_CNT_UNDERRUN d) + 1) 65535 ∧
            RegsKept (keysOf [DRV_CNT_UNDERRUN d]) s t ∧ t.win = s.win ∧ t.mem = s.mem ∧ t.out = s.out ∧ t.sides = s.sides) ∧
          (r.rowPresent = true → ∃ t, exec (.lineSlotStart d r) s = .next t ∧ (t.drvBank d).under = 0 ∧
            Sent s t (.row d row (s.rowDrive d feed r.sub.toNat r.slot.toNat
              (((s.slotPulses d feed row r.sub.toNat).1.filter fun p => p.2.2.1 + p.2.2.2 != 0).map fun p => (p.1, p.2.2.1, p.2.2.2))
              ((s.slotProbes d row r.sub.toNat).map keyCh))) ∧
            (s.blkOn 0x23 = false → t.health.cur = s.health.cur ∧ RegsKept (pagesOf [0x22, 0x28 + d.val]) s t ∧
              WordsKept (fun _ => false) s t) ∧ SidesKept s t ∧
            RegsKept (fun k => pagesOf [0x22, 0x23, 0x28 + d.val] k || k == NVS_SAVE_DIRTY.key) s t ∧
            WordsKept (fun i => decide (0x600000 ≤ i)) s t ∧ (s.quietMem → t.mem = s.mem)))))

/-! ### Rail control (12) -/

/-- R232: every output word of a loop, from the law and from a profile alike, lies between FLOOR_U and CEIL_U. -/
def Obligations.OutputWordsAreClamped : Prop :=
  ∀ (s : State) (k : Fin 8), s.Inv → s.rd (RCE_LOOP_LIM_CEIL_U k) < 65536 → s.rd (RCE_LOOP_LIM_FLOOR_U k) < 65536 →
    let lo := min (s.rd (RCE_LOOP_LIM_CEIL_U k)) (s.rd (RCE_LOOP_LIM_FLOOR_U k))
    let hi := max (s.rd (RCE_LOOP_LIM_CEIL_U k)) (s.rd (RCE_LOOP_LIM_FLOOR_U k))
    (∀ (dt cost : Nat) (late : Bool), ∃ t, exec (.rceSample k dt cost late) s = .next t ∧
      (t.rd (RCE_LOOP_STAT_OUT_U k) = s.rd (RCE_LOOP_STAT_OUT_U k) ∨
        lo ≤ t.rd (RCE_LOOP_STAT_OUT_U k) ∧ t.rd (RCE_LOOP_STAT_OUT_U k) ≤ hi) ∧ SidesKept s t ∧
      RegsKept (pagesOf [1, 7]) s t ∧ WordsKept (fun _ => false) s t ∧ (s.quietMem → t.mem = s.mem)) ∧
    ∀ jerk : Int, (s.loop k).moving = true → s.blkOn 7 = true →
      (s.rd (RCE_LOOP_STAT_STATE k) = 1 ∨ s.rd (RCE_LOOP_STAT_STATE k) = 4 ∨ s.rd (RCE_LOOP_STAT_STATE k) = 5) →
      ∃ t, exec (.profileUpdate k jerk) s = .next t ∧ lo ≤ t.rd (RCE_LOOP_STAT_OUT_U k) ∧ t.rd (RCE_LOOP_STAT_OUT_U k) ≤ hi ∧
        (lo ≤ s.profWord k (t.loop k).pos → s.profWord k (t.loop k).pos ≤ hi →
          (t.rd (RCE_LOOP_STAT_OUT_U k) : Int) = s.profWord k (t.loop k).pos ∧ t.on (RCE_LOOP_STAT_SAT k) = false) ∧
        (t.loop k).moving = !s.profArrives k ∧
        (s.profArrives k = true → t.flag 7 10 = true ∧ (t.loop k).pos = s.wordPos k (s.profGoal k) ∧ (t.loop k).vel = 0) ∧
        (s.profArrives k = false → (t.loop k).pos = (s.loop k).pos + (t.loop k).vel ∧
          (t.loop k).vel.natAbs ≤ 100 * s.rd (RCE_LOOP_PROF_VMAX k) ∧ (t.loop k).acc = (t.loop k).vel - (s.loop k).vel) ∧
        SidesKept s t ∧ RegsKept (pagesOf [1, 7]) s t ∧ WordsKept (fun _ => false) s t ∧ (s.quietMem → t.mem = s.mem)

/-- Samples, the hold limit and monitor faults: an overrun is counted and the third in a row means SAFE; a sample with no conducting
channel is empty and leaves the output; a valid one in RUN shows its feedback. HOLD that lasts, or three failed PMBus writes, mean SAFE
with its reason. -/
def Obligations.LoopStates : Prop :=
  ∀ (s : State) (k : Fin 8), s.Inv →
    (s.on (RCE_LOOP_CFG_EN k) = false ∨ s.rd (RCE_LOOP_CFG_KIND k) ≠ 1 ∨ s.blkOn 7 = false ∨ s.rd (RCE_LOOP_STAT_STATE k) = 0 →
      ∀ (dt cost : Nat) (late : Bool), exec (.rceSample k dt cost late) s = .next s) ∧
    (∀ dt cost : Nat, s.on (RCE_LOOP_CFG_EN k) = true → s.rd (RCE_LOOP_CFG_KIND k) = 1 → s.blkOn 7 = true →
      s.rd (RCE_LOOP_STAT_STATE k) ≠ 0 →
      (∃ t, exec (.rceSample k dt cost true) s = .next t ∧ t.flag 7 7 = true ∧ (t.loop k).overs = (s.loop k).overs + 1 ∧
        t.rd (RCE_LOOP_CNT_OVERRUN k) = min (s.rd (RCE_LOOP_CNT_OVERRUN k) + 1) (2 ^ (RCE_LOOP_CNT_OVERRUN k).w - 1) ∧
        (2 ≤ (s.loop k).overs → s.rd (RCE_LOOP_STAT_STATE k) ≠ 4 →
          t.rd (RCE_LOOP_STAT_STATE k) = 4 ∧ t.rd (RCE_LOOP_STAT_SAFE_WHY k) = 3 ∧ t.flag 7 5 = true)) ∧
      (s.on RCE_CTRL_MODE = false → (s.loop k).fb = none → ∃ t, exec (.rceSample k dt cost false) s = .next t ∧
        t.rd (RCE_LOOP_CNT_EMPTY k) = min (s.rd (RCE_LOOP_CNT_EMPTY k) + 1) (2 ^ (RCE_LOOP_CNT_EMPTY k).w - 1) ∧
        t.rd (RCE_LOOP_STAT_OUT_U k) = s.rd (RCE_LOOP_STAT_OUT_U k) ∧ (t.loop k).integ = (s.loop k).integ ∧
        (s.rd (RCE_LOOP_STAT_STATE k) = 2 → s.on SCN_STAT_LIT = false ∨ 50000000 * 65536 ≤ (s.loop k).emptyT + dt →
          t.rd (RCE_LOOP_STAT_STATE k) = 3 ∧ t.flag 7 4 = true)) ∧
      ∀ fb, (s.loop k).fb = some fb → (s.loop k).fbDone = true → s.on SCN_STAT_LIT = true → ∃ t,
        exec (.rceSample k dt cost false) s = .next t ∧ t.rd (RCE_LOOP_STAT_FB k) = min fb 4095 ∧
        (s.rd (RCE_LOOP_STAT_STATE k) = 2 ∨ s.rd (RCE_LOOP_STAT_STATE k) = 3 ∨
          (s.rd (RCE_LOOP_STAT_STATE k) = 1 ∧ 15 ≤ (s.loop k).valid) → t.rd (RCE_LOOP_STAT_STATE k) = 2) ∧
        (s.rd (RCE_LOOP_STAT_STATE k) = 1 → (s.loop k).valid < 15 → t.rd (RCE_LOOP_STAT_STATE k) = 1 ∧
          (t.loop k).valid = (s.loop k).valid + 1)) ∧
    ((s.loop k).holdT < s.rd RCE_CTRL_HOLD_LIMIT_MS * 1000000 * 65536 → exec (.holdLimit k) s = .next s) ∧
    (s.rd (RCE_LOOP_STAT_STATE k) = 3 → s.on SCN_STAT_LIT = true →
      s.rd RCE_CTRL_HOLD_LIMIT_MS * 1000000 * 65536 ≤ (s.loop k).holdT → ∃ t, exec (.holdLimit k) s = .next t ∧
      t.rd (RCE_LOOP_STAT_STATE k) = 4 ∧ t.rd (RCE_LOOP_STAT_SAFE_WHY k) = 1 ∧ t.flag 7 5 = true ∧ (t.loop k).moving = true ∧
      t.rd (RCE_LOOP_CNT_SAFES k) = min (s.rd (RCE_LOOP_CNT_SAFES k) + 1) (2 ^ (RCE_LOOP_CNT_SAFES k).w - 1) ∧ SidesKept s t ∧
      RegsKept (keysOf [RCE_LOOP_STAT_SAFE_WHY k, RCE_LOOP_STAT_STATE k, RCE_LOOP_CNT_SAFES k]) s t ∧ WordsKept (fun _ => false) s t ∧
      (s.quietMem → t.mem = s.mem)) ∧
    (∃ t, exec (.pmbusTimeout k) s = .next t ∧ t.flag 7 11 = true ∧ (t.loop k).pmbSent = false ∧
      (t.loop k).pmb = (if (s.loop k).pmb = 2 then 0 else (s.loop k).pmb + 1) ∧
      t.rd (RCE_LOOP_CNT_MON k) = min (s.rd (RCE_LOOP_CNT_MON k) + 1) (2 ^ (RCE_LOOP_CNT_MON k).w - 1) ∧
      ((s.loop k).pmb = 2 → t.flag 7 8 = true ∧ (s.rd (RCE_LOOP_STAT_STATE k) ≠ 0 → s.rd (RCE_LOOP_STAT_STATE k) ≠ 4 →
        t.rd (RCE_LOOP_STAT_STATE k) = 4 ∧ t.rd (RCE_LOOP_STAT_SAFE_WHY k) = 2)) ∧
      RegsKept (keysOf [RCE_LOOP_STAT_SAFE_WHY k, RCE_LOOP_STAT_STATE k, RCE_LOOP_CNT_SAFES k, RCE_LOOP_CNT_MON k]) s t ∧
      WordsKept (fun _ => false) s t ∧ (s.quietMem → t.mem = s.mem)) ∧
    (s.rail.pmbus ≠ [] → ∃ t e, e ∈ s.rail.pmbus ∧ exec .pmbusWrite s = .next t ∧
      Sent s t (.pmbus e.1 (s.rd RCE_PMB_SPEED) (s.on RCE_PMB_PEC) (s.rd (RCE_LOOP_CFG_PMB_ADDR e.1))
        (if s.rd (RCE_LOOP_CFG_PMB_PAGE e.1) = 255 then none else some (s.rd (RCE_LOOP_CFG_PMB_PAGE e.1))) e.2) ∧
      (∀ x, x ∈ t.rail.pmbus ↔ x ∈ s.rail.pmbus ∧ x.1 ≠ e.1) ∧ t.rail.served = e.1 ∧ t.live = s.live ∧ t.win = s.win ∧ t.mem = s.mem)

/-! ### Housekeeping, thermal management and Self-Trim (13) -/

/-- A housekeeping round: its start notes the instant (and HOLD_S in HOLDOVER), its readings show in CH, ROUND names it, and with valid
diodes T_MAX and the level follow the hottest. -/
def Obligations.HousekeepingRounds : Prop :=
  ∀ s : State, s.Inv →
    (∀ n : Nat, ∃ t, exec (.housekeepingRound n) s = .next t ∧ t.house.roundAt = n ∧ t.wtu.wt = n ∧
      (s.rd WTU_SRC_STAT_STATE = 3 → t.rd WTU_SRC_STAT_HOLD_S = min (2 ^ 19 - 1) ((n - s.wtu.holdAt) / 65536000000000)) ∧
      (s.ctl.tasks.delayed = [] → s.ctl.tasks.ready = [] → ∀ c < 7, s.ctl.tasks.busy.getD c 0 = 0 →
        (s.ctl.tasks.run.getD c none = none → t.rd (CCC_LOAD_LOAD c) = 0) ∧
        ((s.ctl.tasks.run.getD c none).isSome = true → n / 65536000 = s.ctl.tasks.now + 10000 → t.rd (CCC_LOAD_LOAD c) = 255)) ∧
      RegsKept (keysOf ([WTU_SRC_STAT_HOLD_S, WTU_SRC_STAT_OFFSET_NS, CCC_CNT_DISPATCH, CCC_CNT_MIGRATE, CCC_TRACE_STAT_WPTR,
        CCC_TRACE_STAT_WRAPPED] ++ (List.range 7).map CCC_LOAD_LOAD)) s t ∧ WordsKept (fun _ => false) s t ∧ t.mem = s.mem ∧
      t.out = s.out ∧ t.sides = s.sides) ∧
    ∀ (measured : List Int) (tach : List Nat) (late : BitVec 8), let readings := (List.range 20).map fun k => s.chReading k (measured.getD k 0)
      ∃ t, exec (.hkRoundPublish measured tach late) s = .next t ∧
      (∀ k < 18, t.rd (HKT_CH_VALUE k) = ofSigned 16 (measured.getD k 0) % 65536 ∧
        t.rd (HKT_CH_VALID k) = b2n (s.chValid k (measured.getD k 0))) ∧
      (∀ k < 20, 18 ≤ k → t.rd (HKT_CH_VALUE k) = ofSigned 16 (readings.getD k 0) % 65536 ∧
        t.rd (HKT_CH_VALID k) = b2n (s.chValid k (readings.getD k 0) && decide (0 < measured.getD k 0))) ∧
      t.rd HKT_ROUND_INDEX = s.house.roundAt / 65536 % 1000000000 / 10000000 ∧
      t.rd HKT_ROUND_SEC = s.house.roundAt / 65536 / 1000000000 % 2 ^ HKT_ROUND_SEC.w ∧
      (s.isTile = true → s.house.level = 0 → t.house.level = 0 →
        t.rd HKT_STAT_THR_OUT = min 65536 (s.rd HKT_STAT_THR_OUT + s.rd HKT_THR_THR_RISE)) ∧
      (∀ (x : Int) (k : Nat), k < 5 → readings.getD k 0 = x → (∀ j < 5, s.chValid j (readings.getD j 0) = true ∧ readings.getD j 0 ≤ x) →
        s.rd HKT_STAT_DFAULT = 0 → s.rd HKT_THRESH_WARN_C ≤ s.rd HKT_THRESH_THROTTLE_C →
        t.tMax = x ∧ ((s.rd HKT_THRESH_THROTTLE_C : Int) * 128 ≤ x → t.house.level = 2) ∧
        (x < ((s.rd HKT_THRESH_WARN_C : Int) - s.rd HKT_THRESH_HYST_C) * 128 → t.house.level = 0) ∧
        ((s.rd HKT_THRESH_SHUTDOWN_C : Int) * 128 ≤ x → t.house.shut = true)) ∧ SidesKept s t ∧
      RegsKept (orKeys (pagesOf ([1, 5, 7, 8, 0x21] ++ lampPages)) (keysOf [NVS_SAVE_SAVING])) s t ∧ WordsKept (fun _ => false) s t ∧ (s.quietMem → t.mem = s.mem)

/-- Throttling of a tile: the request is repeated as an event; when the grace time ends the local cap applies to THR. A comparator trips: shutdown begins, every lamp of a tile is dark, MRAM operations end, the trip is recorded and counted and
reported; the grace time ends in thermal STANDBY. -/
def Obligations.ThrottlingAndShutdown : Prop :=
  (∀ s : State, s.isTile = true →
     (2 ≤ s.rd HKT_STAT_LEVEL → ∃ t ws, exec .throttleReqRepeat s = .next t ∧ Sent s t (.event true ws) ∧ ws.length = 3 ∧
       (ws.getD 0 0).toNat % 65536 = 0x8004 ∧ t.house = s.house ∧ SidesKept s t ∧
       RegsKept (fun _ => false) s t ∧ WordsKept (fun _ => false) s t ∧ (s.quietMem → t.mem = s.mem)) ∧
     (s.rd HKT_STAT_LEVEL < 2 → exec .throttleReqRepeat s = .next s) ∧
     (10 < s.rd HKT_STAT_GRACE_LEFT_MS → exec .graceExpire s = .next s) ∧
     (s.house.level = 2 → s.house.graceOver = false → s.rd HKT_STAT_GRACE_LEFT_MS ≤ 10 → ∃ t, exec .graceExpire s = .next t ∧
       t.rd HKT_STAT_THR_OUT = min (s.rd HKT_STAT_THR_OUT) s.throttleR ∧ t.rd HKT_STAT_CAP = 1 ∧ t.rd HKT_STAT_GRACE_LEFT_MS = 0 ∧
       t.rd HKT_CNT_CAPS = min (s.rd HKT_CNT_CAPS + 1) (2 ^ HKT_CNT_CAPS.w - 1) ∧ t.flag 5 6 = true ∧ t.house.graceOver = true ∧ SidesKept s t ∧
       RegsKept (keysOf [HKT_STAT_THR_OUT, HKT_STAT_CAP, HKT_STAT_GRACE_LEFT_MS, HKT_CNT_CAPS]) s t ∧ WordsKept (fun _ => false) s t ∧
       (s.quietMem → t.mem = s.mem))) ∧
  (∀ s : State, s.Inv →
     (∀ (k : Fin 5) (ab : Bool), s.diodeAbsent k = false → s.house.shut = false → ∃ t, exec (.comparatorTrip k ab) s = .next t ∧
       t.house.shut = true ∧ t.house.standby = false ∧ t.nvs.ops = [] ∧ t.rd HKT_STAT_LEVEL = 3 ∧ t.flag 5 7 = true ∧
       t.rd HKT_CNT_SHUTDOWN = min (s.rd HKT_CNT_SHUTDOWN + 1) (2 ^ HKT_CNT_SHUTDOWN.w - 1) ∧ t.on HKT_SHUT_STAT_VALID = true ∧
       (s.on HKT_SHUT_STAT_VALID = false → t.rd HKT_SHUT_STAT_CAUSE = (if ab then 3 else 1) ∧ t.rd HKT_SHUT_STAT_SENSOR = k.val) ∧
       (s.on HKT_SHUT_STAT_VALID = true → t.rd HKT_SHUT_STAT_CAUSE = s.rd HKT_SHUT_STAT_CAUSE ∧
         t.rd HKT_SHUT_STAT_SENSOR = s.rd HKT_SHUT_STAT_SENSOR) ∧
       (s.isTile = true → (∀ d < 4, t.on (DRV_STAT_OUT_ON d) = false) ∧ t.rd SCN_STAT_DARK_WHY = 5) ∧
       (s.isTile = true → ∃ ws, Sent s t (.event true ws) ∧ (ws.getD 0 0).toNat % 65536 = 0x8005) ∧ SidesKept s t ∧
       RegsKept (fun x => pagesOf ([5] ++ lampPages) x || keysOf [NVS_SAVE_SAVING, LCP_AGE_STAT_SAVING] x) s t ∧
       WordsKept (fun _ => false) s t ∧ (s.quietMem → t.mem = s.mem)) ∧
     (s.house.shut = true → s.house.standby = false → ∃ t, exec .shutdownGraceEnd s = .next t ∧ t.house.standby = true ∧
       t.rd NVS_POWER_STATE = 2 ∧ t.rd NVS_POWER_FRAME = s.frame % 2 ^ NVS_POWER_FRAME.w ∧
       (s.nvs.recBusy = true → t.nvs.recBusy = false ∧ (s.house.recorded = true → t.rd HKT_SHUT_STAT_MRAM = 3)) ∧
       RegsKept (keysOf [NVS_POWER_STATE, NVS_POWER_FRAME, HKT_SHUT_STAT_MRAM]) s t ∧ t.win = s.win ∧ t.mem = s.mem ∧ t.out = s.out ∧
       t.sides = s.sides))

/-- R253 with its surroundings. A Self-Trim cycle of any target: in a block or target that is off nothing happens, at level THROTTLE it is
skipped. A result is refused, and the old value kept, with too few samples or edges, too large a step, a value outside its range, or too
much drift; each refusal is counted and raises TRIM_REFUSED. A result of HI, LO or DLY that is not refused is stale where its cycle began
before a host write of the item, and staged for a tick otherwise. -/
def Obligations.SelfTrimCycles : Prop :=
  ∀ (s : State) (r : TrimResult),
    let tg := r.target.toNat
    let key := trimKey tg (if tg = 3 then r.die.toNat % 2 else r.die.toNat) r.index.toNat
    let e := if tg < 2 then nearest (16 * ((r.neg : Int) - r.pos)) (r.pos + r.neg)
      else Config.dlyStep r.pos (16 * 256 * r.index.toNat)
    let v := (s.house.trim.get key).toInt + e
    let got := if tg < 2 then r.pos + r.neg else r.edges
    let least := if tg < 2 then s.rd STR_LIM_MIN_SAMP else s.rd STR_LIM_MIN_EDGES
    let most := if tg = 0 then s.rd STR_LIM_MAX_STEP_HI else if tg = 1 then s.rd STR_LIM_MAX_STEP_LO else s.rd STR_LIM_MAX_STEP_DLY
    let lo : Int := if tg < 2 then -64 else -32
    let hi : Int := if tg < 2 then 63 else 31
    (s.blkOn 6 = false ∨ (s.rd STR_CTRL_EN).testBit tg = false ∨ (tg < 3 ∧ s.on (DRV_STAT_PRESENT r.die.toNat) = false) →
      exec (.trimCycle r) s = .next s) ∧
    (s.blkOn 6 = true → (s.rd STR_CTRL_EN).testBit tg = true → (tg < 3 → s.on (DRV_STAT_PRESENT r.die.toNat) = true) →
      (2 ≤ s.rd HKT_STAT_LEVEL → exec (.trimCycle r) s = .next (s.bump STR_CNT_SKIPPED)) ∧
      (s.rd HKT_STAT_LEVEL < 2 →
        (5 < r.tempMovedC ∨ (tg < 3 ∧ (got < least ∨ most < e.natAbs ∨ v < lo ∨ hi < v)) →
          ∃ t, exec (.trimCycle r) s = .next t ∧ t.flag 6 5 = true ∧ t.house = s.house ∧
            t.rd STR_CNT_REFUSED = min (s.rd STR_CNT_REFUSED + 1) (2 ^ STR_CNT_REFUSED.w - 1) ∧
            RegsKept (keysOf [STR_CNT_REFUSED]) s t ∧ WordsKept (fun _ => false) s t ∧ (s.quietMem → t.mem = s.mem)) ∧
        (tg < 3 → r.tempMovedC ≤ 5 → least ≤ got → e.natAbs ≤ most → lo ≤ v → v ≤ hi →
          ((∃ n, (key, n) ∈ s.house.hostAt ∧ r.startedAt < n) → ∃ t, exec (.trimCycle r) s = .next t ∧ t.flag 6 6 = true ∧
            t.house = s.house ∧ RegsKept (keysOf [STR_CNT_STALE]) s t ∧ WordsKept (fun _ => false) s t ∧ (s.quietMem → t.mem = s.mem)) ∧
          ((∀ n, (key, n) ∈ s.house.hostAt → n ≤ r.startedAt) → ∃ t x, exec (.trimCycle r) s = .next t ∧ x ∈ t.house.staged ∧
            x.key = key ∧ x.val.toInt = v ∧ x.late = s.latchDone ∧ t.house.trim = s.house.trim ∧ t.live = s.live ∧ t.win = s.win ∧
            t.mem = s.mem ∧ t.out = s.out)) ∧
        (tg = 3 → r.tempMovedC ≤ 5 → (r.gain < s.rd STR_LIM_EYE_GAIN ∨ r.step = 0 → exec (.trimCycle r) s = .next s) ∧
          (r.index.toNat < 5 → s.laneUp (r.die.toNat % 2) r.index.toNat = true → s.rd STR_LIM_EYE_GAIN ≤ r.gain → 0 < r.step → r.pos = 0 →
            s.rd (QP_LANE_STAT_PEAK (r.die.toNat % 2) r.index.toNat) < 31 → (∀ n, (key, n) ∈ s.house.hostAt → n ≤ r.startedAt) →
            ∃ t x, exec (.trimCycle r) s = .next t ∧ x ∈ t.house.staged ∧ x.key = key ∧
              x.val.toNat = s.rd (QP_LANE_STAT_PEAK (r.die.toNat % 2) r.index.toNat) + 1 ∧ t.live = s.live ∧ t.win = s.win ∧
              t.mem = s.mem ∧ t.out = s.out))))

/-! ### Queues, mailbox, events, scheduled commits, policy (14) -/

/-- Plain mailbox requests that a control core takes: each is answered with OK and what it asks for, and changes nothing else than
EVENT_MASK changes the mask. A control core that already holds 16 requests answers BUSY, and the request has no other effect. -/
def Obligations.MailboxAnswers : Prop :=
  (∀ (s : State) (r : Req), s.heldReqs < 16 →
     (∀ c, s.upd.running = some c → ∃ t, exec (.info r) s = .next t ∧
       Answered s t r 1 0 [c.fwVer.toNat, c.seq.toNat, s.role, s.node, s.ring] ∧ Kept (fun _ => false) s t) ∧
     (s.upd.running = none → ∃ t a b, exec (.info r) s = .next t ∧ Answered s t r 1 0 [a, b, s.role, s.node, s.ring] ∧ a < 2 ^ 32 ∧
       Kept (fun _ => false) s t) ∧
     (∀ ws : List Word, ∃ t, exec (.echo r ws) s = .next t ∧ Answered s t r 2 0 (ws.map BitVec.toNat) ∧ Kept (fun _ => false) s t) ∧
     (∀ m : Word, ∃ t, exec (.eventMask r m) s = .next t ∧ t.evtMask = m ∧ Answered s t r 0x50 0 [] ∧ Kept (fun _ => false) s t) ∧
     (∀ st : BitVec 12, let n := (s.rd NVS_LEDGER_WPTR + 4096 - st.toNat) % 4096
       let m := if n = 0 ∧ s.on NVS_LEDGER_WRAPPED = true then 4096 else n
       ∃ t body, exec (.ledgerRead r st) s = .next t ∧ Answered s t r 0x60 0 body ∧ body.length = 2 * m ∧
       (∀ i < m,
         body.getD (2 * i) 0 = (s.nvs.ledger.get ((st.toNat + i) % 4096)).toNat % 2 ^ 64 ∧
         body.getD (2 * i + 1) 0 = (s.nvs.ledger.get ((st.toNat + i) % 4096)).toNat / 2 ^ 64) ∧ Kept (fun _ => false) s t) ∧
     (∀ id : BitVec 16, (∀ p ∈ s.nvs.policy, p.id ≠ id) → ∃ t, exec (.policyRead r id) s = .next t ∧ Answered s t r 0x21 5 [] ∧
       Kept (fun _ => false) s t) ∧
     (∀ p ∈ s.nvs.policy, ∃ t q, exec (.policyRead r p.id) s = .next t ∧ q ∈ s.nvs.policy ∧ q.id = p.id ∧
       Answered s t r 0x21 0 ([q.id.toNat + q.version.toNat * 65536 + q.length.toNat * 2 ^ 32] ++ q.body.map BitVec.toNat ++ [q.crc.toNat]) ∧
       Kept (fun _ => false) s t) ∧
     ∀ sd : Fin 2, ∃ t a b c, exec (.arbStatus r sd) s = .next t ∧ Answered s t r 0x90 0 [a, b, c] ∧
       a % 2 ^ 32 = s.rd (ARB_EPOCH_EPOCH (s.arbIdx sd)) % 2 ^ 32 ∧ Kept (fun _ => false) s t) ∧
  (∀ (s : State) (r : Req) (ws : List Word) (a b c : Word) (f : BitVec 48) (p : PolicyTable) (sd : Fin 2) (n : Nat), 16 ≤ s.heldReqs →
     ∀ e ∈ [(Instr.info r, 1), (.echo r ws, 2), (.eventMask r a, 0x50), (.ledgerRead r 0, 0x60), (.policyLoad r a p, 0x20),
         (.policyRead r p.id, 0x21), (.schedCommit r f b c, 0x10), (.schedCommitArm r f b, 0x10), (.schedCancel r f c, 0x11),
         (.cancelReceive r f, 0x11), (.arbStatus r sd, 0x90), (.swap r sd f n, 0x91), (.take r sd, 0x93), (.rehearse r sd n, 0x92),
         (.power r 1, 0x30), (.bulkRead r 0 0 1, 0x40), (.bulkWrite r 0 0 [0], 0x41), (.updStatus r, 0x71), (.activate r 0 f true a, 0x72),
         (.confirm r 0, 0x73), (.fallback r 0, 0x74), (.enroll r 1 n a n n, 0x75), (.revoke r 1 a n n, 0x76), (.peers r [], 0x77),
         (.abort r 0, 0x78), (.recMode r 1 a, 0x80), (.recTrigger r f a, 0x81), (.replay r, 0x82)],
       ∃ t, exec e.1 s = .next t ∧ Answered s t r e.2 6 [] ∧ t.commits = s.commits ∧ t.arb = s.arb ∧ t.nvs = s.nvs ∧ t.upd = s.upd ∧
         t.recd.armed = s.recd.armed ∧ t.evtMask = s.evtMask ∧ Kept (fun _ => false) s t)

/-- Messages from other nodes, lost events and wake timeouts: a message is taken whole where its queue has room and refused with FULL
where it has none; the count of lost events goes out as one event. The scheduler: a wait that times out is counted, traced and raised, and
its task made ready; a ready task runs on the core that last ran it, or goes to an idle one when AFF_US is over; a core whose task waits, sleeps or
ends is free. -/
def Obligations.QueuesAndEvents : Prop :=
  ∀ s : State, s.Inv →
    (∀ (q : BitVec 12) (src : BitVec 18) (id : BitVec 12) (body : List Word),
      (s.qRoom q.toNat body.length = true → q ≠ 2 → q ≠ 0 ∨ (s.queue 0).used ≠ 0 ∨ listedCmd ((body.getD 0 0).toNat % 65536) = true → ∃ t, exec (.proxyMessageReceive q src id body) s = .next t ∧
        (t.queue q.toNat).tail = ((s.queue q.toNat).tail + body.length) % (2 * (s.queue q.toNat).size) ∧
        (t.queue q.toNat).head = (s.queue q.toNat).head ∧ (q = 1 → t.flag 2 4 = true) ∧ Kept (fun _ => false) s t) ∧
      (q = 0 → body ≠ [] → s.qRoom 0 body.length = true → (s.queue 0).used = 0 → listedCmd ((body.getD 0 0).toNat % 65536) = false →
        ∃ t, exec (.proxyMessageReceive q src id body) s = .next t ∧ Answered s t ⟨src, id⟩ ((body.getD 0 0).toNat % 65536) 4 [] ∧
          (src.toNat ≠ s.node * 4096 → (t.queue 0).used = 0) ∧ Kept (fun _ => false) s t) ∧
      (s.qRoom q.toNat body.length = false → ∃ t, exec (.proxyMessageReceive q src id body) s = .next t ∧
        t.rd QEN_CNT_FULL = min (s.rd QEN_CNT_FULL + 1) (2 ^ QEN_CNT_FULL.w - 1) ∧ Answered s t ⟨src, id⟩ ((body.getD 0 0).toNat % 65536) 12 [] ∧
        Kept (keysOf [QEN_CNT_FULL]) s t)) ∧
    (s.ctl.lost = 0 ∨ s.qRoom 2 3 = false → exec (.evtOverflow 2) s = .next s) ∧
    (s.isTile = false → 0 < s.ctl.lost → s.qRoom 2 3 = true → s.evtPass 0x800B = true → s.trigCode 0x800B = false →
      ∃ t ws, exec (.evtOverflow 2) s = .next t ∧ Sent s t (.event false ws) ∧ (ws.getD 0 0).toNat % 65536 = 0x800B ∧
        (ws.getD 2 0).toNat = min s.ctl.lost 65535 ∧ t.ctl.lost = 0 ∧ Kept (fun _ => false) s t) ∧
    ∀ (task : BitVec 16) (us : Nat),
      let x := s.ctl.tasks
      let own := keysOf [CCC_CNT_WAKE_TMO, CCC_CNT_DISPATCH, CCC_CNT_MIGRATE, CCC_TRACE_STAT_WPTR, CCC_TRACE_STAT_WRAPPED]
      x.now ≤ us → x.delayed = [] → x.ready = [] →
      (∀ w ∈ x.waits, w.task.core < 7 → w.task.id = task.toNat → w.until_ ≤ us → (∀ v ∈ x.waits, v.task.id = task.toNat → v = w) →
        ∃ t, exec (.taskWakeTimeout [] task us) s = .next t ∧ t.flag 1 6 = true ∧ w ∉ t.ctl.tasks.waits ∧
          t.rd CCC_CNT_WAKE_TMO = min (s.rd CCC_CNT_WAKE_TMO + 1) (2 ^ CCC_CNT_WAKE_TMO.w - 1) ∧
          (x.run.getD w.task.core none = none → t.ctl.tasks.run.getD w.task.core none = some w.task) ∧
          (s.on CCC_TRACE_EN = true → (s.rd CCC_TRACE_MASK).testBit 4 = true → s.on CCC_TRACE_STAT_FROZEN = false →
            (t.word (0xB00000 + s.rd CCC_TRACE_STAT_WPTR)).toNat = us % 2 ^ 24 + w.task.core * 2 ^ 24 + w.task.id % 65536 * 2 ^ 27
              + w.qn % 2 ^ 18 * 2 ^ 43 + w.task.prio % 8 * 2 ^ 61 + 5 * 2 ^ 64) ∧ Kept own s t) ∧
      ((∀ w ∈ x.waits, w.task.id ≠ task.toNat) →
        (∀ (id : BitVec 16) (prio : BitVec 3) (core : Fin 7), x.run.getD core none = none →
          ∃ t, exec (.taskWakeTimeout [(us, .start id prio core)] task us) s = .next t ∧
            t.ctl.tasks.run.getD core none = some ⟨id.toNat, prio.toNat, core.val⟩ ∧
            t.rd CCC_CNT_DISPATCH = min (s.rd CCC_CNT_DISPATCH + 1) (2 ^ CCC_CNT_DISPATCH.w - 1) ∧ t.ctl.tasks.waits = x.waits ∧ Kept own s t) ∧
        (∀ (id : BitVec 16) (prio : BitVec 3) (core : Fin 7), (x.run.getD core none).isSome = true →
          (s.rd CCC_SCHED_AFF_US ≠ 0 → ∃ t, exec (.taskWakeTimeout [(us, .start id prio core)] task us) s = .next t ∧
            t.ctl.tasks.ready = [⟨⟨id.toNat, prio.toNat, core.val⟩, us + s.rd CCC_SCHED_AFF_US⟩] ∧ t.ctl.tasks.run = x.run ∧ Kept own s t) ∧
          ∀ k, s.rd CCC_SCHED_AFF_US = 0 → x.idle = some k →
            ∃ t, exec (.taskWakeTimeout [(us, .start id prio core)] task us) s = .next t ∧
              t.ctl.tasks.run.getD k none = some ⟨id.toNat, prio.toNat, k⟩ ∧
              t.rd CCC_CNT_MIGRATE = min (s.rd CCC_CNT_MIGRATE + 1) (2 ^ CCC_CNT_MIGRATE.w - 1) ∧ Kept own s t) ∧
        ∀ core : Fin 7, ∀ a, x.run.getD core none = some a →
          (∀ (qn : BitVec 18) (ms : BitVec 14), a.id ≠ task.toNat → ∃ t,
            exec (.taskWakeTimeout [(us, .wait core qn ms)] task us) s = .next t ∧ t.ctl.tasks.run.getD core none = none ∧
            t.ctl.tasks.waits = x.waits ++ [⟨a, qn.toNat, us + 1000 * min ms.toNat (s.rd CCC_SCHED_WAIT_MAX_MS)⟩] ∧ Kept own s t) ∧
          (∀ d, 0 < d → ∃ t, exec (.taskWakeTimeout [(us, .delay core d)] task us) s = .next t ∧
            t.ctl.tasks.run.getD core none = none ∧ t.ctl.tasks.delayed = [(us + d, a)] ∧ Kept own s t) ∧
          (∃ t, exec (.taskWakeTimeout [(us, .finish core)] task us) s = .next t ∧ t.ctl.tasks.run.getD core none = none ∧
            t.ctl.tasks.waits = x.waits ∧ Kept own s t) ∧
          (a.core = core.val → ∃ t, exec (.taskWakeTimeout [(us, .preempt core)] task us) s = .next t ∧
            t.ctl.tasks.run.getD core none = some a ∧ t.ctl.tasks.waits = x.waits ∧ Kept own s t))

/-- R24: a scheduled commit is held until its tick where its latch point is still ahead, and refused with LATE where it has passed; a
CANCEL in time drops it. -/
def Obligations.ScheduledCommits : Prop :=
  ∀ (s : State) (r : Req) (f : BitVec 48) (pages nodes : Word), s.heldReqs < 16 →
    (s.latchPast f.toNat = true →
      (∃ t, exec (.schedCommitArm r f pages) s = .next t ∧ Answered s t r 0x10 2 [0] ∧ t.commits = s.commits ∧ Kept (fun _ => false) s t) ∧
      (∃ t, exec (.schedCommit r f pages 0) s = .next t ∧ Answered s t r 0x10 2 [0] ∧ t.commits = s.commits ∧ Kept (fun _ => false) s t) ∧
      (∃ t, exec (.cancelReceive r f) s = .next t ∧ Answered s t r 0x11 2 [0] ∧ t.commits = s.commits ∧
        (∀ e, s.ctl.past.find? (fun e => e.frame == f.toNat) = some e → ∀ p < 64, e.pages.testBit p = true → pageHasRws p = true →
          t.rd (SHD_STAT_CANCELLED p) = 1) ∧
        Kept (fun k => (List.range 64).any fun p => k == (SHD_STAT_CANCELLED p).key) s t) ∧
      (∃ t, exec (.schedCancel r f nodes) s = .next t ∧ Answered s t r 0x11 2 [0] ∧ t.commits = s.commits ∧
        Kept (fun k => (List.range 64).any fun p => k == (SHD_STAT_CANCELLED p).key) s t)) ∧
    (s.latchPast f.toNat = false →
      (∃ t, exec (.schedCommitArm r f pages) s = .next t ∧ Answered s t r 0x10 1 [2 ^ s.node] ∧
        t.commits.sched = s.commits.sched ++ [⟨f.toNat, pages.toNat, r⟩] ∧ Kept (fun _ => false) s t) ∧
      (∃ t, exec (.cancelReceive r f) s = .next t ∧
        Answered s t r 0x11 3 [if (∃ e ∈ s.commits.sched, e.frame = f.toNat) then 2 ^ s.node else 0] ∧
        (∀ e, e ∈ t.commits.sched ↔ e ∈ s.commits.sched ∧ e.frame ≠ f.toNat) ∧ Kept (fun _ => false) s t) ∧
      (s.isSender = false →
        (∃ t, exec (.schedCommit r f pages nodes) s = .next t ∧ Answered s t r 0x10 1 [2 ^ s.node] ∧
          t.commits.sched = s.commits.sched ++ [⟨f.toNat, pages.toNat, r⟩] ∧ Kept (fun _ => false) s t) ∧
        ∃ t x, exec (.schedCancel r f nodes) s = .next t ∧ Answered s t r 0x11 0 [x] ∧
          (∀ e, e ∈ t.commits.sched ↔ e ∈ s.commits.sched ∧ e.frame ≠ f.toNat) ∧ Kept (fun _ => false) s t)) ∧
    (s.isSender = true → f.toNat < s.frame + 2 → ∃ t, exec (.schedCommit r f pages nodes) s = .next t ∧ Answered s t r 0x10 2 [0] ∧
      t.commits = s.commits ∧ t.ctl.coords = s.ctl.coords ∧ Kept (fun _ => false) s t)

/-- R267: a sender that coordinates a scheduled commit waits for every named node's ARMED, answers ARMED when the last one has come, and
at the deadline cancels a commit that is not wholly armed. -/
def Obligations.CoordinatedCommits : Prop :=
  ∀ s : State,
    (∀ (r : Req) (f : BitVec 48) (pages nodes : Word), s.heldReqs < 16 → s.isSender = true → s.frame + 2 ≤ f.toNat → nodes ≠ 0 →
      nodes.toNat.testBit s.node = false → ∃ t, exec (.schedCommit r f pages nodes) s = .next t ∧
        ⟨r, f.toNat, pages.toNat, nodes.toNat, 0⟩ ∈ t.ctl.coords ∧ t.commits = s.commits ∧ Kept (keysOf [QLK_MG_CNT_RELAYED]) s t) ∧
    (∀ (c : SchedCoord) (n : BitVec 6), s.ctl.coords = [c] → c.nodes.testBit n.toNat = true → c.armed.testBit n.toNat = false →
      let a := c.armed + 2 ^ n.toNat
      (c.nodes &&& a = c.nodes → ∃ t, exec (.schedArmedReceive n) s = .next t ∧ t.ctl.coords = [] ∧ Answered s t c.req 0x10 1 [a] ∧
        Kept (fun _ => false) s t) ∧
      (c.nodes &&& a ≠ c.nodes → exec (.schedArmedReceive n) s = .next { s with ctl := { s.ctl with coords := [{ c with armed := a }] } })) ∧
    ∃ t, exec .schedCommitDeadline s = .next t ∧
      (∀ c, c ∈ t.ctl.coords ↔ c ∈ s.ctl.coords ∧ s.latchPast (c.frame - 1) = false) ∧
      (∀ c ∈ s.ctl.coords, s.latchPast (c.frame - 1) = true → Answered s t c.req 0x10 3 [c.armed]) ∧
      Kept (keysOf [QLK_MG_CNT_RELAYED]) s t

/-- R270: a policy table that is not well formed is refused with BAD_ARG; one that is waits for the first tick whose latch point
follows, marks the policy area as changed, and is answered with that tick. -/
def Obligations.PolicyTables : Prop :=
  ∀ (s : State) (r : Req) (nodes : Word) (p : PolicyTable), s.heldReqs < 16 →
    (policyGood p = false → ∃ t, exec (.policyLoad r nodes p) s = .next t ∧ Answered s t r 0x20 5 [] ∧ t.nvs = s.nvs ∧
      Kept (fun _ => false) s t) ∧
    (policyGood p = true → s.isSender = false ∨ nodes = 0 → ∃ t, exec (.policyLoad r nodes p) s = .next t ∧
      Answered s t r 0x20 (if s.policyClamps p then 8 else 0) [s.frame + if s.latchDone then 2 else 1] ∧
      t.nvs.policyNext = s.nvs.policyNext ++ [(p, s.frame + if s.latchDone then 2 else 1)] ∧ t.nvs.policy = s.nvs.policy ∧
      t.rd NVS_SAVE_DIRTY = (s.rd NVS_SAVE_DIRTY ||| 4) % 8 ∧ Kept (keysOf [NVS_SAVE_DIRTY]) s t)

/-! ### Redundant senders (15) -/

/-- R272: a node takes a higher epoch at once, whatever carries it, and disregards a lower one and counts it. What comes by a path that is not
enabled, or from another address or ring, is not taken; a late answer of the arbiter only counts. -/
def Obligations.HigherEpochsWin : Prop :=
  ∀ (s : State) (sd : Fin 2), s.Inv → s.suspended = false →
    (∀ (via : Via) (ws : List Word72), s.accepts via = false → exec (.epochReceive sd via ws) s = .next s ∧
      ∀ (n : BitVec 6) (w : Nat), exec (.kettleReceive sd via n ws w) s = .next s) ∧
    (∀ (via : Via) (ws : List Word72), s.accepts via = true → (ws.getD 0 0).toNat / 2 ^ 64 = 0x98 →
      let i := s.arbIdx sd
      let ring := (ws.getD 0 0).toNat / 2 ^ 38 % 64
      (s.on (QLK_TOPO_NODE_VALID i) = true → ring ≠ s.rd (QLK_TOPO_RING i) → exec (.epochReceive sd via ws) s = .next s) ∧
      (s.on (QLK_TOPO_NODE_VALID i) = false ∨ ring = s.rd (QLK_TOPO_RING i) →
      let e := (ws.getD 0 0).toNat % 2 ^ 32
      let ap := (ws.getD 1 0).toNat % 2 ^ 48
      (s.rd (ARB_EPOCH_EPOCH i) < e → ∃ t, exec (.epochReceive sd via ws) s = .next t ∧ t.rd (ARB_EPOCH_EPOCH i) = e ∧
        t.rd (ARB_EPOCH_ACTIVE i) = (if e % 2 = 0 then 0 else 63) ∧ t.rd (ARB_EPOCH_REASON i) = (ws.getD 0 0).toNat / 2 ^ 44 % 8 ∧
        t.rd (ARB_APPLY_PEND i) = 1 ∧ (s.frame < ap → t.rd (ARB_APPLY_FRAME i) = ap) ∧
        (ap ≤ s.frame → s.frame + 1 < 2 ^ 48 → t.rd (ARB_APPLY_FRAME i) = s.frame + 1) ∧ t.flag 9 4 = true ∧
        t.arb = s.arb ∧ Kept (keysOf (epochFields i)) s t) ∧
      (e < s.rd (ARB_EPOCH_EPOCH i) → ∃ t, exec (.epochReceive sd via ws) s = .next t ∧ t.flag 9 14 = true ∧
        t.rd (ARB_CNT_STALE i) = min (s.rd (ARB_CNT_STALE i) + 1) 255 ∧ t.arb = s.arb ∧ Kept (keysOf [ARB_CNT_STALE i]) s t))) ∧
    (∀ (n : BitVec 6) (ws : List Word72) (w : Nat), (ws.getD 0 0).toNat / 2 ^ 64 = 0x90 → n = 0 ∨ n = 63 →
      (s.isTile = true → ∃ t, exec (.kettleReceive sd .ring n ws w) s = .next t ∧
        (t.arbSide 0).heard.getD (if n = 0 then 0 else 1) none = some (w, (ws.getD 1 0).toNat / 2 ^ 48 % 65536) ∧
        t.rd (ARB_STAT_ARBITER 0) = (ws.getD 1 0).toNat / 2 ^ 32 % 64 ∧
        s.rd (ARB_EPOCH_EPOCH 0) ≤ t.rd (ARB_EPOCH_EPOCH 0) ∧ (ws.getD 1 0).toNat % 2 ^ 32 ≤ t.rd (ARB_EPOCH_EPOCH 0) ∧
        (∀ h, h ∈ (t.arbSide 0).held ↔ h ∈ (s.arbSide 0).held ∧ h.2 % 2 ≠ if n = 0 then 0 else 1) ∧
        (∀ h ∈ (s.arbSide 0).held, h.2 % 2 = (if n = 0 then 0 else 1) → Answered s t h.1 0x98 7 []) ∧
        Kept (keysOf (epochFields 0 ++ [ARB_STAT_ARBITER 0, ARB_CNT_REFUSED 0])) s t) ∧
      (s.isSender = true → n.toNat ≠ s.nodeOn sd →
        s.on (QLK_TOPO_NODE_VALID sd) = false ∨ (ws.getD 1 0).toNat / 2 ^ 38 % 64 = s.rd (QLK_TOPO_RING sd) →
        ∀ via : Via, s.accepts via = true → ∃ t, exec (.kettleReceive sd via n ws w) s = .next t ∧
          (if via = .ring then (t.arbSide sd).ringAt else (t.arbSide sd).ethAt) = some w ∧
          (if via = .ring then (t.arbSide sd).ethAt = (s.arbSide sd).ethAt else (t.arbSide sd).ringAt = (s.arbSide sd).ringAt) ∧
          t.rd (ARB_STAT_PEER_READY sd) = (ws.getD 1 0).toNat / 2 ^ 47 % 2 ∧ (t.arbSide sd).partner = (ws.getD 1 0).toNat / 2 ^ 44 % 8 ∧
          s.rd (ARB_EPOCH_EPOCH sd) ≤ t.rd (ARB_EPOCH_EPOCH sd) ∧ (ws.getD 1 0).toNat % 2 ^ 32 ≤ t.rd (ARB_EPOCH_EPOCH sd) ∧
          Kept (orKeys (pagesOf [9]) (keysOf (epochFields sd))) s t)) ∧
    ∀ (g : Bool) (e : BitVec 32) (id : BitVec 12) (w : Nat), s.isSender = true →
      let own := orKeys (pagesOf [9]) (keysOf (epochFields sd ++ [HIF_RA_STAT_LATE]))
      (s.inTime sd id.toNat w = false → ∃ t, exec (.epochReqResponse sd g e id w) s = .next t ∧ (t.arbSide sd).arbAt = some w ∧
        t.rd HIF_RA_STAT_LATE = min (s.rd HIF_RA_STAT_LATE + 1) (2 ^ HIF_RA_STAT_LATE.w - 1) ∧
        t.rd (ARB_EPOCH_EPOCH sd) = s.rd (ARB_EPOCH_EPOCH sd) ∧ Kept own s t) ∧
      (s.inTime sd id.toNat w = true →
        (∃ t, exec (.epochReqResponse sd true e id w) s = .next t ∧ (t.arbSide sd).arbAt = some w ∧
          t.rd (ARB_EPOCH_EPOCH sd) = max (s.rd (ARB_EPOCH_EPOCH sd)) e.toNat ∧ Kept own s t) ∧
        ∃ t, exec (.epochReqResponse sd false e id w) s = .next t ∧ (t.arbSide sd).refusedAt = some w ∧ t.flag 9 9 = true ∧
          t.rd (ARB_CNT_REFUSED sd) = min (s.rd (ARB_CNT_REFUSED sd) + 1) 65535 ∧
          t.rd (ARB_EPOCH_EPOCH sd) = s.rd (ARB_EPOCH_EPOCH sd) ∧ Kept own s t)

/-- A sender's states: kettles go out on every side that serves a ring, at a tick and every millisecond of wall time; STARTING ends START_MS
after the side came up, as the held epoch says; a standby that has heard no kettle requests an epoch, and again when the request's time is
over; with neither kettles nor an arbiter it takes the wall under a new epoch with REASON 2. Before its time each changes nothing. -/
def Obligations.SenderStates : Prop :=
  ∀ (s : State) (sd : Fin 2), s.Inv → s.isSender = true →
    (∀ (at_ : Bool) (w : Nat), s.house.shut = false → s.rd NVS_POWER_STATE ≠ 3 → s.rd FMC_MEM_STAT_FAIL = 0 →
      s.on (QLK_TOPO_NODE_VALID sd) = true →
      (at_ = false → w / 65536 % 1000000 ≠ 0 → exec (.kettleSend at_ w) s = .next s) ∧
      (at_ = true ∨ w / 65536 % 1000000 = 0 → ∃ t, exec (.kettleSend at_ w) s = .next t ∧
        (s.sideIsUp sd = true → ∃ f x, Emit.folio sd f x ∈ t.out ∧ f.typ = 6 ∧ f.node.toNat = s.nodeOn sd ∧ f.bcast = true ∧ f.last = true ∧
          f.words = ((s.passTo w).kettle sd at_).map (BitVec.ofNat 72)) ∧
        (s.on ARB_ETH_ETH_EN = true → Sent s t (.net (s.rd ARB_ETH_PORT) (.datagram (s.rd ARB_ETH_PEER_IP) (s.rd ARB_ETH_UDP))
          (etherBytes 6 (s.rd (QLK_TOPO_RING sd)) ((s.passTo w).kettle sd at_)))) ∧
        (t.arbSide sd).seq = ((s.arbSide sd).seq + 1) % 4096 ∧ SidesKept s t ∧
        RegsKept (keysOf [WTU_SRC_STAT_OFFSET_NS, WTU_SRC_STAT_HOLD_S]) s t ∧ t.win = s.win ∧ t.mem = s.mem)) ∧
    (∀ w : Nat, s.rd (ARB_STAT_STATE sd) = 1 → s.rd FMC_MEM_STAT_FAIL = 0 → s.sideIsUp sd = true →
      (w < (s.side sd).upAt + msT (s.rd ARB_TIMING_START_MS) → exec (.senderStartEnd sd w) s = .next s) ∧
      ((s.side sd).upAt + msT (s.rd ARB_TIMING_START_MS) ≤ w → ∃ t, exec (.senderStartEnd sd w) s = .next t ∧
        t.rd (ARB_STAT_STATE sd) = (if s.named sd then 2 else 3) ∧ t.flag 9 (if s.named sd then 5 else 6) = true ∧
        Kept (keysOf [ARB_STAT_STATE sd]) s t)) ∧
    (∀ w : Nat, s.silent sd w (usT (s.rd ARB_TIMING_MISS_US)) = false → exec (.peerLost sd w) s = .next s ∧
      exec (.epochReqRetry sd w) s = .next s) ∧
    (∀ w : Nat, s.suspended = false → s.silent sd w (usT (s.rd ARB_TIMING_MISS_US)) = true →
      (s.rd (ARB_STAT_STATE sd) = 3 → ∃ t n, exec (.peerLost sd w) s = .next t ∧ t.rd (ARB_STAT_STATE sd) = 4 ∧ t.flag 9 7 = true ∧
        t.rd (ARB_CNT_REQ sd) = min (s.rd (ARB_CNT_REQ sd) + 1) 65535 ∧ (t.arbSide sd).asked = some (n, w) ∧
        Kept (fun k => pagesOf [9] k || keysOf [QLK_MG_CNT_RELAYED] k) s t) ∧
      (s.rd (ARB_STAT_STATE sd) = 4 → s.askAgain sd w = true → ∃ t n, exec (.epochReqRetry sd w) s = .next t ∧
        t.rd (ARB_STAT_STATE sd) = 4 ∧ t.rd (ARB_CNT_REQ sd) = min (s.rd (ARB_CNT_REQ sd) + 1) 65535 ∧ (t.arbSide sd).asked = some (n, w) ∧
        Kept (fun k => pagesOf [9] k || keysOf [QLK_MG_CNT_RELAYED] k) s t) ∧
      (s.askAgain sd w = false → exec (.epochReqRetry sd w) s = .next s)) ∧
    ∀ w : Nat, s.suspended = false → (s.rd (ARB_STAT_STATE sd) = 3 ∨ s.rd (ARB_STAT_STATE sd) = 4) →
      s.silent sd w (msT (s.rd ARB_TIMING_TAKE_MS)) = true →
      within (s.arbSide sd).refusedAt w (msT (s.rd ARB_TIMING_TAKE_MS)) = false → s.rd (ARB_EPOCH_EPOCH sd) + 1 < 2 ^ 32 →
      ((s.rd (QLK_REACH_NODES sd)).testBit (s.rd (ARB_CFG_ARBITER sd)) = true →
        within (s.arbSide sd).arbAt w (msT (s.rd ARB_TIMING_TAKE_MS)) = true → exec (.takeover sd w) s = .next s) ∧
      ((s.rd (QLK_REACH_NODES sd)).testBit (s.rd (ARB_CFG_ARBITER sd)) = false ∨
        within (s.arbSide sd).arbAt w (msT (s.rd ARB_TIMING_TAKE_MS)) = false →
      ∃ t, exec (.takeover sd w) s = .next t ∧ t.rd (ARB_EPOCH_EPOCH sd) = s.rd (ARB_EPOCH_EPOCH sd) + 1 ∧
        t.rd (ARB_EPOCH_REASON sd) = 2 ∧ t.rd (ARB_EPOCH_ISSUER sd) = s.nodeOn sd ∧ t.flag 9 10 = true ∧
        t.rd (ARB_CNT_TAKEOVERS sd) = min (s.rd (ARB_CNT_TAKEOVERS sd) + 1) 255 ∧
        (∀ i < 2, s.sideIsUp i = true → ∃ f x, Emit.folio i f x ∈ t.out ∧ f.typ = 8 ∧ f.bcast = true ∧
          (f.words.getD 0 0).toNat = 0x98 * 2 ^ 64 + s.rd (ARB_EPOCH_EPOCH sd) + 1 + s.nodeOn sd * 2 ^ 32 + s.rd (QLK_TOPO_RING sd) * 2 ^ 38
            + 2 * 2 ^ 44) ∧
        Kept (fun k => pagesOf [9] k || keysOf (epochFields sd) k) s t)

/-- R281: the arbiter refuses a request of another node, answers one below its own epoch with its own, grants one when the asking
sender's partner has been silent for MISS_US, and holds it otherwise; a hold that ends is granted. A tile that is not the arbiter refuses, and
while a node keeps its epoch after an activation it issues none. -/
def Obligations.ArbiterAnswers : Prop :=
  ∀ (s : State) (r : Req) (e : BitVec 32) (w : Nat), s.Inv → s.heldReqs < 16 → s.isTile = true →
    (s.rd (ARB_STAT_ARBITER 0) ≠ s.node → ∃ t, exec (.epochReq r e w) s = .next t ∧ Answered s t r 0x98 7 [] ∧ t.arb = s.arb ∧
      Kept (fun _ => false) s t) ∧
    (s.rd (ARB_STAT_ARBITER 0) = s.node →
      (r.reply.toNat / 4096 ≠ 0 → r.reply.toNat / 4096 ≠ 63 → ∃ t, exec (.epochReq r e w) s = .next t ∧ Answered s t r 0x98 7 [] ∧
        t.rd (ARB_CNT_REFUSED 0) = min (s.rd (ARB_CNT_REFUSED 0) + 1) 65535 ∧ t.arb = s.arb ∧
        Kept (keysOf [ARB_CNT_REQ 0, ARB_CNT_REFUSED 0]) s t) ∧
      (r.reply.toNat / 4096 = 0 ∨ r.reply.toNat / 4096 = 63 →
        (e.toNat < s.rd (ARB_EPOCH_EPOCH 0) → ∃ t, exec (.epochReq r e w) s = .next t ∧
          Answered s t r 0x98 0 [s.rd (ARB_EPOCH_EPOCH 0)] ∧ t.arb = s.arb ∧ Kept (keysOf [ARB_CNT_REQ 0]) s t) ∧
        (s.rd (ARB_EPOCH_EPOCH 0) ≤ e.toNat → e.toNat + 1 < 2 ^ 32 →
          (s.missed e.toNat w = true → s.suspended = true → ∃ t, exec (.epochReq r e w) s = .next t ∧ Answered s t r 0x98 7 [] ∧ t.arb = s.arb ∧
            Kept (keysOf [ARB_CNT_REQ 0, ARB_CNT_REFUSED 0]) s t) ∧
          (s.missed e.toNat w = true → s.suspended = false → ∃ t, exec (.epochReq r e w) s = .next t ∧ Answered s t r 0x98 0 [e.toNat + 1] ∧
            t.rd (ARB_EPOCH_EPOCH 0) = e.toNat + 1 ∧ t.rd (ARB_EPOCH_REASON 0) = 1 ∧
            t.rd (ARB_CNT_GRANTS 0) = min (s.rd (ARB_CNT_GRANTS 0) + 1) 255 ∧
            (∀ i < 2, s.sideIsUp i = true → ∃ f x, Emit.folio i f x ∈ t.out ∧ f.typ = 8 ∧ f.bcast = true ∧
              (f.words.getD 0 0).toNat % 2 ^ 32 = e.toNat + 1) ∧
            Kept (keysOf (epochFields 0 ++ [ARB_CNT_REQ 0, ARB_CNT_GRANTS 0])) s t) ∧
          (s.missed e.toNat w = false → ∃ t, exec (.epochReq r e w) s = .next t ∧
            (t.arbSide 0).held = (s.arbSide 0).held ++ [(r, e.toNat)] ∧ Kept (keysOf [ARB_CNT_REQ 0]) s t)))) ∧
    (s.suspended = false → ∃ t, exec (.arbiterHoldExpire w) s = .next t ∧
      (∀ h, h ∈ (t.arbSide 0).held ↔ h ∈ (s.arbSide 0).held ∧ s.missed h.2 w = false) ∧
      (∀ h ∈ (s.arbSide 0).held, s.missed h.2 w = true → ∃ x, Answered s t h.1 0x98 0 [x]) ∧
      Kept (keysOf (epochFields 0 ++ [ARB_CNT_GRANTS 0])) s t)

/-- Planned swaps and TAKE: a swap whose conditions fail is refused and one too soon is late; otherwise a new epoch goes out that
applies at the tick named, FRAME_NO + 8 for 0; TAKE issues one with REASON 5 from a standby. Rehearsal: the active sender starts one whose conditions hold as a swap with REASON 4, and answers result 2 where one fails; a failed
one takes the wall back with REASON 6; one that holds ends with result 1, and the new active sender swaps back when HOLD_S is over. -/
def Obligations.SwapsAndRehearsals : Prop :=
  (∀ (s : State) (r : Req) (sd : Fin 2) (ap : BitVec 48) (w : Nat), s.Inv → s.heldReqs < 16 →
     let f := if ap = 0 then s.frame + 8 else ap.toNat
     (s.swapOk sd w = false → ∃ t, exec (.swap r sd ap w) s = .next t ∧ Answered s t r 0x91 7 [] ∧ t.arb = s.arb ∧
       Kept (keysOf [ARB_STAT_PEER_RING sd, ARB_STAT_PEER_ETH sd, ARB_STAT_ARB_SEEN sd, ARB_STAT_PEER_AGE_US sd, ARB_STAT_ARBITER sd]) s t) ∧
     (s.swapOk sd w = true → f < s.frame + 4 → ∃ t, exec (.swap r sd ap w) s = .next t ∧ Answered s t r 0x91 2 [] ∧ t.arb = s.arb ∧
       Kept (fun _ => false) s t) ∧
     (s.rd (ARB_EPOCH_EPOCH sd) + 1 < 2 ^ 32 →
       (s.swapOk sd w = true → s.frame + 4 ≤ f → f < 2 ^ 48 → ∃ t, exec (.swap r sd ap w) s = .next t ∧ Answered s t r 0x91 0 [f] ∧
         t.rd (ARB_EPOCH_EPOCH sd) = s.rd (ARB_EPOCH_EPOCH sd) + 1 ∧ t.rd (ARB_EPOCH_REASON sd) = 3 ∧ t.rd (ARB_APPLY_FRAME sd) = f ∧
         t.rd (ARB_CNT_SWAPS sd) = min (s.rd (ARB_CNT_SWAPS sd) + 1) 255 ∧
         Kept (keysOf (epochFields sd ++ [ARB_CNT_GRANTS sd, ARB_CNT_SWAPS sd])) s t) ∧
       (s.mayTake sd = true → ∃ t, exec (.take r sd) s = .next t ∧ Answered s t r 0x93 0 [s.rd (ARB_EPOCH_EPOCH sd) + 1] ∧
         t.rd (ARB_EPOCH_EPOCH sd) = s.rd (ARB_EPOCH_EPOCH sd) + 1 ∧ t.rd (ARB_EPOCH_REASON sd) = 5 ∧
         Kept (keysOf (epochFields sd ++ [ARB_CNT_GRANTS sd])) s t)) ∧
     (s.mayTake sd = false → ∃ t, exec (.take r sd) s = .next t ∧ Answered s t r 0x93 7 [] ∧ Kept (fun _ => false) s t)) ∧
  (∀ (s : State) (sd : Fin 2) (w : Nat), s.Inv → s.suspended = false → s.rd (ARB_EPOCH_EPOCH sd) + 1 < 2 ^ 32 →
     let ended := [ARB_REH_STAT_RESULT, ARB_REH_STAT_SEC, ARB_REH_STAT_FAILS, NVS_SAVE_DIRTY]
     let swapped := epochFields sd ++ [ARB_CNT_GRANTS sd, ARB_CNT_SWAPS sd]
     (s.mayRehearse sd = true → (s.arbSide sd).reh = none → s.rehOk sd w = true →
       (∀ r : Req, s.heldReqs < 16 → ∃ t, exec (.rehearse r sd w) s = .next t ∧
         (t.arbSide sd).reh = some ⟨some r, s.frame + 8, false, false, false⟩ ∧
         t.rd (ARB_EPOCH_EPOCH sd) = s.rd (ARB_EPOCH_EPOCH sd) + 1 ∧ t.rd (ARB_EPOCH_REASON sd) = 4 ∧ Kept (keysOf swapped) s t) ∧
       (0 < s.rd ARB_REH_INTERVAL_H → ∃ t, exec (.rehearsalStart sd w) s = .next t ∧
         (t.arbSide sd).reh = some ⟨none, s.frame + 8, false, false, false⟩ ∧
         t.rd (ARB_EPOCH_EPOCH sd) = s.rd (ARB_EPOCH_EPOCH sd) + 1 ∧ t.rd (ARB_EPOCH_REASON sd) = 4 ∧ Kept (keysOf swapped) s t)) ∧
     (s.mayRehearse sd = true → (s.arbSide sd).reh = none → s.rehOk sd w = false →
       (∀ r : Req, s.heldReqs < 16 → ∃ t, exec (.rehearse r sd w) s = .next t ∧ (t.arbSide sd).reh = none ∧
         t.rd ARB_REH_STAT_RESULT = 2 ∧ Answered s t r 0x92 0 [2] ∧ Kept (keysOf ended) s t) ∧
       (0 < s.rd ARB_REH_INTERVAL_H → ∃ t, exec (.rehearsalStart sd w) s = .next t ∧ (t.arbSide sd).reh = none ∧
         t.rd ARB_REH_STAT_RESULT = 2 ∧ Kept (keysOf ended) s t)) ∧
     (∀ r : Req, s.heldReqs < 16 → (s.arbSide sd).reh.isSome = true → ∃ t, exec (.rehearse r sd w) s = .next t ∧ Answered s t r 0x92 6 [] ∧
       t.arb = s.arb ∧ Kept (fun _ => false) s t) ∧
     (∀ r : Req, s.heldReqs < 16 → (s.arbSide sd).reh = none → s.mayRehearse sd = false → ∃ t, exec (.rehearse r sd w) s = .next t ∧
       Answered s t r 0x92 7 [] ∧ t.arb = s.arb ∧ Kept (fun _ => false) s t) ∧
     (∀ x : Reh, (s.arbSide sd).reh = some x →
       (∀ res : BitVec 3, (s.rehFails x res.toNat = false → exec (.rehearsalFail sd res w) s = .next s) ∧
         (s.rehFails x res.toNat = true → ∃ t, exec (.rehearsalFail sd res w) s = .next t ∧ (t.arbSide sd).reh = none ∧
         t.rd (ARB_EPOCH_EPOCH sd) = s.rd (ARB_EPOCH_EPOCH sd) + 1 ∧ t.rd (ARB_EPOCH_REASON sd) = 6 ∧
         t.rd ARB_REH_STAT_RESULT = res.toNat ∧ t.rd ARB_REH_STAT_FAILS = min (s.rd ARB_REH_STAT_FAILS + 1) 255 ∧ t.flag 9 13 = true ∧
         Kept (keysOf (swapped ++ ended)) s t)) ∧
       (s.holdOver x.apply w = false → exec (.rehearsalHoldEnd sd w) s = .next s) ∧
       (s.holdOver x.apply w = true → ∃ t, exec (.rehearsalHoldEnd sd w) s = .next t ∧ (t.arbSide sd).reh = none ∧
         t.rd ARB_REH_STAT_RESULT = 1 ∧ t.flag 9 12 = true ∧ Kept (keysOf ended) s t)) ∧
     ((s.arbSide sd).reh = none → s.swapOk sd w = true → s.rd (ARB_EPOCH_REASON sd) = 4 → s.holdOver (s.rd (ARB_APPLY_FRAME sd)) w = true →
       (if s.rd (ARB_CFG_PREF sd) % 2 = 0 then 0 else 63) ≠ s.nodeOn sd → ∃ t, exec (.rehearsalHoldEnd sd w) s = .next t ∧
         t.rd (ARB_EPOCH_EPOCH sd) = s.rd (ARB_EPOCH_EPOCH sd) + 1 ∧ t.rd (ARB_EPOCH_REASON sd) = 4 ∧ Kept (keysOf swapped) s t))

/-! ### Start-up, resets, power (16) -/

/-- R296: a reset leaves what Table 16-5 says for its kind, is counted under it, and a start begins; with an invalid role the part
stays in safe reset with BOOT code 0x0E. What is not due, or comes in SLEEP, in safe reset or without the clock where it cannot act, changes
nothing; RESET_N and a wake also drive the regulator enable pin. -/
def Obligations.ResetsByKind : Prop :=
  (∀ (role bs : BitVec 2) (s : State), ∃ t, exec (.por role bs) s = .next t ∧ t.role = role.toNat ∧
    t.rd HIF_STRAP_STAT_BOOTSEL = bs.toNat ∧
    ResetTo 1 ((s.wr HIF_STRAP_STAT_ROLE role.toNat).wr HIF_STRAP_STAT_BOOTSEL bs.toNat) t ∧
    ∀ f ∈ allFields, f.page ≠ 3 → f.off ≠ 8 → f ≠ HIF_STRAP_STAT_ROLE → f ≠ HIF_STRAP_STAT_BOOTSEL → noteKey f.key = false → f.ret = .a → t.rd f = f.rst) ∧
  ∀ s : State,
    (s.asleep = false → s.nvs.safe = false → s.nvs.clockLost = false → ∃ t, exec .brownOut s = .next t ∧ ResetTo 2 s t) ∧
    (s.asleep = true ∨ s.nvs.safe = true ∨ s.nvs.clockLost = true → exec .brownOut s = .next s) ∧
    (s.role ≠ 3 → ∃ t, exec .resetN s = .next t ∧ ResetTo 3 s t ∧
      (s.asleep = true → Sent s t (.pin .railGpio (b2n (true != s.on NVS_SLEEP_CFG_RAIL_POL))))) ∧
    (s.role = 3 → exec .resetN s = .next s) ∧
    (s.on CCC_WDT_EN = true → 9 < s.rd NVS_BOOT_STAT_STEP → s.asleep = false → s.nvs.safe = false → s.house.absHeld = false →
      ∃ t, exec .watchdogExpire s = .next t ∧ ResetTo 4 s t ∧
        t.rd CCC_WDT_WDT_CNT = min (s.rd CCC_WDT_WDT_CNT + 1) (2 ^ CCC_WDT_WDT_CNT.w - 1)) ∧
    (s.nvs.restartDue = true → ∃ t, exec .stepRestart s = .next t ∧ ResetTo 5 s t) ∧
    (s.nvs.restartDue = false → exec .stepRestart s = .next s) ∧
    (∀ k, s.nvs.softKind = some k → 6 ≤ k → k ≤ 9 →
      (s.nvs.ops = [] → ∃ t, exec .softResetApply s = .next t ∧ ResetTo k s t) ∧
      (s.nvs.ops ≠ [] → exec .softResetApply s = .next s)) ∧
    (s.nvs.softKind = none → exec .softResetApply s = .next s) ∧
    (s.house.standby = true → s.house.cool = 16 → ∃ t, exec .thermalRecovery s = .next t ∧ ResetTo 8 s t ∧ t.house.shut = false ∧
      t.house.standby = false) ∧
    (s.house.standby = false ∨ s.house.cool ≠ 16 → exec .thermalRecovery s = .next s) ∧
    (s.asleep = false → s.nvs.safe = false → ∃ t, exec .qrefclkLoss s = .next t ∧ t.nvs.clockLost = true ∧ t.rd NVS_BOOT_STAT_STEP = 2 ∧
      ∀ f ∈ allFields, f.ret = .t ∨ f.ret = .b → t.rd f = f.rst) ∧
    (s.asleep = true ∨ s.nvs.safe = true → exec .qrefclkLoss s = .next s) ∧
    (s.nvs.clockLost = true → s.role ≠ 3 → ∃ t, exec .qrefclkReturn s = .next t ∧ t.nvs.clockLost = false ∧ t.rd NVS_BOOT_STAT_LAST_RESET = 2 ∧
      t.rd NVS_BOOT_STAT_STEP = 2 ∧ t.rd NVS_BOOT_STAT_START_NO = (s.rd NVS_BOOT_STAT_START_NO + 1) % 65536) ∧
    (s.nvs.clockLost = false → exec .qrefclkReturn s = .next s) ∧
    (∀ w : WakeSource,
      (s.asleep = true → s.on (wakeEnable w) = true → ∃ t, exec (.wake w) s = .next t ∧ ResetTo 2 s t ∧
        t.rd NVS_BOOT_STAT_WOKE = 1 ∧ t.flag 3 9 = true ∧ Sent s t (.pin .railGpio (b2n (true != s.on NVS_SLEEP_CFG_RAIL_POL)))) ∧
      (s.asleep = false ∨ s.on (wakeEnable w) = false → exec (.wake w) s = .next s))

/-- R257: the cluster watchdog's expiry, with WDT.EN = 1 and once step 9 has armed it (R288), is a watchdog reset: a start of kind 4
begins, WDT_CNT counts it through the reset, and the boot ledger's next record is that start's header with RESULT = 4. With EN = 0, before step 9
has ended, in SLEEP, in safe reset and in the comparator's hold there is no expiry. That TMO_MS has passed without a kick is the command itself. -/
def Obligations.WatchdogExpiry : Prop :=
  ∀ s : State, s.role ≠ 3 →
    (s.on CCC_WDT_EN = false ∨ s.rd NVS_BOOT_STAT_STEP ≤ 9 ∨ s.asleep = true ∨ s.nvs.safe = true ∨ s.house.absHeld = true →
      exec .watchdogExpire s = .next s) ∧
    (s.on CCC_WDT_EN = true → 9 < s.rd NVS_BOOT_STAT_STEP → s.asleep = false → s.nvs.safe = false → s.house.absHeld = false →
      ∃ t, exec .watchdogExpire s = .next t ∧ t.rd NVS_BOOT_STAT_LAST_RESET = 4 ∧
        t.rd NVS_BOOT_STAT_START_NO = (s.rd NVS_BOOT_STAT_START_NO + 1) % 65536 ∧
        t.rd CCC_WDT_WDT_CNT = min (s.rd CCC_WDT_WDT_CNT + 1) (2 ^ CCC_WDT_WDT_CNT.w - 1) ∧
        (t.nvs.ledger.get (s.rd NVS_LEDGER_WPTR)).toNat % 2 ^ 32 = (s.rd NVS_BOOT_STAT_START_NO + 1) % 65536 + 4 * 2 ^ 24 ∧
        (∀ f ∈ allFields, f.ret = .t ∨ f.ret = .b → f.page ≠ 3 → f.off ≠ 16 → f ≠ ARB_STAT_STATE 0 → noteKey f.key = false → t.rd f = f.rst))

/-- The PCI Express pins, VLF and XIN32: the endpoint alone is reset, a die's outputs go off with its rail, and a lost XIN32 changes
nothing. -/
def Obligations.PinsOfTheEndpoint : Prop :=
  ∀ s : State,
    (∃ t, exec .pcieRefclkLoss s = .next t ∧ t.host.pcieLinkUp = false ∧ t.host.pcieRefclk = false ∧ EndpointReset s t) ∧
    (∃ t, exec .perst s = .next t ∧ t.host.pcieLinkUp = s.host.pcieLinkUp ∧ t.host.pcieRefclk = s.host.pcieRefclk ∧ EndpointReset s t) ∧
    (∃ t, exec .pcieRefclkReturn s = .next t ∧ t.host.pcieRefclk = true ∧
      (s.isTile = false → 11 < s.rd NVS_BOOT_STAT_STEP → t.host.pcieLinkUp = true) ∧ t.live = s.live ∧ t.win = s.win ∧ t.mem = s.mem) ∧
    (∀ d : Fin 4, s.on (DRV_STAT_PRESENT d) = true → ∃ t, exec (.vlfLoss d) s = .next t ∧ t.rd (DRV_STAT_LINK d) = 0 ∧
      t.on (DRV_STAT_OUT_ON d) = false ∧ t.rd (DRV_STAT_OFF_WHY d) = 11 ∧ Kept (pagesOf [0x22, 0x28 + d.val]) s t) ∧
    (∀ d : Fin 4, s.on (DRV_STAT_PRESENT d) = false → exec (.vlfLoss d) s = .next s) ∧
    exec .xin32Loss s = .next s

/-- R288, R289, R291, R292: a step that ends OK clears its path's failure count, does its work, and a later one begins; one that fails or times
out is counted, and with a path left a restart is due; with none left a fatal step ends in safe reset with its BOOT code, and any other gives
way to the next; a waiting step that times out ends PARTIAL and the start goes on; step 16 ends the start. With no step in progress they change
nothing, and step 16 has no limit. -/
def Obligations.StartSteps : Prop :=
  (∀ (s : State) (e : StepEnd) (w : StepWork), s.nvs.begun = none →
    exec (.stepTimeout e) s = .next s ∧ exec (.startStepEnd e w) s = .next s ∧ exec (.startDone e) s = .next s) ∧
  ∀ (s : State) (k p : Nat) (e : StepEnd) (w : StepWork), s.nvs.begun = some (k, p) → k ≤ 16 →
    (k < 16 → k ≠ 8 → e.ok = true → s.stepStands k p w = true → ∃ t, exec (.startStepEnd e w) s = .next t ∧ t.failCount k p = 0 ∧
      k < t.rd NVS_BOOT_STAT_STEP ∧ t.rd NVS_BOOT_STAT_STEP ≤ 16) ∧
    (k = 9 → e.ok = true → ∀ g, s.settingsOf s.nvs.path = some g → s.upd.trial = false → s.isTile = true → s.rd NVS_BOOT_STAT_LAST_RESET < 6 →
      ∃ t, exec (.startStepEnd e w) s = .next t ∧
        ∀ f ∈ settingsFields, f.acc = .rw → pageActive s.role f.page = true → s.on (LOCK f.page) = false →
          t.rd f = (g.get f.key).toNat % 2 ^ f.w) ∧
    (k ≠ 16 → stepWaits k = false → 0 < stepPaths k → s.failCount k p = 0 → p < stepPaths k →
      (∃ t, exec (.stepTimeout e) s = .next t ∧ t.failCount k p = 1 ∧ t.nvs.restartDue = true ∧ t.nvs.begun = none ∧
        (s.house.shut = false → (t.nvs.ledger.get (s.rd NVS_LEDGER_WPTR)).toNat % 2 ^ 32 =
          s.rd NVS_BOOT_STAT_START_NO % 65536 + k * 2 ^ 16 + p * 2 ^ 21 + 2 ^ 23 + 2 * 2 ^ 24)) ∧
      (k ≠ 8 → e.ok = false → w.convertFail = false → ∃ t, exec (.startStepEnd e w) s = .next t ∧ t.failCount k p = 1 ∧
        t.nvs.restartDue = true ∧ t.nvs.begun = none)) ∧
    (stepWaits k = false → p < stepPaths k → (∀ q < stepPaths k, q ≠ p → 2 ≤ s.failCount k q) → s.failCount k p = 1 →
      ∃ t, exec (.stepTimeout e) s = .next t ∧ t.failCount k p = 2 ∧
        (if stepFatal k then t.nvs.safe = true ∧ t.rd NVS_BOOT_STAT_BOOT_CODE = 0x20 + k ∧ t.nvs.restartDue = false
         else k < t.rd NVS_BOOT_STAT_STEP)) ∧
    (k = 12 ∨ k = 13 → ∃ t, exec (.stepTimeout e) s = .next t ∧ k < t.rd NVS_BOOT_STAT_STEP ∧ t.nvs.fails = s.nvs.fails) ∧
    (k = 16 → exec (.stepTimeout e) s = .next s) ∧
    (k ≠ 16 → exec (.startDone e) s = .next s) ∧
    (k = 16 → p = 0 → s.house.shut = false → s.rd NVS_BOOT_STAT_LAST_RESET < 8 → s.upd.probation = false →
      ∃ t, exec (.startDone e) s = .next t ∧
        t.rd NVS_BOOT_STAT_STEP = 17 ∧ t.nvs.begun = none ∧ t.flag 3 4 = true ∧
        (if s.on NVS_BOOT_STAT_FORCED_DARK = true ∨ s.on UPD_SLOT_RECOVERY = true then t.rd NVS_POWER_STATE = 1 ∧ t.nvs.litWait = false
         else t.rd NVS_POWER_STATE = (if s.rd NVS_BOOT_CFG_TARGET = 2 then 2 else 1) ∧
           t.nvs.litWait = (s.rd NVS_BOOT_CFG_TARGET == 0 && s.isTile)) ∧
        (t.rd NVS_POWER_STATE = 2 → ∀ d < 4, t.rd (DRV_STAT_LINK d) = 0 ∧ t.rd (DRV_STAT_PLL_LOCK d) = 0) ∧
        Kept (orKeys (pagesOf [3]) (keysOf ((List.range 4).flatMap fun d => [DRV_STAT_LINK d, DRV_STAT_PLL_LOCK d]))) s t)

/-- Soft resets wait for their saves: with KEY 0xA5 the request stands and what is dirty is being saved; before the end of the start it
is discarded with BUSY; of coinciding requests the lowest kind stands. PATH_CLR clears the failure counts. Neither acts in SLEEP. -/
def Obligations.SoftResetRequests : Prop :=
  (∀ (s : State) (src : Requester) (key : BitVec 8), s.asleep = true → exec (.softReset src key) s = .next s ∧ exec (.pathClr src) s = .next s) ∧
  ∀ (s : State) (src : Requester), s.asleep = false →
    (s.rd NVS_BOOT_STAT_STEP = 17 → s.house.shut = false → ∃ t k, exec (.softReset src 0xA5) s = .next t ∧ t.nvs.softKind = some k ∧
      (s.nvs.softKind = none → k = if src = .remote then 6 else 7) ∧
      (∀ j, s.nvs.softKind = some j → k = min j (if src = .remote then 6 else 7)) ∧ t.upd.fifo = [] ∧ (∀ a < 3, (s.rd NVS_SAVE_DIRTY).testBit a = true → a ∈ t.nvs.ops) ∧
      Kept (keysOf [NVS_SAVE_SAVING, NVS_SAVE_DIRTY, LCP_AGE_STAT_SAVING]) s t) ∧
    (s.rd NVS_BOOT_STAT_STEP ≠ 17 → ∃ t, exec (.softReset src 0xA5) s = .next t ∧ t.nvs = s.nvs ∧ t.rd (ERR_CAP0_VALID 3) = 1 ∧
      (s.on (ERR_CAP0_VALID 3) = false → t.rd (ERR_CAP0_CODE 3) = 0x21) ∧ Kept (keysOf (errFields 3)) s t) ∧
    (∀ key : BitVec 8, key ≠ 0xA5 → exec (.softReset src key) s = .next s) ∧
    (s.nvs.clockLost = false → exec (.pathClr src) s = .next { s with nvs := { s.nvs with fails := [] } }) ∧
    (s.nvs.clockLost = true → exec (.pathClr src) s = .next s)

/-- R298: a POWER request that is accepted waits for its tick (FRAME_NO + 1, or + 16 for SLEEP) and takes the place of an earlier one;
it is answered with its tick, LIT at its entry. One that comes before the start has ended is BUSY; a sender has no LIT. SLEEP is entered
once the saves are complete. -/
def Obligations.PowerRequests : Prop :=
  ∀ (s : State) (r : Req), s.heldReqs < 16 →
    (∀ st : BitVec 2, s.powerRefuse st.toNat = none → ∃ t, exec (.power r st) s = .next t ∧
      t.nvs.power = some ⟨st.toNat, s.frame + (if st = 3 then 16 else 1), if st = 0 then some r else none, false⟩ ∧
      (st ≠ 0 → Answered s t r 0x30 0 [s.frame + if st = 3 then 16 else 1]) ∧
      (∀ p q, s.nvs.power = some p → p.req = some q → Answered s t q 0x30 7 []) ∧ Kept (fun _ => false) s t) ∧
    (∀ st : BitVec 2, s.rd NVS_BOOT_STAT_STEP ≠ 17 → ∃ t, exec (.power r st) s = .next t ∧ Answered s t r 0x30 6 [] ∧
      t.nvs = s.nvs ∧ Kept (fun _ => false) s t) ∧
    (s.rd NVS_BOOT_STAT_STEP = 17 → s.asleep = false → s.isSender = true → ∃ t, exec (.power r 0) s = .next t ∧
      Answered s t r 0x30 5 [] ∧ t.nvs = s.nvs ∧ Kept (fun _ => false) s t) ∧
    (∀ p, s.nvs.power = some p → (p.target ≠ 3 ∨ p.held = false ∨ s.nvs.ops ≠ []) → exec .sleepEntry s = .next s) ∧
    (∀ p, s.nvs.power = some p → p.target = 3 → p.held = true → s.nvs.ops = [] → ∃ t, exec .sleepEntry s = .next t ∧
      t.rd NVS_POWER_STATE = 3 ∧ t.nvs.power = none ∧ Sent s t (.pin .railGpio (b2n (false != s.on NVS_SLEEP_CFG_RAIL_POL))) ∧
      (∀ f ∈ allFields, f.ret = .t → t.rd f = f.rst)) ∧
    (s.nvs.power = none → exec .sleepEntry s = .next s)

/-- R302: SAVE.GO and the mirror time start the saves of what is dirty; a save that is complete makes its generation current, and the
next operation starts, and settings saved in probation go to the probation area (R315); a journal record that is complete is counted,
two of them store the update folio at the head of its FIFO in the inactive slot (R307, R308), and one that completes in thermal shutdown
is the last. -/
def Obligations.GenerationSaves : Prop :=
  ∀ s : State, s.Inv → s.house.shut = false →
    (∀ src : Requester, s.reachable src = true → ∃ t, exec (.saveGo src) s = .next t ∧
      (∀ a < 3, (s.rd NVS_SAVE_DIRTY).testBit a = true → a ∈ t.nvs.ops) ∧
      Kept (orKeys (regKeys 3 0xB8) (keysOf [NVS_SAVE_SAVING])) s t) ∧
    (∀ a : Fin 3, s.asleep = false → (s.rd NVS_SAVE_DIRTY).testBit a = true → ∃ t, exec (.generationSaveStart a) s = .next t ∧
      a.val ∈ t.nvs.ops ∧ Kept (keysOf [NVS_SAVE_SAVING, NVS_SAVE_DIRTY]) s t) ∧
    (∀ a : Fin 3, s.asleep = true ∨ (s.rd NVS_SAVE_DIRTY).testBit a = false → exec (.generationSaveStart a) s = .next s) ∧
    (s.nvs.ops = [] → exec .generationSaveDone s = .next s) ∧
    (∀ rest : List Nat, s.nvs.ops = 0 :: rest → s.upd.trial = true → ∃ t, exec .generationSaveDone s = .next t ∧ t.nvs.ops = rest ∧
      t.flag 3 8 = true ∧ t.nvs.probation = some s.settingsNow ∧ t.nvs.setGens = s.nvs.setGens ∧
      Kept (keysOf [NVS_MRAM_RECORDS, NVS_SAVE_SAVING, NVS_SAVE_DIRTY, LCP_AGE_STAT_SAVING]) s t) ∧
    (∀ (a : Nat) (rest : List Nat), a < 3 → s.nvs.ops = a :: rest → s.upd.trial = false → ∃ t, exec .generationSaveDone s = .next t ∧ t.nvs.ops = rest ∧ t.flag 3 8 = true ∧
        (a = 0 → t.rd NVS_GEN_SET_GEN = (s.rd NVS_GEN_SET_GEN + 1) % 2 ^ 24 ∧
          t.nvs.setGens.getD ((s.rd NVS_GEN_SET_GEN + 1) % 2) none = some s.settingsNow) ∧
        (a = 1 → t.rd NVS_GEN_TBL_GEN = (s.rd NVS_GEN_TBL_GEN + 1) % 2 ^ 24 ∧
          t.nvs.tblGens.getD ((s.rd NVS_GEN_TBL_GEN + 1) % 2) none = some s.tableWords) ∧
        (a = 2 → t.nvs.policySaved = (s.nvs.policyNext.map Prod.fst).foldl putPolicy s.nvs.policy) ∧
        Kept (keysOf [NVS_GEN_SET_GEN, NVS_GEN_TBL_GEN, UPD_SLOT_SET_FMT, NVS_MRAM_RECORDS, NVS_SAVE_SAVING, NVS_SAVE_DIRTY,
          LCP_AGE_STAT_SAVING]) s t) ∧
    (s.nvs.recBusy = false → exec .journalRecordDone s = .next s) ∧
    (s.nvs.recBusy = true → (∃ t, exec .journalRecordDone s = .next t ∧
        t.rd NVS_MRAM_RECORDS = min (s.rd NVS_MRAM_RECORDS + 1) (2 ^ 32 - 1) ∧ t.nvs.ops = s.nvs.ops ∧
        (s.upd.fifo = [] → s.nvs.ops = [] → t.nvs.recBusy = false) ∧
        (∀ i ws rest, s.upd.fifo = (i, ws) :: rest → (s.nvs.ops = [] ∨ s.upd.turn = true) → i < 1024 → ws.length = 64 →
          (s.upd.half = false → t.upd.half = true ∧ t.upd.fifo = s.upd.fifo ∧ t.rd UPD_STAGE_MISSING = s.rd UPD_STAGE_MISSING ∧
            ∀ j < 32, (t.upd.slots.getD s.spareSlot []).get (64 * i + j) = ws.getD j 0) ∧
          (s.upd.half = true → t.upd.half = false ∧ t.upd.fifo = rest ∧ t.upd.got = s.upd.got ||| 2 ^ i ∧
            t.rd UPD_STAGE_MISSING = s.rd UPD_STAGE_MISSING - 1 ∧
            ∀ j < 32, (t.upd.slots.getD s.spareSlot []).get (64 * i + 32 + j) = ws.getD (32 + j) 0)) ∧
        RegsKept (keysOf [NVS_MRAM_RECORDS, UPD_STAGE_MISSING]) s t ∧ t.win = s.win ∧ t.mem = s.mem ∧ t.out = s.out) ∧
      ∃ t, exec .journalRecordDone { s with house := { s.house with shut := true, recorded := true } } = .next t ∧
        t.nvs.recBusy = false ∧ t.rd HKT_SHUT_STAT_MRAM = 1 ∧ t.upd = s.upd)

/-! ### Registers, windows, remote access (02) -/

/-- Register and window accesses: a field takes the legal value of what is written, an RWS field in its shadow set; a locked field, a page
that the role leaves off, an address that names nothing and a width that the part does not take are discarded and captured with their codes
(SIZE in a page that is off, and in HIF for the MSI-X tables, are the model's choice, notes/assumptions/12.md); two halves are one write; a
read of a low half holds the high half until its requester reads it, and notes an uncorrectable error; a window word takes the low 64 bits its
requester holds, or keeps its own with HALF; a counter clears on all ones alone; BAR4 reads zero beyond the installed memory. An access that
does not reach the part changes nothing. -/
def Obligations.RegisterAccesses : Prop :=
  (∀ (s : State) (src : Requester), s.reachable src = false → ∀ (a h : BitVec 32) (z : AccSize) (v : Word),
    exec (.registerWrite src a z v) s = .next s ∧ exec (.counterClear src a v) s = .next s ∧ exec (.lowHalfRead src a) s = .next s ∧
    exec (.tableWindowWrite src a h) s = .next s) ∧
  (∀ (s : State) (a : Nat), s.rd FMC_MEM_CFG_CAP_GIB * 2 ^ 30 ≤ a → s.bar4Read a = 0) ∧
  ∀ (s : State) (src : Requester), s.reachable src = true →
    (∀ f ∈ allFields, 0x80 ≤ f.off → f.acc = .rw ∨ f.acc = .rws → pageActive s.role f.page = true → (f.page, f.off) ∉ [(5, 0x80), (6, 0x98)] →
      ∀ v : Word, s.loopFixed f.page f.off v.toNat = false → s.busyField f.page f.off v.toNat = none →
      ∃ t, exec (.registerWrite src (BitVec.ofNat 32 (f.page * 4096 + f.off)) .b64 v) s = .next t ∧
        (if f.acc = .rws then t.rdShadow f else t.rd f) =
          if s.fieldRsv f then (if f.acc = .rws then s.rdShadow f else s.rd f) else s.legal f v.toNat) ∧
    (∀ pg ∈ blockPages, ∀ v : Word, ∃ t, exec (.registerWrite src (BitVec.ofNat 32 (pg * 4096 + 0x20)) .b64 v) s = .next t ∧
      t.rd (INT_EN_EN pg) = v.toNat ∧ Kept (keysOf [INT_EN_EN pg]) s t) ∧
    (∀ f ∈ allFields, f.acc = .rwk → pageActive s.role f.page = true → s.on (LOCK f.page) = true → ∀ v : Word,
      ∃ t, exec (.registerWrite src (BitVec.ofNat 32 (f.page * 4096 + f.off)) .b64 v) s = .next t ∧ t.rd f = s.rd f ∧
        t.on (ERR_CAP0_VALID f.page) = true ∧ (s.on (ERR_CAP0_VALID f.page) = false → t.rd (ERR_CAP0_CODE f.page) = 4)) ∧
    (∀ pg ∈ blockPages, pageActive s.role pg = false → ∀ n < 512, offWritable (8 * n) = false → ∀ v : Word,
      ∃ t, exec (.registerWrite src (BitVec.ofNat 32 (pg * 4096 + 8 * n)) .b64 v) s = .next t ∧ t.on (ERR_CAP0_VALID pg) = true ∧
        (s.on (ERR_CAP0_VALID pg) = false → t.rd (ERR_CAP0_CODE pg) = 3 ∧ t.rd (ERR_CAP1_VALUE pg) = v.toNat) ∧
        Kept (keysOf (errFields pg)) s t) ∧
    (∀ (a : BitVec 32) (z : AccSize) (v : Word), target a.toNat = .unmapped → ∃ t, exec (.registerWrite src a z v) s = .next t ∧
      t.on (ERR_CAP0_VALID 0) = true ∧ (s.on (ERR_CAP0_VALID 0) = false → t.rd (ERR_CAP0_CODE 0) = 9) ∧ Kept (keysOf (errFields 0)) s t) ∧
    (∀ pg ∈ blockPages, ∀ n < 4096, ∀ z ∈ [AccSize.b8, .b16], ∀ v : Word,
      ∃ t, exec (.registerWrite src (BitVec.ofNat 32 (pg * 4096 + n)) z v) s = .next t ∧ t.on (ERR_CAP0_VALID pg) = true ∧
        (s.on (ERR_CAP0_VALID pg) = false → t.rd (ERR_CAP0_CODE pg) = 7) ∧ Kept (keysOf (errFields pg)) s t) ∧
    (∀ pg ∈ blockPages, ∀ n < 512, pg * 4096 + 8 * n ∉ [0x90A0, 0x90A8, 0x6098, 0xB0] → ∀ l h : Word, ∃ t u,
      exec (.registerWrite src (BitVec.ofNat 32 (pg * 4096 + 8 * n)) .lo l) s = .next t ∧ t.live = s.live ∧ t.win = s.win ∧ t.mem = s.mem ∧
      exec (.registerWrite src (BitVec.ofNat 32 (pg * 4096 + 8 * n + 4)) .hi h) t = .next u ∧
      exec (.registerWrite src (BitVec.ofNat 32 (pg * 4096 + 8 * n)) .b64 (BitVec.ofNat 64 (l.toNat % 2 ^ 32 + h.toNat % 2 ^ 32 * 2 ^ 32)))
        { s with host := { s.host with wHold := s.host.wHold.filter fun e => !(e.1 == src) } } = .next u) ∧
    (∀ n < 4096, ∀ z ∈ [AccSize.b8, .b16], ∀ v : Word, pageActive s.role 0x15 = true →
      ∃ t, exec (.registerWrite src (BitVec.ofNat 32 (0x3E000 + n)) z v) s = .next t ∧ t.on (ERR_CAP0_VALID 0) = true ∧
        (s.on (ERR_CAP0_VALID 0) = false → t.rd (ERR_CAP0_CODE 0) = 7) ∧ Kept (keysOf (errFields 0)) s t) ∧
    (∀ a : BitVec 32, ∃ t, exec (.lowHalfRead src a) s = .next t ∧
      (t.highHalfRead src a.toNat).2 = bitsOf (s.read64 (a.toNat / 8 * 8)) 63 32 ∧
      (∀ q, q ≠ src → ∀ b, lowHeld t.host.rHold q b = lowHeld s.host.rHold q b) ∧
      (let u := (t.highHalfRead src a.toNat).1
       (u.highHalfRead src a.toNat).2 = bitsOf (u.read64 (a.toNat / 8 * 8)) 63 32 ∧ u.live = t.live ∧ u.win = t.win ∧ u.mem = t.mem) ∧
      (∀ i b, target (a.toNat / 8 * 8) = .window i b → s.ue.contains i = true → t.on (ERR_CAP0_VALID (winOwner i)) = true ∧
        (s.on (ERR_CAP0_VALID (winOwner i)) = false → t.rd (ERR_CAP0_CODE (winOwner i)) = 0x0A) ∧ Kept (keysOf (errFields (winOwner i))) s t) ∧
      ((∀ i b, target (a.toNat / 8 * 8) = .window i b → s.ue.contains i = false) → t = { s with host := t.host })) ∧
    (∀ i < 0xC00000, ∀ v : Word,
      (winReserved (16 * i) = false → exec (.registerWrite src (BitVec.ofNat 32 (0x10000000 + 16 * i)) .b64 v) s = .next { s with host := { s.host with
        winHold := (src, i, v.toNat) :: s.host.winHold.filter fun e => !(e.1 == src) } }) ∧
      (winReserved (16 * i) = false → pageActive s.role (winOwner i) = false → lowHeld s.host.winHold src i ≠ none → ∀ h : BitVec 32,
        ∃ t, exec (.tableWindowWrite src (BitVec.ofNat 32 (0x10000008 + 16 * i)) h) s = .next t ∧ t.on (ERR_CAP0_VALID (winOwner i)) = true ∧
          (s.on (ERR_CAP0_VALID (winOwner i)) = false → t.rd (ERR_CAP0_CODE (winOwner i)) = 3 ∧ t.rd (ERR_CAP1_VALUE (winOwner i)) = 16 * i) ∧
          Kept (keysOf (errFields (winOwner i))) s t)) ∧
    (∀ i < 0x100000, ∀ h : BitVec 32, s.hasPixels = true →
      (∀ l, lowHeld s.host.winHold src (0x600000 + i) = some l →
        ∃ t, exec (.tableWindowWrite src (BitVec.ofNat 32 (0x16000008 + 16 * i)) h) s = .next t ∧
          t.word (0x600000 + i) = BitVec.ofNat 72 (l + h.toNat % 256 * 2 ^ 64) ∧ lowHeld t.host.winHold src (0x600000 + i) = none ∧
          RegsKept (fun _ => false) s t ∧ WordsKept (fun k => k == 0x600000 + i) s t ∧ (s.quietMem → t.mem = s.mem)) ∧
      (lowHeld s.host.winHold src (0x600000 + i) = none →
        ∃ t, exec (.tableWindowWrite src (BitVec.ofNat 32 (0x16000008 + 16 * i)) h) s = .next t ∧
          (t.word (0x600000 + i)).toNat = (s.word (0x600000 + i)).toNat % 2 ^ 64 + h.toNat % 256 * 2 ^ 64 ∧
          t.on (ERR_CAP0_VALID 0x20) = true ∧ (s.on (ERR_CAP0_VALID 0x20) = false → t.rd (ERR_CAP0_CODE 0x20) = 6) ∧
          RegsKept (keysOf (errFields 0x20)) s t ∧ WordsKept (fun k => k == 0x600000 + i) s t ∧ (s.quietMem → t.mem = s.mem))) ∧
    ∀ f ∈ allFields, f.acc = .w1c → 0x80 ≤ f.off → w1cBits f = false → noteKey f.key = false → pageActive s.role f.page = true → ∀ v : Word,
      f ≠ WTU_TB_CTRL_LATE_CNT ∨ v.toNat.testBit 48 = false → ∃ t, exec (.counterClear src (BitVec.ofNat 32 (f.page * 4096 + f.off)) v) s = .next t ∧
        t.rd f = (if f.of v.toNat = 2 ^ f.w - 1 then 0 else s.rd f) ∧
        Kept (orKeys (regKeys f.page f.off) fun k => f.page == 8 && [0xD0, 0xE0, 0xE8, 0x130, 0x138].contains f.off && pagesOf timePages k) s t

/-- The commands of a page's header: COMMIT and DISCARD on the shadow set, a snapshot from request to copy, LOCK, the reset of a block
and its end, EN, an overflow at a crossing, and the mask of an MSI-X vector. In a page that the role leaves off they are captured with
ROLE_OFF; where no access reaches the part, they change nothing. -/
def Obligations.PageHeaders : Prop :=
  (∀ (s : State) (src : Requester) (b : Bool) (pg : BitVec 8), s.reachable src = false →
    exec (.commit src pg) s = .next s ∧ exec (.discard src pg) s = .next s ∧ exec (.snapReq src pg) s = .next s ∧
    exec (.lockSet src pg) s = .next s ∧ exec (.blkReset src pg) s = .next s ∧ exec (.blkCtrlEn src pg b) s = .next s) ∧
  (∀ (s : State) (v : BitVec 6), s.reachable .pcie = false → exec (.msixUnmask v) s = .next s) ∧
  ∀ (s : State) (src : Requester), s.reachable src = true → ∀ pg ∈ blockPages,
    (pageActive s.role pg = true →
      (pageHasRws pg = true →
        (∃ t, exec (.commit src (BitVec.ofNat 8 pg)) s = .next t ∧ t.rd (SHD_STAT_APPLY_FRAME pg) = s.commitTarget % 2 ^ 48 ∧
          t.commits = s.commits.accept pg s.commitTarget ∧ (∀ f ∈ rwsFields pg, t.committed.get f.key = s.shadow.get f.key) ∧
          t.shadow = s.shadow ∧ Kept (keysOf [SHD_STAT_APPLY_FRAME pg, SHD_CTRL_RDACT pg]) s t) ∧
        ∃ t, exec (.discard src (BitVec.ofNat 8 pg)) s = .next t ∧ t.rd (SHD_STAT_DIRTY pg) = 0 ∧ t.commits = s.commits ∧
          (∀ f ∈ rwsFields pg, t.shadow.get f.key = if s.commits.done.contains pg then s.committed.get f.key else s.live.get f.key) ∧
          Kept (keysOf [SHD_STAT_DIRTY pg, SHD_CTRL_RDACT pg]) s t) ∧
      (pageHasRws pg = false → exec (.commit src (BitVec.ofNat 8 pg)) s = .next s ∧ exec (.discard src (BitVec.ofNat 8 pg)) s = .next s) ∧
      (∃ t, exec (.snapReq src (BitVec.ofNat 8 pg)) s = .next t ∧ t.rd (SNAP_DONE pg) = 0 ∧ pg ∈ t.host.snapBusy ∧
        t.snapd = s.snapd ∧ Kept (keysOf [SNAP_DONE pg, SNAP_AUTO pg]) s t) ∧
      (∃ t, exec (.lockSet src (BitVec.ofNat 8 pg)) s = .next t ∧ t.rd (LOCK pg) = 1 ∧ Kept (keysOf [LOCK pg]) s t) ∧
      (∃ t, exec (.blkReset src (BitVec.ofNat 8 pg)) s = .next t ∧ t.rd (BLK_CTRL_BRST pg) = 1 ∧ t.rd (BLK_STAT_RDY pg) = 0 ∧
        t.rd (BLK_STAT_XRDY pg) = 0 ∧ pg ∉ t.host.snapBusy ∧ (∀ e ∈ t.commits.pend, e.1 ≠ pg) ∧ (∀ e ∈ t.xing, e.1 % 256 ≠ pg) ∧
        (∀ q ∈ crossings pg, q ≠ pg → pageActive s.role q = true → s.on (BLK_STAT_RDY q) = true → t.rd (BLK_STAT_XRDY q) = 0) ∧
        (∀ f ∈ pageFields pg, f.ret = .b ∨ f.ret = .t → noteKey f.key = false → epochFld f = false → 0x18 ≤ f.off →
          t.rd f = if [0x18, 0x19].contains pg && (List.range 5).any (fun l => f == QP_LANE_STAT_STATE (pg - 0x18) l && s.lane (pg - 0x18) l == 5)
            then 5 else f.rst) ∧
        RegsKept (fun k => pagesOf (pg :: 3 :: timePages) k || [8, 16].contains (k / 64 % 4096) ||
          ([0x18, 0x19].contains pg && pagesOf [0x1A] k)) s t) ∧
      (∀ v : Bool, ∃ t, exec (.blkCtrlEn src (BitVec.ofNat 8 pg) v) s = .next t ∧ t.rd (BLK_CTRL_EN pg) = b2n v ∧
        Kept (orKeys (keysOf [BLK_CTRL_EN pg, BLK_CTRL_CGATE pg, NVS_POWER_STATE, NVS_POWER_FRAME])
          (if v = false ∧ pg ∈ [0x21, 0x22, 0x28, 0x29, 0x2A, 0x2B] then pagesOf lampPages else fun _ => false)) s t) ∧
      (s.on (BLK_CTRL_BRST pg) = true → ∃ t, exec (.blkResetDone (BitVec.ofNat 8 pg)) s = .next t ∧ t.rd (BLK_STAT_RDY pg) = 1 ∧
        ((∀ q ∈ crossings pg, pageActive s.role q = true → s.on (BLK_STAT_RDY q) = true ∧ s.on (BLK_CTRL_CGATE q) = false) →
          t.rd (BLK_STAT_XRDY pg) = 1 ∧ t.rd (BLK_CTRL_BRST pg) = 0 ∧ ∀ e ∈ t.xing, e.1 % 256 ≠ pg) ∧
        RegsKept (fun k => [8, 16].contains (k / 64 % 4096) || (pg == 7 && pagesOf [7] k)) s t ∧ WordsKept (fun _ => false) s t ∧
        (s.quietMem → t.mem = s.mem)) ∧
      (s.on (BLK_CTRL_BRST pg) = false → exec (.blkResetDone (BitVec.ofNat 8 pg)) s = .next s) ∧
      (∀ x : Word, ∃ t, exec (.xovf (BitVec.ofNat 8 pg) x) s = .next t ∧ t.on (BLK_STAT_XOVF pg) = true ∧
        t.xing.get (xingKey pg x.toNat) = 0xFFFF ∧ (s.on (BLK_STAT_XOVF pg) = false → t.flag pg 1 = true) ∧
        (s.on (ERR_CAP0_VALID pg) = false → t.rd (ERR_CAP0_CODE pg) = 8 ∧ t.rd (ERR_CAP1_VALUE pg) = x.toNat) ∧
        Kept (keysOf (BLK_STAT_XOVF pg :: errFields pg)) s t)) ∧
    (pageActive s.role pg = false →
      (∀ x : Word, exec (.blkResetDone (BitVec.ofNat 8 pg)) s = .next s ∧ exec (.xovf (BitVec.ofNat 8 pg) x) s = .next s) ∧
      ∀ c ∈ [Instr.commit src (BitVec.ofNat 8 pg), .discard src (BitVec.ofNat 8 pg), .snapReq src (BitVec.ofNat 8 pg),
          .lockSet src (BitVec.ofNat 8 pg), .blkReset src (BitVec.ofNat 8 pg), .blkCtrlEn src (BitVec.ofNat 8 pg) true],
        ∃ t, exec c s = .next t ∧ t.on (ERR_CAP0_VALID pg) = true ∧ (s.on (ERR_CAP0_VALID pg) = false → t.rd (ERR_CAP0_CODE pg) = 3) ∧
          Kept (keysOf (errFields pg)) s t) ∧
    (∀ t0 : Nat, pg ∈ s.host.snapBusy → ∃ t, exec (.snapshotComplete (BitVec.ofNat 8 pg) t0) s = .next t ∧ t.rd (SNAP_DONE pg) = 1 ∧
      t.flag pg 3 = true ∧ pg ∉ t.host.snapBusy ∧
      (∀ f ∈ snapFields pg, noteKey f.key = false → t.snapd.get f.key = t.live.get f.key) ∧
      (pg = 8 → t.rd WTU_NOW_SEC_SEC = t0 / 65536 / 1000000000 % 2 ^ 48 ∧ t.rd WTU_NOW_NS_NS = t0 / 65536 % 1000000000 ∧
        t.rd WTU_NOW_NS_FRAC = t0 % 65536 ∧ Kept (pagesOf [8]) s t) ∧
      (pg ≠ 8 → t.rd (SNAP_FRAME pg) = s.frame % 2 ^ 48) ∧
      (pg = 9 → Kept (pagesOf [9]) s t) ∧ (pg = 0x15 → Kept (pagesOf [0x15]) s t) ∧
      (pg ≠ 8 → pg ≠ 9 → pg ≠ 0x15 → Kept (keysOf [SNAP_DONE pg, SNAP_FRAME pg]) s t)) ∧
    (∀ t0, pg ∉ s.host.snapBusy → exec (.snapshotComplete (BitVec.ofNat 8 pg) t0) s = .next s) ∧
    ∀ v : BitVec 6, v.toNat < 44 → src = .pcie → ∃ t, exec (.msixUnmask v) s = .next t ∧ t.host.msixOpen.toNat.testBit v.toNat = true ∧
      (s.host.msixOpen.toNat.testBit v.toNat = false → s.intStat v.toNat ≠ 0 → Sent s t (.msix v.toNat) ∧
        t.host.msixPba.toNat.testBit v.toNat = false) ∧ t.live = s.live ∧ t.win = s.win ∧ t.mem = s.mem

/-- Remote register access: GO issues one access with its deadline, is discarded with RA_BUSY while one is in flight, and ends at once for a
node that is not enumerated or not reached; its response or its time-out ends it, a response that comes later is counted, and one to an access
relayed for the partner goes back to it. The target executes a request that comes before its deadline, by the rules of a local access, and
answers it. The debug SPI and the bulk commands: the command bytes of R50; a locked port answers LOCKED and zero data; a read has no effect
but its answer (and a note of an uncorrectable error), a write is a write of the register or word; a bulk command on this node reads or writes
every word in turn and is answered with the count, or with the status of the access that ends it. -/
def Obligations.RemoteDebugAndBulkAccess : Prop :=
  (∀ s : State,
     (∀ (src : Requester) (t : Nat), RaIssues (.raRead64 src t) 0 t src s ∧ RaIssues (.raWrite64 src t) 1 t src s ∧
       RaIssues (.raRead72 src t) 2 t src s ∧ RaIssues (.raWrite72 src t) 3 t src s ∧ RaIssues (.raSnapread src t) 4 t src s ∧
       RaIssues (.raCommit src t) 5 t src s) ∧
     (∀ (r : RemoteReq) (t : Nat), ahead r.deadline t = false ∨ s.reachable .remote = false → exec (.remoteAccessRequest r t) s = .next s) ∧
     (∀ (r : RemoteReq) (t : Nat), ahead r.deadline t = true → s.reachable .remote = true → s.reaches (r.src.toNat / 4096) = true →
       (s.host.remoteForbidden = true → ∃ u, exec (.remoteAccessRequest r t) s = .next u ∧ RaAnswered s u r 8 0 ∧ Kept (fun _ => false) s u) ∧
       (s.host.remoteForbidden = false →
         (6 ≤ r.op.toNat → ∃ u, exec (.remoteAccessRequest r t) s = .next u ∧ RaAnswered s u r 4 0 ∧ Kept (fun _ => false) s u) ∧
         (s.addrCode r.addr.toNat ≠ 0 → r.op = 0 ∨ r.op = 2 → ∃ u, exec (.remoteAccessRequest r t) s = .next u ∧
           RaAnswered s u r (s.addrCode r.addr.toNat) 0 ∧ Kept (fun _ => false) s u) ∧
         (s.addrCode r.addr.toNat = 0 → r.op = 0 → ∃ u, exec (.remoteAccessRequest r t) s = .next u ∧
           RaAnswered s u r 0 (s.read64 r.addr.toNat) ∧
           Kept (fun k => keysOf ((List.range 64).flatMap errFields) k && decide (0x10000000 ≤ r.addr.toNat)) s u) ∧
         (∀ pg off, target r.addr.toNat = .page pg off → s.addrCode r.addr.toNat = 0 → r.op = 2 →
           ∃ u, exec (.remoteAccessRequest r t) s = .next u ∧ RaAnswered s u r 0 (s.readAddr r.addr.toNat).toNat ∧ Kept (fun _ => false) s u) ∧
         (∀ pg ∈ blockPages, pageActive s.role pg = true → r.addr.toNat = pg * 4096 + 0x80 →
           (r.op = 4 → ∃ u, exec (.remoteAccessRequest r t) s = .next u ∧ u.rd (SNAP_DONE pg) = 1 ∧
             RaAnswered s u r 0 (u.readReg pg 0x80) ∧ Kept (pagesOf [pg]) s u) ∧
           (r.op = 5 → pageHasRws pg = true → ∃ u, exec (.remoteAccessRequest r t) s = .next u ∧
             u.commits = s.commits.accept pg s.commitTarget ∧ RaAnswered s u r 0 (u.shdStat pg) ∧
             Kept (keysOf [SHD_STAT_APPLY_FRAME pg, SHD_CTRL_RDACT pg]) s u)) ∧
         (∀ i < 0x100000, r.addr.toNat = 0x16000000 + 16 * i → r.op = 3 → s.hasPixels = true →
           ∃ u, exec (.remoteAccessRequest r t) s = .next u ∧ u.word (0x600000 + i) = r.data ∧ RaAnswered s u r 0 0 ∧
             RegsKept (fun _ => false) s u ∧ WordsKept (fun k => k == 0x600000 + i) s u ∧ (s.quietMem → u.mem = s.mem)) ∧
         (∀ pg ∈ blockPages, r.addr.toNat = pg * 4096 + 0x20 → r.op = 1 → ∃ u, exec (.remoteAccessRequest r t) s = .next u ∧
           u.rd (INT_EN_EN pg) = r.data.toNat % 2 ^ 64 ∧ RaAnswered s u r 0 0 ∧ Kept (keysOf [INT_EN_EN pg]) s u))) ∧
     (∀ (n : BitVec 6) (id : BitVec 12) (code : BitVec 4) (data : Word72),
       (∀ x ∈ s.link.relays.head?, s.isSender = true → x.id = id.toNat → x.node = n.toNat →
         ∃ u, exec (.remoteAccessResponse n id code data) s = .next u ∧ u.host = s.host ∧ x ∉ u.link.relays ∧ Kept (fun _ => false) s u) ∧
       (s.isSender = false ∨ (∀ x ∈ s.link.relays, x.id ≠ id.toNat ∨ x.node ≠ n.toNat) →
         ((n.toNat, id.toNat) ∈ s.host.raLate → ∃ u, exec (.remoteAccessResponse n id code data) s = .next u ∧
           u.rd HIF_RA_STAT_LATE = min (s.rd HIF_RA_STAT_LATE + 1) 65535 ∧ (n.toNat, id.toNat) ∉ u.host.raLate ∧ u.host.ra = s.host.ra ∧
           u.on (ERR_CAP0_VALID 0) = true ∧ (s.on (ERR_CAP0_VALID 0) = false → u.rd (ERR_CAP0_CODE 0) = 12) ∧
           Kept (keysOf (HIF_RA_STAT_LATE :: errFields 0)) s u) ∧
         ((n.toNat, id.toNat) ∉ s.host.raLate → s.host.ra = none → exec (.remoteAccessResponse n id code data) s = .next s) ∧
         ((n.toNat, id.toNat) ∉ s.host.raLate → ∀ f, s.host.ra = some f →
           (f.node ≠ n.toNat ∨ f.id ≠ id.toNat → exec (.remoteAccessResponse n id code data) s = .next s) ∧
           (f.node = n.toNat → f.id = id.toNat →
             ∃ u, exec (.remoteAccessResponse n id code data) s = .next u ∧ u.host.ra = none ∧ u.rd HIF_RA_STAT_BUSY = 0 ∧
               u.rd HIF_RA_STAT_DONE = 1 ∧ u.rd HIF_RA_STAT_CODE = code.toNat ∧ u.flag 0 4 = true ∧
               u.rd HIF_RA_DATA_DATA = (if f.op = 1 ∨ f.op = 3 then s.rd HIF_RA_DATA_DATA else data.toNat % 2 ^ 64) ∧
               u.rd HIF_RA_STAT_TAG = (if f.op = 2 then data.toNat / 2 ^ 64 else s.rd HIF_RA_STAT_TAG) ∧
               Kept (keysOf [HIF_RA_STAT_BUSY, HIF_RA_STAT_DONE, HIF_RA_STAT_CODE, HIF_RA_STAT_TAG, HIF_RA_DATA_DATA]) s u)))) ∧
     (∀ t : Nat, s.host.ra = none → exec (.remoteAccessTimeout t) s = .next s) ∧
     (∀ f, s.host.ra = some f → ∀ t : Nat,
       (f.deadline + 200 * 65536000 ≤ t → ∃ u, exec (.remoteAccessTimeout t) s = .next u ∧ u.host.ra = none ∧ u.rd HIF_RA_STAT_BUSY = 0 ∧
         u.rd HIF_RA_STAT_DONE = 1 ∧ u.rd HIF_RA_STAT_CODE = 1 ∧ u.flag 0 4 = true ∧ (f.node, f.id) ∈ u.host.raLate ∧
         Kept (keysOf [HIF_RA_STAT_BUSY, HIF_RA_STAT_DONE, HIF_RA_STAT_CODE]) s u) ∧
       (t < f.deadline + 200 * 65536000 → exec (.remoteAccessTimeout t) s = .next s))) ∧
  (∀ (b : BitVec 8) (a : BitVec 32) (d : Word72), spiCommand b a d =
    if b = 0x0B then some (.spiRead64 a) else if b = 0x02 then some (.spiWrite64 a (d.setWidth 64))
    else if b = 0x0C then some (.spiRead72 a) else if b = 0x03 then some (.spiWrite72 a d) else none) ∧
  (∀ s : State,
     (∀ (a : BitVec 32) (d : Word) (e : Word72),
       (s.reachable .spi = false → exec (.spiRead64 a) s = .next s ∧ exec (.spiWrite64 a d) s = .next s ∧ exec (.spiRead72 a) s = .next s ∧
         exec (.spiWrite72 a e) s = .next s) ∧
       (s.reachable .spi = true → s.host.spiLocked = true →
         exec (.spiRead64 a) s = .next { s with out := .spi 6 0 :: s.out } ∧ exec (.spiWrite64 a d) s = .next { s with out := .spi 6 0 :: s.out } ∧
         exec (.spiRead72 a) s = .next { s with out := .spi 6 0 :: s.out } ∧ exec (.spiWrite72 a e) s = .next { s with out := .spi 6 0 :: s.out }) ∧
       (s.reachable .spi = true → s.host.spiLocked = false → target a.toNat = .unmapped →
         (∃ t, exec (.spiRead64 a) s = .next t ∧ Sent s t (.spi 4 0) ∧ t.live = s.live ∧ t.win = s.win ∧ t.mem = s.mem) ∧
         (∃ t, exec (.spiWrite64 a d) s = .next t ∧ Sent s t (.spi 4 0) ∧ t.on (ERR_CAP0_VALID 0) = true ∧ Kept (keysOf (errFields 0)) s t) ∧
         (∃ t, exec (.spiRead72 a) s = .next t ∧ Sent s t (.spi 4 0) ∧ t.live = s.live ∧ t.win = s.win ∧ t.mem = s.mem) ∧
         ∃ t, exec (.spiWrite72 a e) s = .next t ∧ Sent s t (.spi 4 0) ∧ t.on (ERR_CAP0_VALID 0) = true ∧ Kept (keysOf (errFields 0)) s t)) ∧
     (s.reachable .spi = true → s.host.spiLocked = false →
       (∀ a : BitVec 32, s.addrCode a.toNat = 0 →
         let own (k : Nat) : Bool := keysOf ((List.range 64).flatMap errFields) k && decide (0x10000000 ≤ a.toNat)
         (∃ t, exec (.spiRead64 a) s = .next t ∧ Sent s t (.spi 0 (BitVec.ofNat 72 (s.drawn.read64 a.toNat))) ∧ Kept own s t) ∧
         ∃ t, exec (.spiRead72 a) s = .next t ∧ Sent s t (.spi 0 (s.drawn.readAddr a.toNat)) ∧ Kept own s t) ∧
       (∀ pg ∈ blockPages, ∀ v : Word, ∃ t, exec (.spiWrite64 (BitVec.ofNat 32 (pg * 4096 + 0x20)) v) s = .next t ∧
         t.rd (INT_EN_EN pg) = v.toNat ∧ Sent s t (.spi 0 0) ∧ Kept (keysOf [INT_EN_EN pg]) s t) ∧
       ∀ i < 0x100000, s.hasPixels = true → ∀ v : Word72, ∃ t, exec (.spiWrite72 (BitVec.ofNat 32 (0x16000000 + 16 * i)) v) s = .next t ∧
         t.word (0x600000 + i) = v ∧ Sent s t (.spi 0 0) ∧ RegsKept (fun _ => false) s t ∧ WordsKept (fun k => k == 0x600000 + i) s t ∧
         (s.quietMem → t.mem = s.mem)) ∧
     (∀ (r : Req) (n : BitVec 6) (i : Nat), s.heldReqs < 16 → n.toNat = s.node → s.hasPixels = true →
       (∀ k : BitVec 16, k.toNat ≤ 17900 → i + k.toNat ≤ 0x100000 → (∀ j < k.toNat, 0x600000 + i + j ∉ s.ue) →
         ∃ t, exec (.bulkRead r n (BitVec.ofNat 32 (0x16000000 + 16 * i)) k) s = .next t ∧
           Answered s t r 0x40 0 (k.toNat :: (List.range k.toNat).map fun j => (s.word (0x600000 + i + j)).toNat) ∧
           Kept (fun _ => false) s t) ∧
       ∀ ws : List Word72, ws.length ≤ 17900 → i + ws.length ≤ 0x100000 →
         ∃ t, exec (.bulkWrite r n (BitVec.ofNat 32 (0x16000000 + 16 * i)) ws) s = .next t ∧ Answered s t r 0x41 0 [ws.length] ∧
           (∀ j < ws.length, t.word (0x600000 + i + j) = ws.getD j 0) ∧ RegsKept (fun _ => false) s t ∧
           WordsKept (fun k => decide (0x600000 + i ≤ k ∧ k < 0x600000 + i + ws.length)) s t ∧ (s.quietMem → t.mem = s.mem)) ∧
     (∀ (r : Req) (n : BitVec 6) (a : BitVec 32), s.heldReqs < 16 → n.toNat = s.node → target a.toNat = .unmapped →
       (∃ t, exec (.bulkRead r n a 1) s = .next t ∧ Answered s t r 0x40 5 [0] ∧ Kept (fun _ => false) s t) ∧
       ∃ t, exec (.bulkWrite r n a [0]) s = .next t ∧ Answered s t r 0x41 5 [0] ∧ Kept (keysOf (errFields 0)) s t) ∧
     ∀ (r : Req) (n : BitVec 6) (a : BitVec 32), s.heldReqs < 16 → n.toNat ≠ s.node → s.enumerated n.toNat = false →
       (∃ t, exec (.bulkRead r n a 1) s = .next t ∧ Answered s t r 0x40 10 [0] ∧ Kept (fun _ => false) s t) ∧
       ∃ t, exec (.bulkWrite r n a [0]) s = .next t ∧ Answered s t r 0x41 10 [0] ∧ Kept (fun _ => false) s t)

/-! ### Register writes with a command of their own -/

/-- Register commands of a sender's blocks: a mode change ends the frame in progress and drops LINK; the EDID's last word raises the hot-plug
interrupt; ING.STREAM joins its group in mode 2; BUF_REL frees a buffer, defers one in use and refuses one that is free; PREP.GO starts one
preparation; a swap, a take and a rehearsal begin where their conditions hold, and are discarded with BUSY where they do not. Where no access
reaches the part they change nothing. -/
def Obligations.SenderRegisterCommands : Prop :=
  (∀ (s : State) (src : Requester) (p : Fin 4) (sd : Fin 2) (v : Word) (h : BitVec 12) (b : BitVec 1) (w : Nat), s.reachable src = false →
    exec (.ingModeChange src p v) s = .next s ∧ exec (.edidWrite src p v) s = .next s ∧ exec (.streamWrite src p v) s = .next s ∧
    exec (.bufRelease src h) s = .next s ∧ exec (.bankPrepare src b) s = .next s ∧ exec (.swapGo src sd w) s = .next s ∧
    exec (.swapTake src sd) s = .next s ∧ exec (.rehGo src sd w) s = .next s) ∧
  ∀ (s : State) (src : Requester), s.Inv → s.reachable src = true →
    (pageActive s.role 0x10 = true → ∀ (p : Fin 4) (v : Word),
      (let x := (ING_CFG_MODE p).of v.toNat
        let m := if x = 3 then 0 else x
        ∃ t, exec (.ingModeChange src p v) s = .next t ∧ t.ingMode p = m ∧
          (m = s.ingMode p → t.ports = s.ports) ∧
          (m ≠ s.ingMode p → (t.port p).cur = none ∧ (t.port p).holdMode = true ∧ t.rd (ING_SRC_STAT_LINK p) = 0 ∧
            (∀ q, q ≠ p.val → t.port q = s.port q) ∧
            (s.ingMode p = 2 → (s.port p).joined = true → Sent s t (.net p .igmpLeave (s.igmpData p))) ∧
            (s.ingMode p = 0 → (t.port p).stride = t.rd (ING_BUF_STRIDE_STRIDE p) ∧ (t.port p).fmt = t.rd (ING_CFG_BUFFMT p) ∧
              (t.port p).bufn = t.rd (ING_CFG_BUFN p)) ∧
            ((s.port p).cur.isSome = true → t.flag (0x10 + p) 7 = true ∧
              t.rd (ING_CNT_A_INCOMPLETE p) = min (s.rd (ING_CNT_A_INCOMPLETE p) + 1) (2 ^ (ING_CNT_A_INCOMPLETE p).w - 1))) ∧
          Kept (orKeys (keysOf [ING_SRC_STAT_LINK p, ING_CNT_A_INCOMPLETE p]) (regKeys (0x10 + p) 0x80)) s t) ∧
      (∃ t, exec (.edidWrite src p v) s = .next t ∧ t.rd (ING_EDID_DATA p 31) = v.toNat ∧ (s.hpd p = true → Sent s t (.pin .hpdIrq p)) ∧
        Kept (regKeys (0x10 + p) 0x4F8) s t) ∧
      ∃ t, exec (.streamWrite src p v) s = .next t ∧ t.rd (ING_STREAM_DST_IP p) = v.toNat % 2 ^ 32 ∧
        (s.ingMode p = 2 → isMulticast (v.toNat % 2 ^ 32) = true → (t.port p).joined = true ∧ Sent s t (.net p .igmpJoin (t.igmpData p))) ∧
        Kept (regKeys (0x10 + p) 0xA0) s t) ∧
    (pageActive s.role 0x15 = true → ∀ h : BitVec 12,
      (h.toNat < 16 ∨ s.bufState h.toNat = 0 → ∃ t, exec (.bufRelease src h) s = .next t ∧ t.on (ERR_CAP0_VALID 0x15) = true ∧
        (s.on (ERR_CAP0_VALID 0x15) = false → t.rd (ERR_CAP0_CODE 0x15) = 0x21) ∧ Kept (keysOf (errFields 0x15)) s t) ∧
      (16 ≤ h.toNat → s.bufState h.toNat = 1 → ∃ t, exec (.bufRelease src h) s = .next t ∧ t.bufState h.toNat = 0 ∧
        t.bufValid h.toNat = false ∧ RegsKept (fun _ => false) s t ∧
        WordsKept (fun i => decide (bufKey h.toNat 0 ≤ i ∧ i < bufKey h.toNat 4)) s t ∧ (s.quietMem → t.mem = s.mem)) ∧
      (16 ≤ h.toNat → 1 < s.bufState h.toNat → ∃ t, exec (.bufRelease src h) s = .next t ∧ t.bufState h.toNat = 3 ∧
        t.rd CMP_CNT0_REL_DEFER = min (s.rd CMP_CNT0_REL_DEFER + 1) (2 ^ CMP_CNT0_REL_DEFER.w - 1) ∧
        RegsKept (keysOf [CMP_CNT0_REL_DEFER]) s t ∧
        WordsKept (fun i => decide (bufKey h.toNat 0 ≤ i ∧ i < bufKey h.toNat 4)) s t ∧ (s.quietMem → t.mem = s.mem))) ∧
    (pageActive s.role 0x17 = true → ∀ b : BitVec 1,
      (s.on IMP_PREP_STAT_BUSY = false → ∃ t, exec (.bankPrepare src b) s = .next t ∧ t.rd IMP_PREP_STAT_BUSY = 1 ∧
        t.imp.prep = some b.toNat ∧ (t.rd IMP_PREP_STAT_OK).testBit b.toNat = false ∧
        (t.rd IMP_PREP_STAT_OK).testBit (1 - b.toNat) = (s.rd IMP_PREP_STAT_OK).testBit (1 - b.toNat) ∧
        Kept (keysOf [IMP_PREP_BANK, IMP_PREP_STAT_BUSY, IMP_PREP_STAT_OK]) s t) ∧
      (s.on IMP_PREP_STAT_BUSY = true → ∃ t, exec (.bankPrepare src b) s = .next t ∧ t.imp = s.imp ∧ t.on (ERR_CAP0_VALID 0x17) = true ∧
        (s.on (ERR_CAP0_VALID 0x17) = false → t.rd (ERR_CAP0_CODE 0x17) = 0x21) ∧ Kept (regKeys 0x17 0x90) s t)) ∧
    ∀ (sd : Fin 2) (w : Nat),
      (s.swapOk sd w = true → s.suspended = false → s.rd (ARB_EPOCH_EPOCH sd) + 1 < 2 ^ 32 →
        s.frame + 4 ≤ s.swapFrame (s.rd ARB_SWAP_APPLY_FRAME) → s.swapFrame (s.rd ARB_SWAP_APPLY_FRAME) < 2 ^ 48 →
        s.rd ARB_SWAP_APPLY_FRAME < 2 ^ 48 → ∃ t, exec (.swapGo src sd w) s = .next t ∧
          t.rd (ARB_EPOCH_EPOCH sd) = s.rd (ARB_EPOCH_EPOCH sd) + 1 ∧ t.rd (ARB_EPOCH_REASON sd) = 3 ∧
          t.rd (ARB_APPLY_FRAME sd) = s.swapFrame (s.rd ARB_SWAP_APPLY_FRAME) ∧
          t.rd (ARB_CNT_SWAPS sd) = min (s.rd (ARB_CNT_SWAPS sd) + 1) 255 ∧
          Kept (orKeys (regKeys 9 0xA8) (keysOf (epochFields sd ++ [ARB_CNT_GRANTS sd, ARB_CNT_SWAPS sd]))) s t) ∧
      (s.swapOk sd w = false → ∃ t, exec (.swapGo src sd w) s = .next t ∧ t.arb = s.arb ∧ t.on (ERR_CAP0_VALID 9) = true ∧
        (s.on (ERR_CAP0_VALID 9) = false → t.rd (ERR_CAP0_CODE 9) = 0x21) ∧ Kept (regKeys 9 0xA8) s t) ∧
      (s.mayTake sd = true → s.suspended = false → s.rd (ARB_EPOCH_EPOCH sd) + 1 < 2 ^ 32 → ∃ t, exec (.swapTake src sd) s = .next t ∧
        t.rd (ARB_EPOCH_EPOCH sd) = s.rd (ARB_EPOCH_EPOCH sd) + 1 ∧ t.rd (ARB_EPOCH_REASON sd) = 5 ∧
        Kept (orKeys (regKeys 9 0xA8) (keysOf (epochFields sd ++ [ARB_CNT_GRANTS sd]))) s t) ∧
      (s.mayTake sd = false → ∃ t, exec (.swapTake src sd) s = .next t ∧ t.arb = s.arb ∧ t.on (ERR_CAP0_VALID 9) = true ∧
        (s.on (ERR_CAP0_VALID 9) = false → t.rd (ERR_CAP0_CODE 9) = 0x21) ∧ Kept (regKeys 9 0xA8) s t) ∧
      (s.mayRehearse sd = true → (s.arbSide sd).reh = none → s.rehOk sd w = true → s.suspended = false →
        s.rd (ARB_EPOCH_EPOCH sd) + 1 < 2 ^ 32 → ∃ t, exec (.rehGo src sd w) s = .next t ∧ (t.arbSide sd).reh = some ⟨none, s.frame + 8, false, false, false⟩ ∧
          t.rd (ARB_EPOCH_EPOCH sd) = s.rd (ARB_EPOCH_EPOCH sd) + 1 ∧ t.rd (ARB_EPOCH_REASON sd) = 4 ∧
          Kept (orKeys (regKeys 9 0xA0) (keysOf (epochFields sd ++ [ARB_CNT_GRANTS sd, ARB_CNT_SWAPS sd]))) s t) ∧
      (s.mayRehearse sd = true → (s.arbSide sd).reh = none → s.rehOk sd w = false → ∃ t, exec (.rehGo src sd w) s = .next t ∧
        (t.arbSide sd).reh = none ∧ t.rd ARB_REH_STAT_RESULT = 2 ∧ t.rd (ARB_EPOCH_EPOCH sd) = s.rd (ARB_EPOCH_EPOCH sd) ∧
        Kept (orKeys (regKeys 9 0xA0) (pagesOf [9])) s t) ∧
      (s.mayRehearse sd = false ∨ (s.arbSide sd).reh.isSome = true → ∃ t, exec (.rehGo src sd w) s = .next t ∧ t.arb = s.arb ∧
        t.on (ERR_CAP0_VALID 9) = true ∧ Kept (regKeys 9 0xA0) s t)

/-- Register commands of links, wall time, queues and trace: RETRAIN takes a side down at once, a swap is requested where a spare can take
the lane, ENUM_GO starts a sender's walk; ARM takes a switch that is early enough and consistent, and refuses any other with its code; a
doorbell moves TAIL and a consume HEAD, at most to what the ring holds; the trace ring stops and goes on. Where no access reaches the part
they change nothing. -/
def Obligations.LinkAndQueueRegisterCommands : Prop :=
  (∀ (s : State) (src : Requester) (sd : Fin 2) (l : BitVec 4) (v : Word) (q : BitVec 12) (n : BitVec 17), s.reachable src = false →
    exec (.retrain src sd) s = .next s ∧ exec (.laneSwapGo src sd l) s = .next s ∧ exec (.enumGo src sd) s = .next s ∧
    exec (.tbArm src v) s = .next s ∧ exec (.doorbell src q n) s = .next s ∧ exec (.consume src q n) s = .next s ∧
    exec (.traceFreeze src) s = .next s ∧ exec (.traceUnfreeze src) s = .next s) ∧
  ∀ (s : State) (src : Requester), s.Inv → s.reachable src = true →
    (∀ sd : Fin 2, ∃ t, exec (.retrain src sd) s = .next t ∧ t.rd (QP_SIDE_STAT_STATE sd) = 0 ∧
      (∀ l < 5, t.lane sd l = if s.lane sd l = 5 then 5 else 0) ∧
      (s.sideIsUp sd = true → t.flag (0x18 + sd) 5 = true ∧ t.rd (QP_CNT_SIDE_DOWNS sd) = min (s.rd (QP_CNT_SIDE_DOWNS sd) + 1) 65535) ∧
      RegsKept (orKeys (pagesOf ((0x18 + sd.val) :: 0x1A :: timePages)) (regKeys (0x18 + sd) 0x88)) s t ∧ WordsKept (fun _ => false) s t ∧
      (s.quietMem → t.mem = s.mem)) ∧
    (∀ (sd : Fin 2) (l : BitVec 4), ∃ t, exec (.laneSwapGo src sd l) s = .next t ∧
      (s.sideIsUp sd = true → l.toNat < 5 → s.logOf sd l.toNat < 7 → (t.side sd).swapReq = some l.toNat ∧ t.side (1 - sd.val) = s.side (1 - sd.val) ∧
        (s.spareUp sd = true → (s.rd (QP_SIDE_STAT_LANE_WORN sd)).testBit (s.rd (QP_SIDE_STAT_SPARE sd)) = false →
          t.swapWish sd = some l.toNat)) ∧
      (s.sideIsUp sd = false ∨ 5 ≤ l.toNat ∨ 7 ≤ s.logOf sd l.toNat → t.sides = s.sides) ∧
      RegsKept (regKeys (0x18 + sd) 0x88) s t ∧ WordsKept (fun _ => false) s t ∧ (s.quietMem → t.mem = s.mem)) ∧
    (∀ sd : Fin 2, (s.isSender = true → s.sideIsUp sd = true → ∃ t f w, exec (.enumGo src sd) s = .next t ∧ Sent s t (.folio sd f w) ∧
        f.typ = 0xB ∧ sd.val ∈ t.link.walks ∧ RegsKept (regKeys 0x1A 0x88) s t ∧ WordsKept (fun _ => false) s t ∧
        (s.quietMem → t.mem = s.mem)) ∧
      (s.isSender = false ∨ s.sideIsUp sd = false → ∃ t, exec (.enumGo src sd) s = .next t ∧ t.link = s.link ∧ t.sides = s.sides ∧
        Kept (regKeys 0x1A 0x88) s t)) ∧
    (∀ v : Word, s.isTile = true → ∃ t, exec (.tbArm src v) s = .next t ∧ t.wtu = s.wtu ∧ t.on (ERR_CAP0_VALID 8) = true ∧
      (s.on (ERR_CAP0_VALID 8) = false → t.rd (ERR_CAP0_CODE 8) = 5) ∧ Kept (regKeys 8 0xC8) s t) ∧
    (∀ v : Word, s.isTile = false → v.toNat / 2 ^ 50 = 0 →
      let sw := v.toNat % 2 ^ 48
      let new := if v.toNat.testBit 49 then s.nx.withT0 ((s.tb.tick sw + wallRange - s.nx.span sw % wallRange) % wallRange) else s.nx
      let badTick := new.tick sw < s.tb.tick sw ∨ s.tb.tick sw + (new.tick (sw + 1) - new.tick sw) < new.tick sw ∨
        new.tick sw ≤ s.tb.tick (sw - 1) + new.lUs * 65536000
      (sw < s.frame + 8 → ∃ t, exec (.tbArm src v) s = .next t ∧ t.wtu = s.wtu ∧ t.on (ERR_CAP0_VALID 8) = true ∧
        (s.on (ERR_CAP0_VALID 8) = false → t.rd (ERR_CAP0_CODE 8) = 0x40) ∧ Kept (regKeys 8 0xC8) s t) ∧
      (s.frame + 8 ≤ sw → badTick → ∃ t, exec (.tbArm src v) s = .next t ∧ t.wtu = s.wtu ∧ t.on (ERR_CAP0_VALID 8) = true ∧
        (s.on (ERR_CAP0_VALID 8) = false → t.rd (ERR_CAP0_CODE 8) = 0x41) ∧ Kept (regKeys 8 0xC8) s t) ∧
      (s.frame + 8 ≤ sw → ¬ badTick → ∃ t, exec (.tbArm src v) s = .next t ∧ t.rd WTU_TB_CTRL_PEND = 1 ∧ t.flag 8 8 = true ∧
        t.wtu.switch = some ⟨sw, { new with fM1 := new.legalF }⟩ ∧
        Kept (orKeys (regKeys 8 0xC8) (keysOf ([WTU_NX_T0S_SEC, WTU_NX_T0NS_NS, WTU_NX_T0NS_FRAC, LCP_PRESS_NEED_US, LCP_PRESS_LEAD_US] ++
          errFields 0x21))) s t)) ∧
    (∀ (q : BitVec 12) (n : BitVec 17), let v := s.queue q.toNat
      ((q ≠ 0 ∧ q ≠ 3) ∨ v.valid = false → ∃ t, exec (.doorbell src q n) s = .next t ∧ t.on (ERR_CAP0_VALID 2) = true ∧
        (s.on (ERR_CAP0_VALID 2) = false → t.rd (ERR_CAP0_CODE 2) = 0x21) ∧ Kept (keysOf (errFields 2)) s t) ∧
      (q = 0 → v.valid = true → ∃ t, exec (.doorbell src q n) s = .next t ∧ (t.queue 0).head = v.head ∧
        ((n.toNat + 2 * v.size - v.head % (2 * v.size)) % (2 * v.size) ≤ v.size → (t.queue 0).tail = n.toNat % (2 * v.size)) ∧
        (v.size < (n.toNat + 2 * v.size - v.head % (2 * v.size)) % (2 * v.size) →
          (t.queue 0).tail = (v.head + v.size) % (2 * v.size) ∧ t.on (ERR_CAP0_VALID 2) = true) ∧ Kept (keysOf (errFields 2)) s t) ∧
      (q ≠ 1 ∧ q ≠ 2 ∨ v.valid = false → ∃ t, exec (.consume src q n) s = .next t ∧ t.on (ERR_CAP0_VALID 2) = true ∧
        (s.on (ERR_CAP0_VALID 2) = false → t.rd (ERR_CAP0_CODE 2) = 0x21) ∧ Kept (keysOf (errFields 2)) s t) ∧
      (q = 1 → v.valid = true →
        (n.toNat + 2 * v.size - v.head % (2 * v.size)) % (2 * v.size) ≤ v.used → ∃ t, exec (.consume src q n) s = .next t ∧
          (t.queue 1).head = n.toNat % (2 * v.size) ∧ (t.queue 1).tail = v.tail ∧ Kept (fun _ => false) s t) ∧
      (q = 1 → v.valid = true → v.used < (n.toNat + 2 * v.size - v.head % (2 * v.size)) % (2 * v.size) →
        ∃ t, exec (.consume src q n) s = .next t ∧ (t.queue 1).head = v.tail ∧ t.on (ERR_CAP0_VALID 2) = true ∧
          Kept (keysOf (errFields 2)) s t)) ∧
    (s.on CCC_TRACE_STAT_FROZEN = false → ∃ t, exec (.traceFreeze src) s = .next t ∧ t.rd CCC_TRACE_STAT_FROZEN = 1 ∧
      t.rd CCC_TRACE_STAT_FRAME = s.frame % 2 ^ 48 ∧ t.flag 1 5 = true ∧
      Kept (orKeys (regKeys 1 0x98) (keysOf [CCC_TRACE_STAT_FROZEN, CCC_TRACE_STAT_FRAME])) s t) ∧
    ∃ t, exec (.traceUnfreeze src) s = .next t ∧ t.rd CCC_TRACE_STAT_FROZEN = 0 ∧
      Kept (orKeys (regKeys 1 0x98) (keysOf [CCC_TRACE_STAT_FROZEN])) s t

/-- Register commands of a tile's blocks and the lamps of LHM: a write of the grid clears the leaf maps and forms NEED_US anew, a locked grid
stays; an aging save is queued; clearing LAMP_EN turns every lamp off; an LHM command waits for its die's line slot (LineSlots says what it does
there), with BUSY until it is done, and is discarded while one is under way; an OK lamp whose age reaches STALE is UNVERIFIED again, alone.
Where no access reaches the part the register commands change nothing. -/
def Obligations.TileRegisterCommands : Prop :=
  (∀ (s : State) (src : Requester) (v : Word) (b : Bool) (d : Fin 4) (row : BitVec 7) (ch : BitVec 9), s.reachable src = false →
    exec (.geomWrite src v) s = .next s ∧ exec (.ageSaveGo src) s = .next s ∧ exec (.lampEn src b) s = .next s ∧
    exec (.lhmClear src d row ch) s = .next s ∧ exec (.lhmMask src d row ch) s = .next s ∧ exec (.lhmRetest src d row ch) s = .next s ∧
    exec (.lhmFaultClr src d row ch) s = .next s) ∧
  ∀ s : State, s.Inv →
    (∀ src : Requester, s.reachable src = true → s.hasPixels = true →
      (∀ v : Word,
        (s.on (LOCK 0x20) = false → ∃ t, exec (.geomWrite src v) s = .next t ∧ t.rd TFS_GEOM_LW = max 1 (min 16 (v.toNat % 32)) ∧
          t.rd TFS_GEOM_LH = max 1 (min 16 (v.toNat / 32 % 32)) ∧ t.tile.cur = [0, 0, 0, 0] ∧ t.tile.valid = [0, 0, 0, 0] ∧
          t.rd LCP_PRESS_NEED_US = t.needUs % 2 ^ LCP_PRESS_NEED_US.w ∧
          Kept (orKeys (regKeys 0x20 0x80) (keysOf (LCP_PRESS_NEED_US :: LCP_PRESS_LEAD_US :: errFields 0x21))) s t) ∧
        (s.on (LOCK 0x20) = true → ∃ t, exec (.geomWrite src v) s = .next t ∧ t.tile = s.tile ∧ t.on (ERR_CAP0_VALID 0x20) = true ∧
          (s.on (ERR_CAP0_VALID 0x20) = false → t.rd (ERR_CAP0_CODE 0x20) = 4) ∧ Kept (keysOf (errFields 0x20)) s t)) ∧
      (s.house.shut = false → ∃ t, exec (.ageSaveGo src) s = .next t ∧ 3 ∈ t.nvs.ops ∧
        (s.nvs.ops = [] → t.rd LCP_AGE_STAT_SAVING = 1 ∧ t.rd NVS_SAVE_SAVING = 1 ∧ t.nvs.ageHead = some s.frame) ∧
        Kept (orKeys (regKeys 0x21 0xC8) (keysOf [LCP_AGE_STAT_SAVING, NVS_SAVE_SAVING])) s t) ∧
      (∀ v : Bool, ∃ t, exec (.lampEn src v) s = .next t ∧ t.rd SCN_CTRL_LAMP_EN = b2n v ∧
        (v = true → Kept (regKeys 0x22 0x80) s t) ∧
        (v = false → s.on SCN_CTRL_LAMP_EN = true → (∀ d < 4, t.on (DRV_STAT_OUT_ON d) = false) ∧
          (∀ d < 4, s.on (DRV_STAT_OUT_ON d) = true → t.rd (DRV_STAT_OFF_WHY d) = 1) ∧ (s.isLit = true → t.rd NVS_POWER_STATE = 1)) ∧
        Kept (orKeys (regKeys 0x22 0x80) (orKeys (pagesOf lampPages) (keysOf [NVS_POWER_STATE, NVS_POWER_FRAME]))) s t) ∧
      ∀ (d : Fin 4) (row : BitVec 7) (ch : BitVec 9), let k := lampKey d row.toNat (min ch.toNat 383)
        LhmGoes (.lhmClear src d row ch) 0 k s ∧ LhmGoes (.lhmMask src d row ch) 1 k s ∧ LhmGoes (.lhmRetest src d row ch) 2 k s ∧
        LhmGoes (.lhmFaultClr src d row ch) 3 k s) ∧
    (∀ (d : Fin 4) (row : BitVec 7) (ch : BitVec 9), (s.lamp (lampKey d row.toNat ch.toNat)).st = 1 → s.rd LHM_CFG_STALE ≠ 0 →
      s.rd LHM_CFG_STALE ≤ (s.lamp (lampKey d row.toNat ch.toNat)).age s.frame (s.rd LHM_CFG_AGE_UNIT) →
      ∃ t, exec (.lampStale d row ch) s = .next t ∧ (t.lamp (lampKey d row.toNat ch.toNat)).st = 0 ∧
        (t.lamp (lampKey d row.toNat ch.toNat)).ev = 0 ∧ (t.lamp (lampKey d row.toNat ch.toNat)).since = s.frame ∧
        (∀ k, k ≠ lampKey d row.toNat ch.toNat → t.lamp k = s.lamp k) ∧ t.live = s.live ∧ t.win = s.win ∧ t.mem = s.mem ∧ t.out = s.out) ∧
    (∀ (d : Fin 4) (row : BitVec 7) (ch : BitVec 9), (s.lamp (lampKey d row.toNat ch.toNat)).st ≠ 1 ∨ s.rd LHM_CFG_STALE = 0 ∨
      (s.lamp (lampKey d row.toNat ch.toNat)).age s.frame (s.rd LHM_CFG_AGE_UNIT) < s.rd LHM_CFG_STALE →
      exec (.lampStale d row ch) s = .next s) ∧
    (s.on LHM_CMD_BUSY = true → s.health.cmd = none → ∃ t, exec .lhmCmdDone s = .next t ∧ t.rd LHM_CMD_BUSY = 0 ∧ t.flag 0x23 9 = true ∧
      t.health = s.health ∧ Kept (keysOf [LHM_CMD_BUSY]) s t) ∧
    (s.on LHM_CMD_BUSY = false ∨ s.health.cmd.isSome = true → exec .lhmCmdDone s = .next s)

/-- Register commands of the loops, the thresholds and the trims: a loop is enabled into PROFILE and disabled into OFF, a fixed field or an
output already in use is refused with BUSY; a test move starts and ends; RESUME is kept for SAFE; a threshold falls and never rises, and
takes the ones before it down with it; a trim is staged, inside its range. Where no access reaches the part they change nothing. -/
def Obligations.RailRegisterCommands : Prop :=
  (∀ (s : State) (src : Requester) (k : Fin 8) (v : Word) (x : BitVec 8) (w : Nat), s.reachable src = false →
    exec (.loopEnable src k v) s = .next s ∧ exec (.profGo src k) s = .next s ∧ exec (.profRelease src k) s = .next s ∧
    exec (.loopResume src k) s = .next s ∧ exec (.threshWrite src v) s = .next s ∧ exec (.trimDataWrite src x w) s = .next s) ∧
  ∀ (s : State) (src : Requester), s.Inv → s.reachable src = true →
    (∀ (k : Fin 8) (v : Word),
      (s.loopFixed 7 (0x100 + 0x80 * k) v.toNat = true → ∃ t, exec (.loopEnable src k v) s = .next t ∧ t.rail = s.rail ∧
        t.on (ERR_CAP0_VALID 7) = true ∧ (s.on (ERR_CAP0_VALID 7) = false → t.rd (ERR_CAP0_CODE 7) = 0x21) ∧
        Kept (keysOf (errFields 7)) s t) ∧
      (s.rd (RCE_LOOP_CFG_EN k) = 0 → v.toNat.testBit 2 = true → s.outUsed k ((RCE_LOOP_CFG_OUT k).of v.toNat) = true →
        ∃ t, exec (.loopEnable src k v) s = .next t ∧ t.on (RCE_LOOP_CFG_EN k) = false ∧ t.on (ERR_CAP0_VALID 7) = true ∧
          Kept (regKeys 7 (0x100 + 0x80 * k)) s t) ∧
      (s.rd (RCE_LOOP_CFG_EN k) = 0 → v.toNat.testBit 2 = true → v.toNat.testBit 31 = false →
        s.outUsed k ((RCE_LOOP_CFG_OUT k).of v.toNat) = false → ∃ t, exec (.loopEnable src k v) s = .next t ∧
          t.rd (RCE_LOOP_CFG_EN k) = 1 ∧ (s.rd (RCE_LOOP_STAT_STATE k) = 0 → if t.rd (RCE_LOOP_CFG_KIND k) = 0 then t.rd (RCE_LOOP_STAT_STATE k) = 0
            else t.rd (RCE_LOOP_STAT_STATE k) = 1 ∧ (t.loop k).moving = true) ∧
          (∀ j < 8, j ≠ k.val → t.loop j = s.loop j) ∧
          Kept (orKeys (regKeys 7 (0x100 + 0x80 * k)) (keysOf [RCE_LOOP_STAT_STATE k])) s t) ∧
      (s.on (RCE_LOOP_CFG_EN k) = true → v.toNat.testBit 2 = false → v.toNat.testBit 31 = false →
        s.loopFixed 7 (0x100 + 0x80 * k) v.toNat = false → ∃ t, exec (.loopEnable src k v) s = .next t ∧ t.rd (RCE_LOOP_CFG_EN k) = 0 ∧
          t.rd (RCE_LOOP_STAT_STATE k) = 0 ∧ (t.loop k).moving = false ∧ (∀ j < 8, j ≠ k.val → t.loop j = s.loop j) ∧
          Kept (orKeys (regKeys 7 (0x100 + 0x80 * k)) (keysOf [RCE_LOOP_STAT_STATE k])) s t)) ∧
    (∀ k : Fin 8,
      (s.rd (RCE_LOOP_STAT_STATE k) = 4 → ∃ t, exec (.profGo src k) s = .next t ∧ t.rail = s.rail ∧ t.on (ERR_CAP0_VALID 7) = true ∧
        Kept (regKeys 7 (0x140 + 0x80 * k)) s t) ∧
      (s.rd (RCE_LOOP_STAT_STATE k) ≠ 0 → s.rd (RCE_LOOP_STAT_STATE k) ≠ 4 → ∃ t, exec (.profGo src k) s = .next t ∧
        t.rd (RCE_LOOP_STAT_STATE k) = 5 ∧ (t.loop k).moving = true ∧ (∀ j < 8, j ≠ k.val → t.loop j = s.loop j) ∧
        Kept (orKeys (regKeys 7 (0x140 + 0x80 * k)) (keysOf [RCE_LOOP_STAT_STATE k])) s t) ∧
      (s.rd (RCE_LOOP_STAT_STATE k) = 0 → ∃ t, exec (.profGo src k) s = .next t ∧ t.rail = s.rail ∧ Kept (regKeys 7 (0x140 + 0x80 * k)) s t) ∧
      (s.rd (RCE_LOOP_STAT_STATE k) ≠ 5 → ∃ t, exec (.profRelease src k) s = .next t ∧ t.rail = s.rail ∧
        Kept (regKeys 7 (0x140 + 0x80 * k)) s t) ∧
      (s.rd (RCE_LOOP_CFG_EN k) < 2 → s.rd (RCE_LOOP_STAT_STATE k) ≠ 4 ∨ s.rd (RCE_LOOP_STAT_SAFE_WHY k) = 1 →
        ∃ t, exec (.loopResume src k) s = .next t ∧ t.rail = s.rail ∧ Kept (regKeys 7 (0x100 + 0x80 * k)) s t) ∧
      (s.rd (RCE_LOOP_STAT_STATE k) = 5 → ∃ t, exec (.profRelease src k) s = .next t ∧ t.rd (RCE_LOOP_STAT_STATE k) = 2 ∧
        t.rd (RCE_LOOP_STAT_SET_NOW k) = s.rd (RCE_LOOP_STAT_FB k) % 2 ^ (RCE_LOOP_STAT_SET_NOW k).w ∧ (t.loop k).integ = 0 ∧
        Kept (orKeys (regKeys 7 (0x140 + 0x80 * k)) (keysOf [RCE_LOOP_STAT_STATE k, RCE_LOOP_STAT_SET_NOW k])) s t) ∧
      (s.rd (RCE_LOOP_STAT_STATE k) = 4 → s.rd (RCE_LOOP_STAT_SAFE_WHY k) ≠ 1 → s.rd (RCE_LOOP_CFG_EN k) < 2 → ∃ t, exec (.loopResume src k) s = .next t ∧
        (t.loop k).resume = true ∧ (t.loop k).valid = 0 ∧ (∀ j < 8, j ≠ k.val → t.loop j = s.loop j) ∧
        Kept (regKeys 7 (0x100 + 0x80 * k)) s t)) ∧
    (∀ v : Word, s.rd HKT_THRESH_WARN_C < 256 → s.rd HKT_THRESH_THROTTLE_C < 256 → s.rd HKT_THRESH_SHUTDOWN_C < 256 →
      ∃ t, exec (.threshWrite src v) s = .next t ∧ t.rd HKT_THRESH_WARN_C ≤ s.rd HKT_THRESH_WARN_C ∧
      t.rd HKT_THRESH_THROTTLE_C ≤ s.rd HKT_THRESH_THROTTLE_C ∧ t.rd HKT_THRESH_SHUTDOWN_C ≤ s.rd HKT_THRESH_SHUTDOWN_C ∧
      t.rd HKT_THRESH_WARN_C ≤ t.rd HKT_THRESH_THROTTLE_C ∧ t.rd HKT_THRESH_THROTTLE_C ≤ t.rd HKT_THRESH_SHUTDOWN_C ∧
      (v.toNat / 65536 % 256 ≤ s.rd HKT_THRESH_SHUTDOWN_C → 40 ≤ v.toNat / 65536 % 256 →
        t.rd HKT_THRESH_SHUTDOWN_C = v.toNat / 65536 % 256) ∧
      (s.rd HKT_THRESH_SHUTDOWN_C < v.toNat / 65536 % 256 → t.rd HKT_THRESH_SHUTDOWN_C = s.rd HKT_THRESH_SHUTDOWN_C ∧
        t.on (ERR_CAP0_VALID 5) = true) ∧
      Kept (keysOf ([HKT_THRESH_WARN_C, HKT_THRESH_THROTTLE_C, HKT_THRESH_SHUTDOWN_C] ++ errFields 5)) s t) ∧
    ∀ (v : BitVec 8) (w : Nat),
      (s.rd STR_IDX_TARGET = 3 → ∃ t, exec (.trimDataWrite src v w) s = .next t ∧ t.house = s.house ∧ Kept (regKeys 6 0x98) s t) ∧
      (s.rd STR_IDX_TARGET ≠ 3 →
        let r := trimRange (s.rd STR_IDX_TARGET)
        ∃ t, exec (.trimDataWrite src v w) s = .next t ∧
          ⟨s.trimIdx, BitVec.ofInt 8 (max r.1 (min r.2 v.toInt)), s.latchDone⟩ ∈ t.house.staged ∧ (s.trimIdx, w) ∈ t.house.hostAt ∧
          t.house.trim = s.house.trim ∧ (v.toInt < r.1 ∨ r.2 < v.toInt → t.on (ERR_CAP0_VALID 6) = true) ∧ Kept (regKeys 6 0x98) s t)

/-! ### Recording and replay (18) -/

/-- The recorder: its mode by register and by mailbox, a trigger, arming, the freeze, the end of a capture, and replay from GO to its
results; a tile that is LIT refuses REPLAY, and a trigger whose frame is too near is LATE. What is not due changes nothing, and neither do the
register commands where no access reaches the part. -/
def Obligations.RecorderCommands : Prop :=
  (∀ (s : State) (src : Requester) (m : BitVec 2), s.reachable src = false →
    exec (.recCtrlMode src m) s = .next s ∧ exec (.recTrig src) s = .next s ∧ exec (.recArm src) s = .next s ∧
    exec (.replayGo src) s = .next s) ∧
  ∀ s : State,
    (s.rd REC_STAT_STATE ≠ 1 ∨ s.recd.post ≠ some 0 → exec .ringFreeze s = .next s) ∧
    (s.recd.capturing = none → exec .captureComplete s = .next s) ∧
    (∀ k, s.recd.capturing = some k → k < s.rd REC_CTRL_CAP_SLOTS → exec .captureComplete s = .next s) ∧
    (s.rd REC_STAT_STATE ≠ 3 → exec .replayDone s = .next s) ∧
    (∀ src : Requester, s.reachable src = true → s.rd REC_CTRL_MODE < 3 → s.replayable = false ∨ s.rd REC_STAT_STATE = 3 →
      ∃ t, exec (.replayGo src) s = .next t ∧ t.recd.before = s.recd.before ∧ t.rd REC_STAT_STATE = s.rd REC_STAT_STATE ∧
        Kept (regKeys 10 0x80) s t) ∧
    (∀ src : Requester, s.reachable src = true → s.rd REC_CTRL_MODE < 3 → s.rd REC_STAT_STATE ≠ 2 →
      ∃ t, exec (.recArm src) s = .next t ∧ t.rd REC_STAT_STATE = s.rd REC_STAT_STATE ∧ Kept (regKeys 10 0x80) s t) ∧
    (∀ (src : Requester) (m : BitVec 2), s.reachable src = true → s.rd REC_CTRL_MODE < 3 →
      (s.recModeBusy m.toNat = true → ∃ t, exec (.recCtrlMode src m) s = .next t ∧ t.rd REC_CTRL_MODE = s.rd REC_CTRL_MODE ∧
        t.rd REC_STAT_STATE = s.rd REC_STAT_STATE ∧ t.on (ERR_CAP0_VALID 10) = true ∧ Kept (regKeys 10 0x80) s t) ∧
      (s.recModeBusy m.toNat = false → ∃ t, exec (.recCtrlMode src m) s = .next t ∧ t.rd REC_CTRL_MODE = min m.toNat 2 ∧
        (min m.toNat 2 ≠ s.rd REC_CTRL_MODE → t.rd REC_STAT_STATE = if m = 1 then 1 else 0) ∧
        (min m.toNat 2 ≠ s.rd REC_CTRL_MODE → s.rd REC_CTRL_MODE = 2 → s.hasPixels = true → t.tile.valid = [0, 0, 0, 0]) ∧
        (min m.toNat 2 = s.rd REC_CTRL_MODE → t.rd REC_STAT_STATE = s.rd REC_STAT_STATE) ∧
        Kept (orKeys (regKeys 10 0x80) (keysOf [REC_STAT_STATE])) s t)) ∧
    (∀ src : Requester, s.reachable src = true → s.rd REC_CTRL_MODE < 2 → 1 ≤ s.rd REC_CTRL_CAP_SLOTS → s.rd REC_CTRL_CAP_SLOTS ≤ 6 →
      (s.rd REC_STAT_STATE = 1 → s.recd.capturing = none → (s.rd (INT_EN_EN 10)).testBit 4 = false →
        ∃ t, exec (.recTrig src) s = .next t ∧ t.rd REC_TRIG_STAT_FRAME = s.frame % 2 ^ 48 ∧ t.rd REC_TRIG_STAT_CODE = 0 ∧
          t.recd.post = some (16 * s.rd REC_TRIG_CFG_POST_K) ∧ t.flag 10 4 = true ∧
          (s.on REC_CTRL_CAP_EN = true → s.isSender = false → t.recd.capturing = some 0 ∧ t.rd REC_STAT_CAP_DONE = 0 ∧
            t.rd REC_STAT_DIGEST_DIRTY = 0) ∧ Kept (regKeys 10 0x80) s t) ∧
      (s.rd REC_STAT_STATE = 2 → (∃ t, exec (.recArm src) s = .next t ∧ t.rd REC_STAT_STATE = 1 ∧ t.recd.post = none ∧
          Kept (orKeys (regKeys 10 0x80) (keysOf [REC_STAT_STATE])) s t) ∧
        ∃ t, exec (.recTrig src) s = .next t ∧ t.rd REC_CNT_TRIGS = min (s.rd REC_CNT_TRIGS + 1) 255 ∧ t.recd.post = s.recd.post ∧
          Kept (regKeys 10 0x80) s t)) ∧
    (s.rd REC_STAT_STATE = 1 → s.recd.post = some 0 → ∃ t, exec .ringFreeze s = .next t ∧ t.rd REC_STAT_STATE = 2 ∧ t.recd.post = none ∧
      t.flag 10 5 = true ∧ Kept (keysOf [REC_STAT_STATE]) s t) ∧
    (∀ k, s.recd.capturing = some k → s.rd REC_CTRL_CAP_SLOTS ≤ k → (s.rd (INT_EN_EN 10)).testBit 6 = false →
      ∃ t, exec .captureComplete s = .next t ∧ t.recd.capturing = none ∧ t.recd.walking = false ∧ t.recd.digest = s.recDigest ∧
        t.flag 10 6 = true ∧ Kept (fun _ => false) s t) ∧
    (∀ src : Requester, s.reachable src = true → s.rd REC_CTRL_MODE < 3 → s.replayable = true → s.rd REC_STAT_STATE < 3 →
      ∃ t, exec (.replayGo src) s = .next t ∧ t.rd REC_STAT_STATE = 3 ∧ t.recd.before = s.rd REC_STAT_STATE ∧
        (1 ≤ s.rd REC_CTRL_CAP_SLOTS → s.rd REC_CTRL_CAP_SLOTS ≤ 6 → t.recd.preOk = s.replayPre) ∧
        Kept (orKeys (regKeys 10 0x80) (keysOf [REC_STAT_STATE])) s t) ∧
    (s.rd REC_STAT_STATE = 3 → s.isBench = false → s.rd REC_CTRL_CAP_SLOTS ≤ 8 → s.recd.before < 3 →
      let n (k : Nat) : Nat := (s.replayAll.filter fun e => e.1 == k).length
      ∃ t, exec .replayDone s = .next t ∧ t.rd REC_STAT_STATE = s.recd.before ∧ t.flag 10 7 = true ∧
        t.rd REC_CNT_MATCH = min (s.rd REC_CNT_MATCH + n 0) 65535 ∧ t.rd REC_CNT_DIVERGE = min (s.rd REC_CNT_DIVERGE + n 1) 65535 ∧
        t.rd REC_CNT_PRECOND = min (s.rd REC_CNT_PRECOND + n 2) 65535 ∧ (0 < n 1 → t.flag 10 8 = true) ∧ (0 < n 2 → t.flag 10 9 = true) ∧
        (∀ r, s.recd.replayReq = some r → Answered s t r 0x82 0 [n 0, n 1, n 2, n 3] ∧ t.recd.replayReq = none) ∧
        RegsKept (keysOf [REC_STAT_STATE, REC_CNT_MATCH, REC_CNT_DIVERGE, REC_CNT_PRECOND]) s t ∧
        WordsKept (fun i => decide (0xB30000 ≤ i ∧ i < 0xB30010)) s t ∧ (s.quietMem → t.mem = s.mem)) ∧
    ∀ r : Req, s.heldReqs < 16 →
      (∀ (m : BitVec 2) (nodes : Word), s.isSender = false ∨ nodes = 0 →
        (s.recModeBusy m.toNat = true → ∃ t, exec (.recMode r m nodes) s = .next t ∧ Answered s t r 0x80 7 [0] ∧
          Kept (fun _ => false) s t) ∧
        (s.recModeBusy m.toNat = false → ∃ t, exec (.recMode r m nodes) s = .next t ∧ Answered s t r 0x80 0 [2 ^ s.node] ∧
          t.rd REC_CTRL_MODE = min m.toNat 2 ∧ Kept (keysOf [REC_CTRL_MODE, REC_STAT_STATE]) s t)) ∧
      (∀ (f : BitVec 48) (nodes : Word),
        (f.toNat < s.frame + 2 → ∃ t, exec (.recTrigger r f nodes) s = .next t ∧ Answered s t r 0x81 2 [0] ∧ t.recd.armed = s.recd.armed ∧
          Kept (fun _ => false) s t) ∧
        (s.frame + 2 ≤ f.toNat → s.isSender = false ∨ nodes = 0 → ∃ t, exec (.recTrigger r f nodes) s = .next t ∧
          Answered s t r 0x81 1 [2 ^ s.node] ∧ t.recd.armed = s.recd.armed ++ [f.toNat] ∧ Kept (fun _ => false) s t)) ∧
      (s.replayable = false → ∃ t, exec (.replay r) s = .next t ∧ Answered s t r 0x82 7 [] ∧ Kept (fun _ => false) s t) ∧
      (s.replayable = true → s.rd REC_STAT_STATE = 3 → ∃ t, exec (.replay r) s = .next t ∧ Answered s t r 0x82 6 [] ∧
        Kept (fun _ => false) s t) ∧
      (s.replayable = true → s.rd REC_STAT_STATE ≠ 3 → ∃ t, exec (.replay r) s = .next t ∧ t.rd REC_STAT_STATE = 3 ∧
        t.recd.replayReq = some r ∧ t.recd.before = s.rd REC_STAT_STATE ∧ Kept (keysOf [REC_STAT_STATE]) s t)

/-! ### Ticks and latch points (01, 02) -/

/-- R41 with R16: at a latch point that does not hold, a page whose commit is due copies its shadow set and is no longer dirty, and
nothing active changes; at the tick the copies become active and SHD_APPLIED is raised; FRAME_NO counts the tick, and feed 0 begins. While
no ticks run neither has an effect. -/
def Obligations.LatchPointsAndTicks : Prop :=
  ∀ s : State,
    (s.ticking = false → exec .tick s = .next s ∧ exec .latchPoint s = .next s) ∧
    (s.latchDone = true → exec .latchPoint s = .next s) ∧
    (s.ticking = true → s.latchDone = false → s.nvs.policyNext = [] → ∃ t, exec .latchPoint s = .next t ∧ t.latchDone = true ∧
      t.frame = s.frame ∧ (∀ f ∈ allFields, f.acc = .rws → t.rd f = s.rd f) ∧
      (s.decideHeld.wtu.held ≠ some true → ∀ pg ∈ blockPages, pageHasRws pg = true → (pg, s.frame + 1) ∈ s.commits.pend →
        (∀ f ∈ rwsFields pg, t.latched.get f.key = s.shadow.get f.key) ∧ t.rd (SHD_STAT_DIRTY pg) = 0 ∧ pg ∈ t.commits.latched ∧
        (pg, s.frame + 1) ∉ t.commits.pend) ∧
      (s.decideHeld.wtu.held = some true → t.latched = s.latched ∧
        ∀ e ∈ t.commits.pend, s.frame + 1 < e.2)) ∧
    (s.ticking = true → s.latchDone = true → s.frame + 1 < 2 ^ 48 → ∃ t, exec .tick s = .next t ∧ t.frame = s.frame + 1 ∧
      t.latchDone = false ∧ t.rd WTU_FRAME_FEED = 0 ∧ t.rd WTU_FRAME_HELD = (if s.wtu.held = some true then 1 else 0) ∧
      (∀ pg ∈ blockPages, pageHasRws pg = true → pg ∈ s.commits.latched → t.flag pg 2 = true ∧ pg ∉ t.commits.latched ∧
        (s.nvs.policyNext = [] → s.wtu.switch = none → ∀ f ∈ rwsFields pg, t.live.get f.key = s.latched.get f.key)) ∧
      (∀ f ∈ allFields, f.acc = .rws → s.nvs.policyNext = [] → s.wtu.switch = none → f.page ∉ s.commits.latched → t.rd f = s.rd f))

/-! ### Firmware update (17) -/

/-- Staging, keys and peers: a good bundle that the host names is stored whole and its pass sent, a bad or conflicting one refused with its
reason; a folio of the bundle being received enters the FIFO once, and one that comes over Ethernet is sent on; a good colophon begins a bundle
and a bad one is refused; the end of a pass stages a complete bundle or refuses it; CLEAR forgets it; keys follow only requests that the root
key signs, and a revoked key does not come back. -/
def Obligations.StagingAndKeys : Prop :=
  ∀ s : State, s.Inv →
    (∀ (r : Req) (a : Word) (n : BitVec 32) (sides : BitVec 2), s.heldReqs < 16 →
      let byte := s.taken.hostByte a.toNat n.toNat
      let col := readColophon byte n.toNat
      let why := s.stageReason byte col
      (s.isTile = true → ∃ t, exec (.stage r a n sides) s = .next t ∧ Answered s t r 0x70 5 [] ∧ t.upd = s.upd ∧
        Kept (fun _ => false) s t) ∧
      (s.isTile = false → why ≠ 0 → ∃ t, exec (.stage r a n sides) s = .next t ∧ Answered s t r 0x70 7 [why] ∧ t.rd UPD_STAGE_STATE = 3 ∧
        t.rd UPD_STAGE_REASON = why ∧ t.rd UPD_STAGE_CID_CID = bundleCid byte ∧ t.upd.col = none ∧ t.upd.slots = s.upd.slots ∧
        t.rd UPD_CNT_REFUSED = min (s.rd UPD_CNT_REFUSED + 1) 65535 ∧
        Kept (keysOf (regFields 4 0x90 ++ regFields 4 0x98 ++ [UPD_CNT_REFUSED])) s t) ∧
      (s.isTile = false → why = 0 → ∀ c, col = some c → (∀ e ∈ s.upd.barred, e.2 ≠ c.seq.toNat) →
        ((∀ x, s.upd.col = some x → x.cid ≠ c.cid ∧ x.seq.toNat < c.seq.toNat) → let total := ceilDiv n.toNat 576
          let b : BundleSend := ⟨a.toNat, n.toNat, sides.toNat, 1, false, bundleCid byte, c.seq.toNat, total⟩
          ∃ t, exec (.stage r a n sides) s = .next t ∧ Answered s t r 0x70 0 [bundleCid byte, total] ∧
            t.rd UPD_STAGE_STATE = 2 ∧ t.rd UPD_STAGE_MISSING = 0 ∧ t.rd UPD_STAGE_TOTAL = total ∧ t.rd UPD_STAGE_CID_CID = bundleCid byte ∧
            t.flag 4 4 = true ∧ t.upd.col = some c ∧ t.upd.sending = some b ∧
            (∀ i < total, ∀ w < 64, (t.slotTbl s.spareSlot).get (64 * i + w) = BitVec.ofNat 72 ((s.taken.bundleWords b i).getD w 0)) ∧
            t.slotTbl ((s.spareSlot + 1) % 2) = s.slotTbl ((s.spareSlot + 1) % 2) ∧
            Kept (keysOf (regFields 4 0x90 ++ regFields 4 0x98 ++ [NVS_MRAM_RECORDS])) s t) ∧
        ∀ x, s.upd.col = some x → x.cid ≠ c.cid → x.seq = c.seq → ∃ t, exec (.stage r a n sides) s = .next t ∧
          Answered s t r 0x70 7 [10] ∧ t.rd UPD_STAGE_STATE = 4 ∧ t.rd UPD_STAGE_REASON = 10 ∧ t.rd UPD_STAGE_CID_CID = x.cid.toNat ∧
          t.rd UPD_STAGE_CID_CID_OTHER = c.cid.toNat ∧ t.flag 4 6 = true ∧ t.upd.col = none ∧ t.upd.slots = s.upd.slots ∧
          Kept (keysOf (regFields 4 0x90 ++ regFields 4 0x98 ++ [UPD_CNT_CONFLICTS, NVS_SAVE_DIRTY])) s t)) ∧
    (∀ (sd : Fin 2) (via : Via) (ws : List Word72), let w0 := (ws.getD 0 0).toNat; let w1 := (ws.getD 1 0).toNat
      let i := w1 % 2 ^ 15; let cid := w0 / 2 ^ 32 % 2 ^ 32; let body := (ws.drop 2).take 64
      (w0 / 2 ^ 64 ≠ 0x9A ∨ w1 / 2 ^ 64 ≠ 0x9B ∨ s.accepts via = false → exec (.bundleFolioReceive sd via ws) s = .next s) ∧
      (w0 / 2 ^ 64 = 0x9A → w1 / 2 ^ 64 = 0x9B → s.accepts via = true →
        (8 ≤ i → let new := decide (s.rd UPD_STAGE_STATE = 1 ∧ s.rd UPD_STAGE_CID_CID = cid ∧ i < s.rd UPD_STAGE_TOTAL ∧
            s.house.shut = false ∧ s.nvs.softKind = none ∧ s.upd.fifo.length < 32) && !s.upd.got.testBit i && !(s.upd.fifo.any fun e => e.1 == i)
          ∃ t, exec (.bundleFolioReceive sd via ws) s = .next t ∧ t.rd UPD_STAGE_PASS = w1 / 2 ^ 36 % 16 ∧
            t.upd.fifo = s.upd.fifo ++ (if new then [(i, body)] else []) ∧ (new = true → t.nvs.recBusy = true) ∧
            t.out = (if via != .ring && s.isSender then s.sendSide sd 9 (ws.map BitVec.toNat) else s).out ∧
            Kept (keysOf [UPD_STAGE_PASS]) s t) ∧
        (i < 8 → let held := s.holdColophon cid i body
          (held.upd.colGot ≠ 255 → ∃ t, exec (.bundleFolioReceive sd via ws) s = .next t ∧ t.upd.colGot = held.upd.colGot ∧
            t.upd.colWords = held.upd.colWords ∧ t.upd.col = s.upd.col ∧ Kept (keysOf [UPD_STAGE_PASS]) s t) ∧
          (held.upd.colGot = 255 →
            let col := readColophon (wordByte held.upd.colWords) (min slotBytes (576 * (w1 / 2 ^ 15 % 2 ^ 15)))
            let good := fun c : Colophon => decide (c.cid.toNat = cid ∧ c.seq.toNat % 2 ^ 32 = w0 % 2 ^ 32)
            let refused := fun why : Nat => ∃ t, exec (.bundleFolioReceive sd via ws) s = .next t ∧ t.rd UPD_STAGE_STATE = 3 ∧
              t.rd UPD_STAGE_REASON = why ∧ t.rd UPD_STAGE_CID_CID = cid ∧ t.upd.col = none ∧
              Kept (keysOf (regFields 4 0x90 ++ regFields 4 0x98 ++ [UPD_CNT_REFUSED])) s t
            (col.any good = false → refused 1) ∧
            ∀ k, col = some k → good k = true →
              (s.upd.probation = true → refused 9) ∧
              (s.upd.probation = false → s.colReason k false ≠ 0 → refused (s.colReason k false)) ∧
              (s.upd.probation = false → s.colReason k false = 0 → (∀ e ∈ s.upd.barred, e.2 ≠ k.seq.toNat) →
                (∀ x, s.upd.col = some x → x.cid ≠ k.cid ∧ x.seq.toNat < k.seq.toNat) → ∃ t, exec (.bundleFolioReceive sd via ws) s = .next t ∧
                  t.rd UPD_STAGE_STATE = 1 ∧ t.rd UPD_STAGE_TOTAL = w1 / 2 ^ 15 % 2 ^ 15 ∧ t.rd UPD_STAGE_MISSING = w1 / 2 ^ 15 % 2 ^ 15 ∧
                  t.rd UPD_STAGE_CID_CID = cid ∧ t.upd.col = some k ∧ t.upd.got = 0 ∧ (∀ e ∈ t.upd.fifo, e = (i, body)) ∧
                  Kept (keysOf (regFields 4 0x90 ++ regFields 4 0x98)) s t))))) ∧
    (s.rd UPD_STAGE_PASS = 0 → exec .passIdle s = .next s) ∧
    (s.rd UPD_STAGE_PASS ≠ 0 →
      (s.isTile = true → ∃ t ws, exec .passIdle s = .next t ∧ Sent s t (.event true ws) ∧ (ws.getD 0 0).toNat % 65536 = 0x800C ∧
        (ws.getD 2 0).toNat % 16 = 0 ∧ (ws.getD 2 0).toNat / 2 ^ 4 % 2 ^ 15 = s.rd UPD_STAGE_MISSING) ∧
      (s.upd.col = none ∨ s.rd UPD_STAGE_STATE ≠ 1 ∨ (s.rd UPD_STAGE_MISSING ≠ 0 ∧ s.rd UPD_STAGE_PASS < s.rd UPD_CFG_PASSES) →
        ∃ t, exec .passIdle s = .next t ∧ t.upd = s.upd ∧ Kept (fun _ => false) s t) ∧
      ∀ c, s.upd.col = some c → s.rd UPD_STAGE_STATE = 1 → let ok := digestsOk (s.slotByte s.spareSlot) c
        (s.rd UPD_STAGE_MISSING = 0 → ok = true → ∃ t, exec .passIdle s = .next t ∧ t.rd UPD_STAGE_STATE = 2 ∧ t.flag 4 4 = true ∧
          t.upd = s.upd ∧ Kept (keysOf [UPD_STAGE_STATE]) s t) ∧
        ((s.rd UPD_STAGE_MISSING = 0 ∧ ok = false) ∨ (s.rd UPD_STAGE_MISSING ≠ 0 ∧ s.rd UPD_CFG_PASSES ≤ s.rd UPD_STAGE_PASS) →
          ∃ t, exec .passIdle s = .next t ∧ t.rd UPD_STAGE_STATE = 3 ∧
            t.rd UPD_STAGE_REASON = (if s.rd UPD_STAGE_MISSING = 0 then 8 else 11) ∧ t.upd.col = none ∧
            Kept (keysOf (regFields 4 0x90 ++ regFields 4 0x98 ++ [UPD_CNT_REFUSED])) s t)) ∧
    (s.upd.sending = none → exec .bundlePassStart s = .next s) ∧
    (∀ b, s.upd.sending = some b →
      (b.more = true → b.pass < s.rd UPD_CFG_PASSES → ∃ t, exec .bundlePassStart s = .next t ∧
        t.upd.sending = some { b with pass := b.pass + 1, more := false } ∧ Kept (fun _ => false) s t ∧
        t.out = (s.sendPass { b with pass := b.pass + 1, more := false }).out) ∧
      (b.more = false ∨ s.rd UPD_CFG_PASSES ≤ b.pass →
        exec .bundlePassStart s = .next { s with upd := { s.upd with sending := none } })) ∧
    (∀ src : Requester, s.reachable src = false → exec (.updClear src) s = .next s) ∧
    (∀ src : Requester, s.reachable src = true → ∃ t, exec (.updClear src) s = .next t ∧ t.upd.col = none ∧ t.upd.fifo = [] ∧
      t.upd.barred = [] ∧ (∀ f ∈ [UPD_STAGE_STATE, UPD_STAGE_REASON, UPD_STAGE_MISSING, UPD_STAGE_TOTAL, UPD_STAGE_PASS, UPD_STAGE_CID_CID,
        UPD_STAGE_CID_CID_OTHER], t.rd f = 0) ∧ Kept (orKeys (regKeys 4 0xC0) (keysOf (regFields 4 0x90 ++ regFields 4 0x98))) s t) ∧
    ∀ r : Req, s.heldReqs < 16 →
      (∃ t, exec (.updStatus r) s = .next t ∧ Answered s t r 0x71 0 [s.regNow 4 0x90, s.regNow 4 0xA0, s.regNow 4 0xA8, s.regNow 4 0x80] ∧
        Kept (fun _ => false) s t) ∧
      (∀ tb : List (BitVec 32 × BitVec 6),
        (tb.length ≤ 63 → ∃ t, exec (.peers r tb) s = .next t ∧ Answered s t r 0x77 0 [] ∧ t.upd.peers = tb ∧ Kept (fun _ => false) s t) ∧
        (63 < tb.length → ∃ t, exec (.peers r tb) s = .next t ∧ Answered s t r 0x77 5 [] ∧ t.upd = s.upd ∧ Kept (fun _ => false) s t)) ∧
      ∀ (k : BitVec 3) (key : Nat) (u : Word) (root sig : Nat),
        let mayEnroll := keyAllowed u root sig (keyMessage [0x45, 0x4E, 0x52, 0x4C] k.toNat (beBytes 96 key) u)
        let mayRevoke := keyAllowed u root sig (keyMessage [0x52, 0x56, 0x4F, 0x4B] k.toNat [] u)
        let gone := decide (s.upd.revoked.getD (k.toNat - 1) 0 = key) && !(s.rd UPD_KEYS_VALID).testBit (k.toNat - 1)
        let refused := fun (c : Instr) (cmd st : Nat) => ∃ t, exec c s = .next t ∧ Answered s t r cmd st [] ∧ t.upd = s.upd ∧
          Kept (fun _ => false) s t
        (k.toNat = 0 ∨ 4 < k.toNat → refused (.enroll r k key u root sig) 0x75 5 ∧ refused (.revoke r k u root sig) 0x76 5) ∧
        (1 ≤ k.toNat → k.toNat ≤ 4 →
          (mayEnroll = false ∨ gone = true → refused (.enroll r k key u root sig) 0x75 7) ∧
          (mayRevoke = false → refused (.revoke r k u root sig) 0x76 7) ∧
          (mayEnroll = true → gone = false → ∃ t, exec (.enroll r k key u root sig) s = .next t ∧ Answered s t r 0x75 0 [] ∧
            t.upd = { s.upd with keys := s.upd.keys.set (k.toNat - 1) key } ∧
            (∀ j < 4, (t.rd UPD_KEYS_VALID).testBit j = (decide (j = k.toNat - 1) || (s.rd UPD_KEYS_VALID).testBit j)) ∧ t.flag 4 12 = true ∧
            Kept (keysOf [UPD_KEYS_VALID, NVS_MRAM_RECORDS]) s t) ∧
          (mayRevoke = true → ∃ t, exec (.revoke r k u root sig) s = .next t ∧ Answered s t r 0x76 0 [] ∧
            t.upd = { s.upd with revoked := s.upd.revoked.set (k.toNat - 1) (s.upd.keys.getD (k.toNat - 1) 0) } ∧
            (∀ j < 4, (t.rd UPD_KEYS_VALID).testBit j = (!decide (j = k.toNat - 1) && (s.rd UPD_KEYS_VALID).testBit j)) ∧ t.flag 4 12 = true ∧
            Kept (keysOf [UPD_KEYS_VALID, NVS_MRAM_RECORDS]) s t))

/-- Preparing and arming: ACTIVATE asks every named ring to prepare; a node answers with its vote and is PREPARED where it is READY; with the last
vote the wall coordinator names the tick, in FRAME_NO + 8 where the host named none; a NOT_READY, a time-out, an ABORT or a node that has not
armed by C − 2 ends it; a node arms under the epoch it holds alone; a ring coordinator passes each message on. The reason of a time-out and of
an ABORT is a free value (Table 17-3 has none), notes/assumptions/82.md. -/
def Obligations.PreparingAndArming : Prop :=
  ∀ s : State, let ended := fun t : State => t.upd.coord = none ∧ (s.rd UPD_ACT_STATE < 2 → t.rd UPD_ACT_STATE = 4 ∧ t.rd UPD_ACT_PEND = 0 ∧
        t.flag 4 8 = true) ∧ Kept (keysOf [UPD_ACT_STATE, UPD_ACT_PEND, UPD_CNT_ABORTS, NVS_SAVE_DIRTY]) s t
    let armed := fun (t : State) (n num epoch : Nat) => t.rd UPD_ACT_STATE = 2 ∧ t.rd UPD_ACT_ACT_FRAME = n ∧ t.rd UPD_ACT_PEND = 1 ∧
        t.rd UPD_ACT_NO_NUMBER = num ∧ t.rd UPD_ACT_NO_EPOCH = epoch ∧ t.flag 4 7 = true
    let actKeys := keysOf (regFields 4 0xA0 ++ regFields 4 0xA8)
    (∀ (r : Req) (cid : BitVec 32) (f : BitVec 48) (k : Bool) (m : Word), s.heldReqs < 16 →
      (s.isSender = false → s.on UPD_SLOT_RECOVERY = false → ∃ t, exec (.activate r cid f k m) s = .next t ∧ Answered s t r 0x72 7 [] ∧
        t.upd = s.upd ∧ Kept (fun _ => false) s t) ∧
      (s.isSender = true →
        (m = 0 → ∃ t, exec (.activate r cid f k m) s = .next t ∧ Answered s t r 0x72 5 [] ∧ t.upd = s.upd ∧ Kept (fun _ => false) s t) ∧
        (m ≠ 0 → (s.upd.coord.any fun c => decide (c.phase < 3)) = true → ∃ t, exec (.activate r cid f k m) s = .next t ∧
          Answered s t r 0x72 6 [] ∧ t.upd = s.upd ∧ Kept (fun _ => false) s t) ∧
        (m ≠ 0 → (s.upd.coord.any fun c => decide (c.phase < 3)) = false →
          (f ≠ 0 → f.toNat < s.frame + 16 → ∃ t, exec (.activate r cid f k m) s = .next t ∧ Answered s t r 0x72 2 [] ∧ t.upd = s.upd ∧
            Kept (fun _ => false) s t) ∧
          (f = 0 ∨ s.frame + 16 ≤ f.toNat → ∃ t c, exec (.activate r cid f k m) s = .next t ∧ t.upd.coord = some c ∧ c.wall = true ∧
            c.req = some r ∧ c.cid = cid.toNat ∧ c.c = f.toNat ∧ c.named = decide (f ≠ 0) ∧ c.phase = 0 ∧
            (∀ g ∈ s.coordRings c, Sent s t (.firmware .prepare g [cid.toNat, m.toNat])) ∧ Kept (fun _ => false) s t)))) ∧
    (∀ (r : Req) (cid : BitVec 32),
      (s.voteReason cid.toNat = none → ∃ t, exec (.prepareReceive r cid) s = .next t ∧ Sent s t (.firmware .vote r.reply.toNat [1, 0]) ∧
        t.rd UPD_ACT_STATE = 1 ∧ Kept (keysOf [UPD_ACT_STATE]) s t) ∧
      (∀ why, s.voteReason cid.toNat = some why → ∃ t, exec (.prepareReceive r cid) s = .next t ∧
        Sent s t (.firmware .vote r.reply.toNat [0, why]) ∧ Kept (fun _ => false) s t) ∧
      (s.mySides = [] ∨ s.upd.coord.isSome = true → ∃ t, exec (.prepareReceive r cid) s = .next t ∧ t.upd = s.upd) ∧
      (s.mySides ≠ [] → s.upd.coord = none → ∃ t c, exec (.prepareReceive r cid) s = .next t ∧ t.upd.coord = some c ∧ c.wall = false ∧
        c.cid = cid.toNat ∧ c.phase = 0 ∧ ∀ i ∈ s.mySides, Sent s t (.firmware .prepare (s.sideRing i) [cid.toNat]))) ∧
    (∀ c, s.upd.coord = some c → c.phase = 0 → c.wall = true →
      (∀ (g n : BitVec 6) (w : BitVec 4), ∃ t, exec (.prepareVoteReceive g n false w) s = .next t ∧ ended t ∧
        (∀ q, c.req = some q → Answered s t q 0x72 3 [w.toNat]) ∧ (∀ h ∈ s.coordRings c, Sent s t (.firmware .abort h [c.num]))) ∧
      (∃ t x, exec .prepareTimeout s = .next t ∧ ended t ∧ (∀ q, c.req = some q → Answered s t q 0x72 3 [x])) ∧
      (∀ (r : Req) (a : BitVec 32), s.heldReqs < 16 →
        (a.toNat = s.rd UPD_ACT_NO_NUMBER + 1 → ∃ t, exec (.abort r a) s = .next t ∧ ended t ∧ Answered s t r 0x78 0 []) ∧
        (a.toNat ≠ s.rd UPD_ACT_NO_NUMBER + 1 → ∃ t, exec (.abort r a) s = .next t ∧ t.upd = s.upd ∧ Answered s t r 0x78 5 [] ∧
          Kept (fun _ => false) s t)) ∧
      ∀ (g n : BitVec 6) (e : Nat × Nat), (s.ownSides c).find? (fun e => e.2 == g.toNat) = some e →
        let c1 := { c with ready := c.ready.modify e.1 (· ||| 2 ^ n.toNat) }
        let done := covered c1.nodes c1.ready && (s.foreignRings c1).all fun h => c1.ringsReady.testBit h
        let tick := if c.named then c.c else s.frame + 8
        (done = false → exec (.prepareVoteReceive g n true 0) s = .next { s with upd := { s.upd with coord := some c1 } }) ∧
        (done = true → c.named = true → s.latchPast (c.c - 8) = true → ∃ t, exec (.prepareVoteReceive g n true 0) s = .next t ∧ ended t ∧
          ∀ q, c.req = some q → Answered s t q 0x72 2 []) ∧
        (done = true → (c.named = true → s.latchPast (c.c - 8) = false) → tick < 2 ^ 48 → s.rd UPD_ACT_NO_NUMBER + 1 < 2 ^ 32 →
          ∃ t, exec (.prepareVoteReceive g n true 0) s = .next t ∧
            t.upd.coord = some { c1 with phase := 1, num := s.rd UPD_ACT_NO_NUMBER + 1, c := tick } ∧
            (∀ h ∈ s.ownSides c, Sent s t (.firmware .commit h.2
              [tick, s.rd UPD_ACT_NO_NUMBER + 1, s.rd (ARB_EPOCH_EPOCH h.1), s.node])) ∧
            (∀ h ∈ s.foreignRings c, Sent s t (.firmware .commit h [tick, s.rd UPD_ACT_NO_NUMBER + 1])) ∧
            (s.rd UPD_ACT_STATE = 1 → ∃ epoch, armed t tick (s.rd UPD_ACT_NO_NUMBER + 1) epoch) ∧ Kept actKeys s t)) ∧
    (∀ c, s.upd.coord = some c → c.wall = false →
      (c.phase = 0 → (∀ (g n : BitVec 6) (w : BitVec 4), ∃ t, exec (.prepareVoteReceive g n false w) s = .next t ∧ t.upd = s.upd ∧
          (∀ e, (s.ownSides c).head? = some e → Sent s t (.firmware .vote e.2 [0, w.toNat])) ∧ Kept (fun _ => false) s t) ∧
        (∃ t x, exec .prepareTimeout s = .next t ∧ t.upd = s.upd ∧
          (∀ h ∈ s.ownSides c, Sent s t (.firmware .vote h.2 [0, x])) ∧ Kept (fun _ => false) s t) ∧
        ∀ (r : Req) (m : ActCommit), ∃ t, exec (.actCommitReceive r m) s = .next t ∧
          (∃ d, t.upd.coord = some d ∧ d.wall = false ∧ d.phase = 2 ∧ d.num = m.actNo.toNat ∧ d.c = m.frame.toNat) ∧
          (∀ h ∈ s.ownSides c, Sent s t (.firmware .commit h.2 [m.frame.toNat, m.actNo.toNat, s.rd (ARB_EPOCH_EPOCH h.1), s.node])) ∧
          (s.rd UPD_ACT_STATE = 1 → s.latchPast m.frame.toNat = false → (∃ epoch, armed t m.frame.toNat m.actNo.toNat epoch) ∧
            Sent s t (.firmware .armed r.reply.toNat [m.actNo.toNat])) ∧ Kept actKeys s t) ∧
      ∃ t, exec .abortReceive s = .next t ∧ ended t ∧ ∀ h ∈ s.coordRings c, Sent s t (.firmware .abort h [c.num])) ∧
    (s.upd.coord = none ∨ (∃ c, s.upd.coord = some c ∧ c.phase ≠ 0) → exec .prepareTimeout s = .next s ∧
      ∀ (g n : BitVec 6) (b : Bool) (w : BitVec 4), exec (.prepareVoteReceive g n b w) s = .next s) ∧
    (∀ (r : Req) (m : ActCommit), s.upd.coord = none → s.isSender = false →
      (s.rd UPD_ACT_STATE = 1 → s.latchPast m.frame.toNat = false → s.rd (ARB_EPOCH_EPOCH 0) = m.epoch.toNat →
        epochNode m.epoch.toNat = m.fromNode.toNat → ∃ t, exec (.actCommitReceive r m) s = .next t ∧
          armed t m.frame.toNat m.actNo.toNat m.epoch.toNat ∧ Sent s t (.firmware .armed r.reply.toNat [m.actNo.toNat]) ∧ Kept actKeys s t) ∧
      (s.rd UPD_ACT_STATE ≠ 1 ∨ s.latchPast m.frame.toNat = true ∨ s.rd (ARB_EPOCH_EPOCH 0) ≠ m.epoch.toNat ∨
        epochNode m.epoch.toNat ≠ m.fromNode.toNat → exec (.actCommitReceive r m) s = .next s)) ∧
    (∀ c, s.upd.coord = some c → c.phase = 1 → c.wall = true →
      (s.rd UPD_ACT_STATE = 2 → ∃ t, exec (.armDeadline true) s = .next t ∧ t.upd.coord = some { c with phase := 2, req := none } ∧
        (∀ q, c.req = some q → Answered s t q 0x72 0 [c.num, c.c]) ∧ Kept (fun _ => false) s t) ∧
      (∃ t x, exec (.armDeadline false) s = .next t ∧ ended t ∧ (∀ q, c.req = some q → Answered s t q 0x72 3 [x])) ∧
      ∀ (r : Req) (a : BitVec 32), s.heldReqs < 16 → a.toNat = c.num →
        (s.latchPast (c.c - 2) = false → ∃ t, exec (.abort r a) s = .next t ∧ ended t ∧ Answered s t r 0x78 0 []) ∧
        (s.latchPast (c.c - 2) = true → ∃ t, exec (.abort r a) s = .next t ∧ t.upd = s.upd ∧ Answered s t r 0x78 2 [] ∧
          Kept (fun _ => false) s t)) ∧
    (s.upd.coord = none ∨ (∃ c, s.upd.coord = some c ∧ (c.wall = false ∨ c.phase ≠ 1)) → ∀ b : Bool, exec (.armDeadline b) s = .next s) ∧
    (s.upd.coord = none →
      (s.rd UPD_ACT_STATE = 3 ∨ s.rd UPD_ACT_STATE = 5 → exec .abortReceive s = .next s) ∧
      (s.rd UPD_ACT_STATE = 2 → s.latchPast (s.rd UPD_ACT_ACT_FRAME) = false → ∃ t, exec .abortReceive s = .next t ∧
        t.rd UPD_ACT_STATE = 4 ∧ t.rd UPD_ACT_PEND = 0 ∧ t.flag 4 8 = true ∧
        t.rd UPD_CNT_ABORTS = min (s.rd UPD_CNT_ABORTS + 1) 255 ∧ Kept (keysOf [UPD_ACT_STATE, UPD_ACT_PEND, UPD_CNT_ABORTS, NVS_SAVE_DIRTY]) s t) ∧
      ∀ (r : Req) (a : BitVec 32), s.heldReqs < 16 → ∃ t, exec (.abort r a) s = .next t ∧ t.upd = s.upd ∧
        Answered s t r 0x78 (if a.toNat = s.rd UPD_ACT_NO_NUMBER then 2 else 5) [] ∧ Kept (fun _ => false) s t)

/-- After the activation tick: a node reports ACTIVATED until RELIGHT; with every node and ring complete RELIGHT goes out, and a ring coordinator
sends it on; a node that runs something else, or a ring that is not complete at C + RELIGHT_FR, brings collective fallback. Confirmation, by the
host or PROB_S seconds after C, ends probation at every node, and is answered when all have acknowledged. -/
def Obligations.RelightAndConfirmation : Prop :=
  ∀ s : State, let same := fun t : State => t.live = s.live ∧ t.win = s.win ∧ t.mem = s.mem
    let confirmed := fun t : State => t.upd.probation = false ∧ t.rd UPD_ACT_STATE = 0 ∧ t.flag 4 10 = true ∧ t.upd.prevValid = false
    let confirmKeys := orKeys (pagesOf [4]) (keysOf [NVS_GEN_SET_GEN, NVS_MRAM_RECORDS])
    let fellBack := fun (t : State) (rings : List Nat) => t.upd.coord = none ∧ (∀ g ∈ rings, Sent s t (.firmware .fallbackOrder g [s.frame + 2])) ∧
      (s.upd.probation = true → t.upd.fbAt = some (s.frame + 2)) ∧ same t
    (s.upd.relight = false ∨ s.upd.probation = false ∨ s.starting = true → exec .activatedRepeat s = .next s) ∧
    (s.upd.relight = true → s.upd.probation = true → s.starting = false →
      (∃ t, exec .activatedRepeat s = .next t ∧ t.upd = s.upd ∧ Kept (fun _ => false) s t) ∧
      (s.isTile = true → ∃ t ws, exec .activatedRepeat s = .next t ∧ Sent s t (.event true ws) ∧
        (ws.getD 0 0).toNat % 65536 = 0x800C ∧ (ws.getD 2 0).toNat % 16 = 2)) ∧
    (∀ c, s.upd.coord = some c → c.phase = 2 → let rings := (s.ownSides c).map Prod.snd ++ s.upd.peers.map fun p => p.2.toNat
      (∀ (g n : BitVec 6) (cid : BitVec 32), (s.ownSides c).find? (fun e => e.2 == g.toNat) = none →
        exec (.activatedReceive g n cid) s = .next s) ∧
      (∀ (g n : BitVec 6) (cid : BitVec 32) (e : Nat × Nat), (s.ownSides c).find? (fun e => e.2 == g.toNat) = some e →
        let c1 := { c with activated := c.activated.modify e.1 (· ||| 2 ^ n.toNat) }
        let full := decide (c.nodes.getD e.1 0 &&& c1.activated.getD e.1 0 = c.nodes.getD e.1 0)
        (cid.toNat ≠ c.cid → ∃ t, exec (.activatedReceive g n cid) s = .next t ∧ fellBack t rings) ∧
        (cid.toNat = c.cid → full = false → exec (.activatedReceive g n cid) s = .next { s with upd := { s.upd with coord := some c1 } }) ∧
        (cid.toNat = c.cid → full = true → c.wall = false → ∃ t, exec (.activatedReceive g n cid) s = .next t ∧ t.upd.coord = some c1 ∧
          Sent s t (.firmware .ringComplete g.toNat [c.num]) ∧ same t) ∧
        (cid.toNat = c.cid → full = true → c.wall = true → c.rings &&& (c.ringsDone ||| 2 ^ g.toNat) = c.rings →
          ∃ t, exec (.activatedReceive g n cid) s = .next t ∧ (∃ d, t.upd.coord = some d ∧ d.phase = 3) ∧ t.upd.relight = false ∧
            (∀ h ∈ s.coordRings c, Sent s t (.firmware .relight h [c.num])) ∧ same t)) ∧
      (∀ g : BitVec 6, c.wall = true →
        (c.rings &&& (c.ringsDone ||| 2 ^ g.toNat) ≠ c.rings → exec (.ringCompleteReceive g) s =
          .next { s with upd := { s.upd with coord := some { c with ringsDone := c.ringsDone ||| 2 ^ g.toNat } } }) ∧
        (c.rings &&& (c.ringsDone ||| 2 ^ g.toNat) = c.rings → ∃ t, exec (.ringCompleteReceive g) s = .next t ∧
          (∃ d, t.upd.coord = some d ∧ d.phase = 3) ∧ (∀ h ∈ s.coordRings c, Sent s t (.firmware .relight h [c.num])) ∧ same t)) ∧
      (c.wall = false → ∃ t, exec .relightReceive s = .next t ∧ t.upd.coord = some { c with phase := 3 } ∧ t.upd.relight = false ∧
        (∀ h ∈ s.coordRings c, Sent s t (.firmware .relight h [c.num])) ∧ same t) ∧
      (s.frame < c.c + s.rd UPD_CFG2_RELIGHT_FR → exec .relightDeadline s = .next s) ∧
      (c.c + s.rd UPD_CFG2_RELIGHT_FR ≤ s.frame → ∃ t, exec .relightDeadline s = .next t ∧ fellBack t rings)) ∧
    (s.upd.coord = none ∨ (∃ c, s.upd.coord = some c ∧ c.phase ≠ 2) → exec .relightDeadline s = .next s ∧
      (∀ g : BitVec 6, exec (.ringCompleteReceive g) s = .next s) ∧ (∀ (g n : BitVec 6) (cid : BitVec 32), exec (.activatedReceive g n cid) s = .next s) ∧
      exec .relightReceive s = .next { s with upd := { s.upd with relight := false, susUntil := min s.upd.susUntil (s.frame + 1) } }) ∧
    (∀ (r : Req) (a : BitVec 32), s.heldReqs < 16 → s.upd.coord = none → ∃ t, exec (.confirm r a) s = .next t ∧ t.upd = s.upd ∧
      Answered s t r 0x73 (if a.toNat = s.rd UPD_ACT_NO_NUMBER then 7 else 5) [] ∧ Kept (fun _ => false) s t) ∧
    (∀ c, s.upd.coord = some c → (∀ (r : Req) (a : BitVec 32), s.heldReqs < 16 → (a.toNat ≠ c.num ∨ c.wall = false ∨ c.phase < 2) →
      ∃ t, exec (.confirm r a) s = .next t ∧ t.upd = s.upd ∧ Answered s t r 0x73 (if a.toNat = c.num then 7 else 5) [] ∧
        Kept (fun _ => false) s t)) ∧
    (∀ c, s.upd.coord = some c → c.wall = true → 2 ≤ c.phase → s.upd.probation = true → s.upd.confirming = none →
      (∀ (r : Req) (a : BitVec 32), s.heldReqs < 16 → a.toNat = c.num → ∃ t, exec (.confirm r a) s = .next t ∧ confirmed t ∧
        (∀ h ∈ s.coordRings c, Sent s t (.firmware .confirm h [c.num])) ∧ Kept confirmKeys s t) ∧
      (s.rd UPD_CFG_PROB_S ≠ 0 → s.tickTime c.c + msT (1000 * s.rd UPD_CFG_PROB_S) ≤ s.wtu.wt → ∃ t, exec .autoConfirm s = .next t ∧
        confirmed t ∧ (∀ h ∈ s.coordRings c, Sent s t (.firmware .confirm h [c.num])) ∧ Kept confirmKeys s t) ∧
      (s.rd UPD_CFG_PROB_S = 0 ∨ s.wtu.wt < s.tickTime c.c + msT (1000 * s.rd UPD_CFG_PROB_S) → exec .autoConfirm s = .next s)) ∧
    (s.upd.coord = none ∨ s.upd.confirming = none → exec .confirmRepeat s = .next s ∧
      ∀ g n : BitVec 6, exec (.confirmAckReceive g n) s = .next s) ∧
    (∀ c k, s.upd.coord = some c → s.upd.confirming = some k →
      (∃ t, exec .confirmRepeat s = .next t ∧ t.upd = s.upd ∧ same t ∧
        (∀ e ∈ s.ownSides c, c.nodes.getD e.1 0 &&& k.nodes.getD e.1 0 ≠ c.nodes.getD e.1 0 →
          ∃ rest, Sent s t (.firmware .confirm e.2 [c.num, rest])) ∧
        ∀ h ∈ s.foreignRings c, c.wall = true → k.rings.testBit h = false → Sent s t (.firmware .confirm h [c.num])) ∧
      (∀ (g n : BitVec 6) (e : Nat × Nat), (s.ownSides c).find? (fun e => e.2 == g.toNat) = some e →
        let k1 := { k with nodes := k.nodes.modify e.1 (· ||| 2 ^ n.toNat) }
        let done := covered c.nodes k1.nodes && (s.foreignRings c).all fun h => !c.wall || k1.rings.testBit h
        (done = false → exec (.confirmAckReceive g n) s = .next { s with upd := { s.upd with confirming := some k1 } }) ∧
        (done = true → ∃ t, exec (.confirmAckReceive g n) s = .next t ∧ t.upd.confirming = none ∧ t.upd.coord = none ∧
          (∀ q, k.req = some q → Answered s t q 0x73 0 []) ∧ Kept (fun _ => false) s t))) ∧
    ((∀ c, s.upd.coord = some c → c.wall = true) → ∀ r : Req, ∃ t, exec (.confirmReceive r) s = .next t ∧ t.upd.probation = false ∧
      (s.upd.probation = true → confirmed t) ∧
      Sent s t (.firmware .confirmAck r.reply.toNat [s.rd UPD_ACT_NO_NUMBER]) ∧ Kept confirmKeys s t) ∧
    ∀ c, s.upd.coord = some c → c.wall = false → s.upd.confirming = none → ∀ r : Req, ∃ t, exec (.confirmReceive r) s = .next t ∧
      t.upd.probation = false ∧ (∀ h ∈ s.coordRings c, Sent s t (.firmware .confirm h [c.num])) ∧ Kept confirmKeys s t

/-- Fallback: the host's order and a node's request take every node of the ring back at FRAME_NO + 2, a peer's order at the frame it names; a node
that asks repeats its request, and goes back alone where no order comes; a node that is not in probation goes nowhere, but an order ends its
suspension too. -/
def Obligations.Fallbacks : Prop :=
  ∀ s : State, let calm := { s.upd with relight := false, susUntil := min s.upd.susUntil (s.frame + 1) }
    let ordered := fun t : State => (s.upd.probation = true → t.upd.fbAt = some (s.frame + 2)) ∧ t.upd.relight = false ∧
      (∀ i ∈ s.mySides, Sent s t (.firmware .fallbackOrder (s.sideRing i) [s.frame + 2])) ∧
      ∀ p ∈ s.upd.peers, Sent s t (.firmware .fallbackOrder p.2.toNat [s.frame + 2])
    (∀ (r : Req) (a : BitVec 32), s.heldReqs < 16 →
      (a.toNat ≠ s.rd UPD_ACT_NO_NUMBER → ∃ t, exec (.fallback r a) s = .next t ∧ Answered s t r 0x74 5 [] ∧ t.upd = s.upd ∧
        Kept (fun _ => false) s t) ∧
      (a.toNat = s.rd UPD_ACT_NO_NUMBER → s.mySides = [] → s.upd.coord = none → ∃ t, exec (.fallback r a) s = .next t ∧
        Answered s t r 0x74 7 [] ∧ t.upd = s.upd ∧ Kept (fun _ => false) s t) ∧
      (a.toNat = s.rd UPD_ACT_NO_NUMBER → s.mySides ≠ [] → s.upd.coord = none → ∃ t, exec (.fallback r a) s = .next t ∧
        Answered s t r 0x74 0 [s.frame + 2] ∧ ordered t ∧ Kept (fun _ => false) s t)) ∧
    (∀ g n : BitVec 6,
      ((s.mySides = [] ∧ s.upd.coord = none) ∨ s.upd.fbAt.isSome = true → exec (.fallbackReqReceive g n) s = .next s) ∧
      (s.mySides ≠ [] → s.upd.coord = none → s.upd.fbAt = none → ∃ t, exec (.fallbackReqReceive g n) s = .next t ∧ ordered t ∧
        t.live = s.live ∧ t.win = s.win ∧ t.mem = s.mem)) ∧
    (∀ f : BitVec 48,
      (s.upd.probation = false → exec (.fallbackOrderReceive f) s = .next { s with upd := calm }) ∧
      (s.upd.probation = true → s.mySides = [] ∨ s.upd.fbAt.isSome = true →
        exec (.fallbackOrderReceive f) s = .next { s with upd := { calm with fbAt := some f.toNat } }) ∧
      (s.upd.probation = true → s.mySides ≠ [] → s.upd.fbAt = none → ∃ t, exec (.fallbackOrderReceive f) s = .next t ∧
        t.upd.fbAt = some f.toNat ∧ t.upd.relight = false ∧ t.upd.coord = none ∧
        (s.upd.coord = none → ∀ i ∈ s.mySides, Sent s t (.firmware .fallbackOrder (s.sideRing i) [s.frame + 2])) ∧
        t.live = s.live ∧ t.win = s.win ∧ t.mem = s.mem)) ∧
    (s.upd.fbWhy ≠ 0 → s.upd.probation = true → s.upd.fbAt = none →
      (∃ t, exec .fallbackReqRepeat s = .next t ∧ t.upd = s.upd ∧ Kept (fun _ => false) s t) ∧
      (s.isTile = true → ∃ t ws, exec .fallbackReqRepeat s = .next t ∧ Sent s t (.event true ws) ∧
        (ws.getD 0 0).toNat % 65536 = 0x800C ∧ (ws.getD 2 0).toNat % 16 = 4) ∧
      ∃ t, exec .fallbackAlone s = .next t ∧ t.rd UPD_CNT_FB_ALONE = min (s.rd UPD_CNT_FB_ALONE + 1) 255 ∧
        t.upd = { calm with fbAt := some (s.frame + 2) } ∧ RegsKept (keysOf [UPD_CNT_FB_ALONE, NVS_SAVE_DIRTY]) s t ∧ t.win = s.win ∧ t.mem = s.mem) ∧
    (s.upd.fbWhy = 0 ∨ s.upd.probation = false ∨ s.upd.fbAt.isSome = true →
      exec .fallbackReqRepeat s = .next s ∧ exec .fallbackAlone s = .next s)
end

