-- ==== Sys2Proof/Laws/Tbl.lean ====
section
/-! SUPPORT. Sparse tables: a read after a write, and the canonical form. -/

namespace Sys2Proof.Machine

theorem Tbl.get_filter_ne {w : Nat} (m : Tbl w) (k j : Nat) :
    Tbl.get (m.filter (fun e => e.1 != k)) j = if j = k then 0 else m.get j := by
  induction m with
  | nil => simp [Tbl.get]
  | cons e r ih =>
    obtain ⟨a, x⟩ := e
    by_cases h : a = k
    · subst h
      rw [List.filter_cons_of_neg (by simp), ih]
      by_cases hj : j = a <;> simp [Tbl.get, hj]
    · rw [List.filter_cons_of_pos (by simpa using h)]
      simp only [Tbl.get, ih]
      by_cases hj : j = a
      · subst hj; simp [h]
      · simp [hj]

theorem Tbl.get_put {w : Nat} (m : Tbl w) (k j : Nat) (v : BitVec w) :
    (m.put k v).get j = if j = k then v else m.get j := by
  induction m with
  | nil => simp [Tbl.put, Tbl.get]
  | cons e r ih =>
    obtain ⟨a, x⟩ := e
    simp only [Tbl.put]
    split
    · simp [Tbl.get]
    · split
      · rename_i h; subst h
        simp only [Tbl.get]; split <;> simp_all
      · simp only [Tbl.get, ih]
        split
        · rename_i h1 h2 h3; subst h3; simp; omega
        · rfl

/-- A read after a write: the value written at its key, the old value at every other key. -/
theorem Tbl.get_set {w : Nat} (m : Tbl w) (k j : Nat) (v : BitVec w) :
    (m.set k v).get j = if j = k then v else m.get j := by
  unfold Tbl.set
  split
  · rename_i h; subst h; exact Tbl.get_filter_ne m k j
  · exact Tbl.get_put m k j v

@[simp] theorem Tbl.get_set_self {w : Nat} (m : Tbl w) (k : Nat) (v : BitVec w) : (m.set k v).get k = v := by
  simp [Tbl.get_set]

theorem Tbl.get_set_ne {w : Nat} (m : Tbl w) {k j : Nat} (v : BitVec w) (h : j ≠ k) : (m.set k v).get j = m.get j := by
  simp [Tbl.get_set, h]

/-! ### The canonical form -/

theorem Tbl.wfFrom_mono {w : Nat} {m : Tbl w} {a b : Nat} (h : b ≤ a) (hm : Tbl.wfFrom a m = true) : Tbl.wfFrom b m = true := by
  cases m with
  | nil => rfl
  | cons e r =>
    obtain ⟨k, x⟩ := e
    simp only [Tbl.wfFrom, Bool.and_eq_true, decide_eq_true_eq] at hm ⊢
    exact ⟨⟨by omega, hm.1.2⟩, hm.2⟩

/-- Leaving entries out keeps the canonical form. -/
theorem Tbl.wfFrom_filter {w : Nat} (p : Nat × BitVec w → Bool) {m : Tbl w} {a : Nat} (hm : Tbl.wfFrom a m = true) :
    Tbl.wfFrom a (m.filter p) = true := by
  induction m generalizing a with
  | nil => rfl
  | cons e r ih =>
    obtain ⟨k, x⟩ := e
    simp only [Tbl.wfFrom, Bool.and_eq_true, decide_eq_true_eq] at hm
    by_cases h : p (k, x) = true
    · rw [List.filter_cons_of_pos h]
      simp only [Tbl.wfFrom, Bool.and_eq_true, decide_eq_true_eq]
      exact ⟨hm.1, ih hm.2⟩
    · rw [List.filter_cons_of_neg h]
      exact Tbl.wfFrom_mono (by omega) (ih hm.2)

theorem Tbl.wf_filter {w : Nat} (p : Nat × BitVec w → Bool) {m : Tbl w} (hm : m.wf = true) : Tbl.wf (m.filter p) = true :=
  Tbl.wfFrom_filter p hm

theorem Tbl.wfFrom_put {w : Nat} {m : Tbl w} {a k : Nat} {v : BitVec w} (hv : v ≠ 0) (hk : a ≤ k) (hm : Tbl.wfFrom a m = true) :
    Tbl.wfFrom a (m.put k v) = true := by
  induction m generalizing a with
  | nil => simpa [Tbl.put, Tbl.wfFrom, hk] using hv
  | cons e r ih =>
    obtain ⟨b, x⟩ := e
    simp only [Tbl.wfFrom, Bool.and_eq_true, decide_eq_true_eq] at hm
    simp only [Tbl.put]
    split
    · rename_i h
      simp only [Tbl.wfFrom, Bool.and_eq_true, decide_eq_true_eq]
      exact ⟨⟨hk, hv⟩, ⟨by omega, hm.1.2⟩, hm.2⟩
    · split
      · rename_i h1 h; subst h
        simp only [Tbl.wfFrom, Bool.and_eq_true, decide_eq_true_eq]
        exact ⟨⟨hk, hv⟩, hm.2⟩
      · simp only [Tbl.wfFrom, Bool.and_eq_true, decide_eq_true_eq]
        exact ⟨hm.1, ih (by omega) hm.2⟩

/-- A write keeps the canonical form. -/
theorem Tbl.wf_set {w : Nat} {m : Tbl w} (k : Nat) (v : BitVec w) (hm : m.wf = true) : (m.set k v).wf = true := by
  unfold Tbl.set
  split
  · exact Tbl.wf_filter _ hm
  · rename_i h; exact Tbl.wfFrom_put h (Nat.zero_le k) hm

theorem Tbl.wf_setMany {w : Nat} (l : List (BitVec w)) {m : Tbl w} (k : Nat) (hm : m.wf = true) : (m.setMany k l).wf = true := by
  induction l generalizing m k with
  | nil => exact hm
  | cons v r ih => exact ih (k + 1) (Tbl.wf_set k v hm)

theorem Tbl.wf_keep {w : Nat} (p : Nat → Bool) {m : Tbl w} (hm : m.wf = true) : (m.keep p).wf = true := Tbl.wf_filter _ hm

/-- Storing values one after another, from any list of things, keeps the canonical form. -/
theorem Tbl.wf_foldl_set {w : Nat} {α : Type} (l : List α) (k : α → Nat) (v : α → BitVec w) {m : Tbl w} (hm : m.wf = true) :
    (l.foldl (fun d a => Tbl.set d (k a) (v a)) m).wf = true := by
  induction l generalizing m with
  | nil => exact hm
  | cons a r ih => exact ih (Tbl.wf_set _ _ hm)

end Sys2Proof.Machine
end

