-- ==== Sys2Proof/Laws/State.lean ====
section
/-! SUPPORT. What each named update of the state leaves as it was, field by field, and a register read after a write. -/

namespace Sys2Proof.Machine

/-! ### wr -/

@[simp] theorem State.wr_shadow (s : State) (f : Fld) (v : Nat) : (s.wr f v).shadow = s.shadow := rfl
@[simp] theorem State.wr_latched (s : State) (f : Fld) (v : Nat) : (s.wr f v).latched = s.latched := rfl
@[simp] theorem State.wr_committed (s : State) (f : Fld) (v : Nat) : (s.wr f v).committed = s.committed := rfl
@[simp] theorem State.wr_snapd (s : State) (f : Fld) (v : Nat) : (s.wr f v).snapd = s.snapd := rfl
@[simp] theorem State.wr_win (s : State) (f : Fld) (v : Nat) : (s.wr f v).win = s.win := rfl
@[simp] theorem State.wr_winShadow (s : State) (f : Fld) (v : Nat) : (s.wr f v).winShadow = s.winShadow := rfl
@[simp] theorem State.wr_winLatched (s : State) (f : Fld) (v : Nat) : (s.wr f v).winLatched = s.winLatched := rfl
@[simp] theorem State.wr_winCommitted (s : State) (f : Fld) (v : Nat) : (s.wr f v).winCommitted = s.winCommitted := rfl
@[simp] theorem State.wr_ue (s : State) (f : Fld) (v : Nat) : (s.wr f v).ue = s.ue := rfl
@[simp] theorem State.wr_mem (s : State) (f : Fld) (v : Nat) : (s.wr f v).mem = s.mem := rfl
@[simp] theorem State.wr_host (s : State) (f : Fld) (v : Nat) : (s.wr f v).host = s.host := rfl
@[simp] theorem State.wr_ports (s : State) (f : Fld) (v : Nat) : (s.wr f v).ports = s.ports := rfl
@[simp] theorem State.wr_pickFollowed (s : State) (f : Fld) (v : Nat) : (s.wr f v).pickFollowed = s.pickFollowed := rfl
@[simp] theorem State.wr_pickSeq (s : State) (f : Fld) (v : Nat) : (s.wr f v).pickSeq = s.pickSeq := rfl
@[simp] theorem State.wr_flipSeq (s : State) (f : Fld) (v : Nat) : (s.wr f v).flipSeq = s.flipSeq := rfl
@[simp] theorem State.wr_refSeq (s : State) (f : Fld) (v : Nat) : (s.wr f v).refSeq = s.refSeq := rfl
@[simp] theorem State.wr_comp (s : State) (f : Fld) (v : Nat) : (s.wr f v).comp = s.comp := rfl
@[simp] theorem State.wr_imp (s : State) (f : Fld) (v : Nat) : (s.wr f v).imp = s.imp := rfl
@[simp] theorem State.wr_sides (s : State) (f : Fld) (v : Nat) : (s.wr f v).sides = s.sides := rfl
@[simp] theorem State.wr_link (s : State) (f : Fld) (v : Nat) : (s.wr f v).link = s.link := rfl
@[simp] theorem State.wr_wtu (s : State) (f : Fld) (v : Nat) : (s.wr f v).wtu = s.wtu := rfl
@[simp] theorem State.wr_tile (s : State) (f : Fld) (v : Nat) : (s.wr f v).tile = s.tile := rfl
@[simp] theorem State.wr_scan (s : State) (f : Fld) (v : Nat) : (s.wr f v).scan = s.scan := rfl
@[simp] theorem State.wr_health (s : State) (f : Fld) (v : Nat) : (s.wr f v).health = s.health := rfl
@[simp] theorem State.wr_rail (s : State) (f : Fld) (v : Nat) : (s.wr f v).rail = s.rail := rfl
@[simp] theorem State.wr_house (s : State) (f : Fld) (v : Nat) : (s.wr f v).house = s.house := rfl
@[simp] theorem State.wr_ctl (s : State) (f : Fld) (v : Nat) : (s.wr f v).ctl = s.ctl := rfl
@[simp] theorem State.wr_arb (s : State) (f : Fld) (v : Nat) : (s.wr f v).arb = s.arb := rfl
@[simp] theorem State.wr_upd (s : State) (f : Fld) (v : Nat) : (s.wr f v).upd = s.upd := rfl
@[simp] theorem State.wr_nvs (s : State) (f : Fld) (v : Nat) : (s.wr f v).nvs = s.nvs := rfl
@[simp] theorem State.wr_commits (s : State) (f : Fld) (v : Nat) : (s.wr f v).commits = s.commits := rfl
@[simp] theorem State.wr_xing (s : State) (f : Fld) (v : Nat) : (s.wr f v).xing = s.xing := rfl
@[simp] theorem State.wr_latchDone (s : State) (f : Fld) (v : Nat) : (s.wr f v).latchDone = s.latchDone := rfl
@[simp] theorem State.wr_evtSeq (s : State) (f : Fld) (v : Nat) : (s.wr f v).evtSeq = s.evtSeq := rfl
@[simp] theorem State.wr_evtMask (s : State) (f : Fld) (v : Nat) : (s.wr f v).evtMask = s.evtMask := rfl
@[simp] theorem State.wr_runCid (s : State) (f : Fld) (v : Nat) : (s.wr f v).runCid = s.runCid := rfl
@[simp] theorem State.wr_recd (s : State) (f : Fld) (v : Nat) : (s.wr f v).recd = s.recd := rfl
@[simp] theorem State.wr_pending (s : State) (f : Fld) (v : Nat) : (s.wr f v).pending = s.pending := rfl
@[simp] theorem State.wr_out (s : State) (f : Fld) (v : Nat) : (s.wr f v).out = s.out := rfl
@[simp] theorem State.wr_freeCtr (s : State) (f : Fld) (v : Nat) : (s.wr f v).freeCtr = s.freeCtr := rfl

/-! ### send -/

@[simp] theorem State.send_live (s : State) (e : Emit) : (s.send e).live = s.live := rfl
@[simp] theorem State.send_shadow (s : State) (e : Emit) : (s.send e).shadow = s.shadow := rfl
@[simp] theorem State.send_latched (s : State) (e : Emit) : (s.send e).latched = s.latched := rfl
@[simp] theorem State.send_committed (s : State) (e : Emit) : (s.send e).committed = s.committed := rfl
@[simp] theorem State.send_snapd (s : State) (e : Emit) : (s.send e).snapd = s.snapd := rfl
@[simp] theorem State.send_win (s : State) (e : Emit) : (s.send e).win = s.win := rfl
@[simp] theorem State.send_winShadow (s : State) (e : Emit) : (s.send e).winShadow = s.winShadow := rfl
@[simp] theorem State.send_winLatched (s : State) (e : Emit) : (s.send e).winLatched = s.winLatched := rfl
@[simp] theorem State.send_winCommitted (s : State) (e : Emit) : (s.send e).winCommitted = s.winCommitted := rfl
@[simp] theorem State.send_ue (s : State) (e : Emit) : (s.send e).ue = s.ue := rfl
@[simp] theorem State.send_mem (s : State) (e : Emit) : (s.send e).mem = s.mem := rfl
@[simp] theorem State.send_host (s : State) (e : Emit) : (s.send e).host = s.host := rfl
@[simp] theorem State.send_ports (s : State) (e : Emit) : (s.send e).ports = s.ports := rfl
@[simp] theorem State.send_pickFollowed (s : State) (e : Emit) : (s.send e).pickFollowed = s.pickFollowed := rfl
@[simp] theorem State.send_pickSeq (s : State) (e : Emit) : (s.send e).pickSeq = s.pickSeq := rfl
@[simp] theorem State.send_flipSeq (s : State) (e : Emit) : (s.send e).flipSeq = s.flipSeq := rfl
@[simp] theorem State.send_refSeq (s : State) (e : Emit) : (s.send e).refSeq = s.refSeq := rfl
@[simp] theorem State.send_comp (s : State) (e : Emit) : (s.send e).comp = s.comp := rfl
@[simp] theorem State.send_imp (s : State) (e : Emit) : (s.send e).imp = s.imp := rfl
@[simp] theorem State.send_sides (s : State) (e : Emit) : (s.send e).sides = s.sides := rfl
@[simp] theorem State.send_link (s : State) (e : Emit) : (s.send e).link = s.link := rfl
@[simp] theorem State.send_wtu (s : State) (e : Emit) : (s.send e).wtu = s.wtu := rfl
@[simp] theorem State.send_tile (s : State) (e : Emit) : (s.send e).tile = s.tile := rfl
@[simp] theorem State.send_scan (s : State) (e : Emit) : (s.send e).scan = s.scan := rfl
@[simp] theorem State.send_health (s : State) (e : Emit) : (s.send e).health = s.health := rfl
@[simp] theorem State.send_rail (s : State) (e : Emit) : (s.send e).rail = s.rail := rfl
@[simp] theorem State.send_house (s : State) (e : Emit) : (s.send e).house = s.house := rfl
@[simp] theorem State.send_ctl (s : State) (e : Emit) : (s.send e).ctl = s.ctl := rfl
@[simp] theorem State.send_arb (s : State) (e : Emit) : (s.send e).arb = s.arb := rfl
@[simp] theorem State.send_upd (s : State) (e : Emit) : (s.send e).upd = s.upd := rfl
@[simp] theorem State.send_nvs (s : State) (e : Emit) : (s.send e).nvs = s.nvs := rfl
@[simp] theorem State.send_commits (s : State) (e : Emit) : (s.send e).commits = s.commits := rfl
@[simp] theorem State.send_xing (s : State) (e : Emit) : (s.send e).xing = s.xing := rfl
@[simp] theorem State.send_latchDone (s : State) (e : Emit) : (s.send e).latchDone = s.latchDone := rfl
@[simp] theorem State.send_evtSeq (s : State) (e : Emit) : (s.send e).evtSeq = s.evtSeq := rfl
@[simp] theorem State.send_evtMask (s : State) (e : Emit) : (s.send e).evtMask = s.evtMask := rfl
@[simp] theorem State.send_runCid (s : State) (e : Emit) : (s.send e).runCid = s.runCid := rfl
@[simp] theorem State.send_recd (s : State) (e : Emit) : (s.send e).recd = s.recd := rfl
@[simp] theorem State.send_pending (s : State) (e : Emit) : (s.send e).pending = s.pending := rfl
@[simp] theorem State.send_freeCtr (s : State) (e : Emit) : (s.send e).freeCtr = s.freeCtr := rfl

/-! ### drawn -/

@[simp] theorem State.drawn_live (s : State)  : (s.drawn ).live = s.live := rfl
@[simp] theorem State.drawn_shadow (s : State)  : (s.drawn ).shadow = s.shadow := rfl
@[simp] theorem State.drawn_latched (s : State)  : (s.drawn ).latched = s.latched := rfl
@[simp] theorem State.drawn_committed (s : State)  : (s.drawn ).committed = s.committed := rfl
@[simp] theorem State.drawn_snapd (s : State)  : (s.drawn ).snapd = s.snapd := rfl
@[simp] theorem State.drawn_win (s : State)  : (s.drawn ).win = s.win := rfl
@[simp] theorem State.drawn_winShadow (s : State)  : (s.drawn ).winShadow = s.winShadow := rfl
@[simp] theorem State.drawn_winLatched (s : State)  : (s.drawn ).winLatched = s.winLatched := rfl
@[simp] theorem State.drawn_winCommitted (s : State)  : (s.drawn ).winCommitted = s.winCommitted := rfl
@[simp] theorem State.drawn_ue (s : State)  : (s.drawn ).ue = s.ue := rfl
@[simp] theorem State.drawn_mem (s : State)  : (s.drawn ).mem = s.mem := rfl
@[simp] theorem State.drawn_host (s : State)  : (s.drawn ).host = s.host := rfl
@[simp] theorem State.drawn_ports (s : State)  : (s.drawn ).ports = s.ports := rfl
@[simp] theorem State.drawn_pickFollowed (s : State)  : (s.drawn ).pickFollowed = s.pickFollowed := rfl
@[simp] theorem State.drawn_pickSeq (s : State)  : (s.drawn ).pickSeq = s.pickSeq := rfl
@[simp] theorem State.drawn_flipSeq (s : State)  : (s.drawn ).flipSeq = s.flipSeq := rfl
@[simp] theorem State.drawn_refSeq (s : State)  : (s.drawn ).refSeq = s.refSeq := rfl
@[simp] theorem State.drawn_comp (s : State)  : (s.drawn ).comp = s.comp := rfl
@[simp] theorem State.drawn_imp (s : State)  : (s.drawn ).imp = s.imp := rfl
@[simp] theorem State.drawn_sides (s : State)  : (s.drawn ).sides = s.sides := rfl
@[simp] theorem State.drawn_link (s : State)  : (s.drawn ).link = s.link := rfl
@[simp] theorem State.drawn_wtu (s : State)  : (s.drawn ).wtu = s.wtu := rfl
@[simp] theorem State.drawn_tile (s : State)  : (s.drawn ).tile = s.tile := rfl
@[simp] theorem State.drawn_scan (s : State)  : (s.drawn ).scan = s.scan := rfl
@[simp] theorem State.drawn_health (s : State)  : (s.drawn ).health = s.health := rfl
@[simp] theorem State.drawn_rail (s : State)  : (s.drawn ).rail = s.rail := rfl
@[simp] theorem State.drawn_house (s : State)  : (s.drawn ).house = s.house := rfl
@[simp] theorem State.drawn_ctl (s : State)  : (s.drawn ).ctl = s.ctl := rfl
@[simp] theorem State.drawn_arb (s : State)  : (s.drawn ).arb = s.arb := rfl
@[simp] theorem State.drawn_upd (s : State)  : (s.drawn ).upd = s.upd := rfl
@[simp] theorem State.drawn_nvs (s : State)  : (s.drawn ).nvs = s.nvs := rfl
@[simp] theorem State.drawn_commits (s : State)  : (s.drawn ).commits = s.commits := rfl
@[simp] theorem State.drawn_xing (s : State)  : (s.drawn ).xing = s.xing := rfl
@[simp] theorem State.drawn_latchDone (s : State)  : (s.drawn ).latchDone = s.latchDone := rfl
@[simp] theorem State.drawn_evtSeq (s : State)  : (s.drawn ).evtSeq = s.evtSeq := rfl
@[simp] theorem State.drawn_evtMask (s : State)  : (s.drawn ).evtMask = s.evtMask := rfl
@[simp] theorem State.drawn_runCid (s : State)  : (s.drawn ).runCid = s.runCid := rfl
@[simp] theorem State.drawn_recd (s : State)  : (s.drawn ).recd = s.recd := rfl
@[simp] theorem State.drawn_pending (s : State)  : (s.drawn ).pending = s.pending := rfl
@[simp] theorem State.drawn_out (s : State)  : (s.drawn ).out = s.out := rfl

/-! ### wrFree -/

@[simp] theorem State.wrFree_shadow (s : State) (f : Fld) : (s.wrFree f).shadow = s.shadow := rfl
@[simp] theorem State.wrFree_latched (s : State) (f : Fld) : (s.wrFree f).latched = s.latched := rfl
@[simp] theorem State.wrFree_committed (s : State) (f : Fld) : (s.wrFree f).committed = s.committed := rfl
@[simp] theorem State.wrFree_snapd (s : State) (f : Fld) : (s.wrFree f).snapd = s.snapd := rfl
@[simp] theorem State.wrFree_win (s : State) (f : Fld) : (s.wrFree f).win = s.win := rfl
@[simp] theorem State.wrFree_winShadow (s : State) (f : Fld) : (s.wrFree f).winShadow = s.winShadow := rfl
@[simp] theorem State.wrFree_winLatched (s : State) (f : Fld) : (s.wrFree f).winLatched = s.winLatched := rfl
@[simp] theorem State.wrFree_winCommitted (s : State) (f : Fld) : (s.wrFree f).winCommitted = s.winCommitted := rfl
@[simp] theorem State.wrFree_ue (s : State) (f : Fld) : (s.wrFree f).ue = s.ue := rfl
@[simp] theorem State.wrFree_mem (s : State) (f : Fld) : (s.wrFree f).mem = s.mem := rfl
@[simp] theorem State.wrFree_host (s : State) (f : Fld) : (s.wrFree f).host = s.host := rfl
@[simp] theorem State.wrFree_ports (s : State) (f : Fld) : (s.wrFree f).ports = s.ports := rfl
@[simp] theorem State.wrFree_pickFollowed (s : State) (f : Fld) : (s.wrFree f).pickFollowed = s.pickFollowed := rfl
@[simp] theorem State.wrFree_pickSeq (s : State) (f : Fld) : (s.wrFree f).pickSeq = s.pickSeq := rfl
@[simp] theorem State.wrFree_flipSeq (s : State) (f : Fld) : (s.wrFree f).flipSeq = s.flipSeq := rfl
@[simp] theorem State.wrFree_refSeq (s : State) (f : Fld) : (s.wrFree f).refSeq = s.refSeq := rfl
@[simp] theorem State.wrFree_comp (s : State) (f : Fld) : (s.wrFree f).comp = s.comp := rfl
@[simp] theorem State.wrFree_imp (s : State) (f : Fld) : (s.wrFree f).imp = s.imp := rfl
@[simp] theorem State.wrFree_sides (s : State) (f : Fld) : (s.wrFree f).sides = s.sides := rfl
@[simp] theorem State.wrFree_link (s : State) (f : Fld) : (s.wrFree f).link = s.link := rfl
@[simp] theorem State.wrFree_wtu (s : State) (f : Fld) : (s.wrFree f).wtu = s.wtu := rfl
@[simp] theorem State.wrFree_tile (s : State) (f : Fld) : (s.wrFree f).tile = s.tile := rfl
@[simp] theorem State.wrFree_scan (s : State) (f : Fld) : (s.wrFree f).scan = s.scan := rfl
@[simp] theorem State.wrFree_health (s : State) (f : Fld) : (s.wrFree f).health = s.health := rfl
@[simp] theorem State.wrFree_rail (s : State) (f : Fld) : (s.wrFree f).rail = s.rail := rfl
@[simp] theorem State.wrFree_house (s : State) (f : Fld) : (s.wrFree f).house = s.house := rfl
@[simp] theorem State.wrFree_ctl (s : State) (f : Fld) : (s.wrFree f).ctl = s.ctl := rfl
@[simp] theorem State.wrFree_arb (s : State) (f : Fld) : (s.wrFree f).arb = s.arb := rfl
@[simp] theorem State.wrFree_upd (s : State) (f : Fld) : (s.wrFree f).upd = s.upd := rfl
@[simp] theorem State.wrFree_nvs (s : State) (f : Fld) : (s.wrFree f).nvs = s.nvs := rfl
@[simp] theorem State.wrFree_commits (s : State) (f : Fld) : (s.wrFree f).commits = s.commits := rfl
@[simp] theorem State.wrFree_xing (s : State) (f : Fld) : (s.wrFree f).xing = s.xing := rfl
@[simp] theorem State.wrFree_latchDone (s : State) (f : Fld) : (s.wrFree f).latchDone = s.latchDone := rfl
@[simp] theorem State.wrFree_evtSeq (s : State) (f : Fld) : (s.wrFree f).evtSeq = s.evtSeq := rfl
@[simp] theorem State.wrFree_evtMask (s : State) (f : Fld) : (s.wrFree f).evtMask = s.evtMask := rfl
@[simp] theorem State.wrFree_runCid (s : State) (f : Fld) : (s.wrFree f).runCid = s.runCid := rfl
@[simp] theorem State.wrFree_recd (s : State) (f : Fld) : (s.wrFree f).recd = s.recd := rfl
@[simp] theorem State.wrFree_pending (s : State) (f : Fld) : (s.wrFree f).pending = s.pending := rfl
@[simp] theorem State.wrFree_out (s : State) (f : Fld) : (s.wrFree f).out = s.out := rfl

/-! ### setWord -/

@[simp] theorem State.setWord_live (s : State) (i : Nat) (v : Word72) : (s.setWord i v).live = s.live := rfl
@[simp] theorem State.setWord_shadow (s : State) (i : Nat) (v : Word72) : (s.setWord i v).shadow = s.shadow := rfl
@[simp] theorem State.setWord_latched (s : State) (i : Nat) (v : Word72) : (s.setWord i v).latched = s.latched := rfl
@[simp] theorem State.setWord_committed (s : State) (i : Nat) (v : Word72) : (s.setWord i v).committed = s.committed := rfl
@[simp] theorem State.setWord_snapd (s : State) (i : Nat) (v : Word72) : (s.setWord i v).snapd = s.snapd := rfl
@[simp] theorem State.setWord_winShadow (s : State) (i : Nat) (v : Word72) : (s.setWord i v).winShadow = s.winShadow := rfl
@[simp] theorem State.setWord_winLatched (s : State) (i : Nat) (v : Word72) : (s.setWord i v).winLatched = s.winLatched := rfl
@[simp] theorem State.setWord_winCommitted (s : State) (i : Nat) (v : Word72) : (s.setWord i v).winCommitted = s.winCommitted := rfl
@[simp] theorem State.setWord_mem (s : State) (i : Nat) (v : Word72) : (s.setWord i v).mem = s.mem := rfl
@[simp] theorem State.setWord_host (s : State) (i : Nat) (v : Word72) : (s.setWord i v).host = s.host := rfl
@[simp] theorem State.setWord_ports (s : State) (i : Nat) (v : Word72) : (s.setWord i v).ports = s.ports := rfl
@[simp] theorem State.setWord_pickFollowed (s : State) (i : Nat) (v : Word72) : (s.setWord i v).pickFollowed = s.pickFollowed := rfl
@[simp] theorem State.setWord_pickSeq (s : State) (i : Nat) (v : Word72) : (s.setWord i v).pickSeq = s.pickSeq := rfl
@[simp] theorem State.setWord_flipSeq (s : State) (i : Nat) (v : Word72) : (s.setWord i v).flipSeq = s.flipSeq := rfl
@[simp] theorem State.setWord_refSeq (s : State) (i : Nat) (v : Word72) : (s.setWord i v).refSeq = s.refSeq := rfl
@[simp] theorem State.setWord_comp (s : State) (i : Nat) (v : Word72) : (s.setWord i v).comp = s.comp := rfl
@[simp] theorem State.setWord_imp (s : State) (i : Nat) (v : Word72) : (s.setWord i v).imp = s.imp := rfl
@[simp] theorem State.setWord_sides (s : State) (i : Nat) (v : Word72) : (s.setWord i v).sides = s.sides := rfl
@[simp] theorem State.setWord_link (s : State) (i : Nat) (v : Word72) : (s.setWord i v).link = s.link := rfl
@[simp] theorem State.setWord_wtu (s : State) (i : Nat) (v : Word72) : (s.setWord i v).wtu = s.wtu := rfl
@[simp] theorem State.setWord_tile (s : State) (i : Nat) (v : Word72) : (s.setWord i v).tile = s.tile := rfl
@[simp] theorem State.setWord_scan (s : State) (i : Nat) (v : Word72) : (s.setWord i v).scan = s.scan := rfl
@[simp] theorem State.setWord_health (s : State) (i : Nat) (v : Word72) : (s.setWord i v).health = s.health := rfl
@[simp] theorem State.setWord_rail (s : State) (i : Nat) (v : Word72) : (s.setWord i v).rail = s.rail := rfl
@[simp] theorem State.setWord_house (s : State) (i : Nat) (v : Word72) : (s.setWord i v).house = s.house := rfl
@[simp] theorem State.setWord_ctl (s : State) (i : Nat) (v : Word72) : (s.setWord i v).ctl = s.ctl := rfl
@[simp] theorem State.setWord_arb (s : State) (i : Nat) (v : Word72) : (s.setWord i v).arb = s.arb := rfl
@[simp] theorem State.setWord_upd (s : State) (i : Nat) (v : Word72) : (s.setWord i v).upd = s.upd := rfl
@[simp] theorem State.setWord_nvs (s : State) (i : Nat) (v : Word72) : (s.setWord i v).nvs = s.nvs := rfl
@[simp] theorem State.setWord_commits (s : State) (i : Nat) (v : Word72) : (s.setWord i v).commits = s.commits := rfl
@[simp] theorem State.setWord_xing (s : State) (i : Nat) (v : Word72) : (s.setWord i v).xing = s.xing := rfl
@[simp] theorem State.setWord_latchDone (s : State) (i : Nat) (v : Word72) : (s.setWord i v).latchDone = s.latchDone := rfl
@[simp] theorem State.setWord_evtSeq (s : State) (i : Nat) (v : Word72) : (s.setWord i v).evtSeq = s.evtSeq := rfl
@[simp] theorem State.setWord_evtMask (s : State) (i : Nat) (v : Word72) : (s.setWord i v).evtMask = s.evtMask := rfl
@[simp] theorem State.setWord_runCid (s : State) (i : Nat) (v : Word72) : (s.setWord i v).runCid = s.runCid := rfl
@[simp] theorem State.setWord_recd (s : State) (i : Nat) (v : Word72) : (s.setWord i v).recd = s.recd := rfl
@[simp] theorem State.setWord_pending (s : State) (i : Nat) (v : Word72) : (s.setWord i v).pending = s.pending := rfl
@[simp] theorem State.setWord_out (s : State) (i : Nat) (v : Word72) : (s.setWord i v).out = s.out := rfl
@[simp] theorem State.setWord_freeCtr (s : State) (i : Nat) (v : Word72) : (s.setWord i v).freeCtr = s.freeCtr := rfl

/-! ### setPix -/

@[simp] theorem State.setPix_live (s : State) (a : Nat) (v : Word72) : (s.setPix a v).live = s.live := rfl
@[simp] theorem State.setPix_shadow (s : State) (a : Nat) (v : Word72) : (s.setPix a v).shadow = s.shadow := rfl
@[simp] theorem State.setPix_latched (s : State) (a : Nat) (v : Word72) : (s.setPix a v).latched = s.latched := rfl
@[simp] theorem State.setPix_committed (s : State) (a : Nat) (v : Word72) : (s.setPix a v).committed = s.committed := rfl
@[simp] theorem State.setPix_snapd (s : State) (a : Nat) (v : Word72) : (s.setPix a v).snapd = s.snapd := rfl
@[simp] theorem State.setPix_winShadow (s : State) (a : Nat) (v : Word72) : (s.setPix a v).winShadow = s.winShadow := rfl
@[simp] theorem State.setPix_winLatched (s : State) (a : Nat) (v : Word72) : (s.setPix a v).winLatched = s.winLatched := rfl
@[simp] theorem State.setPix_winCommitted (s : State) (a : Nat) (v : Word72) : (s.setPix a v).winCommitted = s.winCommitted := rfl
@[simp] theorem State.setPix_mem (s : State) (a : Nat) (v : Word72) : (s.setPix a v).mem = s.mem := rfl
@[simp] theorem State.setPix_host (s : State) (a : Nat) (v : Word72) : (s.setPix a v).host = s.host := rfl
@[simp] theorem State.setPix_ports (s : State) (a : Nat) (v : Word72) : (s.setPix a v).ports = s.ports := rfl
@[simp] theorem State.setPix_pickFollowed (s : State) (a : Nat) (v : Word72) : (s.setPix a v).pickFollowed = s.pickFollowed := rfl
@[simp] theorem State.setPix_pickSeq (s : State) (a : Nat) (v : Word72) : (s.setPix a v).pickSeq = s.pickSeq := rfl
@[simp] theorem State.setPix_flipSeq (s : State) (a : Nat) (v : Word72) : (s.setPix a v).flipSeq = s.flipSeq := rfl
@[simp] theorem State.setPix_refSeq (s : State) (a : Nat) (v : Word72) : (s.setPix a v).refSeq = s.refSeq := rfl
@[simp] theorem State.setPix_comp (s : State) (a : Nat) (v : Word72) : (s.setPix a v).comp = s.comp := rfl
@[simp] theorem State.setPix_imp (s : State) (a : Nat) (v : Word72) : (s.setPix a v).imp = s.imp := rfl
@[simp] theorem State.setPix_sides (s : State) (a : Nat) (v : Word72) : (s.setPix a v).sides = s.sides := rfl
@[simp] theorem State.setPix_link (s : State) (a : Nat) (v : Word72) : (s.setPix a v).link = s.link := rfl
@[simp] theorem State.setPix_wtu (s : State) (a : Nat) (v : Word72) : (s.setPix a v).wtu = s.wtu := rfl
@[simp] theorem State.setPix_tile (s : State) (a : Nat) (v : Word72) : (s.setPix a v).tile = s.tile := rfl
@[simp] theorem State.setPix_scan (s : State) (a : Nat) (v : Word72) : (s.setPix a v).scan = s.scan := rfl
@[simp] theorem State.setPix_health (s : State) (a : Nat) (v : Word72) : (s.setPix a v).health = s.health := rfl
@[simp] theorem State.setPix_rail (s : State) (a : Nat) (v : Word72) : (s.setPix a v).rail = s.rail := rfl
@[simp] theorem State.setPix_house (s : State) (a : Nat) (v : Word72) : (s.setPix a v).house = s.house := rfl
@[simp] theorem State.setPix_ctl (s : State) (a : Nat) (v : Word72) : (s.setPix a v).ctl = s.ctl := rfl
@[simp] theorem State.setPix_arb (s : State) (a : Nat) (v : Word72) : (s.setPix a v).arb = s.arb := rfl
@[simp] theorem State.setPix_upd (s : State) (a : Nat) (v : Word72) : (s.setPix a v).upd = s.upd := rfl
@[simp] theorem State.setPix_nvs (s : State) (a : Nat) (v : Word72) : (s.setPix a v).nvs = s.nvs := rfl
@[simp] theorem State.setPix_commits (s : State) (a : Nat) (v : Word72) : (s.setPix a v).commits = s.commits := rfl
@[simp] theorem State.setPix_xing (s : State) (a : Nat) (v : Word72) : (s.setPix a v).xing = s.xing := rfl
@[simp] theorem State.setPix_latchDone (s : State) (a : Nat) (v : Word72) : (s.setPix a v).latchDone = s.latchDone := rfl
@[simp] theorem State.setPix_evtSeq (s : State) (a : Nat) (v : Word72) : (s.setPix a v).evtSeq = s.evtSeq := rfl
@[simp] theorem State.setPix_evtMask (s : State) (a : Nat) (v : Word72) : (s.setPix a v).evtMask = s.evtMask := rfl
@[simp] theorem State.setPix_runCid (s : State) (a : Nat) (v : Word72) : (s.setPix a v).runCid = s.runCid := rfl
@[simp] theorem State.setPix_recd (s : State) (a : Nat) (v : Word72) : (s.setPix a v).recd = s.recd := rfl
@[simp] theorem State.setPix_pending (s : State) (a : Nat) (v : Word72) : (s.setPix a v).pending = s.pending := rfl
@[simp] theorem State.setPix_out (s : State) (a : Nat) (v : Word72) : (s.setPix a v).out = s.out := rfl
@[simp] theorem State.setPix_freeCtr (s : State) (a : Nat) (v : Word72) : (s.setPix a v).freeCtr = s.freeCtr := rfl

/-! ### storeBytes -/

@[simp] theorem State.storeBytes_live (s : State) (a : Nat) (b : List Byte) : (s.storeBytes a b).live = s.live := rfl
@[simp] theorem State.storeBytes_shadow (s : State) (a : Nat) (b : List Byte) : (s.storeBytes a b).shadow = s.shadow := rfl
@[simp] theorem State.storeBytes_latched (s : State) (a : Nat) (b : List Byte) : (s.storeBytes a b).latched = s.latched := rfl
@[simp] theorem State.storeBytes_committed (s : State) (a : Nat) (b : List Byte) : (s.storeBytes a b).committed = s.committed := rfl
@[simp] theorem State.storeBytes_snapd (s : State) (a : Nat) (b : List Byte) : (s.storeBytes a b).snapd = s.snapd := rfl
@[simp] theorem State.storeBytes_win (s : State) (a : Nat) (b : List Byte) : (s.storeBytes a b).win = s.win := rfl
@[simp] theorem State.storeBytes_winShadow (s : State) (a : Nat) (b : List Byte) : (s.storeBytes a b).winShadow = s.winShadow := rfl
@[simp] theorem State.storeBytes_winLatched (s : State) (a : Nat) (b : List Byte) : (s.storeBytes a b).winLatched = s.winLatched := rfl
@[simp] theorem State.storeBytes_winCommitted (s : State) (a : Nat) (b : List Byte) : (s.storeBytes a b).winCommitted = s.winCommitted := rfl
@[simp] theorem State.storeBytes_ue (s : State) (a : Nat) (b : List Byte) : (s.storeBytes a b).ue = s.ue := rfl
@[simp] theorem State.storeBytes_host (s : State) (a : Nat) (b : List Byte) : (s.storeBytes a b).host = s.host := rfl
@[simp] theorem State.storeBytes_ports (s : State) (a : Nat) (b : List Byte) : (s.storeBytes a b).ports = s.ports := rfl
@[simp] theorem State.storeBytes_pickFollowed (s : State) (a : Nat) (b : List Byte) : (s.storeBytes a b).pickFollowed = s.pickFollowed := rfl
@[simp] theorem State.storeBytes_pickSeq (s : State) (a : Nat) (b : List Byte) : (s.storeBytes a b).pickSeq = s.pickSeq := rfl
@[simp] theorem State.storeBytes_flipSeq (s : State) (a : Nat) (b : List Byte) : (s.storeBytes a b).flipSeq = s.flipSeq := rfl
@[simp] theorem State.storeBytes_refSeq (s : State) (a : Nat) (b : List Byte) : (s.storeBytes a b).refSeq = s.refSeq := rfl
@[simp] theorem State.storeBytes_comp (s : State) (a : Nat) (b : List Byte) : (s.storeBytes a b).comp = s.comp := rfl
@[simp] theorem State.storeBytes_imp (s : State) (a : Nat) (b : List Byte) : (s.storeBytes a b).imp = s.imp := rfl
@[simp] theorem State.storeBytes_sides (s : State) (a : Nat) (b : List Byte) : (s.storeBytes a b).sides = s.sides := rfl
@[simp] theorem State.storeBytes_link (s : State) (a : Nat) (b : List Byte) : (s.storeBytes a b).link = s.link := rfl
@[simp] theorem State.storeBytes_wtu (s : State) (a : Nat) (b : List Byte) : (s.storeBytes a b).wtu = s.wtu := rfl
@[simp] theorem State.storeBytes_tile (s : State) (a : Nat) (b : List Byte) : (s.storeBytes a b).tile = s.tile := rfl
@[simp] theorem State.storeBytes_scan (s : State) (a : Nat) (b : List Byte) : (s.storeBytes a b).scan = s.scan := rfl
@[simp] theorem State.storeBytes_health (s : State) (a : Nat) (b : List Byte) : (s.storeBytes a b).health = s.health := rfl
@[simp] theorem State.storeBytes_rail (s : State) (a : Nat) (b : List Byte) : (s.storeBytes a b).rail = s.rail := rfl
@[simp] theorem State.storeBytes_house (s : State) (a : Nat) (b : List Byte) : (s.storeBytes a b).house = s.house := rfl
@[simp] theorem State.storeBytes_ctl (s : State) (a : Nat) (b : List Byte) : (s.storeBytes a b).ctl = s.ctl := rfl
@[simp] theorem State.storeBytes_arb (s : State) (a : Nat) (b : List Byte) : (s.storeBytes a b).arb = s.arb := rfl
@[simp] theorem State.storeBytes_upd (s : State) (a : Nat) (b : List Byte) : (s.storeBytes a b).upd = s.upd := rfl
@[simp] theorem State.storeBytes_nvs (s : State) (a : Nat) (b : List Byte) : (s.storeBytes a b).nvs = s.nvs := rfl
@[simp] theorem State.storeBytes_commits (s : State) (a : Nat) (b : List Byte) : (s.storeBytes a b).commits = s.commits := rfl
@[simp] theorem State.storeBytes_xing (s : State) (a : Nat) (b : List Byte) : (s.storeBytes a b).xing = s.xing := rfl
@[simp] theorem State.storeBytes_latchDone (s : State) (a : Nat) (b : List Byte) : (s.storeBytes a b).latchDone = s.latchDone := rfl
@[simp] theorem State.storeBytes_evtSeq (s : State) (a : Nat) (b : List Byte) : (s.storeBytes a b).evtSeq = s.evtSeq := rfl
@[simp] theorem State.storeBytes_evtMask (s : State) (a : Nat) (b : List Byte) : (s.storeBytes a b).evtMask = s.evtMask := rfl
@[simp] theorem State.storeBytes_runCid (s : State) (a : Nat) (b : List Byte) : (s.storeBytes a b).runCid = s.runCid := rfl
@[simp] theorem State.storeBytes_recd (s : State) (a : Nat) (b : List Byte) : (s.storeBytes a b).recd = s.recd := rfl
@[simp] theorem State.storeBytes_pending (s : State) (a : Nat) (b : List Byte) : (s.storeBytes a b).pending = s.pending := rfl
@[simp] theorem State.storeBytes_out (s : State) (a : Nat) (b : List Byte) : (s.storeBytes a b).out = s.out := rfl
@[simp] theorem State.storeBytes_freeCtr (s : State) (a : Nat) (b : List Byte) : (s.storeBytes a b).freeCtr = s.freeCtr := rfl

/-! ### setSide -/

@[simp] theorem State.setSide_live (s : State) (d : Nat) (x : Side) : (s.setSide d x).live = s.live := rfl
@[simp] theorem State.setSide_shadow (s : State) (d : Nat) (x : Side) : (s.setSide d x).shadow = s.shadow := rfl
@[simp] theorem State.setSide_latched (s : State) (d : Nat) (x : Side) : (s.setSide d x).latched = s.latched := rfl
@[simp] theorem State.setSide_committed (s : State) (d : Nat) (x : Side) : (s.setSide d x).committed = s.committed := rfl
@[simp] theorem State.setSide_snapd (s : State) (d : Nat) (x : Side) : (s.setSide d x).snapd = s.snapd := rfl
@[simp] theorem State.setSide_win (s : State) (d : Nat) (x : Side) : (s.setSide d x).win = s.win := rfl
@[simp] theorem State.setSide_winShadow (s : State) (d : Nat) (x : Side) : (s.setSide d x).winShadow = s.winShadow := rfl
@[simp] theorem State.setSide_winLatched (s : State) (d : Nat) (x : Side) : (s.setSide d x).winLatched = s.winLatched := rfl
@[simp] theorem State.setSide_winCommitted (s : State) (d : Nat) (x : Side) : (s.setSide d x).winCommitted = s.winCommitted := rfl
@[simp] theorem State.setSide_ue (s : State) (d : Nat) (x : Side) : (s.setSide d x).ue = s.ue := rfl
@[simp] theorem State.setSide_mem (s : State) (d : Nat) (x : Side) : (s.setSide d x).mem = s.mem := rfl
@[simp] theorem State.setSide_host (s : State) (d : Nat) (x : Side) : (s.setSide d x).host = s.host := rfl
@[simp] theorem State.setSide_ports (s : State) (d : Nat) (x : Side) : (s.setSide d x).ports = s.ports := rfl
@[simp] theorem State.setSide_pickFollowed (s : State) (d : Nat) (x : Side) : (s.setSide d x).pickFollowed = s.pickFollowed := rfl
@[simp] theorem State.setSide_pickSeq (s : State) (d : Nat) (x : Side) : (s.setSide d x).pickSeq = s.pickSeq := rfl
@[simp] theorem State.setSide_flipSeq (s : State) (d : Nat) (x : Side) : (s.setSide d x).flipSeq = s.flipSeq := rfl
@[simp] theorem State.setSide_refSeq (s : State) (d : Nat) (x : Side) : (s.setSide d x).refSeq = s.refSeq := rfl
@[simp] theorem State.setSide_comp (s : State) (d : Nat) (x : Side) : (s.setSide d x).comp = s.comp := rfl
@[simp] theorem State.setSide_imp (s : State) (d : Nat) (x : Side) : (s.setSide d x).imp = s.imp := rfl
@[simp] theorem State.setSide_link (s : State) (d : Nat) (x : Side) : (s.setSide d x).link = s.link := rfl
@[simp] theorem State.setSide_wtu (s : State) (d : Nat) (x : Side) : (s.setSide d x).wtu = s.wtu := rfl
@[simp] theorem State.setSide_tile (s : State) (d : Nat) (x : Side) : (s.setSide d x).tile = s.tile := rfl
@[simp] theorem State.setSide_scan (s : State) (d : Nat) (x : Side) : (s.setSide d x).scan = s.scan := rfl
@[simp] theorem State.setSide_health (s : State) (d : Nat) (x : Side) : (s.setSide d x).health = s.health := rfl
@[simp] theorem State.setSide_rail (s : State) (d : Nat) (x : Side) : (s.setSide d x).rail = s.rail := rfl
@[simp] theorem State.setSide_house (s : State) (d : Nat) (x : Side) : (s.setSide d x).house = s.house := rfl
@[simp] theorem State.setSide_ctl (s : State) (d : Nat) (x : Side) : (s.setSide d x).ctl = s.ctl := rfl
@[simp] theorem State.setSide_arb (s : State) (d : Nat) (x : Side) : (s.setSide d x).arb = s.arb := rfl
@[simp] theorem State.setSide_upd (s : State) (d : Nat) (x : Side) : (s.setSide d x).upd = s.upd := rfl
@[simp] theorem State.setSide_nvs (s : State) (d : Nat) (x : Side) : (s.setSide d x).nvs = s.nvs := rfl
@[simp] theorem State.setSide_commits (s : State) (d : Nat) (x : Side) : (s.setSide d x).commits = s.commits := rfl
@[simp] theorem State.setSide_xing (s : State) (d : Nat) (x : Side) : (s.setSide d x).xing = s.xing := rfl
@[simp] theorem State.setSide_latchDone (s : State) (d : Nat) (x : Side) : (s.setSide d x).latchDone = s.latchDone := rfl
@[simp] theorem State.setSide_evtSeq (s : State) (d : Nat) (x : Side) : (s.setSide d x).evtSeq = s.evtSeq := rfl
@[simp] theorem State.setSide_evtMask (s : State) (d : Nat) (x : Side) : (s.setSide d x).evtMask = s.evtMask := rfl
@[simp] theorem State.setSide_runCid (s : State) (d : Nat) (x : Side) : (s.setSide d x).runCid = s.runCid := rfl
@[simp] theorem State.setSide_recd (s : State) (d : Nat) (x : Side) : (s.setSide d x).recd = s.recd := rfl
@[simp] theorem State.setSide_pending (s : State) (d : Nat) (x : Side) : (s.setSide d x).pending = s.pending := rfl
@[simp] theorem State.setSide_out (s : State) (d : Nat) (x : Side) : (s.setSide d x).out = s.out := rfl
@[simp] theorem State.setSide_freeCtr (s : State) (d : Nat) (x : Side) : (s.setSide d x).freeCtr = s.freeCtr := rfl

/-! ### setPort -/

@[simp] theorem State.setPort_live (s : State) (p : Nat) (x : Port) : (s.setPort p x).live = s.live := rfl
@[simp] theorem State.setPort_shadow (s : State) (p : Nat) (x : Port) : (s.setPort p x).shadow = s.shadow := rfl
@[simp] theorem State.setPort_latched (s : State) (p : Nat) (x : Port) : (s.setPort p x).latched = s.latched := rfl
@[simp] theorem State.setPort_committed (s : State) (p : Nat) (x : Port) : (s.setPort p x).committed = s.committed := rfl
@[simp] theorem State.setPort_snapd (s : State) (p : Nat) (x : Port) : (s.setPort p x).snapd = s.snapd := rfl
@[simp] theorem State.setPort_win (s : State) (p : Nat) (x : Port) : (s.setPort p x).win = s.win := rfl
@[simp] theorem State.setPort_winShadow (s : State) (p : Nat) (x : Port) : (s.setPort p x).winShadow = s.winShadow := rfl
@[simp] theorem State.setPort_winLatched (s : State) (p : Nat) (x : Port) : (s.setPort p x).winLatched = s.winLatched := rfl
@[simp] theorem State.setPort_winCommitted (s : State) (p : Nat) (x : Port) : (s.setPort p x).winCommitted = s.winCommitted := rfl
@[simp] theorem State.setPort_ue (s : State) (p : Nat) (x : Port) : (s.setPort p x).ue = s.ue := rfl
@[simp] theorem State.setPort_mem (s : State) (p : Nat) (x : Port) : (s.setPort p x).mem = s.mem := rfl
@[simp] theorem State.setPort_host (s : State) (p : Nat) (x : Port) : (s.setPort p x).host = s.host := rfl
@[simp] theorem State.setPort_pickFollowed (s : State) (p : Nat) (x : Port) : (s.setPort p x).pickFollowed = s.pickFollowed := rfl
@[simp] theorem State.setPort_pickSeq (s : State) (p : Nat) (x : Port) : (s.setPort p x).pickSeq = s.pickSeq := rfl
@[simp] theorem State.setPort_flipSeq (s : State) (p : Nat) (x : Port) : (s.setPort p x).flipSeq = s.flipSeq := rfl
@[simp] theorem State.setPort_refSeq (s : State) (p : Nat) (x : Port) : (s.setPort p x).refSeq = s.refSeq := rfl
@[simp] theorem State.setPort_comp (s : State) (p : Nat) (x : Port) : (s.setPort p x).comp = s.comp := rfl
@[simp] theorem State.setPort_imp (s : State) (p : Nat) (x : Port) : (s.setPort p x).imp = s.imp := rfl
@[simp] theorem State.setPort_sides (s : State) (p : Nat) (x : Port) : (s.setPort p x).sides = s.sides := rfl
@[simp] theorem State.setPort_link (s : State) (p : Nat) (x : Port) : (s.setPort p x).link = s.link := rfl
@[simp] theorem State.setPort_wtu (s : State) (p : Nat) (x : Port) : (s.setPort p x).wtu = s.wtu := rfl
@[simp] theorem State.setPort_tile (s : State) (p : Nat) (x : Port) : (s.setPort p x).tile = s.tile := rfl
@[simp] theorem State.setPort_scan (s : State) (p : Nat) (x : Port) : (s.setPort p x).scan = s.scan := rfl
@[simp] theorem State.setPort_health (s : State) (p : Nat) (x : Port) : (s.setPort p x).health = s.health := rfl
@[simp] theorem State.setPort_rail (s : State) (p : Nat) (x : Port) : (s.setPort p x).rail = s.rail := rfl
@[simp] theorem State.setPort_house (s : State) (p : Nat) (x : Port) : (s.setPort p x).house = s.house := rfl
@[simp] theorem State.setPort_ctl (s : State) (p : Nat) (x : Port) : (s.setPort p x).ctl = s.ctl := rfl
@[simp] theorem State.setPort_arb (s : State) (p : Nat) (x : Port) : (s.setPort p x).arb = s.arb := rfl
@[simp] theorem State.setPort_upd (s : State) (p : Nat) (x : Port) : (s.setPort p x).upd = s.upd := rfl
@[simp] theorem State.setPort_nvs (s : State) (p : Nat) (x : Port) : (s.setPort p x).nvs = s.nvs := rfl
@[simp] theorem State.setPort_commits (s : State) (p : Nat) (x : Port) : (s.setPort p x).commits = s.commits := rfl
@[simp] theorem State.setPort_xing (s : State) (p : Nat) (x : Port) : (s.setPort p x).xing = s.xing := rfl
@[simp] theorem State.setPort_latchDone (s : State) (p : Nat) (x : Port) : (s.setPort p x).latchDone = s.latchDone := rfl
@[simp] theorem State.setPort_evtSeq (s : State) (p : Nat) (x : Port) : (s.setPort p x).evtSeq = s.evtSeq := rfl
@[simp] theorem State.setPort_evtMask (s : State) (p : Nat) (x : Port) : (s.setPort p x).evtMask = s.evtMask := rfl
@[simp] theorem State.setPort_runCid (s : State) (p : Nat) (x : Port) : (s.setPort p x).runCid = s.runCid := rfl
@[simp] theorem State.setPort_recd (s : State) (p : Nat) (x : Port) : (s.setPort p x).recd = s.recd := rfl
@[simp] theorem State.setPort_pending (s : State) (p : Nat) (x : Port) : (s.setPort p x).pending = s.pending := rfl
@[simp] theorem State.setPort_out (s : State) (p : Nat) (x : Port) : (s.setPort p x).out = s.out := rfl
@[simp] theorem State.setPort_freeCtr (s : State) (p : Nat) (x : Port) : (s.setPort p x).freeCtr = s.freeCtr := rfl

/-! ### bumpBy -/

@[simp] theorem State.bumpBy_shadow (s : State) (f : Fld) (n : Nat) : (s.bumpBy f n).shadow = s.shadow := rfl
@[simp] theorem State.bumpBy_latched (s : State) (f : Fld) (n : Nat) : (s.bumpBy f n).latched = s.latched := rfl
@[simp] theorem State.bumpBy_committed (s : State) (f : Fld) (n : Nat) : (s.bumpBy f n).committed = s.committed := rfl
@[simp] theorem State.bumpBy_snapd (s : State) (f : Fld) (n : Nat) : (s.bumpBy f n).snapd = s.snapd := rfl
@[simp] theorem State.bumpBy_win (s : State) (f : Fld) (n : Nat) : (s.bumpBy f n).win = s.win := rfl
@[simp] theorem State.bumpBy_winShadow (s : State) (f : Fld) (n : Nat) : (s.bumpBy f n).winShadow = s.winShadow := rfl
@[simp] theorem State.bumpBy_winLatched (s : State) (f : Fld) (n : Nat) : (s.bumpBy f n).winLatched = s.winLatched := rfl
@[simp] theorem State.bumpBy_winCommitted (s : State) (f : Fld) (n : Nat) : (s.bumpBy f n).winCommitted = s.winCommitted := rfl
@[simp] theorem State.bumpBy_ue (s : State) (f : Fld) (n : Nat) : (s.bumpBy f n).ue = s.ue := rfl
@[simp] theorem State.bumpBy_mem (s : State) (f : Fld) (n : Nat) : (s.bumpBy f n).mem = s.mem := rfl
@[simp] theorem State.bumpBy_host (s : State) (f : Fld) (n : Nat) : (s.bumpBy f n).host = s.host := rfl
@[simp] theorem State.bumpBy_ports (s : State) (f : Fld) (n : Nat) : (s.bumpBy f n).ports = s.ports := rfl
@[simp] theorem State.bumpBy_pickFollowed (s : State) (f : Fld) (n : Nat) : (s.bumpBy f n).pickFollowed = s.pickFollowed := rfl
@[simp] theorem State.bumpBy_pickSeq (s : State) (f : Fld) (n : Nat) : (s.bumpBy f n).pickSeq = s.pickSeq := rfl
@[simp] theorem State.bumpBy_flipSeq (s : State) (f : Fld) (n : Nat) : (s.bumpBy f n).flipSeq = s.flipSeq := rfl
@[simp] theorem State.bumpBy_refSeq (s : State) (f : Fld) (n : Nat) : (s.bumpBy f n).refSeq = s.refSeq := rfl
@[simp] theorem State.bumpBy_comp (s : State) (f : Fld) (n : Nat) : (s.bumpBy f n).comp = s.comp := rfl
@[simp] theorem State.bumpBy_imp (s : State) (f : Fld) (n : Nat) : (s.bumpBy f n).imp = s.imp := rfl
@[simp] theorem State.bumpBy_sides (s : State) (f : Fld) (n : Nat) : (s.bumpBy f n).sides = s.sides := rfl
@[simp] theorem State.bumpBy_link (s : State) (f : Fld) (n : Nat) : (s.bumpBy f n).link = s.link := rfl
@[simp] theorem State.bumpBy_wtu (s : State) (f : Fld) (n : Nat) : (s.bumpBy f n).wtu = s.wtu := rfl
@[simp] theorem State.bumpBy_tile (s : State) (f : Fld) (n : Nat) : (s.bumpBy f n).tile = s.tile := rfl
@[simp] theorem State.bumpBy_scan (s : State) (f : Fld) (n : Nat) : (s.bumpBy f n).scan = s.scan := rfl
@[simp] theorem State.bumpBy_health (s : State) (f : Fld) (n : Nat) : (s.bumpBy f n).health = s.health := rfl
@[simp] theorem State.bumpBy_rail (s : State) (f : Fld) (n : Nat) : (s.bumpBy f n).rail = s.rail := rfl
@[simp] theorem State.bumpBy_house (s : State) (f : Fld) (n : Nat) : (s.bumpBy f n).house = s.house := rfl
@[simp] theorem State.bumpBy_ctl (s : State) (f : Fld) (n : Nat) : (s.bumpBy f n).ctl = s.ctl := rfl
@[simp] theorem State.bumpBy_arb (s : State) (f : Fld) (n : Nat) : (s.bumpBy f n).arb = s.arb := rfl
@[simp] theorem State.bumpBy_upd (s : State) (f : Fld) (n : Nat) : (s.bumpBy f n).upd = s.upd := rfl
@[simp] theorem State.bumpBy_nvs (s : State) (f : Fld) (n : Nat) : (s.bumpBy f n).nvs = s.nvs := rfl
@[simp] theorem State.bumpBy_commits (s : State) (f : Fld) (n : Nat) : (s.bumpBy f n).commits = s.commits := rfl
@[simp] theorem State.bumpBy_xing (s : State) (f : Fld) (n : Nat) : (s.bumpBy f n).xing = s.xing := rfl
@[simp] theorem State.bumpBy_latchDone (s : State) (f : Fld) (n : Nat) : (s.bumpBy f n).latchDone = s.latchDone := rfl
@[simp] theorem State.bumpBy_evtSeq (s : State) (f : Fld) (n : Nat) : (s.bumpBy f n).evtSeq = s.evtSeq := rfl
@[simp] theorem State.bumpBy_evtMask (s : State) (f : Fld) (n : Nat) : (s.bumpBy f n).evtMask = s.evtMask := rfl
@[simp] theorem State.bumpBy_runCid (s : State) (f : Fld) (n : Nat) : (s.bumpBy f n).runCid = s.runCid := rfl
@[simp] theorem State.bumpBy_recd (s : State) (f : Fld) (n : Nat) : (s.bumpBy f n).recd = s.recd := rfl
@[simp] theorem State.bumpBy_pending (s : State) (f : Fld) (n : Nat) : (s.bumpBy f n).pending = s.pending := rfl
@[simp] theorem State.bumpBy_out (s : State) (f : Fld) (n : Nat) : (s.bumpBy f n).out = s.out := rfl
@[simp] theorem State.bumpBy_freeCtr (s : State) (f : Fld) (n : Nat) : (s.bumpBy f n).freeCtr = s.freeCtr := rfl

/-! ### bump -/

@[simp] theorem State.bump_shadow (s : State) (f : Fld) : (s.bump f).shadow = s.shadow := rfl
@[simp] theorem State.bump_latched (s : State) (f : Fld) : (s.bump f).latched = s.latched := rfl
@[simp] theorem State.bump_committed (s : State) (f : Fld) : (s.bump f).committed = s.committed := rfl
@[simp] theorem State.bump_snapd (s : State) (f : Fld) : (s.bump f).snapd = s.snapd := rfl
@[simp] theorem State.bump_win (s : State) (f : Fld) : (s.bump f).win = s.win := rfl
@[simp] theorem State.bump_winShadow (s : State) (f : Fld) : (s.bump f).winShadow = s.winShadow := rfl
@[simp] theorem State.bump_winLatched (s : State) (f : Fld) : (s.bump f).winLatched = s.winLatched := rfl
@[simp] theorem State.bump_winCommitted (s : State) (f : Fld) : (s.bump f).winCommitted = s.winCommitted := rfl
@[simp] theorem State.bump_ue (s : State) (f : Fld) : (s.bump f).ue = s.ue := rfl
@[simp] theorem State.bump_mem (s : State) (f : Fld) : (s.bump f).mem = s.mem := rfl
@[simp] theorem State.bump_host (s : State) (f : Fld) : (s.bump f).host = s.host := rfl
@[simp] theorem State.bump_ports (s : State) (f : Fld) : (s.bump f).ports = s.ports := rfl
@[simp] theorem State.bump_pickFollowed (s : State) (f : Fld) : (s.bump f).pickFollowed = s.pickFollowed := rfl
@[simp] theorem State.bump_pickSeq (s : State) (f : Fld) : (s.bump f).pickSeq = s.pickSeq := rfl
@[simp] theorem State.bump_flipSeq (s : State) (f : Fld) : (s.bump f).flipSeq = s.flipSeq := rfl
@[simp] theorem State.bump_refSeq (s : State) (f : Fld) : (s.bump f).refSeq = s.refSeq := rfl
@[simp] theorem State.bump_comp (s : State) (f : Fld) : (s.bump f).comp = s.comp := rfl
@[simp] theorem State.bump_imp (s : State) (f : Fld) : (s.bump f).imp = s.imp := rfl
@[simp] theorem State.bump_sides (s : State) (f : Fld) : (s.bump f).sides = s.sides := rfl
@[simp] theorem State.bump_link (s : State) (f : Fld) : (s.bump f).link = s.link := rfl
@[simp] theorem State.bump_wtu (s : State) (f : Fld) : (s.bump f).wtu = s.wtu := rfl
@[simp] theorem State.bump_tile (s : State) (f : Fld) : (s.bump f).tile = s.tile := rfl
@[simp] theorem State.bump_scan (s : State) (f : Fld) : (s.bump f).scan = s.scan := rfl
@[simp] theorem State.bump_health (s : State) (f : Fld) : (s.bump f).health = s.health := rfl
@[simp] theorem State.bump_rail (s : State) (f : Fld) : (s.bump f).rail = s.rail := rfl
@[simp] theorem State.bump_house (s : State) (f : Fld) : (s.bump f).house = s.house := rfl
@[simp] theorem State.bump_ctl (s : State) (f : Fld) : (s.bump f).ctl = s.ctl := rfl
@[simp] theorem State.bump_arb (s : State) (f : Fld) : (s.bump f).arb = s.arb := rfl
@[simp] theorem State.bump_upd (s : State) (f : Fld) : (s.bump f).upd = s.upd := rfl
@[simp] theorem State.bump_nvs (s : State) (f : Fld) : (s.bump f).nvs = s.nvs := rfl
@[simp] theorem State.bump_commits (s : State) (f : Fld) : (s.bump f).commits = s.commits := rfl
@[simp] theorem State.bump_xing (s : State) (f : Fld) : (s.bump f).xing = s.xing := rfl
@[simp] theorem State.bump_latchDone (s : State) (f : Fld) : (s.bump f).latchDone = s.latchDone := rfl
@[simp] theorem State.bump_evtSeq (s : State) (f : Fld) : (s.bump f).evtSeq = s.evtSeq := rfl
@[simp] theorem State.bump_evtMask (s : State) (f : Fld) : (s.bump f).evtMask = s.evtMask := rfl
@[simp] theorem State.bump_runCid (s : State) (f : Fld) : (s.bump f).runCid = s.runCid := rfl
@[simp] theorem State.bump_recd (s : State) (f : Fld) : (s.bump f).recd = s.recd := rfl
@[simp] theorem State.bump_pending (s : State) (f : Fld) : (s.bump f).pending = s.pending := rfl
@[simp] theorem State.bump_out (s : State) (f : Fld) : (s.bump f).out = s.out := rfl
@[simp] theorem State.bump_freeCtr (s : State) (f : Fld) : (s.bump f).freeCtr = s.freeCtr := rfl

/-! ### markDirty -/

@[simp] theorem State.markDirty_shadow (s : State) (a : Nat) : (s.markDirty a).shadow = s.shadow := rfl
@[simp] theorem State.markDirty_latched (s : State) (a : Nat) : (s.markDirty a).latched = s.latched := rfl
@[simp] theorem State.markDirty_committed (s : State) (a : Nat) : (s.markDirty a).committed = s.committed := rfl
@[simp] theorem State.markDirty_snapd (s : State) (a : Nat) : (s.markDirty a).snapd = s.snapd := rfl
@[simp] theorem State.markDirty_win (s : State) (a : Nat) : (s.markDirty a).win = s.win := rfl
@[simp] theorem State.markDirty_winShadow (s : State) (a : Nat) : (s.markDirty a).winShadow = s.winShadow := rfl
@[simp] theorem State.markDirty_winLatched (s : State) (a : Nat) : (s.markDirty a).winLatched = s.winLatched := rfl
@[simp] theorem State.markDirty_winCommitted (s : State) (a : Nat) : (s.markDirty a).winCommitted = s.winCommitted := rfl
@[simp] theorem State.markDirty_ue (s : State) (a : Nat) : (s.markDirty a).ue = s.ue := rfl
@[simp] theorem State.markDirty_mem (s : State) (a : Nat) : (s.markDirty a).mem = s.mem := rfl
@[simp] theorem State.markDirty_host (s : State) (a : Nat) : (s.markDirty a).host = s.host := rfl
@[simp] theorem State.markDirty_ports (s : State) (a : Nat) : (s.markDirty a).ports = s.ports := rfl
@[simp] theorem State.markDirty_pickFollowed (s : State) (a : Nat) : (s.markDirty a).pickFollowed = s.pickFollowed := rfl
@[simp] theorem State.markDirty_pickSeq (s : State) (a : Nat) : (s.markDirty a).pickSeq = s.pickSeq := rfl
@[simp] theorem State.markDirty_flipSeq (s : State) (a : Nat) : (s.markDirty a).flipSeq = s.flipSeq := rfl
@[simp] theorem State.markDirty_refSeq (s : State) (a : Nat) : (s.markDirty a).refSeq = s.refSeq := rfl
@[simp] theorem State.markDirty_comp (s : State) (a : Nat) : (s.markDirty a).comp = s.comp := rfl
@[simp] theorem State.markDirty_imp (s : State) (a : Nat) : (s.markDirty a).imp = s.imp := rfl
@[simp] theorem State.markDirty_sides (s : State) (a : Nat) : (s.markDirty a).sides = s.sides := rfl
@[simp] theorem State.markDirty_link (s : State) (a : Nat) : (s.markDirty a).link = s.link := rfl
@[simp] theorem State.markDirty_wtu (s : State) (a : Nat) : (s.markDirty a).wtu = s.wtu := rfl
@[simp] theorem State.markDirty_tile (s : State) (a : Nat) : (s.markDirty a).tile = s.tile := rfl
@[simp] theorem State.markDirty_scan (s : State) (a : Nat) : (s.markDirty a).scan = s.scan := rfl
@[simp] theorem State.markDirty_health (s : State) (a : Nat) : (s.markDirty a).health = s.health := rfl
@[simp] theorem State.markDirty_rail (s : State) (a : Nat) : (s.markDirty a).rail = s.rail := rfl
@[simp] theorem State.markDirty_house (s : State) (a : Nat) : (s.markDirty a).house = s.house := rfl
@[simp] theorem State.markDirty_ctl (s : State) (a : Nat) : (s.markDirty a).ctl = s.ctl := rfl
@[simp] theorem State.markDirty_arb (s : State) (a : Nat) : (s.markDirty a).arb = s.arb := rfl
@[simp] theorem State.markDirty_upd (s : State) (a : Nat) : (s.markDirty a).upd = s.upd := rfl
@[simp] theorem State.markDirty_nvs (s : State) (a : Nat) : (s.markDirty a).nvs = s.nvs := rfl
@[simp] theorem State.markDirty_commits (s : State) (a : Nat) : (s.markDirty a).commits = s.commits := rfl
@[simp] theorem State.markDirty_xing (s : State) (a : Nat) : (s.markDirty a).xing = s.xing := rfl
@[simp] theorem State.markDirty_latchDone (s : State) (a : Nat) : (s.markDirty a).latchDone = s.latchDone := rfl
@[simp] theorem State.markDirty_evtSeq (s : State) (a : Nat) : (s.markDirty a).evtSeq = s.evtSeq := rfl
@[simp] theorem State.markDirty_evtMask (s : State) (a : Nat) : (s.markDirty a).evtMask = s.evtMask := rfl
@[simp] theorem State.markDirty_runCid (s : State) (a : Nat) : (s.markDirty a).runCid = s.runCid := rfl
@[simp] theorem State.markDirty_recd (s : State) (a : Nat) : (s.markDirty a).recd = s.recd := rfl
@[simp] theorem State.markDirty_pending (s : State) (a : Nat) : (s.markDirty a).pending = s.pending := rfl
@[simp] theorem State.markDirty_out (s : State) (a : Nat) : (s.markDirty a).out = s.out := rfl
@[simp] theorem State.markDirty_freeCtr (s : State) (a : Nat) : (s.markDirty a).freeCtr = s.freeCtr := rfl

/-! ### wrShadow -/

@[simp] theorem State.wrShadow_latched (s : State) (f : Fld) (v : Nat) : (s.wrShadow f v).latched = s.latched := rfl
@[simp] theorem State.wrShadow_committed (s : State) (f : Fld) (v : Nat) : (s.wrShadow f v).committed = s.committed := rfl
@[simp] theorem State.wrShadow_snapd (s : State) (f : Fld) (v : Nat) : (s.wrShadow f v).snapd = s.snapd := rfl
@[simp] theorem State.wrShadow_win (s : State) (f : Fld) (v : Nat) : (s.wrShadow f v).win = s.win := rfl
@[simp] theorem State.wrShadow_winShadow (s : State) (f : Fld) (v : Nat) : (s.wrShadow f v).winShadow = s.winShadow := rfl
@[simp] theorem State.wrShadow_winLatched (s : State) (f : Fld) (v : Nat) : (s.wrShadow f v).winLatched = s.winLatched := rfl
@[simp] theorem State.wrShadow_winCommitted (s : State) (f : Fld) (v : Nat) : (s.wrShadow f v).winCommitted = s.winCommitted := rfl
@[simp] theorem State.wrShadow_ue (s : State) (f : Fld) (v : Nat) : (s.wrShadow f v).ue = s.ue := rfl
@[simp] theorem State.wrShadow_mem (s : State) (f : Fld) (v : Nat) : (s.wrShadow f v).mem = s.mem := rfl
@[simp] theorem State.wrShadow_host (s : State) (f : Fld) (v : Nat) : (s.wrShadow f v).host = s.host := rfl
@[simp] theorem State.wrShadow_ports (s : State) (f : Fld) (v : Nat) : (s.wrShadow f v).ports = s.ports := rfl
@[simp] theorem State.wrShadow_pickFollowed (s : State) (f : Fld) (v : Nat) : (s.wrShadow f v).pickFollowed = s.pickFollowed := rfl
@[simp] theorem State.wrShadow_pickSeq (s : State) (f : Fld) (v : Nat) : (s.wrShadow f v).pickSeq = s.pickSeq := rfl
@[simp] theorem State.wrShadow_flipSeq (s : State) (f : Fld) (v : Nat) : (s.wrShadow f v).flipSeq = s.flipSeq := rfl
@[simp] theorem State.wrShadow_refSeq (s : State) (f : Fld) (v : Nat) : (s.wrShadow f v).refSeq = s.refSeq := rfl
@[simp] theorem State.wrShadow_comp (s : State) (f : Fld) (v : Nat) : (s.wrShadow f v).comp = s.comp := rfl
@[simp] theorem State.wrShadow_imp (s : State) (f : Fld) (v : Nat) : (s.wrShadow f v).imp = s.imp := rfl
@[simp] theorem State.wrShadow_sides (s : State) (f : Fld) (v : Nat) : (s.wrShadow f v).sides = s.sides := rfl
@[simp] theorem State.wrShadow_link (s : State) (f : Fld) (v : Nat) : (s.wrShadow f v).link = s.link := rfl
@[simp] theorem State.wrShadow_wtu (s : State) (f : Fld) (v : Nat) : (s.wrShadow f v).wtu = s.wtu := rfl
@[simp] theorem State.wrShadow_tile (s : State) (f : Fld) (v : Nat) : (s.wrShadow f v).tile = s.tile := rfl
@[simp] theorem State.wrShadow_scan (s : State) (f : Fld) (v : Nat) : (s.wrShadow f v).scan = s.scan := rfl
@[simp] theorem State.wrShadow_health (s : State) (f : Fld) (v : Nat) : (s.wrShadow f v).health = s.health := rfl
@[simp] theorem State.wrShadow_rail (s : State) (f : Fld) (v : Nat) : (s.wrShadow f v).rail = s.rail := rfl
@[simp] theorem State.wrShadow_house (s : State) (f : Fld) (v : Nat) : (s.wrShadow f v).house = s.house := rfl
@[simp] theorem State.wrShadow_ctl (s : State) (f : Fld) (v : Nat) : (s.wrShadow f v).ctl = s.ctl := rfl
@[simp] theorem State.wrShadow_arb (s : State) (f : Fld) (v : Nat) : (s.wrShadow f v).arb = s.arb := rfl
@[simp] theorem State.wrShadow_upd (s : State) (f : Fld) (v : Nat) : (s.wrShadow f v).upd = s.upd := rfl
@[simp] theorem State.wrShadow_nvs (s : State) (f : Fld) (v : Nat) : (s.wrShadow f v).nvs = s.nvs := rfl
@[simp] theorem State.wrShadow_commits (s : State) (f : Fld) (v : Nat) : (s.wrShadow f v).commits = s.commits := rfl
@[simp] theorem State.wrShadow_xing (s : State) (f : Fld) (v : Nat) : (s.wrShadow f v).xing = s.xing := rfl
@[simp] theorem State.wrShadow_latchDone (s : State) (f : Fld) (v : Nat) : (s.wrShadow f v).latchDone = s.latchDone := rfl
@[simp] theorem State.wrShadow_evtSeq (s : State) (f : Fld) (v : Nat) : (s.wrShadow f v).evtSeq = s.evtSeq := rfl
@[simp] theorem State.wrShadow_evtMask (s : State) (f : Fld) (v : Nat) : (s.wrShadow f v).evtMask = s.evtMask := rfl
@[simp] theorem State.wrShadow_runCid (s : State) (f : Fld) (v : Nat) : (s.wrShadow f v).runCid = s.runCid := rfl
@[simp] theorem State.wrShadow_recd (s : State) (f : Fld) (v : Nat) : (s.wrShadow f v).recd = s.recd := rfl
@[simp] theorem State.wrShadow_pending (s : State) (f : Fld) (v : Nat) : (s.wrShadow f v).pending = s.pending := rfl
@[simp] theorem State.wrShadow_out (s : State) (f : Fld) (v : Nat) : (s.wrShadow f v).out = s.out := rfl
@[simp] theorem State.wrShadow_freeCtr (s : State) (f : Fld) (v : Nat) : (s.wrShadow f v).freeCtr = s.freeCtr := rfl

/-! ### sendFolio -/

@[simp] theorem State.sendFolio_live (s : State) (d : Nat) (f : Folio) : (s.sendFolio d f).live = s.live := rfl
@[simp] theorem State.sendFolio_shadow (s : State) (d : Nat) (f : Folio) : (s.sendFolio d f).shadow = s.shadow := rfl
@[simp] theorem State.sendFolio_latched (s : State) (d : Nat) (f : Folio) : (s.sendFolio d f).latched = s.latched := rfl
@[simp] theorem State.sendFolio_committed (s : State) (d : Nat) (f : Folio) : (s.sendFolio d f).committed = s.committed := rfl
@[simp] theorem State.sendFolio_snapd (s : State) (d : Nat) (f : Folio) : (s.sendFolio d f).snapd = s.snapd := rfl
@[simp] theorem State.sendFolio_win (s : State) (d : Nat) (f : Folio) : (s.sendFolio d f).win = s.win := rfl
@[simp] theorem State.sendFolio_winShadow (s : State) (d : Nat) (f : Folio) : (s.sendFolio d f).winShadow = s.winShadow := rfl
@[simp] theorem State.sendFolio_winLatched (s : State) (d : Nat) (f : Folio) : (s.sendFolio d f).winLatched = s.winLatched := rfl
@[simp] theorem State.sendFolio_winCommitted (s : State) (d : Nat) (f : Folio) : (s.sendFolio d f).winCommitted = s.winCommitted := rfl
@[simp] theorem State.sendFolio_ue (s : State) (d : Nat) (f : Folio) : (s.sendFolio d f).ue = s.ue := rfl
@[simp] theorem State.sendFolio_mem (s : State) (d : Nat) (f : Folio) : (s.sendFolio d f).mem = s.mem := rfl
@[simp] theorem State.sendFolio_host (s : State) (d : Nat) (f : Folio) : (s.sendFolio d f).host = s.host := rfl
@[simp] theorem State.sendFolio_ports (s : State) (d : Nat) (f : Folio) : (s.sendFolio d f).ports = s.ports := rfl
@[simp] theorem State.sendFolio_pickFollowed (s : State) (d : Nat) (f : Folio) : (s.sendFolio d f).pickFollowed = s.pickFollowed := rfl
@[simp] theorem State.sendFolio_pickSeq (s : State) (d : Nat) (f : Folio) : (s.sendFolio d f).pickSeq = s.pickSeq := rfl
@[simp] theorem State.sendFolio_flipSeq (s : State) (d : Nat) (f : Folio) : (s.sendFolio d f).flipSeq = s.flipSeq := rfl
@[simp] theorem State.sendFolio_refSeq (s : State) (d : Nat) (f : Folio) : (s.sendFolio d f).refSeq = s.refSeq := rfl
@[simp] theorem State.sendFolio_comp (s : State) (d : Nat) (f : Folio) : (s.sendFolio d f).comp = s.comp := rfl
@[simp] theorem State.sendFolio_imp (s : State) (d : Nat) (f : Folio) : (s.sendFolio d f).imp = s.imp := rfl
@[simp] theorem State.sendFolio_link (s : State) (d : Nat) (f : Folio) : (s.sendFolio d f).link = s.link := rfl
@[simp] theorem State.sendFolio_wtu (s : State) (d : Nat) (f : Folio) : (s.sendFolio d f).wtu = s.wtu := rfl
@[simp] theorem State.sendFolio_tile (s : State) (d : Nat) (f : Folio) : (s.sendFolio d f).tile = s.tile := rfl
@[simp] theorem State.sendFolio_scan (s : State) (d : Nat) (f : Folio) : (s.sendFolio d f).scan = s.scan := rfl
@[simp] theorem State.sendFolio_health (s : State) (d : Nat) (f : Folio) : (s.sendFolio d f).health = s.health := rfl
@[simp] theorem State.sendFolio_rail (s : State) (d : Nat) (f : Folio) : (s.sendFolio d f).rail = s.rail := rfl
@[simp] theorem State.sendFolio_house (s : State) (d : Nat) (f : Folio) : (s.sendFolio d f).house = s.house := rfl
@[simp] theorem State.sendFolio_ctl (s : State) (d : Nat) (f : Folio) : (s.sendFolio d f).ctl = s.ctl := rfl
@[simp] theorem State.sendFolio_arb (s : State) (d : Nat) (f : Folio) : (s.sendFolio d f).arb = s.arb := rfl
@[simp] theorem State.sendFolio_upd (s : State) (d : Nat) (f : Folio) : (s.sendFolio d f).upd = s.upd := rfl
@[simp] theorem State.sendFolio_nvs (s : State) (d : Nat) (f : Folio) : (s.sendFolio d f).nvs = s.nvs := rfl
@[simp] theorem State.sendFolio_commits (s : State) (d : Nat) (f : Folio) : (s.sendFolio d f).commits = s.commits := rfl
@[simp] theorem State.sendFolio_xing (s : State) (d : Nat) (f : Folio) : (s.sendFolio d f).xing = s.xing := rfl
@[simp] theorem State.sendFolio_latchDone (s : State) (d : Nat) (f : Folio) : (s.sendFolio d f).latchDone = s.latchDone := rfl
@[simp] theorem State.sendFolio_evtSeq (s : State) (d : Nat) (f : Folio) : (s.sendFolio d f).evtSeq = s.evtSeq := rfl
@[simp] theorem State.sendFolio_evtMask (s : State) (d : Nat) (f : Folio) : (s.sendFolio d f).evtMask = s.evtMask := rfl
@[simp] theorem State.sendFolio_runCid (s : State) (d : Nat) (f : Folio) : (s.sendFolio d f).runCid = s.runCid := rfl
@[simp] theorem State.sendFolio_recd (s : State) (d : Nat) (f : Folio) : (s.sendFolio d f).recd = s.recd := rfl
@[simp] theorem State.sendFolio_pending (s : State) (d : Nat) (f : Folio) : (s.sendFolio d f).pending = s.pending := rfl
@[simp] theorem State.sendFolio_freeCtr (s : State) (d : Nat) (f : Folio) : (s.sendFolio d f).freeCtr = s.freeCtr := rfl

/-! ### sendFolios -/

@[simp] theorem State.sendFolios_live (s : State) (d : Nat) (fs : List Folio) : (s.sendFolios d fs).live = s.live := rfl
@[simp] theorem State.sendFolios_shadow (s : State) (d : Nat) (fs : List Folio) : (s.sendFolios d fs).shadow = s.shadow := rfl
@[simp] theorem State.sendFolios_latched (s : State) (d : Nat) (fs : List Folio) : (s.sendFolios d fs).latched = s.latched := rfl
@[simp] theorem State.sendFolios_committed (s : State) (d : Nat) (fs : List Folio) : (s.sendFolios d fs).committed = s.committed := rfl
@[simp] theorem State.sendFolios_snapd (s : State) (d : Nat) (fs : List Folio) : (s.sendFolios d fs).snapd = s.snapd := rfl
@[simp] theorem State.sendFolios_win (s : State) (d : Nat) (fs : List Folio) : (s.sendFolios d fs).win = s.win := rfl
@[simp] theorem State.sendFolios_winShadow (s : State) (d : Nat) (fs : List Folio) : (s.sendFolios d fs).winShadow = s.winShadow := rfl
@[simp] theorem State.sendFolios_winLatched (s : State) (d : Nat) (fs : List Folio) : (s.sendFolios d fs).winLatched = s.winLatched := rfl
@[simp] theorem State.sendFolios_winCommitted (s : State) (d : Nat) (fs : List Folio) : (s.sendFolios d fs).winCommitted = s.winCommitted := rfl
@[simp] theorem State.sendFolios_ue (s : State) (d : Nat) (fs : List Folio) : (s.sendFolios d fs).ue = s.ue := rfl
@[simp] theorem State.sendFolios_mem (s : State) (d : Nat) (fs : List Folio) : (s.sendFolios d fs).mem = s.mem := rfl
@[simp] theorem State.sendFolios_host (s : State) (d : Nat) (fs : List Folio) : (s.sendFolios d fs).host = s.host := rfl
@[simp] theorem State.sendFolios_ports (s : State) (d : Nat) (fs : List Folio) : (s.sendFolios d fs).ports = s.ports := rfl
@[simp] theorem State.sendFolios_pickFollowed (s : State) (d : Nat) (fs : List Folio) : (s.sendFolios d fs).pickFollowed = s.pickFollowed := rfl
@[simp] theorem State.sendFolios_pickSeq (s : State) (d : Nat) (fs : List Folio) : (s.sendFolios d fs).pickSeq = s.pickSeq := rfl
@[simp] theorem State.sendFolios_flipSeq (s : State) (d : Nat) (fs : List Folio) : (s.sendFolios d fs).flipSeq = s.flipSeq := rfl
@[simp] theorem State.sendFolios_refSeq (s : State) (d : Nat) (fs : List Folio) : (s.sendFolios d fs).refSeq = s.refSeq := rfl
@[simp] theorem State.sendFolios_comp (s : State) (d : Nat) (fs : List Folio) : (s.sendFolios d fs).comp = s.comp := rfl
@[simp] theorem State.sendFolios_imp (s : State) (d : Nat) (fs : List Folio) : (s.sendFolios d fs).imp = s.imp := rfl
@[simp] theorem State.sendFolios_link (s : State) (d : Nat) (fs : List Folio) : (s.sendFolios d fs).link = s.link := rfl
@[simp] theorem State.sendFolios_wtu (s : State) (d : Nat) (fs : List Folio) : (s.sendFolios d fs).wtu = s.wtu := rfl
@[simp] theorem State.sendFolios_tile (s : State) (d : Nat) (fs : List Folio) : (s.sendFolios d fs).tile = s.tile := rfl
@[simp] theorem State.sendFolios_scan (s : State) (d : Nat) (fs : List Folio) : (s.sendFolios d fs).scan = s.scan := rfl
@[simp] theorem State.sendFolios_health (s : State) (d : Nat) (fs : List Folio) : (s.sendFolios d fs).health = s.health := rfl
@[simp] theorem State.sendFolios_rail (s : State) (d : Nat) (fs : List Folio) : (s.sendFolios d fs).rail = s.rail := rfl
@[simp] theorem State.sendFolios_house (s : State) (d : Nat) (fs : List Folio) : (s.sendFolios d fs).house = s.house := rfl
@[simp] theorem State.sendFolios_ctl (s : State) (d : Nat) (fs : List Folio) : (s.sendFolios d fs).ctl = s.ctl := rfl
@[simp] theorem State.sendFolios_arb (s : State) (d : Nat) (fs : List Folio) : (s.sendFolios d fs).arb = s.arb := rfl
@[simp] theorem State.sendFolios_upd (s : State) (d : Nat) (fs : List Folio) : (s.sendFolios d fs).upd = s.upd := rfl
@[simp] theorem State.sendFolios_nvs (s : State) (d : Nat) (fs : List Folio) : (s.sendFolios d fs).nvs = s.nvs := rfl
@[simp] theorem State.sendFolios_commits (s : State) (d : Nat) (fs : List Folio) : (s.sendFolios d fs).commits = s.commits := rfl
@[simp] theorem State.sendFolios_xing (s : State) (d : Nat) (fs : List Folio) : (s.sendFolios d fs).xing = s.xing := rfl
@[simp] theorem State.sendFolios_latchDone (s : State) (d : Nat) (fs : List Folio) : (s.sendFolios d fs).latchDone = s.latchDone := rfl
@[simp] theorem State.sendFolios_evtSeq (s : State) (d : Nat) (fs : List Folio) : (s.sendFolios d fs).evtSeq = s.evtSeq := rfl
@[simp] theorem State.sendFolios_evtMask (s : State) (d : Nat) (fs : List Folio) : (s.sendFolios d fs).evtMask = s.evtMask := rfl
@[simp] theorem State.sendFolios_runCid (s : State) (d : Nat) (fs : List Folio) : (s.sendFolios d fs).runCid = s.runCid := rfl
@[simp] theorem State.sendFolios_recd (s : State) (d : Nat) (fs : List Folio) : (s.sendFolios d fs).recd = s.recd := rfl
@[simp] theorem State.sendFolios_pending (s : State) (d : Nat) (fs : List Folio) : (s.sendFolios d fs).pending = s.pending := rfl
@[simp] theorem State.sendFolios_freeCtr (s : State) (d : Nat) (fs : List Folio) : (s.sendFolios d fs).freeCtr = s.freeCtr := rfl

/-! ### Registers -/

/-- A register field read after a write of a field: at its own key the value cut to the width, elsewhere the old value. -/
theorem State.rd_wr (s : State) (f g : Fld) (v : Nat) :
    (s.wr f v).rd g = if g.key = f.key then v % 2 ^ f.w % 2 ^ 64 else s.rd g := by
  simp only [State.rd, State.wr, Tbl.get_set]
  split <;> simp

theorem State.rd_wr_self (s : State) (f : Fld) (v : Nat) (hv : v < 2 ^ f.w) (hw : f.w ≤ 64) : (s.wr f v).rd f = v := by
  have : v < 2 ^ 64 := Nat.lt_of_lt_of_le hv (Nat.pow_le_pow_right (by omega) hw)
  rw [State.rd_wr, if_pos rfl, Nat.mod_eq_of_lt hv, Nat.mod_eq_of_lt this]

theorem State.rd_wr_ne (s : State) {f g : Fld} (v : Nat) (h : g.key ≠ f.key) : (s.wr f v).rd g = s.rd g := by
  simp [State.rd_wr, h]

/-- A read depends on the live values alone. -/
theorem State.rd_congr {s t : State} (h : t.live = s.live) (f : Fld) : t.rd f = s.rd f := by simp [State.rd, h]

@[simp] theorem State.when_true (s : State) (g : State → State) : s.when true g = g s := rfl
@[simp] theorem State.when_false (s : State) (g : State → State) : s.when false g = s := rfl
@[simp] theorem State.each_nil {α : Type} (s : State) (g : State → α → State) : s.each [] g = s := rfl
@[simp] theorem State.each_cons {α : Type} (s : State) (a : α) (l : List α) (g : State → α → State) :
    s.each (a :: l) g = (g s a).each l g := rfl

/-- What every change of a fold keeps, the fold keeps. -/
theorem State.each_keeps {α : Type} {P : State → Prop} (l : List α) (g : State → α → State)
    (hg : ∀ s a, P s → P (g s a)) {s : State} (h : P s) : P (s.each l g) := by
  induction l generalizing s with
  | nil => exact h
  | cons a r ih => exact ih (hg s a h)

/-- What a change keeps, the same change under a condition keeps. -/
theorem State.when_keeps {P : State → Prop} (c : Bool) (g : State → State) (hg : ∀ s, P s → P (g s)) {s : State} (h : P s) :
    P (s.when c g) := by
  cases c
  · exact h
  · exact hg s h

end Sys2Proof.Machine
end

