-- ==== Sys2Proof/Laws/Slots.lean ====
section
/-! SUPPORT. What folios that wait and leave change of a side (R132, R133, R147): its slots alone; and that a folio that leaves is shown. -/

namespace Sys2Proof.Machine

@[simp] theorem Side.enqueue_core (x : Side) (f : Folio) : (x.enqueue f).core = x.core := by
  unfold Side.enqueue; split <;> rfl

theorem Side.takePix_core {x y : Side} {f : Folio} (h : x.takePix = some (f, y)) : y.core = x.core := by
  unfold Side.takePix at h
  split at h
  · cases h
  · cases h; rfl

theorem Side.takeBundle_core {x y : Side} {f : Folio} (h : x.takeBundle = some (f, y)) : y.core = x.core := by
  unfold Side.takeBundle at h
  split at h
  · cases h
  · cases h; rfl

theorem Side.takeC1_core {x y : Side} {f : Folio} (h : x.takeC1 = some (f, y)) : y.core = x.core := by
  unfold Side.takeC1 at h
  split at h
  · obtain ⟨g, -, e⟩ := Option.map_eq_some_iff.mp h
    cases e; rfl
  · cases h

theorem Side.takeMg_core {d : Nat} {x y : Side} {f : Folio} (h : x.takeMg d = some (f, y)) : y.core = x.core := by
  unfold Side.takeMg at h
  extract_lets turn left at h
  clear_value turn left
  split at h
  · cases h
  · split at h
    · cases h
    · cases h; rfl
    · cases h; rfl
    · split at h <;> cases h <;> rfl

/-- One of two ways to take a folio was taken. -/
theorem orElse_some {α : Type} {a b : Option α} {v : α} (h : (a <|> b) = some v) : a = some v ∨ b = some v := by
  cases a
  · exact .inr h
  · exact .inl h

theorem Side.slot_core {d : Nat} {idle f : Folio} {x y : Side} (h : x.slot d idle = some (f, y)) : y.core = x.core := by
  have hr : ∀ {f y}, (if x.txC1.isEmpty then none else some (idle, x)) = some (f, y) → y.core = x.core := by
    intro f y h
    split at h
    · cases h
    · cases h; rfl
  have hb : ∀ {f y}, (if x.txSeq / 16 % 8 = Config.bundleSlot.toNat then x.takeBundle <|> x.takeMg d else x.takeMg d) = some (f, y) →
      y.core = x.core := by
    intro f y h
    split at h
    · exact (orElse_some h).elim Side.takeBundle_core Side.takeMg_core
    · exact Side.takeMg_core h
  unfold Side.slot at h
  simp only at h
  split at h
  · rcases orElse_some h with h | h
    · exact Side.takeC1_core h
    rcases orElse_some h with h | h
    · exact hb h
    rcases orElse_some h with h | h
    · exact Side.takeBundle_core h
    exact (orElse_some h).elim Side.takePix_core hr
  · rcases orElse_some h with h | h
    · exact Side.takePix_core h
    rcases orElse_some h with h | h
    · exact Side.takeC1_core h
    rcases orElse_some h with h | h
    · exact Side.takeMg_core h
    exact (orElse_some h).elim Side.takeBundle_core hr

@[simp] theorem Side.emit_core (inv : Nat) (x : Side) (f : Folio) : (x.emit inv f).2.core = x.core := rfl

@[simp] theorem Side.drain_core (d inv : Nat) (idle : Folio) (n : Nat) (x : Side) : (x.drain d inv idle n).2.core = x.core := by
  induction n generalizing x with
  | zero => rfl
  | succ n ih =>
    unfold Side.drain
    split
    · rfl
    · rename_i f y h
      simp only [ih, Side.emit_core, Side.slot_core h]

theorem Side.enqueueAll_core (fs : List Folio) (x : Side) : (fs.foldl Side.enqueue x).core = x.core := by
  induction fs generalizing x with
  | nil => rfl
  | cons f r ih => rw [List.foldl_cons, ih, Side.enqueue_core]

/-- A side replaced by one with the same core leaves the sides' cores as they were. -/
theorem map_core_set (l : List Side) (i : Nat) (x : Side) (h : i < l.length → x.core = (l.getD i Side.reset).core) :
    (l.set i x).map Side.core = l.map Side.core := by
  apply List.ext_getElem
  · simp
  · intro j h1 h2
    have hj : j < l.length := by simpa using h2
    simp only [List.getElem_map, List.getElem_set]
    split
    · rename_i e
      subst e
      simpa [List.getD_eq_getElem?_getD, List.getElem?_eq_getElem hj] using h hj
    · rfl

theorem State.pump_sides (s : State) (sd : Nat) : (s.pump sd).sides.map Side.core = s.sides.map Side.core := by
  unfold State.pump
  simp only
  rw [map_core_set, map_core_set]
  · intro _; rfl
  · intro _
    rw [Side.drain_core]
    simp only [State.side, List.getD_eq_getElem?_getD, List.getElem?_set]
    rw [if_neg (by omega)]

theorem State.sendFolios_sides (s : State) (sd : Nat) (fs : List Folio) :
    (s.sendFolios sd fs).sides.map Side.core = s.sides.map Side.core := by
  unfold State.sendFolios
  rw [State.pump_sides]
  exact map_core_set _ _ _ fun _ => Side.enqueueAll_core fs _

/-- What the part gave before stays given. -/
theorem State.sendFolios_out (s : State) (sd : Nat) (fs : List Folio) :
    ∃ l, (s.sendFolios sd fs).out = folioOuts sd l ++ s.out := ⟨_, rfl⟩

end Sys2Proof.Machine
end

