-- ==== Sys2Proof/Laws/Flags.lean ====
section
/-! SUPPORT. What raising an interrupt, posting an event, firing a trigger, capturing an error and answering a request can
change: INT_RAW fields, the recorder, queue contents and descriptors, counts of lost events, the outputs. Everything else
stays. -/

namespace Sys2Proof.Machine

/-- Everything but the register fields of `noteKey`, the window words of `noteWord`, frame memory where a ring lies in it, the
MSI-X pending bits, lost events, the recorder and the outputs is the same. -/
structure Quiet (s t : State) : Prop where
  reg : ∀ k, noteKey k = false → t.live.get k = s.live.get k
  word : ∀ i, noteWord i = false → t.win.get i = s.win.get i
  desc : ∀ q < 4096, t.win.get (qDesc q 0) = s.win.get (qDesc q 0)
  mem : s.quietMem → t.mem = s.mem
  shadow : t.shadow = s.shadow
  latched : t.latched = s.latched
  committed : t.committed = s.committed
  snapd : t.snapd = s.snapd
  winShadow : t.winShadow = s.winShadow
  winLatched : t.winLatched = s.winLatched
  winCommitted : t.winCommitted = s.winCommitted
  ports : t.ports = s.ports
  pickFollowed : t.pickFollowed = s.pickFollowed
  pickSeq : t.pickSeq = s.pickSeq
  flipSeq : t.flipSeq = s.flipSeq
  refSeq : t.refSeq = s.refSeq
  comp : t.comp = s.comp
  imp : t.imp = s.imp
  sides : t.sides.map Side.core = s.sides.map Side.core
  link : t.link = s.link
  wtu : t.wtu = s.wtu
  tile : t.tile = s.tile
  scan : t.scan = s.scan
  health : t.health = s.health
  rail : t.rail = s.rail
  house : t.house = s.house
  arb : t.arb = s.arb
  upd : t.upd = s.upd
  nvs : t.nvs = s.nvs
  commits : t.commits = s.commits
  xing : t.xing = s.xing
  latchDone : t.latchDone = s.latchDone
  evtMask : t.evtMask = s.evtMask
  runCid : t.runCid = s.runCid
  pending : t.pending = s.pending
  freeCtr : t.freeCtr = s.freeCtr

theorem Quiet.rd {s t : State} (h : Quiet s t) (f : Fld) (hf : noteKey f.key = false) : t.rd f = s.rd f := by
  simp only [State.rd, h.reg f.key hf]

theorem Quiet.refl (s : State) : Quiet s s := by constructor <;> intros <;> rfl

/-- What tells whether notes leave memory alone is itself left alone by notes. -/
theorem Quiet.quietMem {s t : State} (h : Quiet s t) (hs : s.quietMem) : t.quietMem := by
  refine ⟨?_, fun q hq => ?_⟩
  · have h1 : t.isSender = s.isSender := by
      simp only [State.isSender, State.role, h.rd HIF_STRAP_STAT_ROLE (by decide)]
    rw [h1, h.rd REC_STAT_STATE (by decide)]
    exact hs.1
  · have := hs.2 q hq
    simp only [State.queue, State.word] at this ⊢
    rw [h.desc q hq]
    exact this

theorem Quiet.trans {s t u : State} (h : Quiet s t) (k : Quiet t u) : Quiet s u where
  reg i hi := (k.reg i hi).trans (h.reg i hi)
  word i hi := (k.word i hi).trans (h.word i hi)
  desc q hq := (k.desc q hq).trans (h.desc q hq)
  mem hs := (k.mem (h.quietMem hs)).trans (h.mem hs)
  shadow := k.shadow.trans h.shadow
  latched := k.latched.trans h.latched
  committed := k.committed.trans h.committed
  snapd := k.snapd.trans h.snapd
  winShadow := k.winShadow.trans h.winShadow
  winLatched := k.winLatched.trans h.winLatched
  winCommitted := k.winCommitted.trans h.winCommitted
  ports := k.ports.trans h.ports
  pickFollowed := k.pickFollowed.trans h.pickFollowed
  pickSeq := k.pickSeq.trans h.pickSeq
  flipSeq := k.flipSeq.trans h.flipSeq
  refSeq := k.refSeq.trans h.refSeq
  comp := k.comp.trans h.comp
  imp := k.imp.trans h.imp
  sides := k.sides.trans h.sides
  link := k.link.trans h.link
  wtu := k.wtu.trans h.wtu
  tile := k.tile.trans h.tile
  scan := k.scan.trans h.scan
  health := k.health.trans h.health
  rail := k.rail.trans h.rail
  house := k.house.trans h.house
  arb := k.arb.trans h.arb
  upd := k.upd.trans h.upd
  nvs := k.nvs.trans h.nvs
  commits := k.commits.trans h.commits
  xing := k.xing.trans h.xing
  latchDone := k.latchDone.trans h.latchDone
  evtMask := k.evtMask.trans h.evtMask
  runCid := k.runCid.trans h.runCid
  pending := k.pending.trans h.pending
  freeCtr := k.freeCtr.trans h.freeCtr

/-- A change of the live values, the window words and memory alone, which notes may make. -/
theorem Quiet.of_parts {s t : State} (hr : ∀ k, noteKey k = false → t.live.get k = s.live.get k)
    (hw : ∀ i, noteWord i = false → t.win.get i = s.win.get i) (hd : ∀ q < 4096, t.win.get (qDesc q 0) = s.win.get (qDesc q 0))
    (hm : s.quietMem → t.mem = s.mem)
    (h : { t with live := s.live, win := s.win, ue := s.ue, mem := s.mem, host := s.host, ctl := s.ctl, evtSeq := s.evtSeq, recd := s.recd, out := s.out } = s) :
    Quiet s t := by
  constructor
  case reg => exact hr
  case word => exact hw
  case desc => exact hd
  case mem => exact hm
  case shadow => have e := congrArg State.shadow h; exact e
  case latched => have e := congrArg State.latched h; exact e
  case committed => have e := congrArg State.committed h; exact e
  case snapd => have e := congrArg State.snapd h; exact e
  case winShadow => have e := congrArg State.winShadow h; exact e
  case winLatched => have e := congrArg State.winLatched h; exact e
  case winCommitted => have e := congrArg State.winCommitted h; exact e
  case ports => have e := congrArg State.ports h; exact e
  case pickFollowed => have e := congrArg State.pickFollowed h; exact e
  case pickSeq => have e := congrArg State.pickSeq h; exact e
  case flipSeq => have e := congrArg State.flipSeq h; exact e
  case refSeq => have e := congrArg State.refSeq h; exact e
  case comp => have e := congrArg State.comp h; exact e
  case imp => have e := congrArg State.imp h; exact e
  case sides => have e := congrArg (fun x => x.sides.map Side.core) h; exact e
  case link => have e := congrArg State.link h; exact e
  case wtu => have e := congrArg State.wtu h; exact e
  case tile => have e := congrArg State.tile h; exact e
  case scan => have e := congrArg State.scan h; exact e
  case health => have e := congrArg State.health h; exact e
  case rail => have e := congrArg State.rail h; exact e
  case house => have e := congrArg State.house h; exact e
  case arb => have e := congrArg State.arb h; exact e
  case upd => have e := congrArg State.upd h; exact e
  case nvs => have e := congrArg State.nvs h; exact e
  case commits => have e := congrArg State.commits h; exact e
  case xing => have e := congrArg State.xing h; exact e
  case latchDone => have e := congrArg State.latchDone h; exact e
  case evtMask => have e := congrArg State.evtMask h; exact e
  case runCid => have e := congrArg State.runCid h; exact e
  case pending => have e := congrArg State.pending h; exact e
  case freeCtr => have e := congrArg State.freeCtr h; exact e

/-- A write of a field that notes use. -/
theorem Quiet.wr (s : State) (f : Fld) (v : Nat) (hf : noteKey f.key = true) : Quiet s (s.wr f v) :=
  Quiet.of_parts (fun k hk => Tbl.get_set_ne _ _ (by intro e; rw [e, hf] at hk; cases hk)) (fun _ _ => rfl) (fun _ _ => rfl)
    (fun _ => rfl) rfl

theorem Quiet.recd (s : State) (x : Rec) : Quiet s { s with recd := x } :=
  Quiet.of_parts (fun _ _ => rfl) (fun _ _ => rfl) (fun _ _ => rfl) (fun _ => rfl) rfl
theorem Quiet.ctl (s : State) (x : Ctl) : Quiet s { s with ctl := x } :=
  Quiet.of_parts (fun _ _ => rfl) (fun _ _ => rfl) (fun _ _ => rfl) (fun _ => rfl) rfl
theorem Quiet.host (s : State) (x : HostIf) : Quiet s { s with host := x } :=
  Quiet.of_parts (fun _ _ => rfl) (fun _ _ => rfl) (fun _ _ => rfl) (fun _ => rfl) rfl
theorem Quiet.evtSeq (s : State) (x : Nat) : Quiet s { s with evtSeq := x } :=
  Quiet.of_parts (fun _ _ => rfl) (fun _ _ => rfl) (fun _ _ => rfl) (fun _ => rfl) rfl
theorem Quiet.send (s : State) (e : Emit) : Quiet s (s.send e) :=
  Quiet.of_parts (fun _ _ => rfl) (fun _ _ => rfl) (fun _ _ => rfl) (fun _ => rfl) rfl
/-- Folios that leave change the sides' slots alone. -/
theorem Quiet.sendFolios (s : State) (d : Nat) (fs : List Folio) : Quiet s (s.sendFolios d fs) := by
  constructor
  case sides => exact State.sendFolios_sides s d fs
  all_goals intros; rfl
theorem Quiet.sendMg (s : State) (sd dst src id : Nat) (ws : List Nat) : Quiet s (s.sendMg sd dst src id ws) := by
  unfold State.sendMg
  simp only
  split
  · exact Quiet.refl s
  · split
    · exact Quiet.sendFolios _ _ _
    · split <;> exact Quiet.sendFolios _ _ _
theorem Quiet.bump (s : State) (f : Fld) (hf : noteKey f.key = true) : Quiet s (s.bump f) := Quiet.wr s f _ hf

/-- A window word that notes may write and that is not the first of a queue descriptor. -/
theorem Quiet.setWord (s : State) (i : Nat) (v : Word72) (hi : noteWord i = true) (hd : ∀ q < 4096, i ≠ qDesc q 0) :
    Quiet s (s.setWord i v) :=
  Quiet.of_parts (fun _ _ => rfl) (fun j hj => Tbl.get_set_ne _ _ (by intro e; rw [e, hi] at hj; cases hj))
    (fun q hq => Tbl.get_set_ne _ _ (Ne.symm (hd q hq))) (fun _ => rfl) rfl

/-- A store to memory by a queue or a recorder that `quietMem` rules out. -/
theorem Quiet.storeBytes (s : State) (a : Nat) (b : List Byte) (h : ¬ s.quietMem) : Quiet s (s.storeBytes a b) :=
  Quiet.of_parts (fun _ _ => rfl) (fun _ _ => rfl) (fun _ _ => rfl) (fun hs => absurd hs h) rfl

theorem Quiet.when {s t : State} (h : Quiet s t) (c : Bool) (g : State → State) (hg : ∀ s, Quiet s (g s)) : Quiet s (t.when c g) := by
  cases c
  · exact h
  · exact h.trans (hg t)

theorem Quiet.each {α : Type} (l : List α) (g : State → α → State) (hg : ∀ s a, Quiet s (g s a)) (s : State) : Quiet s (s.each l g) :=
  State.each_keeps (P := fun t => Quiet s t) l g (fun t a h => h.trans (hg t a)) (Quiet.refl s)

theorem noteKey_raw (pg : Nat) : noteKey (INT_RAW_RAW pg).key = true := by
  have : (INT_RAW_RAW pg).key / 64 % 4096 = 24 := by simp only [Fld.key, INT_RAW_RAW]; omega
  simp [noteKey, this]

theorem Quiet.msixSend (s : State) (pg : Nat) : Quiet s (s.msixSend pg) := by
  unfold State.msixSend
  split
  · split
    · exact Quiet.send s _
    · exact Quiet.host s _
  · exact Quiet.refl s

theorem Quiet.recPut (s : State) (v : Nat) : Quiet s (s.recPut v) := by
  unfold State.recPut
  split
  · rename_i hrec
    extract_lets p s1 q s2
    have h1 : Quiet s s1 := by
      simp only [s1]
      split
      · rename_i hs
        exact Quiet.storeBytes _ _ _ fun hq => hq.1.elim (fun h => by rw [hs] at h; cases h) fun h => h hrec.1
      · rename_i hs
        have hp : p < 131072 := by simp only [p, hs]; exact Nat.mod_lt _ (by decide)
        refine Quiet.setWord _ _ _ ?_ ?_
        · exact (Bool.or_eq_true _ _).mpr (.inl (decide_eq_true (by simp only [pixKey]; omega)))
        · intro q hq; simp only [pixKey, qDesc]; omega
    have h2 : Quiet s s2 :=
      (h1.trans (Quiet.wr s1 _ _ (by decide))).when _ _ fun s => Quiet.wr s _ _ (by decide)
    exact h2.trans (Quiet.recd s2 _)
  · exact Quiet.refl s

theorem Quiet.recWriteAt (s : State) (n typ w0 : Nat) (ws : List Nat) : Quiet s (s.recWriteAt n typ w0 ws) :=
  (Quiet.recPut s _).trans (Quiet.each _ _ (fun s _ => Quiet.recPut s _) _)

theorem Quiet.recWrite (s : State) (typ w0 : Nat) (ws : List Nat) : Quiet s (s.recWrite typ w0 ws) := Quiet.recWriteAt s _ _ _ _

/-- An entry stored in the ring of the queue `q`. -/
theorem Quiet.qStore (s : State) (v : QView) (q : Nat) (hq : q < 4096) (hv : v.inFrame = (s.queue q).inFrame) (i : Nat) (e : Word72) :
    Quiet s (s.qStore v i e) := by
  unfold State.qStore
  split
  · rename_i h
    refine Quiet.storeBytes _ _ _ fun hs => ?_
    have := hs.2 q hq
    rw [← hv, h] at this
    cases this
  · refine Quiet.setWord _ _ _ ?_ ?_
    · exact (Bool.or_eq_true _ _).mpr (.inr (decide_eq_true (by simp only [qMem]; omega)))
    · intro q hq; simp only [qMem, qDesc]; omega

theorem Quiet.setDesc (s : State) (q i : Nat) (hi : i % 4 ≠ 0) (v : Word72) : Quiet s (s.setWord (qDesc q i) v) := by
  refine Quiet.setWord _ _ _ ?_ ?_
  · exact (Bool.or_eq_true _ _).mpr (.inr (decide_eq_true (by simp only [qDesc]; omega)))
  · intro r _; simp only [qDesc]; omega

theorem Quiet.qSetTail (s : State) (q t : Nat) : Quiet s (s.qSetTail q t) := by
  unfold State.qSetTail
  extract_lets s1 w2 used
  have h1 : Quiet s s1 := Quiet.setDesc s q 1 (by decide) _
  split
  · exact h1.trans (Quiet.setDesc s1 q 2 (by decide) _)
  · exact h1

theorem Quiet.qSetDrop (s : State) (q n : Nat) : Quiet s (s.qSetDrop q n) := Quiet.setDesc s q 2 (by decide) _

/-- A queue's place is left alone by notes. -/
theorem Quiet.inFrame {s t : State} (h : Quiet s t) {q : Nat} (hq : q < 4096) : (t.queue q).inFrame = (s.queue q).inFrame := by
  simp only [State.queue, State.word, h.desc q hq]

theorem Quiet.qPush (s : State) (q : Nat) (hq : q < 4096) (es : List Word72) : Quiet s (s.qPush q es) := by
  unfold State.qPush
  extract_lets v s1
  have h1 : Quiet s s1 :=
    State.each_keeps (P := fun t => Quiet s t) es.zipIdx (fun s e => s.qStore v (v.tail + e.2) e.1)
      (fun t a h => h.trans (Quiet.qStore t v q hq (h.inFrame hq).symm _ _)) (Quiet.refl s)
  exact h1.trans (Quiet.qSetTail _ _ _)

theorem Quiet.recTrigger (s : State) (code : Nat) (host : Bool) : Quiet s (s.recTrigger code host).1 := by
  unfold State.recTrigger
  split
  · exact Quiet.bump _ _ (by decide)
  · split
    · extract_lets s1 s2 s3 cap s4
      have h1 : Quiet s s1 := Quiet.recWrite s _ _ _
      have h2 : Quiet s s2 := h1.trans (Quiet.recWrite _ _ _ _)
      have h3 : Quiet s s3 := (h2.trans (Quiet.wr s2 _ _ (by decide))).trans (Quiet.wr _ _ _ (by decide))
      have h4 : Quiet s s4 := h3.when _ _ fun s => (Quiet.wr s _ _ (by decide)).trans (Quiet.wr _ _ _ (by decide))
      exact h4.trans (Quiet.recd s4 _)
    · exact Quiet.refl s

theorem Quiet.evtDeliver (s : State) (code : Nat) (extra : List Nat) : Quiet s (s.evtDeliver code extra).1 := by
  unfold State.evtDeliver
  extract_lets ws s1 wv
  have h0 : Quiet s s1 := Quiet.evtSeq s _
  clear_value s1 ws wv
  split
  · exact ((h0.trans (Quiet.send s1 _)).trans (Quiet.sendMg _ _ _ _ _ _)).trans (Quiet.sendMg _ _ _ _ _ _)
  · split
    · split
      · have h1 := (h0.trans (Quiet.send s1 (.event false wv))).trans (Quiet.qPush _ 2 (by decide) (frameMsg ws))
        dsimp only
        exact h1
      · split
        · have h1 : Quiet s { s1 with ctl := { s1.ctl with lost := s1.ctl.lost + 1 } } := h0.trans (Quiet.ctl s1 _)
          have h2 := (h1.trans (Quiet.qSetDrop _ 2 (s1.qDrop 2 + 1))).trans (Quiet.bump _ QEN_CNT_DROP (by decide))
          dsimp only
          exact h2
        · exact h0.trans (Quiet.send _ _)
    · exact h0

theorem Quiet.note (n : Nat) (s : State) (x : Note) : Quiet s (note n s x) := by
  induction n generalizing s x with
  | zero => cases x <;> first | exact Quiet.wr _ _ _ (noteKey_raw _) | exact Quiet.refl s
  | succ n ih =>
    cases x with
    | intr pg b =>
      simp only [Machine.note]
      split
      · exact Quiet.refl s
      · split
        · exact ((Quiet.wr s _ _ (noteKey_raw _)).trans (Quiet.msixSend _ _)).trans (ih _ _)
        · exact Quiet.wr s _ _ (noteKey_raw _)
    | event code extra =>
      simp only [Machine.note]
      have h1 : Quiet s (if s.isSender then s else s.recWrite 7 0 [code]) := by
        split
        · exact Quiet.refl s
        · exact Quiet.recWrite _ _ _ _
      generalize (if s.isSender then s else s.recWrite 7 0 [code]) = s1 at h1
      have h2 : Quiet s (if s1.trigCode code then Machine.note n s1 (.trigger code false) else s1) := by
        split
        · exact h1.trans (ih _ _)
        · exact h1
      generalize (if s1.trigCode code then Machine.note n s1 (.trigger code false) else s1) = s2 at h2
      have h3 := h2.trans (Quiet.evtDeliver s2 code extra)
      split
      · exact h3.trans (ih _ _)
      · exact h3
    | trigger code host =>
      simp only [Machine.note]
      split
      · exact (Quiet.recTrigger s code host).trans (ih _ _)
      · exact Quiet.recTrigger s code host

theorem Quiet.raise (s : State) (pg b : Nat) : Quiet s (s.raise pg b) := Quiet.note 8 s _
theorem Quiet.post (s : State) (code : Nat) (extra : List Nat) : Quiet s (s.post code extra) := Quiet.note 8 s _
theorem Quiet.trigger (s : State) (code : Nat) (host : Bool) : Quiet s (s.trigger code host) := Quiet.note 8 s _

theorem Quiet.respond (s : State) (r : Req) (cmd status : Nat) (body : List Nat) : Quiet s (s.respond r cmd status body) := by
  unfold State.respond
  simp only
  split
  · split
    · exact ((Quiet.send _ _).trans (Quiet.qPush _ _ (Nat.mod_lt _ (by decide)) _)).trans (Quiet.raise _ _ _)
    · exact (Quiet.send _ _).trans (Quiet.qPush _ _ (Nat.mod_lt _ (by decide)) _)
  · split
    · split
      · exact Quiet.send _ _
      · exact (Quiet.send _ _).trans (Quiet.sendMg _ _ _ _ _ _)
    · exact Quiet.send _ _

/-! ### raise -/

theorem State.raise_rd (s : State) (pg b : Nat) (f : Fld) (hf : noteKey f.key = false) : (s.raise pg b).rd f = s.rd f := (Quiet.raise s pg b).rd f hf
@[simp] theorem State.raise_shadow (s : State) (pg b : Nat) : (s.raise pg b).shadow = s.shadow := (Quiet.raise s pg b).shadow
@[simp] theorem State.raise_latched (s : State) (pg b : Nat) : (s.raise pg b).latched = s.latched := (Quiet.raise s pg b).latched
@[simp] theorem State.raise_committed (s : State) (pg b : Nat) : (s.raise pg b).committed = s.committed := (Quiet.raise s pg b).committed
@[simp] theorem State.raise_snapd (s : State) (pg b : Nat) : (s.raise pg b).snapd = s.snapd := (Quiet.raise s pg b).snapd
@[simp] theorem State.raise_winShadow (s : State) (pg b : Nat) : (s.raise pg b).winShadow = s.winShadow := (Quiet.raise s pg b).winShadow
@[simp] theorem State.raise_winLatched (s : State) (pg b : Nat) : (s.raise pg b).winLatched = s.winLatched := (Quiet.raise s pg b).winLatched
@[simp] theorem State.raise_winCommitted (s : State) (pg b : Nat) : (s.raise pg b).winCommitted = s.winCommitted := (Quiet.raise s pg b).winCommitted
@[simp] theorem State.raise_ports (s : State) (pg b : Nat) : (s.raise pg b).ports = s.ports := (Quiet.raise s pg b).ports
@[simp] theorem State.raise_pickFollowed (s : State) (pg b : Nat) : (s.raise pg b).pickFollowed = s.pickFollowed := (Quiet.raise s pg b).pickFollowed
@[simp] theorem State.raise_pickSeq (s : State) (pg b : Nat) : (s.raise pg b).pickSeq = s.pickSeq := (Quiet.raise s pg b).pickSeq
@[simp] theorem State.raise_flipSeq (s : State) (pg b : Nat) : (s.raise pg b).flipSeq = s.flipSeq := (Quiet.raise s pg b).flipSeq
@[simp] theorem State.raise_refSeq (s : State) (pg b : Nat) : (s.raise pg b).refSeq = s.refSeq := (Quiet.raise s pg b).refSeq
@[simp] theorem State.raise_comp (s : State) (pg b : Nat) : (s.raise pg b).comp = s.comp := (Quiet.raise s pg b).comp
@[simp] theorem State.raise_imp (s : State) (pg b : Nat) : (s.raise pg b).imp = s.imp := (Quiet.raise s pg b).imp
theorem State.raise_sides (s : State) (pg b : Nat) : (s.raise pg b).sides.map Side.core = s.sides.map Side.core := (Quiet.raise s pg b).sides
@[simp] theorem State.raise_link (s : State) (pg b : Nat) : (s.raise pg b).link = s.link := (Quiet.raise s pg b).link
@[simp] theorem State.raise_wtu (s : State) (pg b : Nat) : (s.raise pg b).wtu = s.wtu := (Quiet.raise s pg b).wtu
@[simp] theorem State.raise_tile (s : State) (pg b : Nat) : (s.raise pg b).tile = s.tile := (Quiet.raise s pg b).tile
@[simp] theorem State.raise_scan (s : State) (pg b : Nat) : (s.raise pg b).scan = s.scan := (Quiet.raise s pg b).scan
@[simp] theorem State.raise_health (s : State) (pg b : Nat) : (s.raise pg b).health = s.health := (Quiet.raise s pg b).health
@[simp] theorem State.raise_rail (s : State) (pg b : Nat) : (s.raise pg b).rail = s.rail := (Quiet.raise s pg b).rail
@[simp] theorem State.raise_house (s : State) (pg b : Nat) : (s.raise pg b).house = s.house := (Quiet.raise s pg b).house
@[simp] theorem State.raise_arb (s : State) (pg b : Nat) : (s.raise pg b).arb = s.arb := (Quiet.raise s pg b).arb
@[simp] theorem State.raise_upd (s : State) (pg b : Nat) : (s.raise pg b).upd = s.upd := (Quiet.raise s pg b).upd
@[simp] theorem State.raise_nvs (s : State) (pg b : Nat) : (s.raise pg b).nvs = s.nvs := (Quiet.raise s pg b).nvs
@[simp] theorem State.raise_commits (s : State) (pg b : Nat) : (s.raise pg b).commits = s.commits := (Quiet.raise s pg b).commits
@[simp] theorem State.raise_xing (s : State) (pg b : Nat) : (s.raise pg b).xing = s.xing := (Quiet.raise s pg b).xing
@[simp] theorem State.raise_latchDone (s : State) (pg b : Nat) : (s.raise pg b).latchDone = s.latchDone := (Quiet.raise s pg b).latchDone
@[simp] theorem State.raise_evtMask (s : State) (pg b : Nat) : (s.raise pg b).evtMask = s.evtMask := (Quiet.raise s pg b).evtMask
@[simp] theorem State.raise_runCid (s : State) (pg b : Nat) : (s.raise pg b).runCid = s.runCid := (Quiet.raise s pg b).runCid
@[simp] theorem State.raise_pending (s : State) (pg b : Nat) : (s.raise pg b).pending = s.pending := (Quiet.raise s pg b).pending
@[simp] theorem State.raise_freeCtr (s : State) (pg b : Nat) : (s.raise pg b).freeCtr = s.freeCtr := (Quiet.raise s pg b).freeCtr

/-! ### post -/

theorem State.post_rd (s : State) (code : Nat) (extra : List Nat) (f : Fld) (hf : noteKey f.key = false) : (s.post code extra).rd f = s.rd f := (Quiet.post s code extra).rd f hf
@[simp] theorem State.post_shadow (s : State) (code : Nat) (extra : List Nat) : (s.post code extra).shadow = s.shadow := (Quiet.post s code extra).shadow
@[simp] theorem State.post_latched (s : State) (code : Nat) (extra : List Nat) : (s.post code extra).latched = s.latched := (Quiet.post s code extra).latched
@[simp] theorem State.post_committed (s : State) (code : Nat) (extra : List Nat) : (s.post code extra).committed = s.committed := (Quiet.post s code extra).committed
@[simp] theorem State.post_snapd (s : State) (code : Nat) (extra : List Nat) : (s.post code extra).snapd = s.snapd := (Quiet.post s code extra).snapd
@[simp] theorem State.post_winShadow (s : State) (code : Nat) (extra : List Nat) : (s.post code extra).winShadow = s.winShadow := (Quiet.post s code extra).winShadow
@[simp] theorem State.post_winLatched (s : State) (code : Nat) (extra : List Nat) : (s.post code extra).winLatched = s.winLatched := (Quiet.post s code extra).winLatched
@[simp] theorem State.post_winCommitted (s : State) (code : Nat) (extra : List Nat) : (s.post code extra).winCommitted = s.winCommitted := (Quiet.post s code extra).winCommitted
@[simp] theorem State.post_ports (s : State) (code : Nat) (extra : List Nat) : (s.post code extra).ports = s.ports := (Quiet.post s code extra).ports
@[simp] theorem State.post_pickFollowed (s : State) (code : Nat) (extra : List Nat) : (s.post code extra).pickFollowed = s.pickFollowed := (Quiet.post s code extra).pickFollowed
@[simp] theorem State.post_pickSeq (s : State) (code : Nat) (extra : List Nat) : (s.post code extra).pickSeq = s.pickSeq := (Quiet.post s code extra).pickSeq
@[simp] theorem State.post_flipSeq (s : State) (code : Nat) (extra : List Nat) : (s.post code extra).flipSeq = s.flipSeq := (Quiet.post s code extra).flipSeq
@[simp] theorem State.post_refSeq (s : State) (code : Nat) (extra : List Nat) : (s.post code extra).refSeq = s.refSeq := (Quiet.post s code extra).refSeq
@[simp] theorem State.post_comp (s : State) (code : Nat) (extra : List Nat) : (s.post code extra).comp = s.comp := (Quiet.post s code extra).comp
@[simp] theorem State.post_imp (s : State) (code : Nat) (extra : List Nat) : (s.post code extra).imp = s.imp := (Quiet.post s code extra).imp
theorem State.post_sides (s : State) (code : Nat) (extra : List Nat) : (s.post code extra).sides.map Side.core = s.sides.map Side.core := (Quiet.post s code extra).sides
@[simp] theorem State.post_link (s : State) (code : Nat) (extra : List Nat) : (s.post code extra).link = s.link := (Quiet.post s code extra).link
@[simp] theorem State.post_wtu (s : State) (code : Nat) (extra : List Nat) : (s.post code extra).wtu = s.wtu := (Quiet.post s code extra).wtu
@[simp] theorem State.post_tile (s : State) (code : Nat) (extra : List Nat) : (s.post code extra).tile = s.tile := (Quiet.post s code extra).tile
@[simp] theorem State.post_scan (s : State) (code : Nat) (extra : List Nat) : (s.post code extra).scan = s.scan := (Quiet.post s code extra).scan
@[simp] theorem State.post_health (s : State) (code : Nat) (extra : List Nat) : (s.post code extra).health = s.health := (Quiet.post s code extra).health
@[simp] theorem State.post_rail (s : State) (code : Nat) (extra : List Nat) : (s.post code extra).rail = s.rail := (Quiet.post s code extra).rail
@[simp] theorem State.post_house (s : State) (code : Nat) (extra : List Nat) : (s.post code extra).house = s.house := (Quiet.post s code extra).house
@[simp] theorem State.post_arb (s : State) (code : Nat) (extra : List Nat) : (s.post code extra).arb = s.arb := (Quiet.post s code extra).arb
@[simp] theorem State.post_upd (s : State) (code : Nat) (extra : List Nat) : (s.post code extra).upd = s.upd := (Quiet.post s code extra).upd
@[simp] theorem State.post_nvs (s : State) (code : Nat) (extra : List Nat) : (s.post code extra).nvs = s.nvs := (Quiet.post s code extra).nvs
@[simp] theorem State.post_commits (s : State) (code : Nat) (extra : List Nat) : (s.post code extra).commits = s.commits := (Quiet.post s code extra).commits
@[simp] theorem State.post_xing (s : State) (code : Nat) (extra : List Nat) : (s.post code extra).xing = s.xing := (Quiet.post s code extra).xing
@[simp] theorem State.post_latchDone (s : State) (code : Nat) (extra : List Nat) : (s.post code extra).latchDone = s.latchDone := (Quiet.post s code extra).latchDone
@[simp] theorem State.post_evtMask (s : State) (code : Nat) (extra : List Nat) : (s.post code extra).evtMask = s.evtMask := (Quiet.post s code extra).evtMask
@[simp] theorem State.post_runCid (s : State) (code : Nat) (extra : List Nat) : (s.post code extra).runCid = s.runCid := (Quiet.post s code extra).runCid
@[simp] theorem State.post_pending (s : State) (code : Nat) (extra : List Nat) : (s.post code extra).pending = s.pending := (Quiet.post s code extra).pending
@[simp] theorem State.post_freeCtr (s : State) (code : Nat) (extra : List Nat) : (s.post code extra).freeCtr = s.freeCtr := (Quiet.post s code extra).freeCtr

/-! ### trigger -/

theorem State.trigger_rd (s : State) (code : Nat) (host : Bool) (f : Fld) (hf : noteKey f.key = false) : (s.trigger code host).rd f = s.rd f := (Quiet.trigger s code host).rd f hf
@[simp] theorem State.trigger_shadow (s : State) (code : Nat) (host : Bool) : (s.trigger code host).shadow = s.shadow := (Quiet.trigger s code host).shadow
@[simp] theorem State.trigger_latched (s : State) (code : Nat) (host : Bool) : (s.trigger code host).latched = s.latched := (Quiet.trigger s code host).latched
@[simp] theorem State.trigger_committed (s : State) (code : Nat) (host : Bool) : (s.trigger code host).committed = s.committed := (Quiet.trigger s code host).committed
@[simp] theorem State.trigger_snapd (s : State) (code : Nat) (host : Bool) : (s.trigger code host).snapd = s.snapd := (Quiet.trigger s code host).snapd
@[simp] theorem State.trigger_winShadow (s : State) (code : Nat) (host : Bool) : (s.trigger code host).winShadow = s.winShadow := (Quiet.trigger s code host).winShadow
@[simp] theorem State.trigger_winLatched (s : State) (code : Nat) (host : Bool) : (s.trigger code host).winLatched = s.winLatched := (Quiet.trigger s code host).winLatched
@[simp] theorem State.trigger_winCommitted (s : State) (code : Nat) (host : Bool) : (s.trigger code host).winCommitted = s.winCommitted := (Quiet.trigger s code host).winCommitted
@[simp] theorem State.trigger_ports (s : State) (code : Nat) (host : Bool) : (s.trigger code host).ports = s.ports := (Quiet.trigger s code host).ports
@[simp] theorem State.trigger_pickFollowed (s : State) (code : Nat) (host : Bool) : (s.trigger code host).pickFollowed = s.pickFollowed := (Quiet.trigger s code host).pickFollowed
@[simp] theorem State.trigger_pickSeq (s : State) (code : Nat) (host : Bool) : (s.trigger code host).pickSeq = s.pickSeq := (Quiet.trigger s code host).pickSeq
@[simp] theorem State.trigger_flipSeq (s : State) (code : Nat) (host : Bool) : (s.trigger code host).flipSeq = s.flipSeq := (Quiet.trigger s code host).flipSeq
@[simp] theorem State.trigger_refSeq (s : State) (code : Nat) (host : Bool) : (s.trigger code host).refSeq = s.refSeq := (Quiet.trigger s code host).refSeq
@[simp] theorem State.trigger_comp (s : State) (code : Nat) (host : Bool) : (s.trigger code host).comp = s.comp := (Quiet.trigger s code host).comp
@[simp] theorem State.trigger_imp (s : State) (code : Nat) (host : Bool) : (s.trigger code host).imp = s.imp := (Quiet.trigger s code host).imp
theorem State.trigger_sides (s : State) (code : Nat) (host : Bool) : (s.trigger code host).sides.map Side.core = s.sides.map Side.core := (Quiet.trigger s code host).sides
@[simp] theorem State.trigger_link (s : State) (code : Nat) (host : Bool) : (s.trigger code host).link = s.link := (Quiet.trigger s code host).link
@[simp] theorem State.trigger_wtu (s : State) (code : Nat) (host : Bool) : (s.trigger code host).wtu = s.wtu := (Quiet.trigger s code host).wtu
@[simp] theorem State.trigger_tile (s : State) (code : Nat) (host : Bool) : (s.trigger code host).tile = s.tile := (Quiet.trigger s code host).tile
@[simp] theorem State.trigger_scan (s : State) (code : Nat) (host : Bool) : (s.trigger code host).scan = s.scan := (Quiet.trigger s code host).scan
@[simp] theorem State.trigger_health (s : State) (code : Nat) (host : Bool) : (s.trigger code host).health = s.health := (Quiet.trigger s code host).health
@[simp] theorem State.trigger_rail (s : State) (code : Nat) (host : Bool) : (s.trigger code host).rail = s.rail := (Quiet.trigger s code host).rail
@[simp] theorem State.trigger_house (s : State) (code : Nat) (host : Bool) : (s.trigger code host).house = s.house := (Quiet.trigger s code host).house
@[simp] theorem State.trigger_arb (s : State) (code : Nat) (host : Bool) : (s.trigger code host).arb = s.arb := (Quiet.trigger s code host).arb
@[simp] theorem State.trigger_upd (s : State) (code : Nat) (host : Bool) : (s.trigger code host).upd = s.upd := (Quiet.trigger s code host).upd
@[simp] theorem State.trigger_nvs (s : State) (code : Nat) (host : Bool) : (s.trigger code host).nvs = s.nvs := (Quiet.trigger s code host).nvs
@[simp] theorem State.trigger_commits (s : State) (code : Nat) (host : Bool) : (s.trigger code host).commits = s.commits := (Quiet.trigger s code host).commits
@[simp] theorem State.trigger_xing (s : State) (code : Nat) (host : Bool) : (s.trigger code host).xing = s.xing := (Quiet.trigger s code host).xing
@[simp] theorem State.trigger_latchDone (s : State) (code : Nat) (host : Bool) : (s.trigger code host).latchDone = s.latchDone := (Quiet.trigger s code host).latchDone
@[simp] theorem State.trigger_evtMask (s : State) (code : Nat) (host : Bool) : (s.trigger code host).evtMask = s.evtMask := (Quiet.trigger s code host).evtMask
@[simp] theorem State.trigger_runCid (s : State) (code : Nat) (host : Bool) : (s.trigger code host).runCid = s.runCid := (Quiet.trigger s code host).runCid
@[simp] theorem State.trigger_pending (s : State) (code : Nat) (host : Bool) : (s.trigger code host).pending = s.pending := (Quiet.trigger s code host).pending
@[simp] theorem State.trigger_freeCtr (s : State) (code : Nat) (host : Bool) : (s.trigger code host).freeCtr = s.freeCtr := (Quiet.trigger s code host).freeCtr

/-! ### respond -/

theorem State.respond_rd (s : State) (r : Req) (cmd status : Nat) (body : List Nat) (f : Fld) (hf : noteKey f.key = false) : (s.respond r cmd status body).rd f = s.rd f := (Quiet.respond s r cmd status body).rd f hf
@[simp] theorem State.respond_shadow (s : State) (r : Req) (cmd status : Nat) (body : List Nat) : (s.respond r cmd status body).shadow = s.shadow := (Quiet.respond s r cmd status body).shadow
@[simp] theorem State.respond_latched (s : State) (r : Req) (cmd status : Nat) (body : List Nat) : (s.respond r cmd status body).latched = s.latched := (Quiet.respond s r cmd status body).latched
@[simp] theorem State.respond_committed (s : State) (r : Req) (cmd status : Nat) (body : List Nat) : (s.respond r cmd status body).committed = s.committed := (Quiet.respond s r cmd status body).committed
@[simp] theorem State.respond_snapd (s : State) (r : Req) (cmd status : Nat) (body : List Nat) : (s.respond r cmd status body).snapd = s.snapd := (Quiet.respond s r cmd status body).snapd
@[simp] theorem State.respond_winShadow (s : State) (r : Req) (cmd status : Nat) (body : List Nat) : (s.respond r cmd status body).winShadow = s.winShadow := (Quiet.respond s r cmd status body).winShadow
@[simp] theorem State.respond_winLatched (s : State) (r : Req) (cmd status : Nat) (body : List Nat) : (s.respond r cmd status body).winLatched = s.winLatched := (Quiet.respond s r cmd status body).winLatched
@[simp] theorem State.respond_winCommitted (s : State) (r : Req) (cmd status : Nat) (body : List Nat) : (s.respond r cmd status body).winCommitted = s.winCommitted := (Quiet.respond s r cmd status body).winCommitted
@[simp] theorem State.respond_ports (s : State) (r : Req) (cmd status : Nat) (body : List Nat) : (s.respond r cmd status body).ports = s.ports := (Quiet.respond s r cmd status body).ports
@[simp] theorem State.respond_pickFollowed (s : State) (r : Req) (cmd status : Nat) (body : List Nat) : (s.respond r cmd status body).pickFollowed = s.pickFollowed := (Quiet.respond s r cmd status body).pickFollowed
@[simp] theorem State.respond_pickSeq (s : State) (r : Req) (cmd status : Nat) (body : List Nat) : (s.respond r cmd status body).pickSeq = s.pickSeq := (Quiet.respond s r cmd status body).pickSeq
@[simp] theorem State.respond_flipSeq (s : State) (r : Req) (cmd status : Nat) (body : List Nat) : (s.respond r cmd status body).flipSeq = s.flipSeq := (Quiet.respond s r cmd status body).flipSeq
@[simp] theorem State.respond_refSeq (s : State) (r : Req) (cmd status : Nat) (body : List Nat) : (s.respond r cmd status body).refSeq = s.refSeq := (Quiet.respond s r cmd status body).refSeq
@[simp] theorem State.respond_comp (s : State) (r : Req) (cmd status : Nat) (body : List Nat) : (s.respond r cmd status body).comp = s.comp := (Quiet.respond s r cmd status body).comp
@[simp] theorem State.respond_imp (s : State) (r : Req) (cmd status : Nat) (body : List Nat) : (s.respond r cmd status body).imp = s.imp := (Quiet.respond s r cmd status body).imp
theorem State.respond_sides (s : State) (r : Req) (cmd status : Nat) (body : List Nat) : (s.respond r cmd status body).sides.map Side.core = s.sides.map Side.core := (Quiet.respond s r cmd status body).sides
@[simp] theorem State.respond_link (s : State) (r : Req) (cmd status : Nat) (body : List Nat) : (s.respond r cmd status body).link = s.link := (Quiet.respond s r cmd status body).link
@[simp] theorem State.respond_wtu (s : State) (r : Req) (cmd status : Nat) (body : List Nat) : (s.respond r cmd status body).wtu = s.wtu := (Quiet.respond s r cmd status body).wtu
@[simp] theorem State.respond_tile (s : State) (r : Req) (cmd status : Nat) (body : List Nat) : (s.respond r cmd status body).tile = s.tile := (Quiet.respond s r cmd status body).tile
@[simp] theorem State.respond_scan (s : State) (r : Req) (cmd status : Nat) (body : List Nat) : (s.respond r cmd status body).scan = s.scan := (Quiet.respond s r cmd status body).scan
@[simp] theorem State.respond_health (s : State) (r : Req) (cmd status : Nat) (body : List Nat) : (s.respond r cmd status body).health = s.health := (Quiet.respond s r cmd status body).health
@[simp] theorem State.respond_rail (s : State) (r : Req) (cmd status : Nat) (body : List Nat) : (s.respond r cmd status body).rail = s.rail := (Quiet.respond s r cmd status body).rail
@[simp] theorem State.respond_house (s : State) (r : Req) (cmd status : Nat) (body : List Nat) : (s.respond r cmd status body).house = s.house := (Quiet.respond s r cmd status body).house
@[simp] theorem State.respond_arb (s : State) (r : Req) (cmd status : Nat) (body : List Nat) : (s.respond r cmd status body).arb = s.arb := (Quiet.respond s r cmd status body).arb
@[simp] theorem State.respond_upd (s : State) (r : Req) (cmd status : Nat) (body : List Nat) : (s.respond r cmd status body).upd = s.upd := (Quiet.respond s r cmd status body).upd
@[simp] theorem State.respond_nvs (s : State) (r : Req) (cmd status : Nat) (body : List Nat) : (s.respond r cmd status body).nvs = s.nvs := (Quiet.respond s r cmd status body).nvs
@[simp] theorem State.respond_commits (s : State) (r : Req) (cmd status : Nat) (body : List Nat) : (s.respond r cmd status body).commits = s.commits := (Quiet.respond s r cmd status body).commits
@[simp] theorem State.respond_xing (s : State) (r : Req) (cmd status : Nat) (body : List Nat) : (s.respond r cmd status body).xing = s.xing := (Quiet.respond s r cmd status body).xing
@[simp] theorem State.respond_latchDone (s : State) (r : Req) (cmd status : Nat) (body : List Nat) : (s.respond r cmd status body).latchDone = s.latchDone := (Quiet.respond s r cmd status body).latchDone
@[simp] theorem State.respond_evtMask (s : State) (r : Req) (cmd status : Nat) (body : List Nat) : (s.respond r cmd status body).evtMask = s.evtMask := (Quiet.respond s r cmd status body).evtMask
@[simp] theorem State.respond_runCid (s : State) (r : Req) (cmd status : Nat) (body : List Nat) : (s.respond r cmd status body).runCid = s.runCid := (Quiet.respond s r cmd status body).runCid
@[simp] theorem State.respond_pending (s : State) (r : Req) (cmd status : Nat) (body : List Nat) : (s.respond r cmd status body).pending = s.pending := (Quiet.respond s r cmd status body).pending
@[simp] theorem State.respond_freeCtr (s : State) (r : Req) (cmd status : Nat) (body : List Nat) : (s.respond r cmd status body).freeCtr = s.freeCtr := (Quiet.respond s r cmd status body).freeCtr

/-! ### recWrite -/

theorem State.recWrite_rd (s : State) (typ w0 : Nat) (ws : List Nat) (f : Fld) (hf : noteKey f.key = false) : (s.recWrite typ w0 ws).rd f = s.rd f := (Quiet.recWrite s typ w0 ws).rd f hf
@[simp] theorem State.recWrite_shadow (s : State) (typ w0 : Nat) (ws : List Nat) : (s.recWrite typ w0 ws).shadow = s.shadow := (Quiet.recWrite s typ w0 ws).shadow
@[simp] theorem State.recWrite_latched (s : State) (typ w0 : Nat) (ws : List Nat) : (s.recWrite typ w0 ws).latched = s.latched := (Quiet.recWrite s typ w0 ws).latched
@[simp] theorem State.recWrite_committed (s : State) (typ w0 : Nat) (ws : List Nat) : (s.recWrite typ w0 ws).committed = s.committed := (Quiet.recWrite s typ w0 ws).committed
@[simp] theorem State.recWrite_snapd (s : State) (typ w0 : Nat) (ws : List Nat) : (s.recWrite typ w0 ws).snapd = s.snapd := (Quiet.recWrite s typ w0 ws).snapd
@[simp] theorem State.recWrite_winShadow (s : State) (typ w0 : Nat) (ws : List Nat) : (s.recWrite typ w0 ws).winShadow = s.winShadow := (Quiet.recWrite s typ w0 ws).winShadow
@[simp] theorem State.recWrite_winLatched (s : State) (typ w0 : Nat) (ws : List Nat) : (s.recWrite typ w0 ws).winLatched = s.winLatched := (Quiet.recWrite s typ w0 ws).winLatched
@[simp] theorem State.recWrite_winCommitted (s : State) (typ w0 : Nat) (ws : List Nat) : (s.recWrite typ w0 ws).winCommitted = s.winCommitted := (Quiet.recWrite s typ w0 ws).winCommitted
@[simp] theorem State.recWrite_ports (s : State) (typ w0 : Nat) (ws : List Nat) : (s.recWrite typ w0 ws).ports = s.ports := (Quiet.recWrite s typ w0 ws).ports
@[simp] theorem State.recWrite_pickFollowed (s : State) (typ w0 : Nat) (ws : List Nat) : (s.recWrite typ w0 ws).pickFollowed = s.pickFollowed := (Quiet.recWrite s typ w0 ws).pickFollowed
@[simp] theorem State.recWrite_pickSeq (s : State) (typ w0 : Nat) (ws : List Nat) : (s.recWrite typ w0 ws).pickSeq = s.pickSeq := (Quiet.recWrite s typ w0 ws).pickSeq
@[simp] theorem State.recWrite_flipSeq (s : State) (typ w0 : Nat) (ws : List Nat) : (s.recWrite typ w0 ws).flipSeq = s.flipSeq := (Quiet.recWrite s typ w0 ws).flipSeq
@[simp] theorem State.recWrite_refSeq (s : State) (typ w0 : Nat) (ws : List Nat) : (s.recWrite typ w0 ws).refSeq = s.refSeq := (Quiet.recWrite s typ w0 ws).refSeq
@[simp] theorem State.recWrite_comp (s : State) (typ w0 : Nat) (ws : List Nat) : (s.recWrite typ w0 ws).comp = s.comp := (Quiet.recWrite s typ w0 ws).comp
@[simp] theorem State.recWrite_imp (s : State) (typ w0 : Nat) (ws : List Nat) : (s.recWrite typ w0 ws).imp = s.imp := (Quiet.recWrite s typ w0 ws).imp
theorem State.recWrite_sides (s : State) (typ w0 : Nat) (ws : List Nat) : (s.recWrite typ w0 ws).sides.map Side.core = s.sides.map Side.core := (Quiet.recWrite s typ w0 ws).sides
@[simp] theorem State.recWrite_link (s : State) (typ w0 : Nat) (ws : List Nat) : (s.recWrite typ w0 ws).link = s.link := (Quiet.recWrite s typ w0 ws).link
@[simp] theorem State.recWrite_wtu (s : State) (typ w0 : Nat) (ws : List Nat) : (s.recWrite typ w0 ws).wtu = s.wtu := (Quiet.recWrite s typ w0 ws).wtu
@[simp] theorem State.recWrite_tile (s : State) (typ w0 : Nat) (ws : List Nat) : (s.recWrite typ w0 ws).tile = s.tile := (Quiet.recWrite s typ w0 ws).tile
@[simp] theorem State.recWrite_scan (s : State) (typ w0 : Nat) (ws : List Nat) : (s.recWrite typ w0 ws).scan = s.scan := (Quiet.recWrite s typ w0 ws).scan
@[simp] theorem State.recWrite_health (s : State) (typ w0 : Nat) (ws : List Nat) : (s.recWrite typ w0 ws).health = s.health := (Quiet.recWrite s typ w0 ws).health
@[simp] theorem State.recWrite_rail (s : State) (typ w0 : Nat) (ws : List Nat) : (s.recWrite typ w0 ws).rail = s.rail := (Quiet.recWrite s typ w0 ws).rail
@[simp] theorem State.recWrite_house (s : State) (typ w0 : Nat) (ws : List Nat) : (s.recWrite typ w0 ws).house = s.house := (Quiet.recWrite s typ w0 ws).house
@[simp] theorem State.recWrite_arb (s : State) (typ w0 : Nat) (ws : List Nat) : (s.recWrite typ w0 ws).arb = s.arb := (Quiet.recWrite s typ w0 ws).arb
@[simp] theorem State.recWrite_upd (s : State) (typ w0 : Nat) (ws : List Nat) : (s.recWrite typ w0 ws).upd = s.upd := (Quiet.recWrite s typ w0 ws).upd
@[simp] theorem State.recWrite_nvs (s : State) (typ w0 : Nat) (ws : List Nat) : (s.recWrite typ w0 ws).nvs = s.nvs := (Quiet.recWrite s typ w0 ws).nvs
@[simp] theorem State.recWrite_commits (s : State) (typ w0 : Nat) (ws : List Nat) : (s.recWrite typ w0 ws).commits = s.commits := (Quiet.recWrite s typ w0 ws).commits
@[simp] theorem State.recWrite_xing (s : State) (typ w0 : Nat) (ws : List Nat) : (s.recWrite typ w0 ws).xing = s.xing := (Quiet.recWrite s typ w0 ws).xing
@[simp] theorem State.recWrite_latchDone (s : State) (typ w0 : Nat) (ws : List Nat) : (s.recWrite typ w0 ws).latchDone = s.latchDone := (Quiet.recWrite s typ w0 ws).latchDone
@[simp] theorem State.recWrite_evtMask (s : State) (typ w0 : Nat) (ws : List Nat) : (s.recWrite typ w0 ws).evtMask = s.evtMask := (Quiet.recWrite s typ w0 ws).evtMask
@[simp] theorem State.recWrite_runCid (s : State) (typ w0 : Nat) (ws : List Nat) : (s.recWrite typ w0 ws).runCid = s.runCid := (Quiet.recWrite s typ w0 ws).runCid
@[simp] theorem State.recWrite_pending (s : State) (typ w0 : Nat) (ws : List Nat) : (s.recWrite typ w0 ws).pending = s.pending := (Quiet.recWrite s typ w0 ws).pending
@[simp] theorem State.recWrite_freeCtr (s : State) (typ w0 : Nat) (ws : List Nat) : (s.recWrite typ w0 ws).freeCtr = s.freeCtr := (Quiet.recWrite s typ w0 ws).freeCtr

end Sys2Proof.Machine
end

