-- ==== Sys2Proof/WellFormed.lean ====
section
/-! DEFINITION. Which operands of a command the surroundings can supply at all: what a folio can carry (R128, R129), which pages
exist (Table 02-2), how many readings a round has (R241), which channels a bank has (R200). `exec` is total on every term;
these checks say which terms stand for something that can happen. -/

namespace Sys2Proof

/-- The pages that hold a block (Table 02-2). -/
def blockPage (pg : BitVec 8) : Bool :=
  decide (pg.toNat ≤ 0x0A) || decide (0x10 ≤ pg.toNat ∧ pg.toNat ≤ 0x1A) || decide (0x20 ≤ pg.toNat ∧ pg.toNat ≤ 0x23) ||
    decide (0x28 ≤ pg.toNat ∧ pg.toNat ≤ 0x2B)

/-- The words that a folio carries at most (R128). -/
def folioRoom : Nat := 71

/-- The channels of a bank (R200). -/
def channels : Nat := 384

namespace Instr

/-- The page a command names, where it names one. -/
def page? : Instr → Option (BitVec 8)
  | .commit _ pg | .discard _ pg | .snapReq _ pg | .lockSet _ pg | .blkReset _ pg | .blkCtrlEn _ pg _ => some pg
  | .snapshotComplete pg _ | .blkResetDone pg | .xovf pg _ => some pg
  | _ => none

/-- How many words the folio that a command receives carries. -/
def folioWords : Instr → Nat
  | .folioReceive _ _ f _ _ => f.words.length
  | .sigHdrReceive _ ws _ | .sigDataReceive _ ws _ _ | .enumReceive _ ws _ | .timeFolioReceive _ ws _ _ => ws.length
  | .pickLogReceive _ ws | .flipLogReceive _ ws | .refreshRecordReceive _ _ ws | .mgFragmentReceive _ ws | .epochReceive _ _ ws => ws.length
  | .kettleReceive _ _ _ ws _ | .bundleFolioReceive _ _ ws => ws.length
  | _ => 0

/-- The channel of a bank that a command names, where it names one. -/
def channel? : Instr → Option (BitVec 9)
  | .lampStale _ _ ch | .lhmClear _ _ _ ch | .lhmMask _ _ _ ch | .lhmRetest _ _ _ ch | .lhmFaultClr _ _ _ ch => some ch
  | _ => none

/-- The readings and tachometer periods of a housekeeping round (Table 13-1), the classes of a line report, and the rest. -/
def shape : Instr → Bool
  | .hkRoundPublish r t _ => r.length == 20 && t.length == 2
  | .lineSlotStart _ r => r.hdrm.length == 4 && r.tests.all fun t => decide (t.ch.toNat < channels)
  | .swapRequestReceive _ l => decide (l.toNat < 5)
  | _ => true

/-- A command that the surroundings can give. -/
def wf (i : Instr) : Bool :=
  (i.page?.all blockPage) && decide (i.folioWords ≤ folioRoom) && (i.channel?.all fun ch => decide (ch.toNat < channels)) && i.shape

end Instr

end Sys2Proof
end

