-- ==== Sys2Proof/Laws/PerInstr.lean ====
section
/-! SUPPORT. What well-formedness says of each command, in the terms of the machine: the page it names is one of the machine's
block pages, its folio fits a Quire folio, and its channel is one of a bank's. One lemma per constructor of `Instr`. -/

namespace Sys2Proof.Laws.Legal

/-- The operands of a well-formed command are ones that the surroundings can supply (Table 02-2, R128, R204). -/
def Statement (i : Instr) : Prop :=
  i.wf = true → (∀ pg, i.page? = some pg → pg.toNat ∈ Machine.blockPages) ∧ i.folioWords ≤ 71 ∧
    ∀ ch, i.channel? = some ch → ch.toNat < 384

theorem blockPage_mem (pg : BitVec 8) (h : blockPage pg = true) : pg.toNat ∈ Machine.blockPages := by
  simp only [blockPage, Bool.or_eq_true, decide_eq_true_eq] at h
  simp only [Machine.blockPages, List.mem_append, List.mem_range, List.mem_map]
  rcases h with ((h | h) | h) | h
  · exact .inl (.inl (.inl (by omega)))
  · exact .inl (.inl (.inr ⟨pg.toNat - 16, by omega, by omega⟩))
  · exact .inl (.inr ⟨pg.toNat - 32, by omega, by omega⟩)
  · exact .inr ⟨pg.toNat - 40, by omega, by omega⟩

theorem of_wf (i : Instr) : Statement i := by
  intro h
  simp only [Instr.wf, Bool.and_eq_true, decide_eq_true_eq, Option.all_eq_true] at h
  obtain ⟨⟨⟨hp, hw⟩, hc⟩, -⟩ := h
  exact ⟨fun pg e => blockPage_mem pg (hp pg e), hw, fun ch e => by simpa [channels] using hc ch e⟩

theorem por (role bootsel : BitVec 2) : Statement (.por role bootsel) := of_wf _
theorem brownOut : Statement (.brownOut) := of_wf _
theorem resetN : Statement (.resetN) := of_wf _
theorem watchdogExpire : Statement (.watchdogExpire) := of_wf _
theorem stepTimeout (e : StepEnd) : Statement (.stepTimeout e) := of_wf _
theorem stepRestart : Statement (.stepRestart) := of_wf _
theorem startDone (e : StepEnd) : Statement (.startDone e) := of_wf _
theorem softReset (src : Requester) (key : BitVec 8) : Statement (.softReset src key) := of_wf _
theorem softResetApply : Statement (.softResetApply) := of_wf _
theorem pathClr (src : Requester) : Statement (.pathClr src) := of_wf _
theorem qrefclkLoss : Statement (.qrefclkLoss) := of_wf _
theorem pcieRefclkLoss : Statement (.pcieRefclkLoss) := of_wf _
theorem perst : Statement (.perst) := of_wf _
theorem vlfLoss (d : Fin 4) : Statement (.vlfLoss d) := of_wf _
theorem xin32Loss : Statement (.xin32Loss) := of_wf _
theorem wake (w : WakeSource) : Statement (.wake w) := of_wf _
theorem sleepEntry : Statement (.sleepEntry) := of_wf _
theorem registerWrite (src : Requester) (addr : BitVec 32) (size : AccSize) (data : Word) : Statement (.registerWrite src addr size data) := of_wf _
theorem lowHalfRead (src : Requester) (addr : BitVec 32) : Statement (.lowHalfRead src addr) := of_wf _
theorem tableWindowWrite (src : Requester) (addr : BitVec 32) (hi : BitVec 32) : Statement (.tableWindowWrite src addr hi) := of_wf _
theorem bar4Write (addr : Word) (data : List Byte) : Statement (.bar4Write addr data) := of_wf _
theorem commit (src : Requester) (page : BitVec 8) : Statement (.commit src page) := of_wf _
theorem discard (src : Requester) (page : BitVec 8) : Statement (.discard src page) := of_wf _
theorem snapReq (src : Requester) (page : BitVec 8) : Statement (.snapReq src page) := of_wf _
theorem snapshotComplete (page : BitVec 8) (t : Nat) : Statement (.snapshotComplete page t) := of_wf _
theorem counterClear (src : Requester) (addr : BitVec 32) (data : Word) : Statement (.counterClear src addr data) := of_wf _
theorem lockSet (src : Requester) (page : BitVec 8) : Statement (.lockSet src page) := of_wf _
theorem msixUnmask (v : BitVec 6) : Statement (.msixUnmask v) := of_wf _
theorem blkReset (src : Requester) (page : BitVec 8) : Statement (.blkReset src page) := of_wf _
theorem blkResetDone (page : BitVec 8) : Statement (.blkResetDone page) := of_wf _
theorem xovf (page : BitVec 8) (crossing : Word) : Statement (.xovf page crossing) := of_wf _
theorem raRead64 (src : Requester) (t : Nat) : Statement (.raRead64 src t) := of_wf _
theorem raWrite64 (src : Requester) (t : Nat) : Statement (.raWrite64 src t) := of_wf _
theorem raRead72 (src : Requester) (t : Nat) : Statement (.raRead72 src t) := of_wf _
theorem raWrite72 (src : Requester) (t : Nat) : Statement (.raWrite72 src t) := of_wf _
theorem raSnapread (src : Requester) (t : Nat) : Statement (.raSnapread src t) := of_wf _
theorem raCommit (src : Requester) (t : Nat) : Statement (.raCommit src t) := of_wf _
theorem remoteAccessRequest (r : RemoteReq) (t : Nat) : Statement (.remoteAccessRequest r t) := of_wf _
theorem remoteAccessResponse (node : BitVec 6) (id : BitVec 12) (code : BitVec 4) (data : Word72) : Statement (.remoteAccessResponse node id code data) := of_wf _
theorem remoteAccessTimeout (t : Nat) : Statement (.remoteAccessTimeout t) := of_wf _
theorem spiRead64 (addr : BitVec 32) : Statement (.spiRead64 addr) := of_wf _
theorem spiWrite64 (addr : BitVec 32) (data : Word) : Statement (.spiWrite64 addr data) := of_wf _
theorem spiRead72 (addr : BitVec 32) : Statement (.spiRead72 addr) := of_wf _
theorem spiWrite72 (addr : BitVec 32) (data : Word72) : Statement (.spiWrite72 addr data) := of_wf _
theorem tick : Statement (.tick) := of_wf _
theorem latchPoint : Statement (.latchPoint) := of_wf _
theorem feedSlotStart (k : BitVec 2) : Statement (.feedSlotStart k) := of_wf _
theorem schedCommitDeadline : Statement (.schedCommitDeadline) := of_wf _
theorem cancelReceive (r : Req) (frame : BitVec 48) : Statement (.cancelReceive r frame) := of_wf _
theorem schedCommitArm (r : Req) (frame : BitVec 48) (pages : Word) : Statement (.schedCommitArm r frame pages) := of_wf _
theorem ingModeChange (src : Requester) (p : Fin 4) (data : Word) : Statement (.ingModeChange src p data) := of_wf _
theorem edidWrite (src : Requester) (p : Fin 4) (data : Word) : Statement (.edidWrite src p data) := of_wf _
theorem dpLinkTraining (p : Fin 4) (rate : BitVec 2) (lanes : BitVec 2) : Statement (.dpLinkTraining p rate lanes) := of_wf _
theorem auxTransaction (p : Fin 4) (a : AuxReq) : Statement (.auxTransaction p a) := of_wf _
theorem st2110Packet (p : Fin 4) (k : Packet) : Statement (.st2110Packet p k) := of_wf _
theorem streamWrite (src : Requester) (p : Fin 4) (data : Word) : Statement (.streamWrite src p data) := of_wf _
theorem igmpQuery (p : Fin 4) : Statement (.igmpQuery p) := of_wf _
theorem arpRequest (p : Fin 4) (ip : BitVec 32) : Statement (.arpRequest p ip) := of_wf _
theorem sourceFrameStart (p : Fin 4) (f : FrameStart) : Statement (.sourceFrameStart p f) := of_wf _
theorem sourceFrameComplete (p : Fin 4) (t : Nat) : Statement (.sourceFrameComplete p t) := of_wf _
theorem pathLate (p : Fin 4) (upper : Bool) (skewUs packets : Nat) : Statement (.pathLate p upper skewUs packets) := of_wf _
theorem lossOfSignal (p : Fin 4) : Statement (.lossOfSignal p) := of_wf _
theorem pickLogReceive (via : Via) (words : List Word72) : Statement (.pickLogReceive via words) := of_wf _
theorem pickSelf : Statement (.pickSelf) := of_wf _
theorem fenceTimeout (l : BitVec 6) : Statement (.fenceTimeout l) := of_wf _
theorem flipLogReceive (via : Via) (words : List Word72) : Statement (.flipLogReceive via words) := of_wf _
theorem flipSelf : Statement (.flipSelf) := of_wf _
theorem bufRelease (src : Requester) (handle : BitVec 12) : Statement (.bufRelease src handle) := of_wf _
theorem compositionDeadline (e : CompositionEnd) : Statement (.compositionDeadline e) := of_wf _
theorem bankPrepare (src : Requester) (bank : BitVec 1) : Statement (.bankPrepare src bank) := of_wf _
theorem bankPrepareDone (ue : Option (Fin 2 × BitVec 6)) : Statement (.bankPrepareDone ue) := of_wf _
theorem refreshRecordReceive (s : Fin 2) (via : Via) (words : List Word72) : Statement (.refreshRecordReceive s via words) := of_wf _
theorem refreshSelf (s : Fin 2) : Statement (.refreshSelf s) := of_wf _
theorem needFullReceive (s : Fin 2) (node : BitVec 6) (feeds : BitVec 4) : Statement (.needFullReceive s node feeds) := of_wf _
theorem signatureSend (s : Fin 2) (node : BitVec 6) (feed : BitVec 2) (t : Nat) : Statement (.signatureSend s node feed t) := of_wf _
theorem bandReady (s : Fin 2) (node : BitVec 6) (feed : BitVec 2) (row : BitVec 4) (t : Nat) : Statement (.bandReady s node feed row t) := of_wf _
theorem sendDeadline (s : Fin 2) (node : BitVec 6) : Statement (.sendDeadline s node) := of_wf _
theorem laneSignalDetect (s : Fin 2) (l : Fin 5) : Statement (.laneSignalDetect s l) := of_wf _
theorem adaptComplete (s : Fin 2) (l : Fin 5) (e : EyeScan) : Statement (.adaptComplete s l e) := of_wf _
theorem alignLock (s : Fin 2) (l : Fin 5) : Statement (.alignLock s l) := of_wf _
theorem laneVerified (s : Fin 2) (l : Fin 5) : Statement (.laneVerified s l) := of_wf _
theorem verifyFail (s : Fin 2) (l : Fin 5) : Statement (.verifyFail s l) := of_wf _
theorem laneDown (s : Fin 2) (l : Fin 5) (lost : Nat) : Statement (.laneDown s l lost) := of_wf _
theorem laneCountReduce (s : Fin 2) : Statement (.laneCountReduce s) := of_wf _
theorem deskew (s : Fin 2) (l : Fin 5) (lost : Nat) : Statement (.deskew s l lost) := of_wf _
theorem sideUp (s : Fin 2) (t : Nat) : Statement (.sideUp s t) := of_wf _
theorem sideDown (s : Fin 2) : Statement (.sideDown s) := of_wf _
theorem rateStep (s : Fin 2) : Statement (.rateStep s) := of_wf _
theorem retrain (src : Requester) (s : Fin 2) : Statement (.retrain src s) := of_wf _
theorem idleFolioSend (s : Fin 2) : Statement (.idleFolioSend s) := of_wf _
theorem wearWindowEnd (s : Fin 2) (l : Fin 5) (count : Nat) : Statement (.wearWindowEnd s l count) := of_wf _
theorem laneSwapGo (src : Requester) (s : Fin 2) (lane : BitVec 4) : Statement (.laneSwapGo src s lane) := of_wf _
theorem swapRequestReceive (s : Fin 2) (lane : BitVec 3) : Statement (.swapRequestReceive s lane) := of_wf _
theorem swapApply (s : Fin 2) (tx : Bool) : Statement (.swapApply s tx) := of_wf _
theorem folioReceive (s : Fin 2) (l : Fin 5) (f : Folio) (decoded : Bool) (latencyNs : BitVec 16) : Statement (.folioReceive s l f decoded latencyNs) := of_wf _
theorem sigHdrReceive (st : Fin 2) (words : List Word72) (t : Nat) : Statement (.sigHdrReceive st words t) := of_wf _
theorem sigDataReceive (st : Fin 2) (words : List Word72) (last : Bool) (t : Nat) : Statement (.sigDataReceive st words last t) := of_wf _
theorem needFullRetry : Statement (.needFullRetry) := of_wf _
theorem signatureExpire (st : Fin 2) : Statement (.signatureExpire st) := of_wf _
theorem enumGo (src : Requester) (side : Fin 2) : Statement (.enumGo src side) := of_wf _
theorem enumReceive (s : Fin 2) (words : List Word72) (hops : BitVec 6) : Statement (.enumReceive s words hops) := of_wf _
theorem enumDone (s : Fin 2) (acks : Word) (moved : Bool) : Statement (.enumDone s acks moved) := of_wf _
theorem linkUpReceive (s : Fin 2) (tile : BitVec 6) : Statement (.linkUpReceive s tile) := of_wf _
theorem mgFragmentReceive (via : Via) (words : List Word72) : Statement (.mgFragmentReceive via words) := of_wf _
theorem fragTimeout (srcQn : BitVec 18) : Statement (.fragTimeout srcQn) := of_wf _
theorem streamLoss (st : Fin 2) : Statement (.streamLoss st) := of_wf _
theorem streamRestore (st : Fin 2) : Statement (.streamRestore st) := of_wf _
theorem breakReceive (s : Fin 2) (tile : BitVec 6) (side : Fin 2) : Statement (.breakReceive s tile side) := of_wf _
theorem timeFolioSend (s : Fin 2) (t : Nat) : Statement (.timeFolioSend s t) := of_wf _
theorem timeFolioReceive (s : Fin 2) (words : List Word72) (rx : Nat) (seq : BitVec 12) : Statement (.timeFolioReceive s words rx seq) := of_wf _
theorem parentTimeout : Statement (.parentTimeout) := of_wf _
theorem sourceChange (code : BitVec 3) (valid : Bool) : Statement (.sourceChange code valid) := of_wf _
theorem servoLock : Statement (.servoLock) := of_wf _
theorem tbArm (src : Requester) (data : Word) : Statement (.tbArm src data) := of_wf _
theorem ptpMessage (d : Fin 2) (m : PtpMsg) : Statement (.ptpMessage d m) := of_wf _
theorem ptpAnnounceTimeout (d : Fin 2) : Statement (.ptpAnnounceTimeout d) := of_wf _
theorem glkEdge (t : Nat) (valid : Bool) : Statement (.glkEdge t valid) := of_wf _
theorem glkLoss : Statement (.glkLoss) := of_wf _
theorem ppsEdge (t : Nat) (valid : Bool) : Statement (.ppsEdge t valid) := of_wf _
theorem ppsLoss : Statement (.ppsLoss) := of_wf _
theorem ppsOutPulse (sec : Nat) : Statement (.ppsOutPulse sec) := of_wf _
theorem tickOutPulse (frame : BitVec 48) (feed : BitVec 2) : Statement (.tickOutPulse frame feed) := of_wf _
theorem fwinEdge (t : Nat) : Statement (.fwinEdge t) := of_wf _
theorem fwinDecision : Statement (.fwinDecision) := of_wf _
theorem fwinLoss : Statement (.fwinLoss) := of_wf _
theorem fwinResume : Statement (.fwinResume) := of_wf _
theorem captureEdge (input : BitVec 5) (rising : Bool) (t : Nat) : Statement (.captureEdge input rising t) := of_wf _
theorem triggerPulse (k : Fin 4) (n : Nat) : Statement (.triggerPulse k n) := of_wf _
theorem geomWrite (src : Requester) (data : Word) : Statement (.geomWrite src data) := of_wf _
theorem pressStart (ue : List Nat) : Statement (.pressStart ue) := of_wf _
theorem pressComplete (ns : BitVec 32) : Statement (.pressComplete ns) := of_wf _
theorem ageSaveGo (src : Requester) : Statement (.ageSaveGo src) := of_wf _
theorem ageSaveDone : Statement (.ageSaveDone) := of_wf _
theorem lineSlotStart (d : Fin 4) (r : LineReport) : Statement (.lineSlotStart d r) := of_wf _
theorem underrunShutdown (d : Fin 4) : Statement (.underrunShutdown d) := of_wf _
theorem pllUnlock (d : Fin 4) : Statement (.pllUnlock d) := of_wf _
theorem irefFault (d : Fin 4) (rirefOhm : Option Nat) : Statement (.irefFault d rirefOhm) := of_wf _
theorem dieLinkDown (d : Fin 4) : Statement (.dieLinkDown d) := of_wf _
theorem lampEn (src : Requester) (v : Bool) : Statement (.lampEn src v) := of_wf _
theorem blkCtrlEn (src : Requester) (page : BitVec 8) (v : Bool) : Statement (.blkCtrlEn src page v) := of_wf _
theorem bankStart (d : Fin 4) : Statement (.bankStart d) := of_wf _
theorem stringTransmit (d : Fin 4) : Statement (.stringTransmit d) := of_wf _
theorem lampStale (d : Fin 4) (row : BitVec 7) (ch : BitVec 9) : Statement (.lampStale d row ch) := of_wf _
theorem lhmClear (src : Requester) (d : Fin 4) (row : BitVec 7) (ch : BitVec 9) : Statement (.lhmClear src d row ch) := of_wf _
theorem lhmMask (src : Requester) (d : Fin 4) (row : BitVec 7) (ch : BitVec 9) : Statement (.lhmMask src d row ch) := of_wf _
theorem lhmRetest (src : Requester) (d : Fin 4) (row : BitVec 7) (ch : BitVec 9) : Statement (.lhmRetest src d row ch) := of_wf _
theorem lhmFaultClr (src : Requester) (d : Fin 4) (row : BitVec 7) (ch : BitVec 9) : Statement (.lhmFaultClr src d row ch) := of_wf _
theorem lhmCmdDone : Statement (.lhmCmdDone) := of_wf _
theorem loopEnable (src : Requester) (k : Fin 8) (data : Word) : Statement (.loopEnable src k data) := of_wf _
theorem rceSample (k : Fin 8) (dt : Nat) (costNs : Nat) (late : Bool) : Statement (.rceSample k dt costNs late) := of_wf _
theorem profileUpdate (k : Fin 8) (jerk : Int) : Statement (.profileUpdate k jerk) := of_wf _
theorem profGo (src : Requester) (k : Fin 8) : Statement (.profGo src k) := of_wf _
theorem profRelease (src : Requester) (k : Fin 8) : Statement (.profRelease src k) := of_wf _
theorem loopResume (src : Requester) (k : Fin 8) : Statement (.loopResume src k) := of_wf _
theorem holdLimit (k : Fin 8) : Statement (.holdLimit k) := of_wf _
theorem pmbusWrite : Statement (.pmbusWrite) := of_wf _
theorem pmbusTimeout (k : Fin 8) : Statement (.pmbusTimeout k) := of_wf _
theorem housekeepingRound (t : Nat) : Statement (.housekeepingRound t) := of_wf _
theorem hkRoundPublish (readings : List Int) (tach : List Nat) (late : BitVec 8) : Statement (.hkRoundPublish readings tach late) := of_wf _
theorem threshWrite (src : Requester) (data : Word) : Statement (.threshWrite src data) := of_wf _
theorem comparatorTrip (k : Fin 5) (absolute : Bool) : Statement (.comparatorTrip k absolute) := of_wf _
theorem shutdownGraceEnd : Statement (.shutdownGraceEnd) := of_wf _
theorem thermalRecovery : Statement (.thermalRecovery) := of_wf _
theorem throttleReqRepeat : Statement (.throttleReqRepeat) := of_wf _
theorem graceExpire : Statement (.graceExpire) := of_wf _
theorem trimCycle (r : TrimResult) : Statement (.trimCycle r) := of_wf _
theorem trimDataWrite (src : Requester) (v : BitVec 8) (t : Nat) : Statement (.trimDataWrite src v t) := of_wf _
theorem doorbell (src : Requester) (q : BitVec 12) (tail : BitVec 17) : Statement (.doorbell src q tail) := of_wf _
theorem consume (src : Requester) (q : BitVec 12) (head : BitVec 17) : Statement (.consume src q head) := of_wf _
theorem proxyMessageReceive (dst : BitVec 12) (srcQn : BitVec 18) (id : BitVec 12) (body : List Word) : Statement (.proxyMessageReceive dst srcQn id body) := of_wf _
theorem evtOverflow (q : BitVec 12) : Statement (.evtOverflow q) := of_wf _
theorem taskWakeTimeout (acts : List (Nat × TaskAct)) (task : BitVec 16) (us : Nat) : Statement (.taskWakeTimeout acts task us) := of_wf _
theorem traceFreeze (src : Requester) : Statement (.traceFreeze src) := of_wf _
theorem traceUnfreeze (src : Requester) : Statement (.traceUnfreeze src) := of_wf _
theorem info (r : Req) : Statement (.info r) := of_wf _
theorem echo (r : Req) (words : List Word) : Statement (.echo r words) := of_wf _
theorem schedCommit (r : Req) (frame : BitVec 48) (pages : Word) (nodes : Word) : Statement (.schedCommit r frame pages nodes) := of_wf _
theorem schedCancel (r : Req) (frame : BitVec 48) (nodes : Word) : Statement (.schedCancel r frame nodes) := of_wf _
theorem policyLoad (r : Req) (nodes : Word) (p : PolicyTable) : Statement (.policyLoad r nodes p) := of_wf _
theorem policyRead (r : Req) (id : BitVec 16) : Statement (.policyRead r id) := of_wf _
theorem power (r : Req) (state : BitVec 2) : Statement (.power r state) := of_wf _
theorem bulkRead (r : Req) (node : BitVec 6) (addr : BitVec 32) (count : BitVec 16) : Statement (.bulkRead r node addr count) := of_wf _
theorem bulkWrite (r : Req) (node : BitVec 6) (addr : BitVec 32) (words : List Word72) : Statement (.bulkWrite r node addr words) := of_wf _
theorem eventMask (r : Req) (mask : Word) : Statement (.eventMask r mask) := of_wf _
theorem ledgerRead (r : Req) (start : BitVec 12) : Statement (.ledgerRead r start) := of_wf _
theorem kettleSend (atTick : Bool) (t : Nat) : Statement (.kettleSend atTick t) := of_wf _
theorem kettleReceive (s : Fin 2) (via : Via) (node : BitVec 6) (words : List Word72) (t : Nat) : Statement (.kettleReceive s via node words t) := of_wf _
theorem epochReceive (s : Fin 2) (via : Via) (words : List Word72) : Statement (.epochReceive s via words) := of_wf _
theorem senderStartEnd (s : Fin 2) (t : Nat) : Statement (.senderStartEnd s t) := of_wf _
theorem peerLost (s : Fin 2) (t : Nat) : Statement (.peerLost s t) := of_wf _
theorem epochReqRetry (s : Fin 2) (t : Nat) : Statement (.epochReqRetry s t) := of_wf _
theorem epochReqResponse (s : Fin 2) (granted : Bool) (epoch : BitVec 32) (id : BitVec 12) (t : Nat) : Statement (.epochReqResponse s granted epoch id t) := of_wf _
theorem epochReq (r : Req) (epoch : BitVec 32) (t : Nat) : Statement (.epochReq r epoch t) := of_wf _
theorem arbiterHoldExpire (t : Nat) : Statement (.arbiterHoldExpire t) := of_wf _
theorem takeover (s : Fin 2) (t : Nat) : Statement (.takeover s t) := of_wf _
theorem arbStatus (r : Req) (side : Fin 2) : Statement (.arbStatus r side) := of_wf _
theorem swap (r : Req) (side : Fin 2) (apply : BitVec 48) (t : Nat) : Statement (.swap r side apply t) := of_wf _
theorem swapGo (src : Requester) (side : Fin 2) (t : Nat) : Statement (.swapGo src side t) := of_wf _
theorem take (r : Req) (side : Fin 2) : Statement (.take r side) := of_wf _
theorem swapTake (src : Requester) (side : Fin 2) : Statement (.swapTake src side) := of_wf _
theorem rehearse (r : Req) (side : Fin 2) (t : Nat) : Statement (.rehearse r side t) := of_wf _
theorem rehGo (src : Requester) (side : Fin 2) (t : Nat) : Statement (.rehGo src side t) := of_wf _
theorem rehearsalStart (s : Fin 2) (t : Nat) : Statement (.rehearsalStart s t) := of_wf _
theorem rehearsalFail (s : Fin 2) (result : BitVec 3) (t : Nat) : Statement (.rehearsalFail s result t) := of_wf _
theorem rehearsalHoldEnd (s : Fin 2) (t : Nat) : Statement (.rehearsalHoldEnd s t) := of_wf _
theorem saveGo (src : Requester) : Statement (.saveGo src) := of_wf _
theorem generationSaveStart (area : Fin 3) : Statement (.generationSaveStart area) := of_wf _
theorem generationSaveDone : Statement (.generationSaveDone) := of_wf _
theorem journalRecordDone : Statement (.journalRecordDone) := of_wf _
theorem stage (r : Req) (addr : Word) (length : BitVec 32) (sides : BitVec 2) : Statement (.stage r addr length sides) := of_wf _
theorem bundleFolioReceive (s : Fin 2) (via : Via) (words : List Word72) : Statement (.bundleFolioReceive s via words) := of_wf _
theorem passIdle : Statement (.passIdle) := of_wf _
theorem bundlePassStart : Statement (.bundlePassStart) := of_wf _
theorem updStatus (r : Req) : Statement (.updStatus r) := of_wf _
theorem activate (r : Req) (cid : BitVec 32) (frame : BitVec 48) (nodeKind : Bool) (mask : Word) : Statement (.activate r cid frame nodeKind mask) := of_wf _
theorem prepareReceive (r : Req) (cid : BitVec 32) : Statement (.prepareReceive r cid) := of_wf _
theorem prepareTimeout : Statement (.prepareTimeout) := of_wf _
theorem actCommitReceive (r : Req) (c : ActCommit) : Statement (.actCommitReceive r c) := of_wf _
theorem armDeadline (armed : Bool) : Statement (.armDeadline armed) := of_wf _
theorem abortReceive : Statement (.abortReceive) := of_wf _
theorem activatedRepeat : Statement (.activatedRepeat) := of_wf _
theorem activatedReceive (ring : BitVec 6) (node : BitVec 6) (cid : BitVec 32) : Statement (.activatedReceive ring node cid) := of_wf _
theorem relightReceive : Statement (.relightReceive) := of_wf _
theorem relightDeadline : Statement (.relightDeadline) := of_wf _
theorem confirm (r : Req) (actNo : BitVec 32) : Statement (.confirm r actNo) := of_wf _
theorem autoConfirm : Statement (.autoConfirm) := of_wf _
theorem confirmRepeat : Statement (.confirmRepeat) := of_wf _
theorem confirmReceive (r : Req) : Statement (.confirmReceive r) := of_wf _
theorem fallback (r : Req) (actNo : BitVec 32) : Statement (.fallback r actNo) := of_wf _
theorem fallbackReqReceive (ring : BitVec 6) (node : BitVec 6) : Statement (.fallbackReqReceive ring node) := of_wf _
theorem fallbackOrderReceive (frame : BitVec 48) : Statement (.fallbackOrderReceive frame) := of_wf _
theorem fallbackReqRepeat : Statement (.fallbackReqRepeat) := of_wf _
theorem fallbackAlone : Statement (.fallbackAlone) := of_wf _
theorem enroll (r : Req) (slot : BitVec 3) (key : Nat) (unitId : Word) (rootKey sig : Nat) : Statement (.enroll r slot key unitId rootKey sig) := of_wf _
theorem revoke (r : Req) (slot : BitVec 3) (unitId : Word) (rootKey sig : Nat) : Statement (.revoke r slot unitId rootKey sig) := of_wf _
theorem peers (r : Req) (table : List (BitVec 32 × BitVec 6)) : Statement (.peers r table) := of_wf _
theorem abort (r : Req) (actNo : BitVec 32) : Statement (.abort r actNo) := of_wf _
theorem updClear (src : Requester) : Statement (.updClear src) := of_wf _
theorem recCtrlMode (src : Requester) (mode : BitVec 2) : Statement (.recCtrlMode src mode) := of_wf _
theorem recTrig (src : Requester) : Statement (.recTrig src) := of_wf _
theorem recArm (src : Requester) : Statement (.recArm src) := of_wf _
theorem ringFreeze : Statement (.ringFreeze) := of_wf _
theorem captureComplete : Statement (.captureComplete) := of_wf _
theorem replayGo (src : Requester) : Statement (.replayGo src) := of_wf _
theorem replayDone : Statement (.replayDone) := of_wf _
theorem recMode (r : Req) (mode : BitVec 2) (nodes : Word) : Statement (.recMode r mode nodes) := of_wf _
theorem recTrigger (r : Req) (frame : BitVec 48) (nodes : Word) : Statement (.recTrigger r frame nodes) := of_wf _
theorem replay (r : Req) : Statement (.replay r) := of_wf _
theorem startStepEnd (e : StepEnd) (w : StepWork) : Statement (.startStepEnd e w) := of_wf _
theorem gclkPllLock (d : Fin 4) (t : Nat) : Statement (.gclkPllLock d t) := of_wf _
theorem dieLinkUp (d : Fin 4) : Statement (.dieLinkUp d) := of_wf _
theorem irefRestore (d : Fin 4) (rirefOhm : Nat) : Statement (.irefRestore d rirefOhm) := of_wf _
theorem qrefclkReturn : Statement (.qrefclkReturn) := of_wf _
theorem pcieRefclkReturn : Statement (.pcieRefclkReturn) := of_wf _
theorem ingBlockLockChange (p : Fin 4) (locked : Bool) : Statement (.ingBlockLockChange p locked) := of_wf _
theorem prepareVoteReceive (ring : BitVec 6) (node : BitVec 6) (ready : Bool) (reason : BitVec 4) : Statement (.prepareVoteReceive ring node ready reason) := of_wf _
theorem schedArmedReceive (node : BitVec 6) : Statement (.schedArmedReceive node) := of_wf _
theorem ringCompleteReceive (ring : BitVec 6) : Statement (.ringCompleteReceive ring) := of_wf _
theorem confirmAckReceive (ring : BitVec 6) (node : BitVec 6) : Statement (.confirmAckReceive ring node) := of_wf _

end Sys2Proof.Laws.Legal
end

