-- ==== Sys2Proof/Tests/Slice0.lean ====
section
/-! SUPPORT. Tests: the well-formedness checks, the table's words, the step, and for every statement with hypotheses states and
operands that meet them, clause by clause in the statement's order. -/

namespace Sys2Proof.Tests

open Sys2Proof Sys2Proof.Machine

set_option Elab.async false

/-! ### States for the tests -/

/-- The state after reset with its register tables emptied, so that every field reads as 0. -/
def bare : State :=
  { State.reset with live := [], shadow := [], latched := [], committed := [], scan := { Scan.reset with plan := [], next := [] } }

/-- `bare` with every block enabled and some fields written. -/
def st (l : List (Fld × Nat)) : State := 
  (blockPages.map (fun pg => (BLK_CTRL_EN pg, 1)) ++ l).foldl (fun (s : State) (e : Fld × Nat) => s.wr e.1 e.2) bare

/-- The role: 0 TILE, 1 SENDER, 2 BENCH. -/
def R (n : Nat) : Fld × Nat := (HIF_STRAP_STAT_ROLE, n)

/-- Words with a tag in their top byte, closed by a CRC word (Tables 03-5, 04-8, 05-5). -/
def logRecord (tags body : List Nat) : List Word72 :=
  let ws := (tags.dropLast.zip body).map fun e => e.1 * 2 ^ 64 + e.2 % 2 ^ 64
  (ws ++ [tags.getLastD 0 * 2 ^ 64 + crc32 (ws.flatMap fun w => leBytes 8 (w % 2 ^ 64))]).map (BitVec.ofNat 72)

/-- The invariant as a check. -/
def invB (s : State) : Bool :=
  s.live.wf && s.shadow.wf && s.latched.wf && s.committed.wf && s.snapd.wf && s.win.wf && s.winShadow.wf && s.winLatched.wf &&
  s.winCommitted.wf && s.mem.wf && s.xing.wf && s.imp.statSnap.wf &&
  decide (s.ports.length = 4 ∧ s.sides.length = 2 ∧ s.arb.length = 2 ∧ (∀ x ∈ s.ports, x.bufs.length = 4) ∧
    (∀ p ∈ s.comp.pend, p.layer < 64 ∧ p.desc.length = 16) ∧ s.imp.need.length = 2 ∧ s.imp.refMask.length = 2 ∧ s.wtu.links.length = 2 ∧
    s.wtu.ptp.length = 2 ∧ s.upd.slots.length = 2 ∧ (∀ t ∈ s.upd.slots, Tbl.wf t = true) ∧ s.upd.keys.length = 4 ∧ s.upd.revoked.length = 4 ∧
    s.nvs.setGens.length = 2 ∧ s.nvs.tblGens.length = 2 ∧ (∀ x ∈ s.arb, x.heard.length = 2) ∧ s.scan.banks.length = 4) &&
  decide (s.health.cur.rows.length = 4 ∧ s.health.cur.cols.length = 4 ∧ s.health.cur.supp.length = 4 ∧ s.ctl.tasks.run.length = 7 ∧
    s.tile.sigs.length = 2 ∧ (∀ g ∈ s.tile.sigs, ∀ x ∈ g.toList, x.feed < 4 ∧ ∀ l ∈ x.leaves, l < 256) ∧ s.tile.results.length = 2 ∧
    (∀ r ∈ s.tile.results, r.length = 4) ∧ s.nvs.ageSlots.length = 2 ∧ s.rail.loops.length = 8)

/-- The check decides the invariant. -/
theorem inv_of_invB {s : State} (h : invB s = true) : s.Inv := by
  simp only [invB, Bool.and_eq_true, decide_eq_true_eq] at h
  obtain ⟨⟨⟨⟨⟨⟨⟨⟨⟨⟨⟨⟨⟨h1, h2⟩, h3⟩, h4⟩, h5⟩, h6⟩, h7⟩, h8⟩, h9⟩, h10⟩, h11⟩, h12⟩, a1, a2, a3, a4, a5, a6, a7, a8, a9, a10, a11, a12, a13,
    a14, a15, a16, a17⟩, b1, b2, b3, b4, b5, b6, b7, b8, b9, b10⟩ := h
  exact ⟨h1, h2, h3, h4, h5, h6, h7, h8, h9, h10, a1, a2, a3, a4, a5, a6, a7, a8, a9, h11, h12, ⟨a10, a11⟩, ⟨a12, a13⟩, ⟨a14, a15⟩, a16, a17,
    ⟨b1, b2, b3⟩, b4, ⟨b5, fun g hg => b6 _ hg g (by simp)⟩, ⟨b7, b8⟩, b9, b10⟩

/-- Every hypothesis of a list holds. -/
abbrev Met (l : List Bool) : Prop := l.all id = true

/-! ### Well-formed commands (Sys2Proof/WellFormed.lean) -/

/-- A page that holds no block is refused, one that does is not (Table 02-2). -/
theorem test_wf_page : Instr.wf (.commit .pcie 0x0B) = false ∧ Instr.wf (.commit .pcie 0x0A) = true := by decide

/-- A folio carries at most 71 words (R128). -/
theorem test_wf_folio : Instr.wf (.pickLogReceive .ring (List.replicate 72 0)) = false ∧
    Instr.wf (.pickLogReceive .ring (List.replicate 71 0)) = true := by decide

/-- A bank has 384 channels (R200). -/
theorem test_wf_channel : Instr.wf (.lampStale 0 0 384) = false ∧ Instr.wf (.lampStale 0 0 383) = true := by decide

/-- A housekeeping round has 20 readings and 2 tachometer periods (R241); a side has 5 lanes (R119). -/
theorem test_wf_shape : Instr.wf (.hkRoundPublish [] [0, 0] 0) = false ∧ Instr.wf (.hkRoundPublish (List.replicate 20 0) [0, 0] 0) = true ∧
    Instr.wf (.swapRequestReceive 0 5) = false ∧ Instr.wf (.swapRequestReceive 0 4) = true := by decide

/-! ### Words and steps -/

/-- No word spells a command: the table gives no row any bits. -/
theorem test_no_word : decodeTableWord 8 0 = none ∧ bare.withFetchWord 8 0 = bare := ⟨rfl, rfl⟩

/-- A step runs the front command with the queue's rest; on an empty queue the part idles. -/
theorem test_step : step { bare with pending := [.xin32Loss, .tick] } = .next { bare with pending := [.tick] } ∧ step bare = .next bare :=
  ⟨rfl, rfl⟩

/-- A queue with a front command, for the step statement; the invariant of a state that steps, for the invariant statement. -/
theorem test_hyps_step : ({ bare with pending := [.tick] } : State).pending = .tick :: [] ∧ bare.Inv ∧ step bare = .next bare :=
  ⟨rfl, inv_of_invB (by decide +kernel), rfl⟩

/-- A state in which notes leave frame memory alone. -/
theorem test_quiet_memory : bare.quietMem := by
  refine ⟨Or.inl (by decide +kernel), fun q _ => ?_⟩
  have h : bare.word (qDesc q 0) = 0 := rfl
  simp [State.queue, h, bitOf]

/-! ### Intake (03) -/

/-- A port in a mode, on a sender. -/
def port (m : Nat) : State := st [R 1, (ING_CFG_MODE 3, m)]

/-- Packets of the stream whose registers are all 0, one of another stream. -/
def pkt (ip : BitVec 32) (stored : Bool) : Packet := ⟨ip, 0, 0, 0, 64, 2, [], stored⟩

/-- A datagram from the partner whose address and port are 5 and 7. -/
def ether : List (Fld × Nat) := [(ARB_ETH_ETH_EN, 1), (ARB_ETH_PEER_IP, 5), (ARB_ETH_UDP, 7)]

theorem test_hyps_intake_events : Met [
    decide ((port 1).ingRun 3 = 1),
    (let s := { port 2 with ports := List.replicate 4 { Port.reset with joined := true, cur := some 3 } }
     decide (s.ingRun 3 = 2 ∧ (s.port 3).joined = true ∧ (0 : BitVec 32).toNat = s.rd (ING_STREAM_SRC_LOCAL_IP 3) ∧
       s.streamMatch 3 (pkt 1 true) = false ∧ s.streamMatch 3 (pkt 0 true) = true ∧ (s.port (s.ingLower 3)).cur = some 3 ∧
       (pkt 0 true).stored = true ∧ (pkt 0 false).stored = false ∧ ((port 2).port 3).cur = none)),
    invB (port 1) && invB (port 2),
    decide ((port 1).ingRun 3 ≠ 0 ∧ (port 2).ingRun 3 = 2 ∧ (port 2).rd (ING_SRC_STAT_LINK 3) ≠ b2n true),
    decide ((port 1).rd (ING_PICK_STAT_STATE 3) = 0 ∧ (port 1).rd (ING_SRC_STAT_LOS 3) ≠ 1),
    (let s := st [R 1, (ING_CFG_MODE 2, 2), (ING_CFG_PAIR 2, 1), (ING_TIMING_SKEW_US 2, 4)]
     invB s && decide (s.on (ING_CFG_PAIR 2) = true ∧ s.ingRun 2 = 2 ∧ s.rd (ING_TIMING_SKEW_US 2) < 5))] := by decide +kernel

theorem test_hyps_source_frames : Met [
    invB (port 1), decide ((port 1).ingRun 3 ≠ 0 ∧ (port 1).ingUpper 3 = false),
    (let s := { port 1 with ports := List.replicate 4 { Port.reset with cur := some 3 } }
     invB s && decide (s.dataOn = true ∧ (s.port 3).cur = some 3 ∧ (s.port 3).lost = false)),
    (let s := { port 1 with ports := List.replicate 4 { Port.reset with cur := some 3, lost := true } }
     invB s && decide (s.dataOn = true ∧ (s.port 3).cur = some 3 ∧ (s.port 3).lost = true))] := by decide +kernel

theorem test_hyps_picks_of_a_standby : Met [
    (let s := st ([R 1, (ARB_STAT_STATE 0, 3), (ARB_STAT_STATE 1, 3)] ++ ether)
     invB s && decide (s.isSender = true ∧ s.anyActive = false ∧ s.pickFollowed = false ∧ s.accepts .ring = true ∧
       s.accepts (.datagram 5 7) = true) &&
       pickLogValid ((logRecord [0xA1, 0xA2, 0xA3, 0xA2, 0xA3, 0xA2, 0xA3, 0xA2, 0xA3, 0xA4]
         [1 + 0xF * 2 ^ 48, 5, 77, 1, 2, 3, 4, 5, 6]).map BitVec.toNat) (s.frame + 1)),
    (let s := { st [R 1, (ARB_STAT_STATE 0, 3), (ARB_STAT_STATE 1, 3), (ING_CFG_MODE 3, 1)] with latchDone := true }
     invB s && decide (s.isSender = true ∧ s.anyActive = false ∧ s.pickFollowed = false ∧ s.latchDone = true ∧ 3 ∈ s.pickPorts))] := by
  decide +kernel

/-! ### Composition (04) and imposition (05) -/

theorem test_hyps_frame_memory_and_flips : Met [
    (let s := st [R 1, (FMC_MEM_CFG_CAP_GIB, 2)]
     decide (s.isTile = false ∧ s.role ≠ 3 ∧ 2 ^ 31 - 2 + 2 ≤ s.rd FMC_MEM_CFG_CAP_GIB * 2 ^ 30 ∧ s.guardHit (2 ^ 31 - 2) 2 = none ∧
       s.rd FMC_MEM_CFG_CAP_GIB * 2 ^ 30 < 2 ^ 31 - 1 + 2)),
    (let s := st [R 2, (FMC_MEM_CFG_CAP_GIB, 2), (CMP_WB_CTRL_EN, 1), (CMP_WB_CTRL_BASE, 4000), (CMP_WB_SIZE_STRIDE, 64), (CMP_WB_SIZE_H, 10)]
     decide (s.isTile = false ∧ s.role ≠ 3) && (List.range 12).any fun i => (s.guardHit (4000 * 4 ^ i) 2).isSome),
    (let p : LayerPend := ⟨63, List.replicate 16 5, 3⟩
     let s := { st [R 1, (CMP_FLIP_FENCE_TMO, 3), (CMP_FLIP_FLIPLOG_EN, 1)] with comp := { Comp.reset with pend := [p], own := some ⟨1, 2, 0⟩ } }
     invB s && decide (p ∈ s.comp.pend ∧ p.layer = (63 : BitVec 6).toNat ∧ s.rd CMP_FLIP_FENCE_TMO ≤ p.wait ∧ s.comp.own = some ⟨1, 2, 0⟩ ∧
       s.isSender = true ∧ s.accepts .ring = true ∧ s.on CMP_FLIP_FLIPLOG_EN = true) &&
       flipLogValid ((logRecord [0xB1, 0xB2, 0xB3, 0xB4, 0xB5] [1, 3, 0, 4, 0]).map BitVec.toNat) (s.frame + 1))] := by decide +kernel

/-- A sender whose side 0 is up, with a tile of one leaf at index 1; with `slice`, an SLICE layer of the frame that runs lies over it. -/
def press (slice : Bool) : State :=
  let s := st [R 1, (IMP_CTRL_SIDE_EN, 3), (WTU_TB_RATE_NUM, 60000), (WTU_TB_RATE_DEN, 1000), (WTU_TB_T0S_SEC, 1000), (QP_SIDE_STAT_STATE 0, 2)]
  { s with
    win := (s.win.set (slotKey 0 0 1 0) (BitVec.ofNat 72 (1 + 1 * 32 + 1024))).set (slotKey 0 0 1 1) (BitVec.ofNat 72 (15 * 2 ^ 20))
    sides := [{ Side.reset with txAct := 4, txLog := [0, 1, 2, 3, 7] }, Side.reset]
    comp := { s.comp with run := if slice then
      [⟨3, (List.range 16).map fun i => if i = 0 then BitVec.ofNat 72 (2 ^ 12 + 2 ^ 13 + 0xF * 2 ^ 14) else 5, none, none, 0⟩] else [] } }

theorem test_hyps_signatures_leave : Met [
    (let s := press false
     invB s && ((s.dueSigs 0 (s.tickTime s.frame)).head? == some ((1 : BitVec 6).toNat, (0 : BitVec 2).toNat)) && s.sideTurn 0 (s.tickTime s.frame)),
    (let s := press false
     decide (s.egress 0 1 = true ∧ 0 < s.feeds ∧ (s.sigLeaves 0 1 0).1 ≠ [] ∧ s.sigSent 0 1 0 = false ∧ s.openSlice 0 1 0 = none)),
    (let s := press true
     invB s && decide (s.egress 0 1 = true ∧ s.sigSent 0 1 0 = false ∧ (0 : BitVec 2).toNat < s.feeds ∧ s.sliceTile 0 1 0 = true ∧
       s.imp.ready.contains (0, 1, 0, 0) = false ∧ s.imp.lastBand = none ∧
       (leafRows (s.slotLW s.bank 0 1) (s.sigLeaves 0 1 0).1).contains (0 : BitVec 4).toNat = true ∧ s.nextRow 0 1 0 = some 0 ∧
       1 < s.folioRoom 0 (s.startAt 0 (s.tickTime s.frame)) (s.sendBy 0 1)))] := by decide +kernel

theorem test_hyps_refresh_requests : Met [
    (let s := { st ([R 1, (IMP_CTRL_REFLOG_EN, 1), (ARB_STAT_STATE 0, 3), (QLK_CFG_RING_A, 5)] ++ ether) with latchDone := true }
     let ws := logRecord [0xC1, 0xC2, 0xC3, 0xC4] [1, 5, 0x18]
     invB s && decide (s.isSender = true ∧ s.sideActive 0 = false ∧ s.on IMP_CTRL_REFLOG_EN = true ∧ s.imp.refMask.getD 0 none = none ∧
       s.accepts (.datagram 5 7) = true ∧ s.latchDone = true ∧ (ws.getD 1 0).toNat % 64 = s.rd QLK_CFG_RING_A) &&
       refLogValid (ws.map BitVec.toNat) (s.frame + 1))] := by
  decide +kernel

theorem test_hyps_preparation_and_composition_end : Met [
    (let s := { st [R 1] with imp := { Impo.reset with prep := some 1 } }
     decide (s.imp.prep = some 1 ∧ 1 < 2 ∧ ∀ e ∈ s.validTiles 1, (s.prepSlot 1 e.1 e.2).1 = 0)),
    (let t : State := press true
     let d : List Word72 := [BitVec.ofNat 72 (2 ^ 12), 0, 0]
     let s : State := { t.wr CMP_WB_CTRL_EN 1 |>.wr CMP_WB_CTRL_FEED_MASK 1 with comp := { t.comp with run := [⟨3, d, none, none, 0⟩] } }
     let e : CompositionEnd := ⟨1, [(1, 62, 0, 255)], 8, 1, 8, 5⟩
     decide (s.isTile = false ∧ s.role ≠ 3 ∧ s.dataOn = true ∧ e.late.toNat % 2 ^ s.feeds ≠ 0 ∧ e.holes.toNat.testBit 3 = true ∧
       (e.late.toNat % 2 ^ s.feeds).testBit 0 = true ∧ 0 < s.feeds ∧ s.on CMP_WB_CTRL_EN = true ∧
       (s.rd CMP_WB_CTRL_FEED_MASK).testBit 0 = true ∧ e.wbMissed.toNat.testBit 0 = true ∧ e.pass1Late.toNat.testBit 3 = true))] := by
  decide +kernel

/-! ### Quire (06, 07) -/

/-- A side whose lanes are all in a state. -/
def lanes (r n : Nat) (l : List (Fld × Nat)) : State :=
  st ([R r] ++ ((List.range 5).map fun k => (QP_LANE_STAT_STATE 0 k, n)) ++ l)

/-- A state with another side 0. -/
def side0 (x : Side) (s : State) : State := { s with sides := [x, Side.reset] }

theorem test_hyps_lane_bring_up : Met [
    (let s := lanes 0 0 [(QP_CFG_EQ_FIX 0, 1), (QP_LANE_FIX_PEAK 0 4, 31)]
     invB s && decide (s.sideOn 0 = true ∧ s.lane 0 4 = 0 ∧ s.energy 0 = false ∧ s.sideIsUp 0 = false ∧ 4 < (s.side 0).eqFix.length)),
    (let e : EyeScan := ⟨List.replicate 32 3, 6, 2, 9⟩
     decide ((lanes 0 1 []).lane 0 4 = 1 ∧ ((lanes 0 1 []).side 0).eqFix.getD 4 none = none ∧ e.outer.toNat.testBit 1 = true ∧
       e.outer.toNat.testBit 0 = false ∧ e.phases ≠ 0 ∧ (lanes 0 2 []).lane 0 4 = 2)),
    (let s := side0 { Side.reset with eqFix := List.replicate 5 (some (31, 7)) } (lanes 0 1 [])
     decide (s.lane 0 4 = 1 ∧ (s.side 0).eqFix.getD 4 none = some (31, 7))),
    (let s := lanes 0 3 [(QP_SIDE_STAT_STATE 0, 2), (QP_SIDE_STAT_N_ACT 0, 3), (QP_LANE_STAT_LOG 0 1, 1), (QP_LANE_STAT_LOG 0 2, 7),
       (QP_LANE_STAT_LOG 0 3, 7), (QP_LANE_STAT_LOG 0 4, 7)]
     invB s && decide (s.lane 0 4 = 3 ∧ s.sideIsUp 0 = true ∧ s.missingLog 0 = some 2 ∧ 2 < 8)),
    (let s := lanes 0 3 [(QP_SIDE_STAT_STATE 0, 2), (QP_SIDE_STAT_N_ACT 0, 3), (QP_LANE_STAT_LOG 0 1, 1), (QP_LANE_STAT_LOG 0 2, 2),
       (QP_LANE_STAT_LOG 0 3, 7), (QP_LANE_STAT_LOG 0 4, 7)]
     invB s && decide (s.lane 0 4 = 3 ∧ s.sideIsUp 0 = true ∧ s.missingLog 0 = none ∧ s.rd (QP_SIDE_STAT_N_ACT 0) < 4)),
    (let s := lanes 0 3 [(QP_SIDE_STAT_STATE 0, 2), (QP_SIDE_STAT_N_ACT 0, 4), (QP_LANE_STAT_LOG 0 1, 1), (QP_LANE_STAT_LOG 0 2, 2),
       (QP_LANE_STAT_LOG 0 3, 3), (QP_LANE_STAT_LOG 0 4, 7), (QP_CFG_SPARE_EN 0, 1), (QP_SIDE_STAT_SPARE 0, 7)]
     invB s && decide (s.lane 0 4 = 3 ∧ s.sideIsUp 0 = true ∧ s.missingLog 0 = none ∧ 4 ≤ s.rd (QP_SIDE_STAT_N_ACT 0) ∧
       s.on (QP_CFG_SPARE_EN 0) = true ∧ s.rd (QP_SIDE_STAT_SPARE 0) = 7))] := by decide +kernel

/-- A side that is up with four lanes in use and lane 4 as the spare. -/
def up (r : Nat) (l : List (Fld × Nat)) : State :=
  lanes r 4 ([(QP_SIDE_STAT_STATE 0, 2), (QP_SIDE_STAT_N_ACT 0, 4), (QP_SIDE_STAT_SPARE 0, 4), (QP_SIDE_STAT_FAR_RX_UP 0, 31),
    (QP_LANE_STAT_LOG 0 1, 1), (QP_LANE_STAT_LOG 0 2, 2), (QP_LANE_STAT_LOG 0 3, 3), (QP_LANE_STAT_LOG 0 4, 7)] ++ l)

theorem test_hyps_lane_loss_and_swaps : Met [
    invB (up 0 []), decide ((up 0 []).laneUp 0 3 = true ∧ (up 0 []).sideIsUp 0 = true ∧ (up 0 []).rd (QP_SIDE_STAT_SPARE 0) = 4 ∧
      (up 0 []).laneUp 0 4 = true ∧ (up 0 []).logOf 0 3 < 7),
    (let s := up 0 [(QP_LANE_STAT_LOG 0 3, 7)]
     invB s && decide (s.sideIsUp 0 = true ∧ ((List.range 5).filter fun l => decide (s.logOf 0 l < 7)).length < s.rd (QP_SIDE_STAT_N_ACT 0) ∧
       s.rd (QP_CFG_MIN_LANES 0) < s.rd (QP_SIDE_STAT_N_ACT 0))),
    (let s := side0 { Side.reset with txLog := [0, 1, 2, 7, 7], txAct := 4 } (up 0 [])
     invB s && decide (s.sideIsUp 0 = true ∧ ((s.side 0).txLog.filter fun k => decide (k < 7)).length < (s.side 0).txAct ∧
       s.rd (QP_CFG_MIN_LANES 0) < (s.side 0).txAct)),
    (let s := lanes 0 2 []
     invB s && decide (s.sideOn 0 = true ∧ s.sideIsUp 0 = false ∧ s.lane 0 4 ≠ 5 ∧ 1 ≤ s.lane 0 4 ∧ s.lane 0 4 ≤ 3 ∧ s.energy 0 = true) &&
       (List.range 5).all fun l => s.lane 0 l != 3),
    (let s := side0 { Side.reset with wearOver := 16 } (up 0 [(QP_WEAR_WEAR_THR 0, 50)])
     invB s && decide (s.laneUp 0 4 = true ∧ s.rd (QP_WEAR_WEAR_THR 0) < 51 ∧ (s.side 0).wearOver.testBit 4 = true)),
    (let s := side0 { Side.reset with txAnn := some ⟨1, 1, 4, 9⟩ } (up 0 [])
     invB s && decide (s.sideIsUp 0 = true ∧ (4 : BitVec 3).toNat < 5 ∧ (s.side 0).txAnn.isSome = true ∧
       (s.side 0).txAnn = some ⟨1, 1, 4, 9⟩ ∧ (s.side 0).txWait = none)),
    (let s := side0 { Side.reset with txLog := [0, 1, 2, 3, 7] } (up 0 [])
     invB s && decide (s.sideIsUp 0 = true ∧ (s.side 0).txAnn = none ∧ (s.side 0).txLog.getD 3 7 < 7 ∧ (s.side 0).txLog.getD 4 7 = 7 ∧
       (s.rd (QP_SIDE_STAT_FAR_RX_UP 0)).testBit 4 = true)),
    (let a : SwapAnn := ⟨3, 3, 4, 9⟩
     let s := side0 { Side.reset with rxAnn := some a } (up 0 [])
     invB s && decide (s.sideIsUp 0 = true ∧ (s.side 0).rxAnn = some a ∧ a.take < 5 ∧ a.leave < 5 ∧ a.take ≠ a.leave ∧ a.log < 7 ∧
       s.laneUp 0 a.take = true))] := by decide +kernel

theorem test_hyps_sides_and_streams : Met [
    (let s := lanes 1 4 [(QP_CFG_MIN_LANES 0, 4), (QP_SIDE_STAT_FAR_RX_UP 0, 31)]
     invB s && decide (s.sideOn 0 = true ∧ s.sideIsUp 0 = false ∧ s.upFails 0 = false ∧ s.isSender = true)),
    (let s := up 0 [(QP_CFG_MIN_LANES 0, 6), (okFld 0, 1)]
     invB s && decide (s.sideIsUp 0 = true ∧ s.upFails 0 = true ∧ s.isTile = true ∧ s.on (okFld 0) = true)),
    decide ((up 0 []).isTile = true ∧ (up 0 []).sideIsUp 0 = true ∧ (1 : Fin 2).val = 1 ∧ (up 0 []).rd (QLK_TOPO_NODE 0) ≤ (0 : BitVec 6).toNat ∧
      (0 : Fin 2).val = 0 ∧ (0 : BitVec 6).toNat ≤ (up 0 []).rd (QLK_TOPO_NODE 0) ∧ (up 1 []).isSender = true)] := by decide +kernel

/-- An ENUM folio. -/
def enum (w : Nat) : List Word72 := [0, BitVec.ofNat 72 (0xE8 * 2 ^ 64 + w)]

theorem test_hyps_enumeration : Met [
    (let s := { up 1 [] with link := { Link.reset with walks := [0] } }
     invB s && decide (s.isSender = true ∧ s.sideIsUp 0 = true ∧ s.link.walks.contains 0 = true)),
    (let s := up 0 [(QP_SIDE_STAT_STATE 1, 2)]
     invB s && decide (s.isTile = true ∧ s.sideIsUp (1 - 0) = true) && [62, 63].all fun w =>
       decide (((enum w).getD 1 0).toNat / 2 ^ 64 = 0xE8 ∧ ((enum w).getD 1 0).toNat.testBit 19 = false ∧
         ((enum w).getD 1 0).toNat.testBit 12 = false ∧ ((enum w).getD 1 0).toNat % 64 = w)),
    decide (((enum 0x80000).getD 1 0).toNat.testBit 19 = true ∧ ((enum 0x1000).getD 1 0).toNat.testBit 12 = true ∧
      ((enum 0x1000).getD 1 0).toNat.testBit 19 = false),
    decide ((up 1 []).isSender = true ∧ (up 1 []).nodeOn 0 = 63 ∧ (up 1 []).nodeOn 1 = 0)] := by decide +kernel

theorem test_hyps_folios_and_fragments : Met [
    (let f : Folio := ⟨2, 0, 63, 7, true, false, false, false, []⟩
     let s := up 0 [(QP_SIDE_STAT_STATE 1, 2)]
     invB s && decide (s.sideOn 0 = true ∧ (s.side 0).rxHeld = [] ∧ (s.side 0).rxNext = none ∧ f.typ ≠ 1 ∧
       streamOk f.typ.toNat f.stream.toNat = true ∧ streamOk 15 0 = false ∧ s.isTile = true ∧ s.sideIsUp (1 - 0) = true ∧
       ([2, 3, 6, 8, 9, 10].contains f.typ.toNat) = true ∧ f.node.toNat ≠ s.node)),
    (let w : List Word72 := [BitVec.ofNat 72 (0xF0 * 2 ^ 64 + 2 ^ 56 + 5 * 2 ^ 18)]
     decide ((up 0 []).accepts .ring = true ∧ (up 0 []).isSender = false ∧ (up 0 []).link.relays = [] ∧ (w.getD 0 0).toNat / 2 ^ 64 = 0xF0 ∧
       (w.getD 0 0).toNat / 2 ^ 48 % 256 = 0 ∧ (w.getD 0 0).toNat / 2 ^ 56 % 256 ≠ 0 ∧ (up 0 []).link.frags = [])),
    (let w : List Word72 := [BitVec.ofNat 72 (0xF0 * 2 ^ 64 + 5 * 2 ^ 12)]
     let s := up 1 (ether ++ [(QLK_TOPO_NODE 0, 63), (QLK_REACH_NODES 0, 32), (QEN_CFG_PSIDE, 0)])
     decide (s.isSender = true ∧ s.accepts (.datagram 5 7) = true ∧ (w.getD 0 0).toNat / 2 ^ 12 % 64 ≠ s.node ∧
       s.route ((w.getD 0 0).toNat / 2 ^ 12 % 64) = some 0 ∧ s.sideIsUp 0 = true ∧ (s.side 0).nbHold = false)),
    (let m : FragMsg := ⟨5, 0, 0, 256, []⟩
     let s := { up 0 [] with link := { Link.reset with frags := [m] } }
     (s.link.frags.find? (fun x => x.srcQn == (5 : BitVec 18).toNat) == some m) && decide (m.next ≤ 256))] := by decide +kernel

/-! ### Wall time (08) -/

/-- A node with a timebase of four feeds at 60 frames a second. -/
def clock (r : Nat) (l : List (Fld × Nat)) : State :=
  st ([R r, (WTU_TB_RATE_NUM, 60000), (WTU_TB_RATE_DEN, 1000), (WTU_TB_T0S_SEC, 1000), (WTU_TB_T0NS_L_US, 500), (WTU_TB_T0NS_F_M1, 3)] ++ l)

theorem test_hyps_time_outputs_and_pins : Met [
    decide ((up 0 []).sideIsUp 0 = true ∧ (3 : BitVec 2).toNat < (clock 0 []).feeds),
    (let s := clock 1 [(WTU_PPS_OUT_EN, 1), (WTU_TICKOUT_EN, 1), (WTU_TICKOUT_MODE, 2), (WTU_TICKOUT_FEED, 3), (WTU_TRIG_MODE 3, 1)]
     decide (s.on WTU_PPS_OUT_EN = true ∧ s.on WTU_TICKOUT_EN = true ∧ (s.on WTU_TICKOUT_HOLD_SKIP && s.heldAt 5) = false ∧
       2 ≤ s.rd WTU_TICKOUT_MODE ∧ (3 : BitVec 2).toNat = s.rd WTU_TICKOUT_FEED ∧ s.rd (WTU_TRIG_MODE 3) ≠ 0 ∧
       (clock 1 [(WTU_TICKOUT_MODE, 1)]).rd WTU_TICKOUT_MODE = 1 ∧ (clock 1 []).rd WTU_TICKOUT_MODE = 0)),
    (let s := clock 1 [(WTU_GLK_EN, 1), (WTU_PPS_IN_EN, 1)]
     decide (s.on WTU_GLK_EN = true ∧ s.isTile = false ∧ s.wtu.glkLast = none ∧ s.on WTU_PPS_IN_EN = true ∧ s.wtu.ppsLast = none)),
    (let s := { clock 1 [(WTU_PPS_IN_EN, 1)] with wtu := { Wtu.reset with todSet := true } }
     decide (s.on WTU_PPS_IN_EN = true ∧ s.wtu.ppsLast = none ∧ s.wtu.todSet = true)),
    (let s := clock 1 [(WTU_CAP_CFG_SRC 7, 31), (WTU_CAP_CFG_EDGE 7, 3)]
     decide (s.rd (WTU_CAP_CFG_SRC 7) = (31 : BitVec 5).toNat ∧ s.rd (WTU_CAP_CFG_EDGE 7) = 3 ∧ s.wtu.capLast.getD 7 none = none))] := by
  decide +kernel

/-- A sender whose PTP slot 1 is in a state and follows port 3. -/
def slave (state : Nat) (x : PtpSlot) : State :=
  let s := clock 1 [(WTU_PTP_EN 1, 1), (WTU_PTP_DOMAIN 1, 127), (WTU_PTP_PORT_MASK 1, 8), (ING_CFG_MODE 3, 2), (WTU_PTP_STAT_STATE 1, state),
    (WTU_PTP_STAT_PORT 1, 3)]
  { s with wtu := { s.wtu with ptp := [PtpSlot.reset, x] } }

theorem test_hyps_time_sources : Met [
    decide ((7 : BitVec 3).toNat ≠ 0),
    (let s := { clock 0 [(WTU_SRC_STAT_STATE, 1), (WTU_SRC_STAT_SRC, 5)] with wtu := { Wtu.reset with lockRun := 16 } }
     decide (s.rd WTU_SRC_STAT_STATE = 1 ∧ s.mayLock = true)),
    (let s := slave 0 PtpSlot.reset
     invB s && decide (s.ptpTakes 1 127 3 = true ∧ (s.ptpSlot 1).best = none)),
    (let s := slave 2 { PtpSlot.reset with sync := some (9, 100) }
     invB s && decide (s.ptpTakes 1 127 3 = true ∧ s.rd (WTU_PTP_STAT_STATE 1) = 2 ∧ (3 : BitVec 2).toNat = s.rd (WTU_PTP_STAT_PORT 1) ∧
       (s.ptpSlot 1).path = none ∧ (s.ptpSlot 1).sync = some ((9 : BitVec 16).toNat, 100))),
    (let s := slave 1 { PtpSlot.reset with down := some 50, req := some 9 }
     invB s && decide (s.ptpTakes 1 127 3 = true ∧ s.rd (WTU_PTP_STAT_STATE 1) = 1 ∧ (s.ptpSlot 1).down = some 50 ∧
       (s.ptpSlot 1).req = some (9 : BitVec 16).toNat))] := by decide +kernel

/-- A node whose side 1 leads to its parent, with some offsets filtered. -/
def timed (os : List Int) : State :=
  let s := clock 0 [(WTU_LINK_PARENT 1, 1)]
  { s with wtu := { s.wtu with links := [TimeLink.reset, { TimeLink.reset with offsets := os }], wasLocked := true } }

theorem test_hyps_time_folios : Met [
    (let s := timed []
     invB s && decide (s.parentSide 1 = true ∧ (s.passTo 9).outlier 1 ((s.passTo 9).folioExchange 1 9 []) = false ∧ s.wtu.wasLocked = true ∧
       s.on WTU_SRC_CFG_STEP_EN = false ∧ (clock 1 []).isTile = false))] := by
  decide +kernel

/-- Whatever the filters answer, some folio is an outlier. -/
theorem test_hyps_outlier : ∃ rx, ((timed [0]).passTo rx).outlier 1 (((timed [0]).passTo rx).folioExchange 1 rx []) = true := by
  have key : ∀ (s : State) (rx : Nat), s.timeLink 1 = { TimeLink.reset with offsets := [0] } → s.rd (WTU_LINK_ASYM_PS 1) = 0 →
      rx = (Config.delayFilter [] + Config.offsetFilter [0]).toNat + 6553601 → s.outlier 1 (s.folioExchange 1 rx []) = true := by
    intro s rx hl ha hr
    have h0 : timeTx [] = 0 ∧ timeStamp (timeWord [] 2) = 0 ∧ timeStamp (timeWord [] 3) = 0 ∧ psU (toSigned 16 0) = 0 := by decide +kernel
    simp only [State.outlier, State.folioExchange, State.exchange, hl, ha, h0, TimeLink.reset]
    simp
    omega
  have still : ∀ (s : State) (t : Nat), s.rd WTU_SRC_STAT_STATE = 0 → s.wtu.slew = 0 →
      (s.passTo t).rd (WTU_LINK_ASYM_PS 1) = s.rd (WTU_LINK_ASYM_PS 1) := by
    intro s t h g
    simp only [State.passTo, h, g]
    rfl
  refine ⟨_, key _ _ ?_ ?_ rfl⟩
  · simp only [State.passTo]; split <;> split <;> rfl
  · have h : (timed [0]).rd WTU_SRC_STAT_STATE = 0 := by decide +kernel
    have g : (timed [0]).wtu.slew = 0 := rfl
    have ha : (timed [0]).rd (WTU_LINK_ASYM_PS 1) = 0 := by decide +kernel
    exact (still _ _ h g).trans ha

/-- A root whose tick waits for FWIN. -/
def gated (state : Nat) : State :=
  let s := clock 1 [(WTU_ROOT_SELF, 1), (WTU_SRC_STAT_SRC, 1), (WTU_FWIN_EN, 1), (WTU_FWIN_WIN_US, 100), (WTU_FWIN_STAT_STATE, state),
    (WTU_FWIN_TMO_FR, 2)]
  { s with wtu := { s.wtu with heldRun := 2, goodEdges := 8 } }

theorem test_hyps_frame_window : Met [
    decide ((gated 0).isRoot = true ∧ (gated 0).on WTU_FWIN_EN = true ∧ (gated 0).rd WTU_FWIN_STAT_STATE < 2 ∧
      (gated 0).fwinD 1 - (gated 0).fwinWin 1 * usU ≤ (gated 0).fwinD 1),
    decide (¬((gated 0).fwinD 1 - (gated 0).fwinWin 1 * usU ≤ 0 ∧ 0 ≤ (gated 0).fwinD 1)) &&
      decide (¬((gated 0).fwinD 2 - (gated 0).fwinWin 2 * usU ≤ 0 ∧ 0 ≤ (gated 0).fwinD 2)),
    decide ((gated 0).latchDone = false ∧ (gated 0).rd WTU_FWIN_TMO_FR ≤ (gated 0).wtu.heldRun ∧ (gated 0).rd WTU_FWIN_STAT_STATE ≠ 3),
    decide ((gated 3).isRoot = true ∧ (gated 3).rd WTU_FWIN_STAT_STATE = 3 ∧ 8 ≤ (gated 3).wtu.goodEdges)] := by decide +kernel

/-! ### Tile: pixel path, scan, rails (09 to 12) -/

/-- A signature of leaf 0 open on stream 0, with the words of two folios received. -/
def openSig (store : Bool) (words : Nat) : OpenSig := ⟨true, store, 0, 3, true, false, false, false, [0], List.replicate words 0⟩

/-- A sixteenth of a leaf of 256 zero words, in the CRC's loop. -/
def zeros (c : Nat) : Nat := ((List.replicate 16 0).flatMap (leBytes 9)).foldl (fun c x => crcStep 8 (c ^^^ (x % 256))) c

/-- The CRC of a leaf of 256 zero words, a sixteenth of it at a time; zlib computes the same over 2,304 zero bytes. -/
theorem test_leaf_crc : leafCrc (List.replicate 256 0) = 2962361072 := by
  have q (k c : Nat) : ((List.replicate (16 * (k + 1)) 0).flatMap (leBytes 9)).foldl (fun c x => crcStep 8 (c ^^^ (x % 256))) c =
      ((List.replicate (16 * k) 0).flatMap (leBytes 9)).foldl (fun c x => crcStep 8 (c ^^^ (x % 256))) (zeros c) := by
    rw [show 16 * (k + 1) = 16 + 16 * k by omega, ← List.replicate_append_replicate, List.flatMap_append, List.foldl_append, zeros]
  have h : List.Forall₂ (fun a b => zeros a = b)
      [0xFFFFFFFF, 2415262307, 336434605, 1223022955, 3155420940, 10554966, 1750105073, 2383938159, 1587783631, 2553816163, 1441720677,
      2272304301, 2713560436, 251338788, 661394363, 1626832159]
      [2415262307, 336434605, 1223022955, 3155420940, 10554966, 1750105073, 2383938159, 1587783631, 2553816163, 1441720677, 2272304301,
      2713560436, 251338788, 661394363, 1626832159, 1332606223] := by decide +kernel
  simp only [List.forall₂_cons] at h
  rw [leafCrc, crc32, show List.replicate 256 0 = List.replicate (16 * (15 + 1)) 0 from rfl]
  simp only [q, h]
  decide

theorem test_hyps_signatures_arrive : Met [
    invB (clock 0 []), decide ((clock 0 []).isTile = true ∧ (clock 0 []).dataOn = true ∧ (clock 0 []).tile.sigs.getD 1 none = none ∧
      (1 : Word72).toNat % 2 ^ 48 ≠ (clock 0 []).frame % 2 ^ 48),
    (let s := { clock 0 [(TFS_RX_SEL, 0)] with tile := { Tile.reset with sigs := [some (openSig false 0), none] } }
     invB s && decide (s.isTile = true ∧ s.dataOn = true ∧ s.tile.sigs.getD 0 none = some (openSig false 0) ∧ (openSig false 0).use = true ∧
       (0 : Fin 2).val = s.rd TFS_RX_SEL)),
    -- a trailer that names no leaf, with TRUNC = 1, after no other folio: TRUNCATED
    (let ws : List Word72 := List.replicate 70 0 ++ [BitVec.ofNat 72 (0xEF * 2 ^ 64 + 2 ^ 41 + leafCrc [])]
     let w := (ws.getD 70 0).toNat
     decide (w / 2 ^ 64 = 0xEF ∧ w / 2 ^ 32 % 512 = 0 ∧ leafCrc [] = w % 2 ^ 32 ∧ w.testBit 41 = true ∧
       ((openSig false 0).words ++ (List.range 70).map fun i => (ws.getD i 0).toNat).length + 1 = 71 * ((0 + 71) / 71))),
    -- the same trailer with TRUNC = 0 names too few leaves: FAILED; one with another CRC is not good
    (let w := 0xEF * 2 ^ 64 + leafCrc []
     decide (w / 2 ^ 64 = 0xEF ∧ w / 2 ^ 32 % 512 = 0 ∧ w % 2 ^ 32 = leafCrc [] ∧ w.testBit 41 = false ∧ 0 ≠ (openSig false 0).leaves.length ∧
       (w + 1) % 2 ^ 32 ≠ leafCrc [])),
    -- a signature whose one leaf was sent whole, with the CRC of `test_leaf_crc`: VERIFIED
    (let n := wordsPerLeaf false
     let g := openSig true (71 * ((n + 71) / 71 - 1))
     let crc := 2962361072
     let w := 0xEF * 2 ^ 64 + 2 ^ 32 + crc
     decide (n = 256 ∧ w / 2 ^ 64 = 0xEF ∧ w / 2 ^ 32 % 512 = g.leaves.length ∧ w.testBit 41 = false ∧ w % 2 ^ 32 = crc ∧
       leafStarts false n 8 g.leaves 0 none = [0] ∧ g.words.length + 70 + 1 = 71 * ((n + 71) / 71) ∧ g.store = true))] := by
  decide +kernel

theorem test_hyps_press_and_aging : Met [
    (let s := clock 0 [(WTU_FRAME_HELD, 1)]
     invB s && decide (s.hasPixels = true ∧ s.blkOn 0x20 = true ∧ s.blkOn 0x21 = true ∧ s.dataOn = true ∧
       s.tile.pressing = false ∧ s.on WTU_FRAME_HELD = true)),
    (let s := clock 0 [(TFS_GEOM_LW, 16), (TFS_GEOM_LH, 16), (REC_CTRL_CAP_SLOTS, 8)]
     invB s && decide (s.on WTU_FRAME_HELD = false ∧ s.gridW * s.gridH ≤ 256 ∧ s.nextF ≤ 4 ∧ s.rd REC_CTRL_CAP_SLOTS ≤ 8)),
    (let s := { clock 0 [(TFS_RX_NEED_EN, 1), (TFS_RX_NEED_RETRY, 3), (WTU_FRAME_FRAME_NO, 5), (LCP_AGE_STAT_SLOT, 1)] with
       tile := { Tile.reset with pressing := true, serves := 65536, needAt := [none, none, none, some 2] }, nvs := { Nvs.reset with ops := [3, 0] } }
     invB s && decide (s.tile.pressing = true ∧ s.tile.serves % 65536 = 0 ∧ s.hasPixels = true ∧ s.house.shut = false ∧ 3 < s.feeds ∧
       s.isTile = true ∧ s.on TFS_RX_NEED_EN = true ∧ s.tile.needNow.testBit 3 = false ∧ s.tile.needAt.getD 3 none = some 2 ∧
       2 + s.rd TFS_RX_NEED_RETRY ≤ s.frame ∧ s.nvs.ops.head? = some 3 ∧ s.rd LCP_AGE_STAT_SLOT < 2))] := by decide +kernel

/-- A tile whose bank 3 is fit to drive, in a mode of the plan. -/
def bank3 (mode : Nat) (l : List (Fld × Nat)) : State :=
  let s := st ([R 0, (SCN_CTRL_LAMP_EN, 1), (WTU_SRC_STAT_STATE, 2), (DRV_STAT_PRESENT 3, 1),
    (DRV_STAT_LINK 3, 1), (DRV_STAT_PLL_LOCK 3, 1), (RCE_LOOP_CFG_EN 7, 1), (RCE_LOOP_CFG_KIND 7, 1)] ++ l)
  { s with scan := { s.scan with
      ok := true, banks := List.replicate 4 ⟨64, 0, false, false, 0⟩
      plan := [(DRV_CFG_MODE 3, mode), (DRV_STR_CFG2_EN 3, 0x8000), (DRV_STR_CFG2_DIV_M1 3, 1), (DRV_STR_MAP_COUNT 3 15, 3),
          (SCN_PLAN_M_M1, 127)].foldl
        (fun t e => Tbl.set t e.1.key (BitVec.ofNat 64 e.2)) [] } }

theorem test_hyps_bank_conditions : Met [
    invB (bank3 1 []), decide ((bank3 1 []).scan.banks.length = 4 ∧ (bank3 1 []).on (DRV_STAT_PLL_LOCK 3) = true ∧
      ((bank3 1 []).drvBank 3).wait ≠ 1 ∧ (bank3 1 []).on (DRV_STAT_OUT_ON 3) = false ∧ (bank3 1 []).on (DRV_STAT_PRESENT 0) = false ∧
      (bank3 1 []).on (DRV_STAT_PRESENT 3) = true ∧ 64 ≤ ((bank3 1 []).drvBank 3).under),
    (let s := bank3 1 [(DRV_STAT_LINK 3, 0)]
     let t : State := { s with scan := { s.scan with banks := List.replicate 4 ⟨0, 0, true, false, 0⟩ } }
     decide (s.on (DRV_STAT_LINK 3) = false ∧ (t.drvBank 3).irefOff = true ∧ (t.drvBank 3).wait ≠ 1 ∧
       ∀ r ∈ (none : Option Nat).toList, 60000 < r))] := by decide +kernel

theorem test_hyps_banks_and_strings : Met [
    invB (bank3 1 []), decide ((bank3 1 []).tileWhy = 0 ∧ (bank3 1 []).on (DRV_STAT_OUT_ON 3) = false ∧ (bank3 1 []).bankWhy 3 = 0 ∧
      (bank3 1 []).on SCN_STAT_LIT = false ∧ (bank3 1 []).on (RCE_LOOP_CFG_EN 7) = true ∧ (bank3 1 []).rd (RCE_LOOP_CFG_KIND 7) = 1 ∧
      (bank3 1 []).rd (RCE_LOOP_STAT_STATE 7) = 0 ∧ (bank3 1 []).bankWhy 0 ≠ 0 ∧ (bank3 1 []).on (DRV_STAT_OUT_ON 0) = false ∧
      (bank3 1 [(SCN_CTRL_LAMP_EN, 0)]).tileWhy ≠ 0),
    (let s := bank3 2 [(DRV_STAT_OUT_ON 3, 1)]
     decide (s.on (DRV_STAT_OUT_ON 3) = true ∧ s.pl (DRV_CFG_MODE 3) = 2 ∧ s.frame % (s.pl (DRV_STR_CFG2_DIV_M1 3) + 1) = 0 ∧
       (s.pl (DRV_STR_CFG2_EN 3)).testBit 15 = true ∧ s.strNfit 3 < s.pl (DRV_STR_MAP_COUNT 3 15))),
    (let s := bank3 2 [(DRV_STAT_OUT_ON 3, 1), (WTU_FRAME_FRAME_NO, 1)]
     decide (s.on (DRV_STAT_OUT_ON 3) = true ∧ s.pl (DRV_CFG_MODE 3) = 2 ∧ s.frame % (s.pl (DRV_STR_CFG2_DIV_M1 3) + 1) ≠ 0))] := by
  decide +kernel

/-- A report of line slot 127 or, where that lies beyond the plan, of sub-period 127. -/
def report (slot sub : BitVec 7) (row : Bool) (stuck : Option (BitVec 7)) : LineReport := ⟨slot, sub, row, [], stuck, [none, none, none, none]⟩

theorem test_hyps_line_slots : Met [
    (let s := bank3 1 [(DRV_STAT_OUT_ON 3, 1), (BLK_CTRL_EN 0x23, 0)]
     invB s && decide (s.scan.banks.length = 4 ∧ s.drives 3 = true ∧ s.health.cmd = none ∧
       (report 127 0 false none).slot.toNat ≤ s.pl SCN_PLAN_M_M1 ∧ (report 127 0 false none).sub.toNat ≤ s.pl SCN_PLAN_S_M1 ∧
       s.pl SCN_PLAN_S_M1 < (report 127 1 false none).sub.toNat ∧ (report 127 0 false none).slot ≠ 0 ∧
       (s.drvBank 3).stuck = false ∧ s.blkOn 0x23 = false)),
    (let s := { bank3 1 [] with health := { Health.reset with cmd := some (1, lampKey 3 127 383) } }
     invB s && decide (s.drives 3 = false ∧ keyBank (lampKey 3 127 383) = 3 ∧ s.blkOn 0x23 = true ∧ (bank3 1 []).health.cmd = none))] := by
  decide +kernel

/-- Loop 7 in a state, with its output between 1000 and 65535. -/
def loop7 (state : Nat) (x : Loop) (l : List (Fld × Nat)) : State :=
  let s := st ([R 0, (RCE_LOOP_CFG_EN 7, 1), (RCE_LOOP_CFG_KIND 7, 1), (RCE_LOOP_STAT_STATE 7, state),
    (RCE_LOOP_LIM_CEIL_U 7, 65535), (RCE_LOOP_LIM_FLOOR_U 7, 1000), (SCN_STAT_LIT, 1)] ++ l)
  { s with rail := { Rail.reset with loops := List.replicate 8 x, pmbus := [(7, 5)] } }

theorem test_hyps_output_words_are_clamped : Met [
    (let s := loop7 5 { Loop.reset with moving := true, pos := 10 ^ 9 } []
     invB s && decide (s.rd (RCE_LOOP_LIM_CEIL_U 7) < 65536 ∧ s.rd (RCE_LOOP_LIM_FLOOR_U 7) < 65536 ∧ (s.loop 7).moving = true ∧
       s.blkOn 7 = true ∧ s.rd (RCE_LOOP_STAT_STATE 7) = 5))] := by decide +kernel

theorem test_hyps_loop_states : Met [
    (let s := loop7 2 { Loop.reset with overs := 2, pmb := 2, fb := some 4096, fbDone := true, valid := 15 } []
     invB s && decide (s.on (RCE_LOOP_CFG_EN 7) = true ∧ s.rd (RCE_LOOP_CFG_KIND 7) = 1 ∧ s.blkOn 7 = true ∧
       s.rd (RCE_LOOP_STAT_STATE 7) ≠ 0 ∧ 2 ≤ (s.loop 7).overs ∧ s.rd (RCE_LOOP_STAT_STATE 7) ≠ 4 ∧ (s.loop 7).fb = some 4096 ∧
       (s.loop 7).fbDone = true ∧ s.on SCN_STAT_LIT = true ∧ s.rd (RCE_LOOP_STAT_STATE 7) = 2 ∧ (s.loop 7).pmb = 2)),
    (let s := loop7 1 { Loop.reset with fb := some 9, fbDone := true, valid := 14 } []
     decide (s.rd (RCE_LOOP_STAT_STATE 7) = 1 ∧ (s.loop 7).valid < 15)),
    (let s := loop7 2 { Loop.reset with emptyT := 50000000 * 65536 } []
     decide (s.on RCE_CTRL_MODE = false ∧ (s.loop 7).fb = none ∧ s.rd (RCE_LOOP_STAT_STATE 7) = 2 ∧ 50000000 * 65536 ≤ (s.loop 7).emptyT + 0)),
    (let s := loop7 3 { Loop.reset with holdT := 1000000 * 65536 } [(RCE_CTRL_HOLD_LIMIT_MS, 1)]
     decide (s.rd (RCE_LOOP_STAT_STATE 7) = 3 ∧ s.on SCN_STAT_LIT = true ∧
       s.rd RCE_CTRL_HOLD_LIMIT_MS * 1000000 * 65536 ≤ (s.loop 7).holdT ∧ s.rail.pmbus ≠ [])),
    (let s := loop7 3 { Loop.reset with holdT := 1000000 * 65536 - 1 } [(RCE_CTRL_HOLD_LIMIT_MS, 1)]
     decide ((s.loop 7).holdT < s.rd RCE_CTRL_HOLD_LIMIT_MS * 1000000 * 65536 ∧ (loop7 0 Loop.reset []).rd (RCE_LOOP_STAT_STATE 7) = 0))] := by
  decide +kernel

/-! ### Housekeeping and Self-Trim (13) -/

/-- A tile with its four dies and the thresholds of a cabinet. -/
def cabinet (l : List (Fld × Nat)) : State :=
  st ([R 0, (HKT_THRESH_WARN_C, 95), (HKT_THRESH_THROTTLE_C, 105), (HKT_THRESH_SHUTDOWN_C, 125), (HKT_THRESH_HYST_C, 3)] ++
    ((List.range 4).map fun d => (DRV_STAT_PRESENT d, 1)) ++ l)

theorem test_hyps_housekeeping_rounds : Met [
    (let s := cabinet [(WTU_SRC_STAT_STATE, 3)]
     let s := { s with ctl := { s.ctl with tasks := { s.ctl.tasks with run := [some ⟨9, 3, 0⟩, none, none, none, none, none, none] } } }
     invB s && decide (s.rd WTU_SRC_STAT_STATE = 3 ∧ s.ctl.tasks.delayed = [] ∧ s.ctl.tasks.ready = [] ∧ s.ctl.tasks.busy.getD 6 0 = 0 ∧
       (s.ctl.tasks.run.getD 0 none).isSome = true ∧ s.ctl.tasks.run.getD 6 none = none ∧
       65536000 * 10000 / 65536000 = s.ctl.tasks.now + 10000)),
    decide ((cabinet []).isTile = true ∧ (cabinet []).house.level = 0),
    ([94 * 128 - 385, 105 * 128, 125 * 128].all fun x : Int =>
      let s := cabinet []
      let ms : List Int := List.replicate 5 x
      let readings := (List.range 5).map fun k => s.chReading k (ms.getD k 0)
      decide (readings.getD 4 0 = x ∧ s.rd HKT_STAT_DFAULT = 0 ∧ s.rd HKT_THRESH_WARN_C ≤ s.rd HKT_THRESH_THROTTLE_C ∧
        ((s.rd HKT_THRESH_THROTTLE_C : Int) * 128 ≤ x ∨ x < ((s.rd HKT_THRESH_WARN_C : Int) - s.rd HKT_THRESH_HYST_C) * 128)) &&
        (List.range 5).all fun j => s.chValid j (readings.getD j 0) && decide (readings.getD j 0 ≤ x))] := by decide +kernel

theorem test_hyps_throttling_and_shutdown : Met [
    (let s := { cabinet [(HKT_STAT_LEVEL, 2), (HKT_STAT_GRACE_LEFT_MS, 10)] with house := { House.reset with level := 2 } }
     decide (s.isTile = true ∧ 2 ≤ s.rd HKT_STAT_LEVEL ∧ s.house.level = 2 ∧ s.house.graceOver = false ∧ s.rd HKT_STAT_GRACE_LEFT_MS ≤ 10)),
    decide ((cabinet []).isTile = true ∧ (cabinet []).rd HKT_STAT_LEVEL < 2 ∧ 10 < (cabinet [(HKT_STAT_GRACE_LEFT_MS, 11)]).rd HKT_STAT_GRACE_LEFT_MS),
    (let s := cabinet []
     invB s && decide (s.diodeAbsent 4 = false ∧ s.diodeAbsent 0 = false ∧ s.house.shut = false ∧ s.on HKT_SHUT_STAT_VALID = false ∧ s.isTile = true)),
    decide ((cabinet [(HKT_SHUT_STAT_VALID, 1)]).on HKT_SHUT_STAT_VALID = true),
    (let s := { cabinet [] with house := { House.reset with shut := true, recorded := true }, nvs := { Nvs.reset with recBusy := true } }
     invB s && decide (s.house.shut = true ∧ s.house.standby = false ∧ s.nvs.recBusy = true ∧ s.house.recorded = true))] := by decide +kernel

/-- A tile with Self-Trim on, and a result of a target. -/
def trims (l : List (Fld × Nat)) : State :=
  cabinet ([(STR_CTRL_EN, 15), (STR_LIM_MIN_SAMP, 100), (STR_LIM_MIN_EDGES, 100), (STR_LIM_MAX_STEP_HI, 4),
    (STR_LIM_MAX_STEP_LO, 4), (STR_LIM_EYE_GAIN, 2)] ++ l)

theorem test_hyps_self_trim_cycles : Met [
    decide ((cabinet [(BLK_CTRL_EN 6, 0)]).blkOn 6 = false ∧ ((trims [(STR_CTRL_EN, 7)]).rd STR_CTRL_EN).testBit 3 = false ∧
      (trims [(DRV_STAT_PRESENT 3, 0)]).on (DRV_STAT_PRESENT 3) = false),
    (let s := trims [(HKT_STAT_LEVEL, 2)]
     decide (s.blkOn 6 = true ∧ (s.rd STR_CTRL_EN).testBit 3 = true ∧ s.on (DRV_STAT_PRESENT 3) = true ∧ 2 ≤ s.rd HKT_STAT_LEVEL)),
    (let r : TrimResult := ⟨0, 3, 255, 60, 40, 0, 0, 0, 5, 50⟩
     let s := trims []
     let e := nearest (16 * ((r.neg : Int) - r.pos)) (r.pos + r.neg)
     let v := (s.house.trim.get (trimKey 0 3 255)).toInt + e
     decide (s.blkOn 6 = true ∧ (s.rd STR_CTRL_EN).testBit r.target.toNat = true ∧ s.rd HKT_STAT_LEVEL < 2 ∧ r.tempMovedC ≤ 5 ∧
       s.rd STR_LIM_MIN_SAMP ≤ r.pos + r.neg ∧ e.natAbs ≤ s.rd STR_LIM_MAX_STEP_HI ∧ -64 ≤ v ∧ v ≤ 63 ∧ s.house.hostAt = [])),
    (let s := { trims [] with house := { House.reset with hostAt := [(trimKey 0 3 255, 51)] } }
     decide ((trimKey 0 3 255, 51) ∈ s.house.hostAt ∧ 50 < 51)),
    (let s := { trims [] with house := { House.reset with trim := Tbl.set [] (trimKey 0 3 255) 63 } }
     let e := nearest (16 * ((60 : Int) - 40)) 100
     decide (5 < 6 ∧ 99 < s.rd STR_LIM_MIN_SAMP ∧ 99 < s.rd STR_LIM_MIN_EDGES ∧ s.rd STR_LIM_MAX_STEP_HI < (nearest (16 * ((70 : Int) - 30)) 100).natAbs ∧
       63 < (s.house.trim.get (trimKey 0 3 255)).toInt + e)),
    (let s := trims [(QP_LANE_STAT_STATE 1 4, 4), (QP_LANE_STAT_PEAK 1 4, 30)]
     let r : TrimResult := ⟨3, 3, 4, 0, 0, 0, 2, 1, 5, 50⟩
     decide (r.index.toNat < 5 ∧ s.laneUp (r.die.toNat % 2) r.index.toNat = true ∧ s.rd STR_LIM_EYE_GAIN ≤ r.gain ∧ 0 < r.step ∧ r.pos = 0 ∧
       s.rd (QP_LANE_STAT_PEAK (r.die.toNat % 2) r.index.toNat) < 31 ∧ s.house.hostAt = [] ∧ 1 < s.rd STR_LIM_EYE_GAIN))] := by decide +kernel

/-! ### Control plane (14) -/

/-- A colophon. -/
def colophon (cid : BitVec 32) : Colophon := ⟨cid, 9, 0x9160, 0, 255, false, false, false, 0, 1, 5, 0, 0, [], 77, 0, 0⟩

/-- A policy table with its CRC. -/
def policy (id : BitVec 16) (body : List Word) : PolicyTable :=
  ⟨id, 3, BitVec.ofNat 16 body.length, body, BitVec.ofNat 32 (crc32 (body.flatMap fun w => leBytes 8 w.toNat))⟩

theorem test_hyps_mailbox_answers : Met [
    decide (bare.heldReqs < 16 ∧ bare.upd.running = none ∧ bare.on NVS_LEDGER_WRAPPED = false ∧ bare.nvs.policy = []),
    (let s := { bare with upd := { Upd.reset with running := some (colophon 7) }, nvs := { Nvs.reset with policy := [policy 1 [5]] } }
     decide (s.upd.running = some (colophon 7) ∧ policy 1 [5] ∈ s.nvs.policy ∧ (policy 1 [5]).id ≠ 2)),
    (let s := { bare with arb := List.replicate 2 { ArbSide.reset with held := List.replicate 8 (⟨5, 6⟩, 4) } }
     decide (16 ≤ s.heldReqs))] := by decide +kernel

/-- A queue of 8 entries with a HEAD and a TAIL. -/
def queue (q head tail : Nat) (s : State) : State :=
  (s.setWord (qDesc q 0) (BitVec.ofNat 72 (64 * q + 3 * 2 ^ 37 + 2 ^ 41))).setWord (qDesc q 1) (BitVec.ofNat 72 (head + tail * 2 ^ 17))

/-- A scheduler at tick 100: core 2 runs task 9, and task 4, which core 6 last ran, waits on queue 5 until tick 90. -/
def tasks (l : List (Fld × Nat)) : State :=
  let s := st l
  { s with ctl := { s.ctl with tasks := { s.ctl.tasks with
    now := 100, run := [none, none, some ⟨9, 3, 2⟩, none, none, none, none], waits := [⟨⟨4, 7, 6⟩, 5, 90⟩] } } }

theorem test_hyps_queues_and_events : Met [
    (let s := queue 1 3 10 bare; invB s && decide (s.qRoom 1 1 = true ∧ s.qRoom 1 2 = false)),
    (let s := queue 0 3 3 bare
     invB s && decide (s.qRoom 0 1 = true ∧ (s.queue 0).used = 0 ∧ listedCmd ((([0x50] : List Word).getD 0 0).toNat % 65536) = true ∧
       listedCmd ((([0x79] : List Word).getD 0 0).toNat % 65536) = false)),
    (let s := { queue 2 0 5 (st [R 1]) with ctl := { Ctl.reset with lost := 1 }, evtMask := 0xFFFFFFFFFFFFFFFF }
     invB s && decide (s.isTile = false ∧ 0 < s.ctl.lost ∧ s.qRoom 2 3 = true ∧ s.evtPass 0x800B = true ∧ s.trigCode 0x800B = false)),
    decide ((queue 2 0 6 bare).qRoom 2 3 = false ∧ bare.ctl.lost = 0),
    (let s := tasks [(CCC_TRACE_EN, 1), (CCC_TRACE_MASK, 16)]
     let x := s.ctl.tasks
     let w : QWait := ⟨⟨4, 7, 6⟩, 5, 90⟩
     invB s && decide (x.now ≤ 100 ∧ x.delayed = [] ∧ x.ready = [] ∧ w ∈ x.waits ∧ w.task.core < 7 ∧ w.task.id = (4 : BitVec 16).toNat ∧
       w.until_ ≤ 100 ∧ (∀ v ∈ x.waits, v.task.id = 4 → v = w) ∧ x.run.getD w.task.core none = none ∧ s.on CCC_TRACE_EN = true ∧
       (s.rd CCC_TRACE_MASK).testBit 4 = true ∧ s.on CCC_TRACE_STAT_FROZEN = false)),
    (let s := tasks [(CCC_SCHED_AFF_US, 1)]
     let x := s.ctl.tasks
     invB s && decide (x.now ≤ 100 ∧ (∀ w ∈ x.waits, w.task.id ≠ (5 : BitVec 16).toNat) ∧ x.run.getD (6 : Fin 7) none = none ∧
       (x.run.getD (2 : Fin 7) none).isSome = true ∧ s.rd CCC_SCHED_AFF_US ≠ 0 ∧ x.run.getD (2 : Fin 7) none = some ⟨9, 3, 2⟩ ∧ 9 ≠ (5 : BitVec 16).toNat)),
    decide ((tasks []).rd CCC_SCHED_AFF_US = 0 ∧ (tasks []).ctl.tasks.idle = some 0)] := by decide +kernel

theorem test_hyps_scheduled_commits : Met [
    decide (bare.heldReqs < 16 ∧ bare.latchPast 0 = true ∧ bare.latchPast 1 = false ∧ bare.isSender = false),
    (let s := { bare with ctl := { Ctl.reset with past := [⟨0, 2 ^ 0x15, ⟨5, 6⟩⟩] }, commits := { Commits.reset with sched := [⟨1, 3, ⟨5, 6⟩⟩] } }
     s.ctl.past.find? (fun e => e.frame == 0) == some ⟨0, 2 ^ 0x15, ⟨5, 6⟩⟩ &&
       decide ((2 ^ 0x15).testBit 0x15 = true ∧ pageHasRws 0x15 = true ∧ ∃ e ∈ s.commits.sched, e.frame = (1 : BitVec 48).toNat)),
    decide ((st [R 1]).isSender = true ∧ (1 : BitVec 48).toNat < (st [R 1]).frame + 2 ∧ { bare with latchDone := true }.latchPast 1 = true)] := by
  decide +kernel

/-- A scheduled commit that this sender coordinates, armed at node 1. -/
def waiting (frame nodes : Nat) : SchedCoord := ⟨⟨5, 9⟩, frame, 3, nodes, 2⟩

theorem test_hyps_coordinated_commits : Met [
    decide ((st [R 1]).heldReqs < 16 ∧ (st [R 1]).isSender = true ∧ (st [R 1]).frame + 2 ≤ (2 : BitVec 48).toNat ∧ (2 : Word) ≠ 0 ∧
      (2 : Word).toNat.testBit (st [R 1]).node = false),
    (let c : SchedCoord := waiting 1 0x42
     let s : State := { st [R 1] with ctl := { Ctl.reset with coords := [c] } }
     s.ctl.coords == [c] && decide (c.nodes.testBit 6 = true ∧ c.armed.testBit 6 = false ∧ c.nodes &&& (c.armed + 64) = c.nodes ∧
       s.latchPast (c.frame - 1) = true)),
    (let c : SchedCoord := waiting 12 0x4A
     let s : State := { st [R 1] with ctl := { Ctl.reset with coords := [c] } }
     s.ctl.coords == [c] && decide (c.nodes.testBit 6 = true ∧ c.armed.testBit 6 = false ∧ c.nodes &&& (c.armed + 64) ≠ c.nodes ∧
       s.latchPast (c.frame - 1) = false))] := by decide +kernel

theorem test_hyps_policy_tables : Met [
    decide (bare.heldReqs < 16 ∧ policyGood (policy 0 []) = false ∧ policyGood (policy 1 [5]) = true ∧ bare.isSender = false ∧ (0 : Word) = 0)] := by
  decide +kernel

/-! ### Redundant senders (15) -/

/-- A sender whose side 0 is in a state of Table 15-1, with its partner's kettle heard at the end of time 1 s. -/
def sender (state : Nat) (l : List (Fld × Nat)) (reh : Option Reh) : State :=
  let s := st ([R 1, (ARB_STAT_STATE 0, state), (ARB_TIMING_MISS_US, 3000), (ARB_TIMING_TAKE_MS, 10), (QP_SIDE_STAT_STATE 0, 2),
    (ARB_STAT_PEER_READY 0, 1), (ARB_CFG_ARBITER 0, 5), (WTU_TB_RATE_NUM, 60000), (WTU_TB_RATE_DEN, 1000), (WTU_TB_T0S_SEC, 1000)] ++ l)
  { s with arb := List.replicate 2 { ArbSide.reset with ringAt := some 65536000000000, ethAt := some 65536000000000, reh := reh } }

/-- `sender` with something else known of its side 0. -/
def sender0 (s : State) (f : ArbSide → ArbSide) : State := { s with arb := [f (s.arbSide 0), s.arbSide 1] }

/-- A wall time 20 ms after the last kettle. -/
def later : Nat := 65536000000000 + 65536 * 20000000

theorem test_hyps_higher_epochs_win : Met [
    (let s := sender 2 ([(ARB_EPOCH_EPOCH 0, 4)] ++ ether) none
     let w (e : Nat) : List Word72 := [BitVec.ofNat 72 (0x98 * 2 ^ 64 + e), 1]
     invB s && decide (s.suspended = false ∧ s.accepts (.datagram 4 7) = false ∧ s.accepts (.datagram 5 7) = true ∧
       ((w 5).getD 0 0).toNat / 2 ^ 64 = 0x98 ∧ s.on (QLK_TOPO_NODE_VALID (s.arbIdx 0)) = false ∧
       s.rd (ARB_EPOCH_EPOCH (s.arbIdx 0)) < ((w 5).getD 0 0).toNat % 2 ^ 32 ∧
       ((w 3).getD 0 0).toNat % 2 ^ 32 < s.rd (ARB_EPOCH_EPOCH (s.arbIdx 0)) ∧ s.frame < ((w 5).getD 1 0).toNat % 2 ^ 48 ∧
       s.isSender = true ∧ (0 : BitVec 6).toNat ≠ s.nodeOn 0 ∧ s.on (QLK_TOPO_NODE_VALID 0) = false ∧ (sender 2 ether none).accepts .ring = true)),
    (let s := sender 2 [(QLK_TOPO_NODE_VALID 0, 1), (QLK_TOPO_RING 0, 3), (WTU_FRAME_FRAME_NO, 1)] none
     let w (r : Nat) : List Word72 := [BitVec.ofNat 72 (0x98 * 2 ^ 64 + r * 2 ^ 38 + 5), 1]
     decide (((w 3).getD 0 0).toNat / 2 ^ 38 % 64 = s.rd (QLK_TOPO_RING (s.arbIdx 0)) ∧ ((w 3).getD 1 0).toNat % 2 ^ 48 ≤ s.frame ∧
       ((w 4).getD 0 0).toNat / 2 ^ 38 % 64 ≠ s.rd (QLK_TOPO_RING (s.arbIdx 0)) ∧ s.on (QLK_TOPO_NODE_VALID (s.arbIdx 0)) = true ∧
       s.frame + 1 < 2 ^ 48)),
    (let w : List Word72 := [BitVec.ofNat 72 (0x90 * 2 ^ 64)]
     let s := { bare with arb := List.replicate 2 { ArbSide.reset with held := [(⟨5, 6⟩, 4)] } }
     invB s && decide ((w.getD 0 0).toNat / 2 ^ 64 = 0x90 ∧ s.isTile = true ∧ s.suspended = false ∧
       (⟨5, 6⟩, 4) ∈ (s.arbSide 0).held ∧ (4 % 2 : Nat) = if (0 : BitVec 6) = 0 then 0 else 1)),
    (let s := sender0 (sender 4 [(ARB_TIMING_REQ_TMO_US, 100)] none) fun a => { a with asked := some (7, 65536) }
     invB s && decide (s.isSender = true ∧ s.suspended = false ∧ s.inTime 0 (7 : BitVec 12).toNat (101 * 65536000) = false ∧
       s.inTime 0 (6 : BitVec 12).toNat 65536 = false ∧ s.inTime 0 (7 : BitVec 12).toNat (65536 + 100 * 65536000) = true))] := by decide +kernel

theorem test_hyps_sender_states : Met [
    (let s := sender 1 ([(QLK_TOPO_NODE_VALID 0, 1), (ARB_TIMING_START_MS, 100)] ++ ether) none
     invB s && decide (s.isSender = true ∧ s.house.shut = false ∧ s.rd NVS_POWER_STATE ≠ 3 ∧ s.rd FMC_MEM_STAT_FAIL = 0 ∧
       s.on (QLK_TOPO_NODE_VALID 0) = true ∧ s.sideIsUp 0 = true ∧ s.on ARB_ETH_ETH_EN = true ∧ s.rd (ARB_STAT_STATE 0) = 1 ∧
       65536 / 65536 % 1000000 ≠ 0 ∧ 65536000000 / 65536 % 1000000 = 0 ∧
       6553599999999 < (s.side 0).upAt + msT (s.rd ARB_TIMING_START_MS) ∧ (s.side 0).upAt + msT (s.rd ARB_TIMING_START_MS) ≤ 6553600000000)),
    (let s := sender 3 [] none
     invB s && decide (s.suspended = false ∧ s.silent 0 later (usT (s.rd ARB_TIMING_MISS_US)) = true ∧
       s.silent 0 65536000000000 (usT (s.rd ARB_TIMING_MISS_US)) = false ∧ s.rd (ARB_STAT_STATE 0) = 3 ∧
       s.silent 0 later (msT (s.rd ARB_TIMING_TAKE_MS)) = true ∧ (s.rd (QLK_REACH_NODES 0)).testBit (s.rd (ARB_CFG_ARBITER 0)) = false ∧
       within (s.arbSide 0).arbAt later (msT (s.rd ARB_TIMING_TAKE_MS)) = false ∧
       within (s.arbSide 0).refusedAt later (msT (s.rd ARB_TIMING_TAKE_MS)) = false ∧ s.rd (ARB_EPOCH_EPOCH 0) + 1 < 2 ^ 32)),
    (let s := sender0 (sender 3 [(QLK_REACH_NODES 0, 32)] none) fun a => { a with arbAt := some later }
     invB s && decide ((s.rd (QLK_REACH_NODES 0)).testBit (s.rd (ARB_CFG_ARBITER 0)) = true ∧
       within (s.arbSide 0).arbAt later (msT (s.rd ARB_TIMING_TAKE_MS)) = true)),
    (let s := sender0 (sender 4 [(ARB_TIMING_REQ_TMO_US, 100)] none) fun a => { a with asked := some (7, later - 100 * 65536000) }
     invB s && decide (s.rd (ARB_STAT_STATE 0) = 4 ∧ s.silent 0 later (usT 3000) = true ∧ s.askAgain 0 later = true ∧
       s.askAgain 0 (later - 1) = false ∧ s.silent 0 (later - 1) (usT 3000) = true))] := by decide +kernel

theorem test_hyps_arbiter_answers : Met [
    (let s := { st [R 0, (QLK_TOPO_NODE 0, 5), (ARB_STAT_ARBITER 0, 5), (ARB_EPOCH_EPOCH 0, 4)] with
       arb := List.replicate 2 { ArbSide.reset with heard := [some (65536000000000, 3000), none], held := [(⟨5, 6⟩, 4)] } }
     let w := 65536000000000 + usT s.arbiterMiss
     invB s && decide (s.heldReqs < 16 ∧ s.isTile = true ∧ s.suspended = false ∧ s.rd (ARB_STAT_ARBITER 0) = s.node ∧
       (0x1005 : BitVec 18).toNat / 4096 ≠ 0 ∧ (0x1005 : BitVec 18).toNat / 4096 ≠ 63 ∧ (0x3F005 : BitVec 18).toNat / 4096 = 63 ∧
       (3 : BitVec 32).toNat < s.rd (ARB_EPOCH_EPOCH 0) ∧ s.rd (ARB_EPOCH_EPOCH 0) ≤ (4 : BitVec 32).toNat ∧ (4 : BitVec 32).toNat + 1 < 2 ^ 32 ∧
       s.missed (4 : BitVec 32).toNat w = true ∧ s.missed (4 : BitVec 32).toNat (w - 1) = false ∧ (⟨5, 6⟩, 4) ∈ (s.arbSide 0).held)),
    (let s := { st [R 0, (QLK_TOPO_NODE 0, 5)] with upd := { Upd.reset with susUntil := 1 } }
     decide (s.rd (ARB_STAT_ARBITER 0) ≠ s.node ∧ s.suspended = true ∧ s.missed 4 (usT s.arbiterMiss) = true))] := by decide +kernel

theorem test_hyps_swaps_and_rehearsals : Met [
    (let s := sender 2 [(ARB_REH_INTERVAL_H, 1), (ARB_EPOCH_REASON 0, 4), (ARB_REH_HOLD_S, 2)] none
     let w := 65536000000000
     invB s && decide (s.heldReqs < 16 ∧ s.swapOk 0 w = true ∧ s.swapOk 0 later = false ∧ (3 : BitVec 48).toNat < s.frame + 4 ∧
       s.frame + 4 ≤ (4 : BitVec 48).toNat ∧ s.suspended = false ∧ s.rd (ARB_EPOCH_EPOCH 0) + 1 < 2 ^ 32 ∧ s.mayTake 0 = false ∧
       s.mayRehearse 0 = true ∧ (s.arbSide 0).reh = none ∧ s.rehOk 0 w = true ∧ s.rehOk 0 later = false ∧ 0 < s.rd ARB_REH_INTERVAL_H)),
    decide ((sender 3 [] none).mayTake 0 = true ∧ (sender 3 [] none).suspended = false ∧ (sender 3 [] none).mayRehearse 0 = false),
    (let s := sender 2 [(WTU_FRAME_FRAME_NO, 10), (ARB_REH_HOLD_S, 2)] (some ⟨none, 8, false, true, true⟩)
     invB s && (s.arbSide 0).reh == some ⟨none, 8, false, true, true⟩ && decide (s.suspended = false ∧ s.rd (ARB_EPOCH_EPOCH 0) + 1 < 2 ^ 32 ∧
       s.holdOver 8 (s.tickTime 8 + msT 2000) = true ∧ s.holdOver 8 (s.tickTime 8 + msT 2000 - 1) = false) &&
       [3, 4, 5, 6].all fun r => s.rehFails ⟨none, 8, false, true, true⟩ r && (r == 6 || !s.rehFails ⟨none, 9, false, false, false⟩ r)),
    (let s := sender 2 [(ARB_EPOCH_REASON 0, 4), (ARB_APPLY_FRAME 0, 8), (WTU_TB_T0S_SEC, 0), (ARB_REH_HOLD_S, 0)] none
     let w := 65536000000000
     invB s && decide ((s.arbSide 0).reh = none ∧ s.swapOk 0 w = true ∧ s.rd (ARB_EPOCH_REASON 0) = 4 ∧
       s.holdOver (s.rd (ARB_APPLY_FRAME 0)) w = true ∧ (if s.rd (ARB_CFG_PREF 0) % 2 = 0 then 0 else 63) ≠ s.nodeOn 0))] := by decide +kernel

/-! ### Start, resets, power, saves (16) -/

theorem test_hyps_resets_by_kind : Met [
    (let s := { st [R 0, (CCC_WDT_EN, 1), (NVS_BOOT_STAT_STEP, 10)] with nvs := { Nvs.reset with restartDue := true, softKind := some 9 } }
     decide ((3 : BitVec 2) = 3 ∧ (0 : BitVec 2) ≠ 3 ∧ s.role ≠ 3 ∧ s.asleep = false ∧ s.nvs.safe = false ∧ s.nvs.clockLost = false ∧
       s.on CCC_WDT_EN = true ∧ 9 < s.rd NVS_BOOT_STAT_STEP ∧ s.house.absHeld = false ∧ s.nvs.restartDue = true ∧ s.nvs.softKind = some 9 ∧
       s.nvs.ops = [] ∧ s.house.standby = false)),
    (let s := { st [R 3] with nvs := { Nvs.reset with softKind := some 6, ops := [0], safe := true } }
     decide (s.role = 3 ∧ s.nvs.softKind = some 6 ∧ s.nvs.ops ≠ [] ∧ s.nvs.safe = true ∧ s.nvs.restartDue = false ∧ bare.nvs.softKind = none)),
    (let s := { st [R 0] with nvs := { Nvs.reset with clockLost := true }, house := { House.reset with standby := true, cool := 16 } }
     decide (s.house.standby = true ∧ s.house.cool = 16 ∧ s.nvs.clockLost = true ∧ s.role ≠ 3 ∧ bare.nvs.clockLost = false)),
    (let s := st [R 0, (NVS_POWER_STATE, 3), (NVS_SLEEP_CFG_ALARM_EN, 1)]
     decide (s.asleep = true ∧ s.role ≠ 3 ∧ s.on (wakeEnable .alarm) = true ∧ s.on (wakeEnable .pin) = false))] := by decide +kernel

theorem test_hyps_watchdog_expiry : Met [
    decide ((st [R 0]).role ≠ 3 ∧ (st [R 0]).on CCC_WDT_EN = false),
    (let s := st [R 0, (CCC_WDT_EN, 1), (NVS_BOOT_STAT_STEP, 10)]
     decide (s.on CCC_WDT_EN = true ∧ 9 < s.rd NVS_BOOT_STAT_STEP ∧ s.asleep = false ∧ s.nvs.safe = false ∧ s.house.absHeld = false ∧
       (s.wr NVS_BOOT_STAT_STEP 9).rd NVS_BOOT_STAT_STEP ≤ 9))] := by
  decide +kernel

theorem test_hyps_pins_of_the_endpoint : Met [
    (let s := st [R 1, (NVS_BOOT_STAT_STEP, 12), (DRV_STAT_PRESENT 3, 1)]
     decide (s.isTile = false ∧ 11 < s.rd NVS_BOOT_STAT_STEP ∧ s.on (DRV_STAT_PRESENT 3) = true ∧ s.on (DRV_STAT_PRESENT 0) = false))] := by
  decide +kernel

/-- A start whose step stands on a path. -/
def starting (k p : Nat) (l : List (Fld × Nat)) : State :=
  { st ([R 0, (NVS_BOOT_STAT_STEP, k)] ++ l) with nvs := { Nvs.reset with begun := some (k, p), path := p } }

/-- The end of a step, and its work. -/
def ended (ok : Bool) : StepEnd := ⟨ok, 0, 0⟩
def work : StepWork := ⟨0, false, [], 0, 0, 0, 0, [], []⟩

theorem test_hyps_start_steps : Met [
    decide (bare.nvs.begun = none),
    (let s := starting 15 1 []
     decide (s.nvs.begun = some (15, 1) ∧ (ended true).ok = true ∧ (ended false).ok = false ∧ s.stepStands 15 1 work = true ∧
       work.convertFail = false ∧ stepWaits 15 = false ∧ 0 < stepPaths 15 ∧ s.failCount 15 1 = 0 ∧ 1 < stepPaths 15 ∧ s.house.shut = false)),
    (let s := starting 9 0 []
     let s := { s with nvs := { s.nvs with setGens := [some [], none] } }
     (s.settingsOf s.nvs.path).isSome && decide (s.nvs.begun = some (9, 0) ∧ s.upd.trial = false ∧ s.isTile = true ∧
       s.rd NVS_BOOT_STAT_LAST_RESET < 6) && settingsFields.any fun f => f.acc == .rw && pageActive s.role f.page && !s.on (LOCK f.page)),
    ([3, 15].all fun k =>
      let s := starting k 1 []
      let s := { s with nvs := { s.nvs with fails := Tbl.set (Tbl.set [] (4 * k) 2) (4 * k + 1) 1 } }
      decide (s.nvs.begun = some (k, 1) ∧ stepWaits k = false ∧ 1 < stepPaths k ∧ s.failCount k 0 = 2 ∧ stepPaths k = 2 ∧ s.failCount k 1 = 1 ∧
        stepFatal k = (k == 3))),
    decide ((starting 13 0 []).nvs.begun = some (13, 0)),
    (let s := starting 16 0 [(NVS_BOOT_STAT_LAST_RESET, 7)]
     decide (s.nvs.begun = some (16, 0) ∧ s.house.shut = false ∧ s.rd NVS_BOOT_STAT_LAST_RESET < 8 ∧ s.on NVS_BOOT_STAT_FORCED_DARK = false ∧
       s.on UPD_SLOT_RECOVERY = false ∧ s.upd.probation = false))] := by decide +kernel

theorem test_hyps_soft_reset_requests : Met [
    (let s := { st [R 0, (NVS_BOOT_STAT_STEP, 17), (NVS_SAVE_DIRTY, 4)] with nvs := { Nvs.reset with softKind := some 8 } }
     decide (s.asleep = false ∧ s.rd NVS_BOOT_STAT_STEP = 17 ∧ s.house.shut = false ∧ (s.rd NVS_SAVE_DIRTY).testBit 2 = true ∧
       (0 : BitVec 8) ≠ 0xA5 ∧ s.nvs.clockLost = false ∧ s.nvs.softKind = some 8 ∧ bare.nvs.softKind = none)),
    decide ((st [R 0]).asleep = false ∧ (st [R 0]).rd NVS_BOOT_STAT_STEP ≠ 17 ∧ (st [R 0]).on (ERR_CAP0_VALID 3) = false ∧
      (st [R 0, (NVS_POWER_STATE, 3)]).asleep = true),
    (let s := { st [R 0] with nvs := { Nvs.reset with clockLost := true } }; decide (s.asleep = false ∧ s.nvs.clockLost = true))] := by
  decide +kernel

theorem test_hyps_power_requests : Met [
    (let s := { st [R 1, (NVS_BOOT_STAT_STEP, 17), (NVS_POWER_STATE, 1), (NVS_SLEEP_CFG_RAIL_GPIO, 12)] with nvs := { Nvs.reset with power := some ⟨3, 5, some ⟨5, 9⟩, true⟩ } }
     decide (s.heldReqs < 16 ∧ s.powerRefuse 2 = none ∧ s.powerRefuse 3 = none ∧ s.nvs.power = some ⟨3, 5, some ⟨5, 9⟩, true⟩ ∧
       s.rd NVS_BOOT_STAT_STEP = 17 ∧ s.asleep = false ∧ s.isSender = true ∧ s.nvs.ops = [])),
    (let s := { st [R 1] with nvs := { Nvs.reset with power := some ⟨2, 5, none, false⟩, ops := [1] } }
     decide (s.nvs.power = some ⟨2, 5, none, false⟩ ∧ s.nvs.ops ≠ [] ∧ bare.nvs.power = none)),
    decide ((st [R 0]).heldReqs < 16 ∧ (st [R 0]).rd NVS_BOOT_STAT_STEP ≠ 17)] := by decide +kernel

theorem test_hyps_generation_saves : Met [
    (let s := { st [R 0, (NVS_SAVE_DIRTY, 4)] with nvs := { Nvs.reset with ops := [2, 3], recBusy := true } }
     invB s && decide (s.house.shut = false ∧ s.reachable .remote = true ∧ s.asleep = false ∧ (s.rd NVS_SAVE_DIRTY).testBit 2 = true ∧
       (s.rd NVS_SAVE_DIRTY).testBit 0 = false ∧ s.nvs.ops = 2 :: [3] ∧ s.upd.trial = false ∧ s.nvs.recBusy = true)),
    (let s := { st [R 0, (UPD_ACT_STATE, 5)] with nvs := { Nvs.reset with ops := [0] }, upd := { Upd.reset with trial := true } }
     invB s && decide (s.house.shut = false ∧ s.nvs.ops = 0 :: [] ∧ s.upd.trial = true)),
    ([false, true].all fun h =>
      let u := { Upd.reset with fifo := [(1023, List.replicate 64 5)], half := h, turn := true }
      let s := { st [R 0] with nvs := { Nvs.reset with ops := [0], recBusy := true }, upd := u }
      invB s && decide (s.upd.fifo = (1023, List.replicate 64 5) :: [] ∧ s.upd.turn = true ∧ s.upd.half = h ∧ s.nvs.recBusy = true)),
    decide (bare.upd.fifo = [] ∧ bare.nvs.ops = [] ∧ bare.nvs.recBusy = false)] := by decide +kernel

/-! ### Registers (02) and the commands of registers -/

theorem test_hyps_register_accesses : Met [
    decide ((st [R 0]).reachable .pcie = false ∧ (st [R 0, (NVS_POWER_STATE, 3)]).reachable .spi = false ∧
      (st [R 1, (FMC_MEM_CFG_CAP_GIB, 2)]).rd FMC_MEM_CFG_CAP_GIB * 2 ^ 30 ≤ 2 ^ 31),
    (let s := st [R 1]
     s.reachable .pcie && ([CMP_CANVAS_W, QEN_CFG_PSIDE, WTU_NX_RATE_NUM].all fun f => decide (f ∈ allFields ∧ 0x80 ≤ f.off ∧
       (f.acc = .rw ∨ f.acc = .rws) ∧ pageActive s.role f.page = true ∧ (f.page, f.off) ∉ [(5, 0x80), (6, 0x98)] ∧
       s.loopFixed f.page f.off 5 = false ∧ s.busyField f.page f.off 5 = none ∧ s.fieldRsv f = false)) &&
       decide ((st [R 0]).fieldRsv WTU_NX_RATE_NUM = true ∧ pageActive s.role 0x15 = true)),
    (let s := { st [R 0] with ue := [0x600003] }
     decide (s.reachable .remote = true ∧ target (0x16000038 / 8 * 8) = .window 0x600003 8 ∧ s.ue.contains 0x600003 = true ∧
       target (0x2B080 / 8 * 8) = .page 0x2B 0x80)),
    (let s := { st [R 0] with host := { HostIf.reset with winHold := [(.remote, 5, 77)] } }
     decide (s.reachable .remote = true ∧ winReserved (16 * 5) = false ∧ pageActive s.role (winOwner 5) = false ∧
       lowHeld s.host.winHold .remote 5 = some 77)),
    (let s := st [R 0, (LOCK 0x20, 1)]
     decide (s.reachable .remote = true ∧ (0x2B : Nat) ∈ blockPages ∧ (TFS_GEOM_LW).acc = .rwk ∧ pageActive s.role 0x20 = true ∧
       s.on (LOCK 0x20) = true ∧ s.on (ERR_CAP0_VALID 0x20) = false)),
    decide (pageActive 0 0x10 = false ∧ offWritable (8 * 511) = false ∧ target 0x0B000 = .unmapped),
    (let s := { st [R 0] with host := { HostIf.reset with winHold := [(.remote, 0x6FFFFF, 77)] } }
     decide (s.hasPixels = true ∧ lowHeld s.host.winHold .remote (0x600000 + 0xFFFFF) = some 77 ∧
       lowHeld s.host.winHold .remote 0x600000 = none)),
    decide (TFS_CNT0_STALE.acc = .w1c ∧ 0x80 ≤ TFS_CNT0_STALE.off ∧ w1cBits TFS_CNT0_STALE = false ∧ noteKey TFS_CNT0_STALE.key = false ∧
      pageActive 0 TFS_CNT0_STALE.page = true)] := by decide +kernel

theorem test_hyps_page_headers : Met [
    decide ((st [R 0]).reachable .pcie = false ∧ (st [R 0]).reachable .remote = true ∧ 0x15 ∈ blockPages ∧ pageActive (st [R 0]).role 0x15 = false),
    (let s := { st [R 1] with commits := { Commits.reset with done := [0x15] } }
     decide (s.commits.done.contains 0x15 = true ∧ s.commits.done.contains 0x17 = false ∧ (st [(BLK_CTRL_BRST 9, 0)]).on (BLK_CTRL_BRST 9) = false)),
    (let s := st ([R 0, (BLK_CTRL_BRST 0x20, 1), (QP_LANE_STAT_STATE 0 4, 5)] ++ blockPages.map fun q => (BLK_STAT_RDY q, 1))
     decide (s.on (BLK_CTRL_BRST 0x20) = true ∧ s.lane 0 4 = 5 ∧ ∃ q ∈ crossings 0x20, q ≠ 0x20 ∧ pageActive s.role q = true ∧ s.on (BLK_STAT_RDY q) = true) &&
       (crossings 0x20).all fun q => !pageActive s.role q || (s.on (BLK_STAT_RDY q) && !s.on (BLK_CTRL_CGATE q))),
    (let s := { st [R 2, (BLK_CTRL_BRST 0x15, 1)] with host := { HostIf.reset with snapBusy := [0x15] } }
     decide (s.reachable .pcie = true ∧ 0x15 ∈ blockPages ∧ pageActive s.role 0x15 = true ∧ pageHasRws 0x15 = true ∧ pageHasRws 0 = false ∧
       s.on (BLK_CTRL_BRST 0x15) = true ∧ s.on (BLK_STAT_XOVF 0x15) = false ∧ s.on (ERR_CAP0_VALID 0x15) = false ∧ 0x15 ∈ s.host.snapBusy ∧
       3 ∉ s.host.snapBusy ∧ (43 : BitVec 6).toNat < 44 ∧ s.host.msixOpen.toNat.testBit 43 = false)),
    (let s := st ([R 1, (INT_EN_EN 8, 16), (INT_RAW_RAW 8, 16)])
     decide ((List.range 44).any fun v => s.host.msixOpen.toNat.testBit v == false && decide (s.intStat v ≠ 0)))] := by decide +kernel

theorem test_hyps_remote_debug_and_bulk_access : Met [
    (let s := { st [R 0, (HIF_RA_STAT_BUSY, 1), (HIF_RA_CTRL_TMO_US, 250)] with
       host := { HostIf.reset with ra := some ⟨63, 2, 4095, 100, false⟩, raLate := [(5, 7)] } }
     decide (s.reachable .remote = true ∧ s.on HIF_RA_STAT_BUSY = true ∧ s.on (ERR_CAP0_VALID 0) = false ∧ 250 ≤ s.rd HIF_RA_CTRL_TMO_US ∧
       s.rd HIF_RA_CTRL_TMO_US ≤ 100000 ∧ ((5 : BitVec 6).toNat, (7 : BitVec 12).toNat) ∈ s.host.raLate ∧
       ((63 : BitVec 6).toNat, (4095 : BitVec 12).toNat) ∉ s.host.raLate ∧ s.host.ra = some ⟨63, 2, 4095, 100, false⟩ ∧
       100 + 200 * 65536000 ≤ 100 + 200 * 65536000 ∧ 0 < 100 + 200 * 65536000)),
    (let s := st [R 0, (HIF_RA_ADDR_NODE, 62)]
     decide (s.on HIF_RA_STAT_BUSY = false ∧ s.enumerated (s.rd HIF_RA_ADDR_NODE) = false)),
    (let s := st [R 0, (HIF_RA_ADDR_NODE, 63), (QLK_REACH_NODES 1, 2 ^ 63)]
     decide (s.on HIF_RA_STAT_BUSY = false ∧ s.enumerated (s.rd HIF_RA_ADDR_NODE) = true ∧ s.reaches (s.rd HIF_RA_ADDR_NODE) = true ∧
       ahead 100 (65536 * 100) = false ∧ ahead 100 (65536 * 99) = true ∧ (0x3FFFF : BitVec 18).toNat / 4096 = 63 ∧ s.host.remoteForbidden = false ∧
       s.reachable .remote = true ∧ s.addrCode 0x0B000 ≠ 0 ∧ target 0x2B020 = .page 0x2B 0x20 ∧ s.addrCode 0x2B020 = 0 ∧ 0x2B ∈ blockPages)),
    (let s := { st [R 1, (QLK_TOPO_NODE 0, 63), (QLK_REACH_NODES 0, 32), (QP_SIDE_STAT_STATE 0, 2)] with
       host := { HostIf.reset with remoteForbidden := true }, link := { Link.reset with relays := [⟨5, 7, 9, 1⟩] } }
     decide (s.host.remoteForbidden = true ∧ s.reaches ((0x5123 : BitVec 18).toNat / 4096) = true ∧ s.reachable .remote = true ∧ s.isSender = true ∧
       s.link.relays.head?.isSome = true ∧ s.host.raLate = [] ∧ s.host.ra = none)),
    (let s := st [R 0, (NVS_POWER_STATE, 3)]; decide (s.reachable .spi = false ∧ s.reachable .remote = false)),
    (let s := { st [R 0] with host := { HostIf.reset with spiLocked := true } }; decide (s.reachable .spi = true ∧ s.host.spiLocked = true)),
    (let s := st [R 0, (QLK_TOPO_NODE 0, 5)]
     decide (s.reachable .spi = true ∧ s.host.spiLocked = false ∧ s.hasPixels = true ∧ s.heldReqs < 16 ∧ (5 : BitVec 6).toNat = s.node ∧
       (17900 : BitVec 16).toNat ≤ 17900 ∧ 0x100000 - 17900 + (17900 : BitVec 16).toNat ≤ 0x100000 ∧ s.ue = [] ∧
       (62 : BitVec 6).toNat ≠ s.node ∧ s.enumerated (62 : BitVec 6).toNat = false))] := by decide +kernel

theorem test_hyps_sender_register_commands : Met [
    decide ((st [R 1, (NVS_POWER_STATE, 3)]).reachable .pcie = false ∧ (sender 2 [] (some ⟨none, 8, false, false, false⟩)).mayRehearse 0 = true ∧
      ((sender 2 [] (some ⟨none, 8, false, false, false⟩)).arbSide 0).reh.isSome = true),
    (let s := { port 1 with ports := List.replicate 4 { Port.reset with joined := true } }
     decide (s.ingMode 3 = 1 ∧ (1 : Nat) = s.ingMode 3 ∧ s.ingMode 0 = 0 ∧ (s.port 3).joined = true)),
    (let s := { st [R 1, (ING_CFG_MODE 3, 2), (ING_CFG_HPD_EN 2, 1), (ING_CFG_MODE 2, 1), (BLK_CTRL_EN 0x12, 1)] with
       ports := List.replicate 4 { Port.reset with cur := some 3 } }
     invB s && decide (s.reachable .pcie = true ∧ pageActive s.role 0x10 = true ∧ s.ingMode 3 = 2 ∧ (0 : Nat) ≠ s.ingMode 3 ∧
       (s.port 3).cur.isSome = true ∧ s.hpd 2 = true ∧ isMulticast (0xE0000001 % 2 ^ 32) = true)),
    (let s := (bare.setBufState 4095 1 0).setBufState 16 2 5
     decide (pageActive 1 0x15 = true ∧ bare.bufState 4095 = 0 ∧ (15 : BitVec 12).toNat < 16 ∧ 16 ≤ (4095 : BitVec 12).toNat ∧
       s.bufState (4095 : BitVec 12).toNat = 1 ∧ 1 < s.bufState (16 : BitVec 12).toNat)),
    decide (pageActive 1 0x17 = true ∧ bare.on IMP_PREP_STAT_BUSY = false ∧ (st [(IMP_PREP_STAT_BUSY, 1)]).on IMP_PREP_STAT_BUSY = true),
    (let s := sender 2 [(ARB_SWAP_APPLY_FRAME, 4)] none
     let w := 65536000000000
     invB s && decide (s.swapOk 0 w = true ∧ s.swapOk 0 later = false ∧ s.suspended = false ∧ s.rd (ARB_EPOCH_EPOCH 0) + 1 < 2 ^ 32 ∧
       s.frame + 4 ≤ s.swapFrame (s.rd ARB_SWAP_APPLY_FRAME) ∧ s.swapFrame (s.rd ARB_SWAP_APPLY_FRAME) < 2 ^ 48 ∧
       s.rd ARB_SWAP_APPLY_FRAME < 2 ^ 48 ∧ s.mayTake 0 = false ∧ s.mayRehearse 0 = true ∧ (s.arbSide 0).reh = none ∧ s.rehOk 0 w = true)),
    decide ((sender 3 [] none).mayTake 0 = true ∧ (sender 3 [] none).mayRehearse 0 = false)] := by decide +kernel

theorem test_hyps_link_and_queue_register_commands : Met [
    decide ((st [R 0, (NVS_POWER_STATE, 3)]).reachable .remote = false ∧ (lanes 0 5 []).lane 0 4 = 5 ∧ (lanes 0 5 []).sideIsUp 0 = false ∧
      7 ≤ (up 0 [(QP_LANE_STAT_LOG 0 4, 7)]).logOf 0 4 ∧ (7 : Word).toNat % 2 ^ 48 < (clock 1 []).frame + 8),
    (let s := up 1 []
     invB s && decide (s.reachable .pcie = true ∧ s.sideIsUp 0 = true ∧ (3 : BitVec 4).toNat < 5 ∧ s.logOf 0 3 < 7 ∧ s.spareUp 0 = true ∧
       (s.rd (QP_SIDE_STAT_LANE_WORN 0)).testBit (s.rd (QP_SIDE_STAT_SPARE 0)) = false ∧ 5 ≤ (15 : BitVec 4).toNat ∧ s.isSender = true)),
    decide ((st [R 0]).isSender = false ∧ (st [R 0]).isTile = true ∧ (st [R 0]).on (ERR_CAP0_VALID 8) = false),
    (let s := clock 1 [(WTU_NX_RATE_NUM, 60000), (WTU_NX_RATE_DEN, 1000), (WTU_NX_T0S_SEC, 1000), (WTU_NX_T0NS_L_US, 500)]
     let new := s.nx
     decide (s.isTile = false ∧ (8 : Word).toNat / 2 ^ 50 = 0 ∧ 7 < s.frame + 8 ∧ s.frame + 8 ≤ (8 : Word).toNat % 2 ^ 48) &&
       decide (¬(new.tick 8 < s.tb.tick 8 ∨ s.tb.tick 8 + (new.tick 9 - new.tick 8) < new.tick 8 ∨
         new.tick 8 ≤ s.tb.tick 7 + new.lUs * 65536000))),
    (let s := clock 1 [(WTU_NX_RATE_NUM, 60000), (WTU_NX_RATE_DEN, 1000), (WTU_NX_T0S_SEC, 999)]
     decide (s.nx.tick 8 < s.tb.tick 8)),
    (let s := queue 1 3 10 (queue 0 3 5 bare)
     decide ((3 : BitVec 12) ≠ 0 ∧ (s.queue 5).valid = false ∧ (s.queue 0).valid = true ∧ (s.queue 1).valid = true ∧
       (11 + 2 * (s.queue 0).size - (s.queue 0).head % (2 * (s.queue 0).size)) % (2 * (s.queue 0).size) ≤ (s.queue 0).size ∧
       (s.queue 0).size < (12 + 2 * (s.queue 0).size - (s.queue 0).head % (2 * (s.queue 0).size)) % (2 * (s.queue 0).size) ∧
       (10 + 2 * (s.queue 1).size - (s.queue 1).head % (2 * (s.queue 1).size)) % (2 * (s.queue 1).size) ≤ (s.queue 1).used ∧
       (s.queue 1).used < (11 + 2 * (s.queue 1).size - (s.queue 1).head % (2 * (s.queue 1).size)) % (2 * (s.queue 1).size))),
    decide (bare.on CCC_TRACE_STAT_FROZEN = false)] := by decide +kernel

theorem test_hyps_tile_register_commands : Met [
    decide ((st [R 0, (NVS_POWER_STATE, 3)]).reachable .remote = false ∧ (st [R 0, (LHM_CMD_BUSY, 1)]).on LHM_CMD_BUSY = true ∧
      (st [R 0, (LHM_CMD_BUSY, 1)]).health.cmd = none ∧ { Health.reset with cmd := some (1, lampKey 3 127 383) }.cmd.isSome = true),
    (let s := { st [R 0, (LHM_CFG_STALE, 5), (LHM_CFG_AGE_UNIT, 1), (WTU_FRAME_FRAME_NO, 1)] with
       health := { Health.reset with cur := { LampMap.reset with lamps := [(lampKey 3 127 383, ⟨1, 3, 2, true, 1, false, none⟩)] } } }
     decide ((s.lamp 0).st ≠ 1 ∧ (bare.rd LHM_CFG_STALE = 0) ∧
       (s.lamp (lampKey 3 127 383)).age s.frame (s.rd LHM_CFG_AGE_UNIT) < s.rd LHM_CFG_STALE)),
    (let s := { st [R 0, (SCN_CTRL_LAMP_EN, 1), (DRV_STAT_OUT_ON 3, 1), (LHM_CFG_STALE, 5), (LHM_CFG_AGE_UNIT, 1), (WTU_FRAME_FRAME_NO, 1000)] with
       health := { Health.reset with cur := { LampMap.reset with lamps := [(lampKey 3 127 383, ⟨1, 3, 2, true, 1, false, none⟩)] } } }
     invB s && decide (s.reachable .remote = true ∧ s.hasPixels = true ∧ s.on (LOCK 0x20) = false ∧ s.house.shut = false ∧ s.nvs.ops = [] ∧
       s.on SCN_CTRL_LAMP_EN = true ∧ s.on (DRV_STAT_OUT_ON 3) = true ∧ s.isLit = true ∧ s.on LHM_CMD_BUSY = false ∧ s.scan.banks.length = 4 ∧
       s.health.cur.rows.length = 4 ∧ s.health.cur.cols.length = 4 ∧ (s.lamp (lampKey 3 127 383)).st = 1 ∧ s.rd LHM_CFG_STALE ≠ 0 ∧
       s.rd LHM_CFG_STALE ≤ (s.lamp (lampKey 3 127 383)).age s.frame (s.rd LHM_CFG_AGE_UNIT))),
    (let s := st [R 0, (LOCK 0x20, 1), (LHM_CMD_BUSY, 1)]
     invB s && decide (s.on (LOCK 0x20) = true ∧ s.on (ERR_CAP0_VALID 0x20) = false ∧ s.on LHM_CMD_BUSY = true))] := by decide +kernel

theorem test_hyps_rail_register_commands : Met [
    decide ((st [R 0, (NVS_POWER_STATE, 3)]).reachable .remote = false ∧ (loop7 2 Loop.reset []).rd (RCE_LOOP_STAT_STATE 7) ≠ 5 ∧
      (loop7 4 Loop.reset [(RCE_LOOP_STAT_SAFE_WHY 7, 1)]).rd (RCE_LOOP_STAT_SAFE_WHY 7) = 1 ∧
      (loop7 0 Loop.reset []).rd (RCE_LOOP_STAT_STATE 7) = 0 ∧ (loop7 0 Loop.reset []).rd (RCE_LOOP_CFG_EN 7) < 2),
    (let s := loop7 2 Loop.reset []
     invB s && decide (s.reachable .remote = true ∧ s.loopFixed 7 (0x100 + 0x80 * 7) (4 + 2 ^ 3) = true ∧ s.on (ERR_CAP0_VALID 7) = false ∧
       s.on (RCE_LOOP_CFG_EN 7) = true ∧ (RCE_LOOP_CFG_KIND 7).of 1 < 4 ∧ s.rd (RCE_LOOP_STAT_STATE 7) ≠ 0 ∧
       s.rd (RCE_LOOP_STAT_STATE 7) ≠ 4)),
    (let s := loop7 2 Loop.reset []
     let v := 1 <<< (RCE_LOOP_CFG_KIND 7).lo
     decide (s.on (RCE_LOOP_CFG_EN 7) = true ∧ v.testBit 2 = false ∧ v.testBit 31 = false ∧ s.loopFixed 7 (0x100 + 0x80 * 7) v = false)),
    (let s := loop7 0 Loop.reset [(RCE_LOOP_CFG_OUT 7, 3)]
     decide (s.rd (RCE_LOOP_CFG_EN 0) = 0 ∧ (4 : Nat).testBit 2 = true ∧ (4 : Nat).testBit 31 = false ∧ s.outUsed 0 ((RCE_LOOP_CFG_OUT 0).of 4) = false ∧
       s.outUsed 0 ((RCE_LOOP_CFG_OUT 0).of (4 + 3 <<< (RCE_LOOP_CFG_OUT 0).lo)) = true ∧ s.rd (RCE_LOOP_STAT_STATE 0) = 0)),
    (let s := loop7 4 Loop.reset [(RCE_LOOP_STAT_SAFE_WHY 7, 2), (RCE_LOOP_STAT_STATE 6, 5)]
     decide (s.rd (RCE_LOOP_STAT_STATE 7) = 4 ∧ s.rd (RCE_LOOP_STAT_SAFE_WHY 7) ≠ 1 ∧ s.rd (RCE_LOOP_CFG_EN 7) < 2 ∧
       s.rd (RCE_LOOP_STAT_STATE 6) = 5)),
    (let s := cabinet [(STR_IDX_TARGET, 3)]
     decide (s.rd HKT_THRESH_WARN_C < 256 ∧ s.rd HKT_THRESH_THROTTLE_C < 256 ∧ s.rd HKT_THRESH_SHUTDOWN_C < 256 ∧
       125 * 65536 / 65536 % 256 ≤ s.rd HKT_THRESH_SHUTDOWN_C ∧ 40 ≤ 40 * 65536 / 65536 % 256 ∧
       s.rd HKT_THRESH_SHUTDOWN_C < 126 * 65536 / 65536 % 256 ∧ s.rd STR_IDX_TARGET = 3 ∧ (cabinet []).rd STR_IDX_TARGET ≠ 3 ∧
       (0x80 : BitVec 8).toInt < (trimRange ((cabinet []).rd STR_IDX_TARGET)).1))] := by decide +kernel

/-! ### Recorder, latch points and ticks (18, 02) -/

theorem test_hyps_recorder_commands : Met [
    decide ((st [R 0, (NVS_POWER_STATE, 3)]).reachable .remote = false ∧ (st [R 0]).rd REC_STAT_STATE ≠ 1 ∧ (st [R 0]).recd.capturing = none ∧
      { Rec.reset with capturing := some 5 }.capturing = some 5 ∧ 5 < (st [R 0, (REC_CTRL_CAP_SLOTS, 6)]).rd REC_CTRL_CAP_SLOTS ∧
      (st [R 0]).rd REC_STAT_STATE ≠ 3 ∧ (st [R 0]).reachable .remote = true ∧ (st [R 0]).rd REC_CTRL_MODE < 3 ∧ (st [R 0]).replayable = false ∧
      (st [R 0]).rd REC_STAT_STATE ≠ 2),
    (let s := st [R 0, (REC_CTRL_MODE, 2), (NVS_POWER_STATE, 0)]
     decide (s.recModeBusy 2 = true ∧ s.recModeBusy 1 = false ∧ min 1 2 ≠ s.rd REC_CTRL_MODE ∧ s.rd REC_CTRL_MODE = 2 ∧ s.hasPixels = true ∧
       s.heldReqs < 16 ∧ s.isSender = false)),
    decide ((st [R 0, (REC_CTRL_MODE, 2)]).reachable .remote = true ∧ (st [R 0, (REC_CTRL_MODE, 2)]).rd REC_CTRL_MODE < 3 ∧
      (st [R 0, (REC_CTRL_MODE, 2)]).recModeBusy 2 = true ∧ (st [R 0, (REC_CTRL_MODE, 2)]).recModeBusy 1 = false ∧
      (st [R 0, (REC_CTRL_MODE, 2)]).hasPixels = true),
    (let s := { st [R 0, (REC_CTRL_MODE, 1), (REC_CTRL_CAP_SLOTS, 6), (REC_STAT_STATE, 1), (REC_CTRL_CAP_EN, 1)] with
       recd := { Rec.reset with post := some 0 } }
     decide (s.rd REC_CTRL_MODE < 2 ∧ 1 ≤ s.rd REC_CTRL_CAP_SLOTS ∧ s.rd REC_CTRL_CAP_SLOTS ≤ 6 ∧ s.rd REC_STAT_STATE = 1 ∧
       s.recd.capturing = none ∧ (s.rd (INT_EN_EN 10)).testBit 4 = false ∧ s.on REC_CTRL_CAP_EN = true ∧ s.isSender = false ∧
       s.recd.post = some 0)),
    (let s := { st [R 0, (REC_CTRL_CAP_SLOTS, 6), (REC_STAT_STATE, 2)] with recd := { Rec.reset with capturing := some 6 } }
     decide (s.rd REC_STAT_STATE = 2 ∧ s.recd.capturing = some 6 ∧ s.rd REC_CTRL_CAP_SLOTS ≤ 6 ∧ (s.rd (INT_EN_EN 10)).testBit 6 = false)),
    (let s := st [R 0, (NVS_POWER_STATE, 1), (REC_CTRL_MODE, 2), (REC_STAT_STATE, 2)]
     decide (s.rd REC_CTRL_MODE < 3 ∧ s.replayable = true ∧ s.rd REC_STAT_STATE < 3 ∧ s.heldReqs < 16)),
    (let s := { st [R 0, (NVS_POWER_STATE, 1), (REC_CTRL_MODE, 2), (REC_STAT_STATE, 3), (REC_CTRL_CAP_SLOTS, 8)] with
       recd := { Rec.reset with before := 2, replayReq := some ⟨5, 6⟩ } }
     decide (s.rd REC_STAT_STATE = 3 ∧ s.isBench = false ∧ s.rd REC_CTRL_CAP_SLOTS ≤ 8 ∧ s.recd.before < 3 ∧ s.recd.replayReq = some ⟨5, 6⟩ ∧
       s.heldReqs < 16 ∧ s.replayable = true)),
    decide (bare.heldReqs < 16 ∧ bare.isSender = false ∧ bare.recModeBusy 1 = false ∧ bare.replayable = false ∧
      (1 : BitVec 48).toNat < bare.frame + 2 ∧ bare.frame + 2 ≤ (2 : BitVec 48).toNat)] := by decide +kernel

/-- A node whose ticks run, with a commit of page 0x21 pending for the coming tick. -/
def ticking (done : Bool) (held : Option Bool) : State :=
  let s := clock 1 [(NVS_BOOT_STAT_STEP, 17), (WTU_SRC_STAT_STATE, 2), (NVS_POWER_STATE, 1)]
  { s with latchDone := done, commits := { Commits.reset with pend := [(0x15, 1)], latched := [0x17] }, wtu := { Wtu.reset with hasTb := true, held := held } }

theorem test_hyps_latch_points_and_ticks : Met [
    decide ((st [R 0, (NVS_POWER_STATE, 3)]).ticking = false), decide ((ticking true none).latchDone = true),
    (let s := ticking false (some false)
     decide (s.ticking = true ∧ s.latchDone = false ∧ s.nvs.policyNext = [] ∧ s.decideHeld.wtu.held ≠ some true ∧ 0x15 ∈ blockPages ∧
       pageHasRws 0x15 = true ∧ (0x15, s.frame + 1) ∈ s.commits.pend)),
    (let s := ticking false (some true); decide (s.ticking = true ∧ s.latchDone = false ∧ s.decideHeld.wtu.held = some true)),
    (let s := ticking true (some true)
     decide (s.ticking = true ∧ s.latchDone = true ∧ s.frame + 1 < 2 ^ 48 ∧ pageHasRws 0x17 = true ∧ 0x17 ∈ s.commits.latched ∧
       s.nvs.policyNext = [] ∧ s.wtu.switch = none))] := by decide +kernel

/-! ### Update (17) -/

/-- A key and a bundle that it signs, made for the tests with the private key 0x123456789ABCDEF0FEDCBA9876543210: SEQ 9, key slot 1, one firmware
component of eight zero bytes at 4,096; and the key's signatures of an ENROLL of 5 in slot 4 and of a REVOKE of slot 4. -/
def signKey : Nat :=
  0x9bf01b50f0203e9a29dbddbbbfa0d038119aecfec506e66040353ee734d7cfbbab38fc0f8bc9df6f54a396bd31719ac5a35d04a878bb6398 * 16 ^ 80 +
  0x12a85459694eedea5c281b9b95c5cbb7ed44044455a5ee9d671dcc94f3fa1e898df2c5ffc0a19162
def bundleBytes : List Nat := beBytes 304
  (0x4858434c0100010009000000000000006091000000ff00000000000000000000010000000900000003000000000000000100000000100000 * 16 ^ 496 +
   0x08000000000000007c2db09d310ece0b36d50c86e4c3e6641684948cd6fc03262b0d0ed91a6cfbc3cd5affd396c1f85fd0a109b103364b19 * 16 ^ 384 +
   0x9bf01b50f0203e9a29dbddbbbfa0d038119aecfec506e66040353ee734d7cfbbab38fc0f8bc9df6f54a396bd31719ac5a35d04a878bb6398 * 16 ^ 272 +
   0x12a85459694eedea5c281b9b95c5cbb7ed44044455a5ee9d671dcc94f3fa1e898df2c5ffc0a19162f43f21997c2ae29de689cfe1ab3affd9 * 16 ^ 160 +
   0x03c51721cbb02a551d03ae9b8a90e503c4453df1607430c2528c8f5462eed76794f62a1d7c4ede7ad32a32c5e7fa5446550c8a40b148c95a * 16 ^ 48 +
   0x50eee4ba3eb49203fcddead45601478ee65e47eb18816947)
def bundleId : Nat := 240029349
def enrollSig : Nat :=
  0x27472c18a7af9bef8f913de8c06bf305032d0c71942935816e9f97431e26e93fbdaccd7452d5ffb6efc8cafd9a11b5c2ac375f8acf4b97ab * 16 ^ 80 +
  0xddfc10e90edc016a9275de99e87b85f11dbc6adaa828e76b43a0d746a9abdd071dcec4b4a8aabecf
def revokeSig : Nat :=
  0x536289ec964f8a621f514bd61ab16e11bfc1c916e9cff837aa3e0aa1e898e039e93b90f1440db365e8ff8f474b8b7719eb663913d9a87c27 * 16 ^ 80 +
  0x9ea1d2bb5f98402c8a12632147820e4a02fe94bacb7acecaa3f0b24c277c911389735ae51b0de425

/-- The bundle's words, nine bytes each, and its folio words. -/
def bundleWord (i : Nat) : Word72 := BitVec.ofNat 72 (leNat ((bundleBytes.drop (9 * i)).take 9))
def bundleBody (i : Nat) : List Word72 := (List.range 64).map fun w => bundleWord (64 * i + w)

/-- A node whose key 1 is enrolled; with its bundle in the spare slot; with the bundle in frame memory from address 64 on. -/
def node (r : Nat) (l : List (Fld × Nat)) (f : Upd → Upd) : State :=
  { st ([R r, (NVS_BOOT_STAT_STEP, 17), (UPD_KEYS_VALID, 1), (UPD_CFG_PASSES, 2), (QLK_TOPO_RING 0, 1), (QLK_TOPO_RING 1, 3)] ++ l) with
    upd := f { Upd.reset with keys := [signKey, 0, 0, 0] } }
def filled (s : State) : State := s.writeSlot s.spareSlot 0 ((List.range 34).map bundleWord)
def placed (s : State) : State :=
  { s with mem := (bundleBytes.zipIdx.filter fun e => e.1 != 0).map fun e => (64 + e.2, BitVec.ofNat 8 e.1) }

/-- A colophon that the key of slot 1 signs and that every stepping passes. -/
def goodFor (s : State) (c : Colophon) : Bool :=
  ecdsaP384 (halves c.pubkey) c.hash (halves c.sig) && decide (c.keySlot = 1 ∧ (s.rd UPD_KEYS_VALID).testBit 0 = true ∧
    s.upd.keys.getD 0 0 = c.pubkey ∧ c.hwType = 0x9160 ∧ c.stepMin = 0 ∧ c.stepMax = 255 ∧ c.unitBound = false ∧
    s.rd UPD_FLOOR_SEQ_FLOOR ≤ c.seq.toNat ∧ c.recovery = false)

/-- It passes the checks: they read the stepping, whose value nothing fixes. -/
theorem goodFor_passes {s : State} {c : Colophon} (h : goodFor s c = true) : s.colReason c false = 0 := by
  simp only [goodFor, Bool.and_eq_true, decide_eq_true_eq] at h
  obtain ⟨h0, h1, h2, h3, h4, h5, h6, h7, h8, h9⟩ := h
  have g : ¬255 < Config.stepping.toNat := by have := Config.stepping.isLt; omega
  have k : ¬c.seq.toNat < s.rd UPD_FLOOR_SEQ_FLOOR := by omega
  have e : s.upd.keys[0]?.getD 0 = c.pubkey := h3
  simp [State.colReason, h0, h1, h2, e, h4, h5, h6, h7, h9, g, k]

/-- STAGE of the placed bundle: it passes, and CIDs and SEQs of what is being received differ from it, or conflict with it. -/
theorem test_hyps_staging : let s := placed (node 1 [] id)
    s.Inv ∧ s.heldReqs < 16 ∧ s.isTile = false ∧
    ∃ c, readColophon (s.taken.hostByte 64 4104) 4104 = some c ∧ s.stageReason (s.taken.hostByte 64 4104) (some c) = 0 ∧
      (∀ e ∈ s.upd.barred, e.2 ≠ c.seq.toNat) ∧ c.cid = BitVec.ofNat 32 bundleId ∧ s.upd.col = none ∧
      (colophon 7).cid ≠ c.cid ∧ (colophon 7).seq = c.seq ∧ ({ colophon 7 with seq := 8 } : Colophon).seq.toNat < c.seq.toNat := by
  have h : ((readColophon ((placed (node 1 [] id)).taken.hostByte 64 4104) 4104).any fun c => goodFor (placed (node 1 [] id)) c &&
      digestsOk ((placed (node 1 [] id)).taken.hostByte 64 4104) c && decide (c.cid = BitVec.ofNat 32 bundleId ∧ c.seq = 9)) = true := by
    decide +kernel
  obtain ⟨c, hc, hg⟩ := Option.any_eq_true _ _ |>.mp h
  simp only [Bool.and_eq_true, decide_eq_true_eq] at hg
  have hi : (colophon 7).cid ≠ BitVec.ofNat 32 bundleId := by decide +kernel
  refine ⟨inv_of_invB (by decide +kernel), by decide +kernel, by decide +kernel, c, hc, ?_, by simp [placed, node, Upd.reset], hg.2.1,
    by simp [placed, node, Upd.reset], ?_, ?_, ?_⟩
  · have hp : (placed (node 1 [] id)).upd.probation = false := by decide +kernel
    simp [State.stageReason, hp, goodFor_passes hg.1.1, hg.1.2]
  · rw [hg.2.1]; exact hi
  · rw [hg.2.2]; rfl
  · rw [hg.2.2]; decide

/-- A tile that holds seven of the bundle's eight colophon folios. -/
def seven : State := node 0 [] fun u => { u with colCid := bundleId, colGot := 0x7F, colWords := (filled (node 0 [] id)).slotTbl 1 }

/-- The colophon folios of the bundle: the last of the eight completes a good colophon. -/
theorem test_hyps_staging_colophon : let s := seven
    let held := s.holdColophon bundleId 7 (bundleBody 7)
    held.upd.colGot = 255 ∧ s.upd.probation = false ∧
      ∃ k, readColophon (wordByte held.upd.colWords) (min slotBytes (576 * 8)) = some k ∧ s.colReason k false = 0 ∧ k.cid.toNat = bundleId ∧
        k.seq.toNat % 2 ^ 32 = 9 ∧ (∀ e ∈ s.upd.barred, e.2 ≠ k.seq.toNat) ∧ s.upd.col = none := by
  have h : ((readColophon (wordByte (seven.holdColophon bundleId 7 (bundleBody 7)).upd.colWords) (min slotBytes (576 * 8))).any
      fun c => goodFor seven c && decide (c.cid.toNat = bundleId ∧ c.seq = 9)) = true := by decide +kernel
  obtain ⟨c, hc, hg⟩ := Option.any_eq_true _ _ |>.mp h
  simp only [Bool.and_eq_true, decide_eq_true_eq] at hg
  refine ⟨by decide +kernel, by decide +kernel, c, hc, goodFor_passes hg.1, hg.2.1, ?_, by simp [seven, node, Upd.reset], by simp [seven, node, Upd.reset]⟩
  rw [hg.2.2]; rfl

/-- A request that the root key signs: the fuses hold the hash of the root key, which no hypothesis can name; with the test's key as the root
key the two requests are allowed, and without a signature none is. -/
theorem test_hyps_keys (h : Config.rootKeyPresent = true) (k : Config.rootKeyHash = sha384 (beBytes 96 signKey)) :
    keyAllowed 0 signKey enrollSig (keyMessage [0x45, 0x4E, 0x52, 0x4C] 4 (beBytes 96 5) 0) = true ∧
    keyAllowed 0 signKey revokeSig (keyMessage [0x52, 0x56, 0x4F, 0x4B] 4 [] 0) = true := by
  have e : ecdsaP384 (halves signKey) (sha384 (keyMessage [0x45, 0x4E, 0x52, 0x4C] 4 (beBytes 96 5) 0)) (halves enrollSig) = true := by decide +kernel
  have v : ecdsaP384 (halves signKey) (sha384 (keyMessage [0x52, 0x56, 0x4F, 0x4B] 4 [] 0)) (halves revokeSig) = true := by decide +kernel
  constructor <;> simp only [keyAllowed, isRootKey, h, k, e, v, beq_self_eq_true, Bool.true_or, Bool.and_self]

theorem test_hyps_unsigned : keyAllowed 0 signKey 0 (keyMessage [0x52, 0x56, 0x4F, 0x4B] 4 [] 0) = false := by
  have v : ecdsaP384 (halves signKey) (sha384 (keyMessage [0x52, 0x56, 0x4F, 0x4B] 4 [] 0)) (halves 0) = false := by decide +kernel
  simp only [keyAllowed, v, Bool.and_false]

theorem test_hyps_staging_and_keys : Met [
    decide ((node 0 [] id).isTile = true) && invB (filled (node 0 [] id)),
    (let s := node 1 [] fun u => { u with probation := true }
     decide (s.isTile = false ∧ s.stageReason (s.taken.hostByte 0 576) none ≠ 0 ∧
       (node 1 [] id).stageReason ((node 1 [] id).taken.hostByte 0 576) none ≠ 0)),
    (let s := node 1 ([(UPD_STAGE_STATE, 1), (UPD_STAGE_CID_CID, 7), (UPD_STAGE_TOTAL, 9)] ++ ether) fun u => { u with fifo := List.replicate 31 (20, []) }
     let w (i : Nat) : List Word72 := [BitVec.ofNat 72 (0x9A * 2 ^ 64 + 7 * 2 ^ 32), BitVec.ofNat 72 (0x9B * 2 ^ 64 + 15 * 2 ^ 36 + i)]
     decide (((w 8).getD 0 0).toNat / 2 ^ 64 = 0x9A ∧ ((w 8).getD 1 0).toNat / 2 ^ 64 = 0x9B ∧ 8 ≤ ((w 8).getD 1 0).toNat % 2 ^ 15 ∧
       s.rd UPD_STAGE_STATE = 1 ∧ s.rd UPD_STAGE_CID_CID = ((w 8).getD 0 0).toNat / 2 ^ 32 % 2 ^ 32 ∧
       ((w 8).getD 1 0).toNat % 2 ^ 15 < s.rd UPD_STAGE_TOTAL ∧ s.house.shut = false ∧ s.nvs.softKind = none ∧ s.upd.got.testBit 8 = false ∧
       s.upd.fifo.length < 32 ∧ s.accepts (.datagram 5 7) = true ∧ s.accepts (.datagram 4 7) = false ∧ ((w 7).getD 1 0).toNat % 2 ^ 15 < 8 ∧
       (s.holdColophon 7 7 []).upd.colGot ≠ 255 ∧ (0 : Word72).toNat / 2 ^ 64 ≠ 0x9A) &&
       (s.upd.fifo.all fun e => e.1 != 8)),
    (let s := node 0 [] fun u => { u with colCid := 7, colGot := 0x7F, probation := true }
     let held := s.holdColophon 7 7 []
     decide (held.upd.colGot = 255 ∧ s.upd.probation = true) &&
       (readColophon (wordByte held.upd.colWords) (min slotBytes (576 * 8))).any (fun c => c.cid.toNat == 7) == false),
    (let s (m p : Nat) := filled (node 0 [(UPD_STAGE_STATE, 1), (UPD_STAGE_PASS, p), (UPD_STAGE_MISSING, m)] id)
     let col := readColophon ((s 0 1).slotByte (s 0 1).spareSlot) slotBytes
     decide ((s 0 1).rd UPD_STAGE_PASS ≠ 0 ∧ (s 0 1).isTile = true ∧ (s 0 1).rd UPD_STAGE_STATE = 1 ∧
       (s 0 1).rd UPD_STAGE_MISSING = 0 ∧ (s 1 2).rd UPD_STAGE_MISSING ≠ 0 ∧ (s 1 2).rd UPD_CFG_PASSES ≤ (s 1 2).rd UPD_STAGE_PASS ∧
       (s 1 1).rd UPD_STAGE_PASS < (s 1 1).rd UPD_CFG_PASSES ∧ (s 0 1).upd.col = none ∧ (node 0 [] id).rd UPD_STAGE_PASS = 0) &&
       col.any fun c => digestsOk ((s 0 1).slotByte (s 0 1).spareSlot) c &&
         !digestsOk ((s 0 1).slotByte (s 0 1).spareSlot) { c with comps := c.comps.map fun x => { x with digest := 0 } }),
    (let b : BundleSend := ⟨0, 576, 3, 1, true, 7, 9, 1⟩
     let s := node 1 [] fun u => { u with sending := some b }
     decide (s.upd.sending = some b ∧ b.more = true ∧ b.pass < s.rd UPD_CFG_PASSES ∧ s.rd UPD_CFG_PASSES ≤ { b with pass := 2 }.pass ∧
       s.reachable .pcie = true ∧ (node 1 [] id).upd.sending = none ∧ (st [R 0]).reachable .pcie = false)),
    decide ((node 1 [] id).heldReqs < 16 ∧ (0 : BitVec 3).toNat = 0 ∧ 4 < (5 : BitVec 3).toNat ∧ 1 ≤ (4 : BitVec 3).toNat ∧ (4 : BitVec 3).toNat ≤ 4 ∧
      (node 1 [] id).upd.revoked.getD 3 0 ≠ 5 ∧ (node 1 [] id).upd.revoked.getD 3 0 = 0 ∧ ((node 1 [] id).rd UPD_KEYS_VALID).testBit 3 = false ∧
      (List.replicate 63 ((1, 2) : BitVec 32 × BitVec 6)).length ≤ 63 ∧ 63 < (List.replicate 64 ((1, 2) : BitVec 32 × BitVec 6)).length)] := by
  decide +kernel

/-- An activation that a sender coordinates, for the wall or for its rings, on its two rings 1 and 3 and the ring 5. -/
def activation (phase : Nat) (wall : Bool := true) : Coord :=
  { wall := wall, req := some ⟨5, 9⟩, cid := 7, num := 4, c := 20, named := false, rings := 0x2A, nodes := [2, 10], phase := phase,
    ready := [2, 2], ringsReady := 0x20, activated := [0, 2], ringsDone := 0x0A }

/-- A sender with an activation under way. -/
def acting (c : Coord) (l : List (Fld × Nat)) (f : Upd → Upd) : State := node 1 l fun u => f { u with coord := some c }

theorem test_hyps_preparing_and_arming : Met [
    (let s := node 1 [] id
     decide ((node 0 [] id).heldReqs < 16 ∧ (node 0 [] id).isSender = false ∧ (node 0 [] id).on UPD_SLOT_RECOVERY = false ∧
       s.isSender = true ∧ (1 : Word) ≠ 0 ∧ s.upd.coord = none ∧ (15 : BitVec 48).toNat < s.frame + 16 ∧ s.frame + 16 ≤ (16 : BitVec 48).toNat) &&
       ((acting (activation 0) [] id).upd.coord.any fun c => decide (c.phase < 3)) && !((acting (activation 3) [] id).upd.coord.any fun c => decide (c.phase < 3))),
    (let s := filled (node 0 [(UPD_STAGE_STATE, 2), (UPD_STAGE_CID_CID, bundleId)] id)
     decide (s.voteReason bundleId = none ∧ (node 0 [(UPD_STAGE_STATE, 4)] id).voteReason 7 = some 10 ∧ s.mySides = [])),
    (let s := node 1 [(ARB_STAT_STATE 0, 2), (ARB_EPOCH_EPOCH 0, 1)] id; decide (s.mySides ≠ [] ∧ s.upd.coord = none)),
    (let s := acting (activation 0) [(UPD_ACT_NO_NUMBER, 4)] id
     decide (s.upd.coord = some (activation 0) ∧ (activation 0).phase = 0 ∧ (activation 0).wall = true ∧ s.heldReqs < 16 ∧
       (5 : BitVec 32).toNat = s.rd UPD_ACT_NO_NUMBER + 1 ∧ (4 : BitVec 32).toNat ≠ s.rd UPD_ACT_NO_NUMBER + 1 ∧
       (activation 0).named = false ∧ s.frame + 8 < 2 ^ 48 ∧ s.rd UPD_ACT_NO_NUMBER + 1 < 2 ^ 32 ∧ s.rd UPD_ACT_STATE < 2) &&
       ((s.ownSides (activation 0)).find? (fun e => e.2 == (3 : BitVec 6).toNat) == some (1, 3)) &&
       (covered (activation 0).nodes [2, 10] && (s.foreignRings (activation 0)).all fun h => (activation 0).ringsReady.testBit h) &&
       !covered (activation 0).nodes [2, 2] && !s.latchPast ((activation 0).c - 8)),
    (let c := { activation 0 with named := true, c := 8 }
     let s := acting c [(UPD_ACT_STATE, 1)] id
     decide (s.upd.coord = some c ∧ c.named = true ∧ s.latchPast (c.c - 8) = true ∧ s.rd UPD_ACT_STATE = 1)),
    (let c := activation 0 false
     let s := acting c [(UPD_ACT_STATE, 1)] id
     decide (s.upd.coord = some c ∧ c.wall = false ∧ c.phase = 0 ∧ s.rd UPD_ACT_STATE = 1 ∧ s.latchPast (20 : BitVec 48).toNat = false) &&
       (s.ownSides c).head? == some (0, 1)),
    (let s := node 0 [(UPD_ACT_STATE, 1), (ARB_EPOCH_EPOCH 0, 4)] id
     let m : ActCommit := ⟨1, 5, 4, BitVec.ofNat 6 (epochNode 4)⟩
     decide (s.upd.coord = none ∧ s.rd UPD_ACT_STATE = 1 ∧ s.latchPast m.frame.toNat = false ∧ s.isSender = false ∧
       s.rd (ARB_EPOCH_EPOCH 0) = m.epoch.toNat ∧ epochNode m.epoch.toNat = m.fromNode.toNat ∧ s.rd (ARB_EPOCH_EPOCH 0) ≠ 5 ∧
       (node 0 [] id).rd UPD_ACT_STATE ≠ 1 ∧ s.latchPast (0 : BitVec 48).toNat = true)),
    (let s := acting (activation 1) [(UPD_ACT_STATE, 2)] id
     decide (s.upd.coord = some (activation 1) ∧ (activation 1).phase = 1 ∧ (activation 1).wall = true ∧ s.rd UPD_ACT_STATE = 2 ∧ s.heldReqs < 16 ∧
       (4 : BitVec 32).toNat = (activation 1).num ∧ s.latchPast ((activation 1).c - 2) = false ∧
       (acting (activation 1) [(WTU_FRAME_FRAME_NO, 18)] id).latchPast ((activation 1).c - 2) = true)),
    (let s := node 0 [(UPD_ACT_STATE, 2), (UPD_ACT_ACT_FRAME, 1)] id
     decide ((node 0 [(UPD_ACT_STATE, 5)] id).rd UPD_ACT_STATE = 5 ∧ s.rd UPD_ACT_STATE = 2 ∧ s.latchPast (s.rd UPD_ACT_ACT_FRAME) = false ∧
       s.upd.coord = none))] := by decide +kernel

theorem test_hyps_relight_and_confirmation : Met [
    (let s := node 0 [] fun u => { u with relight := true, probation := true }
     decide (s.isTile = true ∧ s.upd.relight = true ∧ s.upd.probation = true ∧ s.starting = false ∧ s.upd.coord = none ∧ s.heldReqs < 16 ∧
       (node 0 [] id).upd.relight = false)),
    (let c := activation 2
     let s := acting c [(UPD_CFG_PROB_S, 1), (UPD_CFG2_RELIGHT_FR, 5)] fun u => { u with probation := true, peers := [(9, 5)] }
     let past := { s with wtu := { s.wtu with wt := s.tickTime c.c + msT 1000 } }
     let late := acting c [(WTU_FRAME_FRAME_NO, 25), (UPD_CFG2_RELIGHT_FR, 5)] id
     decide (s.upd.coord = some c ∧ c.phase = 2 ∧ c.wall = true ∧ (7 : BitVec 32).toNat = c.cid ∧
       (8 : BitVec 32).toNat ≠ c.cid ∧ 2 ≤ c.phase ∧ s.upd.probation = true ∧ s.upd.confirming = none ∧
       (4 : BitVec 32).toNat = c.num ∧ (5 : BitVec 32).toNat ≠ c.num ∧ s.heldReqs < 16 ∧ s.rd UPD_CFG_PROB_S ≠ 0 ∧ s.wtu.wt < s.tickTime c.c + msT 1000 ∧
       past.tickTime c.c + msT (1000 * past.rd UPD_CFG_PROB_S) ≤ past.wtu.wt ∧ (acting c [] id).rd UPD_CFG_PROB_S = 0 ∧
       s.frame < c.c + s.rd UPD_CFG2_RELIGHT_FR ∧ c.c + late.rd UPD_CFG2_RELIGHT_FR ≤ late.frame) &&
       ((s.ownSides c).find? (fun e => e.2 == (3 : BitVec 6).toNat) == some (1, 3)) && ((s.ownSides c).find? (fun e => e.2 == (5 : BitVec 6).toNat) == none) &&
       (10 &&& (2 ||| 2 ^ 3) == 10) && (10 &&& (2 ||| 2 ^ 2) != 10) && (0x2A &&& (0x0A ||| 2 ^ 5) == 0x2A) && (0x2A &&& (0x0A ||| 2 ^ 3) != 0x2A)),
    (let c := { activation 2 with ringsDone := 0x22 }
     decide (c.nodes.getD 1 0 &&& (c.activated.getD 1 0 ||| 2 ^ 3) = c.nodes.getD 1 0 ∧ c.rings &&& (c.ringsDone ||| 2 ^ 3) = c.rings ∧
       (activation 2 false).wall = false ∧ (activation 1).phase ≠ 2 ∧ (activation 1).phase < 2)),
    (let k : Confirming := ⟨some ⟨5, 9⟩, [2, 2], 0x20⟩
     let s := acting (activation 3) [] fun u => { u with confirming := some k }
     decide (s.upd.coord = some (activation 3) ∧ s.upd.confirming = some k ∧
       (activation 3).nodes.getD 1 0 &&& k.nodes.getD 1 0 ≠ (activation 3).nodes.getD 1 0 ∧ (1, 3) ∈ s.ownSides (activation 3)) &&
       ((s.ownSides (activation 3)).find? (fun e => e.2 == (3 : BitVec 6).toNat) == some (1, 3)) &&
       (covered (activation 3).nodes [2, 10] && (s.foreignRings (activation 3)).all fun h => k.rings.testBit h) &&
       !covered (activation 3).nodes [2, 2]),
    (let s := acting (activation 3 false) [] id
     decide (s.upd.coord = some (activation 3 false) ∧ (activation 3 false).wall = false ∧ s.upd.confirming = none))] := by decide +kernel

theorem test_hyps_fallbacks : Met [
    (let s := node 1 [(UPD_ACT_NO_NUMBER, 4), (ARB_STAT_STATE 0, 2), (ARB_EPOCH_EPOCH 0, 1)] fun u => { u with probation := true, fbWhy := 1, peers := [(9, 5)] }
     decide (s.heldReqs < 16 ∧ (4 : BitVec 32).toNat = s.rd UPD_ACT_NO_NUMBER ∧ (5 : BitVec 32).toNat ≠ s.rd UPD_ACT_NO_NUMBER ∧
       s.mySides ≠ [] ∧ s.upd.coord = none ∧ s.upd.fbAt = none ∧ s.upd.probation = true ∧ s.upd.fbWhy ≠ 0)),
    (let s := node 0 [(UPD_ACT_NO_NUMBER, 4)] fun u => { u with probation := true, fbWhy := 1 }
     decide (s.isTile = true ∧ s.mySides = [] ∧ s.upd.coord = none ∧ s.upd.probation = true ∧ s.upd.fbAt = none ∧ s.upd.fbWhy ≠ 0)),
    decide (bare.upd.probation = false ∧ bare.upd.fbWhy = 0 ∧ (node 1 [] fun u => { u with fbAt := some 5 }).upd.fbAt.isSome = true)] := by decide +kernel

/-! ### Worked examples of the spec -/

/-- "Wall Time", the example after R155: tick 3 at 59.94 Hz lies at T0 + 3,280,076,800,000 units. -/
theorem test_tick_of_a_timebase : (⟨0, 0, 0, 500, 0, 60000, 1001⟩ : Timebase).tick 3 = 3280076800000 := by decide +kernel

/-- The check value of the IEEE 802.3 CRC that R139 names, over the bytes "123456789". -/
theorem test_crc32 : crc32 [0x31, 0x32, 0x33, 0x34, 0x35, 0x36, 0x37, 0x38, 0x39] = 0xCBF43926 := by decide +kernel

/-- The example after R140: leaves 17, 18 and 200 make bitmap bits of 0x6_0000 in the first word and 0x100 in the fourth. -/
theorem test_leaf_bitmap : leavesMap [17, 18, 200] = 0x60000 + 0x100 * 2 ^ 192 ∧ mapLeaves (0x60000 + 0x100 * 2 ^ 192) = [17, 18, 200] := by
  decide +kernel

/-- The example after R194, step 11: pixel 4,660 of feed 0 in frame 100 has the threshold 3,532 / 65,536 for C0. -/
theorem test_dither : ditherOf 4660 100 0 0 = 3532 := by decide +kernel

/-- The example after R208: the code 78,982 with DEPTH 18, LO_BITS 2 and S = 64 gives 19,745 hi edge steps in all, at most 309 at once,
and 8 lo edge steps in sub-periods 31 and 63 alone. -/
theorem test_pulses : ((List.range 64).map fun k => (pulse 18 2 64 k 78982).1).foldl (· + ·) 0 = 19745 ∧
    ((List.range 64).all fun k => decide ((pulse 18 2 64 k 78982).1 ≤ 309)) = true ∧
    ((List.range 64).map fun k => (pulse 18 2 64 k 78982).2) = (List.range 64).map fun k => if k = 31 ∨ k = 63 then 8 else 0 := by
  decide +kernel

/-- A table of the plan's fields. -/
def plan (l : List (Fld × Nat)) : Tbl 64 := l.foldl (fun t e => Tbl.set t e.1.key (BitVec.ofNat 64 e.2)) []

/-- The example before R210: the 30 Hz signage profile has 20,757 edge steps per line slot. -/
theorem test_line_slot : planN (plan [(SCN_PLAN_S_M1, 15), (SCN_PLAN_M_M1, 63), (SCN_PLAN_GCLK_MHZ, 160), (SCN_PLAN_BLANK_GCLK, 19)])
    ⟨30000, 1000, 1⟩ = 20757 := by decide +kernel

/-- The example after R213: 863 devices of a string fit in a frame of a 60 Hz wall. -/
theorem test_string_fit : ({ st [(WTU_TB_RATE_NUM, 60000), (WTU_TB_RATE_DEN, 1000)] with
    scan := { Scan.reset with plan := plan [(SCN_PLAN_GCLK_MHZ, 320), (DRV_STR_CFG_BIT_GCLK 0, 128), (DRV_STR_CFG_LATCH_US 0, 80),
      (DRV_STR_CFG_SHARE 0, 48)] } } : State).strNfit 0 = 863 := by decide +kernel

/-- The example after R203: RIREF = 8.0 kΩ gives I_FS = 3.0 mA. -/
theorem test_full_scale_current : ifsUa 8000 = 3000 := by decide

end Sys2Proof.Tests
end

