-- ==== Sys2Proof/Proofs/PageHeaders.lean ====
section
/-! SUPPORT. The end of a block reset at a Quire side: the side brings up from RATE_START (R123), so that the statement on the page
headers, which leaves a side's registers as they were, is refuted. -/

namespace Sys2Proof.Machine

/-- What settles after a reset is BRST, RDY and XRDY alone (R28): every field that lies in neither BLK_CTRL nor BLK_STAT stays. -/
theorem State.settleReady_rd (s : State) (f : Fld) (h8 : f.key / 64 % 4096 ≠ 8) (h16 : f.key / 64 % 4096 ≠ 16) :
    s.settleReady.rd f = s.rd f := by
  have hbrst (p : Nat) : f.key ≠ (BLK_CTRL_BRST p).key := by simp only [Fld.key, BLK_CTRL_BRST] at *; omega
  have hxrdy (p : Nat) : f.key ≠ (BLK_STAT_XRDY p).key := by simp only [Fld.key, BLK_STAT_XRDY] at *; omega
  refine State.each_keeps (P := fun t => t.rd f = s.rd f) _ _ (fun t p ht => ?_) rfl
  simp only
  split
  · exact (State.rd_wr_ne _ 0 (hbrst p)).trans ((State.rd_wr_ne _ 1 (hxrdy p)).trans ht)
  · exact (State.rd_wr_ne _ 0 (hxrdy p)).trans ht

/-- The end of the block reset of a Quire side (R28, R123): beside what settles, its RATE becomes RATE_START. -/
theorem exec_blkResetDone_side (s : State) (sd : Nat) (hsd : sd < 2) (hact : pageActive s.role (0x18 + sd) = true)
    (hbrst : s.on (BLK_CTRL_BRST (0x18 + sd)) = true) (hrdy : s.on (BLK_STAT_RDY (0x18 + sd)) = false) :
    exec (.blkResetDone (BitVec.ofNat 8 (0x18 + sd))) s =
      .next ((s.wr (BLK_STAT_RDY (0x18 + sd)) 1).settleReady.wr (QP_SIDE_STAT_RATE sd) (s.rd (QP_CFG_RATE_START sd))) := by
  have hpg : (BitVec.ofNat 8 (0x18 + sd)).toNat = 0x18 + sd := by rw [BitVec.toNat_ofNat]; omega
  have hstart : (s.wr (BLK_STAT_RDY (0x18 + sd)) 1).settleReady.rd (QP_CFG_RATE_START sd) = s.rd (QP_CFG_RATE_START sd) := by
    rw [State.settleReady_rd _ _ (by simp only [Fld.key, QP_CFG_RATE_START]; omega) (by simp only [Fld.key, QP_CFG_RATE_START]; omega)]
    exact State.rd_wr_ne _ _ (by simp only [Fld.key, QP_CFG_RATE_START, BLK_STAT_RDY]; omega)
  simp only [exec, execBlkResetDone, hpg]
  rw [if_pos ⟨hact, hbrst⟩, if_neg (by omega), if_neg (by omega), if_pos ⟨by omega, hrdy⟩, Nat.add_sub_cancel_left, hstart]

/-- After the block reset of a Quire side its rate is the legal RATE_START that stood in QP.CFG (R123). -/
theorem blkResetDone_side_rate {s t : State} {sd : Nat} (hsd : sd < 2) (hact : pageActive s.role (0x18 + sd) = true)
    (hbrst : s.on (BLK_CTRL_BRST (0x18 + sd)) = true) (hrdy : s.on (BLK_STAT_RDY (0x18 + sd)) = false)
    (hr : s.rd (QP_CFG_RATE_START sd) < 3) (ht : exec (.blkResetDone (BitVec.ofNat 8 (0x18 + sd))) s = .next t) :
    t.rd (QP_SIDE_STAT_RATE sd) = s.rd (QP_CFG_RATE_START sd) := by
  obtain rfl := Host.Outcome.next.inj (ht.symm.trans (exec_blkResetDone_side s sd hsd hact hbrst hrdy))
  exact State.rd_wr_self _ _ _ (Nat.lt_trans hr (by decide : 3 < 2 ^ 2)) (by decide : 2 ≤ 64)

/-- A tile whose side A is held in block reset, with RATE_START at the highest rate; every other field reads 0. -/
def sideInReset : State := ({ State.reset with live := [] }.wr (BLK_CTRL_BRST 0x18) 1).wr (QP_CFG_RATE_START 0) 2

/-- Refutes O49: as the block reset of side A ends, the side takes RATE_START as its rate (R123), where the statement keeps every field
of the page but those of BLK_CTRL and BLK_STAT. The state is `sideInReset`: RATE goes from 0 to 2. -/
theorem not_pageHeaders : ¬ Obligations.PageHeaders := by
  have hreach : sideInReset.reachable .remote = true := by decide +kernel
  have hrole : pageActive sideInReset.role 0x18 = true := by decide +kernel
  have hbrst : sideInReset.on (BLK_CTRL_BRST 0x18) = true := by decide +kernel
  have hrdy : sideInReset.on (BLK_STAT_RDY 0x18) = false := by decide +kernel
  have hstart : sideInReset.rd (QP_CFG_RATE_START 0) = 2 := by decide +kernel
  have hbefore : sideInReset.rd (QP_SIDE_STAT_RATE 0) = 0 := by decide +kernel
  generalize sideInReset = s at hreach hrole hbrst hrdy hstart hbefore
  intro h
  obtain ⟨-, -, hpages⟩ := h
  obtain ⟨hactive, -⟩ := hpages s .remote hreach 0x18 (by decide)
  obtain ⟨-, -, -, -, -, -, hdone, -⟩ := hactive hrole
  obtain ⟨t, ht, -, -, hkept, -⟩ := hdone hbrst
  have hafter : t.rd (QP_SIDE_STAT_RATE 0) = 2 :=
    (blkResetDone_side_rate (sd := 0) (by decide) hrole hbrst hrdy (by omega) ht).trans hstart
  have hnote : noteKey (QP_SIDE_STAT_RATE 0).key = false := by decide
  have hown : ([8, 16].contains ((QP_SIDE_STAT_RATE 0).key / 64 % 4096) || (0x18 == 7 && pagesOf [7] (QP_SIDE_STAT_RATE 0).key)) = false := by
    decide
  have hsame : t.rd (QP_SIDE_STAT_RATE 0) = s.rd (QP_SIDE_STAT_RATE 0) :=
    congrArg BitVec.toNat (hkept _ hown hnote)
  rw [hafter, hbefore] at hsame
  cases hsame

end Sys2Proof.Machine
end

