-- ==== Sys2Proof/Proofs/LatchPoints.lean ====
section
/-! SUPPORT. A bank switch at a latch point (R99): without a prepared bank the active one stays in the latched set, so that the statement
on latch points, which has every shadowed field copied, is refuted. -/

namespace Sys2Proof.Machine

/-- A LATCH_POINT that the tick schedule runs, and that has not come before its tick yet, has its effect. -/
theorem exec_latchPoint (s : State) (ht : s.ticking = true) (hl : s.latchDone = false) : exec .latchPoint s = .next s.latch := by
  simp [exec, execLatchPoint, ht, hl]

/-- A sender whose registers read 0, with a commit of IMP pending for the coming tick that asks for bank 1, which is not prepared. -/
def bankUnprepared : State :=
  { State.reset with
    live := [(HIF_STRAP_STAT_ROLE.key, 1)], shadow := [(IMP_CTRL_BANK.key, 1)], latched := [], commits := { Commits.reset with pend := [(0x17, 1)] } }

/-- Refutes O56: a latch point does not copy the shadow value of IMP.CTRL.BANK where the bank it names is not prepared (R99), so that not
every field of the page is latched as its shadow set has it. In `bankUnprepared` bank 1 is asked for, and bank 0 is latched. -/
theorem not_latchPointsAndTicks : ¬ Obligations.LatchPointsAndTicks := by
  have htick : bankUnprepared.ticking = true := by decide +kernel
  have hdone : bankUnprepared.latchDone = false := by decide +kernel
  have hpolicy : bankUnprepared.nvs.policyNext = [] := by decide +kernel
  have hheld : bankUnprepared.decideHeld.wtu.held ≠ some true := by decide +kernel
  have hpend : (0x17, bankUnprepared.frame + 1) ∈ bankUnprepared.commits.pend := by decide +kernel
  have hshadow : bankUnprepared.shadow.get IMP_CTRL_BANK.key = 1 := by decide +kernel
  have hlatch : bankUnprepared.latch.latched.get IMP_CTRL_BANK.key = 0 := by decide +kernel
  generalize bankUnprepared = s at htick hdone hpolicy hheld hpend hshadow hlatch
  intro h
  obtain ⟨-, -, hpoint, -⟩ := h s
  obtain ⟨t, ht, -, -, -, hcopy, -⟩ := hpoint htick hdone hpolicy
  obtain rfl := Host.Outcome.next.inj (ht.symm.trans (exec_latchPoint s htick hdone))
  obtain ⟨hfields, -⟩ := hcopy hheld 0x17 (by decide) (by decide) hpend
  have hbank := hfields IMP_CTRL_BANK (by decide)
  rw [hlatch, hshadow] at hbank
  cases hbank

end Sys2Proof.Machine
end

