-- ==== Sys2Proof/Proofs/Notes.lean ====
section
/-! SUPPORT. What notes and answers leave beside what `Quiet` tells: the registers of every page but QEN and REC, the commits that a sender
coordinates, the requests that firmware holds; and that no output is taken back. -/

namespace Sys2Proof.Machine

/-- Beside `Quiet`: the register fields of the pages above 0xA, the coordinated and past commits and the replay request are the same, and
outputs are added alone. -/
structure Beside (s t : State) : Prop where
  high : ∀ k, 0xB * 262144 ≤ k → t.live.get k = s.live.get k
  coords : t.ctl.coords = s.ctl.coords
  past : t.ctl.past = s.ctl.past
  replayReq : t.recd.replayReq = s.recd.replayReq
  out : ∃ a, t.out = a ++ s.out

theorem Beside.refl (s : State) : Beside s s := ⟨fun _ _ => rfl, rfl, rfl, rfl, [], rfl⟩

theorem Beside.trans {s t u : State} (h : Beside s t) (k : Beside t u) : Beside s u where
  high i hi := (k.high i hi).trans (h.high i hi)
  coords := k.coords.trans h.coords
  past := k.past.trans h.past
  replayReq := k.replayReq.trans h.replayReq
  out := by
    obtain ⟨a, ha⟩ := h.out
    obtain ⟨b, hb⟩ := k.out
    exact ⟨b ++ a, by rw [hb, ha, List.append_assoc]⟩

theorem Beside.when {s t : State} (h : Beside s t) (c : Bool) (g : State → State) (hg : ∀ s, Beside s (g s)) : Beside s (t.when c g) :=
  State.when_keeps (P := fun u => Beside s u) c g (fun u hu => hu.trans (hg u)) h

theorem Beside.each {α : Type} (l : List α) (g : State → α → State) (hg : ∀ s a, Beside s (g s a)) (s : State) : Beside s (s.each l g) :=
  State.each_keeps (P := fun u => Beside s u) l g (fun u a hu => hu.trans (hg u a)) (Beside.refl s)

/-- A write of a field of a page up to 0xA. -/
theorem Beside.wr (s : State) (f : Fld) (v : Nat) (hf : f.key < 0xB * 262144) : Beside s (s.wr f v) where
  high k hk := Tbl.get_set_ne _ _ (by omega)
  coords := rfl
  past := rfl
  replayReq := rfl
  out := ⟨[], rfl⟩

theorem Beside.bump (s : State) (f : Fld) (hf : f.key < 0xB * 262144) : Beside s (s.bump f) := Beside.wr s f _ hf
theorem Beside.setWord (s : State) (i : Nat) (v : Word72) : Beside s (s.setWord i v) := ⟨fun _ _ => rfl, rfl, rfl, rfl, [], rfl⟩
theorem Beside.storeBytes (s : State) (a : Nat) (b : List Byte) : Beside s (s.storeBytes a b) := ⟨fun _ _ => rfl, rfl, rfl, rfl, [], rfl⟩
theorem Beside.send (s : State) (e : Emit) : Beside s (s.send e) := ⟨fun _ _ => rfl, rfl, rfl, rfl, [e], rfl⟩
theorem Beside.sendFolios (s : State) (d : Nat) (fs : List Folio) : Beside s (s.sendFolios d fs) :=
  ⟨fun _ _ => rfl, rfl, rfl, rfl, (State.sendFolios_out s d fs).elim fun l h => ⟨folioOuts d l, h⟩⟩

theorem Beside.sendMg (s : State) (sd dst src id : Nat) (ws : List Nat) : Beside s (s.sendMg sd dst src id ws) := by
  unfold State.sendMg
  simp only
  split
  · exact Beside.refl s
  · split
    · exact Beside.sendFolios _ _ _
    · split <;> exact Beside.sendFolios _ _ _

theorem Beside.msixSend (s : State) (pg : Nat) : Beside s (s.msixSend pg) := by
  unfold State.msixSend
  split
  · split
    · exact Beside.send s _
    · exact ⟨fun _ _ => rfl, rfl, rfl, rfl, [], rfl⟩
  · exact Beside.refl s

theorem Beside.recPut (s : State) (v : Nat) : Beside s (s.recPut v) := by
  unfold State.recPut
  split
  · extract_lets p s1 q s2
    have h1 : Beside s s1 := by
      simp only [s1]
      split
      · exact Beside.storeBytes _ _ _
      · exact Beside.setWord _ _ _
    have h2 : Beside s s2 := (h1.trans (Beside.wr s1 _ _ (by decide))).when _ _ fun s => Beside.wr s _ _ (by decide)
    exact h2.trans ⟨fun _ _ => rfl, rfl, rfl, rfl, [], rfl⟩
  · exact Beside.refl s

theorem Beside.recWrite (s : State) (typ w0 : Nat) (ws : List Nat) : Beside s (s.recWrite typ w0 ws) :=
  (Beside.recPut s _).trans (Beside.each _ _ (fun s _ => Beside.recPut s _) _)

theorem Beside.qStore (s : State) (v : QView) (i : Nat) (e : Word72) : Beside s (s.qStore v i e) := by
  unfold State.qStore
  split
  · exact Beside.storeBytes _ _ _
  · exact Beside.setWord _ _ _

theorem Beside.qSetTail (s : State) (q t : Nat) : Beside s (s.qSetTail q t) := by
  unfold State.qSetTail
  extract_lets s1 w2 used
  have h1 : Beside s s1 := Beside.setWord _ _ _
  split
  · exact h1.trans (Beside.setWord _ _ _)
  · exact h1

theorem Beside.qSetDrop (s : State) (q n : Nat) : Beside s (s.qSetDrop q n) := Beside.setWord _ _ _

theorem Beside.qPush (s : State) (q : Nat) (es : List Word72) : Beside s (s.qPush q es) := by
  unfold State.qPush
  extract_lets v s1
  have h1 : Beside s s1 := Beside.each es.zipIdx (fun s e => s.qStore v (v.tail + e.2) e.1) (fun s e => Beside.qStore s _ _ _) s
  exact h1.trans (Beside.qSetTail _ _ _)

theorem Beside.recTrigger (s : State) (code : Nat) (host : Bool) : Beside s (s.recTrigger code host).1 := by
  unfold State.recTrigger
  split
  · exact Beside.wr s _ _ (by decide)
  · split
    · extract_lets s1 s2 s3 cap s4
      have h2 : Beside s s2 := (Beside.recWrite s _ _ _).trans (Beside.recWrite _ _ _ _)
      have h3 : Beside s s3 := (h2.trans (Beside.wr s2 _ _ (by decide))).trans (Beside.wr _ _ _ (by decide))
      have h4 : Beside s s4 := h3.when _ _ fun s => (Beside.wr s _ _ (by decide)).trans (Beside.wr _ _ _ (by decide))
      exact h4.trans ⟨fun _ _ => rfl, rfl, rfl, rfl, [], rfl⟩
    · exact Beside.refl s

theorem Beside.evtDeliver (s : State) (code : Nat) (extra : List Nat) : Beside s (s.evtDeliver code extra).1 := by
  unfold State.evtDeliver
  extract_lets ws s1 wv
  have h0 : Beside s s1 := ⟨fun _ _ => rfl, rfl, rfl, rfl, [], rfl⟩
  clear_value s1 ws wv
  split
  · exact ((h0.trans (Beside.send s1 _)).trans (Beside.sendMg _ _ _ _ _ _)).trans (Beside.sendMg _ _ _ _ _ _)
  · split
    · split
      · have h1 := (h0.trans (Beside.send s1 (.event false wv))).trans (Beside.qPush _ 2 (frameMsg ws))
        dsimp only
        exact h1
      · split
        · have hlost : Beside s1 { s1 with ctl := { s1.ctl with lost := s1.ctl.lost + 1 } } := ⟨fun _ _ => rfl, rfl, rfl, rfl, [], rfl⟩
          have h2 := ((h0.trans hlost).trans (Beside.qSetDrop _ 2 (s1.qDrop 2 + 1))).trans (Beside.bump _ QEN_CNT_DROP (by decide))
          dsimp only
          exact h2
        · exact h0.trans (Beside.send _ _)
    · exact h0

/-- A note that begins in a page up to 0xA stays in those pages, for what it brings about raises bits of QEN and REC alone. -/
theorem Beside.note (n : Nat) (s : State) (x : Note) (hx : ∀ pg b, x = .intr pg b → pg ≤ 0xA) : Beside s (note n s x) := by
  have hraw (s : State) (pg v : Nat) (h : pg ≤ 0xA) : Beside s (s.wr (INT_RAW_RAW pg) v) :=
    Beside.wr s _ _ (by simp only [Fld.key, INT_RAW_RAW]; omega)
  induction n generalizing s x with
  | zero =>
    cases x with
    | intr pg b => exact hraw s pg _ (hx pg b rfl)
    | event => exact Beside.refl s
    | trigger => exact Beside.refl s
  | succ n ih =>
    cases x with
    | intr pg b =>
      simp only [Machine.note]
      split
      · exact Beside.refl s
      · split
        · exact ((hraw s pg _ (hx pg b rfl)).trans (Beside.msixSend _ _)).trans (ih _ _ nofun)
        · exact hraw s pg _ (hx pg b rfl)
    | event code extra =>
      simp only [Machine.note]
      have h1 : Beside s (if s.isSender then s else s.recWrite 7 0 [code]) := by
        split
        · exact Beside.refl s
        · exact Beside.recWrite _ _ _ _
      generalize (if s.isSender then s else s.recWrite 7 0 [code]) = s1 at h1
      have h2 : Beside s (if s1.trigCode code then Machine.note n s1 (.trigger code false) else s1) := by
        split
        · exact h1.trans (ih _ _ nofun)
        · exact h1
      generalize (if s1.trigCode code then Machine.note n s1 (.trigger code false) else s1) = s2 at h2
      have h3 := h2.trans (Beside.evtDeliver s2 code extra)
      split
      · exact h3.trans (ih _ _ (by rintro _ _ ⟨⟩; decide))
      · exact h3
    | trigger code host =>
      simp only [Machine.note]
      split
      · exact (Beside.recTrigger s code host).trans (ih _ _ (by rintro _ _ ⟨⟩; decide))
      · exact Beside.recTrigger s code host

theorem Beside.post (s : State) (code : Nat) (extra : List Nat) : Beside s (s.post code extra) := Beside.note 8 s _ nofun

/-- What an answer brings about after its output, which is its first. -/
theorem respond_beside_send (s : State) (r : Req) (cmd status : Nat) (body : List Nat) :
    Beside (s.send (.response r.reply.toNat r.id.toNat cmd status (body.map (BitVec.ofNat 72)))) (s.respond r cmd status body) := by
  unfold State.respond
  simp only
  split
  · split
    · exact (Beside.qPush _ _ _).trans (Beside.note 8 _ _ (by rintro _ _ ⟨⟩; decide))
    · exact Beside.qPush _ _ _
  · split
    · split
      · exact Beside.refl _
      · exact Beside.sendMg _ _ _ _ _ _
    · exact Beside.refl _

theorem Beside.respond (s : State) (r : Req) (cmd status : Nat) (body : List Nat) : Beside s (s.respond r cmd status body) :=
  (Beside.send s _).trans (respond_beside_send s r cmd status body)

@[simp] theorem State.respond_coords (s : State) (r : Req) (cmd status : Nat) (body : List Nat) :
    (s.respond r cmd status body).ctl.coords = s.ctl.coords := (Beside.respond s r cmd status body).coords

/-! ### Registers, words, memory and sides outside a set of fields -/

/-- `Kept`, with what lets it be carried on: memory stays quiet, and outputs are added alone. -/
structure Within (own : Nat → Bool) (s t : State) : Prop where
  kept : Kept own s t
  quiet : s.quietMem → t.quietMem
  out : ∃ a, t.out = a ++ s.out

theorem Within.refl (own : Nat → Bool) (s : State) : Within own s s :=
  ⟨⟨fun _ _ _ => rfl, fun _ _ _ => rfl, rfl, fun _ => rfl⟩, id, [], rfl⟩

theorem Within.trans {own : Nat → Bool} {s t u : State} (h : Within own s t) (k : Within own t u) : Within own s u := by
  obtain ⟨⟨hr, hw, hs, hm⟩, hq, a, ha⟩ := h
  obtain ⟨⟨kr, kw, ks, km⟩, kq, b, hb⟩ := k
  refine ⟨⟨fun i h1 h2 => (kr i h1 h2).trans (hr i h1 h2), fun i h1 h2 => (kw i h1 h2).trans (hw i h1 h2), ks.trans hs, fun q => ?_⟩,
    fun q => kq (hq q), b ++ a, by rw [hb, ha, List.append_assoc]⟩
  exact (km (hq q)).trans (hm q)

/-- What notes change is within every set of fields. -/
theorem Within.of_quiet {s t : State} (own : Nat → Bool) (h : Quiet s t) (k : Beside s t) : Within own s t :=
  ⟨⟨fun i _ hi => h.reg i hi, fun i _ hi => h.word i hi, h.sides, h.mem⟩, h.quietMem, k.out⟩

/-- A change of the engines' state alone is within every set of fields. -/
theorem Within.of_same (own : Nat → Bool) {s t : State} (hl : t.live = s.live) (hw : t.win = s.win) (hm : t.mem = s.mem)
    (hs : t.sides = s.sides) (ho : ∃ a, t.out = a ++ s.out) : Within own s t := by
  refine ⟨⟨fun _ _ _ => by rw [hl], fun _ _ _ => by rw [hw], by rw [SidesKept, hs], fun _ => hm⟩, fun q => ?_, ho⟩
  simpa only [State.quietMem, State.isSender, State.role, State.rd, State.queue, State.word, hl, hw] using q

/-- A write of a field of a set that holds neither the role nor the recorder's state. -/
theorem Within.wr {own : Nat → Bool} (s : State) (f : Fld) (v : Nat) (hf : own f.key = true) (hrole : own HIF_STRAP_STAT_ROLE.key = false)
    (hrec : own REC_STAT_STATE.key = false) : Within own s (s.wr f v) := by
  have hne {k : Nat} (hk : own k = false) : k ≠ f.key := by rintro rfl; rw [hf] at hk; cases hk
  refine ⟨⟨fun k hk _ => Tbl.get_set_ne _ _ (hne hk), fun _ _ _ => rfl, rfl, fun _ => rfl⟩, fun q => ?_, [], rfl⟩
  simp only [State.quietMem, State.isSender, State.role, State.rd_wr_ne s v (hne hrole), State.rd_wr_ne s v (hne hrec)]
  exact q

theorem Within.each {own : Nat → Bool} {α : Type} (l : List α) (g : State → α → State) (hg : ∀ s a, Within own s (g s a)) (s : State) :
    Within own s (s.each l g) :=
  State.each_keeps (P := fun u => Within own s u) l g (fun u a hu => hu.trans (hg u a)) (Within.refl own s)

theorem Within.respond (own : Nat → Bool) (s : State) (r : Req) (cmd status : Nat) (body : List Nat) :
    Within own s (s.respond r cmd status body) := .of_quiet own (Quiet.respond s r cmd status body) (Beside.respond s r cmd status body)

/-! ### Answers -/

/-- An answer is given. -/
theorem answered_respond (s : State) (r : Req) (cmd status : Nat) (body : List Nat) :
    Answered s (s.respond r cmd status body) r cmd status body := by
  obtain ⟨a, ha⟩ := (respond_beside_send s r cmd status body).out
  exact ⟨a, [], ha⟩

/-- What was given between two states was given before and after them too. -/
theorem Sent.mono {own own' : Nat → Bool} {s t u v : State} {e : Emit} (h : Within own s t) (he : Sent t u e) (k : Within own' u v) :
    Sent s v e := by
  obtain ⟨a, b, hab⟩ := he
  obtain ⟨c, hc⟩ := h.out
  obtain ⟨d, hd⟩ := k.out
  exact ⟨d ++ a, b ++ c, by rw [hd, hab, hc]; simp⟩

/-- What comes before an answer, and the answer. -/
theorem Within.answers {own : Nat → Bool} {s t : State} (h : Within own s t) (r : Req) (cmd status : Nat) (body : List Nat) :
    Answered s (t.respond r cmd status body) r cmd status body ∧ Kept own s (t.respond r cmd status body) :=
  ⟨Sent.mono h (answered_respond t r cmd status body) (.refl own _), (h.trans (.respond own t r cmd status body)).kept⟩

/-- Of a list of requests that are answered one after another, each is answered. -/
theorem answered_each {own : Nat → Bool} {α : Type} (g : State → α → State) (r : α → Req) (cmd status : Nat) (body : α → List Nat)
    (hg : ∀ s a, Within own s (g s a)) (ha : ∀ s a, Answered s (g s a) (r a) cmd status (body a)) (l : List α) (s : State) :
    ∀ a ∈ l, Answered s (s.each l g) (r a) cmd status (body a) := by
  induction l generalizing s with
  | nil => nofun
  | cons b l ih =>
    intro a hmem
    rcases List.mem_cons.mp hmem with rfl | hmem
    · exact Sent.mono (.refl own s) (ha s a) (.each l g hg _)
    · exact Sent.mono (hg s b) (ih (g s b) a hmem) (.refl own _)

/-! ### A request that a control core takes -/

theorem Quiet.takeRequest (s : State) : Quiet s s.takeRequest := by
  unfold State.takeRequest
  split
  · exact Quiet.setDesc s 0 1 (by decide) _
  · exact Quiet.refl s

theorem Beside.takeRequest (s : State) : Beside s s.takeRequest := by
  unfold State.takeRequest
  split
  · exact Beside.setWord _ _ _
  · exact Beside.refl s

theorem Quiet.badRequests (n : Nat) (s : State) : Quiet s (State.badRequests n s) := by
  induction n generalizing s with
  | zero => exact Quiet.refl s
  | succ n ih =>
    unfold State.badRequests
    simp only
    split
    · split
      · exact Quiet.refl s
      · exact ((Quiet.takeRequest s).trans (Quiet.respond _ _ _ _ _)).trans (ih _)
    · exact Quiet.refl s

theorem Beside.badRequests (n : Nat) (s : State) : Beside s (State.badRequests n s) := by
  induction n generalizing s with
  | zero => exact Beside.refl s
  | succ n ih =>
    unfold State.badRequests
    simp only
    split
    · split
      · exact Beside.refl s
      · exact ((Beside.takeRequest s).trans (Beside.respond _ _ _ _ _)).trans (ih _)
    · exact Beside.refl s

theorem Quiet.taken (s : State) : Quiet s s.taken := (Quiet.takeRequest s).trans (Quiet.badRequests _ _)
theorem Beside.taken (s : State) : Beside s s.taken := (Beside.takeRequest s).trans (Beside.badRequests _ _)
theorem Within.taken (own : Nat → Bool) (s : State) : Within own s s.taken := .of_quiet own (Quiet.taken s) (Beside.taken s)

@[simp] theorem State.taken_commits (s : State) : s.taken.commits = s.commits := (Quiet.taken s).commits
@[simp] theorem State.taken_coords (s : State) : s.taken.ctl.coords = s.ctl.coords := (Beside.taken s).coords
@[simp] theorem State.taken_past (s : State) : s.taken.ctl.past = s.ctl.past := (Beside.taken s).past

@[simp] theorem State.taken_isSender (s : State) : s.taken.isSender = s.isSender := by
  simp only [State.isSender, State.role, (Quiet.taken s).rd HIF_STRAP_STAT_ROLE (by decide)]

@[simp] theorem State.taken_frame (s : State) : s.taken.frame = s.frame := (Quiet.taken s).rd WTU_FRAME_FRAME_NO (by decide)

@[simp] theorem State.taken_node (s : State) : s.taken.node = s.node := by
  have hnode (i : Nat) : s.taken.rd (QLK_TOPO_NODE i) = s.rd (QLK_TOPO_NODE i) :=
    congrArg BitVec.toNat ((Beside.taken s).high _ (by simp only [Fld.key, QLK_TOPO_NODE]; omega))
  simp only [State.node, State.taken_isSender, (Quiet.taken s).rd QEN_CFG_PSIDE (by decide), hnode]

@[simp] theorem State.taken_latchPast (s : State) (n : Nat) : s.taken.latchPast n = s.latchPast n := by
  simp only [State.latchPast, State.taken_frame, (Quiet.taken s).latchDone]

@[simp] theorem State.taken_heldReqs (s : State) : s.taken.heldReqs = s.heldReqs := by
  simp only [State.heldReqs, State.taken_coords, (Quiet.taken s).nvs, (Beside.taken s).replayReq, (Quiet.taken s).upd, (Quiet.taken s).arb]

/-- With fewer than 16 requests held a request has its effect, on the state in which it has been taken (R266). -/
theorem State.mailbox_of_room (s : State) (r : Req) (cmd : Nat) (f : State → State) (h : s.heldReqs < 16) :
    s.mailbox r cmd f = .next (f s.taken) := by
  rw [State.mailbox, State.taken_heldReqs, if_neg (by omega)]

end Sys2Proof.Machine
end

