-- ==== Sys2Proof/Proofs/ScheduledCommits.lean ====
section
/-! SUPPORT. Scheduled commits (R24, R267): what holding, dropping and cancelling one change, what each request is answered, and how a
sender coordinates. -/

namespace Sys2Proof.Machine

/-! ### One node's scheduled commits (R24) -/

/-- The keys of SHD_STAT.CANCELLED, which a late CANCEL sets. -/
def cancelledKeys (k : Nat) : Bool := (List.range 64).any fun p => k == (SHD_STAT_CANCELLED p).key

theorem cancelledKeys_of_lt {p : Nat} (hp : p < 64) : cancelledKeys (SHD_STAT_CANCELLED p).key = true :=
  List.any_eq_true.mpr ⟨p, List.mem_range.mpr hp, beq_self_eq_true _⟩

theorem Within.holdSched (own : Nat → Bool) (s : State) (r : Req) (n pages : Nat) : Within own s (s.holdSched r n pages) :=
  .of_same own rfl rfl rfl rfl ⟨[], rfl⟩

theorem Within.dropSched (own : Nat → Bool) (s : State) (n : Nat) : Within own s (s.dropSched n) :=
  .of_same own rfl rfl rfl rfl ⟨[], rfl⟩

@[simp] theorem State.holdSched_sched (s : State) (r : Req) (n pages : Nat) :
    (s.holdSched r n pages).commits.sched = s.commits.sched ++ [⟨n, pages, r⟩] := rfl

theorem State.mem_dropSched (s : State) (n : Nat) (e : Sched) :
    e ∈ (s.dropSched n).commits.sched ↔ e ∈ s.commits.sched ∧ e.frame ≠ n := by
  simp [State.dropSched]

/-- Whether a node holds a commit for a tick, as its answer to a CANCEL tells. -/
theorem heldFor_iff (l : List Sched) (n : Nat) : l.any (fun e => e.frame == n) = true ↔ ∃ e ∈ l, e.frame = n := by simp

/-- The pages of a late CANCEL are marked, each where it has shadowed registers. -/
def State.markCancelled (s : State) (ps : List Nat) : State :=
  s.each ps fun s p => if pageHasRws p then s.wr (SHD_STAT_CANCELLED p) 1 else s

theorem Within.markCancelled (s : State) (ps : List Nat) (hps : ∀ p ∈ ps, p < 64) : Within cancelledKeys s (s.markCancelled ps) := by
  induction ps generalizing s with
  | nil => exact .refl _ s
  | cons p ps ih =>
    have hp : Within cancelledKeys s (if pageHasRws p then s.wr (SHD_STAT_CANCELLED p) 1 else s) := by
      split
      · exact .wr s _ 1 (cancelledKeys_of_lt (hps p (by simp))) (by decide +kernel) (by decide +kernel)
      · exact .refl _ s
    exact hp.trans (ih _ fun q hq => hps q (by simp [hq]))

theorem State.markCancelled_commits (s : State) (ps : List Nat) : (s.markCancelled ps).commits = s.commits :=
  State.each_keeps (P := fun t => t.commits = s.commits) ps _ (fun t p ht => by split <;> exact ht) rfl

/-- A page stays marked while others are. -/
theorem State.markCancelled_keeps (s : State) (ps : List Nat) (p : Nat) (h : s.rd (SHD_STAT_CANCELLED p) = 1) :
    (s.markCancelled ps).rd (SHD_STAT_CANCELLED p) = 1 := by
  refine State.each_keeps (P := fun t => t.rd (SHD_STAT_CANCELLED p) = 1) ps _ (fun t q ht => ?_) h
  split
  · rw [State.rd_wr]
    split
    · rfl
    · exact ht
  · exact ht

theorem State.markCancelled_rd (s : State) (ps : List Nat) (p : Nat) (hp : p ∈ ps) (hr : pageHasRws p = true) :
    (s.markCancelled ps).rd (SHD_STAT_CANCELLED p) = 1 := by
  induction ps generalizing s with
  | nil => cases hp
  | cons q ps ih =>
    rcases List.mem_cons.mp hp with rfl | hp
    · refine State.markCancelled_keeps _ ps p ?_
      simp only [if_pos hr]
      exact State.rd_wr_self s _ 1 (by decide : 1 < 2 ^ 1) (by decide : 1 ≤ 64)
    · exact ih _ hp

/-- A CANCEL that finds no applied commit of its tick does nothing. -/
theorem State.lateCancel_none (s : State) (n : Nat) (h : s.ctl.past.find? (fun e => e.frame == n) = none) : s.lateCancel n = s := by
  simp only [State.lateCancel, h]

/-- One that finds one marks that commit's pages, and posts LATE_APPLY. -/
theorem State.lateCancel_some (s : State) (n : Nat) (e : Sched) (h : s.ctl.past.find? (fun e => e.frame == n) = some e) :
    s.lateCancel n = (s.markCancelled (nodesOf e.pages)).post 0x800D [n, e.pages % 2 ^ 44] := by
  simp only [State.lateCancel, h]
  rfl

theorem mem_nodesOf {m t : Nat} : t ∈ nodesOf m ↔ t < 64 ∧ m.testBit t = true := by simp [nodesOf]

theorem Within.lateCancel (s : State) (n : Nat) : Within cancelledKeys s (s.lateCancel n) := by
  cases h : s.ctl.past.find? fun e => e.frame == n with
  | none => rw [State.lateCancel_none s n h]; exact .refl _ s
  | some e =>
    rw [State.lateCancel_some s n e h]
    exact (Within.markCancelled s _ fun p hp => (mem_nodesOf.mp hp).1).trans (.of_quiet _ (Quiet.post _ _ _) (Beside.post _ _ _))

@[simp] theorem State.lateCancel_commits (s : State) (n : Nat) : (s.lateCancel n).commits = s.commits := by
  cases h : s.ctl.past.find? fun e => e.frame == n with
  | none => rw [State.lateCancel_none s n h]
  | some e => rw [State.lateCancel_some s n e h, State.post_commits, State.markCancelled_commits]

/-- No note changes SHD_STAT.CANCELLED. -/
theorem noteKey_cancelled (p : Nat) : noteKey (SHD_STAT_CANCELLED p).key = false := by
  have hoff : (SHD_STAT_CANCELLED p).key / 64 % 4096 = 72 := by
    simp only [Fld.key, SHD_STAT_CANCELLED]
    omega
  refine Bool.eq_false_iff.mpr fun h => ?_
  simp only [noteKey, Bool.or_eq_true, beq_iff_eq, List.contains_eq_mem, List.mem_cons, List.not_mem_nil, or_false, decide_eq_true_eq] at h
  rcases h with h | h | h | h | h | h | h | h | h
  · omega
  all_goals exact absurd (congrArg (fun k => k / 64 % 4096) h) (by simp only [hoff]; decide)

/-- A late CANCEL marks the pages of the applied commit that it names. -/
theorem State.lateCancel_rd (s : State) (n p : Nat) (e : Sched) (h : s.ctl.past.find? (fun e => e.frame == n) = some e) (hp : p < 64)
    (hb : e.pages.testBit p = true) (hr : pageHasRws p = true) : (s.lateCancel n).rd (SHD_STAT_CANCELLED p) = 1 := by
  rw [State.lateCancel_some s n e h, State.post_rd _ _ _ _ (noteKey_cancelled p)]
  exact State.markCancelled_rd s _ p (mem_nodesOf.mpr ⟨hp, hb⟩) hr

/-! ### The requests, each with room in the mailbox -/

section
variable {s : State} (r : Req) (f : BitVec 48) (pages nodes : Word) (hroom : s.heldReqs < 16)
include hroom

theorem exec_schedCommitArm : exec (.schedCommitArm r f pages) s = .next
    (if s.latchPast f.toNat then s.taken.respond r 0x10 stLATE [0]
     else (s.taken.holdSched r f.toNat pages.toNat).respond r 0x10 stARMED [2 ^ s.node]) := by
  change execSchedCommitArm r f pages s = _
  rw [execSchedCommitArm, State.mailbox_of_room _ _ _ _ hroom]
  simp only [State.taken_latchPast, State.taken_node]

theorem exec_cancelReceive : exec (.cancelReceive r f) s = .next
    (if s.latchPast f.toNat then (s.taken.lateCancel f.toNat).respond r 0x11 stLATE [0]
     else (s.taken.dropSched f.toNat).respond r 0x11 stCANCELLED
       [if s.commits.sched.any (fun e => e.frame == f.toNat) then 2 ^ s.node else 0]) := by
  change execCancelReceive r f s = _
  rw [execCancelReceive, State.mailbox_of_room _ _ _ _ hroom]
  simp only [State.taken_latchPast, State.taken_node, State.taken_commits]

/-- A sender has no time left for a tick before the second from now. -/
theorem exec_schedCommit_of_near (hs : s.isSender = true) (hf : f.toNat < s.frame + 2) :
    exec (.schedCommit r f pages nodes) s = .next (s.taken.respond r 0x10 stLATE [0]) := by
  change execSchedCommit r f pages nodes s = _
  rw [execSchedCommit, State.mailbox_of_room _ _ _ _ hroom]
  simp only [State.taken_isSender, State.taken_frame, hs, hf, and_self, if_true]

/-- A tile, and a sender that names no node, schedule a commit of their own. -/
theorem exec_schedCommit_own (hfar : ¬ (s.isSender = true ∧ f.toNat < s.frame + 2)) (hown : s.isSender = false ∨ nodes.toNat = 0) :
    exec (.schedCommit r f pages nodes) s = .next
      (if s.latchPast f.toNat then s.taken.respond r 0x10 stLATE [0]
       else (s.taken.holdSched r f.toNat pages.toNat).respond r 0x10 stARMED [2 ^ s.node]) := by
  change execSchedCommit r f pages nodes s = _
  rw [execSchedCommit, State.mailbox_of_room _ _ _ _ hroom]
  simp only [State.taken_isSender, State.taken_frame, State.taken_latchPast, State.taken_node, if_neg hfar, if_pos hown]

theorem exec_schedCancel_late (hlate : s.latchPast f.toNat = true) : exec (.schedCancel r f nodes) s = .next
    ((if s.isSender = false ∨ nodes.toNat = 0 ∨ nodes.toNat.testBit s.node = true then s.taken.lateCancel f.toNat else s.taken).respond
      r 0x11 stLATE [0]) := by
  change execSchedCancel r f nodes s = _
  rw [execSchedCancel, State.mailbox_of_room _ _ _ _ hroom]
  simp only [State.taken_latchPast, State.taken_isSender, State.taken_node, hlate, if_true]

theorem exec_schedCancel_own (hlate : s.latchPast f.toNat = false) (hs : s.isSender = false) : exec (.schedCancel r f nodes) s = .next
    ((s.taken.dropSched f.toNat).respond r 0x11 stOK [if s.commits.sched.any (fun e => e.frame == f.toNat) then 2 ^ s.node else 0]) := by
  change execSchedCancel r f nodes s = _
  rw [execSchedCancel, State.mailbox_of_room _ _ _ _ hroom]
  simp only [State.taken_latchPast, State.taken_isSender, State.taken_node, State.taken_commits, hlate, hs, true_or, if_true,
    Bool.false_eq_true, if_false]

end

/-! ### What each of their ends does -/

/-- A request refused where it was taken. -/
theorem taken_refused (s : State) (r : Req) (cmd status : Nat) (body : List Nat) :
    Answered s (s.taken.respond r cmd status body) r cmd status body ∧ (s.taken.respond r cmd status body).commits = s.commits ∧
      Kept (fun _ => false) s (s.taken.respond r cmd status body) := by
  obtain ⟨ha, hk⟩ := (Within.taken _ s).answers r cmd status body
  exact ⟨ha, by simp, hk⟩

/-- A commit held and answered. -/
theorem taken_held (s : State) (r : Req) (n pages cmd status : Nat) (body : List Nat) :
    Answered s ((s.taken.holdSched r n pages).respond r cmd status body) r cmd status body ∧
      ((s.taken.holdSched r n pages).respond r cmd status body).commits.sched = s.commits.sched ++ [⟨n, pages, r⟩] ∧
      Kept (fun _ => false) s ((s.taken.holdSched r n pages).respond r cmd status body) := by
  obtain ⟨ha, hk⟩ := ((Within.taken _ s).trans (.holdSched _ _ r n pages)).answers r cmd status body
  exact ⟨ha, by simp, hk⟩

/-- A tick's commits dropped, and the request answered. -/
theorem taken_dropped (s : State) (r : Req) (n cmd status : Nat) (body : List Nat) :
    Answered s ((s.taken.dropSched n).respond r cmd status body) r cmd status body ∧
      (∀ e, e ∈ ((s.taken.dropSched n).respond r cmd status body).commits.sched ↔ e ∈ s.commits.sched ∧ e.frame ≠ n) ∧
      Kept (fun _ => false) s ((s.taken.dropSched n).respond r cmd status body) := by
  obtain ⟨ha, hk⟩ := ((Within.taken _ s).trans (.dropSched _ _ n)).answers r cmd status body
  exact ⟨ha, fun e => by simp [State.mem_dropSched], hk⟩

/-- A late CANCEL, with or without its effect on the pages, and the request answered. -/
theorem taken_cancelled (s : State) (r : Req) (n : Nat) (P : Prop) [Decidable P] (cmd status : Nat) (body : List Nat) :
    Answered s ((if P then s.taken.lateCancel n else s.taken).respond r cmd status body) r cmd status body ∧
      ((if P then s.taken.lateCancel n else s.taken).respond r cmd status body).commits = s.commits ∧
      Kept cancelledKeys s ((if P then s.taken.lateCancel n else s.taken).respond r cmd status body) := by
  have hlate : Within cancelledKeys s (if P then s.taken.lateCancel n else s.taken) := by
    split
    · exact (Within.taken _ s).trans (.lateCancel _ n)
    · exact .taken _ s
  have hcommits : (if P then s.taken.lateCancel n else s.taken).commits = s.commits := by split <;> simp
  obtain ⟨ha, hk⟩ := hlate.answers r cmd status body
  exact ⟨ha, by rw [State.respond_commits, hcommits], hk⟩

/-- The mark of a late CANCEL is there after the answer. -/
theorem taken_cancelled_rd (s : State) (r : Req) (n p cmd status : Nat) (body : List Nat) (e : Sched)
    (h : s.ctl.past.find? (fun e => e.frame == n) = some e) (hp : p < 64) (hb : e.pages.testBit p = true) (hr : pageHasRws p = true) :
    ((s.taken.lateCancel n).respond r cmd status body).rd (SHD_STAT_CANCELLED p) = 1 := by
  rw [State.respond_rd _ _ _ _ _ _ (noteKey_cancelled p)]
  exact State.lateCancel_rd _ n p e (by rw [State.taken_past, h]) hp hb hr

/-- Settles O34: where the latch point has passed every request is refused, and before it a commit is held or dropped. -/
theorem scheduledCommits : Obligations.ScheduledCommits := by
  intro s r f pages nodes hroom
  refine ⟨fun hlate => ⟨?_, ?_, ?_, ?_⟩, fun hlate => ⟨?_, ?_, fun hs => ⟨?_, ?_⟩⟩, fun hs hf => ?_⟩
  · exact ⟨_, by rw [exec_schedCommitArm r f pages hroom, if_pos hlate], taken_refused s r 0x10 stLATE [0]⟩
  · refine ⟨_, ?_, taken_refused s r 0x10 stLATE [0]⟩
    by_cases hnear : s.isSender = true ∧ f.toNat < s.frame + 2
    · exact exec_schedCommit_of_near r f pages 0 hroom hnear.1 hnear.2
    · rw [exec_schedCommit_own r f pages 0 hroom hnear (.inr rfl), if_pos hlate]
  · obtain ⟨ha, hc, hk⟩ := taken_cancelled s r f.toNat True 0x11 stLATE [0]
    rw [if_pos trivial] at ha hc hk
    exact ⟨_, by rw [exec_cancelReceive r f hroom, if_pos hlate], ha, hc,
      fun e he p hp hb hr => taken_cancelled_rd s r f.toNat p 0x11 stLATE [0] e he hp hb hr, hk⟩
  · exact ⟨_, exec_schedCancel_late r f nodes hroom hlate, taken_cancelled s r f.toNat _ 0x11 stLATE [0]⟩
  · exact ⟨_, by rw [exec_schedCommitArm r f pages hroom, if_neg (by simp [hlate])],
      taken_held s r f.toNat pages.toNat 0x10 stARMED [2 ^ s.node]⟩
  · simp only [← heldFor_iff]
    exact ⟨_, by rw [exec_cancelReceive r f hroom, if_neg (by simp [hlate])], taken_dropped s r f.toNat 0x11 stCANCELLED _⟩
  · refine ⟨_, ?_, taken_held s r f.toNat pages.toNat 0x10 stARMED [2 ^ s.node]⟩
    rw [exec_schedCommit_own r f pages nodes hroom (by simp [hs]) (.inl hs), if_neg (by simp [hlate])]
  · exact ⟨_, _, exec_schedCancel_own r f nodes hroom hlate hs, taken_dropped s r f.toNat 0x11 stOK _⟩
  · obtain ⟨ha, hc, hk⟩ := taken_refused s r 0x10 stLATE [0]
    exact ⟨_, exec_schedCommit_of_near r f pages nodes hroom hs hf, ha, hc, by simp, hk⟩

end Sys2Proof.Machine
end

