-- ==== Sys2Proof/Proofs/CoordinatedCommits.lean ====
section
/-! SUPPORT. Scheduled commits that a sender coordinates (R267): what its messages to the nodes change, and how a coordinated commit ends:
wholly armed, or cancelled at its deadline. -/

namespace Sys2Proof.Machine

/-! ### Messages to the nodes -/

/-- What a message through the partner sender counts. -/
abbrev relayedKeys : Nat → Bool := keysOf [QLK_MG_CNT_RELAYED]

/-- Messages to nodes change QLK.MG_CNT.RELAYED at most, and neither the node's own commits nor those that it coordinates. -/
structure Asks (s t : State) : Prop where
  within : Within relayedKeys s t
  commits : t.commits = s.commits
  coords : t.ctl.coords = s.ctl.coords

theorem Asks.refl (s : State) : Asks s s := ⟨.refl _ s, rfl, rfl⟩

theorem Asks.trans {s t u : State} (h : Asks s t) (k : Asks t u) : Asks s u :=
  ⟨h.within.trans k.within, k.commits.trans h.commits, k.coords.trans h.coords⟩

theorem Asks.of_quiet {s t : State} (h : Quiet s t) (k : Beside s t) : Asks s t := ⟨.of_quiet _ h k, h.commits, k.coords⟩

theorem Asks.each {α : Type} (l : List α) (g : State → α → State) (hg : ∀ s a, Asks s (g s a)) (s : State) : Asks s (s.each l g) :=
  State.each_keeps (P := fun u => Asks s u) l g (fun u a hu => hu.trans (hg u a)) (Asks.refl s)

theorem Asks.bumpRelayed (s : State) : Asks s (s.bump QLK_MG_CNT_RELAYED) :=
  ⟨.wr s _ _ (by decide) (by decide) (by decide), rfl, rfl⟩

theorem Asks.sendEther (s : State) (typ ring : Nat) (ws : List Nat) : Asks s (s.sendEther typ ring ws) := by
  unfold State.sendEther
  split
  · exact .of_quiet (Quiet.send s _) (Beside.send s _)
  · exact .refl s

theorem Asks.sendMessageOn (s : State) (sd dst src id : Nat) (words : List Word72) : Asks s (s.sendMessageOn sd dst src id words) :=
  .of_quiet ((Quiet.send s _).trans (Quiet.sendMg _ _ _ _ _ _)) ((Beside.send s _).trans (Beside.sendMg _ _ _ _ _ _))

theorem Asks.sendMessage (s : State) (dst src id : Nat) (words : List Word72) : Asks s (s.sendMessage dst src id words).1 := by
  unfold State.sendMessage
  split
  · exact .sendMessageOn s _ _ _ _ _
  · split
    · exact (Asks.bumpRelayed s).trans (.sendEther _ _ _ _)
    · exact .refl s

theorem Asks.askNode (s : State) (node cmd : Nat) (r : Req) (body : List Nat) : Asks s (s.askNode node cmd r body) :=
  .sendMessage s _ _ _ _

/-- The nodes of a mask are asked, all but this one. -/
theorem Asks.askOthers (s : State) (ts : List Nat) (cmd : Nat) (r : Req) (body : List Nat) :
    Asks s (s.each ts fun s t => if t = s.node then s else s.askNode t cmd r body) := by
  refine .each ts _ (fun s t => ?_) s
  split
  · exact .refl s
  · exact .askNode s _ _ _ _

/-- What a CANCEL to a mask does at one of its nodes. -/
theorem Within.cancelNode (s : State) (r : Req) (n t : Nat) :
    Within relayedKeys s (if t = s.node then s.dropSched n else s.askNode t 0x11 r [n, 0]) := by
  split
  · exact .dropSched _ s n
  · exact (Asks.askNode s _ _ _ _).within

theorem Within.cancelNodes (s : State) (r : Req) (n m : Nat) : Within relayedKeys s (s.cancelNodes r n m) :=
  .each _ _ (fun s t => .cancelNode s r n t) s

@[simp] theorem State.cancelNodes_coords (s : State) (r : Req) (n m : Nat) : (s.cancelNodes r n m).ctl.coords = s.ctl.coords := by
  refine State.each_keeps (P := fun t => t.ctl.coords = s.ctl.coords) _ _ (fun u t hu => ?_) rfl
  split
  · exact hu
  · exact (Asks.askNode u _ _ _ _).coords.trans hu

/-! ### The commits that a sender coordinates -/

/-- Another list of coordinated commits. -/
def State.setCoords (s : State) (cs : List SchedCoord) : State := { s with ctl := { s.ctl with coords := cs } }

@[simp] theorem State.setCoords_coords (s : State) (cs : List SchedCoord) : (s.setCoords cs).ctl.coords = cs := rfl
@[simp] theorem State.setCoords_commits (s : State) (cs : List SchedCoord) : (s.setCoords cs).commits = s.commits := rfl
@[simp] theorem State.setCoords_self (s : State) : s.setCoords s.ctl.coords = s := rfl

theorem Within.setCoords (own : Nat → Bool) (s : State) (cs : List SchedCoord) : Within own s (s.setCoords cs) :=
  .of_same own rfl rfl rfl rfl ⟨[], rfl⟩

/-- Every node that a coordinated commit names has armed. -/
def SchedCoord.whole (c : SchedCoord) : Bool := c.nodes &&& c.armed == c.nodes

theorem SchedCoord.whole_iff (c : SchedCoord) : c.whole = true ↔ c.nodes &&& c.armed = c.nodes := beq_iff_eq

/-- Commits wholly armed are answered and leave the list. -/
theorem State.settleSched_eq (s : State) : s.settleSched =
    (s.setCoords (s.ctl.coords.filter fun c => !c.whole)).each (s.ctl.coords.filter SchedCoord.whole) fun s c =>
      s.respond c.req 0x10 stARMED [c.armed] := rfl

@[simp] theorem State.settleSched_coords (s : State) : s.settleSched.ctl.coords = s.ctl.coords.filter fun c => !c.whole :=
  State.each_keeps (P := fun t => t.ctl.coords = s.ctl.coords.filter fun c => !c.whole) _ _
    (fun t c ht => (t.respond_coords c.req _ _ _).trans ht) rfl

@[simp] theorem State.settleSched_commits (s : State) : s.settleSched.commits = s.commits :=
  State.each_keeps (P := fun t => t.commits = s.commits) _ _ (fun t c ht => (t.respond_commits c.req _ _ _).trans ht) rfl

theorem Within.settleSched (own : Nat → Bool) (s : State) : Within own s s.settleSched :=
  (Within.setCoords own s _).trans (.each _ _ (fun t (c : SchedCoord) => .respond own t c.req _ _ _) _)

theorem State.settleSched_answered (s : State) (c : SchedCoord) (hc : c ∈ s.ctl.coords) (hw : c.whole = true) :
    Answered s s.settleSched c.req 0x10 stARMED [c.armed] :=
  Sent.mono (.setCoords (fun _ => false) s _)
    (answered_each (fun t c => t.respond c.req 0x10 stARMED [c.armed]) SchedCoord.req _ _ (fun c => [c.armed])
      (fun t c => .respond (fun _ => false) t c.req _ _ _) (fun t c => answered_respond t c.req _ _ _) _ _ c (List.mem_filter.mpr ⟨hc, hw⟩))
    (.refl (fun _ => false) _)

theorem State.settleSched_of_none (s : State) (h : ∀ c ∈ s.ctl.coords, c.whole = false) : s.settleSched = s := by
  have hopen : (s.ctl.coords.filter fun c => !c.whole) = s.ctl.coords := List.filter_eq_self.mpr fun c hc => by rw [h c hc]; rfl
  have hwhole : s.ctl.coords.filter SchedCoord.whole = [] := List.filter_eq_nil_iff.mpr fun c hc => by simp [h c hc]
  rw [State.settleSched_eq, hopen, hwhole, State.each_nil, State.setCoords_self]

/-- A sender far enough ahead of the tick asks every node that it names, and waits. -/
theorem exec_schedCommit_coordinated {s : State} (r : Req) (f : BitVec 48) (pages nodes : Word) (hroom : s.heldReqs < 16)
    (hs : s.isSender = true) (hf : s.frame + 2 ≤ f.toNat) (hn : nodes.toNat ≠ 0) (hself : nodes.toNat.testBit s.node = false) :
    let asked := s.taken.each (nodesOf nodes.toNat) fun s t => if t = s.node then s else s.askNode t 0x10 r [f.toNat, pages.toNat, 0]
    exec (.schedCommit r f pages nodes) s =
      .next (asked.setCoords (asked.ctl.coords ++ [⟨r, f.toNat, pages.toNat, nodes.toNat, 0⟩])).settleSched := by
  have hfar : ¬ (s.isSender = true ∧ f.toNat < s.frame + 2) := by omega
  have hother : ¬ (s.isSender = false ∨ nodes.toNat = 0) := by simp [hs, hn]
  change execSchedCommit r f pages nodes s = _
  rw [execSchedCommit, State.mailbox_of_room _ _ _ _ hroom]
  simp only [State.taken_isSender, State.taken_frame, State.taken_node, if_neg hfar, if_neg hother, hself, Bool.false_eq_true, if_false]
  rfl

/-- An ARMED for the one commit that is coordinated. -/
theorem exec_schedArmedReceive_one {s : State} {c : SchedCoord} (n : BitVec 6) (hc : s.ctl.coords = [c]) (hn : c.nodes.testBit n.toNat = true)
    (ha : c.armed.testBit n.toNat = false) :
    exec (.schedArmedReceive n) s = .next (s.setCoords [{ c with armed := c.armed + 2 ^ n.toNat }]).settleSched := by
  change execSchedArmedReceive n s = _
  have hfind : s.ctl.coords.findIdx? (fun c => c.nodes.testBit n.toNat && !c.armed.testBit n.toNat) = some 0 := by simp [hc, hn, ha]
  simp only [execSchedArmedReceive, hfind]
  rw [hc]
  rfl

/-! ### The deadline -/

/-- A commit not wholly armed at its deadline is cancelled at every node, and its request answered. -/
def State.cancelCoord (s : State) (c : SchedCoord) : State := (s.cancelNodes c.req c.frame c.nodes).respond c.req 0x10 stCANCELLED [c.armed]

theorem Within.cancelCoord (s : State) (c : SchedCoord) : Within relayedKeys s (s.cancelCoord c) :=
  (Within.cancelNodes s c.req c.frame c.nodes).trans (.respond _ _ c.req _ _ _)

theorem State.cancelCoord_coords (s : State) (c : SchedCoord) : (s.cancelCoord c).ctl.coords = s.ctl.coords := by simp [State.cancelCoord]

theorem State.cancelCoord_answered (s : State) (c : SchedCoord) : Answered s (s.cancelCoord c) c.req 0x10 stCANCELLED [c.armed] :=
  ((Within.cancelNodes s c.req c.frame c.nodes).answers c.req _ _ _).1

/-- The commits whose deadline it is leave the list, and are cancelled one after another. -/
theorem exec_schedCommitDeadline (s : State) : exec .schedCommitDeadline s = .next
    ((s.setCoords (s.ctl.coords.filter fun c => !s.latchPast (c.frame - 1))).each
      (s.ctl.coords.filter fun c => s.latchPast (c.frame - 1)) State.cancelCoord) := rfl

/-- Settles O35: the list of coordinated commits gains one at SCHED_COMMIT, loses it with the last ARMED, and loses those that are due at
the deadline, each with its answer. -/
theorem coordinatedCommits : Obligations.CoordinatedCommits := by
  intro s
  refine ⟨fun r f pages nodes hroom hs hf hn hself => ?_, fun c n hc hn ha => ⟨fun hw => ?_, fun hw => ?_⟩, ?_⟩
  · have hn' : nodes.toNat ≠ 0 := fun h => hn (BitVec.eq_of_toNat_eq h)
    have hasked := Asks.askOthers s.taken (nodesOf nodes.toNat) 0x10 r [f.toNat, pages.toNat, 0]
    refine ⟨_, exec_schedCommit_coordinated r f pages nodes hroom hs hf hn' hself, ?_, ?_, ?_⟩
    · simp [SchedCoord.whole, Ne.symm hn']
    · rw [State.settleSched_commits, State.setCoords_commits, hasked.commits, State.taken_commits]
    · exact ((((Within.taken _ s).trans hasked.within).trans (.setCoords _ _ _)).trans (.settleSched _ _)).kept
  · have hwhole := (SchedCoord.whole_iff { c with armed := c.armed + 2 ^ n.toNat }).mpr hw
    exact ⟨_, exec_schedArmedReceive_one n hc hn ha, by simp [hwhole],
      Sent.mono (.setCoords (fun _ => false) s _) (State.settleSched_answered _ _ (List.mem_singleton_self _) hwhole) (.refl (fun _ => false) _),
      ((Within.setCoords _ s _).trans (.settleSched _ _)).kept⟩
  · rw [exec_schedArmedReceive_one n hc hn ha, State.settleSched_of_none]
    · rfl
    · intro d hd
      rw [List.mem_singleton.mp hd]
      exact Bool.eq_false_iff.mpr fun h => hw ((SchedCoord.whole_iff _).mp h)
  · refine ⟨_, exec_schedCommitDeadline s, fun c => ?_, fun c hc hdue => ?_, ?_⟩
    · rw [State.each_keeps (P := fun t => t.ctl.coords = s.ctl.coords.filter fun c => !s.latchPast (c.frame - 1)) _ _
        (fun t c ht => (t.cancelCoord_coords c).trans ht) rfl]
      simp
    · exact Sent.mono (.setCoords relayedKeys s _)
        (answered_each State.cancelCoord SchedCoord.req _ _ (fun c => [c.armed]) .cancelCoord State.cancelCoord_answered _ _ c
          (List.mem_filter.mpr ⟨hc, hdue⟩)) (.refl relayedKeys _)
    · exact ((Within.setCoords _ s _).trans (.each _ _ .cancelCoord _)).kept

end Sys2Proof.Machine
end

