-- ==== Sys2Proof/Proofs/ResetValues.lean ====
section
/-! SUPPORT. The register fields as a whole: no two share a key, so that a store which the reset values fill one by one holds each of them
(R38). -/

namespace Sys2Proof.Machine

/-! ### The keys of the fields -/

/-- Whether the numbers of a list differ from each other and from those whose bits `seen` has. -/
def freshKeys : Nat → List Nat → Bool
  | _, [] => true
  | seen, k :: r => !seen.testBit k && freshKeys (seen ||| 2 ^ k) r

theorem nodup_of_freshKeys {seen : Nat} {l : List Nat} (h : freshKeys seen l = true) : l.Nodup ∧ ∀ k ∈ l, seen.testBit k = false := by
  induction l generalizing seen with
  | nil => simp
  | cons k r ih =>
    simp only [freshKeys, Bool.and_eq_true, Bool.not_eq_true'] at h
    obtain ⟨hk, hr⟩ := h
    obtain ⟨hnodup, hseen⟩ := ih hr
    simp only [Nat.testBit_or, Bool.or_eq_false_iff] at hseen
    refine ⟨List.nodup_cons.mpr ⟨fun hmem => ?_, hnodup⟩, fun j hj => ?_⟩
    · have := (hseen k hmem).2
      rw [Nat.testBit_two_pow_self] at this
      cases this
    · rcases List.mem_cons.mp hj with rfl | hj
      · exact hk
      · exact (hseen j hj).1

/-- A field as its register table gives it: in its page, inside a 64-bit register, with a reset value that fits its width. -/
def Fld.sound (pg : Nat) (f : Fld) : Bool :=
  f.page == pg && decide (f.off < 4096) && decide (f.lo < 64) && decide (f.w ≤ 64) && decide (f.rst < 2 ^ f.w)

theorem pageFields_sound : (blockPages.all fun pg => (pageFields pg).all (Fld.sound pg)) = true := by decide +kernel

theorem pageFields_fresh : (blockPages.all fun pg => freshKeys 0 ((pageFields pg).map fun f => f.key % 262144)) = true := by decide +kernel

theorem mem_allFields {f : Fld} : f ∈ allFields ↔ ∃ pg ∈ blockPages, f ∈ pageFields pg := List.mem_flatMap

theorem Fld.sound_iff {pg : Nat} {f : Fld} :
    f.sound pg = true ↔ f.page = pg ∧ f.off < 4096 ∧ f.lo < 64 ∧ f.w ≤ 64 ∧ f.rst < 2 ^ f.w := by
  simp [Fld.sound, and_assoc]

theorem sound_of_mem {pg : Nat} {f : Fld} (hpg : pg ∈ blockPages) (hf : f ∈ pageFields pg) :
    f.page = pg ∧ f.off < 4096 ∧ f.lo < 64 ∧ f.w ≤ 64 ∧ f.rst < 2 ^ f.w :=
  Fld.sound_iff.mp (List.all_eq_true.mp (List.all_eq_true.mp pageFields_sound pg hpg) f hf)

theorem Fld.rst_lt {f : Fld} (hf : f ∈ allFields) : f.rst < 2 ^ 64 := by
  obtain ⟨pg, hpg, hf⟩ := mem_allFields.mp hf
  obtain ⟨-, -, -, hw, hrst⟩ := sound_of_mem hpg hf
  exact Nat.lt_of_lt_of_le hrst (Nat.pow_le_pow_right (by decide) hw)

/-- A key names one field. -/
theorem Fld.eq_of_key_eq {f g : Fld} (hf : f ∈ allFields) (hg : g ∈ allFields) (h : f.key = g.key) : f = g := by
  obtain ⟨p, hp, hfp⟩ := mem_allFields.mp hf
  obtain ⟨q, hq, hgq⟩ := mem_allFields.mp hg
  obtain ⟨hfpage, hfoff, hflo, -, -⟩ := sound_of_mem hp hfp
  obtain ⟨hgpage, hgoff, hglo, -, -⟩ := sound_of_mem hq hgq
  have hpages : p = q := by simp only [Fld.key] at h; omega
  subst hpages
  obtain ⟨hnodup, -⟩ := nodup_of_freshKeys (List.all_eq_true.mp pageFields_fresh p hp)
  exact List.inj_on_of_nodup_map hnodup hfp hgq (congrArg (· % 262144) h)

/-! ### The reset values -/

/-- Fields stored one after another: a key at which every field listed brings the same value holds it, where it held it before or one of
them has the key. -/
theorem get_foldl_set {x : BitVec 64} {k : Nat} (v : Fld → BitVec 64) (l : List Fld) (m : Tbl 64) (hl : ∀ f ∈ l, f.key = k → v f = x)
    (hm : m.get k = x ∨ ∃ f ∈ l, f.key = k) : (l.foldl (fun t f => t.set f.key (v f)) m).get k = x := by
  induction l generalizing m with
  | nil => simpa using hm
  | cons f r ih =>
    refine ih _ (fun g hg => hl g (List.mem_cons_of_mem _ hg)) ?_
    by_cases hk : f.key = k
    · exact .inl (by rw [← hk, Tbl.get_set_self]; exact hl f List.mem_cons_self hk)
    · rw [Tbl.get_set_ne _ _ (Ne.symm hk)]
      refine hm.imp id ?_
      rintro ⟨g, hg, rfl⟩
      exact ⟨g, (List.mem_cons.mp hg).resolve_left (by rintro rfl; exact hk rfl), rfl⟩

/-- A store that holds the reset values of some of the fields holds that of each of them, and of each field whose reset value is zero. -/
theorem resetStore_get (p : Fld → Bool) {f : Fld} (hf : f ∈ allFields) (hp : p f = true ↔ f.rst ≠ 0) :
    (((allFields.filter p).foldl (fun (t : Tbl 64) f => t.set f.key (BitVec.ofNat 64 f.rst)) []).get f.key).toNat = f.rst := by
  have hone : ∀ g ∈ allFields.filter p, g.key = f.key → BitVec.ofNat 64 g.rst = BitVec.ofNat 64 f.rst :=
    fun g hg hk => by rw [Fld.eq_of_key_eq (List.mem_filter.mp hg).1 hf hk]
  have hheld : Tbl.get [] f.key = BitVec.ofNat 64 f.rst ∨ ∃ g ∈ allFields.filter p, g.key = f.key := by
    by_cases h : f.rst = 0
    · exact .inl (by rw [h]; rfl)
    · exact .inr ⟨f, List.mem_filter.mpr ⟨hf, hp.mpr h⟩, rfl⟩
  rw [get_foldl_set (fun f => BitVec.ofNat 64 f.rst) _ [] hone hheld, BitVec.toNat_ofNat, Nat.mod_eq_of_lt (Fld.rst_lt hf)]

theorem resetTbl_get {f : Fld} (hf : f ∈ allFields) : (resetTbl.get f.key).toNat = f.rst := by
  unfold resetTbl
  exact resetStore_get (fun f => f.rst != 0) hf (by simp)

theorem resetShadow_get {f : Fld} (hf : f ∈ allFields) (hacc : f.acc = .rws) : (resetShadow.get f.key).toNat = f.rst := by
  unfold resetShadow
  exact resetStore_get (fun f => f.rst != 0 && f.acc == .rws) hf (by simp [hacc])

theorem State.reset_live : State.reset.live = resetTbl := by simp only [State.reset]
theorem State.reset_shadow : State.reset.shadow = resetShadow := by simp only [State.reset]

/-- Settles O5: the stores of the reset state are filled from the tables, in which no two fields share a key. -/
theorem resetValues : Obligations.ResetValues := by
  intro f hf
  rw [State.rd, State.rdShadow, State.reset_live, State.reset_shadow]
  exact ⟨resetTbl_get hf, resetShadow_get hf⟩

end Sys2Proof.Machine
end

