-- ==== Sys2Proof/Proofs/RegisterAccesses.lean ====
section
/-! SUPPORT. A register write that reaches nothing, on which the statement about accesses fails. -/

namespace Sys2Proof.Machine

/-- A write to HIF.RA_CTRL that does not reach the part draws a free value for the instant that it does not carry. -/
theorem exec_registerWrite_unreached (s : State) (src : Requester) (h : s.reachable src = false) :
    exec (.registerWrite src 0xB0 .b64 0) s = .next s.drawn := by
  have hdrawn : s.drawn.reachable src = false := h
  change Host.Outcome.next (s.busWriteFree src 0xB0 .b64 0) = _
  rw [State.busWriteFree, if_pos (by decide), State.busWrite, if_pos hdrawn]

theorem State.drawn_ne (s : State) : s.drawn ≠ s := fun h => Nat.succ_ne_self _ (congrArg State.freeCtr h)

/-- Refutes O48: a register write to HIF.RA_CTRL carries no instant, so that the model draws a free value for it (notes/assumptions/8.md),
and does so before it finds that the write does not reach the part. Over PCI Express a tile is not reached (R32): in the reset state the
counter of free values goes from 0 to 1, where the statement keeps the whole state. -/
theorem not_registerAccesses : ¬ Obligations.RegisterAccesses := by
  intro h
  obtain ⟨hunreached, -⟩ := h
  have hrole : State.reset.role = 0 := by
    rw [State.role, State.rd, State.reset_live]
    exact resetTbl_get (mem_allFields.mpr ⟨0, by decide, by simp [pageFields, blockFields, fieldsHIF]⟩)
  have hreach : State.reset.reachable .pcie = false := by simp [State.reachable, hrole, pageActive]
  obtain ⟨hwrite, -⟩ := hunreached State.reset .pcie hreach 0xB0 0 .b64 0
  exact State.drawn_ne _ (Host.Outcome.next.inj ((exec_registerWrite_unreached _ _ hreach).symm.trans hwrite))

end Sys2Proof.Machine
end

