-- ==== Sys2Proof/Proofs/InvariantOps.lean ====
section
/-! SUPPORT. Every step keeps the invariant (R37): one lemma for each function of the model that answers a state, in the model's order,
proved from the lemmas of the functions it calls. Here: the operations on registers, tables, queues, notes and pages. -/

namespace Sys2Proof.Machine

variable {s : State}

/-- Every state that the outcome answers with has the invariant. -/
def OutInv (o : Host.Outcome State Fault Refusal) : Prop := ∀ t, o = .next t → t.Inv

theorem OutInv.next {t : State} (h : t.Inv) : OutInv (.next t) := by rintro _ ⟨⟩; exact h

theorem OutInv.ite {c : Prop} [Decidable c] {x y : Host.Outcome State Fault Refusal} (hx : OutInv x) (hy : OutInv y) :
    OutInv (if c then x else y) := by split; exacts [hx, hy]

theorem State.Inv.ite {c : Prop} [Decidable c] {x y : State} (hx : x.Inv) (hy : y.Inv) : (if c then x else y).Inv := by
  split; exacts [hx, hy]

theorem State.Inv.fst_ite {α : Type} {c : Prop} [Decidable c] {x y : State × α} (hx : x.1.Inv) (hy : y.1.Inv) :
    (if c then x else y).1.Inv := by split; exacts [hx, hy]

theorem State.Inv.foldl {α : Type} {l : List α} {g : State → α → State} (h : s.Inv)
    (hg : ∀ (s : State) a, s.Inv → (g s a).Inv) : (l.foldl g s).Inv := by
  induction l generalizing s with
  | nil => exact h
  | cons a l ih => exact ih (hg s a h)

theorem State.Inv.mk_fst {α : Type} {a : α} (h : s.Inv) : (s, a).1.Inv := h

theorem State.Inv.fst_foldl {α β : Type} {l : List β} {x : State × α} {g : State × α → β → State × α} (h : x.1.Inv)
    (hg : ∀ (y : State × α) b, y.1.Inv → (g y b).1.Inv) : (l.foldl g x).1.Inv := by
  induction l generalizing x with
  | nil => exact h
  | cons b l ih => exact ih (hg x b h)

/-- What the invariant speaks about. -/
def State.ruled (s : State) :=
  (s.live, s.shadow, s.latched, s.committed, s.snapd, s.win, s.winShadow, s.winLatched, s.winCommitted, s.mem, s.ports, s.sides, s.arb,
    s.comp.pend, s.imp.need, s.imp.refMask, s.imp.statSnap, s.wtu.links, s.wtu.ptp, s.xing, s.upd.slots, s.upd.keys, s.upd.revoked,
    s.nvs.setGens, s.nvs.tblGens, s.nvs.ageSlots, s.scan.banks, s.health.cur, s.ctl.tasks.run, s.tile.sigs, s.tile.results, s.rail.loops)

theorem State.Inv.of_same {t : State} (h : s.Inv) (e : t.ruled = s.ruled) : t.Inv := by
  simp only [State.ruled, Prod.mk.injEq] at e
  obtain ⟨e1, e2, e3, e4, e5, e6, e7, e8, e9, e10, e11, e12, e13, e14, e15, e16, e17, e18, e19, e20, e21, e22, e23, e24, e25, e26, e27, e28,
    e29, e30, e31, e32⟩ := e
  exact ⟨e1 ▸ h.live, e2 ▸ h.shadow, e3 ▸ h.latched, e4 ▸ h.committed, e5 ▸ h.snapd, e6 ▸ h.win, e7 ▸ h.winShadow, e8 ▸ h.winLatched,
    e9 ▸ h.winCommitted, e10 ▸ h.mem, e11 ▸ h.ports, e12 ▸ h.sides, e13 ▸ h.arb, e11 ▸ h.bufs, e14 ▸ h.pend, e15 ▸ h.need, e16 ▸ h.refMask,
    e18 ▸ h.links, e19 ▸ h.ptp, e20 ▸ h.xing, e17 ▸ h.statSnap, e21 ▸ h.slots, e22 ▸ e23 ▸ h.keys, e24 ▸ e25 ▸ h.gens, e13 ▸ h.heard,
    e27 ▸ h.banks, e28 ▸ h.lamps, e29 ▸ h.cores, e30 ▸ h.sigs, e31 ▸ h.results, e26 ▸ h.ageSlots, e32 ▸ h.loops⟩

theorem wf_copySet {fs : List Fld} {src dst : Tbl 64} (hd : dst.wf = true) : (copySet fs src dst).wf = true :=
  Tbl.wf_foldl_set fs Fld.key (fun f => src.get f.key) hd

theorem wf_copyWords {iv : List (Nat × Nat)} {src dst : Tbl 72} (hd : dst.wf = true) : (copyWords iv src dst).wf = true :=
  Tbl.wf_foldl_set _ Prod.fst Prod.snd (Tbl.wf_filter _ hd)

/-! ## Machine/Ops -/

/-! ### Registers -/

theorem State.Inv.wr {f v} (h : s.Inv) : (s.wr f v).Inv := by
  unfold State.wr
  exact { h with live := Tbl.wf_set _ _ h.live }

theorem State.Inv.bumpBy {f n} (h : s.Inv) : (s.bumpBy f n).Inv := by
  unfold State.bumpBy
  exact h.wr

theorem State.Inv.bump {f} (h : s.Inv) : (s.bump f).Inv := by
  unfold State.bump
  exact h.bumpBy

theorem State.Inv.when {c g} (h : s.Inv) (hg : ∀ (s : State), s.Inv → (g s ).Inv) : (s.when c g).Inv := by
  unfold State.when
  exact .ite (hg _ h) h

theorem State.Inv.each {α : Type} {l : List α} {g : State → α → State} (h : s.Inv) (hg : ∀ (s : State) a, s.Inv → (g s a).Inv) :
    (s.each l g).Inv := by
  unfold State.each
  exact h.foldl hg

theorem State.Inv.wrShadow {f v} (h : s.Inv) : (s.wrShadow f v).Inv := by
  unfold State.wrShadow
  exact .wr { h with shadow := Tbl.wf_set _ _ h.shadow }

theorem State.Inv.wrAll {f v} (h : s.Inv) : (s.wrAll f v).Inv := by
  unfold State.wrAll
  extract_lets x s1
  have hs1 : s1.Inv := h.wr
  refine .ite ?_ ?_
  · exact { hs1 with shadow := Tbl.wf_set _ _ hs1.shadow, latched := Tbl.wf_set _ _ hs1.latched, committed := Tbl.wf_set _ _ hs1.committed }
  · exact hs1

/-! ### Roles, time, outputs -/

theorem State.Inv.send {e} (h : s.Inv) : (s.send e).Inv := by
  unfold State.send
  exact { h with }

theorem State.Inv.setSide {sd x} (h : s.Inv) : (s.setSide sd x).Inv := by
  unfold State.setSide
  exact { h with sides := List.length_set.trans h.sides }

/-! ### Lanes and the lane-control word (Tables 06-2, 06-3) -/

theorem State.Inv.setLane {sd l v} (h : s.Inv) : (s.setLane sd l v).Inv := by
  unfold State.setLane
  exact h.wr

/-! ### Line coding (R114, R115, R129, R130) -/

theorem State.Inv.pump {sd} (h : s.Inv) : (s.pump sd).Inv := by
  unfold State.pump
  exact { h with sides := List.length_set.trans (List.length_set.trans h.sides) }

theorem State.Inv.sendFolios {sd fs} (h : s.Inv) : (s.sendFolios sd fs).Inv := by
  unfold State.sendFolios
  exact h.setSide.pump

theorem State.Inv.sendFolio {sd f} (h : s.Inv) : (s.sendFolio sd f).Inv := by
  unfold State.sendFolio
  exact h.sendFolios

theorem State.Inv.drawn (h : s.Inv) : s.drawn.Inv := by
  unfold State.drawn
  exact { h with }

theorem State.Inv.wrFree {f} (h : s.Inv) : (s.wrFree f).Inv := by
  unfold State.wrFree
  exact h.wr.drawn

/-! ### Table windows and frame memory -/

theorem State.Inv.setWord {i v} (h : s.Inv) : (s.setWord i v).Inv := by
  unfold State.setWord
  exact { h with win := Tbl.wf_set _ _ h.win }

theorem State.Inv.setPix {a v} (h : s.Inv) : (s.setPix a v).Inv := by
  unfold State.setPix
  exact h.setWord

theorem State.Inv.storeBytes {a b} (h : s.Inv) : (s.storeBytes a b).Inv := by
  unfold State.storeBytes
  exact { h with mem := Tbl.wf_setMany _ _ h.mem }

/-! ### Records to the ring and the partner sender (R276) -/

theorem State.Inv.sendEther {typ ring ws} (h : s.Inv) : (s.sendEther typ ring ws).Inv := by
  unfold State.sendEther
  exact .ite h.send h

theorem State.Inv.sendSide {sd typ ws} (h : s.Inv) : (s.sendSide sd typ ws).Inv := by
  unfold State.sendSide
  exact .ite h.sendFolio h

theorem State.Inv.sendSides {typ ws} (h : s.Inv) : (s.sendSides typ ws).Inv := by
  unfold State.sendSides
  exact h.sendSide.sendSide

theorem State.Inv.arb_map {f : ArbSide → ArbSide} (h : s.Inv) (hf : ∀ x, (f x).heard.length = x.heard.length) :
    State.Inv { s with arb := s.arb.map f } :=
  { h with
    arb := (List.length_map _).trans h.arb
    heard := fun _ hx => by obtain ⟨y, hy, rfl⟩ := List.mem_map.1 hx; exact (hf y).trans (h.heard y hy) }

theorem State.Inv.missRecord (h : s.Inv) : s.missRecord.Inv := h.arb_map fun _ => rfl

theorem State.Inv.selfRecord (h : s.Inv) : s.selfRecord.Inv := h.missRecord.arb_map fun _ => rfl

theorem State.Inv.noteCollation (h : s.Inv) : s.noteCollation.Inv := h.arb_map fun _ => rfl

/-! ### Management messages (R144, R146, R258) -/

theorem State.Inv.sendMg {sd dst src id ws} (h : s.Inv) : (s.sendMg sd dst src id ws).Inv := by
  unfold State.sendMg
  exact .ite h (.ite h.sendFolios (.ite h.sendFolios h.sendFolios))

theorem State.Inv.sendMessageOn {sd dst src id words} (h : s.Inv) : (s.sendMessageOn sd dst src id words).Inv := by
  unfold State.sendMessageOn
  exact h.send.sendMg

theorem State.Inv.sendMessage {dst src id words} (h : s.Inv) : (s.sendMessage dst src id words).1.Inv := by
  unfold State.sendMessage
  split
  · exact .mk_fst h.sendMessageOn
  · exact .fst_ite (.mk_fst h.bump.sendEther) (.mk_fst h)

/-! ### Queues (R259 to R261) -/

theorem State.Inv.qStore {v i e} (h : s.Inv) : (s.qStore v i e).Inv := by
  unfold State.qStore
  exact .ite h.storeBytes h.setWord

theorem State.Inv.qSetHead {q hd} (h : s.Inv) : (s.qSetHead q hd).Inv := by
  unfold State.qSetHead
  exact h.setWord

theorem State.Inv.qSetTail {q t} (h : s.Inv) : (s.qSetTail q t).Inv := by
  unfold State.qSetTail
  exact .ite h.setWord.setWord h.setWord

theorem State.Inv.qSetDrop {q n} (h : s.Inv) : (s.qSetDrop q n).Inv := by
  unfold State.qSetDrop
  exact h.setWord

theorem State.Inv.qPush {q es} (h : s.Inv) : (s.qPush q es).Inv := by
  unfold State.qPush
  exact .qSetTail (h.foldl (fun _ _ h => h.qStore))

/-! ## Machine/Bundle -/

theorem State.Inv.slotTbl_wf (h : s.Inv) (k : Nat) : (s.slotTbl k).wf = true := by
  unfold State.slotTbl
  by_cases hk : k < s.upd.slots.length
  · rw [List.getD_eq_getElem _ _ hk]
    exact h.slots.2 _ (List.getElem_mem hk)
  · rw [List.getD_eq_default _ _ (Nat.le_of_not_lt hk)]
    rfl

theorem State.Inv.writeSlot {k i ws} (h : s.Inv) : (s.writeSlot k i ws).Inv :=
  { h with slots := ⟨List.length_set.trans h.slots.1, fun _ ht =>
      (List.mem_or_eq_of_mem_set ht).elim (h.slots.2 _) fun e => e ▸ Tbl.wf_foldl_set _ _ _ (h.slotTbl_wf k)⟩ }

/-! ## Machine/Flags -/

theorem State.Inv.msixSend {pg} (h : s.Inv) : (s.msixSend pg).Inv := by
  unfold State.msixSend
  exact .ite (.ite h.send { h with }) h

/-! ### Recorder rings -/

theorem State.Inv.recPut {v} (h : s.Inv) : (s.recPut v).Inv := by
  unfold State.recPut
  refine .ite ?_ h
  extract_lets +onlyGivenNames p s1 q s2
  have hs2 : s2.Inv := .when (.wr (.ite h.storeBytes h.setPix)) (fun _ h => h.wr)
  exact { hs2 with }

theorem State.Inv.recWriteAt {n typ w0 ws} (h : s.Inv) : (s.recWriteAt n typ w0 ws).Inv := by
  unfold State.recWriteAt
  exact h.recPut.each (fun _ _ h => h.recPut)

theorem State.Inv.recWrite {typ w0 ws} (h : s.Inv) : (s.recWrite typ w0 ws).Inv := by
  unfold State.recWrite
  exact h.recWriteAt

/-! ### Raising, posting, triggering -/

theorem State.Inv.evtDeliver {code extra} (h : s.Inv) : (s.evtDeliver code extra).1.Inv := by
  unfold State.evtDeliver
  extract_lets +onlyGivenNames ws s1 wv
  have hs1 : s1.Inv := { h with }
  refine .fst_ite (.mk_fst hs1.send.sendMg.sendMg) ?_
  refine .fst_ite ?_ (.mk_fst hs1)
  refine .fst_ite ?_ ?_
  · exact .mk_fst hs1.send.qPush
  · exact .fst_ite (.mk_fst (.bump (.qSetDrop { hs1 with }))) (.mk_fst hs1.send)

theorem State.Inv.recTrigger {code host} (h : s.Inv) : (s.recTrigger code host).1.Inv := by
  unfold State.recTrigger
  refine .fst_ite (.mk_fst h.bump) ?_
  refine .fst_ite ?_ (.mk_fst h)
  extract_lets +onlyGivenNames s1 s2 s3 cap s4
  have hs4 : s4.Inv := h.recWrite.recWrite.wr.wr.when (fun _ h => h.wr.wr)
  exact .mk_fst { hs4 with }

theorem State.Inv.note {n x} (h : s.Inv) : (note n s x).Inv := by
  induction n generalizing s x with
  | zero => cases x with
    | intr => exact h.wr
    | event => exact h
    | trigger => exact h
  | succ n ih => cases x with
    | intr pg b => exact .ite h (.ite (ih h.wr.msixSend) h.wr)
    | event code extra =>
      unfold Machine.note
      extract_lets s1 s2 r
      have hs1 : s1.Inv := .ite h h.recWrite
      have hr : r.1.Inv := State.Inv.evtDeliver (.ite (ih hs1) hs1)
      split
      · exact ih hr
      · exact hr
    | trigger => exact .ite (ih h.recTrigger) h.recTrigger

theorem State.Inv.raise {pg b} (h : s.Inv) : (s.raise pg b).Inv := by
  unfold State.raise
  exact h.note

theorem State.Inv.post {code extra} (h : s.Inv) : (s.post code extra).Inv := by
  unfold State.post
  exact h.note

theorem State.Inv.trigger {code host} (h : s.Inv) : (s.trigger code host).Inv := by
  unfold State.trigger
  exact h.note

theorem State.Inv.traceStop (h : s.Inv) : s.traceStop.Inv := by
  unfold State.traceStop
  exact .ite h h.wr.wr.raise

/-! ### Error capture (R40) -/

theorem State.Inv.capture {pg code src off val} (h : s.Inv) : (s.capture pg code src off val).Inv := by
  unfold State.capture
  refine .ite ?_ ?_
  · exact h.wr
  · exact .when (h.wr.wr.wr.wr.wr.wr.wr.raise.when (fun _ h => h.traceStop)) (fun _ h => h.trigger)

theorem State.Inv.captureInt {pg code val} (h : s.Inv) : (s.captureInt pg code val).Inv := by
  unfold State.captureInt
  exact h.capture

/-! ### Mailbox responses (R266) -/

theorem State.Inv.respond {r cmd status body} (h : s.Inv) : (s.respond r cmd status body).Inv := by
  unfold State.respond
  refine .ite (.ite h.send.qPush.raise h.send.qPush) ?_
  split
  · exact .ite h.send h.send.sendMg
  · exact h.send

/-! ## Machine/Operands -/

/-! ### Writes -/

theorem State.Inv.markDirty {area} (h : s.Inv) : (s.markDirty area).Inv := by
  unfold State.markDirty
  exact h.wr

theorem State.Inv.wrM {f v} (h : s.Inv) : (s.wrM f v).Inv := by
  unfold State.wrM
  exact h.wr.when (fun _ h => h.markDirty)

theorem State.Inv.bumpM {f} (h : s.Inv) : (s.bumpM f).Inv := by
  unfold State.bumpM
  exact h.bump.markDirty

/-! ### The MRAM writer (R301, R302) -/

theorem State.Inv.startOp {op} (h : s.Inv) : (s.startOp op).Inv := by
  unfold State.startOp
  extract_lets +onlyGivenNames _ s1
  have hs1 : s1.Inv := .wr { h with }
  exact .ite hs1.wr (.wr { hs1 with ageSlots := List.length_set.trans hs1.ageSlots })

theorem State.Inv.queueOp {op} (h : s.Inv) : (s.queueOp op).Inv := by
  unfold State.queueOp
  refine .ite h ?_
  split
  · exact .startOp { h with }
  · exact .ite h { h with }

theorem State.Inv.popOp (h : s.Inv) : s.popOp.Inv := by
  unfold State.popOp
  split
  · exact .startOp { h with }
  · exact .wr { h with }

theorem State.Inv.writeFld {f v} (h : s.Inv) : (s.writeFld f v).1.Inv := by
  unfold State.writeFld
  refine .fst_ite (.mk_fst h) ?_
  split
  · exact .mk_fst h
  · exact .mk_fst h
  · exact .mk_fst h
  · exact .fst_ite (.mk_fst h.wr) (.fst_ite (.mk_fst h.wr) (.mk_fst h))
  · exact .mk_fst h.wrShadow
  · exact .fst_ite (.mk_fst h) (.mk_fst (.ite h.wr.markDirty h.wr))
  · exact .fst_ite (.mk_fst h) (.mk_fst (.ite h.wr.markDirty h.wr))

theorem State.Inv.captureAll {pg src off es} (h : s.Inv) : (s.captureAll pg src off es).Inv := by
  unfold State.captureAll
  exact h.each (fun _ _ h => h.each (fun _ _ h => h.capture))

theorem State.Inv.writeFields {src pg off v half more} (h : s.Inv) : (s.writeFields src pg off v half more).Inv := by
  unfold State.writeFields
  refine .captureAll ?_
  refine .fst_foldl ?_ (fun _ _ h => .mk_fst h.writeFld)
  exact .mk_fst h

/-! ### Commits (R19, R20, R41, R42) -/

theorem State.Inv.acceptCommit {pg n} (h : s.Inv) : (s.acceptCommit pg n).Inv := by
  unfold State.acceptCommit
  extract_lets s1
  have hs1 : s1.Inv := h.wr
  exact { hs1 with committed := wf_copySet hs1.committed, winCommitted := wf_copyWords hs1.winCommitted }

theorem State.Inv.doCommit {pg} (h : s.Inv) : (s.doCommit pg).Inv := by
  unfold State.doCommit
  exact .ite h.acceptCommit h

theorem State.Inv.doDiscard {pg} (h : s.Inv) : (s.doDiscard pg).Inv := by
  unfold State.doDiscard
  refine .ite ?_ h
  refine .wr ?_
  refine .ite ?_ ?_
  · exact { h with shadow := wf_copySet h.shadow, winShadow := wf_copyWords h.winShadow }
  · exact { h with shadow := wf_copySet h.shadow, winShadow := wf_copyWords h.winShadow }

theorem State.Inv.latchPage {pg n} (h : s.Inv) : (s.latchPage pg n).Inv := by
  unfold State.latchPage
  exact .ite (.wr { h with latched := wf_copySet h.latched, winLatched := wf_copyWords h.winLatched }) h

theorem State.Inv.applyPage {pg} (h : s.Inv) : (s.applyPage pg).Inv := by
  unfold State.applyPage
  refine .ite ?_ ?_
  · exact .raise (.when { h with live := wf_copySet h.live, win := wf_copyWords h.win } (fun _ h => h.markDirty))
  · exact h

/-! ### Snapshots (R44) -/

theorem State.Inv.snapStart {pg} (h : s.Inv) : (s.snapStart pg).Inv := by
  unfold State.snapStart
  extract_lets +onlyGivenNames s1
  have hs1 : s1.Inv := h.wr
  exact { hs1 with }

theorem State.Inv.snapFinish {pg} (h : s.Inv) : (s.snapFinish pg).Inv := by
  unfold State.snapFinish
  refine .ite (.raise (.wr (.wr ?_))) h
  by_cases hp : pg = 0x17
  · simp only [hp, ↓reduceIte]
    exact { h with snapd := wf_copySet h.snapd, statSnap := wf_copyWords h.statSnap }
  · simp only [hp, ↓reduceIte]
    exact { h with snapd := wf_copySet h.snapd }

end Sys2Proof.Machine
end

