-- ==== Sys2Proof/Proofs/InvariantSender.lean ====
section
/-! SUPPORT. The invariant is kept by intake, composition and imposition. -/

namespace Sys2Proof.Machine

variable {s : State}

/-! ## Machine/Intake -/

/-! ### Shared operations -/

theorem State.Inv.port_bufs (h : s.Inv) (p : Nat) : (s.port p).bufs.length = 4 := by
  unfold State.port
  by_cases hp : p < s.ports.length
  · rw [List.getD_eq_getElem _ _ hp]
    exact h.bufs _ (List.getElem_mem hp)
  · rw [List.getD_eq_default _ _ (Nat.le_of_not_lt hp)]
    rfl

theorem State.Inv.setPort {p} {x : Port} (h : s.Inv) (hx : x.bufs.length = 4) : (s.setPort p x).Inv :=
  { h with ports := by simp [State.setPort, h.ports], bufs := fun y hy => (List.mem_or_eq_of_mem_set hy).elim (h.bufs y) fun e => e ▸ hx }

theorem State.Inv.ingHold {p} (h : s.Inv) : (s.ingHold p).Inv := by
  unfold State.ingHold
  exact .ite (.raise (.wr (h.setPort (h.port_bufs _)))) h

theorem State.Inv.ingLink {p up} (h : s.Inv) : (s.ingLink p up).Inv := by
  unfold State.ingLink
  exact .ite h h.wr.raise

theorem State.Inv.linkPixels {p k upto} (h : s.Inv) : (s.linkPixels p k upto).Inv := by
  unfold State.linkPixels
  refine .ite ?_ h
  extract_lets n src
  have hsrc : src.Inv := .storeBytes (h.setPort (List.length_set.trans (h.port_bufs _)))
  exact { hsrc with }

theorem State.Inv.linkMore {p} (h : s.Inv) : (s.linkMore p).Inv := by
  unfold State.linkMore
  split
  · exact h.drawn.linkPixels
  · exact h

theorem State.Inv.ingIncomplete {p} (h : s.Inv) : (s.ingIncomplete p).Inv := by
  unfold State.ingIncomplete
  extract_lets x
  split
  · exact h
  · exact .raise (.bump (h.setPort (List.length_set.trans (h.port_bufs _))))

theorem State.Inv.ingJoin {p} (h : s.Inv) : (s.ingJoin p).Inv := by
  unfold State.ingJoin
  exact .ite (.send (h.setPort (h.port_bufs _))) h

theorem bufs_length_ite {c : Prop} [Decidable c] {x y : Port} {n : Nat} (hx : x.bufs.length = n) (hy : y.bufs.length = n) :
    (if c then x else y).bufs.length = n := by split; exacts [hx, hy]

theorem State.Inv.ingModeChanged {p old} (h : s.Inv) : (s.ingModeChanged p old).Inv := by
  unfold State.ingModeChanged
  refine .ite h ?_
  extract_lets s1 x newest freed y z s2 s3
  have hfreed : freed.length = 4 := (List.length_map _).trans (List.length_zipIdx.trans (h.ingIncomplete.port_bufs p))
  have hz : z.bufs.length = 4 := bufs_length_ite hfreed hfreed
  have hs2 : s2.Inv := .ingLink (.setPort h.ingIncomplete hz)
  have hs3 : s3.Inv := .ite (.send (.setPort hs2 hz)) hs2
  exact .ite hs3.ingJoin hs3

/-! ### Picks (R65, R68, R69) -/

/-- A pick's buffer of a port, noted as held for frame `n`. -/
def holdBuf (n : Nat) (x : Port) (k : Option Nat) : Port :=
  match k with
  | some i => x.setBuf i { x.buf i with heldFor := n :: (x.buf i).heldFor.filter (· != n) }
  | none => x

theorem holdBuf_length (n : Nat) (x : Port) (k : Option Nat) : (holdBuf n x k).bufs.length = x.bufs.length := by
  cases k with
  | some i => exact List.length_set
  | none => rfl

theorem State.Inv.ingTake {p n d sl follow} (h : s.Inv) : (s.ingTake p n d sl follow).Inv := by
  unfold State.ingTake
  extract_lets x hold y wasHeld s1 s2
  have hy : y.bufs.length = 4 := (holdBuf_length n _ _).trans ((holdBuf_length n _ _).trans (h.port_bufs p))
  have hs2 : s2.Inv := .when (.wr (.wr (.wr (.wr (.setPort h hy))))) fun _ h => h.raise
  split
  · exact hs2.recWrite
  · exact hs2

theorem State.Inv.ingPick {p n} (h : s.Inv) : (s.ingPick p n).Inv := by
  unfold State.ingPick
  exact h.ingTake

theorem State.Inv.sendPickLog {n} (h : s.Inv) : (s.sendPickLog n).Inv := by
  unfold State.sendPickLog
  exact .recWrite (.sendEther (.sendSides { h with }))

theorem State.Inv.ingLatch {n} (h : s.Inv) : (s.ingLatch n).Inv := by
  unfold State.ingLatch
  exact .ite { h with } (.when (h.each (fun _ _ h => h.ingPick)) (fun _ h => h.sendPickLog))

theorem State.Inv.followPort {n ws p} (h : s.Inv) : (s.followPort n ws p).Inv := by
  unfold State.followPort
  exact h.ingTake.when (fun _ h => h.bump.raise.missRecord)

theorem State.Inv.ingRelease {n} (h : s.Inv) : (s.ingRelease n).Inv :=
  .each h fun s p h => .setPort h <| by
    rw [List.length_map, List.length_zip, List.length_map, Nat.min_self]
    exact h.port_bufs p

/-! ### Commands -/

theorem State.Inv.execDpLinkTraining {p rate lanes} (h : s.Inv) : OutInv (execDpLinkTraining p rate lanes s) := by
  unfold Machine.execDpLinkTraining
  exact .ite (.next (.ingLink (h.setPort (h.port_bufs _)))) (.next h)

theorem State.Inv.execAuxTransaction {p a} (h : s.Inv) : OutInv (execAuxTransaction p a s) := by
  unfold Machine.execAuxTransaction
  refine .ite ?_ (.next h)
  split
  · exact .next h.bump.send
  · exact .next h.send.drawn
  · exact .next h.send

theorem State.Inv.execSt2110Packet {p k} (h : s.Inv) : OutInv (execSt2110Packet p k s) := by
  unfold Machine.execSt2110Packet
  refine .ite ?_ (.next h)
  refine .ite ?_ (.next h.bump)
  extract_lets q x
  split
  · exact .ite (.next (h.setPort (h.port_bufs _))) (.ite (.next h.storeBytes) (.next h))
  · exact .next h

theorem State.Inv.execIgmpQuery {p} (h : s.Inv) : OutInv (execIgmpQuery p s) := by
  unfold Machine.execIgmpQuery
  exact .ite (.next h.send) (.next h)

theorem State.Inv.execArpRequest {p ip} (h : s.Inv) : OutInv (execArpRequest p ip s) := by
  unfold Machine.execArpRequest
  exact .ite (.next h.send) (.next h)

theorem State.Inv.execSourceFrameStart {p seen} (h : s.Inv) : OutInv (execSourceFrameStart p seen s) := by
  unfold Machine.execSourceFrameStart
  refine .ite (.next h) ?_
  extract_lets +onlyGivenNames f s1 x starts rate s2 x2 why
  have hs2 : s2.Inv := .wr (.wr (.wr (.wr (h.ingIncomplete.setPort (h.ingIncomplete.port_bufs _)))))
  refine .ite (.next (.ingHold (.when (.wr (.bump (hs2.setPort (hs2.port_bufs _)))) (fun _ h => h.raise)))) ?_
  extract_lets +onlyGivenNames s3
  split
  · exact .next (hs2.wr.setPort (List.length_set.trans (hs2.port_bufs _)))
  · exact .next (.raise (.bump (hs2.wr.setPort (hs2.port_bufs _))))

theorem State.Inv.execSourceFrameComplete {p t} (h : s.Inv) : OutInv (execSourceFrameComplete p t s) := by
  unfold Machine.execSourceFrameComplete
  extract_lets x
  split
  · exact .ite (.next h) (.next (h.linkPixels.setPort (List.length_set.trans (h.linkPixels.port_bufs _))))
  · exact .next h

theorem State.Inv.execPathLate {p upper skewUs packets} (h : s.Inv) : OutInv (execPathLate p upper skewUs packets s) := by
  unfold Machine.execPathLate
  exact .ite (.next h.bumpBy.raise) (.next h)

theorem State.Inv.execLossOfSignal {p} (h : s.Inv) : OutInv (execLossOfSignal p s) := by
  unfold Machine.execLossOfSignal
  exact .ite (.next h) (.next (.ingHold (h.when (fun _ h => h.wr.raise))))

theorem State.Inv.execIngBlockLockChange {p locked} (h : s.Inv) : OutInv (execIngBlockLockChange p locked s) := by
  unfold Machine.execIngBlockLockChange
  exact .ite (.next h.ingLink) (.next h)

theorem State.Inv.execPickLogReceive {via words} (h : s.Inv) : OutInv (execPickLogReceive via words s) := by
  unfold Machine.execPickLogReceive
  refine .ite ?_ (.next h)
  extract_lets s1
  have hs1 : s1.Inv := h.each (fun _ _ h => .ite h.followPort h.ingTake)
  exact .next (.recWrite { hs1 with })

theorem State.Inv.execPickSelf (h : s.Inv) : OutInv (execPickSelf s) := by
  unfold Machine.execPickSelf
  refine .ite ?_ (.next h)
  refine .next ?_
  extract_lets src
  have hsrc : src.Inv := h.selfRecord.each (fun _ _ h => h.ingPick.bump.raise)
  exact { hsrc with }

/-! ## Machine/Compose -/

/-! ### Buffer table (Table 04-3) -/

theorem State.Inv.setBufState {hd st retire} (h : s.Inv) : (s.setBufState hd st retire).Inv := by
  unfold State.setBufState
  exact h.setWord

/-! ### Scaling (R90 to R92) -/

theorem State.Inv.pass1Write {r} (h : s.Inv) : (s.pass1Write r).Inv := by
  unfold State.pass1Write
  split
  · extract_lets +onlyGivenNames hd s1
    have hs1 : s1.Inv := h.each (fun _ _ h => h.storeBytes)
    exact { hs1 with }
  · exact h

/-! ### Order and blending (R75, R81, R82) -/

theorem State.Inv.startFrame (h : s.Inv) : s.startFrame.Inv := by
  unfold State.startFrame
  exact { h with }

/-! ### Flip evaluation (R83, R84, Table 04-6) -/

theorem State.Inv.flipLayer {n l d} (h : s.Inv) : (s.flipLayer n l d).Inv := by
  unfold State.flipLayer
  exact { h with win := Tbl.wf_setMany _ _ h.win }

theorem State.Inv.pinBuffers {n} (h : s.Inv) : (s.pinBuffers n).Inv := by
  unfold State.pinBuffers
  exact h.each (fun _ _ h => h.setBufState)

theorem State.Inv.applyFlips {n} {ps : List LayerPend} {refs f} (h : s.Inv) (hp : ∀ p ∈ ps, p.layer < 64 ∧ p.desc.length = 16) :
    (s.applyFlips n ps refs f).Inv := by
  unfold State.applyFlips
  extract_lets _ s0 s1 rest _ s2 s3 s4 s5 s6
  have hs0 : s0.Inv := { h with }
  have hs1 : s1.Inv := .each hs0 fun _ _ h => .ite h.flipLayer h
  have hrest : ∀ p ∈ rest, p.layer < 64 ∧ p.desc.length = 16 := by
    intro p hm
    obtain ⟨q, hq, he⟩ := List.mem_filterMap.1 hm
    split at he
    · cases he
    · obtain rfl := Option.some.inj he
      exact hp q hq
  have hs2 : s2.Inv := { hs1 with pend := hrest }
  exact .pinBuffers (.when (.when (.when hs2.wr.wr fun _ h => h.raise) fun _ h => h.bumpBy.raise) fun _ h => h.bumpBy.raise)

theorem State.Inv.layerPending (h : s.Inv) (newCommit : Bool) :
    ∀ p ∈ s.layerPending newCommit, p.layer < 64 ∧ p.desc.length = 16 := by
  intro p hm
  unfold State.layerPending at hm
  split at hm
  · obtain ⟨l, hl, he⟩ := List.mem_filterMap.1 hm
    have hlen : (s.layerLatched l).length = 16 := by simp [State.layerLatched, Tbl.slice]
    have hl64 : l < 64 := List.mem_range.1 hl
    dsimp only at he
    split_ifs at he
    split at he
    next q hq =>
      obtain rfl := Option.some.inj he
      split
      · exact h.pend q (List.mem_of_find?_eq_some hq)
      · exact ⟨hl64, hlen⟩
    next =>
      obtain rfl := Option.some.inj he
      exact ⟨hl64, hlen⟩
  · exact h.pend p hm

theorem State.Inv.cmpLatch {n newCommit} (h : s.Inv) : (s.cmpLatch n newCommit).Inv := by
  unfold State.cmpLatch
  extract_lets +onlyGivenNames ps refs f log
  refine .ite { h with pend := h.layerPending newCommit } ?_
  extract_lets s1
  have hs1 : s1.Inv := .applyFlips h (h.layerPending newCommit)
  exact .ite (.recWrite (.sendEther (.sendSides { hs1 with }))) hs1

/-! ### Ticks: retirement (R86, R87) and overlap (R75) -/

theorem State.Inv.retireBuffers {n} (h : s.Inv) : (s.retireBuffers n).Inv := by
  unfold State.retireBuffers
  exact h.each (fun _ _ h => .ite h.setBufState.setWord.raise.post h.setBufState)

theorem State.Inv.countOverlap (h : s.Inv) : s.countOverlap.Inv := by
  unfold State.countOverlap
  exact .ite h.bump.raise h

/-! ### Scaler load (R89) -/

theorem State.Inv.scalerLoad (h : s.Inv) : s.scalerLoad.Inv := by
  unfold State.scalerLoad
  exact h.each (fun _ _ h => h.wr.wr)

theorem State.Inv.scalerCapacity (h : s.Inv) : s.scalerCapacity.Inv := by
  unfold State.scalerCapacity
  exact .ite h.bump.raise h

theorem State.Inv.pass1Done {late} (h : s.Inv) : (s.pass1Done late).Inv := by
  unfold State.pass1Done
  extract_lets two s1
  have hs1 : s1.Inv := h.each (fun _ _ h => .ite h h.pass1Write)
  exact .ite hs1.bump.raise hs1

/-! ### Snapshot fields of LAYER_STAT -/

theorem State.Inv.layerStat (h : s.Inv) : s.layerStat.Inv := by
  unfold State.layerStat
  exact h.wr.wr.wr.wr

/-! ### The pin guard (R88) -/

theorem State.Inv.execBar4Write {addr data} (h : s.Inv) : OutInv (execBar4Write addr data s) := by
  unfold Machine.execBar4Write
  refine .ite (.next h) ?_
  refine .ite (.next h.capture.drawn.raise) ?_
  split
  · exact .next (.raise (.capture (.wr (.wr (.wr (.wr (.ite h.bump.setWord h.bump)))))))
  · exact .next h.storeBytes

/-! ### Release (R87) -/

theorem State.Inv.releaseBuffer {src hd} (h : s.Inv) : (s.releaseBuffer src hd).Inv := by
  unfold State.releaseBuffer
  exact .ite h.capture (.ite h.setBufState.setWord h.setBufState.bump)

/-! ### Commands -/

theorem State.Inv.execFenceTimeout {l} (h : s.Inv) : OutInv (execFenceTimeout l s) := by
  unfold Machine.execFenceTimeout
  exact .ite (.next (.raise (.bump (.wr { h with pend := fun p hp => h.pend p (List.mem_of_mem_filter hp) })))) (.next h)

theorem State.Inv.execFlipLogReceive {via words} (h : s.Inv) : OutInv (execFlipLogReceive via words s) := by
  unfold Machine.execFlipLogReceive
  extract_lets +onlyGivenNames ws n
  split
  · exact .ite (.next (.recWrite (.when (h.applyFlips h.pend) (fun _ h => h.bump.raise)))) (.next h)
  · exact .next h

theorem State.Inv.execFlipSelf (h : s.Inv) : OutInv (execFlipSelf s) := by
  unfold Machine.execFlipSelf
  split
  · exact .next (.selfRecord (.raise (.bump (h.applyFlips h.pend))))
  · exact .next h

/-! ## Machine/Impose -/

/-! ### Tile slots (Table 05-2) -/

theorem State.Inv.storePrep {b sd t r} (h : s.Inv) : (s.storePrep b sd t r).Inv := by
  unfold State.storePrep
  exact h.setWord.setWord.setWord.setWord.each (fun _ _ h => h.setWord)

/-! ### Damage (R105) -/

theorem State.Inv.formDamage (h : s.Inv) : s.formDamage.Inv := by
  unfold State.formDamage
  exact .when (.wr (.wr { h with })) (fun _ h => h.raise)

/-! ### Refresh record (R107) -/

theorem State.Inv.takeNeed {sd mask} (h : s.Inv) : (s.takeNeed sd mask).Inv := by
  unfold State.takeNeed
  exact { h with need := List.length_set.trans h.need, refMask := List.length_set.trans h.refMask }

theorem State.Inv.impCommit (h : s.Inv) : s.impCommit.Inv := by
  unfold State.impCommit
  refine .ite h ?_
  extract_lets +onlyGivenNames nb ok s1
  have hs1 : s1.Inv := .ite (.raise (.bump { h with latched := Tbl.wf_set _ _ h.latched })) h
  exact { hs1 with }

theorem State.Inv.impLatch {n} (h : s.Inv) : (s.impLatch n).Inv := by
  unfold State.impLatch
  extract_lets _ s2 s3
  have hs3 : s3.Inv := by
    refine .each ?_ (fun _ _ h => ?_)
    · exact { h with refMask := rfl }
    · refine .ite ?_ h
      extract_lets +onlyGivenNames mask s1
      have hs1 : s1.Inv := h.takeNeed
      exact .ite (.recWrite (.sendEther (.sendSide { hs1 with }))) hs1
  exact .ite hs3.formDamage hs3

theorem State.Inv.impTick {n} (h : s.Inv) : (s.impTick n).Inv := by
  unfold State.impTick
  extract_lets +onlyGivenNames s0 s1 pairs s2
  have hs1 : s1.Inv := by
    refine .each ?_ (fun _ _ h => h.wr.wr.wr)
    exact .ite h h.formDamage
  have hs2 : s2.Inv := .ite hs1 hs1.recWrite
  exact { hs2 with }

theorem State.Inv.footPx (h : s.Inv) : s.footPx.Inv := by
  unfold State.footPx
  exact h.wr

/-! ### Signatures (R104, R109 to R113, R137 to R139) -/

theorem State.Inv.omitLeaves {sd t k} (h : s.Inv) : (s.omitLeaves sd t k).Inv := by
  unfold State.omitLeaves
  refine .ite h ?_
  extract_lets key w s1 _ s2
  have hs1 : s1.Inv := h.setWord.bumpBy
  have hs2 : s2.Inv := { hs1 with }
  exact .ite hs2 hs2.bump.raise

theorem State.Inv.noteLoad {sd n t slack full} (h : s.Inv) : (s.noteLoad sd n t slack full).Inv := by
  unfold State.noteLoad
  exact { h with }

theorem State.Inv.noteFull {sd t} (h : s.Inv) : (s.noteFull sd t).Inv := by
  unfold State.noteFull
  exact h.setWord

theorem State.Inv.sendSig {sd t hdr fs close} (h : s.Inv) : (s.sendSig sd t hdr fs close).Inv := by
  unfold State.sendSig
  exact h.sendFolios

theorem State.Inv.sideSent {sd t k crc omitted} (h : s.Inv) : (s.sideSent sd t k crc omitted).Inv := by
  unfold State.sideSent
  exact .omitLeaves (.when { h with } (fun _ h => h.noteFull))

theorem State.Inv.pieceSent {sd t n e omitted full} (h : s.Inv) : (s.pieceSent sd t n e omitted full).Inv := by
  unfold State.pieceSent
  extract_lets +onlyGivenNames s1
  have hs1 : s1.Inv := h.noteLoad.when (fun _ h => h.drawn)
  exact { hs1 with }

theorem State.Inv.execSignatureSend {sd node feed t} (h : s.Inv) : OutInv (execSignatureSend sd node feed t s) := by
  unfold Machine.execSignatureSend
  refine .ite ?_ (.next h)
  extract_lets r b sent words crc left fs s1 s2 _ s3
  have hs2 : s2.Inv := h.sendSig.pieceSent
  exact .next (.sideSent { hs2 with })

/-! ### Slice mode (R111) -/

theorem State.Inv.sendBand {sd tl k row t} (h : s.Inv) : (s.sendBand sd tl k row t).Inv := by
  unfold State.sendBand
  extract_lets +onlyGivenNames r lw band x b hdr room sent words all nb close crc left fs s1 s2
  have hs2 : s2.Inv := h.sendSig.pieceSent
  exact .ite hs2.sideSent { hs2 with }

theorem State.Inv.sendReady {sd tl k t n} (h : s.Inv) : (s.sendReady sd tl k t n).Inv := by
  induction n generalizing s with
  | zero => exact h
  | succ n ih =>
    unfold State.sendReady
    split
    · exact .ite (ih h.sendBand) h
    · exact h

theorem State.Inv.execBandReady {sd node feed row t} (h : s.Inv) : OutInv (execBandReady sd node feed row t s) := by
  unfold Machine.execBandReady
  extract_lets +onlyGivenNames tl k me s0
  have hs0 : s0.Inv := h.each (fun _ _ h => h.linkMore)
  exact .ite (.next (.sendReady { hs0 with })) (.next hs0)

theorem State.Inv.execSendDeadline {sd node} (h : s.Inv) : OutInv (execSendDeadline sd node s) := by
  unfold Machine.execSendDeadline
  refine .ite ?_ (.next h)
  refine .next ?_
  refine h.each (fun _ _ h => ?_)
  refine .ite h ?_
  split
  · exact .sideSent (.drawn (.noteLoad (.ite h.sendSig h)))
  · extract_lets +onlyGivenNames s1
    have hs1 : s1.Inv := h.noteLoad.drawn
    exact .omitLeaves { hs1 with }

/-! ### Bank preparation (R98) -/

theorem State.Inv.prepGo {src b} (h : s.Inv) : (s.prepGo src b).Inv := by
  unfold State.prepGo
  exact .ite h.capture (.of_same (h.wr (f := IMP_PREP_STAT_BUSY) (v := 1)).wr rfl)

theorem State.Inv.execBankPrepareDone {ue} (h : s.Inv) : OutInv (execBankPrepareDone ue s) := by
  unfold Machine.execBankPrepareDone
  split
  · exact .next h
  · extract_lets tiles res why s1 _ s2 sum s3 s4 s5
    have hs1 : s1.Inv := .wr (h.each (fun _ _ h => h.storePrep))
    have hs2 : s2.Inv := { hs1 with }
    have hs4 : s4.Inv := by
      dsimp -zeta only [s4]
      split
      · exact hs2.wr.wr.wr.wr.wr
      · exact hs2.wr.wr.wr
    refine .next ?_
    refine .raise ?_
    refine .when ?_ (fun _ h => h.footPx)
    dsimp -zeta only [s5]
    split
    · exact hs4.captureInt
    · exact hs4

/-! ### Records and requests -/

theorem State.Inv.execRefreshRecordReceive {sd via words} (h : s.Inv) : OutInv (execRefreshRecordReceive sd via words s) := by
  unfold Machine.execRefreshRecordReceive
  exact .ite (.next h.takeNeed.recWrite) (.next h)

theorem State.Inv.execRefreshSelf {sd} (h : s.Inv) : OutInv (execRefreshSelf sd s) := by
  unfold Machine.execRefreshSelf
  exact .ite (.next h.takeNeed.bump.raise.selfRecord) (.next h)

theorem State.Inv.execNeedFullReceive {sd node feeds} (h : s.Inv) : OutInv (execNeedFullReceive sd node feeds s) := by
  unfold Machine.execNeedFullReceive
  refine .ite ?_ (.next h)
  extract_lets key w s1 _ s2
  have hs1 : s1.Inv := h.setWord
  clear_value s1
  have hs2 : s2.Inv := { hs1 with need := List.length_set.trans hs1.need }
  exact .next hs2.bump.raise

/-! ### The end of a composition (R66, R93, R94) -/

theorem State.Inv.writeBack {k} (h : s.Inv) : (s.writeBack k).Inv := by
  unfold State.writeBack
  extract_lets +onlyGivenNames sl hd st d32 base s1 last s2
  have hs2 : s2.Inv := .wr (.wr (h.each (fun _ _ h => h.storeBytes)))
  exact { hs2 with }

theorem State.Inv.execCompositionDeadline {e} (h : s.Inv) : OutInv (execCompositionDeadline e s) := by
  unfold Machine.execCompositionDeadline
  refine .ite (.next h) ?_
  extract_lets late nLate s0 s1 s2 s3 s4 cut _ s5
  have hs1 : s1.Inv := .when (h.each (fun _ _ h => h.linkMore)) (fun _ h => h.bumpBy.raise)
  have hs4 : s4.Inv := by
    refine .each ?_ (fun _ _ h => h.bump.raise)
    refine .pass1Done ?_
    refine .scalerCapacity ?_
    refine .wr ?_
    refine .ite ?_ hs1
    refine hs1.each (fun _ _ h => ?_)
    refine .ite ?_ h.writeBack
    extract_lets +onlyGivenNames src
    have hsrc : src.Inv := h.bump.raise
    exact { hsrc with pend := h.pend }
  exact .next (.ingRelease { hs4 with })

end Sys2Proof.Machine
end

