-- ==== Sys2Proof/Proofs/InvariantLinks.lean ====
section
/-! SUPPORT. The invariant is kept by lanes, sides and the Quire links. -/

namespace Sys2Proof.Machine

variable {s : State}

/-! ## Machine/Phy -/

/-! ### Lanes -/

theorem State.Inv.setTimeLink {sd x} (h : s.Inv) : (s.setTimeLink sd x).Inv := by
  unfold State.setTimeLink
  exact { h with links := List.length_set.trans h.links }

theorem State.Inv.restartFilter {sd} (h : s.Inv) : (s.restartFilter sd).Inv := by
  unfold State.restartFilter
  exact h.setTimeLink.wr

theorem State.Inv.setLog {sd l k} (h : s.Inv) : (s.setLog sd l k).Inv := by
  unfold State.setLog
  exact h.wr.when (fun _ h => h.restartFilter)

theorem State.Inv.setTx {sd log n} (h : s.Inv) : (s.setTx sd log n).Inv := by
  unfold State.setTx
  exact h.setSide.when (fun _ h => h.restartFilter)

theorem State.Inv.lanePre {sd l} (h : s.Inv) : (s.lanePre sd l).Inv := by
  unfold State.lanePre
  exact h.setSide

theorem State.Inv.assignLanes {sd} (h : s.Inv) : (s.assignLanes sd).Inv := by
  unfold State.assignLanes
  exact .setSide (.wr (.wr (h.each (fun _ _ h => h.wr))))

theorem State.Inv.lanesDown {sd} (h : s.Inv) : (s.lanesDown sd).Inv := by
  unfold State.lanesDown
  exact .setSide (.setSide (h.each (fun _ _ h => h.wr.when (fun _ h => h.setLane))))

theorem State.Inv.restartSide {sd} (h : s.Inv) : (s.restartSide sd).Inv := by
  unfold State.restartSide
  exact h.lanesDown.setTimeLink.wr.wr.wr.wr.wr.wr.wr.wr.wr

theorem State.Inv.execLaneSignalDetect {sd l} (h : s.Inv) : OutInv (execLaneSignalDetect sd l s) := by
  unfold Machine.execLaneSignalDetect
  exact .ite (.next (.setSide (.setLane (h.when (fun _ h => h.wr.wr.wr))))) (.next h)

/-! ### The search of ADAPT (R118) -/

theorem State.Inv.execAdaptComplete {sd l e} (h : s.Inv) : OutInv (execAdaptComplete sd l e s) := by
  unfold Machine.execAdaptComplete
  exact .ite (.next (h.setLane.wr.wr.wr.wr.when (fun _ h => h.drawn))) (.next h)

theorem State.Inv.execAlignLock {sd l} (h : s.Inv) : OutInv (execAlignLock sd l s) := by
  unfold Machine.execAlignLock
  exact .ite (.next h.setLane) (.next h)

theorem State.Inv.execLaneVerified {sd l} (h : s.Inv) : OutInv (execLaneVerified sd l s) := by
  unfold Machine.execLaneVerified
  refine .ite ?_ (.next h)
  refine .ite (.next h.setLane.wrFree) ?_
  refine .ite ?_ ?_
  · exact .next h.setLane.wrFree.setLog
  · exact .ite (.next h.setLane.wrFree.setLog.wr) (.ite (.next h.setLane.wrFree.wr) (.next h.setLane.wrFree))

theorem State.Inv.execVerifyFail {sd l} (h : s.Inv) : OutInv (execVerifyFail sd l s) := by
  unfold Machine.execVerifyFail
  exact .ite (.next h.setLane) (.next h)

theorem State.Inv.withdrawRx {sd} (h : s.Inv) : (s.withdrawRx sd).Inv := by
  unfold State.withdrawRx
  exact h.setSide.wr

theorem State.Inv.dropLane {sd l lost} (h : s.Inv) : (s.dropLane sd l lost).Inv := by
  unfold State.dropLane
  extract_lets k sp s1
  have hs1 : s1.Inv := h.setLane.lanePre.wr.raise
  exact .ite hs1 (.ite hs1.wr.withdrawRx (.ite hs1.setLog.wr.bumpBy.withdrawRx hs1))

theorem State.Inv.startSide {sd} (h : s.Inv) : (s.startSide sd).Inv := by
  unfold State.startSide
  extract_lets s1
  have hs1 : s1.Inv := h.each (fun _ _ h => .ite (.setLane (.ite h.dropLane h)) (.ite h.setLane h))
  exact .ite hs1 hs1.wr

theorem State.Inv.execLaneDown {sd l lost} (h : s.Inv) : OutInv (execLaneDown sd l lost s) := by
  unfold Machine.execLaneDown
  exact .ite (.next h.dropLane) (.ite (.next h.setLane.lanePre) (.next h))

theorem State.Inv.execLaneCountReduce {sd} (h : s.Inv) : OutInv (execLaneCountReduce sd s) := by
  unfold Machine.execLaneCountReduce
  refine .ite ?_ (.next h)
  extract_lets s1 s2
  have hs1 : s1.Inv := .ite (.wr (h.each (fun _ _ h => h.setLog))) h
  exact .next (.raise (.ite hs1.setTx hs1))

theorem State.Inv.execDeskew {sd l lost} (h : s.Inv) : OutInv (execDeskew sd l lost s) := by
  unfold Machine.execDeskew
  exact .ite (.next h.bump.raise.dropLane) (.next h)

theorem State.Inv.execRateStep {sd} (h : s.Inv) : OutInv (execRateStep sd s) := by
  unfold Machine.execRateStep
  exact .ite (.next h.lanesDown.wr.bump.raise) (.next h)

/-! ### Training and idle folios (R119, R125, Table 06-3) -/

theorem State.Inv.trainFolio {sd l} (h : s.Inv) : (s.trainFolio sd l).Inv := by
  unfold State.trainFolio
  exact h.send.setSide

theorem State.Inv.trainLanes {sd} (h : s.Inv) : (s.trainLanes sd).Inv := by
  unfold State.trainLanes
  exact h.each (fun _ _ h => h.trainFolio)

theorem State.Inv.idleSlots {sd} (h : s.Inv) : (s.idleSlots sd).Inv := by
  unfold State.idleSlots
  exact .setSide { h with }

theorem State.Inv.execIdleFolioSend {sd} (h : s.Inv) : OutInv (execIdleFolioSend sd s) := by
  unfold Machine.execIdleFolioSend
  exact .ite (.next h) (.ite (.next h.trainLanes.idleSlots) (.next h.trainLanes.setSide))

theorem State.Inv.txFollow {sd far} (h : s.Inv) : (s.txFollow sd far).Inv := by
  unfold State.txFollow
  exact .ite h.setTx h

theorem State.Inv.takeLaneControl {sd w} (h : s.Inv) : (s.takeLaneControl sd w).Inv := by
  unfold State.takeLaneControl
  exact .ite h.txFollow.wr.setSide.wr h

/-! ### Wear and swaps (R126, R127) -/

theorem State.Inv.requestSwap {sd l} (h : s.Inv) : (s.requestSwap sd l).Inv := by
  unfold State.requestSwap
  exact .ite h.setSide h

theorem State.Inv.execWearWindowEnd {sd l count} (h : s.Inv) : OutInv (execWearWindowEnd sd l count s) := by
  unfold Machine.execWearWindowEnd
  refine .ite ?_ (.next h)
  extract_lets s1 high x worn now run s2 s3
  have hs3 : s3.Inv := .ite h.wr.bumpBy.setSide.wr.raise h.wr.bumpBy.setSide
  exact .ite (.next hs3.wr.markDirty) (.next hs3)

theorem State.Inv.announceSwap {sd p} (h : s.Inv) : (s.announceSwap sd p).Inv := by
  unfold State.announceSwap
  dsimp only
  split
  · exact .ite h.setSide.drawn.wr h
  · exact h

theorem State.Inv.execSwapRequestReceive {sd lane} (h : s.Inv) : OutInv (execSwapRequestReceive sd lane s) := by
  unfold Machine.execSwapRequestReceive
  exact .ite (.ite (.next h.setSide) (.next h.announceSwap)) (.next h)

theorem State.Inv.swapRx {sd k leave take} (h : s.Inv) : (s.swapRx sd k leave take).Inv := by
  unfold State.swapRx
  exact h.setLog.wr.wr.setSide.bump.raise

theorem State.Inv.execSwapApply {sd tx} (h : s.Inv) : OutInv (execSwapApply sd tx s) := by
  unfold Machine.execSwapApply
  refine .ite (.next h) ?_
  refine .ite ?_ ?_
  · split
    · extract_lets s1 s2
      have hs1 : s1.Inv := h.setSide.setTx.bump.raise
      refine .next ?_
      split
      · exact hs1.wr.announceSwap
      · exact hs1.wr
    · exact .next h
  · refine .next ?_
    refine .wr ?_
    split
    · exact .ite h.swapRx h.withdrawRx
    · split
      · exact h.swapRx
      · exact h

/-! ## Machine/Link -/

/-! ### Streams (R150) -/

theorem State.Inv.loseStream {st why} (h : s.Inv) : (s.loseStream st why).Inv := by
  unfold State.loseStream
  refine .ite ?_ h
  extract_lets +onlyGivenNames s1
  have hs1 : s1.Inv := h.wr.wr.raise
  exact { hs1 with }

theorem State.Inv.execStreamLoss {st} (h : s.Inv) : OutInv (execStreamLoss st s) := by
  unfold Machine.execStreamLoss
  exact .next h.loseStream

theorem State.Inv.execStreamRestore {st} (h : s.Inv) : OutInv (execStreamRestore st s) := by
  unfold Machine.execStreamRestore
  exact .ite (.next h.wr) (.next h)

/-! ### Sides down and up -/

theorem State.Inv.takeDown {sd} (h : s.Inv) : (s.takeDown sd).Inv := by
  unfold State.takeDown
  refine .ite ?_ h.restartSide.bump.raise
  extract_lets s2 _ s3
  have hs2 : s2.Inv := h.restartSide.bump.raise.loseStream.bump
  exact .post (.wr (.wr { hs2 with }))

theorem State.Inv.execSideDown {sd} (h : s.Inv) : OutInv (execSideDown sd s) := by
  unfold Machine.execSideDown
  exact .ite (.next h.takeDown) (.next h)

theorem State.Inv.retrainSide {sd} (h : s.Inv) : (s.retrainSide sd).Inv := by
  unfold State.retrainSide
  exact .ite h.takeDown h.restartSide

/-! ### Enumeration (R141 to R143) -/

theorem State.Inv.startWalk {sd} (h : s.Inv) : (s.startWalk sd).Inv := by
  unfold State.startWalk
  refine .ite ?_ h
  extract_lets +onlyGivenNames f s1
  have hs1 : s1.Inv := h.sendFolio
  exact { hs1 with }

theorem State.Inv.execSideUp {sd t} (h : s.Inv) : OutInv (execSideUp sd t s) := by
  unfold Machine.execSideUp
  refine .ite ?_ (.next h)
  extract_lets +onlyGivenNames s1 x s2
  have hs2 : s2.Inv := h.assignLanes.wr.raise.setSide
  exact .ite (.next hs2.post) (.ite (.next (hs2.wrM.wrM.wrM.wr.when (fun _ h => h.startWalk))) (.next hs2))

theorem State.Inv.enumGo (h : s.Inv) : s.enumGo.Inv := by
  unfold State.enumGo
  exact h.startWalk

theorem State.Inv.wrTopo {f v} (h : s.Inv) : (s.wrTopo f v).Inv := by
  unfold State.wrTopo
  exact h.wr.wr

theorem State.Inv.tileReach {n far near} (h : s.Inv) : (s.tileReach n far near).Inv := by
  unfold State.tileReach
  exact h.wr.wr

theorem State.Inv.execEnumDone {sd acks moved} (h : s.Inv) : OutInv (execEnumDone sd acks moved s) := by
  unfold Machine.execEnumDone
  refine .ite ?_ (.next h)
  extract_lets tiles linear node n far ends s1 _ s2 s3 s4 s5
  have hs1 : s1.Inv := h.wr.wr.wr.wr.wr.wr.wr
  exact .next (.when (.raise (.when (.when { hs1 with } (fun _ h => h.raise)) (fun _ h => h.raise))) (fun _ h => h.sendFolio))

theorem State.Inv.execLinkUpReceive {sd _tile} (h : s.Inv) : OutInv (execLinkUpReceive sd _tile s) := by
  unfold Machine.execLinkUpReceive
  exact .next h.startWalk

/-! ### Ring breaks (R151) -/

theorem State.Inv.execBreakReceive {sd tile side} (h : s.Inv) : OutInv (execBreakReceive sd tile side s) := by
  unfold Machine.execBreakReceive
  refine .ite ?_ ?_
  · exact .ite (.next (.ite h.bump.wr.wr h.bump)) (.next (.ite h.bump.wr.wr h.bump))
  · exact .ite (.next h.bump.wr.wr.wr.raise) (.next h.bump)

/-! ### Folios (R131, R134 to R136, R148) -/

theorem State.Inv.noteLatency {ns} (h : s.Inv) : (s.noteLatency ns).Inv := by
  unfold State.noteLatency
  exact h.wr

theorem State.Inv.forward {out f latency} (h : s.Inv) : (s.forward out f latency).Inv := by
  unfold State.forward
  refine .ite h ?_
  refine .ite ?_ h.noteLatency.sendFolio
  refine .ite h ?_
  extract_lets s1 n peak s2 y
  have hs1 : s1.Inv := h.noteLatency.setSide.pump
  exact .ite hs1.wr.setSide.bump hs1.wr

theorem State.Inv.actFolio {sd f latency} (h : s.Inv) : (s.actFolio sd f latency).Inv := by
  unfold State.actFolio
  refine .ite h.bump ?_
  extract_lets x s1 s2
  have hs2 : s2.Inv := h.setSide.when (fun _ h => h.pump)
  refine .ite ?_ ?_
  · exact hs2.takeLaneControl
  · exact .ite hs2 (.ite (hs2.when (fun _ h => h.noteLatency)) (.ite hs2.forward hs2))

theorem State.Inv.takeHeld {sd n} (h : s.Inv) : (s.takeHeld sd n).Inv := by
  induction n generalizing s with
  | zero => exact h
  | succ n ih =>
    unfold State.takeHeld
    extract_lets
    split
    · exact ih h.setSide.actFolio
    · exact h

theorem State.Inv.arrive {sd l f latency} (h : s.Inv) : (s.arrive sd l f latency).Inv := by
  unfold State.arrive
  exact .ite h.setSide.actFolio.takeHeld h.setSide.takeHeld

theorem State.Inv.learnLog {sd l seq} (h : s.Inv) : (s.learnLog sd l seq).Inv := by
  unfold State.learnLog
  exact .ite h.setLog h

theorem State.Inv.execFolioReceive {sd l f decoded latencyNs} (h : s.Inv) : OutInv (execFolioReceive sd l f decoded latencyNs s) := by
  unfold Machine.execFolioReceive
  refine .ite (.next h) ?_
  refine .ite ?_ ?_
  · exact .next h.setSide.drawn.bump.bump
  · exact .ite (.next h.setSide.bump.actFolio) (.next h.setSide.bump.learnLog.arrive)

/-! ### Management fragments (R144, R145) -/

theorem State.Inv.dimRing {v target} (h : s.Inv) : (s.dimRing v target).Inv := by
  unfold State.dimRing
  refine .each ?_ (fun _ _ h => h.sendMessageOn.sendMessageOn)
  exact { h with }

theorem State.Inv.dimForHeat (h : s.Inv) : s.dimForHeat.Inv := by
  unfold State.dimForHeat
  exact .ite h.drawn.drawn.dimRing h

theorem State.Inv.takeEvent {ws} (h : s.Inv) : (s.takeEvent ws).Inv := by
  unfold State.takeEvent
  extract_lets code coll sA w2 _ sB sC s1 _
  have hA : sA.Inv := .when h fun _ h => h.noteCollation
  have hB : sB.Inv := .ite { hA with } (.ite { hA with } hA)
  have hs1 : s1.Inv := .when (.ite hB.dimForHeat hB) fun _ h => h.trigger
  exact .ite (.ite hs1.qPush.raise (.ite (.raise (.bump (.qSetDrop { hs1 with }))) hs1)) hs1

theorem State.Inv.relayOut {node dst src id words} (h : s.Inv) : (s.relayOut node dst src id words).Inv := by
  unfold State.relayOut
  split
  · exact h
  · extract_lets known new r _ _ s1 env w0
    have hs1 : s1.Inv := .ite h { h with }
    exact .ite hs1.sendFolio hs1

theorem State.Inv.relayBack {r src words last} (h : s.Inv) : (s.relayBack r src words last).Inv := by
  unfold State.relayBack
  extract_lets +onlyGivenNames w0 s1
  have hs1 : s1.Inv := h.sendEther
  exact .ite { hs1 with } hs1

theorem State.Inv.execMgFragmentReceive {via words} (h : s.Inv) : OutInv (execMgFragmentReceive via words s) := by
  unfold Machine.execMgFragmentReceive
  refine .ite (.next h) ?_
  refine .ite (.next h.relayOut) ?_
  split
  · exact .next h.relayBack
  · extract_lets +onlyGivenNames cur rest runs s1 headless s2
    have hs2 : s2.Inv := .when (h.when (fun _ h => h.bump)) (fun _ h => h.bump)
    refine .ite (.next { hs2 with }) ?_
    refine .ite (.next hs2) ?_
    refine .ite ?_ (.next { hs2 with })
    extract_lets _ s3
    have hs3 : s3.Inv := { hs2 with }
    exact .next (.ite hs3.takeEvent hs3)

theorem State.Inv.execFragTimeout {srcQn} (h : s.Inv) : OutInv (execFragTimeout srcQn s) := by
  unfold Machine.execFragTimeout
  split
  · exact .next (.when { h with } (fun _ h => h.bump))
  · exact .next h

/-! ### Collation (R152, R153) -/

theorem State.Inv.noteColl {k x} (h : s.Inv) : (s.noteColl k x).Inv := by
  unfold State.noteColl
  split
  · exact h.bump
  · exact h.bump
  · exact h.bump
  · exact h
  · extract_lets +onlyGivenNames s1
    have hs1 : s1.Inv := h.bump.raise
    exact { hs1 with }
  · extract_lets s1 s2 _ s3
    have hs2 : s2.Inv := .ite h.bump.wr h.bump.wr.wr.wr.wr.wr.wr
    exact .raise { hs2 with }

theorem State.Inv.collEvent (h : s.Inv) : s.collEvent.Inv := by
  unfold State.collEvent
  exact .ite (.post { h with }) h

theorem State.Inv.collTick (h : s.Inv) : s.collTick.Inv := by
  unfold State.collTick
  extract_lets s1
  have hs1 : s1.Inv := .ite (.collEvent (.each h fun _ _ h => h.noteColl)) h
  exact { hs1 with results := ⟨List.length_replicate, fun _ hr => by rw [List.eq_of_mem_replicate hr]; rfl⟩ }

end Sys2Proof.Machine
end

