-- ==== Sys2Proof/Proofs/InvariantTile.lean ====
section
/-! SUPPORT. The invariant is kept by a tile's frame store, press and scan, the timebase and the lamps' health. -/

namespace Sys2Proof.Machine

variable {s : State}

/-! ## Machine/Tile -/

/-! ### NEED_FULL (R188) -/

theorem State.Inv.needFull {mask} (h : s.Inv) : (s.needFull mask).Inv := by
  unfold State.needFull
  exact .ite (.post (.raise (.bump (.wr { h with })))) h

theorem State.Inv.execNeedFullRetry (h : s.Inv) : OutInv (execNeedFullRetry s) := by
  unfold Machine.execNeedFullRetry
  exact .next h.needFull

theorem State.Inv.needEnd {f} (h : s.Inv) : (s.needEnd f).Inv := by
  unfold State.needEnd
  extract_lets +onlyGivenNames s1
  have hs1 : s1.Inv := h.wr
  exact { hs1 with }

theorem State.Inv.clearLeafMaps (h : s.Inv) : s.clearLeafMaps.Inv := by
  unfold State.clearLeafMaps
  exact { h with }

/-! ### Press lead (R189) -/

theorem State.Inv.updNeed (h : s.Inv) : s.updNeed.Inv := by
  unfold State.updNeed
  exact .ite h.wr.wrAll.captureInt h.wr

/-! ### Signatures (R137 to R140, R186, R187) -/

theorem State.Inv.results_set {st k : Nat} {v} (h : s.Inv) :
    State.Inv { s with tile := { s.tile with results := s.tile.results.set st ((s.tile.results.getD st []).set k v) } } :=
  have hrows : ∀ r ∈ s.tile.results.set st ((s.tile.results.getD st []).set k v), r.length = 4 := by
    intro r hr
    by_cases hst : st < s.tile.results.length
    · rcases List.mem_or_eq_of_mem_set hr with hr | rfl
      · exact h.results.2 r hr
      · rw [List.length_set, List.getD_eq_getElem _ _ hst]
        exact h.results.2 _ (List.getElem_mem hst)
    · rw [List.set_eq_of_length_le (Nat.le_of_not_lt hst)] at hr
      exact h.results.2 r hr
  { h with results := ⟨List.length_set.trans h.results.1, hrows⟩ }

theorem State.Inv.noteVerdict {st g v crc sent t} (h : s.Inv) : (s.noteVerdict st g v crc sent t).Inv := by
  unfold State.noteVerdict
  refine .results_set (.recWrite ?_)
  cases v with
  | verified => exact h.bump
  | truncated => exact h.bump
  | failed => exact h.bump.raise

theorem State.Inv.takeLeaves {f ls} (h : s.Inv) : (s.takeLeaves f ls).Inv := by
  unfold State.takeLeaves
  extract_lets +onlyGivenNames m tl s1 s2
  have hs2 : s2.Inv := .wr { h with }
  exact .ite (.raise (.bumpBy { hs2 with })) hs2

theorem State.Inv.sigs_set {st : Nat} {x : Option OpenSig} (h : s.Inv) (hx : ∀ g, x = some g → g.feed < 4 ∧ ∀ l ∈ g.leaves, l < 256) :
    State.Inv { s with tile := { s.tile with sigs := s.tile.sigs.set st x } } :=
  { h with sigs := ⟨List.length_set.trans h.sigs.1, fun g hg =>
      (List.mem_or_eq_of_mem_set hg).elim (h.sigs.2 g) fun e => hx g e.symm⟩ }

theorem State.Inv.sigs_clear {st : Nat} (h : s.Inv) : State.Inv { s with tile := { s.tile with sigs := s.tile.sigs.set st none } } :=
  h.sigs_set nofun

theorem State.Inv.endSig {st g v crc sent t} (h : s.Inv) : (s.endSig st g v crc sent t).Inv := by
  unfold State.endSig
  extract_lets _ s0 s1
  have hs0 : s0.Inv := h.sigs_clear
  have hs1 : s1.Inv := hs0.noteVerdict
  refine .ite hs1 ?_
  cases v with
  | verified => exact .when hs1.takeLeaves fun _ h => h.needEnd
  | truncated => exact hs1.takeLeaves.bumpBy
  | failed => exact hs1.needFull

theorem State.Inv.failSig {st t} (h : s.Inv) : (s.failSig st t).Inv := by
  unfold State.failSig
  split
  · exact .ite h.endSig h.sigs_clear
  · exact h

theorem State.Inv.execSignatureExpire {st} (h : s.Inv) : OutInv (execSignatureExpire st s) := by
  unfold Machine.execSignatureExpire
  exact .next h.failSig

theorem mapLeaves_lt {m l : Nat} (h : l ∈ mapLeaves m) : l < 256 := List.mem_range.1 (List.mem_of_mem_filter h)

theorem State.Inv.execSigHdrReceive {st words t} (h : s.Inv) : OutInv (execSigHdrReceive st words t s) := by
  unfold Machine.execSigHdrReceive
  refine .ite (.next h) ?_
  extract_lets w s1 map feed frameOk gridOk sel g _ s2 s3
  have hfeed : feed < 4 := Nat.mod_lt _ (by decide)
  have hs2 : s2.Inv := .sigs_set h.failSig (by rintro _ ⟨⟩; exact ⟨hfeed, fun _ => mapLeaves_lt⟩)
  have hs3 : s3.Inv := .when hs2 fun _ h => h.wr
  exact .ite (.next hs2.bump.raise) (.ite (.next hs2.bump.raise) (.ite (.next (.wr { hs3 with })) (.next hs2)))

theorem State.Inv.storeLeaves {g before ws} (h : s.Inv) : (s.storeLeaves g before ws).Inv := by
  unfold State.storeLeaves
  exact h.each (fun _ _ h => h.each (fun _ _ h => h.setPix))

theorem State.Inv.execSigDataReceive {st words last t} (h : s.Inv) : OutInv (execSigDataReceive st words last t s) := by
  unfold Machine.execSigDataReceive
  refine .ite (.next h) ?_
  split
  next => exact .next (.when h.bump fun _ h => h.needFull)
  next g hg =>
    have hmem : some g ∈ s.tile.sigs := by
      by_cases hst : st.val < s.tile.sigs.length
      · rw [List.getD_eq_getElem _ _ hst] at hg
        exact hg ▸ List.getElem_mem hst
      · rw [List.getD_eq_default _ _ (Nat.le_of_not_lt hst)] at hg
        cases hg
    refine .ite (.next (.ite h.sigs_clear h)) ?_
    extract_lets fw ws s1
    have hs1 : s1.Inv := .ite h.storeLeaves h
    exact .ite (.next (.sigs_set hs1 (by rintro _ ⟨⟩; exact h.sigs.2 g hmem))) (.next hs1.endSig)

/-! ### The press pass (R190 to R195, R197) -/

theorem State.Inv.noteClips {k} (h : s.Inv) : (s.noteClips k).Inv := by
  unfold State.noteClips
  refine .ite h ?_
  extract_lets +onlyGivenNames s1
  have hs1 : s1.Inv := h.bumpBy
  exact .ite hs1 (.raise { hs1 with })

theorem State.Inv.pressFeed {ue lit n f F} (h : s.Inv) : (s.pressFeed ue lit n f F).Inv := by
  unfold State.pressFeed
  extract_lets t thr gut integrate j res s1 a s2 fresh s3 _ _ s4
  have hs1 : s1.Inv := { h with win := Tbl.wf_setMany _ _ h.win }
  have ha : a.Inv := { hs1 with win := Tbl.wf_setMany _ _ hs1.win }
  have hs2 : s2.Inv := .ite (.ite { ha with win := Tbl.wf_setMany _ _ ha.win } ha) hs1
  have hs3 : s3.Inv := .foldl hs2 fun _ _ h => h.wr
  exact .noteClips { hs3 with }

theorem State.Inv.captureFeed {ue f} (h : s.Inv) : (s.captureFeed ue f).Inv := by
  unfold State.captureFeed
  split
  · refine .ite ?_ h
    extract_lets at_ idx _ s1 a s2
    have hs1 : s1.Inv := { h with win := Tbl.wf_setMany _ _ h.win }
    have ha : a.Inv := { hs1 with win := Tbl.wf_setMany _ _ hs1.win }
    have hs2 : s2.Inv := .ite (.ite { ha with win := Tbl.wf_setMany _ _ ha.win } ha) hs1
    exact hs2.wr
  · exact h

theorem State.Inv.noteBad {ue} (h : s.Inv) : (s.noteBad ue).Inv := by
  unfold State.noteBad
  refine h.each (fun _ _ h => ?_)
  extract_lets +onlyGivenNames s1
  have hs1 : s1.Inv := { h with }
  exact .ite hs1.bump.captureInt.raise.needFull (.ite (.raise (.captureInt { hs1 with })) hs1)

theorem State.Inv.execPressStart {ue} (h : s.Inv) : OutInv (execPressStart ue s) := by
  unfold Machine.execPressStart
  refine .ite (.next h) ?_
  refine .ite (.next h.bump) ?_
  refine .next ?_
  refine .each ?_ (fun _ _ h => h.captureFeed.pressFeed)
  exact .noteBad { h with }

theorem State.Inv.pressRecord {n flip} (h : s.Inv) : (s.pressRecord n flip).Inv := by
  unfold State.pressRecord
  exact h.recWriteAt

theorem State.Inv.reloadWord {a} (h : s.Inv) : (s.reloadWord a).Inv := by
  unfold State.reloadWord
  exact h.each (fun _ _ h => h.setPix)

theorem State.Inv.setTable {a v} (h : s.Inv) : (s.setTable a v).Inv := by
  unfold State.setTable
  exact .when (h.setPix.when (fun _ h => h.wr)) (fun _ h => h.markDirty)

theorem State.Inv.ageSave (h : s.Inv) : s.ageSave.Inv := by
  unfold State.ageSave
  exact .ite h.queueOp h

theorem State.Inv.execPressComplete {ns} (h : s.Inv) : OutInv (execPressComplete ns s) := by
  unfold Machine.execPressComplete
  refine .ite (.next h) ?_
  extract_lets _ s1 s2 s3 s4 s5 _ s6
  have hs1 : s1.Inv := { h with }
  have hs5 : s5.Inv := by
    refine .each ?_ (fun _ _ h => h.setTable)
    refine .each ?_ (fun _ _ h => h.reloadWord)
    exact .ite hs1.wr hs1.wr.pressRecord
  have hs6 : s6.Inv := { hs5 with }
  exact .next (.ite hs6.ageSave hs6)

/-! ### The tile's part in a tick (R188, R190, R193) -/

theorem State.Inv.tileTickEnd (h : s.Inv) : s.tileTickEnd.Inv := by
  unfold State.tileTickEnd
  exact .ite h.failSig.failSig.collTick h

theorem State.Inv.flipFeeds {m} (h : s.Inv) : (s.flipFeeds m).Inv := by
  unfold State.flipFeeds
  exact { h with }

theorem State.Inv.flipPlanes (h : s.Inv) : s.flipPlanes.Inv := by
  unfold State.flipPlanes
  refine .ite ?_ h.flipFeeds
  extract_lets +onlyGivenNames k s1 s2
  have hs2 : s2.Inv := h.drawn.pressRecord.bumpBy.raise.flipFeeds
  exact { hs2 with }

theorem State.Inv.tileTickNew (h : s.Inv) : s.tileTickNew.Inv := by
  unfold State.tileTickNew
  extract_lets +onlyGivenNames _ s1
  have hs1 : s1.Inv := { h with }
  exact .ite (.needFull { hs1 with }) hs1

/-! ### Aging saves (R196) -/

theorem State.Inv.execAgeSaveDone (h : s.Inv) : OutInv (execAgeSaveDone s) := by
  unfold Machine.execAgeSaveDone
  refine .ite ?_ ?_
  · exact .next (.raise (.popOp (.wr (.wr (.wr (.bump { h with ageSlots := List.length_set.trans h.ageSlots }))))))
  · exact .next h

/-! ## Machine/Scan -/

/-! ### Causes (Table 10-6) -/

theorem State.Inv.setDrvBank {d b} (h : s.Inv) : (s.setDrvBank d b).Inv := by
  unfold State.setDrvBank
  exact { h with banks := List.length_set.trans h.banks }

/-! ### The scan plan (R205 to R209, R213) -/

theorem State.Inv.showMap {d} (h : s.Inv) : (s.showMap d).Inv := by
  unfold State.showMap
  extract_lets k out _ s1
  have hs1 : s1.Inv := .wr (.wr { h with })
  exact .ite hs1.raise hs1

theorem State.Inv.showPlan {n} (h : s.Inv) : (s.showPlan n).Inv := by
  unfold State.showPlan
  exact .ite h.wr.wr.wr.wr.wr.wr.wr h.wr.wr.wr.wr.wr.wr

/-! ### Safe disable (R215, R216) -/

theorem State.Inv.sendStrings {d k payload} (h : s.Inv) : (s.sendStrings d k payload).Inv := by
  unfold State.sendStrings
  exact h.each (fun _ _ h => h.send)

theorem State.Inv.offBank {cause d} (h : s.Inv) : (s.offBank cause d).Inv := by
  unfold State.offBank
  exact .setDrvBank (.send (.wr (.wr (.ite h.sendStrings h))))

theorem State.Inv.safeDisable {ds cause} (h : s.Inv) : (s.safeDisable ds cause).Inv := by
  unfold State.safeDisable
  extract_lets on s1 s2
  have hs1 : s1.Inv := h.each (fun _ _ h => h.offBank)
  have hs2 : s2.Inv := .ite hs1 hs1.bump
  exact .ite hs2.wr.wr.raise (.ite hs2.wr hs2)

theorem State.Inv.lampsOff {cause} (h : s.Inv) : (s.lampsOff cause).Inv := by
  unfold State.lampsOff
  exact h.safeDisable

theorem State.Inv.bankWaits {d cause} (h : s.Inv) : (s.bankWaits d cause).Inv := by
  unfold State.bankWaits
  exact .ite h h.setDrvBank

theorem State.Inv.bankFails {d cause} (h : s.Inv) : (s.bankFails d cause).Inv := by
  unfold State.bankFails
  exact .ite h.safeDisable h.wr

/-! ### Conditions (R214) -/

theorem State.Inv.bankStart {d} (h : s.Inv) : (s.bankStart d).Inv := by
  unfold State.bankStart
  refine .ite h ?_
  refine .ite h.wr ?_
  extract_lets s0 s1
  have hs0 : s0.Inv := .ite h.raise h
  exact .ite hs0.wr hs0.wr.wr.raise

/-! ### Die events (R203, R204, R210, R216) -/

theorem State.Inv.execPllUnlock {d} (h : s.Inv) : OutInv (execPllUnlock d s) := by
  unfold Machine.execPllUnlock
  exact .ite (.next h.wr.bump.raise.bankFails.bankWaits) (.next h)

theorem State.Inv.execGclkPllLock {d t} (h : s.Inv) : OutInv (execGclkPllLock d t s) := by
  unfold Machine.execGclkPllLock
  exact .next (.ite h.setDrvBank.wr h)

theorem State.Inv.execIrefFault {d riref} (h : s.Inv) : OutInv (execIrefFault d riref s) := by
  unfold Machine.execIrefFault
  refine .ite (.next h) ?_
  split
  · refine .ite ?_ ?_
    · exact .next (.ite h.wr.wr.setDrvBank.bankWaits h.wr.wr)
    · exact .ite (.next h.wr.wr.setDrvBank.bankFails) (.next h)
  · exact .next h.wr.wr.setDrvBank.bankFails

theorem State.Inv.execIrefRestore {d ohm} (h : s.Inv) : OutInv (execIrefRestore d ohm s) := by
  unfold Machine.execIrefRestore
  exact .ite (.next (.ite h.wr.wr.setDrvBank.bankWaits h.wr.wr)) (.next h)

theorem State.Inv.execDieLinkDown {d} (h : s.Inv) : OutInv (execDieLinkDown d s) := by
  unfold Machine.execDieLinkDown
  exact .next (.ite h.wr.bankFails h)

theorem State.Inv.execDieLinkUp {d} (h : s.Inv) : OutInv (execDieLinkUp d s) := by
  unfold Machine.execDieLinkUp
  exact .next (.ite h.wr.bankWaits h)

theorem State.Inv.execUnderrunShutdown {d} (h : s.Inv) : OutInv (execUnderrunShutdown d s) := by
  unfold Machine.execUnderrunShutdown
  exact .next (.ite h.raise.bankFails h)

/-! ### Register hooks (R214 to R216) -/

theorem State.Inv.hostDark (h : s.Inv) : s.hostDark.Inv := by
  unfold State.hostDark
  exact .ite h.wr.wr h

theorem State.Inv.scanBlockOff {pg} (h : s.Inv) : (s.scanBlockOff pg).Inv := by
  unfold State.scanBlockOff
  exact .ite h.lampsOff.hostDark (.ite (.ite h.safeDisable.setDrvBank h.safeDisable) h)

/-! ### What a line slot drives (R200, R201, R205 to R208) -/

theorem State.Inv.noteClip {k} (h : s.Inv) : (s.noteClip k).Inv := by
  unfold State.noteClip
  refine .ite h ?_
  extract_lets +onlyGivenNames s1
  have hs1 : s1.Inv := h.bumpBy
  exact .ite hs1 (.raise { hs1 with })

/-! ### Strings (R211 to R213) -/

theorem State.Inv.execStringTransmit {d} (h : s.Inv) : OutInv (execStringTransmit d s) := by
  unfold Machine.execStringTransmit
  exact .ite (.next h) (.next (.ite h.sendStrings.bump.raise h.sendStrings))

/-! ### SCN's part in a tick (R209, R214, R216, R217) -/

theorem State.Inv.scanRelease {n} (h : s.Inv) : (s.scanRelease n).Inv := by
  unfold State.scanRelease
  exact { h with banks := (List.length_map _).trans (List.length_zipIdx.trans h.banks) }

theorem State.Inv.planApply {n} (h : s.Inv) : (s.planApply n).Inv := by
  unfold State.planApply
  extract_lets old new gclk ds s1 fit _ s2 s3 s4
  have hs1 : s1.Inv := .ite (h.lampsOff.each (fun _ _ h => h.wr)) (h.each (fun _ _ h => h.safeDisable))
  have hs2 : s2.Inv := { hs1 with }
  have hs3 : s3.Inv := .ite hs2.lampsOff hs2
  refine .each ?_ (fun _ _ h => h.showMap)
  exact .showPlan (.ite hs3.raise hs3)

theorem State.Inv.scan_any {x : Scan} (h : s.Inv) (hx : x.banks.length = 4) : State.Inv { s with scan := x } := { h with banks := hx }

theorem State.Inv.planForm {n} (h : s.Inv) : (s.planForm n).Inv := by
  unfold State.planForm
  exact .ite (.wr (h.scan_any h.banks)) (.raise (.bump (.wr (h.scan_any h.banks))))

theorem State.Inv.scanTick {n held} (h : s.Inv) : (s.scanTick n held).Inv := by
  unfold State.scanTick
  refine .ite h ?_
  extract_lets s0 _ s1 s2
  have hs0 : s0.Inv := h.scanRelease
  have hs1 : s1.Inv := { hs0 with }
  have hs2 : s2.Inv := .ite hs1 hs1.planApply.planForm
  exact .ite hs2 hs2.wr

/-! ## Machine/Time -/

/-! ### Wall time (R154, R160) -/

theorem State.Inv.passTo {t} (h : s.Inv) : (s.passTo t).Inv := by
  unfold State.passTo
  extract_lets x most left s1 s2
  have hs1 : s1.Inv := { h with }
  have hs2 : s2.Inv := .ite hs1 hs1.wr
  exact .ite hs2.wr hs2

theorem State.Inv.takeFrame (h : s.Inv) : s.takeFrame.Inv := by
  unfold State.takeFrame
  extract_lets n src
  have hsrc : src.Inv := h.wr
  exact { hsrc with }

theorem State.Inv.stepTime {o} (h : s.Inv) : (s.stepTime o).Inv := by
  unfold State.stepTime
  refine .takeFrame ?_
  refine .each ?_ (fun _ _ h => .ite h.wr h)
  exact { h with links := (List.length_map _).trans h.links }

/-! ### Timebase (R155 to R158) -/

theorem State.Inv.leadClamp (h : s.Inv) : s.leadClamp.Inv := by
  unfold State.leadClamp
  exact .ite h.wr.captureInt h

theorem State.Inv.setTb {b} (h : s.Inv) : (s.setTb b).Inv := by
  unfold State.setTb
  refine .when ?_ (fun _ h => h.updNeed)
  extract_lets +onlyGivenNames src
  have hsrc : src.Inv := .leadClamp (.ite h.wr.wr.wr.wr.wr.wr.wr h.wr.wr.wr.wr.wr.wr.wr.captureInt)
  exact { hsrc with }

theorem State.Inv.sendTime {sd t} (h : s.Inv) : (s.sendTime sd t).Inv := by
  unfold State.sendTime
  exact .ite h.sendFolio h

theorem State.Inv.sendTimeNow {sd} (h : s.Inv) : (s.sendTimeNow sd).Inv := by
  unfold State.sendTimeNow
  exact h.drawn.sendTime

theorem State.Inv.execTimeFolioSend {sd t} (h : s.Inv) : OutInv (execTimeFolioSend sd t s) := by
  unfold Machine.execTimeFolioSend
  exact .next h.passTo.sendTime

theorem State.Inv.told {old : State} (h : s.Inv) : (old.told s).Inv := by
  unfold State.told
  exact .when (.when h fun _ h => h.sendTimeNow) fun _ h => h.sendTimeNow

theorem State.Inv.pendTb {w} (h : s.Inv) : (s.pendTb w).Inv := by
  unfold State.pendTb
  exact .when (.raise (.wr { h with })) (fun _ h => h.updNeed)

theorem State.Inv.armTb {src} (h : s.Inv) : (s.armTb src).Inv := by
  unfold State.armTb
  refine .ite ?_ ?_
  · exact h.capture
  · exact .ite h.capture (.told (.when (.pendTb (.ite h.wr.wr.wr.markDirty h)) (fun _ h => h.capture)))

theorem State.Inv.takeSwitch {w} (h : s.Inv) : (s.takeSwitch w).Inv := by
  unfold State.takeSwitch
  exact .setTb (.wr { h with })

theorem State.Inv.switchTick {n} (h : s.Inv) : (s.switchTick n).Inv := by
  unfold State.switchTick
  split
  · exact .ite h.takeSwitch.raise.told h
  · exact h

/-! ### Sources and the servo (R159 to R161) -/

theorem State.Inv.setServo {st} (h : s.Inv) : (s.setServo st).Inv := by
  unfold State.setServo
  refine .ite h ?_
  extract_lets _ s1 _ s2
  have hs1 : s1.Inv := .wr { h with }
  have hs2 : s2.Inv := .ite (.raise { hs1 with }) (.ite (.raise (.wr { hs1 with })) hs1)
  exact .ite hs2.lampsOff hs2

theorem State.Inv.evalSrc (h : s.Inv) : s.evalSrc.Inv := by
  unfold State.evalSrc
  refine .ite (.ite h h.setServo.raise) ?_
  refine .ite h ?_
  extract_lets +onlyGivenNames s1
  have hs1 : s1.Inv := .raise (h.wr.wr.when (fun _ h => h.wr))
  exact .ite (.setServo { hs1 with }) (.ite { hs1 with } hs1.setServo)

theorem State.Inv.setSource {c v} (h : s.Inv) : (s.setSource c v).Inv := by
  unfold State.setSource
  exact .ite h h.wr.evalSrc

theorem State.Inv.execSourceChange {code valid} (h : s.Inv) : OutInv (execSourceChange code valid s) := by
  unfold Machine.execSourceChange
  exact .next (.ite h h.setSource.told)

theorem State.Inv.execServoLock (h : s.Inv) : OutInv (execServoLock s) := by
  unfold Machine.execServoLock
  exact .next (.ite h.setServo.told h)

theorem State.Inv.noteOffset {o phase} (h : s.Inv) : (s.noteOffset o phase).Inv := by
  unfold State.noteOffset
  extract_lets +onlyGivenNames ns since run _ s1 far first mayStep
  have hs1 : s1.Inv := .wr { h with }
  exact .ite hs1 (.ite hs1.stepTime.wr (.when { hs1 with } (fun _ h => h.raise)))

/-! ### PTP (R162, R163) -/

theorem State.Inv.setPtpSlot {d x} (h : s.Inv) : (s.setPtpSlot d x).Inv := by
  unfold State.setPtpSlot
  exact { h with ptp := List.length_set.trans h.ptp }

theorem State.Inv.ptpListen {d} (h : s.Inv) : (s.ptpListen d).Inv := by
  unfold State.ptpListen
  exact h.setPtpSlot.wr.setSource

theorem State.Inv.ptpOffset {d o} (h : s.Inv) : (s.ptpOffset d o).Inv := by
  unfold State.ptpOffset
  exact .ite h (.ite h.wr.wr.setSource.noteOffset h.wr.wr.setSource)

theorem State.Inv.ptpSync {d rx origin} (h : s.Inv) : (s.ptpSync d rx origin).Inv := by
  unfold State.ptpSync
  extract_lets x down s1
  split
  · exact .ite h.setPtpSlot.send.ptpOffset h.setPtpSlot.send
  · exact h.setPtpSlot.send

theorem State.Inv.execPtpMessage {d m} (h : s.Inv) : OutInv (execPtpMessage d m s) := by
  unfold Machine.execPtpMessage
  extract_lets +onlyGivenNames x on
  split
  · exact .ite (.next (.ite h.wr.wr.wr.setPtpSlot h.wr.wr.wr.setPtpSlot.wr.setSource.told)) (.next h)
  · refine .ite ?_ (.next h)
    split
    · exact .next h.passTo.ptpSync.told
    · exact .next h.passTo.setPtpSlot
  · split
    · exact .next (.ite h.ptpSync.told h)
    · exact .next h
  · split
    · exact .ite (.next (.ite h.setPtpSlot.wr.ptpOffset.told h.setPtpSlot.wr)) (.next h)
    · exact .next h

theorem State.Inv.execPtpAnnounceTimeout {d} (h : s.Inv) : OutInv (execPtpAnnounceTimeout d s) := by
  unfold Machine.execPtpAnnounceTimeout
  exact .next h.ptpListen.told

theorem State.Inv.inputsChanged (h : s.Inv) : s.inputsChanged.Inv := by
  unfold State.inputsChanged
  extract_lets s1 _ s2 _ s3 _ s4
  have hs1 : s1.Inv := h.each (fun _ _ h => .ite h.ptpListen h)
  clear_value s1
  have hs2 : s2.Inv := .ite hs1 (.setSource { hs1 with })
  clear_value s2
  have hs3 : s3.Inv := .ite hs2 (.setSource { hs2 with })
  clear_value s3
  exact .told (.evalSrc (.ite hs3 (.setSource { hs3 with })))

/-! ### Roots and parents (R168) -/

theorem State.Inv.showRoot {p} (h : s.Inv) : (s.showRoot p).Inv := by
  unfold State.showRoot
  extract_lets s1
  split
  · exact h.wr.wr.wr.wr.wr.wr.wr.wr
  · exact h.wr.wr.wr.wr.wr.wr.wr.wr

theorem State.Inv.selectParent (h : s.Inv) : s.selectParent.Inv := by
  unfold State.selectParent
  exact .ite (.showRoot (.ite h.setSource.setServo.raise h.setSource)) h.setSource.showRoot

theorem State.Inv.execParentTimeout (h : s.Inv) : OutInv (execParentTimeout s) := by
  unfold Machine.execParentTimeout
  exact .next (.told (.selectParent (.when (.ite (.setTimeLink (.ite h.setTimeLink h)) (.ite h.setTimeLink h)) (fun _ h => h.wr))))

/-! ### TIME folios received (R156 to R158, R165, R166, R169, R177) -/

theorem State.Inv.timeExchange {sd e} (h : s.Inv) : (s.timeExchange sd e).Inv := by
  unfold State.timeExchange
  refine .ite ?_ ?_
  · exact .ite h.setTimeLink.wr.wr.noteOffset h.setTimeLink.wr.wr
  · exact .ite h.setTimeLink.wr.wr.wr.wr h.setTimeLink.wr.wr

theorem State.Inv.learnSwitch {w rx} (h : s.Inv) : (s.learnSwitch w rx).Inv := by
  unfold State.learnSwitch
  exact .ite h (.ite h.takeSwitch.bump.raise.takeFrame h.pendTb)

theorem State.Inv.noteHeld {hd} (h : s.Inv) : (s.noteHeld hd).Inv := by
  unfold State.noteHeld
  extract_lets _ s1
  have hs1 : s1.Inv := { h with }
  exact .ite hs1.bump.raise hs1

theorem State.Inv.takeGate {g} (h : s.Inv) : (s.takeGate g).Inv := by
  unfold State.takeGate
  refine .ite h ?_
  extract_lets _ s1
  have hs1 : s1.Inv := .wr { h with }
  exact .ite hs1.noteHeld hs1

theorem State.Inv.fromParent {tb sw g} (h : s.Inv) : (s.fromParent tb sw g).Inv := by
  unfold State.fromParent
  extract_lets known _ s1 s2 s3
  have hs1 : s1.Inv := .ite { h with } h.setTb
  have hs2 : s2.Inv := .ite hs1 hs1.takeFrame
  refine .takeGate ?_
  dsimp -zeta only [s3]
  split
  · exact hs2.learnSwitch
  · exact hs2

theorem State.Inv.execTimeFolioReceive {sd words rx seq} (h : s.Inv) : OutInv (execTimeFolioReceive sd words rx seq s) := by
  unfold Machine.execTimeFolioReceive
  refine .ite (.next h.passTo.setTimeLink) ?_
  extract_lets _ s1 s2
  have hs1 : s1.Inv := h.passTo.setTimeLink.selectParent
  refine .next ?_
  refine .told ?_
  refine .ite ?_ ?_
  · exact .ite hs1.timeExchange.fromParent hs1.timeExchange
  · exact .ite hs1.timeExchange hs1.timeExchange.takeGate

/-! ### Feed slots and pins (R171 to R174, R179) -/

theorem State.Inv.execFeedSlotStart {k} (h : s.Inv) : OutInv (execFeedSlotStart k s) := by
  unfold Machine.execFeedSlotStart
  exact .next (.ite h.passTo.wr h)

theorem State.Inv.execGlkEdge {t valid} (h : s.Inv) : OutInv (execGlkEdge t valid s) := by
  unfold Machine.execGlkEdge
  refine .ite (.next h) ?_
  refine .ite (.next h.bump) ?_
  extract_lets _ s1 mark n o near
  have hs1 : s1.Inv := .setSource (.passTo { h with })
  exact .next (.told (.ite hs1.noteOffset hs1))

theorem State.Inv.execGlkLoss (h : s.Inv) : OutInv (execGlkLoss s) := by
  unfold Machine.execGlkLoss
  exact .ite (.next (.told (.setSource (.raise { h with })))) (.next h)

theorem State.Inv.execPpsEdge {t valid} (h : s.Inv) : OutInv (execPpsEdge t valid s) := by
  unfold Machine.execPpsEdge
  refine .ite (.next h) ?_
  refine .ite (.next h) ?_
  extract_lets mark _ s1 s2
  have hs1 : s1.Inv := .wr (.passTo { h with })
  have hs2 : s2.Inv := .ite hs1 hs1.setSource
  exact .next (.told (.ite hs2.noteOffset hs2))

theorem State.Inv.execPpsLoss (h : s.Inv) : OutInv (execPpsLoss s) := by
  unfold Machine.execPpsLoss
  exact .ite (.next (.told (.setSource (.raise { h with })))) (.next h)

theorem State.Inv.execPpsOutPulse {sec} (h : s.Inv) : OutInv (execPpsOutPulse sec s) := by
  unfold Machine.execPpsOutPulse
  exact .next (.ite h.send h)

theorem State.Inv.execTickOutPulse {frame feed} (h : s.Inv) : OutInv (execTickOutPulse frame feed s) := by
  unfold Machine.execTickOutPulse
  exact .next (.ite h.send h)

/-! ### FWIN (R175 to R178) -/

theorem State.Inv.fwinApplied (h : s.Inv) : s.fwinApplied.Inv := by
  unfold State.fwinApplied
  exact .ite h h.inputsChanged

theorem State.Inv.execFwinEdge {t} (h : s.Inv) : OutInv (execFwinEdge t s) := by
  unfold Machine.execFwinEdge
  refine .ite (.next h) ?_
  extract_lets +onlyGivenNames n?
  clear_value n?
  cases n? with
  | some n =>
    dsimp -zeta only
    extract_lets spaced _ s1 s2 s3 o
    have hs1 : s1.Inv := .passTo { h with }
    have hs2 : s2.Inv := .ite hs1.wr hs1
    have hs3 : s3.Inv := .ite hs2 hs2.setSource
    exact .next (.told (.ite hs3.noteOffset hs3))
  | none => exact .next (.bump { h with })

theorem State.Inv.execFwinDecision (h : s.Inv) : OutInv (execFwinDecision s) := by
  unfold Machine.execFwinDecision
  refine .ite (.next h) ?_
  extract_lets n en st active came hold _ _ s1 s2
  have hs1 : s1.Inv := .of_same (h.wr (f := WTU_FWIN_STAT_STATE) (v := st)) rfl
  exact .next (.sendTimeNow (.sendTimeNow (.ite hs1 hs1.noteHeld)))

theorem State.Inv.execFwinLoss (h : s.Inv) : OutInv (execFwinLoss s) := by
  unfold Machine.execFwinLoss
  exact .ite (.next (.told (.setSource (.raise (.wr { h with }))))) (.next h)

theorem State.Inv.execFwinResume (h : s.Inv) : OutInv (execFwinResume s) := by
  unfold Machine.execFwinResume
  exact .next (.ite h.wr.setSource.told h)

theorem State.Inv.decideHeld (h : s.Inv) : s.decideHeld.Inv := by
  unfold State.decideHeld
  split
  · exact h
  · extract_lets _ s1
    have hs1 : s1.Inv := { h with }
    exact .ite hs1.bump.raise hs1

/-! ### Captures and triggers (R181, R182) -/

theorem State.Inv.execCaptureEdge {input rising t} (h : s.Inv) : OutInv (execCaptureEdge input rising t s) := by
  unfold Machine.execCaptureEdge
  refine .next ?_
  refine h.passTo.each (fun _ _ h => ?_)
  refine .ite ?_ h
  extract_lets +onlyGivenNames s1 soon
  have hs1 : s1.Inv := h.bump
  exact .ite hs1 (.raise (.wr (.wr { hs1 with })))

theorem State.Inv.execTriggerPulse {k n} (h : s.Inv) : OutInv (execTriggerPulse k n s) := by
  unfold Machine.execTriggerPulse
  exact .next (.ite h.send h)

/-! ## Machine/Health -/

/-! ### Lamps -/

theorem State.Inv.setLamp {k l} (h : s.Inv) : (s.setLamp k l).Inv := by
  unfold State.setLamp
  exact { h with lamps := ⟨h.lamps.1, h.lamps.2.1, h.lamps.2.2⟩ }

theorem State.Inv.putUser {i v} (h : s.Inv) : (s.putUser i v).Inv := by
  unfold State.putUser
  exact .ite { h with } h.setTable

theorem State.Inv.recordLamp {k st mask} (h : s.Inv) : (s.recordLamp k st mask).Inv := by
  unfold State.recordLamp
  split
  · exact h.putUser
  · exact h

/-! ### Events (R230) -/

theorem State.Inv.postHealth {d row ch code} (h : s.Inv) : (s.postHealth d row ch code).Inv := by
  unfold State.postHealth
  exact .ite (.post { h with }) h.bump.raise

/-! ### Verdicts (R219, R223, R224, R226) -/

theorem State.Inv.checkCol {d ch} (h : s.Inv) : (s.checkCol d ch).Inv := by
  unfold State.checkCol
  refine .ite ?_ ?_
  · exact .postHealth (.raise { h with lamps := ⟨h.lamps.1, List.length_set.trans h.lamps.2.1, h.lamps.2.2⟩ })
  · exact h

theorem State.Inv.lampFails {k st mask} (h : s.Inv) : (s.lampFails k st mask).Inv := by
  unfold State.lampFails
  exact .checkCol (.raise (.ite h.setLamp.recordLamp h.setLamp))

theorem State.Inv.suppress {k} (h : s.Inv) : (s.suppress k).Inv := by
  unfold State.suppress
  refine .ite ?_ ?_
  · exact h
  · exact .ite { h with lamps := ⟨h.lamps.1, h.lamps.2.1, List.length_set.trans h.lamps.2.2⟩ } h.bump

theorem State.Inv.verdict {k st} (h : s.Inv) : (s.verdict k st).Inv := by
  unfold State.verdict
  exact .postHealth (.ite h.bump.lampFails.suppress h.bump.lampFails)

theorem State.Inv.lampResult {k short fail retest} (h : s.Inv) : (s.lampResult k short fail retest).Inv := by
  unfold State.lampResult
  refine .ite ?_ ?_
  · exact .ite (.ite h.verdict h.setLamp) h.setLamp
  · exact .ite (.ite h.setLamp (.ite h.setLamp h.setLamp.recordLamp)) h

/-! ### The line slot (R205 to R208, R210, R218 to R227) -/

theorem State.Inv.addDuty {ps} (h : s.Inv) : (s.addDuty ps).Inv := by
  unfold State.addDuty
  exact { h with }

theorem State.Inv.subDone {d} (h : s.Inv) : (s.subDone d).Inv := by
  unfold State.subDone
  extract_lets +onlyGivenNames hd classes s1 s2 loops
  have hs2 : s2.Inv := by
    refine .wr ?_
    refine h.each (fun _ _ h => ?_)
    split
    · exact h.wr
    · exact h
  exact { hs2 with loops := (List.length_map _).trans (List.length_zipIdx.trans hs2.loops) }

theorem State.Inv.addHdrm {d r} (h : s.Inv) : (s.addHdrm d r).Inv := by
  unfold State.addHdrm
  exact { h with }

theorem State.Inv.lhmApply {op k} (h : s.Inv) : (s.lhmApply op k).Inv := by
  unfold State.lhmApply
  extract_lets +onlyGivenNames d
  split
  · exact h.setLamp.recordLamp
  · exact h.lampFails
  · exact { h with }
  · extract_lets m clr _ s1
    have hs1 : s1.Inv :=
      { h with lamps := ⟨List.length_set.trans h.lamps.1, List.length_set.trans h.lamps.2.1, h.lamps.2.2⟩ }
    exact .ite hs1.setDrvBank.bankWaits hs1

theorem State.Inv.slotCmd {d} (h : s.Inv) : (s.slotCmd d).Inv := by
  unfold State.slotCmd
  split
  · exact .ite (.lhmApply { h with }) h
  · exact h

theorem State.Inv.stuckFound {d row} (h : s.Inv) : (s.stuckFound d row).Inv := by
  unfold State.stuckFound
  split
  · exact .ite h.setDrvBank.raise.postHealth.bankFails h
  · exact h

theorem State.Inv.slotResults {d row busy probes ts} (h : s.Inv) : (s.slotResults d row busy probes ts).Inv := by
  unfold State.slotResults
  extract_lets s1 _ _ s2 rows _ _ s3
  have hs1 : s1.Inv := .each h fun _ _ h => h.setLamp
  have hs2 : s2.Inv := .of_same (hs1.bumpBy (f := LHM_CNT_PROBES) (n := probes.length)) rfl
  have hs3 : s3.Inv := { hs2 with lamps := ⟨List.length_set.trans hs2.lamps.1, hs2.lamps.2⟩ }
  exact .ite (.ite hs2 hs3.raise.postHealth) (.each hs2 fun _ _ h => h.lampResult)

theorem State.Inv.execLineSlotStart {d r} (h : s.Inv) : OutInv (execLineSlotStart d r s) := by
  unfold Machine.execLineSlotStart
  refine .ite (.next h) ?_
  refine .ite (.next h.slotCmd.stuckFound) ?_
  extract_lets +onlyGivenNames feed row sub s1
  have hs1 : s1.Inv := .ite h.slotCmd.stuckFound.subDone h.slotCmd.stuckFound
  refine .ite (.next hs1.setDrvBank.bump) ?_
  extract_lets _ s2 pc lit probes s3
  have hs3 : s3.Inv := hs1.setDrvBank.send.noteClip.addDuty.addHdrm
  exact .next (.ite hs3 hs3.slotResults)

/-! ### STALE, commands (R220, R228) -/

theorem State.Inv.execLampStale {d row ch} (h : s.Inv) : OutInv (execLampStale d row ch s) := by
  unfold Machine.execLampStale
  exact .next (.ite h.setLamp h)

theorem State.Inv.lhmGo {src} (h : s.Inv) : (s.lhmGo src).Inv := by
  unfold State.lhmGo
  exact .ite h.capture (.wr { h with })

theorem State.Inv.execLhmCmdDone (h : s.Inv) : OutInv (execLhmCmdDone s) := by
  unfold Machine.execLhmCmdDone
  exact .next (.ite h.wr.raise h)

/-! ### LHM's part in a tick (R218, R222, R224, R229, R236) -/

theorem State.Inv.lhmStat (h : s.Inv) : s.lhmStat.Inv := by
  unfold State.lhmStat
  exact h.each (fun _ _ h => h.wr)

theorem State.Inv.setRegions (h : s.Inv) : s.setRegions.Inv := by
  unfold State.setRegions
  exact { h with }

theorem State.Inv.lhmTick {held flip} (h : s.Inv) : (s.lhmTick held flip).Inv := by
  unfold State.lhmTick
  refine .ite h ?_
  extract_lets m supp duty _ s1 s2 _ s3
  have hsupp : supp.length = 4 := by
    cases flip with
    | some whole => exact (List.length_map _).trans h.lamps.2.2
    | none => exact h.lamps.2.2
  have hs1 : s1.Inv := { h with lamps := ⟨h.lamps.1, h.lamps.2.1, hsupp⟩ }
  have hs2 : s2.Inv := .setRegions (.each hs1 fun _ _ h => h.wr)
  exact .lhmStat { hs2 with }

/-! ### Bring-up (R220) -/

theorem State.Inv.lampLoad {d} (h : s.Inv) : (s.lampLoad d).Inv := by
  unfold State.lampLoad
  refine .each ?_ (fun _ _ h => h.setLamp)
  exact { h with lamps := ⟨h.lamps.1, h.lamps.2.1, h.lamps.2.2⟩ }

end Sys2Proof.Machine
end

