-- ==== Sys2Proof/Proofs/InvariantControl.lean ====
section
/-! SUPPORT. The invariant is kept by rails, resets, the scheduler, housekeeping, control and redundancy. -/

namespace Sys2Proof.Machine

variable {s : State}

/-! ## Machine/Rail -/

theorem State.Inv.setLoop {k x} (h : s.Inv) : (s.setLoop k x).Inv := by
  unfold State.setLoop
  exact { h with loops := List.length_set.trans h.loops }

/-! ### Outputs (R232, R233) -/

theorem State.Inv.driveOut {k u} (h : s.Inv) : (s.driveOut k u).Inv := by
  unfold State.driveOut
  exact .ite (.ite h { h with }) h.send

theorem State.Inv.putWord {k u} (h : s.Inv) : (s.putWord k u).Inv := by
  unfold State.putWord
  exact .ite h.driveOut.wr.setLoop.wr.captureInt h.driveOut.wr.setLoop.wr

/-! ### States (R237 to R239) -/

theorem State.Inv.loopState {k v} (h : s.Inv) : (s.loopState k v).Inv := by
  unfold State.loopState
  exact .ite h.wr h.wr.recWrite

theorem State.Inv.startMove {k} (h : s.Inv) : (s.startMove k).Inv := by
  unfold State.startMove
  exact h.setLoop

theorem State.Inv.enterProfile {k} (h : s.Inv) : (s.enterProfile k).Inv := by
  unfold State.enterProfile
  exact h.loopState.startMove

theorem State.Inv.enterSafe {k why} (h : s.Inv) : (s.enterSafe k why).Inv := by
  unfold State.enterSafe
  exact h.wr.loopState.bump.raise.startMove.setLoop

theorem State.Inv.enterHold {k} (h : s.Inv) : (s.enterHold k).Inv := by
  unfold State.enterHold
  exact h.loopState.bump.raise.setLoop

theorem State.Inv.enterRun {k} (h : s.Inv) : (s.enterRun k).Inv := by
  unfold State.enterRun
  extract_lets st fb x s1 s2
  have hs1 : s1.Inv := .ite h.setLoop h.setLoop.wr
  exact .ite hs1.loopState.raise hs1.loopState

/-! ### The law (R235 to R237) -/

theorem State.Inv.rampSet {k dt} (h : s.Inv) : (s.rampSet k dt).Inv := by
  unfold State.rampSet
  exact h.setLoop.wr

theorem State.Inv.setRegion {k} (h : s.Inv) : (s.setRegion k).Inv := by
  unfold State.setRegion
  exact .ite h h.setLoop.wr.raise

theorem State.Inv.law {k dt} (h : s.Inv) : (s.law k dt).Inv := by
  unfold State.law
  extract_lets +onlyGivenNames s1 r e x out slope u s2
  have hs2 : s2.Inv := h.rampSet.setRegion.putWord
  exact .ite hs2 hs2.setLoop

/-! ### Samples (R234, R239, R240) -/

theorem State.Inv.validSample {k fb dt} (h : s.Inv) : (s.validSample k fb dt).Inv := by
  unfold State.validSample
  exact .ite (.law (.ite h.wr.setLoop h.wr.setLoop.enterRun)) h.wr.setLoop

theorem State.Inv.emptySample {k dt} (h : s.Inv) : (s.emptySample k dt).Inv := by
  unfold State.emptySample
  exact .ite h.bump.setLoop.enterHold h.bump.setLoop

theorem State.Inv.sampleLoop {k dt costNs late} (h : s.Inv) : (s.sampleLoop k dt costNs late).Inv := by
  unfold State.sampleLoop
  refine .ite h ?_
  refine .ite ?_ ?_
  · extract_lets s2
    have hs2 : s2.Inv := h.wr.wr.setLoop.bump.raise
    exact .ite hs2.enterSafe hs2
  · extract_lets +onlyGivenNames lit dark s2 s3
    have hs3 : s3.Inv := .ite h.wr.wr.setLoop.enterHold h.wr.wr.setLoop
    refine .ite (.ite hs3.setLoop hs3) ?_
    split
    · exact hs3.validSample
    · exact hs3.emptySample

theorem State.Inv.execRceSample {k dt costNs late} (h : s.Inv) : OutInv (execRceSample k dt costNs late s) := by
  unfold Machine.execRceSample
  exact .next (.ite h.sampleLoop h)

theorem State.Inv.execProfileUpdate {k jerk} (h : s.Inv) : OutInv (execProfileUpdate k jerk s) := by
  unfold Machine.execProfileUpdate
  exact .ite (.next h) (.ite (.next h.putWord.setLoop.raise) (.next h.putWord.setLoop))

theorem State.Inv.execHoldLimit {k} (h : s.Inv) : OutInv (execHoldLimit k s) := by
  unfold Machine.execHoldLimit
  exact .next (.ite h.enterSafe h)

/-! ### Register hooks (R231, R238, R239) -/

theorem State.Inv.profStart {k src} (h : s.Inv) : (s.profStart k src).Inv := by
  unfold State.profStart
  exact .ite h.capture (.ite h h.loopState.startMove)

theorem State.Inv.profEnd {k} (h : s.Inv) : (s.profEnd k).Inv := by
  unfold State.profEnd
  exact .ite h.enterRun h

theorem State.Inv.resumeLoop {k} (h : s.Inv) : (s.resumeLoop k).Inv := by
  unfold State.resumeLoop
  exact .ite h.setLoop h

theorem State.Inv.loopEnChanged {k} (h : s.Inv) : (s.loopEnChanged k).Inv := by
  unfold State.loopEnChanged
  exact .ite (.ite h.enterProfile h) h.loopState.setLoop

theorem State.Inv.limChanged {k} (h : s.Inv) : (s.limChanged k).Inv := by
  unfold State.limChanged
  exact .ite h.putWord h

theorem State.Inv.execBankStart {d} (h : s.Inv) : OutInv (execBankStart d s) := by
  unfold Machine.execBankStart
  extract_lets +onlyGivenNames s1
  have hs1 : s1.Inv := h.bankStart
  refine .next ?_
  refine .ite ?_ hs1
  refine .each ?_ (fun _ _ h => .ite h.enterProfile h)
  exact { hs1 with loops := (List.length_map _).trans hs1.loops }

/-! ### PMBus and monitors (R233, R239) -/

theorem State.Inv.execPmbusWrite (h : s.Inv) : OutInv (execPmbusWrite s) := by
  unfold Machine.execPmbusWrite
  extract_lets key
  split
  · exact .next h
  · extract_lets page s1 _ s2 x
    have hs1 : s1.Inv := h.send
    exact .next (.setLoop { hs1 with })

theorem State.Inv.monFault {k} (h : s.Inv) : (s.monFault k).Inv := by
  unfold State.monFault
  exact .ite h.raise h.raise.enterSafe

theorem State.Inv.execPmbusTimeout {k} (h : s.Inv) : OutInv (execPmbusTimeout k s) := by
  unfold Machine.execPmbusTimeout
  exact .next (.ite h.setLoop.bump.raise.setLoop.monFault h.setLoop.bump.raise)

theorem State.Inv.monitor {tach k} (h : s.Inv) : (s.monitor tach k).Inv := by
  unfold State.monitor
  exact .ite h (.ite h.setLoop (.ite h.setLoop.bump.setLoop.monFault h.setLoop.bump))

/-! ## Machine/Reset -/

theorem keptOf_wf {kind : Nat} {m : Tbl 64} (h : m.wf = true) : (s.keptOf kind m).wf = true := Tbl.wf_filter _ h

theorem resetRest_wf {kind : Nat} {r kept : Tbl 64} (h : kept.wf = true) : (s.resetRest kind r kept).wf = true :=
  Tbl.wf_foldl_set _ Prod.fst Prod.snd h

theorem State.Inv.tables_any {live shadow latched committed snapd : Tbl 64} (h : s.Inv) (hl : live.wf = true) (hs : shadow.wf = true)
    (hla : latched.wf = true) (hc : committed.wf = true) (hsn : snapd.wf = true) :
    State.Inv { s with live := live, shadow := shadow, latched := latched, committed := committed, snapd := snapd } :=
  { h with live := hl, shadow := hs, latched := hla, committed := hc, snapd := hsn }

theorem State.Inv.resetRegs {kind} (h : s.Inv) : (s.resetRegs kind).Inv := by
  unfold State.resetRegs
  exact .wr (h.tables_any (resetRest_wf (keptOf_wf h.live)) (resetRest_wf (keptOf_wf h.shadow)) (resetRest_wf (keptOf_wf h.latched))
    (resetRest_wf (keptOf_wf h.committed)) (keptOf_wf h.snapd))

theorem tileReset_results : Tile.reset.results.length = 2 ∧ ∀ r ∈ Tile.reset.results, r.length = 4 := by decide

theorem State.Inv.resetEngines {por} (h : s.Inv) : (s.resetEngines por).Inv where
  live := h.live
  shadow := h.shadow
  latched := h.latched
  committed := h.committed
  snapd := h.snapd
  win := rfl
  winShadow := rfl
  winLatched := rfl
  winCommitted := rfl
  mem := rfl
  ports := rfl
  sides := h.sides
  arb := rfl
  bufs := fun _ hx => by rw [List.eq_of_mem_replicate hx]; rfl
  pend := nofun
  need := rfl
  refMask := rfl
  links := h.links
  ptp := h.ptp
  xing := rfl
  statSnap := rfl
  slots := h.slots
  keys := h.keys
  gens := h.gens
  heard := by simp [State.resetEngines, ArbSide.reset]
  banks := rfl
  lamps := ⟨rfl, rfl, rfl⟩
  cores := rfl
  sigs := by refine ⟨rfl, fun g hg => ?_⟩; simp [State.resetEngines, Tile.reset] at hg
  results := tileReset_results
  ageSlots := h.ageSlots
  loops := (List.length_map _).trans h.loops

theorem State.Inv.resetRing (h : s.Inv) : s.resetRing.Inv := by
  unfold State.resetRing
  exact { h with sides := rfl, links := rfl, ptp := rfl }

theorem State.Inv.resetPart {kind} (h : s.Inv) : (s.resetPart kind).Inv := by
  unfold State.resetPart
  exact .ite h.resetRegs.resetEngines h.resetRegs.resetEngines.resetRing

theorem State.Inv.holdReset (h : s.Inv) : s.holdReset.Inv := by
  unfold State.holdReset
  extract_lets +onlyGivenNames t
  have ht : t.Inv := h.resetPart
  clear_value t
  exact { ht with live := Tbl.wf_foldl_set _ _ _ (Tbl.wf_filter _ ht.live), snapd := Tbl.wf_filter _ h.snapd }

/-! ## Machine/Sched -/

theorem State.Inv.setTasks {x : TaskSched} (h : s.Inv) (hx : x.run.length = 7) : (s.setTasks x).Inv := { h with cores := hx }

theorem State.Inv.traceWrite {code core task qn prio time} (h : s.Inv) : (s.traceWrite code core task qn prio time).Inv := by
  unfold State.traceWrite
  exact .ite (.ite h.setWord.wr.wr h.setWord.wr) h

theorem State.Inv.traceTask {code core t qn} (h : s.Inv) : (s.traceTask code core t qn).Inv := by
  unfold State.traceTask
  exact h.traceWrite

theorem State.Inv.dispatch {c t} (h : s.Inv) : (s.dispatch c t).Inv := by
  unfold State.dispatch
  exact .traceTask (.bump (h.setTasks (List.length_set.trans h.cores)))

theorem State.Inv.migrate {c t} (h : s.Inv) : (s.migrate c t).Inv := by
  unfold State.migrate
  exact h.bump.traceTask.dispatch

theorem State.Inv.migrateDue {n} (h : s.Inv) : (State.migrateDue n s).Inv := by
  induction n generalizing s with
  | zero => exact h
  | succ n ih =>
    unfold State.migrateDue
    dsimp only
    split
    · exact ih (.migrate (.setTasks h h.cores))
    · exact h

theorem State.Inv.makeReady {t} (h : s.Inv) : (s.makeReady t).Inv := by
  unfold State.makeReady
  exact .ite h.dispatch (h.setTasks h.cores)

theorem State.Inv.coreFree {c t} (h : s.Inv) : (s.coreFree c t).Inv := by
  unfold State.coreFree
  extract_lets +onlyGivenNames x s1
  have hs1 : s1.Inv := h.setTasks (List.length_set.trans h.cores)
  split
  · exact .dispatch (hs1.setTasks hs1.cores)
  · exact hs1.traceTask

theorem State.Inv.taskClock {us} (h : s.Inv) : (s.taskClock us).Inv := by
  unfold State.taskClock
  exact h.setTasks h.cores

theorem State.Inv.wakeDelayed {n us} (h : s.Inv) : (State.wakeDelayed n s us).Inv := by
  induction n generalizing s with
  | zero => exact h
  | succ n ih =>
    unfold State.wakeDelayed
    dsimp only
    split
    · exact .ite (ih (.makeReady (.taskClock (.setTasks h h.cores)))) h
    · exact h

theorem State.Inv.taskTime {us} (h : s.Inv) : (s.taskTime us).Inv := by
  unfold State.taskTime
  exact h.wakeDelayed.taskClock.migrateDue

theorem State.Inv.taskAct {x} (h : s.Inv) : (s.taskAct x).Inv := by
  unfold State.taskAct
  split
  · exact h.makeReady
  · split
    · exact .coreFree (.traceTask (h.setTasks h.cores))
    · exact h
  · split
    · exact .makeReady (.traceTask (h.setTasks h.cores))
    · exact h
  · split
    · exact .coreFree (.traceTask (h.setTasks h.cores))
    · exact h
  · split
    · exact h.coreFree
    · exact h
  · split
    · exact .coreFree (.traceTask (h.setTasks h.cores))
    · exact h

theorem State.Inv.waitTimeout {id} (h : s.Inv) : (s.waitTimeout id).Inv := by
  unfold State.waitTimeout
  extract_lets x
  split
  · exact .raise (.makeReady (.traceTask (.bump (h.setTasks h.cores))))
  · exact h

theorem State.Inv.execTaskWakeTimeout {acts task us} (h : s.Inv) : OutInv (execTaskWakeTimeout acts task us s) := by
  unfold Machine.execTaskWakeTimeout
  exact .next (.migrateDue (.waitTimeout (.taskTime (h.each (fun _ _ h => h.taskTime.taskAct)))))

theorem State.Inv.taskLoad {us} (h : s.Inv) : (s.taskLoad us).Inv := by
  unfold State.taskLoad
  exact .setTasks (h.taskTime.each (fun _ _ h => h.wr)) h.taskTime.cores

/-! ## Machine/House -/

/-! ### Measurements (R241, R242) -/

theorem State.Inv.diodeRound {k x} (h : s.Inv) : (s.diodeRound k x).Inv := by
  unfold State.diodeRound
  refine .ite h ?_
  extract_lets ok hd b g s1 f
  have hs1 : s1.Inv := { h with }
  exact .ite (.ite hs1.wr hs1) (.ite hs1.wr.raise hs1)

/-! ### Levels and throttling (R244 to R248) -/

theorem State.Inv.showLevel (h : s.Inv) : s.showLevel.Inv := by
  unfold State.showLevel
  exact h.wr

theorem State.Inv.setLevels (h : s.Inv) : s.setLevels.Inv := by
  unfold State.setLevels
  extract_lets +onlyGivenNames t w hd hyst old thr warn new s1 s2
  have hs1 : s1.Inv := .ite h.bump.raise h
  have hs2 : s2.Inv := .ite hs1.bump.raise hs1
  exact .showLevel { hs2 with }

theorem State.Inv.throttleReq (h : s.Inv) : s.throttleReq.Inv := by
  unfold State.throttleReq
  exact h.post

theorem State.Inv.applyCap (h : s.Inv) : s.applyCap.Inv := by
  unfold State.applyCap
  extract_lets +onlyGivenNames s1
  have hs1 : s1.Inv := h.wr.wr.wr.bump
  exact .raise { hs1 with }

theorem State.Inv.throttle {was} (h : s.Inv) : (s.throttle was).Inv := by
  unfold State.throttle
  refine .ite ?_ (.ite (.wr { h with }) (.ite h.wr.wr h.wr))
  refine .ite ?_ (.ite h.wr (.ite h.applyCap h.wr))
  extract_lets _ s1
  have hs1 : s1.Inv := .throttleReq { h with }
  exact .ite hs1.applyCap hs1.wr

theorem State.Inv.execThrottleReqRepeat (h : s.Inv) : OutInv (execThrottleReqRepeat s) := by
  unfold Machine.execThrottleReqRepeat
  exact .next (.ite h.throttleReq h)

theorem State.Inv.execGraceExpire (h : s.Inv) : OutInv (execGraceExpire s) := by
  unfold Machine.execGraceExpire
  exact .next (.ite h.applyCap h)

/-! ### Thermal shutdown (R245, R250 to R252) -/

theorem State.Inv.shutMram {v} (h : s.Inv) : (s.shutMram v).Inv := by
  unfold State.shutMram
  exact .ite h.wr h

theorem State.Inv.cutRecord {v} (h : s.Inv) : (s.cutRecord v).Inv := by
  unfold State.cutRecord
  exact .ite (.shutMram { h with }) h

theorem State.Inv.absTrip (h : s.Inv) : s.absTrip.Inv := by
  unfold State.absTrip
  refine .ite ?_ h.cutRecord
  extract_lets +onlyGivenNames s2
  have hs2 : s2.Inv := h.cutRecord.takeDown.takeDown.holdReset
  clear_value s2
  exact { hs2 with }

theorem State.Inv.thermalTrip {cause k} (h : s.Inv) : (s.thermalTrip cause k).Inv := by
  unfold State.thermalTrip
  refine .ite (.ite h.absTrip h) ?_
  extract_lets fresh _ _ _ s1 s2 s3 s4 s5 s6 s7
  have hs1 : s1.Inv := { h with }
  have hs3 : s3.Inv := .ite hs1.wr.wr.wr.wr.wr.wr.wr hs1.wr.wr
  have hs4 : s4.Inv := .ite hs3.lampsOff hs3
  have hs6 : s6.Inv := .ite hs4.showLevel.bump.raise.bump.raise hs4.showLevel.bump.raise
  exact .ite hs6.post.absTrip hs6.post

theorem State.Inv.execComparatorTrip {k absolute} (h : s.Inv) : OutInv (execComparatorTrip k absolute s) := by
  unfold Machine.execComparatorTrip
  exact .next (.ite h h.thermalTrip)

theorem State.Inv.execShutdownGraceEnd (h : s.Inv) : OutInv (execShutdownGraceEnd s) := by
  unfold Machine.execShutdownGraceEnd
  refine .ite ?_ (.next h)
  extract_lets s1 _ s2
  have hs1 : s1.Inv := h.cutRecord
  exact .next (.wr (.wr { hs1 with }))

theorem State.Inv.adcShutdown {r} (h : s.Inv) : (s.adcShutdown r).Inv := by
  unfold State.adcShutdown
  refine .ite h ?_
  split
  · exact .ite h.thermalTrip h
  · exact h

theorem State.Inv.coolRound {measured} (h : s.Inv) : (s.coolRound measured).Inv := by
  unfold State.coolRound
  exact .ite { h with } h

/-! ### Rounds -/

theorem State.Inv.execHousekeepingRound {t} (h : s.Inv) : OutInv (execHousekeepingRound t s) := by
  unfold Machine.execHousekeepingRound
  extract_lets +onlyGivenNames s1
  have hs1 : s1.Inv := h.passTo.taskLoad
  clear_value s1
  exact .next { hs1 with }

theorem State.Inv.execHkRoundPublish {measured tach late} (h : s.Inv) : OutInv (execHkRoundPublish measured tach late s) := by
  unfold Machine.execHkRoundPublish
  extract_lets readings s1 ns s2 s3 was hot s4 s5 s6
  have hs1 : s1.Inv := .each h fun _ _ h => h.wr.wr
  have hs3 : s3.Inv := .each hs1.wr.wr fun _ _ h => h.diodeRound
  have hs4 : s4.Inv := by
    cases hhot : hot with
    | some e => simpa only [s4, hhot] using hs3.wr.wr.setLevels
    | none => simpa only [s4, hhot] using hs3
  have hs6 : s6.Inv := .coolRound (.adcShutdown (.ite hs4.throttle hs4))
  exact .next (.each hs6 fun _ _ h => .ite h.sampleLoop.monitor (.ite h.monitor.sampleLoop h.monitor))

/-! ### Thresholds (R243) -/

theorem State.Inv.threshWrite {src v more} (h : s.Inv) : (s.threshWrite src v more).Inv := by
  unfold State.threshWrite
  exact h.wr.wr.wr.captureAll

/-! ### Self-Trim (R253 to R255) -/

theorem State.Inv.stageTrim {key v} (h : s.Inv) : (s.stageTrim key v).Inv := by
  unfold State.stageTrim
  exact { h with }

theorem State.Inv.trimRefused (h : s.Inv) : s.trimRefused.Inv := by
  unfold State.trimRefused
  exact h.bump.raise

theorem State.Inv.execTrimCycle {r} (h : s.Inv) : OutInv (execTrimCycle r s) := by
  unfold Machine.execTrimCycle
  refine .ite (.next h) ?_
  refine .ite (.next h.bump) ?_
  refine .ite (.next h.trimRefused) ?_
  refine .ite ?_ (.ite (.next h.trimRefused) (.next (.ite h.bump.raise h.stageTrim)))
  split
  · exact .next h
  · exact .next h.trimRefused
  · exact .next (.ite h.bump.raise h.stageTrim)

theorem State.Inv.trimDataWrite {src v t} (h : s.Inv) : (s.trimDataWrite src v t).Inv := by
  unfold State.trimDataWrite
  refine .ite h ?_
  extract_lets x y key s1 _ s2
  have hs1 : s1.Inv := h.stageTrim
  have hs2 : s2.Inv := { hs1 with }
  exact .ite hs2 hs2.capture

theorem State.Inv.applyTrim {n e} (h : s.Inv) : (s.applyTrim n e).Inv := by
  unfold State.applyTrim
  extract_lets tg die idx _ s1 shown ns s2 s3
  have hs1 : s1.Inv := .ite (.ite h.wr h.wr) { h with }
  exact .raise (.ite hs1.bump.bump.wr.wr hs1.bump.bump.wr.wr.recWriteAt)

theorem State.Inv.trimTick {n held} (h : s.Inv) : (s.trimTick n held).Inv := by
  unfold State.trimTick
  refine .ite { h with } ?_
  refine .each ?_ (fun _ _ h => h.applyTrim)
  exact { h with }

theorem State.Inv.latchTemps (h : s.Inv) : s.latchTemps.Inv := by
  unfold State.latchTemps
  exact .wr (h.each (fun _ _ h => h.wr))

/-! ## Machine/Control -/

/-! ### Queues as the host drives them (R259 to R262) -/

theorem State.Inv.takeRequest (h : s.Inv) : s.takeRequest.Inv := by
  unfold State.takeRequest
  split
  · exact h.qSetHead
  · exact h

theorem State.Inv.badRequests {n} (h : s.Inv) : (State.badRequests n s).Inv := by
  induction n generalizing s with
  | zero => exact h
  | succ n ih =>
    unfold State.badRequests
    split
    · exact .ite h (ih h.takeRequest.respond)
    · exact h

theorem State.Inv.taken (h : s.Inv) : s.taken.Inv := by
  unfold State.taken
  exact h.takeRequest.badRequests

theorem State.Inv.mailbox {r cmd f} (h : s.Inv) (hf : ∀ (s : State), s.Inv → (f s ).Inv) : OutInv (s.mailbox r cmd f) := by
  unfold State.mailbox
  exact .next (.ite h.taken.respond (hf _ h.taken))

theorem State.Inv.askNode {node cmd r body} (h : s.Inv) : (s.askNode node cmd r body).Inv := by
  unfold State.askNode
  exact h.sendMessage

theorem State.Inv.noteHostQueue {q} (h : s.Inv) : (s.noteHostQueue q).Inv := by
  unfold State.noteHostQueue
  exact .ite h.raise (.ite h.raise h)

theorem State.Inv.deliver {q ws} (h : s.Inv) : (s.deliver q ws).1.Inv := by
  unfold State.deliver
  exact .fst_ite (.mk_fst h.qPush.noteHostQueue) (.mk_fst h.bump)

theorem State.Inv.proxyNak {reply ws status} (h : s.Inv) : (s.proxyNak reply ws status).Inv := by
  unfold State.proxyNak
  exact h.bump.raise.respond

theorem State.Inv.proxySend {msg} (h : s.Inv) : (s.proxySend msg).Inv := by
  unfold State.proxySend
  refine .ite ?_ ?_
  · exact .ite h.bump.deliver h.bump.deliver.proxyNak
  · exact .ite h.bump.sendMessage h.bump.sendMessage.proxyNak

theorem State.Inv.proxyDrain {n} (h : s.Inv) : (State.proxyDrain n s).Inv := by
  induction n generalizing s with
  | zero => exact h
  | succ n ih =>
    unfold State.proxyDrain
    split
    · exact ih h.qSetHead.proxySend
    · exact h

theorem State.Inv.doorbellAt {src q tail} (h : s.Inv) : (s.doorbellAt src q tail).Inv := by
  unfold State.doorbellAt
  refine .ite h.capture ?_
  extract_lets n s1
  have hs1 : s1.Inv := .ite h.qSetTail.capture h.qSetTail
  exact .ite hs1.proxyDrain hs1.badRequests

theorem State.Inv.consumeAt {src q head} (h : s.Inv) : (s.consumeAt src q head).Inv := by
  unfold State.consumeAt
  exact .ite h.capture (.ite h.qSetHead.capture h.qSetHead)

theorem State.Inv.execProxyMessageReceive {dst srcQn id body} (h : s.Inv) : OutInv (execProxyMessageReceive dst srcQn id body s) := by
  unfold Machine.execProxyMessageReceive
  exact .next (.ite (.ite h.deliver.takeRequest.respond h.deliver) h.deliver.respond)

theorem State.Inv.execEvtOverflow {q} (h : s.Inv) : OutInv (execEvtOverflow q s) := by
  unfold Machine.execEvtOverflow
  exact .ite (.next (.post { h with })) (.next h)

/-! ### Scheduler trace (R265) -/

theorem State.Inv.traceGo (h : s.Inv) : s.traceGo.Inv := by
  unfold State.traceGo
  exact h.wr

/-! ### Plain mailbox commands (Table 14-4) -/

theorem State.Inv.execInfo {r} (h : s.Inv) : OutInv (execInfo r s) := by
  unfold Machine.execInfo
  refine h.mailbox (fun _ h => ?_)
  split
  · exact h.respond
  · exact h.respond.drawn.drawn

theorem State.Inv.execEcho {r words} (h : s.Inv) : OutInv (execEcho r words s) := by
  unfold Machine.execEcho
  exact h.mailbox (fun _ h => h.respond)

theorem State.Inv.execEventMask {r mask} (h : s.Inv) : OutInv (execEventMask r mask s) := by
  unfold Machine.execEventMask
  exact h.mailbox (fun _ h => .respond { h with })

theorem State.Inv.execLedgerRead {r start} (h : s.Inv) : OutInv (execLedgerRead r start s) := by
  unfold Machine.execLedgerRead
  exact h.mailbox (fun _ h => h.respond)

/-! ### Scheduled commits (R24, R267) -/

theorem State.Inv.holdSched {r n pages} (h : s.Inv) : (s.holdSched r n pages).Inv := by
  unfold State.holdSched
  exact { h with }

theorem State.Inv.dropSched {n} (h : s.Inv) : (s.dropSched n).Inv := by
  unfold State.dropSched
  exact { h with }

theorem State.Inv.execSchedCommitArm {r frame pages} (h : s.Inv) : OutInv (execSchedCommitArm r frame pages s) := by
  unfold Machine.execSchedCommitArm
  exact h.mailbox (fun _ h => .ite h.respond h.holdSched.respond)

theorem State.Inv.lateCancel {n} (h : s.Inv) : (s.lateCancel n).Inv := by
  unfold State.lateCancel
  split
  · exact .post (h.each (fun _ _ h => .ite h.wr h))
  · exact h

theorem State.Inv.execCancelReceive {r frame} (h : s.Inv) : OutInv (execCancelReceive r frame s) := by
  unfold Machine.execCancelReceive
  exact h.mailbox (fun _ h => .ite h.lateCancel.respond h.dropSched.respond)

theorem State.Inv.settleSched (h : s.Inv) : s.settleSched.Inv := by
  unfold State.settleSched
  refine .each ?_ (fun _ _ h => h.respond)
  exact { h with }

theorem State.Inv.execSchedCommit {r frame pages nodes} (h : s.Inv) : OutInv (execSchedCommit r frame pages nodes s) := by
  unfold Machine.execSchedCommit
  refine h.mailbox (fun _ h => ?_)
  refine .ite h.respond ?_
  refine .ite (.ite h.respond h.holdSched.respond) ?_
  extract_lets +onlyGivenNames own s1 s2
  have hs2 : s2.Inv := by
    refine .each ?_ (fun _ _ h => .ite h h.askNode)
    exact .ite h.holdSched h
  exact .settleSched { hs2 with }

theorem State.Inv.execSchedArmedReceive {node} (h : s.Inv) : OutInv (execSchedArmedReceive node s) := by
  unfold Machine.execSchedArmedReceive
  extract_lets +onlyGivenNames t
  split
  · exact .next (.settleSched { h with })
  · exact .next h

theorem State.Inv.cancelNodes {r n m} (h : s.Inv) : (s.cancelNodes r n m).Inv := by
  unfold State.cancelNodes
  exact h.each (fun _ _ h => .ite h.dropSched h.askNode)

theorem State.Inv.execSchedCommitDeadline (h : s.Inv) : OutInv (execSchedCommitDeadline s) := by
  unfold Machine.execSchedCommitDeadline
  refine .next ?_
  refine .each ?_ (fun _ _ h => h.cancelNodes.respond)
  exact { h with }

theorem State.Inv.execSchedCancel {r frame nodes} (h : s.Inv) : OutInv (execSchedCancel r frame nodes s) := by
  unfold Machine.execSchedCancel
  refine h.mailbox (fun _ h => ?_)
  refine .ite (.respond (.ite h.lateCancel h)) ?_
  refine .ite h.dropSched.respond ?_
  extract_lets s1 _ s2 others
  have hs1 : s1.Inv := h.cancelNodes
  exact .respond (.drawn { hs1 with })

theorem State.Inv.schedLatch {n} (h : s.Inv) : (s.schedLatch n).Inv := by
  unfold State.schedLatch
  extract_lets +onlyGivenNames due s1
  have hs1 : s1.Inv := h.foldl (fun _ _ h => h.each (fun _ _ h => h.acceptCommit))
  exact { hs1 with }

/-! ### Policy tables (R31, R270, Table 14-6) -/

theorem State.Inv.noteClamps {ws} (h : s.Inv) : (s.noteClamps ws).Inv := by
  unfold State.noteClamps
  exact h.each (fun _ _ h => h.captureInt)

theorem State.Inv.policyCommit {n p} (h : s.Inv) : (s.policyCommit n p).Inv := by
  unfold State.policyCommit
  extract_lets ws s1 _ _ s2 pages
  have hs1 : s1.Inv := h.noteClamps.each (fun _ _ h => h.wrShadow)
  refine .each ?_ (fun _ _ h => h.acceptCommit)
  exact .ite (.wrShadow (hs1.each (fun _ _ h => h.setTable))) hs1

theorem State.Inv.policyLatch {n} (h : s.Inv) : (s.policyLatch n).Inv := by
  unfold State.policyLatch
  exact h.each (fun _ _ h => h.policyCommit)

theorem State.Inv.policyApply {p} (h : s.Inv) : (s.policyApply p).Inv := by
  unfold State.policyApply
  extract_lets +onlyGivenNames ws s1
  have hs1 : s1.Inv := h.noteClamps.each (fun _ _ h => h.wr.when (fun _ h => h.markDirty))
  exact { hs1 with }

theorem State.Inv.policyTick {n} (h : s.Inv) : (s.policyTick n).Inv := by
  unfold State.policyTick
  refine .each ?_ (fun _ _ h => h.policyApply)
  exact { h with }

theorem State.Inv.takePolicy {p} (h : s.Inv) : (s.takePolicy p).Inv := by
  unfold State.takePolicy
  exact .when (.markDirty { h with }) (fun _ h => h.dimRing)

theorem State.Inv.execPolicyLoad {r nodes p} (h : s.Inv) : OutInv (execPolicyLoad r nodes p s) := by
  unfold Machine.execPolicyLoad
  refine h.mailbox (fun _ h => ?_)
  refine .ite h.respond ?_
  extract_lets own s1 s2
  have hs1 : s1.Inv := .ite h.takePolicy h
  exact .respond (.ite (hs1.each (fun _ _ h => h.askNode)) hs1)

theorem State.Inv.execPolicyRead {r id} (h : s.Inv) : OutInv (execPolicyRead r id s) := by
  unfold Machine.execPolicyRead
  refine h.mailbox (fun _ h => ?_)
  split
  · exact h.respond
  · exact h.respond

/-! ## Machine/Redundancy -/

theorem State.Inv.arbSide_heard (h : s.Inv) (sd : Nat) : (s.arbSide sd).heard.length = 2 := by
  unfold State.arbSide
  by_cases hp : sd < s.arb.length
  · rw [List.getD_eq_getElem _ _ hp]
    exact h.heard _ (List.getElem_mem hp)
  · rw [List.getD_eq_default _ _ (Nat.le_of_not_lt hp)]
    rfl

theorem State.Inv.setArb {sd} {x : ArbSide} (h : s.Inv) (hx : x.heard.length = 2) : (s.setArb sd x).Inv :=
  { h with arb := by simp [State.setArb, h.arb], heard := fun y hy => (List.mem_or_eq_of_mem_set hy).elim (h.heard y) fun e => e ▸ hx }

/-! ### Epochs (R271 to R274) -/

theorem State.Inv.disarm (h : s.Inv) : s.disarm.Inv := by
  unfold State.disarm
  exact .ite h.wr.wr.post h

theorem State.Inv.adoptEpoch {i e issuer reason apply} (h : s.Inv) : (s.adoptEpoch i e issuer reason apply).Inv := by
  unfold State.adoptEpoch
  refine .ite h ?_
  refine .ite ?_ ?_
  · exact .disarm (.raise (.wr (.wr (h.wr.wr.wr.wr.when (fun _ h => h.markDirty)))))
  · exact .ite h.bump.raise (.ite (h.wr.wr.when (fun _ h => h.markDirty)) h)

theorem State.Inv.issueEpoch {i e reason apply} (h : s.Inv) : (s.issueEpoch i e reason apply).Inv := by
  unfold State.issueEpoch
  extract_lets node ring ws s1
  have hs1 : s1.Inv := h.adoptEpoch.bumpM.sendSides
  exact .ite hs1.sendEther hs1

theorem State.Inv.execEpochReceive {sd via words} (h : s.Inv) : OutInv (execEpochReceive sd via words s) := by
  unfold Machine.execEpochReceive
  exact .ite (.next h) (.next h.adoptEpoch)

theorem State.Inv.takeRole {sd} (h : s.Inv) : (s.takeRole sd).Inv := by
  unfold State.takeRole
  exact .ite h (.ite (.ite h h.wr.raise) (.ite (.raise (.wr (h.setArb (h.arbSide_heard _)))) h))

theorem State.Inv.arbLatch {n} (h : s.Inv) : (s.arbLatch n).Inv := by
  unfold State.arbLatch
  exact .ite (h.each (fun _ _ h => .ite h.takeRole h)) h

theorem State.Inv.applyEpoch {n i} (h : s.Inv) : (s.applyEpoch n i).Inv := by
  unfold State.applyEpoch
  refine .ite ?_ h
  extract_lets s1 _ s2
  have hs2 : s2.Inv := h.wr.wr.bump.setArb (h.wr.wr.bump.arbSide_heard _)
  exact .ite hs2.takeRole hs2

theorem State.Inv.selectStream (h : s.Inv) : s.selectStream.Inv := by
  unfold State.selectStream
  extract_lets e ok sel fb s1 s2
  have hs2 : s2.Inv := .ite h.wr.wr.wr.bump (.ite h.wr.wr.wr h.wr.wr.wr.bump)
  exact .ite hs2 hs2.raise

theorem State.Inv.arbTick {n held} (h : s.Inv) : (s.arbTick n held).Inv := by
  unfold State.arbTick
  extract_lets s1
  have hs1 : s1.Inv := .ite h (.ite h.applyEpoch.applyEpoch h.applyEpoch)
  exact .ite hs1.selectStream hs1

/-! ### Kettles (R275, R276) -/

theorem State.Inv.execKettleSend {atTick t} (h : s.Inv) : OutInv (execKettleSend atTick t s) := by
  unfold Machine.execKettleSend
  refine .ite (.next h) ?_
  refine .next ?_
  refine h.passTo.each (fun _ _ h => ?_)
  refine .ite ?_ h
  extract_lets ws s1 _ s2
  have hs1 : s1.Inv := h.when (fun _ h => h.sendFolio)
  exact .sendEther (hs1.setArb (hs1.arbSide_heard _))

theorem State.Inv.arbShow {sd t} (h : s.Inv) : (s.arbShow sd t).Inv := by
  unfold State.arbShow
  extract_lets x miss last s1 s2
  have hs2 : s2.Inv := h.wr.wr.wr.wr
  cases last with
  | some a => exact hs2.wr
  | none => exact hs2

theorem State.Inv.answerHeld {f ans} (h : s.Inv) (hans : ∀ (s : State) a0 a1, s.Inv → (ans s a0 a1).Inv) : (s.answerHeld f ans).Inv := by
  unfold State.answerHeld
  refine .each ?_ (fun _ _ h => hans _ _ _ h)
  exact h.setArb (h.arbSide_heard _)

theorem State.Inv.refuseEpoch {r} (h : s.Inv) : (s.refuseEpoch r).Inv := by
  unfold State.refuseEpoch
  exact h.bump.respond

theorem State.Inv.tileKettle {node e arbiter missUs t} (h : s.Inv) : (s.tileKettle node e arbiter missUs t).Inv := by
  unfold State.tileKettle
  exact .adoptEpoch (.answerHeld (.wr (h.setArb (List.length_set.trans (h.arbSide_heard _)))) (fun _ _ _ h => h.refuseEpoch))

theorem State.Inv.peerKettle {sd ether node e st ready t} (h : s.Inv) : (s.peerKettle sd ether node e st ready t).Inv := by
  unfold State.peerKettle
  extract_lets x miss prev other active good reh y s1 s2
  have hy : y.heard.length = 2 := by
    cases ether with
    | true => exact h.arbSide_heard sd
    | false => exact h.arbSide_heard sd
  have hs1 : s1.Inv := .arbShow (.wr (.setArb h hy))
  exact .ite hs1.adoptEpoch.wr.raise hs1.adoptEpoch

theorem State.Inv.execKettleReceive {sd via node words t} (h : s.Inv) : OutInv (execKettleReceive sd via node words t s) := by
  unfold Machine.execKettleReceive
  exact .ite (.next h) (.ite (.ite (.next h) (.next h.peerKettle)) (.ite (.next h.tileKettle) (.next h)))

/-! ### Start of a sender (R277) -/

theorem State.Inv.execSenderStartEnd {sd t} (h : s.Inv) : OutInv (execSenderStartEnd sd t s) := by
  unfold Machine.execSenderStartEnd
  exact .ite (.next (.ite h.wr.raise h.wr.raise)) (.next h)

/-! ### Failover (R280 to R282) -/

theorem State.Inv.askEpoch {sd t} (h : s.Inv) : (s.askEpoch sd t).Inv := by
  unfold State.askEpoch
  extract_lets arb id _ s1
  have hs1 : s1.Inv := .bump (h.setArb (h.arbSide_heard _))
  exact .ite hs1.sendMessageOn hs1

theorem State.Inv.execPeerLost {sd t} (h : s.Inv) : OutInv (execPeerLost sd t s) := by
  unfold Machine.execPeerLost
  exact .ite (.next h.arbShow.raise.wr.askEpoch) (.next h)

theorem State.Inv.execEpochReqRetry {sd t} (h : s.Inv) : OutInv (execEpochReqRetry sd t s) := by
  unfold Machine.execEpochReqRetry
  exact .next (.ite h.arbShow.askEpoch h)

theorem State.Inv.execEpochReqResponse {sd granted epoch id t} (h : s.Inv) : OutInv (execEpochReqResponse sd granted epoch id t s) := by
  unfold Machine.execEpochReqResponse
  refine .ite (.next h) ?_
  extract_lets x s1
  have hs1 : s1.Inv := .arbShow (h.setArb (h.arbSide_heard _))
  exact .ite (.next hs1.bump) (.ite (.next hs1.adoptEpoch) (.next hs1.bump.raise))

theorem State.Inv.grantEpoch {r e} (h : s.Inv) : (s.grantEpoch r e).Inv := by
  unfold State.grantEpoch
  exact .ite h.respond (.ite h.refuseEpoch h.issueEpoch.respond)

theorem State.Inv.execEpochReq {r epoch t} (h : s.Inv) : OutInv (execEpochReq r epoch t s) := by
  unfold Machine.execEpochReq
  refine h.mailbox (fun _ h => ?_)
  refine .ite h.respond ?_
  refine .ite ?_ ?_
  · exact h.bump.refuseEpoch
  · exact .ite h.bump.grantEpoch (.ite h.bump.grantEpoch (h.bump.setArb (h.bump.arbSide_heard _)))

theorem State.Inv.execArbiterHoldExpire {t} (h : s.Inv) : OutInv (execArbiterHoldExpire t s) := by
  unfold Machine.execArbiterHoldExpire
  exact .next (h.answerHeld (fun _ _ _ h => h.grantEpoch))

theorem State.Inv.execTakeover {sd t} (h : s.Inv) : OutInv (execTakeover sd t s) := by
  unfold Machine.execTakeover
  exact .ite (.next h.arbShow.issueEpoch.bumpM.raise) (.next h)

/-! ### Swaps (R283) and TAKE -/

theorem State.Inv.doSwap {sd reason apply} (h : s.Inv) : (s.doSwap sd reason apply).Inv := by
  unfold State.doSwap
  exact h.issueEpoch.bumpM

theorem State.Inv.execSwap {r side apply t} (h : s.Inv) : OutInv (execSwap r side apply t s) := by
  unfold Machine.execSwap
  exact h.mailbox (fun _ h => .ite h.arbShow.respond (.ite h.respond h.doSwap.respond))

theorem State.Inv.swapGo {src side t} (h : s.Inv) : (s.swapGo src side t).Inv := by
  unfold State.swapGo
  exact .ite h.capture h.doSwap

theorem State.Inv.execTake {r side} (h : s.Inv) : OutInv (execTake r side s) := by
  unfold Machine.execTake
  exact h.mailbox (fun _ h => .ite h.issueEpoch.respond h.respond)

theorem State.Inv.swapTake {src side} (h : s.Inv) : (s.swapTake src side).Inv := by
  unfold State.swapTake
  exact .ite h.issueEpoch h.capture

theorem State.Inv.execArbStatus {r side} (h : s.Inv) : OutInv (execArbStatus r side s) := by
  unfold Machine.execArbStatus
  exact h.mailbox (fun _ h => h.respond)

/-! ### Rehearsal (R285) -/

theorem State.Inv.rehEnd {sd result t} (h : s.Inv) : (s.rehEnd sd result t).Inv := by
  unfold State.rehEnd
  extract_lets x s1
  have hs1 : s1.Inv := .wrM (.wrM (h.setArb (h.arbSide_heard _)))
  split
  · exact hs1.respond
  · exact hs1

theorem State.Inv.rehStart {sd req t} (h : s.Inv) : (s.rehStart sd req t).Inv := by
  unfold State.rehStart
  extract_lets x s1
  have hs1 : s1.Inv := h.setArb (h.arbSide_heard _)
  exact .ite hs1.doSwap hs1.rehEnd

theorem State.Inv.execRehearse {r side t} (h : s.Inv) : OutInv (execRehearse r side t s) := by
  unfold Machine.execRehearse
  exact h.mailbox (fun _ h => .ite h.respond (.ite h.rehStart h.respond))

theorem State.Inv.rehGo {src side t} (h : s.Inv) : (s.rehGo src side t).Inv := by
  unfold State.rehGo
  exact .ite h.capture h.rehStart

theorem State.Inv.execRehearsalStart {sd t} (h : s.Inv) : OutInv (execRehearsalStart sd t s) := by
  unfold Machine.execRehearsalStart
  exact .next (.ite h.rehStart h)

theorem State.Inv.execRehearsalFail {sd result t} (h : s.Inv) : OutInv (execRehearsalFail sd result t s) := by
  unfold Machine.execRehearsalFail
  exact .ite (.next h.issueEpoch.rehEnd.raise.bumpM) (.next h)

theorem State.Inv.execRehearsalHoldEnd {sd t} (h : s.Inv) : OutInv (execRehearsalHoldEnd sd t s) := by
  unfold Machine.execRehearsalHoldEnd
  split
  · exact .next (.ite h.rehEnd.raise h)
  · exact .next (.ite h.doSwap h)

end Sys2Proof.Machine
end

