-- ==== Sys2Proof/Proofs/InvariantStart.lean ====
section
/-! SUPPORT. The invariant is kept by starts, updates and the recorder. -/

namespace Sys2Proof.Machine

variable {s : State}

/-! ## Machine/Start -/

/-! ### The boot ledger (R295) -/

theorem State.Inv.ledger_any {t : Tbl 72} (h : s.Inv) : State.Inv { s with nvs := { s.nvs with ledger := t } } := { h with }

theorem State.Inv.ledgerPut {startNo step path fin result tUs detail} (h : s.Inv) :
    (s.ledgerPut startNo step path fin result tUs detail).Inv := by
  unfold State.ledgerPut
  extract_lets p w _ s1 s2
  have hs2 : s2.Inv := .bump (.wr h.ledger_any)
  exact .ite hs2.wr hs2

theorem State.Inv.stepRecord {k path fin result tUs detail} (h : s.Inv) : (s.stepRecord k path fin result tUs detail).Inv := by
  unfold State.stepRecord
  exact .ite h h.ledgerPut

theorem State.Inv.countFail {k p} (h : s.Inv) : (s.countFail k p).Inv := by
  unfold State.countFail
  exact { h with }

/-! ### Update events and fallback requests (R310, R317) -/

theorem State.Inv.updPost {kind missing pass reason act cid other} (h : s.Inv) :
    (s.updPost kind missing pass reason act cid other).Inv := by
  unfold State.updPost
  exact h.post

theorem State.Inv.fallbackReq (h : s.Inv) : s.fallbackReq.Inv := by
  unfold State.fallbackReq
  exact h.updPost

theorem State.Inv.askFallback {why} (h : s.Inv) : (s.askFallback why).Inv := by
  unfold State.askFallback
  exact .ite (.fallbackReq { h with }) h

/-! ### Lamps and saves at a reset or state change -/

theorem State.Inv.leaveLit (h : s.Inv) : s.leaveLit.Inv := by
  unfold State.leaveLit
  exact .ite h.lampsOff.wr.wr.wr h

theorem State.Inv.saveAll (h : s.Inv) : s.saveAll.Inv := by
  unfold State.saveAll
  extract_lets _ s1 s2
  have hs2 : s2.Inv := by
    refine .each ?_ (fun _ _ h => h.queueOp)
    exact { h with }
  exact .ite hs2.queueOp hs2

theorem State.Inv.requestSoft {kind} (h : s.Inv) : (s.requestSoft kind).Inv := by
  unfold State.requestSoft
  exact .saveAll { h with }

/-! ### The walk at a node (R14, R141 to R143) -/

theorem State.Inv.execEnumReceive {sd words hops} (h : s.Inv) : OutInv (execEnumReceive sd words hops s) := by
  unfold Machine.execEnumReceive
  refine .ite (.next h) ?_
  refine .ite ?_ ?_
  · refine .ite (.next (.when (h.wrTopo.wrTopo.when (fun _ h => h.wr.wr.tileReach)) (fun _ h => h.sendFolio))) ?_
    refine .ite ?_ (.next (.when
      (.when (h.wrTopo.wrTopo.when (fun _ h => h.wr.wr.tileReach.when (fun _ h => h.raise))) (fun _ h => h.sendFolio)) (fun _ h => h.post)))
    refine .ite (.next (.post (.when (.leaveLit (h.wrTopo.wrTopo.when (fun _ h => h.markDirty))) (fun _ h => h.sendFolio)))) ?_
    refine .next ?_
    refine .post ?_
    refine .when ?_ (fun _ h => h.sendFolio)
    extract_lets +onlyGivenNames src
    have hsrc : src.Inv := .wr (.wr (.wrTopo (h.wrTopo.wrTopo.wrTopo.when (fun _ h => h.markDirty))))
    exact { hsrc with }
  · refine .ite ?_ (.next h)
    refine .ite ?_ (.ite (.next h.wr.wr) (.next h))
    extract_lets +onlyGivenNames m s1 s2
    have hs2 : s2.Inv := .sendFolio (h.wr.wr.when (fun _ h => h.raise))
    exact .next { hs2 with }

/-! ### Start steps (R288 to R292) -/

theorem State.Inv.loadSettings {g} (h : s.Inv) : (s.loadSettings g).Inv := by
  unfold State.loadSettings
  exact h.each (fun _ _ h => h.wrAll)

theorem State.Inv.settingsTake (h : s.Inv) : s.settingsTake.Inv := by
  unfold State.settingsTake
  extract_lets s0 s1 s2 s3
  have hs2 : s2.Inv := by
    refine .each ?_ (fun _ _ h => .ite h.loopEnChanged h)
    exact .ite h.startSide.startSide (h.startSide.startSide.each (fun _ _ h => h.ingModeChanged))
  have hs3 : s3.Inv := .ite hs2.updNeed hs2
  exact .ite hs3 hs3.setTb.takeFrame.evalSrc

theorem State.Inv.work9 {w} (h : s.Inv) : (s.work9 w).Inv := by
  unfold State.work9
  extract_lets p s1 _ s2 s3
  have hs1 : s1.Inv := by
    dsimp -zeta only [s1]
    split
    · exact h.loadSettings
    · exact h
  refine .settingsTake ?_
  refine .wr ?_
  refine .foldl ?_ (fun _ _ h => .ite h.wr h)
  exact .ite { hs1 with } hs1

theorem State.Inv.work2 {w} (h : s.Inv) : (s.work2 w).Inv := by
  unfold State.work2
  exact { h with }

theorem State.Inv.showHeader (h : s.Inv) : s.showHeader.Inv := by
  unfold State.showHeader
  exact h.wr.wr.wr

theorem State.Inv.work3 (h : s.Inv) : s.work3.Inv := by
  unfold State.work3
  extract_lets +onlyGivenNames s1
  have hs1 : s1.Inv := h.bumpBy
  exact .showHeader { hs1 with }

theorem State.Inv.work4 {w} (h : s.Inv) : (s.work4 w).Inv := by
  unfold State.work4
  extract_lets p slot img _ s1 s2
  have hs1 : s1.Inv := { h with }
  have hs2 : s2.Inv := .wr (.ite hs1 hs1.wr)
  exact .ite hs2.askFallback hs2

theorem State.Inv.work6 {w} (h : s.Inv) : (s.work6 w).Inv := by
  unfold State.work6
  extract_lets s1
  have hs1 : s1.Inv := h.each (fun _ _ h => .ite h.wr.wr.wr h.wr.wr.wr.wr)
  exact .ite hs1.wr hs1

theorem State.Inv.noteBist {fail} (h : s.Inv) : (s.noteBist fail).Inv := by
  unfold State.noteBist
  extract_lets +onlyGivenNames s1
  have hs1 : s1.Inv := h.wr.wr
  exact { hs1 with }

theorem State.Inv.work8 {fail} (h : s.Inv) : (s.work8 fail).Inv := by
  unfold State.work8
  extract_lets l m s1 s2 newIn _ s3
  have hs2 : s2.Inv := by
    dsimp -zeta only [s2]
    split
    · exact h.wr.wr.wr
    · exact h.wr.wr
  have hs3 : s3.Inv := { hs2 with }
  exact .ite hs3.raise hs3

theorem State.Inv.loadAging (h : s.Inv) : s.loadAging.Inv := by
  unfold State.loadAging
  split
  · exact .wr (h.each (fun _ _ h => h.setPix))
  · exact h.wr.raise

theorem State.Inv.plan_any {p : Tbl 64} (h : s.Inv) : State.Inv { s with scan := { s.scan with plan := p } } := { h with }

theorem State.Inv.loadLamps (h : s.Inv) : s.loadLamps.Inv := by
  unfold State.loadLamps
  exact .plan_any (.each h.plan_any fun _ _ h => .ite h.lampLoad h)

theorem State.Inv.work14 {w} (h : s.Inv) : (s.work14 w).Inv := by
  unfold State.work14
  extract_lets p s1 _ s2 t u s3
  have hs1 : s1.Inv := .each h fun _ _ h => .each h fun _ _ h => h.setWord
  have hs2 : s2.Inv := .wr { hs1 with }
  have ht : t.Inv := .each hs2 fun _ _ h => h.setPix
  have hu : u.Inv := by
    dsimp -zeta only [u]
    split
    · exact .each ht fun _ _ h => h.setPix
    · exact ht
  have hs3 : s3.Inv := .ite hu.loadAging.loadLamps hs2
  exact .ite (.foldl hs3 fun _ _ h => h.takePolicy) hs3

theorem State.Inv.stepWork {k w} (h : s.Inv) : (s.stepWork k w).Inv := by
  unfold State.stepWork
  refine .ite h.work2 ?_
  refine .ite h.work3 ?_
  refine .ite h.work4 ?_
  refine .ite ?_ ?_
  · exact h.work6
  · exact .ite h.work8 (.ite h.work9 (.ite h.wr.wr (.ite (.ite { h with } h) (.ite h.work14 h))))

theorem State.Inv.safeReset {code} (h : s.Inv) : (s.safeReset code).Inv := by
  unfold State.safeReset
  extract_lets +onlyGivenNames s1 s2
  have hs2 : s2.Inv := h.leaveLit.each (fun _ _ h => .ite h.takeDown h)
  clear_value s2
  exact .send (.wr { hs2 with })

theorem State.Inv.stepLost {k detail} (h : s.Inv) : (s.stepLost k detail).Inv := by
  unfold State.stepLost
  refine .ite h.work6.wr ?_
  refine .ite ?_ ?_
  · exact h.wr.raise.settingsTake
  · exact .ite h.wr.raise (.ite (.raise (.ite h.wr.wr.wr h.wr)) (.ite h.wr (.ite h.wr h)))

theorem State.Inv.stepBegin {k p tUs} (h : s.Inv) : (s.stepBegin k p tUs).Inv := by
  unfold State.stepBegin
  extract_lets +onlyGivenNames s1 _ s2
  have hs1 : s1.Inv := h.wr.stepRecord
  have hs2 : s2.Inv := { hs1 with }
  exact .ite hs2 (.ite hs2.wr.raise hs2.wr)

theorem State.Inv.stepsFrom {tUs n k} (h : s.Inv) : (State.stepsFrom tUs n k s).Inv := by
  induction n generalizing s k with
  | zero => exact h
  | succ n ih =>
    unfold State.stepsFrom
    split
    · exact ih { h.wr.stepRecord.stepRecord with gens := h.gens, ageSlots := h.ageSlots }
    · split
      · exact .ite h.wr.safeReset (ih h.wr.stepLost)
      · extract_lets s1 s2
        have hs2 : s2.Inv := .ite h.stepBegin.stepRecord h.stepBegin
        exact .ite (ih { hs2.stepRecord with }) hs2

theorem State.Inv.nextStep {k tUs} (h : s.Inv) : (s.nextStep k tUs).Inv := by
  unfold State.nextStep
  exact h.stepsFrom

theorem State.Inv.stepDone {k p e w} (h : s.Inv) : (s.stepDone k p e w).Inv := by
  unfold State.stepDone
  extract_lets s1 _ s2
  have hs1 : s1.Inv := h.stepRecord
  exact .nextStep (.stepWork { hs1 with })

theorem State.Inv.stepFail {k p result e} (h : s.Inv) : (s.stepFail k p result e).Inv := by
  unfold State.stepFail
  extract_lets +onlyGivenNames s1 _ s2
  have hs1 : s1.Inv := h.stepRecord
  have hs2 : s2.Inv := .countFail { hs1 with }
  exact .ite hs2.askFallback (.ite { hs2 with } (.ite hs2.safeReset hs2.stepLost.nextStep))

/-! ### The end of a start, and its beginning -/

theorem State.Inv.enterStandby {n} (h : s.Inv) : (s.enterStandby n).Inv := by
  unfold State.enterStandby
  exact h.wr.wr.each (fun _ _ h => h.wr.wr)

theorem State.Inv.startDone {e} (h : s.Inv) : (s.startDone e).Inv := by
  unfold State.startDone
  extract_lets +onlyGivenNames kind s1 _ s2 dark target st _ sw s3 s4 s5
  have hs1 : s1.Inv := h.stepRecord.wr
  have hs2 : s2.Inv := { hs1 with }
  have hsw : sw.Inv := { hs2 with }
  have hs3 : s3.Inv := .ite hsw.enterStandby hsw.wr.wr
  have hs5 : s5.Inv := .ite hs3.raise.raise hs3.raise
  exact .ite (.ite hs5.wr.wr.raise.updPost hs5.wr.wr) (.ite hs5.wr.wr.raise hs5)

theorem State.Inv.countReset {kind} (h : s.Inv) : (s.countReset kind).Inv := by
  unfold State.countReset
  exact .ite h.wr.bump h.wr.bump

theorem State.Inv.startFrom {kind} (h : s.Inv) : (s.startFrom kind).Inv := by
  unfold State.startFrom
  extract_lets +onlyGivenNames n open1 _ s1 s2 s3 s4 s5 t0 s6
  have hs1 : s1.Inv := .countReset { h with }
  have hs3 : s3.Inv := .each hs1.wr.wr.wr.wr.wr.wr fun _ _ h => h.wr.wr.wr
  have hs5 : s5.Inv := .ite hs3.wr.wr hs3.wr
  have hs6 : s6.Inv := hs5.drawn.stepRecord
  clear_value open1
  extract_lets s7 s8
  have hs7 : s7.Inv := by
    cases open1 with
    | some e => exact .ite (.ite hs6 hs6.ledgerPut) (.countFail (.ite hs6 hs6.ledgerPut))
    | none => exact hs6
  exact .ite hs3.safeReset (.stepsFrom (.ite hs7.askFallback hs7))

theorem State.Inv.restart {kind} (h : s.Inv) : (s.restart kind).Inv := by
  unfold State.restart
  extract_lets +onlyGivenNames s1
  have hs1 : s1.Inv := h.leaveLit.resetPart
  exact .startFrom { hs1 with }

/-! ### Resets (R1, R296 to R299) -/

theorem State.Inv.execPor {role bootsel} (h : s.Inv) : OutInv (execPor role bootsel s) := by
  unfold Machine.execPor
  extract_lets +onlyGivenNames s1 s2
  have hs2 : s2.Inv := h.resetPart.wr.wr.wr
  clear_value s2
  exact .next (.startFrom { hs2 with })

theorem State.Inv.execBrownOut (h : s.Inv) : OutInv (execBrownOut s) := by
  unfold Machine.execBrownOut
  exact .next (.ite h h.restart)

theorem State.Inv.railPin {active} (h : s.Inv) : (s.railPin active).Inv := by
  unfold State.railPin
  exact h.send

theorem State.Inv.execResetN (h : s.Inv) : OutInv (execResetN s) := by
  unfold Machine.execResetN
  exact .next (.ite h (.ite h.railPin.restart h.restart))

theorem State.Inv.execWatchdogExpire (h : s.Inv) : OutInv (execWatchdogExpire s) := by
  unfold Machine.execWatchdogExpire
  exact .next (.ite h h.bump.restart)

theorem State.Inv.execStepTimeout {e} (h : s.Inv) : OutInv (execStepTimeout e s) := by
  unfold Machine.execStepTimeout
  split
  · refine .ite (.next h) ?_
    refine .ite ?_ (.next h.stepFail)
    extract_lets +onlyGivenNames s1
    have hs1 : s1.Inv := h.stepRecord
    exact .next (.nextStep { hs1 with })
  · exact .next h

theorem State.Inv.execStartStepEnd {e w} (h : s.Inv) : OutInv (execStartStepEnd e w s) := by
  unfold Machine.execStartStepEnd
  split
  · extract_lets s1
    have hs1 : s1.Inv := .ite h.noteBist h
    exact .ite (.next (.ite hs1.startDone hs1)) (.ite (.next hs1.stepDone) (.next hs1.stepFail))
  · exact .next h

theorem State.Inv.execStepRestart (h : s.Inv) : OutInv (execStepRestart s) := by
  unfold Machine.execStepRestart
  exact .next (.ite h.restart h)

theorem State.Inv.execStartDone {e} (h : s.Inv) : OutInv (execStartDone e s) := by
  unfold Machine.execStartDone
  exact .next (.ite h.startDone h)

theorem State.Inv.execSoftReset {src key} (h : s.Inv) : OutInv (execSoftReset src key s) := by
  unfold Machine.execSoftReset
  exact .next (.ite h (.ite h.capture h.requestSoft))

theorem State.Inv.execSoftResetApply (h : s.Inv) : OutInv (execSoftResetApply s) := by
  unfold Machine.execSoftResetApply
  split
  · exact .next (.ite h.restart h)
  · exact .next h

theorem State.Inv.execPathClr {_src} (h : s.Inv) : OutInv (execPathClr _src s) := by
  unfold Machine.execPathClr
  exact .next (.ite h { h with })

theorem State.Inv.execThermalRecovery (h : s.Inv) : OutInv (execThermalRecovery s) := by
  unfold Machine.execThermalRecovery
  refine .ite ?_ (.next h)
  extract_lets s1 _ _ s2
  have hs1 : s1.Inv := h.resetPart
  clear_value s1
  exact .next (.startFrom (.showLevel { hs1 with }))

/-! ### Clocks, rails and the PCI Express pins (R334) -/

theorem State.Inv.execQrefclkLoss (h : s.Inv) : OutInv (execQrefclkLoss s) := by
  unfold Machine.execQrefclkLoss
  refine .ite (.next h) ?_
  extract_lets +onlyGivenNames s1
  have hs1 : s1.Inv := h.leaveLit.resetPart
  clear_value s1
  exact .next (.wr { hs1 with })

theorem State.Inv.execQrefclkReturn (h : s.Inv) : OutInv (execQrefclkReturn s) := by
  unfold Machine.execQrefclkReturn
  exact .next (.ite (.startFrom { h with }) h)

theorem State.Inv.endpointReset (h : s.Inv) : s.endpointReset.Inv := by
  unfold State.endpointReset
  exact { h with }

theorem State.Inv.execPcieRefclkLoss (h : s.Inv) : OutInv (execPcieRefclkLoss s) := by
  unfold Machine.execPcieRefclkLoss
  refine .next ?_
  extract_lets +onlyGivenNames src
  have hsrc : src.Inv := h.endpointReset
  exact { hsrc with }

theorem State.Inv.execPcieRefclkReturn (h : s.Inv) : OutInv (execPcieRefclkReturn s) := by
  unfold Machine.execPcieRefclkReturn
  exact .next { h with }

theorem State.Inv.execPerst (h : s.Inv) : OutInv (execPerst s) := by
  unfold Machine.execPerst
  refine .next ?_
  extract_lets +onlyGivenNames src
  have hsrc : src.Inv := h.endpointReset
  exact { hsrc with }

theorem State.Inv.execVlfLoss {d} (h : s.Inv) : OutInv (execVlfLoss d s) := by
  unfold Machine.execVlfLoss
  exact .next (.ite h.wr.bankFails h)

theorem State.Inv.execXin32Loss (h : s.Inv) : OutInv (execXin32Loss s) := by
  unfold Machine.execXin32Loss
  exact .next h

/-! ### SLEEP and wake (R298, R299) -/

theorem State.Inv.execSleepEntry (h : s.Inv) : OutInv (execSleepEntry s) := by
  unfold Machine.execSleepEntry
  split
  · exact .ite (.next h.railPin.resetPart.wr.wr) (.next h)
  · exact .next h

theorem State.Inv.execWake {w} (h : s.Inv) : OutInv (execWake w s) := by
  unfold Machine.execWake
  exact .next (.ite h.railPin.restart.wr.raise h)

/-! ### Power states (R298) -/

theorem State.Inv.powerAnswer {p n} (h : s.Inv) : (s.powerAnswer p n).Inv := by
  unfold State.powerAnswer
  split
  · exact h.respond
  · exact h

theorem State.Inv.litRefused {why} (h : s.Inv) : (s.litRefused why).Inv := by
  unfold State.litRefused
  exact h.post

theorem State.Inv.execPower {r state} (h : s.Inv) : OutInv (execPower r state s) := by
  unfold Machine.execPower
  refine h.mailbox (fun _ h => ?_)
  split
  · refine .respond ?_
    split
    · exact h.litRefused
    · exact h
  · extract_lets n s1 _ s2
    have hs1 : s1.Inv := by
      dsimp -zeta only [s1]
      split
      · exact h.respond
      · exact h
    have hs2 : s2.Inv := { hs1 with }
    exact .ite hs2 hs2.respond

theorem State.Inv.enterLit {n} (h : s.Inv) : (s.enterLit n).Inv := by
  unfold State.enterLit
  exact .wr (.wr (.wr { h with banks := (List.length_map _).trans h.banks }))

theorem State.Inv.powerEnter {n p} (h : s.Inv) : (s.powerEnter n p).Inv := by
  unfold State.powerEnter
  refine .ite (.ite h (.saveAll (.leaveLit { h with }))) ?_
  refine .ite (.ite (.wr (.wr { h with })) (.ite (.powerAnswer (.enterLit { h with })) { h with })) ?_
  refine .ite { h with } ?_
  refine .ite ?_ ?_
  · exact .enterStandby (.leaveLit { h with })
  · exact .ite (.wr (.leaveLit { h with })) (.wr (.wr { h with }))

theorem State.Inv.powerTick {n held} (h : s.Inv) : (s.powerTick n held).Inv := by
  unfold State.powerTick
  refine .ite h ?_
  split
  · exact .ite h.powerEnter h
  · exact .ite (.enterLit { h with }) h

/-! ### Generation saves (R301, R302) -/

theorem State.Inv.saveGo (h : s.Inv) : s.saveGo.Inv := by
  unfold State.saveGo
  exact h.each (fun _ _ h => h.queueOp)

theorem State.Inv.execGenerationSaveStart {area} (h : s.Inv) : OutInv (execGenerationSaveStart area s) := by
  unfold Machine.execGenerationSaveStart
  exact .next (.ite h.queueOp h)

theorem State.Inv.saveSettings (h : s.Inv) : s.saveSettings.Inv := by
  unfold State.saveSettings
  exact .ite { h with } (.wr (.wr { h with gens := ⟨List.length_set.trans h.gens.1, h.gens.2⟩ }))

theorem State.Inv.execGenerationSaveDone (h : s.Inv) : OutInv (execGenerationSaveDone s) := by
  unfold Machine.execGenerationSaveDone
  extract_lets +onlyGivenNames fin
  split
  · exact .next h.saveSettings.bump.popOp.raise
  · exact .next (.raise (.popOp (.bump (.wr { h with gens := ⟨h.gens.1, List.length_set.trans h.gens.2⟩ }))))
  · exact .next (.raise (.popOp (.bump { h with })))
  · exact .next h

theorem State.Inv.folioRecord (h : s.Inv) : s.folioRecord.Inv := by
  unfold State.folioRecord
  split
  · refine .ite ?_ ?_
    · extract_lets +onlyGivenNames s1
      have hs1 : s1.Inv := h.writeSlot
      exact .wr { hs1 with }
    · extract_lets +onlyGivenNames s1
      have hs1 : s1.Inv := h.writeSlot
      exact { hs1 with }
  · exact h

theorem State.Inv.execJournalRecordDone (h : s.Inv) : OutInv (execJournalRecordDone s) := by
  unfold Machine.execJournalRecordDone
  refine .ite (.next h) ?_
  extract_lets +onlyGivenNames s1
  have hs1 : s1.Inv := h.bump
  refine .ite (.next (.shutMram { hs1 with })) ?_
  extract_lets +onlyGivenNames _ s2
  have hs2 : s2.Inv := .ite hs1.folioRecord { hs1 with }
  exact .next { hs2 with }

/-! ## Machine/Update -/

/-! ### Staging (R305, R308, R309) -/

theorem State.Inv.stageRefuse {cid reason} (h : s.Inv) : (s.stageRefuse cid reason).Inv := by
  unfold State.stageRefuse
  extract_lets new s1 _ s2
  have hs1 : s1.Inv := h.wr.wr.wr.wr.bump
  have hs2 : s2.Inv := { hs1 with }
  exact .ite hs2.raise.updPost hs2

theorem State.Inv.stageBegin {c total} (h : s.Inv) : (s.stageBegin c total).Inv := by
  unfold State.stageBegin
  extract_lets +onlyGivenNames s1
  have hs1 : s1.Inv := h.wr.wr.wr.wr.wr.wr
  exact { hs1 with }

theorem State.Inv.stageConflict {x c} (h : s.Inv) : (s.stageConflict x c).Inv := by
  unfold State.stageConflict
  extract_lets s1 _ s2
  have hs1 : s1.Inv := h.wr.wr.wr.wr.bumpM
  exact .updPost (.raise { hs1 with })

theorem State.Inv.takeColophon {c total} (h : s.Inv) : (s.takeColophon c total).Inv := by
  unfold State.takeColophon
  refine .ite h.stageRefuse ?_
  refine .ite h.stageRefuse ?_
  extract_lets barred _ t
  have ht : t.Inv := { h with }
  refine .ite ht ?_
  split
  · exact .ite ht (.ite ht.stageBegin (.ite ht.bump ht.stageConflict))
  · exact ht.stageBegin

theorem State.Inv.takeFolio {cid i ws} (h : s.Inv) : (s.takeFolio cid i ws).Inv := by
  unfold State.takeFolio
  exact .ite h (.ite h { h with })

theorem State.Inv.holdColophon {cid i ws} (h : s.Inv) : (s.holdColophon cid i ws).Inv := by
  unfold State.holdColophon
  exact { h with }

theorem State.Inv.colophonHeld {cid seq total} (h : s.Inv) : (s.colophonHeld cid seq total).Inv := by
  unfold State.colophonHeld
  extract_lets _ s1
  have hs1 : s1.Inv := { h with }
  split
  · exact .ite hs1.takeColophon hs1.stageRefuse
  · exact hs1.stageRefuse

theorem State.Inv.execBundleFolioReceive {sd via words} (h : s.Inv) : OutInv (execBundleFolioReceive sd via words s) := by
  unfold Machine.execBundleFolioReceive
  refine .ite (.next h) ?_
  extract_lets s0 s1 s2 s3
  have hs0 : s0.Inv := .ite h.sendSide h
  have hs2 : s2.Inv := .ite hs0.wr.holdColophon hs0.wr
  exact .next (.takeFolio (.ite hs2.colophonHeld hs2))

theorem State.Inv.stageDone (h : s.Inv) : s.stageDone.Inv := by
  unfold State.stageDone
  exact h.wr.raise

theorem State.Inv.execPassIdle (h : s.Inv) : OutInv (execPassIdle s) := by
  unfold Machine.execPassIdle
  refine .ite (.next h) ?_
  extract_lets s1
  split
  · refine .ite (.next h.updPost) ?_
    refine .ite ?_ ?_
    · exact .next (.ite h.updPost.stageDone h.updPost.stageRefuse)
    · exact .ite (.next h.updPost.stageRefuse) (.next h.updPost)
  · exact .next h.updPost

theorem State.Inv.updClear (h : s.Inv) : s.updClear.Inv := by
  unfold State.updClear
  refine .foldl ?_ (fun _ _ h => h.wr)
  exact { h with }

/-! ### Transport (R307, Table 17-4) -/

theorem State.Inv.sendPass {b} (h : s.Inv) : (s.sendPass b).Inv := by
  unfold State.sendPass
  exact h.each (fun _ _ h => .sendEther (.when (h.when (fun _ h => h.sendSide)) (fun _ h => h.sendSide)))

theorem State.Inv.storeBundle {b} (h : s.Inv) : (s.storeBundle b).Inv := by
  unfold State.storeBundle
  extract_lets +onlyGivenNames s1 s2
  have hs2 : s2.Inv := .wr (.wr (.bumpBy (h.each (fun _ _ h => h.writeSlot))))
  exact .stageDone { hs2 with }

theorem State.Inv.execStage {r addr length sides} (h : s.Inv) : OutInv (execStage r addr length sides s) := by
  unfold Machine.execStage
  refine h.mailbox (fun _ h => ?_)
  refine .ite h.respond ?_
  split
  · exact h.stageRefuse.respond
  · refine .ite h.takeColophon.respond ?_
    extract_lets +onlyGivenNames b s2
    have hs2 : s2.Inv := h.takeColophon.storeBundle
    exact .respond (.sendPass { hs2 with })

theorem State.Inv.execBundlePassStart (h : s.Inv) : OutInv (execBundlePassStart s) := by
  unfold Machine.execBundlePassStart
  split
  · exact .ite (.next (.sendPass { h with })) (.next { h with })
  · exact .next h

theorem State.Inv.execUpdStatus {r} (h : s.Inv) : OutInv (execUpdStatus r s) := by
  unfold Machine.execUpdStatus
  exact h.mailbox (fun _ h => h.respond)

/-! ### Keys (R306) -/

theorem State.Inv.execEnroll {r slot key unitId rootKey sig} (h : s.Inv) : OutInv (execEnroll r slot key unitId rootKey sig s) := by
  unfold Machine.execEnroll
  refine h.mailbox (fun _ h => ?_)
  refine .ite h.respond ?_
  refine .ite ?_ ?_
  · exact h.respond
  · exact .respond (.raise (.bump (.wr { h with keys := ⟨List.length_set.trans h.keys.1, h.keys.2⟩ })))

theorem State.Inv.execRevoke {r slot unitId rootKey sig} (h : s.Inv) : OutInv (execRevoke r slot unitId rootKey sig s) := by
  unfold Machine.execRevoke
  refine h.mailbox (fun _ h => ?_)
  refine .ite h.respond ?_
  refine .ite ?_ ?_
  · exact h.respond
  · exact .respond (.raise (.bump (.wr { h with keys := ⟨h.keys.1, List.length_set.trans h.keys.2⟩ })))

theorem State.Inv.execPeers {r table} (h : s.Inv) : OutInv (execPeers r table s) := by
  unfold Machine.execPeers
  exact h.mailbox (fun _ h => .ite h.respond (.respond { h with }))

/-! ### Coordination (R311 to R314) -/

theorem State.Inv.tell {kind rings data} (h : s.Inv) : (s.tell kind rings data).Inv := by
  unfold State.tell
  exact h.each (fun _ _ h => h.send)

theorem State.Inv.armAt {c actNo epoch} (h : s.Inv) : (s.armAt c actNo epoch).Inv := by
  unfold State.armAt
  extract_lets +onlyGivenNames s1
  have hs1 : s1.Inv := h.wr.wr.wr.wr.wr
  exact .raise { hs1 with }

theorem State.Inv.abortSelf (h : s.Inv) : s.abortSelf.Inv := by
  unfold State.abortSelf
  exact .ite h (.raise (.bumpM (.wr (.wr { h with }))))

theorem State.Inv.abortAll {c status body} (h : s.Inv) : (s.abortAll c status body).Inv := by
  unfold State.abortAll
  extract_lets _ s1 rs s2
  have hs2 : s2.Inv := .abortSelf (.tell (.tell (.tell { h with })))
  split
  · exact hs2.respond
  · exact hs2

theorem State.Inv.execActivate {r cid frame nodeKind mask} (h : s.Inv) : OutInv (execActivate r cid frame nodeKind mask s) := by
  unfold Machine.execActivate
  exact h.mailbox (fun _ h => .ite h.respond (.ite h.respond (.ite h.respond (.ite h.respond (.tell { h with })))))

theorem State.Inv.execPrepareReceive {r cid} (h : s.Inv) : OutInv (execPrepareReceive r cid s) := by
  unfold Machine.execPrepareReceive
  extract_lets _ _ _ _ s1
  have hs1 : s1.Inv := .ite (.tell { h with }) h
  refine .next ?_
  split
  · exact hs1.wr.send
  · exact hs1.drawn.send

theorem State.Inv.commitAll {c} (h : s.Inv) : (s.commitAll c).Inv := by
  unfold State.commitAll
  refine .ite h.abortAll ?_
  extract_lets s1 s2 _ s3
  have hs2 : s2.Inv := .tell (h.each (fun _ _ h => h.send))
  have hs3 : s3.Inv := { hs2 with }
  exact .ite hs3.armAt hs3

theorem State.Inv.execPrepareVoteReceive {ring node ready reason} (h : s.Inv) :
    OutInv (execPrepareVoteReceive ring node ready reason s) := by
  unfold Machine.execPrepareVoteReceive
  split
  · refine .ite (.next h) ?_
    refine .ite (.next (.ite h.abortAll h.tell)) ?_
    extract_lets own c1 _ s1
    have hs1 : s1.Inv := { h with }
    exact .ite (.next (.ite hs1.commitAll hs1.tell)) (.next hs1)
  · exact .next h

theorem State.Inv.execPrepareTimeout (h : s.Inv) : OutInv (execPrepareTimeout s) := by
  unfold Machine.execPrepareTimeout
  split
  · exact .ite (.next h) (.next (.ite h.drawn.abortAll h.drawn.tell))
  · exact .next h

theorem State.Inv.execActCommitReceive {r m} (h : s.Inv) : OutInv (execActCommitReceive r m s) := by
  unfold Machine.execActCommitReceive
  extract_lets +onlyGivenNames n
  split
  · refine .ite ?_ (.next h)
    extract_lets s1 _ s2
    have hs1 : s1.Inv := h.each (fun _ _ h => h.send)
    have hs2 : s2.Inv := { hs1 with }
    exact .next (.ite hs2.armAt.send hs2)
  · exact .next (.ite h.armAt.send h)

theorem State.Inv.execArmDeadline {armed} (h : s.Inv) : OutInv (execArmDeadline armed s) := by
  unfold Machine.execArmDeadline
  split
  · refine .ite (.next h) ?_
    refine .ite ?_ (.next h.drawn.abortAll)
    extract_lets _ s1
    have hs1 : s1.Inv := { h with }
    refine .next ?_
    split
    · exact hs1.respond
    · exact hs1
  · exact .next h

theorem State.Inv.execAbortReceive (h : s.Inv) : OutInv (execAbortReceive s) := by
  unfold Machine.execAbortReceive
  split
  · extract_lets +onlyGivenNames t
    have ht : t.Inv := .abortSelf (.ite h h.tell)
    exact .next (.ite ht { ht with })
  · exact .next h.abortSelf

theorem State.Inv.execAbort {r actNo} (h : s.Inv) : OutInv (execAbort r actNo s) := by
  unfold Machine.execAbort
  refine h.mailbox (fun _ h => ?_)
  split
  · exact .ite h.respond (.ite h.drawn.abortAll.respond h.respond)
  · exact h.respond

theorem State.Inv.updLatch {n} (h : s.Inv) : (s.updLatch n).Inv := by
  unfold State.updLatch
  split
  · exact .ite h.abortAll h
  · exact h

/-! ### The activation tick, ACTIVATED and RELIGHT (R313, R314) -/

theorem State.Inv.switchSlot {n prob} (h : s.Inv) : (s.switchSlot n prob).Inv := by
  unfold State.switchSlot
  extract_lets s1 _ _ s2
  have hs1 : s1.Inv := h.leaveLit
  have hs2 : s2.Inv := by
    cases prob with
    | true => exact .of_same hs1 rfl
    | false => exact .of_same hs1 rfl
  exact hs2.bump.showHeader.wr.wr.requestSoft

theorem State.Inv.activationTick {n} (h : s.Inv) : (s.activationTick n).Inv := by
  unfold State.activationTick
  exact .ite h.switchSlot h

theorem State.Inv.execActivatedRepeat (h : s.Inv) : OutInv (execActivatedRepeat s) := by
  unfold Machine.execActivatedRepeat
  exact .next (.ite h.updPost h)

theorem State.Inv.relightSelf (h : s.Inv) : s.relightSelf.Inv := by
  unfold State.relightSelf
  exact { h with }

theorem State.Inv.takeOrder {f} (h : s.Inv) : (s.takeOrder f).Inv := by
  unfold State.takeOrder
  exact .relightSelf (.ite { h with } h)

theorem State.Inv.orderFallback (h : s.Inv) : s.orderFallback.Inv := by
  unfold State.orderFallback
  exact .takeOrder (.tell { h with })

theorem State.Inv.checkRings {c} (h : s.Inv) : (s.checkRings c).Inv := by
  unfold State.checkRings
  extract_lets +onlyGivenNames _ s1
  have hs1 : s1.Inv := { h with }
  exact .ite (.relightSelf (.tell { hs1 with })) hs1

theorem State.Inv.execActivatedReceive {ring node cid} (h : s.Inv) : OutInv (execActivatedReceive ring node cid s) := by
  unfold Machine.execActivatedReceive
  split
  · refine .ite (.next h) ?_
    split
    · refine .ite ?_ ?_
      · exact .next h.orderFallback
      · exact .ite (.ite (.next h.checkRings) (.next (.tell { h with }))) (.next { h with })
    · exact .next h
  · exact .next h

theorem State.Inv.execRingCompleteReceive {ring} (h : s.Inv) : OutInv (execRingCompleteReceive ring s) := by
  unfold Machine.execRingCompleteReceive
  split
  · exact .next (.ite h.checkRings h)
  · exact .next h

theorem State.Inv.execRelightReceive (h : s.Inv) : OutInv (execRelightReceive s) := by
  unfold Machine.execRelightReceive
  split
  · exact .ite (.next (.relightSelf (.tell { h with }))) (.next h.relightSelf)
  · exact .next h.relightSelf

theorem State.Inv.execRelightDeadline (h : s.Inv) : OutInv (execRelightDeadline s) := by
  unfold Machine.execRelightDeadline
  split
  · exact .next (.ite h.orderFallback h)
  · exact .next h

/-! ### Confirmation (R316) -/

theorem State.Inv.confirmSelf (h : s.Inv) : s.confirmSelf.Inv := by
  unfold State.confirmSelf
  refine .ite h ?_
  extract_lets fmt g _ _ s1 _ _ s2 s3
  have hs1 : s1.Inv := by
    dsimp -zeta only [s1]
    split
    · exact .wr { h with gens := ⟨List.length_set.trans h.gens.1, h.gens.2⟩ }
    · exact h
  have hs2 : s2.Inv := { hs1 with }
  refine .raise ?_
  refine .wr ?_
  refine .showHeader ?_
  refine .bump ?_
  dsimp -zeta only [s3]
  split
  · exact .ite hs2.wr hs2
  · exact hs2

theorem State.Inv.checkConfirm {c k} (h : s.Inv) : (s.checkConfirm c k).Inv := by
  unfold State.checkConfirm
  refine .ite ?_ { h with }
  extract_lets _ s1
  have hs1 : s1.Inv := { h with }
  split
  · exact hs1.respond
  · exact .ite hs1 hs1.tell

theorem State.Inv.startConfirm {c req} (h : s.Inv) : (s.startConfirm c req).Inv := by
  unfold State.startConfirm
  exact h.tell.confirmSelf.checkConfirm

theorem State.Inv.execConfirm {r actNo} (h : s.Inv) : OutInv (execConfirm r actNo s) := by
  unfold Machine.execConfirm
  refine h.mailbox (fun _ h => ?_)
  split
  · exact .ite h.respond (.ite h.respond h.startConfirm)
  · exact h.respond

theorem State.Inv.execAutoConfirm (h : s.Inv) : OutInv (execAutoConfirm s) := by
  unfold Machine.execAutoConfirm
  split
  · exact .next (.ite h.startConfirm h)
  · exact .next h

theorem State.Inv.execConfirmRepeat (h : s.Inv) : OutInv (execConfirmRepeat s) := by
  unfold Machine.execConfirmRepeat
  split
  · exact .next (.tell (h.each (fun _ _ h => .ite h h.send)))
  · exact .next h

theorem State.Inv.execConfirmReceive {r} (h : s.Inv) : OutInv (execConfirmReceive r s) := by
  unfold Machine.execConfirmReceive
  split
  · exact .next (.ite h.confirmSelf.send (.ite h h.startConfirm))
  · exact .next h.confirmSelf.send

theorem State.Inv.execConfirmAckReceive {ring node} (h : s.Inv) : OutInv (execConfirmAckReceive ring node s) := by
  unfold Machine.execConfirmAckReceive
  split
  · refine .next ?_
    split
    · exact h.checkConfirm
    · exact h.checkConfirm
  · exact .next h

/-! ### Fallback (R317, R318) -/

theorem State.Inv.execFallback {r actNo} (h : s.Inv) : OutInv (execFallback r actNo s) := by
  unfold Machine.execFallback
  exact h.mailbox (fun _ h => .ite h.respond (.ite h.respond h.orderFallback.respond))

theorem State.Inv.execFallbackReqReceive {_ring _node} (h : s.Inv) : OutInv (execFallbackReqReceive _ring _node s) := by
  unfold Machine.execFallbackReqReceive
  exact .next (.ite h (.ite h h.orderFallback))

theorem State.Inv.execFallbackOrderReceive {frame} (h : s.Inv) : OutInv (execFallbackOrderReceive frame s) := by
  unfold Machine.execFallbackOrderReceive
  exact .ite (.next h.orderFallback.takeOrder) (.next h.takeOrder)

theorem State.Inv.execFallbackReqRepeat (h : s.Inv) : OutInv (execFallbackReqRepeat s) := by
  unfold Machine.execFallbackReqRepeat
  exact .next (.ite h.fallbackReq h)

theorem State.Inv.execFallbackAlone (h : s.Inv) : OutInv (execFallbackAlone s) := by
  unfold Machine.execFallbackAlone
  exact .next (.ite h.bumpM.takeOrder h)

theorem State.Inv.fallbackTick {n} (h : s.Inv) : (s.fallbackTick n).Inv := by
  unfold State.fallbackTick
  split
  · exact .ite h (.ite h.bumpM.switchSlot.wr.raise { h with })
  · exact h

theorem State.Inv.updTick {n held} (h : s.Inv) : (s.updTick n held).Inv := by
  unfold State.updTick
  refine .ite h ?_
  extract_lets s1
  have hs1 : s1.Inv := h.activationTick.fallbackTick
  split
  · exact .ite hs1.orderFallback hs1
  · exact hs1

/-! ## Machine/Record -/

/-! ### Modes (R321, R325) -/

theorem State.Inv.recModeChanged {old} (h : s.Inv) : (s.recModeChanged old).Inv := by
  unfold State.recModeChanged
  refine .ite h ?_
  extract_lets _ s1 s2
  have hs1 : s1.Inv := .wr { h with }
  exact .when (.ite hs1.recWrite hs1) (fun _ h => h.clearLeafMaps)

theorem State.Inv.recTrigGo (h : s.Inv) : s.recTrigGo.Inv := by
  unfold State.recTrigGo
  exact h.trigger

theorem State.Inv.recArmGo (h : s.Inv) : s.recArmGo.Inv := by
  unfold State.recArmGo
  exact .ite (.wr { h with }) h

theorem State.Inv.execRingFreeze (h : s.Inv) : OutInv (execRingFreeze s) := by
  unfold Machine.execRingFreeze
  exact .ite (.next (.raise (.wr { h with }))) (.next h)

/-! ### The record digest and the capture (R324) -/

theorem State.Inv.execCaptureComplete (h : s.Inv) : OutInv (execCaptureComplete s) := by
  unfold Machine.execCaptureComplete
  split
  · exact .ite (.next (.raise { h with })) (.next h)
  · exact .next h

/-! ### MGMT records (R321, R327) -/

theorem State.Inv.mgmtReg {src pg off v} (h : s.Inv) : (s.mgmtReg src pg off v).Inv := by
  unfold State.mgmtReg
  exact .ite h.recWrite h

theorem State.Inv.mgmtWord {src idx v} (h : s.Inv) : (s.mgmtWord src idx v).Inv := by
  unfold State.mgmtWord
  exact .ite h.recWrite h

/-! ### Tile replay (R325, R326) -/

theorem State.Inv.replayStart (h : s.Inv) : s.replayStart.Inv := by
  unfold State.replayStart
  exact .ite (.wr { h with }) h

theorem State.Inv.replayEntry {k e} (h : s.Inv) : (s.replayEntry k e).Inv := by
  unfold State.replayEntry
  refine .ite ?_ ?_
  · exact h.setWord.setWord.bump
  · exact .ite h.setWord.setWord.bump (.ite h.setWord.setWord.bump h.setWord.setWord)

/-! ### Sender replay (R328) -/

theorem State.Inv.execReplayDone (h : s.Inv) : OutInv (execReplayDone s) := by
  unfold Machine.execReplayDone
  refine .ite ?_ (.next h)
  extract_lets +onlyGivenNames snd res s1 s2 cnt s3 s4 s5
  have hs5 : s5.Inv := .when (.when (.raise (.wr (.bumpBy (.bumpBy (.bumpBy (h.each (fun _ _ h => h.replayEntry))))))) (fun _ h => h.raise))
    (fun _ h => h.raise)
  split
  · exact .next (.respond { hs5 with })
  · exact .next hs5

/-! ### Mailbox commands (Table 18-3) -/

theorem State.Inv.execRecMode {r mode nodes} (h : s.Inv) : OutInv (execRecMode r mode nodes s) := by
  unfold Machine.execRecMode
  refine h.mailbox (fun _ h => ?_)
  extract_lets m own busy old s1 s2 mine
  have hs2 : s2.Inv := by
    refine .each ?_ (fun _ _ h => h.askNode)
    exact .ite h.wr.recModeChanged h
  exact .ite hs2.respond hs2.drawn.respond

theorem State.Inv.execRecTrigger {r frame nodes} (h : s.Inv) : OutInv (execRecTrigger r frame nodes s) := by
  unfold Machine.execRecTrigger
  refine h.mailbox (fun _ h => ?_)
  refine .ite h.respond ?_
  extract_lets own _ s1 s2 mine
  have hs2 : s2.Inv := by
    refine .each ?_ (fun _ _ h => h.askNode)
    exact .ite { h with } h
  exact .ite hs2.respond hs2.drawn.respond

theorem State.Inv.execReplay {r} (h : s.Inv) : OutInv (execReplay r s) := by
  unfold Machine.execReplay
  refine h.mailbox (fun _ h => ?_)
  refine .ite h.respond ?_
  refine .ite h.respond ?_
  extract_lets +onlyGivenNames t
  have ht : t.Inv := h.replayStart
  exact { ht with }

/-! ### Ticks and latch points -/

theorem State.Inv.recTick {n held} (h : s.Inv) : (s.recTick n held).Inv := by
  unfold State.recTick
  extract_lets +onlyGivenNames t s1 due
  have hs1 : s1.Inv := .ite h h.recWrite
  refine .each ?_ (fun _ _ h => h.trigger)
  exact { hs1 with }

theorem State.Inv.recLatch (h : s.Inv) : s.recLatch.Inv := by
  unfold State.recLatch
  exact .ite (.ite h (.recWrite { h with })) h

end Sys2Proof.Machine
end

