-- ==== Sys2Proof/Proofs/InvariantAccess.lean ====
section
/-! SUPPORT. The invariant is kept by register and window accesses, remote access, register commands and the tick. -/

namespace Sys2Proof.Machine

variable {s : State}

/-! ## Machine/Access -/

/-! ### Block resets (R28) -/

theorem State.Inv.settleReady (h : s.Inv) : s.settleReady.Inv := by
  unfold State.settleReady
  refine h.each (fun _ _ h => ?_)
  refine .ite ?_ h.wr
  extract_lets src
  have hsrc : src.Inv := h.wr.wr
  exact { hsrc with xing := Tbl.wf_filter _ h.xing }

theorem State.Inv.xing_any {t : Tbl 16} (h : s.Inv) (ht : t.wf = true) : State.Inv { s with xing := t } := { h with xing := ht }

theorem State.Inv.crossFull {pg x} (h : s.Inv) : (s.crossFull pg x).Inv := by
  unfold State.crossFull
  extract_lets s1
  have hs1 : s1.Inv := h.xing_any (Tbl.wf_set _ _ h.xing)
  exact .captureInt (.ite hs1 hs1.wr.raise)

theorem State.Inv.crossEvent {pg x} (h : s.Inv) : (s.crossEvent pg x).Inv := by
  unfold State.crossEvent
  exact .ite h (.ite h.crossFull { h with xing := Tbl.wf_set _ _ h.xing })

theorem State.Inv.blockStops {pg} (h : s.Inv) : (s.blockStops pg).Inv := by
  unfold State.blockStops
  exact .ite h.scanBlockOff (.ite h.scanBlockOff (.ite h.retrainSide (.ite h.setServo h)))

theorem State.Inv.health_any {x : Health} (h : s.Inv)
    (hx : x.cur.rows.length = 4 ∧ x.cur.cols.length = 4 ∧ x.cur.supp.length = 4) :
    State.Inv { s with health := x } := { h with lamps := hx }

theorem State.Inv.blockClears {pg} (h : s.Inv) : (s.blockClears pg).Inv := by
  unfold State.blockClears
  refine .ite { h with } ?_
  refine .ite { h with cores := rfl } ?_
  refine .ite { h with win := Tbl.wf_filter _ h.win } ?_
  refine .ite { h with slots := h.slots, keys := h.keys } ?_
  refine .ite { h with } ?_
  refine .ite { h with } ?_
  refine .ite { h with loops := (List.length_map _).trans h.loops } ?_
  refine .ite { h with links := rfl, ptp := rfl } ?_
  refine .ite { h with arb := rfl, heard := by simp [ArbSide.reset] } ?_
  refine .ite { h with } ?_
  refine .ite (.setPort h rfl) ?_
  refine .ite { h with mem := rfl } ?_
  refine .ite { h with pend := nofun } ?_
  refine .ite { h with need := rfl, refMask := rfl, statSnap := rfl } ?_
  refine .ite h.setSide ?_
  refine .ite { h with } ?_
  refine .ite (.clearLeafMaps { h with sigs := ⟨rfl, fun g hg => by simp at hg⟩, results := tileReset_results }) ?_
  refine .ite { h with } ?_
  refine .ite (h.scan_any h.banks) ?_
  exact .ite (h.health_any ⟨rfl, rfl, rfl⟩) h

theorem State.Inv.blockReset {pg} (h : s.Inv) : (s.blockReset pg).Inv := by
  unfold State.blockReset
  extract_lets s1 s2 inPage _ _ s3 retired s4
  have hs2 : s2.Inv := h.blockStops.blockClears.each (fun _ _ h => h.wrAll)
  refine .settleReady ?_
  refine .each ?_ (fun _ _ h => h.setLane)
  exact .wr (.wr (.wr { hs2 with snapd := Tbl.wf_filter _ hs2.snapd, xing := Tbl.wf_filter _ hs2.xing }))

theorem State.Inv.execBlkResetDone {page} (h : s.Inv) : OutInv (execBlkResetDone page s) := by
  unfold Machine.execBlkResetDone
  refine .ite ?_ (.next h)
  extract_lets s0 s1
  have hs1 : s1.Inv := .ite h.wr.settleReady.ingJoin (.ite h.wr.settleReady.wr h.wr.settleReady)
  exact .next (.ite (hs1.each (fun _ _ h => .ite h.loopEnChanged h)) hs1)

theorem State.Inv.execXovf {page crossing} (h : s.Inv) : OutInv (execXovf page crossing s) := by
  unfold Machine.execXovf
  exact .ite (.next h.crossFull) (.next h)

theorem State.Inv.snapDone {pg t} (h : s.Inv) : (s.snapDone pg t).Inv := by
  unfold State.snapDone
  refine .ite h ?_
  refine .ite ?_ ?_
  · exact h.passTo.wr.wr.wr.snapFinish
  · exact .ite h.layerStat.snapFinish (.ite h.arbShow.arbShow.snapFinish h.snapFinish)

/-! ### Remote access: issue (R48) -/

theorem State.Inv.raEnd {code} (h : s.Inv) : (s.raEnd code).Inv := by
  unfold State.raEnd
  exact .raise (.wr (.wr (.wr { h with })))

theorem State.Inv.raSend {node op addr data deadline} (h : s.Inv) : (s.raSend node op addr data deadline).1.Inv := by
  unfold State.raSend
  exact h.sendMessage

theorem State.Inv.raGo {src t} (h : s.Inv) : (s.raGo src t).Inv := by
  unfold State.raGo
  refine .ite h.capture ?_
  refine .ite h.raEnd ?_
  refine .ite h.raEnd ?_
  extract_lets +onlyGivenNames d r
  have hr : r.1.Inv := h.raSend
  exact .ite (.wr { hr with }) h.raEnd

/-! ### What a register write brings about beside its fields -/

theorem State.Inv.headerActs {old : State} {pg off v} (h : s.Inv) : (s.headerActs old pg off v).Inv := by
  unfold State.headerActs
  refine .ite (.when (.when (.ite h.scanBlockOff h) (fun _ h => h.settleReady)) (fun _ h => h.blockReset)) ?_
  refine .ite (h.when (fun _ h => h.msixSend)) ?_
  refine .ite (h.when (fun _ h => h.wr)) ?_
  refine .ite ?_ ?_
  · exact .ite h.doCommit (.ite h.doDiscard h)
  · exact .ite (h.when (fun _ h => h.wr)) (.ite (h.when (fun _ h => h.snapStart)) h)

theorem State.Inv.commonActs {old : State} {src pg off v t} (h : s.Inv) : (s.commonActs old src pg off v t).Inv := by
  unfold State.commonActs
  refine .ite (h.when (fun _ h => h.raGo)) ?_
  refine .ite (.when (h.when (fun _ h => h.traceStop)) (fun _ h => h.traceGo)) ?_
  refine .ite h.doorbellAt ?_
  refine .ite h.consumeAt ?_
  refine .ite (h.when (fun _ h => { h with })) ?_
  refine .ite (.ite h (.ite h.capture h.requestSoft)) ?_
  refine .ite (h.when (fun _ h => h.saveGo)) ?_
  refine .ite (h.when (fun _ h => h.updClear)) ?_
  refine .ite (.when (.ite h.loopEnChanged h) (fun _ h => h.resumeLoop)) ?_
  refine .ite h.limChanged ?_
  refine .ite (.when (h.when (fun _ h => h.profStart)) (fun _ h => h.profEnd)) ?_
  refine .ite (h.when (fun _ h => h.armTb)) ?_
  refine .ite h.inputsChanged ?_
  refine .ite { h with } ?_
  refine .ite (h.when (fun _ h => h.rehGo)) ?_
  refine .ite (.when (h.when (fun _ h => h.swapGo)) (fun _ h => h.swapTake)) ?_
  refine .ite ?_ ?_
  · exact .when (.when (h.recModeChanged.when (fun _ h => h.recTrigGo)) (fun _ h => h.recArmGo)) (fun _ h => h.replayStart)
  · exact h

theorem State.Inv.roleActs {old : State} {src pg off v} (h : s.Inv) : (s.roleActs old src pg off v).Inv := by
  unfold State.roleActs
  refine .ite (.ite h.ingModeChanged (.ite h.ingJoin (.ite (h.when (fun _ h => h.send)) h))) ?_
  refine .ite h.releaseBuffer ?_
  refine .ite (h.when (fun _ h => h.prepGo)) ?_
  refine .ite (.when (h.when (fun _ h => h.retrainSide)) (fun _ h => h.requestSwap)) ?_
  refine .ite (h.when (fun _ h => h.enumGo)) ?_
  refine .ite (h.when (fun _ h => h.clearLeafMaps.updNeed)) ?_
  refine .ite ?_ ?_
  · exact h.when (fun _ h => h.ageSave)
  · exact .ite (h.when (fun _ h => h.lampsOff.hostDark)) (.ite (h.when (fun _ h => h.lhmGo)) h)

theorem State.Inv.msixWrite {off v} (h : s.Inv) : (s.msixWrite off v).Inv := by
  unfold State.msixWrite
  refine .ite h ?_
  refine .ite ?_ { h with }
  extract_lets +onlyGivenNames open_ was bit _ s1
  have hs1 : s1.Inv := { h with }
  exact .ite (.when { hs1 with } (fun _ h => h.msixSend)) hs1

theorem State.Inv.regWrite {src pg off v half t} (h : s.Inv) : (s.regWrite src pg off v half t).Inv := by
  unfold State.regWrite
  refine .ite h.capture ?_
  refine .ite (.ite h.msixWrite.capture h.msixWrite) ?_
  refine .ite h ?_
  refine .ite h.capture ?_
  refine .ite h ?_
  refine .ite h.capture ?_
  refine .mgmtReg ?_
  refine .roleActs ?_
  refine .commonActs ?_
  refine .headerActs ?_
  refine .ite h.threshWrite ?_
  refine .ite ?_ ?_
  · extract_lets a
    have ha : a.Inv := .ite h h.capture
    exact .trimDataWrite (.ite ha.capture ha)
  · extract_lets more
    split
    · exact h.writeFields.capture
    · exact h.writeFields

/-! ### Window writes (R37, R77, R97, R185) -/

theorem State.Inv.winErr {src idx code} (h : s.Inv) : (s.winErr src idx code).Inv := by
  unfold State.winErr
  exact h.capture

theorem State.Inv.slotBusy {src idx} (h : s.Inv) : (s.slotBusy src idx).Inv := by
  unfold State.slotBusy
  exact h.winErr.raise

theorem State.Inv.coefStat {vertical k} (h : s.Inv) : (s.coefStat vertical k).Inv := by
  unfold State.coefStat
  exact h.wr

theorem State.Inv.yes (h : s.Inv) : (s.yes).1.Inv := by
  unfold State.yes
  exact .mk_fst h

theorem State.Inv.no (h : s.Inv) : (s.no).1.Inv := by
  unfold State.no
  exact .mk_fst h

theorem State.Inv.writeImp {src idx v} (h : s.Inv) : (s.writeImp src idx v).1.Inv := by
  unfold State.writeImp
  refine .fst_ite ?_ ?_
  · refine .fst_ite h.winErr.no ?_
    refine .fst_ite ?_ ?_
    · exact h.winErr.no
    · exact .fst_ite h.winErr.no (.fst_ite h.wr.setWord.yes (.fst_ite h.wr.setWord.yes h.wr.yes))
  · refine .fst_ite ?_ ?_
    · exact .yes (.wr { h with winShadow := Tbl.wf_set _ _ h.winShadow })
    · exact .fst_ite (.fst_ite h.setWord.yes h.no) h.winErr.no

/-- The state of a pair has the invariant (a name of its own, so that the kernel compares pairs without evaluating their tests). -/
def PairInv (p : State × Bool) : Prop := p.1.Inv

theorem PairInv.ite {c : Prop} [Decidable c] {x y : State × Bool} (hx : PairInv x) (hy : PairInv y) : PairInv (if c then x else y) := by
  split; exacts [hx, hy]

theorem PairInv.no (h : s.Inv) : PairInv s.no := h

theorem PairInv.yes (h : s.Inv) : PairInv s.yes := h

theorem PairInv.writeCmp {src idx v} (h : s.Inv) : PairInv (s.writeCmp src idx v) := by
  unfold State.writeCmp
  refine .ite (.ite (.no h.winErr) (.yes (.wr { h with winShadow := Tbl.wf_set _ _ h.winShadow }))) ?_
  refine .ite (.ite (.no h) (.ite (.no h.winErr) (.ite (.no h.slotBusy) (.ite (.yes ?_) (.no h))))) ?_
  · exact .when (.when h.setWord fun _ h => h.winErr) fun _ h => h.setBufState
  · exact .ite (.ite (.no h.slotBusy) (.yes h.setWord)) (.ite (.ite (.no h.slotBusy) (.yes h.setWord)) (.no h.winErr))

theorem State.Inv.writeCmp {src idx v} (h : s.Inv) : (s.writeCmp src idx v).1.Inv := PairInv.writeCmp h

theorem State.Inv.writeScl {src idx v} (h : s.Inv) : (s.writeScl src idx v).1.Inv := by
  unfold State.writeScl
  refine .fst_ite ?_ ?_
  · exact .fst_ite h.slotBusy.no h.setWord.coefStat.yes
  · exact .fst_ite (.fst_ite h.slotBusy.no h.setWord.coefStat.yes) h.winErr.no

theorem State.Inv.tableLater {a v} (h : s.Inv) : (s.tableLater a v).Inv := by
  unfold State.tableLater
  exact .ite { h with } h.setTable

theorem State.Inv.writePix {src idx v} (h : s.Inv) : (s.writePix src idx v).1.Inv := by
  unfold State.writePix
  refine .fst_ite h.setPix.yes ?_
  refine .fst_ite h.winErr.no ?_
  refine .fst_ite h.tableLater.yes ?_
  refine .fst_ite (.fst_ite h.tableLater.yes h.winErr.no) ?_
  refine .fst_ite h.tableLater.yes ?_
  refine .fst_ite ?_ ?_
  · exact .fst_ite h.winErr.no h.setTable.yes
  · exact .fst_ite (.fst_ite h.winErr.no h.setTable.yes) (.fst_ite h.setPix.yes h.winErr.no)

theorem State.Inv.writeQueue {src idx v} (h : s.Inv) : (s.writeQueue src idx v).1.Inv := by
  unfold State.writeQueue
  exact .fst_ite (.fst_ite h.setWord.yes h.winErr.no) (.fst_ite h.setWord.yes h.winErr.no)

theorem State.Inv.writeRec {src idx v} (h : s.Inv) : (s.writeRec src idx v).1.Inv := by
  unfold State.writeRec
  exact .fst_ite h.no (.fst_ite h.no (.fst_ite h.setWord.yes h.winErr.no))

theorem State.Inv.winWrite {src idx v} (h : s.Inv) : (s.winWrite src idx v).Inv := by
  unfold State.winWrite
  refine .ite h.capture ?_
  refine .ite h.winErr ?_
  extract_lets r
  have hr : r.1.Inv := by
    refine .fst_ite h.writeImp ?_
    refine .fst_ite ?_ ?_
    · exact h.writeCmp
    · exact .fst_ite h.writeScl (.fst_ite h.writePix (.fst_ite h.writeQueue (.fst_ite h.winErr.no h.writeRec)))
  exact .ite hr.mgmtWord hr

/-! ### Halves (R35, R36, R37) -/

theorem State.Inv.winFinish {src idx hi} (h : s.Inv) : (s.winFinish src idx hi).Inv := by
  unfold State.winFinish
  split
  · exact .winWrite { h with }
  · exact .ite h.capture h.winErr.winWrite

theorem State.Inv.winLow {src idx v} (h : s.Inv) : (s.winLow src idx v).Inv := by
  unfold State.winLow
  exact { h with }

theorem State.Inv.winBus {src idx b size v} (h : s.Inv) : (s.winBus src idx b size v).Inv := by
  unfold State.winBus
  extract_lets +onlyGivenNames a
  split
  · exact .ite h.winLow h.winFinish
  · exact .ite { h with } h.winFinish
  · refine .ite h ?_
    split
    · exact .winLow { h with }
    · exact h.winErr.winLow
  · exact h.winErr
  · exact h.winErr

theorem State.Inv.regBus {src pg off size v t} (h : s.Inv) : (s.regBus src pg off size v t).Inv := by
  unfold State.regBus
  refine .ite h.capture ?_
  split
  · exact h.regWrite
  · exact { h with }
  · split
    · exact .regWrite { h with }
    · exact h.regWrite
  · exact h.capture
  · exact h.capture

theorem State.Inv.unmappedWrite {src addr v} (h : s.Inv) : (s.unmappedWrite src addr v).Inv := by
  unfold State.unmappedWrite
  exact .ite h.capture h.capture

theorem State.Inv.busWrite {src addr size v t} (h : s.Inv) : (s.busWrite src addr size v t).Inv := by
  unfold State.busWrite
  refine .ite h ?_
  split
  · exact h.regBus
  · exact h.winBus
  · exact h.unmappedWrite

theorem State.Inv.busWriteFree {src addr size v} (h : s.Inv) : (s.busWriteFree src addr size v).Inv := by
  unfold State.busWriteFree
  exact .ite h.drawn.busWrite h.busWrite

theorem State.Inv.execRegisterWrite {src addr size data} (h : s.Inv) : OutInv (execRegisterWrite src addr size data s) := by
  unfold Machine.execRegisterWrite
  exact .next h.busWriteFree

theorem State.Inv.noteUe {src addr} (h : s.Inv) : (s.noteUe src addr).Inv := by
  unfold State.noteUe
  split
  · exact .ite h.winErr h
  · exact h

theorem State.Inv.execLowHalfRead {src addr} (h : s.Inv) : OutInv (execLowHalfRead src addr s) := by
  unfold Machine.execLowHalfRead
  refine .ite (.next h) ?_
  extract_lets +onlyGivenNames t
  have ht : t.Inv := h.noteUe
  exact .next { ht with }

theorem State.Inv.execTableWindowWrite {src addr hi} (h : s.Inv) : OutInv (execTableWindowWrite src addr hi s) := by
  unfold Machine.execTableWindowWrite
  refine .next ?_
  split
  · exact .ite h.winFinish h
  · exact .ite h.regBus h
  · exact .ite h.unmappedWrite h

/-! ## Machine/Remote -/

/-! ### One access at its target (R49) -/

theorem State.Inv.access {src op addr data t} (h : s.Inv) : (s.access src op addr data t).1.Inv := by
  unfold State.access
  refine .fst_ite (.mk_fst h) ?_
  refine .fst_ite (.fst_ite (.mk_fst h) (.mk_fst h.noteUe)) ?_
  split
  · refine .fst_ite ?_ ?_
    · exact .fst_ite (.mk_fst h) (.mk_fst h.snapStart.snapDone)
    · exact .fst_ite (.mk_fst h.regWrite) (.mk_fst h.regWrite)
  · exact .fst_ite (.mk_fst h) (.fst_ite (.mk_fst h.winWrite) (.mk_fst h.winBus))
  · exact .mk_fst h.unmappedWrite

/-! ### Requests, responses and time-outs (R48) -/

theorem State.Inv.execRemoteAccessRequest {r t} (h : s.Inv) : OutInv (execRemoteAccessRequest r t s) := by
  unfold Machine.execRemoteAccessRequest
  exact .ite (.next h) (.ite (.next h.sendMessage) (.next h.access.sendMessage))

theorem State.Inv.execRemoteAccessResponse {node id code data} (h : s.Inv) : OutInv (execRemoteAccessResponse node id code data s) := by
  unfold Machine.execRemoteAccessResponse
  refine .ite (.next h.relayBack) ?_
  refine .ite (.next (.capture (.bump { h with }))) ?_
  split
  · refine .ite ?_ (.next h)
    extract_lets s1 s2
    have hs1 : s1.Inv := .ite h h.wr
    exact .next (.raEnd (.ite hs1.wr hs1))
  · exact .next h

theorem State.Inv.execRemoteAccessTimeout {t} (h : s.Inv) : OutInv (execRemoteAccessTimeout t s) := by
  unfold Machine.execRemoteAccessTimeout
  split
  · exact .ite (.next (.raEnd { h with })) (.next h)
  · exact .next h

/-! ### Debug SPI (R50) -/

theorem State.Inv.spiFrame {op addr data} (h : s.Inv) : (s.spiFrame op addr data).Inv := by
  unfold State.spiFrame
  exact .ite h (.ite h.send h.drawn.access.send)

theorem State.Inv.execSpiRead64 {addr} (h : s.Inv) : OutInv (execSpiRead64 addr s) := by
  unfold Machine.execSpiRead64
  exact .next h.spiFrame

theorem State.Inv.execSpiWrite64 {addr data} (h : s.Inv) : OutInv (execSpiWrite64 addr data s) := by
  unfold Machine.execSpiWrite64
  exact .next h.spiFrame

theorem State.Inv.execSpiRead72 {addr} (h : s.Inv) : OutInv (execSpiRead72 addr s) := by
  unfold Machine.execSpiRead72
  exact .next h.spiFrame

theorem State.Inv.execSpiWrite72 {addr data} (h : s.Inv) : OutInv (execSpiWrite72 addr data s) := by
  unfold Machine.execSpiWrite72
  exact .next h.spiFrame

/-! ### Bulk commands (R268) -/

theorem State.Inv.bulkReadHere {n addr} (h : s.Inv) : (s.bulkReadHere n addr).1.Inv := by
  induction n generalizing s addr with
  | zero => exact h
  | succ n ih => exact .fst_ite h.access (ih h.access)

theorem State.Inv.bulkWriteHere {ws addr} (h : s.Inv) : (s.bulkWriteHere ws addr).1.Inv := by
  induction ws generalizing s addr with
  | nil => exact h
  | cons w ws ih => exact .fst_ite h.access (ih h.access)

theorem State.Inv.bulkAway {r cmd node op addr data count reads} (h : s.Inv) : (s.bulkAway r cmd node op addr data count reads).Inv := by
  unfold State.bulkAway
  refine .ite h.respond ?_
  refine .ite h.respond ?_
  extract_lets done st s1 body
  have hs1 : s1.Inv := by
    refine h.each (fun _ _ h => ?_)
    extract_lets +onlyGivenNames q src
    have hq : q.1.Inv := h.raSend
    exact { hq with }
  exact .respond { hs1 with }

theorem State.Inv.execBulkRead {r node addr count} (h : s.Inv) : OutInv (execBulkRead r node addr count s) := by
  unfold Machine.execBulkRead
  exact h.mailbox (fun _ h => .ite h.respond (.ite h.bulkReadHere.respond h.bulkAway))

theorem State.Inv.execBulkWrite {r node addr words} (h : s.Inv) : OutInv (execBulkWrite r node addr words s) := by
  unfold Machine.execBulkWrite
  exact h.mailbox (fun _ h => .ite h.respond (.ite h.drawn.bulkWriteHere.respond h.bulkAway))

/-! ## Machine/RegCommands -/

theorem State.Inv.writeWith {src pg off l t} (h : s.Inv) : (s.writeWith src pg off l t).Inv := by
  unfold State.writeWith
  exact .ite h.regWrite h

theorem State.Inv.writeWhole {src pg off v} (h : s.Inv) : (s.writeWhole src pg off v).Inv := by
  unfold State.writeWhole
  exact .ite h.regWrite h

/-! ### The page header (R19, R28, R42, R44 to R47) -/

theorem State.Inv.execCommit {src page} (h : s.Inv) : OutInv (execCommit src page s) := by
  unfold Machine.execCommit
  exact .next h.writeWith

theorem State.Inv.execDiscard {src page} (h : s.Inv) : OutInv (execDiscard src page s) := by
  unfold Machine.execDiscard
  exact .next h.writeWith

theorem State.Inv.execSnapReq {src page} (h : s.Inv) : OutInv (execSnapReq src page s) := by
  unfold Machine.execSnapReq
  exact .next h.writeWith

theorem State.Inv.execSnapshotComplete {page t} (h : s.Inv) : OutInv (execSnapshotComplete page t s) := by
  unfold Machine.execSnapshotComplete
  exact .next h.snapDone

theorem State.Inv.execCounterClear {src addr data} (h : s.Inv) : OutInv (execCounterClear src addr data s) := by
  unfold Machine.execCounterClear
  exact .next h.busWriteFree

theorem State.Inv.execLockSet {src page} (h : s.Inv) : OutInv (execLockSet src page s) := by
  unfold Machine.execLockSet
  exact .next h.writeWith

theorem State.Inv.execMsixUnmask {v} (h : s.Inv) : OutInv (execMsixUnmask v s) := by
  unfold Machine.execMsixUnmask
  exact .next (.ite h.regWrite h)

theorem State.Inv.execBlkReset {src page} (h : s.Inv) : OutInv (execBlkReset src page s) := by
  unfold Machine.execBlkReset
  exact .next h.writeWith

theorem State.Inv.execBlkCtrlEn {src page v} (h : s.Inv) : OutInv (execBlkCtrlEn src page v s) := by
  unfold Machine.execBlkCtrlEn
  exact .next h.writeWith

/-! ### Remote access (R48, R49) -/

theorem State.Inv.raWith {src op t} (h : s.Inv) : (s.raWith src op t).Inv := by
  unfold State.raWith
  exact h.writeWith

theorem State.Inv.execRaRead64 {src t} (h : s.Inv) : OutInv (execRaRead64 src t s) := by
  unfold Machine.execRaRead64
  exact .next h.raWith

theorem State.Inv.execRaWrite64 {src t} (h : s.Inv) : OutInv (execRaWrite64 src t s) := by
  unfold Machine.execRaWrite64
  exact .next h.raWith

theorem State.Inv.execRaRead72 {src t} (h : s.Inv) : OutInv (execRaRead72 src t s) := by
  unfold Machine.execRaRead72
  exact .next h.raWith

theorem State.Inv.execRaWrite72 {src t} (h : s.Inv) : OutInv (execRaWrite72 src t s) := by
  unfold Machine.execRaWrite72
  exact .next h.raWith

theorem State.Inv.execRaSnapread {src t} (h : s.Inv) : OutInv (execRaSnapread src t s) := by
  unfold Machine.execRaSnapread
  exact .next h.raWith

theorem State.Inv.execRaCommit {src t} (h : s.Inv) : OutInv (execRaCommit src t s) := by
  unfold Machine.execRaCommit
  exact .next h.raWith

/-! ### Intake, composition, imposition -/

theorem State.Inv.execIngModeChange {src p data} (h : s.Inv) : OutInv (execIngModeChange src p data s) := by
  unfold Machine.execIngModeChange
  exact .next h.writeWhole

theorem State.Inv.execEdidWrite {src p data} (h : s.Inv) : OutInv (execEdidWrite src p data s) := by
  unfold Machine.execEdidWrite
  exact .next h.writeWhole

theorem State.Inv.execStreamWrite {src p data} (h : s.Inv) : OutInv (execStreamWrite src p data s) := by
  unfold Machine.execStreamWrite
  exact .next h.writeWhole

theorem State.Inv.execBufRelease {src handle} (h : s.Inv) : OutInv (execBufRelease src handle s) := by
  unfold Machine.execBufRelease
  exact .next h.writeWith

theorem State.Inv.execBankPrepare {src bank} (h : s.Inv) : OutInv (execBankPrepare src bank s) := by
  unfold Machine.execBankPrepare
  exact .next h.writeWith

/-! ### Quire, wall time -/

theorem State.Inv.execRetrain {src sd} (h : s.Inv) : OutInv (execRetrain src sd s) := by
  unfold Machine.execRetrain
  exact .next h.writeWith

theorem State.Inv.execLaneSwapGo {src sd lane} (h : s.Inv) : OutInv (execLaneSwapGo src sd lane s) := by
  unfold Machine.execLaneSwapGo
  exact .next h.writeWith

theorem State.Inv.execEnumGo {src side} (h : s.Inv) : OutInv (execEnumGo src side s) := by
  unfold Machine.execEnumGo
  exact .next h.writeWith

theorem State.Inv.execTbArm {src data} (h : s.Inv) : OutInv (execTbArm src data s) := by
  unfold Machine.execTbArm
  exact .next h.writeWhole

/-! ### Tile -/

theorem State.Inv.execGeomWrite {src data} (h : s.Inv) : OutInv (execGeomWrite src data s) := by
  unfold Machine.execGeomWrite
  exact .next h.writeWhole

theorem State.Inv.execAgeSaveGo {src} (h : s.Inv) : OutInv (execAgeSaveGo src s) := by
  unfold Machine.execAgeSaveGo
  exact .next h.writeWith

theorem State.Inv.execLampEn {src v} (h : s.Inv) : OutInv (execLampEn src v s) := by
  unfold Machine.execLampEn
  exact .next h.writeWith

theorem State.Inv.lhmWith {src op d row ch} (h : s.Inv) : (s.lhmWith src op d row ch).Inv := by
  unfold State.lhmWith
  exact h.writeWith

theorem State.Inv.execLhmClear {src d row ch} (h : s.Inv) : OutInv (execLhmClear src d row ch s) := by
  unfold Machine.execLhmClear
  exact .next h.lhmWith

theorem State.Inv.execLhmMask {src d row ch} (h : s.Inv) : OutInv (execLhmMask src d row ch s) := by
  unfold Machine.execLhmMask
  exact .next h.lhmWith

theorem State.Inv.execLhmRetest {src d row ch} (h : s.Inv) : OutInv (execLhmRetest src d row ch s) := by
  unfold Machine.execLhmRetest
  exact .next h.lhmWith

theorem State.Inv.execLhmFaultClr {src d row ch} (h : s.Inv) : OutInv (execLhmFaultClr src d row ch s) := by
  unfold Machine.execLhmFaultClr
  exact .next h.lhmWith

/-! ### Rails, thresholds, trims -/

theorem State.Inv.execLoopEnable {src k data} (h : s.Inv) : OutInv (execLoopEnable src k data s) := by
  unfold Machine.execLoopEnable
  exact .next h.writeWhole

theorem State.Inv.execProfGo {src k} (h : s.Inv) : OutInv (execProfGo src k s) := by
  unfold Machine.execProfGo
  exact .next h.writeWith

theorem State.Inv.execProfRelease {src k} (h : s.Inv) : OutInv (execProfRelease src k s) := by
  unfold Machine.execProfRelease
  exact .next h.writeWith

theorem State.Inv.execLoopResume {src k} (h : s.Inv) : OutInv (execLoopResume src k s) := by
  unfold Machine.execLoopResume
  exact .next h.writeWith

theorem State.Inv.execThreshWrite {src data} (h : s.Inv) : OutInv (execThreshWrite src data s) := by
  unfold Machine.execThreshWrite
  exact .next h.writeWhole

theorem State.Inv.execTrimDataWrite {src v t} (h : s.Inv) : OutInv (execTrimDataWrite src v t s) := by
  unfold Machine.execTrimDataWrite
  exact .next h.writeWith

/-! ### Queues and trace -/

theorem State.Inv.execDoorbell {src q tail} (h : s.Inv) : OutInv (execDoorbell src q tail s) := by
  unfold Machine.execDoorbell
  exact .next h.writeWith

theorem State.Inv.execConsume {src q head} (h : s.Inv) : OutInv (execConsume src q head s) := by
  unfold Machine.execConsume
  exact .next h.writeWith

theorem State.Inv.execTraceFreeze {src} (h : s.Inv) : OutInv (execTraceFreeze src s) := by
  unfold Machine.execTraceFreeze
  exact .next h.writeWith

theorem State.Inv.execTraceUnfreeze {src} (h : s.Inv) : OutInv (execTraceUnfreeze src s) := by
  unfold Machine.execTraceUnfreeze
  exact .next h.writeWith

/-! ### Redundancy, saves, updates, recording -/

theorem State.Inv.execSwapGo {src side t} (h : s.Inv) : OutInv (execSwapGo src side t s) := by
  unfold Machine.execSwapGo
  exact .next h.writeWith

theorem State.Inv.execSwapTake {src side} (h : s.Inv) : OutInv (execSwapTake src side s) := by
  unfold Machine.execSwapTake
  exact .next h.writeWith

theorem State.Inv.execRehGo {src side t} (h : s.Inv) : OutInv (execRehGo src side t s) := by
  unfold Machine.execRehGo
  exact .next h.writeWith

theorem State.Inv.execSaveGo {src} (h : s.Inv) : OutInv (execSaveGo src s) := by
  unfold Machine.execSaveGo
  exact .next h.writeWith

theorem State.Inv.execUpdClear {src} (h : s.Inv) : OutInv (execUpdClear src s) := by
  unfold Machine.execUpdClear
  exact .next h.writeWith

theorem State.Inv.execRecCtrlMode {src mode} (h : s.Inv) : OutInv (execRecCtrlMode src mode s) := by
  unfold Machine.execRecCtrlMode
  exact .next h.writeWith

theorem State.Inv.execRecTrig {src} (h : s.Inv) : OutInv (execRecTrig src s) := by
  unfold Machine.execRecTrig
  exact .next h.writeWith

theorem State.Inv.execRecArm {src} (h : s.Inv) : OutInv (execRecArm src s) := by
  unfold Machine.execRecArm
  exact .next h.writeWith

theorem State.Inv.execReplayGo {src} (h : s.Inv) : OutInv (execReplayGo src s) := by
  unfold Machine.execReplayGo
  exact .next h.writeWith

/-! ## Machine/Tick -/

theorem State.Inv.moveCommits {n} (h : s.Inv) : (s.moveCommits n).Inv := by
  unfold State.moveCommits
  refine .each ?_ (fun _ _ h => h.wr)
  exact { h with }

theorem State.Inv.latchActs {n} (h : s.Inv) : (s.latchActs n).Inv := by
  unfold State.latchActs
  extract_lets s1 sA sB newCmp _ s3 s4 s5 s6
  have hA : sA.Inv := .each h.schedLatch.policyLatch fun _ _ h => h.latchPage
  clear_value sA
  have hB : sB.Inv := hA.impCommit
  have hs3 : s3.Inv := { hB with }
  have hs4 : s4.Inv := hs3.arbLatch.updLatch
  have hs5 : s5.Inv := .ite hs4.ingLatch.cmpLatch hs4
  exact .recLatch (.ite hs5.impLatch hs5)

theorem State.Inv.latch (h : s.Inv) : s.latch.Inv := by
  unfold State.latch
  extract_lets n _ s1
  have hs1 : s1.Inv := .of_same (h.passTo (t := s.latchTime n)).decideHeld rfl
  exact .ite hs1.moveCommits hs1.latchActs

theorem State.Inv.execLatchPoint (h : s.Inv) : OutInv (execLatchPoint s) := by
  unfold Machine.execLatchPoint
  exact .next (.ite h h.latch)

theorem State.Inv.senderTick {n} (h : s.Inv) : (s.senderTick n).Inv := by
  unfold State.senderTick
  extract_lets s1
  have hs1 : s1.Inv := h.each (fun _ _ h => .ite h.ingRelease h)
  exact .ite hs1.impTick hs1

theorem State.Inv.senderStart (h : s.Inv) : s.senderStart.Inv := by
  unfold State.senderStart
  exact .ite h.startFrame.countOverlap.scalerLoad h

theorem State.Inv.pixelTick {n held} (h : s.Inv) : (s.pixelTick n held).Inv := by
  unfold State.pixelTick
  exact .latchTemps (.trimTick (.lhmTick (.scanTick (.tileTickNew (.ite h.flipPlanes { h with })))))

theorem State.Inv.autoSnaps (h : s.Inv) : s.autoSnaps.Inv := by
  unfold State.autoSnaps
  exact h.each (fun _ _ h => h.snapStart)

theorem State.Inv.tickCrossings (h : s.Inv) : s.tickCrossings.Inv := by
  unfold State.tickCrossings
  exact h.each (fun _ _ h => h.crossEvent)

theorem State.Inv.tickActs (h : s.Inv) : s.tickActs.Inv := by
  unfold State.tickActs
  extract_lets n held s0 s1 s2 s3 _ s4 retires s5 s6 s7 s8 s9
  have hs1 : s1.Inv := .ite h.tickCrossings.tileTickEnd h.tickCrossings
  clear_value s1
  have hs3 : s3.Inv := .switchTick (.wr (.wr (.wr (.passTo (.ite hs1.senderTick hs1)))))
  clear_value s3
  have hs6 : s6.Inv := by
    refine .arbTick ?_
    refine .when ?_ (fun _ h => h.footPx)
    refine .when ?_ (fun _ h => h.senderStart)
    refine .fwinApplied ?_
    refine .each ?_ (fun _ _ h => h.applyPage)
    exact .when { hs3 with } (fun _ h => h.retireBuffers)
  clear_value s6
  have hs7 : s7.Inv := .ite hs6.pixelTick hs6.trimTick
  clear_value s7
  exact .updTick (.powerTick (.autoSnaps (.recTick (.ite hs7 hs7.policyTick))))

theorem State.Inv.execTick (h : s.Inv) : OutInv (execTick s) := by
  unfold Machine.execTick
  exact .next (.ite h (.tickActs (.ite h h.latch)))

end Sys2Proof.Machine
end

