-- ==== Sys2Proof/Proofs/Invariant.lean ====
section
/-! SUPPORT. Every command keeps the invariant, so every step does (R37); and the state after reset has it. -/

namespace Sys2Proof.Machine

variable {s : State}

/-- The two obligations' one case split over the commands: each is kept by its own lemma. -/
theorem State.Inv.exec (h : s.Inv) (c : Instr) : OutInv (Machine.exec c s) := by
  cases c with
  | por => exact h.execPor
  | brownOut => exact h.execBrownOut
  | resetN => exact h.execResetN
  | watchdogExpire => exact h.execWatchdogExpire
  | stepTimeout => exact h.execStepTimeout
  | stepRestart => exact h.execStepRestart
  | startDone => exact h.execStartDone
  | softReset => exact h.execSoftReset
  | softResetApply => exact h.execSoftResetApply
  | pathClr src => exact h.execPathClr (_src := src)
  | qrefclkLoss => exact h.execQrefclkLoss
  | pcieRefclkLoss => exact h.execPcieRefclkLoss
  | perst => exact h.execPerst
  | vlfLoss => exact h.execVlfLoss
  | xin32Loss => exact h.execXin32Loss
  | wake => exact h.execWake
  | sleepEntry => exact h.execSleepEntry
  | registerWrite => exact h.execRegisterWrite
  | lowHalfRead => exact h.execLowHalfRead
  | tableWindowWrite => exact h.execTableWindowWrite
  | bar4Write => exact h.execBar4Write
  | commit => exact h.execCommit
  | discard => exact h.execDiscard
  | snapReq => exact h.execSnapReq
  | snapshotComplete => exact h.execSnapshotComplete
  | counterClear => exact h.execCounterClear
  | lockSet => exact h.execLockSet
  | msixUnmask => exact h.execMsixUnmask
  | blkReset => exact h.execBlkReset
  | blkResetDone => exact h.execBlkResetDone
  | xovf => exact h.execXovf
  | raRead64 => exact h.execRaRead64
  | raWrite64 => exact h.execRaWrite64
  | raRead72 => exact h.execRaRead72
  | raWrite72 => exact h.execRaWrite72
  | raSnapread => exact h.execRaSnapread
  | raCommit => exact h.execRaCommit
  | remoteAccessRequest => exact h.execRemoteAccessRequest
  | remoteAccessResponse => exact h.execRemoteAccessResponse
  | remoteAccessTimeout => exact h.execRemoteAccessTimeout
  | spiRead64 => exact h.execSpiRead64
  | spiWrite64 => exact h.execSpiWrite64
  | spiRead72 => exact h.execSpiRead72
  | spiWrite72 => exact h.execSpiWrite72
  | tick => exact h.execTick
  | latchPoint => exact h.execLatchPoint
  | feedSlotStart => exact h.execFeedSlotStart
  | schedCommitDeadline => exact h.execSchedCommitDeadline
  | cancelReceive => exact h.execCancelReceive
  | schedCommitArm => exact h.execSchedCommitArm
  | ingModeChange => exact h.execIngModeChange
  | edidWrite => exact h.execEdidWrite
  | dpLinkTraining => exact h.execDpLinkTraining
  | auxTransaction => exact h.execAuxTransaction
  | st2110Packet => exact h.execSt2110Packet
  | streamWrite => exact h.execStreamWrite
  | igmpQuery => exact h.execIgmpQuery
  | arpRequest => exact h.execArpRequest
  | sourceFrameStart => exact h.execSourceFrameStart
  | sourceFrameComplete => exact h.execSourceFrameComplete
  | pathLate => exact h.execPathLate
  | lossOfSignal => exact h.execLossOfSignal
  | pickLogReceive => exact h.execPickLogReceive
  | pickSelf => exact h.execPickSelf
  | fenceTimeout => exact h.execFenceTimeout
  | flipLogReceive => exact h.execFlipLogReceive
  | flipSelf => exact h.execFlipSelf
  | bufRelease => exact h.execBufRelease
  | compositionDeadline => exact h.execCompositionDeadline
  | bankPrepare => exact h.execBankPrepare
  | bankPrepareDone => exact h.execBankPrepareDone
  | refreshRecordReceive => exact h.execRefreshRecordReceive
  | refreshSelf => exact h.execRefreshSelf
  | needFullReceive _ _ feeds => exact h.execNeedFullReceive (feeds := feeds)
  | signatureSend => exact h.execSignatureSend
  | bandReady => exact h.execBandReady
  | sendDeadline => exact h.execSendDeadline
  | laneSignalDetect => exact h.execLaneSignalDetect
  | adaptComplete => exact h.execAdaptComplete
  | alignLock => exact h.execAlignLock
  | laneVerified => exact h.execLaneVerified
  | verifyFail => exact h.execVerifyFail
  | laneDown => exact h.execLaneDown
  | laneCountReduce => exact h.execLaneCountReduce
  | deskew => exact h.execDeskew
  | sideUp => exact h.execSideUp
  | sideDown => exact h.execSideDown
  | rateStep => exact h.execRateStep
  | retrain => exact h.execRetrain
  | idleFolioSend => exact h.execIdleFolioSend
  | wearWindowEnd => exact h.execWearWindowEnd
  | laneSwapGo => exact h.execLaneSwapGo
  | swapRequestReceive => exact h.execSwapRequestReceive
  | swapApply => exact h.execSwapApply
  | folioReceive => exact h.execFolioReceive
  | sigHdrReceive => exact h.execSigHdrReceive
  | sigDataReceive => exact h.execSigDataReceive
  | needFullRetry => exact h.execNeedFullRetry
  | signatureExpire => exact h.execSignatureExpire
  | enumGo => exact h.execEnumGo
  | enumReceive => exact h.execEnumReceive
  | enumDone => exact h.execEnumDone
  | linkUpReceive _ tile => exact h.execLinkUpReceive (_tile := tile)
  | mgFragmentReceive => exact h.execMgFragmentReceive
  | fragTimeout => exact h.execFragTimeout
  | streamLoss => exact h.execStreamLoss
  | streamRestore => exact h.execStreamRestore
  | breakReceive => exact h.execBreakReceive
  | timeFolioSend => exact h.execTimeFolioSend
  | timeFolioReceive => exact h.execTimeFolioReceive
  | parentTimeout => exact h.execParentTimeout
  | sourceChange => exact h.execSourceChange
  | servoLock => exact h.execServoLock
  | tbArm => exact h.execTbArm
  | ptpMessage => exact h.execPtpMessage
  | ptpAnnounceTimeout => exact h.execPtpAnnounceTimeout
  | glkEdge => exact h.execGlkEdge
  | glkLoss => exact h.execGlkLoss
  | ppsEdge => exact h.execPpsEdge
  | ppsLoss => exact h.execPpsLoss
  | ppsOutPulse => exact h.execPpsOutPulse
  | tickOutPulse => exact h.execTickOutPulse
  | fwinEdge => exact h.execFwinEdge
  | fwinDecision => exact h.execFwinDecision
  | fwinLoss => exact h.execFwinLoss
  | fwinResume => exact h.execFwinResume
  | captureEdge => exact h.execCaptureEdge
  | triggerPulse => exact h.execTriggerPulse
  | geomWrite => exact h.execGeomWrite
  | pressStart => exact h.execPressStart
  | pressComplete => exact h.execPressComplete
  | ageSaveGo => exact h.execAgeSaveGo
  | ageSaveDone => exact h.execAgeSaveDone
  | lineSlotStart => exact h.execLineSlotStart
  | underrunShutdown => exact h.execUnderrunShutdown
  | pllUnlock => exact h.execPllUnlock
  | irefFault => exact h.execIrefFault
  | dieLinkDown => exact h.execDieLinkDown
  | lampEn => exact h.execLampEn
  | blkCtrlEn => exact h.execBlkCtrlEn
  | bankStart => exact h.execBankStart
  | stringTransmit => exact h.execStringTransmit
  | lampStale => exact h.execLampStale
  | lhmClear => exact h.execLhmClear
  | lhmMask => exact h.execLhmMask
  | lhmRetest => exact h.execLhmRetest
  | lhmFaultClr => exact h.execLhmFaultClr
  | lhmCmdDone => exact h.execLhmCmdDone
  | loopEnable => exact h.execLoopEnable
  | rceSample => exact h.execRceSample
  | profileUpdate => exact h.execProfileUpdate
  | profGo => exact h.execProfGo
  | profRelease => exact h.execProfRelease
  | loopResume => exact h.execLoopResume
  | holdLimit => exact h.execHoldLimit
  | pmbusWrite => exact h.execPmbusWrite
  | pmbusTimeout => exact h.execPmbusTimeout
  | housekeepingRound => exact h.execHousekeepingRound
  | hkRoundPublish => exact h.execHkRoundPublish
  | threshWrite => exact h.execThreshWrite
  | comparatorTrip => exact h.execComparatorTrip
  | shutdownGraceEnd => exact h.execShutdownGraceEnd
  | thermalRecovery => exact h.execThermalRecovery
  | throttleReqRepeat => exact h.execThrottleReqRepeat
  | graceExpire => exact h.execGraceExpire
  | trimCycle => exact h.execTrimCycle
  | trimDataWrite => exact h.execTrimDataWrite
  | doorbell => exact h.execDoorbell
  | consume => exact h.execConsume
  | proxyMessageReceive => exact h.execProxyMessageReceive
  | evtOverflow => exact h.execEvtOverflow
  | taskWakeTimeout => exact h.execTaskWakeTimeout
  | traceFreeze => exact h.execTraceFreeze
  | traceUnfreeze => exact h.execTraceUnfreeze
  | info => exact h.execInfo
  | echo => exact h.execEcho
  | schedCommit => exact h.execSchedCommit
  | schedCancel => exact h.execSchedCancel
  | policyLoad => exact h.execPolicyLoad
  | policyRead => exact h.execPolicyRead
  | power => exact h.execPower
  | bulkRead => exact h.execBulkRead
  | bulkWrite => exact h.execBulkWrite
  | eventMask => exact h.execEventMask
  | ledgerRead => exact h.execLedgerRead
  | kettleSend => exact h.execKettleSend
  | kettleReceive => exact h.execKettleReceive
  | epochReceive => exact h.execEpochReceive
  | senderStartEnd => exact h.execSenderStartEnd
  | peerLost => exact h.execPeerLost
  | epochReqRetry => exact h.execEpochReqRetry
  | epochReqResponse => exact h.execEpochReqResponse
  | epochReq => exact h.execEpochReq
  | arbiterHoldExpire => exact h.execArbiterHoldExpire
  | takeover => exact h.execTakeover
  | arbStatus => exact h.execArbStatus
  | swap => exact h.execSwap
  | swapGo => exact h.execSwapGo
  | take => exact h.execTake
  | swapTake => exact h.execSwapTake
  | rehearse => exact h.execRehearse
  | rehGo => exact h.execRehGo
  | rehearsalStart => exact h.execRehearsalStart
  | rehearsalFail => exact h.execRehearsalFail
  | rehearsalHoldEnd => exact h.execRehearsalHoldEnd
  | saveGo => exact h.execSaveGo
  | generationSaveStart => exact h.execGenerationSaveStart
  | generationSaveDone => exact h.execGenerationSaveDone
  | journalRecordDone => exact h.execJournalRecordDone
  | stage => exact h.execStage
  | bundleFolioReceive => exact h.execBundleFolioReceive
  | passIdle => exact h.execPassIdle
  | bundlePassStart => exact h.execBundlePassStart
  | updStatus => exact h.execUpdStatus
  | activate => exact h.execActivate
  | prepareReceive => exact h.execPrepareReceive
  | prepareTimeout => exact h.execPrepareTimeout
  | actCommitReceive => exact h.execActCommitReceive
  | armDeadline => exact h.execArmDeadline
  | abortReceive => exact h.execAbortReceive
  | activatedRepeat => exact h.execActivatedRepeat
  | activatedReceive => exact h.execActivatedReceive
  | relightReceive => exact h.execRelightReceive
  | relightDeadline => exact h.execRelightDeadline
  | confirm => exact h.execConfirm
  | autoConfirm => exact h.execAutoConfirm
  | confirmRepeat => exact h.execConfirmRepeat
  | confirmReceive => exact h.execConfirmReceive
  | fallback => exact h.execFallback
  | fallbackReqReceive ring node => exact h.execFallbackReqReceive (_ring := ring) (_node := node)
  | fallbackOrderReceive => exact h.execFallbackOrderReceive
  | fallbackReqRepeat => exact h.execFallbackReqRepeat
  | fallbackAlone => exact h.execFallbackAlone
  | enroll => exact h.execEnroll
  | revoke => exact h.execRevoke
  | peers => exact h.execPeers
  | abort => exact h.execAbort
  | updClear => exact h.execUpdClear
  | recCtrlMode => exact h.execRecCtrlMode
  | recTrig => exact h.execRecTrig
  | recArm => exact h.execRecArm
  | ringFreeze => exact h.execRingFreeze
  | captureComplete => exact h.execCaptureComplete
  | replayGo => exact h.execReplayGo
  | replayDone => exact h.execReplayDone
  | recMode => exact h.execRecMode
  | recTrigger => exact h.execRecTrigger
  | replay => exact h.execReplay
  | startStepEnd => exact h.execStartStepEnd
  | gclkPllLock => exact h.execGclkPllLock
  | dieLinkUp => exact h.execDieLinkUp
  | irefRestore => exact h.execIrefRestore
  | qrefclkReturn => exact h.execQrefclkReturn
  | pcieRefclkReturn => exact h.execPcieRefclkReturn
  | ingBlockLockChange => exact h.execIngBlockLockChange
  | prepareVoteReceive => exact h.execPrepareVoteReceive
  | schedArmedReceive => exact h.execSchedArmedReceive
  | ringCompleteReceive => exact h.execRingCompleteReceive
  | confirmAckReceive => exact h.execConfirmAckReceive

/-- Settles O3: the command at the front of the queue keeps the invariant, by its lemma; taking it off the queue touches nothing that the
invariant speaks of. -/
theorem invariantKept : Obligations.InvariantKept := by
  intro s t h hstep
  unfold Machine.step at hstep
  split at hstep
  · cases hstep
    exact h
  next c r _ =>
    have hqueue : State.Inv { s with pending := r } := { h with }
    exact hqueue.exec c t hstep

end Sys2Proof.Machine
end

