-- ==== Sys2Proof/Proofs/InvariantAtReset.lean ====
section
/-! SUPPORT. The state after reset has the invariant: its register stores are filled field by field, and the rest is fixed. -/

namespace Sys2Proof.Machine

theorem resetTbl_wf : resetTbl.wf = true := Tbl.wf_foldl_set _ Fld.key _ rfl

theorem resetShadow_wf : resetShadow.wf = true := Tbl.wf_foldl_set _ Fld.key _ rfl

/-- Settles O4. -/
theorem invariantAtReset : Obligations.InvariantAtReset where
  live := by simp only [State.reset]; exact resetTbl_wf
  shadow := by simp only [State.reset]; exact resetShadow_wf
  latched := by simp only [State.reset]; exact resetShadow_wf
  committed := by simp only [State.reset]; exact resetShadow_wf
  snapd := rfl
  win := rfl
  winShadow := rfl
  winLatched := rfl
  winCommitted := rfl
  mem := rfl
  ports := rfl
  sides := rfl
  arb := rfl
  bufs := by simp [State.reset, Port.reset]
  pend := nofun
  need := rfl
  refMask := rfl
  links := rfl
  ptp := rfl
  xing := rfl
  statSnap := rfl
  slots := by simp [State.reset, Upd.reset]; rfl
  keys := ⟨rfl, rfl⟩
  gens := ⟨rfl, rfl⟩
  heard := by simp [State.reset, ArbSide.reset]
  banks := rfl
  lamps := ⟨rfl, rfl, rfl⟩
  cores := rfl
  sigs := by simp [State.reset, Tile.reset]
  results := by simp only [State.reset]; exact tileReset_results
  ageSlots := rfl
  loops := rfl

end Sys2Proof.Machine
end

