-- ==== Sys2Proof/Proofs/RemoteAccess.lean ====
section
/-! SUPPORT. A remote read whose answer finds no path, on which the statement about remote accesses fails. -/

namespace Sys2Proof.Machine

/-- A part in BENCH role whose first pixel SRAM word is uncorrectable. Its registers read 0, but for its role, PSIDE, which holds 3058 where
its width is one bit, and ERR_CAP0.CODE of page 0x20, which holds 1. -/
def benchAstray : State :=
  { State.reset with
    live := ((Tbl.set [] HIF_STRAP_STAT_ROLE.key 2).set QEN_CFG_PSIDE.key 3058).set (ERR_CAP0_CODE 0x20).key 1
    ue := [0x600000] }

/-- A read of that word for node 0, with its deadline 1 ns after wall time 0. -/
def readAstray : RemoteReq := { src := 0, id := 0, op := 0, addr := 0x16000000, data := 0, deadline := 1 }

/-- The nodes reached on the side that PSIDE names stand in the code of that error capture, which says that node 0 is one of them. -/
theorem benchAstray_reach : (QLK_REACH_NODES (benchAstray.rd QEN_CFG_PSIDE)).key = (ERR_CAP0_CODE 0x20).key ∧
    benchAstray.reaches (readAstray.src.toNat / 4096) = true := by decide +kernel

/-- Whether no output stands after a command. -/
def silent (c : Instr) (s : State) : Bool := match exec c s with
  | .next u => u.out.isEmpty
  | _ => false

theorem silent_next {c : Instr} {s u : State} (h : silent c s = true) (hu : exec c s = .next u) : u.out = [] := by
  rw [silent, hu] at h
  exact List.isEmpty_iff.mp h

/-- The code of the error that the read notes is even, so that its answer finds no path. -/
theorem silent_readAstray : silent (.remoteAccessRequest readAstray 0) benchAstray = true := by decide +kernel

/-- What was given is among the outputs. -/
theorem Sent.mem {s t : State} {e : Emit} (h : Sent s t e) : e ∈ t.out := by
  obtain ⟨a, b, hout⟩ := h
  simp [hout]

/-- Refutes O50: the statement ranges over states whose fields hold values too wide for them. In `benchAstray` PSIDE does, which no write of
the part brings about, and the nodes reached (R15) then have the key of an error code: the read of an uncorrectable word notes its error there
(R37) before it is answered, and the answer that the statement has given leaves for no node. -/
theorem not_remoteDebugAndBulkAccess : ¬ Obligations.RemoteDebugAndBulkAccess := by
  have hahead : ahead readAstray.deadline 0 = true := by decide
  have hreach : benchAstray.reachable .remote = true := by decide +kernel
  have hallowed : benchAstray.host.remoteForbidden = false := by decide +kernel
  have hcode : benchAstray.addrCode readAstray.addr.toNat = 0 := by decide +kernel
  have hsilent := silent_readAstray
  have hpath := benchAstray_reach.2
  generalize benchAstray = s at hreach hallowed hcode hsilent hpath
  intro h
  obtain ⟨hremote, -⟩ := h
  obtain ⟨-, -, hrequest, -⟩ := hremote s
  obtain ⟨-, hopen⟩ := hrequest readAstray 0 hahead hreach hpath
  obtain ⟨-, -, hread, -⟩ := hopen hallowed
  obtain ⟨u, hu, hanswer, -⟩ := hread hcode rfl
  have hgiven := Sent.mem hanswer
  rw [silent_next hsilent hu] at hgiven
  cases hgiven

end Sys2Proof.Machine
end

