-- ==== Sys2Proof/Proofs/Effects.lean ====
section
/-! SUPPORT. What a change of the state touches, as one relation: interrupt flags and outputs that only grow, register fields and window words out
of reach, an error capture. -/

namespace Sys2Proof.Machine

/-! ### Keys of fields -/

/-- A field that lies inside its register's 64 bits and its page, and is not INT_RAW. -/
def Fld.shape (f : Fld) : Bool := decide (f.off < 4096 ∧ f.off ≠ 24 ∧ f.lo < 64)

/-- A key that neither a note changes nor the role or the recorder's state sits at. -/
def plainKey (k : Nat) : Bool := !noteKey k && k != HIF_STRAP_STAT_ROLE.key && k != REC_STAT_STATE.key

theorem keyPage_key {f : Fld} (h : f.shape = true) : keyPage f.key = f.page := by
  obtain ⟨ho, -, hl⟩ := of_decide_eq_true h
  simp only [keyPage, Fld.key]; omega

/-- Every field of a page header but INT_RAW, and every field outside HIF, QEN and REC, is left alone by notes. -/
theorem plainKey_of {f : Fld} (h : f.shape = true) (hp : f.off < 128 ∨ f.page ≠ 0 ∧ f.page ≠ 2 ∧ f.page ≠ 10) : plainKey f.key = true := by
  obtain ⟨ho, h24, hl⟩ := of_decide_eq_true h
  simp only [plainKey, noteKey, Fld.key, REC_STAT_WPTR, REC_STAT_WRAPPED, REC_STAT_CAP_DONE, REC_STAT_DIGEST_DIRTY, REC_TRIG_STAT_FRAME,
    REC_TRIG_STAT_CODE, REC_CNT_TRIGS, QEN_CNT_DROP, HIF_STRAP_STAT_ROLE, REC_STAT_STATE, Bool.and_eq_true, Bool.not_eq_true', bne_iff_ne,
    Bool.or_eq_false_iff, beq_eq_false_iff_ne, List.contains_eq_mem, List.mem_cons, List.not_mem_nil, or_false, decide_eq_false_iff_not]
  refine ⟨⟨⟨?_, ?_⟩, ?_⟩, ?_⟩ <;> omega

/-- A field of a source port's page. -/
theorem plainKey_ing {f : Fld} {p : Nat} (h : f.shape = true) (hp : f.page = 16 + p) : plainKey f.key = true :=
  plainKey_of h (.inr (by omega))

theorem plainKey_of_header {f : Fld} (h : f.shape = true) (ho : decide (f.off < 128) = true) : plainKey f.key = true :=
  plainKey_of h (.inl (of_decide_eq_true ho))

theorem noteKey_of_plain {k : Nat} (h : plainKey k = true) : noteKey k = false := by
  simp only [plainKey, Bool.and_eq_true, Bool.not_eq_true'] at h
  exact h.1.1

theorem off_ne_of_plain {k : Nat} (h : plainKey k = true) : k / 64 % 4096 ≠ 24 := by
  have := noteKey_of_plain h
  simp only [noteKey, Bool.or_eq_false_iff, beq_eq_false_iff_ne] at this
  exact this.1

theorem rawKey_off (pg : Nat) : (INT_RAW_RAW pg).key / 64 % 4096 = 24 := by simp only [Fld.key, INT_RAW_RAW]; omega

/-- Two INT_RAW registers share a key only on one page. -/
theorem rawKey_inj {p q : Nat} (h : (INT_RAW_RAW p).key = (INT_RAW_RAW q).key) : p = q := by
  simp only [Fld.key, INT_RAW_RAW] at h; omega

/-- A field of width `w` reads the value written to it. -/
theorem State.rd_wr_of (s : State) (f : Fld) (w : Nat) {v : Nat} (hf : f.w = w) (hv : v < 2 ^ w) (hw : w ≤ 64) : (s.wr f v).rd f = v :=
  State.rd_wr_self s f v (hf ▸ hv) (hf ▸ hw)

/-- A counter counts up to its width. -/
theorem State.rd_bumpBy (s : State) (f : Fld) (n : Nat) (hw : f.w ≤ 64) : (s.bumpBy f n).rd f = min (s.rd f + n) (2 ^ f.w - 1) := by
  have : 0 < 2 ^ f.w := Nat.two_pow_pos _
  exact State.rd_wr_self s f _ (by rw [satAdd]; omega) hw

theorem State.flag_wr_raw (s : State) (pg v c : Nat) : (s.wr (INT_RAW_RAW pg) v).flag pg c = (decide (c < 64) && v.testBit c) := by
  rw [State.flag, State.rd_wr, if_pos rfl]
  change (v % 2 ^ 64 % 2 ^ 64).testBit c = _
  rw [Nat.mod_mod, Nat.testBit_mod_two_pow]

/-! ### What only grows -/

/-- Interrupt flags that are set stay set, and what the part gave stays given. -/
structure Grows (s t : State) : Prop where
  flags : ∀ pg b, s.flag pg b = true → t.flag pg b = true
  out : ∃ a, t.out = a ++ s.out

namespace Grows

theorem refl (s : State) : Grows s s := ⟨fun _ _ h => h, [], rfl⟩

theorem trans {s t u : State} (h : Grows s t) (k : Grows t u) : Grows s u := by
  obtain ⟨a, ha⟩ := h.out
  obtain ⟨b, hb⟩ := k.out
  exact ⟨fun pg b hf => k.flags pg b (h.flags pg b hf), b ++ a, by rw [hb, ha, List.append_assoc]⟩

/-- A change of neither the registers nor the outputs. -/
theorem of_same {s t : State} (hl : t.live = s.live) (ho : t.out = s.out) : Grows s t :=
  ⟨fun pg b h => by rw [State.flag, State.rd_congr hl]; exact h, [], ho⟩

theorem wr (s : State) (f : Fld) (v : Nat) (hf : f.key / 64 % 4096 ≠ 24) : Grows s (s.wr f v) := by
  refine ⟨fun pg b h => ?_, [], rfl⟩
  rw [State.flag, State.rd_wr_ne _ _ fun e => hf (by rw [← e, rawKey_off])]
  exact h

theorem bump (s : State) (f : Fld) (hf : f.key / 64 % 4096 ≠ 24) : Grows s (s.bump f) := wr s f _ hf

theorem send (s : State) (e : Emit) : Grows s (s.send e) := ⟨fun _ _ h => h, [e], rfl⟩

theorem when {s t : State} (h : Grows s t) (c : Bool) (g : State → State) (hg : ∀ s, Grows s (g s)) : Grows s (t.when c g) :=
  State.when_keeps (P := Grows s) c g (fun t h => h.trans (hg t)) h

theorem each {α : Type} (l : List α) (g : State → α → State) (hg : ∀ s a, Grows s (g s a)) (s : State) : Grows s (s.each l g) :=
  State.each_keeps (P := Grows s) l g (fun t a h => h.trans (hg t a)) (refl s)

theorem sendFolios (s : State) (d : Nat) (fs : List Folio) : Grows s (s.sendFolios d fs) := by
  obtain ⟨l, h⟩ := State.sendFolios_out s d fs
  exact ⟨fun pg b hf => by rw [State.flag, State.rd_congr (State.sendFolios_live s d fs)]; exact hf, _, h⟩

theorem sendMg (s : State) (sd dst src id : Nat) (ws : List Nat) : Grows s (s.sendMg sd dst src id ws) := by
  unfold State.sendMg
  simp only
  split
  · exact refl s
  · split
    · exact sendFolios _ _ _
    · split <;> exact sendFolios _ _ _

/-- A bit of INT_RAW that becomes set. -/
theorem setRaw (s : State) (pg b : Nat) : Grows s (s.wr (INT_RAW_RAW pg) (s.rd (INT_RAW_RAW pg) ||| 2 ^ b)) := by
  refine ⟨fun q c h => ?_, [], rfl⟩
  by_cases e : q = pg
  · subst e
    have hc : c < 64 := by
      by_contra hc
      have : s.rd (INT_RAW_RAW q) < 2 ^ c :=
        Nat.lt_of_lt_of_le (BitVec.isLt _) (Nat.pow_le_pow_right (by decide) (by omega))
      rw [State.flag, Nat.testBit_lt_two_pow this] at h
      cases h
    rw [State.flag] at h
    rw [State.flag_wr_raw, Nat.testBit_or, h]
    simp [hc]
  · rw [State.flag, State.rd_wr_ne _ _ fun k => e (rawKey_inj k)]
    exact h

theorem msixSend (s : State) (pg : Nat) : Grows s (s.msixSend pg) := by
  unfold State.msixSend
  split
  · split
    · exact send s _
    · exact of_same rfl rfl
  · exact refl s

theorem recPut (s : State) (v : Nat) : Grows s (s.recPut v) := by
  unfold State.recPut
  split
  · extract_lets p s1 q s2
    have h1 : Grows s s1 := by
      simp only [s1]
      split <;> exact of_same rfl rfl
    have h2 : Grows s s2 := (h1.trans (wr s1 _ _ (by decide))).when _ _ fun s => wr s _ _ (by decide)
    exact h2.trans (of_same rfl rfl)
  · exact refl s

theorem recWrite (s : State) (typ w0 : Nat) (ws : List Nat) : Grows s (s.recWrite typ w0 ws) :=
  (recPut s _).trans (each _ _ (fun s _ => recPut s _) _)

theorem recTrigger (s : State) (code : Nat) (host : Bool) : Grows s (s.recTrigger code host).1 := by
  unfold State.recTrigger
  split
  · exact wr _ _ _ (by decide)
  · split
    · extract_lets s1 s2 s3 cap s4
      have h3 : Grows s s3 :=
        (((recWrite s _ _ _).trans (recWrite s1 _ _ _)).trans (wr s2 _ _ (by decide))).trans (wr _ _ _ (by decide))
      have h4 : Grows s s4 := h3.when _ _ fun s => (wr s _ _ (by decide)).trans (wr _ _ _ (by decide))
      exact h4.trans (of_same rfl rfl)
    · exact refl s

theorem setWord (s : State) (i : Nat) (v : Word72) : Grows s (s.setWord i v) := of_same rfl rfl

theorem qStore (s : State) (v : QView) (i : Nat) (e : Word72) : Grows s (s.qStore v i e) := by
  unfold State.qStore
  split
  · exact of_same rfl rfl
  · exact setWord _ _ _

theorem qSetTail (s : State) (q t : Nat) : Grows s (s.qSetTail q t) := by
  unfold State.qSetTail
  extract_lets s1 w2 used
  split
  · exact (setWord _ _ _).trans (setWord s1 _ _)
  · exact setWord _ _ _

theorem qSetDrop (s : State) (q n : Nat) : Grows s (s.qSetDrop q n) := setWord _ _ _

theorem qPush (s : State) (q : Nat) (es : List Word72) : Grows s (s.qPush q es) := by
  unfold State.qPush
  extract_lets v s1
  have h1 : Grows s s1 := each es.zipIdx (fun s e => s.qStore v (v.tail + e.2) e.1) (fun s e => qStore s v _ _) s
  exact h1.trans (qSetTail _ _ _)

theorem evtDeliver (s : State) (code : Nat) (extra : List Nat) : Grows s (s.evtDeliver code extra).1 := by
  unfold State.evtDeliver
  extract_lets ws s1 wv
  have h0 : Grows s s1 := of_same rfl rfl
  clear_value s1 ws wv
  split
  · exact ((h0.trans (send s1 _)).trans (sendMg _ _ _ _ _ _)).trans (sendMg _ _ _ _ _ _)
  · split
    · split
      · have h1 := (h0.trans (send s1 (.event false wv))).trans (qPush _ 2 (frameMsg ws))
        dsimp only
        exact h1
      · split
        · have h1 : Grows s { s1 with ctl := { s1.ctl with lost := s1.ctl.lost + 1 } } := h0.trans (of_same rfl rfl)
          have h2 := (h1.trans (qSetDrop _ 2 (s1.qDrop 2 + 1))).trans (bump _ QEN_CNT_DROP (by decide))
          dsimp only
          exact h2
        · exact h0.trans (send _ _)
    · exact h0

theorem note (n : Nat) (s : State) (x : Note) : Grows s (note n s x) := by
  induction n generalizing s x with
  | zero =>
    cases x with
    | intr pg b => exact setRaw s pg b
    | event code extra => exact refl s
    | trigger code host => exact refl s
  | succ n ih =>
    cases x with
    | intr pg b =>
      simp only [Machine.note]
      split
      · exact refl s
      · split
        · exact ((setRaw s pg b).trans (msixSend _ _)).trans (ih _ _)
        · exact setRaw s pg b
    | event code extra =>
      simp only [Machine.note]
      have h1 : Grows s (if s.isSender then s else s.recWrite 7 0 [code]) := by
        split
        · exact refl s
        · exact recWrite _ _ _ _
      generalize (if s.isSender then s else s.recWrite 7 0 [code]) = s1 at h1
      have h2 : Grows s (if s1.trigCode code then Machine.note n s1 (.trigger code false) else s1) := by
        split
        · exact h1.trans (ih _ _)
        · exact h1
      generalize (if s1.trigCode code then Machine.note n s1 (.trigger code false) else s1) = s2 at h2
      have h3 := h2.trans (evtDeliver s2 code extra)
      split
      · exact h3.trans (ih _ _)
      · exact h3
    | trigger code host =>
      simp only [Machine.note]
      split
      · exact (recTrigger s code host).trans (ih _ _)
      · exact recTrigger s code host

theorem raise (s : State) (pg b : Nat) : Grows s (s.raise pg b) := note 8 s _

end Grows

/-- What is raised is flagged. -/
theorem State.flag_note (n : Nat) (s : State) (pg b : Nat) (hb : b < 64) : (note (n + 1) s (.intr pg b)).flag pg b = true := by
  have hset : (s.wr (INT_RAW_RAW pg) (s.rd (INT_RAW_RAW pg) ||| 2 ^ b)).flag pg b = true := by
    rw [State.flag_wr_raw, Nat.testBit_or]
    simp [hb]
  simp only [note]
  split
  case isTrue h => exact h
  case isFalse =>
    split
    · exact ((Grows.msixSend _ _).trans (Grows.note n _ _)).flags _ _ hset
    · exact hset

theorem State.flag_raise (s : State) (pg b : Nat) (hb : b < 64) : (s.raise pg b).flag pg b = true := State.flag_note 7 s pg b hb

/-! ### The reach of an effect -/

/-- A change that touches, beside what notes change, register fields with keys in `own` and window words with indices in `words` alone:
nothing of the Quire sides but slots, frame memory where notes leave it alone, no flag lost and no output taken back. -/
structure Effect (own words : Nat → Bool) (s t : State) : Prop where
  regs : RegsKept own s t
  words : WordsKept words s t
  sides : SidesKept s t
  quiet : s.quietMem → t.quietMem
  mem : s.quietMem → t.mem = s.mem
  grows : Grows s t

namespace Effect
variable {own words : Nat → Bool} {s t u : State}

theorem refl (own words : Nat → Bool) (s : State) : Effect own words s s :=
  ⟨fun _ _ _ => rfl, fun _ _ _ => rfl, rfl, id, fun _ => rfl, .refl s⟩

theorem trans (h : Effect own words s t) (k : Effect own words t u) : Effect own words s u where
  regs i ho hn := (k.regs i ho hn).trans (h.regs i ho hn)
  words i ho hn := (k.words i ho hn).trans (h.words i ho hn)
  sides := k.sides.trans h.sides
  quiet hs := k.quiet (h.quiet hs)
  mem hs := (k.mem (h.quiet hs)).trans (h.mem hs)
  grows := h.grows.trans k.grows

/-- A wider reach. -/
theorem mono {own' words' : Nat → Bool} (h : Effect own words s t) (ho : ∀ k, own k = true → own' k = true)
    (hw : ∀ i, words i = true → words' i = true) : Effect own' words' s t :=
  { h with
    regs := fun k hk => h.regs k (Bool.eq_false_iff.mpr fun e => Bool.eq_false_iff.mp hk (ho k e))
    words := fun i hi => h.words i (Bool.eq_false_iff.mpr fun e => Bool.eq_false_iff.mp hi (hw i e)) }

theorem kept (h : Effect own (fun _ => false) s t) : Kept own s t := ⟨h.regs, h.words, h.sides, h.mem⟩

theorem flag (h : Effect own words s t) {pg b : Nat} (hf : s.flag pg b = true) : t.flag pg b = true := h.grows.flags pg b hf

/-- A field outside the reach reads as before. -/
theorem rd (h : Effect own words s t) {f : Fld} (hf : plainKey f.key = true) (ho : own f.key = false) : t.rd f = s.rd f := by
  rw [State.rd, h.regs _ ho (noteKey_of_plain hf), State.rd]

/-- A window word outside the reach reads as before. -/
theorem word (h : Effect own words s t) {i : Nat} (hi : noteWord i = false) (ho : words i = false) : t.word i = s.word i :=
  h.words i ho hi

theorem of_quiet (q : Quiet s t) (g : Grows s t) : Effect own words s t :=
  ⟨fun k _ => q.reg k, fun i _ => q.word i, q.sides, q.quietMem, q.mem, g⟩

/-- A change of neither the registers, the windows, frame memory nor the outputs. -/
theorem of_same (hl : t.live = s.live) (hw : t.win = s.win) (hm : t.mem = s.mem) (ho : t.out = s.out) (hs : SidesKept s t) :
    Effect own words s t := by
  refine ⟨fun k _ _ => by rw [hl], fun i _ _ => by rw [hw], hs, fun h => ?_, fun _ => hm, .of_same hl ho⟩
  refine ⟨?_, fun q hq => ?_⟩
  · simp only [State.isSender, State.role, State.rd_congr hl]
    exact h.1
  · have := h.2 q hq
    simp only [State.queue, State.word, hw] at this ⊢
    exact this

theorem raise (own words : Nat → Bool) (s : State) (pg b : Nat) : Effect own words s (s.raise pg b) :=
  .of_quiet (.raise s pg b) (.raise s pg b)

theorem trigger (own words : Nat → Bool) (s : State) (code : Nat) (host : Bool) : Effect own words s (s.trigger code host) :=
  .of_quiet (.trigger s code host) (.note 8 s _)

theorem recWrite (own words : Nat → Bool) (s : State) (typ w0 : Nat) (ws : List Nat) : Effect own words s (s.recWrite typ w0 ws) :=
  .of_quiet (.recWrite s typ w0 ws) (.recWrite s typ w0 ws)

theorem send (own words : Nat → Bool) (s : State) (e : Emit) : Effect own words s (s.send e) := .of_quiet (.send s e) (.send s e)

theorem sendFolios (own words : Nat → Bool) (s : State) (d : Nat) (fs : List Folio) : Effect own words s (s.sendFolios d fs) :=
  .of_quiet (.sendFolios s d fs) (.sendFolios s d fs)

theorem setPort (own words : Nat → Bool) (s : State) (p : Nat) (x : Port) : Effect own words s (s.setPort p x) :=
  .of_same rfl rfl rfl rfl rfl

theorem drawn (own words : Nat → Bool) (s : State) : Effect own words s s.drawn := .of_same rfl rfl rfl rfl rfl

/-- A write of a field in reach. -/
theorem wr (words : Nat → Bool) (s : State) (f : Fld) (v : Nat) (ho : own f.key = true) (hf : plainKey f.key = true) :
    Effect own words s (s.wr f v) := by
  have hk : ∀ g : Fld, plainKey g.key = false → (s.wr f v).rd g = s.rd g := fun g hg =>
    State.rd_wr_ne _ _ fun e => by rw [e, hf] at hg; cases hg
  refine ⟨fun k hk _ => Tbl.get_set_ne _ _ (by rintro rfl; rw [ho] at hk; cases hk), fun _ _ _ => rfl, rfl, fun h => ?_, fun _ => rfl,
    .wr s f v (off_ne_of_plain hf)⟩
  refine ⟨?_, h.2⟩
  simp only [State.isSender, State.role, hk HIF_STRAP_STAT_ROLE (by decide), hk REC_STAT_STATE (by decide)]
  exact h.1

theorem bumpBy (words : Nat → Bool) (s : State) (f : Fld) (n : Nat) (ho : own f.key = true) (hf : plainKey f.key = true) :
    Effect own words s (s.bumpBy f n) := wr words s f _ ho hf

theorem bump (words : Nat → Bool) (s : State) (f : Fld) (ho : own f.key = true) (hf : plainKey f.key = true) :
    Effect own words s (s.bump f) := wr words s f _ ho hf

/-- A change of window words in reach, below those of the queues. -/
theorem of_win (hw : ∀ i, words i = false → t.win.get i = s.win.get i) (hq : ∀ i, 0x800000 ≤ i → t.win.get i = s.win.get i)
    (hl : t.live = s.live) (hm : t.mem = s.mem) (ho : t.out = s.out) (hs : SidesKept s t) : Effect own words s t := by
  refine ⟨fun k _ _ => by rw [hl], fun i hi _ => hw i hi, hs, fun h => ⟨?_, fun q hd => ?_⟩, fun _ => hm, .of_same hl ho⟩
  · simp only [State.isSender, State.role, State.rd_congr hl]
    exact h.1
  · have := h.2 q hd
    simp only [State.queue, State.word, hq (qDesc q 0) (by simp only [qDesc]; omega)] at this ⊢
    exact this

theorem setWord (own : Nat → Bool) (s : State) (i : Nat) (v : Word72) (hw : words i = true) (hi : i < 0x800000) :
    Effect own words s (s.setWord i v) :=
  .of_win (fun j hj => Tbl.get_set_ne _ _ (by rintro rfl; rw [hw] at hj; cases hj)) (fun j hj => Tbl.get_set_ne _ _ (by omega))
    rfl rfl rfl rfl

theorem when (h : Effect own words s t) (c : Bool) {g : State → State} (hg : ∀ s, Effect own words s (g s)) :
    Effect own words s (t.when c g) :=
  State.when_keeps (P := Effect own words s) c g (fun t h => h.trans (hg t)) h

theorem each {α : Type} (l : List α) {g : State → α → State} (hg : ∀ s, ∀ a ∈ l, Effect own words s (g s a)) (s : State) :
    Effect own words s (s.each l g) := by
  induction l generalizing s with
  | nil => exact refl own words s
  | cons a l ih =>
    exact (hg s a List.mem_cons_self).trans (ih (fun s b hb => hg s b (List.mem_cons_of_mem a hb)) _)

end Effect

/-- What one part of a run gives, the whole run gives. -/
theorem Sent.of_grows {s t u v : State} {e : Emit} (h : Grows s t) (he : Sent t u e) (k : Grows u v) : Sent s v e := by
  obtain ⟨a, b, he⟩ := he
  obtain ⟨c, hc⟩ := h.out
  obtain ⟨d, hd⟩ := k.out
  exact ⟨d ++ a, b ++ c, by rw [hd, he, hc]; simp⟩

theorem sent_send (s : State) (e : Emit) : Sent s (s.send e) e := ⟨[], [], rfl⟩

/-! ### The errors of a page -/

theorem keysOf_mem {fs : List Fld} {f : Fld} (h : f ∈ fs) : keysOf fs f.key = true :=
  List.any_eq_true.mpr ⟨f, h, beq_self_eq_true _⟩

theorem keysOf_subset {fs gs : List Fld} (h : fs ⊆ gs) (k : Nat) (hk : keysOf fs k = true) : keysOf gs k = true := by
  obtain ⟨f, hf, e⟩ := List.any_eq_true.mp hk
  exact List.any_eq_true.mpr ⟨f, h hf, e⟩

theorem keysOf_iff {fs : List Fld} {k : Nat} : keysOf fs k = true ↔ ∃ f ∈ fs, f.key = k := by simp [keysOf]

/-- Neither the role nor an interrupt flag lies among what an error capture touches. -/
theorem errFields_plain (pg : Nat) : ∀ f ∈ errFields pg, plainKey f.key = true := by
  simp only [errFields, List.forall_mem_cons]
  exact ⟨plainKey_of_header rfl rfl, plainKey_of_header rfl rfl, plainKey_of_header rfl rfl,
    plainKey_of_header rfl rfl, plainKey_of_header rfl rfl, plainKey_of_header rfl rfl,
    plainKey_of_header rfl rfl, by decide, by decide, nofun⟩

/-- The fields of the trace ring's stop (R265). -/
def traceFields : List Fld := [CCC_TRACE_STAT_FROZEN, CCC_TRACE_STAT_FRAME]

theorem Effect.traceStop {own : Nat → Bool} (words : Nat → Bool) (s : State) (ho : ∀ k, keysOf traceFields k = true → own k = true) :
    Effect own words s s.traceStop := by
  unfold State.traceStop
  split
  · exact .refl own words s
  · exact ((Effect.wr words s _ _ (ho _ (by decide)) (by decide)).trans (.wr words _ _ _ (ho _ (by decide)) (by decide))).trans
      (.raise own words _ 1 5)

/-- What follows the values of an error capture: the page's flag, the trace ring and the recorder. -/
def State.captureNotes (s : State) (pg : Nat) (freeze trig : Bool) : State :=
  ((s.raise pg 0).when freeze State.traceStop).when trig fun s => s.trigger 0 false

theorem State.capture_first (s : State) (pg code : Nat) (src : Requester) (off val : Nat) (h : s.on (ERR_CAP0_VALID pg) = false) :
    s.capture pg code src off val = (((((((s.wr (ERR_CAP0_CODE pg) code).wr (ERR_CAP0_VALID pg) 1).wr (ERR_CAP0_MORE pg) 0).wr
      (ERR_CAP0_SRC pg) (srcCode src)).wr (ERR_CAP0_OFFSET pg) off).wr (ERR_CAP0_FRAME pg) s.frame).wr (ERR_CAP1_VALUE pg) val).captureNotes
        pg (s.on CCC_TRACE_FREEZE_ON_ERR) (s.on REC_TRIG_CFG_ON_ERR) := by
  unfold State.capture
  rw [if_neg (Bool.eq_false_iff.mp h)]
  rfl

theorem State.capture_later (s : State) (pg code : Nat) (src : Requester) (off val : Nat) (h : s.on (ERR_CAP0_VALID pg) = true) :
    s.capture pg code src off val = s.wr (ERR_CAP0_MORE pg) 1 := by
  unfold State.capture
  rw [if_pos h]

theorem Effect.captureNotes {own : Nat → Bool} (words : Nat → Bool) (s : State) (pg : Nat) (freeze trig : Bool)
    (ho : ∀ k, keysOf traceFields k = true → own k = true) : Effect own words s (s.captureNotes pg freeze trig) :=
  ((Effect.raise own words s pg 0).when _ fun s => .traceStop words s ho).when _ fun s => .trigger own words s 0 false

theorem Effect.capture {own : Nat → Bool} (words : Nat → Bool) (s : State) (pg code : Nat) (src : Requester) (off val : Nat)
    (ho : ∀ k, keysOf (errFields pg) k = true → own k = true) : Effect own words s (s.capture pg code src off val) := by
  have hw (s : State) (f : Fld) (v : Nat) (hf : f ∈ errFields pg) : Effect own words s (s.wr f v) :=
    .wr words s f v (ho _ (keysOf_mem hf)) (errFields_plain pg f hf)
  by_cases h : s.on (ERR_CAP0_VALID pg) = true
  · rw [State.capture_later _ _ _ _ _ _ h]
    exact hw _ _ _ (by simp [errFields])
  · rw [State.capture_first _ _ _ _ _ _ (Bool.eq_false_iff.mpr h)]
    refine Effect.trans ?_ (.captureNotes words _ pg _ _ fun k hk => ho k ?_)
    · exact ((((((hw _ _ _ (by simp [errFields])).trans (hw _ _ _ (by simp [errFields]))).trans (hw _ _ _ (by simp [errFields]))).trans
        (hw _ _ _ (by simp [errFields]))).trans (hw _ _ _ (by simp [errFields]))).trans (hw _ _ _ (by simp [errFields]))).trans
        (hw _ _ _ (by simp [errFields]))
    · obtain ⟨f, hf, rfl⟩ := keysOf_iff.mp hk
      refine keysOf_mem ?_
      exact List.mem_append_right (errFields pg |>.take 7) hf

/-- A header field keeps its value through what follows an error capture. -/
theorem State.captureNotes_rd (s : State) (pg : Nat) (freeze trig : Bool) {f : Fld} (hf : f.shape = true) (ho : decide (f.off < 128) = true) :
    (s.captureNotes pg freeze trig).rd f = s.rd f := by
  refine (Effect.captureNotes (own := keysOf traceFields) (fun _ => false) s pg freeze trig fun _ h => h).rd (plainKey_of_header hf ho) ?_
  obtain ⟨-, -, hl⟩ := of_decide_eq_true hf
  have := of_decide_eq_true ho
  simp only [keysOf, traceFields, List.any_cons, List.any_nil, Fld.key, CCC_TRACE_STAT_FROZEN, CCC_TRACE_STAT_FRAME, Bool.or_false,
    Bool.or_eq_false_iff, beq_eq_false_iff_ne]
  omega

/-- After an error capture the page shows an error. -/
theorem State.capture_valid (s : State) (pg code : Nat) (src : Requester) (off val : Nat) :
    (s.capture pg code src off val).rd (ERR_CAP0_VALID pg) = 1 := by
  by_cases h : s.on (ERR_CAP0_VALID pg) = true
  · rw [State.capture_later _ _ _ _ _ _ h, State.rd_wr_ne _ _ (by simp [Fld.key, ERR_CAP0_VALID, ERR_CAP0_MORE])]
    simpa [State.on] using h
  · rw [State.capture_first _ _ _ _ _ _ (Bool.eq_false_iff.mpr h), State.captureNotes_rd _ _ _ _ rfl rfl]
    simp [State.rd_wr, Fld.key, ERR_CAP0_CODE, ERR_CAP0_VALID, ERR_CAP0_MORE, ERR_CAP0_SRC, ERR_CAP0_OFFSET, ERR_CAP0_FRAME,
      ERR_CAP1_VALUE]
    omega

theorem State.capture_on (s : State) (pg code : Nat) (src : Requester) (off val : Nat) :
    (s.capture pg code src off val).on (ERR_CAP0_VALID pg) = true := by rw [State.on, State.capture_valid]; rfl

/-- The first error's code is captured. -/
theorem State.capture_code (s : State) (pg code : Nat) (src : Requester) (off val : Nat) (h : s.on (ERR_CAP0_VALID pg) = false)
    (hc : code < 256) : (s.capture pg code src off val).rd (ERR_CAP0_CODE pg) = code := by
  rw [State.capture_first _ _ _ _ _ _ h, State.captureNotes_rd _ _ _ _ rfl rfl]
  simp [State.rd_wr, Fld.key, ERR_CAP0_CODE, ERR_CAP0_VALID, ERR_CAP0_MORE, ERR_CAP0_SRC, ERR_CAP0_OFFSET, ERR_CAP0_FRAME,
    ERR_CAP1_VALUE]
  omega

end Sys2Proof.Machine
end

