-- ==== Sys2Proof/Proofs/IntakeEvents.lean ====
section
/-! SUPPORT. The messages and events of a source port (R53 to R57, R60). -/

namespace Sys2Proof.Machine

/-! ### Ports -/

theorem State.port_setPort_self (s : State) {p : Nat} (x : Port) (hp : p < s.ports.length) : (s.setPort p x).port p = x := by
  simp [State.port, State.setPort, List.getD_eq_getElem?_getD, hp]

theorem State.port_setPort_ne (s : State) {p q : Nat} (x : Port) (hq : q ≠ p) : (s.setPort p x).port q = s.port q := by
  simp [State.port, State.setPort, List.getD_eq_getElem?_getD, Ne.symm hq]

theorem State.port_congr {s t : State} (h : t.ports = s.ports) (p : Nat) : t.port p = s.port p := by rw [State.port, h, State.port]

theorem b2n_lt (b : Bool) : b2n b < 2 ^ 1 := by cases b <;> decide

/-! ### The link state (Table 03-2) -/

@[simp] theorem State.ingLink_ports (s : State) (p : Nat) (up : Bool) : (s.ingLink p up).ports = s.ports := by
  unfold State.ingLink; split <;> simp

theorem State.ingLink_rd (s : State) (p : Nat) (up : Bool) : (s.ingLink p up).rd (ING_SRC_STAT_LINK p) = b2n up := by
  unfold State.ingLink
  split
  case isTrue h => exact h
  case isFalse =>
    rw [State.raise_rd _ _ _ _ (noteKey_of_plain (plainKey_ing rfl rfl)), State.rd_wr_of _ _ 1 rfl (b2n_lt up) (by decide)]

theorem State.ingLink_flag (s : State) (p : Nat) (up : Bool) (h : s.rd (ING_SRC_STAT_LINK p) ≠ b2n up) :
    (s.ingLink p up).flag (0x10 + p) 4 = true := by
  rw [State.ingLink, if_neg h]
  exact State.flag_raise _ _ _ (by decide)

theorem Effect.ingLink {own : Nat → Bool} (words : Nat → Bool) (s : State) (p : Nat) (up : Bool)
    (ho : own (ING_SRC_STAT_LINK p).key = true) : Effect own words s (s.ingLink p up) := by
  unfold State.ingLink
  split
  · exact .refl own words s
  · exact (Effect.wr words s _ _ ho (plainKey_ing rfl rfl)).trans (.raise own words _ _ _)

/-! ### The held pick (R58, R60) -/

theorem Effect.ingHold {own : Nat → Bool} (words : Nat → Bool) (s : State) (p : Nat)
    (ho : own (ING_PICK_STAT_STATE p).key = true) : Effect own words s (s.ingHold p) := by
  unfold State.ingHold
  split
  · exact ((Effect.setPort own words s p _).trans (.wr words _ _ _ ho (plainKey_ing rfl rfl))).trans (.raise own words _ _ _)
  · exact .refl own words s

theorem State.ingHold_port_ne (s : State) {p q : Nat} (hq : q ≠ p) : (s.ingHold p).port q = s.port q := by
  unfold State.ingHold
  split
  · rw [State.port_congr (State.raise_ports _ _ _), State.port_congr (State.wr_ports _ _ _), State.port_setPort_ne _ _ hq]
  · rfl

/-- A current pick that is not held becomes held. -/
theorem State.ingHold_held (s : State) {p : Nat} (hp : p < s.ports.length) (h : s.rd (ING_PICK_STAT_STATE p) = 0) :
    (s.ingHold p).rd (ING_PICK_STAT_STATE p) = 1 ∧ ((s.ingHold p).port p).pickD.state = 1 := by
  rw [State.ingHold, if_pos h]
  constructor
  · rw [State.raise_rd _ _ _ _ (noteKey_of_plain (plainKey_ing rfl rfl)), State.rd_wr_of _ _ 2 rfl (by decide) (by decide)]
  · rw [State.port_congr (State.raise_ports _ _ _), State.port_congr (State.wr_ports _ _ _), State.port_setPort_self _ _ hp]

/-! ### A source port's events -/

theorem bitsOf_byte (v k : Nat) : bitsOf v (8 * k + 7) (8 * k) = v / 2 ^ (8 * k) % 256 := by
  rw [bitsOf, Nat.shiftRight_eq_div_pow, show 8 * k + 7 + 1 - 8 * k = 8 by omega]
  rfl

theorem exec_auxTransaction (s : State) (p : Fin 4) (h : s.ingRun p = 1) :
    exec (.auxTransaction p .invalid) s = .next ((s.bump (ING_CNT_B_AUX_ERR p)).send (.net p .auxNack [])) ∧
    (∀ o : BitVec 8, exec (.auxTransaction p (.edid o)) s = .next (s.send (.net p .edid
      [o.toNat, s.rd (ING_EDID_DATA p (o.toNat / 8)) / 2 ^ (8 * (o.toNat % 8)) % 256]))) ∧
    ∀ a : BitVec 20, ∃ v < 256, exec (.auxTransaction p (.dpcd a)) s = .next (s.send (.net p .auxAck [a.toNat, v])).drawn := by
  have hrun (a : AuxReq) : exec (.auxTransaction p a) s = execAuxTransaction p a s := rfl
  simp only [hrun, execAuxTransaction, if_pos h, bitsOf_byte]
  exact ⟨trivial, fun _ => trivial, fun a => ⟨s.free % 256, Nat.mod_lt _ (by decide), rfl⟩⟩

theorem exec_st2110Packet_foreign (s : State) (p : Fin 4) (k : Packet) (h : s.ingRun p = 2) (hm : s.streamMatch p k = false) :
    exec (.st2110Packet p k) s = .next (s.bump (ING_CNT_B_FOREIGN p)) := by
  change execSt2110Packet p k s = _
  simp [execSt2110Packet, h, hm]

theorem exec_st2110Packet_idle (s : State) (p : Fin 4) (k : Packet) (h : s.ingRun p = 2) (hm : s.streamMatch p k = true)
    (hc : (s.port (s.ingLower p)).cur = none) : exec (.st2110Packet p k) s = .next s := by
  change execSt2110Packet p k s = _
  simp [execSt2110Packet, h, hm, hc]

theorem exec_st2110Packet_stored (s : State) (p : Fin 4) (k : Packet) (i : Nat) (h : s.ingRun p = 2) (hm : s.streamMatch p k = true)
    (hc : (s.port (s.ingLower p)).cur = some i) (hk : k.stored = true) :
    exec (.st2110Packet p k) s = .next
      (if (s.port (s.ingLower p)).packetFits i k then
        { s with mem := s.mem.setMany ((s.port (s.ingLower p)).packetAddr i k) (s.packetBytes (s.ingLower p) (s.port (s.ingLower p)) k) }
      else s) := by
  change execSt2110Packet p k s = _
  simp only [execSt2110Packet, h, hm, hc, hk, if_true, Bool.true_eq_false, if_false]
  split <;> rfl

theorem exec_st2110Packet_lost (s : State) (p : Fin 4) (k : Packet) (i : Nat) (h : s.ingRun p = 2) (hm : s.streamMatch p k = true)
    (hc : (s.port (s.ingLower p)).cur = some i) (hk : k.stored = false) :
    exec (.st2110Packet p k) s =
      .next { s with ports := s.ports.set (s.ingLower p) { s.port (s.ingLower p) with lost := true } } := by
  change execSt2110Packet p k s = _
  simp only [execSt2110Packet, h, hm, hc, hk, if_true]
  rfl

/-- Link training (R53): the link is up, at a rate and lane count within the port's bounds. -/
theorem exec_dpLinkTraining (s : State) (p : Fin 4) (hs : s.Inv) (rate lanes : BitVec 2) (h : s.ingRun p = 1) :
    ∃ t, exec (.dpLinkTraining p rate lanes) s = .next t ∧
      t.rd (ING_SRC_STAT_LINK p) = 1 ∧ (t.port p).dpRate = min rate.toNat (s.rd (ING_CFG_DP_MAXRATE p)) ∧
      (t.port p).dpLanes = min lanes.toNat (s.rd (ING_CFG_DP_LANES p)) ∧ (∀ q, q ≠ p.val → t.port q = s.port q) ∧
      RegsKept (keysOf [ING_SRC_STAT_LINK p]) s t ∧ WordsKept (fun _ => false) s t ∧ (s.quietMem → t.mem = s.mem) := by
  have hp : p.val < s.ports.length := by rw [hs.ports]; exact p.isLt
  set x : Port := { s.port p with dpRate := min rate.toNat (s.rd (ING_CFG_DP_MAXRATE p)),
                                  dpLanes := min lanes.toNat (s.rd (ING_CFG_DP_LANES p)) } with hx
  have he : Effect (keysOf [ING_SRC_STAT_LINK p]) (fun _ => false) s ((s.setPort p x).ingLink p true) :=
    (Effect.setPort _ _ s p x).trans (.ingLink _ _ _ _ (keysOf_mem (List.mem_singleton_self _)))
  have hself : ((s.setPort p x).ingLink p true).port p = x := by
    rw [State.port_congr (State.ingLink_ports _ _ _), State.port_setPort_self _ _ hp]
  refine ⟨(s.setPort p x).ingLink p true, ?_, State.ingLink_rd _ _ _, by rw [hself], by rw [hself], fun q hq => ?_, he.regs, he.words, he.mem⟩
  · change execDpLinkTraining p rate lanes s = _
    rw [execDpLinkTraining, if_pos h]
  · rw [State.port_congr (State.ingLink_ports _ _ _), State.port_setPort_ne _ _ hq]

/-- Block lock (Table 03-2): the link state follows it, and a change is noted. -/
theorem exec_ingBlockLockChange (s : State) (p : Fin 4) (locked : Bool) (h : s.ingRun p = 2) :
    ∃ t, exec (.ingBlockLockChange p locked) s = .next t ∧
      t.rd (ING_SRC_STAT_LINK p) = b2n locked ∧ t.ports = s.ports ∧
      (s.rd (ING_SRC_STAT_LINK p) ≠ b2n locked → t.flag (0x10 + p) 4 = true) ∧
      RegsKept (keysOf [ING_SRC_STAT_LINK p]) s t ∧ WordsKept (fun _ => false) s t ∧ (s.quietMem → t.mem = s.mem) := by
  have he : Effect (keysOf [ING_SRC_STAT_LINK p]) (fun _ => false) s (s.ingLink p locked) :=
    .ingLink _ _ _ _ (keysOf_mem (List.mem_singleton_self _))
  refine ⟨s.ingLink p locked, ?_, State.ingLink_rd _ _ _, State.ingLink_ports _ _ _, State.ingLink_flag _ _ _, he.regs, he.words, he.mem⟩
  change execIngBlockLockChange p locked s = _
  rw [execIngBlockLockChange, if_pos h]


/-- Loss of signal (R60): LOS stands and is noted, and the pick is held. -/
theorem exec_lossOfSignal (s : State) (p : Fin 4) (hs : s.Inv) (h : s.ingRun p ≠ 0) :
    ∃ t, exec (.lossOfSignal p) s = .next t ∧ t.rd (ING_SRC_STAT_LOS p) = 1 ∧
      (s.rd (ING_PICK_STAT_STATE p) = 0 → t.rd (ING_PICK_STAT_STATE p) = 1 ∧ (t.port p).pickD.state = 1) ∧
      (s.rd (ING_SRC_STAT_LOS p) ≠ 1 → t.flag (0x10 + p) 5 = true) ∧ (∀ q, q ≠ p.val → t.port q = s.port q) ∧
      RegsKept (keysOf [ING_SRC_STAT_LOS p, ING_PICK_STAT_STATE p]) s t ∧ WordsKept (fun _ => false) s t ∧ (s.quietMem → t.mem = s.mem) := by
  have hlos : plainKey (ING_SRC_STAT_LOS p).key = true := plainKey_ing rfl rfl
  have hst : plainKey (ING_PICK_STAT_STATE p).key = true := plainKey_ing rfl rfl
  have hkeys : (ING_PICK_STAT_STATE p).key ≠ (ING_SRC_STAT_LOS p).key := by
    simp only [Fld.key, ING_PICK_STAT_STATE, ING_SRC_STAT_LOS]; omega
  let s1 := s.when (!s.on (ING_SRC_STAT_LOS p)) fun s => (s.wr (ING_SRC_STAT_LOS p) 1).raise (0x10 + p.val) 5
  have he1 : Effect (keysOf [ING_SRC_STAT_LOS p]) (fun _ => false) s s1 :=
    (Effect.refl _ _ s).when _ fun s => (Effect.wr _ s _ _ (keysOf_mem List.mem_cons_self) hlos).trans (.raise _ _ _ _ _)
  have he2 : Effect (keysOf [ING_PICK_STAT_STATE p]) (fun _ => false) s1 (s1.ingHold p) := .ingHold _ _ _ (keysOf_mem List.mem_cons_self)
  have hports : s1.ports = s.ports := State.when_keeps (P := fun t => t.ports = s.ports) _ _ (fun t ht => by simpa using ht) rfl
  have hone : s1.rd (ING_SRC_STAT_LOS p) = 1 ∧ (s.rd (ING_SRC_STAT_LOS p) ≠ 1 → s1.flag (0x10 + p) 5 = true) := by
    by_cases hon : s.on (ING_SRC_STAT_LOS p) = true
    · simp only [s1, hon, Bool.not_true, State.when_false]
      exact ⟨by simpa [State.on] using hon, fun hne => absurd (by simpa [State.on] using hon) hne⟩
    · rw [Bool.not_eq_true] at hon
      simp only [s1, hon, Bool.not_false, State.when_true]
      exact ⟨by rw [State.raise_rd _ _ _ _ (noteKey_of_plain hlos), State.rd_wr_of _ _ 1 rfl (by decide) (by decide)],
        fun _ => State.flag_raise _ _ _ (by decide)⟩
  obtain ⟨hrd, hflag⟩ := hone
  have hall : Effect (keysOf [ING_SRC_STAT_LOS p, ING_PICK_STAT_STATE p]) (fun _ => false) s (s1.ingHold p) :=
    (he1.mono (fun k hk => by simp_all [keysOf]) fun _ h => h).trans (he2.mono (fun k hk => by simp_all [keysOf]) fun _ h => h)
  refine ⟨s1.ingHold p, ?_, ?_, fun hz => ?_, fun hne => he2.flag (hflag hne), fun q hq => ?_, hall.regs, hall.words, hall.mem⟩
  · change execLossOfSignal p s = _
    rw [execLossOfSignal, if_neg h]
  · rw [he2.rd hlos (by simpa [keysOf] using hkeys), hrd]
  · refine State.ingHold_held s1 (by rw [hports, hs.ports]; exact p.isLt) ?_
    rw [he1.rd hst (by simpa [keysOf] using hkeys.symm), hz]
  · rw [State.ingHold_port_ne _ hq, State.port_congr hports]

/-- A late path (R57): its packets are counted and PATH is noted. -/
theorem exec_pathLate (s : State) (p : Fin 4) (upper : Bool) (skew n : Nat) (hpair : s.on (ING_CFG_PAIR p) = true)
    (hp : p.val = 0 ∨ p.val = 2) (hrun : s.ingRun p = 2) (hskew : s.rd (ING_TIMING_SKEW_US p) < skew) :
    ∃ t, exec (.pathLate p upper skew n) s = .next t ∧ t.flag (0x10 + p) 11 = true ∧ t.ports = s.ports ∧
      (let f := if upper then ING_CNT_B_LATE_P1 p else ING_CNT_B_LATE_P0 p
       t.rd f = min (s.rd f + n) (2 ^ f.w - 1) ∧ RegsKept (keysOf [f]) s t) ∧
      WordsKept (fun _ => false) s t ∧ (s.quietMem → t.mem = s.mem) := by
  have hexec : exec (.pathLate p upper skew n) s =
      .next ((s.bumpBy (if upper then ING_CNT_B_LATE_P1 p else ING_CNT_B_LATE_P0 p) n).raise (0x10 + p.val) 11) := by
    change execPathLate p upper skew n s = _
    rw [execPathLate, if_pos ⟨hpair, hp, hrun, hskew⟩]
  have hplain : plainKey (if upper then ING_CNT_B_LATE_P1 p else ING_CNT_B_LATE_P0 p).key = true := by
    cases upper <;> exact plainKey_ing rfl rfl
  have hwide : (if upper then ING_CNT_B_LATE_P1 p else ING_CNT_B_LATE_P0 p).w ≤ 64 := by cases upper <;> simp [ING_CNT_B_LATE_P1, ING_CNT_B_LATE_P0]
  rw [hexec]
  generalize (if upper then ING_CNT_B_LATE_P1 p else ING_CNT_B_LATE_P0 p) = f at hplain hwide
  have he : Effect (keysOf [f]) (fun _ => false) s ((s.bumpBy f n).raise (0x10 + p.val) 11) :=
    (Effect.bumpBy _ s f n (keysOf_mem List.mem_cons_self) hplain).trans (.raise _ _ _ _ _)
  refine ⟨_, rfl, State.flag_raise _ _ _ (by decide), by simp [State.bumpBy], ⟨?_, he.regs⟩, he.words, he.mem⟩
  rw [State.raise_rd _ _ _ _ (noteKey_of_plain hplain), State.rd_bumpBy _ _ _ hwide]

/-- Settles O6: each message is answered by its command's definition, and the link state, LOS and the late path each have their rule. -/
theorem intakeEvents : Obligations.IntakeEvents := by
  unfold Obligations.IntakeEvents
  refine ⟨fun s p => ⟨exec_auxTransaction s p, fun h => ⟨fun hj => ?_, fun ip hip => ?_, fun k => ?_⟩⟩, fun s p hs => ?_⟩
  · change execIgmpQuery p s = _
    rw [execIgmpQuery, if_pos ⟨h, hj⟩]
  · change execArpRequest p ip s = _
    rw [execArpRequest, if_pos ⟨h, hip⟩]
  · exact ⟨exec_st2110Packet_foreign s p k h, exec_st2110Packet_idle s p k h,
      fun i hm hc => ⟨exec_st2110Packet_stored s p k i h hm hc, exec_st2110Packet_lost s p k i h hm hc⟩⟩
  · exact ⟨fun rate lanes => exec_dpLinkTraining s p hs rate lanes, exec_ingBlockLockChange s p, exec_lossOfSignal s p hs,
      fun upper skew n => exec_pathLate s p upper skew n⟩

end Sys2Proof.Machine
end

