-- ==== Sys2Proof/Proofs/PicksOfAStandby.lean ====
section
/-! SUPPORT. The picks of a standby sender (R68, R69), port by port. -/

namespace Sys2Proof.Machine

/-! ### Effects within pages -/

theorem pagesOf_iff {ps : List Nat} {f : Fld} (h : f.shape = true) : pagesOf ps f.key = true ↔ f.page ∈ ps := by
  simp [pagesOf, keyPage_key h]

theorem pagesOf_singleton {f : Fld} (h : f.shape = true) : pagesOf [f.page] f.key = true := (pagesOf_iff h).mpr List.mem_cons_self

theorem pagesOf_mono {ps qs : List Nat} (h : ps ⊆ qs) (k : Nat) (hk : pagesOf ps k = true) : pagesOf qs k = true := by
  simp only [pagesOf, List.contains_eq_mem, decide_eq_true_eq] at hk ⊢
  exact h hk

/-- A fold over a list passes each of its members once, between those before it and those after it. -/
theorem State.each_at {α : Type} {l : List α} (hl : l.Nodup) {a : α} (ha : a ∈ l) (g : State → α → State) (s : State) :
    ∃ l1 l2, l1 ⊆ l ∧ l2 ⊆ l ∧ a ∉ l1 ∧ a ∉ l2 ∧ s.each l g = (g (s.each l1 g) a).each l2 g := by
  obtain ⟨l1, l2, rfl⟩ := List.append_of_mem ha
  obtain ⟨-, hnd, hdis⟩ := List.nodup_append.mp hl
  refine ⟨l1, l2, List.subset_append_left _ _, fun x hx => List.mem_append_right _ (List.mem_cons_of_mem _ hx), fun h1 => ?_,
    (List.nodup_cons.mp hnd).1, by simp [State.each]⟩
  exact hdis a h1 a List.mem_cons_self rfl

/-- Changes that each stay within a page of their own stay, together, within those pages. -/
theorem Effect.each_pages {words : Nat → Bool} {l : List Nat} {g : State → Nat → State} {pg : Nat → Nat}
    (hg : ∀ s, ∀ p ∈ l, Effect (pagesOf [pg p]) words s (g s p)) (s : State) : Effect (pagesOf (l.map pg)) words s (s.each l g) := by
  refine Effect.each l (fun s p hp => (hg s p hp).mono (pagesOf_mono ?_) fun _ h => h) s
  exact fun q hq => List.mem_singleton.mp hq ▸ List.mem_map_of_mem hp

/-- What a fold over ports does to a field of one of them: the field is as the port's own turn leaves it, and that turn finds it as it was. -/
theorem Effect.each_port {words : Nat → Bool} {l : List Nat} (hl : l.Nodup) {g : State → Nat → State}
    (hg : ∀ s, ∀ p ∈ l, Effect (pagesOf [16 + p]) words s (g s p)) (s : State) {p : Nat} (hp : p ∈ l) :
    ∃ u, Grows (g u p) (s.each l g) ∧ ∀ f : Fld, f.shape = true → f.page = 16 + p →
      u.rd f = s.rd f ∧ (s.each l g).rd f = (g u p).rd f := by
  obtain ⟨l1, l2, hs1, hs2, h1, h2, heq⟩ := State.each_at hl hp g s
  have before := Effect.each_pages (words := words) (g := g) (l := l1) (pg := (16 + ·)) (fun s q hq => hg s q (hs1 hq)) s
  have after := Effect.each_pages (words := words) (g := g) (l := l2) (pg := (16 + ·)) (fun s q hq => hg s q (hs2 hq)) (g (s.each l1 g) p)
  have hout (l : List Nat) (h : p ∉ l) (f : Fld) (hf : f.shape = true) (hpg : f.page = 16 + p) :
      pagesOf (l.map (16 + ·)) f.key = false := by
    rw [Bool.eq_false_iff]
    intro hk
    obtain ⟨q, hq, e⟩ := List.mem_map.mp ((pagesOf_iff hf).mp hk)
    have : q = p := by rw [hpg] at e; omega
    exact h (this ▸ hq)
  rw [heq]
  exact ⟨s.each l1 g, after.grows, fun f hf hpg =>
    ⟨before.rd (plainKey_ing hf hpg) (hout l1 h1 f hf hpg), after.rd (plainKey_ing hf hpg) (hout l2 h2 f hf hpg)⟩⟩

/-! ### One port's picks (R65, R68) -/

/-- What shows a port's picks. -/
def pickFields (p : Nat) : List Fld := [ING_PICK_STAT_BUF p, ING_PICK_STAT_STATE p, ING_PICK_STAT_FOLLOW p, ING_PICK_STAT_STAMP p]

theorem Effect.ingTake (words : Nat → Bool) (s : State) (p n : Nat) (d sl : IngPick) (follow : Bool) :
    Effect (keysOf (pickFields p)) words s (s.ingTake p n d sl follow) := by
  have hw (s : State) (f : Fld) (v : Nat) (hm : f ∈ pickFields p) (hf : f.shape = true) (hp : f.page = 16 + p) :
      Effect (keysOf (pickFields p)) words s (s.wr f v) := .wr words s f v (keysOf_mem hm) (plainKey_ing hf hp)
  unfold State.ingTake
  extract_lets x hold y wasHeld s1 s2
  have h1 : Effect (keysOf (pickFields p)) words s s1 :=
    ((((Effect.setPort _ words s p y).trans (hw _ _ _ (by simp [pickFields]) rfl rfl)).trans (hw _ _ _ (by simp [pickFields]) rfl rfl)).trans
      (hw _ _ _ (by simp [pickFields]) rfl rfl)).trans (hw _ _ _ (by simp [pickFields]) rfl rfl)
  have h2 : Effect (keysOf (pickFields p)) words s s2 := h1.when _ fun s => .raise _ _ s _ _
  split
  · exact h2.trans (.recWrite _ _ _ _ _ _)
  · exact h2

theorem pickFields_page (p k : Nat) (h : keysOf (pickFields p) k = true) : pagesOf [16 + p] k = true := by
  obtain ⟨f, hf, rfl⟩ := keysOf_iff.mp h
  simp only [pickFields, List.mem_cons, List.not_mem_nil, or_false] at hf
  rcases hf with rfl | rfl | rfl | rfl <;> exact pagesOf_singleton rfl

theorem Effect.ingTake_page (words : Nat → Bool) (s : State) (p n : Nat) (d sl : IngPick) (follow : Bool) :
    Effect (pagesOf [16 + p]) words s (s.ingTake p n d sl follow) :=
  (Effect.ingTake words s p n d sl follow).mono (pickFields_page p) fun _ h => h

/-- FOLLOW shows whether the picks follow a record. -/
theorem State.ingTake_follow (s : State) (p n : Nat) (d sl : IngPick) (follow : Bool) :
    (s.ingTake p n d sl follow).rd (ING_PICK_STAT_FOLLOW p) = b2n follow := by
  have hplain : noteKey (ING_PICK_STAT_FOLLOW p).key = false := noteKey_of_plain (plainKey_ing rfl rfl)
  unfold State.ingTake
  extract_lets x hold y wasHeld s1 s2
  have h1 : s1.rd (ING_PICK_STAT_FOLLOW p) = b2n follow := by
    rw [State.rd_wr_ne _ _ (by simp only [Fld.key, ING_PICK_STAT_FOLLOW, ING_PICK_STAT_STAMP]; omega),
      State.rd_wr_of _ _ 1 rfl (b2n_lt follow) (by decide)]
  have h2 : s2.rd (ING_PICK_STAT_FOLLOW p) = b2n follow :=
    State.when_keeps (P := fun t => t.rd (ING_PICK_STAT_FOLLOW p) = b2n follow) _ _
      (fun t ht => by rw [State.raise_rd _ _ _ _ hplain, ht]) h1
  split
  · rw [State.recWrite_rd _ _ _ _ _ hplain, h2]
  · exact h2

theorem Effect.missRecord (own words : Nat → Bool) (s : State) : Effect own words s s.missRecord := .of_same rfl rfl rfl rfl rfl

theorem Effect.followPort (words : Nat → Bool) (s : State) (n : Nat) (ws : List Nat) (p : Nat) :
    Effect (pagesOf [16 + p]) words s (s.followPort n ws p) := by
  unfold State.followPort
  refine (Effect.ingTake_page words s p n _ _ true).when _ fun s => ?_
  exact ((Effect.bump words s (ING_CNT_A_PICK_MISS p) (pagesOf_singleton rfl) (plainKey_ing rfl rfl)).trans (.raise _ _ _ _ _)).trans
    (.missRecord _ _ _)

theorem State.followPort_follow (s : State) (n : Nat) (ws : List Nat) (p : Nat) :
    (s.followPort n ws p).rd (ING_PICK_STAT_FOLLOW p) = 1 := by
  unfold State.followPort
  refine State.when_keeps (P := fun t => t.rd (ING_PICK_STAT_FOLLOW p) = 1) _ _ (fun t ht => ?_) (State.ingTake_follow s p n _ _ true)
  change ((t.bump (ING_CNT_A_PICK_MISS p)).raise (0x10 + p) 9).rd (ING_PICK_STAT_FOLLOW p) = 1
  rw [State.raise_rd _ _ _ _ (noteKey_of_plain (plainKey_ing rfl rfl)),
    State.bump, State.bumpBy, State.rd_wr_ne _ _ (by simp only [Fld.key, ING_PICK_STAT_FOLLOW, ING_CNT_A_PICK_MISS]; omega), ht]

/-- What a standby does with a port by a record of which ports are valid. -/
def State.followOrKeep (n : Nat) (ws : List Nat) (s : State) (p : Nat) : State :=
  if (bitsOf (ws.getD 0 0) 51 48).testBit p then s.followPort n ws p
  else s.ingTake p n ((s.port p).pickFrom (s.port p).pickD []) ((s.port p).pickFrom (s.port p).pickS []) false

theorem Effect.followOrKeep (words : Nat → Bool) (n : Nat) (ws : List Nat) (s : State) (p : Nat) :
    Effect (pagesOf [16 + p]) words s (s.followOrKeep n ws p) := by
  unfold State.followOrKeep
  split
  · exact .followPort words s n ws p
  · exact .ingTake_page words s p n _ _ false

theorem State.followOrKeep_follow (n : Nat) (ws : List Nat) (s : State) (p : Nat) :
    (s.followOrKeep n ws p).rd (ING_PICK_STAT_FOLLOW p) = b2n ((bitsOf (ws.getD 0 0) 51 48).testBit p) := by
  unfold State.followOrKeep
  split
  case isTrue h => rw [State.followPort_follow, h]; rfl
  case isFalse h => rw [State.ingTake_follow, Bool.eq_false_iff.mpr h]

theorem getD_toNat (ws : List Word72) (i : Nat) : (ws.map BitVec.toNat).getD i 0 = (ws.getD i 0).toNat :=
  List.getD_map ws (0 : Word72) BitVec.toNat

/-- A record's mask of valid ports, as its first word holds it (Table 03-5). -/
theorem pickMask_testBit (ws : List Word72) {p : Nat} (hp : p < 4) :
    (bitsOf ((ws.map BitVec.toNat).getD 0 0) 51 48).testBit p = ((ws.getD 0 0).toNat / 2 ^ 48).testBit p := by
  rw [getD_toNat, bitsOf, Nat.testBit_mod_two_pow, Nat.shiftRight_eq_div_pow]
  simp [hp]

/-- The pages of the source ports. -/
theorem ing_page_mem {p : Nat} (hp : p < 4) : 16 + p ∈ [0x10, 0x11, 0x12, 0x13] := by
  simp only [List.mem_cons, List.not_mem_nil, or_false]
  omega

theorem ing_pages {l : List Nat} (hl : ∀ p ∈ l, p < 4) : l.map (16 + ·) ⊆ [0x10, 0x11, 0x12, 0x13] := by
  intro q hq
  obtain ⟨p, hp, rfl⟩ := List.mem_map.mp hq
  exact ing_page_mem (hl p hp)

theorem Effect.setFollowed (own words : Nat → Bool) (s : State) (b : Bool) : Effect own words s { s with pickFollowed := b } :=
  .of_same rfl rfl rfl rfl rfl

/-- A pick log that a standby takes (R68). -/
theorem exec_pickLogReceive (s : State) (via : Via) (ws : List Word72) (h : s.isSender = true) (ha : s.anyActive = false)
    (hf : s.pickFollowed = false) (hv : s.accepts via = true) (hw : pickLogValid (ws.map BitVec.toNat) (s.frame + 1) = true) :
    ∃ t, exec (.pickLogReceive via ws) s = .next t ∧ t.pickFollowed = true ∧
      (∀ p < 4, t.rd (ING_PICK_STAT_FOLLOW p) = b2n (((ws.getD 0 0).toNat / 2 ^ 48).testBit p)) ∧
      RegsKept (pagesOf [0x10, 0x11, 0x12, 0x13]) s t ∧ WordsKept (fun _ => false) s t ∧ (s.quietMem → t.mem = s.mem) := by
  have hexec : exec (.pickLogReceive via ws) s =
      .next ({ s.each (List.range 4) (State.followOrKeep (s.frame + 1) (ws.map BitVec.toNat)) with pickFollowed := true }.recWrite 0x10 0
        (ws.map BitVec.toNat)) := by
    change execPickLogReceive via ws s = _
    rw [execPickLogReceive, if_pos ⟨h, hv, ha, hf, hw⟩]
    rfl
  have hg (s' : State) : ∀ p ∈ List.range 4, Effect (pagesOf [16 + p]) (fun _ => false) s'
      (s'.followOrKeep (s.frame + 1) (ws.map BitVec.toNat) p) := fun p _ => .followOrKeep _ _ _ s' p
  have he := (Effect.each_pages hg s).mono (pagesOf_mono (ing_pages fun _ => List.mem_range.mp)) fun _ h => h
  have hfollow (p : Nat) (hp : p < 4) : (s.each (List.range 4) (State.followOrKeep (s.frame + 1) (ws.map BitVec.toNat))).rd
      (ING_PICK_STAT_FOLLOW p) = b2n (((ws.getD 0 0).toNat / 2 ^ 48).testBit p) := by
    obtain ⟨u, -, hu⟩ := Effect.each_port (List.nodup_range (n := 4)) hg s (List.mem_range.mpr hp)
    rw [(hu _ rfl rfl).2, State.followOrKeep_follow, pickMask_testBit ws hp]
  rw [hexec]
  generalize s.each (List.range 4) (State.followOrKeep (s.frame + 1) (ws.map BitVec.toNat)) = s1 at he hfollow
  have hall := (he.trans (.setFollowed _ _ s1 true)).trans (.recWrite _ _ _ 0x10 0 (ws.map BitVec.toNat))
  refine ⟨_, rfl, by simp, fun p hp => ?_, hall.regs, hall.words, hall.mem⟩
  rw [State.recWrite_rd _ _ _ _ _ (noteKey_of_plain (plainKey_ing rfl rfl))]
  exact hfollow p hp

/-! ### Picks of its own (R69) -/

/-- A standby picks for itself for one port. -/
def State.pickAlone (s : State) (p : Nat) : State := ((s.ingPick p (s.frame + 1)).bump (ING_CNT_A_PICK_SELF p)).raise (0x10 + p) 10

theorem Effect.pickAlone (words : Nat → Bool) (s : State) (p : Nat) : Effect (pagesOf [16 + p]) words s (s.pickAlone p) :=
  ((Effect.ingTake_page words s p (s.frame + 1) _ _ false).trans
    (.bump words _ (ING_CNT_A_PICK_SELF p) (pagesOf_singleton rfl) (plainKey_ing rfl rfl))).trans (.raise _ _ _ _ _)

/-- It is counted and noted. -/
theorem State.pickAlone_counts (s : State) (p : Nat) : (s.pickAlone p).flag (0x10 + p) 10 = true ∧
    (s.pickAlone p).rd (ING_CNT_A_PICK_SELF p) = min (s.rd (ING_CNT_A_PICK_SELF p) + 1) (2 ^ (ING_CNT_A_PICK_SELF p).w - 1) := by
  have hplain : plainKey (ING_CNT_A_PICK_SELF p).key = true := plainKey_ing rfl rfl
  have hout : keysOf (pickFields p) (ING_CNT_A_PICK_SELF p).key = false := by
    simp only [keysOf, pickFields, List.any_cons, List.any_nil, Fld.key, ING_PICK_STAT_BUF, ING_PICK_STAT_STATE, ING_PICK_STAT_FOLLOW,
      ING_PICK_STAT_STAMP, ING_CNT_A_PICK_SELF, Bool.or_eq_false_iff, beq_eq_false_iff_ne, and_true]
    refine ⟨?_, ?_, ?_, ?_⟩ <;> omega
  refine ⟨State.flag_raise _ _ _ (by decide), ?_⟩
  rw [State.pickAlone, State.raise_rd _ _ _ _ (noteKey_of_plain hplain), State.bump, State.rd_bumpBy _ _ _ (by simp [ING_CNT_A_PICK_SELF]),
    State.ingPick, (Effect.ingTake (fun _ => false) s p (s.frame + 1) _ _ false).rd hplain hout]

theorem Effect.selfRecord (own words : Nat → Bool) (s : State) : Effect own words s s.selfRecord := .of_same rfl rfl rfl rfl rfl

theorem State.mem_pickPorts {s : State} {p : Nat} (h : p ∈ s.pickPorts) : p < 4 := List.mem_range.mp (List.mem_filter.mp h).1

theorem State.pickPorts_nodup (s : State) : s.pickPorts.Nodup := List.nodup_range.filter _

/-- A standby without a record at the tick (R69). -/
theorem exec_pickSelf (s : State) (h : s.isSender = true) (ha : s.anyActive = false) (hf : s.pickFollowed = false)
    (hl : s.latchDone = true) :
    ∃ t, exec .pickSelf s = .next t ∧ t.pickFollowed = true ∧
      (∀ p ∈ s.pickPorts, t.flag (0x10 + p) 10 = true ∧
        t.rd (ING_CNT_A_PICK_SELF p) = min (s.rd (ING_CNT_A_PICK_SELF p) + 1) (2 ^ (ING_CNT_A_PICK_SELF p).w - 1)) ∧
      RegsKept (pagesOf [0x10, 0x11, 0x12, 0x13]) s t ∧ WordsKept (fun _ => false) s t ∧ (s.quietMem → t.mem = s.mem) := by
  have hexec : exec .pickSelf s =
      .next { s.selfRecord.each s.pickPorts State.pickAlone with pickFollowed := true } := by
    change execPickSelf s = _
    rw [execPickSelf, if_pos ⟨h, ha, hf, hl⟩]
    rfl
  have hg (s' : State) : ∀ p ∈ s.pickPorts, Effect (pagesOf [16 + p]) (fun _ => false) s' (s'.pickAlone p) :=
    fun p _ => .pickAlone _ s' p
  have he : Effect (pagesOf [0x10, 0x11, 0x12, 0x13]) (fun _ => false) s (s.selfRecord.each s.pickPorts State.pickAlone) :=
    (Effect.selfRecord _ _ s).trans ((Effect.each_pages hg _).mono (pagesOf_mono (ing_pages fun _ => State.mem_pickPorts)) fun _ h => h)
  have hcount (p : Nat) (hp : p ∈ s.pickPorts) : (s.selfRecord.each s.pickPorts State.pickAlone).flag (0x10 + p) 10 = true ∧
      (s.selfRecord.each s.pickPorts State.pickAlone).rd (ING_CNT_A_PICK_SELF p) =
        min (s.rd (ING_CNT_A_PICK_SELF p) + 1) (2 ^ (ING_CNT_A_PICK_SELF p).w - 1) := by
    obtain ⟨u, hgrow, hu⟩ := Effect.each_port s.pickPorts_nodup hg s.selfRecord hp
    obtain ⟨hflag, hrd⟩ := State.pickAlone_counts u p
    refine ⟨hgrow.flags _ _ hflag, ?_⟩
    rw [(hu _ rfl rfl).2, hrd, (hu _ rfl rfl).1]
    rfl
  rw [hexec]
  generalize s.selfRecord.each s.pickPorts State.pickAlone = s1 at he hcount
  have hall := he.trans (.setFollowed _ _ s1 true)
  exact ⟨_, rfl, rfl, hcount, hall.regs, hall.words, hall.mem⟩

/-- Settles O8: every port's turn stays within that port's page, so what the turn leaves in FOLLOW, or counts in PICK_SELF, stands at the end. -/
theorem picksOfAStandby : Obligations.PicksOfAStandby := by
  unfold Obligations.PicksOfAStandby
  exact fun s _ h ha hf => ⟨fun via ws hv hw => exec_pickLogReceive s via ws h ha hf hv hw, exec_pickSelf s h ha hf⟩

end Sys2Proof.Machine
end

