-- ==== Sys2Proof/Proofs/FrameMemoryAndFlips.lean ====
section
/-! SUPPORT. Host writes to frame memory (R63, R88) and flips whose outcome comes from outside (R83, R85). -/

namespace Sys2Proof.Machine

/-! ### Writes to frame memory (R63, R88) -/

theorem bitsOf_lt (v hi lo : Nat) : bitsOf v hi lo < 2 ^ (hi + 1 - lo) := Nat.mod_lt _ (Nat.two_pow_pos _)

theorem State.mem_pinnedHandles {s : State} {h : Nat} (hm : h ∈ s.pinnedHandles) : h < 4096 := by
  obtain ⟨e, he, rfl⟩ := List.mem_map.mp hm
  have := (List.mem_filter.mp he).2
  simp only [Bool.and_eq_true, decide_eq_true_eq] at this
  omega

/-- The handle of a protected range is one of the buffer table. -/
theorem State.guardRanges_handle {s : State} {r : Nat × Nat × Nat × Bool × Bool} (hr : r ∈ s.guardRanges) : r.2.2.1 < 4096 := by
  rcases List.mem_append.mp hr with hr | hr
  · rcases List.mem_append.mp hr with hr | hr
    · obtain ⟨h, hh, rfl⟩ := List.mem_map.mp hr
      exact State.mem_pinnedHandles hh
    · obtain ⟨p, hp, hr⟩ := List.mem_flatMap.mp hr
      have hp : p < 4 := List.mem_range.mp hp
      split at hr
      · cases hr
      · obtain ⟨k, -, rfl⟩ := List.mem_map.mp hr
        exact Nat.lt_trans hp (by decide)
  · split at hr
    · rw [List.mem_singleton.mp hr]
      exact Nat.zero_lt_succ _
    · cases hr

/-- The fields that show the last write refused by the pin guard, its address first (R88). -/
def guardLast : List Fld := [CMP_GUARD_LAST_ADDR, CMP_GUARD_LAST_HANDLE, CMP_GUARD_LAST_WB, CMP_GUARD_LAST_INTERM]

/-- A write of a protected range is noted: counted, in its buffer's entry too, and its address kept. -/
def State.guardNote (s : State) (a : Nat) (r : Nat × Nat × Nat × Bool × Bool) : State :=
  let h := r.2.2.1
  let s1 := s.bump CMP_CNT0_GUARD
  let s2 := if r.2.2.2.1 = false then
      s1.setWord (bufKey h 3) (setBits (s1.word (bufKey h 3)) 15 0 (min (s1.bufWord h 3 15 0 + 1) 65535)) else s1
  (((s2.wr CMP_GUARD_LAST_ADDR a).wr CMP_GUARD_LAST_HANDLE h).wr CMP_GUARD_LAST_WB (b2n r.2.2.2.1)).wr CMP_GUARD_LAST_INTERM
    (b2n r.2.2.2.2)

theorem exec_bar4Write (s : State) (a : Word) (d : List Byte) (ht : s.isTile = false) (hr : s.role ≠ 3) :
    exec (.bar4Write a d) s =
      if s.rd FMC_MEM_CFG_CAP_GIB * 2 ^ 30 < a.toNat + d.length then
        .next (((s.capture 0x14 (s.free % 256) .pcie 0 a.toNat).drawn).raise 0x14 7)
      else match s.guardHit a.toNat d.length with
        | some r => .next (((s.guardNote a.toNat r).capture 0x15 0x20 .pcie 0 a.toNat).raise 0x15 9)
        | none => .next (s.storeBytes a.toNat d) := by
  change execBar4Write a d s = _
  rw [execBar4Write, if_neg (by simp [ht, hr])]
  rfl

theorem Effect.guardNote (s : State) (a : Nat) (r : Nat × Nat × Nat × Bool × Bool) (hr : r.2.2.1 < 4096) :
    Effect (keysOf (CMP_CNT0_GUARD :: guardLast)) (fun i => i == bufKey r.2.2.1 3) s (s.guardNote a r) := by
  unfold State.guardNote
  extract_lets h s1 s2
  have h1 : Effect (keysOf (CMP_CNT0_GUARD :: guardLast)) (fun i => i == bufKey h 3) s s1 := .bump _ s _ (by decide) (by decide)
  have h2 : Effect (keysOf (CMP_CNT0_GUARD :: guardLast)) (fun i => i == bufKey h 3) s s2 := by
    simp only [s2]
    split
    · exact h1.trans (.setWord _ s1 _ _ (beq_self_eq_true _) (by simp only [bufKey]; omega))
    · exact h1
  exact (((h2.trans (.wr _ _ _ _ (by decide) (by decide))).trans (.wr _ _ _ _ (by decide) (by decide))).trans
    (.wr _ _ _ _ (by decide) (by decide))).trans (.wr _ _ _ _ (by decide) (by decide))

theorem State.guardNote_rd (s : State) (a : Nat) (r : Nat × Nat × Nat × Bool × Bool) :
    (s.guardNote a r).rd CMP_CNT0_GUARD = min (s.rd CMP_CNT0_GUARD + 1) 65535 ∧ (s.guardNote a r).rd CMP_GUARD_LAST_ADDR = a % 2 ^ 36 := by
  unfold State.guardNote
  extract_lets h s1 s2
  have h2 : s2.rd CMP_CNT0_GUARD = s1.rd CMP_CNT0_GUARD := by
    simp only [s2]
    split <;> rfl
  constructor
  · rw [State.rd_wr_ne _ _ (by decide), State.rd_wr_ne _ _ (by decide), State.rd_wr_ne _ _ (by decide), State.rd_wr_ne _ _ (by decide), h2]
    exact State.rd_bumpBy s CMP_CNT0_GUARD 1 (by decide)
  · rw [State.rd_wr_ne _ _ (by decide), State.rd_wr_ne _ _ (by decide), State.rd_wr_ne _ _ (by decide), State.rd_wr, if_pos rfl]
    exact Nat.mod_eq_of_lt (Nat.lt_trans (Nat.mod_lt _ (by decide)) (by decide))

/-- A write that the pin guard refuses (R88). -/
theorem exec_bar4Write_guarded (s : State) (a : Word) (d : List Byte) (ht : s.isTile = false) (hr : s.role ≠ 3)
    (hin : a.toNat + d.length ≤ s.rd FMC_MEM_CFG_CAP_GIB * 2 ^ 30) (r : Nat × Nat × Nat × Bool × Bool)
    (hg : s.guardHit a.toNat d.length = some r) :
    ∃ t, exec (.bar4Write a d) s = .next t ∧ (s.quietMem → t.mem = s.mem) ∧ t.flag 0x15 9 = true ∧
      t.rd CMP_CNT0_GUARD = min (s.rd CMP_CNT0_GUARD + 1) 65535 ∧ t.rd CMP_GUARD_LAST_ADDR = a.toNat % 2 ^ 36 ∧
      t.rd (ERR_CAP0_VALID 0x15) = 1 ∧
      RegsKept (keysOf ([CMP_CNT0_GUARD, CMP_GUARD_LAST_ADDR, CMP_GUARD_LAST_HANDLE, CMP_GUARD_LAST_WB, CMP_GUARD_LAST_INTERM]
        ++ errFields 0x15)) s t ∧
      WordsKept (fun i => i == bufKey r.2.2.1 3) s t := by
  have hexec := exec_bar4Write s a d ht hr
  rw [if_neg (by omega), hg] at hexec
  refine ⟨_, hexec, ?_⟩
  have hnote := Effect.guardNote s a.toNat r (State.guardRanges_handle (List.mem_of_find?_eq_some hg))
  obtain ⟨hcount, haddr⟩ := State.guardNote_rd s a.toNat r
  generalize s.guardNote a.toNat r = s1 at hnote hcount haddr
  have herr : Effect (keysOf (errFields 0x15)) (fun i => i == bufKey r.2.2.1 3) s1 (s1.capture 0x15 0x20 .pcie 0 a.toNat) :=
    .capture _ _ _ _ _ _ _ fun _ h => h
  have hall : Effect (keysOf ([CMP_CNT0_GUARD, CMP_GUARD_LAST_ADDR, CMP_GUARD_LAST_HANDLE, CMP_GUARD_LAST_WB, CMP_GUARD_LAST_INTERM]
      ++ errFields 0x15)) (fun i => i == bufKey r.2.2.1 3) s ((s1.capture 0x15 0x20 .pcie 0 a.toNat).raise 0x15 9) :=
    ((hnote.mono (keysOf_subset (List.subset_append_left _ _)) fun _ h => h).trans
      (herr.mono (keysOf_subset (List.subset_append_right _ _)) fun _ h => h)).trans (.raise _ _ _ _ _)
  refine ⟨hall.mem, State.flag_raise _ _ _ (by decide), ?_, ?_, ?_, hall.regs, hall.words⟩
  · rw [State.raise_rd _ _ _ _ (by decide), herr.rd (by decide) (by decide), hcount]
  · rw [State.raise_rd _ _ _ _ (by decide), herr.rd (by decide) (by decide), haddr]
  · rw [State.raise_rd _ _ _ _ (by decide), State.capture_valid]

/-- A write beyond the installed capacity (R32). -/
theorem exec_bar4Write_beyond (s : State) (a : Word) (d : List Byte) (ht : s.isTile = false) (hr : s.role ≠ 3)
    (hout : s.rd FMC_MEM_CFG_CAP_GIB * 2 ^ 30 < a.toNat + d.length) :
    ∃ t, exec (.bar4Write a d) s = .next t ∧ (s.quietMem → t.mem = s.mem) ∧ t.flag 0x14 7 = true ∧
      t.rd (ERR_CAP0_VALID 0x14) = 1 ∧ RegsKept (keysOf (errFields 0x14)) s t ∧ WordsKept (fun _ => false) s t := by
  have hexec := exec_bar4Write s a d ht hr
  rw [if_pos hout] at hexec
  have he : Effect (keysOf (errFields 0x14)) (fun _ => false) s (((s.capture 0x14 (s.free % 256) .pcie 0 a.toNat).drawn).raise 0x14 7) :=
    ((Effect.capture _ s _ _ _ _ _ fun _ h => h).trans (.drawn _ _ _)).trans (.raise _ _ _ _ _)
  refine ⟨_, hexec, he.mem, State.flag_raise _ _ _ (by decide), ?_, he.regs, he.words⟩
  rw [State.raise_rd _ _ _ _ (by decide)]
  exact State.capture_valid s _ _ _ _ _

/-! ### A fence that times out (R83) -/

/-- What is waiting for a fence past its time is dropped, counted and noted. -/
theorem exec_fenceTimeout (s : State) (l : BitVec 6) (h : ∃ p ∈ s.comp.pend, p.layer = l.toNat ∧ s.rd CMP_FLIP_FENCE_TMO ≤ p.wait) :
    ∃ t, exec (.fenceTimeout l) s = .next t ∧ (∀ p, p ∈ t.comp.pend ↔ p ∈ s.comp.pend ∧ p.layer ≠ l.toNat) ∧
      t.rd CMP_CNT1_FENCE_TMO = min (s.rd CMP_CNT1_FENCE_TMO + 1) 65535 ∧ t.flag 0x15 6 = true ∧
      RegsKept (keysOf [CMP_LAYER_DEFER_MASK, CMP_CNT1_FENCE_TMO]) s t ∧ WordsKept (fun _ => false) s t ∧
      (s.quietMem → t.mem = s.mem) := by
  have hany : s.comp.pend.any (fun p => p.layer == l.toNat && decide (s.rd CMP_FLIP_FENCE_TMO ≤ p.wait)) = true := by
    obtain ⟨p, hp, hl, hw⟩ := h
    exact List.any_eq_true.mpr ⟨p, hp, by simp [hl, hw]⟩
  let rest := s.comp.pend.filter fun p : LayerPend => !(p.layer == l.toNat)
  let s1 := { s with comp := { s.comp with pend := rest } }.wr CMP_LAYER_DEFER_MASK (maskOf (rest.map fun p : LayerPend => p.layer))
  have hexec : exec (.fenceTimeout l) s = .next ((s1.bump CMP_CNT1_FENCE_TMO).raise 0x15 6) := by
    change execFenceTimeout l s = _
    rw [execFenceTimeout, if_pos hany]
  have he : Effect (keysOf [CMP_LAYER_DEFER_MASK, CMP_CNT1_FENCE_TMO]) (fun _ => false) s ((s1.bump CMP_CNT1_FENCE_TMO).raise 0x15 6) :=
    (((Effect.of_same (s := s) (t := { s with comp := { s.comp with pend := rest } }) rfl rfl rfl rfl rfl).trans
      (.wr _ _ _ _ (by decide) (by decide))).trans (.bump _ s1 _ (by decide) (by decide))).trans (.raise _ _ _ _ _)
  refine ⟨_, hexec, fun p => ?_, ?_, State.flag_raise _ _ _ (by decide), he.regs, he.words, he.mem⟩
  · rw [State.raise_comp]
    change p ∈ rest ↔ _
    simp [rest]
  · rw [State.raise_rd _ _ _ _ (by decide), State.bump, State.rd_bumpBy _ _ _ (by decide), State.rd_wr_ne _ _ (by decide)]
    rfl

/-! ### Layer flips (R83, R85) -/

theorem Tbl.get_setMany_out {w : Nat} (l : List (BitVec w)) (m : Tbl w) {k j : Nat} (h : j < k ∨ k + l.length ≤ j) :
    (m.setMany k l).get j = m.get j := by
  induction l generalizing m k with
  | nil => rfl
  | cons v r ih =>
    simp only [List.length_cons] at h
    rw [Tbl.setMany, ih _ (by omega), Tbl.get_set_ne _ _ (by omega)]

/-- The words of the layer, region and buffer tables. -/
def cmpWords (i : Nat) : Bool := decide (0x400000 ≤ i ∧ i < 0x404800)

/-- What shows the outcome of a latch point's flips. -/
def flipFields : List Fld := [CMP_LAYER_DEFER_MASK, CMP_LAYER_REFUSED_MASK, CMP_CNT1_FENCE_TMO, CMP_CNT1_REFUSED]

theorem Effect.flipLayer (own : Nat → Bool) (s : State) (n l : Nat) (d : List Word72) (hl : l < 64) (hd : d.length = 16) :
    Effect own cmpWords s (s.flipLayer n l d) := by
  have hout (i : Nat) (hi : i < 0x400000 ∨ 0x404800 ≤ i) : (s.flipLayer n l d).win.get i = s.win.get i := by
    refine Tbl.get_setMany_out _ _ ?_
    simp only [layerKey, hd]
    omega
  refine .of_win (fun i hi => hout i ?_) (fun i hi => hout i (by omega)) rfl rfl rfl rfl
  simp only [cmpWords, decide_eq_false_iff_not] at hi
  omega

/-- The buffers that enabled layers use have handles of the buffer table. -/
theorem State.mem_buffersInUse {s : State} {h : Nat} (hm : h ∈ s.buffersInUse) : h < 4096 := by
  obtain ⟨l, -, hm⟩ := List.mem_flatMap.mp hm
  simp only at hm
  split at hm
  · rcases List.mem_append.mp hm with hm | hm
    · split at hm
      · rw [List.mem_singleton.mp hm]; exact bitsOf_lt _ 11 0
      · cases hm
    · split at hm
      · rw [List.mem_singleton.mp hm]; exact bitsOf_lt _ 27 16
      · cases hm
  · cases hm

theorem Effect.setBufState {words : Nat → Bool} (own : Nat → Bool) (s : State) (h st retire : Nat) (hw : words (bufKey h 2) = true)
    (hh : h < 4096) : Effect own words s (s.setBufState h st retire) :=
  .setWord own s _ _ hw (by simp only [bufKey]; omega)

theorem Effect.pinBuffers (own : Nat → Bool) (s : State) (n : Nat) : Effect own cmpWords s (s.pinBuffers n) := by
  refine Effect.each _ (fun s h hm => ?_) s
  have hh := State.mem_buffersInUse hm
  refine .setBufState own s h _ _ (decide_eq_true ?_) hh
  simp only [bufKey]
  omega

/-- The descriptors that go on waiting after an outcome. -/
def pendRest (ps : List LayerPend) (refs : List (Nat × Nat)) (f : Flips) : List LayerPend :=
  ps.filterMap fun p =>
    if f.flipped.testBit p.layer ∨ f.dropped.testBit p.layer ∨ (refs.any fun e => e.1 == p.layer) = true then none
    else some { p with wait := p.wait + 1 }

/-- One that waits on has neither flipped nor been dropped. -/
theorem mem_pendRest {ps : List LayerPend} {refs : List (Nat × Nat)} {f : Flips} {p : LayerPend} (h : p ∈ pendRest ps refs f) :
    f.flipped.testBit p.layer = false ∧ f.dropped.testBit p.layer = false := by
  obtain ⟨q, -, hq⟩ := List.mem_filterMap.mp h
  split at hq
  · cases hq
  case isFalse hno =>
    cases hq
    simp only [not_or, Bool.not_eq_true] at hno
    exact ⟨hno.1, hno.2.1⟩

/-- An outcome before the buffers are pinned. -/
def State.flipsMade (s : State) (n : Nat) (ps : List LayerPend) (refs : List (Nat × Nat)) (f : Flips) : State :=
  let s1 := { s with comp := { s.comp with changed := [] } }.each ps fun s p =>
    if f.flipped.testBit p.layer then s.flipLayer n p.layer p.desc else s
  let s2 := { s1 with comp := { s1.comp with pend := pendRest ps refs f, refused := refs, own := none } }
  (s2.wr CMP_LAYER_DEFER_MASK (maskOf ((pendRest ps refs f).map (·.layer)))).wr CMP_LAYER_REFUSED_MASK (maskOf (refs.map (·.1)))

/-- What an outcome raises and counts. -/
def State.flipNotes (s : State) (ps : List LayerPend) (refs : List (Nat × Nat)) (f : Flips) : State :=
  ((s.when (!(pendRest ps refs f).isEmpty) fun s => s.raise 0x15 5).when (f.dropped != 0) fun s =>
    (s.bumpBy CMP_CNT1_FENCE_TMO ((List.range 64).filter fun l => f.dropped.testBit l).length).raise 0x15 6).when (!refs.isEmpty) fun s =>
      (s.bumpBy CMP_CNT1_REFUSED refs.length).raise 0x15 7

theorem State.applyFlips_eq (s : State) (n : Nat) (ps : List LayerPend) (refs : List (Nat × Nat)) (f : Flips) :
    s.applyFlips n ps refs f = ((s.flipsMade n ps refs f).flipNotes ps refs f).pinBuffers n := rfl

theorem Effect.flipsMade (s : State) (n : Nat) (ps : List LayerPend) (refs : List (Nat × Nat)) (f : Flips)
    (hps : ∀ p ∈ ps, p.layer < 64 ∧ p.desc.length = 16) : Effect (keysOf flipFields) cmpWords s (s.flipsMade n ps refs f) := by
  unfold State.flipsMade
  extract_lets _ s1 _ s2
  have hcomp (s : State) (c : Comp) : Effect (keysOf flipFields) cmpWords s { s with comp := c } := .of_same rfl rfl rfl rfl rfl
  have h1 : Effect (keysOf flipFields) cmpWords s s1 := by
    refine (hcomp s _).trans (Effect.each ps (fun s p hp => ?_) _)
    obtain ⟨hl, hd⟩ := hps p hp
    split
    · exact .flipLayer _ s n _ _ hl hd
    · exact .refl _ _ s
  exact ((h1.trans (hcomp s1 _)).trans (.wr _ s2 _ _ (by decide) (by decide))).trans (.wr _ _ _ _ (by decide) (by decide))

theorem Effect.flipNotes (s : State) (ps : List LayerPend) (refs : List (Nat × Nat)) (f : Flips) :
    Effect (keysOf flipFields) cmpWords s (s.flipNotes ps refs f) :=
  (((Effect.refl _ _ s).when _ fun s => .raise _ _ s _ _).when _ fun s =>
    (Effect.bumpBy _ s _ _ (by decide) (by decide)).trans (.raise _ _ _ _ _)).when _ fun s =>
      (Effect.bumpBy _ s _ _ (by decide) (by decide)).trans (.raise _ _ _ _ _)

theorem Effect.applyFlips (s : State) (n : Nat) (ps : List LayerPend) (refs : List (Nat × Nat)) (f : Flips)
    (hps : ∀ p ∈ ps, p.layer < 64 ∧ p.desc.length = 16) : Effect (keysOf flipFields) cmpWords s (s.applyFlips n ps refs f) := by
  rw [State.applyFlips_eq]
  exact ((Effect.flipsMade s n ps refs f hps).trans (.flipNotes _ ps refs f)).trans (.pinBuffers _ _ n)

/-- After an outcome none is awaited, and those that wait on are pending. -/
theorem State.applyFlips_comp (s : State) (n : Nat) (ps : List LayerPend) (refs : List (Nat × Nat)) (f : Flips) :
    (s.applyFlips n ps refs f).comp.own = none ∧ (s.applyFlips n ps refs f).comp.pend = pendRest ps refs f := by
  rw [State.applyFlips_eq]
  have hpin : ∀ t : State, (t.pinBuffers n).comp = t.comp := fun t =>
    State.each_keeps (P := fun u => u.comp = t.comp) t.buffersInUse
      (fun s h => s.setBufState h (if s.bufState h = 3 then 3 else 2) (n + 2)) (fun u h hu => hu) rfl
  have hnotes : ∀ t : State, (t.flipNotes ps refs f).comp = t.comp := fun t => by
    refine State.when_keeps (P := fun u => u.comp = t.comp) _ _ (fun u hu => by simpa [State.bumpBy] using hu) ?_
    refine State.when_keeps (P := fun u => u.comp = t.comp) _ _ (fun u hu => by simpa [State.bumpBy] using hu) ?_
    exact State.when_keeps (P := fun u => u.comp = t.comp) _ _ (fun u hu => by simpa using hu) rfl
  rw [hpin, hnotes]
  exact ⟨rfl, rfl⟩

theorem flipFields_page (k : Nat) (h : keysOf flipFields k = true) : pagesOf [0x15] k = true := by
  obtain ⟨f, hf, rfl⟩ := keysOf_iff.mp h
  revert f
  decide

/-- A flip log that a standby takes (R85). -/
theorem exec_flipLogReceive (s : State) (hs : s.Inv) (own : Flips) (ho : s.comp.own = some own) (via : Via) (ws : List Word72)
    (h : s.isSender = true) (hv : s.accepts via = true) (hlog : s.on CMP_FLIP_FLIPLOG_EN = true)
    (hw : flipLogValid (ws.map BitVec.toNat) (s.frame + 1) = true) :
    ∃ t, exec (.flipLogReceive via ws) s = .next t ∧ t.comp.own = none ∧
      (∀ p ∈ t.comp.pend, ((ws.getD 1 0).toNat % 2 ^ 64).testBit p.layer = false ∧ ((ws.getD 3 0).toNat % 2 ^ 64).testBit p.layer = false) ∧
      RegsKept (pagesOf [0x15]) s t ∧ WordsKept (fun i => decide (0x400000 ≤ i ∧ i < 0x404800)) s t ∧ (s.quietMem → t.mem = s.mem) := by
  let f : Flips := ⟨(ws.map BitVec.toNat).getD 1 0 % 2 ^ 64, (ws.map BitVec.toNat).getD 2 0 % 2 ^ 64, (ws.map BitVec.toNat).getD 3 0 % 2 ^ 64⟩
  let refs := (s.layerRefusals s.comp.pend).filter fun e => f.held.testBit e.1
  have hexec : exec (.flipLogReceive via ws) s =
      .next (((s.applyFlips (s.frame + 1) s.comp.pend refs f).when (f != own) fun s =>
        (s.bump CMP_CNT1_FLIP_MISMATCH).raise 0x15 13).recWrite 0x11 0 (ws.map BitVec.toNat)) := by
    change execFlipLogReceive via ws s = _
    unfold execFlipLogReceive
    simp only [ho]
    rw [if_pos ⟨h, hv, hlog, hw⟩]
  have hflip := Effect.applyFlips s (s.frame + 1) s.comp.pend refs f hs.pend
  obtain ⟨hown, hpend⟩ := State.applyFlips_comp s (s.frame + 1) s.comp.pend refs f
  rw [hexec]
  generalize s.applyFlips (s.frame + 1) s.comp.pend refs f = s1 at hflip hown hpend
  have hcomp : (s1.when (f != own) fun s => (s.bump CMP_CNT1_FLIP_MISMATCH).raise 0x15 13).comp = s1.comp :=
    State.when_keeps (P := fun u => u.comp = s1.comp) _ _ (fun u hu => by simpa [State.bump, State.bumpBy] using hu) rfl
  have he := ((hflip.mono flipFields_page fun _ h => h).when (f != own) fun s =>
    (Effect.bump _ s CMP_CNT1_FLIP_MISMATCH (by decide) (by decide)).trans (.raise _ _ _ 0x15 13)).trans
      (.recWrite _ _ _ 0x11 0 (ws.map BitVec.toNat))
  refine ⟨_, rfl, ?_, fun p hp => ?_, he.regs, he.words, he.mem⟩
  · rw [State.recWrite_comp, hcomp, hown]
  · rw [State.recWrite_comp, hcomp, hpend] at hp
    obtain ⟨hf, hd⟩ := mem_pendRest hp
    simp only [f, getD_toNat] at hf hd
    exact ⟨hf, hd⟩

/-- A standby's own outcome at a tick without a record (R85). -/
theorem exec_flipSelf (s : State) (hs : s.Inv) (own : Flips) (ho : s.comp.own = some own) :
    ∃ t, exec .flipSelf s = .next t ∧ t.comp.own = none ∧ t.flag 0x15 12 = true ∧
      t.rd CMP_CNT1_FLIP_SELF = min (s.rd CMP_CNT1_FLIP_SELF + 1) 255 ∧
      RegsKept (pagesOf [0x15]) s t ∧ WordsKept (fun i => decide (0x400000 ≤ i ∧ i < 0x404800)) s t ∧ (s.quietMem → t.mem = s.mem) := by
  have hexec : exec .flipSelf s = .next (((s.applyFlips (s.frame + 1) s.comp.pend (s.layerRefusals s.comp.pend) own).bump
      CMP_CNT1_FLIP_SELF).raise 0x15 12).selfRecord := by
    change execFlipSelf s = _
    unfold execFlipSelf
    simp only [ho]
  have hflip := Effect.applyFlips s (s.frame + 1) s.comp.pend (s.layerRefusals s.comp.pend) own hs.pend
  obtain ⟨hown, -⟩ := State.applyFlips_comp s (s.frame + 1) s.comp.pend (s.layerRefusals s.comp.pend) own
  rw [hexec]
  generalize s.applyFlips (s.frame + 1) s.comp.pend (s.layerRefusals s.comp.pend) own = s1 at hflip hown
  have he := (((hflip.mono flipFields_page fun _ h => h).trans (.bump _ s1 CMP_CNT1_FLIP_SELF (by decide) (by decide))).trans
    (.raise _ _ _ 0x15 12)).trans (.selfRecord _ _ _)
  refine ⟨_, rfl, ?_, State.flag_raise _ _ _ (by decide), ?_, he.regs, he.words, he.mem⟩
  · change ((s1.bump CMP_CNT1_FLIP_SELF).raise 0x15 12).comp.own = none
    rw [State.raise_comp]
    exact hown
  · change ((s1.bump CMP_CNT1_FLIP_SELF).raise 0x15 12).rd CMP_CNT1_FLIP_SELF = _
    rw [State.raise_rd _ _ _ _ (by decide), State.bump, State.rd_bumpBy _ _ _ (by decide), hflip.rd (by decide) (by decide)]
    rfl

/-- Settles O9: a host write is stored, refused by the pin guard or by the capacity, and each outcome of flips applies to the pending
descriptors within the layer and buffer tables. -/
theorem frameMemoryAndFlips : Obligations.FrameMemoryAndFlips := by
  unfold Obligations.FrameMemoryAndFlips
  refine ⟨fun s a d ht hr => ⟨fun hin hg => ?_, exec_bar4Write_guarded s a d ht hr, exec_bar4Write_beyond s a d ht hr⟩,
    fun s hs => ⟨exec_fenceTimeout s, fun own ho => ⟨exec_flipLogReceive s hs own ho, exec_flipSelf s hs own ho⟩⟩⟩
  rw [exec_bar4Write s a d ht hr, if_neg (by omega), hg]
  rfl

end Sys2Proof.Machine
end

