-- ==== Sys2Proof/Proofs/RegisterWrites.lean ====
section
/-! SUPPORT. What a write of a register touches and what its fields hold after it (R40). -/

namespace Sys2Proof.Machine

/-! ### Parts of the state that register writes leave alone -/

/-- A part of the state that neither a field's value nor a note reaches. -/
structure Apart {α : Type} (π : State → α) : Prop where
  wr : ∀ s f v, π (State.wr s f v) = π s
  wrShadow : ∀ s f v, π (State.wrShadow s f v) = π s
  quiet : ∀ {s t}, Quiet s t → π t = π s

theorem apart_ports : Apart State.ports := ⟨fun _ _ _ => rfl, fun _ _ _ => rfl, Quiet.ports⟩
theorem apart_imp : Apart State.imp := ⟨fun _ _ _ => rfl, fun _ _ _ => rfl, Quiet.imp⟩
theorem apart_arb : Apart State.arb := ⟨fun _ _ _ => rfl, fun _ _ _ => rfl, Quiet.arb⟩
theorem apart_upd : Apart State.upd := ⟨fun _ _ _ => rfl, fun _ _ _ => rfl, Quiet.upd⟩

namespace Apart
variable {α : Type} {π : State → α}

theorem traceStop (h : Apart π) (s : State) : π s.traceStop = π s := by
  unfold State.traceStop
  split
  · rfl
  · rw [h.quiet (Quiet.raise _ _ _), h.wr, h.wr]

theorem capture (h : Apart π) (s : State) (pg code : Nat) (src : Requester) (off val : Nat) : π (s.capture pg code src off val) = π s := by
  have hnotes (t : State) (freeze trig : Bool) : π (t.captureNotes pg freeze trig) = π t := by
    refine State.when_keeps (P := fun u => π u = π t) _ _ (fun u hu => by rw [h.quiet (Quiet.trigger u 0 false), hu]) ?_
    exact State.when_keeps (P := fun u => π u = π t) _ _ (fun u hu => by rw [h.traceStop, hu]) (h.quiet (Quiet.raise _ _ _))
  by_cases hv : s.on (ERR_CAP0_VALID pg) = true
  · rw [State.capture_later _ _ _ _ _ _ hv, h.wr]
  · rw [State.capture_first _ _ _ _ _ _ (Bool.eq_false_iff.mpr hv), hnotes]
    simp only [h.wr]

theorem markDirty (h : Apart π) (s : State) (area : Nat) : π (s.markDirty area) = π s := h.wr _ _ _

theorem writeFld (h : Apart π) (s : State) (f : Fld) (v : Nat) : π (s.writeFld f v).1 = π s := by
  unfold State.writeFld
  extract_lets x
  split
  · rfl
  · split
    · rfl
    · rfl
    · rfl
    · split
      · exact h.wr _ _ _
      · split
        · exact h.wr _ _ _
        · rfl
    · exact h.wrShadow _ _ _
    all_goals
      split
      · rfl
      · dsimp only
        split
        · rw [h.markDirty, h.wr]
        · exact h.wr _ _ _

theorem each {β : Type} (_h : Apart π) {l : List β} {g : State → β → State} (hg : ∀ s b, π (g s b) = π s) (s : State) :
    π (s.each l g) = π s := State.each_keeps (P := fun u => π u = π s) l g (fun u b hu => by rw [hg, hu]) rfl

end Apart

/-! ### A write of a register's fields (R38, R40) -/

/-- The fields of a register take a write one after another. -/
def State.writeEach (s : State) (fs : List Fld) (v : Nat) : State := s.each fs fun s f => (s.writeFld f v).1

/-- The errors that the fields raise on it. -/
def State.fieldErrs (s : State) : List Fld → Nat → List WErr
  | [], _ => []
  | f :: fs, v => (s.writeFld f v).2.toList ++ (s.writeFld f v).1.fieldErrs fs v

theorem State.foldl_writeFld {v : Nat} {g : State × List WErr → Fld → State × List WErr}
    (hg : ∀ a f, g a f = ((a.1.writeFld f v).1, a.2 ++ (a.1.writeFld f v).2.toList)) (fs : List Fld) (s : State) (es : List WErr) :
    fs.foldl g (s, es) = (s.writeEach fs v, es ++ s.fieldErrs fs v) := by
  induction fs generalizing s es with
  | nil => simp [State.writeEach, State.fieldErrs]
  | cons f fs ih =>
    rw [List.foldl_cons, hg, ih]
    simp [State.writeEach, State.fieldErrs]

/-- A whole write: its fields one after another, then the errors. -/
theorem State.writeFields_eq (s : State) (src : Requester) (pg off v : Nat) :
    s.writeFields src pg off v false [] = (s.writeEach (regFields pg off) v).captureAll pg src off
      (s.fieldErrs (regFields pg off) v ++ if v - (v &&& s.coverMask pg off) != 0 then [⟨errRSV, v⟩] else []) := by
  unfold State.writeFields
  simp only [Bool.not_false, Bool.true_or, List.filter_true, Bool.false_eq_true, if_false, List.append_nil]
  rw [State.foldl_writeFld (v := v) fun a f => by cases h : (a.1.writeFld f v).2 <;> simp]
  rfl

theorem State.fieldErrs_nil {fs : List Fld} {v : Nat} (h : ∀ f ∈ fs, ∀ s : State, (s.writeFld f v).2 = none) (s : State) :
    s.fieldErrs fs v = [] := by
  induction fs generalizing s with
  | nil => rfl
  | cons f fs ih =>
    rw [State.fieldErrs, h f List.mem_cons_self, ih fun g hg => h g (List.mem_cons_of_mem f hg)]
    rfl

/-- A write that its fields take as it is, with nothing for reserved bits, raises no error. -/
theorem State.writeFields_clean (s : State) (src : Requester) (pg off v : Nat)
    (h : ∀ f ∈ regFields pg off, ∀ s : State, (s.writeFld f v).2 = none) (hv : v &&& s.coverMask pg off = v) :
    s.writeFields src pg off v false [] = s.writeEach (regFields pg off) v := by
  rw [State.writeFields_eq, State.fieldErrs_nil h, hv]
  simp [State.captureAll, State.each]

theorem Apart.writeFields {α : Type} {π : State → α} (h : Apart π) (s : State) (src : Requester) (pg off v : Nat) :
    π (s.writeFields src pg off v false []) = π s := by
  rw [State.writeFields_eq, State.captureAll, h.each fun s c => h.each (fun s e => h.capture s _ _ _ _ _) s]
  exact h.each (fun s f => h.writeFld s f v) s

/-! ### What a write touches -/

/-- The registers of the intake, composition, imposition and arbitration pages that lie beyond the page header. -/
def blockReg (pg off : Nat) : Prop := (pg = 9 ∨ 16 ≤ pg ∧ pg < 24) ∧ 128 ≤ off

theorem blockReg.page {pg off : Nat} (h : blockReg pg off) : pg ∈ blockPages := by
  obtain ⟨h | h, -⟩ := h
  · subst h; decide
  · obtain ⟨k, rfl⟩ := Nat.exists_eq_add_of_le h.1
    exact List.mem_append_left _ (List.mem_append_left _ (List.mem_append_right _
      (List.mem_map_of_mem (List.mem_range.mpr (by omega)))))

theorem mem_regFields {pg off : Nat} {f : Fld} : f ∈ regFields pg off ↔ f ∈ pageFields pg ∧ f.off = off := by
  simp [regFields]

theorem regFields_shape {pg off : Nat} (h : blockReg pg off) {f : Fld} (hf : f ∈ regFields pg off) :
    f.shape = true ∧ f.page = pg ∧ 128 ≤ f.off := by
  obtain ⟨hm, ho⟩ := mem_regFields.mp hf
  obtain ⟨hp, h1, h2, -, -⟩ := sound_of_mem h.page hm
  have := h.2
  exact ⟨decide_eq_true ⟨h1, by omega, h2⟩, hp, by omega⟩

theorem regFields_plain {pg off : Nat} (h : blockReg pg off) {f : Fld} (hf : f ∈ regFields pg off) : plainKey f.key = true := by
  obtain ⟨hs, hp, -⟩ := regFields_shape h hf
  have := h.1
  exact plainKey_of hs (.inr (by omega))

/-- What a field's write can change beside the field: that settings are to be saved, and that a shadow set differs. -/
def dirtyFields (pg : Nat) : List Fld := [NVS_SAVE_DIRTY, SHD_STAT_DIRTY pg]

theorem Effect.markDirty {own : Nat → Bool} (words : Nat → Bool) (s : State) (area : Nat) (ho : own NVS_SAVE_DIRTY.key = true) :
    Effect own words s (s.markDirty area) := .wr words s _ _ ho (by decide)

theorem Effect.bumpM {own : Nat → Bool} (words : Nat → Bool) (s : State) (f : Fld) (ho : own f.key = true) (hf : plainKey f.key = true)
    (hd : own NVS_SAVE_DIRTY.key = true) : Effect own words s (s.bumpM f) :=
  (Effect.bump words s f ho hf).trans (.markDirty words _ 0 hd)

theorem Effect.wrM {own : Nat → Bool} (words : Nat → Bool) (s : State) (f : Fld) (v : Nat) (ho : own f.key = true)
    (hf : plainKey f.key = true) (hd : own NVS_SAVE_DIRTY.key = true) : Effect own words s (s.wrM f v) :=
  (Effect.wr words s f v ho hf).when _ fun s => .markDirty words s 0 hd

theorem Effect.writeFld (words : Nat → Bool) (s : State) (f : Fld) (v : Nat) (hf : plainKey f.key = true) :
    Effect (keysOf (f :: dirtyFields f.page)) words s (s.writeFld f v).1 := by
  have hself : keysOf (f :: dirtyFields f.page) f.key = true := keysOf_mem List.mem_cons_self
  have hw (v : Nat) : Effect (keysOf (f :: dirtyFields f.page)) words s (s.wr f v) := .wr words s f v hself hf
  unfold State.writeFld
  extract_lets x
  split
  · exact .refl _ _ s
  · split
    · exact .refl _ _ s
    · exact .refl _ _ s
    · exact .refl _ _ s
    · split
      · exact hw _
      · split
        · exact hw _
        · exact .refl _ _ s
    · have hset (x : Tbl 64) : Effect (keysOf (f :: dirtyFields f.page)) words s { s with shadow := x } := .of_same rfl rfl rfl rfl rfl
      exact (hset _).trans (.wr words _ (SHD_STAT_DIRTY f.page) 1 (keysOf_mem (by simp [dirtyFields])) (plainKey_of_header rfl rfl))
    all_goals
      split
      · exact .refl _ _ s
      · dsimp only
        split
        · exact (hw _).trans (.markDirty words _ 0 (keysOf_mem (by simp [dirtyFields])))
        · exact hw _

theorem Effect.writeEach (words : Nat → Bool) {pg off : Nat} (h : blockReg pg off) (s : State) (v : Nat) :
    Effect (keysOf (regFields pg off ++ dirtyFields pg)) words s (s.writeEach (regFields pg off) v) := by
  refine Effect.each _ (fun s f hf => ?_) s
  obtain ⟨-, hp, -⟩ := regFields_shape h hf
  refine (Effect.writeFld words s f v (regFields_plain h hf)).mono (keysOf_subset ?_) fun _ h => h
  rw [hp]
  exact List.cons_subset.mpr ⟨List.mem_append_left _ hf, List.subset_append_right _ _⟩

theorem Effect.captureAll {own : Nat → Bool} (words : Nat → Bool) (s : State) (pg : Nat) (src : Requester) (off : Nat) (es : List WErr)
    (ho : ∀ k, keysOf (errFields pg) k = true → own k = true) : Effect own words s (s.captureAll pg src off es) :=
  Effect.each _ (fun s _ _ => Effect.each _ (fun s _ _ => .capture words s _ _ _ _ _ ho) s) s

/-- What a register write touches by itself. -/
theorem Effect.writeFields (words : Nat → Bool) {pg off : Nat} (h : blockReg pg off) (s : State) (src : Requester) (v : Nat) :
    Effect (regKeys pg off) words s (s.writeFields src pg off v false []) := by
  rw [State.writeFields_eq]
  refine ((Effect.writeEach words h s v).mono (keysOf_subset ?_) fun _ h => h).trans
    (.captureAll words _ _ _ _ _ (keysOf_subset ?_))
  · intro f hf
    rcases List.mem_append.mp hf with hf | hf
    · exact List.mem_append_left _ (List.mem_append_left _ hf)
    · exact List.mem_append_right _ hf
  · exact fun f hf => List.mem_append_left _ (List.mem_append_right _ hf)

/-! ### What a field holds after it -/

/-- The fields that tell of errors, of settings to be saved and of a shadow set that differs are those of the header and of two other pages. -/
theorem notices_out {pg : Nat} {f : Fld} (hs : f.shape = true)
    (h : f.page ≠ 1 ∧ f.page ≠ 3 ∧ (f.page = pg → f.off ≠ 48 ∧ f.off ≠ 56 ∧ f.off ≠ 72)) :
    keysOf (errFields pg ++ dirtyFields pg) f.key = false := by
  obtain ⟨h1, -, h2⟩ := of_decide_eq_true hs
  rw [Bool.eq_false_iff]
  intro hk
  obtain ⟨g, hg, hkey⟩ := keysOf_iff.mp hk
  simp only [errFields, dirtyFields, List.cons_append, List.nil_append, List.mem_cons, List.not_mem_nil, or_false] at hg
  rcases hg with rfl | rfl | rfl | rfl | rfl | rfl | rfl | rfl | rfl | rfl | rfl <;>
    simp only [Fld.key, ERR_CAP0_CODE, ERR_CAP0_VALID, ERR_CAP0_MORE, ERR_CAP0_SRC, ERR_CAP0_OFFSET, ERR_CAP0_FRAME, ERR_CAP1_VALUE,
      CCC_TRACE_STAT_FROZEN, CCC_TRACE_STAT_FRAME, NVS_SAVE_DIRTY, SHD_STAT_DIRTY] at hkey <;> omega

/-- A register write leaves every other register of its page, and every page but its own, the trace ring's and the MRAM's, as it was. -/
theorem regKeys_out {pg off : Nat} (h : blockReg pg off) {f : Fld} (hs : f.shape = true)
    (hf : f.page ≠ 1 ∧ f.page ≠ 3 ∧ (f.page = pg → f.off ≠ off ∧ f.off ≠ 48 ∧ f.off ≠ 56 ∧ f.off ≠ 72)) : regKeys pg off f.key = false := by
  obtain ⟨h1, h3, hoff⟩ := hf
  have hnot := notices_out hs ⟨h1, h3, fun e => (hoff e).2⟩
  rw [Bool.eq_false_iff] at hnot ⊢
  intro hk
  obtain ⟨g, hg, hkey⟩ := keysOf_iff.mp hk
  rw [List.append_assoc] at hg
  rcases List.mem_append.mp hg with hg | hg
  · obtain ⟨hgs, hgp, -⟩ := regFields_shape h hg
    have hpage : f.page = pg := by rw [← hgp, ← keyPage_key hgs, ← keyPage_key hs, hkey]
    obtain ⟨ho1, -, hl1⟩ := of_decide_eq_true hgs
    obtain ⟨ho2, -, hl2⟩ := of_decide_eq_true hs
    have hgo := (mem_regFields.mp hg).2
    have := (hoff hpage).1
    simp only [Fld.key, hgp, hpage] at hkey
    omega
  · exact hnot (hkey ▸ keysOf_mem hg)

/-- A field that the host writes takes the nearest legal value (R40). -/
theorem State.writeFld_rd (s : State) (f : Fld) (v : Nat) (hacc : f.acc = .rw) (hrsv : s.fieldRsv f = false) (hw : f.w ≤ 64)
    (hkey : f.key ≠ NVS_SAVE_DIRTY.key) (hy : s.legal f v < 2 ^ f.w) : (s.writeFld f v).1.rd f = s.legal f v := by
  have hwr : (s.wr f (s.legal f v)).rd f = s.legal f v := State.rd_wr_self _ _ _ hy hw
  simp only [State.writeFld, hrsv, hacc, Bool.false_eq_true, if_false, reduceCtorEq, false_and]
  split
  · rw [State.markDirty, State.rd_wr_ne _ _ hkey, hwr]
  · exact hwr

/-- A register field that takes `y` whatever else the write changes holds `y` once its register's fields have taken the write. -/
theorem State.writeEach_rd {fs : List Fld} {f : Fld} {v y : Nat} (hacc : f.acc = .rw) (hrsv : ∀ s : State, s.fieldRsv f = false)
    (hw : f.w ≤ 64) (hl : ∀ s : State, s.legal f v = y) (hy : y < 2 ^ f.w) (hf : plainKey f.key = true)
    (hfs : ∀ g ∈ fs, plainKey g.key = true ∧ keysOf (dirtyFields g.page) f.key = false ∧ (f.key = g.key → f = g)) (s : State)
    (h : f ∈ fs ∨ s.rd f = y) : (s.writeEach fs v).rd f = y := by
  induction fs generalizing s with
  | nil => exact h.resolve_left List.not_mem_nil
  | cons g fs ih =>
    obtain ⟨hplain, hdirty, hone⟩ := hfs g List.mem_cons_self
    refine ih (fun g hg => hfs g (List.mem_cons_of_mem _ hg)) _ ?_
    by_cases hg : f = g
    · subst hg
      refine .inr ((State.writeFld_rd s f v hacc (hrsv s) hw ?_ (hl s ▸ hy)).trans (hl s))
      intro e
      rw [e, keysOf_mem (by simp [dirtyFields])] at hdirty
      cases hdirty
    · refine h.imp (fun hm => (List.mem_cons.mp hm).resolve_left hg) fun hrd => ?_
      rw [(Effect.writeFld (fun _ => false) s g v hplain).rd hf, hrd]
      simp only [keysOf, List.any_cons, Bool.or_eq_false_iff, beq_eq_false_iff_ne] at hdirty ⊢
      exact ⟨fun e => hg (hone e.symm), hdirty⟩

theorem State.writeFields_rd {pg off : Nat} (h : blockReg pg off) {f : Fld} (hf : f ∈ regFields pg off) {v y : Nat} (hacc : f.acc = .rw)
    (hrsv : ∀ s : State, s.fieldRsv f = false) (hl : ∀ s : State, s.legal f v = y) (hy : y < 2 ^ f.w) (s : State) (src : Requester) :
    (s.writeFields src pg off v false []).rd f = y := by
  obtain ⟨hs, hp, ho⟩ := regFields_shape h hf
  obtain ⟨-, -, -, hw, -⟩ := sound_of_mem h.page (mem_regFields.mp hf).1
  have hplain := regFields_plain h hf
  have hpg := h.1
  have hout : keysOf (errFields pg ++ dirtyFields pg) f.key = false := notices_out hs ⟨by omega, by omega, fun _ => ⟨by omega, by omega, by omega⟩⟩
  simp only [keysOf, List.any_append, Bool.or_eq_false_iff] at hout
  obtain ⟨herr, hdirty⟩ := hout
  have heach : (s.writeEach (regFields pg off) v).rd f = y := by
    refine State.writeEach_rd hacc hrsv hw hl hy hplain (fun g hg => ⟨regFields_plain h hg, ?_, fun e => ?_⟩) s (.inl hf)
    · rw [(regFields_shape h hg).2.1]
      exact hdirty
    · exact Fld.eq_of_key_eq (mem_allFields.mpr ⟨pg, h.page, (mem_regFields.mp hf).1⟩)
        (mem_allFields.mpr ⟨pg, h.page, (mem_regFields.mp hg).1⟩) e
  rw [State.writeFields_eq, (Effect.captureAll (own := keysOf (errFields pg)) (fun _ => false) _ pg src off _ fun _ h => h).rd hplain herr,
    heach]

/-! ### The way of a write (R8, R32 to R40) -/

theorem pageActive_mapped {r pg : Nat} (h : pageActive r pg = true) : pageMapped pg = true := by
  unfold pageMapped
  unfold pageActive at h ⊢
  split_ifs at h ⊢ <;> simp_all

theorem State.headerActs_block (s old : State) (pg : Nat) {off : Nat} (v : Nat) (h : 128 ≤ off) : s.headerActs old pg off v = s := by
  unfold State.headerActs
  rw [if_neg (by omega), if_neg (by omega), if_neg (by omega), if_neg (by omega), if_neg (by omega), if_neg (by omega)]

/-- A write of a block's register, in a role that has the block: its fields, what it brings about, and the record of it. -/
theorem State.regWrite_block (s : State) (src : Requester) {pg off : Nat} (h : blockReg pg off) (hact : pageActive s.role pg = true)
    (v t : Nat) :
    s.regWrite src pg off v false t = ((((s.writeFields src pg off v false []).commonActs s src pg off v t).roleActs s src pg off
      v).mgmtReg src pg off v) := by
  obtain ⟨hpg, hoff⟩ := h
  have hthere : s.pageThere pg = true := by rw [State.pageThere, pageActive_mapped hact]; rfl
  have hfixed : s.loopFixed pg off v = false := by
    unfold State.loopFixed
    rw [decide_eq_false (by omega)]
    rfl
  have hbusy : s.busyField pg off v = none := by
    unfold State.busyField
    rw [if_neg (by omega), if_neg (by omega)]
  have hlimit : s.limitErrs pg off v = [] := if_neg (by omega)
  unfold State.regWrite
  simp only [hthere, hact, hfixed, hbusy, hlimit, Bool.true_eq_false, Bool.false_eq_true, if_false, false_and,
    show pg ≠ 0x3E by omega, show pg ≠ 0x3F by omega, show pg ≠ 5 by omega, show pg ≠ 6 by omega, show off ≠ 0x40 by omega]
  rw [State.headerActs_block _ _ _ _ hoff]

theorem Effect.mgmtReg (own words : Nat → Bool) (s : State) (src : Requester) (pg off v : Nat) :
    Effect own words s (s.mgmtReg src pg off v) := by
  unfold State.mgmtReg
  split
  · exact .recWrite _ _ _ _ _ _
  · exact .refl _ _ s

theorem Apart.mgmtReg {α : Type} {π : State → α} (h : Apart π) (s : State) (src : Requester) (pg off v : Nat) :
    π (s.mgmtReg src pg off v) = π s := by
  unfold State.mgmtReg
  split
  · exact h.quiet (Quiet.recWrite _ _ _ _)
  · rfl

end Sys2Proof.Machine
end

