-- ==== Sys2Proof/Proofs/IntakeAndBufferCommands.lean ====
section
/-! SUPPORT. The register commands of source ports, buffers and bank preparation (R51, R54, R56, R87, R98). -/

namespace Sys2Proof.Machine

/-! ### A frame in progress ends (R51, R59) -/

theorem State.ingIncomplete_some (s : State) {p k : Nat} (h : (s.port p).cur = some k) :
    s.ingIncomplete p = ((s.setPort p { (s.port p).setBuf k { (s.port p).buf k with st := .free } with cur := none, lost := false }).bump
      (ING_CNT_A_INCOMPLETE p)).raise (0x10 + p) 7 := by
  unfold State.ingIncomplete
  simp only [h]

theorem State.ingIncomplete_none (s : State) {p : Nat} (h : (s.port p).cur = none) : s.ingIncomplete p = s := by
  unfold State.ingIncomplete
  simp only [h]

theorem Effect.ingIncomplete {own : Nat → Bool} (words : Nat → Bool) (s : State) (p : Nat)
    (ho : own (ING_CNT_A_INCOMPLETE p).key = true) : Effect own words s (s.ingIncomplete p) := by
  cases h : (s.port p).cur with
  | none => rw [s.ingIncomplete_none h]; exact .refl _ _ s
  | some k =>
    rw [s.ingIncomplete_some h]
    exact ((Effect.setPort own words s p _).trans (.bump words _ _ ho (plainKey_ing rfl rfl))).trans (.raise _ _ _ _ _)

theorem State.ingIncomplete_port_ne (s : State) {p q : Nat} (hq : q ≠ p) : (s.ingIncomplete p).port q = s.port q := by
  cases h : (s.port p).cur with
  | none => rw [s.ingIncomplete_none h]
  | some k =>
    rw [s.ingIncomplete_some h, State.port_congr (State.raise_ports _ _ _)]
    exact State.port_setPort_ne s _ hq

/-- The port has no frame in progress then, and stays in its group. -/
theorem State.ingIncomplete_port (s : State) {p : Nat} (hp : p < s.ports.length) :
    ((s.ingIncomplete p).port p).cur = none ∧ ((s.ingIncomplete p).port p).joined = (s.port p).joined := by
  cases h : (s.port p).cur with
  | none => rw [s.ingIncomplete_none h]; exact ⟨h, rfl⟩
  | some k =>
    have hport : (s.ingIncomplete p).port p = { (s.port p).setBuf k { (s.port p).buf k with st := .free } with cur := none, lost := false } := by
      rw [s.ingIncomplete_some h, State.port_congr (State.raise_ports _ _ _)]
      exact State.port_setPort_self s _ hp
    rw [hport]
    exact ⟨rfl, rfl⟩

theorem State.ingIncomplete_length (s : State) (p : Nat) : (s.ingIncomplete p).ports.length = s.ports.length := by
  cases h : (s.port p).cur with
  | none => rw [s.ingIncomplete_none h]
  | some k =>
    rw [s.ingIncomplete_some h, State.raise_ports]
    simp [State.bump, State.bumpBy, State.setPort]

/-- A frame that was in progress is noted and counted. -/
theorem State.ingIncomplete_counts (s : State) {p : Nat} (h : (s.port p).cur.isSome = true) : (s.ingIncomplete p).flag (0x10 + p) 7 = true ∧
    (s.ingIncomplete p).rd (ING_CNT_A_INCOMPLETE p) = min (s.rd (ING_CNT_A_INCOMPLETE p) + 1) (2 ^ (ING_CNT_A_INCOMPLETE p).w - 1) := by
  obtain ⟨k, hk⟩ := Option.isSome_iff_exists.mp h
  rw [s.ingIncomplete_some hk]
  refine ⟨State.flag_raise _ _ _ (by decide), ?_⟩
  rw [State.raise_rd _ _ _ _ (noteKey_of_plain (plainKey_ing rfl rfl)), State.bump, State.rd_bumpBy _ _ _ (by simp [ING_CNT_A_INCOMPLETE])]
  rfl

/-! ### Groups (R56) -/

theorem State.ingJoin_live (s : State) (p : Nat) : (s.ingJoin p).live = s.live := by
  unfold State.ingJoin; split <;> rfl

theorem Effect.ingJoin (own words : Nat → Bool) (s : State) (p : Nat) : Effect own words s (s.ingJoin p) := by
  unfold State.ingJoin
  split
  · exact (Effect.setPort own words s p _).trans (.send _ _ _ _)
  · exact .refl _ _ s

theorem State.ingJoin_port_ne (s : State) {p q : Nat} (hq : q ≠ p) : (s.ingJoin p).port q = s.port q := by
  unfold State.ingJoin
  split
  · exact State.port_setPort_ne s _ hq
  · rfl

/-- Joining changes whether the port is in its group alone. -/
theorem State.ingJoin_port (s : State) {p : Nat} (hp : p < s.ports.length) : ∃ j, (s.ingJoin p).port p = { s.port p with joined := j } := by
  unfold State.ingJoin
  split
  · exact ⟨true, State.port_setPort_self s _ hp⟩
  · exact ⟨_, rfl⟩

/-- In mode 2 a port joins the multicast group of its stream. -/
theorem State.ingJoin_joins (s : State) {p : Nat} (hp : p < s.ports.length) (hm : s.ingMode p = 2)
    (hip : isMulticast (s.rd (ING_STREAM_DST_IP p)) = true) :
    ((s.ingJoin p).port p).joined = true ∧ Sent s (s.ingJoin p) (.net p .igmpJoin (s.igmpData p)) := by
  rw [State.ingJoin, if_pos ⟨hm, hip⟩]
  refine ⟨?_, [], [], rfl⟩
  change ((s.setPort p { s.port p with joined := true }).port p).joined = true
  rw [State.port_setPort_self s _ hp]

/-! ### A mode change (R51, R56, R61) -/

/-- The port as a mode change from `old` leaves it, its group apart. -/
def State.modePort (s : State) (p old : Nat) : Port :=
  let x := (s.ingIncomplete p).port p
  let newest := x.ready.head?
  let y := { x with bufs := x.bufs.zipIdx.map fun e => if some e.2 = newest ∨ e.1.heldFor ≠ [] then e.1 else { e.1 with st := .free }
                    holdMode := true, starts := [] }
  if old = 0 then
    { y with bufn := s.rd (ING_CFG_BUFN p), fmt := s.rd (ING_CFG_BUFFMT p), stride := s.rd (ING_BUF_STRIDE_STRIDE p),
             base := (List.range 4).map fun k => s.rd (ING_BUF_BASE_ADDR p k) }
  else y

/-- A mode change before a group is joined or left. -/
def State.modeLinked (s : State) (p old : Nat) : State := ((s.ingIncomplete p).setPort p (s.modePort p old)).ingLink p false

/-- A mode change before a group is joined. -/
def State.modeLeft (s : State) (p old : Nat) : State :=
  if old = 2 ∧ (s.modePort p old).joined = true then
    ((s.modeLinked p old).setPort p { s.modePort p old with joined := false }).send (.net p .igmpLeave ((s.modeLinked p old).igmpData p))
  else s.modeLinked p old

theorem State.ingModeChanged_eq (s : State) {p old : Nat} (h : s.ingMode p ≠ old) :
    s.ingModeChanged p old = if s.ingMode p = 2 then (s.modeLeft p old).ingJoin p else s.modeLeft p old := by
  rw [State.ingModeChanged, if_neg h]
  rfl

/-- What a mode change touches. -/
def modeFields (p : Nat) : List Fld := [ING_SRC_STAT_LINK p, ING_CNT_A_INCOMPLETE p]

theorem modeFields_out {p : Nat} {f : Fld} (hs : f.shape = true) (hp : f.page = 16 + p) (h : f.off ≠ 256 ∧ f.off ≠ 272) :
    keysOf (modeFields p) f.key = false := by
  obtain ⟨h1, -, h2⟩ := of_decide_eq_true hs
  simp only [keysOf, modeFields, List.any_cons, List.any_nil, Fld.key, ING_SRC_STAT_LINK, ING_CNT_A_INCOMPLETE, Bool.or_false,
    Bool.or_eq_false_iff, beq_eq_false_iff_ne, hp]
  refine ⟨?_, ?_⟩ <;> omega

theorem modePort_facts (s : State) {p : Nat} (old : Nat) (hp : p < s.ports.length) :
    (s.modePort p old).cur = none ∧ (s.modePort p old).holdMode = true ∧ (s.modePort p old).joined = (s.port p).joined := by
  obtain ⟨hcur, hjoin⟩ := s.ingIncomplete_port hp
  unfold State.modePort
  dsimp only
  split <;> exact ⟨hcur, rfl, hjoin⟩

/-- A port that was off takes its buffers as CFG and BUF give them (R61). -/
theorem modePort_buffers (s : State) (p : Nat) : (s.modePort p 0).stride = s.rd (ING_BUF_STRIDE_STRIDE p) ∧
    (s.modePort p 0).fmt = s.rd (ING_CFG_BUFFMT p) ∧ (s.modePort p 0).bufn = s.rd (ING_CFG_BUFN p) := ⟨rfl, rfl, rfl⟩

theorem Effect.modeLinked (words : Nat → Bool) (s : State) (p old : Nat) : Effect (keysOf (modeFields p)) words s (s.modeLinked p old) :=
  ((Effect.ingIncomplete words s p (keysOf_mem (by simp [modeFields]))).trans (.setPort _ _ _ _ _)).trans
    (.ingLink _ _ _ _ (keysOf_mem (by simp [modeFields])))

theorem State.modeLeft_live (s : State) (p old : Nat) : (s.modeLeft p old).live = (s.modeLinked p old).live := by
  unfold State.modeLeft; split <;> rfl

theorem Effect.modeLeave (own words : Nat → Bool) (s : State) (p old : Nat) : Effect own words (s.modeLinked p old) (s.modeLeft p old) := by
  unfold State.modeLeft
  split
  · exact (Effect.setPort _ _ _ _ _).trans (.send _ _ _ _)
  · exact .refl _ _ _

/-- What follows the link's fall changes the port's group alone. -/
theorem Effect.modeGroup (own words : Nat → Bool) (s : State) {p old : Nat} (h : s.ingMode p ≠ old) :
    Effect own words (s.modeLinked p old) (s.ingModeChanged p old) := by
  rw [s.ingModeChanged_eq h]
  split
  · exact (Effect.modeLeave _ _ s p old).trans (.ingJoin _ _ _ p)
  · exact .modeLeave _ _ s p old

theorem Effect.ingModeChanged (words : Nat → Bool) (s : State) (p old : Nat) :
    Effect (keysOf (modeFields p)) words s (s.ingModeChanged p old) := by
  by_cases h : s.ingMode p = old
  · rw [State.ingModeChanged, if_pos h]
    exact .refl _ _ s
  · exact (Effect.modeLinked words s p old).trans (.modeGroup _ _ s h)

theorem State.ingModeChanged_live (s : State) {p old : Nat} (h : s.ingMode p ≠ old) :
    (s.ingModeChanged p old).live = (s.modeLinked p old).live := by
  rw [s.ingModeChanged_eq h]
  split
  · rw [State.ingJoin_live, State.modeLeft_live]
  · exact State.modeLeft_live s p old

theorem State.modeLinked_length (s : State) (p old : Nat) : (s.modeLinked p old).ports.length = s.ports.length := by
  rw [State.modeLinked, State.ingLink_ports]
  simp [State.setPort, State.ingIncomplete_length]

theorem State.modeLeft_length (s : State) (p old : Nat) : (s.modeLeft p old).ports.length = s.ports.length := by
  rw [← State.modeLinked_length s p old]
  unfold State.modeLeft
  split
  · simp [State.setPort]
  · rfl

/-- The port after a mode change, but for whether it is in its group. -/
theorem State.ingModeChanged_port (s : State) {p old : Nat} (hp : p < s.ports.length) (h : s.ingMode p ≠ old) :
    ∃ j, (s.ingModeChanged p old).port p = { s.modePort p old with joined := j } := by
  have hlinked : (s.modeLinked p old).port p = s.modePort p old := by
    rw [State.modeLinked, State.port_congr (State.ingLink_ports _ _ _),
      State.port_setPort_self _ _ (by rw [State.ingIncomplete_length]; exact hp)]
  have hleft : ∃ j, (s.modeLeft p old).port p = { s.modePort p old with joined := j } := by
    unfold State.modeLeft
    split
    · exact ⟨false, State.port_setPort_self _ _ (by rw [State.modeLinked_length]; exact hp)⟩
    · exact ⟨_, hlinked⟩
  rw [s.ingModeChanged_eq h]
  split
  · obtain ⟨j, hj⟩ := hleft
    obtain ⟨k, hk⟩ := (s.modeLeft p old).ingJoin_port (p := p) (by rw [State.modeLeft_length]; exact hp)
    exact ⟨k, by rw [hk, hj]⟩
  · exact hleft

theorem State.ingModeChanged_port_ne (s : State) {p q old : Nat} (hq : q ≠ p) : (s.ingModeChanged p old).port q = s.port q := by
  by_cases h : s.ingMode p = old
  · rw [State.ingModeChanged, if_pos h]
  have hlinked : (s.modeLinked p old).port q = s.port q := by
    rw [State.modeLinked, State.port_congr (State.ingLink_ports _ _ _), State.port_setPort_ne _ _ hq, State.ingIncomplete_port_ne _ hq]
  have hleft : (s.modeLeft p old).port q = s.port q := by
    rw [← hlinked]
    unfold State.modeLeft
    split
    · exact State.port_setPort_ne _ _ hq
    · rfl
  rw [s.ingModeChanged_eq h]
  split
  · rw [State.ingJoin_port_ne _ hq, hleft]
  · exact hleft

/-- A port that leaves mode 2 leaves its group. -/
theorem State.ingModeChanged_leaves (s : State) {p : Nat} (hp : p < s.ports.length) (h : s.ingMode p ≠ 2) (hj : (s.port p).joined = true) :
    Sent s (s.ingModeChanged p 2) (.net p .igmpLeave (s.igmpData p)) := by
  obtain ⟨-, -, hjoined⟩ := modePort_facts s 2 hp
  have hlinked := Effect.modeLinked (fun _ => false) s p 2
  have hdata : (s.modeLinked p 2).igmpData p = s.igmpData p := by
    unfold State.igmpData
    rw [State.on, State.on, hlinked.rd (f := ING_STREAM_DST_IP p) (plainKey_ing rfl rfl) (modeFields_out rfl rfl (by simp [ING_STREAM_DST_IP])),
      hlinked.rd (f := ING_STREAM_SSM p) (plainKey_ing rfl rfl) (modeFields_out rfl rfl (by simp [ING_STREAM_SSM])),
      hlinked.rd (f := ING_STREAM_SRC_SRC_IP p) (plainKey_ing rfl rfl) (modeFields_out rfl rfl (by simp [ING_STREAM_SRC_SRC_IP]))]
  have hleft : s.ingModeChanged p 2 =
      ((s.modeLinked p 2).setPort p { s.modePort p 2 with joined := false }).send (.net p .igmpLeave (s.igmpData p)) := by
    rw [s.ingModeChanged_eq h, if_neg h, State.modeLeft, if_pos ⟨rfl, hjoined ▸ hj⟩, hdata]
  rw [hleft]
  refine Sent.of_grows ?_ (sent_send _ _) (.refl _)
  exact (hlinked.trans (.setPort _ _ _ p _)).grows

/-- The link is down after a mode change. -/
theorem State.ingModeChanged_link (s : State) {p old : Nat} (h : s.ingMode p ≠ old) :
    (s.ingModeChanged p old).rd (ING_SRC_STAT_LINK p) = 0 := by
  rw [State.rd_congr (s.ingModeChanged_live h), State.modeLinked, State.ingLink_rd]
  rfl

/-- A frame that a mode change ends is noted and counted. -/
theorem State.ingModeChanged_counts (s : State) {p old : Nat} (h : s.ingMode p ≠ old) (hc : (s.port p).cur.isSome = true) :
    (s.ingModeChanged p old).flag (0x10 + p) 7 = true ∧ (s.ingModeChanged p old).rd (ING_CNT_A_INCOMPLETE p) =
      min (s.rd (ING_CNT_A_INCOMPLETE p) + 1) (2 ^ (ING_CNT_A_INCOMPLETE p).w - 1) := by
  obtain ⟨hflag, hcount⟩ := s.ingIncomplete_counts hc
  have hlink : Effect (keysOf [ING_SRC_STAT_LINK p]) (fun _ => false) (s.ingIncomplete p) (s.modeLinked p old) :=
    (Effect.setPort _ _ _ _ _).trans (.ingLink _ _ _ _ (keysOf_mem List.mem_cons_self))
  have hall := hlink.trans (.modeGroup _ _ s h)
  refine ⟨hall.flag hflag, (hall.rd (plainKey_ing rfl rfl) ?_).trans hcount⟩
  simp only [keysOf, List.any_cons, List.any_nil, Fld.key, ING_SRC_STAT_LINK, ING_CNT_A_INCOMPLETE, Bool.or_false, beq_eq_false_iff_ne]
  omega

/-! ### Register writes of the source ports' pages -/

theorem State.commonActs_high (s old : State) (src : Requester) {pg : Nat} (off v t : Nat) (h : 16 ≤ pg) :
    s.commonActs old src pg off v t = s := by
  simp only [State.commonActs, show pg ≠ 0 by omega, show pg ≠ 1 by omega, show pg ≠ 2 by omega, show pg ≠ 3 by omega,
    show pg ≠ 4 by omega, show pg ≠ 7 by omega, show pg ≠ 8 by omega, show pg ≠ 9 by omega, show pg ≠ 10 by omega, false_and, if_false]

theorem State.roleActs_low (s old : State) (src : Requester) {pg : Nat} (off v : Nat) (h : pg < 16) : s.roleActs old src pg off v = s := by
  simp only [State.roleActs, show ¬(0x10 ≤ pg ∧ pg < 0x14) by omega, show pg ≠ 0x15 by omega, show pg ≠ 0x17 by omega,
    show ¬(pg = 0x18 ∨ pg = 0x19) by omega, show pg ≠ 0x1A by omega, show pg ≠ 0x20 by omega, show pg ≠ 0x21 by omega,
    show pg ≠ 0x22 by omega, show pg ≠ 0x23 by omega, false_and, if_false]

theorem pageActive_ing {r p : Nat} (hp : p < 4) (h : pageActive r 0x10 = true) : pageActive r (16 + p) = true := by
  simp only [pageActive, show ¬16 + p ≤ 10 by omega, show 0x10 ≤ 16 + p ∧ 16 + p ≤ 0x17 by omega, and_self, if_true, if_false] at h ⊢
  exact h

theorem blockReg_ing {p off : Nat} (hp : p < 4) (ho : 128 ≤ off) : blockReg (16 + p) off := ⟨.inr (by omega), ho⟩

/-- What a write of a source port's register brings about beside its fields (R51, R54, R56). -/
def State.ingActs (s old : State) (p off : Nat) : State :=
  if off = 0x80 then s.ingModeChanged p (old.ingMode p)
  else if off = 0xA0 then s.ingJoin p
  else if off = 0x4F8 then s.when (s.hpd p) fun s => s.send (.pin .hpdIrq p)
  else s

theorem State.ingActs_mode (s old : State) (p : Nat) : s.ingActs old p 0x80 = s.ingModeChanged p (old.ingMode p) := if_pos rfl

theorem State.ingActs_stream (s old : State) (p : Nat) : s.ingActs old p 0xA0 = s.ingJoin p := by
  rw [State.ingActs, if_neg (by decide), if_pos rfl]

theorem State.ingActs_edid (s old : State) (p : Nat) :
    s.ingActs old p 0x4F8 = s.when (s.hpd p) fun s => s.send (.pin .hpdIrq p) := by
  rw [State.ingActs, if_neg (by decide), if_neg (by decide), if_pos rfl]

theorem State.roleActs_ing (s old : State) (src : Requester) {p : Nat} (hp : p < 4) (off v : Nat) :
    s.roleActs old src (16 + p) off v = s.ingActs old p off := by
  unfold State.roleActs
  rw [if_pos (by omega), Nat.add_sub_cancel_left]
  rfl

theorem State.writeWhole_ing (s : State) (src : Requester) {p off : Nat} (hp : p < 4) (ho : 128 ≤ off) (hr : s.reachable src = true)
    (hact : pageActive s.role 0x10 = true) (v : Nat) :
    s.writeWhole src (16 + p) off v =
      ((s.writeFields src (16 + p) off v false []).ingActs s p off).mgmtReg src (16 + p) off v := by
  rw [State.writeWhole, if_pos hr, State.regWrite_block s src (blockReg_ing hp ho) (pageActive_ing hp hact),
    State.commonActs_high _ _ _ _ _ _ (by omega), State.roleActs_ing _ _ _ hp]

/-- A field of a source port's page other than those of the register that is written. -/
theorem ingKeys_out {p off : Nat} (hp : p < 4) (ho : 128 ≤ off) {f : Fld} (hs : f.shape = true) (hpg : f.page = 16 + p)
    (h : f.off ≠ off ∧ f.off ≠ 48 ∧ f.off ≠ 56 ∧ f.off ≠ 72) : regKeys (16 + p) off f.key = false :=
  regKeys_out (blockReg_ing hp ho) hs ⟨by omega, by omega, fun _ => h⟩

/-- A register write leaves such a field as it was. -/
theorem State.writeFields_rd_ing (s : State) (src : Requester) {p off : Nat} (hp : p < 4) (ho : 128 ≤ off) (v : Nat) (f : Fld)
    (hs : f.shape = true) (hpg : f.page = 16 + p) (h : f.off ≠ off ∧ f.off ≠ 48 ∧ f.off ≠ 56 ∧ f.off ≠ 72) :
    (s.writeFields src (16 + p) off v false []).rd f = s.rd f :=
  (Effect.writeFields (fun _ => false) (blockReg_ing hp ho) s src v).rd (plainKey_ing hs hpg) (ingKeys_out hp ho hs hpg h)

theorem orKeys_left (a b : Nat → Bool) (k : Nat) (h : a k = true) : orKeys a b k = true := by simp [orKeys, h]

theorem orKeys_right (a b : Nat → Bool) (k : Nat) (h : b k = true) : orKeys a b k = true := by simp [orKeys, h]

theorem State.mgmtReg_rd (s : State) (src : Requester) (pg off v : Nat) {f : Fld} (hf : plainKey f.key = true) :
    (s.mgmtReg src pg off v).rd f = s.rd f :=
  (Effect.mgmtReg (fun _ => false) (fun _ => false) s src pg off v).rd hf rfl

theorem State.mgmtReg_port (s : State) (src : Requester) (pg off v p : Nat) : (s.mgmtReg src pg off v).port p = s.port p :=
  State.port_congr (apart_ports.mgmtReg s src pg off v) p

theorem State.writeFields_port (s : State) (src : Requester) (pg off v p : Nat) : (s.writeFields src pg off v false []).port p = s.port p :=
  State.port_congr (apart_ports.writeFields s src pg off v) p

theorem Fld.of_lt (f : Fld) (v : Nat) (hw : 0 < f.w) : f.of v < 2 ^ f.w := by
  have := bitsOf_lt v (f.lo + f.w - 1) f.lo
  rwa [show f.lo + f.w - 1 + 1 - f.lo = f.w by omega] at this

/-! ### The mode of a source port -/

theorem mode_of_cfg {p : Nat} (hp : p < 4) (v : Nat) (s : State) (src : Requester) :
    (s.writeFields src (16 + p) 0x80 v false []).ingMode p = if (ING_CFG_MODE p).of v = 3 then 0 else (ING_CFG_MODE p).of v := by
  have hmem : ING_CFG_MODE p ∈ regFields (16 + p) 0x80 := by interval_cases p <;> decide +kernel
  have hlegal (s : State) : s.legal (ING_CFG_MODE p) v = if (ING_CFG_MODE p).of v = 3 then 0 else (ING_CFG_MODE p).of v := by
    have : s.clampDep (ING_CFG_MODE p) v = some (if (ING_CFG_MODE p).of v = 3 then 0 else (ING_CFG_MODE p).of v) := by
      interval_cases p <;> rfl
    rw [State.legal, this]
  have hrsv (s : State) : s.fieldRsv (ING_CFG_MODE p) = false := by
    interval_cases p <;> simp [State.fieldRsv, ING_CFG_MODE, ING_CFG_PAIR]
  refine State.writeFields_rd (blockReg_ing hp (by decide)) hmem rfl hrsv hlegal ?_ s src
  split
  · exact Nat.two_pow_pos _
  · exact Fld.of_lt _ _ Nat.zero_lt_two

/-- A mode change (R51): what it ends, drops, leaves and takes. -/
theorem exec_ingModeChange (s : State) (src : Requester) (hs : s.Inv) (hr : s.reachable src = true) (hact : pageActive s.role 0x10 = true)
    (p : Fin 4) (v : Word) :
    let x := (ING_CFG_MODE p).of v.toNat
    let m := if x = 3 then 0 else x
    ∃ t, exec (.ingModeChange src p v) s = .next t ∧ t.ingMode p = m ∧
      (m = s.ingMode p → t.ports = s.ports) ∧
      (m ≠ s.ingMode p → (t.port p).cur = none ∧ (t.port p).holdMode = true ∧ t.rd (ING_SRC_STAT_LINK p) = 0 ∧
        (∀ q, q ≠ p.val → t.port q = s.port q) ∧
        (s.ingMode p = 2 → (s.port p).joined = true → Sent s t (.net p .igmpLeave (s.igmpData p))) ∧
        (s.ingMode p = 0 → (t.port p).stride = t.rd (ING_BUF_STRIDE_STRIDE p) ∧ (t.port p).fmt = t.rd (ING_CFG_BUFFMT p) ∧
          (t.port p).bufn = t.rd (ING_CFG_BUFN p)) ∧
        ((s.port p).cur.isSome = true → t.flag (0x10 + p) 7 = true ∧
          t.rd (ING_CNT_A_INCOMPLETE p) = min (s.rd (ING_CNT_A_INCOMPLETE p) + 1) (2 ^ (ING_CNT_A_INCOMPLETE p).w - 1))) ∧
      Kept (orKeys (keysOf [ING_SRC_STAT_LINK p, ING_CNT_A_INCOMPLETE p]) (regKeys (0x10 + p) 0x80)) s t := by
  intro x m
  have hp := p.isLt
  have hexec : exec (.ingModeChange src p v) s =
      .next (((s.writeFields src (16 + p.val) 0x80 v.toNat false []).ingModeChanged p (s.ingMode p)).mgmtReg src (16 + p.val) 0x80 v.toNat) := by
    change Host.Outcome.next (s.writeWhole src (16 + p.val) 0x80 v.toNat) = _
    rw [State.writeWhole_ing s src hp (by decide) hr hact, State.ingActs_mode]
  have hmode : (s.writeFields src (16 + p.val) 0x80 v.toNat false []).ingMode p = m := mode_of_cfg hp v.toNat s src
  have hports := apart_ports.writeFields s src (16 + p.val) 0x80 v.toNat
  have hport := s.writeFields_port src (16 + p.val) 0x80 v.toNat
  have hwrite := Effect.writeFields (fun _ => false) (blockReg_ing hp (off := 0x80) (by decide)) s src v.toNat
  have hout := s.writeFields_rd_ing src hp (off := 0x80) (by decide) v.toNat
  rw [hexec]
  generalize s.writeFields src (16 + p.val) 0x80 v.toNat false [] = s1 at hmode hports hport hwrite hout
  have hlen : p.val < s1.ports.length := by rw [hports, hs.ports]; exact hp
  have hchange := Effect.ingModeChanged (fun _ => false) s1 p (s.ingMode p)
  have hrec := Effect.mgmtReg (fun _ => false) (fun _ => false) (s1.ingModeChanged p (s.ingMode p)) src (16 + p.val) 0x80 v.toNat
  have hrd (f : Fld) (hf : plainKey f.key = true) := (s1.ingModeChanged p (s.ingMode p)).mgmtReg_rd src (16 + p.val) 0x80 v.toNat hf
  have hprt := (s1.ingModeChanged p (s.ingMode p)).mgmtReg_port src (16 + p.val) 0x80 v.toNat
  have hcfg (f : Fld) (hf : f.shape = true) (hpg : f.page = 16 + p.val) (ho : f.off ≠ 256 ∧ f.off ≠ 272) :
      ((s1.ingModeChanged p (s.ingMode p)).mgmtReg src (16 + p.val) 0x80 v.toNat).rd f = s1.rd f := by
    rw [hrd _ (plainKey_ing hf hpg), hchange.rd (plainKey_ing hf hpg) (modeFields_out hf hpg ho)]
  refine ⟨_, rfl, ?_, fun hsame => ?_, fun hne => ?_, ?_⟩
  · rw [State.ingMode, hcfg (ING_CFG_MODE p) rfl rfl (by simp [ING_CFG_MODE])]
    exact hmode
  · rw [apart_ports.mgmtReg, State.ingModeChanged, if_pos (hmode.trans hsame), hports]
  · have hne1 : s1.ingMode p ≠ s.ingMode p := by rw [hmode]; exact hne
    obtain ⟨j, hj⟩ := s1.ingModeChanged_port hlen hne1
    obtain ⟨hcur, hhold, -⟩ := modePort_facts s1 (s.ingMode p) hlen
    refine ⟨by rw [hprt, hj]; exact hcur, by rw [hprt, hj]; exact hhold, ?_, fun q hq => ?_, fun h2 hjoined => ?_, fun h0 => ?_, fun hsome => ?_⟩
    · rw [hrd _ (plainKey_ing rfl rfl), s1.ingModeChanged_link hne1]
    · rw [hprt, s1.ingModeChanged_port_ne hq, hport]
    · have hdata : s1.igmpData p = s.igmpData p := by
        unfold State.igmpData
        rw [State.on, State.on, hout (ING_STREAM_DST_IP p) rfl rfl (by simp [ING_STREAM_DST_IP]),
          hout (ING_STREAM_SSM p) rfl rfl (by simp [ING_STREAM_SSM]), hout (ING_STREAM_SRC_SRC_IP p) rfl rfl (by simp [ING_STREAM_SRC_SRC_IP])]
      have hleave := s1.ingModeChanged_leaves hlen (by rw [← h2]; exact hne1) (by rw [hport]; exact hjoined)
      rw [← h2, hdata] at hleave
      exact Sent.of_grows hwrite.grows hleave hrec.grows
    · rw [hprt, hj, hcfg (ING_BUF_STRIDE_STRIDE p) rfl rfl (by simp [ING_BUF_STRIDE_STRIDE]),
        hcfg (ING_CFG_BUFFMT p) rfl rfl (by simp [ING_CFG_BUFFMT]), hcfg (ING_CFG_BUFN p) rfl rfl (by simp [ING_CFG_BUFN]), h0]
      exact modePort_buffers s1 p
    · obtain ⟨hflag, hcount⟩ := s1.ingModeChanged_counts hne1 (by rw [hport]; exact hsome)
      refine ⟨hrec.flag hflag, ?_⟩
      rw [hrd _ (plainKey_ing rfl rfl), hcount, hout (ING_CNT_A_INCOMPLETE p) rfl rfl (by simp [ING_CNT_A_INCOMPLETE])]
  · have hall : Effect (orKeys (keysOf [ING_SRC_STAT_LINK p, ING_CNT_A_INCOMPLETE p]) (regKeys (16 + p.val) 0x80)) (fun _ => false) s
        ((s1.ingModeChanged p (s.ingMode p)).mgmtReg src (16 + p.val) 0x80 v.toNat) :=
      ((hwrite.mono (orKeys_right _ _) fun _ h => h).trans (hchange.mono (orKeys_left _ _) fun _ h => h)).trans (.mgmtReg _ _ _ _ _ _ _)
    exact hall.kept

/-! ### The EDID's last register and the stream's -/

/-- A field of full range that no other bounds takes the value asked for. -/
theorem State.legal_of_none {s : State} {f : Fld} {v : Nat} (h : s.clampDep f v = none) (hmn : f.mn = 0) (hmx : f.mx = 2 ^ f.w - 1)
    (hw : 0 < f.w) : s.legal f v = f.of v := by
  have := f.of_lt v hw
  rw [State.legal, h]
  simp only [Fld.ofc, clampN, hmn, hmx]
  omega

theorem edid_written (s : State) (src : Requester) {p : Nat} (hp : p < 4) (v : Word) :
    (s.writeFields src (16 + p) 0x4F8 v.toNat false []).rd (ING_EDID_DATA p 31) = v.toNat := by
  have hmem : ING_EDID_DATA p 31 ∈ regFields (16 + p) 0x4F8 := by interval_cases p <;> decide +kernel
  have hfree (s : State) : s.clampDep (ING_EDID_DATA p 31) v.toNat = none := by interval_cases p <;> rfl
  have hrsv (s : State) : s.fieldRsv (ING_EDID_DATA p 31) = false := by
    interval_cases p <;> simp [State.fieldRsv, ING_EDID_DATA, ING_CFG_PAIR]
  have hof : (ING_EDID_DATA p 31).of v.toNat = v.toNat := Nat.mod_eq_of_lt v.isLt
  exact State.writeFields_rd (blockReg_ing hp (by decide)) hmem rfl hrsv
    (fun s => (State.legal_of_none (hfree s) rfl rfl (Nat.zero_lt_succ 63)).trans hof) v.isLt s src

/-- The last word of the EDID (R54). -/
theorem exec_edidWrite (s : State) (src : Requester) (hr : s.reachable src = true) (hact : pageActive s.role 0x10 = true)
    (p : Fin 4) (v : Word) :
    ∃ t, exec (.edidWrite src p v) s = .next t ∧ t.rd (ING_EDID_DATA p 31) = v.toNat ∧ (s.hpd p = true → Sent s t (.pin .hpdIrq p)) ∧
      Kept (regKeys (0x10 + p) 0x4F8) s t := by
  have hp := p.isLt
  have hexec : exec (.edidWrite src p v) s = .next (((s.writeFields src (16 + p.val) 0x4F8 v.toNat false []).when
      ((s.writeFields src (16 + p.val) 0x4F8 v.toNat false []).hpd p) fun s => s.send (.pin .hpdIrq p)).mgmtReg src (16 + p.val) 0x4F8 v.toNat) := by
    change Host.Outcome.next (s.writeWhole src (16 + p.val) 0x4F8 v.toNat) = _
    rw [State.writeWhole_ing s src hp (by decide) hr hact, State.ingActs_edid]
  have hvalue := edid_written s src hp v
  have hwrite := Effect.writeFields (fun _ => false) (blockReg_ing hp (off := 0x4F8) (by decide)) s src v.toNat
  have hout := s.writeFields_rd_ing src hp (off := 0x4F8) (by decide) v.toNat
  have hhpd : (s.writeFields src (16 + p.val) 0x4F8 v.toNat false []).hpd p = s.hpd p := by
    unfold State.hpd State.ingMode State.blkOn State.on
    rw [hout (ING_CFG_MODE p) rfl rfl (by simp [ING_CFG_MODE]), hout (ING_CFG_HPD_EN p) rfl rfl (by simp [ING_CFG_HPD_EN]),
      hout (BLK_CTRL_EN (16 + p.val)) rfl rfl (by simp [BLK_CTRL_EN]), hout (BLK_CTRL_CGATE (16 + p.val)) rfl rfl (by simp [BLK_CTRL_CGATE])]
  rw [hexec, hhpd]
  generalize s.writeFields src (16 + p.val) 0x4F8 v.toNat false [] = s1 at hvalue hwrite
  have hpulse : Effect (regKeys (16 + p.val) 0x4F8) (fun _ => false) s1 (s1.when (s.hpd p) fun s => s.send (.pin .hpdIrq p)) :=
    (Effect.refl _ _ s1).when _ fun s => .send _ _ s _
  have hlive : (s1.when (s.hpd p) fun s => s.send (.pin .hpdIrq p)).live = s1.live :=
    State.when_keeps (P := fun u => u.live = s1.live) _ _ (fun u (hu : u.live = s1.live) => (State.send_live u _).trans hu) rfl
  refine ⟨_, rfl, ?_, fun h => ?_, ((hwrite.trans hpulse).trans (.mgmtReg _ _ _ _ _ _ _)).kept⟩
  · rw [State.mgmtReg_rd _ _ _ _ _ (plainKey_ing rfl rfl), State.rd_congr hlive, hvalue]
  · refine Sent.of_grows hwrite.grows ?_ (Effect.mgmtReg (fun _ => false) (fun _ => false) _ _ _ _ _).grows
    rw [h]
    exact sent_send _ _

theorem stream_written (s : State) (src : Requester) {p : Nat} (hp : p < 4) (v : Nat) :
    (s.writeFields src (16 + p) 0xA0 v false []).rd (ING_STREAM_DST_IP p) = v % 2 ^ 32 := by
  have hmem : ING_STREAM_DST_IP p ∈ regFields (16 + p) 0xA0 := by interval_cases p <;> decide +kernel
  have hfree (s : State) : s.clampDep (ING_STREAM_DST_IP p) v = none := by interval_cases p <;> rfl
  have hrsv (s : State) : s.fieldRsv (ING_STREAM_DST_IP p) = false := by
    interval_cases p <;> simp [State.fieldRsv, ING_STREAM_DST_IP, ING_CFG_PAIR]
  exact State.writeFields_rd (blockReg_ing hp (by decide)) hmem rfl hrsv
    (fun s => State.legal_of_none (hfree s) rfl rfl (Nat.zero_lt_succ 31)) (Nat.mod_lt _ (Nat.two_pow_pos 32)) s src

/-- ING.STREAM (R56): in mode 2 the port joins the group it now names. -/
theorem exec_streamWrite (s : State) (src : Requester) (hs : s.Inv) (hr : s.reachable src = true) (hact : pageActive s.role 0x10 = true)
    (p : Fin 4) (v : Word) :
    ∃ t, exec (.streamWrite src p v) s = .next t ∧ t.rd (ING_STREAM_DST_IP p) = v.toNat % 2 ^ 32 ∧
      (s.ingMode p = 2 → isMulticast (v.toNat % 2 ^ 32) = true → (t.port p).joined = true ∧ Sent s t (.net p .igmpJoin (t.igmpData p))) ∧
      Kept (regKeys (0x10 + p) 0xA0) s t := by
  have hp := p.isLt
  have hexec : exec (.streamWrite src p v) s =
      .next (((s.writeFields src (16 + p.val) 0xA0 v.toNat false []).ingJoin p).mgmtReg src (16 + p.val) 0xA0 v.toNat) := by
    change Host.Outcome.next (s.writeWhole src (16 + p.val) 0xA0 v.toNat) = _
    rw [State.writeWhole_ing s src hp (by decide) hr hact, State.ingActs_stream]
  have hvalue := stream_written s src hp v.toNat
  have hwrite := Effect.writeFields (fun _ => false) (blockReg_ing hp (off := 0xA0) (by decide)) s src v.toNat
  have hmode : (s.writeFields src (16 + p.val) 0xA0 v.toNat false []).ingMode p = s.ingMode p :=
    s.writeFields_rd_ing src hp (off := 0xA0) (by decide) v.toNat (ING_CFG_MODE p) rfl rfl (by simp [ING_CFG_MODE])
  have hports := apart_ports.writeFields s src (16 + p.val) 0xA0 v.toNat
  rw [hexec]
  generalize s.writeFields src (16 + p.val) 0xA0 v.toNat false [] = s1 at hvalue hwrite hmode hports
  have hrec := Effect.mgmtReg (regKeys (16 + p.val) 0xA0) (fun _ => false) (s1.ingJoin p) src (16 + p.val) 0xA0 v.toNat
  have hrd {f : Fld} (hs : f.shape = true) (hpg : f.page = 16 + p.val) :
      ((s1.ingJoin p).mgmtReg src (16 + p.val) 0xA0 v.toNat).rd f = s1.rd f := by
    rw [State.mgmtReg_rd _ _ _ _ _ (plainKey_ing hs hpg), State.rd_congr (s1.ingJoin_live p)]
  refine ⟨_, rfl, by rw [hrd rfl rfl, hvalue], fun h2 hip => ?_, ((hwrite.trans (.ingJoin _ _ s1 p)).trans hrec).kept⟩
  have hdata : ((s1.ingJoin p).mgmtReg src (16 + p.val) 0xA0 v.toNat).igmpData p = s1.igmpData p := by
    unfold State.igmpData State.on
    rw [hrd (f := ING_STREAM_DST_IP p) rfl rfl, hrd (f := ING_STREAM_SSM p) rfl rfl, hrd (f := ING_STREAM_SRC_SRC_IP p) rfl rfl]
  obtain ⟨hjoined, hsent⟩ := s1.ingJoin_joins (p := p) (by rw [hports, hs.ports]; exact hp) (hmode.trans h2) (by rw [hvalue]; exact hip)
  exact ⟨by rw [State.mgmtReg_port]; exact hjoined, hdata ▸ Sent.of_grows hwrite.grows hsent hrec.grows⟩

/-! ### Writes of some fields of a register -/

theorem State.writeWith_block (s : State) (src : Requester) {pg off : Nat} (h : blockReg pg off) (hact : pageActive s.role pg = true)
    (hr : s.reachable src = true) (l : List (Fld × Nat)) (v t : Nat) (hv : overlay (s.fieldsNow pg off) l = v) :
    s.writeWith src pg off l t = ((((s.writeFields src pg off v false []).commonActs s src pg off v t).roleActs s src pg off
      v).mgmtReg src pg off v) := by
  rw [State.writeWith, if_pos hr, hv, State.regWrite_block s src h hact]

theorem writeFld_wo {f : Fld} (h : f.acc = .wo ∨ f.acc = .w1s) (s : State) (v : Nat) : s.writeFld f v = (s, none) := by
  unfold State.writeFld
  rcases h with h | h <;> simp [h]

theorem State.word_setWord (s : State) (i j : Nat) (v : Word72) : (s.setWord i v).word j = if j = i then v else s.word j :=
  Tbl.get_set _ _ _ _

theorem State.mgmtReg_word (s : State) (src : Requester) (pg off v : Nat) {i : Nat} (hi : noteWord i = false) :
    (s.mgmtReg src pg off v).word i = s.word i :=
  (Effect.mgmtReg (fun _ => false) (fun _ => false) s src pg off v).word hi rfl

theorem State.mgmtReg_on (s : State) (src : Requester) (pg off v : Nat) {f : Fld} (hf : plainKey f.key = true) :
    (s.mgmtReg src pg off v).on f = s.on f := by rw [State.on, State.mgmtReg_rd _ _ _ _ _ hf, State.on]

/-! ### CMP.BUF_REL (R87) -/

theorem bitsOf_setBufState (w : Word72) (st r : Nat) : bitsOf (setBits (setBits w 49 48 st) 47 0 r).toNat 49 48 = st % 4 := by
  have := w.isLt
  simp only [setBits, bitsOf, BitVec.toNat_ofNat, Nat.shiftRight_eq_div_pow, Nat.shiftLeft_eq, Nat.reduceAdd, Nat.reduceSub, Nat.reducePow]
  omega

theorem bitsOf_clearValid (w : Word72) : bitsOf (setBits w 61 61 0).toNat 61 61 = 0 := by
  have := w.isLt
  simp only [setBits, bitsOf, BitVec.toNat_ofNat, Nat.shiftRight_eq_div_pow, Nat.shiftLeft_eq, Nat.reduceAdd, Nat.reduceSub, Nat.reducePow]
  omega

theorem State.bufState_setBufState (s : State) (h st retire : Nat) : (s.setBufState h st retire).bufState h = st % 4 := by
  rw [State.bufState, State.bufWord, State.setBufState, State.word_setWord, if_pos rfl, bitsOf_setBufState]

theorem State.setBufState_rd (s : State) (h st retire : Nat) (f : Fld) : (s.setBufState h st retire).rd f = s.rd f := by
  unfold State.setBufState
  exact State.rd_congr rfl f

theorem State.bufState_congr {s t : State} {h : Nat} (he : t.word (bufKey h 2) = s.word (bufKey h 2)) : t.bufState h = s.bufState h := by
  rw [State.bufState, State.bufWord, he]
  rfl

/-- The words of an entry of the buffer table. -/
def entryWords (h i : Nat) : Bool := decide (bufKey h 0 ≤ i ∧ i < bufKey h 4)

theorem entryWords_key (h : Nat) {i : Nat} (hi : i < 4) : entryWords h (bufKey h i) = true :=
  decide_eq_true (by simp only [bufKey]; omega)

theorem noteWord_buf {h i : Nat} (hh : h < 4096) (hi : i < 4) : noteWord (bufKey h i) = false := by
  unfold noteWord bufKey
  rw [decide_eq_false (by omega), decide_eq_false (by omega)]
  rfl

theorem regFields_bufRel : regFields 0x15 0xA0 = [CMP_BUF_REL_HANDLE] := by decide +kernel

theorem blockReg_bufRel : blockReg 0x15 0xA0 := ⟨.inr (by decide), by decide⟩

theorem bufRel_value (s : State) {h : Nat} (hh : h < 4096) : overlay (s.fieldsNow 0x15 0xA0) [(CMP_BUF_REL_HANDLE, h)] = h := by
  rw [State.fieldsNow, regFields_bufRel]
  simp [CMP_BUF_REL_HANDLE, overlay, Fld.of, bitsOf]
  omega

/-- A handle written there changes no field of its own. -/
theorem writeFields_bufRel (s : State) (src : Requester) {h : Nat} (hh : h < 4096) : s.writeFields src 0x15 0xA0 h false [] = s := by
  have hwo : CMP_BUF_REL_HANDLE.acc = .wo ∨ CMP_BUF_REL_HANDLE.acc = .w1s := .inl rfl
  rw [State.writeFields_clean, regFields_bufRel, State.writeEach, State.each_cons, State.each_nil, writeFld_wo hwo]
  · rw [regFields_bufRel, List.forall_mem_singleton]
    exact fun s => by rw [writeFld_wo hwo]
  · have hrsv : s.fieldRsv CMP_BUF_REL_HANDLE = false := by simp [State.fieldRsv, CMP_BUF_REL_HANDLE, ING_CFG_PAIR]
    simp only [State.coverMask, regFields_bufRel, List.foldl_cons, List.foldl_nil, hrsv]
    change h &&& (0 + (2 ^ 12 - 1) * 2 ^ 0) = h
    simpa using Nat.and_two_pow_sub_one_of_lt_two_pow (n := 12) hh

theorem State.roleActs_bufRel (s old : State) (src : Requester) (v : Nat) :
    s.roleActs old src 0x15 0xA0 v = s.releaseBuffer src (CMP_BUF_REL_HANDLE.of v) := by
  rw [State.roleActs, if_neg (by decide), if_pos (by decide)]

theorem exec_bufRelease_eq (s : State) (src : Requester) (hr : s.reachable src = true) (hact : pageActive s.role 0x15 = true)
    (h : BitVec 12) : exec (.bufRelease src h) s = .next ((s.releaseBuffer src h.toNat).mgmtReg src 0x15 0xA0 h.toNat) := by
  change Host.Outcome.next (s.writeWith src 0x15 0xA0 [(CMP_BUF_REL_HANDLE, h.toNat)] 0) = _
  have hof : CMP_BUF_REL_HANDLE.of h.toNat = h.toNat := Nat.mod_eq_of_lt h.isLt
  rw [State.writeWith_block s src blockReg_bufRel hact hr _ h.toNat 0 (bufRel_value s h.isLt), writeFields_bufRel s src h.isLt,
    State.commonActs_high _ _ _ _ _ _ (by decide), State.roleActs_bufRel, hof]

/-- A buffer that is free already, or of a source port, is not released. -/
theorem exec_bufRelease_refused (s : State) (src : Requester) (hr : s.reachable src = true) (hact : pageActive s.role 0x15 = true)
    (h : BitVec 12) (hno : h.toNat < 16 ∨ s.bufState h.toNat = 0) :
    ∃ t, exec (.bufRelease src h) s = .next t ∧ t.on (ERR_CAP0_VALID 0x15) = true ∧
      (s.on (ERR_CAP0_VALID 0x15) = false → t.rd (ERR_CAP0_CODE 0x15) = 0x21) ∧ Kept (keysOf (errFields 0x15)) s t := by
  rw [exec_bufRelease_eq s src hr hact, State.releaseBuffer, if_pos hno]
  refine ⟨_, rfl, ?_, fun hfirst => ?_, ((Effect.capture _ s _ _ _ _ _ fun _ h => h).trans (.mgmtReg _ _ _ _ _ _ _)).kept⟩
  · rw [State.mgmtReg_on _ _ _ _ _ (by decide), State.capture_on]
  · rw [State.mgmtReg_rd _ _ _ _ _ (by decide), State.capture_code _ _ _ _ _ _ hfirst (by decide)]
    rfl

/-- A buffer that nothing uses becomes free. -/
theorem exec_bufRelease_freed (s : State) (src : Requester) (hr : s.reachable src = true) (hact : pageActive s.role 0x15 = true)
    (h : BitVec 12) (hhost : 16 ≤ h.toNat) (hst : s.bufState h.toNat = 1) :
    ∃ t, exec (.bufRelease src h) s = .next t ∧ t.bufState h.toNat = 0 ∧ t.bufValid h.toNat = false ∧ RegsKept (fun _ => false) s t ∧
      WordsKept (fun i => decide (bufKey h.toNat 0 ≤ i ∧ i < bufKey h.toNat 4)) s t ∧ (s.quietMem → t.mem = s.mem) := by
  have hh := h.isLt
  rw [exec_bufRelease_eq s src hr hact, State.releaseBuffer, if_neg (by omega), if_pos hst]
  have hset := Effect.setBufState (fun _ => false) s h.toNat 0 (s.bufRetire h.toNat) (entryWords_key _ (by decide)) hh
  have hzero := s.bufState_setBufState h.toNat 0 (s.bufRetire h.toNat)
  generalize s.setBufState h.toNat 0 (s.bufRetire h.toNat) = s1 at hset hzero
  have hvalid : Effect (fun _ => false) (entryWords h.toNat) s1 (s1.setWord (bufKey h.toNat 0) (setBits (s1.word (bufKey h.toNat 0)) 61 61 0)) :=
    .setWord _ _ _ _ (entryWords_key _ (by decide)) (by simp only [bufKey]; omega)
  have he := (hset.trans hvalid).trans (.mgmtReg _ _ _ src 0x15 0xA0 h.toNat)
  refine ⟨_, rfl, ?_, ?_, he.regs, he.words, he.mem⟩
  · rw [State.bufState_congr (State.mgmtReg_word _ _ _ _ _ (noteWord_buf hh (by decide)))]
    exact (State.bufState_congr ((State.word_setWord _ _ _ _).trans (if_neg (by simp [bufKey])))).trans hzero
  · rw [State.bufValid, State.bufWord, State.mgmtReg_word _ _ _ _ _ (noteWord_buf hh (by decide)), State.word_setWord, if_pos rfl,
      bitsOf_clearValid]
    rfl

/-- A buffer in use is released once nothing uses it, and that is counted. -/
theorem exec_bufRelease_deferred (s : State) (src : Requester) (hr : s.reachable src = true) (hact : pageActive s.role 0x15 = true)
    (h : BitVec 12) (hhost : 16 ≤ h.toNat) (hst : 1 < s.bufState h.toNat) :
    ∃ t, exec (.bufRelease src h) s = .next t ∧ t.bufState h.toNat = 3 ∧
      t.rd CMP_CNT0_REL_DEFER = min (s.rd CMP_CNT0_REL_DEFER + 1) (2 ^ CMP_CNT0_REL_DEFER.w - 1) ∧
      RegsKept (keysOf [CMP_CNT0_REL_DEFER]) s t ∧
      WordsKept (fun i => decide (bufKey h.toNat 0 ≤ i ∧ i < bufKey h.toNat 4)) s t ∧ (s.quietMem → t.mem = s.mem) := by
  have hh := h.isLt
  have hne : s.bufState h.toNat ≠ 1 := Nat.ne_of_gt hst
  have hpos : ¬(h.toNat < 16 ∨ s.bufState h.toNat = 0) := fun e => e.elim (Nat.not_lt.mpr hhost) (Nat.ne_zero_of_lt hst)
  rw [exec_bufRelease_eq s src hr hact, State.releaseBuffer, if_neg hpos, if_neg hne]
  have hset := Effect.setBufState (keysOf [CMP_CNT0_REL_DEFER]) s h.toNat 3 (s.bufRetire h.toNat) (entryWords_key _ (by decide)) hh
  have hthree := s.bufState_setBufState h.toNat 3 (s.bufRetire h.toNat)
  have hrd := s.setBufState_rd h.toNat 3 (s.bufRetire h.toNat) CMP_CNT0_REL_DEFER
  generalize s.setBufState h.toNat 3 (s.bufRetire h.toNat) = s1 at hset hthree hrd
  have he := (hset.trans (.bump _ s1 CMP_CNT0_REL_DEFER (by decide) (by decide))).trans (.mgmtReg _ _ _ src 0x15 0xA0 h.toNat)
  refine ⟨_, rfl, ?_, ?_, he.regs, he.words, he.mem⟩
  · rw [State.bufState_congr (State.mgmtReg_word _ _ _ _ _ (noteWord_buf hh (by decide)))]
    exact hthree
  · rw [State.mgmtReg_rd _ _ _ _ _ (by decide), State.bump, State.rd_bumpBy _ _ _ (by decide), hrd]

/-! ### Writes that a register's fields take as they are -/

theorem State.fieldRsv_of_page (s : State) {f : Fld} (h : decide (f.page ≠ 17 ∧ f.page ≠ 19 ∧ f.page ≠ 8) = true) : s.fieldRsv f = false := by
  obtain ⟨h1, h3, h8⟩ := of_decide_eq_true h
  have hne (p : Nat) (hp : f.page ≠ 16 + p) : f ≠ ING_CFG_PAIR p := fun e => hp (by rw [e]; rfl)
  simp [State.fieldRsv, hne 1 h1, hne 3 h3, h8]

/-- A field of full range that does not outlive a reset takes the value asked for, and nothing else changes. -/
theorem State.writeFld_plain (s : State) {f : Fld} {v : Nat} (hacc : f.acc = .rw) (hret : f.ret = .b) (hrsv : s.fieldRsv f = false)
    (hl : s.legal f v = f.of v) : s.writeFld f v = (s.wr f (f.of v), none) := by
  simp [State.writeFld, hrsv, hacc, hret, hl]

/-! ### IMP.PREP (R98) -/

theorem blockReg_prep : blockReg 0x17 0x90 := ⟨.inr (by decide), by decide⟩

theorem regFields_prep : regFields 0x17 0x90 = [IMP_PREP_GO, IMP_PREP_BANK] := by decide +kernel

theorem prep_value (s : State) {b : Nat} (hb : b < 2) :
    overlay (s.fieldsNow 0x17 0x90) [(IMP_PREP_BANK, b), (IMP_PREP_GO, 1)] = 1 + 2 * b := by
  rw [State.fieldsNow, regFields_prep]
  simp [IMP_PREP_GO, IMP_PREP_BANK, overlay, Fld.of, bitsOf, Nat.shiftRight_eq_div_pow]
  omega

theorem writeFld_bank (s : State) {b : Nat} (hb : b < 2) : s.writeFld IMP_PREP_BANK (1 + 2 * b) = (s.wr IMP_PREP_BANK b, none) := by
  have hof : IMP_PREP_BANK.of (1 + 2 * b) = b := by simp [Fld.of, bitsOf, IMP_PREP_BANK, Nat.shiftRight_eq_div_pow]; omega
  rw [State.writeFld_plain s rfl rfl (s.fieldRsv_of_page rfl) (State.legal_of_none rfl rfl rfl Nat.zero_lt_one), hof]

/-- A preparation's write changes BANK alone. -/
theorem writeFields_prep (s : State) (src : Requester) {b : Nat} (hb : b < 2) :
    s.writeFields src 0x17 0x90 (1 + 2 * b) false [] = s.wr IMP_PREP_BANK b := by
  have hgo : IMP_PREP_GO.acc = .wo ∨ IMP_PREP_GO.acc = .w1s := .inr rfl
  rw [State.writeFields_clean, regFields_prep, State.writeEach, State.each_cons, State.each_cons, State.each_nil, writeFld_wo hgo,
    writeFld_bank s hb]
  · rw [regFields_prep]
    simp only [List.forall_mem_cons, List.not_mem_nil, false_implies, implies_true, and_true]
    exact ⟨fun s => by rw [writeFld_wo hgo], fun s => by rw [writeFld_bank s hb]⟩
  · have hmask : s.coverMask 0x17 0x90 = 2 ^ 2 - 1 := by
      simp only [State.coverMask, regFields_prep, List.foldl_cons, List.foldl_nil, s.fieldRsv_of_page (f := IMP_PREP_GO) rfl,
        s.fieldRsv_of_page (f := IMP_PREP_BANK) rfl]
      rfl
    rw [hmask]
    exact Nat.and_two_pow_sub_one_of_lt_two_pow (by omega)

theorem State.roleActs_prep (s old : State) (src : Requester) (v : Nat) (h : v.testBit 0 = true) :
    s.roleActs old src 0x17 0x90 v = s.prepGo src (s.rd IMP_PREP_BANK) := by
  simp [State.roleActs, h, State.when]

theorem exec_bankPrepare_eq (s : State) (src : Requester) (hr : s.reachable src = true) (hact : pageActive s.role 0x17 = true) (b : BitVec 1) :
    exec (.bankPrepare src b) s =
      .next (((s.wr IMP_PREP_BANK b.toNat).prepGo src b.toNat).mgmtReg src 0x17 0x90 (1 + 2 * b.toNat)) := by
  change Host.Outcome.next (s.writeWith src 0x17 0x90 [(IMP_PREP_BANK, b.toNat), (IMP_PREP_GO, 1)] 0) = _
  have hb : b.toNat < 2 := b.isLt
  have hgo : (1 + 2 * b.toNat).testBit 0 = true := by simp [Nat.testBit_zero]
  rw [State.writeWith_block s src blockReg_prep hact hr _ _ 0 (prep_value s hb), writeFields_prep s src hb,
    State.commonActs_high _ _ _ _ _ _ (by decide), State.roleActs_prep _ _ _ _ hgo, State.rd_wr_self _ _ _ hb (by decide)]

/-- A bit taken out of a value of two bits. -/
theorem testBit_clear {b c : Nat} (x : Nat) (hb : b < 2) (hc : c < 2) : ((x - (x &&& 2 ^ b)) % 4).testBit c = (x.testBit c && c != b) := by
  rw [Nat.and_two_pow, Nat.toNat_testBit]
  simp only [Nat.testBit_eq_decide_div_mod_eq]
  interval_cases b <;> interval_cases c <;> simp <;> omega

/-- PREP.GO while nothing is prepared starts a preparation, and the bank's OK falls. -/
theorem exec_bankPrepare_starts (s : State) (src : Requester) (hr : s.reachable src = true) (hact : pageActive s.role 0x17 = true)
    (b : BitVec 1) (hidle : s.on IMP_PREP_STAT_BUSY = false) :
    ∃ t, exec (.bankPrepare src b) s = .next t ∧ t.rd IMP_PREP_STAT_BUSY = 1 ∧
      t.imp.prep = some b.toNat ∧ (t.rd IMP_PREP_STAT_OK).testBit b.toNat = false ∧
      (t.rd IMP_PREP_STAT_OK).testBit (1 - b.toNat) = (s.rd IMP_PREP_STAT_OK).testBit (1 - b.toNat) ∧
      Kept (keysOf [IMP_PREP_BANK, IMP_PREP_STAT_BUSY, IMP_PREP_STAT_OK]) s t := by
  have hb : b.toNat < 2 := b.isLt
  have hon : (s.wr IMP_PREP_BANK b.toNat).on IMP_PREP_STAT_BUSY = false := by rw [State.on, State.rd_wr_ne _ _ (by decide)]; exact hidle
  have hok : (s.wr IMP_PREP_BANK b.toNat).rd IMP_PREP_STAT_OK = s.rd IMP_PREP_STAT_OK := State.rd_wr_ne _ _ (by decide)
  have hbank : Effect (keysOf [IMP_PREP_BANK, IMP_PREP_STAT_BUSY, IMP_PREP_STAT_OK]) (fun _ => false) s (s.wr IMP_PREP_BANK b.toNat) :=
    .wr _ _ _ _ (by decide) (by decide)
  rw [exec_bankPrepare_eq s src hr hact, State.prepGo, if_neg (Bool.eq_false_iff.mp hon), hok]
  generalize s.wr IMP_PREP_BANK b.toNat = s1 at hbank
  generalize hw : (s1.wr IMP_PREP_STAT_BUSY 1).wr IMP_PREP_STAT_OK (s.rd IMP_PREP_STAT_OK - (s.rd IMP_PREP_STAT_OK &&& 2 ^ b.toNat)) = s2
  have hstat : Effect (keysOf [IMP_PREP_BANK, IMP_PREP_STAT_BUSY, IMP_PREP_STAT_OK]) (fun _ => false) s1 s2 :=
    hw ▸ (Effect.wr _ _ _ _ (by decide) (by decide)).trans (.wr _ _ _ _ (by decide) (by decide))
  have himp : Effect (keysOf [IMP_PREP_BANK, IMP_PREP_STAT_BUSY, IMP_PREP_STAT_OK]) (fun _ => false) s2
      { s2 with imp := { s1.imp with prep := some b.toNat } } := .of_same rfl rfl rfl rfl rfl
  have hbusy : s2.rd IMP_PREP_STAT_BUSY = 1 := by
    rw [← hw, State.rd_wr_ne _ _ (by decide)]
    exact State.rd_wr_self _ _ _ (by decide) (by decide)
  have hokv : s2.rd IMP_PREP_STAT_OK = (s.rd IMP_PREP_STAT_OK - (s.rd IMP_PREP_STAT_OK &&& 2 ^ b.toNat)) % 4 := by
    rw [← hw, State.rd_wr, if_pos rfl]
    exact Nat.mod_eq_of_lt (Nat.lt_trans (Nat.mod_lt _ (by decide)) (by decide))
  have hrd (f : Fld) (hf : plainKey f.key = true) : (State.mgmtReg { s2 with imp := { s1.imp with prep := some b.toNat } } src 0x17 0x90
      (1 + 2 * b.toNat)).rd f = s2.rd f := (State.mgmtReg_rd _ _ _ _ _ hf).trans (State.rd_congr rfl f)
  refine ⟨_, rfl, ?_, ?_, ?_, ?_, (((hbank.trans hstat).trans himp).trans (.mgmtReg _ _ _ _ _ _ _)).kept⟩
  · rw [hrd _ (by decide), hbusy]
  · rw [apart_imp.mgmtReg]
  · rw [hrd _ (by decide), hokv, testBit_clear _ hb hb]
    simp
  · rw [hrd _ (by decide), hokv, testBit_clear _ hb (by omega)]
    simp
    omega

/-- PREP.GO while a preparation runs is discarded. -/
theorem exec_bankPrepare_busy (s : State) (src : Requester) (hr : s.reachable src = true) (hact : pageActive s.role 0x17 = true)
    (b : BitVec 1) (hbusy : s.on IMP_PREP_STAT_BUSY = true) :
    ∃ t, exec (.bankPrepare src b) s = .next t ∧ t.imp = s.imp ∧ t.on (ERR_CAP0_VALID 0x17) = true ∧
      (s.on (ERR_CAP0_VALID 0x17) = false → t.rd (ERR_CAP0_CODE 0x17) = 0x21) ∧ Kept (regKeys 0x17 0x90) s t := by
  have hon : (s.wr IMP_PREP_BANK b.toNat).on IMP_PREP_STAT_BUSY = true := by rw [State.on, State.rd_wr_ne _ _ (by decide)]; exact hbusy
  have hvalid : (s.wr IMP_PREP_BANK b.toNat).on (ERR_CAP0_VALID 0x17) = s.on (ERR_CAP0_VALID 0x17) := by
    rw [State.on, State.rd_wr_ne _ _ (by decide), State.on]
  have hwrite := Effect.writeFields (fun _ => false) blockReg_prep s src (1 + 2 * b.toNat)
  rw [writeFields_prep s src b.isLt] at hwrite
  rw [exec_bankPrepare_eq s src hr hact, State.prepGo, if_pos hon]
  have hcap := Effect.capture (own := regKeys 0x17 0x90) (fun _ => false) (s.wr IMP_PREP_BANK b.toNat) 0x17 errBUSY src 0x90 (1 + 2 * b.toNat)
    (keysOf_subset fun f hf => List.mem_append_left _ (List.mem_append_right _ hf))
  refine ⟨_, rfl, ?_, ?_, fun hfirst => ?_, ((hwrite.trans hcap).trans (.mgmtReg _ _ _ _ _ _ _)).kept⟩
  · rw [apart_imp.mgmtReg, apart_imp.capture]
    rfl
  · rw [State.mgmtReg_on _ _ _ _ _ (by decide), State.capture_on]
  · rw [State.mgmtReg_rd _ _ _ _ _ (by decide), State.capture_code _ _ _ _ _ _ (hvalid.trans hfirst) (by decide)]
    rfl

end Sys2Proof.Machine
end

