-- ==== Sys2Proof/Proofs/EpochIssue.lean ====
section
/-! SUPPORT. What the issue of an epoch and a swap touch, and what they leave in the registers (R272, R273, R283). -/

namespace Sys2Proof.Machine

/-! ### A new epoch is issued (R272, R273) -/

theorem Effect.post (own words : Nat → Bool) (s : State) (code : Nat) (extra : List Nat) : Effect own words s (s.post code extra) :=
  .of_quiet (.post s code extra) (.note 8 s _)

theorem Effect.setArb (own words : Nat → Bool) (s : State) (sd : Nat) (x : ArbSide) : Effect own words s (s.setArb sd x) :=
  .of_same rfl rfl rfl rfl rfl

theorem quiet_sendSide (s : State) (sd typ : Nat) (ws : List Nat) : Quiet s (s.sendSide sd typ ws) ∧ Grows s (s.sendSide sd typ ws) := by
  unfold State.sendSide
  split
  · exact ⟨.sendFolios _ _ _, .sendFolios _ _ _⟩
  · exact ⟨.refl s, .refl s⟩

theorem quiet_sendEther (s : State) (typ ring : Nat) (ws : List Nat) :
    Quiet s (s.sendEther typ ring ws) ∧ Grows s (s.sendEther typ ring ws) := by
  unfold State.sendEther
  split
  · exact ⟨.send _ _, .send _ _⟩
  · exact ⟨.refl s, .refl s⟩

/-- What an epoch's holder sends of it changes nothing else. -/
def State.sendEpoch (s : State) (sender : Bool) (ring : Nat) (ws : List Nat) : State :=
  if sender then (s.sendSides 8 ws).sendEther 8 ring ws else s.sendSides 8 ws

theorem quiet_sendEpoch (s : State) (sender : Bool) (ring : Nat) (ws : List Nat) :
    Quiet s (s.sendEpoch sender ring ws) ∧ Grows s (s.sendEpoch sender ring ws) := by
  obtain ⟨hq0, hg0⟩ := quiet_sendSide s 0 8 ws
  obtain ⟨hq1, hg1⟩ := quiet_sendSide (s.sendSide 0 8 ws) 1 8 ws
  obtain ⟨hqe, hge⟩ := quiet_sendEther (s.sendSides 8 ws) 8 ring ws
  unfold State.sendEpoch
  split
  · exact ⟨(hq0.trans hq1).trans hqe, (hg0.trans hg1).trans hge⟩
  · exact ⟨hq0.trans hq1, hg0.trans hg1⟩

/-- The registers of an epoch just taken. -/
def State.epochTaken (s : State) (i e issuer reason apply : Nat) : State :=
  let s1 := ((((s.wr (ARB_EPOCH_EPOCH i) e).wr (ARB_EPOCH_ISSUER i) issuer).wr (ARB_EPOCH_REASON i) reason).wr (ARB_EPOCH_ACTIVE i)
    (epochNode e)).when s.isSender fun s => s.markDirty 0
  (s1.wr (ARB_APPLY_FRAME i) (if apply ≤ s.frame then s.frame + 1 else apply)).wr (ARB_APPLY_PEND i) 1

theorem State.adoptEpoch_higher (s : State) {i e issuer reason apply : Nat} (hsus : s.suspended = false)
    (h : s.rd (ARB_EPOCH_EPOCH i) < e) : s.adoptEpoch i e issuer reason apply = ((s.epochTaken i e issuer reason apply).raise 9 4).disarm := by
  rw [State.adoptEpoch, hsus, if_neg (by decide), if_pos h]
  rfl

theorem epochFields_plain {i : Nat} (hi : i < 2) : ∀ f ∈ epochFields i, plainKey f.key = true := by
  interval_cases i <;> decide

/-- What is counted of a side's epochs and swaps. -/
def countFields (i : Nat) : List Fld := [ARB_CNT_GRANTS i, ARB_CNT_SWAPS i]

theorem countFields_plain {i : Nat} (hi : i < 2) : ∀ f ∈ countFields i, plainKey f.key = true := by
  interval_cases i <;> decide

theorem Effect.wrEpoch (words : Nat → Bool) (s : State) {i : Nat} (hi : i < 2) {f : Fld} (v : Nat) (hf : f ∈ epochFields i) :
    Effect (keysOf (epochFields i)) words s (s.wr f v) := .wr words s f v (keysOf_mem hf) (epochFields_plain hi f hf)

theorem Effect.epochTaken (words : Nat → Bool) (s : State) {i : Nat} (hi : i < 2) (e issuer reason apply : Nat) :
    Effect (keysOf (epochFields i)) words s (s.epochTaken i e issuer reason apply) := by
  have hid : Effect (keysOf (epochFields i)) words s ((((s.wr (ARB_EPOCH_EPOCH i) e).wr (ARB_EPOCH_ISSUER i) issuer).wr (ARB_EPOCH_REASON i)
      reason).wr (ARB_EPOCH_ACTIVE i) (epochNode e)) :=
    (((Effect.wrEpoch words s hi _ (by simp [epochFields])).trans (.wrEpoch words _ hi _ (by simp [epochFields]))).trans
      (.wrEpoch words _ hi _ (by simp [epochFields]))).trans (.wrEpoch words _ hi _ (by simp [epochFields]))
  exact ((hid.when _ fun s => .markDirty words s 0 (keysOf_mem (by simp [epochFields]))).trans (.wrEpoch words _ hi _ (by simp [epochFields]))).trans
    (.wrEpoch words _ hi _ (by simp [epochFields]))

/-- The fields that an epoch's issue changes beside the epoch's own. -/
def issueFields (i : Nat) : List Fld := [UPD_ACT_STATE, UPD_ACT_PEND, ARB_CNT_GRANTS i, NVS_SAVE_DIRTY]

theorem Effect.disarm {own : Nat → Bool} (words : Nat → Bool) (s : State) (hs : own UPD_ACT_STATE.key = true)
    (hp : own UPD_ACT_PEND.key = true) : Effect own words s s.disarm := by
  unfold State.disarm
  split
  · exact ((Effect.wr words s _ _ hs (by decide)).trans (.wr words _ _ _ hp (by decide))).trans (.post _ _ _ _ _)
  · exact .refl _ _ s

/-- An epoch that is issued is taken, counted and sent. -/
theorem State.issueEpoch_eq (s : State) (i e reason apply : Nat) : ∃ issuer ring ws,
    s.issueEpoch i e reason apply = ((s.adoptEpoch i e issuer reason apply).bumpM (ARB_CNT_GRANTS i)).sendEpoch s.isSender ring ws :=
  ⟨_, _, _, rfl⟩

/-- A higher epoch is taken as it is issued; what follows is counted and sent. -/
theorem State.issueEpoch_taken (s : State) {i e reason apply : Nat} (hi : i < 2) (hsus : s.suspended = false) (h : s.rd (ARB_EPOCH_EPOCH i) < e) :
    ∃ issuer, Effect (keysOf (issueFields i)) (fun _ => false) (s.epochTaken i e issuer reason apply) (s.issueEpoch i e reason apply) := by
  obtain ⟨issuer, ring, ws, heq⟩ := s.issueEpoch_eq i e reason apply
  refine ⟨issuer, ?_⟩
  obtain ⟨hq, hg⟩ := quiet_sendEpoch ((s.adoptEpoch i e issuer reason apply).bumpM (ARB_CNT_GRANTS i)) s.isSender ring ws
  rw [heq]
  refine Effect.trans ?_ (.of_quiet hq hg)
  rw [s.adoptEpoch_higher hsus h]
  exact ((Effect.raise _ _ _ 9 4).trans (.disarm _ _ (keysOf_mem (by simp [issueFields])) (keysOf_mem (by simp [issueFields])))).trans
    (.bumpM _ _ _ (keysOf_mem (by simp [issueFields])) (countFields_plain hi _ (by simp [countFields])) (keysOf_mem (by simp [issueFields])))

/-- An epoch's issue touches its own fields and the count of grants. -/
theorem Effect.issueEpoch (s : State) {i e reason apply : Nat} (hi : i < 2) (hsus : s.suspended = false) (h : s.rd (ARB_EPOCH_EPOCH i) < e) :
    Effect (keysOf (epochFields i ++ [ARB_CNT_GRANTS i])) (fun _ => false) s (s.issueEpoch i e reason apply) := by
  obtain ⟨issuer, hissue⟩ := s.issueEpoch_taken (reason := reason) (apply := apply) hi hsus h
  refine ((Effect.epochTaken _ s hi e issuer reason apply).mono (keysOf_subset ?_) fun _ h => h).trans
    (hissue.mono (keysOf_subset ?_) fun _ h => h)
  · exact List.subset_append_left _ _
  · simp [issueFields, epochFields]

/-- An issue leaves an epoch as it was taken. -/
theorem issueFields_out {i : Nat} (hi : i < 2) :
    ∀ f ∈ [ARB_EPOCH_EPOCH i, ARB_EPOCH_REASON i, ARB_APPLY_FRAME i], keysOf (issueFields i) f.key = false := by
  interval_cases i <;> decide

/-- The epoch, its reason and its tick as they are taken. -/
theorem State.epochTaken_rd (s : State) {i : Nat} (hi : i < 2) (e issuer reason apply : Nat) (he : e < 2 ^ 32) (hre : reason < 8) :
    (s.epochTaken i e issuer reason apply).rd (ARB_EPOCH_EPOCH i) = e ∧
      (s.epochTaken i e issuer reason apply).rd (ARB_EPOCH_REASON i) = reason ∧
      (s.frame < apply → apply < 2 ^ 48 → (s.epochTaken i e issuer reason apply).rd (ARB_APPLY_FRAME i) = apply) := by
  have hdirty (u : State) (f : Fld) (hf : f.key ≠ NVS_SAVE_DIRTY.key) : (u.when s.isSender fun s => s.markDirty 0).rd f = u.rd f :=
    State.when_keeps (P := fun v => v.rd f = u.rd f) _ _ (fun v hv => (State.rd_wr_ne _ _ hf).trans hv) rfl
  unfold State.epochTaken
  dsimp only
  refine ⟨?_, ?_, fun hlt h48 => ?_⟩
  · rw [State.rd_wr_ne, State.rd_wr_ne, hdirty, State.rd_wr_ne, State.rd_wr_ne, State.rd_wr_ne, State.rd_wr_of _ _ 32 rfl he (by decide)]
    all_goals interval_cases i <;> decide
  · rw [State.rd_wr_ne, State.rd_wr_ne, hdirty, State.rd_wr_ne, State.rd_wr_of _ _ 3 rfl hre (by decide)]
    all_goals interval_cases i <;> decide
  · rw [if_neg (Nat.not_le.mpr hlt), State.rd_wr_ne, State.rd_wr_of _ _ 48 rfl h48 (by decide)]
    interval_cases i <;> decide

/-- The epoch, its reason and its tick after an issue. -/
theorem State.issueEpoch_rd (s : State) {i e reason apply : Nat} (hi : i < 2) (hsus : s.suspended = false)
    (h : s.rd (ARB_EPOCH_EPOCH i) < e) (he : e < 2 ^ 32) (hre : reason < 8) :
    (s.issueEpoch i e reason apply).rd (ARB_EPOCH_EPOCH i) = e ∧ (s.issueEpoch i e reason apply).rd (ARB_EPOCH_REASON i) = reason ∧
      (s.frame < apply → apply < 2 ^ 48 → (s.issueEpoch i e reason apply).rd (ARB_APPLY_FRAME i) = apply) := by
  obtain ⟨issuer, hissue⟩ := s.issueEpoch_taken (reason := reason) (apply := apply) hi hsus h
  obtain ⟨hepoch, hreason, happly⟩ := s.epochTaken_rd hi e issuer reason apply he hre
  have hrd (f : Fld) (hf : f ∈ epochFields i) (ho : f ∈ [ARB_EPOCH_EPOCH i, ARB_EPOCH_REASON i, ARB_APPLY_FRAME i]) :=
    hissue.rd (epochFields_plain hi f hf) (issueFields_out hi f ho)
  rw [hrd (ARB_EPOCH_EPOCH i) (by simp [epochFields]) (by simp), hrd (ARB_EPOCH_REASON i) (by simp [epochFields]) (by simp),
    hrd (ARB_APPLY_FRAME i) (by simp [epochFields]) (by simp)]
  exact ⟨hepoch, hreason, happly⟩

/-- An issue leaves the count of swaps. -/
theorem State.issueEpoch_swaps (s : State) {i e reason apply : Nat} (hi : i < 2) (hsus : s.suspended = false)
    (h : s.rd (ARB_EPOCH_EPOCH i) < e) : (s.issueEpoch i e reason apply).rd (ARB_CNT_SWAPS i) = s.rd (ARB_CNT_SWAPS i) :=
  (Effect.issueEpoch s hi hsus h).rd (countFields_plain hi _ (by simp [countFields])) (by interval_cases i <;> decide)

/-! ### A swap (R283) -/

theorem Effect.doSwap (s : State) {i reason apply : Nat} (hi : i < 2) (hsus : s.suspended = false) :
    Effect (keysOf (epochFields i ++ [ARB_CNT_GRANTS i, ARB_CNT_SWAPS i])) (fun _ => false) s (s.doSwap i reason apply) :=
  ((Effect.issueEpoch s hi hsus (Nat.lt_succ_self _)).mono (keysOf_subset (by simp [epochFields])) fun _ h => h).trans
    (.bumpM _ _ _ (keysOf_mem (by simp)) (countFields_plain hi _ (by simp [countFields])) (keysOf_mem (by simp [epochFields])))

/-- A swap counts itself and leaves the epoch it issued. -/
theorem State.doSwap_rd_ne (s : State) {i reason apply : Nat} {f : Fld} (hf : f.key ≠ (ARB_CNT_SWAPS i).key)
    (hd : f.key ≠ NVS_SAVE_DIRTY.key) :
    (s.doSwap i reason apply).rd f = (s.issueEpoch i (s.rd (ARB_EPOCH_EPOCH i) + 1) reason apply).rd f := by
  rw [State.doSwap, State.bumpM, State.markDirty, State.rd_wr_ne _ _ hd, State.bump, State.bumpBy, State.rd_wr_ne _ _ hf]

/-- After a swap: the epoch, its reason, its tick and the count. -/
theorem State.doSwap_rd (s : State) {i reason apply : Nat} (hi : i < 2) (hsus : s.suspended = false)
    (he : s.rd (ARB_EPOCH_EPOCH i) + 1 < 2 ^ 32) (hre : reason < 8) :
    (s.doSwap i reason apply).rd (ARB_EPOCH_EPOCH i) = s.rd (ARB_EPOCH_EPOCH i) + 1 ∧
      (s.doSwap i reason apply).rd (ARB_EPOCH_REASON i) = reason ∧
      (s.frame < apply → apply < 2 ^ 48 → (s.doSwap i reason apply).rd (ARB_APPLY_FRAME i) = apply) ∧
      (s.doSwap i reason apply).rd (ARB_CNT_SWAPS i) = min (s.rd (ARB_CNT_SWAPS i) + 1) 255 := by
  have hfields : ∀ f ∈ [ARB_EPOCH_EPOCH i, ARB_EPOCH_REASON i, ARB_APPLY_FRAME i],
      f.key ≠ (ARB_CNT_SWAPS i).key ∧ f.key ≠ NVS_SAVE_DIRTY.key := by interval_cases i <;> decide
  have hrd (f : Fld) (hf : f ∈ [ARB_EPOCH_EPOCH i, ARB_EPOCH_REASON i, ARB_APPLY_FRAME i]) :=
    s.doSwap_rd_ne (reason := reason) (apply := apply) (hfields f hf).1 (hfields f hf).2
  rw [hrd (ARB_EPOCH_EPOCH i) (by simp), hrd (ARB_EPOCH_REASON i) (by simp), hrd (ARB_APPLY_FRAME i) (by simp)]
  obtain ⟨hepoch, hreason, happly⟩ := s.issueEpoch_rd (apply := apply) hi hsus (Nat.lt_succ_self _) he hre
  refine ⟨hepoch, hreason, happly, ?_⟩
  rw [State.doSwap, State.bumpM, State.markDirty, State.rd_wr_ne _ _ (by interval_cases i <;> decide), State.bump,
    State.rd_bumpBy _ _ _ (by simp [ARB_CNT_SWAPS]), s.issueEpoch_swaps hi hsus (Nat.lt_succ_self _)]
  rfl

namespace Apart
variable {α : Type} {π : State → α}

theorem bumpM (h : Apart π) (s : State) (f : Fld) : π (s.bumpM f) = π s := (h.markDirty _ _).trans (h.wr _ _ _)

theorem disarm (h : Apart π) (s : State) : π s.disarm = π s := by
  unfold State.disarm
  split
  · rw [h.quiet (Quiet.post _ _ _), h.wr, h.wr]
  · rfl

theorem epochTaken (h : Apart π) (s : State) (i e issuer reason apply : Nat) : π (s.epochTaken i e issuer reason apply) = π s := by
  rw [State.epochTaken, h.wr, h.wr, State.when_keeps (P := fun u => π u = π s) _ _ (fun u hu => (h.markDirty u 0).trans hu)]
  rw [h.wr, h.wr, h.wr, h.wr]

theorem issueEpoch (h : Apart π) (s : State) {i e reason apply : Nat} (hsus : s.suspended = false) (he : s.rd (ARB_EPOCH_EPOCH i) < e) :
    π (s.issueEpoch i e reason apply) = π s := by
  obtain ⟨issuer, ring, ws, heq⟩ := s.issueEpoch_eq i e reason apply
  rw [heq, h.quiet (quiet_sendEpoch _ _ _ _).1, h.bumpM, s.adoptEpoch_higher hsus he, h.disarm, h.quiet (Quiet.raise _ _ _), h.epochTaken]

theorem doSwap (h : Apart π) (s : State) {i reason apply : Nat} (hsus : s.suspended = false) : π (s.doSwap i reason apply) = π s := by
  rw [State.doSwap, h.bumpM, h.issueEpoch s hsus (Nat.lt_succ_self _)]

end Apart

end Sys2Proof.Machine
end

