-- ==== Sys2Proof/Proofs/ArbitrationCommands.lean ====
section
/-! SUPPORT. The register commands ARB.SWAP and ARB.REH (R273, R283, R285). -/

namespace Sys2Proof.Machine

/-! ### What decides a swap, a take and a rehearsal -/

/-- The fields that decide a swap, a take and a rehearsal, and those they count on. -/
def arbReads (sd : Nat) : List Fld :=
  [HIF_STRAP_STAT_ROLE, WTU_FRAME_FRAME_NO, ARB_STAT_STATE sd, ARB_STAT_PEER_READY sd, ARB_TIMING_MISS_US, ARB_EPOCH_EPOCH sd,
   ARB_CNT_SWAPS sd]

/-- Two states alike in what decides a swap, a take and a rehearsal on a side. -/
structure ArbSame (sd : Nat) (s t : State) : Prop where
  arb : t.arb = s.arb
  upd : t.upd = s.upd
  rd : ∀ f ∈ arbReads sd, t.rd f = s.rd f

namespace ArbSame
variable {sd : Nat} {s t : State}

theorem isSender (h : ArbSame sd s t) : t.isSender = s.isSender := by
  rw [State.isSender, State.role, h.rd _ (by simp [arbReads]), State.isSender, State.role]

theorem frame (h : ArbSame sd s t) : t.frame = s.frame := h.rd _ (by simp [arbReads])

theorem state (h : ArbSame sd s t) : t.rd (ARB_STAT_STATE sd) = s.rd (ARB_STAT_STATE sd) := h.rd _ (by simp [arbReads])

theorem epoch (h : ArbSame sd s t) : t.rd (ARB_EPOCH_EPOCH sd) = s.rd (ARB_EPOCH_EPOCH sd) := h.rd _ (by simp [arbReads])

theorem swaps (h : ArbSame sd s t) : t.rd (ARB_CNT_SWAPS sd) = s.rd (ARB_CNT_SWAPS sd) := h.rd _ (by simp [arbReads])

theorem suspended (h : ArbSame sd s t) : t.suspended = s.suspended := by
  rw [State.suspended, h.upd, h.frame, State.suspended]

theorem arbSide (h : ArbSame sd s t) : t.arbSide sd = s.arbSide sd := by rw [State.arbSide, h.arb, State.arbSide]

theorem peerReady (h : ArbSame sd s t) : t.on (ARB_STAT_PEER_READY sd) = s.on (ARB_STAT_PEER_READY sd) := by
  rw [State.on, h.rd _ (by simp [arbReads]), State.on]

theorem missUs (h : ArbSame sd s t) : t.rd ARB_TIMING_MISS_US = s.rd ARB_TIMING_MISS_US := h.rd _ (by simp [arbReads])

theorem swapOk (h : ArbSame sd s t) (w : Nat) : t.swapOk sd w = s.swapOk sd w := by
  rw [State.swapOk, h.isSender, h.state, h.suspended, h.peerReady, h.arbSide, h.missUs, State.swapOk]

theorem mayTake (h : ArbSame sd s t) : t.mayTake sd = s.mayTake sd := by
  rw [State.mayTake, h.isSender, h.state, h.suspended, State.mayTake]

theorem mayRehearse (h : ArbSame sd s t) : t.mayRehearse sd = s.mayRehearse sd := by
  rw [State.mayRehearse, h.isSender, h.state, State.mayRehearse]

theorem rehOk (h : ArbSame sd s t) (w : Nat) : t.rehOk sd w = s.rehOk sd w := by
  rw [State.rehOk, h.peerReady, h.arbSide, h.missUs, State.rehOk]

end ArbSame

theorem arbReads_out {sd off : Nat} (hsd : sd < 2) (ho : off = 0xA0 ∨ off = 0xA8) :
    ∀ f ∈ arbReads sd, noteKey f.key = false ∧ regKeys 9 off f.key = false := by
  rcases ho with rfl | rfl <;> interval_cases sd <;> decide +kernel

/-- The registers of a rehearsal and of a swap decide none of it themselves. -/
theorem arbSame_writeFields (s : State) (src : Requester) {sd off : Nat} (hsd : sd < 2) (ho : off = 0xA0 ∨ off = 0xA8) (v : Nat) :
    ArbSame sd s (s.writeFields src 9 off v false []) := by
  refine ⟨apart_arb.writeFields _ _ _ _ _, apart_upd.writeFields _ _ _ _ _, fun f hf => ?_⟩
  obtain ⟨hnote, hout⟩ := arbReads_out hsd ho f hf
  have hwrite := Effect.writeFields (fun _ => false) (pg := 9) (off := off) ⟨.inl rfl, by omega⟩ s src v
  rw [State.rd, hwrite.regs _ hout hnote, State.rd]

/-! ### The write of ARB.SWAP -/

theorem blockReg_swap : blockReg 9 0xA8 := ⟨.inl rfl, by decide⟩

theorem regFields_swap : regFields 9 0xA8 = [ARB_SWAP_APPLY_FRAME, ARB_SWAP_SIDE, ARB_SWAP_GO, ARB_SWAP_TAKE] := by decide +kernel

theorem Fld.of_eq {f : Fld} (lo w : Nat) (hlo : f.lo = lo) (hw : f.w = w) (h : 0 < w) (v : Nat) : f.of v = v / 2 ^ lo % 2 ^ w := by
  rw [Fld.of, bitsOf, Nat.shiftRight_eq_div_pow, hlo, hw, show lo + w - 1 + 1 - lo = w by omega]

/-- What a register holds that keeps two fields. -/
theorem State.fieldsNow_pair (s : State) {pg off : Nat} {f g : Fld}
    (h : (regFields pg off).filter (fun f => f.acc == .rw || f.acc == .rws || f.acc == .rwk) = [f, g]) (hf : f.acc = .rw)
    (hg : g.acc = .rw) : s.fieldsNow pg off = s.rd f % 2 ^ f.w * 2 ^ f.lo + s.rd g % 2 ^ g.w * 2 ^ g.lo := by
  rw [State.fieldsNow, h]
  simp [hf, hg]

theorem fieldsKept_swap : (regFields 9 0xA8).filter (fun f => f.acc == .rw || f.acc == .rws || f.acc == .rwk) =
    [ARB_SWAP_APPLY_FRAME, ARB_SWAP_SIDE] := by decide +kernel

/-- A field of 48 bits and one of one bit above it. -/
theorem fieldSum_48_1 {f g : Fld} (hfw : f.w = 48) (hfl : f.lo = 0) (hgw : g.w = 1) (hgl : g.lo = 48) (x y : Nat) :
    x % 2 ^ f.w * 2 ^ f.lo + y % 2 ^ g.w * 2 ^ g.lo = x % 2 ^ 48 + y % 2 * 2 ^ 48 := by
  rw [hfw, hfl, hgw, hgl]
  omega

theorem fieldsNow_swap (s : State) : s.fieldsNow 9 0xA8 = s.rd ARB_SWAP_APPLY_FRAME % 2 ^ 48 + s.rd ARB_SWAP_SIDE % 2 * 2 ^ 48 :=
  (s.fieldsNow_pair fieldsKept_swap rfl rfl).trans (fieldSum_48_1 rfl rfl rfl rfl _ _)

/-- A side, and a bit that acts, written over what ARB.SWAP holds. -/
theorem overlay_swap {f g : Fld} (hfw : f.w = 1) (hfl : f.lo = 48) (hgw : g.w = 1) {bit : Nat} (hgl : g.lo = bit)
    (hbit : bit = 49 ∨ bit = 50) (x y : Nat) {sd : Nat} (hsd : sd < 2) :
    overlay (x % 2 ^ 48 + y % 2 * 2 ^ 48) [(f, sd), (g, 1)] = x % 2 ^ 48 + sd * 2 ^ 48 + 2 ^ bit := by
  simp only [overlay, List.foldl_cons, List.foldl_nil, Fld.of_eq 48 1 hfl hfw (by decide), Fld.of_eq bit 1 hgl hgw (by decide), hfw, hfl, hgw, hgl]
  rcases hbit with rfl | rfl <;> omega

/-- ARB.SWAP with the tick it holds, a side and a bit that acts. -/
def State.swapWord (s : State) (sd bit : Nat) : Nat := s.rd ARB_SWAP_APPLY_FRAME % 2 ^ 48 + sd * 2 ^ 48 + 2 ^ bit

theorem swap_value (s : State) {g : Fld} {bit : Nat} (hw : g.w = 1) (hlo : g.lo = bit) (hbit : bit = 49 ∨ bit = 50) {sd : Nat} (hsd : sd < 2) :
    overlay (s.fieldsNow 9 0xA8) [(ARB_SWAP_SIDE, sd), (g, 1)] = s.swapWord sd bit := by
  rw [fieldsNow_swap, overlay_swap rfl rfl hw hlo hbit _ _ hsd, State.swapWord]

theorem State.coverMask_of {s : State} {pg off : Nat} (h1 : off ≠ 0x18) (h2 : off ≠ 0x28) (h : ∀ f ∈ regFields pg off, s.fieldRsv f = false) :
    s.coverMask pg off = (regFields pg off).foldl (fun a f => a + (2 ^ f.w - 1) * 2 ^ f.lo) 0 := by
  rw [State.coverMask, if_neg h1, if_neg h2]
  generalize 0 = a
  generalize regFields pg off = fs at h
  induction fs generalizing a with
  | nil => rfl
  | cons f fs ih =>
    rw [List.foldl_cons, List.foldl_cons, h f List.mem_cons_self, ih _ fun g hg => h g (List.mem_cons_of_mem f hg)]
    rfl

theorem regFields_arb {off : Nat} (ho : 128 ≤ off) (f : Fld) (hf : f ∈ regFields 9 off) : decide (f.page ≠ 17 ∧ f.page ≠ 19 ∧ f.page ≠ 8) = true := by
  obtain ⟨-, hp, -⟩ := regFields_shape ⟨.inl rfl, ho⟩ hf
  rw [hp]
  rfl

theorem coverMask_swap (s : State) : s.coverMask 9 0xA8 = 2 ^ 51 - 1 := by
  rw [State.coverMask_of (by decide) (by decide) fun f hf => s.fieldRsv_of_page (regFields_arb (by decide) f hf)]
  decide +kernel

/-- ARB.SWAP's write changes its two fields alone. -/
theorem writeFields_swap (s : State) (src : Requester) {v : Nat} (hv : v < 2 ^ 51) : s.writeFields src 9 0xA8 v false [] =
    (s.wr ARB_SWAP_APPLY_FRAME (ARB_SWAP_APPLY_FRAME.of v)).wr ARB_SWAP_SIDE (ARB_SWAP_SIDE.of v) := by
  have hgo : ARB_SWAP_GO.acc = .wo ∨ ARB_SWAP_GO.acc = .w1s := .inr rfl
  have htake : ARB_SWAP_TAKE.acc = .wo ∨ ARB_SWAP_TAKE.acc = .w1s := .inr rfl
  have hframe (s : State) : s.writeFld ARB_SWAP_APPLY_FRAME v = (s.wr ARB_SWAP_APPLY_FRAME (ARB_SWAP_APPLY_FRAME.of v), none) :=
    State.writeFld_plain s rfl rfl (s.fieldRsv_of_page rfl) (State.legal_of_none rfl rfl rfl (by decide))
  have hside (s : State) : s.writeFld ARB_SWAP_SIDE v = (s.wr ARB_SWAP_SIDE (ARB_SWAP_SIDE.of v), none) :=
    State.writeFld_plain s rfl rfl (s.fieldRsv_of_page rfl) (State.legal_of_none rfl rfl rfl (by decide))
  rw [State.writeFields_clean, regFields_swap]
  · simp only [State.writeEach, State.each_cons, State.each_nil, hframe, hside, writeFld_wo hgo, writeFld_wo htake]
  · rw [regFields_swap]
    simp only [List.forall_mem_cons, List.not_mem_nil, false_implies, implies_true, and_true]
    exact ⟨fun s => by rw [hframe], fun s => by rw [hside], fun s => by rw [writeFld_wo hgo], fun s => by rw [writeFld_wo htake]⟩
  · rw [coverMask_swap]
    exact Nat.and_two_pow_sub_one_of_lt_two_pow hv

/-- The state after the fields of ARB.SWAP are written for a side. -/
def State.swapWritten (s : State) (sd : Nat) : State :=
  (s.wr ARB_SWAP_APPLY_FRAME (s.rd ARB_SWAP_APPLY_FRAME % 2 ^ 48)).wr ARB_SWAP_SIDE sd

theorem swapWord_bits (s : State) {sd bit : Nat} (hsd : sd < 2) (hbit : bit = 49 ∨ bit = 50) : s.swapWord sd bit < 2 ^ 51 ∧
    s.swapWord sd bit % 2 ^ 48 = s.rd ARB_SWAP_APPLY_FRAME % 2 ^ 48 ∧ s.swapWord sd bit / 2 ^ 48 % 2 = sd ∧
    (s.swapWord sd bit).testBit 49 = (bit == 49) ∧ (s.swapWord sd bit).testBit 50 = (bit == 50) := by
  rw [State.swapWord]
  generalize s.rd ARB_SWAP_APPLY_FRAME = x
  simp only [Nat.testBit_eq_decide_div_mod_eq]
  rcases hbit with rfl | rfl
  · refine ⟨by omega, by omega, by omega, decide_eq_true (by omega), decide_eq_false (by omega)⟩
  · refine ⟨by omega, by omega, by omega, decide_eq_false (by omega), decide_eq_true (by omega)⟩

theorem writeFields_swapWord (s : State) (src : Requester) {sd bit : Nat} (hsd : sd < 2) (hbit : bit = 49 ∨ bit = 50) :
    s.writeFields src 9 0xA8 (s.swapWord sd bit) false [] = s.swapWritten sd := by
  obtain ⟨hlt, hframe, hside, -, -⟩ := swapWord_bits s hsd hbit
  rw [writeFields_swap s src hlt, Fld.of_eq (f := ARB_SWAP_APPLY_FRAME) 0 48 rfl rfl (by decide), Nat.pow_zero, Nat.div_one, hframe,
    Fld.of_eq (f := ARB_SWAP_SIDE) 48 1 rfl rfl (by decide), Nat.pow_one, hside, State.swapWritten]

theorem State.swapWritten_side (s : State) {sd : Nat} (hsd : sd < 2) : (s.swapWritten sd).rd ARB_SWAP_SIDE = sd :=
  State.rd_wr_of _ _ 1 rfl hsd (by decide)

theorem State.swapWritten_frame (s : State) (sd : Nat) :
    (s.swapWritten sd).rd ARB_SWAP_APPLY_FRAME = s.rd ARB_SWAP_APPLY_FRAME % 2 ^ 48 := by
  rw [State.swapWritten, State.rd_wr_ne _ _ (by decide)]
  exact State.rd_wr_of _ _ 48 rfl (Nat.mod_lt _ (Nat.two_pow_pos 48)) (by decide)

theorem arbSame_swapWritten (s : State) (src : Requester) {sd : Nat} (hsd : sd < 2) : ArbSame sd s (s.swapWritten sd) := by
  have := arbSame_writeFields s src hsd (.inr rfl) (s.swapWord sd 49)
  rwa [writeFields_swapWord s src hsd (.inl rfl)] at this

theorem Effect.swapWritten (s : State) (src : Requester) {sd : Nat} (hsd : sd < 2) :
    Effect (regKeys 9 0xA8) (fun _ => false) s (s.swapWritten sd) := by
  have := Effect.writeFields (fun _ => false) blockReg_swap s src (s.swapWord sd 49)
  rwa [writeFields_swapWord s src hsd (.inl rfl)] at this

theorem State.commonActs_swapGo (s old : State) (src : Requester) {v : Nat} (t : Nat) (hgo : v.testBit 49 = true) (htake : v.testBit 50 = false) :
    s.commonActs old src 9 0xA8 v t = s.swapGo src (s.rd ARB_SWAP_SIDE) t := by
  simp [State.commonActs, hgo, htake]

theorem State.commonActs_swapTake (s old : State) (src : Requester) {v : Nat} (t : Nat) (hgo : v.testBit 49 = false) (htake : v.testBit 50 = true) :
    s.commonActs old src 9 0xA8 v t = s.swapTake src (s.rd ARB_SWAP_SIDE) := by
  simp [State.commonActs, hgo, htake]

theorem exec_swapGo_eq (s : State) (src : Requester) (hr : s.reachable src = true) (sd : Fin 2) (w : Nat) :
    exec (.swapGo src sd w) s = .next (((s.swapWritten sd).swapGo src sd w).mgmtReg src 9 0xA8 (s.swapWord sd 49)) := by
  change Host.Outcome.next (s.writeWith src 9 0xA8 [(ARB_SWAP_SIDE, sd.val), (ARB_SWAP_GO, 1)] w) = _
  obtain ⟨-, -, -, hgo, htake⟩ := swapWord_bits s sd.isLt (.inl rfl)
  rw [State.writeWith_block s src blockReg_swap rfl hr _ _ w (swap_value s (bit := 49) rfl rfl (.inl rfl) sd.isLt),
    writeFields_swapWord s src sd.isLt (.inl rfl), State.commonActs_swapGo _ _ _ _ hgo htake, State.roleActs_low _ _ _ _ _ (by decide),
    s.swapWritten_side sd.isLt]

theorem exec_swapTake_eq (s : State) (src : Requester) (hr : s.reachable src = true) (sd : Fin 2) :
    exec (.swapTake src sd) s = .next (((s.swapWritten sd).swapTake src sd).mgmtReg src 9 0xA8 (s.swapWord sd 50)) := by
  change Host.Outcome.next (s.writeWith src 9 0xA8 [(ARB_SWAP_SIDE, sd.val), (ARB_SWAP_TAKE, 1)] 0) = _
  obtain ⟨-, -, -, hgo, htake⟩ := swapWord_bits s sd.isLt (.inr rfl)
  rw [State.writeWith_block s src blockReg_swap rfl hr _ _ 0 (swap_value s (bit := 50) rfl rfl (.inr rfl) sd.isLt),
    writeFields_swapWord s src sd.isLt (.inr rfl), State.commonActs_swapTake _ _ _ _ hgo htake, State.roleActs_low _ _ _ _ _ (by decide),
    s.swapWritten_side sd.isLt]

/-! ### ARB.SWAP.GO and ARB.SWAP.TAKE (R273, R283) -/

theorem swapResults_plain {sd : Nat} (hsd : sd < 2) : ∀ f ∈ [ARB_EPOCH_EPOCH sd, ARB_EPOCH_REASON sd, ARB_APPLY_FRAME sd, ARB_CNT_SWAPS sd],
    plainKey f.key = true := by interval_cases sd <;> decide

theorem errFields_regKeys (pg off k : Nat) (h : keysOf (errFields pg) k = true) : regKeys pg off k = true :=
  keysOf_subset (fun _ hf => List.mem_append_left _ (List.mem_append_right _ hf)) k h

theorem exec_swapGo_swaps (s : State) (src : Requester) (hr : s.reachable src = true) (sd : Fin 2) (w : Nat) (hok : s.swapOk sd w = true)
    (hsus : s.suspended = false) (he : s.rd (ARB_EPOCH_EPOCH sd) + 1 < 2 ^ 32) (hearly : s.frame + 4 ≤ s.swapFrame (s.rd ARB_SWAP_APPLY_FRAME))
    (hframe : s.swapFrame (s.rd ARB_SWAP_APPLY_FRAME) < 2 ^ 48) (hreg : s.rd ARB_SWAP_APPLY_FRAME < 2 ^ 48) :
    ∃ t, exec (.swapGo src sd w) s = .next t ∧
      t.rd (ARB_EPOCH_EPOCH sd) = s.rd (ARB_EPOCH_EPOCH sd) + 1 ∧ t.rd (ARB_EPOCH_REASON sd) = 3 ∧
      t.rd (ARB_APPLY_FRAME sd) = s.swapFrame (s.rd ARB_SWAP_APPLY_FRAME) ∧
      t.rd (ARB_CNT_SWAPS sd) = min (s.rd (ARB_CNT_SWAPS sd) + 1) 255 ∧
      Kept (orKeys (regKeys 9 0xA8) (keysOf (epochFields sd ++ [ARB_CNT_GRANTS sd, ARB_CNT_SWAPS sd]))) s t := by
  have hsame := arbSame_swapWritten s src sd.isLt
  have hwrite := Effect.swapWritten s src sd.isLt
  have htick : (s.swapWritten sd).swapFrame ((s.swapWritten sd).rd ARB_SWAP_APPLY_FRAME) = s.swapFrame (s.rd ARB_SWAP_APPLY_FRAME) := by
    rw [s.swapWritten_frame, Nat.mod_eq_of_lt hreg, State.swapFrame, hsame.frame, State.swapFrame]
  rw [exec_swapGo_eq s src hr, State.swapGo, htick, hsame.frame, hsame.swapOk,
    if_neg (by rw [hok]; exact fun h => h.elim Bool.noConfusion (Nat.not_lt.mpr hearly))]
  generalize s.swapFrame (s.rd ARB_SWAP_APPLY_FRAME) = f at hearly hframe
  generalize s.swapWritten sd = s1 at hsame hwrite
  have hsus1 : s1.suspended = false := hsame.suspended.trans hsus
  have hplain := swapResults_plain sd.isLt
  obtain ⟨hepoch, hreason, happly, hswaps⟩ := s1.doSwap_rd (reason := 3) (apply := f) sd.isLt hsus1 (by rw [hsame.epoch]; exact he) (by decide)
  refine ⟨_, rfl, ?_, ?_, ?_, ?_, ?_⟩
  · rw [State.mgmtReg_rd _ _ _ _ _ (hplain _ (by simp)), hepoch, hsame.epoch]
  · rw [State.mgmtReg_rd _ _ _ _ _ (hplain _ (by simp)), hreason]
  · rw [State.mgmtReg_rd _ _ _ _ _ (hplain _ (by simp)), happly (by rw [hsame.frame]; omega) hframe]
  · rw [State.mgmtReg_rd _ _ _ _ _ (hplain _ (by simp)), hswaps, hsame.swaps]
  · exact (((hwrite.mono (orKeys_left _ _) fun _ h => h).trans ((Effect.doSwap s1 sd.isLt hsus1).mono (orKeys_right _ _) fun _ h => h)).trans
      (.mgmtReg _ _ _ _ _ _ _)).kept

/-- What a discarded command of ARB.SWAP leaves. -/
theorem swap_discarded (s : State) (src : Requester) (sd : Fin 2) (val v : Nat) :
    let t := ((s.swapWritten sd).capture 9 errBUSY src 0xA8 val).mgmtReg src 9 0xA8 v
    t.arb = s.arb ∧ t.on (ERR_CAP0_VALID 9) = true ∧ (s.on (ERR_CAP0_VALID 9) = false → t.rd (ERR_CAP0_CODE 9) = 0x21) ∧
      Kept (regKeys 9 0xA8) s t := by
  have hvalid : (s.swapWritten sd).on (ERR_CAP0_VALID 9) = s.on (ERR_CAP0_VALID 9) := by
    rw [State.on, State.swapWritten, State.rd_wr_ne _ _ (by decide), State.rd_wr_ne _ _ (by decide), State.on]
  refine ⟨?_, ?_, fun hfirst => ?_, ?_⟩
  · rw [apart_arb.mgmtReg, apart_arb.capture, (arbSame_swapWritten s src sd.isLt).arb]
  · rw [State.mgmtReg_on _ _ _ _ _ (by decide), State.capture_on]
  · rw [State.mgmtReg_rd _ _ _ _ _ (by decide), State.capture_code _ _ _ _ _ _ (hvalid.trans hfirst) (by decide)]
    rfl
  · exact (((Effect.swapWritten s src sd.isLt).trans (.capture _ _ _ _ _ _ _ (errFields_regKeys 9 0xA8))).trans (.mgmtReg _ _ _ _ _ _ _)).kept

theorem exec_swapGo_discarded (s : State) (src : Requester) (hr : s.reachable src = true) (sd : Fin 2) (w : Nat) (hno : s.swapOk sd w = false) :
    ∃ t, exec (.swapGo src sd w) s = .next t ∧ t.arb = s.arb ∧ t.on (ERR_CAP0_VALID 9) = true ∧
      (s.on (ERR_CAP0_VALID 9) = false → t.rd (ERR_CAP0_CODE 9) = 0x21) ∧ Kept (regKeys 9 0xA8) s t := by
  rw [exec_swapGo_eq s src hr, State.swapGo, (arbSame_swapWritten s src sd.isLt).swapOk, if_pos (.inl hno)]
  exact ⟨_, rfl, swap_discarded s src sd _ _⟩

theorem exec_swapTake_takes (s : State) (src : Requester) (hr : s.reachable src = true) (sd : Fin 2) (hmay : s.mayTake sd = true)
    (hsus : s.suspended = false) (he : s.rd (ARB_EPOCH_EPOCH sd) + 1 < 2 ^ 32) :
    ∃ t, exec (.swapTake src sd) s = .next t ∧
      t.rd (ARB_EPOCH_EPOCH sd) = s.rd (ARB_EPOCH_EPOCH sd) + 1 ∧ t.rd (ARB_EPOCH_REASON sd) = 5 ∧
      Kept (orKeys (regKeys 9 0xA8) (keysOf (epochFields sd ++ [ARB_CNT_GRANTS sd]))) s t := by
  have hsame := arbSame_swapWritten s src sd.isLt
  have hwrite := Effect.swapWritten s src sd.isLt
  rw [exec_swapTake_eq s src hr, State.swapTake, hsame.mayTake, if_pos hmay, hsame.epoch]
  generalize s.swapWritten sd = s1 at hsame hwrite
  have hsus1 : s1.suspended = false := hsame.suspended.trans hsus
  have hhigher : s1.rd (ARB_EPOCH_EPOCH sd) < s.rd (ARB_EPOCH_EPOCH sd) + 1 := by rw [hsame.epoch]; exact Nat.lt_succ_self _
  have hplain := swapResults_plain sd.isLt
  obtain ⟨hepoch, hreason, -⟩ := s1.issueEpoch_rd (reason := 5) (apply := 0) sd.isLt hsus1 hhigher he (by decide)
  refine ⟨_, rfl, ?_, ?_, ?_⟩
  · rw [State.mgmtReg_rd _ _ _ _ _ (hplain _ (by simp)), hepoch]
  · rw [State.mgmtReg_rd _ _ _ _ _ (hplain _ (by simp)), hreason]
  · exact (((hwrite.mono (orKeys_left _ _) fun _ h => h).trans ((Effect.issueEpoch s1 sd.isLt hsus1 hhigher).mono (orKeys_right _ _)
      fun _ h => h)).trans (.mgmtReg _ _ _ _ _ _ _)).kept

theorem exec_swapTake_discarded (s : State) (src : Requester) (hr : s.reachable src = true) (sd : Fin 2) (hno : s.mayTake sd = false) :
    ∃ t, exec (.swapTake src sd) s = .next t ∧ t.arb = s.arb ∧ t.on (ERR_CAP0_VALID 9) = true ∧
      (s.on (ERR_CAP0_VALID 9) = false → t.rd (ERR_CAP0_CODE 9) = 0x21) ∧ Kept (regKeys 9 0xA8) s t := by
  rw [exec_swapTake_eq s src hr, State.swapTake, (arbSame_swapWritten s src sd.isLt).mayTake, if_neg (Bool.eq_false_iff.mp hno)]
  exact ⟨_, rfl, swap_discarded s src sd _ _⟩

/-! ### The write of ARB.REH -/

theorem blockReg_reh : blockReg 9 0xA0 := ⟨.inl rfl, by decide⟩

theorem fieldsKept_reh : (regFields 9 0xA0).filter (fun f => f.acc == .rw || f.acc == .rws || f.acc == .rwk) =
    [ARB_REH_INTERVAL_H, ARB_REH_HOLD_S, ARB_REH_SIDE] := by decide +kernel

theorem mem_regFields_rehSide : ARB_REH_SIDE ∈ regFields 9 0xA0 := by decide +kernel

/-- What a register holds that keeps three fields. -/
theorem State.fieldsNow_triple (s : State) {pg off : Nat} {f g h : Fld}
    (hfs : (regFields pg off).filter (fun f => f.acc == .rw || f.acc == .rws || f.acc == .rwk) = [f, g, h]) (hf : f.acc = .rw)
    (hg : g.acc = .rw) (hh : h.acc = .rw) :
    s.fieldsNow pg off = s.rd f % 2 ^ f.w * 2 ^ f.lo + s.rd g % 2 ^ g.w * 2 ^ g.lo + s.rd h % 2 ^ h.w * 2 ^ h.lo := by
  rw [State.fieldsNow, hfs]
  simp [hf, hg, hh]

/-- The interval and the hold of ARB.REH, with its side above them. -/
theorem fieldSum_reh {f g h : Fld} (hfw : f.w = 16) (hfl : f.lo = 0) (hgw : g.w = 16) (hgl : g.lo = 16) (hhw : h.w = 1) (hhl : h.lo = 33)
    (x y z : Nat) : ∃ a < 2 ^ 32, x % 2 ^ f.w * 2 ^ f.lo + y % 2 ^ g.w * 2 ^ g.lo + z % 2 ^ h.w * 2 ^ h.lo = a + z % 2 * 2 ^ 33 := by
  rw [hfw, hfl, hgw, hgl, hhw, hhl]
  exact ⟨x % 2 ^ 16 + y % 2 ^ 16 * 2 ^ 16, by omega, by omega⟩

/-- A side and GO written over what ARB.REH holds. -/
theorem overlay_reh {f g : Fld} (hfw : f.w = 1) (hfl : f.lo = 33) (hgw : g.w = 1) (hgl : g.lo = 32) {a sd : Nat} (ha : a < 2 ^ 32) (z : Nat)
    (hsd : sd < 2) : overlay (a + z % 2 * 2 ^ 33) [(f, sd), (g, 1)] = a + sd * 2 ^ 33 + 2 ^ 32 := by
  simp only [overlay, List.foldl_cons, List.foldl_nil, Fld.of_eq 33 1 hfl hfw (by decide), Fld.of_eq 32 1 hgl hgw (by decide), hfw, hfl, hgw, hgl]
  omega

/-- The value that a rehearsal's write asks for: its side, and GO. -/
theorem reh_value (s : State) {sd : Nat} (hsd : sd < 2) : ∃ v, overlay (s.fieldsNow 9 0xA0) [(ARB_REH_SIDE, sd), (ARB_REH_GO, 1)] = v ∧
    v.testBit 32 = true ∧ ARB_REH_SIDE.of v = sd := by
  obtain ⟨a, ha, hsum⟩ := fieldSum_reh (f := ARB_REH_INTERVAL_H) (g := ARB_REH_HOLD_S) (h := ARB_REH_SIDE) rfl rfl rfl rfl rfl rfl
    (s.rd ARB_REH_INTERVAL_H) (s.rd ARB_REH_HOLD_S) (s.rd ARB_REH_SIDE)
  refine ⟨a + sd * 2 ^ 33 + 2 ^ 32, ?_, ?_, ?_⟩
  · rw [s.fieldsNow_triple fieldsKept_reh rfl rfl rfl, hsum, overlay_reh rfl rfl rfl rfl ha _ hsd]
  · rw [Nat.testBit_eq_decide_div_mod_eq]
    exact decide_eq_true (by omega)
  · rw [Fld.of_eq (f := ARB_REH_SIDE) 33 1 rfl rfl (by decide)]
    omega

theorem State.commonActs_reh (s old : State) (src : Requester) {v : Nat} (t : Nat) (hgo : v.testBit 32 = true) :
    s.commonActs old src 9 0xA0 v t = s.rehGo src (s.rd ARB_REH_SIDE) t := by
  simp [State.commonActs, hgo]

/-- REH.GO acts on a state that the write left as it was in all that decides it. -/
theorem exec_rehGo_eq (s : State) (src : Requester) (hr : s.reachable src = true) (sd : Fin 2) (w : Nat) :
    ∃ s1 v, exec (.rehGo src sd w) s = .next ((s1.rehGo src sd w).mgmtReg src 9 0xA0 v) ∧ ArbSame sd s s1 ∧
      Effect (regKeys 9 0xA0) (fun _ => false) s s1 := by
  obtain ⟨v, hv, hgo, hside⟩ := reh_value s sd.isLt
  have hread : (s.writeFields src 9 0xA0 v false []).rd ARB_REH_SIDE = sd :=
    State.writeFields_rd blockReg_reh mem_regFields_rehSide rfl (fun s => s.fieldRsv_of_page rfl)
      (fun s => (State.legal_of_none rfl rfl rfl (by decide)).trans hside) sd.isLt s src
  refine ⟨s.writeFields src 9 0xA0 v false [], v, ?_, arbSame_writeFields s src sd.isLt (.inl rfl) v, .writeFields _ blockReg_reh s src v⟩
  change Host.Outcome.next (s.writeWith src 9 0xA0 [(ARB_REH_SIDE, sd.val), (ARB_REH_GO, 1)] w) = _
  rw [State.writeWith_block s src blockReg_reh rfl hr _ v w hv, State.commonActs_reh _ _ _ _ hgo, State.roleActs_low _ _ _ _ _ (by decide),
    hread]

/-! ### ARB.REH.GO (R285) -/

theorem State.arbSide_setArb (s : State) {sd : Nat} (x : ArbSide) (h : sd < s.arb.length) : (s.setArb sd x).arbSide sd = x := by
  simp [State.arbSide, State.setArb, h]

/-- The rehearsal as a register command starts it. -/
def State.rehBegun (s : State) (sd : Nat) : State :=
  s.setArb sd { s.arbSide sd with reh := some ⟨none, s.frame + 8, false, false, false⟩ }

theorem State.rehGo_starts (s : State) (src : Requester) {sd w : Nat} (hidle : (s.arbSide sd).reh = none) (hmay : s.mayRehearse sd = true) :
    s.rehGo src sd w = if s.rehOk sd w then (s.rehBegun sd).doSwap sd 4 (s.frame + 8) else (s.rehBegun sd).rehEnd sd 2 w := by
  have hgo : ¬((s.arbSide sd).reh.isSome = true ∨ s.mayRehearse sd = false) := by simp [hidle, hmay]
  rw [State.rehGo, if_neg hgo]
  rfl

/-- A rehearsal that no message asked for ends with its result alone. -/
theorem State.rehEnd_begun (s : State) {sd result t : Nat} (h : sd < s.arb.length) : (s.rehBegun sd).rehEnd sd result t =
    (((s.rehBegun sd).setArb sd { s.arbSide sd with reh := none }).wrM ARB_REH_STAT_RESULT result).wrM ARB_REH_STAT_SEC
      (t / 65536000000000) := by
  rw [State.rehEnd, State.rehBegun, s.arbSide_setArb _ h]
  rfl

theorem exec_rehGo_rehearses (s : State) (src : Requester) (hs : s.Inv) (hr : s.reachable src = true) (sd : Fin 2) (w : Nat)
    (hmay : s.mayRehearse sd = true) (hidle : (s.arbSide sd).reh = none) (hok : s.rehOk sd w = true) (hsus : s.suspended = false)
    (he : s.rd (ARB_EPOCH_EPOCH sd) + 1 < 2 ^ 32) :
    ∃ t, exec (.rehGo src sd w) s = .next t ∧ (t.arbSide sd).reh = some ⟨none, s.frame + 8, false, false, false⟩ ∧
      t.rd (ARB_EPOCH_EPOCH sd) = s.rd (ARB_EPOCH_EPOCH sd) + 1 ∧ t.rd (ARB_EPOCH_REASON sd) = 4 ∧
      Kept (orKeys (regKeys 9 0xA0) (keysOf (epochFields sd ++ [ARB_CNT_GRANTS sd, ARB_CNT_SWAPS sd]))) s t := by
  obtain ⟨s1, v, hexec, hsame, hwrite⟩ := exec_rehGo_eq s src hr sd w
  rw [hexec, s1.rehGo_starts src (by rw [hsame.arbSide]; exact hidle) (by rw [hsame.mayRehearse]; exact hmay), hsame.rehOk, if_pos hok]
  have hlen : sd.val < s1.arb.length := by rw [hsame.arb, hs.arb]; exact sd.isLt
  have hside : (s1.rehBegun sd).arbSide sd = { s1.arbSide sd with reh := some ⟨none, s1.frame + 8, false, false, false⟩ } :=
    s1.arbSide_setArb _ hlen
  have hbegun : Effect (regKeys 9 0xA0) (fun _ => false) s1 (s1.rehBegun sd) := .setArb _ _ _ _ _
  have hepoch1 : (s1.rehBegun sd).rd (ARB_EPOCH_EPOCH sd) = s.rd (ARB_EPOCH_EPOCH sd) := (State.rd_congr rfl _).trans hsame.epoch
  have hsus1 : (s1.rehBegun sd).suspended = false := hsame.suspended.trans hsus
  generalize s1.rehBegun sd = s2 at hside hbegun hepoch1 hsus1
  have hplain := swapResults_plain sd.isLt
  obtain ⟨hepoch, hreason, -, -⟩ := s2.doSwap_rd (reason := 4) (apply := s1.frame + 8) sd.isLt hsus1 (by rw [hepoch1]; exact he) (by decide)
  refine ⟨_, rfl, ?_, ?_, ?_, ?_⟩
  · rw [State.arbSide, apart_arb.mgmtReg, apart_arb.doSwap s2 hsus1]
    change (s2.arbSide sd).reh = _
    rw [hside, hsame.frame]
  · rw [State.mgmtReg_rd _ _ _ _ _ (hplain _ (by simp)), hepoch, hepoch1]
  · rw [State.mgmtReg_rd _ _ _ _ _ (hplain _ (by simp)), hreason]
  · exact ((((hwrite.trans hbegun).mono (orKeys_left _ _) fun _ h => h).trans ((Effect.doSwap s2 sd.isLt hsus1).mono (orKeys_right _ _)
      fun _ h => h)).trans (.mgmtReg _ _ _ _ _ _ _)).kept

/-- The fields of a rehearsal's end. -/
def rehFields : List Fld := [ARB_REH_STAT_RESULT, ARB_REH_STAT_SEC, NVS_SAVE_DIRTY]

theorem Effect.rehEnd_begun (s : State) {sd result t : Nat} (h : sd < s.arb.length) :
    Effect (keysOf rehFields) (fun _ => false) s ((s.rehBegun sd).rehEnd sd result t) := by
  rw [s.rehEnd_begun h]
  exact (((Effect.setArb _ _ _ _ _).trans (.setArb _ _ _ _ _)).trans (.wrM _ _ _ _ (by decide) (by decide) (by decide))).trans
    (.wrM _ _ _ _ (by decide) (by decide) (by decide))

theorem rehFields_keys (k : Nat) (h : keysOf rehFields k = true) : orKeys (regKeys 9 0xA0) (pagesOf [9]) k = true := by
  obtain ⟨f, hf, rfl⟩ := keysOf_iff.mp h
  revert f
  decide +kernel

theorem rehFields_epoch (sd : Fin 2) : keysOf rehFields (ARB_EPOCH_EPOCH sd).key = false ∧ plainKey (ARB_EPOCH_EPOCH sd).key = true := by
  revert sd
  decide

/-- A field that is saved, and that does not itself tell of saving, is written as any other. -/
theorem State.wrM_rd (s : State) {f g : Fld} (v : Nat) (hg : g.key ≠ NVS_SAVE_DIRTY.key) : (s.wrM f v).rd g = (s.wr f v).rd g :=
  State.when_keeps (P := fun u => u.rd g = (s.wr f v).rd g) _ _ (fun _ hu => (State.rd_wr_ne _ _ hg).trans hu) rfl

theorem Apart.wrM {α : Type} {π : State → α} (h : Apart π) (s : State) (f : Fld) (v : Nat) : π (s.wrM f v) = π s :=
  State.when_keeps (P := fun u => π u = π s) _ _ (fun u hu => (h.markDirty u 0).trans hu) (h.wr s f v)

/-- After a rehearsal that is skipped: it runs no more, and its result is 2. -/
theorem State.rehEnd_skipped (s : State) {sd t : Nat} (h : sd < s.arb.length) :
    (((s.rehBegun sd).rehEnd sd 2 t).arbSide sd).reh = none ∧ ((s.rehBegun sd).rehEnd sd 2 t).rd ARB_REH_STAT_RESULT = 2 := by
  rw [s.rehEnd_begun h]
  refine ⟨?_, ?_⟩
  · rw [State.arbSide, apart_arb.wrM, apart_arb.wrM]
    exact congrArg ArbSide.reh (State.arbSide_setArb _ _ (by rw [State.rehBegun, State.setArb, List.length_set]; exact h))
  · rw [State.wrM_rd _ _ (by decide), State.rd_wr_ne _ _ (by decide), State.wrM_rd _ _ (by decide)]
    exact State.rd_wr_of _ _ 3 rfl (by decide) (by decide)

theorem exec_rehGo_skipped (s : State) (src : Requester) (hs : s.Inv) (hr : s.reachable src = true) (sd : Fin 2) (w : Nat)
    (hmay : s.mayRehearse sd = true) (hidle : (s.arbSide sd).reh = none) (hno : s.rehOk sd w = false) :
    ∃ t, exec (.rehGo src sd w) s = .next t ∧
      (t.arbSide sd).reh = none ∧ t.rd ARB_REH_STAT_RESULT = 2 ∧ t.rd (ARB_EPOCH_EPOCH sd) = s.rd (ARB_EPOCH_EPOCH sd) ∧
      Kept (orKeys (regKeys 9 0xA0) (pagesOf [9])) s t := by
  obtain ⟨s1, v, hexec, hsame, hwrite⟩ := exec_rehGo_eq s src hr sd w
  have hlen : sd.val < s1.arb.length := by rw [hsame.arb, hs.arb]; exact sd.isLt
  rw [hexec, s1.rehGo_starts src (by rw [hsame.arbSide]; exact hidle) (by rw [hsame.mayRehearse]; exact hmay), hsame.rehOk,
    if_neg (Bool.eq_false_iff.mp hno)]
  have hend := Effect.rehEnd_begun s1 (result := 2) (t := w) hlen
  obtain ⟨hout, hplain⟩ := rehFields_epoch sd
  refine ⟨_, rfl, ?_, ?_, ?_, ?_⟩
  · rw [State.arbSide, apart_arb.mgmtReg]
    exact (s1.rehEnd_skipped hlen).1
  · rw [State.mgmtReg_rd _ _ _ _ _ (by decide)]
    exact (s1.rehEnd_skipped hlen).2
  · rw [State.mgmtReg_rd _ _ _ _ _ hplain, hend.rd hplain hout, hsame.epoch]
  · exact (((hwrite.mono (orKeys_left _ _) fun _ h => h).trans (hend.mono rehFields_keys fun _ h => h)).trans (.mgmtReg _ _ _ _ _ _ _)).kept

/-- REH.GO of a sender that may not rehearse, or that rehearses already, is discarded. -/
theorem exec_rehGo_discarded (s : State) (src : Requester) (hr : s.reachable src = true) (sd : Fin 2) (w : Nat)
    (hno : s.mayRehearse sd = false ∨ (s.arbSide sd).reh.isSome = true) :
    ∃ t, exec (.rehGo src sd w) s = .next t ∧ t.arb = s.arb ∧ t.on (ERR_CAP0_VALID 9) = true ∧ Kept (regKeys 9 0xA0) s t := by
  obtain ⟨s1, v, hexec, hsame, hwrite⟩ := exec_rehGo_eq s src hr sd w
  rw [hexec, State.rehGo, hsame.arbSide, hsame.mayRehearse, if_pos hno.symm]
  refine ⟨_, rfl, ?_, ?_, ?_⟩
  · rw [apart_arb.mgmtReg, apart_arb.capture, hsame.arb]
  · rw [State.mgmtReg_on _ _ _ _ _ (by decide), State.capture_on]
  · exact ((hwrite.trans (.capture _ _ _ _ _ _ _ (errFields_regKeys 9 0xA0))).trans (.mgmtReg _ _ _ _ _ _ _)).kept

end Sys2Proof.Machine
end

