-- ==== Sys2Proof/Proofs/SenderRegisterCommands.lean ====
section
/-! SUPPORT. The register commands of a sender's blocks, together. -/

namespace Sys2Proof.Machine

/-! ### O51 -/

/-- Where no access reaches the part, a register write does nothing. -/
theorem State.writeWhole_unreachable (s : State) (src : Requester) (h : s.reachable src = false) (pg off v : Nat) :
    s.writeWhole src pg off v = s := by rw [State.writeWhole, if_neg (Bool.eq_false_iff.mp h)]

theorem State.writeWith_unreachable (s : State) (src : Requester) (h : s.reachable src = false) (pg off : Nat) (l : List (Fld × Nat)) (t : Nat) :
    s.writeWith src pg off l t = s := by rw [State.writeWith, if_neg (Bool.eq_false_iff.mp h)]

/-- Settles O51: every command is a register write, whose fields are taken by `writeFields` and whose act is a state operation with an effect
of its own. -/
theorem senderRegisterCommands : Obligations.SenderRegisterCommands := by
  refine ⟨fun s src p sd v h b w hno => ?_, fun s src hs hr => ⟨fun hact p v => ?_, fun hact h => ?_, fun hact b => ?_, fun sd w => ?_⟩⟩
  · have hwhole (pg off v : Nat) : (.next (s.writeWhole src pg off v) : Host.Outcome State Fault Refusal) = .next s := by
      rw [s.writeWhole_unreachable src hno]
    have hwith (pg off : Nat) (l : List (Fld × Nat)) (t : Nat) :
        (.next (s.writeWith src pg off l t) : Host.Outcome State Fault Refusal) = .next s := by
      rw [s.writeWith_unreachable src hno]
    exact ⟨hwhole _ _ _, hwhole _ _ _, hwhole _ _ _, hwith _ _ _ _, hwith _ _ _ _, hwith _ _ _ _, hwith _ _ _ _, hwith _ _ _ _⟩
  · exact ⟨exec_ingModeChange s src hs hr hact p v, exec_edidWrite s src hr hact p v, exec_streamWrite s src hs hr hact p v⟩
  · exact ⟨exec_bufRelease_refused s src hr hact h, exec_bufRelease_freed s src hr hact h, exec_bufRelease_deferred s src hr hact h⟩
  · exact ⟨exec_bankPrepare_starts s src hr hact b, exec_bankPrepare_busy s src hr hact b⟩
  · exact ⟨exec_swapGo_swaps s src hr sd w, exec_swapGo_discarded s src hr sd w, exec_swapTake_takes s src hr sd,
      exec_swapTake_discarded s src hr sd, exec_rehGo_rehearses s src hs hr sd w, exec_rehGo_skipped s src hs hr sd w,
      exec_rehGo_discarded s src hr sd w⟩

end Sys2Proof.Machine
end

