-- ==== Sys2Proof/Proofs/RefreshRequests.lean ====
section
/-! SUPPORT. NEED_FULL requests and the refresh record of a standby (R106, R107). -/

namespace Sys2Proof.Machine

/-! ### Requests and refresh records (R106, R107) -/

/-- The status word of a tile with its count of requests one up, to 65,535 (Table 05-3). -/
def needCounted (w : Word72) : Word72 := setBits w 47 32 (min (bitsOf w.toNat 47 32 + 1) 65535)

/-- A node waits for the next refresh record of a side. -/
def State.needNoted (s : State) (sd node : Nat) : State :=
  { s with imp := { s.imp with need := s.imp.need.set sd (s.imp.need.getD sd 0 ||| 2 ^ node) } }

/-- What a sender does with a NEED_FULL request before it raises the flag; `key` is that of the tile's status word. -/
def State.needTaken (s : State) (key sd node : Nat) : State :=
  ((s.setWord key (needCounted (s.word key))).needNoted sd node).bump IMP_CNT_NEED_FULL

theorem Effect.needTaken (s : State) (key sd node : Nat) (hk : key < 0x800000) :
    Effect (keysOf [IMP_CNT_NEED_FULL]) (fun i => i == key) s (s.needTaken key sd node) := by
  have hword : Effect (keysOf [IMP_CNT_NEED_FULL]) (fun i => i == key) s (s.setWord key (needCounted (s.word key))) :=
    .setWord _ s key _ (beq_self_eq_true key) hk
  unfold State.needTaken
  generalize s.setWord key (needCounted (s.word key)) = s1 at hword
  have hnoted := hword.trans (.of_same (t := s1.needNoted sd node) rfl rfl rfl rfl rfl)
  exact hnoted.trans (.bump _ _ _ (by decide) (by decide))

theorem State.needTaken_need (s : State) (key sd node : Nat) :
    (s.needTaken key sd node).imp.need = s.imp.need.set sd (s.imp.need.getD sd 0 ||| 2 ^ node) := rfl

theorem State.needTaken_count (s : State) (key sd node : Nat) :
    (s.needTaken key sd node).rd IMP_CNT_NEED_FULL = min (s.rd IMP_CNT_NEED_FULL + 1) 65535 := by
  unfold State.needTaken
  generalize needCounted (s.word key) = v
  rw [State.bump, State.rd_bumpBy _ _ _ (by decide)]
  rfl

/-- A NEED_FULL request (R106): it is counted, and its node waits. -/
theorem exec_needFullReceive (s : State) (sd : Fin 2) (hs : s.Inv) (h : s.isSender = true) (node : BitVec 6) (feeds : BitVec 4) :
    ∃ t, exec (.needFullReceive sd node feeds) s = .next t ∧
      (t.imp.need.getD sd 0).testBit node.toNat = true ∧ (∀ e : Fin 2, e ≠ sd → t.imp.need.getD e 0 = s.imp.need.getD e 0) ∧
      t.rd IMP_CNT_NEED_FULL = min (s.rd IMP_CNT_NEED_FULL + 1) 65535 ∧ t.flag 0x17 7 = true ∧
      RegsKept (keysOf [IMP_CNT_NEED_FULL]) s t ∧ WordsKept (fun i => i == 0x48000 + 64 * sd.val + node.toNat) s t ∧
      (s.quietMem → t.mem = s.mem) := by
  have hexec : exec (.needFullReceive sd node feeds) s =
      .next ((s.needTaken (0x48000 + 64 * sd.val + node.toNat) sd node.toNat).raise 0x17 7) := by
    change execNeedFullReceive sd node feeds s = _
    rw [execNeedFullReceive, if_pos h]
    rfl
  have he := (Effect.needTaken s (0x48000 + 64 * sd.val + node.toNat) sd node.toNat (by omega)).trans (.raise _ _ _ 0x17 7)
  have hcount := s.needTaken_count (0x48000 + 64 * sd.val + node.toNat) sd node.toNat
  have hneed := s.needTaken_need (0x48000 + 64 * sd.val + node.toNat) sd node.toNat
  generalize s.needTaken (0x48000 + 64 * sd.val + node.toNat) sd node.toNat = s1 at hexec he hcount hneed
  have hlen : sd.val < s.imp.need.length := by rw [hs.need]; exact sd.isLt
  refine ⟨_, hexec, ?_, fun e hne => ?_, ?_, State.flag_raise _ _ _ (by decide), he.regs, he.words, he.mem⟩
  · rw [State.raise_imp, hneed, List.getD_eq_getElem?_getD, List.getElem?_set_self hlen]
    simp
  · rw [State.raise_imp, hneed, List.getD_eq_getElem?_getD, List.getElem?_set_ne fun h => hne (Fin.ext h.symm),
      List.getD_eq_getElem?_getD]
  · rw [State.raise_rd _ _ _ _ (by decide), hcount]

/-- A side takes a mask of tiles to refresh, and holds no request any more. -/
theorem State.takeNeed_imp (s : State) (sd : Fin 2) (hs : s.Inv) (mask : Nat) :
    (s.takeNeed sd mask).imp.refMask.getD sd none = some mask ∧ (s.takeNeed sd mask).imp.need.getD sd 0 = 0 := by
  have hm : sd.val < s.imp.refMask.length := by rw [hs.refMask]; exact sd.isLt
  have hn : sd.val < s.imp.need.length := by rw [hs.need]; exact sd.isLt
  simp [State.takeNeed, List.getD_eq_getElem?_getD, hm, hn]

theorem Effect.takeNeed (own words : Nat → Bool) (s : State) (sd mask : Nat) : Effect own words s (s.takeNeed sd mask) :=
  .of_same rfl rfl rfl rfl rfl

/-- A refresh record that a standby takes (R107). -/
theorem exec_refreshRecordReceive (s : State) (sd : Fin 2) (hs : s.Inv) (h : s.isSender = true) (ha : s.sideActive sd = false)
    (hlog : s.on IMP_CTRL_REFLOG_EN = true) (hnone : s.imp.refMask.getD sd none = none) (via : Via) (ws : List Word72)
    (hv : s.accepts via = true) (hw : refLogValid (ws.map BitVec.toNat) (s.frame + 1) = true)
    (hring : (ws.getD 1 0).toNat % 64 = s.rd (if sd.val = 0 then QLK_CFG_RING_A else QLK_CFG_RING_B)) :
    ∃ t, exec (.refreshRecordReceive sd via ws) s = .next t ∧ t.imp.refMask.getD sd none = some ((ws.getD 2 0).toNat % 2 ^ 64) ∧
      t.imp.need.getD sd 0 = 0 ∧ RegsKept (fun _ => false) s t ∧ WordsKept (fun _ => false) s t ∧ (s.quietMem → t.mem = s.mem) := by
  have hexec : exec (.refreshRecordReceive sd via ws) s =
      .next ((s.takeNeed sd ((ws.getD 2 0).toNat % 2 ^ 64)).recWrite 0x12 0 (ws.map BitVec.toNat)) := by
    change execRefreshRecordReceive sd via ws s = _
    simp only [execRefreshRecordReceive, getD_toNat]
    refine if_pos ⟨h, hv, ha, hlog, hnone, hw, ?_⟩
    rw [hring]
    split <;> rfl
  obtain ⟨hmask, hneed⟩ := s.takeNeed_imp sd hs ((ws.getD 2 0).toNat % 2 ^ 64)
  have he : Effect (fun _ => false) (fun _ => false) s
      ((s.takeNeed sd ((ws.getD 2 0).toNat % 2 ^ 64)).recWrite 0x12 0 (ws.map BitVec.toNat)) :=
    (Effect.takeNeed _ _ s sd _).trans (.recWrite _ _ _ _ _ _)
  refine ⟨_, hexec, ?_, ?_, he.regs, he.words, he.mem⟩ <;> rw [State.recWrite_imp]
  · exact hmask
  · exact hneed

/-- A standby without a refresh record at the tick (R107). -/
theorem exec_refreshSelf (s : State) (sd : Fin 2) (hs : s.Inv) (h : s.isSender = true) (ha : s.sideActive sd = false)
    (hlog : s.on IMP_CTRL_REFLOG_EN = true) (hnone : s.imp.refMask.getD sd none = none) (hl : s.latchDone = true) :
    ∃ t, exec (.refreshSelf sd) s = .next t ∧ t.imp.refMask.getD sd none = some (s.imp.need.getD sd 0) ∧
      t.imp.need.getD sd 0 = 0 ∧ t.rd IMP_CNT_REFRESH_SELF = min (s.rd IMP_CNT_REFRESH_SELF + 1) 255 ∧ t.flag 0x17 8 = true ∧
      RegsKept (keysOf [IMP_CNT_REFRESH_SELF]) s t ∧ WordsKept (fun _ => false) s t ∧ (s.quietMem → t.mem = s.mem) := by
  have hexec : exec (.refreshSelf sd) s =
      .next (((s.takeNeed sd (s.imp.need.getD sd 0)).bump IMP_CNT_REFRESH_SELF).raise 0x17 8).selfRecord := by
    change execRefreshSelf sd s = _
    rw [execRefreshSelf, if_pos ⟨h, ha, hlog, hl, hnone⟩]
  have he : Effect (keysOf [IMP_CNT_REFRESH_SELF]) (fun _ => false) s
      (((s.takeNeed sd (s.imp.need.getD sd 0)).bump IMP_CNT_REFRESH_SELF).raise 0x17 8).selfRecord :=
    (((Effect.takeNeed _ _ s sd _).trans (.bump _ _ IMP_CNT_REFRESH_SELF (by decide) (by decide))).trans (.raise _ _ _ _ _)).trans
      (.selfRecord _ _ _)
  have himp : (((s.takeNeed sd (s.imp.need.getD sd 0)).bump IMP_CNT_REFRESH_SELF).raise 0x17 8).selfRecord.imp =
      (s.takeNeed sd (s.imp.need.getD sd 0)).imp := State.raise_imp _ _ _
  obtain ⟨hmask, hneed⟩ := s.takeNeed_imp sd hs (s.imp.need.getD sd 0)
  refine ⟨_, hexec, by rw [himp, hmask], by rw [himp, hneed], ?_, State.flag_raise _ _ _ (by decide), he.regs, he.words, he.mem⟩
  change ((State.bump _ _).raise 0x17 8).rd IMP_CNT_REFRESH_SELF = _
  rw [State.raise_rd _ _ _ _ (by decide), State.bump, State.rd_bumpBy _ _ _ (by decide)]
  rfl

/-- Settles O11: a request, a record and a tick without one each change the requests and masks by a rule of their own, and nothing that comes
after it touches them. -/
theorem refreshRequests : Obligations.RefreshRequests := by
  unfold Obligations.RefreshRequests
  exact fun s sd hs h => ⟨exec_needFullReceive s sd hs h, fun ha hlog hnone =>
    ⟨exec_refreshRecordReceive s sd hs h ha hlog hnone, exec_refreshSelf s sd hs h ha hlog hnone⟩⟩

end Sys2Proof.Machine
end

