-- ==== Sys2Proof/Proofs/ImpositionTooWide.lean ====
section
/-! SUPPORT. States that hold a register value too wide for its field, on which the statements about signatures (R112, R113) and about the end of
a composition (R94) fail. -/

namespace Sys2Proof.Machine

/-- What is seen of the state after a command. -/
def seenAfter {α : Type} (c : Instr) (s : State) (f : State → α) : Option α := match exec c s with
  | .next u => some (f u)
  | _ => none

theorem seenAfter_next {α : Type} {c : Instr} {s u : State} (f : State → α) (h : exec c s = .next u) : seenAfter c s f = some (f u) := by
  rw [seenAfter, h]

/-! ### A signature whose deadline passes (R112, R113) -/

/-- A sender with two feeds and DMG_EN = 1, whose active bank reads 2 where IMP.CTRL.BANK is one bit wide. Tile 31 of side A is VALID there, with
31 × 18 leaves. The damage of each feed is one pixel, at X = 5. The words of the windows are 0 beside the tile's first and its status word, so
that the footprint of a leaf is the pixel at X = 0, but for leaf 543. OVERRUN has been raised in the frame. -/
def senderAstray : State :=
  { State.reset with
    live := (((((Tbl.set [] HIF_STRAP_STAT_ROLE.key 1).set IMP_CTRL_BANK.key 2).set IMP_CTRL_DMG_EN.key 1).set IMP_CTRL_SIDE_EN.key 1).set
      (BLK_CTRL_EN 0x17).key 1).set WTU_TB_T0NS_F_M1.key 1
    win := (Tbl.set [] (slotKey 2 0 31 0) (31 + 18 * 2 ^ 5 + 2 ^ 10)).set (0x48000 + 31) (5 + 5 * 2 ^ 14)
    imp := { State.reset.imp with rects := [[⟨5, 5, 0, 0⟩], [⟨5, 5, 0, 0⟩], [], []], overran := true } }

/-- The invariant says nothing of register values and window words but that their tables are in canonical form. -/
theorem State.Inv.of_tables {s : State} (h : s.Inv) {live : Tbl 64} {win : Tbl 72} (hl : live.wf = true) (hw : win.wf = true)
    (rects : List (List Rect)) (overran : Bool) :
    State.Inv { s with live := live, win := win, imp := { s.imp with rects := rects, overran := overran } } :=
  { h with live := hl, win := hw }

theorem senderAstray_inv : senderAstray.Inv := invariantAtReset.of_tables (by decide +kernel) (by decide +kernel) _ _

/-- The footprint of leaf 543 in bank 2 stands in the tile's status word, and it is damaged in feed 1. -/
theorem senderAstray_leaves : slotKey senderAstray.bank 0 31 (512 + 543) = 0x48000 + 31 ∧ (senderAstray.sigLeaves 0 31 1).1 = [543] := by
  decide +kernel

/-- As feed 0 omits the leaf its status word counts it, which moves the leaf's footprint off the damage before feed 1 is served. -/
theorem senderAstray_unsent : seenAfter (.sendDeadline 0 31) senderAstray (·.sigSent 0 31 1) = some false := by decide +kernel

/-- Refutes O10: the statement ranges over states whose fields hold values too wide for them. In `senderAstray` the active bank does, which no
write of the part brings about, and a leaf's footprint then has the key of the status word in which SEND_DEADLINE counts omitted leaves (R113):
the signature of feed 1 has a leaf before the command, and is not closed by it. -/
theorem not_signaturesLeave : ¬ Obligations.SignaturesLeave := by
  have hegress : senderAstray.egress 0 31 = true := by decide +kernel
  have hfeed : 1 < senderAstray.feeds := by decide +kernel
  have hinv := senderAstray_inv
  obtain ⟨-, hleaves⟩ := senderAstray_leaves
  have hunsent := senderAstray_unsent
  generalize senderAstray = s at hegress hfeed hinv hleaves hunsent
  intro h
  obtain ⟨-, hdeadline, -⟩ := h s 0 31 hinv
  obtain ⟨t, ht, hsent, -⟩ := hdeadline hegress
  have hclosed : t.sigSent 0 31 1 = true := hsent 1 hfeed (hleaves ▸ List.cons_ne_nil 543 [])
  rw [seenAfter_next _ ht, hclosed] at hunsent
  cases hunsent

/-! ### The end of a composition (R94) -/

/-- A part in BENCH role whose count of overruns reads 65536 where it is 16 bits wide. -/
def benchOverrun : State :=
  { State.reset with live := (Tbl.set [] HIF_STRAP_STAT_ROLE.key 2).set CMP_CNT1_OVERRUN.key 65536 }

/-- A composition that ends in time, with nothing missed. -/
def compositionInTime : CompositionEnd := ⟨0, [], 0, 0, 0, 0⟩

/-- With no late feed nothing is counted. -/
theorem benchOverrun_count : seenAfter (.compositionDeadline compositionInTime) benchOverrun (·.rd CMP_CNT1_OVERRUN) = some 65536 := by
  decide +kernel

/-- Refutes O12: the statement ranges over states whose fields hold values too wide for them. In `benchOverrun` the count of overruns does, which
no write of the part brings about: the end of a composition without a late feed leaves it as it is, where the statement has it saturate. -/
theorem not_preparationAndCompositionEnd : ¬ Obligations.PreparationAndCompositionEnd := by
  have hrole : benchOverrun.isTile = false ∧ benchOverrun.role ≠ 3 ∧ benchOverrun.dataOn = true := by decide +kernel
  have hbefore : benchOverrun.rd CMP_CNT1_OVERRUN = 65536 := by decide +kernel
  have hafter := benchOverrun_count
  generalize benchOverrun = s at hrole hbefore hafter
  obtain ⟨htile, hvalid, hon⟩ := hrole
  intro h
  obtain ⟨-, hend⟩ := h s
  obtain ⟨t, ht, -, -, hcount, -⟩ := hend compositionInTime htile hvalid hon
  rw [hbefore] at hcount
  have hsat : t.rd CMP_CNT1_OVERRUN ≤ 65535 := hcount ▸ Nat.min_le_right _ _
  have hkept : t.rd CMP_CNT1_OVERRUN = 65536 := Option.some.inj ((seenAfter_next _ ht).symm.trans hafter)
  omega

end Sys2Proof.Machine
end

