-- ==== Sys2Proof/Proofs/LinkCounterexamples.lean ====
section
/-! SUPPORT. States on which the statements about lane control (R125) and about the queue registers (R260, R266) fail. -/

namespace Sys2Proof.Machine

/-- The invariant says nothing of register values and window words but that their tables are in canonical form, and of the sides but that
they are two. -/
theorem State.Inv.of_tables_sides {s : State} (h : s.Inv) {live : Tbl 64} {win : Tbl 72} {sides : List Side} (hl : live.wf = true)
    (hw : win.wf = true) (hs : sides.length = 2) : State.Inv { s with live := live, win := win, sides := sides } :=
  { h with live := hl, win := hw, sides := hs }

/-! ### Idle folios after a sequence that is too wide (R125, R132) -/

/-- Side A is up with three lanes in use, and its two other lanes are retired. Its running sequence reads 4097 where a link sequence has 12
bits. -/
def sideAstray : State :=
  { State.reset with
    live := (((Tbl.set [] (BLK_CTRL_EN 0x18).key 1).set (QP_SIDE_STAT_STATE 0).key 2).set (QP_LANE_STAT_STATE 0 3).key 5).set
      (QP_LANE_STAT_STATE 0 4).key 5
    sides := [{ Side.reset with txLog := [0, 1, 2, 7, 7], txAct := 3, txSeq := 4097 }, Side.reset] }

theorem sideAstray_inv : sideAstray.Inv := invariantAtReset.of_tables_sides (by decide +kernel) rfl rfl

theorem sideAstray_up : sideAstray.sideOn 0 = true ∧ sideAstray.sideIsUp 0 = true ∧ (sideAstray.side 0).txLog.idxOf 0 = 0 := by
  decide +kernel

/-- Whether an output is a folio on lane `l` of side A. -/
def onLane (l : Nat) : Emit → Bool
  | .folio 0 _ w => w.lane == l
  | _ => false

theorem onLane_folio {l : Nat} {f : Folio} {w : Wire} (h : w.lane = l) : onLane l (.folio 0 f w) = true := by simp [onLane, h]

/-- The two slots up to the next multiple of three carry the sequences 4097 and 4098 modulo 4096, both of logical lane 2. -/
theorem sideAstray_idle : seenAfter (.idleFolioSend 0) sideAstray (·.out.any (onLane 0)) = some false := by decide +kernel

/-- Refutes O14: the statement ranges over states whose numbers are too wide. In `sideAstray` the sequence of a side's next folio is, which no
command brings about; as it wraps to 12 bits within the slots that carry idle folios, none of them falls on logical lane 0. -/
theorem not_laneLossAndSwaps : ¬ Obligations.LaneLossAndSwaps := by
  obtain ⟨hon, hup, hlane⟩ := sideAstray_up
  have hinv := sideAstray_inv
  have hidle := sideAstray_idle
  generalize sideAstray = s at hon hup hlane hinv hidle
  intro h
  obtain ⟨hsend, -⟩ := h.2 s 0 hinv
  obtain ⟨t, ht, hfolio, -⟩ := hsend hon
  obtain ⟨f, w, hout, -, -, hw⟩ := hfolio hup
  have hany : t.out.any (onLane 0) = true := List.any_eq_true.mpr ⟨_, hout, onLane_folio (hw.trans hlane)⟩
  rw [seenAfter_next _ ht, hany] at hidle
  cases hidle

/-! ### A doorbell for a request that no table lists (R260, R266) -/

/-- A sender whose request queue 0x000, of four entries, holds one message that its doorbell has not yet told of: a request of one word with
CMD 0xFFFF. -/
def badRequestWaits : State :=
  { State.reset with
    live := Tbl.set [] HIF_STRAP_STAT_ROLE.key 1
    win := (Tbl.set [] (qDesc 0 0) (2 * 2 ^ 37 + 2 ^ 41)).set (qMem 0) (0xFFFF + 2 ^ 70 + 2 ^ 71) }

theorem badRequestWaits_inv : badRequestWaits.Inv := invariantAtReset.of_tables_sides (by decide +kernel) (by decide +kernel) rfl

theorem badRequestWaits_queue : (badRequestWaits.queue 0).valid = true ∧ (badRequestWaits.queue 0).head = 0 ∧
    badRequestWaits.reachable .pcie = true := by decide +kernel

/-- Firmware takes the request and answers it BAD_CMD. -/
theorem badRequestWaits_taken : seenAfter (.doorbell .pcie 0 1) badRequestWaits (fun u => (u.queue 0).head) = some 1 := by decide +kernel

/-- Refutes O52: a doorbell does not leave HEAD of the request queue as it is where a request with a code that no table lists stands there, for
firmware takes it within the command and answers BAD_CMD (R266), as in `badRequestWaits`. -/
theorem not_linkAndQueueRegisterCommands : ¬ Obligations.LinkAndQueueRegisterCommands := by
  obtain ⟨hvalid, hhead, hreach⟩ := badRequestWaits_queue
  have hinv := badRequestWaits_inv
  have htaken := badRequestWaits_taken
  generalize badRequestWaits = s at hvalid hhead hreach hinv htaken
  intro h
  obtain ⟨-, -, -, -, -, hqueue, -⟩ := h.2 s .pcie hinv hreach
  obtain ⟨-, hdoorbell, -⟩ := hqueue 0 1
  obtain ⟨t, ht, hkept, -⟩ := hdoorbell rfl hvalid
  rw [seenAfter_next _ ht, hkept] at htaken
  have hone : (s.queue 0).head = 1 := Option.some.inj htaken
  omega

end Sys2Proof.Machine
end

