-- ==== Sys2Proof/Proofs/LaneBringUp.lean ====
section
/-! SUPPORT. The bring-up of a lane (R118, R119, R122, R124, R128). -/

namespace Sys2Proof.Machine

/-! ### Sides -/

theorem State.side_setSide_self (s : State) {sd : Nat} (x : Side) (h : sd < s.sides.length) : (s.setSide sd x).side sd = x := by
  simp [State.side, State.setSide, List.getD_eq_getElem?_getD, h]

@[simp] theorem State.rd_setSide (s : State) (d : Nat) (x : Side) (f : Fld) : (s.setSide d x).rd f = s.rd f := rfl
@[simp] theorem State.rd_drawn (s : State) (f : Fld) : s.drawn.rd f = s.rd f := rfl

theorem State.Inv.side_lt {s : State} (h : s.Inv) (sd : Fin 2) : sd.val < s.sides.length := by rw [h.sides]; exact sd.isLt

/-! ### Changes that bring no note about -/

/-- A change of register fields with keys in `own` and of the engines' state, with no window word, byte of frame memory or output. -/
structure Silent (own : Nat → Bool) (s t : State) : Prop where
  regs : ∀ k, own k = false → t.live.get k = s.live.get k
  win : t.win = s.win
  mem : t.mem = s.mem
  out : t.out = s.out

namespace Silent
variable {own : Nat → Bool} {s t u : State}

theorem of_same (hl : t.live = s.live) (hw : t.win = s.win) (hm : t.mem = s.mem) (ho : t.out = s.out) : Silent own s t :=
  ⟨fun k _ => by rw [hl], hw, hm, ho⟩

theorem refl (own : Nat → Bool) (s : State) : Silent own s s := of_same rfl rfl rfl rfl

theorem trans (h : Silent own s t) (k : Silent own t u) : Silent own s u :=
  ⟨fun i hi => (k.regs i hi).trans (h.regs i hi), k.win.trans h.win, k.mem.trans h.mem, k.out.trans h.out⟩

theorem wr {fs : List Fld} (h : Silent (keysOf fs) s t) {f : Fld} (v : Nat) (hf : f ∈ fs) : Silent (keysOf fs) s (t.wr f v) :=
  h.trans ⟨fun k hk => Tbl.get_set_ne _ _ (by rintro rfl; rw [keysOf_mem hf] at hk; cases hk), rfl, rfl, rfl⟩

theorem setSide (h : Silent own s t) (sd : Nat) (x : Side) : Silent own s (t.setSide sd x) := h.trans (of_same rfl rfl rfl rfl)

theorem when (h : Silent own s t) (c : Bool) {g : State → State} (hg : ∀ u, Silent own s u → Silent own s (g u)) :
    Silent own s (t.when c g) := State.when_keeps (P := Silent own s) c g hg h

theorem kept (h : Silent own s t) : RegsKept own s t ∧ t.win = s.win ∧ t.mem = s.mem ∧ t.out = s.out :=
  ⟨fun k hk _ => h.regs k hk, h.win, h.mem, h.out⟩

end Silent

/-! ### Signal (R118, R119, R122) -/

/-- A side's dwells start at RATE_START (R122). -/
def State.startDwells (s : State) (sd : Nat) : State :=
  ((s.wr (QP_SIDE_STAT_RATE sd) (s.rd (QP_CFG_RATE_START sd))).wr (QP_SIDE_STAT_ATTEMPTS sd) 0).wr (QP_SIDE_STAT_STATE sd) 1

/-- What ADAPT takes of LANE_FIX as it starts (R118). -/
def State.fixTaken (s : State) (sd l : Nat) : Option (Nat × Nat) :=
  if s.on (QP_CFG_EQ_FIX sd) then some (s.rd (QP_LANE_FIX_PEAK sd l), s.rd (QP_LANE_FIX_DCG sd l)) else none

/-- A DOWN lane with signal energy enters ADAPT. -/
def State.laneDetected (s : State) (sd l : Nat) : State :=
  ((s.when (!s.energy sd && !s.sideIsUp sd) (State.startDwells · sd)).setLane sd l 1).setSide sd
    { s.side sd with eqFix := (s.side sd).eqFix.set l (s.fixTaken sd l) }

theorem exec_laneSignalDetect (s : State) (sd : Fin 2) (l : Fin 5) (hon : s.sideOn sd = true) (hl : s.lane sd l = 0) :
    exec (.laneSignalDetect sd l) s = .next (s.laneDetected sd l) := by
  change execLaneSignalDetect sd l s = _
  rw [execLaneSignalDetect, if_pos ⟨hon, hl⟩]
  cases hc : (!s.energy sd && !s.sideIsUp sd) <;> simp only [State.laneDetected, hc] <;> rfl

theorem State.lane_setLane (s : State) (sd l : Nat) {v : Nat} (hv : v < 8) : (s.setLane sd l v).lane sd l = v :=
  State.rd_wr_of s _ 3 rfl hv (by decide)

theorem State.lane_laneDetected (s : State) (sd l : Nat) : (s.laneDetected sd l).lane sd l = 1 := by
  rw [State.lane, State.laneDetected, State.rd_setSide]
  exact State.lane_setLane _ sd l (by decide)

/-- The first lane with energy starts the side's dwells. -/
theorem State.laneDetected_starts (s : State) (sd l : Nat) (he : s.energy sd = false) (hup : s.sideIsUp sd = false) :
    (s.laneDetected sd l).rd (QP_SIDE_STAT_STATE sd) = 1 ∧ (s.laneDetected sd l).rd (QP_SIDE_STAT_ATTEMPTS sd) = 0 ∧
      (s.laneDetected sd l).rd (QP_SIDE_STAT_RATE sd) = s.rd (QP_CFG_RATE_START sd) % 4 := by
  have hlane (f : Fld) (hf : f.key < ((24 + sd) * 4096 + 320) * 64) : (s.laneDetected sd l).rd f = (s.startDwells sd).rd f := by
    rw [State.laneDetected, he, hup, State.rd_setSide, State.setLane, State.rd_wr_ne _ _ (by
      simp only [Fld.key, QP_LANE_STAT_STATE] at hf ⊢; omega)]
    rfl
  rw [hlane _ (by simp only [Fld.key, QP_SIDE_STAT_STATE]; omega), hlane _ (by simp only [Fld.key, QP_SIDE_STAT_ATTEMPTS]; omega),
    hlane _ (by simp only [Fld.key, QP_SIDE_STAT_RATE]; omega)]
  simp [State.startDwells, State.rd_wr, Fld.key, QP_SIDE_STAT_STATE, QP_SIDE_STAT_ATTEMPTS, QP_SIDE_STAT_RATE]
  omega

theorem State.laneDetected_fix (s : State) {sd l : Nat} (hsd : sd < s.sides.length) (hl : l < (s.side sd).eqFix.length) :
    ((s.laneDetected sd l).side sd).eqFix.getD l none = s.fixTaken sd l := by
  have hside (t : State) (ht : t.sides = s.sides) (x : Side) : (t.setSide sd x).side sd = x := State.side_setSide_self t x (ht ▸ hsd)
  rw [State.laneDetected, hside]
  · simp [List.getD_eq_getElem?_getD, hl]
  · exact State.when_keeps (P := fun t => t.sides = s.sides) _ (State.startDwells · sd) (fun t ht => ht) rfl

/-- The fields that a lane's signal changes. -/
def detectFields (sd l : Nat) : List Fld := [QP_LANE_STAT_STATE sd l, QP_SIDE_STAT_STATE sd, QP_SIDE_STAT_RATE sd, QP_SIDE_STAT_ATTEMPTS sd]

theorem Silent.laneDetected (s : State) (sd l : Nat) : Silent (keysOf (detectFields sd l)) s (s.laneDetected sd l) := by
  refine Silent.setSide (Silent.wr (Silent.when (.refl _ s) _ fun u hu => ?_) _ (by simp [detectFields])) _ _
  exact ((hu.wr _ (by simp [detectFields])).wr _ (by simp [detectFields])).wr _ (by simp [detectFields])

/-! ### The search of ADAPT (R118) -/

/-- The DC gain that the search finds, or a free value. -/
def State.dcgFound (s : State) (e : EyeScan) : Nat := ((List.range 8).find? fun d => e.outer.toNat.testBit d).getD (s.free % 8)

/-- The sampling phase that the search finds, or a free value. -/
def State.phaseFound (s : State) (e : EyeScan) : Nat := if e.phases = 0 then s.free / 8 % 64 else eyeCenter e.phases.toNat

/-- PEAK and DCG as the lane's ADAPT took them, or as its search finds them. -/
def State.adaptFilter (s : State) (sd l : Nat) (e : EyeScan) : Nat × Nat :=
  ((s.side sd).eqFix.getD l none).getD (searchPeak fun p => (e.peak.getD p 0).toNat, s.dcgFound e)

/-- A lane's search ends, and what it found applies. -/
def State.laneAdapted (s : State) (sd l : Nat) (e : EyeScan) : State :=
  (((((s.setLane sd l 2).wr (QP_LANE_STAT_PEAK sd l) (s.adaptFilter sd l e).1).wr (QP_LANE_STAT_DCG sd l) (s.adaptFilter sd l e).2).wr
    (QP_LANE_STAT_PHASE sd l) (s.phaseFound e)).wr (QP_LANE_STAT_EYE sd l) e.eye.toNat).when (e.outer == 0 || e.phases == 0) State.drawn

theorem exec_adaptComplete (s : State) (sd : Fin 2) (l : Fin 5) (e : EyeScan) (hl : s.lane sd l = 1) :
    exec (.adaptComplete sd l e) s = .next (s.laneAdapted sd l e) := by
  change execAdaptComplete sd l e s = _
  rw [execAdaptComplete, if_pos hl]
  rfl

theorem State.rd_when_drawn (s : State) (c : Bool) (f : Fld) : (s.when c State.drawn).rd f = s.rd f :=
  State.when_keeps (P := fun t => t.rd f = s.rd f) _ State.drawn (fun _ ht => ht) rfl

/-- What a lane's registers hold after its search. -/
theorem State.laneAdapted_rd (s : State) (sd l : Nat) (e : EyeScan) : (s.laneAdapted sd l e).lane sd l = 2 ∧
    (s.laneAdapted sd l e).rd (QP_LANE_STAT_PEAK sd l) = (s.adaptFilter sd l e).1 % 32 ∧
    (s.laneAdapted sd l e).rd (QP_LANE_STAT_DCG sd l) = (s.adaptFilter sd l e).2 % 8 ∧
    (s.laneAdapted sd l e).rd (QP_LANE_STAT_PHASE sd l) = s.phaseFound e % 64 ∧
    (s.laneAdapted sd l e).rd (QP_LANE_STAT_EYE sd l) = e.eye.toNat := by
  have heye : e.eye.toNat < 256 := e.eye.isLt
  simp only [State.laneAdapted, State.lane, State.setLane, State.rd_when_drawn, State.rd_wr, Fld.key, QP_LANE_STAT_STATE, QP_LANE_STAT_PEAK,
    QP_LANE_STAT_DCG, QP_LANE_STAT_PHASE, QP_LANE_STAT_EYE, Nat.add_left_cancel_iff, Nat.reduceEqDiff, if_true, if_false]
  omega

/-- The search finds the smallest DC gain inside the range. -/
theorem State.dcgFound_eq (s : State) (e : EyeScan) {d : Nat} (hd : d < 8) (hin : e.outer.toNat.testBit d = true)
    (hout : ∀ c < d, e.outer.toNat.testBit c = false) : s.dcgFound e = d := by
  have hfind : (List.range 8).find? (fun d => e.outer.toNat.testBit d) = some d := by
    rw [List.find?_range_eq_some]
    exact ⟨hin, List.mem_range.mpr hd, fun c hc => by simp [hout c hc]⟩
  rw [State.dcgFound, hfind]
  rfl

/-- The fields that a lane's search changes. -/
def adaptFields (sd l : Nat) : List Fld :=
  [QP_LANE_STAT_STATE sd l, QP_LANE_STAT_PEAK sd l, QP_LANE_STAT_DCG sd l, QP_LANE_STAT_PHASE sd l, QP_LANE_STAT_EYE sd l]

theorem Silent.laneAdapted (s : State) (sd l : Nat) (e : EyeScan) : Silent (keysOf (adaptFields sd l)) s (s.laneAdapted sd l e) := by
  have h := (((((Silent.refl (keysOf (adaptFields sd l)) s).wr 2 (f := QP_LANE_STAT_STATE sd l) (by simp [adaptFields])).wr
    (s.adaptFilter sd l e).1 (f := QP_LANE_STAT_PEAK sd l) (by simp [adaptFields])).wr (s.adaptFilter sd l e).2
    (f := QP_LANE_STAT_DCG sd l) (by simp [adaptFields])).wr (s.phaseFound e) (f := QP_LANE_STAT_PHASE sd l) (by simp [adaptFields])).wr
    e.eye.toNat (f := QP_LANE_STAT_EYE sd l) (by simp [adaptFields])
  exact h.when _ fun u hu => hu.trans (.of_same rfl rfl rfl rfl)

theorem State.laneAdapted_sides (s : State) (sd l : Nat) (e : EyeScan) : (s.laneAdapted sd l e).sides = s.sides :=
  State.when_keeps (P := fun t => t.sides = s.sides) _ State.drawn (fun _ ht => ht) rfl

/-! ### A verified lane (R119, R124, R128) -/

theorem State.restartFilter_rd (s : State) (sd : Nat) {f : Fld} (hf : f.key ≠ (WTU_LINK_SETTLING sd).key) :
    (s.restartFilter sd).rd f = s.rd f := State.rd_wr_ne _ _ hf

/-- A logical lane that moves changes no register but the lane's and the settling of the side's delay filter. -/
theorem State.setLog_rd (s : State) (sd l k : Nat) {f : Fld} (hf : f.key ≠ (WTU_LINK_SETTLING sd).key) :
    (s.setLog sd l k).rd f = (s.wr (QP_LANE_STAT_LOG sd l) k).rd f :=
  State.when_keeps (P := fun t => t.rd f = (s.wr (QP_LANE_STAT_LOG sd l) k).rd f) _ (State.restartFilter · sd)
    (fun t ht => (t.restartFilter_rd sd hf).trans ht) rfl

theorem Silent.restartFilter {fs : List Fld} {s t : State} (h : Silent (keysOf fs) s t) {sd : Nat} (hf : WTU_LINK_SETTLING sd ∈ fs) :
    Silent (keysOf fs) s (t.restartFilter sd) :=
  (h.trans (u := t.setTimeLink sd _) (.of_same rfl rfl rfl rfl)).wr 1 hf

theorem Silent.setLog {fs : List Fld} {s t : State} (h : Silent (keysOf fs) s t) {sd l : Nat} (k : Nat) (hl : QP_LANE_STAT_LOG sd l ∈ fs)
    (hf : WTU_LINK_SETTLING sd ∈ fs) : Silent (keysOf fs) s (t.setLog sd l k) :=
  (h.wr k hl).when (g := (State.restartFilter · sd)) _ fun _ hu => hu.restartFilter hf

/-- A lane whose 1,024 folios were good is UP, and its skew is measured. -/
def State.laneComesUp (s : State) (sd l : Nat) : State := (s.setLane sd l 4).wrFree (QP_LANE_STAT_SKEW sd l)

/-- The same with the logical lane that it takes on a side that is up. -/
def State.laneVerified (s : State) (sd l : Nat) : State :=
  if s.sideIsUp sd = false then s.laneComesUp sd l
  else if (s.missingLog sd).isSome then (s.laneComesUp sd l).setLog sd l ((s.missingLog sd).getD 7)
  else if s.rd (QP_SIDE_STAT_N_ACT sd) < 4 then
    ((s.laneComesUp sd l).setLog sd l (s.rd (QP_SIDE_STAT_N_ACT sd))).wr (QP_SIDE_STAT_N_ACT sd) (s.rd (QP_SIDE_STAT_N_ACT sd) + 1)
  else if s.on (QP_CFG_SPARE_EN sd) = true ∧ s.rd (QP_SIDE_STAT_SPARE sd) = 7 then (s.laneComesUp sd l).wr (QP_SIDE_STAT_SPARE sd) l
  else s.laneComesUp sd l

theorem exec_laneVerified (s : State) (sd : Fin 2) (l : Fin 5) (hl : s.lane sd l = 3) :
    exec (.laneVerified sd l) s = .next (s.laneVerified sd l) := by
  change execLaneVerified sd l s = _
  rw [execLaneVerified, if_pos hl]
  unfold State.laneVerified
  dsimp only
  split_ifs <;> rfl

/-- What a verified lane can change. -/
def verifyFields (sd l : Nat) : List Fld := [QP_LANE_STAT_STATE sd l, QP_LANE_STAT_SKEW sd l, QP_LANE_STAT_LOG sd l, QP_SIDE_STAT_N_ACT sd,
  QP_SIDE_STAT_SPARE sd, WTU_LINK_SETTLING sd]

theorem Silent.laneVerified (s : State) (sd l : Nat) : Silent (keysOf (verifyFields sd l)) s (s.laneVerified sd l) := by
  have hup : Silent (keysOf (verifyFields sd l)) s (s.laneComesUp sd l) :=
    (((Silent.refl _ s).wr 4 (f := QP_LANE_STAT_STATE sd l) (by simp [verifyFields])).wr _ (f := QP_LANE_STAT_SKEW sd l)
      (by simp [verifyFields])).trans (.of_same rfl rfl rfl rfl)
  have hlog (k : Nat) := hup.setLog k (sd := sd) (l := l) (by simp [verifyFields]) (by simp [verifyFields])
  unfold State.laneVerified
  split_ifs
  · exact hup
  · exact hlog _
  · exact (hlog _).wr _ (by simp [verifyFields])
  · exact hup.wr _ (by simp [verifyFields])
  · exact hup

theorem State.lane_laneComesUp (s : State) (sd l : Nat) : (s.laneComesUp sd l).lane sd l = 4 := by
  rw [State.lane, State.laneComesUp, State.wrFree, State.rd_drawn, State.rd_wr_ne _ _ (by simp [Fld.key, QP_LANE_STAT_STATE, QP_LANE_STAT_SKEW])]
  exact s.lane_setLane sd l (by decide)

/-- A lane keeps its state as it takes a logical lane. -/
theorem State.lane_setLog (s : State) (sd l k : Nat) : (s.setLog sd l k).lane sd l = s.lane sd l := by
  rw [State.lane, State.setLog_rd, State.rd_wr_ne, State.lane]
  · simp [Fld.key, QP_LANE_STAT_STATE, QP_LANE_STAT_LOG]
  · simp only [Fld.key, QP_LANE_STAT_STATE, WTU_LINK_SETTLING]; omega

theorem State.logOf_setLog (s : State) (sd l : Nat) {k : Nat} (hk : k < 8) : (s.setLog sd l k).logOf sd l = k := by
  rw [State.logOf, State.setLog_rd]
  · exact State.rd_wr_of _ _ 3 rfl hk (by decide)
  · simp only [Fld.key, QP_LANE_STAT_LOG, WTU_LINK_SETTLING]; omega

theorem State.lane_laneVerified (s : State) (sd l : Nat) : (s.laneVerified sd l).lane sd l = 4 := by
  have hside (t : State) (f : Fld) (v : Nat) (hf : f.page = 24 + sd ∧ f.off = 256 ∧ f.lo < 64) : (t.wr f v).lane sd l = t.lane sd l :=
    State.rd_wr_ne _ _ (by simp only [Fld.key, QP_LANE_STAT_STATE, hf.1, hf.2.1]; omega)
  unfold State.laneVerified
  split_ifs
  · exact s.lane_laneComesUp sd l
  · rw [State.lane_setLog, State.lane_laneComesUp]
  · rw [hside _ _ _ ⟨rfl, rfl, show 4 < 64 by decide⟩, State.lane_setLog, State.lane_laneComesUp]
  · rw [hside _ _ _ ⟨rfl, rfl, show 7 < 64 by decide⟩, State.lane_laneComesUp]
  · exact s.lane_laneComesUp sd l

/-- On a side that is up the lane takes a logical lane that is missing. -/
theorem State.laneVerified_missing (s : State) {sd l k : Nat} (hup : s.sideIsUp sd = true) (hm : s.missingLog sd = some k) (hk : k < 8) :
    (s.laneVerified sd l).logOf sd l = k := by
  rw [State.laneVerified, hup, hm]
  exact State.logOf_setLog _ sd l hk

/-- With none missing and fewer than four in use it takes the next one. -/
theorem State.laneVerified_next (s : State) {sd l : Nat} (hup : s.sideIsUp sd = true) (hm : s.missingLog sd = none)
    (hn : s.rd (QP_SIDE_STAT_N_ACT sd) < 4) :
    (s.laneVerified sd l).rd (QP_SIDE_STAT_N_ACT sd) = s.rd (QP_SIDE_STAT_N_ACT sd) + 1 ∧
      (s.laneVerified sd l).logOf sd l = s.rd (QP_SIDE_STAT_N_ACT sd) := by
  rw [State.laneVerified, hup, hm]
  simp only [Bool.true_eq_false, Option.isSome_none, Bool.false_eq_true, if_false, if_pos hn]
  constructor
  · exact State.rd_wr_of _ _ 3 rfl (by omega) (by decide)
  · rw [State.logOf, State.rd_wr_ne _ _ (by simp only [Fld.key, QP_LANE_STAT_LOG, QP_SIDE_STAT_N_ACT]; omega)]
    exact State.logOf_setLog _ sd l (by omega)

/-- With four in use it becomes the spare, where a spare is kept and there is none. -/
theorem State.laneVerified_spare (s : State) {sd l : Nat} (hl : l < 5) (hup : s.sideIsUp sd = true) (hm : s.missingLog sd = none)
    (hn : 4 ≤ s.rd (QP_SIDE_STAT_N_ACT sd)) (hen : s.on (QP_CFG_SPARE_EN sd) = true) (hsp : s.rd (QP_SIDE_STAT_SPARE sd) = 7) :
    (s.laneVerified sd l).rd (QP_SIDE_STAT_SPARE sd) = l := by
  rw [State.laneVerified, hup, hm]
  simp only [Bool.true_eq_false, Option.isSome_none, Bool.false_eq_true, if_false, if_neg (Nat.not_lt.mpr hn), if_pos (And.intro hen hsp)]
  exact State.rd_wr_of _ _ 3 rfl (by omega) (by decide)

/-- Settles O13: each command of a lane's bring-up has one result state, whose registers and frame the lemmas above give. -/
theorem laneBringUp : Obligations.LaneBringUp := by
  unfold Obligations.LaneBringUp
  intro s sd l
  refine ⟨fun hon hl hs => ?_, fun e hl => ?_, fun hl => ?_, fun hl => ?_, fun hl _ => ?_⟩
  · refine ⟨_, exec_laneSignalDetect s sd l hon hl, s.lane_laneDetected sd l, s.laneDetected_starts sd l,
      s.laneDetected_fix (hs.side_lt sd), (Silent.laneDetected s sd l).kept⟩
  · obtain ⟨hlane, hpeak, hdcg, hphase, heye⟩ := s.laneAdapted_rd sd l e
    obtain ⟨hregs, hwin, hmem, hout⟩ := (Silent.laneAdapted s sd l e).kept
    refine ⟨_, exec_adaptComplete s sd l e hl, hlane, fun hfix => ?_, fun f hfix => ?_, fun hopen => ?_, heye, hregs,
      s.laneAdapted_sides sd l e, hwin, hmem, hout⟩
    · rw [State.adaptFilter, hfix] at hpeak hdcg
      refine ⟨hpeak, fun d hd hin hfirst => ?_⟩
      rw [hdcg, Option.getD_none, s.dcgFound_eq e hd hin hfirst, Nat.mod_eq_of_lt hd]
    · rw [State.adaptFilter, hfix] at hpeak hdcg
      exact ⟨hpeak, hdcg⟩
    · rw [hphase, State.phaseFound, if_neg hopen, eyeCenter, Nat.mod_mod]
  · change execAlignLock sd l s = _
    rw [execAlignLock, if_pos hl]
    rfl
  · change execVerifyFail sd l s = _
    rw [execVerifyFail, if_pos hl]
    rfl
  · exact ⟨_, exec_laneVerified s sd l hl, s.lane_laneVerified sd l, fun hup k => s.laneVerified_missing hup, s.laneVerified_next,
      s.laneVerified_spare l.isLt, (Silent.laneVerified s sd l).kept⟩

end Sys2Proof.Machine
end

