-- ==== Sys2Proof/Proofs/SidesAndStreams.lean ====
section
/-! SUPPORT. Sides that come up and go down, streams and ring breaks (R120, R150, R151, R277). -/

namespace Sys2Proof.Machine

/-! ### Registers -/

/-- A field reads what was written to it, cut to its width. -/
theorem State.rd_wr_mod (s : State) (f : Fld) (v : Nat) (hw : f.w ≤ 64) : (s.wr f v).rd f = v % 2 ^ f.w := by
  rw [State.rd_wr, if_pos rfl, Nat.mod_eq_of_lt]
  exact Nat.lt_of_lt_of_le (Nat.mod_lt _ (Nat.two_pow_pos _)) (Nat.pow_le_pow_right (by decide) hw)

theorem State.rd_wrM (s : State) (f : Fld) {g : Fld} (v : Nat) (hg : g.key ≠ NVS_SAVE_DIRTY.key) : (s.wrM f v).rd g = (s.wr f v).rd g :=
  State.when_keeps (P := fun t => t.rd g = (s.wr f v).rd g) _ (State.markDirty · 0) (fun t ht => (t.rd_wr_ne _ hg).trans ht) rfl

/-! ### Streams (R150) -/

theorem okFld_plain (st : Nat) : plainKey (okFld st).key = true := by unfold okFld; split <;> decide
theorem whyFld_plain (st : Nat) : plainKey (whyFld st).key = true := by unfold whyFld; split <;> decide
theorem okFld_w (st : Nat) : (okFld st).w = 1 := by unfold okFld; split <;> rfl
theorem whyFld_w (st : Nat) : (whyFld st).w = 1 := by unfold whyFld; split <;> rfl

theorem okFld_ne_whyFld (st su : Nat) : (okFld st).key ≠ (whyFld su).key := by
  unfold okFld whyFld
  split <;> split <;> decide

theorem Effect.loseStream {own : Nat → Bool} (words : Nat → Bool) (s : State) (st why : Nat) (hok : own (okFld st).key = true)
    (hwhy : own (whyFld st).key = true) : Effect own words s (s.loseStream st why) := by
  unfold State.loseStream
  split
  · exact (((Effect.wr words s _ 0 hok (okFld_plain st)).trans (.wr words _ _ why hwhy (whyFld_plain st))).trans
      (.raise own words _ 0x1A 7)).trans (.of_same rfl rfl rfl rfl rfl)
  · exact .refl own words s

/-- A stream that a tile loses is not OK, with its cause, and STREAM is raised. -/
theorem State.loseStream_lost (s : State) (st : Nat) {why : Nat} (hwhy : why < 2) (ht : s.isTile = true) (hok : s.on (okFld st) = true) :
    (s.loseStream st why).on (okFld st) = false ∧ (s.loseStream st why).rd (whyFld st) = why ∧ (s.loseStream st why).flag 0x1A 7 = true := by
  have hrd (f : Fld) (hf : plainKey f.key = true) : (s.loseStream st why).rd f = ((s.wr (okFld st) 0).wr (whyFld st) why).rd f := by
    rw [State.loseStream, if_pos ⟨ht, hok⟩]
    exact State.raise_rd _ 0x1A 7 f (noteKey_of_plain hf)
  refine ⟨?_, ?_, ?_⟩
  · rw [State.on, hrd _ (okFld_plain st), State.rd_wr_ne _ _ (okFld_ne_whyFld st st), State.rd_wr_of s _ 1 (okFld_w st) (by decide) (by decide)]
    rfl
  · rw [hrd _ (whyFld_plain st), State.rd_wr_of _ _ 1 (whyFld_w st) hwhy (by decide)]
  · rw [State.loseStream, if_pos ⟨ht, hok⟩]
    exact State.flag_raise _ 0x1A 7 (by decide)

/-! ### Ring breaks (R151) -/

/-- The nodes that a break at a tile's side leaves in reach. -/
def reachKept (tile side : Nat) : Nat := if side = 1 then nodeMask 0 tile else nodeMask tile 63

/-- The break counted, and the reach that it leaves. -/
def State.reachCut (s : State) (st tile side : Nat) : State :=
  (s.bump QLK_MG_CNT_BREAKS).wr (QLK_REACH_NODES st) (s.rd (QLK_REACH_NODES st) &&& reachKept tile side)

/-- A node after a BREAK event. -/
def State.breakHeard (s : State) (st tile side : Nat) : State :=
  if s.isTile then
    if side = 1 then
      if s.rd (QLK_TOPO_NODE 0) ≤ tile then (s.reachCut st tile side).wr QLK_DRR_D_A (tile - s.rd (QLK_TOPO_NODE 0)) else s.bump QLK_MG_CNT_BREAKS
    else if tile ≤ s.rd (QLK_TOPO_NODE 0) then (s.reachCut st tile side).wr QLK_DRR_D_B (s.rd (QLK_TOPO_NODE 0) - tile)
    else s.bump QLK_MG_CNT_BREAKS
  else if s.isSender then (((s.reachCut st tile side).wr (QLK_TOPO_SPLIT st) 1).wr (QLK_TOPO_REACH_END st) tile).raise 0x1A 8
  else s.bump QLK_MG_CNT_BREAKS

theorem exec_breakReceive (s : State) (st : Fin 2) (k : BitVec 6) (side : Fin 2) :
    exec (.breakReceive st k side) s = .next (s.breakHeard st k.toNat side) := by
  change execBreakReceive st k side s = _
  unfold execBreakReceive State.breakHeard State.reachCut reachKept
  dsimp only
  split_ifs <;> rfl

/-- What a break changes beside its count. -/
def breakFields (st : Nat) : List Fld := [QLK_DRR_D_A, QLK_DRR_D_B, QLK_REACH_NODES st, QLK_TOPO_SPLIT st, QLK_TOPO_REACH_END st]

theorem breakFields_shape (st : Fin 2) : ∀ f ∈ breakFields st, f.shape = true ∧ f.page = 26 := by
  revert st; decide

theorem Effect.wr_break {t u : State} (st : Fin 2) {words : Nat → Bool} (h : Effect (keysOf (breakFields st)) words t u) {f : Fld} (v : Nat)
    (hf : f ∈ breakFields st) : Effect (keysOf (breakFields st)) words t (u.wr f v) := by
  obtain ⟨hshape, hpage⟩ := breakFields_shape st f hf
  exact h.trans (.wr words u f v (keysOf_mem hf) (plainKey_of hshape (.inr (by omega))))

theorem Effect.breakHeard (words : Nat → Bool) (s : State) (st : Fin 2) (tile side : Nat) :
    Effect (keysOf (breakFields st)) words (s.bump QLK_MG_CNT_BREAKS) (s.breakHeard st tile side) := by
  have hcount := Effect.refl (keysOf (breakFields st)) words (s.bump QLK_MG_CNT_BREAKS)
  have hcut : Effect (keysOf (breakFields st)) words (s.bump QLK_MG_CNT_BREAKS) (s.reachCut st tile side) :=
    hcount.wr_break st _ (by simp [breakFields])
  unfold State.breakHeard
  split_ifs
  · exact hcut.wr_break st _ (by simp [breakFields])
  · exact hcount
  · exact hcut.wr_break st _ (by simp [breakFields])
  · exact hcount
  · exact ((hcut.wr_break st _ (by simp [breakFields])).wr_break st _ (by simp [breakFields])).trans (.raise _ words _ 0x1A 8)
  · exact hcount

/-- A break is counted. -/
theorem State.breakHeard_count (s : State) (st : Fin 2) (tile side : Nat) :
    (s.breakHeard st tile side).rd QLK_MG_CNT_BREAKS = min (s.rd QLK_MG_CNT_BREAKS + 1) (2 ^ QLK_MG_CNT_BREAKS.w - 1) := by
  have hplain : plainKey QLK_MG_CNT_BREAKS.key = true := by decide
  have hother : keysOf (breakFields st) QLK_MG_CNT_BREAKS.key = false := by revert st; decide
  exact ((Effect.breakHeard (fun _ => false) s st tile side).rd hplain hother).trans (s.rd_bumpBy QLK_MG_CNT_BREAKS 1 (by decide))

/-- A sender's reach ends at the tile that reports the break, and RING_BREAK is raised. -/
theorem State.breakHeard_sender (s : State) (st : Fin 2) {tile : Nat} (side : Nat) (htile : tile < 64) (hs : s.isSender = true) :
    (s.breakHeard st tile side).rd (QLK_TOPO_SPLIT st) = 1 ∧ (s.breakHeard st tile side).rd (QLK_TOPO_REACH_END st) = tile ∧
      (s.breakHeard st tile side).flag 0x1A 8 = true ∧
      (s.breakHeard st tile side).rd (QLK_REACH_NODES st) = s.rd (QLK_REACH_NODES st) &&& reachKept tile side := by
  have htileRole : s.isTile = false := by
    simp only [State.isSender, State.isTile, beq_iff_eq, beq_eq_false_iff_ne] at hs ⊢
    omega
  have heq : s.breakHeard st tile side =
      (((s.reachCut st tile side).wr (QLK_TOPO_SPLIT st) 1).wr (QLK_TOPO_REACH_END st) tile).raise 0x1A 8 := by
    rw [State.breakHeard, htileRole, hs]
    rfl
  have hrd (f : Fld) (hf : f ∈ breakFields st) : (s.breakHeard st tile side).rd f =
      (((s.reachCut st tile side).wr (QLK_TOPO_SPLIT st) 1).wr (QLK_TOPO_REACH_END st) tile).rd f := by
    obtain ⟨hshape, hpage⟩ := breakFields_shape st f hf
    rw [heq, State.raise_rd _ _ _ _ (noteKey_of_plain (plainKey_of hshape (.inr (by omega))))]
  refine ⟨?_, ?_, ?_, ?_⟩
  · rw [hrd _ (by simp [breakFields]), State.rd_wr_ne _ _ (by simp only [Fld.key, QLK_TOPO_SPLIT, QLK_TOPO_REACH_END]; omega)]
    exact State.rd_wr_of _ _ 1 rfl (by decide) (by decide)
  · rw [hrd _ (by simp [breakFields])]
    exact State.rd_wr_of _ _ 6 rfl htile (by decide)
  · rw [heq]
    exact State.flag_raise _ 0x1A 8 (by decide)
  · rw [hrd _ (by simp [breakFields]), State.rd_wr_ne _ _ (by simp only [Fld.key, QLK_REACH_NODES, QLK_TOPO_REACH_END]; omega),
      State.rd_wr_ne _ _ (by simp only [Fld.key, QLK_REACH_NODES, QLK_TOPO_SPLIT]; omega)]
    have hreach : s.rd (QLK_REACH_NODES st) < 2 ^ 64 := BitVec.isLt _
    exact State.rd_wr_of _ (QLK_REACH_NODES st) 64 rfl (Nat.lt_of_le_of_lt Nat.and_le_left hreach) (by decide)

/-! ### Changes that reach into a side -/

/-- What `Effect` says with no window word in reach and nothing of the sides. -/
structure Reach (own : Nat → Bool) (s t : State) : Prop where
  regs : RegsKept own s t
  words : WordsKept (fun _ => false) s t
  quiet : s.quietMem → t.quietMem
  mem : s.quietMem → t.mem = s.mem
  grows : Grows s t

theorem Effect.reach {own : Nat → Bool} {s t : State} (h : Effect own (fun _ => false) s t) : Reach own s t :=
  ⟨h.regs, h.words, h.quiet, h.mem, h.grows⟩

namespace Reach
variable {own : Nat → Bool} {s t u : State}

theorem refl (own : Nat → Bool) (s : State) : Reach own s s := (Effect.refl own _ s).reach

theorem trans (h : Reach own s t) (k : Reach own t u) : Reach own s u where
  regs i ho hn := (k.regs i ho hn).trans (h.regs i ho hn)
  words i ho hn := (k.words i ho hn).trans (h.words i ho hn)
  quiet hs := k.quiet (h.quiet hs)
  mem hs := (k.mem (h.quiet hs)).trans (h.mem hs)
  grows := h.grows.trans k.grows

theorem mono {own' : Nat → Bool} (h : Reach own s t) (ho : ∀ k, own k = true → own' k = true) : Reach own' s t :=
  { h with regs := fun k hk => h.regs k (Bool.eq_false_iff.mpr fun e => Bool.eq_false_iff.mp hk (ho k e)) }

theorem step (h : Reach own s t) (k : Effect own (fun _ => false) t u) : Reach own s u := h.trans k.reach

theorem setSide (h : Reach own s t) (sd : Nat) (x : Side) : Reach own s (t.setSide sd x) :=
  ⟨h.regs, h.words, h.quiet, h.mem, h.grows.trans (.of_same rfl rfl)⟩

theorem setTimeLink (h : Reach own s t) (sd : Nat) (x : TimeLink) : Reach own s (t.setTimeLink sd x) :=
  ⟨h.regs, h.words, h.quiet, h.mem, h.grows.trans (.of_same rfl rfl)⟩

theorem wr (h : Reach own s t) {f : Fld} (v : Nat) (ho : own f.key = true) (hf : plainKey f.key = true) : Reach own s (t.wr f v) :=
  h.step (.wr _ t f v ho hf)

theorem rd (h : Reach own s t) {f : Fld} (hf : plainKey f.key = true) (ho : own f.key = false) : t.rd f = s.rd f := by
  rw [State.rd, h.regs _ ho (noteKey_of_plain hf), State.rd]

theorem kept (h : Reach own s t) : RegsKept own s t ∧ WordsKept (fun _ => false) s t ∧ (s.quietMem → t.mem = s.mem) :=
  ⟨h.regs, h.words, h.mem⟩

end Reach

/-- Whether every field of a list lies in one of some pages, none of which is that of the role, the queues or the recorder. -/
def fieldsIn (ps : List Nat) (fs : List Fld) : Bool :=
  fs.all fun f => f.shape && ps.contains f.page && !([0, 2, 10].contains f.page)

theorem fieldsIn_iff {ps : List Nat} {fs : List Fld} :
    fieldsIn ps fs = true ↔ ∀ f ∈ fs, f.shape = true ∧ f.page ∈ ps ∧ f.page ≠ 0 ∧ f.page ≠ 2 ∧ f.page ≠ 10 := by
  simp [fieldsIn, and_assoc]

theorem plainKey_of_fieldsIn {ps : List Nat} {fs : List Fld} (h : fieldsIn ps fs = true) {f : Fld} (hf : f ∈ fs) : plainKey f.key = true := by
  obtain ⟨hshape, -, hother⟩ := fieldsIn_iff.mp h f hf
  exact plainKey_of hshape (.inr hother)

theorem pagesOf_of_fieldsIn {ps : List Nat} {fs : List Fld} (h : fieldsIn ps fs = true) (k : Nat) (hk : keysOf fs k = true) :
    pagesOf ps k = true := by
  obtain ⟨f, hf, rfl⟩ := keysOf_iff.mp hk
  obtain ⟨hshape, hpage, -⟩ := fieldsIn_iff.mp h f hf
  exact (pagesOf_iff hshape).mpr hpage

/-! ### A side comes up (R120, R124, R141, R277) -/

/-- The fields that a side's coming up changes on its own page. -/
def assignFields (sd : Nat) : List Fld :=
  [QP_SIDE_STAT_STATE sd, QP_SIDE_STAT_N_ACT sd, QP_SIDE_STAT_SPARE sd] ++ (List.range 5).map (QP_LANE_STAT_LOG sd)

theorem assignFields_in (sd : Fin 2) : fieldsIn [0x18 + sd] (assignFields sd) = true := by revert sd; decide

theorem Reach.wr_assign {s t : State} {sd : Fin 2} (h : Reach (keysOf (assignFields sd)) s t) {f : Fld} (v : Nat) (hf : f ∈ assignFields sd) :
    Reach (keysOf (assignFields sd)) s (t.wr f v) := h.wr v (keysOf_mem hf) (plainKey_of_fieldsIn (assignFields_in sd) hf)

theorem Reach.assignLanes (s : State) (sd : Fin 2) : Reach (keysOf (assignFields sd)) s (s.assignLanes sd) := by
  unfold State.assignLanes
  extract_lets ups n far s1 s2 x
  have hlogs : Reach (keysOf (assignFields sd)) s s1 := by
    refine (Effect.each _ (fun u e he => ?_) s).reach
    have hlen : e.2 < 5 := by simpa [logMap] using List.snd_lt_of_mem_zipIdx he
    have hf : QP_LANE_STAT_LOG sd e.2 ∈ assignFields sd :=
      List.mem_append_right _ (List.mem_map_of_mem (List.mem_range.mpr hlen))
    exact .wr _ u _ _ (keysOf_mem hf) (plainKey_of_fieldsIn (assignFields_in sd) hf)
  exact ((hlogs.wr_assign _ (by simp [assignFields])).wr_assign _ (by simp [assignFields])).setSide _ _

/-- A side that is up, with its logical lanes, SIDE_UP raised and the time. -/
def State.sideRaised (s : State) (sd w : Nat) : State :=
  let u := ((s.assignLanes sd).wr (QP_SIDE_STAT_STATE sd) 2).raise (0x18 + sd) 4
  u.setSide sd { u.side sd with upAt := w }

theorem Reach.sideRaised (s : State) (sd : Fin 2) (w : Nat) : Reach (keysOf (assignFields sd)) s (s.sideRaised sd w) :=
  (((Reach.assignLanes s sd).wr_assign 2 (by simp [assignFields])).step (.raise _ _ _ _ 4)).setSide _ _

theorem State.sideRaised_up (s : State) (sd : Fin 2) (w : Nat) : (s.sideRaised sd w).rd (QP_SIDE_STAT_STATE sd) = 2 :=
  (State.raise_rd _ (0x18 + sd) 4 _ (noteKey_of_plain (plainKey_of_fieldsIn (assignFields_in sd) (by simp [assignFields])))).trans
    (State.rd_wr_of _ _ 2 rfl (by decide) (by decide))

theorem State.sideRaised_flag (s : State) (sd w : Nat) : (s.sideRaised sd w).flag (0x18 + sd) 4 = true := State.flag_raise _ _ 4 (by decide)

theorem State.sideRaised_upAt {s : State} (h : s.Inv) (sd : Fin 2) (w : Nat) : ((s.sideRaised sd w).side sd).upAt = w := by
  rw [State.sideRaised, State.side_setSide_self]
  exact State.Inv.side_lt (.raise (.wr (.assignLanes h))) sd

/-- A sender takes its node index on the ring and enters STARTING or SOLE. -/
def State.ringJoined (s : State) (sd w : Nat) : State :=
  ((((s.sideRaised sd w).wrM (QLK_TOPO_NODE sd) ((s.sideRaised sd w).nodeOn sd)).wrM (QLK_TOPO_NODE_VALID sd) 1).wrM
    (QLK_TOPO_RING sd) (s.ringOf sd)).wr (ARB_STAT_STATE sd) (if s.on (ARB_CFG_EN sd) = true ∨ s.rd FMC_MEM_STAT_FAIL ≠ 0 then 1 else 0)

/-- What a node of each role does when its side has come up. -/
def State.sideEntered (s : State) (sd w : Nat) : State :=
  if s.isTile then (s.sideRaised sd w).post 0x8007 [s.node + 64 * sd]
  else if s.isSender then (s.ringJoined sd w).when (s.on QLK_CFG_AUTO_ENUM && s.nodeOn sd == 0) (State.startWalk · sd)
  else s.sideRaised sd w

theorem exec_sideUp (s : State) (sd : Fin 2) (w : Nat) (hon : s.sideOn sd = true) (hdown : s.sideIsUp sd = false) (hok : s.upFails sd = false) :
    exec (.sideUp sd w) s = .next (s.sideEntered sd w) := by
  change execSideUp sd w s = _
  rw [execSideUp, if_pos ⟨hon, hdown, hok⟩]
  unfold State.sideEntered State.ringJoined State.sideRaised
  dsimp only
  split_ifs <;> rfl

/-- The fields that a sender's taking its place on the ring changes. -/
def joinFields (sd : Nat) : List Fld :=
  [QLK_TOPO_NODE sd, QLK_TOPO_NODE_VALID sd, QLK_TOPO_RING sd, ARB_STAT_STATE sd, NVS_SAVE_DIRTY]

theorem joinFields_in (sd : Fin 2) : fieldsIn [3, 9, 0x1A] (joinFields sd) = true := by revert sd; decide

theorem Effect.startWalk (own words : Nat → Bool) (s : State) (sd : Nat) : Effect own words s (s.startWalk sd) := by
  unfold State.startWalk
  split
  · exact (Effect.sendFolios own words s sd _).trans (.of_same rfl rfl rfl rfl rfl)
  · exact .refl own words s

theorem Effect.wrM_join (words : Nat → Bool) (s : State) {sd : Fin 2} {f : Fld} (v : Nat) (hf : f ∈ joinFields sd) :
    Effect (keysOf (joinFields sd)) words s (s.wrM f v) :=
  .wrM words s f v (keysOf_mem hf) (plainKey_of_fieldsIn (joinFields_in sd) hf) (keysOf_mem (by simp [joinFields]))

theorem Effect.ringJoined (words : Nat → Bool) (s : State) (sd : Fin 2) (w : Nat) :
    Effect (keysOf (joinFields sd)) words (s.sideRaised sd w) (s.ringJoined sd w) :=
  (((Effect.wrM_join words _ _ (by simp [joinFields])).trans (.wrM_join words _ 1 (by simp [joinFields]))).trans
    (.wrM_join words _ _ (by simp [joinFields]))).trans
    (.wr words _ _ _ (keysOf_mem (by simp [joinFields])) (plainKey_of_fieldsIn (joinFields_in sd) (by simp [joinFields])))

theorem Effect.sideEntered (words : Nat → Bool) (s : State) (sd : Fin 2) (w : Nat) :
    Effect (keysOf (joinFields sd)) words (s.sideRaised sd w) (s.sideEntered sd w) := by
  unfold State.sideEntered
  split_ifs
  · exact .post _ words _ _ _
  · exact (Effect.ringJoined words s sd w).when _ fun u => .startWalk _ words u sd
  · exact .refl _ words _

theorem SidesKept.upAt {s t : State} (h : SidesKept s t) (sd : Nat) : (t.side sd).upAt = (s.side sd).upAt := by
  have hcore (u : State) : (u.side sd).upAt = ((u.sides.map Side.core).getD sd Side.reset.core).upAt := by
    rw [List.getD_map]
    rfl
  rw [hcore, hcore, h]

theorem State.nodeOn_lt (s : State) (sd : Nat) : s.nodeOn sd < 64 := by
  unfold State.nodeOn senderNode
  split_ifs <;> decide

theorem State.ringJoined_node (s : State) (sd : Fin 2) (w : Nat) : (s.sideRaised sd w).nodeOn sd = s.nodeOn sd := by
  rw [State.nodeOn, State.nodeOn, (Reach.sideRaised s sd w).rd (by decide) (by revert sd; decide)]

/-- What the registers of a sender hold when it has taken its place on the ring. -/
theorem State.ringJoined_rd (s : State) (sd : Fin 2) (w : Nat) : (s.ringJoined sd w).rd (QLK_TOPO_NODE sd) = s.nodeOn sd ∧
    (s.ringJoined sd w).rd (QLK_TOPO_NODE_VALID sd) = 1 ∧ (s.ringJoined sd w).rd (QLK_TOPO_RING sd) = s.ringOf sd % 64 ∧
    (s.ringJoined sd w).rd (ARB_STAT_STATE sd) = if s.on (ARB_CFG_EN sd) = true ∨ s.rd FMC_MEM_STAT_FAIL ≠ 0 then 1 else 0 := by
  have hring : (QLK_TOPO_NODE sd).key ≠ (QLK_TOPO_RING sd).key ∧ (QLK_TOPO_NODE_VALID sd).key ≠ (QLK_TOPO_RING sd).key ∧
      (QLK_TOPO_NODE sd).key ≠ (QLK_TOPO_NODE_VALID sd).key := by revert sd; decide
  obtain ⟨hnr, hvr, hnv⟩ := hring
  have htopo : ∀ f ∈ [QLK_TOPO_NODE sd, QLK_TOPO_NODE_VALID sd, QLK_TOPO_RING sd],
      f.key ≠ NVS_SAVE_DIRTY.key ∧ f.key ≠ (ARB_STAT_STATE sd).key := by clear * -; revert sd; decide
  obtain ⟨hn, hna⟩ := htopo (QLK_TOPO_NODE sd) (by simp)
  obtain ⟨hv, hva⟩ := htopo (QLK_TOPO_NODE_VALID sd) (by simp)
  obtain ⟨hr, hra⟩ := htopo (QLK_TOPO_RING sd) (by simp)
  refine ⟨?_, ?_, ?_, ?_⟩
  · rw [State.ringJoined, State.rd_wr_ne _ _ hna, State.rd_wrM _ _ _ hn, State.rd_wr_ne _ _ hnr, State.rd_wrM _ _ _ hn, State.rd_wr_ne _ _ hnv,
      State.rd_wrM _ _ _ hn, s.ringJoined_node, State.rd_wr_of _ _ 6 rfl (s.nodeOn_lt sd) (by decide)]
  · rw [State.ringJoined, State.rd_wr_ne _ _ hva, State.rd_wrM _ _ _ hv, State.rd_wr_ne _ _ hvr, State.rd_wrM _ _ _ hv,
      State.rd_wr_of _ _ 1 rfl (by decide) (by decide)]
  · rw [State.ringJoined, State.rd_wr_ne _ _ hra, State.rd_wrM _ _ _ hr]
    exact State.rd_wr_mod _ (QLK_TOPO_RING sd) _ (show 6 ≤ 64 by decide)
  · exact State.rd_wr_of _ (ARB_STAT_STATE sd) 3 rfl (by split <;> decide) (by decide)

theorem State.sideEntered_rd (s : State) (sd : Fin 2) (w : Nat) (hs : s.isSender = true) {f : Fld} (hf : f ∈ joinFields sd) :
    (s.sideEntered sd w).rd f = (s.ringJoined sd w).rd f := by
  have htile : s.isTile = false := by
    simp only [State.isSender, State.isTile, beq_iff_eq, beq_eq_false_iff_ne] at hs ⊢
    omega
  rw [State.sideEntered, htile, hs]
  exact ((Effect.refl (fun _ => false) (fun _ => false) _).when _ fun u => .startWalk _ _ u sd).rd
    (plainKey_of_fieldsIn (joinFields_in sd) hf) rfl

/-- The side is up, whatever the node's role. -/
theorem State.sideEntered_up {s : State} (h : s.Inv) (sd : Fin 2) (w : Nat) : (s.sideEntered sd w).sideIsUp sd = true ∧
    (s.sideEntered sd w).flag (0x18 + sd) 4 = true ∧ ((s.sideEntered sd w).side sd).upAt = w := by
  have hplain : plainKey (QP_SIDE_STAT_STATE sd).key = true ∧ keysOf (joinFields sd) (QP_SIDE_STAT_STATE sd).key = false := by revert sd; decide
  have heff := Effect.sideEntered (fun _ => false) s sd w
  refine ⟨?_, heff.flag (s.sideRaised_flag sd w), ?_⟩
  · rw [State.sideIsUp, heff.rd hplain.1 hplain.2, s.sideRaised_up]
    rfl
  · rw [heff.sides.upAt, State.sideRaised_upAt h]

theorem Reach.sideEntered (s : State) (sd : Fin 2) (w : Nat) : Reach (pagesOf [3, 9, 0x18 + sd, 0x1A]) s (s.sideEntered sd w) := by
  have hup := (Reach.sideRaised s sd w).mono fun k hk =>
    pagesOf_mono (qs := [3, 9, 0x18 + sd, 0x1A]) (by simp) k (pagesOf_of_fieldsIn (assignFields_in sd) k hk)
  have hjoin := (Effect.sideEntered (fun _ => false) s sd w).reach.mono fun k hk =>
    pagesOf_mono (qs := [3, 9, 0x18 + sd, 0x1A]) (by simp) k (pagesOf_of_fieldsIn (joinFields_in sd) k hk)
  exact hup.trans hjoin

/-! ### A side goes down (R120, R150, R151) -/

/-- A lane carries no logical lane and is DOWN, but where it is retired. -/
def State.laneDown (s : State) (sd l : Nat) : State :=
  (s.wr (QP_LANE_STAT_LOG sd l) 7).when (s.lane sd l != 5) (State.setLane · sd l 0)

theorem State.lane_laneDown (s : State) (sd l : Nat) : (s.laneDown sd l).lane sd l = if s.lane sd l = 5 then 5 else 0 := by
  unfold State.laneDown
  by_cases h : s.lane sd l = 5
  · rw [h, if_pos rfl]
    exact (State.rd_wr_ne _ _ (by simp [Fld.key, QP_LANE_STAT_STATE, QP_LANE_STAT_LOG])).trans h
  · rw [if_neg h, bne_iff_ne.mpr h]
    exact State.lane_setLane _ sd l (by decide)

/-- The fields of a side's lanes that its going down changes. -/
def laneFields (sd : Nat) (ls : List Nat) : List Fld := ls.map (QP_LANE_STAT_LOG sd) ++ ls.map (QP_LANE_STAT_STATE sd)

theorem log_mem_laneFields (sd : Nat) {ls : List Nat} {l : Nat} (h : l ∈ ls) : QP_LANE_STAT_LOG sd l ∈ laneFields sd ls :=
  List.mem_append_left _ (List.mem_map_of_mem h)

theorem state_mem_laneFields (sd : Nat) {ls : List Nat} {l : Nat} (h : l ∈ ls) : QP_LANE_STAT_STATE sd l ∈ laneFields sd ls :=
  List.mem_append_right _ (List.mem_map_of_mem h)

theorem laneFields_in (sd : Fin 2) : fieldsIn [0x18 + sd] (laneFields sd (List.range 5)) = true := by revert sd; decide

theorem Effect.laneDown {ls : List Nat} (words : Nat → Bool) (s : State) (sd : Fin 2) {l : Nat} (h : l ∈ ls) (hl : l < 5) :
    Effect (keysOf (laneFields sd ls)) words s (s.laneDown sd l) := by
  have hplain {f : Fld} (hf : f ∈ laneFields sd (List.range 5)) : plainKey f.key = true := plainKey_of_fieldsIn (laneFields_in sd) hf
  have hl5 := List.mem_range.mpr hl
  exact (Effect.wr words s _ 7 (keysOf_mem (log_mem_laneFields sd h)) (hplain (log_mem_laneFields sd hl5))).when _ fun u =>
    .wr words u _ 0 (keysOf_mem (state_mem_laneFields sd h)) (hplain (state_mem_laneFields sd hl5))

theorem Effect.lanesDown {ls : List Nat} (words : Nat → Bool) (s : State) (sd : Fin 2) (h : ls ⊆ List.range 5) :
    Effect (keysOf (laneFields sd ls)) words s (s.each ls (State.laneDown · sd ·)) :=
  .each ls (fun u _ hl => .laneDown words u sd hl (List.mem_range.mp (h hl))) s

/-- The lanes' going down leaves the state of every other lane. -/
theorem State.lane_each_laneDown {ls : List Nat} (s : State) (sd : Fin 2) (h : ls ⊆ List.range 5) {l : Nat} (hl : l < 5) (hout : l ∉ ls) :
    (s.each ls (State.laneDown · sd ·)).lane sd l = s.lane sd l := by
  refine (Effect.lanesDown (fun _ => false) s sd h).rd
    (plainKey_of_fieldsIn (laneFields_in sd) (state_mem_laneFields sd (List.mem_range.mpr hl))) (Bool.eq_false_iff.mpr fun hk => ?_)
  obtain ⟨f, hf, hkey⟩ := keysOf_iff.mp hk
  simp only [laneFields, List.mem_append, List.mem_map] at hf
  rcases hf with ⟨m, hm, rfl⟩ | ⟨m, hm, rfl⟩
  · simp only [Fld.key, QP_LANE_STAT_LOG, QP_LANE_STAT_STATE] at hkey
    omega
  · have : m = l := by
      simp only [Fld.key, QP_LANE_STAT_STATE] at hkey
      omega
    exact hout (this ▸ hm)

theorem State.rd_lanesDown (s : State) (sd : Nat) (f : Fld) :
    (s.lanesDown sd).rd f = (s.each (List.range 5) (State.laneDown · sd ·)).rd f := by
  unfold State.lanesDown State.laneDown
  rw [State.rd_setSide, State.rd_setSide]

theorem State.lane_lanesDown (s : State) (sd : Fin 2) {l : Nat} (hl : l < 5) :
    (s.lanesDown sd).lane sd l = if s.lane sd l = 5 then 5 else 0 := by
  obtain ⟨l1, l2, hs1, hs2, h1, h2, heq⟩ := State.each_at (List.nodup_range (n := 5)) (List.mem_range.mpr hl) (State.laneDown · sd ·) s
  have hlane : (s.lanesDown sd).lane sd l = (s.each (List.range 5) (State.laneDown · sd ·)).lane sd l := s.rd_lanesDown sd _
  rw [hlane, heq, State.lane_each_laneDown _ sd hs2 hl h2, State.lane_laneDown, State.lane_each_laneDown s sd hs1 hl h1]

/-- The fields of a side's bring-up but those of its lanes. -/
def bringUpFields (sd : Nat) : List Fld :=
  [WTU_RING_OFS_VALID, WTU_LINK_SETTLING sd, QP_SIDE_STAT_STATE sd, QP_SIDE_STAT_RATE sd, QP_SIDE_STAT_N_ACT sd, QP_SIDE_STAT_SPARE sd,
   QP_SIDE_STAT_SWAP_PEND sd, QP_SIDE_STAT_FAR_RX_UP sd, QP_SIDE_STAT_ATTEMPTS sd]

theorem bringUpFields_in (sd : Fin 2) : fieldsIn [8, 0x18 + sd] (bringUpFields sd) = true := by revert sd; decide

theorem Reach.wr_bringUp {s t : State} {sd : Fin 2} (h : Reach (keysOf (bringUpFields sd)) s t) {f : Fld} (v : Nat)
    (hf : f ∈ bringUpFields sd) : Reach (keysOf (bringUpFields sd)) s (t.wr f v) :=
  h.wr v (keysOf_mem hf) (plainKey_of_fieldsIn (bringUpFields_in sd) hf)

/-- After its lanes a side's restart changes its bring-up alone. -/
theorem Reach.restartSide (s : State) (sd : Fin 2) : Reach (keysOf (bringUpFields sd)) (s.lanesDown sd) (s.restartSide sd) := by
  have hlink := (Reach.refl (keysOf (bringUpFields sd)) (s.lanesDown sd)).setTimeLink sd TimeLink.reset
  have hwtu := (hlink.wr_bringUp 0 (f := WTU_RING_OFS_VALID) (by simp [bringUpFields])).wr_bringUp 0
    (f := WTU_LINK_SETTLING sd) (by simp [bringUpFields])
  have hrate := (hwtu.wr_bringUp 0 (f := QP_SIDE_STAT_STATE sd) (by simp [bringUpFields])).wr_bringUp (s.rd (QP_CFG_RATE_START sd))
    (f := QP_SIDE_STAT_RATE sd) (by simp [bringUpFields])
  have hlanes := ((hrate.wr_bringUp 0 (f := QP_SIDE_STAT_N_ACT sd) (by simp [bringUpFields])).wr_bringUp 7
    (f := QP_SIDE_STAT_SPARE sd) (by simp [bringUpFields])).wr_bringUp 0 (f := QP_SIDE_STAT_SWAP_PEND sd) (by simp [bringUpFields])
  exact (hlanes.wr_bringUp 0 (f := QP_SIDE_STAT_FAR_RX_UP sd) (by simp [bringUpFields])).wr_bringUp 0
    (f := QP_SIDE_STAT_ATTEMPTS sd) (by simp [bringUpFields])

theorem State.lane_restartSide (s : State) (sd : Fin 2) {l : Nat} (hl : l < 5) :
    (s.restartSide sd).lane sd l = if s.lane sd l = 5 then 5 else 0 := by
  have hother : keysOf (bringUpFields sd) (QP_LANE_STAT_STATE sd l).key = false := by
    simp only [keysOf, bringUpFields, List.any_cons, List.any_nil, Bool.or_false, Bool.or_eq_false_iff, beq_eq_false_iff_ne, Fld.key,
      WTU_RING_OFS_VALID, WTU_LINK_SETTLING, QP_SIDE_STAT_STATE, QP_SIDE_STAT_RATE, QP_SIDE_STAT_N_ACT, QP_SIDE_STAT_SPARE,
      QP_SIDE_STAT_SWAP_PEND, QP_SIDE_STAT_FAR_RX_UP, QP_SIDE_STAT_ATTEMPTS, QP_LANE_STAT_STATE]
    omega
  rw [State.lane, (Reach.restartSide s sd).rd (plainKey_of_fieldsIn (laneFields_in sd) (state_mem_laneFields sd (List.mem_range.mpr hl))) hother]
  exact s.lane_lanesDown sd hl

/-- What the side's registers hold as its bring-up restarts. -/
theorem State.restartSide_rd (s : State) (sd : Fin 2) : (s.restartSide sd).rd (QP_SIDE_STAT_STATE sd) = 0 ∧
    (s.restartSide sd).rd (QP_SIDE_STAT_RATE sd) = s.rd (QP_CFG_RATE_START sd) % 4 ∧ (s.restartSide sd).rd WTU_RING_OFS_VALID = 0 := by
  simp only [State.restartSide, State.rd_wr, Fld.key, WTU_RING_OFS_VALID, WTU_LINK_SETTLING, QP_SIDE_STAT_STATE, QP_SIDE_STAT_RATE,
    QP_SIDE_STAT_N_ACT, QP_SIDE_STAT_SPARE, QP_SIDE_STAT_SWAP_PEND, QP_SIDE_STAT_FAR_RX_UP, QP_SIDE_STAT_ATTEMPTS]
  refine ⟨?_, ?_, ?_⟩ <;> split_ifs <;> omega

theorem Reach.lanesDown (s : State) (sd : Fin 2) : Reach (keysOf (laneFields sd (List.range 5))) s (s.lanesDown sd) := by
  have hlanes := (Effect.lanesDown (fun _ => false) s sd (List.Subset.refl (List.range 5))).reach
  unfold State.laneDown at hlanes
  exact (hlanes.setSide _ _).setSide _ _

theorem Reach.restarted (s : State) (sd : Fin 2) : Reach (pagesOf [8, 0x18 + sd]) s (s.restartSide sd) := by
  exact ((Reach.lanesDown s sd).mono fun k hk => pagesOf_mono (by simp) k (pagesOf_of_fieldsIn (laneFields_in sd) k hk)).trans
    ((Reach.restartSide s sd).mono (pagesOf_of_fieldsIn (bringUpFields_in sd)))

/-- A side's bring-up restarts, the loss is counted, and SIDE_DOWN is raised. -/
def State.sideLost (s : State) (sd : Nat) : State := ((s.restartSide sd).bump (QP_CNT_SIDE_DOWNS sd)).raise (0x18 + sd) 5

theorem sideDowns_plain (sd : Fin 2) : plainKey (QP_CNT_SIDE_DOWNS sd).key = true := by revert sd; decide

theorem Reach.sideLost (s : State) (sd : Fin 2) : Reach (pagesOf [8, 0x18 + sd]) s (s.sideLost sd) :=
  ((Reach.restarted s sd).step (.bump _ _ _ ((pagesOf_iff (by revert sd; decide)).mpr (by simp [QP_CNT_SIDE_DOWNS])) (sideDowns_plain sd))).step
    (.raise _ _ _ _ 5)

theorem State.sideLost_rd (s : State) (sd : Fin 2) {f : Fld} (hf : plainKey f.key = true) (hc : f.key ≠ (QP_CNT_SIDE_DOWNS sd).key) :
    (s.sideLost sd).rd f = (s.restartSide sd).rd f :=
  (State.raise_rd _ _ 5 f (noteKey_of_plain hf)).trans (State.rd_wr_ne _ _ hc)

theorem State.sideLost_count (s : State) (sd : Fin 2) :
    (s.sideLost sd).rd (QP_CNT_SIDE_DOWNS sd) = min (s.rd (QP_CNT_SIDE_DOWNS sd) + 1) 65535 := by
  have hout : keysOf (laneFields sd (List.range 5)) (QP_CNT_SIDE_DOWNS sd).key = false ∧
      keysOf (bringUpFields sd) (QP_CNT_SIDE_DOWNS sd).key = false := by clear * -; revert sd; decide
  have hlanes : (s.lanesDown sd).rd (QP_CNT_SIDE_DOWNS sd) = s.rd (QP_CNT_SIDE_DOWNS sd) :=
    (Reach.lanesDown s sd).rd (sideDowns_plain sd) hout.1
  calc (s.sideLost sd).rd (QP_CNT_SIDE_DOWNS sd)
    _ = ((s.restartSide sd).bump (QP_CNT_SIDE_DOWNS sd)).rd (QP_CNT_SIDE_DOWNS sd) := State.raise_rd _ _ 5 _ (noteKey_of_plain (sideDowns_plain sd))
    _ = min ((s.restartSide sd).rd (QP_CNT_SIDE_DOWNS sd) + 1) 65535 := State.rd_bumpBy _ (QP_CNT_SIDE_DOWNS sd) 1 (show 16 ≤ 64 by decide)
    _ = min (s.rd (QP_CNT_SIDE_DOWNS sd) + 1) 65535 := by rw [(Reach.restartSide s sd).rd (sideDowns_plain sd) hout.2, hlanes]

/-- What a tile's loss of a side changes beside the side. -/
def sideLossFields (sd : Nat) : List Fld := [okFld sd, whyFld sd, QLK_MG_CNT_BREAKS, QLK_DRR_D_A, QLK_DRR_D_B, QLK_REACH_NODES sd]

theorem sideLossFields_in (sd : Fin 2) : fieldsIn [0x1A] (sideLossFields sd) = true := by revert sd; decide

/-- A tile whose side is lost: the stream is lost, and the break counted. -/
def State.breakMade (s : State) (sd : Nat) : State :=
  let u := ((s.sideLost sd).loseStream sd 0).bump QLK_MG_CNT_BREAKS
  { u with link := { u.link with walked := u.link.walked && sd != 0 } }

/-- A tile reaches no node through the side, and sends BREAK. -/
def State.sideCut (s : State) (sd : Nat) : State :=
  (((s.breakMade sd).wr (if sd = 1 then QLK_DRR_D_A else QLK_DRR_D_B) 0).wr (QLK_REACH_NODES sd) 0).post 0x8006 [s.node + 64 * sd]

theorem State.takeDown_eq (s : State) (sd : Nat) : s.takeDown sd = if s.isTile then s.sideCut sd else s.sideLost sd := rfl

theorem Effect.breakMade (words : Nat → Bool) (s : State) (sd : Fin 2) :
    Effect (keysOf (sideLossFields sd)) words (s.sideLost sd) (s.breakMade sd) := by
  have hcount : QLK_MG_CNT_BREAKS ∈ sideLossFields sd := by simp [sideLossFields]
  have hstream := Effect.loseStream (own := keysOf (sideLossFields sd)) words (s.sideLost sd) sd 0 (keysOf_mem (by simp [sideLossFields]))
    (keysOf_mem (by simp [sideLossFields]))
  exact (hstream.trans (.bump words _ _ (keysOf_mem hcount) (plainKey_of_fieldsIn (sideLossFields_in sd) hcount))).trans
    (.of_same rfl rfl rfl rfl rfl)

theorem Effect.sideCut (words : Nat → Bool) (s : State) (sd : Fin 2) :
    Effect (keysOf (sideLossFields sd)) words (s.sideLost sd) (s.sideCut sd) := by
  have hwr (u : State) {f : Fld} (hf : f ∈ sideLossFields sd) : Effect (keysOf (sideLossFields sd)) words u (u.wr f 0) :=
    .wr words u f 0 (keysOf_mem hf) (plainKey_of_fieldsIn (sideLossFields_in sd) hf)
  have hdist : (if sd.val = 1 then QLK_DRR_D_A else QLK_DRR_D_B) ∈ sideLossFields sd := by split <;> simp [sideLossFields]
  exact (((Effect.breakMade words s sd).trans (hwr _ hdist)).trans (hwr _ (by simp [sideLossFields]))).trans (.post _ words _ _ _)

theorem Effect.takeDown (words : Nat → Bool) (s : State) (sd : Fin 2) :
    Effect (keysOf (sideLossFields sd)) words (s.sideLost sd) (s.takeDown sd) := by
  rw [State.takeDown_eq]
  split
  · exact .sideCut words s sd
  · exact .refl _ words _

/-- What a node's registers and lanes hold of a side that went down. -/
theorem State.takeDown_side (s : State) (sd : Fin 2) : (s.takeDown sd).rd (QP_SIDE_STAT_STATE sd) = 0 ∧
    (∀ l < 5, (s.takeDown sd).lane sd l = if s.lane sd l = 5 then 5 else 0) ∧
    (s.takeDown sd).rd (QP_SIDE_STAT_RATE sd) = s.rd (QP_CFG_RATE_START sd) % 4 ∧ (s.takeDown sd).rd WTU_RING_OFS_VALID = 0 ∧
    (s.takeDown sd).flag (0x18 + sd) 5 = true ∧
    (s.takeDown sd).rd (QP_CNT_SIDE_DOWNS sd) = min (s.rd (QP_CNT_SIDE_DOWNS sd) + 1) 65535 := by
  have hout : ∀ f ∈ QP_CNT_SIDE_DOWNS sd :: (bringUpFields sd ++ laneFields sd (List.range 5)), keysOf (sideLossFields sd) f.key = false := by
    clear * -; revert sd; decide
  have hcount : ∀ f ∈ bringUpFields sd ++ laneFields sd (List.range 5), plainKey f.key = true ∧ f.key ≠ (QP_CNT_SIDE_DOWNS sd).key := by
    clear * -; revert sd; decide
  have hdown := Effect.takeDown (fun _ => false) s sd
  have hrd (f : Fld) (hf : f ∈ bringUpFields sd ++ laneFields sd (List.range 5)) : (s.takeDown sd).rd f = (s.restartSide sd).rd f := by
    obtain ⟨hplain, hne⟩ := hcount f hf
    rw [hdown.rd hplain (hout f (List.mem_cons_of_mem _ hf)), s.sideLost_rd sd hplain hne]
  obtain ⟨hstate, hrate, hofs⟩ := s.restartSide_rd sd
  refine ⟨?_, fun l hl => ?_, ?_, ?_, hdown.flag (State.flag_raise _ _ 5 (by decide)), ?_⟩
  · rw [hrd _ (by simp [bringUpFields]), hstate]
  · rw [State.lane, hrd _ (List.mem_append_right _ (state_mem_laneFields sd (List.mem_range.mpr hl)))]
    exact s.lane_restartSide sd hl
  · rw [hrd _ (by simp [bringUpFields]), hrate]
  · rw [hrd _ (by simp [bringUpFields]), hofs]
  · rw [hdown.rd (sideDowns_plain sd) (hout _ List.mem_cons_self), s.sideLost_count]

theorem Reach.takeDown (s : State) (sd : Fin 2) : Reach (pagesOf [8, 0x18 + sd, 0x1A]) s (s.takeDown sd) :=
  ((Reach.sideLost s sd).mono (pagesOf_mono (by simp))).trans
    ((Effect.takeDown (fun _ => false) s sd).reach.mono fun k hk => pagesOf_mono (by simp) k (pagesOf_of_fieldsIn (sideLossFields_in sd) k hk))

theorem State.rd_sideLost_other (s : State) (sd : Fin 2) {f : Fld} (hf : noteKey f.key = false) (hp : pagesOf [8, 0x18 + sd] f.key = false) :
    (s.sideLost sd).rd f = s.rd f := by rw [State.rd, (Reach.sideLost s sd).regs _ hp hf, State.rd]

/-- A tile loses the stream of the side that went down, and reaches no node through it. -/
theorem State.takeDown_tile (s : State) (sd : Fin 2) (ht : s.isTile = true) :
    (s.on (okFld sd) = true → (s.takeDown sd).on (okFld sd) = false) ∧ (s.takeDown sd).rd (QLK_REACH_NODES sd) = 0 := by
  have hother : (okFld sd).key ≠ (QLK_REACH_NODES sd).key ∧ (okFld sd).key ≠ (if sd.val = 1 then QLK_DRR_D_A else QLK_DRR_D_B).key ∧
      (okFld sd).key ≠ QLK_MG_CNT_BREAKS.key := by clear * -; revert sd; decide
  have hpages : pagesOf [8, 0x18 + sd.val] HIF_STRAP_STAT_ROLE.key = false ∧ pagesOf [8, 0x18 + sd.val] (okFld sd).key = false := by
    clear * -; revert sd; decide
  have hreach : plainKey (QLK_REACH_NODES sd).key = true := plainKey_of_fieldsIn (sideLossFields_in sd) (by simp [sideLossFields])
  obtain ⟨hr, hd, hb⟩ := hother
  obtain ⟨hrole, hokPage⟩ := hpages
  rw [State.takeDown_eq, if_pos ht]
  refine ⟨fun hok => ?_, ?_⟩
  · have htile : (s.sideLost sd).isTile = true := by
      rw [State.isTile, State.role, s.rd_sideLost_other sd (by decide) hrole]
      exact ht
    have hon : (s.sideLost sd).on (okFld sd) = true := by
      rw [State.on, s.rd_sideLost_other sd (noteKey_of_plain (okFld_plain sd)) hokPage]
      exact hok
    obtain ⟨hlost, -, -⟩ := (s.sideLost sd).loseStream_lost sd (why := 0) (by decide) htile hon
    have hbreak : (s.breakMade sd).rd (okFld sd) = ((s.sideLost sd).loseStream sd 0).rd (okFld sd) := State.rd_wr_ne _ _ hb
    rw [State.on, State.sideCut, State.post_rd _ _ _ _ (noteKey_of_plain (okFld_plain sd)), State.rd_wr_ne _ _ hr, State.rd_wr_ne _ _ hd, hbreak]
    exact hlost
  · rw [State.sideCut, State.post_rd _ _ _ _ (noteKey_of_plain hreach)]
    exact State.rd_wr_of _ (QLK_REACH_NODES sd) 64 rfl (by decide) (by decide)

theorem exec_sideDown (s : State) (sd : Fin 2) (hup : s.sideIsUp sd = true) (hfail : s.upFails sd = true) :
    exec (.sideDown sd) s = .next (s.takeDown sd) := by
  change execSideDown sd s = _
  rw [execSideDown, if_pos ⟨hup, hfail⟩]

/-! ### The statement -/

theorem exec_streamRestore (s : State) (st : Fin 2) (ht : s.isTile = true) (hup : s.sideIsUp st = true) :
    exec (.streamRestore st) s = .next (s.wr (okFld st) 1) := by
  change execStreamRestore st s = _
  rw [execStreamRestore, if_pos ⟨ht, hup⟩]

/-- A tile that forwards a BREAK event takes its distance from the break on the side the event tells of. -/
theorem State.breakHeard_tile (s : State) (st : Nat) (tile side : Nat) (ht : s.isTile = true) :
    (side = 1 → s.rd (QLK_TOPO_NODE 0) ≤ tile →
      (s.breakHeard st tile side).rd QLK_DRR_D_A = (tile - s.rd (QLK_TOPO_NODE 0)) % 64) ∧
    (side = 0 → tile ≤ s.rd (QLK_TOPO_NODE 0) →
      (s.breakHeard st tile side).rd QLK_DRR_D_B = (s.rd (QLK_TOPO_NODE 0) - tile) % 64) := by
  refine ⟨fun hs hn => ?_, fun hs hn => ?_⟩
  · rw [State.breakHeard, if_pos ht, if_pos hs, if_pos hn]
    exact State.rd_wr_mod _ QLK_DRR_D_A _ (by decide)
  · rw [State.breakHeard, if_pos ht, if_neg (by omega), if_pos hn]
    exact State.rd_wr_mod _ QLK_DRR_D_B _ (by decide)

theorem Effect.breakReceive (s : State) (st : Fin 2) (tile side : Nat) :
    Effect (keysOf (QLK_MG_CNT_BREAKS :: breakFields st)) (fun _ => false) s (s.breakHeard st tile side) :=
  (Effect.bump _ s _ (keysOf_mem List.mem_cons_self) (by decide)).trans
    ((Effect.breakHeard _ s st tile side).mono (keysOf_subset (List.subset_cons_self _ _)) fun _ h => h)

/-- Settles O15: each command has one result state; what it leaves in the registers and what it can reach are the lemmas above. -/
theorem sidesAndStreams : Obligations.SidesAndStreams := by
  unfold Obligations.SidesAndStreams
  refine ⟨fun s sd hinv => ⟨fun w hon hdown hok => ?_, fun hup hfail => ?_⟩,
    fun s st => ⟨fun ht hok => ?_, exec_streamRestore s st, fun k side => ?_⟩⟩
  case refine_1 =>
    obtain ⟨hup, hflag, hat⟩ := State.sideEntered_up hinv sd w
    refine ⟨_, exec_sideUp s sd w hon hdown hok, hup, hflag, hat, fun hs => ?_, (Reach.sideEntered s sd w).kept⟩
    rw [s.sideEntered_rd sd w hs (by simp [joinFields]), s.sideEntered_rd sd w hs (by simp [joinFields]),
      s.sideEntered_rd sd w hs (by simp [joinFields]), s.sideEntered_rd sd w hs (by simp [joinFields])]
    exact s.ringJoined_rd sd w
  case refine_2 =>
    obtain ⟨hstate, hlanes, hrate, hofs, hflag, hcount⟩ := s.takeDown_side sd
    exact ⟨_, exec_sideDown s sd hup hfail, hstate, hlanes, hrate, hofs, hflag, hcount, fun ht => (s.takeDown_tile sd ht).1,
      fun ht => (s.takeDown_tile sd ht).2, (Reach.takeDown s sd).kept⟩
  case refine_3 =>
    obtain ⟨hlost, hwhy, hflag⟩ := s.loseStream_lost st (why := 1) (by decide) ht hok
    exact ⟨_, rfl, hlost, hwhy, hflag, (Effect.loseStream _ s st 1 (keysOf_mem (by simp)) (keysOf_mem (by simp))).kept⟩
  case refine_4 =>
    obtain ⟨hregs, hwords, hsides, hmem⟩ := (Effect.breakReceive s st k.toNat side).kept
    exact ⟨_, exec_breakReceive s st k side, s.breakHeard_count st k.toNat side, fun ht => (s.breakHeard_tile st k.toNat side ht).1,
      fun ht => (s.breakHeard_tile st k.toNat side ht).2, s.breakHeard_sender st side k.isLt, hregs, hsides, hwords, hmem⟩

end Sys2Proof.Machine
end

