-- ==== Sys2Proof/Proofs/ArrivalCounterexamples.lean ====
section
/-! SUPPORT. States that hold a register value too wide for its field, on which the statements about folios (R131, R135) and about signatures at
a tile (R137, R186) fail. -/

namespace Sys2Proof.Machine

/-! ### A folio of an allowed stream (R131, R135) -/

/-- A part whose side A runs, and whose count of folios of a wrong type reads 65536 where it is 16 bits wide. -/
def badTypesAstray : State :=
  { State.reset with live := (Tbl.set [] (BLK_CTRL_EN 0x18).key 1).set (QLK_FOLIO_CNT_BADTYPE 0).key 65536 }

theorem badTypesAstray_inv : badTypesAstray.Inv := invariantAtReset.of_tables_sides (by decide +kernel) invariantAtReset.win rfl

/-- The counter saturates below what it reads, and side A awaits no sequence. -/
theorem badTypesAstray_rd : badTypesAstray.rd (QLK_FOLIO_CNT_BADTYPE 0) = 65536 ∧ badTypesAstray.sideOn 0 = true ∧
    (badTypesAstray.side 0).rxHeld = [] ∧ (badTypesAstray.side 0).rxNext = none := by decide +kernel

/-- An idle folio, which every stream allows, is not counted. -/
theorem badTypesAstray_count :
    seenAfter (.folioReceive 0 0 (mkFolio 0 0 0 false false false []) true 0) badTypesAstray (·.rd (QLK_FOLIO_CNT_BADTYPE 0)) = some 65536 := by
  decide +kernel

/-- Refutes O17: the statement ranges over states whose fields hold values too wide for them. In `badTypesAstray` the count of folios of a
wrong type does, which no write of the part brings about: a folio of an allowed stream leaves it as it is, where the statement has it
saturate. -/
theorem not_foliosAndFragments : ¬ Obligations.FoliosAndFragments := by
  obtain ⟨hbefore, hon, hheld, hnext⟩ := badTypesAstray_rd
  have hinv := badTypesAstray_inv
  have hafter := badTypesAstray_count
  generalize badTypesAstray = s at hbefore hon hheld hnext hinv hafter
  intro h
  obtain ⟨hfolio, -⟩ := h s hinv
  obtain ⟨-, hdecoded⟩ := hfolio 0 0 (mkFolio 0 0 0 false false false []) 0 hon
  obtain ⟨t, ht, -, hcount, -⟩ := hdecoded hheld (.inl hnext)
  have hsat : t.rd (QLK_FOLIO_CNT_BADTYPE 0) ≤ 65535 := hcount ▸ Nat.min_le_right _ _
  have hkept : t.rd (QLK_FOLIO_CNT_BADTYPE 0) = 65536 := Option.some.inj ((seenAfter_next _ ht).symm.trans hafter)
  omega

/-! ### A header of the frame that runs (R137, R186) -/

/-- A tile whose FRAME_NO reads 2^48 where it is 48 bits wide. Its grid is 0 by 0, and stream A is the one it shows. -/
def tileAstray : State := { State.reset with live := Tbl.set [] WTU_FRAME_FRAME_NO.key (2 ^ 48) }

theorem tileAstray_inv : tileAstray.Inv := invariantAtReset.of_tables_sides (by decide +kernel) invariantAtReset.win rfl

theorem tileAstray_rd : tileAstray.isTile = true ∧ tileAstray.dataOn = true ∧ tileAstray.frame = 2 ^ 48 ∧ tileAstray.feeds = 1 ∧
    tileAstray.gridW = 0 ∧ tileAstray.gridH = 0 ∧ tileAstray.rd TFS_RX_SEL = 0 := by decide +kernel

/-- A header of zeros is of its frame, feed and grid, and RX_STAT shows the frame's low 48 bits. -/
theorem tileAstray_frame : seenAfter (.sigHdrReceive 0 [] 0) tileAstray (·.rd TFS_RX_STAT_FRAME) = some 0 := by decide +kernel

/-- Refutes O22: the statement ranges over states whose fields hold values too wide for them. In `tileAstray` FRAME_NO does, which no write of
the part brings about: RX_STAT.FRAME, of 48 bits as well, does not show it whole after a header of the frame. -/
theorem not_signaturesArrive : ¬ Obligations.SignaturesArrive := by
  obtain ⟨htile, hdata, hframe, hfeeds, hw, hh, hsel⟩ := tileAstray_rd
  have hinv := tileAstray_inv
  have hafter := tileAstray_frame
  generalize tileAstray = s at htile hdata hframe hfeeds hw hh hsel hinv hafter
  intro h
  obtain ⟨hheader, -⟩ := h s 0 hinv
  obtain ⟨t, g, ht, -, -, -, -, -, huse, -, -, hshown, -⟩ := hheader [] 0 htile hdata
  have hused : g.use = true := huse.mpr (by simp [hframe, hfeeds, hw, hh])
  have hframeShown : t.rd TFS_RX_STAT_FRAME = 2 ^ 48 := (hshown hused hsel.symm).trans hframe
  rw [seenAfter_next _ ht, hframeShown] at hafter
  cases hafter

end Sys2Proof.Machine
end

