-- ==== Sys2Proof/Proofs/FoliosLeave.lean ====
section
/-! SUPPORT. A folio of class 1 that is sent leaves within the command: no slot passes it by (R132, R133). -/

namespace Sys2Proof.Machine

/-! ### Slots of class 1 (R132, R133) -/

/-- Of a pixel folio's slot: what of class 1 waits goes on waiting. -/
theorem Side.takePix_waits {x y : Side} {f : Folio} (h : x.takePix = some (f, y)) : y.txC1 = x.txC1 ∧ y.waiting < x.waiting := by
  unfold Side.takePix at h
  split at h
  · cases h
  case h_2 hpix =>
    cases h
    refine ⟨rfl, ?_⟩
    simp only [Side.waiting, hpix, List.length_cons]
    omega

/-- Where a folio of class 1 waits that may leave on any lane, one of them takes the slot of its class. -/
theorem Side.takeC1_waits {x : Side} {g : Folio} (hg : g ∈ x.txC1) (ht : g.typ ≠ 7) :
    ∃ f y, x.takeC1 = some (f, y) ∧ (f = g ∨ g ∈ y.txC1) ∧ y.waiting < x.waiting := by
  have hfound : (x.txC1.findIdx? fun f => f.typ != 7 || x.txSeq % max 1 x.txAct == 0).isSome = true := by
    rw [List.findIdx?_isSome, List.any_eq_true]
    exact ⟨g, hg, Bool.or_eq_true_iff.mpr (.inl (bne_iff_ne.mpr ht))⟩
  obtain ⟨i, hi⟩ := Option.isSome_iff_exists.mp hfound
  obtain ⟨hlt, -⟩ := List.findIdx?_eq_some_iff_getElem.mp hi
  refine ⟨x.txC1[i], { x with txC1 := x.txC1.eraseIdx i }, ?_, ?_, ?_⟩
  · rw [Side.takeC1, hi]
    simp only [List.getElem?_eq_getElem hlt, Option.map_some]
  · obtain ⟨j, hj, hget⟩ := List.getElem_of_mem hg
    by_cases hij : j = i
    · subst hij
      exact .inl hget
    · exact .inr (List.mem_eraseIdx_iff_getElem.mpr ⟨j, hj, hij, hget⟩)
  · simp only [Side.waiting, List.length_eraseIdx_of_lt hlt]
    omega

/-- Each slot then carries a folio that waited. -/
theorem Side.slot_waits {x : Side} {g : Folio} (d : Nat) (idle : Folio) (hg : g ∈ x.txC1) (ht : g.typ ≠ 7) :
    ∃ f y, x.slot d idle = some (f, y) ∧ (f = g ∨ g ∈ y.txC1) ∧ y.waiting < x.waiting := by
  obtain ⟨f, y, hc1, hleft, hless⟩ := Side.takeC1_waits hg ht
  unfold Side.slot
  by_cases hseq : x.txSeq % 16 = 15
  · exact ⟨f, y, by simp [hseq, hc1], hleft, hless⟩
  · cases hpix : x.takePix with
    | none => exact ⟨f, y, by simp [hseq, hc1], hleft, hless⟩
    | some p =>
      obtain ⟨htx, hfewer⟩ := Side.takePix_waits hpix
      exact ⟨p.1, p.2, by simp [hseq], .inr (htx ▸ hg), hfewer⟩

/-- As many slots as there are folios let it leave. -/
theorem Side.drain_leaves {g : Folio} (d inv : Nat) (idle : Folio) (ht : g.typ ≠ 7) (n : Nat) (x : Side) (hg : g ∈ x.txC1)
    (hn : x.waiting ≤ n) : ∃ e ∈ (x.drain d inv idle n).1, e.1.typ = g.typ ∧ e.1.words = g.words := by
  induction n generalizing x with
  | zero =>
    obtain ⟨f, y, -, -, hless⟩ := Side.slot_waits d idle hg ht
    omega
  | succ n ih =>
    obtain ⟨f, y, hslot, hleft, hless⟩ := Side.slot_waits d idle hg ht
    rw [Side.drain, hslot]
    rcases hleft with rfl | hin
    · exact ⟨_, List.mem_cons_self, rfl, rfl⟩
    · obtain ⟨e, he, hkept⟩ := ih (y.emit inv f).2 hin (Nat.le_of_lt_succ (Nat.lt_of_lt_of_le hless hn))
      exact ⟨e, List.mem_cons_of_mem _ he, hkept⟩

/-- A folio of class 1 that is not a TIME folio leaves within the command that sends it. -/
theorem State.sendFolio_leaves (s : State) {sd : Nat} {f : Folio} (hsd : sd < s.sides.length) (hclass : folioClass f = 1) (ht : f.typ ≠ 7) :
    ∃ g w, Emit.folio sd g w ∈ (s.sendFolio sd f).out ∧ g.typ = f.typ ∧ g.words = f.words := by
  have hside : (s.setSide sd ((s.side sd).enqueue f)).side sd = (s.side sd).enqueue f := s.side_setSide_self _ hsd
  have hin : f ∈ ((s.side sd).enqueue f).txC1 := by simp [Side.enqueue, hclass]
  obtain ⟨e, he, hkept⟩ := Side.drain_leaves (s.quantum sd) (s.rd (QP_CFG_TX_INV sd))
    ((s.setSide sd ((s.side sd).enqueue f)).idleFolio sd) ht (4 * ((s.side sd).enqueue f).waiting) _ hin (by omega)
  refine ⟨e.1, e.2, ?_, hkept⟩
  refine List.mem_append_left _ (List.mem_reverse.mpr (List.mem_map.mpr ⟨e, ?_, rfl⟩))
  simp only [List.foldl_cons, List.foldl_nil, hside]
  exact he

end Sys2Proof.Machine
end

