-- ==== Sys2Proof/Proofs/LampsOff.lean ====
section
/-! SUPPORT. What the lamps' going off and the end of LIT can reach (R214 to R216). -/

namespace Sys2Proof.Machine

/-! ### Lamps go off (R215, R216) -/

theorem Effect.setDrvBank (own words : Nat → Bool) (s : State) (d : Nat) (b : Bank) : Effect own words s (s.setDrvBank d b) :=
  .of_same rfl rfl rfl rfl rfl

theorem Effect.sendStrings (own words : Nat → Bool) (s : State) (d k : Nat) (payload : Nat → Nat → Nat) :
    Effect own words s (s.sendStrings d k payload) := .each _ (fun u _ _ => .send own words u _) s

/-- The fields that the lamps' going off changes. -/
def darkFields : List Fld :=
  [SCN_CNT_DARK, SCN_STAT_LIT, SCN_STAT_DARK_WHY] ++ (List.range 4).map DRV_STAT_OUT_ON ++ (List.range 4).map DRV_STAT_OFF_WHY

theorem darkFields_in : fieldsIn lampPages darkFields = true := by decide

theorem Effect.wr_dark (words : Nat → Bool) (s : State) {f : Fld} (v : Nat) (hf : f ∈ darkFields) :
    Effect (keysOf darkFields) words s (s.wr f v) :=
  .wr words s f v (keysOf_mem hf) (plainKey_of_fieldsIn darkFields_in hf)

theorem Effect.offBank (words : Nat → Bool) (s : State) (cause : Nat) {d : Nat} (hd : d < 4) :
    Effect (keysOf darkFields) words s (s.offBank cause d) := by
  have hout : DRV_STAT_OUT_ON d ∈ darkFields :=
    List.mem_append_left _ (List.mem_append_right _ (List.mem_map_of_mem (List.mem_range.mpr hd)))
  have hwhy : DRV_STAT_OFF_WHY d ∈ darkFields := List.mem_append_right _ (List.mem_map_of_mem (List.mem_range.mpr hd))
  unfold State.offBank
  extract_lets s1 s2
  have hzeros : Effect (keysOf darkFields) words s s1 := by
    simp only [s1]
    split
    · exact .sendStrings _ words s d _ _
    · exact .refl _ words s
  exact (((hzeros.trans (.wr_dark words s1 0 hout)).trans (.wr_dark words _ cause hwhy)).trans (.send _ words _ _)).trans
    (.setDrvBank _ words s2 d _)

theorem Effect.safeDisable (words : Nat → Bool) (s : State) {ds : List Nat} (cause : Nat) (hds : ∀ d ∈ ds, d < 4) :
    Effect (keysOf darkFields) words s (s.safeDisable ds cause) := by
  unfold State.safeDisable
  extract_lets on s1 s2
  have hbanks : Effect (keysOf darkFields) words s s1 :=
    .each on (fun u d hd => .offBank words u cause (hds d (List.mem_of_mem_filter hd))) s
  have hcount : Effect (keysOf darkFields) words s s2 := by
    simp only [s2]
    split
    · exact hbanks
    · exact hbanks.trans (.wr_dark words s1 _ (by simp [darkFields]))
  split
  · exact ((hcount.trans (.wr_dark words s2 0 (by simp [darkFields]))).trans (.wr_dark words _ cause (by simp [darkFields]))).trans
      (.raise _ words _ 0x22 5)
  · split
    · exact hcount.trans (.wr_dark words s2 cause (by simp [darkFields]))
    · exact hcount

theorem Effect.lampsOff (words : Nat → Bool) (s : State) (cause : Nat) : Effect (keysOf darkFields) words s (s.lampsOff cause) :=
  .safeDisable words s cause (by decide)

/-- A part that leaves LIT. -/
theorem Effect.leaveLit (words : Nat → Bool) (s : State) : Effect (pagesOf (3 :: lampPages)) words s s.leaveLit := by
  unfold State.leaveLit
  split
  · exact ((((Effect.lampsOff words s whySTATE).mono (fun k hk => pagesOf_mono (List.subset_cons_self _ _) k (pagesOf_of_fieldsIn darkFields_in k hk))
      fun _ h => h).trans (.wr words _ SCN_CTRL_LAMP_EN 0 (by decide) (by decide))).trans (.wr words _ NVS_POWER_STATE 1 (by decide)
      (by decide))).trans (.wr words _ NVS_POWER_FRAME _ (by decide) (by decide))
  · exact .refl _ words s

/-- It is not LIT then. -/
theorem State.leaveLit_dark (s : State) : s.leaveLit.rd NVS_POWER_STATE ≠ 0 := by
  unfold State.leaveLit
  split
  · rw [State.rd_wr_ne _ _ (by decide), State.rd_wr_of _ NVS_POWER_STATE 2 rfl (by decide) (by decide)]
    decide
  case isFalse hdark => exact fun hzero => hdark (beq_iff_eq.mpr hzero)

end Sys2Proof.Machine
end

