-- ==== Sys2Proof/Proofs/Walks.lean ====
section
/-! SUPPORT. What a walk does to a node, one state for each of its outcomes (R14, R141 to R143). -/

namespace Sys2Proof.Machine

/-! ### The word of an ENUM folio (R141) -/

theorem bitsOf_eq (v hi lo : Nat) : bitsOf v hi lo = v / 2 ^ lo % 2 ^ (hi + 1 - lo) := by rw [bitsOf, Nat.shiftRight_eq_div_pow]

theorem bitsOf_bit (v b : Nat) : bitsOf v b b = b2n (v.testBit b) := by
  rw [bitsOf_eq, Nat.add_sub_cancel_left, Nat.testBit_eq_decide_div_mod_eq, b2n]
  split
  case isTrue h => simpa using h
  case isFalse h => simpa using h

theorem enumWord_next (w : Nat) : bitsOf w 5 0 = w % 64 := by simp [bitsOf_eq]

theorem enumWord_ring (w : Nat) : bitsOf w 11 6 = w / 64 % 64 := bitsOf_eq w 11 6

theorem enumWord_tiles (w : Nat) : bitsOf w 18 13 = w / 2 ^ 13 % 64 := bitsOf_eq w 18 13

/-! ### A walk is sent on (R141, R142) -/

/-- An ENUM folio leaves within the command that sends it. -/
theorem State.sendFolio_enum {s : State} (h : s.sides.length = 2) {sd : Nat} (hsd : sd < 2) (node next ring dir n chain : Nat) :
    ∃ f w, Emit.folio sd f w ∈ (s.sendFolio sd (enumFolio node next ring dir n chain)).out ∧ f.typ = 0xB ∧ f.words.length = 71 := by
  obtain ⟨f, w, hout, htyp, hwords⟩ := s.sendFolio_leaves (f := enumFolio node next ring dir n chain) (h.symm ▸ hsd) rfl
    (show (0xB : BitVec 4) ≠ 7 by decide)
  exact ⟨f, w, hout, htyp, by rw [hwords]; rfl⟩

/-- A tile sends the walk on, on the side that it did not come on. -/
def State.walkOn (s : State) (other w next : Nat) : State :=
  s.when (s.sideIsUp other) (·.sendFolio other
    (enumFolio (if bitsOf w 12 12 = 0 then 0 else 63) next (bitsOf w 11 6) (bitsOf w 12 12) (bitsOf w 18 13) (bitsOf w 19 19)))

theorem Effect.walkOn (own words : Nat → Bool) (s : State) (other w next : Nat) : Effect own words s (s.walkOn other w next) :=
  (Effect.refl own words s).when _ fun u => .sendFolios own words u _ _

theorem State.walkOn_out {s : State} (h : s.sides.length = 2) {other : Nat} (hother : other < 2) (w next : Nat) (hup : s.sideIsUp other = true) :
    ∃ f v, Emit.folio other f v ∈ (s.walkOn other w next).out ∧ f.typ = 0xB := by
  rw [State.walkOn, hup]
  obtain ⟨f, v, hout, htyp, -⟩ := State.sendFolio_enum h hother (if bitsOf w 12 12 = 0 then 0 else 63) next (bitsOf w 11 6) (bitsOf w 12 12)
    (bitsOf w 18 13) (bitsOf w 19 19)
  exact ⟨f, v, hout, htyp⟩

/-! ### Registers of the walk -/

/-- A write of a field of a list that lies in some pages. -/
theorem Effect.wr_pages {ps : List Nat} {fs : List Fld} (words : Nat → Bool) (s : State) (h : fieldsIn ps fs = true) {f : Fld} (v : Nat)
    (hf : f ∈ fs) : Effect (pagesOf ps) words s (s.wr f v) :=
  .wr words s f v (pagesOf_of_fieldsIn h _ (keysOf_mem hf)) (plainKey_of_fieldsIn h hf)

theorem Effect.wrTopo_pages {ps : List Nat} (words : Nat → Bool) (s : State) {f : Nat → Fld} (h : fieldsIn ps [f 0, f 1] = true) (v : Nat) :
    Effect (pagesOf ps) words s (s.wrTopo f v) :=
  (Effect.wr_pages words s h v (by simp)).trans (.wr_pages words _ h v (by simp))

theorem State.rd_when_markDirty (s : State) (c : Bool) (area : Nat) {f : Fld} (hf : f.key ≠ NVS_SAVE_DIRTY.key) :
    (s.when c (State.markDirty · area)).rd f = s.rd f :=
  State.when_keeps (P := fun t => t.rd f = s.rd f) c _ (fun t ht => (t.rd_wr_ne _ hf).trans ht) rfl

/-! ### A tile takes its index (R141) -/

/-- A tile with the index and ring of the walk, the distances that they give, and nothing known of a split. -/
def State.indexTaken (s : State) (next ring : Nat) : State :=
  let s1 := ((s.wrTopo QLK_TOPO_NODE next).wrTopo QLK_TOPO_NODE_VALID 1).wrTopo QLK_TOPO_RING ring
  let s2 := s1.when (s.rd (QLK_TOPO_NODE 0) != next || !s.on (QLK_TOPO_NODE_VALID 0) || s.rd (QLK_TOPO_RING 0) != ring) (State.markDirty · 0)
  { ((s2.wrTopo QLK_TOPO_SPLIT 0).wr QLK_DRR_D_A (63 - next)).wr QLK_DRR_D_B next with link := { s2.link with walked := true } }

theorem Effect.indexTaken (words : Nat → Bool) (s : State) (next ring : Nat) :
    Effect (pagesOf [3, 0x1A]) words s (s.indexTaken next ring) := by
  unfold State.indexTaken
  extract_lets s1 s2
  have hplace : Effect (pagesOf [3, 0x1A]) words s s1 :=
    ((Effect.wrTopo_pages words s (by decide) next).trans (.wrTopo_pages words _ (by decide) 1)).trans (.wrTopo_pages words _ (by decide) ring)
  have hdirty : Effect (pagesOf [3, 0x1A]) words s s2 := hplace.when _ fun u => .markDirty words u 0 (by decide)
  exact (((hdirty.trans (.wrTopo_pages words s2 (by decide) 0)).trans (.wr words _ QLK_DRR_D_A _ (by decide) (by decide))).trans
    (.wr words _ QLK_DRR_D_B next (by decide) (by decide))).trans (.of_same rfl rfl rfl rfl rfl)

theorem State.indexTaken_rd (s : State) (next ring : Nat) : (s.indexTaken next ring).rd (QLK_TOPO_NODE 0) = next % 64 ∧
    (s.indexTaken next ring).rd (QLK_TOPO_NODE 1) = next % 64 ∧ (s.indexTaken next ring).rd (QLK_TOPO_NODE_VALID 0) = 1 ∧
    (s.indexTaken next ring).rd (QLK_TOPO_RING 0) = ring % 64 ∧ (s.indexTaken next ring).rd QLK_DRR_D_B = next % 64 ∧
    (s.indexTaken next ring).rd QLK_DRR_D_A = (63 - next) % 64 := by
  have hlink (t : State) (x : Link) (f : Fld) : State.rd { t with link := x } f = t.rd f := rfl
  simp only [State.indexTaken, hlink, State.wrTopo, State.rd_wr]
  rw [State.rd_when_markDirty _ _ _ (by decide), State.rd_when_markDirty _ _ _ (by decide), State.rd_when_markDirty _ _ _ (by decide),
    State.rd_when_markDirty _ _ _ (by decide)]
  simp [State.rd_wr, Fld.key, QLK_TOPO_NODE, QLK_TOPO_NODE_VALID, QLK_TOPO_RING, QLK_TOPO_SPLIT, QLK_DRR_D_A, QLK_DRR_D_B]
  omega

/-- A tile beyond position 62 has no index, and is dark. -/
def State.indexLost (s : State) : State :=
  (((s.wrTopo QLK_TOPO_NODE 0).wrTopo QLK_TOPO_NODE_VALID 0).when (s.on (QLK_TOPO_NODE_VALID 0)) (State.markDirty · 0)).leaveLit

theorem Effect.indexLost (words : Nat → Bool) (s : State) : Effect (pagesOf ([3, 0x1A] ++ lampPages)) words s s.indexLost := by
  have hplace : Effect (pagesOf ([3, 0x1A] ++ lampPages)) words s ((s.wrTopo QLK_TOPO_NODE 0).wrTopo QLK_TOPO_NODE_VALID 0) :=
    (Effect.wrTopo_pages words s (by decide) 0).trans (.wrTopo_pages words _ (by decide) 0)
  exact (hplace.when _ fun u => .markDirty words u 0 (by decide)).trans
    ((Effect.leaveLit words _).mono (pagesOf_mono (by decide)) fun _ h => h)

theorem State.indexLost_rd (s : State) : s.indexLost.rd (QLK_TOPO_NODE_VALID 0) = 0 ∧ s.indexLost.rd (QLK_TOPO_NODE_VALID 1) = 0 ∧
    s.indexLost.rd NVS_POWER_STATE ≠ 0 := by
  refine ⟨?_, ?_, State.leaveLit_dark _⟩
  · rw [State.indexLost, (Effect.leaveLit (fun _ => false) _).rd (by decide) (by decide), State.rd_when_markDirty _ _ _ (by decide),
      State.wrTopo, State.rd_wr_ne _ _ (by decide), State.rd_wr_of _ (QLK_TOPO_NODE_VALID 0) 1 rfl (by decide) (by decide)]
  · rw [State.indexLost, (Effect.leaveLit (fun _ => false) _).rd (by decide) (by decide), State.rd_when_markDirty _ _ _ (by decide),
      State.wrTopo, State.rd_wr_of _ (QLK_TOPO_NODE_VALID 1) 1 rfl (by decide) (by decide)]

/-! ### A tile learns the number of tiles (R142, R143) -/

/-- The number of tiles, and whether a far sender answers. -/
def State.tilesTold (s : State) (n far : Nat) : State := (s.wrTopo QLK_TOPO_N_TILES n).wrTopo QLK_TOPO_FAR_SENDER far

theorem Effect.tilesTold (words : Nat → Bool) (s : State) (n far : Nat) : Effect (pagesOf [0x1A]) words s (s.tilesTold n far) :=
  (Effect.wrTopo_pages words s (by decide) n).trans (.wrTopo_pages words _ (by decide) far)

theorem State.tilesTold_rd (s : State) (n far : Nat) : (s.tilesTold n far).rd (QLK_TOPO_N_TILES 0) = n % 64 ∧
    (s.tilesTold n far).rd (QLK_TOPO_N_TILES 1) = n % 64 ∧ (s.tilesTold n far).rd (QLK_TOPO_FAR_SENDER 0) = far % 2 := by
  simp [State.tilesTold, State.wrTopo, State.rd_wr, Fld.key, QLK_TOPO_N_TILES, QLK_TOPO_FAR_SENDER]
  omega

/-- The distances and the reach of a tile. -/
def reachFields : List Fld := [QLK_DRR_D_A, QLK_DRR_D_B, QLK_REACH_NODES 0, QLK_REACH_NODES 1]

theorem reachFields_in : fieldsIn [0x1A] reachFields = true := by decide

theorem Effect.wr_reach {words : Nat → Bool} {s t : State} (h : Effect (keysOf reachFields) words s t) {f : Fld} (v : Nat)
    (hf : f ∈ reachFields) : Effect (keysOf reachFields) words s (t.wr f v) :=
  h.trans (.wr words t f v (keysOf_mem hf) (plainKey_of_fieldsIn reachFields_in hf))

/-- A tile with an index takes its distances and its reach. -/
theorem Effect.tileReach (words : Nat → Bool) (s : State) (a b n : Nat) (far near : Bool) :
    Effect (keysOf reachFields) words s (((s.wr QLK_DRR_D_A a).wr QLK_DRR_D_B b).tileReach n far near) :=
  ((((Effect.refl _ words s).wr_reach a (by simp [reachFields])).wr_reach b (by simp [reachFields])).wr_reach _ (by simp [reachFields])).wr_reach _
    (by simp [reachFields])

/-- A tile after a closing walk on a linear side. -/
def State.walkClosed (s : State) (n : Nat) : State :=
  (s.tilesTold n 0).when (s.on (QLK_TOPO_NODE_VALID 0)) fun u =>
    ((u.wr QLK_DRR_D_A (n - s.rd (QLK_TOPO_NODE 0))).wr QLK_DRR_D_B 0).tileReach n false true

theorem Effect.walkClosed (words : Nat → Bool) (s : State) (n : Nat) :
    Effect (keysOf reachFields) words (s.tilesTold n 0) (s.walkClosed n) :=
  (Effect.refl _ words _).when _ fun u => .tileReach words u _ _ _ _ _

/-- The distances and the reach that a walk back gives the tile with index `k`; a walk that passed another number of nodes raises
TOPO_CHANGE. -/
def State.placeTold (s : State) (k n hops : Nat) : State :=
  (((s.wr QLK_DRR_D_A (n - k + 1)).wr QLK_DRR_D_B (if s.link.walked then k else k - 1)).tileReach n true s.link.walked).when
    (hops != n + 1 - k) (State.raise · 0x1A 5)

/-- A tile after a walk back. -/
def State.walkBack (s : State) (n hops : Nat) : State :=
  (s.tilesTold n 1).when (s.on (QLK_TOPO_NODE_VALID 0)) (·.placeTold (s.rd (QLK_TOPO_NODE 0)) n hops)

theorem Effect.walkBack (words : Nat → Bool) (s : State) (n hops : Nat) :
    Effect (keysOf reachFields) words (s.tilesTold n 1) (s.walkBack n hops) :=
  (Effect.refl _ words _).when _ fun u => (Effect.tileReach words u _ _ _ _ _).when _ fun v => .raise _ words v 0x1A 5

/-! ### A sender answers a walk (R141) -/

theorem State.isTile_of_isSender {s : State} (h : s.isSender = true) : s.isTile = false := by
  simp only [State.isSender, State.isTile, beq_iff_eq, beq_eq_false_iff_ne] at h ⊢
  omega

/-- A walk of a sender is under way on a side. -/
def State.walking (s : State) (sd : Nat) : State := { s with link := { s.link with walks := sd :: s.link.walks.filter (· != sd) } }

/-- The number of tiles that the far sender counts, with itself as the near one's far sender; more nodes on the way than indices raise
TOPO_OVER. -/
def State.tilesCounted (s : State) (sd n hops : Nat) : State :=
  ((s.wr (QLK_TOPO_N_TILES sd) n).wr (QLK_TOPO_FAR_SENDER sd) 1).when (decide (n + 1 < hops)) (State.raise · 0x1A 6)

/-- The far sender sends the walk back. -/
def State.walkAnswered (s : State) (sd w hops : Nat) : State :=
  ((s.tilesCounted sd (bitsOf w 5 0 - 1) hops).sendFolio sd (enumFolio 63 0 (bitsOf w 11 6) 1 (bitsOf w 5 0 - 1) 0)).walking sd

/-- What a sender writes of a side's tiles. -/
def tileFields (sd : Nat) : List Fld := [QLK_TOPO_N_TILES sd, QLK_TOPO_FAR_SENDER sd]

theorem tileFields_in (sd : Fin 2) : fieldsIn [0x1A] (tileFields sd) = true := by revert sd; decide

theorem Effect.tilesCounted (words : Nat → Bool) (s : State) (sd : Fin 2) (n hops : Nat) :
    Effect (keysOf (tileFields sd)) words s (s.tilesCounted sd n hops) := by
  have hwr (u : State) {f : Fld} (v : Nat) (hf : f ∈ tileFields sd) : Effect (keysOf (tileFields sd)) words u (u.wr f v) :=
    .wr words u f v (keysOf_mem hf) (plainKey_of_fieldsIn (tileFields_in sd) hf)
  exact ((hwr s n (by simp [tileFields])).trans (hwr _ 1 (by simp [tileFields]))).when _ fun u => .raise _ words u 0x1A 6

theorem Effect.walkSent (own words : Nat → Bool) (s : State) (sd : Nat) (f : Folio) :
    Effect own words s ((s.sendFolio sd f).walking sd) := (Effect.sendFolios own words s sd _).trans (.of_same rfl rfl rfl rfl rfl)

theorem State.tilesCounted_rd (s : State) (sd : Fin 2) {n : Nat} (hn : n < 64) (hops : Nat) :
    (s.tilesCounted sd n hops).rd (QLK_TOPO_N_TILES sd) = n ∧ (s.tilesCounted sd n hops).rd (QLK_TOPO_FAR_SENDER sd) = 1 := by
  have hrd (f : Fld) (hf : f ∈ tileFields sd) : (s.tilesCounted sd n hops).rd f =
      ((s.wr (QLK_TOPO_N_TILES sd) n).wr (QLK_TOPO_FAR_SENDER sd) 1).rd f :=
    ((Effect.refl (fun _ => false) (fun _ => false) _).when _ fun u => .raise _ _ u 0x1A 6).rd (plainKey_of_fieldsIn (tileFields_in sd) hf) rfl
  refine ⟨?_, ?_⟩
  · rw [hrd _ (by simp [tileFields]), State.rd_wr_ne _ _ (by simp only [Fld.key, QLK_TOPO_N_TILES, QLK_TOPO_FAR_SENDER]; omega),
      State.rd_wr_of _ (QLK_TOPO_N_TILES sd) 6 rfl hn (by decide)]
  · rw [hrd _ (by simp [tileFields]), State.rd_wr_of _ (QLK_TOPO_FAR_SENDER sd) 1 rfl (by decide) (by decide)]

theorem State.startWalk_eq {s : State} {sd : Nat} (hs : s.isSender = true) (hup : s.sideIsUp sd = true) :
    s.startWalk sd = (s.sendFolio sd (if s.nodeOn sd = 0 then enumFolio 0 1 (s.ringOf sd) 0 0 0
      else enumFolio 63 0 (s.ringOf sd) 1 (s.rd (QLK_TOPO_N_TILES sd)) 0)).walking sd := by
  rw [State.startWalk, if_pos ⟨hs, hup⟩]
  rfl

/-- A sender whose side is up sends the first ENUM folio of a walk. -/
theorem State.startWalk_out {s : State} (h : s.sides.length = 2) (sd : Fin 2) (hs : s.isSender = true) (hup : s.sideIsUp sd = true) :
    ∃ f w, Emit.folio sd f w ∈ (s.startWalk sd).out ∧ f.typ = 0xB ∧ f.words.length = 71 := by
  rw [State.startWalk_eq hs hup]
  split
  · exact State.sendFolio_enum h sd.isLt _ _ _ _ _ _
  · exact State.sendFolio_enum h sd.isLt _ _ _ _ _ _

theorem State.walking_contains (s : State) (sd : Nat) : (s.walking sd).link.walks.contains sd = true := by simp [State.walking]

/-! ### A walk ends (R141, R142) -/

/-- Whether the ring of a side ends at a far sender. -/
def State.farSender (s : State) (sd : Nat) : Bool := s.on (QLK_TOPO_FAR_SENDER sd) && !(s.rd QLK_CFG_LINEAR).testBit sd

/-- The number of tiles of a side: on a linear one those that acknowledged. -/
def State.tilesOf (s : State) (sd : Nat) (acks : Word) : Nat :=
  if (s.rd QLK_CFG_LINEAR).testBit sd then ((List.range 64).filter fun t => (acks.toNat &&& nodeMask 1 62).testBit t).length
  else s.rd (QLK_TOPO_N_TILES sd)

/-- The node at which a side's reach ends. -/
def State.reachEnd (s : State) (sd : Nat) (acks : Word) : Nat :=
  if s.nodeOn sd = 0 then (if s.farSender sd then 63 else s.tilesOf sd acks)
  else (if s.farSender sd then 0 else 63 - s.tilesOf sd acks)

/-- The nodes that a side reaches: the tiles that acknowledged, this sender and the far one. -/
def State.nodesReached (s : State) (sd : Nat) (acks : Word) : Nat :=
  (acks.toNat &&& nodeMask 1 62) + 2 ^ s.nodeOn sd + if s.farSender sd then 2 ^ (63 - s.nodeOn sd) else 0

/-- The walk's result in the registers. -/
def State.walkHeld (s : State) (sd : Nat) (acks : Word) : State :=
  ((((((s.wr (QLK_TOPO_N_TILES sd) (s.tilesOf sd acks)).wr (QLK_TOPO_REACH_END sd) (s.reachEnd sd acks)).wr (QLK_TOPO_SPLIT sd) 0).wr
    (QLK_TOPO_FAR_SENDER sd) (b2n (s.farSender sd))).wr (QLK_REACH_NODES sd) (s.nodesReached sd acks)).wr QLK_ENUM_FRAME_FRAME s.frame).wr
    QLK_ENUM_FRAME_SIDE sd

/-- The walk is no longer under way. -/
def State.walkOver (s : State) (sd : Nat) : State := { s with link := { s.link with walks := s.link.walks.filter (· != sd) } }

/-- Interrupt flags of a walk that ended. -/
def State.walkNoted (s : State) (moved unindexed : Bool) : State :=
  ((s.when moved (State.raise · 0x1A 5)).when unindexed (State.raise · 0x1A 6)).raise 0x1A 4

/-- A sender after a walk; on a linear side it sends the closing walk. -/
def State.walkEnded (s : State) (sd : Nat) (acks : Word) (moved : Bool) : State :=
  (((s.walkHeld sd acks).walkOver sd).walkNoted moved (acks.toNat.testBit 0)).when ((s.rd QLK_CFG_LINEAR).testBit sd && s.nodeOn sd == 0)
    fun u => u.sendFolio sd (enumFolio 0 0 (u.ringOf sd) 0 (s.tilesOf sd acks) 1)

theorem exec_enumDone (s : State) (sd : Fin 2) (acks : Word) (moved : Bool) (hs : s.isSender = true)
    (hwalk : s.link.walks.contains sd.val = true) : exec (.enumDone sd acks moved) s = .next (s.walkEnded sd acks moved) := by
  change execEnumDone sd acks moved s = _
  rw [execEnumDone, if_pos ⟨hs, hwalk⟩]
  rfl

/-! ### ENUM_RECEIVE (R14, R141 to R143) -/

/-- A node after the ENUM folio with word `w`. -/
def State.walkTaken (s : State) (sd w hops : Nat) : State :=
  if s.isTile then
    if bitsOf w 19 19 = 1 then (s.walkClosed (bitsOf w 18 13)).walkOn (1 - sd) w (bitsOf w 5 0)
    else if bitsOf w 12 12 = 0 then
      if bitsOf w 5 0 = 63 then (s.indexLost.walkOn (1 - sd) w (bitsOf w 5 0)).post 0x8008 [0]
      else ((s.indexTaken (bitsOf w 5 0) (bitsOf w 11 6)).walkOn (1 - sd) w (bitsOf w 5 0 + 1)).post 0x8008 [bitsOf w 5 0]
    else ((s.walkBack (bitsOf w 18 13) hops).walkOn (1 - sd) w (bitsOf w 5 0)).when (s.on (QLK_TOPO_NODE_VALID 0))
      (·.post 0x8008 [s.rd (QLK_TOPO_NODE 0)])
  else if s.isSender then
    if s.nodeOn sd = 63 ∧ bitsOf w 12 12 = 0 ∧ bitsOf w 19 19 = 0 then s.walkAnswered sd w hops
    else if s.nodeOn sd = 0 ∧ bitsOf w 12 12 = 1 ∧ bitsOf w 19 19 = 0 then
      (s.wr (QLK_TOPO_N_TILES sd) (bitsOf w 18 13)).wr (QLK_TOPO_FAR_SENDER sd) 1
    else s
  else s

theorem exec_enumReceive (s : State) (sd : Fin 2) {ws : List Word72} {w : Nat} (hops : BitVec 6) (hw : (ws.getD 1 0).toNat = w)
    (hmark : w / 2 ^ 64 = 0xE8) : exec (.enumReceive sd ws hops) s = .next (s.walkTaken sd w hops.toNat) := by
  unfold State.walkTaken
  simp only [apply_ite Host.Outcome.next]
  change execEnumReceive sd ws hops s = _
  unfold execEnumReceive
  rw [hw]
  dsimp only
  rw [if_neg (not_not.mpr hmark)]
  rfl

section
variable {s : State} {sd w hops : Nat}

theorem State.walkTaken_index (ht : s.isTile = true) (hchain : w.testBit 19 = false) (hdir : w.testBit 12 = false) (hnext : w % 64 ≠ 63) :
    s.walkTaken sd w hops = ((s.indexTaken (w % 64) (w / 64 % 64)).walkOn (1 - sd) w (w % 64 + 1)).post 0x8008 [w % 64] := by
  simp [State.walkTaken, bitsOf_bit, enumWord_next, enumWord_ring, b2n, ht, hchain, hdir, hnext]

theorem State.walkTaken_beyond (ht : s.isTile = true) (hchain : w.testBit 19 = false) (hdir : w.testBit 12 = false) (hnext : w % 64 = 63) :
    s.walkTaken sd w hops = (s.indexLost.walkOn (1 - sd) w 63).post 0x8008 [0] := by
  simp [State.walkTaken, bitsOf_bit, enumWord_next, b2n, ht, hchain, hdir, hnext]

/-- After a walk back or a closing walk a tile holds the number of tiles, and then its distances and its reach alone change. -/
theorem State.walkTaken_told (words : Nat → Bool) (ht : s.isTile = true) (hback : w.testBit 19 = true ∨ w.testBit 12 = true) :
    Effect (keysOf reachFields) words (s.tilesTold (w / 2 ^ 13 % 64) (b2n (!w.testBit 19))) (s.walkTaken sd w hops) := by
  rw [← enumWord_tiles]
  cases hchain : w.testBit 19 with
  | true =>
    have heq : s.walkTaken sd w hops = (s.walkClosed (bitsOf w 18 13)).walkOn (1 - sd) w (bitsOf w 5 0) := by
      simp [State.walkTaken, bitsOf_bit, b2n, ht, hchain]
    rw [heq]
    exact (Effect.walkClosed words s _).trans (.walkOn _ words _ _ w _)
  | false =>
    have hdir : w.testBit 12 = true := hback.resolve_left (by rw [hchain]; decide)
    have heq : s.walkTaken sd w hops = ((s.walkBack (bitsOf w 18 13) hops).walkOn (1 - sd) w (bitsOf w 5 0)).when
        (s.on (QLK_TOPO_NODE_VALID 0)) (·.post 0x8008 [s.rd (QLK_TOPO_NODE 0)]) := by
      simp [State.walkTaken, bitsOf_bit, b2n, ht, hchain, hdir]
    rw [heq]
    exact ((Effect.walkBack words s _ _).trans (.walkOn _ words _ _ w _)).when _ fun u => .post _ words u _ _

/-- Node 63 answers a walk of node 0. -/
theorem State.walkTaken_answered (hs : s.isSender = true) (hnode : s.nodeOn sd = 63) (hchain : w.testBit 19 = false)
    (hdir : w.testBit 12 = false) : s.walkTaken sd w hops = s.walkAnswered sd w hops := by
  simp [State.walkTaken, bitsOf_bit, b2n, State.isTile_of_isSender hs, hs, hnode, hchain, hdir]

/-- Node 0 takes the walk back. -/
theorem State.walkTaken_returned (hs : s.isSender = true) (hnode : s.nodeOn sd = 0) (hchain : w.testBit 19 = false)
    (hdir : w.testBit 12 = true) : s.walkTaken sd w hops =
      (s.wr (QLK_TOPO_N_TILES sd) (w / 2 ^ 13 % 64)).wr (QLK_TOPO_FAR_SENDER sd) 1 := by
  simp [State.walkTaken, bitsOf_bit, enumWord_tiles, b2n, State.isTile_of_isSender hs, hs, hnode, hchain, hdir]

end

end Sys2Proof.Machine
end

