-- ==== Sys2Proof/Proofs/Enumeration.lean ====
section
/-! SUPPORT. What walks leave in the registers of tiles and senders, and that they go on (R14, R141 to R143). -/

namespace Sys2Proof.Machine

/-! ### What a walk's end leaves -/

/-- The fields that hold a walk's result. -/
def resultFields (sd : Nat) : List Fld := [QLK_TOPO_N_TILES sd, QLK_TOPO_REACH_END sd, QLK_TOPO_SPLIT sd, QLK_TOPO_FAR_SENDER sd,
  QLK_REACH_NODES sd, QLK_ENUM_FRAME_FRAME, QLK_ENUM_FRAME_SIDE]

theorem resultFields_in (sd : Fin 2) : fieldsIn [0x1A] (resultFields sd) = true := by revert sd; decide

theorem Effect.walkHeld (words : Nat → Bool) (s : State) (sd : Fin 2) (acks : Word) :
    Effect (pagesOf [0x1A]) words s (s.walkHeld sd acks) := by
  have hwr (u : State) {f : Fld} (v : Nat) (hf : f ∈ resultFields sd) : Effect (pagesOf [0x1A]) words u (u.wr f v) :=
    .wr_pages words u (resultFields_in sd) v hf
  exact ((((((hwr s _ (by simp [resultFields])).trans (hwr _ _ (by simp [resultFields]))).trans (hwr _ 0 (by simp [resultFields]))).trans
    (hwr _ _ (by simp [resultFields]))).trans (hwr _ _ (by simp [resultFields]))).trans (hwr _ _ (by simp [resultFields]))).trans
    (hwr _ _ (by simp [resultFields]))

theorem Effect.walkNoted (own words : Nat → Bool) (s : State) (moved unindexed : Bool) : Effect own words s (s.walkNoted moved unindexed) :=
  (((Effect.refl own words s).when _ fun u => .raise own words u 0x1A 5).when _ fun u => .raise own words u 0x1A 6).trans (.raise own words _ 0x1A 4)

/-- Flags, the closing walk and the engine's state follow the result. -/
theorem Effect.walkEnded (own words : Nat → Bool) (s : State) (sd : Nat) (acks : Word) (moved : Bool) :
    Effect own words (s.walkHeld sd acks) (s.walkEnded sd acks moved) := by
  have hover : Effect own words (s.walkHeld sd acks) ((s.walkHeld sd acks).walkOver sd) := .of_same rfl rfl rfl rfl rfl
  exact (hover.trans (.walkNoted own words _ moved _)).when _ fun u => .sendFolios own words u sd _

theorem State.walkNoted_flags (s : State) (moved unindexed : Bool) : (s.walkNoted moved unindexed).flag 0x1A 4 = true ∧
    (moved = true → (s.walkNoted moved unindexed).flag 0x1A 5 = true) ∧
    (unindexed = true → (s.walkNoted moved unindexed).flag 0x1A 6 = true) := by
  refine ⟨State.flag_raise _ 0x1A 4 (by decide), ?_, ?_⟩
  · rintro rfl
    exact ((Grows.refl _).when unindexed (State.raise · 0x1A 6) fun u => .raise u 0x1A 6).trans (.raise _ 0x1A 4) |>.flags _ _
      (State.flag_raise s 0x1A 5 (by decide))
  · rintro rfl
    exact (Grows.raise _ 0x1A 4).flags _ _ (State.flag_raise _ 0x1A 6 (by decide))

theorem State.walkEnded_flags (s : State) (sd : Nat) (acks : Word) (moved : Bool) : (s.walkEnded sd acks moved).flag 0x1A 4 = true ∧
    (moved = true → (s.walkEnded sd acks moved).flag 0x1A 5 = true) ∧
    (acks.toNat.testBit 0 = true → (s.walkEnded sd acks moved).flag 0x1A 6 = true) := by
  obtain ⟨hdone, hmoved, hunindexed⟩ := ((s.walkHeld sd acks).walkOver sd).walkNoted_flags moved (acks.toNat.testBit 0)
  have hkept {b : Nat} : (((s.walkHeld sd acks).walkOver sd).walkNoted moved (acks.toNat.testBit 0)).flag 0x1A b = true →
      (s.walkEnded sd acks moved).flag 0x1A b = true :=
    ((Effect.refl (fun _ => false) (fun _ => false) _).when _ fun u => .sendFolios _ _ u _ _).flag
  exact ⟨hkept hdone, fun h => hkept (hmoved h), fun h => hkept (hunindexed h)⟩

@[simp] theorem State.walkNoted_link (s : State) (moved unindexed : Bool) : (s.walkNoted moved unindexed).link = s.link := by
  cases moved <;> cases unindexed <;> simp [State.walkNoted]

theorem State.walkEnded_walks (s : State) (sd : Nat) (acks : Word) (moved : Bool) :
    (s.walkEnded sd acks moved).link.walks.contains sd = false := by
  have hnoted : (s.walkEnded sd acks moved).link = (((s.walkHeld sd acks).walkOver sd).walkNoted moved (acks.toNat.testBit 0)).link :=
    State.when_keeps (P := fun t => t.link = State.link _) _ (fun u => u.sendFolio sd _) (fun t ht => ht) rfl
  rw [hnoted, State.walkNoted_link]
  simp [State.walkOver]

/-- A sender is node 0 or node 63. -/
theorem State.nodeOn_cases (s : State) (sd : Nat) : s.nodeOn sd = 0 ∨ s.nodeOn sd = 63 := by
  unfold State.nodeOn senderNode
  split_ifs <;> simp

/-- The bits between bit 0 and bit 63 do not depend on these two. -/
theorem testBit_add_ends {x a : Nat} (c : Nat) (heven : x % 2 = 0) (hx : x < 2 ^ 63) (ha : a < 2) {k : Nat} (h1 : 1 ≤ k) (h62 : k ≤ 62) :
    (x + a + 2 ^ 63 * c).testBit k = x.testBit k := by
  obtain ⟨j, rfl⟩ := Nat.exists_eq_add_of_le' h1
  rw [Nat.add_comm, Nat.testBit_two_pow_mul_add _ (by omega), if_pos (by omega), Nat.testBit_add_one, Nat.testBit_add_one]
  congr 1
  omega

theorem nodeMask_tiles : nodeMask 1 62 = 2 * (2 ^ 62 - 1) := by decide

theorem tilesAcked_lt (m : Nat) : m &&& nodeMask 1 62 < 2 ^ 63 := Nat.lt_of_le_of_lt Nat.and_le_right (by rw [nodeMask_tiles]; decide)

theorem tilesAcked_even (m : Nat) : (m &&& nodeMask 1 62) % 2 = 0 := by
  rw [nodeMask_tiles, Nat.and_mod_two_pow (n := 1)]
  simp

theorem tilesAcked_testBit (m : Nat) {k : Nat} (h1 : 1 ≤ k) (h62 : k ≤ 62) : (m &&& nodeMask 1 62).testBit k = m.testBit k := by
  obtain ⟨j, rfl⟩ := Nat.exists_eq_add_of_le' h1
  have hmask : (nodeMask 1 62).testBit (j + 1) = true := by
    rw [nodeMask_tiles, Nat.testBit_add_one, Nat.mul_div_cancel_left _ (by decide), Nat.testBit_two_pow_sub_one]
    exact decide_eq_true (by omega)
  rw [Nat.testBit_and, hmask, Bool.and_true]

/-- Beside the tiles the reach holds this sender at one end, and the far one, if any, at the other. -/
theorem State.nodesReached_eq (s : State) (sd : Nat) (acks : Word) :
    ∃ a < 2, ∃ c < 2, s.nodesReached sd acks = (acks.toNat &&& nodeMask 1 62) + a + 2 ^ 63 * c := by
  have hfar : b2n (s.farSender sd) < 2 := b2n_lt _
  rcases s.nodeOn_cases sd with hnode | hnode
  · refine ⟨1, by decide, b2n (s.farSender sd), hfar, ?_⟩
    rw [State.nodesReached, hnode]
    cases s.farSender sd <;> rfl
  · refine ⟨b2n (s.farSender sd), hfar, 1, by decide, ?_⟩
    rw [State.nodesReached, hnode, Nat.add_right_comm]
    cases s.farSender sd <;> rfl

/-- The reach has the tiles that acknowledged. -/
theorem State.walkHeld_reach (s : State) (sd : Fin 2) (acks : Word) {k : Nat} (h1 : 1 ≤ k) (h62 : k ≤ 62) :
    ((s.walkHeld sd acks).rd (QLK_REACH_NODES sd)).testBit k = acks.toNat.testBit k := by
  obtain ⟨a, ha, c, hc, hsum⟩ := s.nodesReached_eq sd acks
  have hlt := tilesAcked_lt acks.toNat
  have heven := tilesAcked_even acks.toNat
  have hother : ∀ f ∈ [QLK_ENUM_FRAME_FRAME, QLK_ENUM_FRAME_SIDE], (QLK_REACH_NODES sd).key ≠ f.key := by clear * -; revert sd; decide
  rw [State.walkHeld, State.rd_wr_ne _ _ (hother _ (by simp)), State.rd_wr_ne _ _ (hother _ (by simp)),
    State.rd_wr_of _ (QLK_REACH_NODES sd) 64 rfl (by omega) (by decide), hsum, testBit_add_ends c heven hlt ha h1 h62,
    tilesAcked_testBit _ h1 h62]

theorem State.walkHeld_frame (s : State) (sd : Fin 2) (acks : Word) :
    (s.walkHeld sd acks).rd QLK_ENUM_FRAME_FRAME = s.frame % 2 ^ 48 := by
  rw [State.walkHeld, State.rd_wr_ne _ _ (by decide), State.rd_wr_mod _ _ _ (by decide)]
  rfl

/-! ### The walk at each node -/

theorem SidesKept.length {s t : State} (h : SidesKept s t) : t.sides.length = s.sides.length := by
  simpa using congrArg List.length h

section
variable {s t : State} {sd : Fin 2} {w hops : Nat} (heq : s.walkTaken sd w hops = t)
include heq

/-- A tile takes the index and ring of the walk, and sends it on. -/
theorem walkTaken_index_kept (h : s.sides.length = 2) (ht : s.isTile = true) (hchain : w.testBit 19 = false) (hdir : w.testBit 12 = false)
    (hnext : w % 64 ≠ 63) : t.rd (QLK_TOPO_NODE 0) = w % 64 ∧ t.rd (QLK_TOPO_NODE 1) = w % 64 ∧ t.rd (QLK_TOPO_NODE_VALID 0) = 1 ∧
      t.rd (QLK_TOPO_RING 0) = w / 64 % 64 ∧ t.rd QLK_DRR_D_B = w % 64 ∧ t.rd QLK_DRR_D_A = 63 - w % 64 ∧
      (s.sideIsUp (1 - sd.val) = true → ∃ f w, Emit.folio (1 - sd.val) f w ∈ t.out ∧ f.typ = 0xB) ∧
      RegsKept (pagesOf [3, 0x1A]) s t ∧ SidesKept s t ∧ WordsKept (fun _ => false) s t ∧ (s.quietMem → t.mem = s.mem) := by
  rw [State.walkTaken_index ht hchain hdir hnext] at heq
  subst heq
  have htaken := Effect.indexTaken (fun _ => false) s (w % 64) (w / 64 % 64)
  have hpost (own : Nat → Bool) := Effect.post own (fun _ => false)
    ((s.indexTaken (w % 64) (w / 64 % 64)).walkOn (1 - sd.val) w (w % 64 + 1)) 0x8008 [w % 64]
  have htold (own : Nat → Bool) := (Effect.walkOn own (fun _ => false) (s.indexTaken (w % 64) (w / 64 % 64)) (1 - sd.val) w (w % 64 + 1)).trans
    (hpost own)
  have hrd (f : Fld) (hf : plainKey f.key = true) := (htold fun _ => false).rd hf rfl
  obtain ⟨hnode0, hnode1, hvalid, hring, hb, ha⟩ := s.indexTaken_rd (w % 64) (w / 64 % 64)
  obtain ⟨hregs, hwords, hsides, hmem⟩ := (htaken.trans (htold _)).kept
  refine ⟨?_, ?_, ?_, ?_, ?_, ?_, fun hup => ?_, hregs, hsides, hwords, hmem⟩
  · rw [hrd _ (by decide), hnode0, Nat.mod_mod]
  · rw [hrd _ (by decide), hnode1, Nat.mod_mod]
  · rw [hrd _ (by decide), hvalid]
  · rw [hrd _ (by decide), hring, Nat.mod_mod]
  · rw [hrd _ (by decide), hb, Nat.mod_mod]
  · rw [hrd _ (by decide), ha, Nat.mod_eq_of_lt (by omega)]
  · have hside : plainKey (QP_SIDE_STAT_STATE (1 - sd.val)).key = true ∧ pagesOf [3, 0x1A] (QP_SIDE_STAT_STATE (1 - sd.val)).key = false := by
      clear * -; revert sd; decide
    have hup' : (s.indexTaken (w % 64) (w / 64 % 64)).sideIsUp (1 - sd.val) = true := by
      rw [State.sideIsUp, htaken.rd hside.1 hside.2]
      exact hup
    obtain ⟨f, v, hout, htyp⟩ := State.walkOn_out (htaken.sides.length.trans h) (by omega : 1 - sd.val < 2) w (w % 64 + 1) hup'
    obtain ⟨l, hl⟩ := (hpost fun _ => false).grows.out
    exact ⟨f, v, hl ▸ List.mem_append_right l hout, htyp⟩

/-- A tile beyond position 62 has no index, and is dark. -/
theorem walkTaken_beyond_kept (ht : s.isTile = true) (hchain : w.testBit 19 = false) (hdir : w.testBit 12 = false) (hnext : w % 64 = 63) :
    t.rd (QLK_TOPO_NODE_VALID 0) = 0 ∧ t.rd (QLK_TOPO_NODE_VALID 1) = 0 ∧ t.rd NVS_POWER_STATE ≠ 0 ∧
      RegsKept (pagesOf ([3, 0x1A] ++ lampPages)) s t ∧ WordsKept (fun _ => false) s t ∧ (s.quietMem → t.mem = s.mem) := by
  rw [State.walkTaken_beyond ht hchain hdir hnext] at heq
  subst heq
  have htold (own : Nat → Bool) := (Effect.walkOn own (fun _ => false) s.indexLost (1 - sd.val) w 63).trans (.post own _ _ 0x8008 [0])
  have hrd (f : Fld) (hf : plainKey f.key = true) := (htold fun _ => false).rd hf rfl
  obtain ⟨hvalid0, hvalid1, hpower⟩ := s.indexLost_rd
  obtain ⟨hregs, hwords, -, hmem⟩ := ((Effect.indexLost _ s).trans (htold _)).kept
  refine ⟨?_, ?_, ?_, hregs, hwords, hmem⟩
  · rw [hrd _ (by decide), hvalid0]
  · rw [hrd _ (by decide), hvalid1]
  · rw [hrd _ (by decide)]
    exact hpower

/-- A tile learns the number of tiles from the walk back or the closing walk. -/
theorem walkTaken_told_kept (ht : s.isTile = true) (hback : w.testBit 19 = true ∨ w.testBit 12 = true) :
    t.rd (QLK_TOPO_N_TILES 0) = w / 2 ^ 13 % 64 ∧ t.rd (QLK_TOPO_N_TILES 1) = w / 2 ^ 13 % 64 ∧
      t.rd (QLK_TOPO_FAR_SENDER 0) = b2n (!w.testBit 19) ∧
      RegsKept (pagesOf [0x1A]) s t ∧ SidesKept s t ∧ WordsKept (fun _ => false) s t ∧ (s.quietMem → t.mem = s.mem) := by
  have hreach := State.walkTaken_told (sd := sd) (hops := hops) (fun _ => false) ht hback
  rw [heq] at hreach
  obtain ⟨hn0, hn1, hfar⟩ := s.tilesTold_rd (w / 2 ^ 13 % 64) (b2n (!w.testBit 19))
  obtain ⟨hregs, hwords, hsides, hmem⟩ :=
    ((Effect.tilesTold _ s _ _).trans (hreach.mono (pagesOf_of_fieldsIn reachFields_in) fun _ h => h)).kept
  refine ⟨?_, ?_, ?_, hregs, hsides, hwords, hmem⟩
  · rw [hreach.rd (by decide) (by decide), hn0, Nat.mod_mod]
  · rw [hreach.rd (by decide) (by decide), hn1, Nat.mod_mod]
  · rw [hreach.rd (by decide) (by decide), hfar]
    exact Nat.mod_eq_of_lt (b2n_lt _)

/-- Node 63 counts the tiles of the walk and sends it back. -/
theorem walkTaken_answered_kept (h : s.sides.length = 2) (hs : s.isSender = true) (hnode : s.nodeOn sd = 63) (hchain : w.testBit 19 = false)
    (hdir : w.testBit 12 = false) : t.rd (QLK_TOPO_N_TILES sd) = w % 64 - 1 ∧ t.rd (QLK_TOPO_FAR_SENDER sd) = 1 ∧
      (∃ f w, Emit.folio sd f w ∈ t.out ∧ f.typ = 0xB) ∧ t.link.walks.contains sd.val = true ∧
      RegsKept (keysOf [QLK_TOPO_N_TILES sd, QLK_TOPO_FAR_SENDER sd]) s t ∧ WordsKept (fun _ => false) s t ∧
      (s.quietMem → t.mem = s.mem) := by
  rw [State.walkTaken_answered hs hnode hchain hdir] at heq
  subst heq
  have hcount := Effect.tilesCounted (fun _ => false) s sd (bitsOf w 5 0 - 1) hops
  have hsent (own : Nat → Bool) : Effect own (fun _ => false) (s.tilesCounted sd (bitsOf w 5 0 - 1) hops) (s.walkAnswered sd w hops) :=
    .walkSent own _ _ _ _
  have hrd (f : Fld) (hf : f ∈ tileFields sd) := (hsent fun _ => false).rd (plainKey_of_fieldsIn (tileFields_in sd) hf) rfl
  have hsmall : bitsOf w 5 0 < 64 := bitsOf_lt w 5 0
  obtain ⟨hn, hfar⟩ := s.tilesCounted_rd sd (n := bitsOf w 5 0 - 1) (by omega) hops
  obtain ⟨f, v, hout, htyp, -⟩ := State.sendFolio_enum (hcount.sides.length.trans h) sd.isLt 63 0 (bitsOf w 11 6) 1 (bitsOf w 5 0 - 1) 0
  obtain ⟨hregs, hwords, -, hmem⟩ := (hcount.trans (hsent _)).kept
  refine ⟨?_, ?_, ⟨f, v, hout, htyp⟩, State.walking_contains _ sd, hregs, hwords, hmem⟩
  · rw [hrd _ (by simp [tileFields]), hn, enumWord_next]
  · rw [hrd _ (by simp [tileFields]), hfar]

end

/-- A sender starts a walk on a side that is up. -/
theorem linkUpReceive_walks {s : State} (h : s.sides.length = 2) (sd : Fin 2) (k : BitVec 6) (hs : s.isSender = true)
    (hup : s.sideIsUp sd = true) : ∃ t, exec (.linkUpReceive sd k) s = .next t ∧
      (∃ f w, Emit.folio sd f w ∈ t.out ∧ f.typ = 0xB ∧ f.words.length = 71) ∧ t.link.walks.contains sd.val = true ∧ t.live = s.live ∧
      t.win = s.win ∧ t.mem = s.mem ∧ SidesKept s t := by
  refine ⟨s.startWalk sd, rfl, State.startWalk_out h sd hs hup, ?_⟩
  rw [State.startWalk_eq hs hup]
  exact ⟨State.walking_contains _ sd, rfl, rfl, rfl, (Effect.walkSent (fun _ => false) (fun _ => false) s sd _).sides⟩

/-- A walk that ends gives the sender its tiles and its reach. -/
theorem enumDone_held (s : State) (sd : Fin 2) (acks : Word) (moved : Bool) (hs : s.isSender = true)
    (hwalk : s.link.walks.contains sd.val = true) : ∃ t, exec (.enumDone sd acks moved) s = .next t ∧
      t.link.walks.contains sd.val = false ∧ t.flag 0x1A 4 = true ∧ (moved = true → t.flag 0x1A 5 = true) ∧
      (acks.toNat.testBit 0 = true → t.flag 0x1A 6 = true) ∧ t.rd QLK_ENUM_FRAME_FRAME = s.frame % 2 ^ 48 ∧
      (∀ k, 1 ≤ k → k ≤ 62 → (t.rd (QLK_REACH_NODES sd)).testBit k = acks.toNat.testBit k) ∧
      RegsKept (pagesOf [0x1A]) s t ∧ SidesKept s t ∧ WordsKept (fun _ => false) s t ∧ (s.quietMem → t.mem = s.mem) := by
  have hended (own : Nat → Bool) := Effect.walkEnded own (fun _ => false) s sd acks moved
  have hrd (f : Fld) (hf : f ∈ resultFields sd) := (hended fun _ => false).rd (plainKey_of_fieldsIn (resultFields_in sd) hf) rfl
  obtain ⟨hdone, hmoved, hunindexed⟩ := s.walkEnded_flags sd acks moved
  obtain ⟨hregs, hwords, hsides, hmem⟩ := ((Effect.walkHeld _ s sd acks).trans (hended _)).kept
  refine ⟨_, exec_enumDone s sd acks moved hs hwalk, s.walkEnded_walks sd acks moved, hdone, hmoved, hunindexed, ?_, fun k h1 h62 => ?_,
    hregs, hsides, hwords, hmem⟩
  · rw [hrd _ (by simp [resultFields]), s.walkHeld_frame sd acks]
  · rw [hrd _ (by simp [resultFields]), s.walkHeld_reach sd acks h1 h62]

/-- Settles O16: at each node the walk's command has one result state, whose registers, folios and frame the lemmas above give. -/
theorem enumeration : Obligations.Enumeration := by
  unfold Obligations.Enumeration
  intro s sd hinv
  refine ⟨linkUpReceive_walks hinv.sides sd, fun ws hops hmark => ?_, enumDone_held s sd⟩
  generalize hw : (ws.getD 1 0).toNat = w at hmark ⊢
  have hexec := exec_enumReceive s sd hops hw hmark
  exact ⟨fun ht hchain hdir => ⟨fun hnext => ⟨_, hexec, walkTaken_index_kept rfl hinv.sides ht hchain hdir hnext⟩,
      fun hnext => ⟨_, hexec, walkTaken_beyond_kept rfl ht hchain hdir hnext⟩⟩,
    fun ht hback => ⟨_, hexec, walkTaken_told_kept rfl ht hback⟩,
    fun hs hchain => ⟨fun hnode hdir => ⟨_, hexec, walkTaken_answered_kept rfl hinv.sides hs hnode hchain hdir⟩,
      fun hnode hdir => hexec.trans (congrArg _ (State.walkTaken_returned hs hnode hchain hdir))⟩⟩

end Sys2Proof.Machine
end

