-- ==== Sys2Proof/Proofs/TimeSteering.lean ====
section
/-! SUPPORT. What following a source of time changes: the servo's state, wall time, and what both show in the registers (R154, R159 to R161). -/

namespace Sys2Proof.Machine

/-! ### What the servo leaves alone -/

/-- The Wall Time Unit without what the servo and the choice of a source change: timing pins, PTP slots, timebase, gating and captures. -/
def Wtu.apart (x : Wtu) : Wtu :=
  { x with wt := 0, freq := 0, slew := 0, holdAt := 0, lockSince := none, lockRun := 0, wasLocked := false, links := [] }

/-- A change that follows a source of time. It touches no register field out of `own` and nothing in `Wtu.apart`, keeps the roots heard, and
leaves the links alone where the servo may not step (R160). -/
structure Steered (own : Nat → Bool) (s t : State) : Prop where
  effect : Effect own (fun _ => false) s t
  apart : t.wtu.apart = s.wtu.apart
  locked : s.wtu.wasLocked = true → t.wtu.wasLocked = true
  stepEn : t.on WTU_SRC_CFG_STEP_EN = s.on WTU_SRC_CFG_STEP_EN
  roots : ∀ i, (t.timeLink i).root = (s.timeLink i).root
  links : s.wtu.wasLocked = true → s.on WTU_SRC_CFG_STEP_EN = false → t.wtu.links = s.wtu.links

namespace Steered
variable {own : Nat → Bool} {s t u : State}

theorem refl (own : Nat → Bool) (s : State) : Steered own s s := ⟨.refl own _ s, rfl, id, rfl, fun _ => rfl, fun _ _ => rfl⟩

theorem trans (h : Steered own s t) (k : Steered own t u) : Steered own s u where
  effect := h.effect.trans k.effect
  apart := k.apart.trans h.apart
  locked hs := k.locked (h.locked hs)
  stepEn := k.stepEn.trans h.stepEn
  roots i := (k.roots i).trans (h.roots i)
  links hs he := (k.links (h.locked hs) (h.stepEn.trans he)).trans (h.links hs he)

theorem mono {own' : Nat → Bool} (h : Steered own s t) (ho : ∀ k, own k = true → own' k = true) : Steered own' s t :=
  { h with effect := h.effect.mono ho fun _ h => h }

/-- A change of registers, notes and outputs alone. -/
theorem of_effect (h : Effect own (fun _ => false) s t) (hw : t.wtu = s.wtu) (ho : own WTU_SRC_CFG_STEP_EN.key = false) : Steered own s t where
  effect := h
  apart := by rw [hw]
  locked hs := by rw [hw, hs]
  stepEn := by rw [State.on, h.rd (by decide) ho, State.on]
  roots i := by rw [State.timeLink, hw, State.timeLink]
  links _ _ := by rw [hw]

/-- A change of the servo's own state alone. -/
theorem of_wtu (own : Nat → Bool) {x : Wtu} (ha : x.apart = s.wtu.apart) (hs : s.wtu.wasLocked = true → x.wasLocked = true)
    (hl : x.links = s.wtu.links) : Steered own s { s with wtu := x } where
  effect := .of_same rfl rfl rfl rfl rfl
  apart := ha
  locked := hs
  stepEn := rfl
  roots i := congrArg (fun l : List TimeLink => (l.getD i TimeLink.reset).root) hl
  links _ _ := hl

theorem when (h : Steered own s t) (c : Bool) {g : State → State} (hg : ∀ s, Steered own s (g s)) : Steered own s (t.when c g) :=
  State.when_keeps (P := Steered own s) c g (fun t h => h.trans (hg t)) h

theorem raise (s : State) (pg b : Nat) (ho : own WTU_SRC_CFG_STEP_EN.key = false) : Steered own s (s.raise pg b) :=
  of_effect (.raise own _ s pg b) (State.raise_wtu s pg b) ho

theorem wr (s : State) {f : Fld} (v : Nat) (hf : own f.key = true) (hp : plainKey f.key = true) (ho : own WTU_SRC_CFG_STEP_EN.key = false) :
    Steered own s (s.wr f v) := of_effect (.wr _ s f v hf hp) rfl ho

/-- A field out of reach reads as before. -/
theorem rd (h : Steered own s t) {f : Fld} (hf : plainKey f.key = true) (ho : own f.key = false) : t.rd f = s.rd f := h.effect.rd hf ho

end Steered

/-! ### Wall time is read (R154) -/

theorem Steered.passTo (s : State) (w : Nat) : Steered (keysOf [WTU_SRC_STAT_OFFSET_NS, WTU_SRC_STAT_HOLD_S]) s (s.passTo w) := by
  unfold State.passTo
  extract_lets x most left s1 s2
  have hread : Steered (keysOf [WTU_SRC_STAT_OFFSET_NS, WTU_SRC_STAT_HOLD_S]) s s1 := .of_wtu _ rfl id rfl
  have hslewed : Steered (keysOf [WTU_SRC_STAT_OFFSET_NS, WTU_SRC_STAT_HOLD_S]) s s2 := by
    simp only [s2]
    split
    · exact hread
    · exact hread.trans (.wr s1 _ (by decide) (by decide) (by decide))
  split
  · exact hslewed.trans (.wr s2 _ (by decide) (by decide) (by decide))
  · exact hslewed

/-- The reading of wall time changes no window, nothing in frame memory and no output. -/
theorem State.passTo_same (s : State) (w : Nat) : (s.passTo w).win = s.win ∧ (s.passTo w).mem = s.mem ∧ (s.passTo w).out = s.out := by
  simp only [State.passTo]
  split_ifs <;> exact ⟨rfl, rfl, rfl⟩

theorem State.passTo_links (s : State) (w : Nat) : (s.passTo w).wtu.links = s.wtu.links := by
  simp only [State.passTo]
  split_ifs <;> simp only [State.wr_wtu]

/-! ### TIME folios leave (R157, R164) -/

theorem Steered.sendTimeNow {own : Nat → Bool} (s : State) (sd : Nat) (ho : own WTU_SRC_CFG_STEP_EN.key = false) :
    Steered own s (s.sendTimeNow sd) := by
  unfold State.sendTimeNow State.sendTime
  split
  · exact .of_effect ((Effect.drawn own _ s).trans (.sendFolios own _ _ sd _)) rfl ho
  · exact .of_effect (.drawn own _ s) rfl ho

theorem Steered.told {own : Nat → Bool} (old s : State) (ho : own WTU_SRC_CFG_STEP_EN.key = false) : Steered own s (old.told s) :=
  ((Steered.refl own s).when _ fun t => .sendTimeNow t 0 ho).when _ fun t => .sendTimeNow t 1 ho

theorem State.sendTimeNow_wtu (s : State) (sd : Nat) : (s.sendTimeNow sd).wtu = s.wtu := by
  unfold State.sendTimeNow State.sendTime
  split <;> rfl

theorem State.told_wtu (old s : State) : (old.told s).wtu = s.wtu :=
  State.when_keeps (P := fun t => t.wtu = s.wtu) _ _ (fun t ht => (t.sendTimeNow_wtu 1).trans ht)
    (State.when_keeps (P := fun t => t.wtu = s.wtu) _ _ (fun t ht => (t.sendTimeNow_wtu 0).trans ht) rfl)

theorem State.told_rd (old s : State) {f : Fld} (hf : plainKey f.key = true) : (old.told s).rd f = s.rd f :=
  (Steered.told (own := fun _ => false) old s rfl).rd hf rfl

/-! ### Lamps go off when the time is lost (R161) -/

theorem apart_wtu : Apart State.wtu := ⟨fun _ _ _ => rfl, fun _ _ _ => rfl, Quiet.wtu⟩

theorem State.offBank_wtu (s : State) (cause d : Nat) : (s.offBank cause d).wtu = s.wtu := by
  have hzeros : (if s.pl (DRV_CFG_MODE d) = 2 then s.sendStrings d 1024 (fun _ _ => 0) else s).wtu = s.wtu := by
    split
    · exact apart_wtu.each (g := fun t j => t.send _) (fun _ _ => rfl) s
    · rfl
  exact hzeros

theorem State.lampsOff_wtu (s : State) (cause : Nat) : (s.lampsOff cause).wtu = s.wtu := by
  unfold State.lampsOff State.safeDisable
  extract_lets on s1 s2
  have hbanks : s1.wtu = s.wtu := apart_wtu.each (fun t d => t.offBank_wtu cause d) s
  have hcount : s2.wtu = s.wtu := by
    simp only [s2]
    split <;> exact hbanks
  split
  · exact (State.raise_wtu _ _ _).trans hcount
  · split <;> exact hcount

/-! ### The servo's state and the choice of a source (R159, R160, R163) -/

/-- The fields that a change of the servo's state changes, with those of the lamps. -/
def servoFields : List Fld := [WTU_SRC_STAT_STATE, WTU_SRC_STAT_HOLD_S] ++ darkFields

/-- The fields that a change of the source in use changes. -/
def sourceFields : List Fld := [WTU_SRC_STAT_SRC, WTU_SRC_STAT_OFFSET_NS, WTU_RING_OFS_VALID] ++ servoFields

theorem servoFields_in : fieldsIn timePages servoFields = true := by decide

theorem sourceFields_in : fieldsIn timePages sourceFields = true := by decide

theorem servoFields_stepEn : keysOf servoFields WTU_SRC_CFG_STEP_EN.key = false := by decide

theorem sourceFields_stepEn : keysOf sourceFields WTU_SRC_CFG_STEP_EN.key = false := by decide

theorem Steered.wr_servo (s : State) {f : Fld} (v : Nat) (hf : f ∈ servoFields) : Steered (keysOf servoFields) s (s.wr f v) :=
  .wr s v (keysOf_mem hf) (plainKey_of_fieldsIn servoFields_in hf) servoFields_stepEn

theorem Steered.raise_servo (s : State) (pg b : Nat) : Steered (keysOf servoFields) s (s.raise pg b) := .raise s pg b servoFields_stepEn

theorem Steered.lampsOff (s : State) (cause : Nat) : Steered (keysOf servoFields) s (s.lampsOff cause) :=
  .of_effect ((Effect.lampsOff _ s cause).mono (keysOf_subset (List.subset_append_right _ _)) fun _ h => h) (s.lampsOff_wtu cause)
    servoFields_stepEn

/-- What has been measured toward LOCKED begins anew. -/
def State.lockBegun (s : State) : State := { s with wtu := { s.wtu with lockSince := none, lockRun := 0 } }
/-- LOCKED has been reached. -/
def State.lockReached (s : State) : State := { s with wtu := { s.wtu with wasLocked := true } }
/-- HOLDOVER begins at wall time as last read. -/
def State.holdBegun (s : State) : State := { s with wtu := { s.wtu with holdAt := s.wtu.wt, slew := 0 } }

/-- The servo takes state `st`. -/
def State.servoEntered (s : State) (st : Nat) : State := s.lockBegun.wr WTU_SRC_STAT_STATE st

/-- LOCKED or HOLDOVER is noted as the servo takes state `st`. -/
def State.servoNoted (s : State) (st : Nat) : State :=
  if st = 2 then s.lockReached.raise 8 5
  else if st = 3 then (s.holdBegun.wr WTU_SRC_STAT_HOLD_S 0).raise 8 6
  else s

theorem State.setServo_eq (s : State) (st : Nat) : s.setServo st =
    if st = s.rd WTU_SRC_STAT_STATE then s
    else if 2 ≤ s.rd WTU_SRC_STAT_STATE ∧ st < 2 ∧ ((s.servoEntered st).servoNoted st).isTile = true then
      ((s.servoEntered st).servoNoted st).lampsOff whyTIME
    else (s.servoEntered st).servoNoted st := rfl

theorem Steered.lockBegun (own : Nat → Bool) (s : State) : Steered own s s.lockBegun := .of_wtu own rfl id rfl
theorem Steered.lockReached (own : Nat → Bool) (s : State) : Steered own s s.lockReached := .of_wtu own rfl (fun _ => rfl) rfl
theorem Steered.holdBegun (own : Nat → Bool) (s : State) : Steered own s s.holdBegun := .of_wtu own rfl id rfl

theorem Steered.servoEntered (s : State) (st : Nat) : Steered (keysOf [WTU_SRC_STAT_STATE]) s (s.servoEntered st) :=
  (Steered.lockBegun _ s).trans (.wr s.lockBegun st (by decide) (by decide) (by decide))

theorem Steered.servoNoted (s : State) (st : Nat) : Steered (keysOf servoFields) s (s.servoNoted st) := by
  unfold State.servoNoted
  split
  · exact (Steered.lockReached _ s).trans (.raise_servo _ 8 5)
  · split
    · exact ((Steered.holdBegun _ s).trans (.wr_servo _ 0 (by simp [servoFields]))).trans (.raise_servo _ 8 6)
    · exact .refl _ s

theorem Steered.setServo (s : State) (st : Nat) : Steered (keysOf servoFields) s (s.setServo st) := by
  have hnoted : Steered (keysOf servoFields) s ((s.servoEntered st).servoNoted st) :=
    ((Steered.servoEntered s st).mono (keysOf_subset (by simp [servoFields]))).trans (.servoNoted _ st)
  rw [State.setServo_eq]
  split
  · exact .refl _ s
  · split
    · exact hnoted.trans (.lampsOff _ whyTIME)
    · exact hnoted

/-- Source `c` comes into use: SRC_STAT shows it with its offset. -/
def State.sourceTaken (s : State) (c : Nat) : State :=
  (((s.wr WTU_SRC_STAT_SRC c).wr WTU_SRC_STAT_OFFSET_NS (s.srcOffset c)).when (c == 5) fun s => s.wr WTU_RING_OFS_VALID 0).raise 8 4

/-- The servo's frequency correction and the phase left to slew. -/
def State.setSteer (s : State) (freq slew : Int) : State := { s with wtu := { s.wtu with freq := freq, slew := slew } }

theorem State.evalSrc_eq (s : State) : s.evalSrc =
    if s.chooseSrc = 0 then if s.rd WTU_SRC_STAT_STATE = 3 then s else (s.setServo 3).raise 8 4
    else if s.chooseSrc = s.rd WTU_SRC_STAT_SRC ∧ s.rd WTU_SRC_STAT_STATE ≠ 3 then s
    else if s.chooseSrc = 7 then ((s.sourceTaken s.chooseSrc).setSteer 0 0).setServo 0
    else if (s.rd WTU_SRC_STAT_SRC = 1 ∨ s.rd WTU_SRC_STAT_SRC = 2) ∧ (s.chooseSrc = 1 ∨ s.chooseSrc = 2) ∧ s.rd WTU_SRC_STAT_STATE = 2 then
      (s.sourceTaken s.chooseSrc).setSteer (s.sourceTaken s.chooseSrc).wtu.freq (toSigned 32 (s.srcOffset s.chooseSrc) * 65536)
    else (s.sourceTaken s.chooseSrc).setServo 1 := rfl

theorem Steered.wr_source (s : State) {f : Fld} (v : Nat) (hf : f ∈ sourceFields) : Steered (keysOf sourceFields) s (s.wr f v) :=
  .wr s v (keysOf_mem hf) (plainKey_of_fieldsIn sourceFields_in hf) sourceFields_stepEn

theorem Steered.raise_source (s : State) (pg b : Nat) : Steered (keysOf sourceFields) s (s.raise pg b) := .raise s pg b sourceFields_stepEn

theorem Steered.setServo_source (s : State) (st : Nat) : Steered (keysOf sourceFields) s (s.setServo st) :=
  (Steered.setServo s st).mono (keysOf_subset (List.subset_append_right _ _))

theorem Steered.sourceTaken (s : State) (c : Nat) : Steered (keysOf sourceFields) s (s.sourceTaken c) :=
  (((Steered.wr_source s c (by simp [sourceFields])).trans (.wr_source _ _ (by simp [sourceFields]))).when _
    fun t => .wr_source t 0 (by simp [sourceFields])).trans (.raise_source _ 8 4)

theorem Steered.setSteer (own : Nat → Bool) (s : State) (freq slew : Int) : Steered own s (s.setSteer freq slew) := .of_wtu own rfl id rfl

theorem Steered.evalSrc (s : State) : Steered (keysOf sourceFields) s s.evalSrc := by
  have htaken := Steered.sourceTaken s s.chooseSrc
  rw [State.evalSrc_eq]
  split
  · split
    · exact .refl _ s
    · exact (Steered.setServo_source s 3).trans (.raise_source _ 8 4)
  · split
    · exact .refl _ s
    · split
      · exact (htaken.trans (.setSteer _ _ 0 0)).trans (.setServo_source _ 0)
      · split
        · exact htaken.trans (.setSteer _ _ _ _)
        · exact htaken.trans (.setServo_source _ 1)

/-- No evaluation of the sources brings about a difference to the ring (R169). -/
theorem State.evalSrc_ringOfs {s : State} (h : s.rd WTU_RING_OFS_VALID = 0) : s.evalSrc.rd WTU_RING_OFS_VALID = 0 := by
  have hservo (t : State) (st : Nat) : (t.setServo st).rd WTU_RING_OFS_VALID = t.rd WTU_RING_OFS_VALID :=
    (Steered.setServo t st).rd (by decide) (by decide)
  have hraise (t : State) : (t.raise 8 4).rd WTU_RING_OFS_VALID = t.rd WTU_RING_OFS_VALID := State.raise_rd t 8 4 _ (by decide)
  have hzero (t : State) (_ : t.rd WTU_RING_OFS_VALID = 0) : (t.wr WTU_RING_OFS_VALID 0).rd WTU_RING_OFS_VALID = 0 :=
    State.rd_wr_of t WTU_RING_OFS_VALID 1 rfl (by decide) (by decide)
  have htaken (c : Nat) : (s.sourceTaken c).rd WTU_RING_OFS_VALID = 0 := by
    rw [State.sourceTaken, hraise]
    refine State.when_keeps (P := fun t => t.rd WTU_RING_OFS_VALID = 0) _ _ hzero ?_
    rw [State.rd_wr_ne _ _ (by decide), State.rd_wr_ne _ _ (by decide), h]
  rw [State.evalSrc_eq]
  split
  · split
    · exact h
    · rw [hraise, hservo, h]
  · split
    · exact h
    · split
      · exact (hservo _ 0).trans (htaken _)
      · split
        · exact htaken _
        · exact (hservo _ 1).trans (htaken _)

/-! ### A source's validity (R159) -/

/-- SRC_STAT.VALID with the bit of source `c` as `v`. -/
def validWith (old c : Nat) (v : Bool) : Nat := old - (old &&& 2 ^ c) + b2n v * 2 ^ c

theorem validWith_testBit (old c : Nat) (v : Bool) : (validWith old c v).testBit c = v := by
  have hcut : old - (old &&& 2 ^ c) + b2n v * 2 ^ c = old - 2 ^ c * (old / 2 ^ c % 2) + b2n v * 2 ^ c := by
    rw [Nat.and_two_pow, Nat.testBit_eq_decide_div_mod_eq]
    rcases Nat.mod_two_eq_zero_or_one (old / 2 ^ c) with h | h <;> simp [h]
  have hdiv : (old - 2 ^ c * (old / 2 ^ c % 2) + b2n v * 2 ^ c) / 2 ^ c = old / 2 ^ c - old / 2 ^ c % 2 + b2n v := by
    rw [Nat.add_mul_div_right _ _ (Nat.two_pow_pos c), Nat.sub_mul_div_of_le]
    exact (Nat.mul_le_mul_left _ (Nat.mod_le _ _)).trans (Nat.mul_div_le _ _)
  rw [validWith, hcut, Nat.testBit_eq_decide_div_mod_eq, hdiv]
  cases v <;> simp [b2n] <;> omega

theorem State.setSource_eq (s : State) (c : Nat) (v : Bool) : s.setSource c v =
    if validWith (s.rd WTU_SRC_STAT_VALID) c v = s.rd WTU_SRC_STAT_VALID then s
    else (s.wr WTU_SRC_STAT_VALID (validWith (s.rd WTU_SRC_STAT_VALID) c v)).evalSrc := rfl

theorem Steered.setSource (s : State) (c : Nat) (v : Bool) : Steered (keysOf (WTU_SRC_STAT_VALID :: sourceFields)) s (s.setSource c v) := by
  rw [State.setSource_eq]
  split
  · exact .refl _ s
  · exact (Steered.wr s _ (by decide) (by decide) (by decide)).trans ((Steered.evalSrc _).mono (keysOf_subset (List.subset_cons_self _ _)))

/-- The source is as valid as it was set, whatever the evaluation of the sources does. -/
theorem State.setSource_valid (s : State) {c : Nat} (hc : c < 8) (v : Bool) : ((s.setSource c v).rd WTU_SRC_STAT_VALID).testBit c = v := by
  have hbit := validWith_testBit (s.rd WTU_SRC_STAT_VALID) c v
  rw [State.setSource_eq]
  split
  case isTrue hsame => rwa [hsame] at hbit
  case isFalse =>
    rw [(Steered.evalSrc _).rd (by decide) (by decide), State.rd_wr_mod _ _ _ (by decide), Nat.testBit_mod_two_pow, hbit]
    simp [WTU_SRC_STAT_VALID, hc]

/-! ### An offset is measured (R160, R167) -/

/-- The fields that a measured offset changes: where it is shown, and what a step of wall time moves. -/
def steerFields : List Fld := [WTU_SRC_STAT_OFFSET_NS, WTU_FRAME_FRAME_NO, WTU_PTP_STAT_OFFSET_NS 0, WTU_PTP_STAT_OFFSET_NS 1]

theorem steerFields_in : fieldsIn timePages steerFields = true := by decide

theorem steerFields_stepEn : keysOf steerFields WTU_SRC_CFG_STEP_EN.key = false := by decide

theorem Steered.wr_steer (s : State) {f : Fld} (v : Nat) (hf : f ∈ steerFields) : Steered (keysOf steerFields) s (s.wr f v) :=
  .wr s v (keysOf_mem hf) (plainKey_of_fieldsIn steerFields_in hf) steerFields_stepEn

theorem Steered.setLatchDone (s : State) (b : Bool) : Steered (keysOf steerFields) s { s with latchDone := b } :=
  .of_effect (.of_same rfl rfl rfl rfl rfl) rfl steerFields_stepEn

theorem Steered.takeFrame (s : State) : Steered (keysOf steerFields) s s.takeFrame := by
  unfold State.takeFrame
  exact (Steered.wr_steer s (f := WTU_FRAME_FRAME_NO) (s.tb.frameAt s.wtu.wt) (by simp [steerFields])).trans (.setLatchDone _ _)

/-- An instant in 2^-16 ns after wall time has stepped back by `o`. -/
def backBy (o : Int) (v : Nat) : Nat := ((v : Int) - o).toNat

/-- A link's stamps and offsets after wall time has stepped back by `o`. -/
def TimeLink.backBy (o : Int) (l : TimeLink) : TimeLink :=
  { l with last := l.last.map fun e => (e.1, Machine.backBy o e.2.1, e.2.2), offsets := l.offsets.map (· - o) }

/-- Wall time steps back by `o`, with what has been measured against it. -/
def State.clockBack (s : State) (o : Int) : State :=
  { s with wtu := { s.wtu with wt := backBy o s.wtu.wt, slew := 0, lockSince := s.wtu.lockSince.map (backBy o),
                               links := s.wtu.links.map (TimeLink.backBy o) } }

/-- The offset of a PTP slot that follows its master steps with wall time. -/
def State.ptpBack (o : Int) (s : State) (d : Nat) : State :=
  if s.rd (WTU_PTP_STAT_STATE d) = 2 then
    s.wr (WTU_PTP_STAT_OFFSET_NS d) (ofSigned 32 (toSigned 32 (s.rd (WTU_PTP_STAT_OFFSET_NS d)) - o / 65536))
  else s

theorem State.stepTime_eq (s : State) (o : Int) : s.stepTime o = ((s.clockBack o).each [0, 1] (State.ptpBack o)).takeFrame := rfl

/-- Where the servo may step, a step keeps the roots heard. -/
theorem Steered.clockBack (own : Nat → Bool) (s : State) (o : Int) (h : s.wtu.wasLocked = true → s.on WTU_SRC_CFG_STEP_EN = true) :
    Steered own s (s.clockBack o) where
  effect := .of_same rfl rfl rfl rfl rfl
  apart := rfl
  locked := id
  stepEn := rfl
  roots i := by
    simp only [State.timeLink, State.clockBack, List.getD_eq_getElem?_getD, List.getElem?_map]
    cases s.wtu.links[i]? <;> rfl
  links hs he := absurd (h hs) (by simp [he])

theorem Steered.stepTime (s : State) (o : Int) (h : s.wtu.wasLocked = true → s.on WTU_SRC_CFG_STEP_EN = true) :
    Steered (keysOf steerFields) s (s.stepTime o) := by
  have hptp (t : State) {d : Nat} (hd : WTU_PTP_STAT_OFFSET_NS d ∈ steerFields) : Steered (keysOf steerFields) t (t.ptpBack o d) := by
    unfold State.ptpBack
    split
    · exact .wr_steer t _ hd
    · exact .refl _ t
  rw [State.stepTime_eq]
  exact (((Steered.clockBack _ s o h).trans (hptp _ (by simp [steerFields]))).trans (hptp _ (by simp [steerFields]))).trans (.takeFrame _)

/-- The servo measures the offset `o`: it corrects its frequency, and counts toward LOCKED. -/
def State.offsetMeasured (s : State) (o : Int) : State :=
  { s with wtu := { s.wtu with
      lockSince := if o.natAbs < 1000 * nsU then s.wtu.lockSince <|> some s.wtu.wt else none
      lockRun := if o.natAbs < 2 * nsU then s.wtu.lockRun + 1 else 0
      freq := Config.servoFreq s.wtu.freq o } }

/-- The offset `o` is measured and shown. -/
def State.offsetNoted (s : State) (o : Int) : State := (s.offsetMeasured o).wr WTU_SRC_STAT_OFFSET_NS (ofSigned 32 (o / 65536))

/-- Whether the offset `o` exceeds STEP_LIM_NS. -/
def State.offsetFar (s : State) (o : Int) : Bool := decide ((s.rd WTU_SRC_CFG_STEP_LIM_NS : Int) < (o / 65536).natAbs)

/-- Whether the servo steps by the offset `o`: before the first LOCKED, or beyond STEP_LIM_NS where it may. -/
def State.offsetSteps (s : State) (o : Int) : Bool :=
  (!s.wtu.wasLocked && s.rd WTU_SRC_STAT_STATE == 1) || (s.offsetFar o && (!s.isLit && s.on WTU_SRC_CFG_STEP_EN))

theorem State.noteOffset_eq (s : State) (o : Int) (phase : Bool) : s.noteOffset o phase =
    if phase = false then s.offsetNoted o
    else if s.offsetSteps o then ((s.offsetNoted o).stepTime o).wr WTU_SRC_STAT_OFFSET_NS 0
    else ((s.offsetNoted o).setSteer (s.offsetNoted o).wtu.freq o).when (s.offsetFar o) fun s => s.raise 8 7 := rfl

theorem Steered.offsetMeasured (own : Nat → Bool) (s : State) (o : Int) : Steered own s (s.offsetMeasured o) := .of_wtu own rfl id rfl

theorem Steered.offsetNoted (s : State) (o : Int) : Steered (keysOf steerFields) s (s.offsetNoted o) :=
  (Steered.offsetMeasured _ s o).trans (.wr_steer (s.offsetMeasured o) (f := WTU_SRC_STAT_OFFSET_NS) _ (by simp [steerFields]))

theorem Steered.noteOffset (s : State) (o : Int) (phase : Bool) : Steered (keysOf steerFields) s (s.noteOffset o phase) := by
  have hnoted := Steered.offsetNoted s o
  rw [State.noteOffset_eq]
  split
  · exact hnoted
  · split
    case isTrue hsteps =>
      have hmay : (s.offsetNoted o).wtu.wasLocked = true → (s.offsetNoted o).on WTU_SRC_CFG_STEP_EN = true := fun hlocked => by
        have hnow : s.wtu.wasLocked = true := hlocked
        simp only [State.offsetSteps, hnow, Bool.not_true, Bool.false_and, Bool.false_or, Bool.and_eq_true] at hsteps
        exact hnoted.stepEn.trans hsteps.2.2
      exact (hnoted.trans (.stepTime _ o hmay)).trans (.wr_steer _ 0 (by simp [steerFields]))
    case isFalse =>
      exact (hnoted.trans (.setSteer _ _ _ o)).when _ fun t => .raise t 8 7 steerFields_stepEn

end Sys2Proof.Machine
end

