-- ==== Sys2Proof/Proofs/TimeOutputsAndPins.lean ====
section
/-! SUPPORT. TIME folios and pulses that leave, genlock and PPS edges and their loss, captures (R164, R171 to R174, R179, R181, R182). -/

namespace Sys2Proof.Machine

/-! ### What a timing command reaches -/

/-- The frame of a statement, out of an effect with a smaller reach. -/
theorem Effect.frame {own own' : Nat → Bool} {s t : State} (h : Effect own (fun _ => false) s t) (ho : ∀ k, own k = true → own' k = true) :
    SidesKept s t ∧ RegsKept own' s t ∧ WordsKept (fun _ => false) s t ∧ (s.quietMem → t.mem = s.mem) := by
  obtain ⟨hregs, hwords, hsides, hmem⟩ := (h.mono ho fun _ h => h).kept
  exact ⟨hsides, hregs, hwords, hmem⟩

theorem Effect.setWtu (own words : Nat → Bool) (s : State) (x : Wtu) : Effect own words s { s with wtu := x } := .of_same rfl rfl rfl rfl rfl

/-- A change that follows a source stays within the pages of the time and the lamps. -/
theorem Steered.pages {fs : List Fld} {s t : State} (h : Steered (keysOf fs) s t) (hfs : fieldsIn timePages fs = true) :
    Effect (pagesOf timePages) (fun _ => false) s t := h.effect.mono (pagesOf_of_fieldsIn hfs) fun _ h => h

theorem Effect.passTo (s : State) (w : Nat) : Effect (pagesOf timePages) (fun _ => false) s (s.passTo w) := (Steered.passTo s w).pages (by decide)

theorem Effect.setSource (s : State) (c : Nat) (v : Bool) : Effect (pagesOf timePages) (fun _ => false) s (s.setSource c v) :=
  (Steered.setSource s c v).pages (by decide)

theorem Effect.told (own : Nat → Bool) (old s : State) : Effect own (fun _ => false) s (old.told s) :=
  (Steered.told (own := fun _ => false) old s rfl).effect.mono nofun fun _ h => h

namespace Steered
variable {own : Nat → Bool} {s t : State}

theorem glkLast (h : Steered own s t) : t.wtu.glkLast = s.wtu.glkLast := (congrArg Wtu.glkLast h.apart :)
theorem ppsLast (h : Steered own s t) : t.wtu.ppsLast = s.wtu.ppsLast := (congrArg Wtu.ppsLast h.apart :)
theorem capLast (h : Steered own s t) : t.wtu.capLast = s.wtu.capLast := (congrArg Wtu.capLast h.apart :)
theorem ptp (h : Steered own s t) : t.wtu.ptp = s.wtu.ptp := (congrArg Wtu.ptp h.apart :)
theorem fwinIn (h : Steered own s t) : t.wtu.fwinIn = s.wtu.fwinIn := (congrArg Wtu.fwinIn h.apart :)
theorem fwinLast (h : Steered own s t) : t.wtu.fwinLast = s.wtu.fwinLast := (congrArg Wtu.fwinLast h.apart :)

end Steered

/-- An input that marks time is measured where it is the source in use, and neighbors are told of what is new. -/
theorem Steered.followed (old s : State) (c : Prop) [Decidable c] (o : Int) (phase : Bool) :
    Steered (keysOf steerFields) s (old.told (if c then s.noteOffset o phase else s)) := by
  refine Steered.trans ?_ (.told old _ steerFields_stepEn)
  split
  · exact .noteOffset s o phase
  · exact .refl _ s

/-! ### Genlock (R172, R179) -/

/-- A genlock edge at `w` is the last one, wall time is read, and the source is valid. -/
def State.glkHeard (s : State) (w : Nat) : State := ({ s with wtu := { s.wtu with glkLast := some w } }.passTo w).setSource 4 true

theorem exec_glkEdge_bad (s : State) (w : Nat) (hen : s.on WTU_GLK_EN = true) (ht : s.isTile = false) :
    exec (.glkEdge w false) s = .next (s.bump WTU_GLK_BAD) := by
  simp only [exec, execGlkEdge, hen, ht, Bool.false_and, if_true, Bool.true_eq_false, Bool.false_eq_true, or_self, if_false]

theorem exec_glkEdge_first (s : State) (w : Nat) (hen : s.on WTU_GLK_EN = true) (ht : s.isTile = false) (hlast : s.wtu.glkLast = none) :
    ∃ o, exec (.glkEdge w true) s =
      .next (s.told (if (s.glkHeard w).rd WTU_SRC_STAT_SRC = 4 then (s.glkHeard w).noteOffset o true else s.glkHeard w)) := by
  simp only [exec, execGlkEdge, hen, ht, hlast, Bool.true_and, Bool.true_eq_false, Bool.false_eq_true, or_self, if_false]
  exact ⟨_, rfl⟩

theorem Effect.glkHeard (s : State) (w : Nat) : Effect (pagesOf timePages) (fun _ => false) s (s.glkHeard w) :=
  ((Effect.setWtu _ _ s _).trans (.passTo _ w)).trans (.setSource _ 4 true)

theorem State.glkHeard_glkLast (s : State) (w : Nat) : (s.glkHeard w).wtu.glkLast = some w :=
  (Steered.setSource _ 4 true).glkLast.trans (Steered.passTo _ w).glkLast

theorem glkEdge_first {s : State} {w : Nat} (hen : s.on WTU_GLK_EN = true) (ht : s.isTile = false) (hlast : s.wtu.glkLast = none) :
    ∃ t, exec (.glkEdge w true) s = .next t ∧ t.wtu.glkLast = some w ∧ (t.rd WTU_SRC_STAT_VALID).testBit 4 = true ∧ SidesKept s t ∧
      RegsKept (pagesOf timePages) s t ∧ WordsKept (fun _ => false) s t ∧ (s.quietMem → t.mem = s.mem) := by
  obtain ⟨o, hexec⟩ := exec_glkEdge_first s w hen ht hlast
  have hfollow := Steered.followed s (s.glkHeard w) ((s.glkHeard w).rd WTU_SRC_STAT_SRC = 4) o true
  refine ⟨_, hexec, hfollow.glkLast.trans (s.glkHeard_glkLast w), ?_,
    ((Effect.glkHeard s w).trans (hfollow.pages steerFields_in)).frame fun _ h => h⟩
  rw [hfollow.rd (by decide) (by decide)]
  exact State.setSource_valid _ (by decide) true

/-! ### PPS in (R173, R179) -/

/-- The role stands where an effect does not reach it. -/
theorem Effect.isTile {own words : Nat → Bool} {s t : State} (h : Effect own words s t) (ho : own HIF_STRAP_STAT_ROLE.key = false) :
    t.isTile = s.isTile := by
  simp only [State.isTile, State.role, State.rd, h.regs _ ho (by decide)]

/-- The second that the coming PPS edge marks: TOD.SEC_NEXT once it has been written, else the one nearest to wall time. -/
def State.ppsMark (s : State) (w : Nat) : Nat :=
  if s.wtu.todSet then s.rd WTU_TOD_SEC_NEXT else (w + 1000000000 * 65536 / 2) / (1000000000 * 65536)

/-- A PPS edge at `w` is the last one, wall time is read, and TOD advances. -/
def State.ppsCounted (s : State) (w : Nat) : State :=
  ({ s with wtu := { s.wtu with ppsLast := some w, todSet := true } }.passTo w).wr WTU_TOD_SEC_NEXT (s.ppsMark w + 1)

/-- With it the source of a part that is no tile is valid. -/
def State.ppsHeard (s : State) (w : Nat) : State := if (s.ppsCounted w).isTile then s.ppsCounted w else (s.ppsCounted w).setSource 3 true

theorem exec_ppsEdge_first (s : State) (w : Nat) (hen : s.on WTU_PPS_IN_EN = true) (hlast : s.wtu.ppsLast = none) :
    ∃ o, exec (.ppsEdge w true) s =
      .next (s.told (if (s.ppsHeard w).rd WTU_SRC_STAT_SRC = 3 then (s.ppsHeard w).noteOffset o true else s.ppsHeard w)) := by
  simp only [exec, execPpsEdge, hen, hlast, Bool.true_and, Bool.true_eq_false, if_false]
  exact ⟨_, rfl⟩

theorem Effect.ppsCounted (s : State) (w : Nat) : Effect (pagesOf timePages) (fun _ => false) s (s.ppsCounted w) :=
  ((Effect.setWtu _ _ s _).trans (.passTo _ w)).trans (.wr _ _ WTU_TOD_SEC_NEXT _ (by decide) (by decide))

theorem Steered.ppsHeard (s : State) (w : Nat) :
    Steered (keysOf (WTU_SRC_STAT_VALID :: sourceFields)) (s.ppsCounted w) (s.ppsHeard w) := by
  unfold State.ppsHeard
  split
  · exact .refl _ _
  · exact .setSource _ 3 true

theorem State.ppsHeard_valid {s : State} (w : Nat) (ht : s.isTile = false) : ((s.ppsHeard w).rd WTU_SRC_STAT_VALID).testBit 3 = true := by
  have hcounted : (s.ppsCounted w).isTile = false := ((Effect.ppsCounted s w).isTile (by decide)).trans ht
  rw [State.ppsHeard, if_neg (Bool.eq_false_iff.mp hcounted)]
  exact State.setSource_valid _ (by decide) true

theorem State.ppsHeard_tod (s : State) (w : Nat) : (s.ppsHeard w).rd WTU_TOD_SEC_NEXT = (s.ppsMark w + 1) % 2 ^ 64 := by
  rw [(Steered.ppsHeard s w).rd (by decide) (by decide), State.ppsCounted]
  exact State.rd_wr_mod _ WTU_TOD_SEC_NEXT _ (by decide)

theorem State.ppsCounted_ppsLast (s : State) (w : Nat) : (s.ppsCounted w).wtu.ppsLast = some w := (Steered.passTo _ w).ppsLast

theorem ppsEdge_first {s : State} {w : Nat} (hen : s.on WTU_PPS_IN_EN = true) (hlast : s.wtu.ppsLast = none) :
    ∃ t, exec (.ppsEdge w true) s = .next t ∧ t.wtu.ppsLast = some w ∧
      (s.wtu.todSet = true → t.rd WTU_TOD_SEC_NEXT = (s.rd WTU_TOD_SEC_NEXT + 1) % 2 ^ 64) ∧
      (s.isTile = false → (t.rd WTU_SRC_STAT_VALID).testBit 3 = true) ∧ SidesKept s t ∧
      RegsKept (pagesOf timePages) s t ∧ WordsKept (fun _ => false) s t ∧ (s.quietMem → t.mem = s.mem) := by
  obtain ⟨o, hexec⟩ := exec_ppsEdge_first s w hen hlast
  have hheard := Steered.ppsHeard s w
  have hfollow := Steered.followed s (s.ppsHeard w) ((s.ppsHeard w).rd WTU_SRC_STAT_SRC = 3) o true
  refine ⟨_, hexec, hfollow.ppsLast.trans (hheard.ppsLast.trans (s.ppsCounted_ppsLast w)), fun htod => ?_, fun ht => ?_,
    (((Effect.ppsCounted s w).trans (hheard.pages (by decide))).trans (hfollow.pages steerFields_in)).frame fun _ h => h⟩
  · rw [hfollow.rd (by decide) (by decide), State.ppsHeard_tod, State.ppsMark, if_pos htod]
  · rw [hfollow.rd (by decide) (by decide)]
    exact State.ppsHeard_valid w ht

/-! ### Inputs that are lost (R179) -/

/-- The state after an input's loss: it is flagged, its source is invalid, and neighbors are told. -/
def State.inputLost (s old : State) (b c : Nat) : State := old.told ((s.raise 8 b).setSource c false)

theorem Steered.inputLost (old u : State) (b c : Nat) : Steered (keysOf (WTU_SRC_STAT_VALID :: sourceFields)) u (u.inputLost old b c) :=
  ((Steered.raise u 8 b (by decide)).trans (.setSource _ c false)).trans (.told old _ (by decide))

theorem State.inputLost_valid (s old : State) (b : Nat) {c : Nat} (hc : c < 8) :
    ((s.inputLost old b c).rd WTU_SRC_STAT_VALID).testBit c = false := by
  rw [State.inputLost, State.told_rd _ _ (by decide)]
  exact State.setSource_valid _ hc false

theorem State.inputLost_flag (s old : State) {b : Nat} (hb : b < 64) (c : Nat) : (s.inputLost old b c).flag 8 b = true :=
  ((Effect.setSource _ c false).trans (.told _ old _)).flag (s.flag_raise 8 b hb)

theorem glkLoss_lost {s : State} (hen : s.on WTU_GLK_EN = true) : ∃ t, exec .glkLoss s = .next t ∧ t.wtu.glkLast = none ∧
    (t.rd WTU_SRC_STAT_VALID).testBit 4 = false ∧ t.flag 8 11 = true ∧ SidesKept s t ∧
    RegsKept (pagesOf timePages) s t ∧ WordsKept (fun _ => false) s t ∧ (s.quietMem → t.mem = s.mem) := by
  have hlost := Steered.inputLost s { s with wtu := { s.wtu with glkLast := none } } 11 4
  exact ⟨_, if_pos hen, hlost.glkLast, State.inputLost_valid _ s 11 (by decide), State.inputLost_flag _ s (by decide) 4,
    ((Effect.setWtu _ _ s _).trans (hlost.pages (by decide))).frame fun _ h => h⟩

theorem ppsLoss_lost {s : State} (hen : s.on WTU_PPS_IN_EN = true) : ∃ t, exec .ppsLoss s = .next t ∧ t.wtu.ppsLast = none ∧
    (t.rd WTU_SRC_STAT_VALID).testBit 3 = false ∧ t.flag 8 12 = true ∧ SidesKept s t ∧
    RegsKept (pagesOf timePages) s t ∧ WordsKept (fun _ => false) s t ∧ (s.quietMem → t.mem = s.mem) := by
  have hlost := Steered.inputLost s { s with wtu := { s.wtu with ppsLast := none } } 12 3
  exact ⟨_, if_pos hen, hlost.ppsLast, State.inputLost_valid _ s 12 (by decide), State.inputLost_flag _ s (by decide) 3,
    ((Effect.setWtu _ _ s _).trans (hlost.pages (by decide))).frame fun _ h => h⟩

/-! ### Outputs (R164, R171, R173, R174, R182) -/

theorem State.passTo_sideIsUp (s : State) (w : Nat) (sd : Fin 2) : (s.passTo w).sideIsUp sd = s.sideIsUp sd := by
  have hfld : plainKey (QP_SIDE_STAT_STATE sd).key = true ∧
      keysOf [WTU_SRC_STAT_OFFSET_NS, WTU_SRC_STAT_HOLD_S] (QP_SIDE_STAT_STATE sd).key = false := by clear * -; revert sd; decide
  rw [State.sideIsUp, (Steered.passTo s w).rd hfld.1 hfld.2, State.sideIsUp]

theorem exec_timeFolioSend (s : State) (sd : Fin 2) (w : Nat) (hup : s.sideIsUp sd = true) : exec (.timeFolioSend sd w) s =
    .next ((s.passTo w).sendFolio sd (mkFolio 7 3 0 false true false ((s.passTo w).timeWords sd w))) :=
  congrArg Host.Outcome.next (if_pos ((s.passTo_sideIsUp w sd).trans hup))

theorem exec_tickOutPulse (s : State) (n : BitVec 48) (k : BitVec 2) (hen : s.on WTU_TICKOUT_EN = true)
    (hskip : (s.on WTU_TICKOUT_HOLD_SKIP && s.heldAt n.toNat) = false)
    (hhere : s.rd WTU_TICKOUT_MODE = 1 ∨ (s.rd WTU_TICKOUT_MODE = 0 ∧ k.toNat = 0) ∨
      (2 ≤ s.rd WTU_TICKOUT_MODE ∧ k.toNat = s.rd WTU_TICKOUT_FEED)) :
    exec (.tickOutPulse n k) s = .next (s.send (.pulse .tickOut 0
      ((s.feedTime n.toNat k.toNat : Int) + toSigned 32 (s.rd WTU_TICKOUT_OFS_NS) * 65536) (s.rd WTU_TICKOUT_WIDTH_US * 1000)
      (!s.on WTU_TICKOUT_POL))) := by
  have hslot : (s.rd WTU_TICKOUT_MODE == 1 || (s.rd WTU_TICKOUT_MODE == 0 && k == 0) ||
      (2 ≤ s.rd WTU_TICKOUT_MODE && k.toNat == s.rd WTU_TICKOUT_FEED)) = true := by
    rcases hhere with h | ⟨h, hk⟩ | ⟨h, hk⟩
    · simp [h]
    · simp [h, BitVec.eq_of_toNat_eq (y := (0 : BitVec 2)) hk]
    · simp [h, hk]
  exact congrArg Host.Outcome.next (if_pos (by rw [hen, hslot, hskip]; rfl))

/-! ### Captures (R181) -/

/-- Unit `k` records an edge at `w`. -/
def State.edgeRecorded (s : State) (k w : Nat) : State :=
  (({ s with wtu := { s.wtu with capLast := s.wtu.capLast.set k (some w) } }.wr (WTU_CAP_TS_NS k) (w / nsU % 1000000000)).wr (WTU_CAP_TS_SEC k)
    (w / nsU / 1000000000)).raise 8 16

/-- Whether unit `k` has recorded an edge in the µs before `w`. -/
def State.capturedSoon (s : State) (k w : Nat) : Bool :=
  match s.wtu.capLast.getD k none with | some l => decide (w < l + usU) | none => false

/-- What one unit does with an edge at `w` of an input: one that selects the edge counts it, and records it unless it comes too soon. -/
def State.captureTurn (input : BitVec 5) (rising : Bool) (w : Nat) (s : State) (k : Nat) : State :=
  if s.rd (WTU_CAP_CFG_SRC k) = input.toNat ∧ (s.rd (WTU_CAP_CFG_EDGE k) = 3 ∨ (s.rd (WTU_CAP_CFG_EDGE k) = 1 ∧ rising = true) ∨
      (s.rd (WTU_CAP_CFG_EDGE k) = 2 ∧ rising = false)) then
    (if s.capturedSoon k w then s.bump (WTU_CAP_CNT_CNT k) else (s.bump (WTU_CAP_CNT_CNT k)).edgeRecorded k w)
  else s

theorem exec_captureEdge (s : State) (input : BitVec 5) (rising : Bool) (w : Nat) :
    exec (.captureEdge input rising w) s = .next ((s.passTo w).each (List.range 8) (State.captureTurn input rising w)) := rfl

/-- The fields that a capture unit changes. -/
def captureFields (k : Nat) : List Fld := [WTU_CAP_CNT_CNT k, WTU_CAP_TS_NS k, WTU_CAP_TS_SEC k]

/-- The fields that a capture unit reads and changes. -/
def unitFields (k : Nat) : List Fld := WTU_CAP_CFG_SRC k :: WTU_CAP_CFG_EDGE k :: captureFields k

theorem captureFields_in {k : Nat} (hk : k < 8) : fieldsIn [8] (captureFields k) = true := by
  have h : ∀ k : Fin 8, fieldsIn [8] (captureFields k) = true := by decide
  exact h ⟨k, hk⟩

/-- No unit changes what another one reads or changes. -/
theorem captureFields_apart {j k : Nat} (hj : j < 8) (hk : k < 8) (hne : j ≠ k) {f : Fld} (hf : f ∈ unitFields k) :
    keysOf (captureFields j) f.key = false := by
  have h : ∀ j k : Fin 8, j ≠ k → ∀ f ∈ unitFields k, keysOf (captureFields j) f.key = false := by decide
  exact h ⟨j, hj⟩ ⟨k, hk⟩ (fun e => hne (congrArg Fin.val e)) f hf

theorem unitFields_plain {k : Nat} (hk : k < 8) {f : Fld} (hf : f ∈ unitFields k) : plainKey f.key = true := by
  have h : ∀ k : Fin 8, fieldsIn [8] (unitFields k) = true := by decide
  exact plainKey_of_fieldsIn (h ⟨k, hk⟩) hf

theorem Effect.edgeRecorded (words : Nat → Bool) (s : State) {k : Nat} (hk : k < 8) (w : Nat) :
    Effect (keysOf (captureFields k)) words s (s.edgeRecorded k w) := by
  have hwr (u : State) {f : Fld} (v : Nat) (hf : f ∈ captureFields k) : Effect (keysOf (captureFields k)) words u (u.wr f v) :=
    .wr words u f v (keysOf_mem hf) (plainKey_of_fieldsIn (captureFields_in hk) hf)
  exact (((Effect.setWtu _ words s _).trans (hwr _ _ (by simp [captureFields]))).trans (hwr _ _ (by simp [captureFields]))).trans
    (.raise _ words _ 8 16)

theorem Effect.captureTurn (words : Nat → Bool) (input : BitVec 5) (rising : Bool) (w : Nat) (s : State) {k : Nat} (hk : k < 8) :
    Effect (keysOf (captureFields k)) words s (s.captureTurn input rising w k) := by
  have hcount : Effect (keysOf (captureFields k)) words s (s.bump (WTU_CAP_CNT_CNT k)) :=
    .bump words s _ (keysOf_mem (by simp [captureFields])) (plainKey_of_fieldsIn (captureFields_in hk) (by simp [captureFields]))
  unfold State.captureTurn
  split
  · split
    · exact hcount
    · exact hcount.trans (.edgeRecorded words _ hk w)
  · exact .refl _ words s

theorem State.captureTurn_capLast (input : BitVec 5) (rising : Bool) (w : Nat) (s : State) {j k : Nat} (hne : j ≠ k) :
    (s.captureTurn input rising w j).wtu.capLast.getD k none = s.wtu.capLast.getD k none := by
  unfold State.captureTurn
  split
  · split
    · rfl
    · rw [State.edgeRecorded, State.raise_wtu]
      simp [List.getD_eq_getElem?_getD, List.getElem?_set_ne hne, State.bump, State.bumpBy]
  · rfl

/-- Units other than `k` leave its fields and its last edge as they are. -/
theorem captureTurns_other (input : BitVec 5) (rising : Bool) (w : Nat) {l : List Nat} (hl : l ⊆ List.range 8) {k : Nat} (hk : k < 8) (hn : k ∉ l)
    (s : State) : (∀ f ∈ unitFields k, (s.each l (State.captureTurn input rising w)).rd f = s.rd f) ∧
      (s.each l (State.captureTurn input rising w)).wtu.capLast.getD k none = s.wtu.capLast.getD k none := by
  induction l generalizing s with
  | nil => exact ⟨fun _ _ => rfl, rfl⟩
  | cons j l ih =>
    have hj : j < 8 := List.mem_range.mp (hl List.mem_cons_self)
    have hne : j ≠ k := fun e => hn (e ▸ List.mem_cons_self)
    obtain ⟨hrd, hlast⟩ := ih (fun x hx => hl (List.mem_cons_of_mem j hx)) (fun hx => hn (List.mem_cons_of_mem j hx))
      (s.captureTurn input rising w j)
    rw [State.each_cons]
    refine ⟨fun f hf => ?_, hlast.trans (State.captureTurn_capLast input rising w s hne)⟩
    exact (hrd f hf).trans ((Effect.captureTurn (fun _ => false) input rising w s hj).rd (unitFields_plain hk hf) (captureFields_apart hj hk hne hf))

theorem State.captureTurn_fresh (input : BitVec 5) (rising : Bool) (w : Nat) {s : State} {k : Nat} (hsrc : s.rd (WTU_CAP_CFG_SRC k) = input.toNat)
    (hedge : s.rd (WTU_CAP_CFG_EDGE k) = 3) (hlast : s.wtu.capLast.getD k none = none) :
    s.captureTurn input rising w k = (s.bump (WTU_CAP_CNT_CNT k)).edgeRecorded k w := by
  have hsoon : s.capturedSoon k w = false := by rw [State.capturedSoon, hlast]
  rw [State.captureTurn, if_pos ⟨hsrc, .inl hedge⟩, hsoon]
  rfl

theorem State.edgeRecorded_rd (s : State) {k : Nat} (hk : k < 8) (w : Nat) :
    (s.edgeRecorded k w).rd (WTU_CAP_CNT_CNT k) = s.rd (WTU_CAP_CNT_CNT k) ∧
      (s.edgeRecorded k w).rd (WTU_CAP_TS_NS k) = w / 65536 % 1000000000 % 2 ^ (WTU_CAP_TS_NS k).w := by
  have hraised (u : State) {f : Fld} (hf : f ∈ unitFields k) : (u.raise 8 16).rd f = u.rd f :=
    State.raise_rd u 8 16 f (noteKey_of_plain (unitFields_plain hk hf))
  have hcnt : (WTU_CAP_CNT_CNT k).key ≠ (WTU_CAP_TS_SEC k).key ∧ (WTU_CAP_CNT_CNT k).key ≠ (WTU_CAP_TS_NS k).key := by
    simp only [Fld.key, WTU_CAP_CNT_CNT, WTU_CAP_TS_SEC, WTU_CAP_TS_NS]; omega
  have hts : (WTU_CAP_TS_NS k).key ≠ (WTU_CAP_TS_SEC k).key := by simp only [Fld.key, WTU_CAP_TS_SEC, WTU_CAP_TS_NS]; omega
  constructor
  · rw [State.edgeRecorded, hraised _ (by simp [unitFields, captureFields]), State.rd_wr_ne _ _ hcnt.1, State.rd_wr_ne _ _ hcnt.2]
    rfl
  · rw [State.edgeRecorded, hraised _ (by simp [unitFields, captureFields]), State.rd_wr_ne _ _ hts]
    exact State.rd_wr_mod _ (WTU_CAP_TS_NS k) _ (by decide : 32 ≤ 64)

theorem captureEdge_recorded {s : State} (input : BitVec 5) (rising : Bool) (w : Nat) {k : Nat} (hk : k < 8)
    (hsrc : s.rd (WTU_CAP_CFG_SRC k) = input.toNat) (hedge : s.rd (WTU_CAP_CFG_EDGE k) = 3) (hlast : s.wtu.capLast.getD k none = none) :
    ∃ t, exec (.captureEdge input rising w) s = .next t ∧
      t.rd (WTU_CAP_CNT_CNT k) = min (s.rd (WTU_CAP_CNT_CNT k) + 1) (2 ^ (WTU_CAP_CNT_CNT k).w - 1) ∧
      t.rd (WTU_CAP_TS_NS k) = w / 65536 % 1000000000 % 2 ^ (WTU_CAP_TS_NS k).w ∧ t.flag 8 16 = true ∧ SidesKept s t ∧
      RegsKept (pagesOf [8]) s t ∧ WordsKept (fun _ => false) s t ∧ (s.quietMem → t.mem = s.mem) := by
  have hpass := Steered.passTo s w
  have hclock : ∀ f ∈ unitFields k, (s.passTo w).rd f = s.rd f := fun f hf => by
    have hout : ∀ k : Fin 8, ∀ f ∈ unitFields k, keysOf [WTU_SRC_STAT_OFFSET_NS, WTU_SRC_STAT_HOLD_S] f.key = false := by decide
    exact hpass.rd (unitFields_plain hk hf) (hout ⟨k, hk⟩ f hf)
  have hturn (u : State) {j : Nat} (hj : j < 8) : Effect (pagesOf [8]) (fun _ => false) u (u.captureTurn input rising w j) :=
    (Effect.captureTurn _ input rising w u hj).mono (pagesOf_of_fieldsIn (captureFields_in hj)) fun _ h => h
  have hturns (u : State) {l : List Nat} (hl : l ⊆ List.range 8) :
      Effect (pagesOf [8]) (fun _ => false) u (u.each l (State.captureTurn input rising w)) :=
    .each l (fun u j hj => hturn u (List.mem_range.mp (hl hj))) u
  have hread : Effect (pagesOf [8]) (fun _ => false) s (s.passTo w) := hpass.effect.mono (pagesOf_of_fieldsIn (by decide)) fun _ h => h
  obtain ⟨l1, l2, hsub1, hsub2, hn1, hn2, heq⟩ :=
    State.each_at List.nodup_range (List.mem_range.mpr hk) (State.captureTurn input rising w) (s.passTo w)
  obtain ⟨hbefore, hfree⟩ := captureTurns_other input rising w hsub1 hk hn1 (s.passTo w)
  generalize hu : (s.passTo w).each l1 (State.captureTurn input rising w) = u at heq hbefore hfree
  have hfound : ∀ f ∈ unitFields k, u.rd f = s.rd f := fun f hf => (hbefore f hf).trans (hclock f hf)
  have hfresh : u.captureTurn input rising w k = (u.bump (WTU_CAP_CNT_CNT k)).edgeRecorded k w :=
    State.captureTurn_fresh input rising w ((hfound _ (by simp [unitFields])).trans hsrc) ((hfound _ (by simp [unitFields])).trans hedge)
      (hfree.trans ((congrArg (·.getD k none) hpass.capLast).trans hlast))
  rw [hfresh] at heq
  obtain ⟨hafter, -⟩ := captureTurns_other input rising w hsub2 hk hn2 ((u.bump (WTU_CAP_CNT_CNT k)).edgeRecorded k w)
  obtain ⟨hcnt, hts⟩ := (u.bump (WTU_CAP_CNT_CNT k)).edgeRecorded_rd hk w
  rw [exec_captureEdge]
  refine ⟨_, rfl, ?_, ?_, ?_, (hread.trans (hturns _ fun _ h => h)).frame fun _ h => h⟩ <;> rw [heq]
  · rw [hafter _ (by simp [unitFields, captureFields]), hcnt, State.bump, State.rd_bumpBy _ _ _ (by decide : 8 ≤ 64),
      hfound _ (by simp [unitFields, captureFields])]
  · rw [hafter _ (by simp [unitFields, captureFields]), hts]
  · exact (hturns _ hsub2).flag (State.flag_raise _ 8 16 (by decide))

/-! ### O18 -/

/-- Settles O18: each pulse and each TIME folio is the output that its command's definition sends, an edge or a loss sets its source's validity
through whatever the servo does, and each capture unit keeps to its own fields. -/
theorem timeOutputsAndPins : Obligations.TimeOutputsAndPins := by
  unfold Obligations.TimeOutputsAndPins
  refine ⟨fun s => ⟨exec_timeFolioSend s, fun k hk => ?_, fun n hen => ?_, exec_tickOutPulse s, fun k n hmode => ?_⟩,
    fun s => ⟨fun w hen ht => ⟨exec_glkEdge_bad s w hen ht, glkEdge_first hen ht⟩, glkLoss_lost, fun w => ppsEdge_first, ppsLoss_lost,
      fun input rising w k hk => captureEdge_recorded input rising w hk⟩⟩
  · exact congrArg Host.Outcome.next (if_pos hk)
  · exact congrArg Host.Outcome.next (if_pos hen)
  · exact congrArg Host.Outcome.next (if_pos hmode)

end Sys2Proof.Machine
end

