-- ==== Sys2Proof/Proofs/TimeSources.lean ====
section
/-! SUPPORT. Source changes, the servo's lock and PTP slots (R159 to R163, R179). -/

namespace Sys2Proof.Machine

/-! ### Source changes and the servo's lock (R159, R160) -/

theorem exec_sourceChange (s : State) {c : BitVec 3} (v : Bool) (hc : c.toNat ≠ 0) :
    exec (.sourceChange c v) s = .next (s.told (s.setSource c.toNat v)) := congrArg Host.Outcome.next (if_neg hc)

theorem sourceChange_valid (s : State) {c : BitVec 3} (v : Bool) (hc : c.toNat ≠ 0) : ∃ t, exec (.sourceChange c v) s = .next t ∧
    (t.rd WTU_SRC_STAT_VALID).testBit c.toNat = v ∧ SidesKept s t ∧
    RegsKept (pagesOf timePages) s t ∧ WordsKept (fun _ => false) s t ∧ (s.quietMem → t.mem = s.mem) := by
  refine ⟨_, exec_sourceChange s v hc, ?_, ((Effect.setSource s c.toNat v).trans (.told _ s _)).frame fun _ h => h⟩
  rw [State.told_rd _ _ (by decide)]
  exact State.setSource_valid s (by omega) v

/-- From ACQUIRE the servo locks with its lamps left alone. -/
theorem State.setServo_locked {s : State} (hst : s.rd WTU_SRC_STAT_STATE = 1) : s.setServo 2 = (s.servoEntered 2).lockReached.raise 8 5 := by
  rw [State.setServo_eq, if_neg (by omega), if_neg (by omega)]
  rfl

theorem exec_servoLock {s : State} (hst : s.rd WTU_SRC_STAT_STATE = 1) (hmay : s.mayLock = true) :
    exec .servoLock s = .next (s.told ((s.servoEntered 2).lockReached.raise 8 5)) := by
  rw [← State.setServo_locked hst]
  exact congrArg Host.Outcome.next (if_pos ⟨hst, hmay⟩)

theorem servoLock_locked {s : State} (hst : s.rd WTU_SRC_STAT_STATE = 1) (hmay : s.mayLock = true) :
    ∃ t, exec .servoLock s = .next t ∧ t.rd WTU_SRC_STAT_STATE = 2 ∧ t.flag 8 5 = true ∧ t.wtu.wasLocked = true ∧ SidesKept s t ∧
      RegsKept (keysOf [WTU_SRC_STAT_STATE]) s t ∧ WordsKept (fun _ => false) s t ∧ (s.quietMem → t.mem = s.mem) := by
  have hentered := Steered.servoEntered s 2
  have hraised : Steered (keysOf [WTU_SRC_STAT_STATE]) (s.servoEntered 2) ((s.servoEntered 2).lockReached.raise 8 5) :=
    (Steered.lockReached _ _).trans (.raise _ 8 5 (by decide))
  refine ⟨_, exec_servoLock hst hmay, ?_, ?_, ?_, ((hentered.trans hraised).effect.trans (.told _ s _)).frame fun _ h => h⟩
  · rw [State.told_rd _ _ (by decide), State.raise_rd _ _ _ _ (by decide)]
    exact State.rd_wr_of s.lockBegun WTU_SRC_STAT_STATE 2 (v := 2) rfl (by decide) (by decide)
  · exact (Effect.told (fun _ => false) s _).flag (State.flag_raise _ 8 5 (by decide))
  · rw [State.told_wtu, State.raise_wtu]
    rfl

/-! ### PTP slots (R162, R163, R179) -/

theorem State.ptpSlot_setPtpSlot {s : State} {d : Nat} (h : d < s.wtu.ptp.length) (x : PtpSlot) : (s.setPtpSlot d x).ptpSlot d = x := by
  simp [State.ptpSlot, State.setPtpSlot, List.getD_eq_getElem?_getD, h]

theorem Steered.ptpSlot {own : Nat → Bool} {s t : State} (h : Steered own s t) (d : Nat) : t.ptpSlot d = s.ptpSlot d :=
  congrArg (·.getD d PtpSlot.reset) h.ptp

theorem State.told_ptpSlot (old s : State) (d : Nat) : (old.told s).ptpSlot d = s.ptpSlot d :=
  (Steered.told (own := fun _ => false) old s rfl).ptpSlot d

theorem Effect.setPtpSlot (own words : Nat → Bool) (s : State) (d : Nat) (x : PtpSlot) : Effect own words s (s.setPtpSlot d x) :=
  .setWtu own words s _

/-- The fields in which a slot shows its master and path. -/
def slotFields (d : Nat) : List Fld :=
  [WTU_PTP_STAT_STATE d, WTU_PTP_STAT_PORT d, WTU_PTP_STAT_STEPS d, WTU_PTP_STAT_MPD_NS d, WTU_PTP_GM_GM_ID d]

/-- The fields of a slot. -/
def ptpFields (d : Nat) : List Fld := WTU_PTP_STAT_OFFSET_NS d :: slotFields d

theorem ptpFields_in (d : Fin 2) : fieldsIn [8] (ptpFields d) = true := by revert d; decide

/-- A measured offset changes nothing that a slot shows of its master. -/
theorem slotFields_unsteered (d : Fin 2) : ∀ f ∈ slotFields d, keysOf steerFields f.key = false := by revert d; decide

/-- The choice of a source changes nothing that a slot shows. -/
theorem ptpFields_unsourced (d : Fin 2) : ∀ f ∈ ptpFields d, keysOf (WTU_SRC_STAT_VALID :: sourceFields) f.key = false := by revert d; decide

theorem slotFields_plain (d : Fin 2) {f : Fld} (hf : f ∈ slotFields d) : plainKey f.key = true :=
  plainKey_of_fieldsIn (ptpFields_in d) (List.mem_cons_of_mem _ hf)

theorem Effect.wr_ptp (words : Nat → Bool) (s : State) (d : Fin 2) {f : Fld} (v : Nat) (hf : f ∈ ptpFields d) :
    Effect (keysOf (ptpFields d)) words s (s.wr f v) := .wr words s f v (keysOf_mem hf) (plainKey_of_fieldsIn (ptpFields_in d) hf)

theorem ptpFields_time (d : Fin 2) (k : Nat) (h : keysOf (ptpFields d) k = true) : pagesOf timePages k = true :=
  pagesOf_mono (by decide) k (pagesOf_of_fieldsIn (ptpFields_in d) k h)

theorem State.setSource_slot (s : State) (c : Nat) (v : Bool) (d : Fin 2) {f : Fld} (hf : f ∈ ptpFields d) : (s.setSource c v).rd f = s.rd f :=
  (Steered.setSource s c v).rd (plainKey_of_fieldsIn (ptpFields_in d) hf) (ptpFields_unsourced d f hf)

/-! ### A slot listens again (R179) -/

theorem ptpAnnounceTimeout_listens {s : State} (hlen : s.wtu.ptp.length = 2) (d : Fin 2) : ∃ t, exec (.ptpAnnounceTimeout d) s = .next t ∧
    t.rd (WTU_PTP_STAT_STATE d) = 0 ∧ (t.ptpSlot d).best = none ∧ (t.rd WTU_SRC_STAT_VALID).testBit (d.val + 1) = false ∧ SidesKept s t ∧
    RegsKept (pagesOf timePages) s t ∧ WordsKept (fun _ => false) s t ∧ (s.quietMem → t.mem = s.mem) := by
  have hstate : WTU_PTP_STAT_STATE d ∈ ptpFields d := by simp [ptpFields, slotFields]
  have hcleared : Effect (keysOf (ptpFields d)) (fun _ => false) s ((s.setPtpSlot d PtpSlot.reset).wr (WTU_PTP_STAT_STATE d) 0) :=
    (Effect.setPtpSlot _ _ s d _).trans (.wr_ptp _ _ d 0 hstate)
  refine ⟨s.told (s.ptpListen d), rfl, ?_, ?_, ?_,
    (((hcleared.mono (ptpFields_time d) fun _ h => h).trans (.setSource _ _ false)).trans (.told _ s _)).frame fun _ h => h⟩
  · rw [State.told_rd _ _ (plainKey_of_fieldsIn (ptpFields_in d) hstate), State.ptpListen, State.setSource_slot _ _ _ d hstate]
    exact State.rd_wr_of _ (WTU_PTP_STAT_STATE d) 2 rfl (by decide) (by decide)
  · rw [State.told_ptpSlot, State.ptpListen, (Steered.setSource _ _ _).ptpSlot]
    exact congrArg PtpSlot.best (State.ptpSlot_setPtpSlot (hlen.symm ▸ d.isLt) _)
  · rw [State.told_rd _ _ (by decide)]
    exact State.setSource_valid _ (by omega) false

/-! ### A slot takes a master (R162) -/

/-- Slot `d` follows master `m` on a port: it shows the master, and begins to measure. -/
def State.masterTaken (s : State) (d : Nat) (port : BitVec 2) (m : PtpMaster) : State :=
  ((((s.wr (WTU_PTP_GM_GM_ID d) m.gm.toNat).wr (WTU_PTP_STAT_STEPS d) (min 255 m.steps.toNat)).wr (WTU_PTP_STAT_PORT d) port.toNat).setPtpSlot d
    { PtpSlot.reset with best := some m, seq := (s.ptpSlot d).seq }).wr (WTU_PTP_STAT_STATE d) 1

theorem exec_announce_first {s : State} {d : Fin 2} {dom : BitVec 8} {port : BitVec 2} (m : PtpMaster) (htakes : s.ptpTakes d dom port = true)
    (hbest : (s.ptpSlot d).best = none) :
    exec (.ptpMessage d (.announce dom port m)) s = .next (s.told ((s.masterTaken d port m).setSource (d + 1) false)) := by
  simp only [exec, execPtpMessage, hbest, htakes, Option.any_none, Option.all_none, Bool.true_and, Bool.false_or, if_true,
    Bool.false_eq_true, if_false]
  rfl

theorem Effect.masterTaken (s : State) (d : Fin 2) (port : BitVec 2) (m : PtpMaster) :
    Effect (keysOf (ptpFields d)) (fun _ => false) s (s.masterTaken d port m) :=
  ((((Effect.wr_ptp _ s d _ (by simp [ptpFields, slotFields])).trans (.wr_ptp _ _ d _ (by simp [ptpFields, slotFields]))).trans
    (.wr_ptp _ _ d _ (by simp [ptpFields, slotFields]))).trans (.setPtpSlot _ _ _ d _)).trans (.wr_ptp _ _ d 1 (by simp [ptpFields, slotFields]))

theorem State.masterTaken_rd (s : State) (d : Fin 2) (port : BitVec 2) (m : PtpMaster) :
    (s.masterTaken d port m).rd (WTU_PTP_GM_GM_ID d) = m.gm.toNat ∧ (s.masterTaken d port m).rd (WTU_PTP_STAT_STEPS d) = min 255 m.steps.toNat ∧
      (s.masterTaken d port m).rd (WTU_PTP_STAT_PORT d) = port.toNat ∧ (s.masterTaken d port m).rd (WTU_PTP_STAT_STATE d) = 1 := by
  have hslot (t : State) (x : PtpSlot) (f : Fld) : (t.setPtpSlot d x).rd f = t.rd f := rfl
  have hgm : ∀ f ∈ [WTU_PTP_STAT_STEPS d, WTU_PTP_STAT_PORT d, WTU_PTP_STAT_STATE d], (WTU_PTP_GM_GM_ID d).key ≠ f.key := by
    clear * -; revert d; decide
  have hsteps : ∀ f ∈ [WTU_PTP_STAT_PORT d, WTU_PTP_STAT_STATE d], (WTU_PTP_STAT_STEPS d).key ≠ f.key := by clear * -; revert d; decide
  have hport : (WTU_PTP_STAT_PORT d).key ≠ (WTU_PTP_STAT_STATE d).key := by clear * -; revert d; decide
  unfold State.masterTaken
  refine ⟨?_, ?_, ?_, State.rd_wr_of _ (WTU_PTP_STAT_STATE d) 2 rfl (by decide) (by decide)⟩
  · rw [State.rd_wr_ne _ _ (hgm _ (by simp)), hslot, State.rd_wr_ne _ _ (hgm _ (by simp)), State.rd_wr_ne _ _ (hgm _ (by simp))]
    exact State.rd_wr_of s (WTU_PTP_GM_GM_ID d) 64 rfl m.gm.isLt (by decide)
  · rw [State.rd_wr_ne _ _ (hsteps _ (by simp)), hslot, State.rd_wr_ne _ _ (hsteps _ (by simp))]
    exact State.rd_wr_of _ (WTU_PTP_STAT_STEPS d) 8 rfl (by omega) (by decide)
  · rw [State.rd_wr_ne _ _ hport, hslot]
    exact State.rd_wr_of _ (WTU_PTP_STAT_PORT d) 2 rfl port.isLt (by decide)

theorem State.masterTaken_best {s : State} {d : Nat} (h : d < s.wtu.ptp.length) (port : BitVec 2) (m : PtpMaster) :
    ((s.masterTaken d port m).ptpSlot d).best = some m := congrArg PtpSlot.best (State.ptpSlot_setPtpSlot h _)

theorem announce_taken {s : State} (hlen : s.wtu.ptp.length = 2) {d : Fin 2} {dom : BitVec 8} {port : BitVec 2}
    (htakes : s.ptpTakes d dom port = true) (m : PtpMaster) (hbest : (s.ptpSlot d).best = none) :
    ∃ t, exec (.ptpMessage d (.announce dom port m)) s = .next t ∧
      (t.ptpSlot d).best = some m ∧ t.rd (WTU_PTP_GM_GM_ID d) = m.gm.toNat ∧ t.rd (WTU_PTP_STAT_STEPS d) = min 255 m.steps.toNat ∧
      t.rd (WTU_PTP_STAT_PORT d) = port.toNat ∧ t.rd (WTU_PTP_STAT_STATE d) = 1 ∧
      (t.rd WTU_SRC_STAT_VALID).testBit (d.val + 1) = false ∧ SidesKept s t ∧
      RegsKept (pagesOf timePages) s t ∧ WordsKept (fun _ => false) s t ∧ (s.quietMem → t.mem = s.mem) := by
  obtain ⟨hgm, hsteps, hport, hstate⟩ := s.masterTaken_rd d port m
  have hshown {f : Fld} (hf : f ∈ ptpFields d) :
      (s.told ((s.masterTaken d port m).setSource (d + 1) false)).rd f = (s.masterTaken d port m).rd f :=
    (State.told_rd _ _ (plainKey_of_fieldsIn (ptpFields_in d) hf)).trans (State.setSource_slot _ _ _ d hf)
  refine ⟨_, exec_announce_first m htakes hbest, ?_, ?_, ?_, ?_, ?_, ?_,
    ((((Effect.masterTaken s d port m).mono (ptpFields_time d) fun _ h => h).trans (.setSource _ _ false)).trans (.told _ s _)).frame fun _ h => h⟩
  · rw [State.told_ptpSlot, (Steered.setSource _ _ _).ptpSlot, State.masterTaken_best (hlen.symm ▸ d.isLt)]
  · rw [hshown (by simp [ptpFields, slotFields]), hgm]
  · rw [hshown (by simp [ptpFields, slotFields]), hsteps]
  · rw [hshown (by simp [ptpFields, slotFields]), hport]
  · rw [hshown (by simp [ptpFields, slotFields]), hstate]
  · rw [State.told_rd _ _ (by decide)]
    exact State.setSource_valid _ (by omega) false

/-! ### A slot measures its master (R162, R163) -/

/-- Slot `d` knows the receive stamp and origin of a Sync, and asks its master for the path delay. -/
def State.delayAsked (s : State) (d rx origin : Nat) : State :=
  (s.setPtpSlot d { s.ptpSlot d with sync := none, down := some ((rx : Int) - origin), req := some (s.ptpSlot d).seq,
                                     seq := ((s.ptpSlot d).seq + 1) % 65536 }).send
    (.net (s.rd (WTU_PTP_STAT_PORT d)) .ptpDelayReq [s.rd (WTU_PTP_DOMAIN d), (s.ptpSlot d).seq])

theorem State.ptpSync_unmeasured {s : State} {d : Nat} (rx origin : Nat) (hpath : (s.ptpSlot d).path = none) :
    s.ptpSync d rx origin = s.delayAsked d rx origin := by
  simp only [State.ptpSync]
  split
  case h_1 p hsome => rw [hpath] at hsome; cases hsome
  case h_2 => rfl

theorem Effect.delayAsked (own words : Nat → Bool) (s : State) (d rx origin : Nat) : Effect own words s (s.delayAsked d rx origin) :=
  (Effect.setPtpSlot own words s d _).trans (.send own words _ _)

theorem State.delayAsked_slot {s : State} {d : Nat} (h : d < s.wtu.ptp.length) (rx origin : Nat) :
    ((s.delayAsked d rx origin).ptpSlot d).down = some ((rx : Int) - origin) ∧
      ((s.delayAsked d rx origin).ptpSlot d).req = some (s.ptpSlot d).seq := by
  have hslot : (s.delayAsked d rx origin).ptpSlot d = _ := State.ptpSlot_setPtpSlot h _
  rw [hslot]
  exact ⟨rfl, rfl⟩

/-- What a Sync with its origin known leaves: the slot waits for the answer to the Delay_Req that it sent. -/
theorem delayAsked_told {s : State} (old : State) {d : Nat} (h : d < s.wtu.ptp.length) (rx origin : Nat) :
    ((old.told (s.delayAsked d rx origin)).ptpSlot d).down = some ((rx : Int) - origin) ∧
      ((old.told (s.delayAsked d rx origin)).ptpSlot d).req = some (s.ptpSlot d).seq ∧
      Sent s (old.told (s.delayAsked d rx origin)) (.net (s.rd (WTU_PTP_STAT_PORT d)) .ptpDelayReq [s.rd (WTU_PTP_DOMAIN d), (s.ptpSlot d).seq]) ∧
      Effect (pagesOf [8]) (fun _ => false) s (old.told (s.delayAsked d rx origin)) := by
  obtain ⟨hdown, hreq⟩ := State.delayAsked_slot h rx origin
  have htold := Effect.told (pagesOf [8]) old (s.delayAsked d rx origin)
  rw [State.told_ptpSlot]
  exact ⟨hdown, hreq, Sent.of_grows (t := s.setPtpSlot d _) (.of_same rfl rfl) (sent_send _ _) htold.grows,
    (Effect.delayAsked _ _ s d rx origin).trans htold⟩

/-- The reading of wall time changes nothing of a slot. -/
theorem State.passTo_ptp (s : State) (w : Nat) (d : Fin 2) : (s.passTo w).ptpSlot d = s.ptpSlot d ∧
    (s.passTo w).rd (WTU_PTP_STAT_PORT d) = s.rd (WTU_PTP_STAT_PORT d) ∧ (s.passTo w).rd (WTU_PTP_DOMAIN d) = s.rd (WTU_PTP_DOMAIN d) := by
  have hfld : ∀ f ∈ [WTU_PTP_STAT_PORT d, WTU_PTP_DOMAIN d], plainKey f.key = true ∧
      keysOf [WTU_SRC_STAT_OFFSET_NS, WTU_SRC_STAT_HOLD_S] f.key = false := by clear * -; revert d; decide
  have hread {f : Fld} (hf : f ∈ [WTU_PTP_STAT_PORT d, WTU_PTP_DOMAIN d]) : (s.passTo w).rd f = s.rd f :=
    (Steered.passTo s w).rd (hfld f hf).1 (hfld f hf).2
  exact ⟨(Steered.passTo s w).ptpSlot d, hread (by simp), hread (by simp)⟩

section
variable {s : State} {d : Fin 2} {dom : BitVec 8} {port : BitVec 2} (hlen : s.wtu.ptp.length = 2) (htakes : s.ptpTakes d dom port = true)
  (hstate : s.rd (WTU_PTP_STAT_STATE d) = 1 ∨ s.rd (WTU_PTP_STAT_STATE d) = 2) (hport : port.toNat = s.rd (WTU_PTP_STAT_PORT d))

include htakes in
theorem ptpTakes_domain : s.rd (WTU_PTP_DOMAIN d) = dom.toNat := by
  simp only [State.ptpTakes, Bool.and_eq_true, beq_iff_eq] at htakes
  exact htakes.1.1.2.symm

include htakes hstate hport

theorem exec_sync_twoStep (seq : BitVec 16) (rx : Nat) : exec (.ptpMessage d (.sync dom port seq rx none)) s =
    .next ((s.passTo rx).setPtpSlot d { s.ptpSlot d with sync := some (seq.toNat, rx) }) := by
  simp only [exec, execPtpMessage, htakes, hstate, ← hport, decide_true, beq_self_eq_true, Bool.and_self, if_true]

theorem exec_sync_oneStep (seq : BitVec 16) (rx origin : Nat) : exec (.ptpMessage d (.sync dom port seq rx (some origin))) s =
    .next (s.told ((s.passTo rx).ptpSync d rx origin)) := by
  simp only [exec, execPtpMessage, htakes, hstate, ← hport, decide_true, beq_self_eq_true, Bool.and_self, if_true]

theorem exec_followUp {seq : BitVec 16} {rx : Nat} (origin : Nat) (hsync : (s.ptpSlot d).sync = some (seq.toNat, rx)) :
    exec (.ptpMessage d (.followUp dom port seq origin)) s = .next (s.told (s.ptpSync d rx origin)) := by
  simp only [exec, execPtpMessage, htakes, hstate, hsync, ← hport, decide_true, beq_self_eq_true, Bool.and_self, if_true]

include hlen

theorem sync_noted (seq : BitVec 16) (rx : Nat) : ∃ t, exec (.ptpMessage d (.sync dom port seq rx none)) s = .next t ∧
    (t.ptpSlot d).sync = some (seq.toNat, rx) ∧ RegsKept (pagesOf [8]) s t ∧ t.win = s.win ∧ t.mem = s.mem ∧ t.out = s.out := by
  have hpass := Steered.passTo s rx
  have hlen' : (s.passTo rx).wtu.ptp.length = 2 := (congrArg List.length hpass.ptp).trans hlen
  have hreach : Effect (pagesOf [8]) (fun _ => false) s (s.passTo rx) := hpass.effect.mono (pagesOf_of_fieldsIn (by decide)) fun _ h => h
  refine ⟨_, exec_sync_twoStep htakes hstate hport seq rx,
    congrArg PtpSlot.sync (State.ptpSlot_setPtpSlot (hlen'.symm ▸ d.isLt) _), hreach.regs, s.passTo_same rx⟩

theorem sync_asked (seq : BitVec 16) (rx origin : Nat) (hpath : (s.ptpSlot d).path = none) :
    ∃ t, exec (.ptpMessage d (.sync dom port seq rx (some origin))) s = .next t ∧
      (t.ptpSlot d).down = some ((rx : Int) - origin) ∧ (t.ptpSlot d).req = some (s.ptpSlot d).seq ∧
      Sent s t (.net port.toNat .ptpDelayReq [dom.toNat, (s.ptpSlot d).seq]) ∧ SidesKept s t ∧
      RegsKept (pagesOf [8]) s t ∧ WordsKept (fun _ => false) s t ∧ (s.quietMem → t.mem = s.mem) := by
  have hpass := Steered.passTo s rx
  obtain ⟨hslot, hportKept, hdomKept⟩ := State.passTo_ptp s rx d
  have hreach : Effect (pagesOf [8]) (fun _ => false) s (s.passTo rx) := hpass.effect.mono (pagesOf_of_fieldsIn (by decide)) fun _ h => h
  obtain ⟨hdown, hreq, hsent, hasked⟩ := delayAsked_told s (s := s.passTo rx) (d := d)
    (((congrArg List.length hpass.ptp).trans hlen).symm ▸ d.isLt) rx origin
  rw [hslot, hportKept, hdomKept, ptpTakes_domain htakes, ← hport] at hsent
  rw [hslot] at hreq
  rw [exec_sync_oneStep htakes hstate hport, State.ptpSync_unmeasured rx origin (hslot.symm ▸ hpath)]
  exact ⟨_, rfl, hdown, hreq, Sent.of_grows hreach.grows hsent (.refl _), (hreach.trans hasked).frame fun _ h => h⟩

theorem followUp_asked {seq : BitVec 16} {rx : Nat} (origin : Nat) (hpath : (s.ptpSlot d).path = none)
    (hsync : (s.ptpSlot d).sync = some (seq.toNat, rx)) :
    ∃ t, exec (.ptpMessage d (.followUp dom port seq origin)) s = .next t ∧
      (t.ptpSlot d).down = some ((rx : Int) - origin) ∧ (t.ptpSlot d).req = some (s.ptpSlot d).seq ∧
      Sent s t (.net port.toNat .ptpDelayReq [dom.toNat, (s.ptpSlot d).seq]) ∧ SidesKept s t ∧
      RegsKept (pagesOf [8]) s t ∧ WordsKept (fun _ => false) s t ∧ (s.quietMem → t.mem = s.mem) := by
  obtain ⟨hdown, hreq, hsent, hasked⟩ := delayAsked_told s (s := s) (d := d) (hlen.symm ▸ d.isLt) rx origin
  rw [ptpTakes_domain htakes, ← hport] at hsent
  rw [exec_followUp htakes hstate hport origin hsync, State.ptpSync_unmeasured rx origin hpath]
  exact ⟨_, rfl, hdown, hreq, hsent, hasked.frame fun _ h => h⟩

end

/-! ### A slot measures the path and its first offset (R162) -/

/-- Slot `d` knows the mean path delay, and shows it. -/
def State.pathTaken (s : State) (d : Nat) (path : Int) : State :=
  (s.setPtpSlot d { s.ptpSlot d with req := none, path := some path }).wr (WTU_PTP_STAT_MPD_NS d) (min (path / 65536).toNat (2 ^ 20 - 1))

/-- Slot `d` follows its master with offset `o`, and its source is valid. -/
def State.slotFollows (s : State) (d : Nat) (o : Int) : State :=
  ((s.wr (WTU_PTP_STAT_OFFSET_NS d) (ofSigned 32 (o / 65536))).wr (WTU_PTP_STAT_STATE d) 2).setSource (d + 1) true

theorem State.ptpOffset_first {s : State} {d : Nat} (o : Int) (hstate : s.rd (WTU_PTP_STAT_STATE d) = 1) : s.ptpOffset d o =
    if (s.slotFollows d o).rd WTU_SRC_STAT_SRC = d + 1 ∧ (s.slotFollows d o).rd WTU_SRC_STAT_STATE ≠ 3 then
      (s.slotFollows d o).noteOffset o true else s.slotFollows d o := by
  have hfirst : ¬(s.rd (WTU_PTP_STAT_STATE d) = 2) := by omega
  simp only [State.ptpOffset, hfirst, false_and, if_false]
  rfl

theorem Effect.slotFollows (s : State) (d : Fin 2) (o : Int) : Effect (pagesOf timePages) (fun _ => false) s (s.slotFollows d o) :=
  (((Effect.wr_ptp _ s d _ (by simp [ptpFields])).trans (.wr_ptp _ _ d 2 (by simp [ptpFields, slotFields]))).mono (ptpFields_time d)
    fun _ h => h).trans (.setSource _ _ true)

theorem ofSigned_lt (w : Nat) (i : Int) : ofSigned w i < 2 ^ w := by
  have hpos : (0 : Int) < ((2 ^ w : Nat) : Int) := by exact_mod_cast Nat.two_pow_pos w
  have := Int.emod_lt_of_pos i hpos
  have := Int.emod_nonneg i hpos.ne'
  rw [ofSigned]
  omega

theorem State.slotFollows_rd (s : State) (d : Fin 2) (o : Int) : (s.slotFollows d o).rd (WTU_PTP_STAT_STATE d) = 2 ∧
    (s.slotFollows d o).rd (WTU_PTP_STAT_OFFSET_NS d) = ofSigned 32 (o / 65536) ∧
    (s.slotFollows d o).rd (WTU_PTP_STAT_MPD_NS d) = s.rd (WTU_PTP_STAT_MPD_NS d) := by
  have hoffset : (WTU_PTP_STAT_OFFSET_NS d).key ≠ (WTU_PTP_STAT_STATE d).key := by clear * -; revert d; decide
  have hmpd : ∀ f ∈ [WTU_PTP_STAT_OFFSET_NS d, WTU_PTP_STAT_STATE d], (WTU_PTP_STAT_MPD_NS d).key ≠ f.key := by clear * -; revert d; decide
  unfold State.slotFollows
  rw [State.setSource_slot _ _ _ d (by simp [ptpFields, slotFields]), State.setSource_slot _ _ _ d (by simp [ptpFields]),
    State.setSource_slot _ _ _ d (by simp [ptpFields, slotFields])]
  refine ⟨State.rd_wr_of _ (WTU_PTP_STAT_STATE d) 2 rfl (by decide) (by decide), ?_, ?_⟩
  · rw [State.rd_wr_ne _ _ hoffset]
    exact State.rd_wr_of s (WTU_PTP_STAT_OFFSET_NS d) 32 rfl (ofSigned_lt 32 _) (by decide)
  · rw [State.rd_wr_ne _ _ (hmpd _ (by simp)), State.rd_wr_ne _ _ (hmpd _ (by simp))]

theorem exec_delayResp {s : State} {d : Fin 2} {dom : BitVec 8} {port : BitVec 2} {seq : BitVec 16} {down : Int} (tx rx : Nat)
    (htakes : s.ptpTakes d dom port = true) (hport : port.toNat = s.rd (WTU_PTP_STAT_PORT d)) (hstate : s.rd (WTU_PTP_STAT_STATE d) = 1)
    (hdown : (s.ptpSlot d).down = some down) (hreq : (s.ptpSlot d).req = some seq.toNat) :
    exec (.ptpMessage d (.delayResp dom port seq tx rx)) s = .next (s.told
      ((s.pathTaken d ((down + ((rx : Int) - tx)) / 2)).ptpOffset d (down - (down + ((rx : Int) - tx)) / 2))) := by
  simp only [exec, execPtpMessage, State.pathTaken, htakes, hstate, hdown, hreq, ← hport, true_or, decide_true, beq_self_eq_true,
    Bool.and_self, if_true]

theorem State.pathTaken_rd (s : State) (d : Fin 2) (path : Int) :
    (s.pathTaken d path).rd (WTU_PTP_STAT_STATE d) = s.rd (WTU_PTP_STAT_STATE d) ∧
      (s.pathTaken d path).rd (WTU_PTP_STAT_MPD_NS d) = min (path / 65536).toNat (2 ^ 20 - 1) := by
  have hne : (WTU_PTP_STAT_STATE d).key ≠ (WTU_PTP_STAT_MPD_NS d).key := by clear * -; revert d; decide
  exact ⟨State.rd_wr_ne _ _ hne, State.rd_wr_of _ (WTU_PTP_STAT_MPD_NS d) 20 rfl (by omega) (by decide)⟩

theorem delayResp_measured {s : State} (hlen : s.wtu.ptp.length = 2) {d : Fin 2} {dom : BitVec 8} {port : BitVec 2}
    (htakes : s.ptpTakes d dom port = true) (hport : port.toNat = s.rd (WTU_PTP_STAT_PORT d)) (seq : BitVec 16) (tx rx : Nat) (down : Int)
    (hstate : s.rd (WTU_PTP_STAT_STATE d) = 1) (hdown : (s.ptpSlot d).down = some down) (hreq : (s.ptpSlot d).req = some seq.toNat) :
    ∃ t, exec (.ptpMessage d (.delayResp dom port seq tx rx)) s = .next t ∧
      (let path := (down + ((rx : Int) - tx)) / 2
       (t.ptpSlot d).path = some path ∧ t.rd (WTU_PTP_STAT_MPD_NS d) = min (path / 65536).toNat (2 ^ 20 - 1) ∧
       (t.rd WTU_SRC_STAT_SRC ≠ d.val + 1 → t.rd (WTU_PTP_STAT_OFFSET_NS d) = ofSigned 32 ((down - path) / 65536))) ∧
      t.rd (WTU_PTP_STAT_STATE d) = 2 ∧ (t.rd WTU_SRC_STAT_VALID).testBit (d.val + 1) = true ∧ SidesKept s t ∧
      RegsKept (pagesOf timePages) s t ∧ WordsKept (fun _ => false) s t ∧ (s.quietMem → t.mem = s.mem) := by
  rw [exec_delayResp tx rx htakes hport hstate hdown hreq]
  generalize (down + ((rx : Int) - tx)) / 2 = path
  obtain ⟨hpathState, hpathMpd⟩ := s.pathTaken_rd d path
  obtain ⟨hfollows, hoffset, hmpd⟩ := (s.pathTaken d path).slotFollows_rd d (down - path)
  have hslot : (s.pathTaken d path).ptpSlot d = _ := State.ptpSlot_setPtpSlot (hlen.symm ▸ d.isLt) _
  have hset := Steered.setSource
    (((s.pathTaken d path).wr (WTU_PTP_STAT_OFFSET_NS d) (ofSigned 32 ((down - path) / 65536))).wr (WTU_PTP_STAT_STATE d) 2) (d + 1) true
  have htaken : Effect (pagesOf timePages) (fun _ => false) s (s.pathTaken d path) :=
    ((Effect.setPtpSlot _ _ s d _).trans (.wr_ptp _ _ d _ (by simp [ptpFields, slotFields]))).mono (ptpFields_time d) fun _ h => h
  rw [State.ptpOffset_first _ (hpathState.trans hstate)]
  have hreach := htaken.trans (Effect.slotFollows _ d (down - path))
  have hvalid : (((s.pathTaken d path).slotFollows d (down - path)).rd WTU_SRC_STAT_VALID).testBit (d.val + 1) = true :=
    State.setSource_valid _ (by omega) true
  have hpath : ((s.pathTaken d path).slotFollows d (down - path)).ptpSlot d = _ := (hset.ptpSlot d).trans hslot
  generalize (s.pathTaken d path).slotFollows d (down - path) = u at *
  have hfollow := Steered.followed s u (u.rd WTU_SRC_STAT_SRC = d + 1 ∧ u.rd WTU_SRC_STAT_STATE ≠ 3) (down - path) true
  have hshown {f : Fld} (hf : f ∈ slotFields d) := hfollow.rd (slotFields_plain d hf) (slotFields_unsteered d f hf)
  refine ⟨_, rfl, ⟨?_, ?_, fun hsrc => ?_⟩, ?_, ?_, (hreach.trans (hfollow.pages steerFields_in)).frame fun _ h => h⟩
  · rw [hfollow.ptpSlot, hpath]
  · rw [hshown (by simp [slotFields]), hmpd, hpathMpd]
  · rw [hfollow.rd (by decide) (by decide)] at hsrc
    rw [if_neg fun h => hsrc h.1, State.told_rd _ _ (plainKey_of_fieldsIn (ptpFields_in d) (by simp [ptpFields])), hoffset]
  · rw [hshown (by simp [slotFields]), hfollows]
  · rwa [hfollow.rd (by decide) (by decide)]

/-! ### O19 -/

/-- Settles O19: each command's effect on its slot or on the servo's state stands through the evaluation of the sources and through what the
servo does with a measured offset, for these touch neither VALID nor what a slot shows of its master. -/
theorem timeSources : Obligations.TimeSources := by
  unfold Obligations.TimeSources
  intro s hinv
  refine ⟨fun c v hc => sourceChange_valid s v hc, servoLock_locked,
    fun d => ⟨ptpAnnounceTimeout_listens hinv.ptp d, fun dom port htakes => ?_⟩⟩
  refine ⟨announce_taken hinv.ptp htakes, fun hstate hport => ⟨sync_noted hinv.ptp htakes hstate hport, sync_asked hinv.ptp htakes hstate hport,
    fun seq rx t1 hpath hsync => followUp_asked hinv.ptp htakes hstate hport t1 hpath hsync, fun seq tx rx down => ?_⟩⟩
  exact delayResp_measured hinv.ptp htakes hport seq tx rx down

end Sys2Proof.Machine
end

