-- ==== Sys2Proof/Proofs/FrameWindow.lean ====
section
/-! SUPPORT. FWIN gating (R175 to R178). -/

namespace Sys2Proof.Machine

/-! ### An edge in a window (R175, R178) -/

/-- Whether an edge at `w` keeps the period since the last one. -/
def State.fwinSpaced (s : State) (w : Nat) : Bool :=
  match s.wtu.fwinLast with | some l => withinPpm (w - l) s.periodU (100 * s.rd WTU_FWIN_TOL) | none => false

/-- An edge at `w` in the window of tick `n` is noted, and wall time is read. -/
def State.fwinNoted (s : State) (n w : Nat) : State :=
  { s with wtu := { s.wtu with fwinLast := some w, fwinIn := some n,
                               goodEdges := if s.fwinSpaced w then s.wtu.goodEdges + 1 else 1 } }.passTo w

/-- Gating runs from the first edge. -/
def State.fwinRuns (s : State) : State := if s.rd WTU_FWIN_STAT_STATE < 2 then s.wr WTU_FWIN_STAT_STATE 2 else s

/-- FWIN is a source unless gating is reverted. -/
def State.fwinGives (s : State) : State := if s.rd WTU_FWIN_STAT_STATE = 3 then s else s.setSource 6 true

/-- Whether an instant lies in the window of tick `n`. -/
def State.inWindow (s : State) (n w : Nat) : Bool := decide (s.fwinD n - s.fwinWin n * usU ≤ w ∧ w ≤ s.fwinD n)

theorem exec_fwinEdge_inWindow {s : State} {w : Nat} (hroot : s.isRoot = true) (hen : s.on WTU_FWIN_EN = true)
    (hin : s.inWindow (s.frame + 1) w = true) :
    ∃ o, exec (.fwinEdge w) s = .next (s.told
      (if (s.fwinNoted (s.frame + 1) w).fwinRuns.fwinGives.rd WTU_SRC_STAT_SRC = 6 ∧
          (s.fwinNoted (s.frame + 1) w).fwinRuns.fwinGives.rd WTU_SRC_STAT_STATE ≠ 3 then
        (s.fwinNoted (s.frame + 1) w).fwinRuns.fwinGives.noteOffset o true
      else (s.fwinNoted (s.frame + 1) w).fwinRuns.fwinGives)) := by
  have hfind : [s.frame + 1, s.frame + 2].find? (fun n => decide (s.fwinD n - s.fwinWin n * usU ≤ w ∧ w ≤ s.fwinD n)) = some (s.frame + 1) :=
    List.find?_cons_of_pos (p := (s.inWindow · w)) hin
  simp only [exec, execFwinEdge, hen, hroot, hfind, Bool.true_eq_false, or_self, if_false]
  exact ⟨_, rfl⟩

theorem exec_fwinEdge_stray {s : State} {w : Nat} (hroot : s.isRoot = true) (hen : s.on WTU_FWIN_EN = true)
    (h1 : s.inWindow (s.frame + 1) w = false) (h2 : s.inWindow (s.frame + 2) w = false) :
    exec (.fwinEdge w) s = .next ({ s with wtu := { s.wtu with fwinLast := some w, goodEdges := 0 } }.bump WTU_FWIN_STAT_STRAY) := by
  have hfind : [s.frame + 1, s.frame + 2].find? (fun n => decide (s.fwinD n - s.fwinWin n * usU ≤ w ∧ w ≤ s.fwinD n)) = none :=
    (List.find?_cons_of_neg (p := (s.inWindow · w)) (Bool.eq_false_iff.mp h1)).trans (List.find?_cons_of_neg (Bool.eq_false_iff.mp h2))
  simp only [exec, execFwinEdge, hen, hroot, hfind, Bool.true_eq_false, or_self, if_false]

theorem State.fwinNoted_rd (s : State) (n w : Nat) : (s.fwinNoted n w).rd WTU_FWIN_STAT_STATE = s.rd WTU_FWIN_STAT_STATE :=
  (Steered.passTo _ w).rd (by decide) (by decide)

theorem Effect.fwinNoted (s : State) (n w : Nat) : Effect (pagesOf timePages) (fun _ => false) s (s.fwinNoted n w) :=
  (Effect.setWtu _ _ s _).trans (.passTo _ w)

theorem Steered.fwinRuns (s : State) : Steered (keysOf [WTU_FWIN_STAT_STATE]) s s.fwinRuns := by
  unfold State.fwinRuns
  split
  · exact .wr s 2 (by decide) (by decide) (by decide)
  · exact .refl _ s

theorem Steered.fwinGives (s : State) : Steered (keysOf (WTU_SRC_STAT_VALID :: sourceFields)) s s.fwinGives := by
  unfold State.fwinGives
  split
  · exact .refl _ s
  · exact .setSource s 6 true

theorem State.fwinRuns_low {s : State} (h : s.rd WTU_FWIN_STAT_STATE < 2) : s.fwinRuns.rd WTU_FWIN_STAT_STATE = 2 := by
  rw [State.fwinRuns, if_pos h]
  exact State.rd_wr_of s WTU_FWIN_STAT_STATE 2 rfl (by decide) (by decide)

theorem State.fwinRuns_ne {s : State} (h : s.rd WTU_FWIN_STAT_STATE ≠ 3) : s.fwinRuns.rd WTU_FWIN_STAT_STATE ≠ 3 := by
  by_cases hlow : s.rd WTU_FWIN_STAT_STATE < 2
  · rw [State.fwinRuns_low hlow]
    decide
  · rwa [State.fwinRuns, if_neg hlow]

theorem State.fwinGives_valid {s : State} (h : s.rd WTU_FWIN_STAT_STATE ≠ 3) : (s.fwinGives.rd WTU_SRC_STAT_VALID).testBit 6 = true := by
  rw [State.fwinGives, if_neg h]
  exact State.setSource_valid s (by decide) true

theorem fwinEdge_noted {s : State} {w : Nat} (hroot : s.isRoot = true) (hen : s.on WTU_FWIN_EN = true) (hin : s.inWindow (s.frame + 1) w = true) :
    ∃ t, exec (.fwinEdge w) s = .next t ∧ t.wtu.fwinIn = some (s.frame + 1) ∧ t.wtu.fwinLast = some w ∧
      (s.rd WTU_FWIN_STAT_STATE < 2 → t.rd WTU_FWIN_STAT_STATE = 2) ∧
      (s.rd WTU_FWIN_STAT_STATE ≠ 3 → (t.rd WTU_SRC_STAT_VALID).testBit 6 = true) ∧ SidesKept s t ∧
      RegsKept (pagesOf timePages) s t ∧ WordsKept (fun _ => false) s t ∧ (s.quietMem → t.mem = s.mem) := by
  obtain ⟨o, hexec⟩ := exec_fwinEdge_inWindow hroot hen hin
  have hruns := Steered.fwinRuns (s.fwinNoted (s.frame + 1) w)
  have hgives := Steered.fwinGives (s.fwinNoted (s.frame + 1) w).fwinRuns
  have hfollow := Steered.followed s (s.fwinNoted (s.frame + 1) w).fwinRuns.fwinGives
    ((s.fwinNoted (s.frame + 1) w).fwinRuns.fwinGives.rd WTU_SRC_STAT_SRC = 6 ∧
      (s.fwinNoted (s.frame + 1) w).fwinRuns.fwinGives.rd WTU_SRC_STAT_STATE ≠ 3) o true
  have hreach := (((Effect.fwinNoted s (s.frame + 1) w).trans (hruns.pages (by decide))).trans (hgives.pages (by decide))).trans
    (hfollow.pages steerFields_in)
  have hin' := hfollow.fwinIn.trans (hgives.fwinIn.trans (hruns.fwinIn.trans (Steered.passTo _ w).fwinIn))
  have hlast := hfollow.fwinLast.trans (hgives.fwinLast.trans (hruns.fwinLast.trans (Steered.passTo _ w).fwinLast))
  refine ⟨_, hexec, hin', hlast, fun hlow => ?_, fun hlive => ?_, hreach.frame fun _ h => h⟩
  · rw [hfollow.rd (by decide) (by decide), hgives.rd (by decide) (by decide), State.fwinRuns_low (by rwa [State.fwinNoted_rd])]
  · rw [hfollow.rd (by decide) (by decide)]
    exact State.fwinGives_valid (State.fwinRuns_ne (by rwa [State.fwinNoted_rd]))

theorem fwinEdge_strays {s : State} {w : Nat} (hroot : s.isRoot = true) (hen : s.on WTU_FWIN_EN = true) (h1 : s.inWindow (s.frame + 1) w = false)
    (h2 : s.inWindow (s.frame + 2) w = false) :
    ∃ t, exec (.fwinEdge w) s = .next t ∧ t.rd WTU_FWIN_STAT_STRAY = min (s.rd WTU_FWIN_STAT_STRAY + 1) 65535 ∧
      t.wtu.goodEdges = 0 ∧ RegsKept (keysOf [WTU_FWIN_STAT_STRAY]) s t ∧ t.win = s.win ∧ t.mem = s.mem ∧ t.out = s.out := by
  have hreach : Effect (keysOf [WTU_FWIN_STAT_STRAY]) (fun _ => false) s
      ({ s with wtu := { s.wtu with fwinLast := some w, goodEdges := 0 } }.bump WTU_FWIN_STAT_STRAY) :=
    (Effect.setWtu _ _ s _).trans (.bump _ _ _ (by decide) (by decide))
  exact ⟨_, exec_fwinEdge_stray hroot hen h1 h2, State.rd_bumpBy _ WTU_FWIN_STAT_STRAY 1 (by decide), rfl, hreach.regs, rfl, rfl, rfl⟩

/-! ### The decision (R175, R177) -/

/-- The gate record of the coming tick: an active gate holds a tick whose window no edge fell in. -/
def State.fwinGate (s : State) : Gate :=
  let active := s.on WTU_FWIN_EN && s.rd WTU_FWIN_STAT_STATE != 3
  ⟨s.frame + 1, active && s.wtu.fwinIn != some (s.frame + 1), active⟩

/-- FWIN_STAT.STATE at a decision: 0 without gating, 1 while an edge is awaited. -/
def State.fwinNext (s : State) : Nat :=
  if s.on WTU_FWIN_EN = false then 0 else if s.rd WTU_FWIN_STAT_STATE = 0 then 1 else s.rd WTU_FWIN_STAT_STATE

/-- The root decides, before it tells of it. -/
def State.fwinDecided (s : State) : State :=
  { s.wr WTU_FWIN_STAT_STATE s.fwinNext with
    wtu := { s.wtu with gate := some s.fwinGate, heldRun := if s.fwinGate.hold then s.wtu.heldRun + 1 else 0,
                        goodEdges := if s.wtu.fwinIn == some (s.frame + 1) then s.wtu.goodEdges else 0 } }

theorem State.fwinNext_active (s : State) :
    (s.on WTU_FWIN_EN && s.fwinNext != 3) = (s.on WTU_FWIN_EN && s.rd WTU_FWIN_STAT_STATE != 3) := by
  unfold State.fwinNext
  split
  case isTrue hoff => rw [hoff]; rfl
  case isFalse =>
    split
    case isTrue hzero => rw [hzero]; rfl
    case isFalse => rfl

theorem exec_fwinDecision {s : State} (hroot : s.isRoot = true) : exec .fwinDecision s = .next
    (((if s.latchDone then s.fwinDecided else s.fwinDecided.noteHeld s.fwinGate.hold).sendTimeNow 0).sendTimeNow 1) := by
  have hactive := s.fwinNext_active
  unfold State.fwinNext at hactive
  simp only [exec, execFwinDecision, hroot, Bool.true_eq_false, if_false, hactive]
  rfl

theorem State.noteHeld_wtu (s : State) (h : Bool) : (s.noteHeld h).wtu = { s.wtu with held := some h } := by
  unfold State.noteHeld
  extract_lets s1
  split
  · exact State.raise_wtu _ 8 13
  · rfl

theorem Effect.noteHeld (s : State) (h : Bool) : Effect (keysOf [WTU_FWIN_STAT_HELD]) (fun _ => false) s (s.noteHeld h) := by
  have hset := Effect.setWtu (keysOf [WTU_FWIN_STAT_HELD]) (fun _ => false) s { s.wtu with held := some h }
  unfold State.noteHeld
  split
  · exact (hset.trans (.bump _ _ WTU_FWIN_STAT_HELD (by decide) (by decide))).trans (.raise _ _ _ 8 13)
  · exact hset

theorem State.noteHeld_held (s : State) : (s.noteHeld true).rd WTU_FWIN_STAT_HELD = min (s.rd WTU_FWIN_STAT_HELD + 1) 65535 ∧
    (s.noteHeld true).flag 8 13 = true := by
  refine ⟨?_, State.flag_raise _ 8 13 (by decide)⟩
  rw [State.noteHeld, if_pos rfl, State.raise_rd _ _ _ _ (by decide)]
  exact State.rd_bumpBy _ WTU_FWIN_STAT_HELD 1 (by decide)

/-- A decided tick's gate record stands, whether or not its latch point has passed. -/
theorem fwinDecided_gate (s : State) :
    (if s.latchDone then s.fwinDecided else s.fwinDecided.noteHeld s.fwinGate.hold).wtu.gate = some s.fwinGate := by
  split
  · rfl
  · rw [State.noteHeld_wtu]
    rfl

theorem Effect.fwinDecided (s : State) : Effect (keysOf [WTU_FWIN_STAT_STATE, WTU_FWIN_STAT_HELD]) (fun _ => false) s
    (if s.latchDone then s.fwinDecided else s.fwinDecided.noteHeld s.fwinGate.hold) := by
  have hdecided : Effect (keysOf [WTU_FWIN_STAT_STATE, WTU_FWIN_STAT_HELD]) (fun _ => false) s s.fwinDecided :=
    (Effect.wr _ s WTU_FWIN_STAT_STATE s.fwinNext (by decide) (by decide)).trans (.setWtu _ _ _ _)
  split
  · exact hdecided
  · exact hdecided.trans ((Effect.noteHeld _ _).mono (keysOf_subset (by simp)) fun _ h => h)

theorem fwinDecision_decided {s : State} (hroot : s.isRoot = true) : ∃ t g, exec .fwinDecision s = .next t ∧ t.wtu.gate = some g ∧
    g.frame = s.frame + 1 ∧
    g.active = (s.on WTU_FWIN_EN && s.rd WTU_FWIN_STAT_STATE != 3) ∧ g.hold = (g.active && s.wtu.fwinIn != some (s.frame + 1)) ∧
    (s.latchDone = false → t.wtu.held = some g.hold ∧
      (g.hold = true → t.rd WTU_FWIN_STAT_HELD = min (s.rd WTU_FWIN_STAT_HELD + 1) 65535 ∧ t.flag 8 13 = true)) ∧ SidesKept s t ∧
    RegsKept (keysOf [WTU_FWIN_STAT_STATE, WTU_FWIN_STAT_HELD]) s t ∧ WordsKept (fun _ => false) s t ∧ (s.quietMem → t.mem = s.mem) := by
  have hreach := Effect.fwinDecided s
  have hgate := fwinDecided_gate s
  rw [exec_fwinDecision hroot]
  generalize hu : (if s.latchDone then s.fwinDecided else s.fwinDecided.noteHeld s.fwinGate.hold) = u at hreach hgate
  have hsent (own : Nat → Bool) (ho : own WTU_SRC_CFG_STEP_EN.key = false) : Steered own u ((u.sendTimeNow 0).sendTimeNow 1) :=
    (Steered.sendTimeNow u 0 ho).trans (.sendTimeNow _ 1 ho)
  have hwtu : ((u.sendTimeNow 0).sendTimeNow 1).wtu = u.wtu := (State.sendTimeNow_wtu _ 1).trans (State.sendTimeNow_wtu u 0)
  refine ⟨_, s.fwinGate, rfl, hwtu ▸ hgate, rfl, rfl, rfl, fun hbefore => ?_, (hreach.trans (hsent _ (by decide)).effect).frame fun _ h => h⟩
  have hnoted : u = s.fwinDecided.noteHeld s.fwinGate.hold := by rw [← hu, hbefore]; rfl
  refine ⟨by rw [hwtu, hnoted, State.noteHeld_wtu], fun hhold => ?_⟩
  obtain ⟨hcount, hflag⟩ := s.fwinDecided.noteHeld_held
  rw [hhold] at hnoted
  have hfound : s.fwinDecided.rd WTU_FWIN_STAT_HELD = s.rd WTU_FWIN_STAT_HELD := State.rd_wr_ne s s.fwinNext (by decide)
  rw [hfound] at hcount
  refine ⟨?_, (hsent (fun _ => false) rfl).effect.flag (hnoted ▸ hflag)⟩
  rw [(hsent (fun _ => false) rfl).rd (by decide) rfl, hnoted, hcount]

/-! ### Gating reverts and resumes (R178) -/

/-- Gating is reverted: an edge has to come anew. -/
def State.fwinReverted (s : State) : State := { s with wtu := { s.wtu with goodEdges := 0, heldRun := 0 } }.wr WTU_FWIN_STAT_STATE 3

theorem exec_fwinLoss {s : State} (hroot : s.isRoot = true) (hrun : s.rd WTU_FWIN_TMO_FR ≤ s.wtu.heldRun) (hst : s.rd WTU_FWIN_STAT_STATE ≠ 3)
    (hen : s.on WTU_FWIN_EN = true) : exec .fwinLoss s = .next (s.fwinReverted.inputLost s 14 6) := if_pos ⟨hroot, hrun, hst, hen⟩

theorem fwinLoss_reverts {s : State} (hroot : s.isRoot = true) (hrun : s.rd WTU_FWIN_TMO_FR ≤ s.wtu.heldRun)
    (hst : s.rd WTU_FWIN_STAT_STATE ≠ 3) (hen : s.on WTU_FWIN_EN = true) :
    ∃ t, exec .fwinLoss s = .next t ∧ t.rd WTU_FWIN_STAT_STATE = 3 ∧ t.flag 8 14 = true ∧
      (t.rd WTU_SRC_STAT_VALID).testBit 6 = false ∧ SidesKept s t ∧
      RegsKept (pagesOf timePages) s t ∧ WordsKept (fun _ => false) s t ∧ (s.quietMem → t.mem = s.mem) := by
  have hlost := Steered.inputLost s s.fwinReverted 14 6
  have hreverted : Effect (pagesOf timePages) (fun _ => false) s s.fwinReverted :=
    (Effect.setWtu _ _ s _).trans (.wr _ _ WTU_FWIN_STAT_STATE 3 (by decide) (by decide))
  refine ⟨_, exec_fwinLoss hroot hrun hst hen, ?_, State.inputLost_flag _ s (by decide) 6, State.inputLost_valid _ s 14 (by decide),
    (hreverted.trans (hlost.pages (by decide))).frame fun _ h => h⟩
  rw [hlost.rd (by decide) (by decide)]
  exact State.rd_wr_of _ WTU_FWIN_STAT_STATE 2 rfl (by decide) (by decide)

theorem exec_fwinResume {s : State} (hst : s.rd WTU_FWIN_STAT_STATE = 3) (hgood : 8 ≤ s.wtu.goodEdges) :
    exec .fwinResume s = .next (s.told ((s.wr WTU_FWIN_STAT_STATE 2).setSource 6 true)) :=
  congrArg Host.Outcome.next (if_pos ⟨hst, hgood⟩)

theorem fwinResume_resumes {s : State} (hst : s.rd WTU_FWIN_STAT_STATE = 3) (hgood : 8 ≤ s.wtu.goodEdges) :
    ∃ t, exec .fwinResume s = .next t ∧ t.rd WTU_FWIN_STAT_STATE = 2 ∧
      (t.rd WTU_SRC_STAT_VALID).testBit 6 = true ∧ SidesKept s t ∧
      RegsKept (pagesOf timePages) s t ∧ WordsKept (fun _ => false) s t ∧ (s.quietMem → t.mem = s.mem) := by
  have hset := Steered.setSource (s.wr WTU_FWIN_STAT_STATE 2) 6 true
  have hwritten : Effect (pagesOf timePages) (fun _ => false) s (s.wr WTU_FWIN_STAT_STATE 2) := .wr _ s _ 2 (by decide) (by decide)
  refine ⟨_, exec_fwinResume hst hgood, ?_, ?_, ((hwritten.trans (hset.pages (by decide))).trans (.told _ s _)).frame fun _ h => h⟩
  · rw [State.told_rd _ _ (by decide), hset.rd (by decide) (by decide)]
    exact State.rd_wr_of s WTU_FWIN_STAT_STATE 2 rfl (by decide) (by decide)
  · rw [State.told_rd _ _ (by decide)]
    exact State.setSource_valid _ (by decide) true

/-! ### O21 -/

/-- Settles O21: an edge, the decision, the loss and the resumption each have one result state, in which neither the evaluation of the sources
nor a measured offset touches FWIN's own state. -/
theorem frameWindow : Obligations.FrameWindow := by
  unfold Obligations.FrameWindow
  intro s
  refine ⟨fun hroot => ⟨fun w hen => ⟨fun hfrom hto => fwinEdge_noted hroot hen (decide_eq_true ⟨hfrom, hto⟩),
      fun h1 h2 => fwinEdge_strays hroot hen (decide_eq_false h1) (decide_eq_false h2)⟩,
    fwinDecision_decided hroot, fwinLoss_reverts hroot⟩, fwinResume_resumes⟩

end Sys2Proof.Machine
end

