-- ==== Sys2Proof/Proofs/TimeFolios.lean ====
section
/-! SUPPORT. TIME folios at a node, and a parent that falls silent (R156 to R158, R164 to R169, R177). -/

namespace Sys2Proof.Machine

/-! ### Roots and parents (R168) -/

/-- The fields that show the root and the parent side. -/
def rootFields : List Fld := [WTU_LINK_PARENT 0, WTU_LINK_PARENT 1, WTU_ROOT_NODE, WTU_ROOT_RING, WTU_ROOT_QUAL, WTU_ROOT_HOPS, WTU_ROOT_ROOT_SRC,
  WTU_ROOT_SELF]

/-- The fields that the selection of a parent changes. -/
def parentFields : List Fld := rootFields ++ WTU_SRC_STAT_VALID :: sourceFields

theorem parentFields_in : fieldsIn timePages parentFields = true := by decide

theorem Steered.showRoot (s : State) (p : Option (RootInfo × Nat)) : Steered (keysOf rootFields) s (s.showRoot p) := by
  have hwr (u : State) {f : Fld} (v : Nat) (hf : f ∈ rootFields) : Steered (keysOf rootFields) u (u.wr f v) :=
    .wr u v (keysOf_mem hf) (plainKey_of_fieldsIn (ps := timePages) (by decide) hf) (by decide)
  have hsides := (hwr s (f := WTU_LINK_PARENT 0) (b2n (p.any fun c => c.2 == 0)) (by simp [rootFields])).trans
    (hwr _ (f := WTU_LINK_PARENT 1) (b2n (p.any fun c => c.2 == 1)) (by simp [rootFields]))
  have hroot (u : State) (node ring qual hops src self : Nat) : Steered (keysOf rootFields) u
      ((((((u.wr WTU_ROOT_NODE node).wr WTU_ROOT_RING ring).wr WTU_ROOT_QUAL qual).wr WTU_ROOT_HOPS hops).wr WTU_ROOT_ROOT_SRC src).wr
        WTU_ROOT_SELF self) :=
    (((((hwr u _ (by simp [rootFields])).trans (hwr _ _ (by simp [rootFields]))).trans (hwr _ _ (by simp [rootFields]))).trans
      (hwr _ _ (by simp [rootFields]))).trans (hwr _ _ (by simp [rootFields]))).trans (hwr _ _ (by simp [rootFields]))
  cases p with
  | none => exact hsides.trans (hroot _ _ _ _ _ _ _)
  | some c => exact hsides.trans (hroot _ _ _ _ _ _ _)

/-- The sources and the servo's state once the parent is `p`; a tile with none is in HOLDOVER. -/
def State.parentSourced (s : State) (p : Option (RootInfo × Nat)) : State :=
  if s.isTile && p.isNone && (s.setSource 5 p.isSome).rd WTU_SRC_STAT_STATE != 3 then ((s.setSource 5 p.isSome).setServo 3).raise 8 4
  else s.setSource 5 p.isSome

theorem State.selectParent_eq (s : State) : ∃ p q, s.selectParent = (s.parentSourced p).showRoot q := by
  unfold State.selectParent
  extract_lets cs best s1
  refine ⟨best, ?_⟩
  unfold State.parentSourced
  cases s.isTile
  · exact ⟨_, rfl⟩
  · exact ⟨best, rfl⟩

theorem Steered.parentSourced (s : State) (p : Option (RootInfo × Nat)) :
    Steered (keysOf (WTU_SRC_STAT_VALID :: sourceFields)) s (s.parentSourced p) := by
  have hset := Steered.setSource s 5 p.isSome
  unfold State.parentSourced
  split
  · exact hset.trans (((Steered.setServo_source _ 3).trans (.raise_source _ 8 4)).mono (keysOf_subset (List.subset_cons_self _ _)))
  · exact hset

theorem Steered.selectParent (s : State) : Steered (keysOf parentFields) s s.selectParent := by
  obtain ⟨p, q, heq⟩ := s.selectParent_eq
  rw [heq]
  exact ((Steered.parentSourced s p).mono (keysOf_subset (List.subset_append_right _ _))).trans
    ((Steered.showRoot _ q).mono (keysOf_subset (List.subset_append_left _ _)))

/-- No selection of a parent brings about a difference to the ring (R169). -/
theorem State.selectParent_ringOfs {s : State} (h : s.rd WTU_RING_OFS_VALID = 0) : s.selectParent.rd WTU_RING_OFS_VALID = 0 := by
  have hset (v : Bool) : (s.setSource 5 v).rd WTU_RING_OFS_VALID = 0 := by
    rw [State.setSource_eq]
    split
    · exact h
    · exact State.evalSrc_ringOfs ((State.rd_wr_ne _ _ (by decide)).trans h)
  obtain ⟨p, q, heq⟩ := s.selectParent_eq
  rw [heq, (Steered.showRoot _ q).rd (by decide) (by decide), State.parentSourced]
  split
  · rw [State.raise_rd _ _ _ _ (by decide), (Steered.setServo _ 3).rd (by decide) (by decide), hset]
  · exact hset _

/-! ### Links -/

theorem State.timeLink_setTimeLink {s : State} {sd : Nat} (h : sd < s.wtu.links.length) (x : TimeLink) : (s.setTimeLink sd x).timeLink sd = x := by
  simp [State.timeLink, State.setTimeLink, List.getD_eq_getElem?_getD, h]

theorem State.timeLink_setTimeLink_ne (s : State) {i sd : Nat} (h : sd ≠ i) (x : TimeLink) : (s.setTimeLink sd x).timeLink i = s.timeLink i := by
  simp [State.timeLink, State.setTimeLink, List.getD_eq_getElem?_getD, List.getElem?_set_ne h]

theorem State.timeLink_congr {s t : State} (h : t.wtu.links = s.wtu.links) (i : Nat) : t.timeLink i = s.timeLink i :=
  congrArg (·.getD i TimeLink.reset) h

theorem Effect.setTimeLink (own words : Nat → Bool) (s : State) (sd : Nat) (x : TimeLink) : Effect own words s (s.setTimeLink sd x) :=
  .setWtu own words s _

/-! ### A parent falls silent (R168) -/

/-- The root heard on a side that is silent is forgotten: on the parent side of a tile, on any side of a sender. -/
def State.rootForgotten (s : State) (sd : Nat) : State :=
  if s.parentSide sd || !s.isTile then s.setTimeLink sd { s.timeLink sd with root := none } else s

/-- The roots of both sides are forgotten, and a sender measures the ring's time no more. -/
def State.parentSilent (s : State) : State := ((s.rootForgotten 0).rootForgotten 1).when (!s.isTile) fun s => s.wr WTU_RING_OFS_VALID 0

theorem exec_parentTimeout (s : State) : exec .parentTimeout s = .next (s.told s.parentSilent.selectParent) := rfl

theorem State.rootForgotten_live (s : State) (sd : Nat) : (s.rootForgotten sd).live = s.live := by
  unfold State.rootForgotten
  split <;> rfl

theorem State.rootForgotten_timeLink_ne (s : State) {i sd : Nat} (h : sd ≠ i) : (s.rootForgotten sd).timeLink i = s.timeLink i := by
  unfold State.rootForgotten
  split
  · exact s.timeLink_setTimeLink_ne h _
  · rfl

theorem State.rootForgotten_root {s : State} {sd : Nat} (hlen : sd < s.wtu.links.length) (h : s.parentSide sd = true ∨ s.isTile = false) :
    ((s.rootForgotten sd).timeLink sd).root = none := by
  have hsilent : (s.parentSide sd || !s.isTile) = true := by
    rcases h with h | h <;> simp [h]
  rw [State.rootForgotten, if_pos hsilent, State.timeLink_setTimeLink hlen]

theorem Effect.rootForgotten (own words : Nat → Bool) (s : State) (sd : Nat) : Effect own words s (s.rootForgotten sd) := by
  unfold State.rootForgotten
  split
  · exact .setTimeLink own words s sd _
  · exact .refl own words s

theorem Effect.parentSilent (s : State) : Effect (pagesOf timePages) (fun _ => false) s s.parentSilent :=
  ((Effect.rootForgotten _ _ s 0).trans (.rootForgotten _ _ _ 1)).when _ fun u => .wr _ u WTU_RING_OFS_VALID 0 (by decide) (by decide)

theorem State.parentSilent_root {s : State} (hlen : s.wtu.links.length = 2) {sd : Nat} (hsd : sd < 2)
    (h : s.parentSide sd = true ∨ s.isTile = false) : (s.parentSilent.timeLink sd).root = none := by
  have hwhen : s.parentSilent.timeLink sd = ((s.rootForgotten 0).rootForgotten 1).timeLink sd :=
    State.when_keeps (P := fun t => t.timeLink sd = ((s.rootForgotten 0).rootForgotten 1).timeLink sd) _
      (fun s => s.wr WTU_RING_OFS_VALID 0) (fun _ ht => ht) rfl
  rw [hwhen]
  obtain rfl | rfl : sd = 0 ∨ sd = 1 := by omega
  · rw [State.rootForgotten_timeLink_ne _ (by decide)]
    exact State.rootForgotten_root (by omega) h
  · have hsame := State.rd_congr (s.rootForgotten_live 0)
    refine State.rootForgotten_root ?_ ?_
    · unfold State.rootForgotten State.setTimeLink
      split <;> simp [hlen]
    · simpa only [State.parentSide, State.isTile, State.role, State.on, hsame] using h

theorem State.parentSilent_ringOfs {s : State} (ht : s.isTile = false) : s.parentSilent.rd WTU_RING_OFS_VALID = 0 := by
  rw [State.parentSilent, ht]
  exact State.rd_wr_of _ WTU_RING_OFS_VALID 1 rfl (by decide) (by decide)

theorem parentTimeout_forgets {s : State} (hlen : s.wtu.links.length = 2) : ∃ t, exec .parentTimeout s = .next t ∧
    (∀ sd < 2, (s.parentSide sd = true ∨ s.isTile = false) → (t.timeLink sd).root = none) ∧
    (s.isTile = false → t.rd WTU_RING_OFS_VALID = 0) ∧ SidesKept s t ∧
    RegsKept (pagesOf timePages) s t ∧ WordsKept (fun _ => false) s t ∧ (s.quietMem → t.mem = s.mem) := by
  have hselect := Steered.selectParent s.parentSilent
  refine ⟨_, exec_parentTimeout s, fun sd hsd h => ?_, fun ht => ?_,
    (((Effect.parentSilent s).trans (hselect.pages parentFields_in)).trans (.told _ s _)).frame fun _ h => h⟩
  · rw [(Steered.told (own := fun _ => false) s _ rfl).roots, hselect.roots, State.parentSilent_root hlen hsd h]
  · rw [State.told_rd _ _ (by decide)]
    exact State.selectParent_ringOfs (State.parentSilent_ringOfs ht)

/-! ### What a parent's folio brings (R157, R158, R176, R177) -/

/-- A change that a parent's folio can bring about: timebase, switch and gate, with the pages of the trace ring and of the press, and no link. -/
structure Guided (s t : State) : Prop where
  effect : Effect (pagesOf ([1, 0x21] ++ timePages)) (fun _ => false) s t
  links : t.wtu.links = s.wtu.links

namespace Guided
variable {s t u : State}

theorem refl (s : State) : Guided s s := ⟨.refl _ _ s, rfl⟩

theorem trans (h : Guided s t) (k : Guided t u) : Guided s u := ⟨h.effect.trans k.effect, k.links.trans h.links⟩

theorem of_effect (h : Effect (pagesOf ([1, 0x21] ++ timePages)) (fun _ => false) s t) (hw : t.wtu = s.wtu) : Guided s t := ⟨h, by rw [hw]⟩

theorem when (h : Guided s t) (c : Bool) {g : State → State} (hg : ∀ s, Guided s (g s)) : Guided s (t.when c g) :=
  State.when_keeps (P := Guided s) c g (fun t h => h.trans (hg t)) h

theorem wr (s : State) (f : Fld) (v : Nat) (hf : pagesOf ([1, 0x21] ++ timePages) f.key = true) (hp : plainKey f.key = true) : Guided s (s.wr f v) :=
  ⟨.wr _ s f v hf hp, rfl⟩

theorem raise (s : State) (pg b : Nat) : Guided s (s.raise pg b) := of_effect (.raise _ _ s pg b) (State.raise_wtu s pg b)

/-- An error capture in a page in reach. -/
theorem captureInt (s : State) {pg : Nat} (code val : Nat) (hpg : fieldsIn ([1, 0x21] ++ timePages) (errFields pg) = true) :
    Guided s (s.captureInt pg code val) :=
  of_effect (.capture _ s pg code .firmware 0 val (pagesOf_of_fieldsIn hpg)) (apart_wtu.capture s pg code .firmware 0 val)

theorem wrAll (s : State) (f : Fld) (v : Nat) (hf : pagesOf ([1, 0x21] ++ timePages) f.key = true) (hp : plainKey f.key = true) :
    Guided s (s.wrAll f v) := by
  unfold State.wrAll
  split
  · exact (wr s f v hf hp).trans ⟨.of_same rfl rfl rfl rfl rfl, rfl⟩
  · exact wr s f v hf hp

theorem updNeed (s : State) : Guided s s.updNeed := by
  have hneed : Guided s (s.wr LCP_PRESS_NEED_US s.needUs) := wr s _ _ (by decide) (by decide)
  unfold State.updNeed
  extract_lets n s1
  split
  · exact (hneed.trans (wrAll _ LCP_PRESS_LEAD_US _ (by decide) (by decide))).trans (captureInt _ _ _ (by decide))
  · exact hneed

theorem leadClamp (s : State) : Guided s s.leadClamp := by
  unfold State.leadClamp
  extract_lets lead most
  split
  · exact (wr s WTU_FWIN_LEAD_US most (by decide) (by decide)).trans (captureInt _ _ _ (by decide))
  · exact refl s

end Guided

/-- The registers of the timebase in use take `b`. -/
def State.tbWritten (s : State) (b : Timebase) : State :=
  ((((((s.wr WTU_TB_T0S_SEC b.sec).wr WTU_TB_T0NS_NS b.ns).wr WTU_TB_T0NS_FRAC b.frac).wr WTU_TB_T0NS_L_US b.lUs).wr
    WTU_TB_T0NS_F_M1 b.legalF).wr WTU_TB_RATE_NUM b.num).wr WTU_TB_RATE_DEN b.den

/-- With an F that had to be clamped, that is recorded. -/
def State.tbClamped (s : State) (b : Timebase) : State :=
  if b.legalF = b.fM1 then s.tbWritten b else (s.tbWritten b).captureInt 8 errCLAMP b.fM1

/-- A timebase has been taken. -/
def State.tbHeld (s : State) : State := { s with wtu := { s.wtu with hasTb := true } }

theorem State.setTb_eq (s : State) (b : Timebase) : s.setTb b =
    (s.tbClamped b).leadClamp.tbHeld.when (s.tbClamped b).hasPixels State.updNeed := rfl

theorem Guided.tbHeld (s : State) : Guided s s.tbHeld := ⟨.setWtu _ _ s _, rfl⟩

theorem Guided.setTb (s : State) (b : Timebase) : Guided s (s.setTb b) := by
  have hwritten : Guided s (s.tbWritten b) :=
    ((((((wr s _ _ (by decide) (by decide)).trans (wr _ WTU_TB_T0NS_NS _ (by decide) (by decide))).trans
      (wr _ WTU_TB_T0NS_FRAC _ (by decide) (by decide))).trans (wr _ WTU_TB_T0NS_L_US _ (by decide) (by decide))).trans
      (wr _ WTU_TB_T0NS_F_M1 _ (by decide) (by decide))).trans (wr _ WTU_TB_RATE_NUM _ (by decide) (by decide))).trans
      (wr _ WTU_TB_RATE_DEN _ (by decide) (by decide))
  have hclamped : Guided s (s.tbClamped b) := by
    unfold State.tbClamped
    split
    · exact hwritten
    · exact hwritten.trans (captureInt _ _ _ (by decide))
  rw [State.setTb_eq]
  exact ((hclamped.trans (leadClamp _)).trans (tbHeld _)).when _ updNeed

theorem State.setLatchDone_wtu (s : State) (b : Bool) : State.wtu { s with latchDone := b } = s.wtu := rfl

theorem State.takeFrame_wtu (s : State) : s.takeFrame.wtu = s.wtu := by
  unfold State.takeFrame
  exact (State.setLatchDone_wtu (s.wr WTU_FRAME_FRAME_NO (s.tb.frameAt s.wtu.wt)) _).trans (State.wr_wtu _ _ _)

theorem Guided.takeFrame (s : State) : Guided s s.takeFrame :=
  .of_effect (((Steered.takeFrame s).pages steerFields_in).mono (pagesOf_mono (by decide)) fun _ h => h) s.takeFrame_wtu

/-- No switch waits. -/
def State.switchTaken (s : State) : State := { s with wtu := { s.wtu with switch := none } }
/-- A switch waits. -/
def State.switchHeld (s : State) (w : TbSwitch) : State := { s with wtu := { s.wtu with switch := some w } }

theorem Guided.switchTaken (s : State) : Guided s s.switchTaken := ⟨.setWtu _ _ s _, rfl⟩
theorem Guided.switchHeld (s : State) (w : TbSwitch) : Guided s (s.switchHeld w) := ⟨.setWtu _ _ s _, rfl⟩

theorem Guided.takeSwitch (s : State) (w : TbSwitch) : Guided s (s.takeSwitch w) :=
  ((Guided.switchTaken s).trans (.wr _ WTU_TB_CTRL_PEND 0 (by decide) (by decide))).trans (.setTb _ w.tb)

theorem Guided.pendTb (s : State) (w : TbSwitch) : Guided s (s.pendTb w) :=
  (((Guided.switchHeld s w).trans (.wr _ WTU_TB_CTRL_PEND 1 (by decide) (by decide))).trans (.raise _ 8 8)).when _ Guided.updNeed

theorem Guided.learnSwitch (s : State) (w : TbSwitch) (rx : Nat) : Guided s (s.learnSwitch w rx) := by
  unfold State.learnSwitch
  split
  · exact .refl s
  · split
    · exact (((Guided.takeSwitch s w).trans (.wr _ WTU_TB_CTRL_LATE_CNT _ (by decide) (by decide))).trans (.raise _ 8 10)).trans (.takeFrame _)
    · exact .pendTb s w

/-- A gate record is shown. -/
def State.gateShown (s : State) (g : Gate) : State :=
  { s with wtu := { s.wtu with gate := some g } }.wr WTU_FWIN_STAT_STATE (if g.active then 2 else 0)

theorem State.takeGate_eq (s : State) (g : Gate) : s.takeGate g =
    if s.wtu.gate = some g then s
    else if g.frame = s.frame + 1 ∧ s.latchDone = false ∧ s.wtu.held = none then (s.gateShown g).noteHeld (g.hold && g.active)
    else s.gateShown g := rfl

theorem Guided.noteHeld (s : State) (h : Bool) : Guided s (s.noteHeld h) :=
  ⟨(Effect.noteHeld s h).mono (pagesOf_of_fieldsIn (by decide)) fun _ h => h, by rw [State.noteHeld_wtu]⟩

theorem Guided.takeGate (s : State) (g : Gate) : Guided s (s.takeGate g) := by
  have hshown : Guided s (s.gateShown g) :=
    Guided.trans (t := { s with wtu := { s.wtu with gate := some g } }) ⟨.setWtu _ _ s _, rfl⟩
      (.wr _ WTU_FWIN_STAT_STATE _ (by decide) (by decide))
  rw [State.takeGate_eq]
  split
  · exact .refl s
  · split
    · exact hshown.trans (.noteHeld _ _)
    · exact hshown

/-- Whether a tile has, expects or has left behind the timebase of its parent's folio. -/
def State.tbKnown (s : State) (tb : Timebase) (sw : Option TbSwitch) : Bool :=
  s.tb == tb || (s.wtu.switch.any fun w => w.tb == tb) || (s.wtu.hasTb && sw.any fun w => w.tb == s.tb)

/-- A tile with the timebase of its parent's folio, and FRAME_NO with its first one. -/
def State.tbFollowed (s : State) (tb : Timebase) (sw : Option TbSwitch) : State :=
  let s1 := if s.tbKnown tb sw then s.tbHeld else s.setTb tb
  if s.wtu.hasTb then s1 else s1.takeFrame

/-- A tile with the pending switch of its parent's folio, received at `rx`. -/
def State.switchFollowed (s : State) (sw : Option TbSwitch) (rx : Nat) : State :=
  match sw with
  | some w => s.learnSwitch w rx
  | none => s

theorem State.fromParent_eq (s : State) (tb : Timebase) (sw : Option TbSwitch) (g : Gate) :
    s.fromParent tb sw g = ((s.tbFollowed tb sw).switchFollowed sw s.wtu.wt).takeGate g := rfl

theorem Guided.fromParent (s : State) (tb : Timebase) (sw : Option TbSwitch) (g : Gate) : Guided s (s.fromParent tb sw g) := by
  have htb : Guided s (s.tbFollowed tb sw) := by
    have hknown : Guided s (if s.tbKnown tb sw then s.tbHeld else s.setTb tb) := by
      split
      · exact .tbHeld s
      · exact .setTb s tb
    unfold State.tbFollowed
    extract_lets s1
    split
    · exact hknown
    · exact hknown.trans (.takeFrame s1)
  have hswitch (u : State) (rx : Nat) : Guided u (u.switchFollowed sw rx) := by
    unfold State.switchFollowed
    split
    · exact .learnSwitch u _ rx
    · exact .refl u
  rw [State.fromParent_eq]
  exact (htb.trans (hswitch _ _)).trans (.takeGate _ g)

/-! ### An exchange is taken (R166, R167, R169) -/

/-- A link after an exchange: its filters move on. -/
def TimeLink.moved (x : TimeLink) (e : Exchange) : TimeLink :=
  let jump := x.outliers == 15 && decide (100 * 65536 < (e.offset - Config.offsetFilter x.offsets).natAbs)
  { x with delays := e.delays, outliers := 0, settle := if e.fresh then x.settle - 1 else x.settle,
           offsets := if jump then [e.offset] else (e.offset :: x.offsets).take 16 }

/-- An exchange is measured on a side, and its delay shown. -/
def State.linkMeasured (s : State) (sd : Nat) (e : Exchange) : State :=
  ((s.setTimeLink sd ((s.timeLink sd).moved e)).wr (WTU_LINK_DELAY_PS sd) ((e.delay * 1000 / 65536).toNat)).wr (WTU_LINK_SETTLING sd)
    (b2n (((s.timeLink sd).moved e).settle != 0))

/-- A sender with another source shows the ring's time less its own. -/
def State.ringMeasured (s : State) (o : Int) : State := (s.wr WTU_RING_OFS_OFS_PS (ofSigned 32 (-o * 1000 / 65536))).wr WTU_RING_OFS_VALID 1

/-- What an exchange that was measured brings about: the servo follows the parent, or a sender shows the ring's time. -/
def State.linkFollowed (s : State) (sd : Nat) (e : Exchange) (phase : Bool) : State :=
  if s.rd WTU_SRC_STAT_SRC = 5 then (if s.parentSide sd ∧ e.delays ≠ [] then s.noteOffset e.offset phase else s)
  else if s.isTile = false ∧ e.delays ≠ [] then s.ringMeasured e.offset
  else s

theorem State.timeExchange_eq (s : State) (sd : Nat) (e : Exchange) :
    s.timeExchange sd e = (s.linkMeasured sd e).linkFollowed sd e ((s.timeLink sd).settle == 0) := rfl

/-- The fields that following an exchange changes. -/
def ringFields : List Fld := [WTU_RING_OFS_OFS_PS, WTU_RING_OFS_VALID] ++ steerFields

theorem ringFields_in : fieldsIn timePages ringFields = true := by decide

theorem Steered.linkFollowed (s : State) (sd : Nat) (e : Exchange) (phase : Bool) : Steered (keysOf ringFields) s (s.linkFollowed sd e phase) := by
  unfold State.linkFollowed
  split
  · split
    · exact (Steered.noteOffset s e.offset phase).mono (keysOf_subset (List.subset_append_right _ _))
    · exact .refl _ s
  · split
    · exact (Steered.wr s _ (by decide) (by decide) (by decide)).trans (.wr _ (f := WTU_RING_OFS_VALID) 1 (by decide) (by decide) (by decide))
    · exact .refl _ s

theorem Effect.linkMeasured (s : State) (sd : Fin 2) (e : Exchange) : Effect (pagesOf timePages) (fun _ => false) s (s.linkMeasured sd e) := by
  have hfields : fieldsIn timePages [WTU_LINK_DELAY_PS sd, WTU_LINK_SETTLING sd] = true := by clear * -; revert sd; decide
  exact ((Effect.setTimeLink _ _ s sd _).trans (.wr_pages _ _ hfields _ (by simp))).trans (.wr_pages _ _ hfields _ (by simp))

theorem State.linkMeasured_wtu (s : State) (sd : Nat) (e : Exchange) :
    (s.linkMeasured sd e).wtu = (s.setTimeLink sd ((s.timeLink sd).moved e)).wtu := (State.wr_wtu _ _ _).trans (State.wr_wtu _ _ _)

/-- The filters of one link move on; its stamps and its root stay, and the other link does. -/
theorem State.linkMeasured_timeLink {s : State} {sd : Nat} (hlen : sd < s.wtu.links.length) (e : Exchange) :
    ((s.linkMeasured sd e).timeLink sd).last = (s.timeLink sd).last ∧ ((s.linkMeasured sd e).timeLink sd).root = (s.timeLink sd).root ∧
      ∀ i, sd ≠ i → (s.linkMeasured sd e).timeLink i = s.timeLink i := by
  have hlinks (i : Nat) : (s.linkMeasured sd e).timeLink i = (s.setTimeLink sd ((s.timeLink sd).moved e)).timeLink i :=
    State.timeLink_congr (congrArg Wtu.links (s.linkMeasured_wtu sd e)) i
  rw [hlinks sd, State.timeLink_setTimeLink hlen]
  exact ⟨rfl, rfl, fun i hi => (hlinks i).trans (s.timeLink_setTimeLink_ne hi _)⟩

/-! ### A TIME folio is received (R165, R166) -/

/-- A TIME folio that is no outlier leaves its stamps, its root and its timebase in the link. -/
def State.folioHeard (s : State) (sd : Nat) (ws : List Word72) (rx : Nat) (seq : BitVec 12) (tb : Timebase) : State :=
  (s.passTo rx).setTimeLink sd
    { (s.passTo rx).timeLink sd with last := some (timeTx ws, rx, seq.toNat), root := some (timeRoot ws), tb := some tb }

/-- What a folio's timebase, switch and gate bring about: a tile follows those of its parent, and a sender that is not the root the gate. -/
def State.parentObeyed (s : State) (sd : Nat) (tb : Timebase) (sw : Option TbSwitch) (g : Gate) : State :=
  if s.isTile then (if s.parentSide sd then s.fromParent tb sw g else s) else if s.isRoot then s else s.takeGate g

theorem Guided.parentObeyed (s : State) (sd : Nat) (tb : Timebase) (sw : Option TbSwitch) (g : Gate) :
    Guided s (s.parentObeyed sd tb sw g) := by
  unfold State.parentObeyed
  split
  · split
    · exact .fromParent s tb sw g
    · exact .refl s
  · split
    · exact .refl s
    · exact .takeGate s g

theorem exec_timeFolioReceive_outlier {s : State} (sd : Fin 2) (ws : List Word72) (rx : Nat) (seq : BitVec 12)
    (h : (s.passTo rx).outlier sd ((s.passTo rx).folioExchange sd rx ws) = true) : exec (.timeFolioReceive sd ws rx seq) s =
      .next ((s.passTo rx).setTimeLink sd
        { (s.passTo rx).timeLink sd with outliers := ((s.passTo rx).timeLink sd).outliers + 1 }) := by
  simp only [exec, execTimeFolioReceive, h, if_true]

theorem exec_timeFolioReceive_taken {s : State} (sd : Fin 2) (ws : List Word72) (rx : Nat) (seq : BitVec 12)
    (h : (s.passTo rx).outlier sd ((s.passTo rx).folioExchange sd rx ws) = false) : ∃ tb sw g, exec (.timeFolioReceive sd ws rx seq) s =
      .next (s.told (((s.folioHeard sd ws rx seq tb).selectParent.timeExchange sd ((s.passTo rx).folioExchange sd rx ws)).parentObeyed sd
        tb sw g)) := by
  simp only [exec, execTimeFolioReceive, h, Bool.false_eq_true, if_false]
  exact ⟨_, _, _, rfl⟩

theorem timeFolio_outlier {s : State} (hlen : s.wtu.links.length = 2) (sd : Fin 2) (ws : List Word72) (rx : Nat) (seq : BitVec 12)
    (h : (s.passTo rx).outlier sd ((s.passTo rx).folioExchange sd rx ws) = true) : ∃ t, exec (.timeFolioReceive sd ws rx seq) s = .next t ∧
      t.timeLink sd = { s.timeLink sd with outliers := (s.timeLink sd).outliers + 1 } ∧ t.timeLink (1 - sd.val) = s.timeLink (1 - sd.val) ∧
      RegsKept (keysOf [WTU_SRC_STAT_OFFSET_NS, WTU_SRC_STAT_HOLD_S]) s t ∧ t.win = s.win ∧ t.mem = s.mem ∧ t.out = s.out := by
  have hlinks := s.passTo_links rx
  have hsame (i : Nat) : (s.passTo rx).timeLink i = s.timeLink i := State.timeLink_congr hlinks i
  refine ⟨_, exec_timeFolioReceive_outlier sd ws rx seq h, ?_, ?_, (Steered.passTo s rx).effect.regs, s.passTo_same rx⟩
  · rw [State.timeLink_setTimeLink (by rw [hlinks, hlen]; exact sd.isLt), hsame]
  · rw [State.timeLink_setTimeLink_ne _ (by omega), hsame]

/-- The folio's link, before the parent is selected anew. -/
theorem State.folioHeard_timeLink {s : State} (hlen : s.wtu.links.length = 2) (sd : Fin 2) (ws : List Word72) (rx : Nat) (seq : BitVec 12)
    (tb : Timebase) : ((s.folioHeard sd ws rx seq tb).timeLink sd).root = some (timeRoot ws) ∧
      ((s.folioHeard sd ws rx seq tb).timeLink sd).last = some (timeTx ws, rx, seq.toNat) ∧
      (s.folioHeard sd ws rx seq tb).timeLink (1 - sd.val) = s.timeLink (1 - sd.val) := by
  rw [State.folioHeard, State.timeLink_setTimeLink (by rw [s.passTo_links rx, hlen]; exact sd.isLt), State.timeLink_setTimeLink_ne _ (by omega)]
  exact ⟨rfl, rfl, State.timeLink_congr (s.passTo_links rx) _⟩

theorem State.linkMeasured_stepEn (s : State) (sd : Fin 2) (e : Exchange) :
    (s.linkMeasured sd e).on WTU_SRC_CFG_STEP_EN = s.on WTU_SRC_CFG_STEP_EN := by
  have hne : ∀ f ∈ [WTU_LINK_DELAY_PS sd, WTU_LINK_SETTLING sd], WTU_SRC_CFG_STEP_EN.key ≠ f.key := by clear * -; revert sd; decide
  rw [State.on, State.linkMeasured, State.rd_wr_ne _ _ (hne _ (by simp)), State.rd_wr_ne _ _ (hne _ (by simp))]
  rfl

section
variable {s : State} (hinv : s.Inv) (sd : Fin 2) (ws : List Word72) (rx : Nat) (seq : BitVec 12) (tb : Timebase) (sw : Option TbSwitch) (g : Gate)
  (e : Exchange)
include hinv

theorem State.folioHeard_inv : (s.folioHeard sd ws rx seq tb).selectParent.Inv := hinv.passTo.setTimeLink.selectParent

/-- Each link keeps its root from the folio on: none of what follows hears or forgets one. -/
theorem folioTaken_roots :
    (((s.told (((s.folioHeard sd ws rx seq tb).selectParent.timeExchange sd e).parentObeyed sd tb sw g)).timeLink sd).root = some (timeRoot ws)) ∧
      ((s.told (((s.folioHeard sd ws rx seq tb).selectParent.timeExchange sd e).parentObeyed sd tb sw g)).timeLink (1 - sd.val)).root =
        (s.timeLink (1 - sd.val)).root := by
  have hsel := Steered.selectParent (s.folioHeard sd ws rx seq tb)
  have hlen : sd.val < (s.folioHeard sd ws rx seq tb).selectParent.wtu.links.length := by
    rw [(State.folioHeard_inv hinv sd ws rx seq tb).links]
    exact sd.isLt
  obtain ⟨hroot, -, hother⟩ := State.folioHeard_timeLink hinv.links sd ws rx seq tb
  generalize (s.folioHeard sd ws rx seq tb).selectParent = u1 at hsel hlen
  obtain ⟨-, hmeasured, helse⟩ := State.linkMeasured_timeLink hlen e
  have hkept (i : Nat) : ((s.told ((u1.timeExchange sd e).parentObeyed sd tb sw g)).timeLink i).root = ((u1.linkMeasured sd e).timeLink i).root := by
    rw [(Steered.told (own := fun _ => false) s _ rfl).roots, State.timeLink_congr (Guided.parentObeyed _ sd tb sw g).links, State.timeExchange_eq,
      (Steered.linkFollowed _ sd e _).roots]
  rw [hkept, hkept, hmeasured, hsel.roots, hroot, helse _ (by omega), hsel.roots, hother]
  exact ⟨rfl, rfl⟩

/-- Where the servo may not step, the stamps stand too: the exchange moves the filters of the folio's own link alone. -/
theorem folioTaken_links (hlocked : s.wtu.wasLocked = true) (hstep : s.on WTU_SRC_CFG_STEP_EN = false) :
    ((s.told (((s.folioHeard sd ws rx seq tb).selectParent.timeExchange sd e).parentObeyed sd tb sw g)).timeLink sd).last =
        some (timeTx ws, rx, seq.toNat) ∧
      (s.told (((s.folioHeard sd ws rx seq tb).selectParent.timeExchange sd e).parentObeyed sd tb sw g)).timeLink (1 - sd.val) =
        s.timeLink (1 - sd.val) := by
  have hpass := Steered.passTo s rx
  have hsel := Steered.selectParent (s.folioHeard sd ws rx seq tb)
  have hlocked0 : (s.folioHeard sd ws rx seq tb).wtu.wasLocked = true := hpass.locked hlocked
  have hstep0 : (s.folioHeard sd ws rx seq tb).on WTU_SRC_CFG_STEP_EN = false := hpass.stepEn.trans hstep
  have hlen : sd.val < (s.folioHeard sd ws rx seq tb).selectParent.wtu.links.length := by
    rw [(State.folioHeard_inv hinv sd ws rx seq tb).links]
    exact sd.isLt
  obtain ⟨-, hlast, hother⟩ := State.folioHeard_timeLink hinv.links sd ws rx seq tb
  have hlocked1 := hsel.locked hlocked0
  have hstep1 := hsel.stepEn.trans hstep0
  have hsame := State.timeLink_congr (hsel.links hlocked0 hstep0)
  generalize (s.folioHeard sd ws rx seq tb).selectParent = u1 at hlocked1 hstep1 hsame hlen
  obtain ⟨hmeasured, -, helse⟩ := State.linkMeasured_timeLink hlen e
  have hfollow := Steered.linkFollowed (u1.linkMeasured sd e) sd e ((u1.timeLink sd).settle == 0)
  have hlinks := hfollow.links (by rw [State.linkMeasured_wtu]; exact hlocked1) ((u1.linkMeasured_stepEn sd e).trans hstep1)
  have hkept (i : Nat) : (s.told ((u1.timeExchange sd e).parentObeyed sd tb sw g)).timeLink i = (u1.linkMeasured sd e).timeLink i := by
    refine State.timeLink_congr ?_ i
    rw [State.told_wtu, (Guided.parentObeyed _ sd tb sw g).links, State.timeExchange_eq, hlinks]
  rw [hkept, hkept, hmeasured, hsame, hlast, helse _ (by omega), hsame, hother]
  exact ⟨rfl, rfl⟩

omit hinv in
theorem Effect.folioTaken : Effect (pagesOf ([1, 0x21] ++ timePages)) (fun _ => false) s
    (s.told (((s.folioHeard sd ws rx seq tb).selectParent.timeExchange sd e).parentObeyed sd tb sw g)) := by
  have hheard : Effect (pagesOf timePages) (fun _ => false) s (s.folioHeard sd ws rx seq tb) :=
    (Effect.passTo s rx).trans (.setTimeLink _ _ _ sd _)
  have hselected := hheard.trans ((Steered.selectParent _).pages parentFields_in)
  have hexchanged : Effect (pagesOf timePages) (fun _ => false) s ((s.folioHeard sd ws rx seq tb).selectParent.timeExchange sd e) := by
    rw [State.timeExchange_eq]
    exact (hselected.trans (.linkMeasured _ sd e)).trans ((Steered.linkFollowed _ sd e _).pages ringFields_in)
  exact ((hexchanged.mono (pagesOf_mono (List.subset_append_right _ _)) fun _ h => h).trans (Guided.parentObeyed _ sd tb sw g).effect).trans
    (.told _ s _)

end

theorem timeFolio_taken {s : State} (hinv : s.Inv) (sd : Fin 2) (ws : List Word72) (rx : Nat) (seq : BitVec 12)
    (h : (s.passTo rx).outlier sd ((s.passTo rx).folioExchange sd rx ws) = false) : ∃ t, exec (.timeFolioReceive sd ws rx seq) s = .next t ∧
      (t.timeLink sd).root = some (timeRoot ws) ∧ (t.timeLink (1 - sd.val)).root = (s.timeLink (1 - sd.val)).root ∧
      (s.wtu.wasLocked = true → s.on WTU_SRC_CFG_STEP_EN = false → (t.timeLink sd).last = some (timeTx ws, rx, seq.toNat) ∧
        t.timeLink (1 - sd.val) = s.timeLink (1 - sd.val)) ∧ SidesKept s t ∧
      RegsKept (pagesOf ([1, 0x21] ++ timePages)) s t ∧ WordsKept (fun _ => false) s t ∧ (s.quietMem → t.mem = s.mem) := by
  obtain ⟨tb, sw, g, hexec⟩ := exec_timeFolioReceive_taken sd ws rx seq h
  obtain ⟨hroot, hother⟩ := folioTaken_roots hinv sd ws rx seq tb sw g ((s.passTo rx).folioExchange sd rx ws)
  exact ⟨_, hexec, hroot, hother, folioTaken_links hinv sd ws rx seq tb sw g _, (Effect.folioTaken sd ws rx seq tb sw g _).frame fun _ h => h⟩

/-! ### O20 -/

/-- Settles O20: what a folio leaves in its link stands through the selection of a parent, the exchange and what the parent's folio brings, for
these move no root, and no stamp while the servo may not step; a silent parent's root is gone before a parent is selected. -/
theorem timeFolios : Obligations.TimeFolios := by
  unfold Obligations.TimeFolios
  intro s hinv
  exact ⟨fun sd ws rx seq => ⟨timeFolio_outlier hinv.links sd ws rx seq, timeFolio_taken hinv sd ws rx seq⟩, parentTimeout_forgets hinv.links⟩

end Sys2Proof.Machine
end
